-- ==== Sys2Proof/Word.lean ====
section
/-! DEFINITION. The word types of the Knaru architecture (R5) and nothing else. -/

namespace Sys2Proof

/-- A byte (R5). -/
abbrev Byte := BitVec 8
/-- A word of 32 bits (R5). -/
abbrev Word := BitVec 32
/-- A dword of 64 bits (R5). -/
abbrev DWord := BitVec 64

/-- A 64-bit value from its even (low) and odd (high) register (R7). -/
def dwordOf (lo hi : Word) : DWord := hi ++ lo

/-- Bits [31:0] of a 64-bit value, the even register of a pair (R7). -/
def DWord.lo (d : DWord) : Word := d.setWidth 32

/-- Bits [63:32] of a 64-bit value, the odd register of a pair (R7). -/
def DWord.hi (d : DWord) : Word := (d >>> 32).setWidth 32

/-- A Boolean as a 32-bit 0 or 1. -/
def Word.ofBool (b : Bool) : Word := if b then 1#32 else 0#32

end Sys2Proof
end

