-- ==== Sys2Proof/Config.lean ====
section
/-! DEFINITION. What the manual leaves open, as constants without a body (log entry 1), and the figures of the part that
every chapter uses (R2, R18, R20). -/

namespace Sys2Proof.Config

/-- A free Boolean: one fresh choice per argument. Used where the manual names two allowed outcomes (R27). -/
opaque freeBool : Nat → Bool

/-- A free word: one fresh value per argument. Used where the manual gives no value. -/
opaque freeWord : Nat → Word

/-- A free number: one fresh value per argument. -/
opaque freeNat : Nat → Nat

/-- The AES-256 counter-mode keystream byte of R401: key, line number off[39:7], write counter, page generation,
byte in the line. The manual names the cipher and the counter's parts and not their places in the block. -/
opaque keystream : BitVec 256 → Nat → Nat → BitVec 8 → Nat → Byte

/-- The keys Myern draws from the island's random source at the n-th island boot (R95, R15). -/
opaque randomKey : Nat → BitVec 256

/-- The skew of a slice's tick, and of a core's tick, against the global tick (R4). -/
opaque skewRaw : Nat → Int
/-- The least skew of the module's units. -/
opaque skewBase : Int

/-- R4, R112: whatever the raw constants are, a unit's tick is within 8 ticks of the global tick and of every other unit's. -/
def skew (unit : Nat) : Int := max (-8) (min 0 skewBase) + max 0 (min 8 (skewRaw unit))

/-- ECDSA P-384 with SHA-384 under the identity key, which never leaves the island (R15, R382): the manual gives neither the key nor a
value. -/
opaque sign : List Byte → BitVec 768
/-- SHA-384, which chains the event log (R381). -/
opaque sha384 : List Byte → BitVec 384

/-- Whether a signature of ECDSA P-384 with SHA-384 verifies under the Nelrus key of the boot ROM (R381): the manual gives no key. -/
opaque verify : List Byte → List Byte → Bool
/-- The certificates of slot 0, from the Nelrus root down to, and without, the leaf's key and what follows it; the identity key (R382): the
manual gives neither. -/
opaque certHead : List Byte
opaque certTail : List Byte
opaque identityKey : BitVec 768

/-- Which port a destination and path, or in the spanning tree of a root a destination, is reached by, as a number among the ports that are
up (R368, R370): the manual gives no links between modules. -/
opaque route : Nat → Nat → Nat
opaque treeRoute : Nat → Nat → Nat

/-- R39: a tie between two M8 magnitudes whose codes have the same parity (1.5·2^−21 and 1.5·2^−7): the rule names neither;
by the smaller code, whether the larger magnitude is taken (log entry 11). -/
opaque m8TieUp : Nat → Bool

/-- Routers and slices are numbered alike: 128 (R2). -/
def slices : Nat := 128
/-- Cores of the module (R2). -/
def cores : Nat := 512
/-- Register-file entries software can use per core (R20). -/
def fileEntries : Nat := 2816
/-- Largest block memory a block may declare, in KiB (R20). -/
def scratchKiB : Nat := 320
/-- Shadow reserve in bytes (R20, R188). -/
def shadowBytes : Nat := 65536
/-- Contexts resident at once (R95). -/
def residentMax : Nat := 64
/-- Kernels of a context running or ending (R139). -/
def kernelsMax : Nat := 1024
/-- Activities of a context that are not terminal (R342). -/
def activitiesMax : Nat := 1024
/-- History-log entries per stack at h = 1 (R396); in proportion to h otherwise. -/
def ringEntries (h : Nat) : Nat := 26843545 * h

end Sys2Proof.Config
end

