-- ==== Sys2Proof/Syntax.lean ====
section
/-! DEFINITION. The instructions of the Knaru architecture and the steps of the device, one constructor per row of the
opcode table. Rows 0-172 are instruction words (R54-R71); rows 173-290 are what the device, a host or a peer does in one
indivisible step, with what it brings along as its arguments. -/

namespace Sys2Proof

/-- A field that names a vector operand: 0-119 a window register, 120-127 a queue port (R58). -/
abbrev VReg := BitVec 7
/-- A field that names a uniform register relative to UBASE (R60). -/
abbrev KReg := BitVec 7
/-- The stall count S (R54, R64). -/
abbrev Stall := BitVec 4

/-- Access widths (R67). -/
inductive Width where
  | b8 | b16 | b32 | b64 | b128
  deriving DecidableEq, Repr

/-- Scopes 1-6 (R321). -/
inductive Scope where
  | grp | blk | team | dev | dom | sys
  deriving DecidableEq, Repr

/-- Conditions of the C form (R63). -/
inductive Cond where
  | eq | ne | lt | le | gt | ge | un
  deriving DecidableEq, Repr

/-- Predicate selectors of guard and bra (R62). -/
inductive Sel where
  | always
  | lane (neg : Bool) (p : BitVec 4)
  | uni (neg : Bool) (p : BitVec 2)
  deriving DecidableEq, Repr

/-- Shift kinds of shfi and kshfi (R197). -/
inductive ShiftKind where
  | shl | shr | sra | rot
  deriving DecidableEq, Repr

/-- Unary integer functions (R200). -/
inductive IunFn where
  | popc | clz | brev | iabs | ineg | not | sext8 | sext16 | zext8 | zext16 | bswap
  deriving DecidableEq, Repr

/-- Floating-point functions of fun (R207). -/
inductive FunFn where
  | abs | neg | rcp | rsq | sqrt | exp2 | log2 | sinpi | cospi | floor | ceil | trunc | rint
  deriving DecidableEq, Repr

/-- The conversions of cvt (R42). -/
inductive CvtKind where
  | f32s32 | f32z32 | s32f32 | z32f32 | f32f16lo | f32f16hi | f32bf16lo | f32bf16hi
  | f16x2f32 | bf16x2f32 | f64f32 | f32f64 | f64s32 | f64z32 | s32f64 | z32f64
  deriving DecidableEq, Repr

/-- Rounding directions (R33, R42). -/
inductive Rm where
  | rn | rz | ru | rd
  deriving DecidableEq, Repr

/-- Quad exchanges (R215). -/
inductive QxFn where
  | h | v | d | bc (n : BitVec 2)
  deriving DecidableEq, Repr

/-- Reductions (R217). -/
inductive ReduxOp where
  | addS | minS | maxS | minZ | maxZ | and | or | xor | fadd | fmin | fmax
  deriving DecidableEq, Repr

/-- Special registers of sread (R112). -/
inductive SreadFn where
  | tick | ctxid | core | slot | group | role | teamsz | blockid | lanes | runmask | present | frame | join
  | wbase | ubase | island
  deriving DecidableEq, Repr

/-- Atomic operations (R244). -/
inductive AtomOp where
  | add | min | max | and | or | xor | xchg | cas | fadd | fmin | fmax
  deriving DecidableEq, Repr

/-- Atomic types (R243). -/
inductive AtomTy where
  | s32 | z32 | s64 | z64 | f32 | f16x2 | bf16x2
  deriving DecidableEq, Repr

/-- Declared uses of an atomic (R245). -/
inductive AtomUse where
  | un | cm | no | qt | sp
  deriving DecidableEq, Repr

/-- Orders of an atomic (R243). -/
inductive AtomOrd where
  | relaxed | acq | rel | acqrel
  deriving DecidableEq, Repr

/-- The literal word of an atomic (R243). -/
structure AtomSpec where
  op    : AtomOp
  ty    : AtomTy
  use   : AtomUse
  ord   : AtomOrd
  scope : Scope
  noret : Bool
  deriving DecidableEq, Repr

/-- Fence kinds (R254). -/
inductive FenceKind where
  | acq | rel | acqrel | sc
  deriving DecidableEq, Repr

/-- A byte count of a copy: encoded, or taken from a uniform register at issue (R292). -/
inductive Count where
  | imm (n : BitVec 20)
  | reg (k : KReg)
  deriving DecidableEq, Repr

/-- A row count of cp.tile (R297). -/
inductive RowCount where
  | imm (n : BitVec 16)
  | reg (k : KReg)
  deriving DecidableEq, Repr

/-- Element types of cp.red (R292). -/
inductive RedTy where
  | f32 | bf16 | s32
  deriving DecidableEq, Repr

/-- Operand formats of a matrix pass (R265). -/
inductive MatFmt where
  | bf16 | f16 | m8 | s8 | z8
  deriving DecidableEq, Repr

/-- Words 1 and 2 of a pass: one operand (R265). -/
structure MatOperand where
  base   : KReg
  stride : KReg
  fmt    : MatFmt
  blk    : Bool
  deriving DecidableEq, Repr

/-- The depth K of a pass: encoded, or from a uniform register at issue (R265). -/
inductive Depth where
  | imm (k : BitVec 13)
  | reg (k : KReg)
  deriving DecidableEq, Repr

/-- The parameter block of mma and mma.pair (R265). -/
structure MmaSpec where
  a     : MatOperand
  b     : MatOperand
  depth : Depth
  sa    : BitVec 7
  sb    : BitVec 7
  bsel  : BitVec 2
  row   : BitVec 9
  ow    : Bool
  tok   : BitVec 3
  deriving DecidableEq, Repr

/-- Memory formats of accumulator transfers (R269). -/
inductive AccFmt where
  | f32 | bf16 | f16
  deriving DecidableEq, Repr

/-- The literal word of acc.zero, acc.ld, acc.st and the first of acc.cp (R269, R272). -/
structure AccSpec where
  first : BitVec 9
  rows  : BitVec 7      -- rows − 1
  tok   : BitVec 3
  blk   : Bool
  fmt   : AccFmt
  deriving DecidableEq, Repr

/-- An engine entry as a step names it: entry n of a core's load or store queue, oldest first; a chain channel; the head of a
group's matrix queue. -/
inductive EngRef where
  | ld (core : Nat) (n : Nat)
  | st (core : Nat) (n : Nat)
  | ch (core : Nat) (c : Nat)
  | mat (blk : Nat) (grp : Nat)
  deriving DecidableEq, Repr

/-- A result of a floating-point unit (R53): NaN, an infinity, or ±m·2^e. -/
inductive UnitVal where
  | nan
  | inf (neg : Bool)
  | fin (neg : Bool) (m : Nat) (e : Int)
  deriving DecidableEq, Repr

/-- A shadowed unit at work (R52): that of a lane's element, low or high, or the column adder of a row and column of a group's pass. -/
inductive Site where
  | lane (grp lane : Nat) (hi : Bool)
  | pass (grp m n : Nat)
  deriving DecidableEq, Repr

/-- What refers to a bad physical register: the group's rename map as it is now, the lane's region entry, or the rollback snapshot (R166,
R190). -/
inductive BadAt where
  | map | region | rollback
  deriving DecidableEq, Repr

/-- A stack slot of a lane whose physical register is bad (R166, R190). -/
structure BadReg where
  blk  : Nat
  grp  : Nat
  lane : Nat
  slot : Nat
  place : BadAt
  deriving DecidableEq, Repr

/-- What an uncorrectable error is reported as (R190): an error in block memory, or in a physical register with everything that refers to
it; or a mismatch that the mitten declares beside a unit whose result is `main`. -/
inductive ErrKind where
  | ecc (regs : List BadReg)
  | mitten (site : Site) (main : UnitVal)
  deriving DecidableEq, Repr

/-- A packet (R366): its header fields and the bytes of its data flits. `zeros` says whether every zero field is zero. -/
structure Packet where
  kind  : Nat
  vc    : Nat
  path  : Nat
  cls   : Nat
  esc   : Bool
  dst   : Nat
  src   : Nat
  inc   : BitVec 8
  seq   : Nat
  off   : Nat
  tag   : Nat
  ctx   : Nat
  spec  : List Byte
  data  : List Byte
  zeros : Bool
  deriving DecidableEq, Repr

/-- A link block as it arrives or is sent (R364): 16 data flits, 512 bytes, and the 32 bytes of the control flit. -/
structure LinkBlock where
  data : List Byte
  ctl  : List Byte
  deriving DecidableEq, Repr

/-- A command record's sender, sequence number, and zero field of bytes 6 and 7 (R377). -/
structure Cmd where
  host : Nat
  seq  : Word
  zero : BitVec 16 := 0#16
  deriving DecidableEq, Repr

/-- The sender of a command that any host may send, whose sequence number is 0, and its zero field (R376, R377). -/
structure Sender where
  host : Nat
  zero : BitVec 16 := 0#16
  deriving DecidableEq, Repr

/-- The domain table (R361); its byte layout is the model's (log entry 9). -/
structure DomainTable where
  id      : Nat
  own     : Nat
  members : List (Nat × Nat)
  deriving DecidableEq, Repr

/-- A firmware image (R381): version, signature and body; their places are the model's (log entry 9). -/
structure FwImage where
  version : Nat
  sig     : List Byte
  body    : List Byte
  deriving DecidableEq, Repr

/-- A management packet's content (R367). -/
inductive Management where
  | down
  | up (inc : Option (BitVec 8))
  | tickSync (tick : DWord)
  | dusk (d : DWord)
  | pin (stamp : DWord)
  | unpin (stamp : DWord)
  deriving DecidableEq, Repr

/-- The opcode table: one constructor per row. `s` is the stall count of an instruction word. -/
inductive Instr where
  -- control (R72, R154-R164, R143, R184-R187, R111)
  | nop (s : Stall)
  | guard (sel : Sel) (n : BitVec 4) (s : Stall)
  | bra (sel : Sel) (off : BitVec 14) (s : Stall)
  | call (shift : BitVec 7) (off : BitVec 14) (s : Stall)
  | jmp (a : VReg) (s : Stall)
  | ret (s : Stall)
  | callr (shift : BitVec 7) (a : VReg) (s : Stall)
  | meet (s : Stall)
  | exit (s : Stall)
  | yield (s : Stall)
  | brk (s : Stall)
  | trap (n : BitVec 7) (s : Stall)
  | region (s : Stall)
  | drainst (s : Stall)
  | chkerr (d : KReg) (s : Stall)
  | rett (s : Stall)
  | exitGrp (s : Stall)
  | win (b : BitVec 7) (s : Stall)
  | wink (b : BitVec 7) (s : Stall)
  -- literals, moves, special registers, CSRs, tokens (R218, R219, R112, R103, R282)
  | lit (d : VReg) (v : Word) (s : Stall)
  | klit (d : KReg) (v : Word) (s : Stall)
  | mov (d a : VReg) (s : Stall)
  | movBroadcast (d : VReg) (a : KReg) (s : Stall)
  | movToUniform (d : KReg) (a : VReg) (s : Stall)
  | movPv (d : VReg) (s : Stall)
  | movVp (a : VReg) (s : Stall)
  | movKp (d : BitVec 7) (a : KReg) (s : Stall)
  | sread (fn : SreadFn) (d : KReg) (s : Stall)
  | csrr (d : KReg) (csr : BitVec 16) (s : Stall)
  | csrw (csr : BitVec 16) (a : KReg) (s : Stall)
  | waitt (mask : BitVec 8) (s : Stall)
  -- integer (R195-R201)
  | iadd (d a b : VReg) (s : Stall)
  | isub (d a b : VReg) (s : Stall)
  | imul (d a b : VReg) (s : Stall)
  | imulhS (d a b : VReg) (s : Stall)
  | imulhZ (d a b : VReg) (s : Stall)
  | imad (d a b : VReg) (s : Stall)
  | and (d a b : VReg) (s : Stall)
  | or (d a b : VReg) (s : Stall)
  | xor (d a b : VReg) (s : Stall)
  | andn (d a b : VReg) (s : Stall)
  | shl (d a b : VReg) (s : Stall)
  | shr (d a b : VReg) (s : Stall)
  | sra (d a b : VReg) (s : Stall)
  | iminS (d a b : VReg) (s : Stall)
  | iminZ (d a b : VReg) (s : Stall)
  | imaxS (d a b : VReg) (s : Stall)
  | imaxZ (d a b : VReg) (s : Stall)
  | iaddi (d a : VReg) (i : BitVec 7) (s : Stall)
  | shfi (kind : ShiftKind) (d a : VReg) (n : BitVec 5) (s : Stall)
  | andi (d a : VReg) (i : BitVec 7) (s : Stall)
  | iadd64 (d a b : VReg) (s : Stall)
  | lea (d a b : VReg) (s : Stall)
  | icmpS (c : Cond) (p : BitVec 4) (a b : VReg) (s : Stall)
  | icmpZ (c : Cond) (p : BitVec 4) (a b : VReg) (s : Stall)
  | iun (fn : IunFn) (d a : VReg) (s : Stall)
  | bfe (d a b : VReg) (s : Stall)
  | bfi (d a b : VReg) (s : Stall)
  -- floating point (R203-R209)
  | faddF32 (d a b : VReg) (s : Stall)
  | fsubF32 (d a b : VReg) (s : Stall)
  | fmulF32 (d a b : VReg) (s : Stall)
  | ffmaF32 (d a b : VReg) (s : Stall)
  | fminF32 (d a b : VReg) (s : Stall)
  | fmaxF32 (d a b : VReg) (s : Stall)
  | fcmpF32 (c : Cond) (p : BitVec 4) (a b : VReg) (s : Stall)
  | funF32 (fn : FunFn) (d a : VReg) (s : Stall)
  | faddF16x2 (d a b : VReg) (s : Stall)
  | fsubF16x2 (d a b : VReg) (s : Stall)
  | fmulF16x2 (d a b : VReg) (s : Stall)
  | ffmaF16x2 (d a b : VReg) (s : Stall)
  | fminF16x2 (d a b : VReg) (s : Stall)
  | fmaxF16x2 (d a b : VReg) (s : Stall)
  | fcmpF16x2 (c : Cond) (p : BitVec 4) (a b : VReg) (s : Stall)
  | funF16x2 (fn : FunFn) (d a : VReg) (s : Stall)
  | faddBf16x2 (d a b : VReg) (s : Stall)
  | fsubBf16x2 (d a b : VReg) (s : Stall)
  | fmulBf16x2 (d a b : VReg) (s : Stall)
  | ffmaBf16x2 (d a b : VReg) (s : Stall)
  | fminBf16x2 (d a b : VReg) (s : Stall)
  | fmaxBf16x2 (d a b : VReg) (s : Stall)
  | fcmpBf16x2 (c : Cond) (p : BitVec 4) (a b : VReg) (s : Stall)
  | funBf16x2 (fn : FunFn) (d a : VReg) (s : Stall)
  | faddF64 (d a b : VReg) (s : Stall)
  | fsubF64 (d a b : VReg) (s : Stall)
  | fmulF64 (d a b : VReg) (s : Stall)
  | ffmaF64 (d a b : VReg) (s : Stall)
  | fminF64 (d a b : VReg) (s : Stall)
  | fmaxF64 (d a b : VReg) (s : Stall)
  | fcmpF64 (c : Cond) (p : BitVec 4) (a b : VReg) (s : Stall)
  | funF64 (fn : FunFn) (d a : VReg) (s : Stall)
  -- conversion, M8, exchange, group-wide (R42, R210-R217)
  | cvt (kind : CvtKind) (rm : Rm) (d a : VReg) (s : Stall)
  | pkM8Rn (d a b : VReg) (s : Stall)
  | pkM8Rz (d a b : VReg) (s : Stall)
  | upM8 (n : BitVec 2) (d a : VReg) (s : Stall)
  | vdotM8 (d a b : VReg) (s : Stall)
  | shflIdx (d a b : VReg) (s : Stall)
  | shflUp (d a : VReg) (n : BitVec 5) (s : Stall)
  | shflDn (d a : VReg) (n : BitVec 5) (s : Stall)
  | shflXor (d a : VReg) (n : BitVec 5) (s : Stall)
  | qx (fn : QxFn) (d a : VReg) (s : Stall)
  | voteAny (d : BitVec 7) (p : BitVec 4) (s : Stall)
  | voteAll (d : BitVec 7) (p : BitVec 4) (s : Stall)
  | voteBallot (d : KReg) (p : BitVec 4) (s : Stall)
  | voteEq (d : BitVec 7) (p : BitVec 4) (s : Stall)
  | redux (op : ReduxOp) (d : KReg) (a : VReg) (s : Stall)
  -- uniform (R202)
  | kadd (d a b : KReg) (s : Stall)
  | ksub (d a b : KReg) (s : Stall)
  | kmul (d a b : KReg) (s : Stall)
  | kand (d a b : KReg) (s : Stall)
  | kor (d a b : KReg) (s : Stall)
  | kxor (d a b : KReg) (s : Stall)
  | kshfi (kind : ShiftKind) (d a : KReg) (n : BitVec 5) (s : Stall)
  | kaddi (d a : KReg) (i : BitVec 7) (s : Stall)
  | kcmpS (c : Cond) (p : BitVec 4) (a b : KReg) (s : Stall)
  | kcmpZ (c : Cond) (p : BitVec 4) (a b : KReg) (s : Stall)
  | kadd64 (d a b : KReg) (s : Stall)
  -- memory (R233-R249)
  | kld (w : Width) (ord : Option Scope) (d a : KReg) (s : Stall)
  | kst (w : Width) (nt : Bool) (ord : Option Scope) (d a : KReg) (s : Stall)
  | ldG (w : Width) (ru : Bool) (ord : Option Scope) (d a : VReg) (s : Stall)
  | stG (w : Width) (nt : Bool) (ord : Option Scope) (d a : VReg) (s : Stall)
  | ldxG (d : VReg) (a : KReg) (b : VReg) (s : Stall)
  | stxG (d : VReg) (a : KReg) (b : VReg) (s : Stall)
  | ldS (w : Width) (fe clr : Bool) (d a : VReg) (s : Stall)
  | stS (w : Width) (fe : Bool) (d a : VReg) (s : Stall)
  | ldL (w : Width) (d a : VReg) (s : Stall)
  | stL (w : Width) (d a : VReg) (s : Stall)
  | atomG (spec : AtomSpec) (d a b : VReg) (s : Stall)
  | atomS (spec : AtomSpec) (d a b : VReg) (s : Stall)
  | ldAsof (w : Width) (stamp : KReg) (nb : Bool) (status : BitVec 4) (d a : VReg) (s : Stall)
  | fence (kind : FenceKind) (scope : Scope) (s : Stall)
  | stamp (d : KReg) (s : Stall)
  | settled (d : KReg) (s : Stall)
  | dusk (d : KReg) (s : Stall)
  | hpin (d a : KReg) (s : Stall)
  | hunpin (d a : KReg) (s : Stall)
  | floor (d : KReg) (s : Stall)
  -- copies (R292-R304)
  | cpLd (d a : KReg) (n : Count) (tok : BitVec 3) (mbar : BitVec 16) (s : Stall)
  | cpSt (d a : KReg) (n : Count) (tok : BitVec 3) (rel : Option Scope) (s : Stall)
  | cpTile (d a stride : KReg) (rows : RowCount) (rowBytes : BitVec 16) (roles : BitVec 16) (tok : BitVec 3) (mbar : BitVec 16) (s : Stall)
  | cpRed (ty : RedTy) (d a : KReg) (n : Count) (tok : BitVec 3) (rel : Option Scope) (s : Stall)
  | cpChain (ch : BitVec 2) (a : KReg) (tok : BitVec 3) (s : Stall)
  | qfence (mask : BitVec 4) (s : Stall)
  | cpStat (d : KReg) (s : Stall)
  -- matrix (R265-R274)
  | mma (m : MmaSpec) (s : Stall)
  | mmaPair (m : MmaSpec) (s : Stall)
  | accZero (c : AccSpec) (s : Stall)
  | accLd (c : AccSpec) (d a : KReg) (s : Stall)
  | accSt (c : AccSpec) (d a : KReg) (s : Stall)
  | accCp (c : AccSpec) (role : BitVec 4) (mbar : BitVec 16) (d a : KReg) (s : Stall)
  | ofence (s : Stall)
  | mwait (s : Stall)
  -- barriers, mbar, queues, activities, mark, tlbinv (R276-R287, R127-R133, R346-R353, R412, R318)
  | barBlk (s : Stall)
  | barBlkR (s : Stall)
  | barTeam (s : Stall)
  | mbarInit (d a : KReg) (s : Stall)
  | mbarExpect (d a : KReg) (s : Stall)
  | mbarArrive (d a : KReg) (s : Stall)
  | mbarWait (d a : KReg) (s : Stall)
  | mbarTest (d a : KReg) (s : Stall)
  | spawn (d a : KReg) (s : Stall)
  | jdec (d a : KReg) (s : Stall)
  | launch (d a : KReg) (s : Stall)
  | qstat (d a : KReg) (s : Stall)
  | qinit (d a : KReg) (s : Stall)
  | actBegin (d a : KReg) (s : Stall)
  | actComp (d a : KReg) (s : Stall)
  | actCommit (d a : KReg) (s : Stall)
  | actAbandon (d a : KReg) (s : Stall)
  | actStat (d a : KReg) (s : Stall)
  | actDone (a : KReg) (s : Stall)
  | actResume (d a : KReg) (s : Stall)
  | mark (a : KReg) (s : Stall)
  | tlbinv (d a : KReg) (s : Stall)
  -- steps of the memory side and the traps (rows 173-184)
  | pageWalk (op : Nat) (cached : Bool)
  | lateFault (op : Nat)
  | storeFaultRecord (op : Nat)
  | forcedDelivery (blk grp : Nat)
  | trapEntry (blk grp : Nat)
  | loadReturn (op : Nat)
  | storePerform (op : Nat)
  | atomicPerform (op : Nat)
  | asofWalk (op : Nat)
  | accessCount
  | qtQuantumExpiry (op : Nat)
  | hostStampHold (op : Nat)
  -- engines (rows 185-191)
  | matrixArbitration (core : Nat)
  | passPerform (blk grp : Nat) (chunks : Nat)
  | accOpPerform (blk grp : Nat) (rows : Nat)
  | engineFault (e : EngRef)
  | copySectorWrite (e : EngRef)
  | copyEntryPerform (e : EngRef)
  | chainRecord (core ch : Nat)
  -- errors, placement, blocks, kernels, contexts (rows 192-204)
  | uncorrectableError (blk : Nat) (kind : ErrKind)
  | blockRollback (blk : Nat)
  | placementPop (core : Nat)
  | teamReservation (hwq : Nat)
  | coreThermalUpdate (core temp droop : Nat)
  | partialEviction (ctx core : Nat)
  | blockEvict (blk : Nat)
  | blockEnd (blk : Nat)
  | decrementRetry (i : Nat)
  | kernelEnded (k : Nat)
  | watchdogExpiry (k : Nat)
  | kernelKilled (k : Nat)
  | contextKillDone (ctx : Nat)
  -- activities and history (rows 205-214)
  | compensationStart (entry : Nat)
  | commitDiscard (ctx : Nat) (handle : Word) (member : Nat)
  | actTimeout (entry : Nat)
  | historyReclaim (stack : Nat)
  | historyRetentionExpiry (stack : Nat)
  | pinTimeout (ctx pin : Nat)
  | domainRebase
  | pageRekey (page : Nat)
  | channelRetrain (stack channel : Nat)
  | scrub (line : Nat)
  -- observation and test (rows 215-220)
  | seriesLatch
  | pcSample (core quarter : Nat)
  | stopAt
  | stopResume (host : Nat)
  | quadrantTest (q : Nat)
  | quadrantTestDone (q : Nat) (pass : Bool)
  -- hosts (rows 221-251)
  | queueDoorbell (host hwq : Nat) (v : Word)
  | claim (c : Sender)
  | ownershipGrant
  | handover (c : Cmd) (successor : Nat)
  | heartbeat (host : Nat)
  | ownerHeartbeatLapse
  | hbperiodWrite (host : Nat) (v : Word)
  | hmemctxWrite (host : Nat) (v : Word)
  | hostRegisterWrite (host : Nat) (off : Nat) (v : Word)
  | mapLoad (host region : Nat) (v : Word)
  | memcfgWrite (host : Nat) (v : Word)
  | samplePeriodWrite (host ctx : Nat) (v : Word)
  | traceEnable (host ctx : Nat) (v : Word)
  | hostMemRead (host off n : Nat)
  | hostMemWrite (host off : Nat) (bytes : List Byte)
  | status (c : Sender)
  | readEvents (c : Sender) (first count pa : Nat)
  | ctxCreate (c : Cmd) (pa : Nat)
  | ctxStop (c : Cmd) (ctx : Nat)
  | ctxResume (c : Cmd) (ctx : Nat)
  | ctxKill (c : Cmd) (ctx : Nat)
  | ctxDestroy (c : Cmd) (ctx : Nat)
  | tlbInval (c : Cmd) (va : DWord) (op : Word) (zero : Word)
  | computeReset (c : Cmd)
  | islandReset (c : Cmd)
  | domainConfig (c : Cmd) (t : DomainTable)
  | ideKey (c : Cmd) (stream : Nat) (key : BitVec 256)
  | retest (c : Cmd) (q : Nat) (pass : Bool)
  | fwUpdate (c : Cmd) (image : FwImage)
  | fwActivate (c : Cmd)
  | fwCommit (c : Cmd)
  -- SPDM on the DOE mailbox (rows 252-259)
  | getVersion (host : Nat)
  | getCapabilities (host : Nat)
  | negotiateAlgorithms (host : Nat) (ecdsaP384 sha384 : Bool)
  | getDigests (host : Nat)
  | getCertificate (host slot off len : Nat)
  | challenge (host slot : Nat) (nonce : BitVec 256)
  | getMeasurements (host index : Nat)
  | unsupportedSpdmRequest (host code : Nat)
  -- island, membership, links, packets (rows 260-290)
  | powerGood (rec : List Byte) (sigOk : Bool)
  | powerLost
  | bootVerified (fwOk : Bool)
  | computeRelease
  | dieHeartbeat (die : Nat)
  | computeHang (die : Nat)
  | cut
  | downReceived (dev : Nat)
  | upReceived (dev : Nat) (inc : BitVec 8)
  | memberUnreachable (dev : Nat)
  | skewTimeout (dev : Nat)
  | blockReceived (port : Nat) (b : LinkBlock)
  | linkRetrain (port : Nat)
  | portTrained (port lanes : Nat)
  | portDown (port : Nat) (farSide : Bool)
  | packetRead (p : Packet)
  | packetWrite (p : Packet)
  | packetAtomic (p : Packet)
  | packetReducingWrite (p : Packet)
  | packetResponse (p : Packet)
  | packetErrorResponse (p : Packet)
  | packetMarker (p : Packet)
  | packetMarkerAck (p : Packet)
  | packetE2eAck (p : Packet)
  | packetManagement (p : Packet) (m : Management)
  | e2eAckSend (dev path : Nat)
  | escapeMove (port vc : Nat)
  | clockThrottle (die k : Nat)
  | unsupportedCommand (c : Cmd) (opcode : Nat)
  | illegalPacket (p : Packet)
  | cxlCacheInvalidation (line : Nat) (bytes : List Byte)
  deriving DecidableEq, Repr

end Sys2Proof
end

