-- ==== Sys2Proof/WellFormed.lean ====
section
/-! DEFINITION. When an instruction's fields are ones that the encoding admits: what raises ILLEGAL on the word alone (R73:
enumerated values, pairs R61, forbidden ports R59 and R224, shifts, counts). What depends on the state (privilege, ranges,
the role of a block) is decided where the instruction issues. -/

namespace Sys2Proof

/-- A queue port field (R58). -/
def isPort (f : VReg) : Bool := 120 ≤ f.toNat
/-- A single vector register that may not be a port (R59, R224). -/
def noPort (f : VReg) : Bool := !isPort f
/-- An even vector pair, never a port (R61, R59). -/
def vPair (f : VReg) : Bool := f.toNat % 2 == 0 && noPort f
/-- Four vector registers, never ports (R61). -/
def vQuad (f : VReg) : Bool := f.toNat % 4 == 0 && noPort f
/-- A uniform field that is a multiple of n (R61, R127, R132, R346). -/
def kMul (n : Nat) (f : KReg) : Bool := f.toNat % n == 0
/-- A lane predicate number (R62, R63). -/
def predOk (p : BitVec 4) : Bool := p.toNat < 12

/-- A uniform predicate number in a 7-bit field (R216, R218). -/
def kpOk (d : BitVec 7) : Bool := d.toNat < 4

/-- The data field of a vector load (R67, R224). -/
def loadData (w : Width) (d : VReg) : Bool :=
  match w with
  | .b8 | .b16 | .b32 => noPort d
  | .b64 => vPair d
  | .b128 => vQuad d

/-- The data field of a vector store: a port only as b32 data (R224). -/
def storeData (w : Width) (d : VReg) : Bool :=
  match w with
  | .b8 | .b16 => noPort d
  | .b32 => true
  | .b64 => vPair d
  | .b128 => vQuad d

/-- The data field of a uniform load or store (R237). -/
def uniData (w : Width) (d : KReg) : Bool :=
  match w with
  | .b8 | .b16 | .b32 => true
  | .b64 => kMul 2 d
  | .b128 => kMul 4 d

/-- A selector (R62). -/
def Sel.wf : Sel → Bool
  | .always => true
  | .lane _ p => predOk p
  | .uni _ _ => true

/-- 64-bit atomic types (R243). -/
def AtomTy.is64 : AtomTy → Bool
  | .s64 | .z64 => true
  | _ => false

/-- Integer atomic types (R244). -/
def AtomTy.isInt : AtomTy → Bool
  | .s32 | .z32 | .s64 | .z64 => true
  | _ => false

/-- Operation and type agree (R244). -/
def AtomSpec.opTy (a : AtomSpec) : Bool :=
  match a.op with
  | .xchg => true
  | .fadd | .fmin | .fmax => !a.ty.isInt
  | _ => a.ty.isInt

/-- Use, noret, order and operation agree (R245). -/
def AtomSpec.useOk (a : AtomSpec) : Bool :=
  match a.use with
  | .un => true
  | .cm => a.noret && a.ord == .relaxed && a.op != .xchg && a.op != .cas
  | .no => !a.noret && a.ord == .relaxed && a.op != .cas
  | .qt | .sp => a.ord == .relaxed

/-- D of an atomic: a zero field with noret (R243). -/
def AtomSpec.dOk (a : AtomSpec) (d : VReg) : Bool :=
  if a.noret then d == 0#7 else if a.ty.is64 then vPair d else noPort d

/-- B of an atomic (R243). -/
def AtomSpec.bOk (a : AtomSpec) (b : VReg) : Bool :=
  match a.op == .cas, a.ty.is64 with
  | true, true => vQuad b
  | true, false => vPair b
  | false, true => vPair b
  | false, false => noPort b

/-- Scopes 1 and 2, all that atom.s takes (R246). -/
def Scope.blockOk : Scope → Bool
  | .grp | .blk => true
  | _ => false

/-- 16-bit matrix formats (R262). -/
def MatFmt.is16 : MatFmt → Bool
  | .bf16 | .f16 => true
  | _ => false

/-- The format pairs of R262. -/
def fmtPair : MatFmt → MatFmt → Bool
  | .bf16, .bf16 => true
  | .f16, .f16 => true
  | .m8, .m8 => true
  | .s8, .s8 | .s8, .z8 | .z8, .s8 | .z8, .z8 => true
  | _, _ => false

/-- A scale field: a window register or none (R265). -/
def scaleOk (f : BitVec 7) : Bool := f.toNat < 120 || f == 0x7F#7

/-- The depth field (R265, R268). -/
def Depth.wf : Depth → Bool
  | .imm k => k != 0#13 && k.toNat % 32 == 0
  | .reg _ => true

/-- The ILLEGAL causes of a pass on its words alone (R268). -/
def MmaSpec.wf (m : MmaSpec) : Bool :=
  fmtPair m.a.fmt m.b.fmt && kMul 2 m.a.base && kMul 2 m.b.base && scaleOk m.sa && scaleOk m.sb
    && (!m.a.fmt.is16 || (m.sa == 0x7F#7 && m.sb == 0x7F#7 && m.bsel == 0#2))
    && m.depth.wf && m.row.toNat % 64 == 0

/-- First row plus rows within the store (R271). -/
def AccSpec.fits (c : AccSpec) : Bool := c.first.toNat + c.rows.toNat + 1 ≤ 512

/-- An encoded count is not 0 (R296). -/
def Count.wf : Count → Bool
  | .imm n => n != 0#20
  | .reg _ => true

/-- An encoded row count is not 0 (R299). -/
def RowCount.wf : RowCount → Bool
  | .imm n => n != 0#16
  | .reg _ => true

/-- FN values of the F64 fun (R209). -/
def FunFn.f64Ok : FunFn → Bool
  | .abs | .neg | .sqrt | .floor | .ceil | .trunc | .rint => true
  | _ => false

/-- The exact kinds of cvt carry rounding code 0 (R42). -/
def CvtKind.exact : CvtKind → Bool
  | .f32f16lo | .f32f16hi | .f32bf16lo | .f32bf16hi | .f64f32 | .f64s32 | .f64z32 => true
  | _ => false

/-- Kinds of cvt whose destination is a pair (R42). -/
def CvtKind.dPair : CvtKind → Bool
  | .f64f32 | .f64s32 | .f64z32 => true
  | _ => false

/-- Kinds of cvt whose source is a pair (R42). -/
def CvtKind.aPair : CvtKind → Bool
  | .f16x2f32 | .bf16x2f32 | .f32f64 | .s32f64 | .z32f64 => true
  | _ => false

/-- sread values of 64 bits (R112). -/
def SreadFn.pair : SreadFn → Bool
  | .tick | .frame | .join => true
  | _ => false

/-- A frame shift of call and callr (R159). -/
def shiftOk (s : BitVec 7) : Bool := s.toNat % 8 == 0 && s.toNat ≤ 112

/-- Every field holds a value that its encoding admits (R73). The steps of the device carry no fields: their arguments are data. -/
def Instr.wf : Instr → Bool
  | .guard sel n _ => sel.wf && n != 0#4
  | .bra sel _ _ => sel.wf
  | .call sh _ _ => shiftOk sh
  | .jmp a _ => vPair a
  | .callr sh a _ => shiftOk sh && vPair a
  | .wink b _ => b.toNat < 8
  | .movKp d _ _ => kpOk d
  | .sread fn d _ => !fn.pair || kMul 2 d
  | .imad d _ _ _ => noPort d
  | .iadd64 d a b _ => vPair d && vPair a && vPair b
  | .lea d a _ _ => vPair d && vPair a
  | .icmpS c p _ _ _ => c != .un && predOk p
  | .icmpZ c p _ _ _ => c != .un && predOk p
  | .bfi d _ _ _ => noPort d
  | .ffmaF32 d _ _ _ => noPort d
  | .ffmaF16x2 d _ _ _ => noPort d
  | .ffmaBf16x2 d _ _ _ => noPort d
  | .fcmpF32 _ p _ _ _ => predOk p
  | .fcmpF16x2 _ p _ _ _ => predOk p && p.toNat % 2 == 0
  | .fcmpBf16x2 _ p _ _ _ => predOk p && p.toNat % 2 == 0
  | .faddF64 d a b _ => vPair d && vPair a && vPair b
  | .fsubF64 d a b _ => vPair d && vPair a && vPair b
  | .fmulF64 d a b _ => vPair d && vPair a && vPair b
  | .ffmaF64 d a b _ => vPair d && vPair a && vPair b
  | .fminF64 d a b _ => vPair d && vPair a && vPair b
  | .fmaxF64 d a b _ => vPair d && vPair a && vPair b
  | .fcmpF64 _ p a b _ => predOk p && vPair a && vPair b
  | .funF64 fn d a _ => fn.f64Ok && vPair d && vPair a
  | .cvt k rm d a _ => (!k.exact || rm == .rn) && (!k.dPair || vPair d) && (!k.aPair || vPair a)
  | .pkM8Rn _ a b _ => vPair a && vPair b
  | .pkM8Rz _ a b _ => vPair a && vPair b
  | .vdotM8 d _ _ _ => noPort d
  | .voteAny d p _ => kpOk d && predOk p
  | .voteAll d p _ => kpOk d && predOk p
  | .voteBallot _ p _ => predOk p
  | .voteEq d p _ => kpOk d && predOk p
  | .kcmpS c p _ _ _ => c != .un && p.toNat < 4
  | .kcmpZ c p _ _ _ => c != .un && p.toNat < 4
  | .kadd64 d a b _ => kMul 2 d && kMul 2 a && kMul 2 b
  | .kld w _ d a _ => uniData w d && kMul 2 a
  | .kst w _ _ d a _ => uniData w d && kMul 2 a
  | .ldG w ru ord d a _ => loadData w d && vPair a && !(ru && ord.isSome)
  | .stG w _ _ d a _ => storeData w d && vPair a
  | .ldxG d a b _ => noPort d && kMul 2 a && noPort b
  | .stxG _ a b _ => kMul 2 a && noPort b
  | .ldS w fe clr d a _ => loadData w d && noPort a && !(clr && !fe)
  | .stS w _ d a _ => storeData w d && noPort a
  | .ldL w d a _ => loadData w d && noPort a
  | .stL w d a _ => storeData w d && noPort a
  | .atomG sp d a b _ => sp.opTy && sp.useOk && sp.dOk d && vPair a && sp.bOk b
  | .atomS sp d a b _ => sp.opTy && sp.useOk && sp.scope.blockOk && sp.dOk d && noPort a && sp.bOk b
  | .ldAsof w st nb p d a _ => loadData w d && vPair a && kMul 2 st && (predOk p || (p == 15#4 && !nb))
  | .stamp d _ => kMul 2 d
  | .settled d _ => kMul 2 d
  | .dusk d _ => kMul 2 d
  | .hpin _ a _ => kMul 2 a
  | .floor d _ => kMul 2 d
  | .cpLd _ a n _ _ _ => n.wf && kMul 2 a
  | .cpSt _ a n _ _ _ => n.wf && kMul 2 a
  | .cpTile _ a _ rows rb mask _ _ _ => rows.wf && kMul 2 a && rb != 0#16 && rb.toNat % 32 == 0 && mask != 0#16
  | .cpRed _ _ a n _ _ _ => n.wf && kMul 2 a
  | .cpChain _ a _ _ => kMul 2 a
  | .qfence mask _ => mask != 0#4
  | .mma m _ => m.wf
  | .mmaPair m _ => m.wf
  | .accZero c _ => c.fits && !c.blk && c.fmt == .f32
  | .accLd c _ a _ => c.fits && kMul 2 a
  | .accSt c _ a _ => c.fits && kMul 2 a
  | .accCp c _ _ _ _ _ => c.fits && !c.blk
  | .spawn _ a _ => kMul 8 a
  | .jdec _ a _ => kMul 2 a
  | .launch _ a _ => kMul 16 a
  | .qstat d _ _ => kMul 2 d
  | .qinit _ a _ => kMul 4 a
  | .actBegin d _ _ => kMul 4 d
  | .actComp _ a _ => kMul 8 a
  | .actStat d _ _ => kMul 4 d
  | .actResume _ a _ => kMul 2 a
  | .tlbinv _ a _ => kMul 4 a
  | _ => true

/-- The rows of the table that have a word: instructions. The rest are steps of the device, of hosts or of peers. -/
def Instr.isWord : Instr → Bool
  | .pageWalk .. | .lateFault .. | .storeFaultRecord .. | .forcedDelivery .. | .trapEntry .. | .loadReturn ..
  | .storePerform .. | .atomicPerform .. | .asofWalk .. | .accessCount | .qtQuantumExpiry .. | .hostStampHold ..
  | .matrixArbitration .. | .passPerform .. | .accOpPerform .. | .engineFault .. | .copySectorWrite ..
  | .copyEntryPerform .. | .chainRecord .. | .uncorrectableError .. | .blockRollback .. | .placementPop ..
  | .teamReservation .. | .coreThermalUpdate .. | .partialEviction .. | .blockEvict .. | .blockEnd ..
  | .decrementRetry .. | .kernelEnded .. | .watchdogExpiry .. | .kernelKilled .. | .contextKillDone ..
  | .compensationStart .. | .commitDiscard .. | .actTimeout .. | .historyReclaim .. | .historyRetentionExpiry ..
  | .pinTimeout .. | .domainRebase | .pageRekey .. | .channelRetrain .. | .scrub .. | .seriesLatch | .pcSample ..
  | .stopAt | .stopResume .. | .quadrantTest .. | .quadrantTestDone .. | .queueDoorbell .. | .claim ..
  | .ownershipGrant | .handover .. | .heartbeat .. | .ownerHeartbeatLapse | .hbperiodWrite .. | .hmemctxWrite ..
  | .hostRegisterWrite .. | .mapLoad .. | .memcfgWrite .. | .samplePeriodWrite .. | .traceEnable ..
  | .hostMemRead .. | .hostMemWrite .. | .status .. | .readEvents .. | .ctxCreate .. | .ctxStop .. | .ctxResume ..
  | .ctxKill .. | .ctxDestroy .. | .tlbInval .. | .computeReset .. | .islandReset .. | .domainConfig .. | .ideKey ..
  | .retest .. | .fwUpdate .. | .fwActivate .. | .fwCommit .. | .getVersion .. | .getCapabilities ..
  | .negotiateAlgorithms .. | .getDigests .. | .getCertificate .. | .challenge .. | .getMeasurements ..
  | .unsupportedSpdmRequest .. | .powerGood .. | .powerLost | .bootVerified .. | .computeRelease | .dieHeartbeat ..
  | .computeHang .. | .cut | .downReceived .. | .upReceived .. | .memberUnreachable .. | .skewTimeout ..
  | .blockReceived .. | .linkRetrain .. | .portTrained .. | .portDown .. | .packetRead .. | .packetWrite ..
  | .packetAtomic .. | .packetReducingWrite .. | .packetResponse .. | .packetErrorResponse .. | .packetMarker ..
  | .packetMarkerAck .. | .packetE2eAck .. | .packetManagement .. | .e2eAckSend .. | .escapeMove ..
  | .clockThrottle .. | .unsupportedCommand .. | .illegalPacket .. | .cxlCacheInvalidation .. => false
  | _ => true

end Sys2Proof
end

