-- ==== Sys2Proof/Machine/Flags.lean ====
section
/-! DEFINITION. Floating-point flags as FPSR holds them (R33) and the compare conditions (R63, R199). -/

namespace Sys2Proof.Machine

/-- A set of floating-point flags, bit for bit FPSR[4:0] (R33). -/
abbrev FFlags := BitVec 5

/-- No flag. -/
def fNone : FFlags := 0#5
/-- io, invalid operation (R33). -/
def fIo : FFlags := 1#5
/-- dz, division by zero (R33). -/
def fDz : FFlags := 2#5
/-- of, overflow (R33). -/
def fOf : FFlags := 4#5
/-- uf, underflow (R33). -/
def fUf : FFlags := 8#5
/-- nx, inexact (R33). -/
def fNx : FFlags := 16#5

/-- A flag when a condition holds. -/
def fIf (c : Bool) (f : FFlags) : FFlags := if c then f else fNone

/-- FPSR with more flags ORed in (R34). -/
def orFpsr (fpsr : Word) (f : FFlags) : Word := fpsr ||| f.setWidth 32

/-- A signed compare (R63, R199). -/
def condS (c : Cond) (a b : Word) : Bool :=
  match c with
  | .eq => a == b
  | .ne => a != b
  | .lt => a.slt b
  | .le => a.sle b
  | .gt => b.slt a
  | .ge => b.sle a
  | .un => false

/-- An unsigned compare (R63, R199). -/
def condZ (c : Cond) (a b : Word) : Bool :=
  match c with
  | .eq => a == b
  | .ne => a != b
  | .lt => a.ult b
  | .le => a.ule b
  | .gt => b.ult a
  | .ge => b.ule a
  | .un => false

/-- FPCR.rm (R33). -/
def rmOf (fpcr : Word) : Rm :=
  match (fpcr.extractLsb' 0 2).toNat with
  | 0 => .rn | 1 => .rz | 2 => .ru | _ => .rd

/-- FPCR.fz (R33). -/
def fzOf (fpcr : Word) : Bool := fpcr.getLsbD 2

end Sys2Proof.Machine
end

