-- ==== Sys2Proof/Machine/Float.lean ====
section
/-! DEFINITION. Floating-point arithmetic (R31-R35, R203-R209): values as exact dyadic numbers, one rounding at the end, and
the functions of fun. Nothing here depends on the machine's state. -/

namespace Sys2Proof.Machine

/-! ## Formats and values -/

/-- An IEEE-style format: exponent and fraction widths (R31). -/
structure Fmt where
  ew : Nat
  fw : Nat
  deriving DecidableEq, Repr

/-- binary32 (R31). -/
def Fmt.f32 : Fmt := ⟨8, 23⟩
/-- binary16 (R31). -/
def Fmt.f16 : Fmt := ⟨5, 10⟩
/-- bfloat16 (R31). -/
def Fmt.bf16 : Fmt := ⟨8, 7⟩
/-- binary64 (R31). -/
def Fmt.f64 : Fmt := ⟨11, 52⟩

/-- The exponent bias. -/
def Fmt.bias (f : Fmt) : Nat := 2 ^ (f.ew - 1) - 1
/-- The exponent of the smallest normal. -/
def Fmt.emin (f : Fmt) : Int := 1 - (f.bias : Int)
/-- The exponent of the quantum of subnormals. -/
def Fmt.qmin (f : Fmt) : Int := f.emin - f.fw
/-- All-ones exponent field. -/
def Fmt.emaxField (f : Fmt) : Nat := 2 ^ f.ew - 1
/-- The bits of +∞. -/
def Fmt.inf (f : Fmt) : Nat := f.emaxField * 2 ^ f.fw
/-- The sign bit. -/
def Fmt.sign (f : Fmt) (neg : Bool) : Nat := if neg then 2 ^ (f.ew + f.fw) else 0
/-- The canonical quiet NaN, sign 0 (R31). -/
def Fmt.nan (f : Fmt) : Nat := f.inf + 2 ^ (f.fw - 1)

/-- A value: a NaN (signalling or quiet), an infinity, or ±m·2^e exactly. -/
inductive FVal where
  | nan (signalling : Bool)
  | inf (neg : Bool)
  | fin (neg : Bool) (m : Nat) (e : Int)
  deriving DecidableEq, Repr

/-- The value of a bit pattern (R31). -/
def unpack (f : Fmt) (bits : Nat) : FVal :=
  let neg := bits / 2 ^ (f.ew + f.fw) % 2 == 1
  let ex := bits / 2 ^ f.fw % 2 ^ f.ew
  let fr := bits % 2 ^ f.fw
  if ex = f.emaxField then (if fr = 0 then .inf neg else .nan (fr < 2 ^ (f.fw - 1)))
  else if ex = 0 then .fin neg fr f.qmin
  else .fin neg (2 ^ f.fw + fr) ((ex : Int) - f.bias - f.fw)

/-- A subnormal pattern: nonzero with a zero exponent field. -/
def isSub (f : Fmt) (bits : Nat) : Bool := bits / 2 ^ f.fw % 2 ^ f.ew == 0 && bits % 2 ^ f.fw != 0

/-- The formats that fz flushes: FP32 and FP16 (R35). -/
def Fmt.flushes (f : Fmt) : Bool := f == Fmt.f32 || f == Fmt.f16

/-- An operand under fz: a subnormal counts as zero of its sign (R35). -/
def flushIn (f : Fmt) (fz : Bool) (bits : Nat) : Nat :=
  if fz && f.flushes && isSub f bits then f.sign (bits / 2 ^ (f.ew + f.fw) % 2 == 1) else bits

/-! ## Rounding -/

/-- Whether to round the magnitude up: rem of 2^sh lost below the last place, plus something more when sticky. -/
def roundUp (rm : Rm) (neg odd : Bool) (rem pow : Nat) (sticky : Bool) : Bool :=
  match rm with
  | .rn => decide (pow < 2 * rem) || (decide (2 * rem = pow) && (sticky || odd))
  | .rz => false
  | .ru => !neg && (rem != 0 || sticky)
  | .rd => neg && (rem != 0 || sticky)

/-- m·2^e (plus a positive amount below 2^e when sticky) rounded to a multiple of 2^q: the multiple, and whether it differs. -/
def roundAt (rm : Rm) (neg : Bool) (m : Nat) (e : Int) (sticky : Bool) (q : Int) : Nat × Bool :=
  if q ≤ e then
    let k := m * 2 ^ (e - q).toNat
    (if roundUp rm neg (k % 2 == 1) 0 1 sticky then k + 1 else k, sticky)
  else
    let pow := 2 ^ (q - e).toNat
    let k := m / pow
    let rem := m % pow
    (if roundUp rm neg (k % 2 == 1) rem pow sticky then k + 1 else k, rem != 0 || sticky)

/-- Largest finite magnitude's bits. -/
def Fmt.maxFin (f : Fmt) : Nat := f.inf - 1

/-- Overflow by rounding direction (IEEE 754 default handling, R34). -/
def overflowBits (f : Fmt) (rm : Rm) (neg : Bool) : Nat :=
  f.sign neg + (match rm with
    | .rn => f.inf
    | .rz => f.maxFin
    | .ru => if neg then f.maxFin else f.inf
    | .rd => if neg then f.inf else f.maxFin)

/-- What rounding a nonzero exact value delivers. -/
structure Rounded where
  bits    : Nat
  inexact : Bool
  tiny    : Bool
  isOver    : Bool
  deriving DecidableEq, Repr

/-- Round a nonzero magnitude m·2^e (sticky: strictly above it, by less than 2^e) to the format. Tininess is detected after
rounding: the value rounded with an unbounded exponent lies below the smallest normal (R34, R35). -/
def roundTo (f : Fmt) (rm : Rm) (neg : Bool) (m : Nat) (e : Int) (sticky : Bool) : Rounded :=
  let ex : Int := e + Nat.log2 m
  let qu : Int := ex - f.fw
  let u := roundAt rm neg m e sticky qu
  let tiny := decide ((Nat.log2 u.1 : Int) + qu < f.emin)
  let q := max qu f.qmin
  let r := roundAt rm neg m e sticky q
  let bits := (q - f.qmin).toNat * 2 ^ f.fw + r.1
  if f.inf ≤ bits then ⟨overflowBits f rm neg, true, false, true⟩
  else ⟨f.sign neg + bits, r.2, tiny, false⟩

/-- Deliver a rounded result with its flags, flushing a tiny one under fz (R34, R35). -/
def deliver (f : Fmt) (fz neg : Bool) (r : Rounded) : Nat × FFlags :=
  if r.isOver then (r.bits, fOf ||| fNx)
  else if fz && f.flushes && r.tiny then (f.sign neg, fUf ||| fNx)
  else (r.bits, fIf r.inexact fNx ||| fIf (r.tiny && r.inexact) fUf)

/-- Round and deliver an exact value; an exact zero takes the sign given. -/
def fromExact (f : Fmt) (rm : Rm) (fz neg : Bool) (m : Nat) (e : Int) (sticky : Bool := false) : Nat × FFlags :=
  if m = 0 && !sticky then (f.sign neg, fNone)
  else deliver f fz neg (roundTo f rm neg m e sticky)

/-! ## Arithmetic -/

/-- A dyadic as an integer multiple of 2^e', for e' ≤ e. -/
def toUnits (neg : Bool) (m : Nat) (e e' : Int) : Int :=
  let k : Int := m * 2 ^ (e - e').toNat
  if neg then -k else k

/-- The sign of an exact zero sum: that of its terms when they agree, else + except toward −∞ (R204). -/
def zeroSign (rm : Rm) (na nb : Bool) : Bool := if na == nb then na else rm == .rd

/-- Exact a + b of finite values: sign, magnitude, exponent. -/
def addExact (rm : Rm) (na : Bool) (ma : Nat) (ea : Int) (nb : Bool) (mb : Nat) (eb : Int) : Bool × Nat × Int :=
  let e := min ea eb
  let k := toUnits na ma ea e + toUnits nb mb eb e
  if k = 0 then (zeroSign rm na nb, 0, e) else (decide (k < 0), k.natAbs, e)

/-- A NaN result: canonical, io when an operand is a signalling NaN or the operation is invalid (R31). -/
def nanOf (f : Fmt) (io : Bool) : Nat × FFlags := (f.nan, fIf io fIo)

/-- Whether a value is a signalling NaN. -/
def FVal.sig : FVal → Bool
  | .nan s => s
  | _ => false

/-- Whether a value is a NaN. -/
def FVal.isNan : FVal → Bool
  | .nan _ => true
  | _ => false

/-- The sum of two values (R204). -/
def addV (f : Fmt) (rm : Rm) (fz : Bool) (a b : FVal) : Nat × FFlags :=
  match a, b with
  | .nan s, y => nanOf f (s || y.sig)
  | x, .nan s => nanOf f (s || x.sig)
  | .inf na, .inf nb => if na == nb then (f.sign na + f.inf, fNone) else nanOf f true
  | .inf na, .fin _ _ _ => (f.sign na + f.inf, fNone)
  | .fin _ _ _, .inf nb => (f.sign nb + f.inf, fNone)
  | .fin na ma ea, .fin nb mb eb =>
    let r := addExact rm na ma ea nb mb eb
    fromExact f rm fz r.1 r.2.1 r.2.2

/-- −v. -/
def FVal.neg : FVal → FVal
  | .nan s => .nan s
  | .inf n => .inf (!n)
  | .fin n m e => .fin (!n) m e

/-- The product of two values (R204). -/
def mulV (f : Fmt) (rm : Rm) (fz : Bool) (a b : FVal) : Nat × FFlags :=
  match a, b with
  | .nan s, y => nanOf f (s || y.sig)
  | x, .nan s => nanOf f (s || x.sig)
  | .inf na, .inf nb => (f.sign (na != nb) + f.inf, fNone)
  | .inf na, .fin nb mb _ => if mb = 0 then nanOf f true else (f.sign (na != nb) + f.inf, fNone)
  | .fin na ma _, .inf nb => if ma = 0 then nanOf f true else (f.sign (na != nb) + f.inf, fNone)
  | .fin na ma ea, .fin nb mb eb => fromExact f rm fz (na != nb) (ma * mb) (ea + eb)

/-- a × b + d with one rounding; 0 × ∞ is invalid even when d is a quiet NaN (R204). -/
def fmaV (f : Fmt) (rm : Rm) (fz : Bool) (a b d : FVal) : Nat × FFlags :=
  let sig := a.sig || b.sig || d.sig
  match a, b with
  | .nan _, _ => nanOf f sig
  | _, .nan _ => nanOf f sig
  | .inf na, .inf nb => fmaInf (na != nb) sig
  | .inf na, .fin nb mb _ => if mb = 0 then nanOf f true else fmaInf (na != nb) sig
  | .fin na ma _, .inf nb => if ma = 0 then nanOf f true else fmaInf (na != nb) sig
  | .fin na ma ea, .fin nb mb eb =>
    match d with
    | .nan _ => nanOf f sig
    | .inf nd => (f.sign nd + f.inf, fNone)
    | .fin nd md ed =>
      let r := addExact rm (na != nb) (ma * mb) (ea + eb) nd md ed
      fromExact f rm fz r.1 r.2.1 r.2.2
where
  /-- An infinite product plus d. -/
  fmaInf (np sig : Bool) : Nat × FFlags :=
    match d with
    | .nan _ => nanOf f sig
    | .inf nd => if nd == np then (f.sign np + f.inf, fNone) else nanOf f true
    | .fin _ _ _ => (f.sign np + f.inf, fNone)

/-- How FPCR governs an operation (R35). -/
structure Env where
  rm : Rm
  fz : Bool
  deriving DecidableEq, Repr

/-- FPCR as an environment (R33). -/
def envOf (fpcr : Word) : Env := ⟨rmOf fpcr, fzOf fpcr⟩
/-- To nearest, subnormals honoured: what operations outside FPCR use (R35). -/
def Env.rne : Env := ⟨.rn, false⟩

/-- fadd (R204). -/
def fadd (f : Fmt) (c : Env) (a b : Nat) : Nat × FFlags :=
  addV f c.rm c.fz (unpack f (flushIn f c.fz a)) (unpack f (flushIn f c.fz b))
/-- fsub (R204). -/
def fsub (f : Fmt) (c : Env) (a b : Nat) : Nat × FFlags :=
  addV f c.rm c.fz (unpack f (flushIn f c.fz a)) (unpack f (flushIn f c.fz b)).neg
/-- fmul (R204). -/
def fmul (f : Fmt) (c : Env) (a b : Nat) : Nat × FFlags :=
  mulV f c.rm c.fz (unpack f (flushIn f c.fz a)) (unpack f (flushIn f c.fz b))
/-- ffma (R204). -/
def ffma (f : Fmt) (c : Env) (a b d : Nat) : Nat × FFlags :=
  fmaV f c.rm c.fz (unpack f (flushIn f c.fz a)) (unpack f (flushIn f c.fz b)) (unpack f (flushIn f c.fz d))

/-- Order of finite values and infinities as exact numbers, with −0 below +0 when `zeros` (R205). -/
def ltV (zeros : Bool) (a b : FVal) : Bool :=
  match a, b with
  | .inf na, .inf nb => na && !nb
  | .inf na, .fin _ _ _ => na
  | .fin _ _ _, .inf nb => !nb
  | .fin na ma ea, .fin nb mb eb =>
    let e := min ea eb
    let x := toUnits na ma ea e
    let y := toUnits nb mb eb e
    decide (x < y) || (zeros && decide (x = y) && decide (ma = 0) && na && !nb)
  | _, _ => false

/-- fmin and fmax: the other operand beside one NaN, the canonical NaN beside two; io for a signalling NaN (R205). -/
def fminmax (f : Fmt) (c : Env) (wantMax : Bool) (a b : Nat) : Nat × FFlags :=
  let a' := flushIn f c.fz a
  let b' := flushIn f c.fz b
  let va := unpack f a'
  let vb := unpack f b'
  let io := fIf (va.sig || vb.sig) fIo
  match va.isNan, vb.isNan with
  | true, true => (f.nan, io)
  | true, false => (b', io)
  | false, true => (a', io)
  | false, false => (if wantMax then (if ltV true va vb then b' else a') else (if ltV true vb va then b' else a'), io)

/-- fcmp (R206). -/
def fcmp (f : Fmt) (c : Env) (cond : Cond) (a b : Nat) : Bool × FFlags :=
  let va := unpack f (flushIn f c.fz a)
  let vb := unpack f (flushIn f c.fz b)
  let io := fIf (va.sig || vb.sig) fIo
  if va.isNan || vb.isNan then (cond == .ne || cond == .un, io)
  else
    let lt := ltV false va vb
    let gt := ltV false vb va
    ((match cond with
      | .eq => !lt && !gt
      | .ne => lt || gt
      | .lt => lt
      | .le => !gt
      | .gt => gt
      | .ge => !lt
      | .un => false), io)

/-! ## Exact roots and quotients, and the transcendental functions -/

/-- floor(√n), bit by bit: `fuel` bits of root. -/
def isqrtAux (n : Nat) : Nat → Nat → Nat
  | 0, r => r
  | k + 1, r =>
    let r' := r + 2 ^ k
    isqrtAux n k (if r' * r' ≤ n then r' else r)

/-- floor(√n). -/
def isqrt (n : Nat) : Nat := isqrtAux n (Nat.log2 n / 2 + 1) 0

/-- A positive magnitude m·2^e, or strictly above it by less than 2^e when sticky. -/
structure Mag where
  m : Nat
  e : Int
  sticky : Bool
  deriving DecidableEq, Repr

/-- 1 / (m·2^e), to well beyond any format's precision. -/
def recipMag (m : Nat) (e : Int) : Mag :=
  let k := Nat.log2 m + 80
  ⟨2 ^ k / m, -(k : Int) - e, 2 ^ k % m != 0⟩

/-- √(m·2^e). -/
def sqrtMag (m : Nat) (e : Int) : Mag :=
  let t : Nat := if e % 2 = 0 then 140 else 141
  let n := m * 2 ^ t
  let r := isqrt n
  ⟨r, (e - t) / 2, r * r != n⟩

/-- 1/√(m·2^e). -/
def rsqMag (m : Nat) (e : Int) : Mag :=
  let k0 := Nat.log2 m + 160
  let k := if ((k0 : Int) + e) % 2 = 0 then k0 else k0 + 1
  let n := 2 ^ k / m
  let r := isqrt n
  ⟨r, (-(k : Int) - e) / 2, r * r != n || 2 ^ k % m != 0⟩

/-- Working precision of the transcendental functions, in fraction bits. -/
def wp : Nat := 416
/-- floor(ln 2 · 2^416). -/
def ln2W : Nat := 117301524725576708313301745548707704136983957068606402434150714662129691570146351597476270464541937883482032647788777903664693
/-- floor(π · 2^416). -/
def piW : Nat := 531652755241760931110077815278855423207745231269348324382552295841151772614589841325786618981699866815861016476210140036213175

/-- Σ t^n/n! from term n on, in wp fraction bits: `step` is 1 for exp; for sine and cosine the terms alternate and step by 2. -/
def expSeries (t : Nat) : Nat → Nat → Nat → Nat → Nat
  | 0, _, _, acc => acc
  | k + 1, n, term, acc => expSeries t k (n + 1) (term * t / 2 ^ wp / n) (acc + term)

/-- 2^f for f = fw / 2^wp in [0, 1), in wp fraction bits. -/
def exp2Frac (fr : Nat) : Nat :=
  let t := fr * ln2W / 2 ^ wp
  expSeries t 90 1 (2 ^ wp) 0

/-- Alternating series Σ (−1)^i t^(n+2i)/(n+2i)!: the positive and the negative terms apart. -/
def trigSeries (t2 : Nat) : Nat → Nat → Nat → Nat → Nat → Nat
  | 0, _, _, pos, neg => pos - neg
  | k + 1, n, term, pos, neg =>
    let next := term * t2 / 2 ^ wp / ((n + 1) * (n + 2))
    if n / 2 % 2 = 0 then trigSeries t2 k (n + 2) next (pos + term) neg
    else trigSeries t2 k (n + 2) next pos (neg + term)

/-- sin(π g), g = gw / 2^wp in [0, 1/2]. -/
def sinFrac (g : Nat) : Nat :=
  let t := g * piW / 2 ^ wp
  trigSeries (t * t / 2 ^ wp) 50 1 t 0 0

/-- cos(π g), g = gw / 2^wp in [0, 1/2]. -/
def cosFrac (g : Nat) : Nat :=
  let t := g * piW / 2 ^ wp
  trigSeries (t * t / 2 ^ wp) 50 0 (2 ^ wp) 0 0

/-- Σ z^(2i+1)/(2i+1). -/
def atanhSeries (z2 : Nat) : Nat → Nat → Nat → Nat → Nat
  | 0, _, _, acc => acc
  | k + 1, n, pw, acc => atanhSeries z2 k (n + 2) (pw * z2 / 2 ^ wp) (acc + pw / n)

/-- log2 y for y = yw / 2^wp in [1, 2). -/
def log2Frac (y : Nat) : Nat :=
  let one := 2 ^ wp
  let z := (y - one) * one / (y + one)
  2 * atanhSeries (z * z / one) 140 1 z 0 * one / ln2W

/-- 2^x for a finite x that is no integer. Tiny |x| is 1 from above or from below (log entry 10). -/
def exp2Mag (neg : Bool) (m : Nat) (e : Int) : Mag :=
  if e + Nat.log2 m < -100 then (if neg then ⟨2 ^ 80 - 1, -80, true⟩ else ⟨2 ^ 80, -80, true⟩)
  else if 20 ≤ e + (Nat.log2 m : Int) then ⟨2 ^ 80, (if neg then -100000 else 100000), true⟩
  else
    let x := toUnits neg m e (-(wp : Int))
    let n := x / (2 ^ wp : Nat)
    let fr := (x % (2 ^ wp : Nat)).toNat
    ⟨exp2Frac fr / 2 ^ (wp - 200), n - 200, true⟩

/-- log2 of a positive value that is no power of 2: sign and magnitude (log entry 10). -/
def log2Mag (m : Nat) (e : Int) : Bool × Mag :=
  let k := Nat.log2 m
  let y := m * 2 ^ (wp - k)
  let v : Int := (e + k) * (2 ^ wp : Nat) + log2Frac y
  (decide (v < 0), ⟨v.natAbs / 2 ^ 100, -(wp : Int) + 100, true⟩)

/-- x mod 2 of a nonnegative finite m·2^e as a fraction over 2^wp; wp exceeds every denominator of binary32. -/
def mod2 (m : Nat) (e : Int) : Nat :=
  if 0 ≤ e then (if e = 0 then m % 2 * 2 ^ wp else 0)
  else m % 2 ^ (1 + (-e).toNat) * 2 ^ (wp - (-e).toNat)

/-- sin(π x) of |x|: the quadrant decides function and sign; `none` where the result is an exact 0 (log entry 10). -/
def sinpiMag (m : Nat) (e : Int) (cosine : Bool) : Option (Bool × Mag) :=
  let r := mod2 m e
  let half := 2 ^ (wp - 1)
  let q := (r / half + (if cosine then 1 else 0)) % 4
  let g := r % half
  let neg := decide (2 ≤ q)
  if g = 0 then (if q % 2 = 0 then none else some (neg, ⟨1, 0, false⟩))
  else some (neg, ⟨(if q % 2 = 0 then sinFrac g else cosFrac g), -(wp : Int), true⟩)

/-- An integral value: m·2^e rounded to an integer in a direction, exactly representable in the format it came from. -/
def toInt (rm : Rm) (neg : Bool) (m : Nat) (e : Int) : Nat := (roundAt rm neg m e false 0).1

/-- Deliver a magnitude. -/
def ofMag (f : Fmt) (fz neg : Bool) (g : Mag) : Nat × FFlags := fromExact f .rn fz neg g.m g.e g.sticky

/-- An integral result, which keeps the sign of a and sets no flag (R208). -/
def integral (f : Fmt) (rm : Rm) (n : Bool) (m : Nat) (e : Int) : Nat × FFlags :=
  if 0 ≤ e || m = 0 then ((fromExact f .rn false n m e).1, fNone)
  else ((fromExact f .rn false n (toInt rm n m e) 0).1, fNone)

/-- The functions of fun on one value in a format, rounded once to nearest (R207, R208). -/
def funV (f : Fmt) (fz : Bool) (fn : FunFn) (a : Nat) : Nat × FFlags :=
  let a' := flushIn f fz a
  match unpack f a' with
  | .nan s => nanOf f s
  | .inf n =>
    match fn with
    | .abs => (f.inf, fNone)
    | .neg => (f.sign (!n) + f.inf, fNone)
    | .rcp => (f.sign n, fNone)
    | .rsq => if n then nanOf f true else (0, fNone)
    | .sqrt => if n then nanOf f true else (f.inf, fNone)
    | .exp2 => if n then (0, fNone) else (f.inf, fNone)
    | .log2 => if n then nanOf f true else (f.inf, fNone)
    | .sinpi | .cospi => nanOf f true
    | .floor | .ceil | .trunc | .rint => (a', fNone)
  | .fin n m e =>
    match fn with
    | .abs => (a' % 2 ^ (f.ew + f.fw), fNone)
    | .neg => (f.sign (!n) + a' % 2 ^ (f.ew + f.fw), fNone)
    | .rcp => if m = 0 then (f.sign n + f.inf, fDz) else ofMag f fz n (recipMag m e)
    | .rsq =>
      if m = 0 then (f.sign n + f.inf, fDz) else if n then nanOf f true else ofMag f fz false (rsqMag m e)
    | .sqrt => if m = 0 then (a', fNone) else if n then nanOf f true else ofMag f fz false (sqrtMag m e)
    | .exp2 =>
      if m = 0 then fromExact f .rn fz false 1 0
      else if 0 ≤ e || m % 2 ^ (-e).toNat = 0 then
        let k := min (toUnits n m e 0) 100000
        if 0 ≤ e then fromExact f .rn fz false 1 (max k (-100000))
        else fromExact f .rn fz false 1 (let i : Int := m / 2 ^ (-e).toNat; if n then -i else i)
      else ofMag f fz false (exp2Mag n m e)
    | .log2 =>
      if m = 0 then (f.sign true + f.inf, fDz) else if n then nanOf f true
      else if m = 2 ^ Nat.log2 m then
        let k : Int := e + Nat.log2 m
        fromExact f .rn fz (decide (k < 0)) k.natAbs 0
      else let r := log2Mag m e; ofMag f fz r.1 r.2
    | .sinpi =>
      if m = 0 then (a', fNone)
      else match sinpiMag m e false with
        | none => (f.sign n, fNone)
        | some r => ofMag f fz (r.1 != n) r.2
    | .cospi =>
      if m = 0 then fromExact f .rn fz false 1 0
      else match sinpiMag m e true with
        | none => (0, fNone)
        | some r => ofMag f fz r.1 r.2
    | .floor => integral f .rd n m e
    | .ceil => integral f .ru n m e
    | .trunc => integral f .rz n m e
    | .rint => integral f .rn n m e

/-- A packed element of fun: the FP32 function on the widened element, rounded to the element format; the flags describe the
element returned (R207). -/
def funElem (f : Fmt) (fz : Bool) (fn : FunFn) (a : Nat) : Nat × FFlags :=
  let a' := flushIn f fz a
  match fn with
  | .abs | .neg | .floor | .ceil | .trunc | .rint => funV f fz fn a
  | _ =>
    match unpack f a' with
    | .nan s => nanOf f s
    | v =>
      let wide := match v with
        | .inf n => Fmt.f32.sign n + Fmt.f32.inf
        | .fin n m e => (fromExact Fmt.f32 .rn false n m e).1
        | .nan _ => Fmt.f32.nan
      let r := funV Fmt.f32 false fn wide
      let keep := r.2 &&& (fIo ||| fDz)
      let nx32 := r.2 &&& fNx != fNone
      match unpack Fmt.f32 r.1 with
      | .nan _ => (f.nan, keep)
      | .inf n => (f.sign n + f.inf, keep ||| fIf nx32 (fOf ||| fNx))
      | .fin n m e =>
        if m = 0 then (f.sign n, keep ||| fIf nx32 (fUf ||| fNx))
        else
          let t := roundTo f .rn n m e false
          if t.isOver then (t.bits, keep ||| fOf ||| fNx)
          else if fz && f.flushes && t.tiny then (f.sign n, keep ||| fUf ||| fNx)
          else (t.bits, keep ||| fIf (t.inexact || nx32) fNx ||| fIf (t.tiny && (t.inexact || nx32)) fUf)

/-! ## Conversions (R42-R44) -/

/-- Integer to floating point. -/
def cvtFromInt (f : Fmt) (rm : Rm) (k : Int) : Nat × FFlags := fromExact f rm false (decide (k < 0)) k.natAbs 0

/-- Floating point to an integer in lo … hi: a NaN gives 0, out of range saturates, each with io alone (R34, R43). -/
def cvtToInt (f : Fmt) (rm : Rm) (lo hi : Int) (a : Nat) : Int × FFlags :=
  match unpack f a with
  | .nan _ => (0, fIo)
  | .inf n => (if n then lo else hi, fIo)
  | .fin n m e =>
    let r := roundAt rm n m e false 0
    let k : Int := if n then -(r.1 : Int) else r.1
    if k < lo then (lo, fIo) else if hi < k then (hi, fIo) else (k, fIf r.2 fNx)

/-- Between floating-point formats. -/
def cvtFmt (src dst : Fmt) (rm : Rm) (a : Nat) : Nat × FFlags :=
  match unpack src a with
  | .nan s => nanOf dst s
  | .inf n => (dst.sign n + dst.inf, fNone)
  | .fin n m e => fromExact dst rm false n m e

end Sys2Proof.Machine
end

