-- ==== Sys2Proof/Machine/M8.lean ====
section
/-! DEFINITION. M8 (R37-R40), S8 scales (R41), and the sums of fixed order: vdot.m8 (R46), redux.fadd (R47), the chunk and
block steps of the matrix array (R48, R49). -/

namespace Sys2Proof.Machine

/-! ## M8 values -/

/-- B(k) of R37. -/
def m8B (k : Nat) : Int :=
  match k with
  | 0 => 0 | 1 => -1 | 2 => -3 | 3 => -7 | 4 => -15 | 5 => -19 | _ => -21

/-- Leading zeros of a 7-bit code (R37). -/
def m8K (c : Nat) : Nat := 6 - Nat.log2 c

/-- The magnitude of a code in units of 2^−21 (R37). -/
def m8Mag (c : Nat) : Nat :=
  if c = 0 then 0 else
  let k := m8K c
  let m := 6 - k
  let ew := min k m
  let fw := m - ew
  let tail := c % 2 ^ m
  let x := tail / 2 ^ fw
  let F := tail % 2 ^ fw
  (2 ^ fw + F) * 2 ^ ((m8B k - x - fw) + 21).toNat

/-- An M8 byte: none is NaR; otherwise the sign and the magnitude in units of 2^−21 (R37). -/
def m8Val (b : Nat) : Option (Bool × Nat) :=
  let neg := b / 128 % 2 == 1
  let c := b % 128
  if c = 0 then (if neg then none else some (false, 0)) else some (neg, m8Mag c)

/-- The code of the largest magnitude that satisfies a bound; code 0 always does. -/
def m8Floor (le : Nat → Bool) : Nat :=
  (List.range 128).foldl (fun best c => if le (m8Mag c) && decide (m8Mag best < m8Mag c) then c else best) 0

/-- The code of the smallest magnitude above a magnitude; the largest code when none is. -/
def m8Next (mag : Nat) : Nat :=
  (List.range 128).foldl (fun best c => if decide (mag < m8Mag c) && decide (m8Mag c < m8Mag best) then c else best) 127

/-- The code of a magnitude m·2^e that does not exceed the largest one (R39). -/
def m8Code (rn : Bool) (m : Nat) (e : Int) : Nat × Bool :=
  let q := min e (-21)
  let x := m * 2 ^ (e - q).toNat
  let unit := 2 ^ (-21 - q).toNat
  let lo := m8Floor fun g => decide (g * unit ≤ x)
  let gl := m8Mag lo * unit
  if gl = x then (lo, false)
  else if !rn then (lo, true)
  else
    let hi := m8Next (m8Mag lo)
    let gh := m8Mag hi * unit
    if x - gl < gh - x then (lo, true)
    else if gh - x < x - gl then (hi, true)
    else if lo % 2 == 0 && hi % 2 == 1 then (lo, true)
    else if lo % 2 == 1 && hi % 2 == 0 then (hi, true)
    else (if Config.m8TieUp (min lo hi) then hi else lo, true)

/-- FP32 to M8 (R39). -/
def m8OfF32 (rn : Bool) (bits : Nat) : Nat × FFlags :=
  match unpack .f32 bits with
  | .nan _ => (0x80, fIo)
  | .inf _ => (0x80, fIo)
  | .fin neg m e =>
    if m = 0 then (0, fNone)
    else
      let q := min e (-21)
      let x := m * 2 ^ (e - q).toNat
      let unit := 2 ^ (-21 - q).toNat
      if m8Mag 127 * unit < x then (if neg then 0xFF else 0x7F, fOf ||| fNx)
      else
        let r := m8Code rn m e
        let small := decide (x < unit)
        (if r.1 = 0 then 0 else (if neg then 128 + r.1 else r.1),
         fIf (r.2 || small) fNx ||| fIf small fUf)

/-- M8 to FP32, exact (R40). -/
def m8ToF32 (b : Nat) : Nat × FFlags :=
  match m8Val b with
  | none => (Fmt.f32.nan, fIo)
  | some (neg, g) => fromExact .f32 .rn false neg g (-21)

/-- Byte n of a word. -/
def byteAt (w : Word) (n : Nat) : Nat := w.toNat / 256 ^ n % 256

/-- pk.m8 of four FP32 values (R210). -/
def pkM8 (rn : Bool) (x0 x1 y0 y1 : Word) : Word × FFlags :=
  let a := m8OfF32 rn x0.toNat
  let b := m8OfF32 rn x1.toNat
  let c := m8OfF32 rn y0.toNat
  let d := m8OfF32 rn y1.toNat
  (BitVec.ofNat 32 (a.1 + b.1 * 256 + c.1 * 65536 + d.1 * 16777216), a.2 ||| b.2 ||| c.2 ||| d.2)

/-! ## Sums -/

/-- The sign of an exact zero sum: −0 only when every term is a zero of negative sign (R45). -/
def allNegZero (terms : List (Bool × Nat)) : Bool := terms.all fun t => t.1 && t.2 == 0

/-- A signed magnitude as an integer. -/
def sgnInt (neg : Bool) (m : Nat) : Int := if neg then -(m : Int) else m

/-- Products of pairs of M8 values in units of 2^−42; none when a NaR occurs. -/
def m8Products : List (Nat × Nat) → Option (List (Bool × Nat))
  | [] => some []
  | (a, b) :: r =>
    match m8Val a, m8Val b, m8Products r with
    | some (na, ma), some (nb, mb), some ts => some ((na != nb, ma * mb) :: ts)
    | _, _, _ => none

/-- An exact sum of products k·2^e plus an accumulator (none: not a term), rounded once to FP32 (R46, R49 step 3). -/
def accumulate (zeroNeg : Bool) (k : Int) (e : Int) (acc : Option Nat) : Nat × FFlags :=
  match acc with
  | none => fromExact .f32 .rn false (if k = 0 then zeroNeg else decide (k < 0)) k.natAbs e
  | some a =>
    match unpack .f32 a with
    | .nan _ => (Fmt.f32.nan, fNone)
    | .inf n => (Fmt.f32.sign n + Fmt.f32.inf, fNone)
    | .fin na ma ea =>
      let q := min e ea
      let t := toUnits (decide (k < 0)) k.natAbs e q + toUnits na ma ea q
      fromExact .f32 .rn false (if t = 0 then zeroNeg && na && ma == 0 else decide (t < 0)) t.natAbs q

/-- vdot.m8 (R46). -/
def vdotM8 (a b : Word) (d : Word) : Word × FFlags :=
  match m8Products ((List.range 4).map fun i => (byteAt a i, byteAt b i)) with
  | none => (BitVec.ofNat 32 Fmt.f32.nan, fIo)
  | some ts =>
    let k := ts.foldl (fun s t => s + sgnInt t.1 t.2) 0
    let sig := (unpack .f32 d.toNat).sig
    let r := accumulate (allNegZero ts) k (-42) (some d.toNat)
    (BitVec.ofNat 32 r.1, r.2 ||| fIf sig fIo)

/-- One level of the tree of R47: neighbours added, a single one passed on, none absent. DESIGN CHOICE (log entry 67): a NaN that is
passed on stands unchanged and raises no flag, as R47 says, where R31 makes NaN results canonical. -/
def reduxLevel : List (Option Nat) → List (Option Nat) × FFlags
  | x :: y :: r =>
    let t := reduxLevel r
    match x, y with
    | some a, some b => let s := fadd .f32 .rne a b; (some s.1 :: t.1, s.2 ||| t.2)
    | some a, none => (some a :: t.1, t.2)
    | none, some b => (some b :: t.1, t.2)
    | none, none => (none :: t.1, t.2)
  | l => (l, fNone)

/-- The five levels of R47 over 32 lanes; none when no lane is present. -/
def reduxTree : Nat → List (Option Nat) → FFlags → Option Nat × FFlags
  | 0, l, f => (l.headD none, f)
  | n + 1, l, f => let r := reduxLevel l; reduxTree n r.1 (f ||| r.2)

/-! ## Matrix steps -/

/-- The exact product of two values as a term of R48: NaN, infinity or a signed dyadic. -/
def mulTerm (a b : FVal) : FVal :=
  match a, b with
  | .nan s, _ => .nan s
  | _, .nan s => .nan s
  | .inf na, .inf nb => .inf (na != nb)
  | .inf na, .fin nb mb _ => if mb = 0 then .nan false else .inf (na != nb)
  | .fin na ma _, .inf nb => if ma = 0 then .nan false else .inf (na != nb)
  | .fin na ma ea, .fin nb mb eb => .fin (na != nb) (ma * mb) (ea + eb)

/-- floor(log2 |t|) of a nonzero finite term. -/
def termExp : FVal → Option Int
  | .fin _ m e => if m = 0 then none else some (e + Nat.log2 m)
  | _ => none

/-- The largest exponent among the nonzero terms (R48 step 3). -/
def termEmax : List FVal → Option Int
  | [] => none
  | t :: r =>
    match termExp t, termEmax r with
    | some a, some b => some (max a b)
    | some a, none => some a
    | none, o => o

/-- A term truncated toward zero to a multiple of 2^q, in units of it (R48 step 4). -/
def termTrunc (q : Int) : FVal → Int
  | .fin n m e => sgnInt n (roundAt .rz n m e false q).1
  | _ => 0

/-- A term that is a zero of negative sign. -/
def termNegZero : FVal → Bool
  | .fin n m _ => n && m == 0
  | _ => false

/-- One chunk of a BF16 or FP16 pass: the terms (products, and the accumulator unless the pass overwrites and this is the
first chunk) to the new accumulator bits (R48). -/
def chunkSum (terms : List FVal) : Nat :=
  let pinf := terms.any (· == .inf false)
  let ninf := terms.any (· == .inf true)
  if terms.any FVal.isNan || (pinf && ninf) then Fmt.f32.nan
  else if pinf then Fmt.f32.inf
  else if ninf then Fmt.f32.sign true + Fmt.f32.inf
  else match termEmax terms with
    | none => Fmt.f32.sign (terms.all termNegZero)
    | some emax =>
      let q := emax - 50
      let k := terms.foldl (fun s t => s + termTrunc q t) 0
      (fromExact .f32 .rn false (if k = 0 then terms.all termNegZero else decide (k < 0)) k.natAbs q).1

/-- One chunk of 32 of a BF16 or FP16 pass at one accumulator element. -/
def chunkStep (fa fb : Fmt) (pairs : List (Nat × Nat)) (acc : Option Nat) : Nat :=
  let ts := pairs.map fun p => mulTerm (unpack fa p.1) (unpack fb p.2)
  chunkSum (match acc with
    | none => ts
    | some a => ts ++ [unpack .f32 a])

/-- The integer value of an s8 or z8 byte. -/
def intByte (signed : Bool) (b : Nat) : Int := if signed && 128 ≤ b then (b : Int) - 256 else b

/-- One scale block of an M8, s8 or z8 pass at one accumulator element (R49): `ints` gives the sum of integer products when
both operands are integers; scales 255 are NaR. -/
def blockStep (isM8 : Bool) (sa sb : Bool) (pairs : List (Nat × Nat)) (ea eb : Nat) (acc : Option Nat) : Nat :=
  if ea = 255 || eb = 255 then Fmt.f32.nan
  else if isM8 then
    match m8Products pairs with
    | none => Fmt.f32.nan
    | some ts =>
      let k := ts.foldl (fun s t => s + sgnInt t.1 t.2) 0
      (accumulate (allNegZero ts) k ((ea : Int) + eb - 254 - 42) acc).1
  else
    let k := pairs.foldl (fun s p => s + intByte sa p.1 * intByte sb p.2) 0
    (accumulate false k ((ea : Int) + eb - 254) acc).1

end Sys2Proof.Machine
end

