-- ==== Sys2Proof/Machine/SMap.lean ====
section
/-! DEFINITION. Sparse tables in one canonical form: a list of (key, value) pairs, keys strictly rising, no entry equal to
the value an unlisted key has. Memory, register files and every table of State use it. -/

/-- Put a value in its place in a sorted list, before the first that is not smaller. -/
def List.putBy {α : Type} (le : α → α → Bool) (a : α) : List α → List α
  | [] => [a]
  | b :: r => if le a b then a :: b :: r else b :: r.putBy le a

/-- A list in order, equal values as they stood. -/
def List.sortBy {α : Type} (le : α → α → Bool) (l : List α) : List α := l.foldr (List.putBy le) []

/-- Numbers in ascending order. -/
def List.sortUp (l : List Nat) : List Nat := l.sortBy fun a b => decide (a ≤ b)

namespace Sys2Proof.Machine

/-- A sparse table: what an unlisted key holds is said by the reader and the writer (the table's default). -/
abbrev SMap (α : Type) := List (Nat × α)

/-- The value at a key; `d` where the key is not listed. -/
def mget {α : Type} (d : α) : SMap α → Nat → α
  | [], _ => d
  | (a, v) :: m, k => if a = k then v else mget d m k

/-- Remove a key. -/
def mdel {α : Type} : SMap α → Nat → SMap α
  | [], _ => []
  | (a, v) :: m, k => if a = k then mdel m k else (a, v) :: mdel m k

/-- Put a pair in its place by key; the key is not listed. -/
def mins {α : Type} : SMap α → Nat → α → SMap α
  | [], k, v => [(k, v)]
  | (a, w) :: m, k, v => if k < a then (k, v) :: (a, w) :: m else (a, w) :: mins m k v

/-- Write a key; writing the default removes the entry. -/
def mset {α : Type} [DecidableEq α] (d : α) (m : SMap α) (k : Nat) (v : α) : SMap α :=
  if v = d then mdel m k else mins (mdel m k) k v

/-- Every key is larger than `lo`, keys rise strictly, and no value is the default. -/
def mwfFrom {α : Type} [DecidableEq α] (d : α) : Nat → SMap α → Bool
  | _, [] => true
  | lo, (a, v) :: m => decide (lo ≤ a) && decide (v ≠ d) && mwfFrom d (a + 1) m

/-- The canonical form. -/
def mwf {α : Type} [DecidableEq α] (d : α) (m : SMap α) : Bool := mwfFrom d 0 m

/-- The keys listed. -/
def mkeys {α : Type} (m : SMap α) : List Nat := m.map (·.1)

/-- Change the value at a key. -/
def mupd {α : Type} [DecidableEq α] (d : α) (m : SMap α) (k : Nat) (f : α → α) : SMap α := mset d m k (f (mget d m k))

end Sys2Proof.Machine
end

