-- ==== Sys2Proof/Machine/Types.lean ====
section
/-! DEFINITION. The records State is made of: lanes, groups, blocks, cores, memory operations. Every field is architectural
state of the rule its comment names, or the model's own as said there. Unlisted table entries hold the defaults below. -/

namespace Sys2Proof.Machine

/-! ## Lanes (R149, R157, R175) -/

/-- A lane's status (R149); waiting lanes say at what. -/
inductive LaneStatus where
  | absent | active | parked | meet | barBlk | barBlkR | barTeam | ended
  deriving DecidableEq, Repr

/-- Why a lane is parked (R107, R170): code, trap number, late, VA of the fault, PC of the faulting instruction. -/
structure Cause where
  code   : Nat := 0
  number : Nat := 0
  late   : Bool := false
  va     : Nat := 0
  fpc    : Nat := 0
  /-- Words of the instruction at TPC; 0: read where the trap is taken (R173). -/
  words  : Nat := 1
  deriving DecidableEq, Repr

/-- A register as the scoreboard names it: a stack slot or predicate of a lane, a uniform register or predicate. -/
inductive RegKey where
  | v (lane slot : Nat)
  | p (lane n : Nat)
  | k (n : Nat)
  | kp (n : Nat)
  deriving DecidableEq, Repr

/-- A region entry (R175): the PC, and the lane as it stood there; `waits` names the registers that a load in flight had still
to write, which the snapshot takes by reference; `at_` is the instance number at which it was taken. -/
structure Snap where
  pc     : Nat := 0
  low    : Int := 0
  base   : Int := 0
  stack  : SMap Word := []
  preds  : BitVec 12 := 0#12
  gflag  : Bool := false
  gcount : Nat := 0
  waits  : List (RegKey × Nat) := []
  at_    : Nat := 0
  deriving DecidableEq, Repr

/-- A lane (R149, R157, R20, R242). -/
structure Lane where
  status : LaneStatus := .absent
  helper : Bool := false
  pc     : Nat := 0
  gflag  : Bool := false
  gcount : Nat := 0
  low    : Int := 0
  base   : Int := 0
  stack  : SMap Word := []
  preds  : BitVec 12 := 0#12
  pocket : SMap Byte := []
  region : Snap := {}
  cause  : Cause := {}
  /-- The window base when the served trap was raised (R161). -/
  trapBase : Int := 0
  /-- The guard window the lane was parked with, while a handler runs for it (R154). -/
  trapFlag : Bool := false
  trapCount : Nat := 0
  deriving DecidableEq, Repr

/-! ## Scoreboard (R26, R27, R64-R66) -/

/-- A destination whose producer has not completed: the value it held before (R27). -/
structure BoardCell where
  key : RegKey
  old : Word
  deriving DecidableEq, Repr

/-- A producer: its instance number, the cycle it completes at (none: variable latency), whether memory writes its
destinations when it returns, and its destinations not overwritten since (R65). -/
structure BoardEntry where
  iid   : Nat
  done  : Option Nat
  mem   : Bool
  cells : List BoardCell
  deriving DecidableEq, Repr

/-- What a group that could not issue waits for, as its sample names it (R28, R408). -/
inductive Reason where
  | trapMode | fetch | scoreboard | stallCount | tokenWait | barrierWait | feWait | qportWait | permit
  | matrixReservation | historyWait | migrationBlock | other
  /-- It reads a bad physical register: no wait, but an error (R190). -/
  | badRegister
  deriving DecidableEq, Repr

/-! ## Memory operations in flight (R225, R234, R255) -/

/-- A physical address (R309): target 0 local, 1 peer, 2 host, 3 CSR space. -/
structure Phys where
  target : Nat := 0
  peer   : Nat := 0
  off    : Nat := 0
  deriving DecidableEq, Repr

/-- A translation: the place, the leaf, and the extent that invalidations match (R309, R311). -/
structure Xlat where
  phys : Phys
  leaf : Nat
  page : Nat
  bits : Nat
  deriving DecidableEq, Repr

/-- System operations that release, or invalidate, before they take effect (R128, R129, R285, R319, R349, R350, R352). -/
inductive SysOp where
  | arrive | spawn | launch | jdec | actComp | actCommit | actAbandon | actDone | tlbinv
  deriving DecidableEq, Repr

/-- How far a jdec at a peer's join record has come (R129, log entry 69): the counter and the continuation as read, the request that is
outstanding (0 none, 1 the counter, 2 the continuation, 3 the exchange), and the stamp, once the exchange is over. -/
structure Jdec where
  cnt   : List Byte := []
  rcd   : List Byte := []
  phase : Nat := 0
  bad   : Bool := false
  /-- The stamp of the last answer (R230). -/
  seen  : Nat := 0
  ended : Option Nat := none
  /-- A push that failed after the exchange: its status, while the counter is put back to 1. -/
  undo  : Nat := 0
  /-- The path that the exchange took (R335). -/
  path  : Nat := 0
  deriving DecidableEq, Repr

/-- What a memory operation does. -/
inductive PKind where
  | load | store | atomic | asof | fence (k : FenceKind) | sys (op : SysOp)
  deriving DecidableEq, Repr

/-- A memory operation issued and not yet finished: one per lane of an access (kld, kst: one for the run), or a fence's
part for one lane. -/
structure Pend where
  uid     : Nat := 0
  iid     : Nat := 0
  kind    : PKind := .load
  /-- Block memory instead of global memory. -/
  bm      : Bool := false
  blk     : Nat := 0
  /-- The core of its issue. -/
  core    : Nat := 0
  grp     : Nat := 0
  lanes   : List Nat := []
  uniform : Bool := false
  helper  : Bool := false
  ctx     : Nat := 0
  addr    : Nat := 0
  size    : Nat := 0
  phys    : Option Phys := none
  /-- H and M of the leaf it translated through, and that leaf's page (R313, R316). -/
  hist    : Bool := false
  migr    : Bool := false
  page    : Nat := 0
  psize   : Nat := 0
  fault   : Option Nat := none
  data    : List Byte := []
  cmp     : List Byte := []
  jd      : Jdec := {}
  dest    : List RegKey := []
  acq     : Option Scope := none
  rel     : Option Scope := none
  atom    : Option AtomSpec := none
  asofS   : Nat := 0
  status  : Option RegKey := none
  fe      : Bool := false
  clr     : Bool := false
  ru      : Bool := false
  nt      : Bool := false
  /-- The causal floor it carries (R229). -/
  floor   : Nat := 0
  /-- The value of the group's last access to the location, for `.no` (R334). -/
  result  : List Word := []
  /-- Operand registers of a system operation, as read at issue. -/
  args    : List Word := []
  done    : Bool := false
  sent    : Bool := false
  stamp   : Nat := 0
  pc      : Nat := 0
  words   : Nat := 1
  /-- Flush markers outstanding: (device, path), once sent (R335). -/
  markers : Option (List (Nat × Nat)) := none
  /-- A `.cm` update combined into another (R245). -/
  merged  : Option Nat := none
  /-- Host stores with release: the tick from which the slice sends them on (R229). -/
  hold    : Option Nat := none
  issued  : Nat := 0
  /-- The core's cycle at its issue (R26). -/
  cycle   : Nat := 0
  due     : Option Nat := none
  /-- A load that L1 does not serve (R26, R230). -/
  miss    : Bool := false
  /-- An as-of load's walk, made where it translated: whether it met poison, and its chain steps; its bytes stand in `data` (R397). -/
  walked  : Option (Bool × Nat) := none
  deriving DecidableEq, Repr

/-- A store-fault record (R180), with the lanes that hold it. -/
structure StoreFault where
  lanes : List Nat
  va    : Nat
  data  : List Byte
  width : Nat
  cause : Nat
  pcOff : Nat
  /-- The group's count of issues when it entered the queue (R181). -/
  at_   : Nat
  deriving DecidableEq, Repr

/-! ## Matrix and copy engines (R258, R266, R270, R288-R302) -/

/-- Matrix-queue operations. -/
inductive MatKind where
  | mma | pair | zero | ld | st | cp
  deriving DecidableEq, Repr

/-- A pass operand as read at issue (R265). -/
structure MatSrc where
  base   : Nat := 0
  stride : Nat := 0
  fmt    : MatFmt := .bf16
  blk    : Bool := false
  deriving DecidableEq, Repr

/-- An entry of a group's matrix queue (R258). -/
structure MatEntry where
  uid      : Nat := 0
  tok      : Nat := 0
  kind     : MatKind := .zero
  a        : MatSrc := {}
  b        : MatSrc := {}
  depth    : Nat := 0
  /-- Scale bytes, row by row and block by block; empty: all 127 (R264). -/
  scA      : List Nat := []
  scB      : List Nat := []
  ow       : Bool := false
  row      : Nat := 0
  rows     : Nat := 0
  fmt      : AccFmt := .f32
  base     : Nat := 0
  stride   : Nat := 0
  blk      : Bool := false
  role     : Nat := 0
  mbar     : Option Nat := none
  prio     : Nat := 0
  /-- The cycle at which the reservation entry was taken (R260). -/
  taken    : Nat := 0
  started  : Bool := false
  progress : Nat := 0
  susp     : Option Cause := none
  floor    : Nat := 0
  maxStamp : Nat := 0
  after    : List Nat := []
  /-- Pages counted (R314): of operand A or of an accumulator transfer, and of operand B. -/
  pages    : List Nat := []
  pagesB   : List Nat := []
  devs     : List Nat := []
  /-- The tick at which it was issued (R392). -/
  since    : Nat := 0
  /-- Sectors of the current row that stand written (R270). -/
  sec      : Nat := 0
  /-- The VA of the sector that a peer has been asked for, or sent, and its translation. -/
  asked    : Option Nat := none
  at_      : Option Xlat := none
  /-- Sectors of the current chunk or row that peers have answered: VA, bytes, poison. -/
  got      : List (Nat × List Byte × Bool) := []
  /-- Words that it has written: place, and how many values the word had had before (R290, R334). -/
  saw      : List (Nat × Nat) := []
  deriving DecidableEq, Repr

/-- Copy kinds (R288). -/
inductive CopyKind where
  | ld | st | red (ty : RedTy) | tile
  deriving DecidableEq, Repr

/-- An entry of a copy queue, or the transfer of a chain record (R292, R297, R302). -/
structure CopyEntry where
  uid      : Nat := 0
  blk      : Nat := 0
  grp      : Nat := 0
  tok      : Nat := 0
  kind     : CopyKind := .ld
  va       : Nat := 0
  bm       : Nat := 0
  bytes    : Nat := 0
  stride   : Nat := 0
  rows     : Nat := 1
  roles    : List Nat := []
  mbar     : Option Nat := none
  rel      : Option Scope := none
  floor    : Nat := 0
  maxStamp : Nat := 0
  /-- Sectors written at every destination (R289). -/
  progress : Nat := 0
  /-- The roles at which the current sector stands written (R298). -/
  wrote    : List Nat := []
  /-- The current sector as read once, with its poison (R298). -/
  buf      : Option (List Byte × Bool) := none
  /-- The current sector has been sent to a peer and its response is outstanding. -/
  sent     : Bool := false
  susp     : Option Cause := none
  after    : List Nat := []
  pages    : List Nat := []
  devs     : List Nat := []
  markers  : Option (List (Nat × Nat)) := none
  /-- A release to host memory: its stamp, held until the slice's tick passes it (R229). -/
  hold     : Option Nat := none
  /-- The translation of a sector that is held or sent. -/
  at_      : Option Xlat := none
  /-- A chain's record at a peer has been given back (R302). -/
  given    : Bool := false
  /-- Words that it has written: place, and how many values the word had had before (R290, R334). -/
  saw      : List (Nat × Nat) := []
  /-- The tick at which it was issued, which its requests' deadlines count from at the earliest (R392). -/
  since    : Nat := 0
  deriving DecidableEq, Repr

/-- A transfer-chain channel (R300-R302). -/
structure Chan where
  busy  : Bool := false
  error : Bool := false
  recVa : Nat := 0
  next  : Nat := 0
  tok   : Nat := 0
  blk   : Nat := 0
  grp   : Nat := 0
  uid   : Nat := 0
  /-- The record's transfer, while it runs. -/
  entry : Option CopyEntry := none
  /-- A fault on the record itself (R302). -/
  susp  : Option Cause := none
  after : List Nat := []
  maxStamp : Nat := 0
  /-- The causal floor at its issue (R229, R290). -/
  floor : Nat := 0
  devs  : List Nat := []
  /-- A record at a peer: its bytes as far as they have come, their poison, and the translation of a sector that is asked for (R302). -/
  rcd   : List Byte := []
  bad   : Bool := false
  /-- The poison of the record's first sector, which holds its owner byte. -/
  bad0  : Bool := false
  at_   : Option Xlat := none
  saw   : List (Nat × Nat) := []
  deriving DecidableEq, Repr

/-- What entries that have performed leave to the wait that covers them (R290, R334, R335): their largest stamp, the devices written, and
the words written, with how many values each had had before. -/
structure Cover where
  stamp : Nat := 0
  devs  : List Nat := []
  saw   : List (Nat × Nat) := []
  deriving DecidableEq, Repr

/-- A memo entry (R167, R168, R235, R250): the key by contents, and the result. -/
structure Memo where
  word   : Word := 0#32
  lits   : List Word := []
  srcs   : List (List Word) := []
  uni    : List Word := []
  fpcr   : BitVec 3 := 0#3
  ctx    : Nat := 0
  asofS  : Nat := 0
  /-- Destination values lane by lane (or the one uniform value), and flags. -/
  vals   : List (List Word) := []
  flags  : FFlags := 0#5
  /-- Lines read and the stamp returned, for loads. -/
  lines  : List Nat := []
  stamp  : Nat := 0
  load   : Bool := false
  asof   : Bool := false
  deriving DecidableEq, Repr

/-! ## Groups (R148) -/

/-- A group (R148-R192). -/
structure Group where
  live    : Bool := false
  /-- It ended cut short (R143). -/
  cut     : Bool := false
  lanes   : SMap Lane := []
  k       : SMap Word := []
  ubase   : Nat := 0
  kp      : BitVec 4 := 0#4
  fpcr    : Word := 0#32
  fpsr    : Word := 0#32
  stksave : DWord := 0#64
  tcause  : Word := 0#32
  trec    : Word := 0#32
  tpc     : DWord := 0#64
  tva     : DWord := 0#64
  tlanes  : Word := 0#32
  /-- CSR read latch and write buffer: the odd number and the bits (R105). -/
  latch   : Option (Nat × Word) := none
  wbuf    : Option (Nat × Word) := none
  floor   : Nat := 0
  tokens  : SMap Nat := []
  matq    : List MatEntry := []
  /-- Entries of the matrix queue in use in this cycle (R417). -/
  matUsed : Nat := 0
  sfq     : List StoreFault := []
  /-- Instructions that the group has issued (R181). -/
  issues  : Nat := 0
  trapped : Bool := false
  served  : List Nat := []
  streak  : Nat := 0
  round   : List Nat := []
  lastRun : List Nat := []
  notBefore : Nat := 0
  untilDone : Option Nat := none
  board   : List BoardEntry := []
  /-- Flush-marker destinations (R335): devices that received writes since the last release at scope 5 or 6. -/
  dests   : List Nat := []
  /-- Write packets sent since the previous marker, by device × 4 + path (R335). -/
  sentCnt : SMap Nat := []
  /-- What entries that performed since the last covering wait add to the floor, to dests and to saw (R290), by token. -/
  covered : SMap Cover := []
  /-- Words the group has accessed, by place: how many values the word had had before (R334). -/
  saw     : SMap Nat := []
  /-- The largest tick that it has read (R112). -/
  tickSeen : Nat := 0
  /-- What instructions in flight have had counted once: what (0 an access to a page, 1 a line of L1, 2 a page of the L1 TLB), instance, and
  page or line (R314, R405). -/
  seen    : List (Nat × Nat × Nat) := []
  /-- The granule-wait of an ld.s.fe: the next instruction waits for it (R239). -/
  feWait  : Option Nat := none
  /-- A trace record of it was dropped: SYNC comes before its next one (R410). -/
  syncDue : Bool := false
  /-- The memo entries that reuse and as-of loads in flight will make, by instance (R235, R250). -/
  memoWait : List (Nat × Memo) := []
  /-- Why it did not issue when its quarter last looked (R408). -/
  why     : Nat := 14
  /-- The cycle of that look plus 1. -/
  whyAt   : Nat := 0
  /-- The PC of its last issue, and its cycle plus 1. -/
  lastPc  : Nat := 0
  issuedAt : Nat := 0
  deriving DecidableEq, Repr

/-! ## Blocks (R16, R118, R188) -/

/-- A group's rollback snapshot (R188). -/
structure GroupSnap where
  grp    : Nat
  lanes  : SMap Lane
  k      : SMap Word
  ubase  : Nat
  kp     : BitVec 4
  fpcr   : Word
  fpsr   : Word
  /-- Registers that loads in flight had still to write: the snapshot has them by reference. -/
  waits  : List (RegKey × Nat) := []
  deriving DecidableEq, Repr

/-- A 128-byte unit of block memory saved in the shadow reserve, with its full/empty bits and poison marks (R188). -/
structure Shadow where
  unit   : Nat
  bytes  : List Byte
  full   : List Bool
  poison : List Bool
  deriving DecidableEq, Repr

/-- A register whose physical register is bad: from an instance on, until a write maps it to another; a region entry that was taken in
between holds the bad one (R166, R190). -/
structure BadCell where
  grp    : Nat
  key    : RegKey
  since  : Nat
  until_ : Option Nat := none
  deriving DecidableEq, Repr

/-- A rollback interval (R188, R189). -/
structure Interval where
  opened : Bool := false
  flag   : Bool := false
  shadows : List Shadow := []
  rows   : List (Nat × List Word) := []
  groups : List GroupSnap := []
  ports  : SMap (List (List Word)) := []
  /-- The bad registers as the snapshot holds them (R190). -/
  bad    : List BadCell := []
  /-- Snapshots are older the smaller this is (R166). -/
  at_    : Nat := 0
  deriving DecidableEq, Repr

/-- A block (R16, R17, R118, R241, R257). -/
structure Block where
  live    : Bool := false
  ctx     : Nat := 0
  kernel  : Nat := 0
  team    : Nat := 0
  role    : Nat := 0
  bid     : Nat := 0
  lanes   : Nat := 0
  A       : Nat := 128
  scratch : Nat := 0
  prio    : Nat := 0
  frame   : DWord := 0#64
  join    : DWord := 0#64
  code    : Nat := 0
  queue   : Nat := 0
  /-- The core it occupies; none while evicted. -/
  core    : Option Nat := none
  /-- Admission order: a larger number is younger (R113). -/
  age     : Nat := 0
  slots   : SMap Nat := []
  groups  : SMap Group := []
  floor   : Nat := 0
  bm      : SMap Byte := []
  full    : SMap Bool := []
  bmPoison : SMap Bool := []
  /-- Addresses that mbar operations have made objects (R283, log entry 71). -/
  objs    : List Nat := []
  /-- Block-memory sectors in the core's operand cache, as an earlier pass fetched them (R263). -/
  opcache : SMap (List Byte) := []
  ports   : SMap (List (List Word)) := []
  /-- Accumulator store: held, waiting for none; rows × 128 elements, +0 where not listed (R257). -/
  accHeld : Bool := false
  acc     : SMap Word := []
  interval : Interval := {}
  /-- Registers that map to a bad physical register, and those of region entries (R190). -/
  bad     : List BadCell := []
  cut     : Bool := false
  /-- The vesper entry whose routine it runs (R357). -/
  routine : Option Nat := none
  /-- Rolling back: waits for its outstanding work (R190). -/
  rolling : Bool := false
  /-- An eviction waits for its outstanding work (R114). -/
  evicting : Bool := false
  /-- Suspended copy entries and channels of an evicted block (R114, R268): load queue, store queue, channels. -/
  keptLd  : List CopyEntry := []
  keptSt  : List CopyEntry := []
  keptCh  : List (Nat × Chan) := []
  /-- Fences on what it has left to perform (R303). -/
  keptFences : List (Nat × List Nat) := []
  deriving DecidableEq, Repr

/-! ## Cores (R18-R29, R167, R288) -/

/-- A quarter (R21, R29, R168). -/
structure Quarter where
  ptr     : Nat := 0
  /-- The cycle after the last one it issued in. -/
  nextAt  : Nat := 0
  /-- When its fun unit and its F64 unit accept again (R21). -/
  funAt   : Nat := 0
  f64At   : Nat := 0
  memo    : List Memo := []
  /-- Cycles counted towards the sampling period, by context (R408), and sample records still to be written. -/
  samp    : SMap Nat := []
  sampDue : SMap (List (List Byte)) := []
  deriving DecidableEq, Repr

/-- The round-robin pointer over the quarters that share a queue, channel or table (R417): where it stands, where it stood when its
present cycle began, and that cycle plus 1. -/
structure Arb where
  ptr   : Nat := 0
  first : Nat := 0
  cyc   : Nat := 0
  deriving DecidableEq, Repr

/-- Entries counted as in use in the present cycle (R417): those in use as it began, and those taken since. -/
structure InUse where
  ld    : Nat := 0
  st    : Nat := 0
  chans : List Nat := []
  /-- Of a cluster's first core: entries of the cluster's reservation table. -/
  mat   : Nat := 0
  deriving DecidableEq, Repr

/-- A core (R18, R125, R288). -/
structure CoreSt where
  quarters : SMap Quarter := []
  ldq      : List CopyEntry := []
  stq      : List CopyEntry := []
  chans    : SMap Chan := []
  /-- qfence: entries that later entries of a queue wait for: queue number (0 ld, 1 st, 3 chains) and uids (R303). -/
  fences   : List (Nat × List Nat) := []
  /-- Pointers of the copy queues (0, 1), of the channels (2 to 5), and, on a cluster's first core, of its reservation table (6)
  (R417). -/
  arbs     : SMap Arb := []
  inUse    : InUse := {}
  hot      : Bool := false
  /-- The block a pass in progress belongs to: the array is in use (R261). -/
  array    : Option (Nat × Nat) := none
  /-- The stamp recorded with each line in L1 (R230): line, stamp + 1; 0 where the line is not held. -/
  l1       : SMap Nat := []
  /-- Temperature in °C and droop events of the window, as last reported (R125). -/
  temp     : Nat := 0
  droop    : Nat := 0
  deriving DecidableEq, Repr

/-! ## Memory (R385-R402) -/

/-- How a written line is stored (R401): the key it was written under, its off[39:7], its write counter and its page
generation; counter 0: never written. -/
structure LineMeta where
  key  : BitVec 256 := 0#256
  offL : Nat := 0
  ctr  : BitVec 56 := 0#56
  gen  : BitVec 8 := 0#8
  deriving DecidableEq, Repr

/-- A slice (R229, R398). -/
structure Slice where
  last : Nat := 0
  dusk : Nat := 0
  deriving DecidableEq, Repr

/-- A history-log entry (R396). -/
structure HistEntry where
  line  : Nat := 0
  bytes : List Byte := []
  stored : LineMeta := {}
  stamp : Nat := 0
  chain : Option Nat := none
  deriving DecidableEq, Repr

/-- A stack's ring (R396): entries oldest .. next−1, and when a stall began, with PINTMO of the contexts whose pins blocked it then
(R399). -/
structure Ring where
  oldest  : Nat := 0
  next    : Nat := 0
  entries : SMap HistEntry := []
  stall   : Option (Nat × List (Nat × Nat)) := none
  deriving DecidableEq, Repr

/-- A region's address map (R388, R390): none: the default matrix. -/
structure MapReg where
  active : Option (List Nat) := none
  staged : SMap Nat := []
  stat   : Nat := 0
  deriving DecidableEq, Repr

/-- A cached translation (R311): the unit that holds it (core c's L1: c; quadrant q's L2: 512 + q; the walkers of die d: 528 + d),
context, base VA, log2 of its extent, the leaf; in a walkers' cache, the descriptor of a table. -/
structure Tlb where
  unit  : Nat
  ctx   : Nat
  base  : Nat
  bits  : Nat
  leaf  : Nat
  deriving DecidableEq, Repr

/-- A TLB_INVAL command under way (R320): the command, its operands, and the accesses it waits for, as an operation of the scoreboard
(with 0) or an engine entry with the number of its access. -/
structure TlbCmd where
  cmd   : Cmd
  va    : DWord
  op    : Word
  waits : List (Nat × Nat)
  deriving DecidableEq, Repr

/-- A release of the device to host memory that a slice has stamped and holds (R229): place, what it stores, stamp, and the tick that
the slice waits to pass. -/
structure HostHold where
  off   : Nat
  data  : List Byte
  stamp : Nat
  until_ : Nat
  deriving DecidableEq, Repr

/-- An event as the log holds it (R379, R380). -/
structure EventRec where
  seq     : Nat := 0
  kind    : Nat := 0
  ctx     : Nat := 0xFFFF
  tick    : Nat := 0
  payload : List Byte := []
  deriving DecidableEq, Repr

/-- A trace record made and not yet written to its ring (R409). -/
structure TraceRec where
  ctx  : Nat
  blk  : Nat
  grp  : Nat
  core : Nat
  slot : Nat
  kind : Nat
  aux  : Nat
  lo   : Nat
  hi   : Nat
  tick : Nat
  deriving DecidableEq, Repr

/-- A member of the load-store domain (R361, R362). -/
structure Member where
  member : Bool := false
  serial : Nat := 0
  live   : Bool := false
  inc    : BitVec 8 := 0#8
  /-- Since when its tick differs too much (R361). -/
  skewed  : Option Nat := none
  /-- The tick at which its UP or its tick last arrived: a path reached it then (R361). -/
  seen    : Nat := 0
  deriving DecidableEq, Repr

/-- A counted access whose counter is to be incremented (R314). -/
structure Counted where
  ctx   : Nat
  page  : Nat
  loc   : Nat
  store : Bool
  deriving DecidableEq, Repr

/-- A notification that a counter's increment makes, still to be pushed (R314, R315): the access and the threshold. -/
structure Note where
  acc : Counted
  thr : Nat
  /-- The tick at which the counter reached the threshold. -/
  tick : Nat
  deriving DecidableEq, Repr

/-! ## Contexts (R95-R106) and kernels (R138-R147) -/

/-- A context's state (R96). -/
inductive CtxState where
  | free | defined | resident | stopped | killing
  deriving DecidableEq, Repr

/-- A history pin (R98, R253): its stamp, whether it still holds, who made it: a kernel, or an activity. -/
structure Pin where
  used   : Bool := false
  stamp  : Nat := 0
  broken : Bool := false
  kernel : Nat := 0
  activity : Bool := false
  deriving DecidableEq, Repr

/-- A context (R96-R106). -/
structure Ctx where
  state   : CtxState := .free
  /-- Stop or kill arrived while blocks are still leaving (R96, R97). -/
  stopping : Bool := false
  priv    : Bool := false
  weight  : Nat := 1
  tslice  : Nat := 10000
  ptroot  : DWord := 0#64
  key     : BitVec 256 := 0#256
  trapvec : DWord := 0#64
  sbchk   : Word := 0#32
  wdog    : Word := 0#32
  quantum : Word := 1000#32
  pintmo  : Word := 1000000#32
  accthr  : Word := 256#32
  acttmo  : Word := 10000000#32
  ctr     : SMap Word := []
  ctrsel  : SMap Word := []
  /-- Counter table VA and size exponent c, notification ring VA and size exponent m (R314, R315, R377). -/
  counterVa : Nat := 0
  counterC  : Nat := 10
  notifyVa  : Nat := 0
  notifyM   : Nat := 4
  vesper  : Nat := 0
  /-- Bound queues: index 0-15 to hardware queue + 1 (R115). -/
  queues  : SMap Nat := []
  started : Nat := 0
  serial  : Nat := 0
  pins    : SMap Pin := []
  sampBase : DWord := 0#64
  sampPeriod : Nat := 0
  sampM   : Nat := 0
  trcBase : DWord := 0#64
  trcEn   : Bool := false
  trcM    : Nat := 0
  /-- Tick + 1 of the last trace record of each core; 0: a TIME record comes first (R411). -/
  trcLast : SMap Nat := []
  /-- The resume that the last GAP record of each core shows, as its first tick (R411). -/
  trcGap  : SMap Nat := []
  /-- Round-robin positions among the queues of each priority (R124, R134). -/
  rr      : SMap Nat := []
  /-- Completion records of records that a kill discarded, still to be written: VA and bytes (R141). -/
  owed    : List (Nat × List Byte) := []
  /-- Last tick periods in which NOTIFY_FAULT was emitted, by stream (R314). -/
  notifyMark : SMap Nat := []
  /-- Ticks of residency by core: in all, and since its last turn there was over (R113). -/
  residency : SMap Nat := []
  turn    : SMap Nat := []
  deriving DecidableEq, Repr

/-- A kernel's state (R140). -/
inductive KState where
  | none | running | ending | killing | ended
  deriving DecidableEq, Repr

/-- A kernel (R138-R147). -/
structure Kernel where
  state   : KState := .none
  ctx     : Nat := 0
  id      : Nat := 0
  kind    : Nat := 0
  cir     : Word := 0#32
  start   : Nat := 0
  counted : Nat := 0
  wdog    : Nat := 0
  compVa  : Nat := 0
  ended   : Nat := 0
  cutGroups : Nat := 0
  teamsLeft : Nat := 0
  status  : Nat := 0
  /-- The tick at which it entered killing (R140). -/
  killTick : Nat := 0
  /-- Its completion record, once its store has been tried (R145, R229). -/
  compBytes : List Byte := []
  deriving DecidableEq, Repr

/-! ## Queues (R115-R134) -/

/-- A queue's state (R117). -/
inductive QState where
  | idle | armed | draining | stopped
  deriving DecidableEq, Repr

/-- A record as read: the continuation, and what a grid record adds (R118-R120); `bad`: not valid (R121). -/
structure Rec where
  code    : Nat := 0
  frame   : DWord := 0#64
  join    : DWord := 0#64
  lanes   : Nat := 0
  team    : Nat := 1
  A       : Nat := 0
  scratch : Nat := 0
  prio    : Nat := 0
  grid    : Bool := false
  queue   : Nat := 0
  blocks  : Nat := 1
  base    : Nat := 0
  comp    : Nat := 0
  bad     : Bool := false
  /-- The vesper entry whose routine it starts (R354). -/
  entry   : Option Nat := none
  deriving DecidableEq, Repr

/-- A hardware queue (R115), 0-255, or a context's compensation queue, 256 + context (R134). -/
structure HwQueue where
  bound    : Option Nat := none
  index    : Nat := 0
  st       : QState := .idle
  ring     : Nat := 0
  n        : Nat := 0
  prio     : Nat := 0
  host     : Bool := false
  head     : Word := 0#32
  tail     : Word := 0#32
  /-- Evicted blocks, the front first (R126). -/
  resume   : List Nat := []
  /-- Blocks of the head record already popped, and its kernel (R122, R138). -/
  popped   : Nat := 0
  kernel   : Nat := 0
  /-- Since when the head has waited, and the quadrant reserved for it (R124). -/
  since    : Option Nat := none
  reserved : Option Nat := none
  /-- The records of a compensation queue (R134). -/
  recs     : List Rec := []
  deriving DecidableEq, Repr

/-- An implicit decrement that the queue unit holds (R130). -/
structure Held where
  uid  : Nat := 0
  ctx  : Nat
  join : Nat
  /-- The kernel and core of the block, and the floor that its release carries. -/
  kernel : Nat := 0
  core : Nat := 0
  floor : Nat := 0
  jd   : Jdec := {}
  /-- The translation that a decrement under way at a peer goes through (R316, R319). -/
  at_  : Option Xlat := none
  /-- It waits until its queue is armed again, after a ring fault. -/
  armed : Bool := false
  deriving DecidableEq, Repr

/-- A store of the device that a peer has been sent and has not answered: its tag, the context and kernel it serves, its translation
(R228, R316, R319). -/
structure DevSent where
  uid  : Nat
  ctx  : Nat
  kern : Option Nat
  at_  : Xlat
  deriving DecidableEq, Repr

/-! ## Activities (R342-R360) -/

/-- An activity's state (R344, R351). -/
inductive ActState where
  | opened | committing | committed | abandoning | abandoned | stuck
  deriving DecidableEq, Repr

/-- An activity's record at its home (R342). -/
structure Activity where
  handle : Nat := 0
  ctx    : Nat := 0
  st     : ActState := .opened
  reason : Nat := 0
  device : Nat := 0
  stamp  : Nat := 0
  /-- In stuck: the stuck entry's stamp. -/
  stuckStamp : Nat := 0
  pin    : Option Nat := none
  members : List Nat := []
  /-- The device that holds the record: its home, or the member that took over (R342); this device mirrors the record of another. -/
  holder : Nat := 0
  /-- Members that have still to discard (R344). -/
  discard : List Nat := []
  /-- When it became terminal: the oldest such record gives up its slot first (R342). -/
  endedAt : Nat := 0
  deriving DecidableEq, Repr

/-- An entry of the vesper segment (R345): condition 0 pending, 1 running, 2 compensated, 3 skipped. -/
structure Entry where
  uid    : Nat := 0
  stamp  : Nat := 0
  code   : Nat := 0
  arg    : DWord := 0#64
  key    : DWord := 0#64
  handle : Nat := 0
  ctx    : Nat := 0
  cond   : Nat := 0
  start  : Nat := 0
  /-- Ticks counted against ACTTMO (R356). -/
  waited : Nat := 0
  deriving DecidableEq, Repr

/-! ## Island, hosts, ports (R361-R382) -/

/-- A host's window (R375), its ring positions, and its last mailbox reply (R382). -/
structure HostW where
  cmdBase : DWord := 0#64
  cmdSize : Word := 0#32
  cmdTail : Word := 0#32
  /-- Commands executed: the slot the next status goes to. -/
  cmdHead : Word := 0#32
  evtBase : DWord := 0#64
  evtSize : Word := 0#32
  evtHead : Word := 0#32
  /-- Records written to its event ring. -/
  evtTail : Word := 0#32
  deriving DecidableEq, Repr

/-- A mailbox reply (R382, log entry 9). -/
inductive Spdm where
  | none
  | version (v : Nat)
  | capabilities
  | algorithms
  | digests (slots : Nat) (digest : BitVec 384)
  | certificate (bytes : List Byte) (left : Nat)
  | challengeAuth (nonce : BitVec 256) (sig : BitVec 768)
  | measurements (index : Nat) (value : List Byte) (sig : BitVec 768)
  | error (code : Nat)
  deriving DecidableEq, Repr

/-- What a host last got from a read, a command or the mailbox: the outside's view. -/
structure HostReply where
  status : Nat := 0
  data   : List Byte := []
  poison : Bool := false
  spdm   : Spdm := .none
  deriving DecidableEq, Repr

/-- A Harbiter port (R364, R365, R370). -/
structure Port where
  lanes    : Nat := 0
  down     : Bool := false
  /-- Since when it trains: from boot on. -/
  training : Option Nat := some 0
  /-- Next block number expected, whether one has been accepted, whether a block must be acknowledged, and whether the last block is to be
  nakked. -/
  expect   : Nat := 0
  rcvd     : Bool := false
  ackDue   : Bool := false
  nak      : Bool := false
  /-- Naks received in a row, last block acknowledged, and since when none has been. -/
  naks     : Nat := 0
  acked    : Nat := 0
  ackTick  : Nat := 0
  credits  : List Nat := []
  /-- Times the port was lost, and when it last was (R365). -/
  losses   : Nat := 0
  downAt   : Nat := 0
  /-- The number of the next block, and the blocks sent and not yet acknowledged, oldest first: at most 1,024. -/
  seq      : Nat := 0
  retry    : List LinkBlock := []
  /-- Packets held, and by virtual channel the tick, plus 1, since which it has held flits without sending one; flits that follow in the next
  block. -/
  queue    : List Packet := []
  since    : SMap Nat := []
  flits    : List (List Byte) := []
  /-- Flits received of a packet that is not yet whole. -/
  got      : List (List Byte) := []
  deriving DecidableEq, Repr

/-- A firmware bank: the image's version, if it holds one, its bytes, and how often in a row it failed to reach forward (R381). -/
structure Bank where
  version : Option Nat := some 0
  image   : List Byte := []
  failed  : Nat := 0
  deriving DecidableEq, Repr

/-- A quadrant under test (R14, R415, R416). -/
structure Quad where
  lastPass : Nat := 0
  testing  : Option Nat := none
  /-- The tick of its last failed test. -/
  failTick : Nat := 0
  /-- The tick at which a block was last resident on it. -/
  busyAt   : Nat := 0
  deriving DecidableEq, Repr

/-- Myern's stored configuration: of context 0 (R95), and what it applies at island reset (R391). -/
structure Service where
  ptroot    : DWord := 0#64
  weight    : Nat := 1
  tslice    : Nat := 10000
  vesper    : Nat := 0
  counterVa : Nat := 0
  counterC  : Nat := 10
  notifyVa  : Nat := 0
  notifyM   : Nat := 4
  /-- Bound queues: index to hardware queue + 1. -/
  queues    : SMap Nat := []
  /-- Matrices by region, and hres. -/
  maps      : SMap (List Nat) := []
  hres      : Nat := 1
  deriving DecidableEq, Repr

/-- The island (R12-R15, R371-R381). -/
structure Island where
  st        : Nat := 1
  inc       : BitVec 8 := 0#8
  /-- The part record's signature verified (R12). -/
  partOk    : Bool := true
  /-- The part record (R12): part number, serial number, record version, exposure map of 4 × 17 bytes, quarantined quadrants, zero bytes
  104-127 with bits [31:16] of the quarantine word, signature. -/
  partNo    : List Byte := [0x4B#8, 0x51#8, 0x39#8, 0x2D#8, 0x31#8, 0x54#8, 0#8, 0#8]
  serial    : List Byte := List.replicate 16 0#8
  partVer   : Nat := 0
  exposure  : List Byte := (List.range 4).flatMap fun _ => List.replicate 16 0xFF#8 ++ [0#8]
  quarantine : BitVec 16 := 0#16
  signature : List Byte := List.replicate 96 0#8
  /-- Firmware: running bank, bank of the next reset, anti-rollback counter. -/
  bankA     : Bank := {}
  bankB     : Bank := {}
  bank      : Bool := false
  nextBank  : Bool := false
  rollback  : Nat := 0
  /-- The last verification of this boot failed: ports stay down (R371). -/
  unverified : Bool := false
  /-- Boots so far: the key of context 0 is drawn at each (R95). -/
  boots     : Nat := 0
  bootTick  : Nat := 0
  drainTick : Nat := 0
  /-- Why the state last changed (R380). -/
  cause     : Nat := 0
  /-- The cut discarded the history: the slices' dusk becomes the stamp of the next entry to joined (R371). -/
  duskDue   : Bool := false
  domain    : Nat := 0
  owner     : Option Nat := none
  heartbeat : Nat := 0
  hbPeriod  : Nat := 100
  hmemctx   : Word := 0#32
  lastAccepted : Word := 0#32
  /-- Valid claims since boot, and Myern's precedence list (R376). -/
  claims    : List Nat := []
  precedence : List Nat := []
  ideKeys   : List (Nat × BitVec 256) := []
  /-- The last heartbeat of each die (R373). -/
  beats     : SMap Nat := []
  /-- Counters were cleared since power good (R401). -/
  cleared   : Bool := true
  /-- Context 0 as Myern's store holds it (R95). -/
  service   : Service := {}
  deriving DecidableEq, Repr

/-- A filled binding table in Myern's placement log (R142). -/
structure PlaceRec where
  tick  : Nat
  quad  : Nat
  ctx   : Nat
  cores : List Nat
  deriving DecidableEq, Repr

/-- A team (R16, R142, R231). -/
structure Team where
  live   : Bool := false
  ctx    : Nat := 0
  kernel : Nat := 0
  size   : Nat := 1
  floor  : Nat := 0
  /-- Role to block, and role to core (R142). -/
  blocks : SMap Nat := []
  cores  : SMap Nat := []
  deriving DecidableEq, Repr

end Sys2Proof.Machine
end

