-- ==== Sys2Proof/Machine/State.lean ====
section
/-! DEFINITION. The state of the machine, the reasons a step can stop, and the state after reset. -/

namespace Sys2Proof.Machine

/-- Model-only stops. -/
inductive Fault where
  /-- `exec` was asked to run an instruction word with no group issuing: raised by every meaning of a word where `cur` is
  none. No step of the model does so; safe. -/
  | noIssuingGroup
  deriving DecidableEq, Repr

/-- Refusals. -/
inductive Refusal where
  /-- The instruction has no meaning in the model yet: raised by the dispatcher's arm of that name; safe. -/
  | notModelled (mnemonic : String)
  deriving DecidableEq, Repr

/-- The group that issues, its run, and the instruction it fetched (R149). The model's own. -/
structure Cur where
  blk   : Nat
  grp   : Nat
  run   : List Nat
  word  : Word
  lits  : List Word
  pc    : Nat
  core  : Nat
  quarter : Nat
  /-- Set by a meaning whose instruction cannot issue in this cycle: the group is not ready, for this reason (R28). -/
  wait  : Option Reason
  deriving DecidableEq, Repr

/-- One action of the model: what a step does (log entry 2). -/
inductive Action where
  | issue (core quarter : Nat)
  | event (i : Instr)
  | tick
  | cycle (die : Nat)
  | complete (blk grp iid : Nat)
  | settle (uid : Nat)
  | combine (uid into : Nat)
  | barrier (blk : Nat)
  /-- A packet comes: from the blocks of a link, or out of the packets that wait to perform. -/
  | arrive (p : Packet)
  deriving DecidableEq, Repr

/-- The machine. -/
structure State where
  /-- The global tick (R24). -/
  tick : Nat := 0
  /-- The domain stamp base (R229, R400). -/
  stampBase : Nat := 0
  /-- Arithmetic cycles of each die (R3, R23). -/
  cycles : SMap Nat := []
  /-- 16 − k of each die's clock (R23): unlisted is 0. -/
  clockK : SMap Nat := []
  /-- Own device index (R361). -/
  device : Nat := 0
  /-- The actions to come. The model's own. -/
  agenda : List Action := []
  /-- Where the schedule of an empty agenda stands. The model's own. -/
  auto : Nat := 0
  /-- The counter that free values are applied to. The model's own. -/
  fresh : Nat := 0
  /-- The group that is issuing. The model's own. -/
  cur : Option Cur := none
  /-- Bytes of local HBM by device address, and of host memory from 2^40 on (R7, R309, R387). -/
  mem : List Host.Cell := []
  /-- Earlier values of each 8-byte unit of `mem`, the newest first: the coherence order of its locations (R325, R334). The model's
  own. -/
  past : SMap (List DWord) := []
  /-- How each written line is stored (R401). -/
  lines : SMap LineMeta := []
  /-- Page generations (R402). -/
  pageGen : SMap (BitVec 8) := []
  /-- Poisoned 32-byte sectors (R386). -/
  poison : SMap Bool := []
  slices : SMap Slice := []
  rings : SMap Ring := []
  /-- Chain heads by line: index + 1 (R396). -/
  heads : SMap Nat := []
  /-- Last-write stamps by 1 KiB block of device addresses (R396). -/
  lastWrite : SMap Nat := []
  maps : SMap MapReg := []
  /-- MEMCFG.hres (R390). -/
  hres : Nat := 1
  tlb : List Tlb := []
  /-- Releases of the device to host memory that slices hold (R229). -/
  hostq : List HostHold := []
  pend : List Pend := []
  counted : List Counted := []
  /-- Notifications still to be pushed (R315, R228). -/
  noted : List Note := []
  /-- A TLB_INVAL command that has dropped its translations and waits (R320). -/
  tlbCmd : Option TlbCmd := none
  blocks : SMap Block := []
  cores : SMap CoreSt := []
  ctxs : SMap Ctx := []
  kernels : SMap Kernel := []
  teams : SMap Team := []
  /-- Unit counters of the series: unit id × 32 + index (R407). -/
  units : SMap Word := []
  /-- Myern's event log, oldest first, and the next event number (R379, R380). -/
  log : List EventRec := []
  logNext : Nat := 1
  /-- Events logged in all, and, for every 256 of them, the chained hash and its signature, the newest first (R15, R381). -/
  logged : Nat := 0
  logChain : List (BitVec 384 × BitVec 768) := []
  /-- Events not yet offered to the owner's ring. The model's own, empty between steps. -/
  logNew : List EventRec := []
  /-- Trace records not yet written to their rings: those of the step, of a stop, and behind one whose store waits. The model's own. -/
  traced : List TraceRec := []
  members : SMap Member := []
  /-- The slice dusk minimum each live member last sent (R398). -/
  peerDusk : SMap Nat := []
  /-- The pins that other members hold on this module's slices: device and stamp (R399). -/
  peerPins : List (Nat × Nat) := []
  /-- A slice's dusk has risen, which the peers have not been told (R398). The model's own, false between steps. -/
  duskNew : Bool := false
  /-- Packets sent and not yet acknowledged end to end, oldest first (R369). -/
  retained : List Packet := []
  /-- Next end-to-end number by destination × 4 + path (R369). -/
  e2eOut : SMap Nat := []
  /-- Next end-to-end number expected, by source × 4 + path (R369). -/
  e2eIn : SMap Nat := []
  /-- Packets that the last step handed to the ports: the module's own, those sent again, those in transit. The model's own. -/
  out : List Packet := []
  /-- Packets of peers that have arrived and are held back, or wait to perform (R369). -/
  rx : List Packet := []
  /-- The blocks that the last step sent, by port (R364). The model's own. -/
  wire : List (Nat × LinkBlock) := []
  /-- Sectors that reducing writes of peers have applied: (source, transfer tag, line offset) (R295). -/
  receipts : List (Nat × Nat × Nat) := []
  ports : SMap Port := []
  queues : SMap HwQueue := []
  held : List Held := []
  /-- Stores of the device that peers have not answered (R228, R319). -/
  devSent : List DevSent := []
  acts : List Activity := []
  vesper : List Entry := []
  island : Island := {}
  hosts : SMap HostW := []
  replies : SMap HostReply := []
  quads : SMap Quad := []
  placeLog : List PlaceRec := []
  /-- Device CSRs (R100). -/
  hretain : Word := BitVec.ofNat 32 (2 ^ 30)
  seriesk : Word := 16#32
  retrain : Word := 50000000#32
  stopat : DWord := BitVec.ofNat 64 (2 ^ 64 - 1)
  /-- The series ring and its next latch number (R403, R407). -/
  serBase : DWord := 0#64
  serSize : Nat := 0
  serSeq : Nat := 0
  /-- The tick of the last latch, plus 1. -/
  serLast : Nat := 0
  /-- Gated by STOPAT; the ticks of the last stop and of the first tick after it (R411, R413). -/
  stopped : Bool := false
  stopTick : Nat := 0
  /-- The tick at which STOPAT was last written: a STOPAT not above it never fires (R414). -/
  stopSet : Nat := 0
  resumeTick : Nat := 0
  deriving DecidableEq, Repr

/-- The machine right after reset. -/
def State.reset : State := {}

end Sys2Proof.Machine
end

