-- ==== Sys2Proof/Machine/Ops.lean ====
section
/-! DEFINITION. Reading and writing the machine's parts; the issue of an instruction: which lanes act, what they trap on,
what its completion leaves (R58-R66, R149-R154, R170-R174, R193, R194). -/

namespace Sys2Proof.Machine

/-- The outcome of a meaning. -/
abbrev Res := Host.Outcome State Fault Refusal

/-! ## Parts of the state -/

def State.blk (s : State) (u : Nat) : Block := mget {} s.blocks u
def State.setBlk (s : State) (u : Nat) (b : Block) : State := { s with blocks := mset {} s.blocks u b }
def Block.grp (b : Block) (g : Nat) : Group := mget {} b.groups g
def Block.setGrp (b : Block) (g : Nat) (G : Group) : Block := { b with groups := mset {} b.groups g G }
def State.grp (s : State) (u g : Nat) : Group := (s.blk u).grp g
def State.setGrp (s : State) (u g : Nat) (G : Group) : State := s.setBlk u ((s.blk u).setGrp g G)
def Group.lane (G : Group) (L : Nat) : Lane := mget {} G.lanes L
def Group.setLane (G : Group) (L : Nat) (l : Lane) : Group := { G with lanes := mset {} G.lanes L l }
def State.core (s : State) (n : Nat) : CoreSt := mget {} s.cores n
def State.setCore (s : State) (n : Nat) (c : CoreSt) : State := { s with cores := mset {} s.cores n c }
def CoreSt.quarter (c : CoreSt) (q : Nat) : Quarter := mget {} c.quarters q
def CoreSt.setQuarter (c : CoreSt) (q : Nat) (x : Quarter) : CoreSt := { c with quarters := mset {} c.quarters q x }
def State.ctx (s : State) (n : Nat) : Ctx := mget {} s.ctxs n
def State.setCtx (s : State) (n : Nat) (c : Ctx) : State := { s with ctxs := mset {} s.ctxs n c }
/-- The pointer of a shared resource in a cycle: `first` is where it stood as the cycle began (R417). -/
def CoreSt.arb (c : CoreSt) (r now : Nat) : Arb :=
  let x : Arb := mget {} c.arbs r
  if x.cyc = now + 1 then x else { ptr := x.ptr, first := x.ptr, cyc := now + 1 }
def State.kernel (s : State) (n : Nat) : Kernel := mget {} s.kernels n
def State.setKernel (s : State) (n : Nat) (k : Kernel) : State := { s with kernels := mset {} s.kernels n k }
def State.team (s : State) (n : Nat) : Team := mget {} s.teams n
def State.setTeam (s : State) (n : Nat) (t : Team) : State := { s with teams := mset {} s.teams n t }
def State.slice (s : State) (n : Nat) : Slice := mget {} s.slices n
def State.setSlice (s : State) (n : Nat) (x : Slice) : State := { s with slices := mset {} s.slices n x }
def State.ring (s : State) (n : Nat) : Ring := mget {} s.rings n
def State.setRing (s : State) (n : Nat) (x : Ring) : State := { s with rings := mset {} s.rings n x }

def State.queue (s : State) (n : Nat) : HwQueue := mget {} s.queues n
def State.setQueue (s : State) (n : Nat) (q : HwQueue) : State := { s with queues := mset {} s.queues n q }
def State.quad (s : State) (n : Nat) : Quad := mget {} s.quads n
def State.setQuad (s : State) (n : Nat) (q : Quad) : State := { s with quads := mset {} s.quads n q }
def State.port (s : State) (n : Nat) : Port := mget {} s.ports n
def State.setPort (s : State) (n : Nat) (p : Port) : State := { s with ports := mset {} s.ports n p }
def State.host (s : State) (n : Nat) : HostW := mget {} s.hosts n
def State.setHost (s : State) (n : Nat) (h : HostW) : State := { s with hosts := mset {} s.hosts n h }

/-- The die of a core (R11). -/
def dieOf (core : Nat) : Nat := core / 128
/-- Arithmetic cycles of a core's die (R23). -/
def State.cycleOf (s : State) (core : Nat) : Nat := mget 0 s.cycles (dieOf core)
/-- The slice of a core's router (R11). -/
def sliceOfCore (core : Nat) : Nat := core / 4
/-- The tick as a unit sees it, within the skew of R4: units 0-127 are slices, 128 + c core c. -/
def State.tickAt (s : State) (unit : Nat) : Nat := ((s.tick : Int) + Config.skew unit).toNat
/-- A fresh number for free values (log entry 1). -/
def State.next (s : State) : Nat × State := (s.fresh, { s with fresh := s.fresh + 1 })

/-- A pair of numbers as one (the argument of a free value). -/
def pairNat (a b : Nat) : Nat := (a + b) * (a + b + 1) / 2 + b

/-- Set bits of a kernel's check-interval register; each event counts, saturating at 0xFFFF (R109). -/
def cirEvent (cir : Word) (bit : Nat) : Word :=
  let ev := cir.toNat / 65536
  let ev' := if ev < 0xFFFF then ev + 1 else ev
  BitVec.ofNat 32 ((cir.toNat % 65536 ||| 2 ^ bit) + 65536 * ev')

/-- An event of R110 in a kernel. -/
def State.setCir (s : State) (kernel bit : Nat) : State :=
  let k := s.kernel kernel
  s.setKernel kernel { k with cir := cirEvent k.cir bit }

/-- An event of R110 in a block's kernel. -/
def State.cirBlk (s : State) (u bit : Nat) : State := s.setCir (s.blk u).kernel bit

/-- Add to a unit's counter, modulo 2^32 (R407). -/
def State.unitAdd (s : State) (unit idx n : Nat) : State :=
  { s with units := mupd 0#32 s.units (unit * 32 + idx) (· + BitVec.ofNat 32 n) }

/-- Add to a unit's missed-deadline counter, which saturates (R394). -/
def State.unitSat (s : State) (unit idx n : Nat) : State :=
  { s with units := mupd 0#32 s.units (unit * 32 + idx) fun w => BitVec.ofNat 32 (min (w.toNat + n) 0xFFFFFFFF) }

/-- Count an event in the context's counters that select it (R405). -/
def Ctx.count (c : Ctx) (ev n : Nat) : Ctx :=
  { c with ctr := (List.range 32).foldl (fun m i =>
      if (mget 0#32 c.ctrsel i).toNat = ev && ev != 0 then mupd 0#32 m i (· + BitVec.ofNat 32 n) else m) c.ctr }

/-- Count an event of a context (R405). -/
def State.count (s : State) (ctx ev n : Nat) : State := s.setCtx ctx ((s.ctx ctx).count ev n)

/-- The budget of a service class (R392). -/
def budget : Nat → Nat
  | 0 => 1000 | 1 => 10000 | 2 => 5000 | _ => 100000

/-- Of n requests of a class, made at a tick at the earliest, some came back after their deadline, once its budget has passed since; how many
is free (R392, R394, log entry 80): the context counts them, and their requester, whose counters of the four classes begin at `base`. -/
def State.late (s : State) (ctx unit base cls since n : Nat) : State :=
  if s.tick ≤ since + budget cls then s
  else
    let k := Config.freeNat (pairNat s.fresh 52) % (n + 1)
    ({ s with fresh := s.fresh + 1 }.count ctx 0x12 k).unitSat unit (base + cls) k

/-- The same of requests that serve no context. -/
def State.lateUnit (s : State) (unit base cls since n : Nat) : State :=
  if s.tick ≤ since + budget cls then s
  else { s with fresh := s.fresh + 1 }.unitSat unit (base + cls) (Config.freeNat (pairNat s.fresh 52) % (n + 1))

/-- A slice serves n requests of a class; whether L2 holds what they name is free (R407, log entry 80). -/
def State.served (s : State) (slice cls n : Nat) : State :=
  let hit := Config.freeNat (pairNat s.fresh 59) % (n + 1)
  (({ s with fresh := s.fresh + 1 }.unitAdd (512 + slice) cls n).unitAdd (512 + slice) 4 hit).unitAdd (512 + slice) 5 (n - hit)

/-- Bytes of a number, least significant first (R7). -/
def leBytes : Nat → Nat → List Byte
  | 0, _ => []
  | n + 1, v => BitVec.ofNat 8 v :: leBytes n (v / 256)

/-- A number from its bytes (R7). -/
def leNat : List Byte → Nat
  | [] => 0
  | b :: r => b.toNat + 256 * leNat r

/-- The log holds the last 64 Ki events (R380). -/
def keptLog (l : List EventRec) : List EventRec := if l.length ≤ 65536 then l else l.drop (l.length - 65536)

/-- An event record (R379). -/
def EventRec.bytes (e : EventRec) : List Byte :=
  leBytes 4 e.seq ++ leBytes 2 e.kind ++ leBytes 2 e.ctx ++ leBytes 8 e.tick ++ (e.payload ++ List.replicate 16 0#8).take 16

/-- The chain after n events: every 256 entries of the log their hash, over the one before, is signed with the identity key (R15,
R381). -/
def chained (n : Nat) (log : List EventRec) (chain : List (BitVec 384 × BitVec 768)) : List (BitVec 384 × BitVec 768) :=
  if n % 256 ≠ 0 then chain
  else
    let h := Config.sha384 ((chain.head?.toList.flatMap fun c => leBytes 48 c.1.toNat)
      ++ (log.drop (log.length - 256)).flatMap EventRec.bytes)
    (h, Config.sign (leBytes 48 h.toNat)) :: chain

/-- Emit an event: it enters the log and is offered to the owner's ring (R379, R380). -/
def State.emit (s : State) (kind ctx : Nat) (payload : List Byte) : State :=
  let e : EventRec := ⟨s.logNext, kind, ctx, s.tick, payload⟩
  let log := keptLog (s.log ++ [e])
  { s with log := log, logNew := s.logNew ++ [e], logNext := s.logNext + 1
           logged := s.logged + 1, logChain := chained (s.logged + 1) log s.logChain }

/-- Make a trace record of a group, when its context traces (R409). -/
def State.trace (s : State) (u g kind aux lo hi : Nat) : State :=
  let b := s.blk u
  if (s.ctx b.ctx).trcEn then
    { s with traced := s.traced ++ [⟨b.ctx, u, g, b.core.getD 0, mget 0 b.slots g, kind, aux, lo, hi, s.tick⟩] }
  else s

/-- A set of lanes as a mask. -/
def maskOf (lanes : List Nat) : Nat := lanes.foldl (fun m L => m ||| 2 ^ L) 0

/-! ## Registers -/

/-- The window base software sees (R157). -/
def Lane.w (l : Lane) : Int := l.base - l.low
/-- The stack slot of a name (R157). -/
def slotOf (A : Nat) (l : Lane) (f : Nat) : Nat := ((l.base + (f : Int)) % (A : Int)).toNat
/-- A name is in range (R58, R157). -/
def inRange (A : Nat) (l : Lane) (f : Nat) : Bool := decide ((f : Int) < (A : Int) - l.w)
/-- A vector register of a lane as a key. -/
def vKey (A : Nat) (G : Group) (L f : Nat) : RegKey := .v L (slotOf A (G.lane L) f)
/-- A uniform field as a register number (R60). -/
def kIdx (ubase : Nat) (f : BitVec 7) : Nat := (ubase + f.toNat) % 256
/-- A uniform register as a key. -/
def kKey (G : Group) (f : BitVec 7) (i : Nat := 0) : RegKey := .k ((kIdx G.ubase f + i) % 256)

/-- What a register holds. -/
def Group.getKey (G : Group) : RegKey → Word
  | .v L x => mget 0#32 (G.lane L).stack x
  | .p L n => Word.ofBool ((G.lane L).preds.getLsbD n)
  | .k n => mget 0#32 G.k n
  | .kp n => Word.ofBool (G.kp.getLsbD n)

/-- A bit vector with one bit replaced. -/
def setBit {n : Nat} (v : BitVec n) (i : Nat) (b : Bool) : BitVec n :=
  if b then v ||| (BitVec.ofNat n (2 ^ i)) else v &&& ~~~(BitVec.ofNat n (2 ^ i))

/-- Write a register; a predicate takes bit 0. -/
def Group.setKey (G : Group) (key : RegKey) (v : Word) : Group :=
  match key with
  | .v L x => G.setLane L { G.lane L with stack := mset 0#32 (G.lane L).stack x v }
  | .p L n => G.setLane L { G.lane L with preds := setBit (G.lane L).preds n (v.getLsbD 0) }
  | .k n => { G with k := mset 0#32 G.k n v }
  | .kp n => { G with kp := setBit G.kp n (v.getLsbD 0) }

/-- A producer that has not completed in a cycle (R26). -/
def BoardEntry.open (e : BoardEntry) (now : Nat) : Bool :=
  match e.done with
  | none => true
  | some d => decide (now < d)

/-- The open producer of a register, if any (R27, R66). -/
def Group.producer (G : Group) (now : Nat) (key : RegKey) : Option (BoardEntry × BoardCell) :=
  match G.board.find? (fun e => e.open now && e.cells.any (fun c => c.key == key)) with
  | none => none
  | some e =>
    match e.cells.find? (fun c => c.key == key) with
    | none => none
    | some c => some (e, c)

/-- A read by instruction `rid` in cycle `now`: before its producer completes it gets the old or the new value, one choice
for the whole instruction (R27, log entry 1). -/
def Group.read (G : Group) (now rid : Nat) (key : RegKey) : Word :=
  match G.producer now key with
  | some (e, c) => if !e.mem && Config.freeBool (pairNat rid e.iid) then c.old else G.getKey key
  | none => G.getKey key

/-- Write registers without a scoreboard entry. -/
def Group.writes (G : Group) (ws : List (RegKey × Word)) : Group := ws.foldl (fun g w => g.setKey w.1 w.2) G

/-- Take keys out of every producer: a later writer's value stands (R65). -/
def dropKeys (board : List BoardEntry) (keys : List RegKey) : List BoardEntry :=
  board.map fun e => { e with cells := e.cells.filter (fun c => !keys.contains c.key) }

/-- Producers that still matter. -/
def tidyBoard (board : List BoardEntry) (now : Nat) : List BoardEntry :=
  board.filter fun e => e.open now

/-- The writes of an instruction, with its scoreboard entry (R65). DESIGN CHOICE (log entry 66): `old`, the value before this one
(R27), is the result of the older instruction, also where that one has not been delivered either. -/
def Group.produce (G : Group) (now iid : Nat) (done : Option Nat) (ws : List (RegKey × Word)) : Group :=
  if ws.isEmpty then G else
  let keys := ws.map (·.1)
  let e : BoardEntry := ⟨iid, done, false, ws.map fun w => ⟨w.1, G.getKey w.1⟩⟩
  { (G.writes ws) with board := e :: tidyBoard (dropKeys G.board keys) now }

/-- Destinations that memory will write (R65, R225). -/
def Group.expect (G : Group) (now iid : Nat) (keys : List RegKey) : Group :=
  let e : BoardEntry := ⟨iid, none, true, keys.map fun k => ⟨k, G.getKey k⟩⟩
  { G with board := e :: tidyBoard (dropKeys G.board keys) now }

/-! ## Lanes of a run -/

/-- Inactive under a guard (R154). -/
def Lane.inactive (l : Lane) : Bool := decide (0 < l.gcount) && !l.gflag
/-- Issuable (R149). -/
def Lane.issuable (l : Lane) : Bool := l.status == .active
/-- The lanes of a group that are not absent: its full set (R17). -/
def Group.full (G : Group) : List Nat := (List.range 32).filter fun L => (G.lane L).status != .absent
/-- Present lanes: neither absent nor helper. -/
def Group.present (G : Group) : List Nat := G.full.filter fun L => !(G.lane L).helper
/-- A lane has ended. -/
def Lane.isOver (l : Lane) : Bool := l.status == .ended || l.status == .absent
/-- The lanes of a run that act (R154). -/
def Group.acting (G : Group) (run : List Nat) : List Nat := run.filter fun L => !(G.lane L).inactive
/-- The run can use the queue ports: it is the full set, none inactive (R59, R154). -/
def Group.wholeRun (G : Group) (run : List Nat) : Bool :=
  G.full.all (fun L => run.contains L) && run.all (fun L => !(G.lane L).inactive)
/-- The counted lanes of R216. -/
def Group.counted (G : Group) (lanes : List Nat) : List Nat := lanes.filter fun L => !(G.lane L).helper

/-! ## Trap causes found at issue (R74, R170, R171) -/

/-- What an instruction reads and writes, field by field. -/
structure Uses where
  /-- Vector source fields in the order they pop ports: A, then B; with how many registers each names (R59, R61). -/
  vsrc : List (BitVec 7 × Nat) := []
  /-- D, where it is read as a source. -/
  dsrc : Option (BitVec 7 × Nat) := none
  vdst : Option (BitVec 7 × Nat) := none
  ksrc : List (BitVec 7 × Nat) := []
  psrc : List Nat := []
  kpsrc : List Nat := []
  /-- Lane predicates that a lane writes. -/
  pdst : List Nat := []
  /-- The A field is not read in the lane's own window: in an exchange another lane's register is (R213), and mov FN 2 reads the lowest
  counted lane's alone (R218). -/
  remote : Bool := false
  /-- Of these, an exchange: A's range is that of the lane read, and no cause arises from it (R213). -/
  free : Bool := false
  deriving DecidableEq, Repr

def Uses.pops (u : Uses) : List Nat := (u.vsrc.filter fun f => isPort f.1).map fun f => f.1.toNat - 120
def Uses.pushes (u : Uses) : Option Nat :=
  match u.vdst with
  | some (f, _) => if isPort f then some (f.toNat - 120) else none
  | none => none
def Uses.ports (u : Uses) : Bool := !u.pops.isEmpty || u.pushes.isSome

/-- Every window register named lies in range (R58). -/
def Uses.rangeOk (u : Uses) (A : Nat) (l : Lane) : Bool :=
  ((if u.free then u.vsrc.drop 1 else u.vsrc) ++ u.dsrc.toList ++ u.vdst.toList).all fun f => isPort f.1 || inRange A l (f.1.toNat + f.2 - 1)

/-- The registers a lane's instruction reads. -/
def Uses.srcKeys (u : Uses) (A : Nat) (G : Group) (L : Nat) : List RegKey :=
  (((if u.remote then u.vsrc.drop 1 else u.vsrc) ++ u.dsrc.toList).filter fun f => !isPort f.1).flatMap (fun f =>
      (List.range f.2).map fun i => vKey A G L (f.1.toNat + i))
  ++ u.ksrc.flatMap (fun f => (List.range f.2).map fun i => kKey G f.1 i)
  ++ u.psrc.map (fun n => RegKey.p L n) ++ u.kpsrc.map (fun n => RegKey.kp n)

/-- The first cause of R74 that holds for a lane: REG_RANGE, QPORT, STALL_SHORT. -/
def Uses.cause (u : Uses) (A : Nat) (sbchk : Bool) (now : Nat) (G : Group) (run : List Nat) (L : Nat) : Option Nat :=
  if !u.rangeOk A (G.lane L) then some 3
  else if u.ports && !G.wholeRun run then some 6
  else if sbchk && (u.srcKeys A G L).any (fun k => (G.producer now k).isSome) then some 4
  else none

/-- How an instruction completes (R26, R64). -/
inductive Lat where
  /-- At issue: it has read its sources. -/
  | issue
  /-- Its destinations after n cycles. -/
  | fixed (n : Nat)
  /-- Its destinations hold the result, which arrives at a moment of its own (R26). -/
  | var
  /-- When memory has returned, or when the machine completes the operation. -/
  | mem
  deriving DecidableEq, Repr

/-- What a meaning leaves, beside the state `s` it has changed itself. -/
structure Result where
  s      : State
  writes : List (RegKey × Word) := []
  push   : Option (List Word) := none
  flags  : FFlags := 0#5
  lat    : Lat := .issue
  /-- Lanes that take another PC: a transfer (R154). -/
  pcs    : List (Nat × Nat) := []
  /-- Lanes whose window `guard` replaces (R154). -/
  guards : List (Nat × Bool × Nat) := []
  /-- Lanes that park, with their causes. -/
  parks  : List (Nat × Cause) := []
  /-- Lanes whose PC stays where the meaning put it. -/
  keeps  : List Nat := []

/-- The PC after n words (57 bits, R149). -/
def pcAfter (pc words : Nat) : Nat := (pc + 4 * words) % 2 ^ 57

/-- Pop the ports a word names, in order; the entries, and the block after. -/
def popPorts (ports : SMap (List (List Word))) : List Nat → List (List Word) × SMap (List (List Word))
  | [] => ([], ports)
  | p :: r =>
    match mget [] ports p with
    | [] => ([], ports)
    | e :: es => let t := popPorts (mset [] ports p es) r; (e :: t.1, t.2)

/-- The entries a list of pops needs are there (R135). -/
def portsReady (ports : SMap (List (List Word))) (pops : List Nat) (push : Option Nat) : Bool :=
  let after := popPorts ports pops
  after.1.length == pops.length &&
    (match push with
     | some p => decide ((mget [] after.2 p).length < 8)
     | none => true)

/-- A lane after its instruction: its PC and its guard window (R149, R154). -/
def Lane.advance (l : Lane) (words : Nat) (pc : Option Nat) (guard : Option (Bool × Nat)) (keep : Bool) : Lane :=
  match guard with
  | some (f, n) => { l with pc := pcAfter l.pc words, gflag := f, gcount := n }
  | none =>
    match pc with
    | some t => { l with pc := t, gcount := 0 }
    | none =>
      if keep then { l with gcount := l.gcount - 1 }
      else { l with pc := pcAfter l.pc words, gcount := l.gcount - 1 }

/-- Park a lane (R171, R172). -/
def Lane.park (l : Lane) (c : Cause) : Lane := { l with status := .parked, cause := c }

/-- The stall a group stands under after an issue in cycle `now` (R64). -/
def Group.stall (G : Group) (now iid : Nat) (s : Stall) (lat : Lat) : Group :=
  if s.toNat < 15 then { G with notBefore := now + max s.toNat 1, untilDone := none }
  else match lat with
    | .issue => { G with notBefore := now + 1, untilDone := none }
    | .fixed n => { G with notBefore := now + n + 1, untilDone := none }
    | .var => { G with notBefore := now + 1, untilDone := some iid }
    | .mem => { G with notBefore := now + 1, untilDone := some iid }

/-- The lanes after an issue. -/
def advanceLanes (G : Group) (c : Cur) (words : Nat) (r : Result) (parks : List (Nat × Cause)) : Group :=
  c.run.foldl (fun g L =>
    match parks.find? (fun p => p.1 == L) with
    | some p => g.setLane L ((g.lane L).park p.2)
    | none => g.setLane L ((g.lane L).advance words
        ((r.pcs.find? fun p => p.1 == L).map (·.2)) ((r.guards.find? fun p => p.1 == L).map (·.2)) (r.keeps.contains L))) G

/-- Words of the issuing instruction. -/
def Cur.words (c : Cur) : Nat := 1 + c.lits.length

/-- What an issue leaves at its destinations: with the scoreboard entry of its latency; at once and for good beside a result that
memory is still to return (R64, R65). -/
def Group.leave (G : Group) (now iid : Nat) (lat : Lat) (ws : List (RegKey × Word)) : Group :=
  match lat with
  | .mem => { (G.writes ws) with board := dropKeys G.board (ws.map (·.1)) }
  | .fixed n => G.produce now iid (some (now + n)) ws
  | .issue => G.produce now iid (some now) ws
  | .var => G.produce now iid none ws

/-- Older acquires and fences of the run's lanes keep a pop back as they keep a load, and a push as they keep a store: at block
scope, that is at any scope but the group's, whose code 1 stands in a fence's `size` (R255, R323). -/
def State.portHeld (s : State) (c : Cur) (u : Uses) : Bool :=
  u.ports && s.pend.any fun p => p.blk == c.blk && p.grp == c.grp && !p.done && (p.lanes.any fun L => c.run.contains L) &&
    (p.acq.any (· != .grp) || (p.size != 1 && (match p.kind with
      | .fence .rel => u.pushes.isSome
      | .fence _ => true
      | _ => false)))

/-- A register of the group maps to a bad physical register (R190). -/
def State.badKey (s : State) (c : Cur) (k : RegKey) : Bool :=
  (s.blk c.blk).bad.any fun x => x.grp == c.grp && x.key == k && x.until_.isNone

/-- A lane reads a register whose physical register is bad (R190). -/
def State.badRead (s : State) (c : Cur) (u : Uses) (lanes : List Nat) : Bool :=
  let b := s.blk c.blk
  !b.bad.isEmpty && lanes.any fun L => (u.srcKeys b.A (b.grp c.grp) L).any (s.badKey c)

/-- The port entries that an instruction needs are there, and nothing older keeps it from them (R135, R323). -/
def State.portsOpen (s : State) (c : Cur) (u : Uses) : Bool :=
  portsReady (s.blk c.blk).ports u.pops u.pushes && !s.portHeld c u

/-- The end of an issue: destinations, flags, PCs, parked lanes, the stall (R64, R65, R149, R154, R171, R193). A result of variable
latency with no destination has completed when its effect is done. DESIGN CHOICE (log entry 66): an entry that is pushed to a port
stands in it, and can be popped, from the issue on. -/
def finish (c : Cur) (iid : Nat) (st : Stall) (push : Option Nat) (r : Result) (parks : List (Nat × Cause)) : State :=
  let b := r.s.blk c.blk
  let b := match push, r.push with
    | some p, some e => { b with ports := mset [] b.ports p (mget [] b.ports p ++ [e]) }
    | _, _ => b
  let now := r.s.cycleOf c.core
  let G := b.grp c.grp
  let G := G.leave now iid r.lat r.writes
  let G := { G with fpsr := orFpsr G.fpsr r.flags }
  let G := advanceLanes G c c.words r (parks ++ r.parks)
  let G := G.stall now iid st (if r.lat = .var ∧ r.writes.isEmpty then .issue else r.lat)
  r.s.setBlk c.blk (b.setGrp c.grp G)

/-- A meaning of a word runs for the group that issues (log entry 2). -/
def withCur (s : State) (k : Cur → State) : Res :=
  match s.cur with
  | none => .fault .noIssuingGroup
  | some c => .next (k c)

/-- The group is not ready in this cycle, for a reason; nothing else changes (R28). -/
def notReady (s : State) (c : Cur) (r : Reason) : State := { s with cur := some { c with wait := some r } }

/-- What a meaning's body is given: the lanes that execute, the port entries popped, its instance number. -/
structure Issue where
  c     : Cur
  lanes : List Nat
  pops  : List (List Word)
  iid   : Nat
  now   : Nat

/-- The context of a block. -/
def State.ctxOf (s : State) (u : Nat) : Ctx := s.ctx (s.blk u).ctx

/-- A cause at a lane of the issuing instruction, not late. -/
def mkCause (c : Cur) (code : Nat) (number : Nat := 0) : Cause := ⟨code, number, false, 0, c.pc, c.words⟩

/-- Register keys of a vector destination. -/
def destKeys (A : Nat) (G : Group) (L : Nat) (f : BitVec 7) (n : Nat) : List RegKey :=
  (List.range n).map fun i => vKey A G L (f.toNat + i)

/-- The destinations of a lane, where they can be written: registers in range, lane predicates (R153, R193). -/
def Uses.laneDests (u : Uses) (A : Nat) (G : Group) (L : Nat) : List RegKey :=
  (match u.vdst with
    | some (f, n) => if isPort f || !inRange A (G.lane L) (f.toNat + n - 1) then [] else destKeys A G L f n
    | none => [])
  ++ (u.pdst.filter (· < 12)).map fun n => RegKey.p L n

/-- The issue of an instruction (R74, R171, R193, R194): lanes inactive under a guard pass it by; each other lane takes the
first cause that applies, of the fields' causes and then the instruction's own (`extra`); lanes that take none execute, a
helper lane that would trap has its destinations zeroed, register and predicate (R153). Where some lane takes no cause but an early read,
the instruction issues only once it is ready (`ready`: none): a read is early or not at the issue (R28, R66). What it reads then may be a
bad register (R190). -/
def issueWith (u : Uses) (st : Stall) (extra : State → Issue → Nat → Option Cause) (ready : State → Issue → Option Reason)
    (body : State → Issue → Result) (s : State) : Res :=
  withCur s fun c =>
    let b := s.blk c.blk
    let G := b.grp c.grp
    let now := s.cycleOf c.core
    let sbchk := (s.ctxOf c.blk).sbchk.getLsbD 0
    let iid := s.fresh
    let s1 := { s with fresh := s.fresh + 1 }
    let acting := G.acting c.run
    let i0 : Issue := ⟨c, acting, [], iid, now⟩
    let causeOf := fun L =>
      match u.cause b.A sbchk now G c.run L with
      | some n => some (mkCause c n)
      | none => extra s i0 L
    let causes := acting.filterMap fun L => (causeOf L).map fun x => (L, x)
    let parks := causes.filter fun p => !(G.lane p.1).helper
    let zeroed := (causes.filter fun p => (G.lane p.1).helper).map (·.1)
    let lanes := acting.filter fun L => (causeOf L).isNone
    let may := acting.filter fun L => (u.cause b.A false now G c.run L).isNone && (extra s i0 L).all (·.code == 4)
    let zeros := zeroed.flatMap fun L => (u.laneDests b.A G L).map fun k => (k, 0#32)
    let pops := (popPorts b.ports u.pops).1
    if may.isEmpty then finish c iid st none { s := s1, writes := zeros } parks
    else if !s.portsOpen c u then notReady s c .qportWait
    else match ready s1 ⟨c, may, pops, iid, now⟩ with
      | some r => notReady s c r
      | none =>
        if lanes.isEmpty then finish c iid st none { s := s1, writes := zeros } parks
        else
          let i : Issue := ⟨c, lanes, pops, iid, now⟩
          match ready s1 i with
          | some r => notReady s c r
          | none =>
            if s.badRead c u lanes then notReady s c .badRegister
            else
              let b' := { b with ports := (popPorts b.ports u.pops).2 }
              let r := body (s1.setBlk c.blk b') i
              finish c iid st u.pushes { r with writes := zeros ++ r.writes } parks

/-- No cause of its own. -/
def noCause : State → Issue → Nat → Option Cause := fun _ _ _ => none
/-- Always ready. -/
def isReady : State → Issue → Option Reason := fun _ _ => none

end Sys2Proof.Machine
end

