-- ==== Sys2Proof/Machine/Operands.lean ====
section
/-! DEFINITION. How operands are read and results delivered: vector operations lane by lane (R193), uniform operations once
for the group (R194), the memo table (R165-R169), the special units (R21). -/

namespace Sys2Proof.Machine

/-! ## Reading sources -/

/-- The words a vector field names in a lane: registers, or the lane's element of a popped entry. -/
def readField (A now : Nat) (G : Group) (i : Issue) (popIdx : Nat) (f : BitVec 7 × Nat) (L : Nat) : List Word :=
  if isPort f.1 then [(i.pops.getD popIdx []).getD L 0#32]
  else (List.range f.2).map fun j => G.read now i.iid (vKey A G L (f.1.toNat + j))

/-- The sources of a lane, field by field: A and B as `vsrc` lists them, then D where it is read. -/
def readArgs (A now : Nat) (G : Group) (i : Issue) (u : Uses) (L : Nat) : List (List Word) :=
  (u.vsrc.zipIdx.map fun f =>
    readField A now G i ((u.vsrc.take f.2).filter (fun g => isPort g.1)).length f.1 L)
  ++ u.dsrc.toList.map fun f => readField A now G i 0 f L

/-- A word of the arguments. -/
def arg (args : List (List Word)) (f : Nat) (j : Nat := 0) : Word := (args.getD f []).getD j 0#32
/-- A pair of the arguments (R7). -/
def argD (args : List (List Word)) (f : Nat) (j : Nat := 0) : DWord := dwordOf (arg args f j) (arg args f (j + 1))

/-- The value of a name in lane j under j's own base, for exchanges: 0 where j is absent or the name out of its range (R213). -/
def peek (A now : Nat) (G : Group) (i : Issue) (f : BitVec 7) (j : Nat) : Word :=
  if isPort f then (i.pops.getD 0 []).getD j 0#32
  else if (G.lane j).status == .absent || !inRange A (G.lane j) f.toNat then 0#32
  else G.read now i.iid (vKey A G j f.toNat)

/-- A uniform register. -/
def kval (now : Nat) (G : Group) (iid : Nat) (f : BitVec 7) (j : Nat := 0) : Word := G.read now iid (kKey G f j)
/-- A uniform pair (R61). -/
def kpair (now : Nat) (G : Group) (iid : Nat) (f : BitVec 7) (j : Nat := 0) : DWord :=
  dwordOf (kval now G iid f j) (kval now G iid f (j + 1))

/-! ## The memo table (R167-R169) -/

/-- The fields of a word that a memo key holds: S masked, and D, of the C form only D[3:0] (R168). -/
def memoWord (w : Word) (cform : Bool) : Word :=
  if cform then w &&& 0xFFC3FFF0#32 else w &&& 0xFE03FFF0#32

/-- Condition 1 and 3 of R167: all 32 lanes, none a helper or absent, none inactive, one window base, no port. -/
def memoRun (G : Group) (u : Uses) (lanes : List Nat) : Bool :=
  lanes.length == 32 && !u.ports &&
    lanes.all fun L => !(G.lane L).helper && !(G.lane L).inactive && (G.lane L).w == (G.lane (lanes.headD 0)).w

/-- Whether two entries have the same key. -/
def Memo.sameKey (a b : Memo) : Bool :=
  a.word == b.word && a.lits == b.lits && a.srcs == b.srcs && a.uni == b.uni && a.fpcr == b.fpcr
    && a.load == b.load && (!a.load || a.ctx == b.ctx) && a.asofS == b.asofS

/-- Look a key up and count the hit or miss; whether an entry found is still there is a free choice, since entries make room
for registers (R166, log entry 1). A hit moves the entry to the front; a miss of a pure operation makes one. DESIGN CHOICE (log entry 94): of
more than 256 entries the ones most recently made or used stay (R168). -/
def memoLookup (s : State) (c : Cur) (m : Memo) (make : Bool) : Option Memo × State :=
  let q := (s.core c.core).quarter c.quarter
  let found := q.memo.find? fun e => e.sameKey m
  let hit := found.isSome && Config.freeBool (pairNat s.fresh 1)
  let ctx := (s.blk c.blk).ctx
  let rest := q.memo.filter fun e => !e.sameKey m
  match hit, found with
  | true, some e =>
    let q' := { q with memo := e :: rest }
    (some e, ((s.setCore c.core ((s.core c.core).setQuarter c.quarter q')).count ctx 0x03 1).unitAdd c.core 17 1)
  | _, _ =>
    let q' := { q with memo := if make then (m :: rest).take 256 else rest }
    (none, ((s.setCore c.core ((s.core c.core).setQuarter c.quarter q')).count ctx 0x04 1).unitAdd c.core 18 1)

/-! ## Vector operations -/

/-- The units of R21. -/
inductive AluUnit where
  | main | fn | f64
  deriving DecidableEq, Repr

/-- A unit accepts an instruction in this cycle (R21). -/
def unitFree (s : State) (c : Cur) (u : AluUnit) : Bool :=
  let q := (s.core c.core).quarter c.quarter
  match u with
  | .main => true
  | .fn => decide (q.funAt ≤ s.cycleOf c.core)
  | .f64 => decide (q.f64At ≤ s.cycleOf c.core)

/-- A unit accepts one instruction per 4 cycles (R21). -/
def takeUnit (s : State) (c : Cur) (u : AluUnit) : State :=
  let k := s.core c.core
  let q := k.quarter c.quarter
  let t := s.cycleOf c.core + 4
  match u with
  | .main => s
  | .fn => s.setCore c.core (k.setQuarter c.quarter { q with funAt := t })
  | .f64 => s.setCore c.core (k.setQuarter c.quarter { q with f64At := t })

/-- What a lane of a vector operation delivers. -/
structure LaneOut where
  words : List Word := []
  preds : List (Nat × Bool) := []
  flags : FFlags := 0#5
  deriving DecidableEq, Repr

/-- What a vector operation sees. -/
structure View where
  fpcr : Word
  /-- A lane's own sources. -/
  args : Nat → List (List Word)
  /-- The A register of any lane (R213). -/
  peek : Nat → Word

/-- The shape of a vector operation. -/
structure VShape where
  uses : Uses
  lat  : Nat
  unit : AluUnit := .main
  /-- Condition 2 of R167. -/
  memo : Bool := true
  /-- FPCR governs it (R36). -/
  fpcr : Bool := false
  /-- A C-form word. -/
  cform : Bool := false
  /-- An exchange: the lane whose A register a lane reads (R213). -/
  src : Option (List (List Word) → Nat → Nat) := none

/-- The memo key of a pure operation. -/
def pureKey (sh : VShape) (c : Cur) (G : Group) (args : Nat → List (List Word)) (lanes : List Nat) : Memo :=
  { word := memoWord c.word sh.cform, lits := c.lits, srcs := lanes.map fun L => (args L).flatten
    fpcr := if sh.fpcr then G.fpcr.setWidth 3 else 0#3 }

/-- The registers a lane's results go to. -/
def outWrites (A : Nat) (G : Group) (u : Uses) (L : Nat) (o : LaneOut) : List (RegKey × Word) :=
  (match u.vdst with
    | some (f, n) => if isPort f then [] else (destKeys A G L f n).zip o.words
    | none => [])
  ++ o.preds.map fun p => (RegKey.p L p.1, Word.ofBool p.2)

/-- The entry pushed to a port: each lane that computes contributes its result, other lanes 0 (R135).
DESIGN CHOICE (log entry 66): a lane that parks at the pushing instruction contributes 0 too, and the entry is pushed. -/
def pushEntry (outs : List (Nat × LaneOut)) : List Word :=
  (List.range 32).map fun L => match outs.find? fun o => o.1 == L with
    | some o => o.2.words.headD 0#32
    | none => 0#32

/-- Flags of the counted lanes (R34, R193). -/
def outFlags (G : Group) (outs : List (Nat × LaneOut)) : FFlags :=
  outs.foldl (fun f o => if (G.lane o.1).helper then f else f ||| o.2.flags) 0#5

/-- The register that an exchange reads in another lane (R213). The lane read is the one that B names, in the entry that B pops where B
is a port; a name out of that lane's range is no read. -/
def exchangeKey (sh : VShape) (s : State) (i : Issue) (L : Nat) : Option RegKey :=
  match sh.src, sh.uses.vsrc with
  | some src, f :: _ =>
    let b := s.blk i.c.blk
    let G := b.grp i.c.grp
    let got := (popPorts b.ports sh.uses.pops).1
    let j := src (readArgs b.A i.now G { i with pops := got } sh.uses L) L
    if !isPort f.1 && got.length == sh.uses.pops.length && (G.lane j).status != .absent && inRange b.A (G.lane j) f.1.toNat
    then some (vKey b.A G j f.1.toNat) else none
  | _, _ => none

/-- The early read of an exchange: the register it reads in another lane has an open producer (R66, R213). -/
def exchangeEarly (sh : VShape) (s : State) (i : Issue) (L : Nat) : Option Cause :=
  if (s.ctxOf i.c.blk).sbchk.getLsbD 0 && (exchangeKey sh s i L).any (fun k => ((s.grp i.c.blk i.c.grp).producer i.now k).isSome)
  then some (mkCause i.c 4) else none

/-- An exchange reads a bad register in another lane (R190, R213). -/
def exchangeBad (sh : VShape) (s : State) (i : Issue) : Bool :=
  !(s.blk i.c.blk).bad.isEmpty && i.lanes.any fun L => (exchangeKey sh s i L).any (s.badKey i.c)

/-- A vector operation (R193): `f` gives what each lane that computes delivers. -/
def vecOp (sh : VShape) (st : Stall) (f : View → Nat → LaneOut) (s : State) : Res :=
  issueWith sh.uses st (exchangeEarly sh)
    (fun s i =>
      let b := s.blk i.c.blk
      let G := b.grp i.c.grp
      let elig := sh.memo && memoRun G sh.uses i.lanes
      let hit := elig && (memoLookup s i.c (pureKey sh i.c G (readArgs b.A i.now G i sh.uses) i.lanes) true).1.isSome
      if !hit && !unitFree s i.c sh.unit then some .other else if exchangeBad sh s i then some .badRegister else none)
    (fun s i =>
      let b := s.blk i.c.blk
      let G := b.grp i.c.grp
      let args := readArgs b.A i.now G i sh.uses
      let v : View := ⟨G.fpcr, args, fun j => match sh.uses.vsrc with
        | x :: _ => peek b.A i.now G i x.1 j
        | [] => 0#32⟩
      let outs := i.lanes.map fun L => (L, f v L)
      let m := if sh.memo && memoRun G sh.uses i.lanes
        then memoLookup s i.c (pureKey sh i.c G args i.lanes) true else (none, s)
      let hit := m.1.isSome
      { s := if hit then m.2 else takeUnit m.2 i.c sh.unit
        writes := outs.flatMap fun o => outWrites b.A G sh.uses o.1 o.2
        push := some (pushEntry outs)
        flags := outFlags G outs
        lat := .fixed (if hit then 1 else sh.lat) })
    s

/-- Results of one word. -/
def one (w : Word) : LaneOut := { words := [w] }
/-- Results of a pair (R7). -/
def two (d : DWord) : LaneOut := { words := [d.lo, d.hi] }

/-! ## Uniform operations -/

/-- What a uniform operation delivers. -/
structure UniOut where
  writes : List (RegKey × Word) := []
  flags  : FFlags := 0#5
  deriving DecidableEq, Repr

/-- A uniform operation with a fixed latency (R194). -/
def uniOp (u : Uses) (lat : Nat) (st : Stall) (f : (BitVec 7 → Nat → Word) → Group → List Nat → UniOut) (s : State) : Res :=
  issueWith u st noCause isReady
    (fun s i =>
      let G := s.grp i.c.blk i.c.grp
      let o := f (fun k j => kval i.now G i.iid k j) G i.lanes
      { s := s, writes := o.writes, flags := o.flags, lat := .fixed lat })
    s

/-- Registers k and a value, for a destination field. -/
def kWrite (G : Group) (d : BitVec 7) (v : Word) : List (RegKey × Word) := [(kKey G d, v)]
/-- A 64-bit uniform destination. -/
def kWrite2 (G : Group) (d : BitVec 7) (v : DWord) : List (RegKey × Word) := [(kKey G d, v.lo), (kKey G d 1, v.hi)]

end Sys2Proof.Machine
end

