-- ==== Sys2Proof/Machine/Int.lean ====
section
/-! DEFINITION. Integer instructions (R195-R201), uniform ALU (R202), moves and literals (R218, R219). -/

namespace Sys2Proof.Machine

/-! ## Values -/

/-- A shift amount of 32 or more gives 0 (R196). -/
def shlW (a b : Word) : Word := if b.toNat < 32 then a <<< b.toNat else 0#32
def shrW (a b : Word) : Word := if b.toNat < 32 then a >>> b.toNat else 0#32
/-- Copies of bit 31 enter; an amount of 32 or more gives all of them (R196). -/
def sraW (a b : Word) : Word := if b.toNat < 32 then a.sshiftRight b.toNat else a.sshiftRight 31
/-- shfi and kshfi (R197). -/
def shiftImm (k : ShiftKind) (a : Word) (n : BitVec 5) : Word :=
  match k with
  | .shl => a <<< n.toNat
  | .shr => a >>> n.toNat
  | .sra => a.sshiftRight n.toNat
  | .rot => a.rotateLeft n.toNat
/-- The sign-extended 7-bit immediate (R197). -/
def imm7 (i : BitVec 7) : Word := i.signExtend 32
/-- The high word of the exact signed product (R195). -/
def mulhS (a b : Word) : Word := ((a.signExtend 64 * b.signExtend 64) >>> 32).setWidth 32
/-- The high word of the exact unsigned product (R195). -/
def mulhZ (a b : Word) : Word := ((a.setWidth 64 * b.setWidth 64) >>> 32).setWidth 32
def minS (a b : Word) : Word := if a.sle b then a else b
def minZ (a b : Word) : Word := if a.ule b then a else b
def maxS (a b : Word) : Word := if a.sle b then b else a
def maxZ (a b : Word) : Word := if a.ule b then b else a

/-- Set bits of a word. -/
def popcount (a : Word) : Nat := (List.range 32).foldl (fun n i => if a.getLsbD i then n + 1 else n) 0
/-- Leading zeros; 32 for 0 (R200). -/
def leadZeros (a : Word) : Nat := if a = 0#32 then 32 else 31 - Nat.log2 a.toNat
/-- Bit i of the result is bit 31 − i (R200). -/
def bitRev (a : Word) : Word := a.reverse
/-- Bytes in reverse order (R200). -/
def byteSwap (a : Word) : Word :=
  a.extractLsb' 0 8 ++ a.extractLsb' 8 8 ++ a.extractLsb' 16 8 ++ a.extractLsb' 24 8

/-- iun (R200). -/
def iunVal (fn : IunFn) (a : Word) : Word :=
  match fn with
  | .popc => BitVec.ofNat 32 (popcount a)
  | .clz => BitVec.ofNat 32 (leadZeros a)
  | .brev => bitRev a
  | .iabs => if a.getLsbD 31 then -a else a
  | .ineg => -a
  | .not => ~~~a
  | .sext8 => (a.setWidth 8).signExtend 32
  | .sext16 => (a.setWidth 16).signExtend 32
  | .zext8 => (a.setWidth 8).setWidth 32
  | .zext16 => (a.setWidth 16).setWidth 32
  | .bswap => byteSwap a

/-- bfe (R201): pos = b[4:0], len = b[12:8]. -/
def bfeVal (a b : Word) : Word :=
  (a >>> (b.toNat % 32)) &&& BitVec.ofNat 32 (2 ^ (b.toNat / 256 % 32) - 1)

/-- bfi (R201): bits [hi−1 : pos] of d come from a, hi = min(pos + len, 32). -/
def bfiVal (a b d : Word) : Word :=
  let pos := b.toNat % 32
  let mask : Word := BitVec.ofNat 32 (2 ^ (b.toNat / 256 % 32) - 1) <<< pos
  (d &&& ~~~mask) ||| ((a <<< pos) &&& mask)

/-! ## Shapes -/

/-- Two single sources, one destination. -/
def useR (d a b : BitVec 7) : Uses := { vsrc := [(a, 1), (b, 1)], vdst := some (d, 1) }
/-- The same with D read. -/
def useRD (d a b : BitVec 7) : Uses := { vsrc := [(a, 1), (b, 1)], dsrc := some (d, 1), vdst := some (d, 1) }
/-- One single source. -/
def use1 (d a : BitVec 7) : Uses := { vsrc := [(a, 1)], vdst := some (d, 1) }

/-- An integer operation of two sources (R195). -/
def int2 (d a b : BitVec 7) (st : Stall) (f : Word → Word → Word) (s : State) : Res :=
  vecOp { uses := useR d a b, lat := 4 } st (fun v L => one (f (arg (v.args L) 0) (arg (v.args L) 1))) s

/-- An integer operation that reads D too. -/
def int3 (d a b : BitVec 7) (st : Stall) (f : Word → Word → Word → Word) (s : State) : Res :=
  vecOp { uses := useRD d a b, lat := 4 } st
    (fun v L => one (f (arg (v.args L) 0) (arg (v.args L) 1) (arg (v.args L) 2))) s

/-- An integer operation of one source. -/
def int1 (d a : BitVec 7) (st : Stall) (f : Word → Word) (s : State) : Res :=
  vecOp { uses := use1 d a, lat := 4 } st (fun v L => one (f (arg (v.args L) 0))) s

/-- A vector compare into a predicate (R199). -/
def intCmp (p : BitVec 4) (a b : BitVec 7) (st : Stall) (f : Word → Word → Bool) (s : State) : Res :=
  vecOp { uses := { vsrc := [(a, 1), (b, 1)], pdst := [p.toNat] }, lat := 4, cform := true } st
    (fun v L => { preds := [(p.toNat, f (arg (v.args L) 0) (arg (v.args L) 1))] }) s

/-! ## Integer instructions -/

/-- R195. -/
def execIadd (d a b : VReg) (st : Stall) (s : State) : Res := int2 d a b st (· + ·) s
def execIsub (d a b : VReg) (st : Stall) (s : State) : Res := int2 d a b st (· - ·) s
def execImul (d a b : VReg) (st : Stall) (s : State) : Res := int2 d a b st (· * ·) s
def execImulhS (d a b : VReg) (st : Stall) (s : State) : Res := int2 d a b st mulhS s
def execImulhZ (d a b : VReg) (st : Stall) (s : State) : Res := int2 d a b st mulhZ s
def execImad (d a b : VReg) (st : Stall) (s : State) : Res := int3 d a b st (fun x y z => x * y + z) s
def execAnd (d a b : VReg) (st : Stall) (s : State) : Res := int2 d a b st (· &&& ·) s
def execOr (d a b : VReg) (st : Stall) (s : State) : Res := int2 d a b st (· ||| ·) s
def execXor (d a b : VReg) (st : Stall) (s : State) : Res := int2 d a b st (· ^^^ ·) s
def execAndn (d a b : VReg) (st : Stall) (s : State) : Res := int2 d a b st (fun x y => x &&& ~~~y) s
/-- R195, R196. -/
def execShl (d a b : VReg) (st : Stall) (s : State) : Res := int2 d a b st shlW s
def execShr (d a b : VReg) (st : Stall) (s : State) : Res := int2 d a b st shrW s
def execSra (d a b : VReg) (st : Stall) (s : State) : Res := int2 d a b st sraW s
/-- R195. -/
def execIminS (d a b : VReg) (st : Stall) (s : State) : Res := int2 d a b st minS s
def execIminZ (d a b : VReg) (st : Stall) (s : State) : Res := int2 d a b st minZ s
def execImaxS (d a b : VReg) (st : Stall) (s : State) : Res := int2 d a b st maxS s
def execImaxZ (d a b : VReg) (st : Stall) (s : State) : Res := int2 d a b st maxZ s
/-- R197. -/
def execIaddi (d a : VReg) (i : BitVec 7) (st : Stall) (s : State) : Res := int1 d a st (· + imm7 i) s
def execShfi (k : ShiftKind) (d a : VReg) (n : BitVec 5) (st : Stall) (s : State) : Res :=
  int1 d a st (fun x => shiftImm k x n) s
def execAndi (d a : VReg) (i : BitVec 7) (st : Stall) (s : State) : Res := int1 d a st (· &&& imm7 i) s
/-- R198. -/
def execIadd64 (d a b : VReg) (st : Stall) (s : State) : Res :=
  vecOp { uses := { vsrc := [(a, 2), (b, 2)], vdst := some (d, 2) }, lat := 4 } st
    (fun v L => two (argD (v.args L) 0 + argD (v.args L) 1)) s
/-- R198: the single B register, zero-extended. -/
def execLea (d a b : VReg) (st : Stall) (s : State) : Res :=
  vecOp { uses := { vsrc := [(a, 2), (b, 1)], vdst := some (d, 2) }, lat := 4 } st
    (fun v L => two (argD (v.args L) 0 + (arg (v.args L) 1).setWidth 64)) s
/-- R199. -/
def execIcmpS (c : Cond) (p : BitVec 4) (a b : VReg) (st : Stall) (s : State) : Res := intCmp p a b st (condS c) s
def execIcmpZ (c : Cond) (p : BitVec 4) (a b : VReg) (st : Stall) (s : State) : Res := intCmp p a b st (condZ c) s
/-- R200. -/
def execIun (fn : IunFn) (d a : VReg) (st : Stall) (s : State) : Res := int1 d a st (iunVal fn) s
/-- R201. -/
def execBfe (d a b : VReg) (st : Stall) (s : State) : Res := int2 d a b st bfeVal s
def execBfi (d a b : VReg) (st : Stall) (s : State) : Res := int3 d a b st bfiVal s

/-! ## Uniform ALU (R194, R202) -/

/-- A uniform operation of two sources. -/
def uni2 (d a b : KReg) (st : Stall) (f : Word → Word → Word) (s : State) : Res :=
  uniOp { ksrc := [(a, 1), (b, 1)] } 2 st (fun k G _ => { writes := kWrite G d (f (k a 0) (k b 0)) }) s

/-- A uniform operation of one source. -/
def uni1 (d a : KReg) (st : Stall) (f : Word → Word) (s : State) : Res :=
  uniOp { ksrc := [(a, 1)] } 2 st (fun k G _ => { writes := kWrite G d (f (k a 0)) }) s

/-- A uniform compare. -/
def uniCmp (p : BitVec 4) (a b : KReg) (st : Stall) (f : Word → Word → Bool) (s : State) : Res :=
  uniOp { ksrc := [(a, 1), (b, 1)] } 2 st (fun k _ _ => { writes := [(.kp p.toNat, Word.ofBool (f (k a 0) (k b 0)))] }) s

def execKadd (d a b : KReg) (st : Stall) (s : State) : Res := uni2 d a b st (· + ·) s
def execKsub (d a b : KReg) (st : Stall) (s : State) : Res := uni2 d a b st (· - ·) s
def execKmul (d a b : KReg) (st : Stall) (s : State) : Res := uni2 d a b st (· * ·) s
def execKand (d a b : KReg) (st : Stall) (s : State) : Res := uni2 d a b st (· &&& ·) s
def execKor (d a b : KReg) (st : Stall) (s : State) : Res := uni2 d a b st (· ||| ·) s
def execKxor (d a b : KReg) (st : Stall) (s : State) : Res := uni2 d a b st (· ^^^ ·) s
def execKshfi (k : ShiftKind) (d a : KReg) (n : BitVec 5) (st : Stall) (s : State) : Res :=
  uni1 d a st (fun x => shiftImm k x n) s
def execKaddi (d a : KReg) (i : BitVec 7) (st : Stall) (s : State) : Res := uni1 d a st (· + imm7 i) s
def execKcmpS (c : Cond) (p : BitVec 4) (a b : KReg) (st : Stall) (s : State) : Res := uniCmp p a b st (condS c) s
def execKcmpZ (c : Cond) (p : BitVec 4) (a b : KReg) (st : Stall) (s : State) : Res := uniCmp p a b st (condZ c) s
def execKadd64 (d a b : KReg) (st : Stall) (s : State) : Res :=
  uniOp { ksrc := [(a, 2), (b, 2)] } 2 st
    (fun k G _ => { writes := kWrite2 G d (dwordOf (k a 0) (k a 1) + dwordOf (k b 0) (k b 1)) }) s

/-! ## Moves and literals (R218, R219) -/

/-- The literal in each lane that computes; never memoised (R219). -/
def execLit (d : VReg) (x : Word) (st : Stall) (s : State) : Res :=
  vecOp { uses := { vdst := some (d, 1) }, lat := 4, memo := false } st (fun _ _ => one x) s
/-- R219, R194. -/
def execKlit (d : KReg) (x : Word) (st : Stall) (s : State) : Res :=
  uniOp {} 2 st (fun _ G _ => { writes := kWrite G d x }) s
/-- mov FN 0 (R218). -/
def execMov (d a : VReg) (st : Stall) (s : State) : Res := int1 d a st (fun x => x) s
/-- mov FN 1: a uniform register in each lane that computes (R218). -/
def execMovBroadcast (d : VReg) (a : KReg) (st : Stall) (s : State) : Res :=
  issueWith { vdst := some (d, 1), ksrc := [(a, 1)] } st noCause isReady
    (fun s i =>
      let b := s.blk i.c.blk
      let G := b.grp i.c.grp
      let x := kval i.now G i.iid a
      let outs := i.lanes.map fun L => (L, one x)
      { s := s, writes := outs.flatMap fun o => outWrites b.A G { vdst := some (d, 1) } o.1 o.2
        push := some (pushEntry outs), lat := .fixed 4 }) s
/-- The register of mov FN 2 in a lane: of the counted lanes that may execute, the lowest reads it (R218). -/
def movKey (a : VReg) (s : State) (i : Issue) (L : Nat) : Option RegKey :=
  let b := s.blk i.c.blk
  let G := b.grp i.c.grp
  if isPort a || (G.lane L).helper || !inRange b.A (G.lane L) a.toNat then none else some (vKey b.A G L a.toNat)

/-- An early read of mov FN 2: the lowest counted lane's, and, where that lane parks, the next one's (R66, R218). -/
def movEarly (a : VReg) (s : State) (i : Issue) (L : Nat) : Option Cause :=
  let early := fun M => (movKey a s i M).any fun k => ((s.grp i.c.blk i.c.grp).producer i.now k).isSome
  if (s.ctxOf i.c.blk).sbchk.getLsbD 0 && early L &&
    i.lanes.all fun M => decide (L ≤ M) || (movKey a s i M).isNone && !isPort a || early M
  then some (mkCause i.c 4) else none

/-- The read of mov FN 2 meets a bad register (R190). -/
def movBad (a : VReg) (s : State) (i : Issue) : Option Reason :=
  if ((i.lanes.filterMap (movKey a s i)).head?).any (s.badKey i.c) then some .badRegister else none

/-- mov FN 2: the lowest counted lane's value; 0 when none is counted (R218). -/
def execMovToUniform (d : KReg) (a : VReg) (st : Stall) (s : State) : Res :=
  issueWith { vsrc := [(a, 1)], remote := true } st (movEarly a) (movBad a)
    (fun s i =>
      let b := s.blk i.c.blk
      let G := b.grp i.c.grp
      let x := match G.counted i.lanes with
        | L :: _ => arg (readArgs b.A i.now G i { vsrc := [(a, 1)] } L) 0
        | [] => 0#32
      { s := s, writes := kWrite G d x, lat := .fixed 4 }) s
/-- mov.pv: the lane's predicates as bits (R218). -/
def execMovPv (d : VReg) (st : Stall) (s : State) : Res :=
  issueWith { vdst := some (d, 1), psrc := List.range 12 } st noCause isReady
    (fun s i =>
      let b := s.blk i.c.blk
      let G := b.grp i.c.grp
      let outs := i.lanes.map fun L => (L, one ((List.range 12).foldl (fun w n =>
        if (G.read i.now i.iid (.p L n)).getLsbD 0 then w ||| BitVec.ofNat 32 (2 ^ n) else w) 0#32))
      { s := s, writes := outs.flatMap fun o => outWrites b.A G { vdst := some (d, 1) } o.1 o.2
        push := some (pushEntry outs), lat := .fixed 4 }) s
/-- mov.vp: p(i) := a[i] (R218). -/
def execMovVp (a : VReg) (st : Stall) (s : State) : Res :=
  vecOp { uses := { vsrc := [(a, 1)], pdst := List.range 12 }, lat := 4, memo := false } st
    (fun v L => { preds := (List.range 12).map fun n => (n, (arg (v.args L) 0).getLsbD n) }) s
/-- mov FN 5: kp(D) := ka[0] (R218). -/
def execMovKp (d : BitVec 7) (a : KReg) (st : Stall) (s : State) : Res :=
  uniOp { ksrc := [(a, 1)] } 4 st (fun k _ _ => { writes := [(.kp d.toNat, k a 0)] }) s

end Sys2Proof.Machine
end

