-- ==== Sys2Proof/Machine/Fp.lean ====
section
/-! DEFINITION. Floating-point instructions (R203-R209), cvt (R42-R44), M8 (R210-R212), lane exchange (R213-R215), vote and
redux (R216, R217). -/

namespace Sys2Proof.Machine

/-! ## Elements -/

/-- Element 0 and element 1 of a packed register (R32). -/
def elem (w : Word) (hi : Bool) : Nat := if hi then w.toNat / 65536 else w.toNat % 65536
/-- A packed register (R32). -/
def pack (lo hi : Nat) : Word := BitVec.ofNat 32 (lo % 65536 + 65536 * (hi % 65536))

/-- A result of one 32-bit element with its flags. -/
def outF (r : Nat × FFlags) : LaneOut := { words := [BitVec.ofNat 32 r.1], flags := r.2 }
/-- A result of one 64-bit element. -/
def outD (r : Nat × FFlags) : LaneOut := { two (BitVec.ofNat 64 r.1) with flags := r.2 }
/-- Results of two 16-bit elements; their flags together (R32). -/
def outP (lo hi : Nat × FFlags) : LaneOut := { words := [pack lo.1 hi.1], flags := lo.2 ||| hi.2 }

/-! ## Shapes -/

/-- Two sources in FP32 (R203). -/
def fp2 (d a b : VReg) (st : Stall) (f : Env → Nat → Nat → Nat × FFlags) (s : State) : Res :=
  vecOp { uses := useR d a b, lat := 4, fpcr := true } st
    (fun v L => outF (f (envOf v.fpcr) (arg (v.args L) 0).toNat (arg (v.args L) 1).toNat)) s
/-- Three sources in FP32. -/
def fp3 (d a b : VReg) (st : Stall) (f : Env → Nat → Nat → Nat → Nat × FFlags) (s : State) : Res :=
  vecOp { uses := useRD d a b, lat := 4, fpcr := true } st
    (fun v L => outF (f (envOf v.fpcr) (arg (v.args L) 0).toNat (arg (v.args L) 1).toNat (arg (v.args L) 2).toNat)) s
/-- Two packed sources (R32, R203). -/
def fpp2 (d a b : VReg) (st : Stall) (f : Env → Nat → Nat → Nat × FFlags) (s : State) : Res :=
  vecOp { uses := useR d a b, lat := 4, fpcr := true } st
    (fun v L =>
      let x := arg (v.args L) 0
      let y := arg (v.args L) 1
      outP (f (envOf v.fpcr) (elem x false) (elem y false)) (f (envOf v.fpcr) (elem x true) (elem y true))) s
/-- Three packed sources. -/
def fpp3 (d a b : VReg) (st : Stall) (f : Env → Nat → Nat → Nat → Nat × FFlags) (s : State) : Res :=
  vecOp { uses := useRD d a b, lat := 4, fpcr := true } st
    (fun v L =>
      let x := arg (v.args L) 0
      let y := arg (v.args L) 1
      let z := arg (v.args L) 2
      outP (f (envOf v.fpcr) (elem x false) (elem y false) (elem z false))
        (f (envOf v.fpcr) (elem x true) (elem y true) (elem z true))) s
/-- Two 64-bit sources (R203). -/
def fpd2 (d a b : VReg) (st : Stall) (f : Env → Nat → Nat → Nat × FFlags) (s : State) : Res :=
  vecOp { uses := { vsrc := [(a, 2), (b, 2)], vdst := some (d, 2) }, lat := 8, unit := .f64, fpcr := true } st
    (fun v L => outD (f (envOf v.fpcr) (argD (v.args L) 0).toNat (argD (v.args L) 1).toNat)) s
/-- Three 64-bit sources. -/
def fpd3 (d a b : VReg) (st : Stall) (f : Env → Nat → Nat → Nat → Nat × FFlags) (s : State) : Res :=
  vecOp { uses := { vsrc := [(a, 2), (b, 2)], dsrc := some (d, 2), vdst := some (d, 2) }, lat := 8, unit := .f64, fpcr := true } st
    (fun v L => outD (f (envOf v.fpcr) (argD (v.args L) 0).toNat (argD (v.args L) 1).toNat (argD (v.args L) 2).toNat)) s

/-- A compare of single elements (R206). -/
def fpCmp (p : BitVec 4) (a b : VReg) (st : Stall) (f : Env → Nat → Nat → Bool × FFlags) (s : State) : Res :=
  vecOp { uses := { vsrc := [(a, 1), (b, 1)], pdst := [p.toNat] }, lat := 4, fpcr := true, cform := true } st
    (fun v L =>
      let r := f (envOf v.fpcr) (arg (v.args L) 0).toNat (arg (v.args L) 1).toNat
      { preds := [(p.toNat, r.1)], flags := r.2 }) s
/-- A packed compare: element 0 to p(n), element 1 to p(n + 1) (R206). -/
def fppCmp (p : BitVec 4) (a b : VReg) (st : Stall) (f : Env → Nat → Nat → Bool × FFlags) (s : State) : Res :=
  vecOp { uses := { vsrc := [(a, 1), (b, 1)], pdst := [p.toNat, p.toNat + 1] }, lat := 4, fpcr := true, cform := true } st
    (fun v L =>
      let x := arg (v.args L) 0
      let y := arg (v.args L) 1
      let r0 := f (envOf v.fpcr) (elem x false) (elem y false)
      let r1 := f (envOf v.fpcr) (elem x true) (elem y true)
      { preds := [(p.toNat, r0.1), (p.toNat + 1, r1.1)], flags := r0.2 ||| r1.2 }) s
/-- A 64-bit compare (R206). -/
def fpdCmp (p : BitVec 4) (a b : VReg) (st : Stall) (f : Env → Nat → Nat → Bool × FFlags) (s : State) : Res :=
  vecOp { uses := { vsrc := [(a, 2), (b, 2)], pdst := [p.toNat] }, lat := 8, unit := .f64, fpcr := true, cform := true } st
    (fun v L =>
      let r := f (envOf v.fpcr) (argD (v.args L) 0).toNat (argD (v.args L) 1).toNat
      { preds := [(p.toNat, r.1)], flags := r.2 }) s

/-! ## The four blocks (R203-R206) -/

/-- F32: R204, R205, R206. -/
def execFaddF32 (d a b : VReg) (st : Stall) (s : State) : Res := fp2 d a b st (fadd Fmt.f32) s
def execFsubF32 (d a b : VReg) (st : Stall) (s : State) : Res := fp2 d a b st (fsub Fmt.f32) s
def execFmulF32 (d a b : VReg) (st : Stall) (s : State) : Res := fp2 d a b st (fmul Fmt.f32) s
def execFfmaF32 (d a b : VReg) (st : Stall) (s : State) : Res := fp3 d a b st (ffma Fmt.f32) s
def execFminF32 (d a b : VReg) (st : Stall) (s : State) : Res :=
  fp2 d a b st (fun e x y => fminmax Fmt.f32 e false x y) s
def execFmaxF32 (d a b : VReg) (st : Stall) (s : State) : Res :=
  fp2 d a b st (fun e x y => fminmax Fmt.f32 e true x y) s
def execFcmpF32 (c : Cond) (p : BitVec 4) (a b : VReg) (st : Stall) (s : State) : Res :=
  fpCmp p a b st (fun e x y => fcmp Fmt.f32 e c x y) s

/-- F16x2: R204, R205, R206. -/
def execFaddF16x2 (d a b : VReg) (st : Stall) (s : State) : Res := fpp2 d a b st (fadd Fmt.f16) s
def execFsubF16x2 (d a b : VReg) (st : Stall) (s : State) : Res := fpp2 d a b st (fsub Fmt.f16) s
def execFmulF16x2 (d a b : VReg) (st : Stall) (s : State) : Res := fpp2 d a b st (fmul Fmt.f16) s
def execFfmaF16x2 (d a b : VReg) (st : Stall) (s : State) : Res := fpp3 d a b st (ffma Fmt.f16) s
def execFminF16x2 (d a b : VReg) (st : Stall) (s : State) : Res :=
  fpp2 d a b st (fun e x y => fminmax Fmt.f16 e false x y) s
def execFmaxF16x2 (d a b : VReg) (st : Stall) (s : State) : Res :=
  fpp2 d a b st (fun e x y => fminmax Fmt.f16 e true x y) s
def execFcmpF16x2 (c : Cond) (p : BitVec 4) (a b : VReg) (st : Stall) (s : State) : Res :=
  fppCmp p a b st (fun e x y => fcmp Fmt.f16 e c x y) s

/-- Bf16x2: R204, R205, R206. -/
def execFaddBf16x2 (d a b : VReg) (st : Stall) (s : State) : Res := fpp2 d a b st (fadd Fmt.bf16) s
def execFsubBf16x2 (d a b : VReg) (st : Stall) (s : State) : Res := fpp2 d a b st (fsub Fmt.bf16) s
def execFmulBf16x2 (d a b : VReg) (st : Stall) (s : State) : Res := fpp2 d a b st (fmul Fmt.bf16) s
def execFfmaBf16x2 (d a b : VReg) (st : Stall) (s : State) : Res := fpp3 d a b st (ffma Fmt.bf16) s
def execFminBf16x2 (d a b : VReg) (st : Stall) (s : State) : Res :=
  fpp2 d a b st (fun e x y => fminmax Fmt.bf16 e false x y) s
def execFmaxBf16x2 (d a b : VReg) (st : Stall) (s : State) : Res :=
  fpp2 d a b st (fun e x y => fminmax Fmt.bf16 e true x y) s
def execFcmpBf16x2 (c : Cond) (p : BitVec 4) (a b : VReg) (st : Stall) (s : State) : Res :=
  fppCmp p a b st (fun e x y => fcmp Fmt.bf16 e c x y) s

/-- F64: R204, R205, R206. -/
def execFaddF64 (d a b : VReg) (st : Stall) (s : State) : Res := fpd2 d a b st (fadd Fmt.f64) s
def execFsubF64 (d a b : VReg) (st : Stall) (s : State) : Res := fpd2 d a b st (fsub Fmt.f64) s
def execFmulF64 (d a b : VReg) (st : Stall) (s : State) : Res := fpd2 d a b st (fmul Fmt.f64) s
def execFfmaF64 (d a b : VReg) (st : Stall) (s : State) : Res := fpd3 d a b st (ffma Fmt.f64) s
def execFminF64 (d a b : VReg) (st : Stall) (s : State) : Res :=
  fpd2 d a b st (fun e x y => fminmax Fmt.f64 e false x y) s
def execFmaxF64 (d a b : VReg) (st : Stall) (s : State) : Res :=
  fpd2 d a b st (fun e x y => fminmax Fmt.f64 e true x y) s
def execFcmpF64 (c : Cond) (p : BitVec 4) (a b : VReg) (st : Stall) (s : State) : Res :=
  fpdCmp p a b st (fun e x y => fcmp Fmt.f64 e c x y) s

/-! ## fun (R207-R209): the fz bit of FPCR alone applies -/

/-- R207, R208. -/
def execFunF32 (fn : FunFn) (d a : VReg) (st : Stall) (s : State) : Res :=
  vecOp { uses := use1 d a, lat := 16, unit := .fn, fpcr := true } st
    (fun v L => outF (funV Fmt.f32 (fzOf v.fpcr) fn (arg (v.args L) 0).toNat)) s
/-- A packed fun (R207). -/
def funPacked (f : Fmt) (fn : FunFn) (d a : VReg) (st : Stall) (s : State) : Res :=
  vecOp { uses := use1 d a, lat := 16, unit := .fn, fpcr := true } st
    (fun v L =>
      let x := arg (v.args L) 0
      outP (funElem f (fzOf v.fpcr) fn (elem x false)) (funElem f (fzOf v.fpcr) fn (elem x true))) s
def execFunF16x2 (fn : FunFn) (d a : VReg) (st : Stall) (s : State) : Res := funPacked Fmt.f16 fn d a st s
def execFunBf16x2 (fn : FunFn) (d a : VReg) (st : Stall) (s : State) : Res := funPacked Fmt.bf16 fn d a st s
/-- R209: the functions the decoder admits. -/
def execFunF64 (fn : FunFn) (d a : VReg) (st : Stall) (s : State) : Res :=
  vecOp { uses := { vsrc := [(a, 2)], vdst := some (d, 2) }, lat := 16, unit := .f64, fpcr := true } st
    (fun v L => outD (funV Fmt.f64 (fzOf v.fpcr) fn (argD (v.args L) 0).toNat)) s

/-! ## cvt (R42-R44) -/

/-- Whether a kind's source is a pair, and its destination (R42). -/
def cvtSrcPair : CvtKind → Bool
  | .f16x2f32 | .bf16x2f32 | .f32f64 | .s32f64 | .z32f64 => true
  | _ => false
def cvtDstPair : CvtKind → Bool
  | .f64f32 | .f64s32 | .f64z32 => true
  | _ => false

/-- An integer result as a word. -/
def outI (r : Int × FFlags) : LaneOut := { words := [BitVec.ofInt 32 r.1], flags := r.2 }

/-- convert (R43); x is the source word or the even word, y the odd one. -/
def cvtVal (k : CvtKind) (rm : Rm) (x y : Word) : LaneOut :=
  let d := (dwordOf x y).toNat
  match k with
  | .f32s32 => outF (cvtFromInt .f32 rm x.toInt)
  | .f32z32 => outF (cvtFromInt .f32 rm x.toNat)
  | .s32f32 => outI (cvtToInt .f32 rm (-2147483648) 2147483647 x.toNat)
  | .z32f32 => outI (cvtToInt .f32 rm 0 4294967295 x.toNat)
  | .f32f16lo => outF (cvtFmt .f16 .f32 .rn (elem x false))
  | .f32f16hi => outF (cvtFmt .f16 .f32 .rn (elem x true))
  | .f32bf16lo => outF (cvtFmt .bf16 .f32 .rn (elem x false))
  | .f32bf16hi => outF (cvtFmt .bf16 .f32 .rn (elem x true))
  | .f16x2f32 => outP (cvtFmt .f32 .f16 rm x.toNat) (cvtFmt .f32 .f16 rm y.toNat)
  | .bf16x2f32 => outP (cvtFmt .f32 .bf16 rm x.toNat) (cvtFmt .f32 .bf16 rm y.toNat)
  | .f64f32 => outD (cvtFmt .f32 .f64 .rn x.toNat)
  | .f32f64 => outF (cvtFmt .f64 .f32 rm d)
  | .f64s32 => outD (cvtFromInt .f64 .rn x.toInt)
  | .f64z32 => outD (cvtFromInt .f64 .rn x.toNat)
  | .s32f64 => outI (cvtToInt .f64 rm (-2147483648) 2147483647 d)
  | .z32f64 => outI (cvtToInt .f64 rm 0 4294967295 d)

/-- R42, R43. -/
def execCvt (k : CvtKind) (rm : Rm) (d a : VReg) (st : Stall) (s : State) : Res :=
  vecOp { uses := { vsrc := [(a, if cvtSrcPair k then 2 else 1)], vdst := some (d, if cvtDstPair k then 2 else 1) }, lat := 4 } st
    (fun v L => cvtVal k rm (arg (v.args L) 0) (arg (v.args L) 0 1)) s

/-! ## M8 (R210-R212) -/

/-- R210. -/
def pkM8Op (rn : Bool) (d a b : VReg) (st : Stall) (s : State) : Res :=
  vecOp { uses := { vsrc := [(a, 2), (b, 2)], vdst := some (d, 1) }, lat := 4 } st
    (fun v L =>
      let r := pkM8 rn (arg (v.args L) 0) (arg (v.args L) 0 1) (arg (v.args L) 1) (arg (v.args L) 1 1)
      { words := [r.1], flags := r.2 }) s
def execPkM8Rn (d a b : VReg) (st : Stall) (s : State) : Res := pkM8Op true d a b st s
def execPkM8Rz (d a b : VReg) (st : Stall) (s : State) : Res := pkM8Op false d a b st s
/-- R211. -/
def execUpM8 (n : BitVec 2) (d a : VReg) (st : Stall) (s : State) : Res :=
  vecOp { uses := use1 d a, lat := 4 } st (fun v L => outF (m8ToF32 (byteAt (arg (v.args L) 0) n.toNat))) s
/-- R212, R46. -/
def execVdotM8 (d a b : VReg) (st : Stall) (s : State) : Res :=
  vecOp { uses := useRD d a b, lat := 4 } st
    (fun v L =>
      let r := vdotM8 (arg (v.args L) 0) (arg (v.args L) 1) (arg (v.args L) 2)
      { words := [r.1], flags := r.2 }) s

/-! ## Lane exchange (R213-R215) -/

/-- An exchange: each lane that computes takes the A register of a source lane. -/
def exchange (u : Uses) (st : Stall) (src : List (List Word) → Nat → Nat) (s : State) : Res :=
  vecOp { uses := { u with remote := true, free := true }, lat := 6, src := some src } st (fun v L => one (v.peek (src (v.args L) L))) s
/-- R214: the source lane is vb[4:0]. -/
def execShflIdx (d a b : VReg) (st : Stall) (s : State) : Res :=
  exchange (useR d a b) st (fun args _ => (arg args 1).toNat % 32) s
def execShflUp (d a : VReg) (n : BitVec 5) (st : Stall) (s : State) : Res :=
  exchange (use1 d a) st (fun _ L => if L < n.toNat then L else L - n.toNat) s
def execShflDn (d a : VReg) (n : BitVec 5) (st : Stall) (s : State) : Res :=
  exchange (use1 d a) st (fun _ L => if 31 < L + n.toNat then L else L + n.toNat) s
def execShflXor (d a : VReg) (n : BitVec 5) (st : Stall) (s : State) : Res :=
  exchange (use1 d a) st (fun _ L => L ^^^ n.toNat) s
/-- R215. -/
def qxSrc (fn : QxFn) (L : Nat) : Nat :=
  match fn with
  | .h => L ^^^ 1
  | .v => L ^^^ 2
  | .d => L ^^^ 3
  | .bc n => 4 * (L / 4) + n.toNat
def execQx (fn : QxFn) (d a : VReg) (st : Stall) (s : State) : Res :=
  exchange (use1 d a) st (fun _ L => qxSrc fn L) s

/-! ## Group-wide (R216, R217) -/

/-- The counted lanes whose predicate is set, and the counted lanes (R216). -/
def votes (G : Group) (i : Issue) (p : BitVec 4) : List Nat × List Nat :=
  let counted := G.counted i.lanes
  (counted.filter fun L => (G.read i.now i.iid (.p L p.toNat)).getLsbD 0, counted)

/-- A vote (R216); never memoised. -/
def voteOp (p : BitVec 4) (st : Stall) (f : Group → List Nat × List Nat → List (RegKey × Word)) (s : State) : Res :=
  issueWith { psrc := [p.toNat] } st noCause isReady
    (fun s i =>
      let G := s.grp i.c.blk i.c.grp
      { s := s, writes := f G (votes G i p), lat := .fixed 8 }) s
def execVoteAny (d : BitVec 7) (p : BitVec 4) (st : Stall) (s : State) : Res :=
  voteOp p st (fun _ v => [(.kp d.toNat, Word.ofBool (!v.1.isEmpty))]) s
def execVoteAll (d : BitVec 7) (p : BitVec 4) (st : Stall) (s : State) : Res :=
  voteOp p st (fun _ v => [(.kp d.toNat, Word.ofBool (v.1.length == v.2.length))]) s
def execVoteBallot (d : KReg) (p : BitVec 4) (st : Stall) (s : State) : Res :=
  voteOp p st (fun G v => kWrite G d (BitVec.ofNat 32 (v.1.foldl (fun w L => w + 2 ^ L) 0))) s
def execVoteEq (d : BitVec 7) (p : BitVec 4) (st : Stall) (s : State) : Res :=
  voteOp p st (fun _ v => [(.kp d.toNat, Word.ofBool (v.1.isEmpty || v.1.length == v.2.length))]) s

/-- A combination of the counted lanes' values, with its flags (R217). -/
def reduxVal (op : ReduxOp) (xs : List (Nat × Word)) : Word × FFlags :=
  let vals := xs.map (·.2)
  match op with
  | .addS => (vals.foldl (· + ·) 0#32, fNone)
  | .minS => (vals.foldl minS 0x7FFFFFFF#32, fNone)
  | .maxS => (vals.foldl maxS 0x80000000#32, fNone)
  | .minZ => (vals.foldl minZ 0xFFFFFFFF#32, fNone)
  | .maxZ => (vals.foldl maxZ 0#32, fNone)
  | .and => (vals.foldl (· &&& ·) 0xFFFFFFFF#32, fNone)
  | .or => (vals.foldl (· ||| ·) 0#32, fNone)
  | .xor => (vals.foldl (· ^^^ ·) 0#32, fNone)
  | .fadd =>
    let r := reduxTree 5 ((List.range 32).map fun L => (xs.find? fun x => x.1 == L).map fun x => x.2.toNat) fNone
    (BitVec.ofNat 32 (r.1.getD 0), r.2)
  | .fmin => reduxMinMax false vals
  | .fmax => reduxMinMax true vals
where
  /-- fmin and fmax over all counted lanes: the canonical NaN when every lane holds a NaN, io for a signalling one. -/
  reduxMinMax (wantMax : Bool) (vals : List Word) : Word × FFlags :=
    match vals with
    | [] => (BitVec.ofNat 32 (Fmt.f32.sign wantMax + Fmt.f32.inf), fNone)
    | x :: r =>
      let t := r.foldl (fun (acc : Nat × FFlags) y =>
        let q := fminmax .f32 .rne wantMax acc.1 y.toNat
        (q.1, acc.2 ||| q.2)) (x.toNat, fIf (unpack .f32 x.toNat).sig fIo)
      (BitVec.ofNat 32 (if (unpack .f32 t.1).isNan then Fmt.f32.nan else t.1), t.2)

/-- R217: memo-eligible, its uniform result written once (R194). -/
def execRedux (op : ReduxOp) (d : KReg) (a : VReg) (st : Stall) (s : State) : Res :=
  issueWith { vsrc := [(a, 1)] } st noCause isReady
    (fun s i =>
      let b := s.blk i.c.blk
      let G := b.grp i.c.grp
      let u : Uses := { vsrc := [(a, 1)] }
      let args := readArgs b.A i.now G i u
      let r := reduxVal op ((G.counted i.lanes).map fun L => (L, arg (args L) 0))
      let m := if memoRun G u i.lanes
        then memoLookup s i.c (pureKey { uses := u, lat := 8 } i.c G args i.lanes) true else (none, s)
      { s := m.2, writes := kWrite G d r.1, flags := r.2, lat := .fixed (if m.1.isSome then 1 else 8) }) s

end Sys2Proof.Machine
end

