-- ==== Sys2Proof/Decode.lean ====
section
/-! DEFINITION. Decoding of instruction words with their literal words, and the encoder (R54-R76 and each instruction's own
encoding table). Decoding is total: a word is an instruction, or raises ILLEGAL, or raises RESERVED_FIELD (R73), in the
order of R74. -/

namespace Sys2Proof

/-! ## Fields of a word -/

/-- OP, word [31:25] (R54). -/
def opOf (w : Word) : BitVec 7 := w.extractLsb' 25 7
/-- D, word [24:18] (R54). -/
def dOf (w : Word) : BitVec 7 := w.extractLsb' 18 7
/-- A, word [17:11] (R54). -/
def aOf (w : Word) : BitVec 7 := w.extractLsb' 11 7
/-- B, word [10:4] (R54). -/
def bOf (w : Word) : BitVec 7 := w.extractLsb' 4 7
/-- S, word [3:0] (R54). -/
def sOf (w : Word) : Stall := w.extractLsb' 0 4
/-- IMM14, word [17:4] (R57). -/
def immOf (w : Word) : BitVec 14 := w.extractLsb' 4 14

/-- An instruction word from its fields (R54). -/
def mkWord (op d a b : BitVec 7) (s : Stall) : Word := op ++ d ++ a ++ b ++ s

/-- A W-form word (R57). -/
def mkWordW (op d : BitVec 7) (imm : BitVec 14) (s : Stall) : Word := op ++ d ++ imm ++ s

/-- A C-form D field: condition and predicate number (R57). -/
def mkCp (c : BitVec 3) (p : BitVec 4) : BitVec 7 := c ++ p

/-- The low and high 7 bits of IMM14 as the A and B fields. -/
def immHi (i : BitVec 14) : BitVec 7 := i.extractLsb' 7 7

/-! ## Enumerated fields -/

/-- Width codes (R67). -/
def Width.ofCode (c : BitVec 3) : Option Width :=
  match c.toNat with
  | 0 => some .b8 | 1 => some .b16 | 2 => some .b32 | 3 => some .b64 | 4 => some .b128 | _ => none

def Width.code : Width → BitVec 3
  | .b8 => 0 | .b16 => 1 | .b32 => 2 | .b64 => 3 | .b128 => 4

/-- Scope numbers (R321). -/
def Scope.ofCode (c : BitVec 3) : Option Scope :=
  match c.toNat with
  | 1 => some .grp | 2 => some .blk | 3 => some .team | 4 => some .dev | 5 => some .dom | 6 => some .sys | _ => none

def Scope.code : Scope → BitVec 3
  | .grp => 1 | .blk => 2 | .team => 3 | .dev => 4 | .dom => 5 | .sys => 6

/-- Order-and-scope codes: 0 plain, 1-6 ordered at that scope, 7 illegal (R67). -/
def ordOfCode (c : BitVec 3) : Option (Option Scope) :=
  if c = 0#3 then some none else (Scope.ofCode c).map some

def ordCode : Option Scope → BitVec 3
  | none => 0
  | some sc => sc.code

/-- Condition codes (R63). -/
def Cond.ofCode (c : BitVec 3) : Option Cond :=
  match c.toNat with
  | 0 => some .eq | 1 => some .ne | 2 => some .lt | 3 => some .le | 4 => some .gt | 5 => some .ge | 6 => some .un
  | _ => none

def Cond.code : Cond → BitVec 3
  | .eq => 0 | .ne => 1 | .lt => 2 | .le => 3 | .gt => 4 | .ge => 5 | .un => 6

/-- Selectors: [6] negate, [5] uniform, [4] always, [3:0] number (R62). -/
def Sel.ofCode (c : BitVec 7) : Option Sel :=
  let neg := c.getLsbD 6
  if c.getLsbD 4 then (if c = 0x10#7 then some .always else none)
  else if c.getLsbD 5 then (if c.extractLsb' 2 2 = 0#2 then some (.uni neg (c.extractLsb' 0 2)) else none)
  else some (.lane neg (c.extractLsb' 0 4))

def Sel.code : Sel → BitVec 7
  | .always => 0x10#7
  | .lane neg p => BitVec.ofBool neg ++ 0#2 ++ p
  | .uni neg p => BitVec.ofBool neg ++ 0b10#2 ++ 0#2 ++ p

def ShiftKind.ofCode (c : BitVec 2) : ShiftKind :=
  match c.toNat with
  | 0 => .shl | 1 => .shr | 2 => .sra | _ => .rot

def ShiftKind.code : ShiftKind → BitVec 2
  | .shl => 0 | .shr => 1 | .sra => 2 | .rot => 3

def IunFn.ofCode (c : BitVec 7) : Option IunFn :=
  match c.toNat with
  | 0 => some .popc | 1 => some .clz | 2 => some .brev | 3 => some .iabs | 4 => some .ineg | 5 => some .not
  | 6 => some .sext8 | 7 => some .sext16 | 8 => some .zext8 | 9 => some .zext16 | 10 => some .bswap | _ => none

def IunFn.code : IunFn → BitVec 7
  | .popc => 0 | .clz => 1 | .brev => 2 | .iabs => 3 | .ineg => 4 | .not => 5 | .sext8 => 6 | .sext16 => 7
  | .zext8 => 8 | .zext16 => 9 | .bswap => 10

def FunFn.ofCode (c : BitVec 7) : Option FunFn :=
  match c.toNat with
  | 0 => some .abs | 1 => some .neg | 2 => some .rcp | 3 => some .rsq | 4 => some .sqrt | 5 => some .exp2
  | 6 => some .log2 | 7 => some .sinpi | 8 => some .cospi | 9 => some .floor | 10 => some .ceil | 11 => some .trunc
  | 12 => some .rint | _ => none

def FunFn.code : FunFn → BitVec 7
  | .abs => 0 | .neg => 1 | .rcp => 2 | .rsq => 3 | .sqrt => 4 | .exp2 => 5 | .log2 => 6 | .sinpi => 7 | .cospi => 8
  | .floor => 9 | .ceil => 10 | .trunc => 11 | .rint => 12

/-- Conversion kinds, FN[6:2] (R42); 0x10 and above are unassigned (R44). -/
def CvtKind.ofCode (c : BitVec 5) : Option CvtKind :=
  match c.toNat with
  | 0 => some .f32s32 | 1 => some .f32z32 | 2 => some .s32f32 | 3 => some .z32f32 | 4 => some .f32f16lo
  | 5 => some .f32f16hi | 6 => some .f32bf16lo | 7 => some .f32bf16hi | 8 => some .f16x2f32 | 9 => some .bf16x2f32
  | 10 => some .f64f32 | 11 => some .f32f64 | 12 => some .f64s32 | 13 => some .f64z32 | 14 => some .s32f64
  | 15 => some .z32f64 | _ => none

def CvtKind.code : CvtKind → BitVec 5
  | .f32s32 => 0 | .f32z32 => 1 | .s32f32 => 2 | .z32f32 => 3 | .f32f16lo => 4 | .f32f16hi => 5 | .f32bf16lo => 6
  | .f32bf16hi => 7 | .f16x2f32 => 8 | .bf16x2f32 => 9 | .f64f32 => 10 | .f32f64 => 11 | .f64s32 => 12
  | .f64z32 => 13 | .s32f64 => 14 | .z32f64 => 15

def Rm.ofCode (c : BitVec 2) : Rm :=
  match c.toNat with
  | 0 => .rn | 1 => .rz | 2 => .ru | _ => .rd

def Rm.code : Rm → BitVec 2
  | .rn => 0 | .rz => 1 | .ru => 2 | .rd => 3

def QxFn.ofCode (c : BitVec 7) : Option QxFn :=
  match c.toNat with
  | 0 => some .h | 1 => some .v | 2 => some .d | 4 => some (.bc 0) | 5 => some (.bc 1) | 6 => some (.bc 2)
  | 7 => some (.bc 3) | _ => none

def QxFn.code : QxFn → BitVec 7
  | .h => 0 | .v => 1 | .d => 2 | .bc n => 0b00001#5 ++ n

def ReduxOp.ofCode (c : BitVec 7) : Option ReduxOp :=
  match c.toNat with
  | 0 => some .addS | 1 => some .minS | 2 => some .maxS | 3 => some .minZ | 4 => some .maxZ | 5 => some .and
  | 6 => some .or | 7 => some .xor | 8 => some .fadd | 9 => some .fmin | 10 => some .fmax | _ => none

def ReduxOp.code : ReduxOp → BitVec 7
  | .addS => 0 | .minS => 1 | .maxS => 2 | .minZ => 3 | .maxZ => 4 | .and => 5 | .or => 6 | .xor => 7 | .fadd => 8
  | .fmin => 9 | .fmax => 10

def SreadFn.ofCode (c : BitVec 7) : Option SreadFn :=
  match c.toNat with
  | 0 => some .tick | 1 => some .ctxid | 2 => some .core | 3 => some .slot | 4 => some .group | 5 => some .role
  | 6 => some .teamsz | 7 => some .blockid | 8 => some .lanes | 9 => some .runmask | 10 => some .present
  | 11 => some .frame | 12 => some .join | 13 => some .wbase | 14 => some .ubase | 15 => some .island | _ => none

def SreadFn.code : SreadFn → BitVec 7
  | .tick => 0 | .ctxid => 1 | .core => 2 | .slot => 3 | .group => 4 | .role => 5 | .teamsz => 6 | .blockid => 7
  | .lanes => 8 | .runmask => 9 | .present => 10 | .frame => 11 | .join => 12 | .wbase => 13 | .ubase => 14
  | .island => 15

def AtomOp.ofCode (c : BitVec 4) : Option AtomOp :=
  match c.toNat with
  | 0 => some .add | 1 => some .min | 2 => some .max | 3 => some .and | 4 => some .or | 5 => some .xor
  | 6 => some .xchg | 7 => some .cas | 8 => some .fadd | 9 => some .fmin | 10 => some .fmax | _ => none

def AtomOp.code : AtomOp → BitVec 4
  | .add => 0 | .min => 1 | .max => 2 | .and => 3 | .or => 4 | .xor => 5 | .xchg => 6 | .cas => 7 | .fadd => 8
  | .fmin => 9 | .fmax => 10

def AtomTy.ofCode (c : BitVec 3) : Option AtomTy :=
  match c.toNat with
  | 0 => some .s32 | 1 => some .z32 | 2 => some .s64 | 3 => some .z64 | 4 => some .f32 | 5 => some .f16x2
  | 6 => some .bf16x2 | _ => none

def AtomTy.code : AtomTy → BitVec 3
  | .s32 => 0 | .z32 => 1 | .s64 => 2 | .z64 => 3 | .f32 => 4 | .f16x2 => 5 | .bf16x2 => 6

def AtomUse.ofCode (c : BitVec 3) : Option AtomUse :=
  match c.toNat with
  | 0 => some .un | 1 => some .cm | 2 => some .no | 3 => some .qt | 4 => some .sp | _ => none

def AtomUse.code : AtomUse → BitVec 3
  | .un => 0 | .cm => 1 | .no => 2 | .qt => 3 | .sp => 4

def AtomOrd.ofCode (c : BitVec 2) : AtomOrd :=
  match c.toNat with
  | 0 => .relaxed | 1 => .acq | 2 => .rel | _ => .acqrel

def AtomOrd.code : AtomOrd → BitVec 2
  | .relaxed => 0 | .acq => 1 | .rel => 2 | .acqrel => 3

/-- The atomic's literal word (R243). -/
def AtomSpec.ofWord (l : Word) : Option AtomSpec :=
  match AtomOp.ofCode (l.extractLsb' 28 4), AtomTy.ofCode (l.extractLsb' 25 3), AtomUse.ofCode (l.extractLsb' 22 3),
    Scope.ofCode (l.extractLsb' 17 3) with
  | some op, some ty, some use, some sc => some ⟨op, ty, use, AtomOrd.ofCode (l.extractLsb' 20 2), sc, l.getLsbD 16⟩
  | _, _, _, _ => none

def AtomSpec.word (a : AtomSpec) : Word :=
  a.op.code ++ a.ty.code ++ a.use.code ++ a.ord.code ++ a.scope.code ++ BitVec.ofBool a.noret ++ 0#16

def FenceKind.ofCode (c : BitVec 3) : Option FenceKind :=
  match c.toNat with
  | 0 => some .acq | 1 => some .rel | 2 => some .acqrel | 3 => some .sc | _ => none

def FenceKind.code : FenceKind → BitVec 3
  | .acq => 0 | .rel => 1 | .acqrel => 2 | .sc => 3

/-- A fence's FN: kind × 16 + scope; FN[3] = 1, kinds 4-7 and scopes 0 and 7 are unassigned (R70). -/
def fenceOfFn (fn : BitVec 7) : Option (FenceKind × Scope) :=
  if fn.getLsbD 3 then none
  else match FenceKind.ofCode (fn.extractLsb' 4 3), Scope.ofCode (fn.extractLsb' 0 3) with
    | some k, some sc => some (k, sc)
    | _, _ => none

def fenceFn (k : FenceKind) (sc : Scope) : BitVec 7 := k.code ++ 0#1 ++ sc.code

def RedTy.ofCode (c : BitVec 2) : Option RedTy :=
  match c.toNat with
  | 0 => some .f32 | 1 => some .bf16 | 2 => some .s32 | _ => none

def RedTy.code : RedTy → BitVec 2
  | .f32 => 0 | .bf16 => 1 | .s32 => 2

def MatFmt.ofCode (c : BitVec 3) : Option MatFmt :=
  match c.toNat with
  | 0 => some .bf16 | 1 => some .f16 | 2 => some .m8 | 3 => some .s8 | 4 => some .z8 | _ => none

def MatFmt.code : MatFmt → BitVec 3
  | .bf16 => 0 | .f16 => 1 | .m8 => 2 | .s8 => 3 | .z8 => 4

def AccFmt.ofCode (c : BitVec 2) : Option AccFmt :=
  match c.toNat with
  | 0 => some .f32 | 1 => some .bf16 | 2 => some .f16 | _ => none

def AccFmt.code : AccFmt → BitVec 2
  | .f32 => 0 | .bf16 => 1 | .f16 => 2

/-! ## Literal words of copies, passes and accumulator transfers -/

/-- Release scope codes of cp.st and cp.red: 0 none, 7 illegal (R292, R296). -/
def countOf (l : Word) : Count :=
  if l.getLsbD 1 then .reg (l.extractLsb' 2 7) else .imm (l.extractLsb' 12 20)

/-- The zero fields of literal 1 of cp.ld, cp.st and cp.red (R292, R296). -/
def countZeros (l : Word) : Bool :=
  !l.getLsbD 0 && (if l.getLsbD 1 then l.extractLsb' 12 20 == 0#20 else l.extractLsb' 2 7 == 0#7)

def Count.word (n : Count) (tok : BitVec 3) : Word :=
  match n with
  | .imm n => n ++ tok ++ 0#7 ++ 0#1 ++ 0#1
  | .reg k => 0#20 ++ tok ++ k ++ 1#1 ++ 0#1

def rowsOf (l1 l3 : Word) : RowCount :=
  if l3.getLsbD 15 then .reg (l3.extractLsb' 5 7) else .imm (l1.extractLsb' 16 16)

def rowsZeros (l1 l3 : Word) : Bool :=
  if l3.getLsbD 15 then l1.extractLsb' 16 16 == 0#16 else l3.extractLsb' 5 7 == 0#7

def RowCount.lit1 : RowCount → BitVec 16
  | .imm n => n
  | .reg _ => 0

def RowCount.lit3 (mbar : BitVec 16) : RowCount → Word
  | .imm _ => mbar ++ 0#1 ++ 0#3 ++ 0#7 ++ 0#5
  | .reg k => mbar ++ 1#1 ++ 0#3 ++ k ++ 0#5

/-- Words 1 and 2 of a pass (R265). -/
def matOperandOf (l : Word) : Option MatOperand :=
  match MatFmt.ofCode (l.extractLsb' 15 3) with
  | some f =>
    if l.getLsbD 14 then none else some ⟨l.extractLsb' 25 7, l.extractLsb' 18 7, f, l.getLsbD 13⟩
  | none => none

def MatOperand.word (o : MatOperand) : Word :=
  o.base ++ o.stride ++ o.fmt.code ++ 0#1 ++ BitVec.ofBool o.blk ++ 0#13

def mmaOf (l1 l2 l3 l4 : Word) : Option MmaSpec :=
  match matOperandOf l1, matOperandOf l2 with
  | some a, some b =>
    some ⟨a, b, (if l3.getLsbD 2 then .reg (l4.extractLsb' 8 7) else .imm (l3.extractLsb' 19 13)),
      l3.extractLsb' 12 7, l3.extractLsb' 5 7, l3.extractLsb' 3 2, l4.extractLsb' 23 9, l4.getLsbD 22, l4.extractLsb' 19 3⟩
  | _, _ => none

/-- The zero fields of a pass (R265, R268). -/
def mmaZeros (l1 l2 l3 l4 : Word) : Bool :=
  l1.extractLsb' 0 13 == 0#13 && l2.extractLsb' 0 13 == 0#13 && l3.extractLsb' 0 2 == 0#2
    && (if l3.getLsbD 2 then l3.extractLsb' 19 13 == 0#13 else l4.extractLsb' 8 7 == 0#7)
    && l4.extractLsb' 15 4 == 0#4 && l4.extractLsb' 0 8 == 0#8

def MmaSpec.word3 (m : MmaSpec) : Word :=
  match m.depth with
  | .imm k => k ++ m.sa ++ m.sb ++ m.bsel ++ 0#1 ++ 0#2
  | .reg _ => 0#13 ++ m.sa ++ m.sb ++ m.bsel ++ 1#1 ++ 0#2

def MmaSpec.word4 (m : MmaSpec) : Word :=
  match m.depth with
  | .imm _ => m.row ++ BitVec.ofBool m.ow ++ m.tok ++ 0#4 ++ 0#7 ++ 0#8
  | .reg k => m.row ++ BitVec.ofBool m.ow ++ m.tok ++ 0#4 ++ k ++ 0#8

/-- The literal of acc.ld and acc.st (R269). -/
def accOf (l : Word) : Option AccSpec :=
  match AccFmt.ofCode (l.extractLsb' 10 2) with
  | some f => some ⟨l.extractLsb' 23 9, l.extractLsb' 16 7, l.extractLsb' 13 3, l.getLsbD 12, f⟩
  | none => none

def AccSpec.word (c : AccSpec) (low : BitVec 10) : Word :=
  c.first ++ c.rows ++ c.tok ++ BitVec.ofBool c.blk ++ c.fmt.code ++ low

/-! ## Decoding -/

/-- Why a word is no instruction, with the words that the trap frame records (R74). -/
inductive Bad where
  /-- ILLEGAL (R73): the word raises the trap; safe, it is the spec's own outcome. -/
  | illegal (words : Nat)
  /-- RESERVED_FIELD (R73): the word raises the trap; safe, it is the spec's own outcome. -/
  | reserved (words : Nat)
  deriving DecidableEq, Repr

/-- What parsing finds: the instruction whose enumerated fields are assigned values, and whether every zero field is zero. -/
structure Parsed where
  instr : Option Instr
  zeros : Bool
  deriving DecidableEq, Repr

def Parsed.some (i : Instr) (zeros : Bool := true) : Parsed := ⟨.some i, zeros⟩
def Parsed.opt (i : Option Instr) (zeros : Bool := true) : Parsed := ⟨i, zeros⟩

/-- The literal words of an opcode and FN (R55, R69, R71); none where the opcode or the FN is unassigned (causes 1 and 2 of R74). -/
def litCount (w : Word) : Option Nat :=
  let fn := (bOf w).toNat
  match (opOf w).toNat with
  | 0x04 => if fn ≤ 0x0C then some 0 else none
  | 0x07 | 0x08 | 0x0B | 0x0C | 0x78 | 0x79 | 0x7A => some 1
  | 0x09 => if fn ≤ 5 then some 0 else none
  | 0x0A => if fn ≤ 15 then some 0 else none
  | 0x0E | 0x0F | 0x2B | 0x2C | 0x2D | 0x2E | 0x2F | 0x55 | 0x56 | 0x57 | 0x5F | 0x6D | 0x6E | 0x6F => none
  | 0x28 | 0x5E => if fn ≤ 0x0A then some 0 else none
  | 0x37 | 0x3F | 0x47 | 0x4F => if fn ≤ 0x0C then some 0 else none
  | 0x50 => if fn < 0x40 then some 0 else none
  | 0x53 | 0x5D => if fn ≤ 3 then some 0 else none
  | 0x5C => if fn ≤ 7 ∧ fn ≠ 3 then some 0 else none
  | 0x7B => if (fenceOfFn (bOf w)).isSome then some 0 else none
  | 0x7C => if fn ≤ 5 then some 0 else none
  | 0x7D => if fn ≤ 1 ∨ fn = 3 then some 2 else if fn = 2 then some 3 else if fn = 4 then some 1
            else if fn ≤ 6 then some 0 else none
  | 0x7E => if fn ≤ 1 then some 4 else if fn ≤ 4 then some 1 else if fn = 5 then some 2
            else if fn ≤ 7 then some 0 else none
  | 0x7F => if fn ≤ 0x06 ∨ (0x10 ≤ fn ∧ fn ≤ 0x14) ∨ (0x20 ≤ fn ∧ fn ≤ 0x26) ∨ fn = 0x30 ∨ fn = 0x40 then some 0 else none
  | _ => some 0

/-- ctl, OP 0x04 (R70, R143, R156, R159, R160, R184). -/
def parseCtl (w : Word) : Parsed :=
  let d := dOf w; let a := aOf w; let s := sOf w
  let dz := d == 0#7; let az := a == 0#7
  match (bOf w).toNat with
  | 0x00 => .some (.jmp a s) dz
  | 0x01 => .some (.ret s) (dz && az)
  | 0x02 => .some (.callr d a s)
  | 0x03 => .some (.meet s) (dz && az)
  | 0x04 => .some (.exit s) (dz && az)
  | 0x05 => .some (.yield s) (dz && az)
  | 0x06 => .some (.brk s) (dz && az)
  | 0x07 => .some (.trap d s) az
  | 0x08 => .some (.region s) (dz && az)
  | 0x09 => .some (.drainst s) (dz && az)
  | 0x0A => .some (.chkerr d s) az
  | 0x0B => .some (.rett s) (dz && az)
  | _ => .some (.exitGrp s) (dz && az)

/-- mov, OP 0x09 (R218). -/
def parseMov (w : Word) : Parsed :=
  let d := dOf w; let a := aOf w; let s := sOf w
  match (bOf w).toNat with
  | 0 => .some (.mov d a s)
  | 1 => .some (.movBroadcast d a s)
  | 2 => .some (.movToUniform d a s)
  | 3 => .some (.movPv d s) (a == 0#7)
  | 4 => .some (.movVp a s) (d == 0#7)
  | _ => .some (.movKp d a s)

/-- Opcodes 0x00-0x0F (R69). -/
def parse0 (w l1 : Word) : Parsed :=
  let d := dOf w; let a := aOf w; let b := bOf w; let s := sOf w
  let dz := d == 0#7; let az := a == 0#7; let bz := b == 0#7
  match (opOf w).toNat with
  | 0x00 => .some (.nop s) (dz && az && bz)
  | 0x01 => .opt ((Sel.ofCode d).map fun sel => .guard sel (b.extractLsb' 0 4) s) (az && b.extractLsb' 4 3 == 0#3)
  | 0x02 => .opt ((Sel.ofCode d).map fun sel => .bra sel (immOf w) s)
  | 0x03 => .some (.call d (immOf w) s)
  | 0x04 => parseCtl w
  | 0x05 => .some (.win b s) (dz && az)
  | 0x06 => .some (.wink b s) (dz && az)
  | 0x07 => .some (.lit d l1 s) (az && bz)
  | 0x08 => .some (.klit d l1 s) (az && bz)
  | 0x09 => parseMov w
  | 0x0A => .opt ((SreadFn.ofCode b).map fun f => .sread f d s) az
  | 0x0B => .some (.csrr d (l1.extractLsb' 0 16) s) (az && bz && l1.extractLsb' 16 16 == 0#16)
  | 0x0C => .some (.csrw (l1.extractLsb' 0 16) a s) (dz && bz && l1.extractLsb' 16 16 == 0#16)
  | 0x0D => .some (.waitt (w.extractLsb' 4 8) s) (dz && w.extractLsb' 12 6 == 0#6)
  | _ => .opt none

/-- Opcodes 0x10-0x2A (R195-R201). -/
def parseInt (w : Word) : Parsed :=
  let d := dOf w; let a := aOf w; let b := bOf w; let s := sOf w
  match (opOf w).toNat with
  | 0x10 => .some (.iadd d a b s)
  | 0x11 => .some (.isub d a b s)
  | 0x12 => .some (.imul d a b s)
  | 0x13 => .some (.imulhS d a b s)
  | 0x14 => .some (.imulhZ d a b s)
  | 0x15 => .some (.imad d a b s)
  | 0x16 => .some (.and d a b s)
  | 0x17 => .some (.or d a b s)
  | 0x18 => .some (.xor d a b s)
  | 0x19 => .some (.andn d a b s)
  | 0x1A => .some (.shl d a b s)
  | 0x1B => .some (.shr d a b s)
  | 0x1C => .some (.sra d a b s)
  | 0x1D => .some (.iminS d a b s)
  | 0x1E => .some (.iminZ d a b s)
  | 0x1F => .some (.imaxS d a b s)
  | 0x20 => .some (.imaxZ d a b s)
  | 0x21 => .some (.iaddi d a b s)
  | 0x22 => .some (.shfi (ShiftKind.ofCode (b.extractLsb' 5 2)) d a (b.extractLsb' 0 5) s)
  | 0x23 => .some (.andi d a b s)
  | 0x24 => .some (.iadd64 d a b s)
  | 0x25 => .some (.lea d a b s)
  | 0x26 => .opt ((Cond.ofCode (d.extractLsb' 4 3)).map fun c => .icmpS c (d.extractLsb' 0 4) a b s)
  | 0x27 => .opt ((Cond.ofCode (d.extractLsb' 4 3)).map fun c => .icmpZ c (d.extractLsb' 0 4) a b s)
  | 0x28 => .opt ((IunFn.ofCode b).map fun f => .iun f d a s)
  | 0x29 => .some (.bfe d a b s)
  | 0x2A => .some (.bfi d a b s)
  | _ => .opt none

/-- Opcodes 0x30-0x4F (R203). -/
def parseFp (w : Word) : Parsed :=
  let d := dOf w; let a := aOf w; let b := bOf w; let s := sOf w
  let c := Cond.ofCode (d.extractLsb' 4 3); let p := d.extractLsb' 0 4
  match (opOf w).toNat with
  | 0x30 => .some (.faddF32 d a b s)
  | 0x31 => .some (.fsubF32 d a b s)
  | 0x32 => .some (.fmulF32 d a b s)
  | 0x33 => .some (.ffmaF32 d a b s)
  | 0x34 => .some (.fminF32 d a b s)
  | 0x35 => .some (.fmaxF32 d a b s)
  | 0x36 => .opt (c.map fun c => .fcmpF32 c p a b s)
  | 0x37 => .opt ((FunFn.ofCode b).map fun f => .funF32 f d a s)
  | 0x38 => .some (.faddF16x2 d a b s)
  | 0x39 => .some (.fsubF16x2 d a b s)
  | 0x3A => .some (.fmulF16x2 d a b s)
  | 0x3B => .some (.ffmaF16x2 d a b s)
  | 0x3C => .some (.fminF16x2 d a b s)
  | 0x3D => .some (.fmaxF16x2 d a b s)
  | 0x3E => .opt (c.map fun c => .fcmpF16x2 c p a b s)
  | 0x3F => .opt ((FunFn.ofCode b).map fun f => .funF16x2 f d a s)
  | 0x40 => .some (.faddBf16x2 d a b s)
  | 0x41 => .some (.fsubBf16x2 d a b s)
  | 0x42 => .some (.fmulBf16x2 d a b s)
  | 0x43 => .some (.ffmaBf16x2 d a b s)
  | 0x44 => .some (.fminBf16x2 d a b s)
  | 0x45 => .some (.fmaxBf16x2 d a b s)
  | 0x46 => .opt (c.map fun c => .fcmpBf16x2 c p a b s)
  | 0x47 => .opt ((FunFn.ofCode b).map fun f => .funBf16x2 f d a s)
  | 0x48 => .some (.faddF64 d a b s)
  | 0x49 => .some (.fsubF64 d a b s)
  | 0x4A => .some (.fmulF64 d a b s)
  | 0x4B => .some (.ffmaF64 d a b s)
  | 0x4C => .some (.fminF64 d a b s)
  | 0x4D => .some (.fmaxF64 d a b s)
  | 0x4E => .opt (c.map fun c => .fcmpF64 c p a b s)
  | 0x4F => .opt ((FunFn.ofCode b).map fun f => .funF64 f d a s)
  | _ => .opt none

/-- An unsigned B of 0-31 (R214). -/
def lane5 (b : BitVec 7) : Option (BitVec 5) := if b.toNat < 32 then some (b.extractLsb' 0 5) else none

/-- Opcodes 0x50-0x5E (R42, R210-R217). -/
def parseX (w : Word) : Parsed :=
  let d := dOf w; let a := aOf w; let b := bOf w; let s := sOf w
  match (opOf w).toNat with
  | 0x50 => .opt ((CvtKind.ofCode (b.extractLsb' 2 5)).map fun k => .cvt k (Rm.ofCode (b.extractLsb' 0 2)) d a s)
  | 0x51 => .some (.pkM8Rn d a b s)
  | 0x52 => .some (.pkM8Rz d a b s)
  | 0x53 => .some (.upM8 (b.extractLsb' 0 2) d a s)
  | 0x54 => .some (.vdotM8 d a b s)
  | 0x58 => .some (.shflIdx d a b s)
  | 0x59 => .opt ((lane5 b).map fun n => .shflUp d a n s)
  | 0x5A => .opt ((lane5 b).map fun n => .shflDn d a n s)
  | 0x5B => .opt ((lane5 b).map fun n => .shflXor d a n s)
  | 0x5C => .opt ((QxFn.ofCode b).map fun f => .qx f d a s)
  | 0x5D =>
    let p := a.extractLsb' 0 4; let z := a.extractLsb' 4 3 == 0#3
    match b.toNat with
    | 0 => .some (.voteAny d p s) z
    | 1 => .some (.voteAll d p s) z
    | 2 => .some (.voteBallot d p s) z
    | _ => .some (.voteEq d p s) z
  | 0x5E => .opt ((ReduxOp.ofCode b).map fun o => .redux o d a s)
  | _ => .opt none

/-- Opcodes 0x60-0x6C (R202, R237). -/
def parseK (w : Word) : Parsed :=
  let d := dOf w; let a := aOf w; let b := bOf w; let s := sOf w
  let wd := Width.ofCode (b.extractLsb' 4 3); let od := ordOfCode (b.extractLsb' 0 3)
  match (opOf w).toNat with
  | 0x60 => .some (.kadd d a b s)
  | 0x61 => .some (.ksub d a b s)
  | 0x62 => .some (.kmul d a b s)
  | 0x63 => .some (.kand d a b s)
  | 0x64 => .some (.kor d a b s)
  | 0x65 => .some (.kxor d a b s)
  | 0x66 => .some (.kshfi (ShiftKind.ofCode (b.extractLsb' 5 2)) d a (b.extractLsb' 0 5) s)
  | 0x67 => .some (.kaddi d a b s)
  | 0x68 => .opt ((Cond.ofCode (d.extractLsb' 4 3)).map fun c => .kcmpS c (d.extractLsb' 0 4) a b s)
  | 0x69 => .opt ((Cond.ofCode (d.extractLsb' 4 3)).map fun c => .kcmpZ c (d.extractLsb' 0 4) a b s)
  | 0x6A => .some (.kadd64 d a b s)
  | 0x6B =>
    match wd, od with
    | some wd, some od => .opt (if b.getLsbD 3 then none else some (.kld wd od d a s))
    | _, _ => .opt none
  | 0x6C =>
    match wd, od with
    | some wd, some od => .some (.kst wd (b.getLsbD 3) od d a s)
    | _, _ => .opt none
  | _ => .opt none

/-- Opcodes 0x70-0x7C (R233, R238, R242, R243, R248, R251, R254). -/
def parseMem (w l1 : Word) : Parsed :=
  let d := dOf w; let a := aOf w; let b := bOf w; let s := sOf w
  let wd := Width.ofCode (b.extractLsb' 4 3); let od := ordOfCode (b.extractLsb' 0 3)
  let az := a == 0#7
  match (opOf w).toNat with
  | 0x70 =>
    match wd, od with
    | some wd, some od => .some (.ldG wd (b.getLsbD 3) od d a s)
    | _, _ => .opt none
  | 0x71 =>
    match wd, od with
    | some wd, some od => .some (.stG wd (b.getLsbD 3) od d a s)
    | _, _ => .opt none
  | 0x72 => .some (.ldxG d a b s)
  | 0x73 => .some (.stxG d a b s)
  | 0x74 => .opt (wd.map fun wd => .ldS wd (b.getLsbD 3) (b.getLsbD 2) d a s) (b.extractLsb' 0 2 == 0#2)
  | 0x75 => .opt (if b.getLsbD 2 then none else wd.map fun wd => .stS wd (b.getLsbD 3) d a s) (b.extractLsb' 0 2 == 0#2)
  | 0x76 => .opt (wd.map fun wd => .ldL wd d a s) (b.extractLsb' 0 4 == 0#4)
  | 0x77 => .opt (wd.map fun wd => .stL wd d a s) (b.extractLsb' 0 4 == 0#4)
  | 0x78 =>
    match AtomSpec.ofWord l1 with
    | some sp => .some (.atomG sp (if sp.noret then 0#7 else d) a b s)
                   ((!sp.noret || d == 0#7) && l1.extractLsb' 0 16 == 0#16)
    | none => .opt none
  | 0x79 =>
    match AtomSpec.ofWord l1 with
    | some sp => .some (.atomS sp (if sp.noret then 0#7 else d) a b s)
                   ((!sp.noret || d == 0#7) && l1.extractLsb' 0 16 == 0#16)
    | none => .opt none
  | 0x7A => .opt (wd.map fun wd => .ldAsof wd (l1.extractLsb' 25 7) (l1.getLsbD 24) (l1.extractLsb' 20 4) d a s)
              (b.extractLsb' 0 4 == 0#4 && l1.extractLsb' 0 20 == 0#20)
  | 0x7B => .opt ((fenceOfFn b).map fun f => .fence f.1 f.2 s) (d == 0#7 && az)
  | 0x7C =>
    match b.toNat with
    | 0 => .some (.stamp d s) az
    | 1 => .some (.settled d s) az
    | 2 => .some (.dusk d s) az
    | 3 => .some (.hpin d a s)
    | 4 => .some (.hunpin d a s)
    | _ => .some (.floor d s) az
  | _ => .opt none

/-- cp, OP 0x7D (R292, R297, R300, R303, R304). -/
def parseCp (w l1 l2 l3 : Word) : Parsed :=
  let d := dOf w; let a := aOf w; let s := sOf w
  let dz := d == 0#7
  match (bOf w).toNat with
  | 0 => .some (.cpLd d a (countOf l1) (l1.extractLsb' 9 3) (l2.extractLsb' 16 16) s)
          (countZeros l1 && l2.extractLsb' 0 16 == 0#16)
  | 1 =>
    match ordOfCode (l2.extractLsb' 17 3) with
    | some r => .some (.cpSt d a (countOf l1) (l1.extractLsb' 9 3) r s)
                 (countZeros l1 && l2.extractLsb' 20 12 == 0#12 && l2.extractLsb' 0 17 == 0#17)
    | none => .opt none
  | 2 => .some (.cpTile d a (l2.extractLsb' 9 7) (rowsOf l1 l3) (l1.extractLsb' 0 16) (l2.extractLsb' 16 16)
            (l2.extractLsb' 6 3) (l3.extractLsb' 16 16) s)
          (l2.extractLsb' 0 6 == 0#6 && l3.extractLsb' 12 3 == 0#3 && rowsZeros l1 l3 && l3.extractLsb' 0 5 == 0#5)
  | 3 =>
    match ordOfCode (l2.extractLsb' 17 3), RedTy.ofCode (l2.extractLsb' 30 2) with
    | some r, some ty => .some (.cpRed ty d a (countOf l1) (l1.extractLsb' 9 3) r s)
                 (countZeros l1 && l2.extractLsb' 20 10 == 0#10 && l2.extractLsb' 0 17 == 0#17)
    | _, _ => .opt none
  | 4 => .some (.cpChain (l1.extractLsb' 0 2) a (l1.extractLsb' 2 3) s) (dz && l1.extractLsb' 5 27 == 0#27)
  | 5 => .some (.qfence (a.extractLsb' 0 4) s) (dz && a.extractLsb' 4 3 == 0#3)
  | _ => .some (.cpStat d s) (a == 0#7)

/-- mat, OP 0x7E (R265, R269, R272-R274). -/
def parseMat (w l1 l2 l3 l4 : Word) : Parsed :=
  let d := dOf w; let a := aOf w; let s := sOf w
  let daz := d == 0#7 && a == 0#7
  match (bOf w).toNat with
  | 0 => .opt ((mmaOf l1 l2 l3 l4).map fun m => .mma m s) (daz && mmaZeros l1 l2 l3 l4)
  | 1 => .opt ((mmaOf l1 l2 l3 l4).map fun m => .mmaPair m s) (daz && mmaZeros l1 l2 l3 l4)
  | 2 => .some (.accZero ⟨l1.extractLsb' 23 9, l1.extractLsb' 16 7, l1.extractLsb' 13 3, false, .f32⟩ s)
          (daz && l1.extractLsb' 0 13 == 0#13)
  | 3 => .opt ((accOf l1).map fun c => .accLd c d a s) (l1.extractLsb' 0 10 == 0#10)
  | 4 => .opt ((accOf l1).map fun c => .accSt c d a s) (l1.extractLsb' 0 10 == 0#10)
  | 5 =>
    match AccFmt.ofCode (l1.extractLsb' 10 2) with
    | some f => .some (.accCp ⟨l1.extractLsb' 23 9, l1.extractLsb' 16 7, l1.extractLsb' 13 3, false, f⟩
                  (l1.extractLsb' 6 4) (l2.extractLsb' 16 16) d a s)
                 (!l1.getLsbD 12 && l1.extractLsb' 0 6 == 0#6 && l2.extractLsb' 0 16 == 0#16)
    | none => .opt none
  | 6 => .some (.ofence s) daz
  | _ => .some (.mwait s) daz

/-- sys, OP 0x7F (R70). -/
def parseSys (w : Word) : Parsed :=
  let d := dOf w; let a := aOf w; let s := sOf w
  let dz := d == 0#7; let az := a == 0#7
  match (bOf w).toNat with
  | 0x00 => .some (if a.getLsbD 0 then .barBlkR s else .barBlk s) (dz && a.extractLsb' 1 6 == 0#6)
  | 0x01 => .some (.barTeam s) (dz && az)
  | 0x02 => .some (.mbarInit d a s)
  | 0x03 => .some (.mbarExpect d a s)
  | 0x04 => .some (.mbarArrive d a s)
  | 0x05 => .some (.mbarWait d a s)
  | 0x06 => .some (.mbarTest d a s)
  | 0x10 => .some (.spawn d a s)
  | 0x11 => .some (.jdec d a s)
  | 0x12 => .some (.launch d a s)
  | 0x13 => .some (.qstat d a s)
  | 0x14 => .some (.qinit d a s)
  | 0x20 => .some (.actBegin d a s)
  | 0x21 => .some (.actComp d a s)
  | 0x22 => .some (.actCommit d a s)
  | 0x23 => .some (.actAbandon d a s)
  | 0x24 => .some (.actStat d a s)
  | 0x25 => .some (.actDone a s) dz
  | 0x26 => .some (.actResume d a s)
  | 0x30 => .some (.mark a s) dz
  | _ => .some (.tlbinv d a s)

/-- The word with its literal words l1 … l4, by major opcode (R69). -/
def parse (w l1 l2 l3 l4 : Word) : Parsed :=
  let op := (opOf w).toNat
  if op < 0x10 then parse0 w l1
  else if op < 0x30 then parseInt w
  else if op < 0x50 then parseFp w
  else if op < 0x60 then parseX w
  else if op < 0x70 then parseK w
  else if op < 0x7D then parseMem w l1
  else if op = 0x7D then parseCp w l1 l2 l3
  else if op = 0x7E then parseMat w l1 l2 l3 l4
  else parseSys w

/-- Literal word i of a list; a word that the list does not reach counts as zero. -/
def litAt (lits : List Word) (i : Nat) : Word := lits.getD i 0#32

/-- Decode an instruction word and the literal words that follow it, with the faults in the order of R74. -/
def decode (w : Word) (lits : List Word) : Except Bad Instr :=
  match litCount w with
  | none => .error (.illegal 1)
  | some n =>
    let p := parse w (litAt lits 0) (litAt lits 1) (litAt lits 2) (litAt lits 3)
    match p.instr with
    | none => .error (.illegal (1 + n))
    | some i =>
      if !i.wf then .error (.illegal (1 + n))
      else if !p.zeros then .error (.reserved (1 + n))
      else .ok i

/-- A little-endian word at the front of a list of bytes (R7). -/
def wordOfBytes : List Byte → Option (Word × List Byte)
  | b0 :: b1 :: b2 :: b3 :: rest => some (b3 ++ b2 ++ b1 ++ b0, rest)
  | _ => none

/-- n little-endian words at the front of a list of bytes. -/
def wordsOfBytes : Nat → List Byte → Option (List Word × List Byte)
  | 0, bs => some ([], bs)
  | n + 1, bs =>
    match wordOfBytes bs with
    | none => none
    | some (w, rest) =>
      match wordsOfBytes n rest with
      | none => none
      | some (ws, rest') => some (w :: ws, rest')

/-- Decode from bytes as the hardware stores them (R7, R54): the instruction and the bytes after it. `none` where the bytes
end inside the instruction. -/
def decodeBytes (bs : List Byte) : Option (Except Bad Instr × List Byte) :=
  match wordOfBytes bs with
  | none => none
  | some (w, rest) =>
    match wordsOfBytes ((litCount w).getD 0) rest with
    | none => none
    | some (lits, rest') => some (decode w lits, rest')

/-- The bytes of a word, lowest address first (R7). -/
def bytesOfWord (w : Word) : List Byte :=
  [w.extractLsb' 0 8, w.extractLsb' 8 8, w.extractLsb' 16 8, w.extractLsb' 24 8]

/-- The words of an instruction whose bits are w, numbered as the opcode table numbers them; every bit from nbits up is 0. -/
def tableWords (nbits w : Nat) : List Word :=
  let v := w % 2 ^ nbits
  [BitVec.ofNat 32 v, BitVec.ofNat 32 (v / 2 ^ 32), BitVec.ofNat 32 (v / 2 ^ 64), BitVec.ofNat 32 (v / 2 ^ 96),
    BitVec.ofNat 32 (v / 2 ^ 128)]

/-- The bytes of those words in memory order. -/
def tableBytes (nbits w : Nat) : List Byte := (tableWords nbits w).flatMap bytesOfWord

/-- The instruction that the decoder reads from an instruction of the opcode table. -/
def decodeTableWord (nbits w : Nat) : Option Instr :=
  match decodeBytes (tableBytes nbits w) with
  | some (.ok i, _) => some i
  | _ => none

/-! ## Encoding -/

/-- An R-form word. -/
def encR (op : BitVec 7) (d a b : BitVec 7) (s : Stall) : List Word := [mkWord op d a b s]

/-- MOD of ld.g, st.g, kld and kst (R67). -/
def modG (w : Width) (m : Bool) (o : Option Scope) : BitVec 7 := w.code ++ BitVec.ofBool m ++ ordCode o
/-- MOD of ld.s and st.s (R68). -/
def modS (w : Width) (fe clr : Bool) : BitVec 7 := w.code ++ BitVec.ofBool fe ++ BitVec.ofBool clr ++ 0#2
/-- MOD of ld.l, st.l and ld.asof (R68). -/
def modL (w : Width) : BitVec 7 := w.code ++ 0#4
/-- B of shfi and kshfi (R197). -/
def modShf (k : ShiftKind) (n : BitVec 5) : BitVec 7 := k.code ++ n

/-- The words of a well-formed instruction, from the spec's encoding tables; a step of the device has none. -/
def encode : Instr → List Word
  | .nop s => encR 0x00 0 0 0 s
  | .guard sel n s => encR 0x01 sel.code 0 (0#3 ++ n) s
  | .bra sel off s => [mkWordW 0x02 sel.code off s]
  | .call sh off s => [mkWordW 0x03 sh off s]
  | .jmp a s => encR 0x04 0 a 0x00 s
  | .ret s => encR 0x04 0 0 0x01 s
  | .callr sh a s => encR 0x04 sh a 0x02 s
  | .meet s => encR 0x04 0 0 0x03 s
  | .exit s => encR 0x04 0 0 0x04 s
  | .yield s => encR 0x04 0 0 0x05 s
  | .brk s => encR 0x04 0 0 0x06 s
  | .trap n s => encR 0x04 n 0 0x07 s
  | .region s => encR 0x04 0 0 0x08 s
  | .drainst s => encR 0x04 0 0 0x09 s
  | .chkerr d s => encR 0x04 d 0 0x0A s
  | .rett s => encR 0x04 0 0 0x0B s
  | .exitGrp s => encR 0x04 0 0 0x0C s
  | .win b s => encR 0x05 0 0 b s
  | .wink b s => encR 0x06 0 0 b s
  | .lit d v s => [mkWord 0x07 d 0 0 s, v]
  | .klit d v s => [mkWord 0x08 d 0 0 s, v]
  | .mov d a s => encR 0x09 d a 0 s
  | .movBroadcast d a s => encR 0x09 d a 1 s
  | .movToUniform d a s => encR 0x09 d a 2 s
  | .movPv d s => encR 0x09 d 0 3 s
  | .movVp a s => encR 0x09 0 a 4 s
  | .movKp d a s => encR 0x09 d a 5 s
  | .sread fn d s => encR 0x0A d 0 fn.code s
  | .csrr d c s => [mkWord 0x0B d 0 0 s, 0#16 ++ c]
  | .csrw c a s => [mkWord 0x0C 0 a 0 s, 0#16 ++ c]
  | .waitt m s => [mkWordW 0x0D 0 (0#6 ++ m) s]
  | .iadd d a b s => encR 0x10 d a b s
  | .isub d a b s => encR 0x11 d a b s
  | .imul d a b s => encR 0x12 d a b s
  | .imulhS d a b s => encR 0x13 d a b s
  | .imulhZ d a b s => encR 0x14 d a b s
  | .imad d a b s => encR 0x15 d a b s
  | .and d a b s => encR 0x16 d a b s
  | .or d a b s => encR 0x17 d a b s
  | .xor d a b s => encR 0x18 d a b s
  | .andn d a b s => encR 0x19 d a b s
  | .shl d a b s => encR 0x1A d a b s
  | .shr d a b s => encR 0x1B d a b s
  | .sra d a b s => encR 0x1C d a b s
  | .iminS d a b s => encR 0x1D d a b s
  | .iminZ d a b s => encR 0x1E d a b s
  | .imaxS d a b s => encR 0x1F d a b s
  | .imaxZ d a b s => encR 0x20 d a b s
  | .iaddi d a i s => encR 0x21 d a i s
  | .shfi k d a n s => encR 0x22 d a (modShf k n) s
  | .andi d a i s => encR 0x23 d a i s
  | .iadd64 d a b s => encR 0x24 d a b s
  | .lea d a b s => encR 0x25 d a b s
  | .icmpS c p a b s => encR 0x26 (mkCp c.code p) a b s
  | .icmpZ c p a b s => encR 0x27 (mkCp c.code p) a b s
  | .iun f d a s => encR 0x28 d a f.code s
  | .bfe d a b s => encR 0x29 d a b s
  | .bfi d a b s => encR 0x2A d a b s
  | .faddF32 d a b s => encR 0x30 d a b s
  | .fsubF32 d a b s => encR 0x31 d a b s
  | .fmulF32 d a b s => encR 0x32 d a b s
  | .ffmaF32 d a b s => encR 0x33 d a b s
  | .fminF32 d a b s => encR 0x34 d a b s
  | .fmaxF32 d a b s => encR 0x35 d a b s
  | .fcmpF32 c p a b s => encR 0x36 (mkCp c.code p) a b s
  | .funF32 f d a s => encR 0x37 d a f.code s
  | .faddF16x2 d a b s => encR 0x38 d a b s
  | .fsubF16x2 d a b s => encR 0x39 d a b s
  | .fmulF16x2 d a b s => encR 0x3A d a b s
  | .ffmaF16x2 d a b s => encR 0x3B d a b s
  | .fminF16x2 d a b s => encR 0x3C d a b s
  | .fmaxF16x2 d a b s => encR 0x3D d a b s
  | .fcmpF16x2 c p a b s => encR 0x3E (mkCp c.code p) a b s
  | .funF16x2 f d a s => encR 0x3F d a f.code s
  | .faddBf16x2 d a b s => encR 0x40 d a b s
  | .fsubBf16x2 d a b s => encR 0x41 d a b s
  | .fmulBf16x2 d a b s => encR 0x42 d a b s
  | .ffmaBf16x2 d a b s => encR 0x43 d a b s
  | .fminBf16x2 d a b s => encR 0x44 d a b s
  | .fmaxBf16x2 d a b s => encR 0x45 d a b s
  | .fcmpBf16x2 c p a b s => encR 0x46 (mkCp c.code p) a b s
  | .funBf16x2 f d a s => encR 0x47 d a f.code s
  | .faddF64 d a b s => encR 0x48 d a b s
  | .fsubF64 d a b s => encR 0x49 d a b s
  | .fmulF64 d a b s => encR 0x4A d a b s
  | .ffmaF64 d a b s => encR 0x4B d a b s
  | .fminF64 d a b s => encR 0x4C d a b s
  | .fmaxF64 d a b s => encR 0x4D d a b s
  | .fcmpF64 c p a b s => encR 0x4E (mkCp c.code p) a b s
  | .funF64 f d a s => encR 0x4F d a f.code s
  | .cvt k rm d a s => encR 0x50 d a (k.code ++ rm.code) s
  | .pkM8Rn d a b s => encR 0x51 d a b s
  | .pkM8Rz d a b s => encR 0x52 d a b s
  | .upM8 n d a s => encR 0x53 d a (0#5 ++ n) s
  | .vdotM8 d a b s => encR 0x54 d a b s
  | .shflIdx d a b s => encR 0x58 d a b s
  | .shflUp d a n s => encR 0x59 d a (0#2 ++ n) s
  | .shflDn d a n s => encR 0x5A d a (0#2 ++ n) s
  | .shflXor d a n s => encR 0x5B d a (0#2 ++ n) s
  | .qx f d a s => encR 0x5C d a f.code s
  | .voteAny d p s => encR 0x5D d (0#3 ++ p) 0 s
  | .voteAll d p s => encR 0x5D d (0#3 ++ p) 1 s
  | .voteBallot d p s => encR 0x5D d (0#3 ++ p) 2 s
  | .voteEq d p s => encR 0x5D d (0#3 ++ p) 3 s
  | .redux o d a s => encR 0x5E d a o.code s
  | .kadd d a b s => encR 0x60 d a b s
  | .ksub d a b s => encR 0x61 d a b s
  | .kmul d a b s => encR 0x62 d a b s
  | .kand d a b s => encR 0x63 d a b s
  | .kor d a b s => encR 0x64 d a b s
  | .kxor d a b s => encR 0x65 d a b s
  | .kshfi k d a n s => encR 0x66 d a (modShf k n) s
  | .kaddi d a i s => encR 0x67 d a i s
  | .kcmpS c p a b s => encR 0x68 (mkCp c.code p) a b s
  | .kcmpZ c p a b s => encR 0x69 (mkCp c.code p) a b s
  | .kadd64 d a b s => encR 0x6A d a b s
  | .kld w o d a s => encR 0x6B d a (modG w false o) s
  | .kst w nt o d a s => encR 0x6C d a (modG w nt o) s
  | .ldG w ru o d a s => encR 0x70 d a (modG w ru o) s
  | .stG w nt o d a s => encR 0x71 d a (modG w nt o) s
  | .ldxG d a b s => encR 0x72 d a b s
  | .stxG d a b s => encR 0x73 d a b s
  | .ldS w fe clr d a s => encR 0x74 d a (modS w fe clr) s
  | .stS w fe d a s => encR 0x75 d a (modS w fe false) s
  | .ldL w d a s => encR 0x76 d a (modL w) s
  | .stL w d a s => encR 0x77 d a (modL w) s
  | .atomG sp d a b s => [mkWord 0x78 d a b s, sp.word]
  | .atomS sp d a b s => [mkWord 0x79 d a b s, sp.word]
  | .ldAsof w st nb p d a s => [mkWord 0x7A d a (modL w) s, st ++ BitVec.ofBool nb ++ p ++ 0#20]
  | .fence k sc s => encR 0x7B 0 0 (fenceFn k sc) s
  | .stamp d s => encR 0x7C d 0 0 s
  | .settled d s => encR 0x7C d 0 1 s
  | .dusk d s => encR 0x7C d 0 2 s
  | .hpin d a s => encR 0x7C d a 3 s
  | .hunpin d a s => encR 0x7C d a 4 s
  | .floor d s => encR 0x7C d 0 5 s
  | .cpLd d a n t m s => [mkWord 0x7D d a 0 s, n.word t, m ++ 0#16]
  | .cpSt d a n t r s => [mkWord 0x7D d a 1 s, n.word t, 0#12 ++ ordCode r ++ 0#17]
  | .cpTile d a st rows rb roles t m s =>
      [mkWord 0x7D d a 2 s, rows.lit1 ++ rb, roles ++ st ++ t ++ 0#6, rows.lit3 m]
  | .cpRed ty d a n t r s => [mkWord 0x7D d a 3 s, n.word t, ty.code ++ 0#10 ++ ordCode r ++ 0#17]
  | .cpChain ch a t s => [mkWord 0x7D 0 a 4 s, 0#27 ++ t ++ ch]
  | .qfence m s => encR 0x7D 0 (0#3 ++ m) 5 s
  | .cpStat d s => encR 0x7D d 0 6 s
  | .mma m s => [mkWord 0x7E 0 0 0 s, m.a.word, m.b.word, m.word3, m.word4]
  | .mmaPair m s => [mkWord 0x7E 0 0 1 s, m.a.word, m.b.word, m.word3, m.word4]
  | .accZero c s => [mkWord 0x7E 0 0 2 s, c.first ++ c.rows ++ c.tok ++ 0#13]
  | .accLd c d a s => [mkWord 0x7E d a 3 s, c.word 0#10]
  | .accSt c d a s => [mkWord 0x7E d a 4 s, c.word 0#10]
  | .accCp c role m d a s => [mkWord 0x7E d a 5 s, c.word (role ++ 0#6), m ++ 0#16]
  | .ofence s => encR 0x7E 0 0 6 s
  | .mwait s => encR 0x7E 0 0 7 s
  | .barBlk s => encR 0x7F 0 0 0x00 s
  | .barBlkR s => encR 0x7F 0 1 0x00 s
  | .barTeam s => encR 0x7F 0 0 0x01 s
  | .mbarInit d a s => encR 0x7F d a 0x02 s
  | .mbarExpect d a s => encR 0x7F d a 0x03 s
  | .mbarArrive d a s => encR 0x7F d a 0x04 s
  | .mbarWait d a s => encR 0x7F d a 0x05 s
  | .mbarTest d a s => encR 0x7F d a 0x06 s
  | .spawn d a s => encR 0x7F d a 0x10 s
  | .jdec d a s => encR 0x7F d a 0x11 s
  | .launch d a s => encR 0x7F d a 0x12 s
  | .qstat d a s => encR 0x7F d a 0x13 s
  | .qinit d a s => encR 0x7F d a 0x14 s
  | .actBegin d a s => encR 0x7F d a 0x20 s
  | .actComp d a s => encR 0x7F d a 0x21 s
  | .actCommit d a s => encR 0x7F d a 0x22 s
  | .actAbandon d a s => encR 0x7F d a 0x23 s
  | .actStat d a s => encR 0x7F d a 0x24 s
  | .actDone a s => encR 0x7F 0 a 0x25 s
  | .actResume d a s => encR 0x7F d a 0x26 s
  | .mark a s => encR 0x7F 0 a 0x30 s
  | .tlbinv d a s => encR 0x7F d a 0x40 s
  | _ => []

end Sys2Proof
end

