-- ==== Sys2Proof/Machine/Link.lean ====
section
/-! DEFINITION. Packets and link blocks as bytes; the paths, numbers and ports that packets of the module take (R361, R364-R370). -/

namespace Sys2Proof

open Machine

/-! ## Packets as flits (R366) -/

/-- Bytes filled up with zeros to whole flits. -/
def padFlits (bs : List Byte) : List Byte := bs ++ List.replicate ((32 - bs.length % 32) % 32) 0#8

/-- The fields of a packet are within their widths; its data are 0 to 4 flits. -/
def Packet.held (p : Packet) : Bool :=
  decide (p.kind < 256 ∧ p.vc < 8 ∧ p.path < 4 ∧ p.cls < 4) && decide (p.dst < 128 ∧ p.src < 128 ∧ p.seq < 65536 ∧ p.off < 2 ^ 40)
    && decide (p.tag < 2 ^ 32 ∧ p.ctx < 4096 ∧ p.spec.length = 10) && decide (p.data.length % 32 = 0 ∧ p.data.length ≤ 128)

/-- The header flit; of a packet with a nonzero zero field, bit 7 of byte 2 stands for it (log entry 9). -/
def Packet.header (p : Packet) : List Byte :=
  [BitVec.ofNat 8 p.kind, BitVec.ofNat 8 (p.vc + 8 * p.path + 32 * p.cls + (if p.esc then 128 else 0)),
    BitVec.ofNat 8 (p.dst + (if p.zeros then 0 else 128)), BitVec.ofNat 8 p.src, p.inc, BitVec.ofNat 8 (p.data.length / 32)]
    ++ leBytes 2 p.seq ++ leBytes 8 p.off ++ leBytes 4 p.tag ++ leBytes 2 p.ctx ++ p.spec

/-- The packet of a header flit and data flits. More data flits than 4 are no packet's. -/
def Packet.ofFlits (h data : List Byte) : Packet :=
  let n := fun (i k : Nat) => leNat ((h.drop i).take k)
  { kind := n 0 1, vc := n 1 1 % 8, path := n 1 1 / 8 % 4, cls := n 1 1 / 32 % 4, esc := n 1 1 / 128 == 1, dst := n 2 1 % 128, src := n 3 1 % 128
    inc := h.getD 4 0#8, seq := n 6 2, off := n 8 8 % 2 ^ 40, tag := n 16 4, ctx := n 20 2 % 4096, spec := (h.drop 22).take 10, data := data
    zeros := n 2 1 / 128 == 0 && n 3 1 / 128 == 0 && n 5 1 / 8 == 0 && n 8 8 / 2 ^ 40 == 0 && n 20 2 / 4096 == 0 && decide (n 5 1 % 8 ≤ 4) }

/-- Bytes cut into flits. -/
def flitsOf : Nat → List Byte → List (List Byte)
  | 0, _ => []
  | n + 1, bs => bs.take 32 :: flitsOf n (bs.drop 32)

/-- A packet's flits: its header, then its data. -/
def Packet.flits (p : Packet) : List (List Byte) := p.header :: flitsOf (p.data.length / 32) p.data

/-- The packets at the head of a stream of flits, and the flits of one that is not yet whole. A flit of zeros is none of a packet: it fills
a block up (log entry 86). -/
def takePackets : Nat → List (List Byte) → List Packet × List (List Byte)
  | 0, fs => ([], fs)
  | _, [] => ([], [])
  | n + 1, h :: r =>
    if h.all (· == 0#8) then takePackets n r
    else
      let k := (h.getD 5 0#8).toNat % 8
      if r.length < k then ([], h :: r)
      else
        let t := takePackets n (r.drop k)
        (Packet.ofFlits h (r.take k).flatten :: t.1, t.2)

/-- What a management packet says, by its first per-kind byte (log entry 9): 0 DOWN; 1 UP without an incarnation, 2 UP with one, which is
the next byte; 3 a dusk, 4 a pin, 5 a pin that holds no longer, 6 a tick: the number in the data's first 8 bytes. -/
def Management.of (p : Packet) : Option Management :=
  let n := BitVec.ofNat 64 (leNat (p.data.take 8))
  match (p.spec.getD 0 0#8).toNat with
  | 0 => some .down
  | 1 => some (.up none)
  | 2 => some (.up (some (p.spec.getD 1 0#8)))
  | 3 => some (.dusk n)
  | 4 => some (.pin n)
  | 5 => some (.unpin n)
  | 6 => some (.tickSync n)
  | _ => none

/-! ## Link blocks (R364) -/

/-- CRC-32 of IEEE 802.3: reflected, from all ones, complemented. -/
def crcBit : Nat → Nat → Nat
  | 0, c => c
  | n + 1, c => crcBit n (if c % 2 = 1 then (c / 2) ^^^ 0xEDB88320 else c / 2)
def crcBytes (c : Nat) : List Byte → Nat
  | [] => c
  | b :: r => crcBytes (crcBit 8 (c ^^^ b.toNat)) r
def crc32 (bs : List Byte) : Nat := crcBytes 0xFFFFFFFF bs ^^^ 0xFFFFFFFF

def LinkBlock.seq (b : LinkBlock) : Nat := leNat (b.ctl.take 2) % 4096
/-- Bits 15:0 of the acknowledgement's bytes. -/
def LinkBlock.ackWord (b : LinkBlock) : Nat := leNat ((b.ctl.drop 2).take 2)
def LinkBlock.ack (b : LinkBlock) : Nat := b.ackWord % 4096
def LinkBlock.valid (b : LinkBlock) : Bool := b.ackWord.testBit 12
def LinkBlock.nak (b : LinkBlock) : Bool := b.ackWord.testBit 13
def LinkBlock.credits (b : LinkBlock) : List Nat := (List.range 8).map fun v => leNat ((b.ctl.drop (4 + 2 * v)).take 2)
/-- Sixteen data flits and a control flit, with a good CRC. -/
def LinkBlock.good (b : LinkBlock) : Bool :=
  b.data.length == 512 && b.ctl.length == 32 && leNat (b.ctl.drop 28) == crc32 (b.data ++ b.ctl.take 28)

/-- A block of data flits, its number, the last block received in order where there is one, a nak, and credits. -/
def mkBlock (flits : List (List Byte)) (seq : Nat) (ack : Option Nat) (nak : Bool) (credits : List Nat) : LinkBlock :=
  let data := (flits.take 16).flatten ++ List.replicate (32 * (16 - (flits.take 16).length)) 0#8
  let head := leBytes 2 (seq % 4096) ++ leBytes 2 (ack.getD 0 % 4096 + (if ack.isSome then 4096 else 0) + (if nak then 8192 else 0))
    ++ ((List.range 8).flatMap fun v => leBytes 2 (credits.getD v 0)) ++ List.replicate 8 0#8
  { data := data, ctl := head ++ leBytes 4 (crc32 (data ++ head)) }

end Sys2Proof

namespace Sys2Proof.Machine

/-! ## Paths and numbers (R368, R369) -/

/-- A port carries blocks. -/
def Port.up (p : Port) : Bool := p.lanes != 0 && !p.down && p.training.isNone

/-- The ports that are up. -/
def State.portsUp (s : State) : List Nat := (List.range 16).filter fun n => (s.port n).up

/-- The lowest live device index, the root of the spanning tree (R370). -/
def State.treeRoot (s : State) : Nat :=
  (s.members.filter fun m => m.2.member && (m.2.live || m.1 == s.device)).foldl (fun d m => min d m.1) s.device

/-- The port that a packet leaves by: of those that are up, the one that the tables give its destination and path, or, for an escaped
packet, its place in the tree (R365, R368, R370). The links between the modules, and with them the tables, are not the spec's. -/
def State.portFor (s : State) (p : Packet) : Option Nat :=
  let up := s.portsUp
  up[(if p.esc then Config.treeRoute s.treeRoot p.dst else Config.route p.dst p.path) % up.length]?

/-- Bytes of the module's own packets of a path that stand queued (R368). -/
def State.queuedBytes (s : State) (dst path : Nat) : Nat :=
  ((s.ports.flatMap fun p => p.2.queue) ++ s.out).foldl (fun n p =>
    if p.src == s.device && p.dst == dst && p.path == path then n + 32 + p.data.length else n) 0

/-- The path of a packet: of a request that touches a line, the one of the line's oldest unacknowledged request; else the one with the
fewest queued bytes, a free choice among equals (R368). -/
def State.pathFor (s : State) (kind dst off : Nat) : Nat :=
  match s.retained.find? fun p => p.dst == dst && p.kind ≤ 3 && kind ≤ 3 && p.off / 128 == off / 128 with
  | some p => p.path
  | none =>
    let q := (List.range 4).map (s.queuedBytes dst)
    let ps := (List.range 4).filter fun i => q.all fun n => decide (q.getD i 0 ≤ n)
    ps.getD (Config.freeNat (pairNat s.fresh 2) % ps.length) 0

/-- A packet with the next number of a path is kept until it is acknowledged, and goes to the ports (R369). -/
def State.post (s : State) (p : Packet) : State :=
  let seq := mget 0 s.e2eOut (p.dst * 4 + p.path)
  let p := { p with seq := seq }
  { s with retained := s.retained ++ [p], out := s.out ++ [p], e2eOut := mset 0 s.e2eOut (p.dst * 4 + p.path) ((seq + 1) % 65536) }

/-- Send a packet: its path, and the state after (R366, R368, R369). -/
def State.sendPkt (s : State) (kind vc cls dst off tag ctx : Nat) (spec data : List Byte) : Nat × State :=
  let path := s.pathFor kind dst off
  (path, { s with fresh := s.fresh + 1 }.post {
    kind := kind, vc := vc, path := path, cls := cls, esc := false, dst := dst, src := s.device, inc := (mget {} s.members dst : Member).inc
    seq := 0, off := off, tag := tag % 2 ^ 32, ctx := ctx, spec := (spec ++ List.replicate 10 0#8).take 10, data := padFlits data, zeros := true })

/-- A management packet to every other member (R361, R367, R398, R399), with a code as `Management.of` reads it, and a number. -/
def State.tellAll (s : State) (code : Nat) (data : List Byte) : State :=
  ((s.members.filter fun m => m.2.member && m.1 != s.device).map (·.1)).foldl (fun s d =>
    (s.sendPkt 9 5 0 d 0 0 0 [BitVec.ofNat 8 code, s.island.inc] data).2) s

/-! ## What the ports hold and send (R364, R365, R370) -/

/-- A packet joins the queue of its port; its virtual channel holds flits from then on, if it held none. With no port up it waits nowhere:
what must not be lost is retained. -/
def State.enqueue (s : State) (p : Packet) : State :=
  match s.portFor p with
  | none => s
  | some n =>
    let P := s.port n
    s.setPort n { P with queue := P.queue ++ [p]
                         since := if P.queue.any (·.vc == p.vc) then P.since else mset 0 P.since p.vc (s.tick + 1) }

/-- The oldest packet of a virtual channel of a port goes into its stream of flits (R366). -/
def Port.takeFlits (P : Port) (tick vc : Nat) : Port :=
  match P.queue.find? (·.vc == vc) with
  | none => P
  | some p =>
    let q := P.queue.erase p
    { P with queue := q, flits := P.flits ++ p.flits, since := mset 0 P.since vc (if q.any (·.vc == vc) then tick + 1 else 0) }

/-- A port sends a block, with the oldest packet of a virtual channel behind what its stream holds, and credits, which are free (log entry
86). The block stays in the retry buffer until it is acknowledged. -/
def State.sendBlock (s : State) (n vc : Nat) : State :=
  let P := (s.port n).takeFlits s.tick vc
  let b := mkBlock P.flits P.seq (if P.rcvd then some ((P.expect + 4095) % 4096) else none) P.nak
    ((List.range 8).map fun v => Config.freeNat (pairNat (pairNat (pairNat s.fresh n) v) 64) % 65536)
  ({ s with fresh := s.fresh + 1, wire := s.wire ++ [(n, b)] }.setPort n
    { P with flits := P.flits.drop 16, seq := (P.seq + 1) % 4096, retry := P.retry ++ [b], ackDue := false, nak := false }).unitAdd (660 + n) 0 1

/-- A port may send a block: whether it does in a step, and of which virtual channel, are free choices (log entry 86). -/
def State.pump (s : State) (n : Nat) : State :=
  let P := s.port n
  if !P.up || (P.queue.isEmpty && P.flits.isEmpty && !P.ackDue) || decide (1024 ≤ P.retry.length) || Config.freeBool (pairNat (pairNat s.fresh n) 62)
  then s
  else
    let vcs := (P.queue.map (·.vc)).eraseDups
    s.sendBlock n (vcs.getD (Config.freeNat (pairNat (pairNat s.fresh n) 63) % vcs.length) 0)

/-- What has been handed to the ports leaves them at once: they are about to go down (R371). -/
def State.sendNow (s : State) : State :=
  s.out.foldl (fun s p => match s.portFor p with
    | some n => (s.enqueue p).sendBlock n p.vc
    | none => s) s

/-- What a step sends goes to the ports, and the ports send blocks. -/
def State.transmit (s : State) : State :=
  let s := s.out.foldl State.enqueue s
  (mkeys s.ports).foldl State.pump s

end Sys2Proof.Machine
end

