-- ==== Sys2Proof/Machine/Mem.lean ====
section
/-! DEFINITION. Physical memory: address map (R387-R391), lines under encryption (R401, R402), poison (R386), stamps (R229),
the history log (R396-R400), and translation (R305-R313). -/

namespace Sys2Proof.Machine

/-! ## Bytes -/

/-- Bytes of words (R7). -/
def wordBytes (ws : List Word) : List Byte := ws.flatMap fun w => leBytes 4 w.toNat
/-- Words of bytes, the last zero-extended (R221). -/
def bytesWords : List Byte → List Word
  | a :: b :: c :: d :: r => BitVec.ofNat 32 (leNat [a, b, c, d]) :: bytesWords r
  | [] => []
  | l => [BitVec.ofNat 32 (leNat l)]

/-- Write bytes from a key on. -/
def wrBytes (m : SMap Byte) (a : Nat) : List Byte → SMap Byte
  | [] => m
  | b :: r => wrBytes (mset 0#8 m a b) (a + 1) r
/-- Read bytes from a key on; an unlisted byte reads 0 (log entry 4). -/
def rdBytes (m : SMap Byte) (a n : Nat) : List Byte := (List.range n).map fun i => mget 0#8 m (a + i)

/-- The memory's canonical form. -/
def Memory.wf (m : List Host.Cell) : Bool := mwf 0#8 m

/-! ## The address map (R387-R391) -/

/-- Parity of a number below 2^64. -/
def parity (x : Nat) : Bool :=
  let x := x ^^^ (x >>> 32)
  let x := x ^^^ (x >>> 16)
  let x := x ^^^ (x >>> 8)
  let x := x ^^^ (x >>> 4)
  let x := x ^^^ (x >>> 2)
  let x := x ^^^ (x >>> 1)
  x % 2 == 1

/-- Row i of the default matrix (R391). -/
def defaultRow (i : Nat) : Nat :=
  if i < 7 then 2 ^ i
  else if i < 10 then 2 ^ (i + 10)
  else if i < 12 then 2 ^ (i + 10) + 2 ^ (i + 15)
  else if i < 15 then 2 ^ (i + 10) + 2 ^ (i + 15)
  else if i < 26 then 2 ^ (i + 10)
  else if i < 30 then 2 ^ (i + 10)
  else if i = 30 then 2 ^ 16
  else if i < 36 then 2 ^ (i - 20)
  else 2 ^ (i - 29)

/-- The active matrix of a region (R388, R390). -/
def State.matrix (s : State) (region : Nat) : List Nat :=
  match (mget {} s.maps region : MapReg).active with
  | some rows => rows
  | none => (List.range 40).map defaultRow

/-- A device address from the rows of a matrix (R388). -/
def applyRows (off : Nat) : List Nat → Nat → Nat
  | [], _ => 0
  | r :: rs, bit => (if parity (r &&& off) then bit else 0) + applyRows off rs (2 * bit)

/-- The device address of a local offset (R387, R388). -/
def State.da (s : State) (off : Nat) : Nat := applyRows off (s.matrix (off / 2 ^ 37)) 1

/-- The stack of a device address (R387). -/
def daStack (d : Nat) : Nat := d / 2 ^ 36 % 16
/-- The home slice of a device address: stack × 8 + channel div 4 (R385, R387). -/
def daSlice (d : Nat) : Nat := daStack d * 8 + d / 2 ^ 31 % 32 / 4
/-- The home slice of a local offset. -/
def State.home (s : State) (off : Nat) : Nat := daSlice (s.da off)

/-- The usable limit in bytes (R389). -/
def State.usable (s : State) : Nat := (14 - s.hres) * 2 ^ 36

/-! ## Lines (R401, R402) -/

/-- Where host memory begins in `mem`. -/
def hostBase : Nat := 2 ^ 40

/-- The key an access of a context uses (R401). -/
def State.keyOf (s : State) (ctx : Nat) : BitVec 256 := if (s.ctx ctx).priv then (s.ctx 0).key else (s.ctx ctx).key

/-- A byte of a line as a key reads it: the byte written, when written under the same key at the same offset; else through
two keystreams (R401, log entry 1). -/
def seenByte (key : BitVec 256) (offL : Nat) (m : LineMeta) (i : Nat) (plain : Byte) : Byte :=
  if m.ctr = 0#56 then 0#8
  else if m.key = key ∧ m.offL = offL then plain
  else plain ^^^ Config.keystream m.key m.offL m.ctr.toNat m.gen i ^^^ Config.keystream key offL m.ctr.toNat m.gen i

/-- Bytes of one line of local memory under a key; `off` and n stay within a line. -/
def State.readLocal (s : State) (key : BitVec 256) (off n : Nat) : List Byte :=
  let d := s.da (off / 128 * 128)
  let m : LineMeta := mget {} s.lines (d / 128)
  (List.range n).map fun j =>
    let i := off % 128 + j
    seenByte key (off / 128) m i (mget 0#8 s.mem (d + i))

/-- A line's write counter stands at its last value: the page is re-keyed before the next write (R402). -/
def State.lineFull (s : State) (off : Nat) : Bool :=
  (mget {} s.lines (s.da (off / 128 * 128) / 128) : LineMeta).ctr == BitVec.ofNat 56 (2 ^ 56 - 1)

/-- Write bytes of one line of local memory under a key (R401, R402). -/
def State.writeLocal (s : State) (key : BitVec 256) (off : Nat) (bs : List Byte) : State :=
  let d := s.da (off / 128 * 128)
  let m : LineMeta := mget {} s.lines (d / 128)
  let mem := if m.ctr ≠ 0#56 ∧ m.key = key ∧ m.offL = off / 128 then s.mem
    else wrBytes s.mem d (s.readLocal key (off / 128 * 128) 128)
  { s with
    mem := wrBytes mem (d + off % 128) bs
    lines := mset {} s.lines (d / 128) ⟨key, off / 128, m.ctr + 1, mget 0#8 s.pageGen (off / 4096)⟩ }

/-- A sector is poisoned (R386). -/
def State.poisonedAt (s : State) (off : Nat) : Bool := mget false s.poison (s.da off / 32)

/-- A sector of n bytes is poisoned. -/
def State.poisonedIn (s : State) (off n : Nat) : Bool := (List.range ((off % 32 + n + 31) / 32)).any fun i => s.poisonedAt (off + 32 * i)

/-- The first result of a list. -/
def firstSome {α β : Type} (f : α → Option β) : List α → Option β
  | [] => none
  | a :: r => match f a with
    | some b => some b
    | none => firstSome f r

/-- Poison after a write: a whole sector clears it, a part leaves it (R386). -/
def State.clearPoison (s : State) (off n : Nat) : State :=
  let first := (off + 31) / 32 * 32
  (List.range ((off + n - first) / 32)).foldl (fun s i =>
    { s with poison := mset false s.poison (s.da (first + 32 * i) / 32) false }) s

/-! ## Stamps and history (R229, R396-R400) -/

/-- T of a slice (R229, R10). -/
def State.sliceT (s : State) (slice : Nat) : Nat :=
  (s.tickAt slice - s.stampBase) * 2 ^ 14 + s.device * 128 + slice

/-- The stamp a slice gives an access that carries a floor (R229). -/
def State.stampFor (s : State) (slice floor : Nat) : Nat :=
  max (s.sliceT slice) (max (floor + 1) ((s.slice slice).last + 1))

/-- A slice gives a stamp (R229). -/
def State.takeStamp (s : State) (slice floor : Nat) : Nat × State :=
  let t := s.stampFor slice floor
  (t, s.setSlice slice { s.slice slice with last := t })

/-- Pins that hold below a stamp: (context, pin) (R399). -/
def State.pinsBelow (s : State) (stamp : Nat) : List (Nat × Nat) :=
  s.ctxs.flatMap fun c => (c.2.pins.filter fun p => p.2.used && !p.2.broken && decide (p.2.stamp < stamp)).map fun p => (c.1, p.1)

/-- No store waits on a pin of a context whose PINTMO is 0, or was 0 as the stall began (R102, R399). -/
def State.pinWaits (s : State) (ctx : Nat) : Bool :=
  match firstSome (fun (r : Nat × Ring) => r.2.stall.bind fun x => (x.2.find? fun c => c.1 == ctx).map (·.2)) s.rings with
  | some lim => lim != 0
  | none => (s.ctx ctx).pintmo != 0#32

/-- A pin that holds below a stamp and that stores wait on: (context, pin) (R102, R399). -/
def State.blockingPin (s : State) (stamp : Nat) : Option (Nat × Nat) := (s.pinsBelow stamp).find? fun p => s.pinWaits p.1

/-- An entry of an overwriting stamp may not be reclaimed: a pin of this module or of another member lies below it (R399). -/
def State.pinHolds (s : State) (stamp : Nat) : Bool := (s.blockingPin stamp).isSome || s.peerPins.any fun p => decide (p.2 < stamp)

/-- A pin at a stamp holds no longer: the stalls that it caused end, and a later one counts afresh (R399). -/
def State.endStalls (s : State) (stamp : Nat) : State :=
  { s with rings := s.rings.map fun (r : Nat × Ring) =>
      (r.1, if stamp < (mget {} r.2.entries r.2.oldest : HistEntry).stamp then { r.2 with stall := none } else r.2) }

/-- A pin at a stamp is released or broken: the other members hear of it (R399). -/
def State.pinGone (s : State) (stamp : Nat) : State := (s.endStalls stamp).tellAll 5 (leBytes 8 stamp)

/-- A pin is broken (R253, R348, R380): the bit of the kernel that made it, while that runs or ends, or the event. -/
def State.breakPin (s : State) (ctx h : Nat) : State :=
  let c := s.ctx ctx
  let p : Pin := mget {} c.pins h
  if !p.used || p.broken then s
  else
    let p' : Pin := { p with broken := true }
    let s := (s.setCtx ctx { c with pins := mset {} c.pins h p' }).pinGone p.stamp
    let K := s.kernel p.kernel
    if K.state == .running || K.state == .ending then s.setCir p.kernel 5
    else
      let act := (s.acts.find? fun (a : Activity) => a.ctx == ctx && a.pin == some h).map Activity.handle
      s.emit 6 ctx ([if p.activity then 0xFF#8 else BitVec.ofNat 8 h] ++ List.replicate 3 0#8
        ++ leBytes 4 (if p.activity then act.getD 0 else 0) ++ leBytes 8 p.stamp)

/-- The capacity of a ring (R396). -/
def State.ringCap (s : State) : Nat := Config.ringEntries s.hres

/-- The ring of a stack has no room (R398). -/
def State.ringFull (s : State) (stack : Nat) : Bool :=
  decide (s.ringCap ≤ (s.ring stack).next - (s.ring stack).oldest)

/-- The ring must reclaim an entry that a pin holds (R399). -/
def State.ringStalled (s : State) (stack : Nat) : Bool :=
  let r := s.ring stack
  s.ringFull stack && decide (r.oldest < r.next) &&
    s.pinHolds (mget {} r.entries r.oldest : HistEntry).stamp

/-- Memo entries of as-of loads that a slice's dusk kills (R169): their stamp lies below it and they read a line of it. -/
def killAsof (slice dusk : Nat) (ms : List Memo) : List Memo :=
  ms.filter fun m => !(m.asof && decide (m.asofS < dusk) && m.lines.any fun l => daSlice (l * 128) == slice)

/-- Change every memo table. -/
def State.memoMap (s : State) (f : Nat → List Memo → List Memo) : State :=
  { s with cores := s.cores.map fun c => (c.1, { c.2 with quarters := c.2.quarters.map fun q =>
      (q.1, { q.2 with memo := f c.1 q.2.memo }) }) }

/-- Reclaim the oldest entry of a ring (R398); pins that no store waits on break with it (R102). -/
def State.reclaim (s : State) (stack : Nat) : State :=
  let r := s.ring stack
  if r.oldest < r.next then
    let e : HistEntry := mget {} r.entries r.oldest
    let s := (s.pinsBelow e.stamp).foldl (fun s p => s.breakPin p.1 p.2) s
    let sl := daSlice (e.line * 128)
    let s := s.setRing stack { r with oldest := r.oldest + 1, entries := mdel r.entries r.oldest, stall := none }
    let d := max (s.slice sl).dusk e.stamp
    { s with duskNew := true }.setSlice sl { s.slice sl with dusk := d } |>.memoMap fun _ => killAsof sl d
  else s

/-- The memo entries of as-of loads that the dusks of their slices kill (R169). -/
def State.killOld (s : State) : State :=
  s.memoMap fun _ ms => ms.filter fun m => !(m.asof && m.lines.any fun l => decide (m.asofS < (s.slice (daSlice (l * 128))).dusk))

/-- Append the old contents of a granule (R396). -/
def State.logAppend (s : State) (line stamp : Nat) : State :=
  let stack := daStack (line * 128)
  let s := if s.ringFull stack && decide ((s.ring stack).oldest < (s.ring stack).next) then s.reclaim stack else s
  let r := s.ring stack
  let e : HistEntry :=
    { line := line, bytes := rdBytes s.mem (line * 128) 128, stored := mget {} s.lines line, stamp := stamp
      chain := match mget 0 s.heads line with
        | 0 => none
        | h + 1 => some h }
  let s := s.setRing stack { r with next := r.next + 1, entries := mset {} r.entries r.next e }
  let s := { s with heads := mset 0 s.heads line (r.next + 1) }
  let s := s.unitAdd (512 + daSlice (line * 128)) 6 1
  if s.ringCap = 0 then s.reclaim stack else s

/-- Coherence: a store to a line drops the copies in other L1s and ends `.ru` memo entries of it (R169, R385). The storing
core merges the store and raises its line's stamp (R230). -/
def State.invalidate (s : State) (line : Nat) (core : Option Nat) (stamp : Nat) : State :=
  let s := s.memoMap fun _ ms => ms.filter fun m => !(m.load && !m.asof && m.lines.contains line)
  { s with cores := s.cores.map fun c => (c.1, { c.2 with
      l1 := if core = some c.1 then
          (if mget 0 c.2.l1 line = 0 then c.2.l1 else mset 0 c.2.l1 line (max (mget 0 c.2.l1 line) (stamp + 1)))
        else mset 0 c.2.l1 line 0 }) }

/-- The values that 8-byte units of `mem` hold before a write of n bytes at an address join their earlier ones (R325). -/
def State.notePast (s : State) (a n : Nat) : State :=
  { s with past := (List.range ((a + n + 7) / 8 - a / 8)).foldl (fun m i =>
      mupd [] m (a / 8 + i) (BitVec.ofNat 64 (leNat (rdBytes s.mem (8 * (a / 8 + i)) 8)) :: ·)) s.past }

/-- A release of the device to host memory: the slice of a core's router stamps it and holds it until its own stamp time exceeds the
stamp's by 17 ticks (R229). The stamp, once it may go. -/
def State.hostGate (s : State) (core floor off : Nat) (bs : List Byte) : Option Nat × State :=
  match s.hostq.find? fun h => h.off == off && h.data == bs with
  | none =>
    let t := s.takeStamp (core / 4) floor
    (none, { t.2 with hostq := s.hostq ++ [⟨off, bs, t.1, t.1 / 2 ^ 14 + 17⟩] })
  | some h =>
    if s.tickAt (core / 4) - s.stampBase < h.until_ then (none, s)
    else (some h.stamp, { s with hostq := s.hostq.filter fun x => !(x.off == off && x.data == bs) })

/-- Sectors of host memory that stand poisoned among n bytes (R291). -/
def State.hostPoison (s : State) (off n : Nat) : Bool :=
  (List.range ((off % 32 + n + 31) / 32)).any fun i => mget false s.poison ((hostBase + off) / 32 + i)

/-- Sectors of host memory that n bytes cover whole are marked or lose their mark; one covered in part keeps it (R291, R386). -/
def State.setHostPoison (s : State) (off n : Nat) (v : Bool) : State :=
  let first := (off + 31) / 32
  { s with poison := (List.range ((off + n) / 32 - first)).foldl (fun m i => mset false m (hostBase / 32 + first + i) v) s.poison }

/-- A store to host memory arrives there; copies of the line in other L1s and `.ru` entries of it end (R169, R385). -/
def State.storeHost (s : State) (off : Nat) (bs : List Byte) (core : Option Nat) (stamp : Nat) : State :=
  let s := (s.notePast (hostBase + off) bs.length).setHostPoison off bs.length false
  ({ s with mem := wrBytes s.mem (hostBase + off) bs }).invalidate ((hostBase + off) / 128) core stamp

/-- Bytes of memory cut at its lines, with their offsets. -/
def splitLines (off : Nat) : Nat → List Byte → List (Nat × List Byte)
  | 0, _ => []
  | fuel + 1, bs =>
    if bs.isEmpty then []
    else
      let n := 128 - off % 128
      (off, bs.take n) :: splitLines (off + n) fuel (bs.drop n)

/-- Bytes of any length are stored to host memory, line by line, by Myern or by a host itself (R325, R374, R377, R379). -/
def State.hostPut (s : State) (off : Nat) (bs : List Byte) : State :=
  (splitLines off (bs.length + 1) bs).foldl (fun s x => s.storeHost x.1 x.2 none 0) s

/-- A store or atomic performs at its home slice (R229, R385, R396): one line. The stamp it takes, 0 for none. -/
def State.storeLocal (s : State) (key : BitVec 256) (off : Nat) (bs : List Byte) (hist rel : Bool) (floor : Nat)
    (core : Option Nat) : Nat × State :=
  let d := s.da off
  let slice := daSlice d
  let t := if hist || rel then s.takeStamp slice floor else (0, s)
  let s := if hist then t.2.logAppend (d / 128) t.1 else t.2
  let s := (s.notePast d bs.length).writeLocal key off bs
  let s := s.clearPoison off bs.length
  let s := if hist then { s with lastWrite := mset 0 s.lastWrite (d / 1024) t.1 } else s
  (t.1, s.invalidate (d / 128) core t.1)

/-- A plain read at the home slice: bytes, whether a sector is poisoned, and the stamp a load returns (R230). -/
def State.loadLocal (s : State) (key : BitVec 256) (off n : Nat) (hist : Bool) : List Byte × Bool × Nat :=
  (s.readLocal key off n, s.poisonedIn off n,
    if hist then mget 0 s.lastWrite (s.da off / 1024) else (s.slice (s.home off)).last)

/-- One chain step after another: the version of a granule at a stamp, and the steps taken (R397). -/
def chainWalk (r : Ring) (S : Nat) : Nat → Option Nat → (Option HistEntry) → Nat → Option HistEntry × Nat
  | 0, _, v, n => (v, n)
  | _, none, v, n => (v, n)
  | fuel + 1, some i, v, n =>
    if i < r.oldest then (v, n)
    else
      let e : HistEntry := mget {} r.entries i
      if S < e.stamp then chainWalk r S fuel e.chain (some e) (n + 1) else (v, n)

/-- An as-of read at its home slice: none when the slice's dusk lies above S (R397, R398). -/
def State.asofLocal (s : State) (key : BitVec 256) (off n S : Nat) : Option (List Byte × Bool × Nat) :=
  let d := s.da off
  if S < (s.slice (daSlice d)).dusk then none
  else
    let r := s.ring (daStack d)
    let head := match mget 0 s.heads (d / 128) with
      | 0 => none
      | h + 1 => some h
    match chainWalk r S (r.next - r.oldest) head none 0 with
    | (none, k) => some (s.readLocal key off n, s.poisonedIn off n, k)
    | (some e, k) => some ((List.range n).map fun j =>
        let i := off % 128 + j
        seenByte key (off / 128) e.stored i (e.bytes.getD i 0#8), false, k)

/-! ## Translation (R305-R313) -/

/-- Kinds of access for permission (R310). -/
inductive Acc where
  | load | store | asof | fetch
  deriving DecidableEq, Repr

/-- Bit i of a leaf or descriptor. -/
def bitOf (e i : Nat) : Bool := e / 2 ^ i % 2 == 1
/-- Bits [hi:lo]. -/
def bitsOf (e hi lo : Nat) : Nat := e / 2 ^ lo % 2 ^ (hi + 1 - lo)

/-- What a walk finds: a leaf and log2 of its page size, or a cause (11 XLATE, 14 not-present), with poison met. -/
inductive WalkR where
  | leaf (e : Nat) (bits : Nat)
  | fail (cause : Nat) (poison : Bool)
  deriving DecidableEq, Repr

/-- A leaf is malformed (R307, R308). -/
def leafBad (usable lvl e : Nat) : Bool :=
  let loc := bitsOf e 8 7
  decide (2 < lvl) || loc == 3 || bitsOf e 11 10 != 0 || bitsOf e 51 40 != 0 || bitsOf e 63 59 != 0
    || (loc != 1 && bitsOf e 58 52 != 0) || (lvl == 1 && bitsOf e 20 12 != 0) || (lvl == 2 && bitsOf e 29 12 != 0)
    || (bitOf e 4 && (loc == 2 || bitOf e 5)) || (loc == 0 && decide (usable ≤ bitsOf e 39 12 * 4096))

/-- A table descriptor is malformed (R306, R308). -/
def tableBad (usable e : Nat) : Bool :=
  bitsOf e 6 1 != 0 || bitsOf e 11 9 != 0 || bitsOf e 63 40 != 0 || decide (usable ≤ bitsOf e 39 12 * 4096)

/-- The 8 bytes of a table entry: walks read under context 0's key (R308, R401). -/
def State.pte (s : State) (pa : Nat) : Nat := leNat (s.readLocal (s.ctx 0).key pa 8)

/-- The walk from a level down (R308). -/
def State.walkFrom (s : State) (va : Nat) : Nat → Nat → WalkR
  | lvl, table =>
    let pa := table + 8 * (va / 2 ^ (12 + 9 * lvl) % 512)
    let e := s.pte pa
    if s.poisonedAt pa then .fail 11 true
    else if !bitOf e 0 then .fail 14 false
    else match lvl with
      | 0 => if leafBad s.usable 0 e then .fail 11 false else .leaf e 12
      | n + 1 =>
        if bitsOf e 8 7 = 3 then
          (if tableBad s.usable e then .fail 11 false else s.walkFrom va n (bitsOf e 39 12 * 4096))
        else if leafBad s.usable (n + 1) e then .fail 11 false else .leaf e (12 + 9 * (n + 1))

/-- A context's walk (R305). -/
def State.walk (s : State) (ctx va : Nat) : WalkR :=
  if 2 ^ 57 ≤ va then .fail 11 false else s.walkFrom va 4 (s.ctx ctx).ptroot.toNat

/-- The cause a leaf raises for an access, if any (R310). -/
def permCause (priv : Bool) (acc : Acc) (e : Nat) : Option Nat :=
  if !priv && !bitOf e 3 then some 12
  else if (match acc with
    | .load => true | .store => bitOf e 1 | .asof => bitOf e 4 | .fetch => bitOf e 2) then none else some 12

/-- The physical address of a leaf (R309). -/
def leafPhys (device e bits va : Nat) : Phys :=
  let off := bitsOf e 51 12 * 4096 + va % 2 ^ bits
  match bitsOf e 8 7 with
  | 0 => ⟨0, 0, off⟩
  | 1 => if bitsOf e 58 52 = device then ⟨0, 0, off⟩ else ⟨1, bitsOf e 58 52, off⟩
  | _ => ⟨2, 0, off⟩

/-- An entry of a unit that covers a VA. -/
def Tlb.serves (t : Tlb) (unit ctx va : Nat) : Bool := t.unit == unit && t.ctx == ctx && t.base == va / 2 ^ t.bits * 2 ^ t.bits

/-- The cached leaf that serves a VA at a core: its L1's, or, where L1 holds none or has lost it (a free choice, log entry 1), its
quadrant's L2's (R311). -/
def State.tlbFind (s : State) (core ctx va : Nat) : Option Tlb :=
  let l1 := s.tlb.find? fun t => t.serves core ctx va
  let l2 := s.tlb.find? fun t => t.serves (512 + core / 32) ctx va
  if l2.isSome && Config.freeBool (pairNat s.fresh 27) then l2 else l1.or l2

/-- The descriptors that a walk meets from a level down, with their levels (R308). -/
def State.tablesFrom (s : State) (va : Nat) : Nat → Nat → List (Nat × Nat)
  | 0, _ => []
  | n + 1, table =>
    let e := s.pte (table + 8 * (va / 2 ^ (12 + 9 * (n + 1)) % 512))
    if bitsOf e 8 7 = 3 then (n + 1, e) :: s.tablesFrom va n (bitsOf e 39 12 * 4096) else []

/-- A cached descriptor from which the walkers of a die may start, none where they start at the root: a free choice (R311, log entry
1). -/
def State.walkStart (s : State) (die ctx va : Nat) : Option Tlb :=
  let ts := s.tlb.filter fun t => t.serves (528 + die) ctx va
  ts[Config.freeNat (pairNat s.fresh 28) % (ts.length + 1)]?

/-- Where a walk starts: its level and table (R308, R311). -/
def State.walkRoot (s : State) (die ctx va : Nat) : Nat × Nat :=
  match s.walkStart die ctx va with
  | some t => ((t.bits - 12) / 9 - 1, bitsOf t.leaf 39 12 * 4096)
  | none => (4, (s.ctx ctx).ptroot.toNat)

/-- Sixteen level-0 leaves that one entry may cover (R311): contiguous frames from a 64 KiB boundary, other fields equal. -/
def State.covers16 (s : State) (ctx va e : Nat) : Bool :=
  let base := va / 65536 * 65536
  let i := va / 4096 % 16
  bitsOf e 51 12 % 16 == i && (List.range 16).all fun j =>
    s.walk ctx (base + 4096 * j) == .leaf (e - i * 4096 + j * 4096) 12

/-- A TLB takes an entry, in the place of one of the same unit, context and extent. -/
def State.tlbPut (s : State) (x : Tlb) : State :=
  { s with tlb := x :: s.tlb.filter fun t => !(t.unit == x.unit && t.ctx == x.ctx && t.base == x.base && t.bits == x.bits) }

/-- What a walk for a core leaves cached: the leaf in the core's L1 and the quadrant's L2, the descriptors that it met in the die's
walkers (R311). -/
def State.tlbFill (s : State) (core ctx va : Nat) (ent : Nat × Nat × Nat) (tables : List (Nat × Nat)) : State :=
  let s := (s.tlbPut ⟨512 + core / 32, ctx, ent.1, ent.2.1, ent.2.2⟩).tlbPut ⟨core, ctx, ent.1, ent.2.1, ent.2.2⟩
  tables.foldl (fun s t =>
    let bits := 12 + 9 * t.1
    s.tlbPut ⟨528 + dieOf core, ctx, va / 2 ^ bits * 2 ^ bits, bits, t.2⟩) s

/-- Translate an access of a core: from a cached leaf, or by a walk, which may be cached afterwards (R305-R311). The Bool says that a
walk met poison. -/
def State.translate (s : State) (core ctx va : Nat) (acc : Acc) (cached : Bool) : Except (Nat × Bool) Xlat × State :=
  let priv := (s.ctx ctx).priv
  let hit := (s.tlbFind core ctx va).filter fun _ => cached
  match hit with
  | some t =>
    let e := if t.bits = 16 then t.leaf + (va / 4096 % 16) * 4096 else t.leaf
    match permCause priv acc e with
    | some c => (.error (c, false), s)
    | none => (.ok ⟨leafPhys s.device e (if t.bits = 16 then 12 else t.bits) va, e, t.base, t.bits⟩, s)
  | none =>
    let root := s.walkRoot (dieOf core) ctx va
    match (if 2 ^ 57 ≤ va then WalkR.fail 11 false else s.walkFrom va root.1 root.2) with
    | .fail c p => (.error (c, p), s)
    | .leaf e bits =>
      match permCause priv acc e with
      | some c => (.error (c, false), s)
      | none =>
        let ent : Nat × Nat × Nat := if bits = 12 && s.covers16 ctx va e
          then (va / 65536 * 65536, 16, e - (va / 4096 % 16) * 4096) else (va / 2 ^ bits * 2 ^ bits, bits, e)
        (.ok ⟨leafPhys s.device e bits va, e, ent.1, ent.2.1⟩, s.tlbFill core ctx va ent (s.tablesFrom va root.1 root.2))

end Sys2Proof.Machine
end

