-- ==== Sys2Proof/Machine/BlockMem.lean ====
section
/-! DEFINITION. Block memory, its full/empty bits, poison marks and shadows (R188, R238-R241, R291), and the accumulator
store (R257). -/

namespace Sys2Proof.Machine

/-- The shadow reserve in use (R188). -/
def Interval.used (v : Interval) : Nat := 128 * v.shadows.length + 512 * v.rows.length

/-- An interval that loses its flag, with interval_lost (R189, R110). -/
def State.loseInterval (s : State) (u : Nat) : State :=
  let b := s.blk u
  if b.interval.opened && b.interval.flag then
    (s.setBlk u { b with interval := { b.interval with flag := false } }).cirBlk u 8
  else s

/-- Copy a unit of block memory to the shadow reserve at its first write in the interval; the Bool says the reserve
overflowed (R188, R189). -/
def Block.shadow (b : Block) (unit : Nat) : Block × Bool :=
  let v := b.interval
  if v.opened && v.flag && !(v.shadows.any fun x => x.unit == unit) then
    if v.used + 128 ≤ Config.shadowBytes then
      ({ b with interval := { v with shadows := ⟨unit, rdBytes b.bm (unit * 128) 128,
          (List.range 8).map fun i => mget false b.full (unit * 8 + i),
          (List.range 4).map fun i => mget false b.bmPoison (unit * 4 + i)⟩ :: v.shadows } }, false)
    else (b, true)
  else (b, false)

/-- A write of bytes within one 32-byte sector of block memory: shadow, bytes, poison mark (R188, R291). -/
def Block.bmPut (b : Block) (addr : Nat) (bs : List Byte) : Block × Bool :=
  let t := b.shadow (addr / 128)
  let b := { t.1 with bm := wrBytes t.1.bm addr bs }
  (if addr % 32 = 0 ∧ bs.length = 32 then { b with bmPoison := mset false b.bmPoison (addr / 32) false } else b, t.2)

/-- A write to block memory by an instruction (R239). -/
def State.bmStore (s : State) (u addr : Nat) (bs : List Byte) : State :=
  let t := (s.blk u).bmPut addr bs
  let s := s.setBlk u t.1
  if t.2 then s.loseInterval u else s

/-- Set or clear the full bit of a granule (R239). -/
def State.setFull (s : State) (u granule : Nat) (v : Bool) : State :=
  let t := (s.blk u).shadow (granule / 8)
  let s := s.setBlk u { t.1 with full := mset false t.1.full granule v }
  if t.2 then s.loseInterval u else s

/-- A write of one sector by an engine: it sets the full bits and drops the operand-cache entry (R290, R263). -/
def State.bmEngine (s : State) (u addr : Nat) (bs : List Byte) (poison : Bool) : State :=
  let s := s.bmStore u addr bs
  let s := (s.setFull u (addr / 16) true).setFull u (addr / 16 + 1) true
  let b := s.blk u
  s.setBlk u { b with opcache := mset [] b.opcache (addr / 32) [], bmPoison := mset false b.bmPoison (addr / 32) poison }

/-! ## mbar objects (R283-R286) -/

/-- An mbar object (R283). -/
structure MBar where
  bal  : Int
  due  : Nat
  per  : Nat
  gen  : Nat
  isOver : Bool
  deriving DecidableEq, Repr

/-- The object at an address of block memory. -/
def Block.mbar (b : Block) (a : Nat) : MBar :=
  let rd := fun off n => leNat (rdBytes b.bm (a + off) n)
  { bal := (BitVec.ofNat 32 (rd 0 4)).toInt, due := rd 4 2, per := rd 6 2, gen := rd 8 2, isOver := rd 10 1 % 2 == 1 }

/-- An object's bytes 0-10. -/
def MBar.bytes (m : MBar) : List Byte :=
  leBytes 4 (BitVec.ofInt 32 m.bal).toNat ++ leBytes 2 m.due ++ leBytes 2 m.per ++ leBytes 2 m.gen ++ leBytes 1 (if m.isOver then 1 else 0)

/-- A completion (R284). -/
def MBar.complete (m : MBar) : MBar := { m with gen := (m.gen + 1) % 65536, due := m.per, bal := 0 }

/-- The check after a change: the object, and whether it overshot (R284). -/
def MBar.check (m : MBar) (empty : Bool) : MBar × Bool :=
  if empty then ({ m.complete with isOver := true }, true)
  else if m.due = 0 ∧ m.bal ≤ 0 then
    if m.bal < 0 then ({ m.complete with isOver := true }, true) else (m.complete, false)
  else (m, false)

/-- Store an object; an overshoot sets barrier_overrun in the kernel of the block that holds it (R284, R285). -/
def State.mbarPut (s : State) (u a : Nat) (m : MBar) (isOver : Bool) : State :=
  let s := s.bmStore u a m.bytes
  let b := s.blk u
  let s := s.setBlk u { b with objs := if b.objs.contains a then b.objs else a :: b.objs }
  if isOver then s.cirBlk u 4 else s

/-- Bytes arrive at an object (R286). -/
def State.mbarCredit (s : State) (u a n : Nat) : State :=
  let m := (s.blk u).mbar a
  let r := ({ m with bal := m.bal - (n : Int) }).check false
  s.mbarPut u a r.1 r.2

/-- An expectation (R285). -/
def State.mbarExpect (s : State) (u a n : Nat) : State :=
  let m := (s.blk u).mbar a
  let sum := m.bal + (n : Int)
  let ov := decide (0x7FFFFFFF < sum)
  let r := ({ m with bal := min sum 0x7FFFFFFF, isOver := m.isOver || ov }).check false
  s.mbarPut u a r.1 (r.2 || ov)

/-- An arrival: the generation before it, and the state after (R285). -/
def State.mbarArrive (s : State) (u a : Nat) : Nat × State :=
  let m := (s.blk u).mbar a
  let r := if m.due = 0 then m.check true else ({ m with due := m.due - 1 }).check false
  (m.gen, s.mbarPut u a r.1 r.2)

/-- A write of `st.s` or `atom.s`: objects that it changes are checked (R283, R284, log entry 71). -/
def State.bmWrite (s : State) (u addr : Nat) (bs : List Byte) : State :=
  let s := s.bmStore u addr bs
  ((s.blk u).objs.filter fun a => decide (a < addr + bs.length) && decide (addr < a + 16)).foldl (fun s a =>
    let m := (s.blk u).mbar a
    let r := m.check false
    if r.1 == m then s else s.mbarPut u a r.1 r.2) s

/-! ## The accumulator store (R257) -/

/-- Another block of the core holds the store. -/
def State.accTaken (s : State) (u core : Nat) : Bool :=
  s.blocks.any fun b => b.1 != u && b.2.live && b.2.core == some core && b.2.accHeld

/-- The store is granted: every row is +0. -/
def State.accGrant (s : State) (u : Nat) : State :=
  let b := s.blk u
  if b.accHeld then s else s.setBlk u { b with accHeld := true, acc := [] }

/-- A core's free store goes to the block whose matrix operation stands at the head of its queue, of several to the one whose was
issued first (R257, log entry 72). -/
def State.accNext (s : State) (core : Nat) : State :=
  let on := s.blocks.filter fun b => b.2.live && b.2.core == some core
  if on.any fun b => b.2.accHeld then s
  else
    let heads := on.flatMap fun b => b.2.groups.filterMap fun g => g.2.matq.head?.map fun e => (b.1, e.uid)
    match heads with
    | [] => s
    | x :: r => s.accGrant (r.foldl (fun m y => if y.2 < m.2 then y else m) x).1

/-- An element of the accumulator store (R257). -/
def Block.accAt (b : Block) (r n : Nat) : Word := mget 0#32 b.acc (r * 128 + n)

/-- Write a row of the accumulator store, shadowing it at its first write in the interval (R188). -/
def State.accRow (s : State) (u r : Nat) (vals : List Word) : State :=
  let b := s.blk u
  let v := b.interval
  let need := v.opened && v.flag && !(v.rows.any fun x => x.1 == r)
  let isOver := need && decide (Config.shadowBytes < v.used + 512)
  let b := if need && !isOver then
      { b with interval := { v with rows := (r, (List.range 128).map (b.accAt r)) :: v.rows } } else b
  let b := { b with acc := (vals.zipIdx).foldl (fun m x => mset 0#32 m (r * 128 + x.2) x.1) b.acc }
  let s := s.setBlk u b
  if isOver then s.loseInterval u else s

end Sys2Proof.Machine
end

