-- ==== Sys2Proof/Machine/MemOps.lean ====
section
/-! DEFINITION. Memory operations in flight: when one may perform (R225, R321-R328), how a load returns, a store or an atomic
performs (R227-R231, R244-R246), how peers are asked (R366-R369), translation of what is pending (R305, R314), and the end of
operations. -/

namespace Sys2Proof.Machine

/-! ## Order (R225, R255, R321, R327) -/

/-- A location is within reach of a scope (R321). -/
def reaches (sc : Scope) (p : Pend) : Bool :=
  p.bm || match p.phys with
    | none => true
    | some ph => match ph.target with
      | 0 => true
      | 1 => sc == .dom || sc == .sys
      | _ => sc == .sys

/-- Two operations of a common lane. -/
def shareLane (o x : Pend) : Bool := o.blk == x.blk && o.grp == x.grp && o.lanes.any fun L => x.lanes.contains L

/-- An access, not a fence. -/
def Pend.access (p : Pend) : Bool :=
  match p.kind with
  | .fence _ => false
  | .sys op => op == .jdec || op == .arrive
  | _ => true

/-- A load or an atomic. -/
def Pend.reads (p : Pend) : Bool :=
  match p.kind with
  | .load | .atomic | .asof => true
  | _ => false

/-- A store or an atomic. -/
def Pend.writes (p : Pend) : Bool :=
  match p.kind with
  | .store | .atomic => true
  | .sys op => op == .jdec || op == .arrive
  | _ => false

/-- An acquire, a release or a fence: RCsc ordered (R327). -/
def Pend.ordered (p : Pend) : Bool :=
  p.acq.isSome || p.rel.isSome || (match p.kind with | .fence _ => true | _ => false)

/-- Global accesses that may touch one place, as far as their offsets in a page tell. -/
def mayMeet (o x : Pend) : Bool :=
  decide (o.addr % 4096 < x.addr % 4096 + x.size) && decide (x.addr % 4096 < o.addr % 4096 + o.size)

/-- The same bytes, in part (R225): block memory by address, global memory by physical address once both are translated, until
then by their offsets in a page. -/
def overlap (o x : Pend) : Bool :=
  o.access && x.access && o.bm == x.bm &&
    (if o.bm then o.blk == x.blk && decide (o.addr < x.addr + x.size) && decide (x.addr < o.addr + o.size)
     else match o.phys, x.phys with
      | some a, some b => a.target == b.target && a.peer == b.peer && decide (a.off < b.off + x.size)
          && decide (b.off < a.off + o.size)
      | _, _ => mayMeet o x)

/-- A fence keeps younger accesses back (R255). -/
def fenceBlocks (k : FenceKind) (x : Pend) : Bool :=
  match k with
  | .acq => x.access
  | .rel => x.writes
  | .acqrel | .sc => x.access

/-- A fence, or a release, waits for an older access (R255). -/
def fenceAwaits (k : FenceKind) (o : Pend) : Bool :=
  match k with
  | .acq => o.reads
  | _ => o.access

/-- The scope of a fence in flight: its code stands in `size`. -/
def Pend.scope (p : Pend) : Scope := (Scope.ofCode (BitVec.ofNat 3 p.size)).getD .sys

/-- A release, or a fence that is one, at a scope. -/
def Pend.releases (p : Pend) : Option Scope :=
  match p.kind with
  | .fence .acq => none
  | .fence _ => some p.scope
  | _ => p.rel

/-- A store or an atomic that takes a stamp, or may: a historied page, a release (R229). -/
def Pend.stamped (p : Pend) : Bool :=
  !p.bm && (p.kind == .store || p.kind == .atomic) && (p.hist || p.rel.isSome || p.phys.isNone)

/-- A write to host memory, or one not yet translated (R336). -/
def Pend.toHost (p : Pend) : Bool :=
  !p.bm && p.writes && (match p.phys with
    | some ph => ph.target == 2
    | none => true)

/-- An older operation that has not performed keeps `x` from performing, apart from the same-location rule (R231, R255, R324, R327);
a release at system scope waits for the host writes of its whole group (R336). -/
def orderBlocks (o x : Pend) : Bool :=
  !o.done && ((x.releases == some .sys && o.toHost && o.blk == x.blk && o.grp == x.grp && o.iid != x.iid) || shareLane o x &&
    ((match o.acq with
      | some sc => x.access && reaches sc x
      | none => false)
    || (match o.kind with
      | .fence k => fenceBlocks k x && reaches o.scope x
      | _ => false)
    || (match x.rel with
      | some sc => o.access && reaches sc o
      | none => false)
    || (match x.kind with
      | .fence k => fenceAwaits k o && reaches x.scope o
      | _ => false)
    || (x.releases.isSome && o.stamped)
    || (o.ordered && x.ordered)))

/-- The same location, older (R225, R324), of two loads too (R325); of two lanes of one instruction in ascending order where one
writes (R223, R246), once a lower lane's fault is found no longer. -/
def placeBlocks (o x : Pend) : Bool :=
  !o.done && overlap o x &&
    (if o.writes || x.writes then shareLane o x || (o.iid == x.iid && o.blk == x.blk && o.grp == x.grp && o.fault.isNone)
     else shareLane o x && o.kind != .asof && x.kind != .asof)

/-- The operations issued before one. -/
def older (pend : List Pend) (uid : Nat) : List Pend := pend.takeWhile fun p => p.uid != uid

/-- A pending operation. -/
def State.op? (s : State) (uid : Nat) : Option Pend := s.pend.find? fun p => p.uid == uid

/-- Nothing older keeps an operation from performing. -/
def State.clear (s : State) (x : Pend) : Bool :=
  (older s.pend x.uid).all fun o => !orderBlocks o x && !placeBlocks o x

/-- Nothing older keeps the parts of one instruction that perform in one step from performing (R239). -/
def State.clearAll (s : State) (xs : List Pend) : Bool :=
  xs.all fun x => (older s.pend x.uid).all fun o => (xs.any fun y => y.uid == o.uid) || (!orderBlocks o x && !placeBlocks o x)

/-- The youngest older store of the lane to the location, when it alone keeps a load back and covers it: the store buffer
forwards it (R225). -/
def State.forward (s : State) (x : Pend) : Option (List Byte) :=
  let os := older s.pend x.uid
  if os.any fun o => orderBlocks o x then none
  else match (os.filter fun o => placeBlocks o x).getLast? with
    | some o =>
      let a := if o.bm then o.addr else (o.phys.map (·.off)).getD 0
      let b := if x.bm then x.addr else (x.phys.map (·.off)).getD 0
      if o.kind == .store && a ≤ b && b + x.size ≤ a + o.size && !o.bm then some ((o.data.drop (b - a)).take x.size) else none
    | none => none

/-! ## Floors (R229-R231) -/

/-- Raise a group's floor (R230). -/
def State.raiseFloor (s : State) (u g st : Nat) : State :=
  let G := s.grp u g
  s.setGrp u g { G with floor := max G.floor st }

/-- An acquire raises the group's floor to the block's and the team's (R231). -/
def State.acquireFloor (s : State) (u g : Nat) (sc : Scope) : State :=
  let f := match sc with
    | .grp => 0
    | .blk => (s.blk u).floor
    | _ => max (s.blk u).floor (s.team (s.blk u).team).floor
  s.raiseFloor u g f

/-- A release raises the block's and the team's floor to the group's (R231). -/
def State.releaseFloor (s : State) (u g : Nat) (sc : Scope) : State :=
  let f := (s.grp u g).floor
  let b := s.blk u
  match sc with
  | .grp => s
  | .blk => s.setBlk u { b with floor := max b.floor f }
  | _ =>
    let s := s.setBlk u { b with floor := max b.floor f }
    let t := s.team b.team
    s.setTeam b.team { t with floor := max t.floor f }

/-- The engine entries that wait for an operation take at least a floor (R232). -/
def CoreSt.lift (c : CoreSt) (uid f : Nat) : CoreSt :=
  let up := fun (e : CopyEntry) => if e.after.contains uid then { e with floor := max e.floor f } else e
  { c with
    ldq := c.ldq.map up
    stq := c.stq.map up
    chans := c.chans.map fun x => (x.1, if x.2.after.contains uid then { x.2 with floor := max x.2.floor f } else x.2) }

/-- An operation that performs gives its group's floor, which holds the stamps of what performed before it, to what it kept back:
operations, and engine entries (R229, R232, R329). -/
def State.lift (s : State) (p : Pend) : State :=
  let G := s.grp p.blk p.grp
  let f := G.floor
  let held := fun (q : Pend) => decide (p.uid < q.uid) && orderBlocks { p with done := false } q
  let s := { s with
    pend := s.pend.map fun (q : Pend) => if held q then { q with floor := max q.floor f } else q
    cores := s.cores.map fun (c : Nat × CoreSt) => (c.1, c.2.lift p.uid f) }
  let up := fun (e : MatEntry) => if e.after.contains p.uid then { e with floor := max e.floor f } else e
  s.setGrp p.blk p.grp { G with matq := G.matq.map up }

/-- An acquire that performs: the group's floor, and the floor of what it kept back (R231, R232). -/
def State.acquired (s : State) (p : Pend) (sc : Scope) : State := (s.acquireFloor p.blk p.grp sc).lift p

/-- A release that performs: the block's and the team's floor, and the floor of what it kept back (R231, R232). -/
def State.releasing (s : State) (p : Pend) (sc : Scope) : State := (s.releaseFloor p.blk p.grp sc).lift p

/-! ## Packets to peers (R362, R366, R368, R369) -/

/-- A member of the domain that is live. -/
def State.liveMember (s : State) (dev : Nat) : Bool :=
  let m : Member := mget {} s.members dev
  m.member && m.live

/-- Byte enables of an access within its 32-byte sector (R366, log entry 9). -/
def enables (off n : Nat) : List Byte := leBytes 4 ((2 ^ n - 1) * 2 ^ (off % 32))

/-- The virtual channel of a service class (R367). -/
def classVc (cls : Nat) : Nat := if cls = 0 then 0 else if cls = 2 then 2 else 1

/-- Send a request of a service class: its literal or enables, then a byte with H in bit 0, release in bit 1, bit 2 where its data are
poisoned, and bit 3 of an as-of read; its data are the causal floor and what follows it (R229, R291, R366, R367, log entry 9). -/
def State.sendReq (s : State) (kind : Nat) (ph : Phys) (tag ctx cls : Nat) (lit : List Byte) (hist rel bad : Bool) (floor : Nat)
    (payload : List Byte) : Nat × State :=
  let asof := kind == 0 && !payload.isEmpty
  let flags := (if hist then 1 else 0) + (if rel then 2 else 0) + (if bad then 4 else 0) + (if asof then 8 else 0)
  s.sendPkt kind (classVc cls) cls ph.peer ph.off tag ctx (lit ++ [BitVec.ofNat 8 flags]) (leBytes 8 floor ++ payload)

/-- A write packet of a group counts on its path (R335). -/
def State.addSent (s : State) (u g dev path : Nat) : State :=
  let G := s.grp u g
  s.setGrp u g { G with sentCnt := mupd 0 G.sentCnt (dev * 4 + path) (· + 1) }

/-- A device joins a group's flush-marker set, with a write packet on a path (R335). -/
def State.addDest (s : State) (u g dev path : Nat) : State :=
  let s := s.addSent u g dev path
  let G := s.grp u g
  s.setGrp u g { G with dests := if G.dests.contains dev then G.dests else dev :: G.dests }

/-! ## The end of operations -/

/-- The poison word (R227). -/
def poisonWord : Word := 0x7FC00000#32

/-- Replace a pending operation. -/
def State.setOp (s : State) (p : Pend) : State := { s with pend := s.pend.map fun q => if q.uid == p.uid then p else q }
/-- Remove a pending operation, and updates combined into it. -/
def State.delOp (s : State) (uid : Nat) : State :=
  { s with pend := s.pend.filter fun q => q.uid != uid && q.merged != some uid }

/-- A producer has completed: its scoreboard entry leaves, and a stall-count-15 wait for it ends (R64). -/
def Group.complete (G : Group) (now iid : Nat) : Group :=
  { G with
    board := G.board.filter fun e => e.iid != iid
    untilDone := if G.untilDone = some iid then none else G.untilDone
    notBefore := if G.untilDone = some iid then max G.notBefore (now + 1) else G.notBefore
    feWait := if G.feWait = some iid then none else G.feWait }

/-- A result of fixed latency has arrived ahead of the cycle it completes at: until then a read gets the old value or the new, or is
early (R26, R27, R66). -/
def Group.arrived (G : Group) (due iid : Nat) : Group :=
  { G with
    board := G.board.map fun e => if e.iid == iid then { e with mem := false, done := some due } else e
    untilDone := if G.untilDone = some iid then none else G.untilDone
    notBefore := if G.untilDone = some iid then max G.notBefore (due + 1) else G.notBefore }

/-- The cycle count of the core a block occupies. -/
def State.nowOf (s : State) (u : Nat) : Nat := s.cycleOf (((s.blk u).core).getD 0)

/-- A result reaches a region snapshot that took its register by reference (R175). -/
def Group.snapDeliver (G : Group) (iid : Nat) (w : RegKey × Word) : Group :=
  let put := fun (L : Nat) (f : Snap → Snap) =>
    let l := G.lane L
    if l.region.waits.contains (w.1, iid) then
      G.setLane L { l with region := { f l.region with waits := l.region.waits.filter (· != (w.1, iid)) } }
    else G
  match w.1 with
  | .v L x => put L fun r => { r with stack := mset 0#32 r.stack x w.2 }
  | .p L n => put L fun r => { r with preds := setBit r.preds n (w.2.getLsbD 0) }
  | _ => G

/-- Deliver the results of an access to the destinations that are still its own (R65), and to the snapshots that wait for them. -/
def Group.deliver (G : Group) (iid : Nat) (ws : List (RegKey × Word)) : Group :=
  let own := (G.board.filter fun e => e.iid == iid).flatMap fun e => e.cells.map (·.key)
  ws.foldl (fun g w => g.snapDeliver iid w) (G.writes (ws.filter fun w => own.contains w.1))

/-- A result reaches a rollback snapshot that took its register by reference (R188). -/
def GroupSnap.deliver (x : GroupSnap) (iid : Nat) (w : RegKey × Word) : GroupSnap :=
  if x.waits.contains (w.1, iid) then
    let x := { x with waits := x.waits.filter (· != (w.1, iid)) }
    let put := fun (L : Nat) (f : Lane → Lane) => { x with lanes := mset {} x.lanes L (f (mget {} x.lanes L)) }
    (match w.1 with
      | .v L n => put L fun l => { l with stack := mset 0#32 l.stack n w.2 }
      | .p L n => put L fun l => { l with preds := setBit l.preds n (w.2.getLsbD 0) }
      | _ => x)
  else x

/-- The results of an access reach the rollback snapshot of its group. -/
def Block.snapDeliver (b : Block) (g iid : Nat) (ws : List (RegKey × Word)) : Block :=
  if b.interval.groups.isEmpty then b
  else
    let gs := b.interval.groups.map fun (x : GroupSnap) => if x.grp = g then ws.foldl (fun x w => x.deliver iid w) x else x
    { b with interval := { b.interval with groups := gs } }

/-- The line of a physical address, as memo entries and L1 name it; none for a peer's. -/
def State.lineOf (s : State) (ph : Phys) : Option Nat :=
  match ph.target with
  | 0 => some (s.da ph.off / 128)
  | 2 => some ((hostBase + ph.off) / 128)
  | _ => none

/-- The quarter of a group. -/
def Block.quarterOf (b : Block) (g : Nat) : Nat := mget 0 b.slots g / 8

/-- A reuse or as-of load that has returned its data makes its memo entry (R235, R250), a reuse load only while its value stands:
not with poison, nor for a line whose
home is a peer (log entry 12). -/
def State.memoMake (s : State) (u g iid : Nat) (ops : List Pend) : State :=
  let b := s.blk u
  let G := b.grp g
  let s' := s.setGrp u g { G with memoWait := G.memoWait.filter fun m => m.1 != iid }
  match G.memoWait.find? (fun m => m.1 == iid), b.core with
  | some (_, m), some core =>
    let lines := ops.map fun p => p.phys.bind fun ph => s.lineOf ph
    let now := ops.all fun p => m.asof || (match p.phys with
      | some ph => bytesWords (if ph.target = 2 then rdBytes s.mem (hostBase + ph.off) p.size
          else s.readLocal (s.keyOf p.ctx) ph.off p.size) == p.result
      | none => false)
    let old := m.asof && lines.any fun l => l.any fun n => decide (m.asofS < (s.slice (daSlice (n * 128))).dusk)
    if now && !old && lines.all Option.isSome && ops.all (fun p => p.result.all (· != poisonWord)) then
      let m := { m with vals := ops.map (·.result), lines := lines.filterMap id, stamp := ops.foldl (fun t p => max t p.stamp) 0 }
      let c := s'.core core
      let q := c.quarter (b.quarterOf g)
      s'.setCore core (c.setQuarter (b.quarterOf g) { q with memo := (m :: q.memo).take 256 })
    else s'
  | _, _ => s'

/-- Once every lane's part of an instruction has returned, its destinations are written together and it completes
(R27, R64, R225). -/
def State.retire (s : State) (u g iid : Nat) : State :=
  let ops := s.pend.filter fun p => p.iid == iid && p.blk == u && p.grp == g
  if ops.all fun p => p.done then
    let ws := ops.flatMap fun p => p.dest.zip p.result ++ (match p.status with
      | some k => [(k, 1#32)]
      | none => [])
    let G := s.grp u g
    let due := if ops.all fun p => p.due.isSome then ops.foldl (fun d p => max d (p.due.getD 0)) 0 else 0
    let s := s.setGrp u g (if s.nowOf u < due then (G.deliver iid ws).arrived due iid else (G.deliver iid ws).complete (s.nowOf u) iid)
    let s := s.setBlk u ((s.blk u).snapDeliver g iid ws)
    let s := s.memoMake u g iid ops
    { s with pend := s.pend.filter fun p => !(p.iid == iid && p.blk == u && p.grp == g) }
  else s

/-- The words a load of n bytes writes (R221). -/
def loadWords (bs : List Byte) : List Word := bytesWords bs

/-- The 8-byte units of `mem` that n bytes from an address on touch. -/
def unitsOf (a n : Nat) : List Nat := (List.range ((a + n + 7) / 8 - a / 8)).map fun i => a / 8 + i

/-- Where a physical place lies in `mem`; none at a peer. -/
def State.memAddr (s : State) (ph : Phys) : Option Nat :=
  match ph.target with
  | 0 => some (s.da ph.off)
  | 2 => some (hostBase + ph.off)
  | _ => none

/-- The words that n bytes from an address of `mem` touch, with how many values each has had before. -/
def State.countsAt (s : State) (a n : Nat) : List (Nat × Nat) :=
  (List.range ((n + 3) / 4)).map fun i => (a / 4 + i, (mget [] s.past ((a + 4 * i) / 8)).length)

/-- A group has accessed words when they had had so many values: older ones are too old for its `.no` atomics (R334). -/
def State.seeWords (s : State) (u g : Nat) (ws : List (Nat × Nat)) : State :=
  let G := s.grp u g
  s.setGrp u g { G with saw := ws.foldl (fun m w => mset 0 m w.1 (max (mget 0 m w.1) w.2)) G.saw }

/-- A group has accessed a location (R334). -/
def State.see (s : State) (p : Pend) : State :=
  match p.bm, p.phys.bind s.memAddr with
  | false, some a => s.seeWords p.blk p.grp (s.countsAt a p.size)
  | _, _ => s

/-- A request of a lane to a channel is over (R392, R394, R407): its home slice has served it, unless L1 did, and it may have missed its
deadline. -/
def State.lateOp (s : State) (p : Pend) : State :=
  if p.bm then s
  else
    let s := match p.phys with
      | some ph => if ph.target == 0 && (p.writes || p.miss) then s.served (s.home ph.off) 0 1 else s
      | none => s
    s.late p.ctx (((s.blk p.blk).core).getD p.core) 21 0 p.issued 1

/-- A lane's load, atomic or as-of load has its data (R227, R230): floor, poison, acquire, and the instruction's end. -/
def State.returned (s : State) (p : Pend) (ws : List Word) (bad : Bool) (st : Nat) : State :=
  let s := s.setOp { p with done := true, result := if bad then p.dest.map fun _ => poisonWord else ws, stamp := st }
  let s := if bad && !p.helper then s.cirBlk p.blk 0 else s
  let s := (if p.kind == .asof then s else s.see p).raiseFloor p.blk p.grp st
  let s := match p.acq with
    | some sc => s.acquired p sc
    | none => s
  let s := if p.kind == .load || p.kind == .asof then s.lateOp p else s
  s.retire p.blk p.grp p.iid

/-! ## Loads -/

/-- A read of L1 (R230): the stamp recorded with the line, when it is held and serves the load, which chose so where it translated
(`due`, R26). -/
def State.l1Stamp (s : State) (core line : Nat) (p : Pend) : Option Nat :=
  match mget 0 (s.core core).l1 line with
  | 0 => none
  | n + 1 => if p.due.isSome then some n else none

/-- A line enters the L1 of a core with the stamp returned (R230). -/
def State.l1Fill (s : State) (core line st : Nat) : State :=
  let c := s.core core
  s.setCore core { c with l1 := mset 0 c.l1 line (st + 1) }

/-- Whether an instruction has something counted for the first time (R314, R405). -/
def State.firstOf (s : State) (p : Pend) (what n : Nat) : Bool := !(s.grp p.blk p.grp).seen.contains (what, p.iid, n)

/-- It has been counted. -/
def State.noteSeen (s : State) (p : Pend) (what n : Nat) : State :=
  let G := s.grp p.blk p.grp
  s.setGrp p.blk p.grp { G with seen :=
    (what, p.iid, n) :: G.seen.filter fun c => s.pend.any fun q => q.iid == c.2.1 && q.blk == p.blk && q.grp == p.grp }

/-- A line that a load of global memory touches counts once per instruction, as an L1 hit or an L1 miss (R405). -/
def State.countLine (s : State) (p : Pend) (hit : Bool) : State :=
  (s.count p.ctx (if hit then 0x06 else 0x07) (if s.firstOf p 1 (p.addr / 128) then 1 else 0)).noteSeen p 1 (p.addr / 128)

/-- A load of local or host memory: data, poison, stamp (R230); an L1 hit returns the stamp recorded with the line. -/
def State.loadPhys (s : State) (core : Nat) (p : Pend) (ph : Phys) : List Byte × Bool × Nat × State :=
  let ctx := p.ctx
  let n := p.size
  let hist := p.hist
  if ph.target = 2 then
    (rdBytes s.mem (hostBase + ph.off) n, s.hostPoison ph.off n, (s.slice (sliceOfCore core)).last, s.countLine p false)
  else
    let line := s.da ph.off / 128
    let r := s.loadLocal (s.keyOf ctx) ph.off n hist
    match s.l1Stamp core line p with
    | some st => (r.1, r.2.1, st, s.countLine p true)
    | none => (r.1, r.2.1, r.2.2, (s.countLine p false).l1Fill core line r.2.2)

/-! ## Flush markers (R256, R335) -/

/-- A store or atomic that holds a block's release has its markers: none sent yet, or none outstanding (R335). -/
def needsMarkers (sc : Option Scope) : Bool := sc == some .dom || sc == some .sys

/-- Send the flush markers of a group's release: one to each device of the set on each path, with the count of write packets
sent there since the previous one (R256, R335). The set stands until the release performs (`emptyDests`). -/
def State.sendMarkers (s : State) (u g tag : Nat) : List (Nat × Nat) × State :=
  let G := s.grp u g
  let ds := (G.dests.filter fun d => s.liveMember d).flatMap fun d => (List.range 4).map fun p => (d, p)
  let lost := G.dests.any fun d => !s.liveMember d
  let s := ds.foldl (fun s dp => s.post {
    kind := 6, vc := 4, path := dp.2, cls := 0, esc := false, dst := dp.1, src := s.device, inc := (mget {} s.members dp.1 : Member).inc, seq := 0
    off := 0, tag := tag % 2 ^ 32, ctx := (s.blk u).ctx, spec := leBytes 4 (mget 0 G.sentCnt (dp.1 * 4 + dp.2)) ++ List.replicate 6 0#8
    data := [], zeros := true }) s
  let s := s.setGrp u g { s.grp u g with sentCnt := G.sentCnt.filter fun x => !G.dests.contains (x.1 / 4) }
  (ds, if lost then s.cirBlk u 3 else s)

/-- A release at scope 5 or 6 has performed: it empties the set, but for devices written since its markers (R335). -/
def State.emptyDests (s : State) (u g : Nat) (sc : Option Scope) : State :=
  if needsMarkers sc then
    let G := s.grp u g
    s.setGrp u g { G with dests := G.dests.filter fun d => (List.range 4).any fun p => mget 0 G.sentCnt (d * 4 + p) != 0 }
  else s

/-! ## Releases and peers -/

/-- What an operation's release adds once it performs (R231). -/
def State.released (s : State) (p : Pend) : State :=
  let s := s.lateOp p
  let s := match p.phys with
    | some ph =>
      -- the log append and the update of the last-write stamp
      if p.hist && ph.target == 0 then (s.served (s.home ph.off) 2 2).late p.ctx (640 + s.home ph.off / 8) 0 2 p.issued 2 else s
    | none => s
  match p.rel with
  | some sc => (s.releasing p sc).emptyDests p.blk p.grp p.rel
  | none => s

/-- An atomic is over: with a result (`ws`) it returns, without one it leaves (R225). -/
def State.atomEnd (s : State) (p : Pend) (ws : List Word) (bad : Bool) (st : Nat) : State :=
  if p.dest.isEmpty then
    let s := if bad then s.cirBlk p.blk 0 else s
    -- every member of a batch takes its stamp (R229, R230)
    let s := (s.pend.filter fun q => q.merged == some p.uid).foldl (fun s q => (s.see q).raiseFloor q.blk q.grp st) s
    let s := (s.see p).raiseFloor p.blk p.grp st
    let s := match p.acq with
      | some sc => s.acquired p sc
      | none => s
    (s.released p).delOp p.uid
  else (s.released p).returned p ws bad st

/-- Ask a peer, or answer at once when it is no live member (R227, R310, R366). -/
def State.askPeer (s : State) (p : Pend) (ph : Phys) (kind : Nat) (lit data : List Byte) : State :=
  if s.liveMember ph.peer then
    let floor := if p.rel.isSome then (s.grp p.blk p.grp).floor else p.floor
    let t := s.sendReq kind ph p.uid p.ctx 0 lit p.hist p.rel.isSome false floor data
    let s := t.2.setOp { p with sent := true }
    if p.writes then s.addDest p.blk p.grp ph.peer t.1 else s
  else
    let s := s.cirBlk p.blk 3
    match p.kind with
    | .store => (s.released p).delOp p.uid
    | .atomic => s.atomEnd p [] (!p.dest.isEmpty) 0
    | _ => s.returned p [] true 0

/-- A load's line stands in its core's L1. -/
def State.l1Held (s : State) (p : Pend) : Bool :=
  match p.phys with
  | some ph => ph.target == 0 && mget 0 (s.core (((s.blk p.blk).core).getD p.core)).l1 (s.da ph.off / 128) != 0
  | none => false

/-- LOAD_RETURN (R221, R225, R227, R234, R239). -/
def State.loadReturn (s : State) (p : Pend) : State :=
  if p.done || p.fault.isSome || p.sent || p.kind != .load then s
  else if p.bm then
    let b := s.blk p.blk
    let bad := mget false b.bmPoison (p.addr / 32)
    if p.fe then
      -- every active lane's bytes of the granule in one step (R239)
      let g := p.addr / 16
      let ops := s.pend.filter fun q => q.iid == p.iid && q.blk == p.blk && q.grp == p.grp && !q.done && q.addr / 16 == g
      if !mget false b.full g || !s.clearAll ops then s
      else
          let s := ops.foldl (fun s q => s.returned { q with fe := false } (loadWords (rdBytes b.bm q.addr q.size)) bad 0) s
          if p.clr then s.setFull p.blk g false else s
    else if !s.clear p then s
    else s.returned p (loadWords (rdBytes b.bm p.addr p.size)) bad 0
  else match p.phys with
    | none => s
    | some ph =>
      match s.forward p with
      | some bs => s.returned p (loadWords bs) false 0
      | none =>
        if !s.clear p then s
        else if ph.target = 1 then (s.countLine p false).askPeer p ph 0 (enables ph.off p.size) []
        else
          let core := ((s.blk p.blk).core).getD p.core
          let r := s.loadPhys core p ph
          r.2.2.2.returned (if s.l1Held p then p else { p with due := none }) (loadWords r.1) r.2.1 r.2.2.1

/-- ASOF_WALK (R249, R397): the walk was made where the load translated (R170), so what it found cannot be reclaimed under it; a peer is
asked. -/
def State.asofWalk (s : State) (p : Pend) : State :=
  if p.done || p.fault.isSome || p.sent || p.kind != .asof then s
  else match p.phys with
    | none => s
    | some ph =>
      if !s.clear p then s
      else if ph.target = 1 then s.askPeer p ph 0 (enables ph.off p.size) (leBytes 8 p.asofS)
      else match p.walked with
        | none => s
        | some (bad, steps) =>
          ((((s.count p.ctx 0x10 steps).unitAdd (512 + s.home ph.off) 7 steps).served (s.home ph.off) 2 steps).late p.ctx
            (640 + s.home ph.off / 8) 0 2 p.issued steps).returned { p with miss := true } (loadWords p.data) bad 0

/-! ## Stores -/

/-- Whether a write can perform now: migration, re-key and a stalled ring hold it back (R228, R316, R402). -/
def State.writeReady (s : State) (ph : Phys) (hist migr : Bool) : Bool :=
  !migr && (ph.target != 0 || (!s.lineFull ph.off && !(hist && s.ringStalled (daStack (s.da ph.off)))))

/-- A store that a ring's pinned oldest entry holds back begins a stall: its tick, and PINTMO of the contexts whose pins block it
(R399). -/
def State.noteStall (s : State) (ph : Phys) (hist : Bool) : State :=
  let stack := daStack (s.da ph.off)
  let r := s.ring stack
  if ph.target = 0 && hist && s.ringStalled stack && r.stall.isNone then
    let cs := ((s.pinsBelow (mget {} r.entries r.oldest : HistEntry).stamp).map (·.1)).eraseDups
    s.setRing stack { r with stall := some (s.tick, cs.map fun c => (c, (s.ctx c).pintmo.toNat)) }
  else s

/-- What an attempt that waits leaves: a stall begun, entries reclaimed, a release to host memory stamped and held; it fills no TLB. -/
def State.stalled (s t : State) : State := { t with tlb := s.tlb }

/-- Stores that are made together or not at all need more of a ring than it has: it reclaims for them, and where a pin holds its oldest
entry the stall begins; t is the state in which the first of them must wait (R228, R398, R399). A release to host memory that a slice
holds by then stays held (R229). -/
def State.roomFor (s t : State) : State :=
  let s := { s with hostq := t.hostq, slices := t.slices, fresh := t.fresh }
  (mkeys t.rings).foldl (fun s k =>
    let s := (List.range ((t.ring k).oldest - (s.ring k).oldest)).foldl (fun s _ => s.reclaim k) s
    if (s.ring k).stall.isNone then s.setRing k { s.ring k with stall := (t.ring k).stall } else s) s

/-- A slice holds a release to host memory until its own stamp time exceeds the stamp's by 17 ticks (R229). -/
def State.hostHeld (s : State) (core : Nat) (hold : Option Nat) : Bool :=
  match hold with
  | some t => decide (s.tickAt (sliceOfCore core) - s.stampBase < t)
  | none => false

/-- `.nt` releases the line from the storing core's L1 (R236). -/
def State.l1Drop (s : State) (core line : Nat) : State :=
  let c := s.core core
  s.setCore core { c with l1 := mset 0 c.l1 line 0 }

/-- The slice of the issuing core's router stamps a release to host memory and holds it (R229). -/
def State.hostHold (s : State) (p : Pend) : State :=
  let core := ((s.blk p.blk).core).getD p.core
  let t := s.takeStamp (sliceOfCore core) (s.grp p.blk p.grp).floor
  t.2.setOp { p with stamp := t.1, hold := some (t.1 / 2 ^ 14 + 17) }

/-- The full/empty bits of an `st.s.fe`, and its bytes in one step per granule (R239). -/
def State.bmPerform (s : State) (p : Pend) : State :=
  if p.fe then
    let g := p.addr / 16
    let ops := s.pend.filter fun q => q.iid == p.iid && q.blk == p.blk && q.grp == p.grp && q.addr / 16 == g
    if !s.clearAll ops then s else
    let s := ops.foldl (fun s q => (s.bmWrite q.blk q.addr q.data).delOp q.uid) s
    s.setFull p.blk g true
  else (s.bmWrite p.blk p.addr p.data).delOp p.uid

/-- STORE_PERFORM (R223, R225, R228, R229, R234, R239). -/
def State.storePerform (s : State) (p : Pend) : State :=
  if p.done || p.fault.isSome || p.sent || p.kind != .store then s
  else if p.bm && p.fe then s.bmPerform p
  else if !s.clear p then s
  else if p.bm then s.bmPerform p
  else match p.phys with
    | none => s
    | some ph =>
      if needsMarkers p.rel && p.markers.isNone then
        let m := s.sendMarkers p.blk p.grp p.uid
        m.2.setOp { p with markers := some m.1 }
      else if needsMarkers p.rel && p.markers != some [] then s
      else if !s.writeReady ph p.hist p.migr then s.noteStall ph p.hist
      else
        let core := ((s.blk p.blk).core).getD p.core
        let floor := if p.rel.isSome then (s.grp p.blk p.grp).floor else p.floor
        match ph.target with
        | 0 =>
          let r := s.storeLocal (s.keyOf p.ctx) ph.off p.data p.hist p.rel.isSome floor (some core)
          let t := if p.nt then r.2.l1Drop core (s.da ph.off / 128) else r.2
          ((((t.see p).raiseFloor p.blk p.grp r.1).released p).delOp p.uid)
        | 1 => s.askPeer p ph 1 (enables ph.off p.size) p.data
        | _ =>
          if p.rel.isSome && p.hold.isNone then s.hostHold p
          else if s.hostHeld core p.hold then s
          else
            let s := s.storeHost ph.off p.data (some core) p.stamp
            ((((s.see p).raiseFloor p.blk p.grp p.stamp).released p).delOp p.uid)

/-! ## Atomics (R244-R246) -/

/-- The size of an atomic's type in bytes. -/
def atomBytes (t : AtomTy) : Nat := if t.is64 then 8 else 4
/-- Whether an integer type is signed. -/
def atomSigned : AtomTy → Bool
  | .s32 | .s64 => true
  | _ => false

/-- min and max of n-bit numbers. -/
def atomMinMax (signed wantMax : Bool) (bits a b : Nat) : Nat :=
  let v := fun x => if signed && 2 ^ (bits - 1) ≤ x then (x : Int) - 2 ^ bits else (x : Int)
  if wantMax then (if v a < v b then b else a) else (if v b < v a then b else a)

/-- A floating-point operation per element: nearest, subnormals honoured, canonical NaNs, no flag (R244). -/
def atomFp (ty : AtomTy) (op : Fmt → Nat → Nat → Nat) (a b : Nat) : Nat :=
  match ty with
  | .f16x2 => op .f16 (a % 65536) (b % 65536) + 65536 * op .f16 (a / 65536) (b / 65536)
  | .bf16x2 => op .bf16 (a % 65536) (b % 65536) + 65536 * op .bf16 (a / 65536) (b / 65536)
  | _ => op .f32 a b

/-- The new value of a location (R244). -/
def atomNew (spec : AtomSpec) (old b cmp : Nat) : Nat :=
  let bits := 8 * atomBytes spec.ty
  match spec.op with
  | .add => (old + b) % 2 ^ bits
  | .min => atomMinMax (atomSigned spec.ty) false bits old b
  | .max => atomMinMax (atomSigned spec.ty) true bits old b
  | .and => old &&& b
  | .or => old ||| b
  | .xor => old ^^^ b
  | .xchg => b
  | .cas => if old = cmp then b else old
  | .fadd => atomFp spec.ty (fun f x y => (fadd f .rne x y).1) old b
  | .fmin => atomFp spec.ty (fun f x y => (fminmax f .rne false x y).1) old b
  | .fmax => atomFp spec.ty (fun f x y => (fminmax f .rne true x y).1) old b

/-- The values a location has had since the group's last access to it, the newest first: its present one is not among them (R325,
R334). -/
def State.pastOf (s : State) (p : Pend) : List (List Word) :=
  match p.phys.bind s.memAddr with
  | none => []
  | some a =>
    let old := mget [] s.past (a / 8)
    let saw := (List.range ((p.size + 3) / 4)).foldl (fun m i => max m (mget 0 (s.grp p.blk p.grp).saw (a / 4 + i))) 0
    (old.take (old.length - saw)).map fun d => if p.size = 8 then [d.lo, d.hi] else [if a % 8 = 0 then d.lo else d.hi]

/-- The value an atomic returns: the old one; for `.no` any value of the location's coherence order that is no older than the group's
last access to it, a free choice among them (R334, log entry 1). What a peer answers is the peer's choice. -/
def atomReturn (s : State) (p : Pend) (old : List Byte) : List Word :=
  match p.atom with
  | some spec =>
    let vs := s.pastOf p
    if spec.use == .no && !p.sent then vs.getD (Config.freeNat (pairNat p.uid 4) % (vs.length + 1)) (bytesWords old)
    else bytesWords old
  | none => bytesWords old

/-- The literal a peer is sent (R366). -/
def atomLit (spec : AtomSpec) : List Byte := leBytes 4 spec.word.toNat

/-- ATOMIC_PERFORM (R223, R227-R231, R244-R246). -/
def State.atomicPerform (s : State) (p : Pend) : State :=
  if p.done || p.fault.isSome || p.sent || p.merged.isSome || p.kind != .atomic then s
  else if !s.clear p then s
  else match p.atom with
    | none => s
    | some spec =>
      if p.bm then
        let b := s.blk p.blk
        let old := rdBytes b.bm p.addr p.size
        let s' := s.bmWrite p.blk p.addr (leBytes p.size (atomNew spec (leNat old) (leNat p.data) (leNat p.cmp)))
        s'.atomEnd p (bytesWords old) (mget false b.bmPoison (p.addr / 32)) 0
      else match p.phys with
        | none => s
        | some ph =>
          if needsMarkers p.rel && p.markers.isNone then
            let m := s.sendMarkers p.blk p.grp p.uid
            m.2.setOp { p with markers := some m.1 }
          else if needsMarkers p.rel && p.markers != some [] then s
          else if !s.writeReady ph p.hist p.migr then s.noteStall ph p.hist
          else
            let core := ((s.blk p.blk).core).getD p.core
            let floor := if p.rel.isSome then (s.grp p.blk p.grp).floor else p.floor
            match ph.target with
            | 0 =>
              let key := s.keyOf p.ctx
              let old := s.readLocal key ph.off p.size
              let bad := s.poisonedAt ph.off
              let new := leBytes p.size (atomNew spec (leNat old) (leNat p.data) (leNat p.cmp))
              let stamped := p.hist || p.rel.isSome
              let r := s.storeLocal key ph.off new p.hist p.rel.isSome floor (some core)
              let st := if stamped then r.1 else if p.dest.isEmpty then 0 else (r.2.slice (r.2.home ph.off)).last
              r.2.atomEnd p (atomReturn s p old) bad st
            | 1 => s.askPeer p ph 2 (atomLit spec) (p.cmp ++ p.data)
            | _ =>
              if p.rel.isSome && p.hold.isNone then s.hostHold p
              else if s.hostHeld core p.hold then s
              else
                let old := rdBytes s.mem (hostBase + ph.off) p.size
                let new := leBytes p.size (atomNew spec (leNat old) (leNat p.data) (leNat p.cmp))
                let t := s.storeHost ph.off new (some core) p.stamp
                t.atomEnd p (atomReturn s p old) (s.hostPoison ph.off p.size)
                  (if p.rel.isSome then p.stamp else if p.dest.isEmpty then 0 else (t.slice (sliceOfCore core)).last)

/-- Combine a `.cm` update into another of the same location, operation and type (R245): the batch performs as one. One that has taken
others in, or waits on M (R316), joins none. -/
def State.combine (s : State) (uid into : Nat) : State :=
  match s.op? uid, s.op? into with
  | some p, some q =>
    match p.atom, q.atom with
    | some a, some b =>
      if a.use == .cm && b.use == .cm && a.op == b.op && a.ty == b.ty && p.phys.isSome && p.phys == q.phys && uid != into
        && p.merged.isNone && q.merged.isNone && !p.sent && !q.sent && s.clear p && s.clear q && !p.done && !q.done
        && p.fault.isNone && q.fault.isNone && !p.migr && !q.migr && s.pend.all (fun o => o.merged != some uid) then
        let v := atomNew b (leNat q.data) (leNat p.data) 0
        (s.setOp { q with data := leBytes q.size v, floor := max p.floor q.floor, hist := p.hist || q.hist }).setOp { p with merged := some into }
      else s
    | _, _ => s
  | _, _ => s

/-! ## Translation of what is pending (R180, R305, R314) -/

/-- What a pending operation needs of its page (R310). -/
def Pend.acc (p : Pend) : Acc :=
  match p.kind with
  | .store | .atomic | .sys _ => .store
  | .asof => .asof
  | _ => .load

/-- Count a page of an instruction through a leaf with C set, once per instruction (R314). -/
def State.countAccess (s : State) (p : Pend) (x : Xlat) : State :=
  if bitOf x.leaf 6 && !p.helper && s.firstOf p 0 (p.addr / 4096) then
    { s.noteSeen p 0 (p.addr / 4096) with
      counted := s.counted ++ [⟨p.ctx, p.addr / 4096 * 4096, bitsOf x.leaf 8 7, p.writes⟩] }
  else s

/-- Where a load of local memory translates: when it is free to perform, its line stands in L1 and the 60 cycles from its issue are not
over, L1 may serve it, at their end (R26); the choice is free (log entry 1). Every other load misses. -/
def State.l1Choice (s : State) (p : Pend) : Pend :=
  if p.kind != .load then p
  else if (s.clear p || (s.forward p).isSome) && s.l1Held p && decide (s.nowOf p.blk < p.cycle + 60) && Config.freeBool (pairNat p.uid 26)
  then { p with due := some (p.cycle + 60) } else { p with miss := true }

/-- The store-fault records of a group, with those whose faults are found and not yet recorded (R180). -/
def State.records (s : State) (u g : Nat) : Nat :=
  (s.grp u g).sfq.length + (s.pend.filter fun p => p.blk == u && p.grp == g && p.kind == .store && p.fault.isSome).length

/-- A block's kernel is being killed: no record of its groups will be delivered (R140). -/
def State.dying (s : State) (u : Nat) : Bool := (s.kernel (s.blk u).kernel).state == .killing

/-- A fault found at translation (R170, R177): a helper lane takes 0, in its status predicate too, and raises nothing (R153, R223). -/
def State.walkFault (s : State) (p : Pend) (cause : Nat) : State :=
  if p.helper then s.returned { p with dest := p.dest ++ p.status.toList, status := none } (List.replicate (p.dest.length + 1) 0#32) false 0
  else s.setOp { p with fault := some cause }

/-- What a translation counts (R405, R407): a page that L1's TLB does not serve, once per instruction, and a walk, whose reads a slice, any
of them, serves. -/
def State.countWalk (s : State) (core ctx since : Nat) (found : Option Tlb) (first : Bool) : State :=
  let walks := if found.isSome then 0 else 1
  let misses := if first && !found.any (·.unit == core) then 1 else 0
  let s := ((s.count ctx 0x08 misses).count ctx 0x09 walks).unitAdd (656 + dieOf core) 0 walks
  if walks = 0 then s
  else (s.served (Config.freeNat (pairNat s.fresh 60) % 128) 0 (1 + Config.freeNat (pairNat s.fresh 61) % 5)).late ctx (656 + dieOf core) 1 0 since 5

/-- PAGE_WALK (R180, R305-R311): translation goes in program order within each lane, and a store waits while the record queue
is full. -/
def State.pageWalk (s : State) (p : Pend) (cached : Bool) : State :=
  if p.bm || p.done || p.phys.isSome || p.fault.isSome || !p.access then s
  else if (older s.pend p.uid).any fun o => shareLane o p && !o.bm && !o.done &&
      ((o.access && o.phys.isNone) || o.kind == .sys .tlbinv) then s
  else if p.kind == .store && 16 ≤ s.records p.blk p.grp && (s.grp p.blk p.grp).live && !s.dying p.blk then s
  else
    let core := ((s.blk p.blk).core).getD p.core
    let found := (s.tlbFind core p.ctx p.addr).filter fun _ => cached
    let count := fun (t : State) => (t.countWalk core p.ctx p.issued found (s.firstOf p 2 (p.addr / 4096))).noteSeen p 2 (p.addr / 4096)
    match s.translate core p.ctx p.addr p.acc cached with
    | (.ok x, s) =>
      let s := count s
      let q := { p with phys := some x.phys, hist := bitOf x.leaf 4, migr := bitOf x.leaf 5, page := x.page, psize := 2 ^ x.bits }
      let s := (s.countAccess p x).setOp q
      if p.kind == .asof && x.phys.target == 0 then
        (match s.asofLocal (s.keyOf p.ctx) x.phys.off p.size p.asofS with
          | none => s.walkFault q 13
          | some (bs, bad, steps) => s.setOp { q with data := bs, walked := some (bad, steps) })
      else s.setOp (s.l1Choice q)
    | (.error (c, poison), s) =>
      let s := count s
      let s := if poison then s.cirBlk p.blk 0 else s
      s.walkFault p c

end Sys2Proof.Machine
end

