-- ==== Sys2Proof/Machine/Access.lean ====
section
/-! DEFINITION. Global, block-memory and pocket accesses, atomics, as-of loads, fences and the stamp class (R221-R256). -/

namespace Sys2Proof.Machine

/-! ## Delivery points and waits (R177, R181) -/

/-- Whether an instruction is a store-fault delivery point, and for whom (R181). -/
inductive Delivery where
  | none | access | full
  deriving DecidableEq, Repr

/-- A lane holds a store-fault record. -/
def Group.holdsRecord (G : Group) (L : Nat) : Bool := G.sfq.any fun r => r.lanes.contains L

/-- An operation may still fault: it is not translated, or its fault is found and not yet taken; an as-of load at a peer until the
peer has found its version (R170, R177). -/
def Pend.mayFault (p : Pend) : Bool :=
  p.phys.isNone || p.fault.isSome || (p.kind == .asof && (p.phys.map (·.target)) == some 1)

/-- Operations of a group's lanes in flight that may still fault. -/
def State.untranslated (s : State) (u g : Nat) (lanes : List Nat) (sel : Pend → Bool) : Bool :=
  s.pend.any fun p => p.blk == u && p.grp == g && !p.bm && p.access && p.mayFault && !p.done && sel p
    && p.lanes.any fun L => lanes.contains L

/-- Older late-faulting instructions are not all translated (R177). -/
def State.lateOpen (s : State) (i : Issue) : Bool := s.untranslated i.c.blk i.c.grp i.lanes fun p => p.kind != .store
/-- Older stores of some lanes are not all translated (R181). -/
def State.storesOpen (s : State) (i : Issue) (lanes : List Nat) : Bool :=
  s.untranslated i.c.blk i.c.grp lanes fun p => p.kind == .store

/-- What a delivery point and R177 wait for. -/
def deliveryWait (d : Delivery) (late : Bool) (s : State) (i : Issue) : Option Reason :=
  if late && s.lateOpen i then some .other
  else match d with
    | .none => none
    | .access =>
      let hold := i.lanes.filter fun L => (s.grp i.c.blk i.c.grp).holdsRecord L
      if s.storesOpen i hold then some .other else none
    | .full => if s.storesOpen i i.lanes then some .other else none

/-- An instruction with a delivery point: lanes that hold records park there, the others execute (R181). -/
def deliverWith (d : Delivery) (late : Bool) (u : Uses) (st : Stall) (extra : State → Issue → Nat → Option Cause)
    (ready : State → Issue → Option Reason) (body : State → Issue → Result) (s : State) : Res :=
  issueWith u st extra
    (fun s i => match deliveryWait d late s i with
      | some r => some r
      | none => ready s i)
    (fun s i =>
      let G := s.grp i.c.blk i.c.grp
      let hold := if d == .none then [] else i.lanes.filter fun L => G.holdsRecord L && !(G.lane L).helper
      let parks := hold.map fun L => (L, mkCause i.c 15)
      let rest := i.lanes.filter fun L => !hold.contains L
      if rest.isEmpty then { s := s, parks := parks }
      else
        let r := body s { i with lanes := rest }
        { r with parks := parks ++ r.parks })
    s

/-! ## Addresses -/

/-- A misaligned address parks its lane (R222). -/
def alignCause (addr size : Nat) (c : Cur) : Option Cause := if addr % size = 0 then none else some (mkCause c 5)

/-- A lane's vector address pair (R234). -/
def laneVa (s : State) (i : Issue) (a : VReg) (L : Nat) : Nat :=
  let b := s.blk i.c.blk
  let G := b.grp i.c.grp
  (dwordOf (G.read i.now i.iid (vKey b.A G L a.toNat)) (G.read i.now i.iid (vKey b.A G L (a.toNat + 1)))).toNat

/-- A lane's 32-bit address register. -/
def laneAddr (s : State) (i : Issue) (a : VReg) (L : Nat) : Nat :=
  let b := s.blk i.c.blk
  let G := b.grp i.c.grp
  (G.read i.now i.iid (vKey b.A G L a.toNat)).toNat

/-- The address of ldx.g and stx.g (R234). -/
def laneVax (s : State) (i : Issue) (a : KReg) (b : VReg) (L : Nat) : Nat :=
  let G := s.grp i.c.blk i.c.grp
  (kpair i.now G i.iid a + BitVec.ofNat 64 (laneAddr s i b L)).toNat

/-- A uniform address pair. -/
def uniVa (s : State) (i : Issue) (a : KReg) : Nat := (kpair i.now (s.grp i.c.blk i.c.grp) i.iid a).toNat

/-- Bytes and registers of a width (R221). -/
def Width.bytes : Sys2Proof.Width → Nat
  | .b8 => 1 | .b16 => 2 | .b32 => 4 | .b64 => 8 | .b128 => 16
def Width.regs : Sys2Proof.Width → Nat
  | .b64 => 2 | .b128 => 4 | _ => 1

/-- The bytes a lane stores (R221, R224). -/
def laneData (s : State) (i : Issue) (d : VReg) (w : Sys2Proof.Width) (L : Nat) : List Byte :=
  let b := s.blk i.c.blk
  let G := b.grp i.c.grp
  (wordBytes (readField b.A i.now G i 0 (d, Width.regs w) L)).take (Width.bytes w)

/-! ## Putting operations in flight -/

/-- Issue an operation (R225). -/
def State.addPend (s : State) (p : Pend) : State :=
  { s with fresh := s.fresh + 1, pend := s.pend ++ [{ p with uid := s.fresh, issued := s.tick }] }

/-- What every operation of an instruction shares. -/
def basePend (s : State) (i : Issue) : Pend :=
  { iid := i.iid, blk := i.c.blk, core := i.c.core, grp := i.c.grp, ctx := (s.blk i.c.blk).ctx, pc := i.c.pc, words := i.c.words
    floor := (s.grp i.c.blk i.c.grp).floor, cycle := i.now }

/-- Issue operations in order (ascending lanes). -/
def State.addPends (s : State) (ps : List Pend) : State := ps.foldl State.addPend s

/-- Loads issue: their destinations wait for memory. -/
def issueLoads (s : State) (i : Issue) (ps : List Pend) : Result :=
  let G := s.grp i.c.blk i.c.grp
  let keys := ps.flatMap fun p => p.dest ++ p.status.toList
  let s := s.setGrp i.c.blk i.c.grp (G.expect i.now i.iid keys)
  { s := s.addPends ps, lat := .mem }

/-- Stores issue: they have read their sources (R225). -/
def issueStores (s : State) (ps : List Pend) : Result := { s := s.addPends ps }

/-- The lanes of a run that store: not helpers (R223). -/
def Issue.real (i : Issue) (s : State) : List Nat := (s.grp i.c.blk i.c.grp).counted i.lanes

/-! ## Reuse loads (R235) -/

/-- The memo key of a reuse load. -/
def reuseKey (s : State) (i : Issue) (u : Uses) (uni : List Word) : Memo :=
  let b := s.blk i.c.blk
  let G := b.grp i.c.grp
  { word := memoWord i.c.word false, lits := i.c.lits, uni := uni, ctx := b.ctx, load := true
    srcs := i.lanes.map fun L => (readArgs b.A i.now G i u L).flatten }

/-- A plain load could return here and now: nothing that its lanes have issued before keeps it back (R225, R234, R235). -/
def State.memoClear (s : State) (ps : List Pend) : Bool :=
  ps.all fun p => s.pend.all fun o => !orderBlocks o p && !placeBlocks o p

/-- A load that a memo hit may serve: the entry's values at once, its stamp to the floor (R169, R235), where a plain load could return
them; else the loads issue and make an entry when they return. -/
def memoLoad (s : State) (i : Issue) (u : Uses) (elig : Bool) (key : Memo) (status : Option Nat) (ps : List Pend) : Result :=
  let b := s.blk i.c.blk
  let G := b.grp i.c.grp
  if elig && memoRun G u i.lanes then
    match (if s.memoClear ps then memoLookup s i.c key false else (none, s)) with
    | (some m, s) =>
      let s := s.raiseFloor i.c.blk i.c.grp (if key.asof then 0 else m.stamp)
      let seen := (ps.zip m.lines).flatMap fun x => s.countsAt (x.2 * 128 + x.1.addr % 128) x.1.size
      let s := if key.asof then s else s.seeWords i.c.blk i.c.grp seen
      { s := s, lat := .fixed 1
        writes := (ps.zip m.vals).flatMap fun p => p.1.dest.zip p.2 ++ (match status with
          | some n => p.1.lanes.map fun L => (RegKey.p L n, 1#32)
          | none => []) }
    | (none, s) =>
      let r := issueLoads s i ps
      let G := r.s.grp i.c.blk i.c.grp
      { r with s := r.s.setGrp i.c.blk i.c.grp { G with memoWait := (i.iid, key) :: G.memoWait } }
  else issueLoads s i ps

/-! ## Global accesses (R233-R237) -/

/-- ld.g (R233, R234). -/
def execLdG (w : Sys2Proof.Width) (ru : Bool) (ord : Option Scope) (d a : VReg) (st : Stall) (s : State) : Res :=
  let u : Uses := { vsrc := [(a, 2)], vdst := some (d, Width.regs w) }
  deliverWith .access ord.isSome u st
    (fun s i L => alignCause (laneVa s i a L) (Width.bytes w) i.c) isReady
    (fun s i =>
      let b := s.blk i.c.blk
      let G := b.grp i.c.grp
      let ps := i.lanes.map fun L => { basePend s i with
        kind := .load, lanes := [L], helper := (G.lane L).helper, addr := laneVa s i a L, size := Width.bytes w
        dest := destKeys b.A G L d (Width.regs w), acq := ord, ru := ru }
      memoLoad s i u ru (reuseKey s i u []) none ps) s

/-- st.g (R233, R234, R236). -/
def execStG (w : Sys2Proof.Width) (nt : Bool) (ord : Option Scope) (d a : VReg) (st : Stall) (s : State) : Res :=
  deliverWith (if ord.isSome then .full else .none) ord.isSome { vsrc := [(d, Width.regs w), (a, 2)] } st
    (fun s i L => alignCause (laneVa s i a L) (Width.bytes w) i.c) isReady
    (fun s i => issueStores s ((i.real s).map fun L => { basePend s i with
      kind := .store, lanes := [L], addr := laneVa s i a L, size := Width.bytes w, data := laneData s i d w L
      rel := ord, nt := nt })) s

/-- ldx.g: a reuse load of a word at a uniform base plus a lane's offset (R233, R235). -/
def execLdxG (d : VReg) (a : KReg) (b : VReg) (st : Stall) (s : State) : Res :=
  let u : Uses := { vsrc := [(b, 1)], vdst := some (d, 1), ksrc := [(a, 2)] }
  deliverWith .access false u st
    (fun s i L => alignCause (laneVax s i a b L) 4 i.c) isReady
    (fun s i =>
      let bl := s.blk i.c.blk
      let G := bl.grp i.c.grp
      let ps := i.lanes.map fun L => { basePend s i with
        kind := .load, lanes := [L], helper := (G.lane L).helper, addr := laneVax s i a b L, size := 4
        dest := destKeys bl.A G L d 1, ru := true }
      memoLoad s i u true (reuseKey s i u [kval i.now G i.iid a, kval i.now G i.iid a 1]) none ps) s

/-- stx.g (R233, R234). -/
def execStxG (d : VReg) (a : KReg) (b : VReg) (st : Stall) (s : State) : Res :=
  issueWith { vsrc := [(d, 1), (b, 1)], ksrc := [(a, 2)] } st
    (fun s i L => alignCause (laneVax s i a b L) 4 i.c) isReady
    (fun s i => issueStores s ((i.real s).map fun L => { basePend s i with
      kind := .store, lanes := [L], addr := laneVax s i a b L, size := 4, data := laneData s i d .b32 L })) s

/-- kld (R237): once for the group; its lanes fail together. -/
def execKld (w : Sys2Proof.Width) (ord : Option Scope) (d a : KReg) (st : Stall) (s : State) : Res :=
  deliverWith .access ord.isSome { ksrc := [(a, 2)] } st
    (fun s i _ => alignCause (uniVa s i a) (Width.bytes w) i.c) isReady
    (fun s i =>
      let G := s.grp i.c.blk i.c.grp
      issueLoads s i [{ basePend s i with
        kind := .load, lanes := i.lanes, uniform := true, helper := (i.real s).isEmpty, addr := uniVa s i a
        size := Width.bytes w, dest := (List.range (Width.regs w)).map fun j => kKey G d j, acq := ord }]) s

/-- kst (R237). -/
def execKst (w : Sys2Proof.Width) (nt : Bool) (ord : Option Scope) (d a : KReg) (st : Stall) (s : State) : Res :=
  deliverWith (if ord.isSome then .full else .none) ord.isSome { ksrc := [(a, 2), (d, Width.regs w)] } st
    (fun s i _ => alignCause (uniVa s i a) (Width.bytes w) i.c) isReady
    (fun s i =>
      let G := s.grp i.c.blk i.c.grp
      if (i.real s).isEmpty then { s := s } else
      issueStores s [{ basePend s i with
        kind := .store, lanes := i.real s, uniform := true, addr := uniVa s i a, size := Width.bytes w
        data := (wordBytes ((List.range (Width.regs w)).map fun j => kval i.now G i.iid d j)).take (Width.bytes w)
        rel := ord, nt := nt }]) s

/-! ## Block memory (R238-R240) -/

/-- Misaligned, or beyond the block's scratch (R222). -/
def bmCause (s : State) (i : Issue) (addr size : Nat) : Option Cause :=
  if addr % size = 0 ∧ addr + size ≤ (s.blk i.c.blk).scratch * 1024 then none else some (mkCause i.c 5)

/-- The largest number of distinct words in one bank (R240). -/
def bankWays (addrs : List (Nat × Nat)) : Nat :=
  let words := (addrs.flatMap fun a => (List.range ((a.2 + 3) / 4)).map fun j => a.1 / 4 + j).eraseDups
  (List.range 32).foldl (fun p bank => max p (words.filter fun w => w % 32 == bank).length) 1

/-- ld.s (R238-R240): its latency is 24 + 2 × (p − 1) cycles; with .fe the group waits for it whatever S says. -/
def execLdS (w : Sys2Proof.Width) (fe clr : Bool) (d a : VReg) (st : Stall) (s : State) : Res :=
  issueWith { vsrc := [(a, 1)], vdst := some (d, Width.regs w) } st
    (fun s i L => bmCause s i (laneAddr s i a L) (Width.bytes w)) isReady
    (fun s i =>
      let b := s.blk i.c.blk
      let G := b.grp i.c.grp
      let due := i.now + 24 + 2 * (bankWays (i.lanes.map fun L => (laneAddr s i a L, Width.bytes w)) - 1)
      let r := issueLoads s i (i.lanes.map fun L => { basePend s i with
        kind := .load, bm := true, lanes := [L], helper := (G.lane L).helper, addr := laneAddr s i a L
        size := Width.bytes w, dest := destKeys b.A G L d (Width.regs w), fe := fe, clr := clr
        due := if fe then none else some due })
      if fe then
        let G := r.s.grp i.c.blk i.c.grp
        { r with s := r.s.setGrp i.c.blk i.c.grp { G with feWait := some i.iid } }
      else r) s

/-- st.s (R238, R239). -/
def execStS (w : Sys2Proof.Width) (fe : Bool) (d a : VReg) (st : Stall) (s : State) : Res :=
  issueWith { vsrc := [(d, Width.regs w), (a, 1)] } st
    (fun s i L => bmCause s i (laneAddr s i a L) (Width.bytes w)) isReady
    (fun s i => issueStores s ((i.real s).map fun L => { basePend s i with
      kind := .store, bm := true, lanes := [L], addr := laneAddr s i a L, size := Width.bytes w
      data := laneData s i d w L, fe := fe })) s

/-! ## The lane pocket (R242) -/

/-- Misaligned, or beyond the pocket (R222). -/
def pocketCause (i : Issue) (addr size : Nat) : Option Cause :=
  if addr % size = 0 ∧ addr + size ≤ 256 then none else some (mkCause i.c 5)

/-- ld.l: 8 cycles (R242). -/
def execLdL (w : Sys2Proof.Width) (d a : VReg) (st : Stall) (s : State) : Res :=
  issueWith { vsrc := [(a, 1)], vdst := some (d, Width.regs w) } st
    (fun s i L => pocketCause i (laneAddr s i a L) (Width.bytes w)) isReady
    (fun s i =>
      let b := s.blk i.c.blk
      let G := b.grp i.c.grp
      { s := s, lat := .fixed 8
        writes := i.lanes.flatMap fun L => (destKeys b.A G L d (Width.regs w)).zip
          (bytesWords (rdBytes (G.lane L).pocket (laneAddr s i a L) (Width.bytes w))) }) s

/-- st.l: completes at issue (R242). -/
def execStL (w : Sys2Proof.Width) (d a : VReg) (st : Stall) (s : State) : Res :=
  issueWith { vsrc := [(d, Width.regs w), (a, 1)] } st
    (fun s i L => pocketCause i (laneAddr s i a L) (Width.bytes w)) isReady
    (fun s i =>
      let G := s.grp i.c.blk i.c.grp
      let G' := (i.real s).foldl (fun g L => g.setLane L { g.lane L with
        pocket := wrBytes (g.lane L).pocket (laneAddr s i a L) (laneData s i d w L) }) G
      { s := s.setGrp i.c.blk i.c.grp G' }) s

/-! ## Atomics (R243-R247) -/

/-- The operand registers of an atomic: how many B names (R243). -/
def atomRegs (spec : AtomSpec) : Nat := (if spec.ty.is64 then 2 else 1) * (if spec.op == .cas then 2 else 1)
/-- Acquire and release of an order field, at the literal's scope (R246). -/
def atomAcq (spec : AtomSpec) : Option Scope := if spec.ord == .acq || spec.ord == .acqrel then some spec.scope else none
def atomRel (spec : AtomSpec) : Option Scope := if spec.ord == .rel || spec.ord == .acqrel then some spec.scope else none

/-- An atomic in flight: B holds the operand, or the compare value and then the new one. -/
def atomPend (s : State) (i : Issue) (spec : AtomSpec) (d b : VReg) (addr L : Nat) : Pend :=
  let bl := s.blk i.c.blk
  let G := bl.grp i.c.grp
  let n := atomBytes spec.ty
  let bs := wordBytes (readField bl.A i.now G i 0 (b, atomRegs spec) L)
  { basePend s i with
    kind := .atomic, lanes := [L], addr := addr, size := n, atom := some spec
    data := if spec.op == .cas then bs.drop n else bs
    cmp := if spec.op == .cas then bs.take n else []
    acq := atomAcq spec, rel := atomRel spec
    dest := if spec.noret then [] else destKeys bl.A G L d (n / 4) }

/-- Atomics issue: helper lanes take 0 (R246), the others' parts are in flight; one other than `.sp` ends an interval's flag
(R189). -/
def issueAtomics (s : State) (i : Issue) (spec : AtomSpec) (d : VReg) (ps : List Pend) : Result :=
  let bl := s.blk i.c.blk
  let G := bl.grp i.c.grp
  let zeros := if spec.noret then [] else
    (i.lanes.filter fun L => (G.lane L).helper).flatMap fun L => (destKeys bl.A G L d (atomBytes spec.ty / 4)).map fun k => (k, 0#32)
  let s := if spec.use == .sp || ps.isEmpty then s else s.loseInterval i.c.blk
  if spec.noret || ps.isEmpty then { s := s.addPends ps, writes := zeros }
  else
    { issueLoads s i ps with writes := zeros }

/-- The fields of an atomic. -/
def atomUses (spec : AtomSpec) (d a b : VReg) (addrRegs : Nat) : Uses :=
  { vsrc := [(a, addrRegs), (b, atomRegs spec)]
    vdst := if spec.noret then none else some (d, atomBytes spec.ty / 4) }

/-- atom.g (R243-R246). -/
def execAtomG (spec : AtomSpec) (d a b : VReg) (st : Stall) (s : State) : Res :=
  deliverWith (if (atomRel spec).isSome then .full else .access) (spec.use != .sp) (atomUses spec d a b 2) st
    (fun s i L => alignCause (laneVa s i a L) (atomBytes spec.ty) i.c) isReady
    (fun s i => issueAtomics s i spec d ((i.real s).map fun L => atomPend s i spec d b (laneVa s i a L) L)) s

/-- atom.s (R246): on block memory. -/
def execAtomS (spec : AtomSpec) (d a b : VReg) (st : Stall) (s : State) : Res :=
  deliverWith (if (atomRel spec).isSome then .full else .none) (spec.use != .sp) (atomUses spec d a b 1) st
    (fun s i L => bmCause s i (laneAddr s i a L) (atomBytes spec.ty)) isReady
    (fun s i => issueAtomics s i spec d ((i.real s).map fun L =>
      { atomPend s i spec d b (laneAddr s i a L) L with bm := true })) s

/-! ## As-of loads (R248-R250) -/

/-- The core's tick less the stamp base (R251). -/
def State.coreNow (s : State) (core : Nat) : Nat := s.tickAt (128 + core) - s.stampBase
/-- settled (R251). -/
def State.settled (s : State) (core : Nat) : Nat :=
  let now := s.coreNow core
  if now < 32 then 0 else (now - 32) * 2 ^ 14 + 0x3FFF

/-- The status predicate of an as-of load: 0xF for none (R248). -/
def statusPred (p : BitVec 4) : Option Nat := if p.toNat = 15 then none else some p.toNat

/-- ld.asof (R248-R250). -/
def execLdAsof (w : Sys2Proof.Width) (stamp : KReg) (nb : Bool) (status : BitVec 4) (d a : VReg) (st : Stall) (s : State) : Res :=
  let u : Uses := { vsrc := [(a, 2)], vdst := some (d, Width.regs w), ksrc := [(stamp, 2)], pdst := (statusPred status).toList }
  deliverWith .access false u st
    (fun s i L => alignCause (laneVa s i a L) (Width.bytes w) i.c)
    (fun s i =>
      let S := (kpair i.now (s.grp i.c.blk i.c.grp) i.iid stamp).toNat
      if s.settled i.c.core < S && !nb then some .historyWait else none)
    (fun s i =>
      let b := s.blk i.c.blk
      let G := b.grp i.c.grp
      let S := (kpair i.now G i.iid stamp).toNat
      if s.settled i.c.core < S then
        { s := s, lat := .var
          writes := i.lanes.flatMap fun L => ((destKeys b.A G L d (Width.regs w)).map fun k => (k, 0#32)) ++
            (match statusPred status with
              | some n => [(RegKey.p L n, 0#32)]
              | none => []) }
      else
        let ps := i.lanes.map fun L => { basePend s i with
          kind := .asof, lanes := [L], helper := (G.lane L).helper, addr := laneVa s i a L, size := Width.bytes w
          dest := destKeys b.A G L d (Width.regs w), asofS := S, status := (statusPred status).map fun n => RegKey.p L n }
        let key : Memo := { reuseKey s i u [] with asof := true, asofS := S
                                                   uni := [kval i.now G i.iid stamp, kval i.now G i.iid stamp 1] }
        memoLoad s i u true key (statusPred status) ps) s

/-! ## fence (R254, R255) -/

/-- Reuse entries of a group's quarter end at an acquire fence of block scope or wider (R169). -/
def State.endReuse (s : State) (core quarter : Nat) : State :=
  let k := s.core core
  let q := k.quarter quarter
  s.setCore core (k.setQuarter quarter { q with memo := q.memo.filter fun m => !(m.load && !m.asof) })

/-- fence (R254, R255): one part for each active lane that is not a helper. -/
def execFence (k : FenceKind) (sc : Scope) (st : Stall) (s : State) : Res :=
  deliverWith .full true {} st noCause isReady
    (fun s i =>
      let s := if k != .rel && sc != .grp then s.endReuse i.c.core i.c.quarter else s
      let ps := (i.real s).map fun L => { basePend s i with
        kind := .fence k, lanes := [L]
        rel := none, acq := none, size := sc.code.toNat }
      if ps.isEmpty then { s := s } else { s := s.addPends ps, lat := .mem }) s

/-- A fence's part performs once the older accesses it orders have (R255, R256, R327, R335). -/
def State.settleFence (s : State) (p : Pend) : State :=
  match p.kind with
  | .fence k =>
    let sc := p.scope
    let rel := k != .acq
    if p.done || !s.clear p then s
    else if rel && needsMarkers (some sc) && p.markers.isNone then
      let m := s.sendMarkers p.blk p.grp p.uid
      m.2.setOp { p with markers := some m.1 }
    else if rel && needsMarkers (some sc) && p.markers != some [] then s
    else
      let s := if rel then (s.releasing p sc).emptyDests p.blk p.grp (some sc) else s
      let s := if k != .rel then s.acquired p sc else s
      -- entries of reuse loads before it that returned meanwhile end too
      let s := match (s.blk p.blk).core with
        | some n => if k != FenceKind.rel && sc != Scope.grp then s.endReuse n ((s.blk p.blk).quarterOf p.grp) else s
        | none => s
      (s.setOp { p with done := true }).retire p.blk p.grp p.iid
  | _ => s

/-! ## The stamp class (R251-R253) -/

/-- A stamp-class result in a uniform pair, of variable latency (R251). -/
def stampPair (d : KReg) (st : Stall) (f : State → Issue → Nat × State) (s : State) : Res :=
  issueWith {} st noCause isReady
    (fun s i =>
      let r := f s i
      let G := r.2.grp i.c.blk i.c.grp
      { s := r.2, lat := .var, writes := kWrite2 G d (BitVec.ofNat 64 r.1) }) s

/-- stamp: max(T of the core's slice, floor), which becomes the floor (R251). -/
def execStamp (d : KReg) (st : Stall) (s : State) : Res :=
  stampPair d st (fun s i =>
    let t := max (s.sliceT (sliceOfCore i.c.core)) (s.grp i.c.blk i.c.grp).floor
    (t, s.raiseFloor i.c.blk i.c.grp t)) s
/-- settled (R251). -/
def execSettled (d : KReg) (st : Stall) (s : State) : Res := stampPair d st (fun s i => (s.settled i.c.core, s)) s

/-- The least slice dusk of the module. -/
def State.ownDusk (s : State) : Nat :=
  (List.range 128).foldl (fun m n => min m (s.slice n).dusk) (s.slice 0).dusk
/-- The domain dusk (R398). -/
def State.dusk (s : State) : Nat :=
  (s.members.filter fun m => m.2.member && m.2.live && m.1 != s.device).foldl
    (fun d m => min d (mget 0 s.peerDusk m.1)) s.ownDusk
/-- dusk (R251). -/
def execDusk (d : KReg) (st : Stall) (s : State) : Res := stampPair d st (fun s _ => (s.dusk, s)) s
/-- floor (R251). -/
def execFloor (d : KReg) (st : Stall) (s : State) : Res :=
  stampPair d st (fun s i => ((s.grp i.c.blk i.c.grp).floor, s)) s

/-- The lowest free pin handle of a context (R253). -/
def Ctx.freePin (c : Ctx) : Option Nat := (List.range 64).find? fun h => !(mget {} c.pins h : Pin).used

/-- hpin's effect: the result and the context after (R253). -/
def pinMake (dusk stamp kernel : Nat) (c : Ctx) : Word × Ctx :=
  if stamp < dusk then (0x80000002#32, c)
  else match c.freePin with
    | none => (0x80000001#32, c)
    | some h => (BitVec.ofNat 32 h,
        { c with pins := mset {} c.pins h { used := true, stamp := stamp, kernel := kernel } })

/-- A stamp lies more than HRETAIN ticks in the past; an HRETAIN of 0 is no cap (R102, R398). -/
def State.expired (s : State) (stamp : Nat) : Bool :=
  s.hretain != 0#32 && decide (stamp / 2 ^ 14 + s.hretain.toNat < s.tick - s.stampBase)

/-- hpin (R253): every member hears of the pin, and one already too far in the past is broken at once (R399); it ends an interval's flag
(R189). -/
def execHpin (d a : KReg) (st : Stall) (s : State) : Res :=
  issueWith { ksrc := [(a, 2)] } st noCause isReady
    (fun s i =>
      let b := s.blk i.c.blk
      let S := (kpair i.now (b.grp i.c.grp) i.iid a).toNat
      let s := s.loseInterval i.c.blk
      let r := pinMake s.dusk S b.kernel (s.ctx b.ctx)
      let s := s.setCtx b.ctx r.2
      let s := if r.1.toNat < 64 then s.tellAll 4 (leBytes 8 S) else s
      let s := if r.1.toNat < 64 && s.expired S then s.breakPin b.ctx r.1.toNat else s
      { s := s, lat := .var, writes := kWrite (s.grp i.c.blk i.c.grp) d r.1 }) s

/-- hunpin's effect (R253). -/
def pinFree (h : Word) (c : Ctx) : Word × Ctx :=
  let n := h.toNat
  let p : Pin := mget {} c.pins n
  if 64 ≤ n || !p.used || p.activity then (0x80000003#32, c)
  else (if p.broken then 1#32 else 0#32, { c with pins := mset {} c.pins n {} })

/-- hunpin (R253). -/
def execHunpin (d a : KReg) (st : Stall) (s : State) : Res :=
  issueWith { ksrc := [(a, 1)] } st noCause isReady
    (fun s i =>
      let b := s.blk i.c.blk
      let h := kval i.now (b.grp i.c.grp) i.iid a
      let s := s.loseInterval i.c.blk
      let r := pinFree h (s.ctx b.ctx)
      let old : Pin := mget {} (s.ctx b.ctx).pins h.toNat
      let t := s.setCtx b.ctx r.2
      let s := if r.1 = 0#32 then t.pinGone old.stamp else t
      { s := s, lat := .var, writes := kWrite (s.grp i.c.blk i.c.grp) d r.1 }) s

end Sys2Proof.Machine
end

