-- ==== Sys2Proof/Machine/Control.lean ====
section
/-! DEFINITION. Control flow, regions, barriers within and across groups, the end of groups, taking a trap and returning from
it, rollback (R143, R148-R164, R170-R192, R276-R280). -/

namespace Sys2Proof.Machine

/-! ## Stores and loads the device makes itself (R228) -/

/-- Whether a cached translation serves an access that the device makes: a free choice (R311, log entry 1). -/
def State.mayCache (s : State) (n : Nat) : Bool := Config.freeBool (pairNat s.fresh n)

/-- A store the device makes: done, waiting (M, a full ring, a release that a slice holds), or a fault with its cause; `s` then holds
what the fault leaves. -/
inductive DevR where
  | ok (s : State)
  | wait (t : State)
  | fault (cause : Nat) (s : State)

/-- A bit of the check-interval register of the kernel that an access of the device serves, if it serves one (R227). -/
def State.cirOf (s : State) (kern : Option Nat) (bit : Nat) : State :=
  match kern with
  | some k => s.setCir k bit
  | none => s

/-- Why a write that may go on otherwise waits: a migrating page, or a full ring under a pin (R228). -/
def State.holdReason (s : State) (ph : Phys) (hist migr : Bool) : Option Reason :=
  if migr then some .migrationBlock
  else if ph.target == 0 && hist && s.ringStalled (daStack (s.da ph.off)) then some .historyWait else none

/-- Why a store that the device makes for a context at a VA waits (R228). -/
def State.devReason (s : State) (ctx va : Nat) : Option Reason :=
  match (s.translate 0 ctx va .store false).1 with
  | .error _ => none
  | .ok x => s.holdReason x.phys (bitOf x.leaf 4) (bitOf x.leaf 5)

/-- Bytes that would cross a line: the device stores and loads naturally aligned records, and a base that makes one cross a
line is misaligned (log entry 20). -/
def crossesLine (va n : Nat) : Bool := decide (128 < va % 128 + n)

/-- A store of the device is sent to a peer; until the answer it is outstanding (R228, R319, log entry 13). -/
def State.devSend (s : State) (ctx : Nat) (kern : Option Nat) (x : Xlat) (bs : List Byte) (rel : Bool) (floor : Nat) : State :=
  let uid := s.fresh
  let s := { s with fresh := uid + 1, devSent := s.devSent ++ [({ uid := uid, ctx := ctx, kern := kern, at_ := x } : DevSent)] }
  (s.sendReq 1 x.phys uid ctx 0 (enables x.phys.off bs.length) (bitOf x.leaf 4) rel false floor bs).2

/-- A store of the device for a context at a VA, within one line (R182, R228, R229, R401): poison that its walk meets, and a peer that is
no live member, show in the kernel it serves (R227, R308, R309). At a peer the packet is sent (log entry 13). -/
def State.devStore (s : State) (ctx core : Nat) (kern : Option Nat) (va : Nat) (bs : List Byte) (rel : Bool) (floor : Nat) : DevR :=
  if crossesLine va bs.length then .fault 5 s else
  match s.translate core ctx va .store (s.mayCache 11) with
  | (.error (c, p), _) => .fault c (if p then s.cirOf kern 0 else s)
  | (.ok x, s) =>
    if !s.writeReady x.phys (bitOf x.leaf 4) (bitOf x.leaf 5) then .wait (s.noteStall x.phys (bitOf x.leaf 4))
    else match x.phys.target with
      | 0 => .ok (s.storeLocal (s.keyOf ctx) x.phys.off bs (bitOf x.leaf 4) rel floor (some core)).2
      | 1 => .ok (if s.liveMember x.phys.peer then s.devSend ctx kern x bs rel floor else s.cirOf kern 3)
      | _ =>
        if rel then (match s.hostGate core floor x.phys.off bs with
          | (none, t) => .wait t
          | (some st, t) => .ok (t.storeHost x.phys.off bs (some core) st))
        else .ok (s.storeHost x.phys.off bs (some core) 0)

/-- A load of the device for a context at a VA, within one line: bytes and poison. At a peer the bytes are free (log entry 13), at one that
is no live member they are poison (R227, R309). -/
def State.devLoad (s : State) (ctx va n : Nat) : Except Nat (List Byte × Bool) :=
  if crossesLine va n then .error 5 else
  match s.translate 0 ctx va .load (s.mayCache 12) with
  | (.error (c, _), _) => .error c
  | (.ok x, s) =>
    match x.phys.target with
    | 0 => .ok (s.readLocal (s.keyOf ctx) x.phys.off n, s.poisonedIn x.phys.off n)
    | 1 => .ok ((List.range n).map fun i => (Config.freeWord (pairNat (pairNat s.fresh 5) (va + i))).setWidth 8, !s.liveMember x.phys.peer)
    | _ => .ok (rdBytes s.mem (hostBase + x.phys.off) n, s.hostPoison x.phys.off n)

/-- What a load of the device shows in the kernel it serves (R227, R308, R309): poison in its walk or its data, a peer that is no live
member. -/
def State.devNote (s : State) (kern : Option Nat) (ctx va n : Nat) : State :=
  match s.devLoad ctx va n, (s.translate 0 ctx va .load (s.mayCache 12)).1 with
  | .ok (_, bad), .ok x =>
    let s := if bad then s.cirOf kern 0 else s
    if x.phys.target == 1 && !s.liveMember x.phys.peer then s.cirOf kern 3 else s
  | _, .error (_, true) => s.cirOf kern 0
  | _, _ => s

/-! ## Fetching (R54, R55, R310, R401) -/

/-- A fetched word, or the cause of the translation that failed and whether a walk met poison. -/
inductive FetchR (α : Type) where
  | ok (v : α) (s : State)
  | fault (cause : Nat) (poison : Bool)

/-- Where an instruction's word lies (R310); a peer that is no live member sets endpoint_absent (R309). -/
def State.fetchAt (s : State) (u pc : Nat) : FetchR Phys :=
  let ctx := (s.blk u).ctx
  let core := ((s.blk u).core).getD 0
  let cached := s.mayCache 23
  let s := { s with fresh := s.fresh + 1 }
  let found := (s.tlbFind core ctx pc).filter fun _ => cached
  match s.translate core ctx pc .fetch cached with
  | (.error (c, p), _) => .fault c p
  | (.ok x, t) =>
    let t := (t.countWalk core ctx 0 found true).late ctx core 21 0 0 1
    let t := if x.phys.target = 0 then t.served (t.home x.phys.off) 0 1 else t
    .ok x.phys (if x.phys.target == 1 && !t.liveMember x.phys.peer then t.cirBlk u 3 else t)

/-- The word of code at a place (R401). A word of a poisoned sector, or of a peer, is a free value (log entries 13, 23); of a peer that
is no live member it is the poison word (R227, R309). -/
def State.codeWord (s : State) (ctx : Nat) (x : Phys) : Word :=
  match x.target with
  | 0 => if s.poisonedAt x.off then Config.freeWord (pairNat s.fresh (24 + x.off))
    else BitVec.ofNat 32 (leNat (s.readLocal (s.keyOf ctx) x.off 4))
  | 1 => if s.liveMember x.peer then Config.freeWord (pairNat s.fresh (24 + x.off)) else poisonWord
  | _ => BitVec.ofNat 32 (leNat (rdBytes s.mem (hostBase + x.off) 4))

/-- Fetch n literal words after a word at a PC and a place: a word of the same page follows it, another page is translated. -/
def State.fetchLits (s : State) (u : Nat) : Nat → Nat → Phys → FetchR (List Word)
  | 0, _, _ => .ok [] s
  | n + 1, pc, x =>
    let va := pcAfter pc 1
    match (if va / 4096 = pc / 4096 then .ok { x with off := x.off + 4 } s else s.fetchAt u va) with
    | .fault c p => .fault c p
    | .ok y t => match t.fetchLits u n va y with
      | .fault c p => .fault c p
      | .ok ws r => .ok (t.codeWord (s.blk u).ctx y :: ws) r

/-- Fetch an instruction for a block: its word, and the literal words that its opcode and FN take (R55, R71, R74). -/
def State.fetch (s : State) (u pc : Nat) : FetchR (Word × List Word) :=
  match s.fetchAt u pc with
  | .fault c p => .fault c p
  | .ok x t =>
    let w := t.codeWord (s.blk u).ctx x
    match t.fetchLits u ((litCount w).getD 0) pc x with
    | .fault c p => .fault c p
    | .ok ws t => .ok (w, ws) t

/-- The words of the instruction at a PC, as a trap records them (R173); where it cannot be fetched, a free number of words (log
entry 68). -/
def State.wordsAt (s : State) (u pc : Nat) : Nat :=
  match s.fetch u pc with
  | .ok w _ => 1 + w.2.length
  | .fault _ _ => 1 + Config.freeNat (pairNat s.fresh 25) % 5

/-! ## Regions (R175) -/

/-- A register of a lane. -/
def ofLane (L : Nat) : RegKey → Bool
  | .v M _ => M == L
  | .p M _ => M == L
  | _ => false

/-- The registers of a lane that loads in flight have still to write. -/
def Group.waits (G : Group) (L : Nat) : List (RegKey × Nat) :=
  (G.board.filter (·.mem)).flatMap fun e => (e.cells.filter fun c => ofLane L c.key).map fun c => (c.key, e.iid)

/-- A lane of a group takes a region entry at a PC, at instance `now`. -/
def Group.enterRegion (G : Group) (L pc now : Nat) : Group :=
  let l := G.lane L
  G.setLane L { l with region := { pc := pc, low := l.low, base := l.base, stack := l.stack, preds := l.preds
                                   gflag := l.gflag, gcount := l.gcount, waits := G.waits L, at_ := now } }

/-- The lane as its region entry holds it (R178). -/
def Lane.restore (l : Lane) : Lane :=
  { l with pc := l.region.pc, low := l.region.low, base := l.region.base, stack := l.region.stack, preds := l.region.preds
           gflag := l.region.gflag, gcount := l.region.gcount }

/-- The bad registers of a lane after its region entry is restored: those that the entry holds, and no others (R190). -/
def Block.badBack (b : Block) (g L now : Nat) : Block :=
  let at_ := ((b.grp g).lane L).region.at_
  let mine := fun (x : BadCell) => x.grp == g && ofLane L x.key
  let held := fun (x : BadCell) => decide (x.since ≤ at_) && x.until_.all fun e => decide (at_ < e)
  let back := fun (x : BadCell) =>
    if !mine x then some x else if held x then some { x with since := now, until_ := none } else none
  if b.bad.isEmpty then b else { b with bad := b.bad.filterMap back }

/-! ## meet (R163) -/

/-- The lanes a meet concerns: in trap mode the served set, else every present lane that has not ended (log entry 14). -/
def Group.meeters (G : Group) : List Nat :=
  (if G.trapped then G.served else G.present).filter fun L => !(G.lane L).isOver && !(G.lane L).helper

/-- Release a waiting lane at a PC, with a new region entry (R175). -/
def Group.release (G : Group) (L pc now : Nat) : Group :=
  (G.setLane L { G.lane L with status := .active, pc := pc }).enterRegion L pc now

/-- Lanes of a list with the smallest PC. -/
def Group.minPc (G : Group) (lanes : List Nat) : Nat :=
  lanes.foldl (fun m L => min m (G.lane L).pc) ((G.lane (lanes.headD 0)).pc)

/-- The release of a meet, when every lane concerned waits at one (R163, R153). -/
def State.meetTry (s : State) (u g : Nat) : State :=
  let G := s.grp u g
  let all := G.meeters
  if G.live && !all.isEmpty && all.all fun L => (G.lane L).status == .meet then
    let pc := G.minPc all
    let helpers := if G.trapped then [] else G.full.filter fun L => (G.lane L).helper && !(G.lane L).isOver
    let out := (all.filter fun L => (G.lane L).pc == pc) ++ helpers
    let next := pcAfter pc 1
    let s := s.setGrp u g (out.foldl (fun G L => G.release L next s.fresh) G)
    s.trace u g 4 0 ((next + 2 ^ 57 - (s.blk u).code) % 2 ^ 32) (maskOf out)
  else s

/-! ## bar.blk and bar.team (R277-R280) -/

/-- The present lanes of a block that have not ended: (group, lane). -/
def Block.liveLanes (b : Block) : List (Nat × Nat) :=
  (b.groups.filter fun g => g.2.live).flatMap fun g => (g.2.present.filter fun L => !(g.2.lane L).isOver).map fun L => (g.1, L)

/-- Waiting at a bar.blk of either kind. -/
def LaneStatus.atBlk : LaneStatus → Bool
  | .barBlk | .barBlkR => true
  | _ => false

/-- Accesses of a block's groups that its barrier covers have performed (R280). -/
def State.quiet (s : State) (u : Nat) (sc : Scope) : Bool :=
  s.pend.all fun p => p.blk != u || p.done || !p.access || !reaches sc p

/-- Every waiting lane of a status resumes after its own barrier (R277, R279). -/
def Block.resume (b : Block) (now : Nat) (sel : LaneStatus → Bool) : Block :=
  { b with groups := b.groups.map fun g => (g.1, if g.2.live then
      g.2.full.foldl (fun G L => if sel (G.lane L).status then
        G.release L (pcAfter (G.lane L).pc 1) now else G) g.2 else g.2) }

/-- The RELEASE records of a block's groups (R410). -/
def State.traceResume (s : State) (u aux : Nat) (sel : LaneStatus → Bool) : State :=
  (s.blk u).groups.foldl (fun s g =>
    let out := g.2.full.filter fun L => sel (g.2.lane L).status
    if out.isEmpty || !g.2.live then s
    else s.trace u g.1 4 aux ((pcAfter (g.2.minPc out) 1 + 2 ^ 57 - (s.blk u).code) % 2 ^ 32) (maskOf out)) s

/-- A rollback snapshot of every group (R188). -/
def Block.snapshot (b : Block) (at_ : Nat) : Interval :=
  { opened := true, flag := true, ports := b.ports, at_ := at_, bad := b.bad
    groups := (b.groups.filter fun g => g.2.live).map fun g =>
      ⟨g.1, g.2.lanes, g.2.k, g.2.ubase, g.2.kp, g.2.fpcr, g.2.fpsr, g.2.full.flatMap g.2.waits⟩ }

/-- The floors of a block's groups at a barrier: acquire and release (R231, R280). -/
def State.barrierFloors (s : State) (u : Nat) (sc : Scope) : State :=
  let gs := (s.blk u).groups.map (·.1)
  let s := gs.foldl (fun s g => s.releaseFloor u g sc) s
  gs.foldl (fun s g => s.acquireFloor u g sc) s

/-- The release of a bar.blk, when every lane of the block waits at one and its accesses have performed (R277, R278, R280). -/
def State.blkTry (s : State) (u : Nat) : State :=
  let b := s.blk u
  let ls := b.liveLanes
  if b.live && !ls.isEmpty && ls.all (fun x => ((b.grp x.1).lane x.2).status.atBlk) && s.quiet u .blk then
    let allR := ls.all fun x => ((b.grp x.1).lane x.2).status == .barBlkR
    let s := s.traceResume u (if allR then 2 else 1) LaneStatus.atBlk
    let s := s.barrierFloors u .blk
    let b := (s.blk u).resume s.fresh LaneStatus.atBlk
    s.setBlk u { b with interval := if allR then b.snapshot s.fresh else {} }
  else s

/-- A block has arrived at bar.team (R279). -/
def State.teamHere (s : State) (u : Nat) : Bool :=
  let b := s.blk u
  !b.live || (let ls := b.liveLanes
    !ls.isEmpty && ls.all (fun x => ((b.grp x.1).lane x.2).status == .barTeam) && s.quiet u .team)

/-- The release of a bar.team (R279, R280). -/
def State.teamTry (s : State) (t : Nat) : State :=
  let us := ((s.team t).blocks.map fun x => x.2 - 1).filter fun u => (s.blk u).live
  if !us.isEmpty && us.all fun u => s.teamHere u then
    let s := us.foldl (fun s u => s.traceResume u 3 (· == .barTeam)) s
    let s := us.foldl (fun s u => (s.blk u).groups.foldl (fun s g => s.releaseFloor u g.1 .team) s) s
    let s := us.foldl (fun s u => (s.blk u).groups.foldl (fun s g => s.acquireFloor u g.1 .team) s) s
    us.foldl (fun s u => s.setBlk u ((s.blk u).resume s.fresh (· == .barTeam))) s
  else s

/-- Every release that can happen at a group's block and team. -/
def State.barriers (s : State) (u g : Nat) : State := ((s.meetTry u g).blkTry u).teamTry (s.blk u).team

/-! ## The end of lanes and groups (R143) -/

/-- Trap mode ends: the parked lanes that were not served become active at their PCs (R174). -/
def Group.leaveTrap (G : Group) : Group :=
  let H := G.full.foldl (fun H L => if (H.lane L).status == .parked then
    H.setLane L { H.lane L with status := .active } else H) G
  { H with trapped := false, served := [] }

/-- A group ends: outstanding loads are discarded, the rest still performs (R143). -/
def State.endGroup (s : State) (u g : Nat) (cut : Bool) : State :=
  let b := s.blk u
  let G := b.grp g
  let G := G.full.foldl (fun H L => H.setLane L { H.lane L with status := .ended }) G
  let G := { G with live := false, cut := cut || G.cut, trapped := false, served := [], board := [], round := []
                    sfq := if cut then [] else G.sfq, untilDone := none, feWait := none, memoWait := [] }
  let s := s.setBlk u { (b.setGrp g G) with cut := b.cut || cut }
  let s := { s with pend := (s.pend.filter fun p => !(p.blk == u && p.grp == g &&
      (match p.kind with | .load | .asof | .fence _ => true | _ => p.done))).map fun p =>
        if p.blk == u && p.grp == g then { p with dest := [], status := none } else p }
  if cut then
    let k := s.kernel b.kernel
    s.setKernel b.kernel { k with cutGroups := min (k.cutGroups + 1) 0xFFFF }
  else s

/-- exit.grp's part on the engines: the suspended pass and what stands behind it go, a suspended copy entry goes, the tokens
are cleared (R143, R268, R291, R281). -/
def State.dropSuspended (s : State) (u g : Nat) : State :=
  let G := s.grp u g
  let matq := if G.matq.any fun e => e.susp.isSome then [] else G.matq
  let s := s.setGrp u g { G with matq := matq, tokens := [] }
  match (s.blk u).core with
  | none => s
  | some n =>
    let c := s.core n
    let keep := fun (e : CopyEntry) => !(e.blk == u && e.grp == g && e.susp.isSome)
    s.setCore n { c with
      ldq := c.ldq.filter keep, stq := c.stq.filter keep
      chans := c.chans.map fun x => (x.1, if x.2.busy && x.2.blk == u && x.2.grp == g &&
        (x.2.susp.isSome || (x.2.entry.map fun e => e.susp.isSome) == some true) then { x.2 with busy := false, entry := none, susp := none } else x.2) }

/-- A group is ended as by exit.grp (R143, R192). -/
def State.cutGroup (s : State) (u g : Nat) : State :=
  let s := (s.dropSuspended u g).endGroup u g true
  (s.blkTry u).teamTry (s.blk u).team

/-- A trap in trap mode kills the group and sets double_trap (R192). -/
def State.doubleTrap (s : State) (u g : Nat) : State := (s.cirBlk u 6).cutGroup u g

/-! ## Branches (R155, R156, R159, R160) -/

/-- A target 4 × the sign-extended offset away (R155). -/
def branchTo (pc : Nat) (off : BitVec 14) : Nat := (((pc : Int) + 4 * off.toInt) % 2 ^ 57).toNat

/-- A selector's predicates. -/
def Sel.uses : Sel → Uses
  | .always => {}
  | .lane _ p => { psrc := [p.toNat] }
  | .uni _ p => { kpsrc := [p.toNat] }

/-- A selector's value for a lane (R62). -/
def selVal (s : State) (i : Issue) (sel : Sel) (L : Nat) : Bool :=
  let G := s.grp i.c.blk i.c.grp
  match sel with
  | .always => true
  | .lane n p => (G.read i.now i.iid (.p L p.toNat)).getLsbD 0 != n
  | .uni n p => (G.read i.now i.iid (.kp p.toNat)).getLsbD 0 != n

/-- nop (R72). -/
def execNop (st : Stall) (s : State) : Res := issueWith {} st noCause isReady (fun s _ => { s := s }) s

/-- guard (R154). -/
def execGuard (sel : Sel) (n : BitVec 4) (st : Stall) (s : State) : Res :=
  issueWith (Sel.uses sel) st noCause isReady
    (fun s i => { s := s, guards := i.lanes.map fun L => (L, selVal s i sel L, n.toNat) }) s

/-- bra (R155). -/
def execBra (sel : Sel) (off : BitVec 14) (st : Stall) (s : State) : Res :=
  issueWith (Sel.uses sel) st noCause isReady
    (fun s i => { s := s, pcs := (i.lanes.filter fun L => selVal s i sel L).map fun L => (L, branchTo i.c.pc off) }) s

/-- A target register pair is misaligned (R76, R156). -/
def targetBad (t : Nat) : Bool := t % 4 != 0 || decide (2 ^ 57 ≤ t)

/-- jmp (R156). -/
def execJmp (a : VReg) (st : Stall) (s : State) : Res :=
  issueWith { vsrc := [(a, 2)] } st
    (fun s i L => if targetBad (laneVa s i a L) then some (mkCause i.c 5) else none) isReady
    (fun s i => { s := s, pcs := i.lanes.map fun L => (L, laneVa s i a L) }) s

/-- A call's window check (R159): REG_RANGE, SPILL, or none. -/
def callCause (A : Nat) (l : Lane) (shift : Nat) (c : Cur) : Option Cause :=
  if (A : Int) - (l.w + shift) < 16 then some (mkCause c (if l.w < 64 then 3 else 7)) else none

/-- The effect of a call in the lanes that make it: the window moves, v0 and v1 of the callee hold the link (R159). -/
def callResult (s : State) (i : Issue) (shift : Nat) (target : Nat → Nat) : Result :=
  let b := s.blk i.c.blk
  let G := b.grp i.c.grp
  let G' := i.lanes.foldl (fun g L => g.setLane L { g.lane L with base := (g.lane L).base + ((shift : Nat) : Int) }) G
  let link : Nat := pcAfter i.c.pc i.c.words
  { s := s.setGrp i.c.blk i.c.grp G'
    writes := i.lanes.flatMap fun L =>
      [(vKey b.A G' L 0, BitVec.ofNat 32 link), (vKey b.A G' L 1, BitVec.ofNat 32 (shift * 2 ^ 25 + link / 2 ^ 32))]
    pcs := i.lanes.map fun L => (L, target L) }

/-- call (R159). -/
def execCall (shift : BitVec 7) (off : BitVec 14) (st : Stall) (s : State) : Res :=
  issueWith {} st
    (fun s i L => callCause (s.blk i.c.blk).A ((s.grp i.c.blk i.c.grp).lane L) shift.toNat i.c) isReady
    (fun s i => callResult s i shift.toNat fun _ => branchTo i.c.pc off) s

/-- callr (R159): MISALIGNED before the window check (R171). -/
def execCallr (shift : BitVec 7) (a : VReg) (st : Stall) (s : State) : Res :=
  issueWith { vsrc := [(a, 2)] } st
    (fun s i L => if targetBad (laneVa s i a L) then some (mkCause i.c 5)
      else callCause (s.blk i.c.blk).A ((s.grp i.c.blk i.c.grp).lane L) shift.toNat i.c) isReady
    (fun s i => callResult s i shift.toNat fun L => laneVa s i a L) s

/-- ret (R160). -/
def execRet (st : Stall) (s : State) : Res :=
  issueWith { vsrc := [(0#7, 2)] } st
    (fun s i L =>
      let t : Nat := laneVa s i 0#7 L
      let shift : Nat := t / 2 ^ 57
      if shift % 8 ≠ 0 ∨ 112 < shift ∨ t % 4 ≠ 0 then some (mkCause i.c 5)
      else if ((s.grp i.c.blk i.c.grp).lane L).w - (shift : Int) < 0 then some (mkCause i.c 8) else none) isReady
    (fun s i =>
      let G := s.grp i.c.blk i.c.grp
      let pcs := i.lanes.map fun L => (L, laneVa s i 0#7 L % 2 ^ 57)
      let G' := i.lanes.foldl (fun g L => g.setLane L { g.lane L with
        base := (g.lane L).base - ((laneVa s i 0#7 L / 2 ^ 57 : Nat) : Int) }) G
      { s := s.setGrp i.c.blk i.c.grp G', pcs := pcs }) s

/-- win (R158). -/
def execWin (n : BitVec 7) (st : Stall) (s : State) : Res :=
  issueWith {} st
    (fun s i _ => if (s.blk i.c.blk).A ≤ n.toNat * 8 then some (mkCause i.c 3) else none) isReady
    (fun s i =>
      let G := s.grp i.c.blk i.c.grp
      let G' := i.lanes.foldl (fun g L => g.setLane L { g.lane L with base := (g.lane L).low + (n.toNat * 8 : Nat) }) G
      { s := s.setGrp i.c.blk i.c.grp G' }) s

/-- wink (R162). -/
def execWink (n : BitVec 7) (st : Stall) (s : State) : Res :=
  issueWith {} st noCause isReady
    (fun s i =>
      let G := s.grp i.c.blk i.c.grp
      { s := s.setGrp i.c.blk i.c.grp { G with ubase := n.toNat * 32 } }) s

/-- yield (R164): the streak becomes 0, and a round over the other issuable lanes' PCs begins when there are any. -/
def execYield (st : Stall) (s : State) : Res :=
  issueWith {} st noCause isReady
    (fun s i =>
      let G := s.grp i.c.blk i.c.grp
      let others := G.full.filter fun L => (G.lane L).issuable && !i.c.run.contains L
      let pcs := (others.map fun L => (G.lane L).pc).sortUp.eraseDups
      { s := s.setGrp i.c.blk i.c.grp { G with streak := 0, round := pcs } }) s

/-! ## Engine faults at delivery points (R268, R291) -/

/-- The suspended engine work of a group on the tokens of a mask: its cause. `cp`: copies and chains too (R291). -/
def State.engineFault (s : State) (u g : Nat) (tok : Nat → Bool) (cp : Bool) : Option Cause :=
  let b := s.blk u
  let mat := (b.grp g).matq.filterMap fun e => if tok e.tok then e.susp else none
  let c := s.core (b.core.getD 0)
  let cps := ((c.ldq ++ c.stq).filter fun e => e.blk == u && e.grp == g && tok e.tok).filterMap (·.susp)
  let ch := (c.chans.filter fun x => x.2.busy && x.2.blk == u && x.2.grp == g && tok x.2.tok).filterMap fun x =>
    match x.2.susp with
    | some f => some f
    | none => x.2.entry.bind (·.susp)
  if b.core.isNone || !cp then mat.head? else (mat ++ cps ++ ch).head?

/-- Park every acting lane at a delivered engine fault: TPC is the instruction's own PC, late = 0 (R268). -/
def engineParks (i : Issue) (s : State) (f : Cause) : List (Nat × Cause) :=
  (i.real s).map fun L => (L, { mkCause i.c f.code with va := f.va })

/-- An instruction that delivers engine faults beside store faults (R268). At a barrier or an exit the run's helper lanes, which never
trap, do what the instruction says (R17, R277, R279). -/
def deliverEngine (late : Bool) (d : Delivery) (tok : Nat → Bool) (cp : Bool) (u : Uses) (st : Stall)
    (ready : State → Issue → Option Reason) (body : State → Issue → Result) (s : State) : Res :=
  deliverWith d late u st noCause
    (fun s i => if (s.engineFault i.c.blk i.c.grp tok cp).isSome then none else ready s i)
    (fun s i => match s.engineFault i.c.blk i.c.grp tok cp with
      | some f =>
        let hs := i.lanes.filter fun L => ((s.grp i.c.blk i.c.grp).lane L).helper
        if late && !hs.isEmpty then { body s { i with lanes := hs } with parks := engineParks i s f }
        else { s := s, parks := engineParks i s f }
      | none => body s i) s

/-! ## meet, barriers, exit -/

/-- Lanes become waiting at their instruction (R163, R277, R279); the arrival of those that are no helpers is recorded (R410). -/
def arrive (s : State) (i : Issue) (st : LaneStatus) (aux : Nat) : State :=
  let G := s.grp i.c.blk i.c.grp
  let G' := i.lanes.foldl (fun g L => g.setLane L { g.lane L with status := st }) G
  let t := s.setGrp i.c.blk i.c.grp G'
  if (i.real s).isEmpty then t
  else t.trace i.c.blk i.c.grp 3 aux ((i.c.pc + 2 ^ 57 - (s.blk i.c.blk).code) % 2 ^ 32) (maskOf (i.real s))

/-- The barriers that an issue may release: tried once its lanes stand as the issue leaves them. -/
def thenTry (f : State → State) : Res → Res
  | .next s => .next (f s)
  | o => o

/-- The group and block of the issue, for what follows it. -/
def afterCur (s : State) (f : State → Nat → Nat → State) (r : Res) : Res :=
  match s.cur with
  | none => r
  | some c => thenTry (fun t => if (t.cur.bind (·.wait)).isSome then t else f t c.blk c.grp) r

/-- meet (R163). -/
def execMeet (st : Stall) (s : State) : Res :=
  afterCur s (fun t u g => t.meetTry u g) (deliverWith .full true {} st noCause isReady
    (fun s i => { s := arrive s i .meet 0, keeps := i.lanes }) s)

/-- bar.blk (R277). -/
def execBarBlk (st : Stall) (s : State) : Res :=
  afterCur s (fun t u _ => t.blkTry u) (deliverEngine true .full (fun _ => true) true {} st isReady
    (fun s i => { s := arrive s i .barBlk 1, keeps := i.lanes }) s)

/-- bar.blk.r (R278). -/
def execBarBlkR (st : Stall) (s : State) : Res :=
  afterCur s (fun t u _ => t.blkTry u) (deliverEngine true .full (fun _ => true) true {} st isReady
    (fun s i => { s := arrive s i .barBlkR 2, keeps := i.lanes }) s)

/-- bar.team (R279); inside an interval it clears the flag (R189). -/
def execBarTeam (st : Stall) (s : State) : Res :=
  afterCur s (fun t u _ => t.teamTry (t.blk u).team) (deliverEngine true .full (fun _ => true) true {} st isReady
    (fun s i => { s := (arrive s i .barTeam 3).loseInterval i.c.blk, keeps := i.lanes }) s)

/-- What follows an exit once its lanes have ended: trap mode, the group's end, barriers (R143, R174). -/
def State.exitAfter (s : State) (u g : Nat) : State :=
  let G := s.grp u g
  if !G.live then s else
  if (G.present.all fun L => (G.lane L).status == .ended) then
    let s := s.endGroup u g false
    (s.blkTry u).teamTry (s.blk u).team
  else
    let s := if G.trapped && G.served.all (fun L => (G.lane L).isOver) then s.setGrp u g G.leaveTrap else s
    s.barriers u g

/-- exit (R143). -/
def execExit (st : Stall) (s : State) : Res :=
  afterCur s (fun t u g => t.exitAfter u g) (deliverEngine true .full (fun _ => true) true {} st
    (fun s i => if s.storesOpen i i.lanes then some .other else none)
    (fun s i =>
      let G := s.grp i.c.blk i.c.grp
      let G' := i.lanes.foldl (fun g L => g.setLane L { g.lane L with status := .ended }) G
      { s := s.setGrp i.c.blk i.c.grp G', pcs := i.lanes.map fun L => (L, i.c.pc) }) s)

/-- Some lane of the run acts: the instruction has its effect. -/
def State.runActs (s : State) : Bool :=
  match s.cur with
  | some c => !((s.grp c.blk c.grp).acting c.run).isEmpty
  | none => false

/-- exit.grp (R143): every lane of the group ends; the block is cut short. -/
def execExitGrp (st : Stall) (s : State) : Res :=
  afterCur s (fun t u g => if s.runActs then t.cutGroup u g else t)
    (issueWith {} st noCause isReady (fun s _ => { s := s }) s)

/-! ## trap, brk, region, drainst, chkerr -/

/-- trap n (R185): every lane parks with cause 9. -/
def execTrap (n : BitVec 7) (st : Stall) (s : State) : Res :=
  issueWith {} st (fun _ i _ => some (mkCause i.c 9 n.toNat)) isReady (fun s _ => { s := s }) s
/-- brk (R185): cause 10, number 0. -/
def execBrk (st : Stall) (s : State) : Res :=
  issueWith {} st (fun _ i _ => some (mkCause i.c 10)) isReady (fun s _ => { s := s }) s
/-- region (R186): a new region entry at its own PC. -/
def execRegion (st : Stall) (s : State) : Res :=
  deliverWith .full true {} st noCause isReady
    (fun s i =>
      let G := s.grp i.c.blk i.c.grp
      { s := s.setGrp i.c.blk i.c.grp (i.lanes.foldl (fun g L => g.enterRegion L i.c.pc s.fresh) G) }) s
/-- drainst (R186): a new region entry at the next PC. -/
def execDrainst (st : Stall) (s : State) : Res :=
  deliverWith .full true {} st noCause isReady
    (fun s i =>
      let G := s.grp i.c.blk i.c.grp
      { s := s.setGrp i.c.blk i.c.grp (i.lanes.foldl (fun g L =>
          g.enterRegion L (pcAfter i.c.pc 1) s.fresh) G) }) s
/-- chkerr (R111): kd := CIR; CIR := 0, one step; it ends an interval's flag (R189). -/
def execChkerr (d : KReg) (st : Stall) (s : State) : Res :=
  issueWith {} st noCause isReady
    (fun s i =>
      let s := s.loseInterval i.c.blk
      let kn := (s.blk i.c.blk).kernel
      let k := s.kernel kn
      { s := s.setKernel kn { k with cir := 0#32 }, lat := .var
        writes := kWrite (s.grp i.c.blk i.c.grp) d k.cir }) s

/-! ## Taking a trap (R108, R172, R173, R182) -/

/-- The order in which causes are served (R173): STORE_FAULT, the late causes, then the issue causes in the order of R171. -/
def causeRank : Nat → Nat
  | 15 => 0 | 11 => 1 | 12 => 2 | 13 => 3 | 14 => 4 | 1 => 5 | 2 => 6 | 3 => 7 | 6 => 8 | 4 => 9 | 5 => 10
  | 7 => 11 | 8 => 12 | 9 => 13 | 10 => 14 | _ => 15

/-- A late cause (R170). -/
def isLate (c : Cause) : Bool := c.late || decide (11 ≤ c.code ∧ c.code ≤ 14)

/-- The parked lanes that a trap may serve: never a helper (R17, R173). -/
def Group.parked (G : Group) : List Nat := G.present.filter fun L => (G.lane L).status == .parked

/-- The set of parked lanes that is served next (R173). -/
def Group.serve (G : Group) : List Nat :=
  let parked := G.parked
  let best := parked.foldl (fun m L => min m (causeRank (G.lane L).cause.code)) 99
  let c1 := parked.filter fun L => causeRank (G.lane L).cause.code == best
  let pc := G.minPc c1
  let c2 := c1.filter fun L => (G.lane L).pc == pc
  match c2 with
  | [] => []
  | L0 :: _ =>
    let x := (G.lane L0).cause
    if isLate x then c2.filter fun L =>
      let y := (G.lane L).cause
      y.fpc == x.fpc && y.va / 4096 == x.va / 4096 && (G.lane L).region.pc == (G.lane L0).region.pc
    else c2

/-- A block whose groups may issue and enter handlers: on a core, not leaving it, not rolling back, its kernel not being killed (R114, R140,
R190, R406). -/
def State.blockRuns (s : State) (u : Nat) : Bool :=
  let b := s.blk u
  b.live && b.core.isSome && !b.evicting && !b.rolling && (s.kernel b.kernel).state != .killing

/-- The conditions of handler entry (R172); a store that a full record queue holds back is not waited for (log entry 15). -/
def State.entryReady (s : State) (u g : Nat) : Bool :=
  let G := s.grp u g
  s.blockRuns u && G.live && !G.trapped && !G.parked.isEmpty
    && (G.full.all fun L => (G.lane L).status != .active)
    && !s.untranslated u g G.parked (fun p => p.kind != .store || decide (G.sfq.length < 16))

/-- The 16 entries below a lane's window base, for the trap save slot (R108). -/
def frameBytes (A : Nat) (l : Lane) : List Byte :=
  wordBytes ((List.range 16).map fun (j : Nat) => mget 0#32 l.stack (((l.base - 16 + (j : Int)) % (A : Int)).toNat))

/-- The bytes of a store-fault record (R180). -/
def StoreFault.bytes (r : StoreFault) : List Byte :=
  leBytes 8 r.va ++ (r.data ++ List.replicate (16 - r.data.length) 0#8) ++ [BitVec.ofNat 8 (r.lanes.headD 0), BitVec.ofNat 8 r.width]
    ++ leBytes 2 r.cause ++ leBytes 4 r.pcOff

/-- The store-fault records of a set, as many as the save slot takes (R180, R182). -/
def Group.served? (G : Group) (set : List Nat) : List StoreFault :=
  (G.sfq.filter fun r => r.lanes.any fun L => set.contains L).take 16

/-- A list of device stores in order; the first wait or fault ends it. -/
def State.devRun (s : State) (ctx core : Nat) (kern : Option Nat) (floor : Nat) : List (Nat × List Byte) → DevR
  | [] => .ok s
  | (va, bs) :: r => match s.devStore ctx core kern va bs false floor with
    | .ok s => s.devRun ctx core kern floor r
    | x => x

/-- The stores of a handler entry: while one of them must wait, none is made (R228). -/
def State.devStores (s : State) (ctx core : Nat) (kern : Option Nat) (floor : Nat) (l : List (Nat × List Byte)) : DevR :=
  match l.findSome? fun x => (match s.devStore ctx core kern x.1 x.2 false floor with
    | .wait t => some t
    | _ => none) with
  | some t => .wait t
  | none => match s.devRun ctx core kern floor l with
    | .wait t => .wait (s.roomFor t)
    | r => r

/-- A lane enters the handler: its base is lowered by 16 and its guard window is set aside (R108, R154). -/
def Lane.enterHandler (l : Lane) (vec : Nat) : Lane :=
  { l with status := .active, pc := vec, trapBase := l.base, base := l.base - 16
           trapFlag := l.gflag, trapCount := l.gcount, gcount := 0 }

/-- The stores of a handler entry for the set served: a frame for each lane, and for STORE_FAULT the 16 record slots (R108, R182). -/
def State.entryStores (s : State) (u g : Nat) : List (Nat × List Byte) :=
  let b := s.blk u
  let G := b.grp g
  let set := G.serve
  let recs := G.served? set
  (set.map fun L => (G.stksave.toNat + 64 * L, frameBytes b.A (G.lane L))) ++
    (if (G.lane (set.headD 0)).cause.code = 15 then (List.range 16).map fun i =>
      (G.stksave.toNat + 2048 + 32 * i, match recs[i]? with
        | some r => r.bytes
        | none => List.replicate 32 0#8) else [])

/-- TAKING A TRAP (R108, R173, R179, R182): the group enters its handler for the set served; TCAUSE, TREC, TPC, TVA and TLANES
are written, the frames and store-fault records are stored, the set starts at TRAPVEC in trap mode. A TRAPVEC of 0, or a
store that faults, is a trap in trap mode (R192). -/
def State.trapEntry (s : State) (u g : Nat) : State :=
  if !s.entryReady u g then s else
  let b := s.blk u
  let G := b.grp g
  let cx := s.ctx b.ctx
  let set := G.serve
  let L0 := set.headD 0
  let x := (G.lane L0).cause
  let core := b.core.getD 0
  let recs := if x.code = 15 then G.served? set else []
  if cx.trapvec = 0#64 then s.doubleTrap u g
  else match s.devStores b.ctx core (some b.kernel) G.floor (s.entryStores u g) with
    | .wait t => s.stalled t
    | .fault _ t => t.doubleTrap u g
    | .ok s =>
      let G := (s.blk u).grp g
      let va := if x.code = 15 then (match recs with
        | r :: _ => r.va
        | [] => 0) else if isLate x then x.va else 0
      let G := set.foldl (fun H L => H.setLane L ((H.lane L).enterHandler cx.trapvec.toNat)) G
      let G := { G with
        tcause := BitVec.ofNat 32 (x.code + 256 * x.number + (if x.late then 2 ^ 15 else 0))
        trec := BitVec.ofNat 32 (if x.words = 0 then s.wordsAt u ((b.grp g).lane L0).pc else x.words)
        tpc := BitVec.ofNat 64 ((b.grp g).lane L0).pc
        tva := BitVec.ofNat 64 va
        tlanes := BitVec.ofNat 32 (maskOf set)
        trapped := true, served := set, round := []
        sfq := G.sfq.filter fun r => !recs.contains r }
      (s.setGrp u g G).count b.ctx 0x0C 1

/-! ## rett (R187) -/

/-- The bytes at a place with a lane's older stores that have not performed laid over them, oldest first (R225); the mark
says that a byte is a store's. -/
def State.overlay (s : State) (u g L : Nat) (at_ : Phys) (bs : List (Byte × Bool)) : List (Byte × Bool) :=
  s.pend.foldl (fun bs p =>
    if p.blk == u && p.grp == g && !p.bm && p.kind == .store && !p.done && p.lanes.contains L then
      match p.phys with
      | some y =>
        if y.target == at_.target && y.peer == at_.peer then
          bs.zipIdx.map fun b =>
            if y.off ≤ at_.off + b.2 && at_.off + b.2 < y.off + p.size then (p.data.getD (at_.off + b.2 - y.off) 0#8, true) else b.1
        else bs
      | none => bs
    else bs) bs

/-- A word of a loaded record: poison where its line is and no store covers it. -/
def recordWord (bad : Bool) (bs : List (Byte × Bool)) : Word :=
  if bad && !(bs.all (·.2)) then poisonWord else (bytesWords (bs.map (·.1))).headD 0#32

/-- A lane's frame as the lane reads it from the save slot (R187, R225). -/
def State.frameLoad (s : State) (u g L : Nat) : Except Nat (List Word) :=
  let b := s.blk u
  let va := (b.grp g).stksave.toNat + 64 * L
  match s.devLoad b.ctx va 64 with
  | .error c => .error c
  | .ok (bs, bad) => match (s.translate 0 b.ctx va .load (s.mayCache 12)).1 with
    | .error c => .error c.1
    | .ok x =>
      let bs := s.overlay u g L x.phys (bs.map fun y => (y, false))
      .ok ((List.range 16).map fun j => recordWord bad ((bs.drop (4 * j)).take 4))

/-- A write of the run's lanes that the reload of rett cannot see yet: a store or an atomic that has not been translated, an
atomic that has not performed (R225). -/
def State.hiddenWrites (s : State) (i : Issue) : Bool :=
  s.pend.any fun p => p.blk == i.c.blk && p.grp == i.c.grp && !p.bm && p.writes && !p.done
    && (p.phys.isNone || p.kind != .store) && p.lanes.any fun L => i.lanes.contains L

/-- A lane resumes (R187, R161): the base raised by 16, after SPILL or FILL low moved and the base of the trapped code
restored; the 16 entries below that base reloaded. -/
def Lane.leaveHandler (l : Lane) (A tpc code : Nat) (ws : List Word) : Lane :=
  let base := if code = 7 ∨ code = 8 then l.trapBase else l.base + 16
  let stack := ws.zipIdx.foldl (fun m x => mset 0#32 m (((base - 16 + (x.2 : Int)) % (A : Int)).toNat) x.1) l.stack
  let low := if code = 7 then l.low + 64 else if code = 8 then l.low - 64 else l.low
  { l with status := .active, pc := tpc, stack := stack, low := low
           base := base, gflag := l.trapFlag, gcount := l.trapCount }

/-- Suspended engine work of a group becomes a candidate again (R268, R291). -/
def State.resumeEngines (s : State) (u g : Nat) : State :=
  let G := s.grp u g
  let s := s.setGrp u g { G with matq := G.matq.map fun e => { e with susp := none } }
  match (s.blk u).core with
  | none => s
  | some n =>
    let c := s.core n
    let wake := fun (e : CopyEntry) => if e.blk == u && e.grp == g then { e with susp := none } else e
    s.setCore n { c with ldq := c.ldq.map wake, stq := c.stq.map wake
                         chans := c.chans.map fun x => (x.1, if x.2.blk == u && x.2.grp == g then
                           { x.2 with susp := none, entry := x.2.entry.map wake } else x.2) }

/-- What rett does once it issues in trap mode (R187, R174). -/
def State.rettDo (s : State) (u g : Nat) (run : List Nat) : State :=
  let G := s.grp u g
  let set := G.served.filter fun L => !(G.lane L).isOver
  let frames := set.map fun L => (L, s.frameLoad u g L)
  let s := set.foldl (fun s L => s.devNote (some (s.blk u).kernel) (s.blk u).ctx (G.stksave.toNat + 64 * L) 64) s
  if run != set || frames.any fun f => (match f.2 with | .error _ => true | .ok _ => false) then s.doubleTrap u g
  else
    let code := G.tcause.toNat % 256
    let G := frames.foldl (fun H f => match f.2 with
      | .ok ws => H.setLane f.1 ((H.lane f.1).leaveHandler (s.blk u).A G.tpc.toNat code ws)
      | .error _ => H) G
    let s := s.setGrp u g G.leaveTrap
    if (code = 11 ∨ code = 12 ∨ code = 14) && !G.tcause.getLsbD 15 then s.resumeEngines u g else s

/-- The run that issues. -/
def State.run (s : State) : List Nat :=
  match s.cur with
  | some c => (s.grp c.blk c.grp).acting c.run
  | none => []

/-- rett (R187, R174): outside trap mode ILLEGAL; a run that is not the served set, or a reload that faults, is a trap in trap
mode. -/
def execRett (st : Stall) (s : State) : Res :=
  afterCur s (fun t u g => if s.runActs && (s.grp u g).trapped then t.rettDo u g s.run else t)
    (issueWith {} st (fun s i _ => if (s.grp i.c.blk i.c.grp).trapped then none else some (mkCause i.c 1))
      (fun s i => if s.hiddenWrites i then some .other else none)
      (fun s i => { s := s, keeps := i.lanes }) s)

/-! ## Late faults and store faults (R178, R180, R181) -/

/-- A lane rolls back to its region entry and parks with a late cause (R178): its results not yet written from this
instruction on, its stores since the region entry that have not performed and its store-fault records are discarded; a
register that an older load has still to write waits for it again. DESIGN CHOICE (log entry 95): a store that has been sent to a peer goes
on. -/
def State.rollLane (s : State) (p : Pend) (cause L : Nat) : State :=
  let u := p.blk
  let g := p.grp
  let G := s.grp u g
  let c : Cause := ⟨cause, 0, true, p.addr, p.pc, 0⟩
  let reg := (G.lane L).region
  let s := s.setBlk u ((s.blk u).badBack g L s.fresh)
  let G := G.setLane L ((G.lane L).restore.park c)
  let G := { G with
    board := G.board.map fun e =>
      let cells := if p.iid ≤ e.iid then e.cells.filter fun x => !(ofLane L x.key) else e.cells
      let back := (reg.waits.filter fun w => w.2 == e.iid && !(cells.any fun x => x.key == w.1)).map fun w => ⟨w.1, G.getKey w.1⟩
      { e with cells := cells ++ back }
    sfq := (G.sfq.map fun r => { r with lanes := r.lanes.filter (· != L) }).filter fun r => !r.lanes.isEmpty }
  let s := s.setGrp u g G
  let gone := fun (q : Pend) => match q.kind with
    | .store => decide (reg.at_ ≤ q.iid) && !q.sent
    | .atomic | .sys _ | .fence _ => false
    | _ => decide (p.iid ≤ q.iid)
  let s := { s with pend := (s.pend.map fun (q : Pend) =>
      if q.blk == u && q.grp == g && q.lanes.contains L && gone q
      then { q with lanes := q.lanes.filter (· != L) } else q).filter fun q => !q.lanes.isEmpty }
  s.count p.ctx 0x0A 1

/-- Finish instructions whose remaining parts have all returned. -/
def State.retireAll (s : State) (u g : Nat) : State :=
  let ids := ((s.grp u g).board.map (·.iid)).eraseDups
  ids.foldl (fun s i => if (s.grp u g).board.any fun e => e.iid == i && e.mem then s.retire u g i else s) s

/-- LATE_FAULT (R178): the failing lanes of a load, helpers excepted (R17), kld, atomic or as-of load roll back and park; in trap mode the group dies
(R192). -/
def State.lateFault (s : State) (p : Pend) : State :=
  match p.fault with
  | none => s
  | some c =>
    if p.kind == .store || !p.access then s
    else
      let G := s.grp p.blk p.grp
      if !G.live then (s.delOp p.uid).retireAll p.blk p.grp
      else if G.trapped && p.lanes.any fun L => G.served.contains L then s.doubleTrap p.blk p.grp
      else
        let s := s.delOp p.uid
        (((p.lanes.filter fun L => !(G.lane L).helper).foldl (fun s L => s.rollLane p c L) s).retireAll p.blk p.grp).barriers p.blk p.grp

/-- STORE_FAULT_RECORD (R180). -/
def State.storeFault (s : State) (p : Pend) : State :=
  match p.fault with
  | none => s
  | some c =>
    if p.kind != .store then s
    else
      let G := s.grp p.blk p.grp
      let s := s.delOp p.uid
      if !G.live || s.dying p.blk then s
      else
        let wcode := if p.size = 1 then 0 else if p.size = 2 then 1 else if p.size = 4 then 2 else if p.size = 8 then 3 else 4
        let r : StoreFault := ⟨p.lanes, p.addr, p.data, wcode, c, (p.pc + 2 ^ 57 - (s.blk p.blk).code) % 2 ^ 32, G.issues⟩
        (s.setGrp p.blk p.grp { G with sfq := G.sfq ++ [r] }).count p.ctx 0x0B 1

/-- A forced delivery is due: 32 issues since the oldest record entered the queue, or a full queue (R181). -/
def Group.forced (G : Group) : Bool :=
  (G.sfq.any fun r => decide (r.at_ + 32 ≤ G.issues)) || decide (16 ≤ G.sfq.length)

end Sys2Proof.Machine
end

