-- ==== Sys2Proof/Machine/Csr.lean ====
section
/-! DEFINITION. CSRs, special registers, tokens and mark (R33, R66, R99-R112, R281, R282, R405, R407, R412). -/

namespace Sys2Proof.Machine

/-! ## The CSR map (R100) -/

/-- The 64-bit CSRs, by their even number. -/
def csrWide (n : Nat) : Bool := n == 0x02 || n == 0x06 || n == 0x08 || n == 0x10 || n == 0x1C || n == 0x804
/-- Either half of a 64-bit CSR. -/
def csrHalf (n : Nat) : Bool := csrWide (n / 2 * 2)

/-- Numbers that R100 assigns. -/
def csrKnown (n : Nat) : Bool :=
  decide (n ≤ 0x0A) || decide (0x10 ≤ n ∧ n ≤ 0x1A) || n == 0x1C || n == 0x1D || decide (0x100 ≤ n ∧ n ≤ 0x13F)
    || n == 0x800 || n == 0x801 || n == 0x802 || n == 0x804 || n == 0x805

/-- Device-scope CSRs. -/
def csrDevice (n : Nat) : Bool := decide (0x800 ≤ n)
/-- Group-scope CSRs. -/
def csrGroup (n : Nat) : Bool := decide (n ≤ 0x0A)

/-- ILLEGAL at issue: an unassigned number, or a device CSR from a context that is not privileged (R99, R106). -/
def State.csrIllegal (s : State) (u n : Nat) : Bool := !csrKnown n || (csrDevice n && !(s.ctxOf u).priv)

/-- CTXATTR (R101). -/
def Ctx.attr (c : Ctx) : Nat := (if c.priv then 1 else 0) + 256 * c.weight

/-- A CSR's whole value: 64 bits for either half of a 64-bit CSR, else 32 (R100). -/
def State.csrValue (s : State) (u g n : Nat) : Nat :=
  let G := s.grp u g
  let cn := (s.blk u).ctx
  let c := s.ctx cn
  match n with
  | 0x00 => G.fpcr.toNat
  | 0x01 => G.fpsr.toNat
  | 0x02 | 0x03 => G.stksave.toNat
  | 0x04 => G.tcause.toNat
  | 0x05 => G.trec.toNat
  | 0x06 | 0x07 => G.tpc.toNat
  | 0x08 | 0x09 => G.tva.toNat
  | 0x0A => G.tlanes.toNat
  | 0x10 | 0x11 => c.trapvec.toNat
  | 0x12 => c.sbchk.toNat
  | 0x13 => c.wdog.toNat
  | 0x14 => c.quantum.toNat
  | 0x15 => c.pintmo.toNat
  | 0x16 => c.accthr.toNat
  | 0x17 => c.acttmo.toNat
  | 0x18 => cn
  | 0x19 => c.attr
  | 0x1A => c.tslice
  | 0x1C | 0x1D => c.ptroot.toNat
  | 0x800 => s.hretain.toNat
  | 0x801 => s.seriesk.toNat
  | 0x802 => s.retrain.toNat
  | 0x804 | 0x805 => s.stopat.toNat
  | _ => if n < 0x120 then (mget 0#32 c.ctr (n - 0x100)).toNat else (mget 0#32 c.ctrsel (n - 0x120)).toNat

/-- The half of a value that a number names. -/
def csrPart (n v : Nat) : Word :=
  if csrHalf n ∧ n % 2 = 1 then BitVec.ofNat 32 (v / 2 ^ 32) else BitVec.ofNat 32 v

/-- Event codes of CTRSEL (R405). -/
def ctrEvent (v : Nat) : Bool := decide (v ≤ 0x12) || decide (0x20 ≤ v ∧ v ≤ 0x2F)

/-- A value may be written: zero fields zero, `ro` CSRs unchanged, in range, aligned (R8, R9, R102, R106, R405, R407). -/
def State.csrAllows (s : State) (u g n v : Nat) : Bool :=
  match n with
  | 0x00 => decide (v < 8)
  | 0x01 => decide (v < 32)
  | 0x02 | 0x03 => v % 256 == 0
  | 0x06 | 0x07 => (s.grp u g).trapped || v == s.csrValue u g n
  | 0x10 | 0x11 => v % 4 == 0
  | 0x12 => decide (v < 2)
  | 0x13 => decide (v < 2 ^ 31)
  | 0x14 | 0x15 | 0x16 | 0x17 | 0x802 | 0x804 | 0x805 => true
  | 0x800 => decide (v ≤ 2 ^ 30)
  | 0x801 => v == 0 || decide (10 ≤ v ∧ v ≤ 30)
  | _ => if 0x120 ≤ n ∧ n ≤ 0x13F then ctrEvent v else v == s.csrValue u g n

/-- Write a CSR's whole value, where it is allowed; a changed CTRSEL clears its counter (R405). -/
def State.csrPut (s : State) (u g n v : Nat) : State :=
  let G := s.grp u g
  let cn := (s.blk u).ctx
  let c := s.ctx cn
  let w := BitVec.ofNat 32 v
  match n with
  | 0x00 => s.setGrp u g { G with fpcr := w }
  | 0x01 => s.setGrp u g { G with fpsr := w }
  | 0x02 | 0x03 => s.setGrp u g { G with stksave := BitVec.ofNat 64 v }
  | 0x06 | 0x07 => s.setGrp u g { G with tpc := BitVec.ofNat 64 v }
  | 0x10 | 0x11 => s.setCtx cn { c with trapvec := BitVec.ofNat 64 v }
  | 0x12 => s.setCtx cn { c with sbchk := w }
  | 0x13 => s.setCtx cn { c with wdog := w }
  | 0x14 => s.setCtx cn { c with quantum := w }
  | 0x15 => s.setCtx cn { c with pintmo := w }
  | 0x16 => s.setCtx cn { c with accthr := w }
  | 0x17 => s.setCtx cn { c with acttmo := w }
  | 0x800 => { s with hretain := w }
  | 0x801 => { s with seriesk := w }
  | 0x802 => { s with retrain := w }
  | 0x804 | 0x805 => { s with stopat := BitVec.ofNat 64 v, stopSet := s.tick }
  | _ =>
    if 0x120 ≤ n ∧ n ≤ 0x13F then
      let k := n - 0x120
      s.setCtx cn { c with
        ctrsel := mset 0#32 c.ctrsel k w
        ctr := if mget 0#32 c.ctrsel k = w then c.ctr else mset 0#32 c.ctr k 0#32 }
    else s

/-- A use that is ILLEGAL whatever its sources hold: every lane of the run that acts parks with it (R73, R74). -/
def orIllegal (bad : State → Cur → Bool) (st : Stall) (k : State → Res) (s : State) : Res :=
  match s.cur with
  | none => k s
  | some c =>
    if bad s c then issueWith {} st (fun _ i _ => some (mkCause i.c 1)) isReady (fun s _ => { s := s }) s else k s

/-- Every older instruction of the group has completed (R64, R104): no producer open, and no load, fence or system operation in
flight. -/
def State.allComplete (s : State) (u g now : Nat) : Bool :=
  ((s.grp u g).board.all fun e => !(e.open now)) && s.pend.all fun p => p.blk != u || p.grp != g || p.done ||
    (match p.kind with
      | .store => true
      | .atomic => p.dest.isEmpty
      | _ => false)

/-- csrr and csrw wait for every older instruction (R104). -/
def csrWait (s : State) (i : Issue) : Option Reason :=
  if s.allComplete i.c.blk i.c.grp i.now then none else some .other

/-- csrr (R103-R106): an even half latches the odd one; any CSR access discards what the group held before. -/
def execCsrr (d : KReg) (csr : BitVec 16) (st : Stall) (s : State) : Res :=
  orIllegal (fun s c => s.csrIllegal c.blk csr.toNat) st (issueWith {} st noCause csrWait
    (fun s i =>
      let u := i.c.blk
      let g := i.c.grp
      let n := csr.toNat
      let G := s.grp u g
      let v := s.csrValue u g n
      let held := match G.latch with
        | some (m, w) => if m = n then some w else none
        | none => none
      let G' := { G with wbuf := none, latch := if csrWide n then some (n + 1, BitVec.ofNat 32 (v / 2 ^ 32)) else none }
      { s := s.setGrp u g G', lat := .var, writes := kWrite G d (held.getD (csrPart n v)) })) s

/-- What a write to a number makes the CSR's whole value: with a buffered even half, or the even half as it stands (R105). -/
def State.csrNew (s : State) (u g n : Nat) (w : Word) : Nat :=
  if csrHalf n then
    let lo := match (s.grp u g).wbuf with
      | some (m, l) => if m = n then l.toNat else s.csrValue u g n % 2 ^ 32
      | none => s.csrValue u g n % 2 ^ 32
    lo + 2 ^ 32 * w.toNat
  else w.toNat

/-- csrw (R103-R106): an even half is buffered; a value the CSR does not allow parks every lane of the run where the write
performs. -/
def execCsrw (csr : BitVec 16) (a : KReg) (st : Stall) (s : State) : Res :=
  orIllegal (fun s c => s.csrIllegal c.blk csr.toNat) st (issueWith { ksrc := [(a, 1)] } st noCause csrWait
    (fun s i =>
      let u := i.c.blk
      let g := i.c.grp
      let n := csr.toNat
      let G := s.grp u g
      let w := kval i.now G i.iid a
      let s0 := s.setGrp u g { G with latch := none, wbuf := if csrWide n then some (n + 1, w) else none }
      let s0 := if csrGroup n then s0 else s0.loseInterval u
      if csrWide n then { s := s0 }
      else
        let v := s.csrNew u g n w
        if s.csrAllows u g n v then { s := s0.csrPut u g n v }
        else
          { s := s.setGrp u g { G with latch := none, wbuf := none }
            parks := (i.real s).map fun L => (L, mkCause i.c 2) })) s

/-! ## sread (R112) -/

/-- The value of a special register. -/
def State.sreadVal (s : State) (i : Issue) (fn : SreadFn) : Nat :=
  let b := s.blk i.c.blk
  let G := b.grp i.c.grp
  let w := (G.lane (i.c.run.headD 0)).w
  match fn with
  | .tick => max (s.tickAt (128 + i.c.core)) G.tickSeen
  | .ctxid => b.ctx
  | .core => i.c.core
  | .slot => mget 0 b.slots i.c.grp
  | .group => i.c.grp
  | .role => b.role
  | .teamsz => (s.team b.team).size
  | .blockid => b.bid
  | .lanes => b.lanes
  | .runmask => maskOf (G.acting i.c.run)
  | .present => maskOf G.present
  | .frame => b.frame.toNat
  | .join => b.join.toNat
  | .wbase => (if w < 0 then w + (b.A : Int) else w).toNat
  | .ubase => G.ubase
  | .island => s.island.st

/-- sread (R112); `island` is privileged (R99). -/
def execSread (fn : SreadFn) (d : KReg) (st : Stall) (s : State) : Res :=
  orIllegal (fun s c => fn == .island && !(s.ctxOf c.blk).priv) st (issueWith {} st noCause isReady
    (fun s i =>
      let G := s.grp i.c.blk i.c.grp
      let v := s.sreadVal i fn
      { s := if fn == .tick then s.setGrp i.c.blk i.c.grp { G with tickSeen := v } else s, lat := .var
        writes := if fn.pair then kWrite2 G d (BitVec.ofNat 64 v) else kWrite G d (BitVec.ofNat 32 v) })) s

/-! ## Tokens (R281, R282, R290) -/

/-- A token's count of outstanding operations. -/
def Group.token (G : Group) (t : Nat) : Nat := mget 0 G.tokens t
/-- An entry adds an operation to its token, at issue. -/
def Group.tokenAdd (G : Group) (t : Nat) : Group := { G with tokens := mupd 0 G.tokens t (· + 1) }
/-- An entry that performs removes it; a group whose tokens were cleared keeps 0 (R281). -/
def State.tokenSub (s : State) (u g t : Nat) : State :=
  let G := s.grp u g
  if G.live then s.setGrp u g { G with tokens := mupd 0 G.tokens t (· - 1) } else s

/-- What entries that have performed leave for the wait that covers them: stamps and devices written (R290, R335). Copy
entries are kept by token, matrix entries by token + 8. -/
def State.coverAdd (s : State) (u g key st : Nat) (devs : List Nat) (saw : List (Nat × Nat)) : State :=
  let G := s.grp u g
  let old : Cover := mget {} G.covered key
  s.setGrp u g { G with covered := mset {} G.covered key ⟨max old.stamp st, (old.devs ++ devs).eraseDups, old.saw ++ saw⟩ }

/-- A wait that covers entries has completed: their writes are older stores of the group, for its floor, its marker set and what its
`.no` atomics may return (R290, R334, R335). -/
def State.cover (s : State) (u g : Nat) (keys : List Nat) : State :=
  let G := s.grp u g
  let got : List Cover := keys.map fun k => mget {} G.covered k
  (s.setGrp u g { G with
    floor := got.foldl (fun f x => max f x.stamp) G.floor
    dests := (G.dests ++ got.flatMap (·.devs)).eraseDups
    covered := keys.foldl (fun m k => mset {} m k {}) G.covered }).seeWords u g (got.flatMap (·.saw))

/-- Tokens of a mask. -/
def maskToks (mask : BitVec 8) : List Nat := (List.range 8).filter fun t => mask.getLsbD t

/-- waitt (R282): it delivers the engine faults of its tokens and waits until each counts 0. -/
def execWaitt (mask : BitVec 8) (st : Stall) (s : State) : Res :=
  deliverEngine false .none (fun t => mask.getLsbD t) true {} st
    (fun s i => if (maskToks mask).all fun t => (s.grp i.c.blk i.c.grp).token t == 0 then none else some .tokenWait)
    (fun s i => { s := s.cover i.c.blk i.c.grp (maskToks mask ++ (maskToks mask).map (· + 8)) }) s

/-! ## mark (R412) -/

/-- mark: a MARK record with its PC and the value of ka, where the context traces. -/
def execMark (a : KReg) (st : Stall) (s : State) : Res :=
  issueWith { ksrc := [(a, 1)] } st noCause isReady
    (fun s i =>
      let v := kval i.now (s.grp i.c.blk i.c.grp) i.iid a
      { s := s.trace i.c.blk i.c.grp 5 0 ((i.c.pc + 2 ^ 57 - (s.blk i.c.blk).code) % 2 ^ 32) v.toNat }) s

end Sys2Proof.Machine
end

