-- ==== Sys2Proof/Machine/Queue.lean ====
section
/-! DEFINITION. Hardware queues, records and pushes: spawn, launch, jdec, qinit, qstat, and the shared form of the system
operations that release before they take effect (R115-R133). -/

namespace Sys2Proof.Machine

/-! ## System operations in flight (log entry 16) -/

/-- Uniform registers of a field, as words. -/
def kvals (s : State) (i : Issue) (f : KReg) (n : Nat) : List Word :=
  (List.range n).map fun j => kval i.now (s.grp i.c.blk i.c.grp) i.iid f j

/-- A system operation: it stands for every lane of its group, whose older accesses its release orders. -/
def sysPend (s : State) (i : Issue) (op : SysOp) (rel : Scope) (args : List Word) (dest : List RegKey) : Pend :=
  { basePend s i with
    kind := .sys op, lanes := (s.grp i.c.blk i.c.grp).full, uniform := true, args := args, dest := dest, rel := some rel }

/-- A system operation has its result: its destination is written and it completes. -/
def State.sysEnd (s : State) (p : Pend) (ws : List Word) : State :=
  (s.setOp { p with done := true, result := ws }).retire p.blk p.grp p.iid

/-! ## Records (R118-R121) -/

/-- Bit field of a number. -/
def field (v lo n : Nat) : Nat := v / 2 ^ lo % 2 ^ n

/-- A record from the 16 words of its slot: a continuation's second half must be zero (R118-R121). -/
def recOf (ws : List Word) : Rec :=
  let w := fun j => (ws.getD j 0#32).toNat
  let code := w 0 + 2 ^ 32 * w 1
  let sh := w 6 + 2 ^ 32 * w 7
  let lanes := field sh 0 10
  let team := field sh 10 4 + 1
  let A := field sh 14 6 * 8
  let scratch := field sh 20 9
  let grid := field sh 32 1 == 1
  let blocks := w 8 + 2 ^ 32 * w 9
  let base := w 10
  let comp := w 12 + 2 ^ 32 * w 13
  { code := code, frame := BitVec.ofNat 64 (w 2 + 2 ^ 32 * w 3), join := BitVec.ofNat 64 (w 4 + 2 ^ 32 * w 5)
    lanes := lanes, team := team, A := A, scratch := scratch, prio := field sh 29 3, grid := grid, queue := field sh 33 4
    blocks := if grid then blocks else team, base := if grid then base else 0, comp := if grid then comp else 0
    bad := code == 0 || code % 4 != 0 || lanes == 0 || decide (512 < lanes) || decide (A < 128 ∨ 512 < A)
      || decide (320 < scratch) || field sh 37 27 != 0 || decide (Config.fileEntries < (lanes + 31) / 32 * A)
      || (if grid then blocks == 0 || decide (2 ^ 32 < blocks) || blocks % team != 0 || decide (2 ^ 32 < base + blocks)
            || w 11 != 0 || w 14 != 0 || w 15 != 0
          else (List.range 8).any fun j => w (8 + j) != 0) }

/-! ## Queues (R115, R117) -/

/-- The hardware queue of a context's queue index (R115). -/
def State.queueOf (s : State) (ctx idx : Nat) : Option Nat :=
  match mget 0 (s.ctx ctx).queues idx with
  | 0 => none
  | h + 1 => some h

/-- The occupancy of a ring (R115). -/
def HwQueue.occ (q : HwQueue) : Nat := (q.tail - q.head).toNat

/-- A draining queue with nothing left is idle (R117). -/
def HwQueue.settle (q : HwQueue) : HwQueue :=
  if q.st == .draining && q.occ == 0 && q.resume.isEmpty then { q with st := .idle, popped := 0, since := none, reserved := none } else q

/-- The VA of a ring slot. -/
def HwQueue.slotVa (q : HwQueue) (index : Word) : Nat := q.ring + 64 * (index.toNat % 2 ^ q.n)

/-- A QUEUE_FAULT event (R380). -/
def State.queueFault (s : State) (ctx hw cause status slot va : Nat) : State :=
  s.emit 2 ctx ([BitVec.ofNat 8 hw, BitVec.ofNat 8 cause, BitVec.ofNat 8 status, 0#8] ++ leBytes 4 slot ++ leBytes 8 va)

/-- A block of the kernel is admitted or evicted and has not ended. -/
def State.kernelLive (s : State) (k : Nat) : Bool := s.blocks.any fun b => b.2.live && b.2.kernel == k

/-- running to ending: no block and no team is left (R140). -/
def State.kernelTry (s : State) (k : Nat) : State :=
  let K := s.kernel k
  if K.state == .running && K.teamsLeft == 0 && !s.kernelLive k then s.setKernel k { K with state := .ending } else s

/-- The records of a ring are discarded; a kernel whose record was partly popped has no team left (R117, R140). -/
def State.discardRing (s : State) (h : Nat) : State :=
  let q := s.queue h
  let s := s.setQueue h { q with head := q.tail, popped := 0, since := none, reserved := none, recs := [] }
  if 0 < q.popped then (s.setKernel q.kernel { s.kernel q.kernel with teamsLeft := 0 }).kernelTry q.kernel else s

/-! ## Pushing (R127, R128) -/

/-- A push: it waits, or it has a status. -/
inductive PushR where
  | wait (t : State)
  | done (status : Nat) (s : State)

/-- The push of a record's 16 words to the queue that its shape names (R128). -/
def State.push (s : State) (ctx core : Nat) (kern : Option Nat) (floor : Nat) (grid : Bool) (ws : List Word) : PushR :=
  let r := recOf ws
  if r.bad || r.grid != grid then .done 3 s
  else match s.queueOf ctx r.queue with
    | none => .done 2 s
    | some h =>
      let q := s.queue h
      if q.host || q.st == .idle || q.st == .draining then .done 2 s
      else if q.occ = 2 ^ q.n then .done 1 s
      else
        let va := q.slotVa q.tail
        match s.devStore ctx core kern va (wordBytes ((List.range 16).map fun j => ws.getD j 0#32)) true floor with
        | .wait t => .wait t
        | .fault _ s =>
          let s := s.setQueue h { q with st := .stopped }
          .done 5 (s.queueFault ctx h 4 5 (q.tail.toNat % 2 ^ q.n) va)
        | .ok s => .done 0 (s.setQueue h { s.queue h with tail := q.tail + 1 })

/-- spawn (R127, R128); it ends an interval's flag (R189). -/
def execSpawn (d a : KReg) (st : Stall) (s : State) : Res :=
  deliverWith .none true { ksrc := [(a, 8)] } st noCause isReady
    (fun s i => issueLoads (s.loseInterval i.c.blk) i
      [sysPend s i .spawn .dev (kvals s i a 8) [kKey (s.grp i.c.blk i.c.grp) d]]) s

/-- launch (R127, R128); it ends an interval's flag (R189). -/
def execLaunch (d a : KReg) (st : Stall) (s : State) : Res :=
  deliverWith .none true { ksrc := [(a, 16)] } st noCause isReady
    (fun s i => issueLoads (s.loseInterval i.c.blk) i
      [sysPend s i .launch .dev (kvals s i a 16) [kKey (s.grp i.c.blk i.c.grp) d]]) s

/-- A push takes effect once its release may perform (R128). -/
def State.pushPerform (s : State) (p : Pend) (grid : Bool) : State :=
  match s.push p.ctx (((s.blk p.blk).core).getD p.core) (some (s.blk p.blk).kernel) (s.grp p.blk p.grp).floor grid p.args with
  | .wait t => s.stalled t
  | .done status t => t.sysEnd p [BitVec.ofNat 32 status]

/-! ## jdec (R129) -/

/-- A decrement: it waits, with what the attempt leaves, or it has its result, the push's status and the stamp of its atomic. -/
inductive DecR where
  | wait (t : State)
  | done (kd : Word) (status stamp : Nat) (s : State)

/-- The decrement of the join record whose counter stands at a physical address of local or host memory (R119, R129); what it writes to
host memory is a release (R229). -/
def State.decrement (s : State) (ctx core : Nat) (kern : Option Nat) (floor : Nat) (ph : Phys) (hist migr : Bool) : DecR :=
  if !s.writeReady ph hist migr then .wait (s.noteStall ph hist)
  else
    let key := s.keyOf ctx
    let rd := fun off n => if ph.target = 2 then rdBytes s.mem (hostBase + off) n else s.readLocal key off n
    let put := fun (t : State) (v : Nat) =>
      if ph.target = 2 then t.storeHost ph.off (leBytes 4 v) (some core) 0
      else (t.storeLocal key ph.off (leBytes 4 v) hist true floor (some core)).2
    let seen := (s.slice (if ph.target = 2 then core / 4 else s.home ph.off)).last
    let c := leNat (rd ph.off 4)
    if c = 0 then .done 0x80000006#32 0 seen s
    else
      let gate := if ph.target = 2 then s.hostGate core floor ph.off [] else (some (s.stampFor (s.home ph.off) floor), s)
      match gate with
      | (none, t) => .wait t
      | (some st, s) =>
        if 1 < c then .done (BitVec.ofNat 32 (c - 1)) 0 st (put s (c - 1))
        else match s.push ctx core kern floor false (bytesWords (rd (ph.off - 32) 32)) with
          | .wait t => .wait (s.roomFor t)
          | .done 0 t =>
            if !t.writeReady ph hist migr then .wait (s.roomFor (t.noteStall ph hist))
            else .done 0#32 0 (if ph.target = 2 then st else t.stampFor (t.home ph.off) floor) (put t 0)
          | .done n t => .done (BitVec.ofNat 32 (2 ^ 31 + n)) n seen t

/-! ### A join record at a peer (R129, R366, log entry 69) -/

/-- The exchange that a jdec sends: cas of a 32-bit word, acquire and release at device scope. -/
def jdecCas : AtomSpec := { op := .cas, ty := .z32, use := .un, ord := .acqrel, scope := .dev, noret := false }

/-- What a jdec at a peer comes to: it goes on later, or it has its result. -/
inductive JdecR where
  | going (j : Jdec) (s : State)
  | wait (t : State)
  | done (kd : Word) (status stamp : Nat) (bad : Bool) (s : State)

/-- A jdec at a peer's join record: the counter is read; a counter above 1 is exchanged for one less; at 1 the continuation is read and,
where its push can be made, the counter is exchanged for 0 and the continuation pushed, so that of several decrements one alone pushes; a
push that fails after all exchanges the counter back for 1 (R129, log entry 69). -/
def State.jdecPeer (s : State) (j : Jdec) (uid ctx core kern floor : Nat) (ph : Phys) (hist migr : Bool) : JdecR :=
  let ask := fun (off n phase : Nat) =>
    JdecR.going { j with phase := phase } (s.sendReq 0 { ph with off := off } uid ctx 0 (enables off n) hist false false floor []).2
  let cas := fun (j : Jdec) (t : State) (old v : Nat) =>
    let r := t.sendReq 2 ph uid ctx 0 (leBytes 4 jdecCas.word.toNat) hist true false (max j.seen floor) (leBytes 4 old ++ leBytes 4 v)
    JdecR.going { j with phase := 3, path := r.1 } r.2
  let push := fun (_ : Unit) => s.push ctx core (some kern) (max j.seen floor) false (bytesWords j.rcd)
  let c := leNat j.cnt
  if j.phase ≠ 0 then .going j s
  else if j.bad then .done poisonWord 0 0 true s
  else if !s.liveMember ph.peer then .done poisonWord 0 0 true (s.setCir kern 3)
  else match j.ended with
    | some st =>
      if j.undo ≠ 0 then .done (BitVec.ofNat 32 (2 ^ 31 + j.undo)) j.undo st false s
      else if 1 < c then .done (BitVec.ofNat 32 (c - 1)) 0 st false s
      else match push () with
        | .wait t => .wait t
        | .done 0 t => .done 0#32 0 st false t
        | .done n t => cas { j with undo := n } t 0 1
    | none =>
      if migr then .wait s
      else if j.cnt.isEmpty then ask ph.off 4 1
      else if c = 0 then .done 0x80000006#32 0 j.seen false s
      else if 1 < c then cas j s c (c - 1)
      else if j.rcd.isEmpty then ask (ph.off - 32) 32 2
      else match push () with
        | .wait t => .wait t
        | .done 0 _ => cas j s 1 0
        | .done n t => .done (BitVec.ofNat 32 (2 ^ 31 + n)) n j.seen false t

/-- A jdec at a peer has an answer: an exchange that found another counter begins again with that one, and reads the continuation
again. -/
def Jdec.answer (j : Jdec) (data : List Byte) (bad : Bool) (stamp : Nat) : Jdec :=
  let k := { j with phase := 0, bad := bad, seen := stamp }
  match j.phase with
  | 1 => { k with cnt := data }
  | 2 => { k with rcd := data }
  | 3 => if data == j.cnt || j.undo ≠ 0 then { k with ended := some stamp } else { k with cnt := data, rcd := [] }
  | _ => j

/-- jdec: an acquire-release atomic on the join record's counter (R127, R129); it ends an interval's flag (R189). A join
record VA that is no multiple of 64 is misaligned (log entry 17). -/
def execJdec (d a : KReg) (st : Stall) (s : State) : Res :=
  deliverWith .none true { ksrc := [(a, 2)] } st (fun s i _ => alignCause (uniVa s i a) 64 i.c) isReady
    (fun s i =>
      let G := s.grp i.c.blk i.c.grp
      if (i.real s).isEmpty then { s := s, writes := kWrite G d 0#32 } else
      let s := s.loseInterval i.c.blk
      issueLoads s i [{ sysPend s i .jdec .dev [] [kKey G d] with
        lanes := i.real s, addr := uniVa s i a + 32, size := 4, acq := some .dev }]) s

/-- jdec performs (R129). -/
def State.jdecPerform (s : State) (p : Pend) : State :=
  match p.phys with
  | none => s
  | some ph =>
    let core := ((s.blk p.blk).core).getD p.core
    if ph.target = 0 && s.poisonedAt ph.off then s.returned p [] true 0
    else if ph.target = 1 then
      (match s.jdecPeer p.jd p.uid p.ctx core (s.blk p.blk).kernel (s.grp p.blk p.grp).floor ph p.hist p.migr with
        | .going j t =>
          -- the exchange is a write packet of the group (R335)
          let t := if j.phase = 3 ∧ p.jd.phase ≠ 3 then t.addDest p.blk p.grp ph.peer j.path else t
          t.setOp { p with jd := j, sent := j.phase != 0 }
        | .wait t => s.stalled t
        | .done kd _ st bad t => t.returned p [kd] bad st)
    else match s.decrement p.ctx core (some (s.blk p.blk).kernel) (s.grp p.blk p.grp).floor ph p.hist p.migr with
      | .wait t => s.stalled t
      | .done kd _ st t => t.returned p [kd] false st

/-! ## qinit and qstat (R132, R133) -/

/-- qinit's operands are in range (R132). -/
def qinitOk (va : Nat) (w2 w3 : Word) : Bool :=
  let w := w2.toNat
  let op := field w 13 3
  decide (op < 5) && field w 16 16 == 0 && w3 == 0#32 &&
    (if op = 0 then va % 4096 == 0 && decide (4 ≤ field w 4 5 ∧ field w 4 5 ≤ 20)
     else va == 0 && field w 4 9 == 0)

/-- qinit's effect: the status and the queue after (R117, R132). -/
def qinitOn (va : Nat) (w2 : Word) (q : HwQueue) : Nat × HwQueue :=
  let w := w2.toNat
  match field w 13 3, q.st with
  | 0, .idle => (0, { q with st := .armed, ring := va, n := field w 4 5, prio := field w 9 3, host := field w 12 1 == 1
                             head := 0#32, tail := 0#32, popped := 0 })
  | 1, .armed => (0, { q with st := .stopped })
  | 2, .stopped => (0, { q with st := .armed })
  | 3, .armed => (0, ({ q with st := .draining }).settle)
  | 4, .stopped => if q.resume.isEmpty then (0, { q with st := .idle }) else (4, q)
  | _, _ => (2, q)

/-- qinit for a context (R132). -/
def State.qinit (s : State) (ctx va : Nat) (w2 w3 : Word) : Nat × State :=
  if !qinitOk va w2 w3 then (3, s)
  else match s.queueOf ctx (field w2.toNat 0 4) with
    | none => (2, s)
    | some h =>
      let r := qinitOn va w2 (s.queue h)
      let s := s.setQueue h r.2
      (r.1, if r.1 = 0 && field w2.toNat 13 3 = 4 then s.discardRing h else s)

/-- qinit (R132); it ends an interval's flag (R189). -/
def execQinit (d a : KReg) (st : Stall) (s : State) : Res :=
  issueWith { ksrc := [(a, 4)] } st noCause isReady
    (fun s i =>
      let r := (s.loseInterval i.c.blk).qinit (s.blk i.c.blk).ctx (uniVa s i a)
        (kval i.now (s.grp i.c.blk i.c.grp) i.iid a 2) (kval i.now (s.grp i.c.blk i.c.grp) i.iid a 3)
      { s := r.2, lat := .var, writes := kWrite (s.grp i.c.blk i.c.grp) d (BitVec.ofNat 32 r.1) }) s

/-- A queue's state code (R133). -/
def QState.code : QState → Nat
  | .idle => 0 | .armed => 1 | .draining => 2 | .stopped => 3

/-- The two words of qstat (R133). -/
def State.qstat (s : State) (ctx : Nat) (a : Word) : DWord :=
  match if a.toNat < 16 then s.queueOf ctx a.toNat else none with
  | none => 0x80000000#64
  | some h =>
    let q := s.queue h
    let lo := q.st.code + 4 * q.prio + 32 * q.n + (if q.host then 1024 else 0)
      + (if (s.ctx ctx).state == .stopped then 2 ^ 31 else 0)
    BitVec.ofNat 64 (lo + 2 ^ 32 * (q.occ + q.resume.length))

/-- qstat (R133). -/
def execQstat (d a : KReg) (st : Stall) (s : State) : Res :=
  issueWith { ksrc := [(a, 1)] } st noCause isReady
    (fun s i =>
      let G := s.grp i.c.blk i.c.grp
      { s := s, lat := .var, writes := kWrite2 G d (s.qstat (s.blk i.c.blk).ctx (kval i.now G i.iid a)) }) s

end Sys2Proof.Machine
end

