-- ==== Sys2Proof/Machine/Activity.lean ====
section
/-! DEFINITION. Long activities and the vesper stack: act.*, compensation, commit and abandonment (R342-R360). -/

namespace Sys2Proof.Machine

/-! ## Records and handles (R342, R343) -/

/-- The home device of a handle (R343). -/
def homeOf (handle : Nat) : Nat := field handle 24 7

/-- Is the state terminal (R344)? -/
def ActState.isOver : ActState → Bool
  | .committed | .abandoned => true
  | _ => false

/-- An activity's record, by context and handle. -/
def State.act? (s : State) (ctx handle : Nat) : Option Activity := s.acts.find? fun a => a.ctx == ctx && a.handle == handle

/-- Replace an activity's record. -/
def State.setAct (s : State) (a : Activity) : State :=
  { s with acts := s.acts.map fun b => if b.ctx == a.ctx && b.handle == a.handle then a else b }

/-- This device decides an activity: as its home, or as the member that took the record over (R342). -/
def State.decides (s : State) (ctx handle : Nat) : Bool :=
  match s.act? ctx handle with
  | some a => a.holder == s.device
  | none => homeOf handle == s.device

/-- The other live devices of the domain. -/
def State.others (s : State) : List Nat := (s.members.filter fun m => m.2.member && m.2.live && m.1 != s.device).map (·.1)

/-- The members of an activity as its home knows them: other devices may have become members while it is open, which of them is a free
choice, since the manual gives no message for it (R342, log entry 18). -/
def State.joined (s : State) (a : Activity) : List Nat :=
  if a.st != .opened then a.members
  else a.members ++ s.others.filter fun d => !a.members.contains d && Config.freeBool (pairNat (pairNat s.fresh 41) (128 * a.handle + d))

/-- The entries of an activity in this device's segment. -/
def State.entriesOf (s : State) (ctx handle : Nat) : List Entry := s.vesper.filter fun (e : Entry) => e.ctx == ctx && e.handle == handle

/-- Replace an entry. -/
def State.setEntry (s : State) (e : Entry) : State := { s with vesper := s.vesper.map fun (x : Entry) => if x.uid == e.uid then e else x }

/-- An activity's pin is released (R344). -/
def State.actUnpin (s : State) (a : Activity) : State :=
  match a.pin with
  | some h => let c := s.ctx a.ctx
              (s.setCtx a.ctx { c with pins := mset {} c.pins h {} }).pinGone (mget {} c.pins h : Pin).stamp
  | none => s

/-- Members other than this device have finished, as far as this device can tell: a free choice (log entry 18). -/
def State.othersDone (s : State) (a : Activity) : Bool :=
  (a.members.all fun m => m == s.device) || Config.freeBool (pairNat (pairNat s.fresh 7) a.handle)

/-- ACT_END (R344, R380). -/
def State.actEnd (s : State) (a : Activity) : State :=
  s.emit 5 a.ctx (leBytes 4 a.handle ++ [4#8] ++ List.replicate 3 0#8 ++ leBytes 8 a.stamp)

/-- abandoning to abandoned, when every entry is compensated or skipped (R344, R345). -/
def State.actTry (s : State) (ctx handle : Nat) : State :=
  match s.act? ctx handle with
  | none => s
  | some a =>
    if a.st == .abandoning && (s.entriesOf ctx handle).all (fun e => decide (2 ≤ e.cond)) && s.othersDone a then
      let s := s.setAct { a with st := .abandoned, endedAt := s.tick, pin := none }
      let s := (s.actUnpin a).actEnd a
      { s with fresh := s.fresh + 1, vesper := s.vesper.filter fun (e : Entry) => !(e.ctx == ctx && e.handle == handle) }
    else s

/-- committing to committed, when no member is left to discard (R344). -/
def State.commitTry (s : State) (ctx handle : Nat) : State :=
  match s.act? ctx handle with
  | none => s
  | some a =>
    if a.st == .committing && a.discard.isEmpty then
      (s.setAct { a with st := .committed, endedAt := s.tick, pin := none }).actUnpin a
    else s

/-- An open activity is abandoned (R344). -/
def State.abandon (s : State) (a : Activity) : State :=
  if a.st == .opened then (s.setAct { a with st := .abandoning, members := s.joined a }).actTry a.ctx a.handle else s

/-- An activity becomes stuck (R344, R351). -/
def State.stick (s : State) (a : Activity) (reason device stamp : Nat) : State :=
  s.setAct { a with st := .stuck, reason := reason, device := device, stuckStamp := stamp }

/-! ## The instructions (R346-R353) -/

/-- Activities of a context that are not terminal (R342). -/
def State.openActs (s : State) (ctx : Nat) : Nat := (s.acts.filter fun a => a.ctx == ctx && !a.st.isOver).length

/-- The oldest terminal record of a context gives up its slot, when no slot is free (R342). -/
def State.actSlot (s : State) (ctx : Nat) : State :=
  let mine := s.acts.filter fun a => a.ctx == ctx
  if mine.length < Config.activitiesMax then s
  else
    let done := mine.filter fun a => a.st.isOver
    match done with
    | [] => s
    | x :: r =>
      let old := r.foldl (fun m a => if a.endedAt < m.endedAt then a else m) x
      { s with acts := s.acts.filter fun a => !(a.ctx == ctx && a.handle == old.handle) }

/-- The next serial of a context: 0 is skipped (R343). -/
def nextSerial (n : Nat) : Nat := if (n + 1) % 2 ^ 24 = 0 then 1 else (n + 1) % 2 ^ 24

/-- act.begin's effect (R348): the four words and the state after. -/
def State.actBegin (s : State) (u g core : Nat) (attr : Word) : List Word × State :=
  let ctx := (s.blk u).ctx
  let S := max (s.sliceT (sliceOfCore core)) (s.grp u g).floor
  let s := s.raiseFloor u g S
  let fail := fun (n : Word) => ([n, 0#32, 0#32, 0#32], s)
  let pin := attr.getLsbD 0
  if 1 < attr.toNat then fail 0x80000003#32
  else if Config.activitiesMax ≤ s.openActs ctx then fail 0x80000001#32
  else
    let c := s.ctx ctx
    let slot := if pin then c.freePin else none
    if pin && slot.isNone then fail 0x80000001#32
    else
      let serial := nextSerial c.serial
      let handle := serial + 2 ^ 24 * s.device
      let s := s.actSlot ctx
      let c' := { c with serial := serial, pins := match slot with
        | some h => mset {} c.pins h { used := true, stamp := S, activity := true, kernel := (s.blk u).kernel }
        | none => c.pins }
      let s := s.setCtx ctx c'
      let s := if pin then s.tellAll 4 (leBytes 8 S) else s
      ([BitVec.ofNat 32 handle, 0#32, BitVec.ofNat 32 S, BitVec.ofNat 32 (S / 2 ^ 32)],
        { s with acts := s.acts ++ [{ handle := handle, ctx := ctx, stamp := S, pin := slot, holder := s.device }] })

/-- Four uniform registers. -/
def kWrite4 (G : Group) (d : KReg) (ws : List Word) : List (RegKey × Word) :=
  ws.zipIdx.map fun w => (kKey G d w.2, w.1)

/-- act.begin (R346, R348); it ends an interval's flag (R189). -/
def execActBegin (d a : KReg) (st : Stall) (s : State) : Res :=
  issueWith { ksrc := [(a, 1)] } st noCause isReady
    (fun s i =>
      let r := (s.loseInterval i.c.blk).actBegin i.c.blk i.c.grp i.c.core (kval i.now (s.grp i.c.blk i.c.grp) i.iid a)
      { s := r.2, lat := .var, writes := kWrite4 (r.2.grp i.c.blk i.c.grp) d r.1 }) s

/-- Entries that a context holds or has reserved in this device's segment (R345, R349). -/
def State.entriesHeld (s : State) (ctx : Nat) : Nat :=
  (s.vesper.filter fun (e : Entry) => e.ctx == ctx).length
    + (s.pend.filter fun p => p.ctx == ctx && !p.done && p.kind == .sys .actComp).length

/-- act.comp (R346, R349): ACT_STACK_FULL where no slot is free; then a domain release and the push. -/
def execActComp (d a : KReg) (st : Stall) (s : State) : Res :=
  deliverWith .none true { ksrc := [(a, 8)] } st
    (fun s i _ =>
      let ctx := (s.blk i.c.blk).ctx
      if (s.ctx ctx).vesper ≤ s.entriesHeld ctx then some (mkCause i.c 16) else none) isReady
    (fun s i => issueLoads (s.loseInterval i.c.blk) i
      [sysPend s i .actComp .dom (kvals s i a 8) [kKey (s.grp i.c.blk i.c.grp) d]]) s

/-- The status of an event that another home decides: done, wrong state, or unknown handle, a free choice (R347, log entry 18). -/
def farStatus (n : Nat) : Nat :=
  match Config.freeNat (pairNat n 8) % 3 with
  | 0 => 0 | 1 => 0x80000002 | _ => 0x80000003

/-- The home's answer to act.comp (R344, R347, R349). -/
def State.compAnswer (s : State) (ctx : Nat) (args : List Word) : Nat :=
  let w := fun j => (args.getD j 0#32).toNat
  let handle := w 0
  let code := w 2 + 2 ^ 32 * w 3
  if w 1 ≠ 0 ∨ code = 0 ∨ code % 4 ≠ 0 ∨ 2 ^ 31 ≤ handle then 0x80000003
  else if s.decides ctx handle then
    match s.act? ctx handle with
    | none => 0x80000003
    | some a => if a.st == .opened then 0 else 0x80000002
  else farStatus s.fresh

/-- This device becomes a member of an activity with another home: it mirrors the record, whose begin stamp and other members are free
(R342, log entry 18). -/
def State.mirror (s : State) (ctx handle : Nat) : State :=
  match s.act? ctx handle with
  | some _ => s
  | none =>
    let ms := s.others.filter fun d => Config.freeBool (pairNat (pairNat s.fresh 42) d)
    { s with acts := s.acts ++ [{ handle := handle, ctx := ctx, stamp := Config.freeNat (pairNat s.fresh 8), members := s.device :: ms
                                  holder := homeOf handle }] }

/-- act.comp takes effect (R349). -/
def State.compPerform (s : State) (p : Pend) : State :=
  let w := fun j => (p.args.getD j 0#32).toNat
  let st := s.compAnswer p.ctx p.args
  let s := { s with fresh := s.fresh + 1 }
  if st ≠ 0 then s.sysEnd p [BitVec.ofNat 32 st]
  else
    let handle := w 0
    let s := s.mirror p.ctx handle
    let a := (s.act? p.ctx handle).getD {}
    let s := s.setAct { a with members := if a.members.contains s.device then a.members else s.device :: a.members }
    let t := s.takeStamp (sliceOfCore (((s.blk p.blk).core).getD p.core)) (s.grp p.blk p.grp).floor
    let s := t.2.raiseFloor p.blk p.grp t.1
    let e : Entry :=
      { uid := s.fresh, stamp := t.1, code := w 2 + 2 ^ 32 * w 3, arg := BitVec.ofNat 64 (w 4 + 2 ^ 32 * w 5)
        key := BitVec.ofNat 64 (w 6 + 2 ^ 32 * w 7), handle := handle, ctx := p.ctx
        start := a.stamp }
    ({ s with fresh := s.fresh + 1, vesper := s.vesper ++ [e] }).sysEnd p [0#32]

/-- act.commit (R346, R350). -/
def execActCommit (d a : KReg) (st : Stall) (s : State) : Res :=
  deliverWith .none true { ksrc := [(a, 1)] } st noCause isReady
    (fun s i => issueLoads (s.loseInterval i.c.blk) i
      [sysPend s i .actCommit .dom (kvals s i a 1) [kKey (s.grp i.c.blk i.c.grp) d]]) s

/-- act.abandon (R346, R350). -/
def execActAbandon (d a : KReg) (st : Stall) (s : State) : Res :=
  deliverWith .none true { ksrc := [(a, 1)] } st noCause isReady
    (fun s i => issueLoads (s.loseInterval i.c.blk) i
      [sysPend s i .actAbandon .dom (kvals s i a 1) [kKey (s.grp i.c.blk i.c.grp) d]]) s

/-- act.commit and act.abandon reach the home (R344, R347, R350). -/
def State.decidePerform (s : State) (p : Pend) (commit : Bool) : State :=
  let handle := (p.args.getD 0 0#32).toNat
  if 2 ^ 31 ≤ handle then s.sysEnd p [0x80000003#32]
  else if !s.decides p.ctx handle then
    ({ s with fresh := s.fresh + 1 }).sysEnd p [BitVec.ofNat 32 (farStatus s.fresh)]
  else match s.act? p.ctx handle with
    | none => s.sysEnd p [0x80000003#32]
    | some a =>
      if a.st != .opened then s.sysEnd p [0x80000002#32]
      else if commit then
        ((s.setAct { a with st := .committing, members := s.joined a, discard := s.joined a }).commitTry p.ctx handle).sysEnd p [0#32]
      else (s.abandon a).sysEnd p [0#32]

/-- The state code of act.stat (R351). -/
def ActState.code : ActState → Nat
  | .opened => 0 | .committing => 1 | .committed => 2 | .abandoning => 3 | .abandoned => 4 | .stuck => 5

/-- What another home says of an activity: one of the states of R351, with fields that it admits; which, is free (log entry 18). -/
def farStat (n : Nat) : List Word :=
  let free := fun k => Config.freeNat (pairNat (pairNat n 8) k)
  match free 0 % 7 with
  | 6 => [7#32, 0#32, 0#32, 0#32]
  | st =>
    let stuck := if st = 5 then 16 * (1 + free 1 % 3) + 256 * (free 2 % 128) else 0
    [BitVec.ofNat 32 (st + stuck), if st = 2 ∨ st = 4 then 0#32 else BitVec.ofNat 32 (free 3), BitVec.ofNat 32 (free 4), BitVec.ofNat 32 (free 5)]

/-- The four words of act.stat (R351); another home's, and how many entries other members hold, are free (log entry 18). -/
def State.actStat (s : State) (ctx : Nat) (h : Word) : List Word :=
  let handle := h.toNat
  let free := fun n => Config.freeWord (pairNat (pairNat s.fresh 8) n)
  if handle < 2 ^ 31 ∧ s.decides ctx handle = false then farStat s.fresh
  else match s.act? ctx handle with
    | none => [7#32, 0#32, 0#32, 0#32]
    | some a =>
      let stuck := a.st == .stuck
      let n := ((s.entriesOf ctx handle).filter fun e => decide (e.cond < 2)).length
      let stamp := if stuck && a.reason != 3 then a.stuckStamp else a.stamp
      [BitVec.ofNat 32 (a.st.code + (if stuck then 16 * a.reason + 256 * a.device else 0)),
        BitVec.ofNat 32 (min (n + (if a.st.isOver || (s.joined a).all fun m => m == s.device then 0 else (free 1).toNat)) 0xFFFFFFFF),
        BitVec.ofNat 32 stamp, BitVec.ofNat 32 (stamp / 2 ^ 32)]

/-- act.stat (R346, R351). -/
def execActStat (d a : KReg) (st : Stall) (s : State) : Res :=
  issueWith { ksrc := [(a, 1)] } st noCause isReady
    (fun s i =>
      let G := s.grp i.c.blk i.c.grp
      let ws := s.actStat (s.blk i.c.blk).ctx (kval i.now G i.iid a)
      { s := s.loseInterval i.c.blk, lat := .var, writes := kWrite4 G d ws }) s

/-- This device's stuck entry is pending again, its ACTTMO wait afresh, or skipped; the activity runs on (R353). -/
def State.resumeHere (s : State) (a : Activity) (skip : Bool) : State :=
  { s with vesper := s.vesper.map fun (e : Entry) =>
      if a.reason != 3 && a.device == s.device && e.ctx == a.ctx && e.handle == a.handle && e.stamp == a.stuckStamp then
        { e with cond := if skip then 3 else 0, waited := 0 } else e }.setAct { a with st := .abandoning, reason := 0 }

/-- act.resume's effect (R353); one that another home lets take effect reaches this device's stuck entry. -/
def State.actResume (s : State) (ctx : Nat) (h action : Word) : Word × State :=
  let handle := h.toNat
  if 1 < action.toNat ∨ 2 ^ 31 ≤ handle then (0x80000003#32, s)
  else if !s.decides ctx handle then
    let n := farStatus s.fresh
    let t := { s with fresh := s.fresh + 1 }
    (BitVec.ofNat 32 n, match s.act? ctx handle with
      | some a => if n = 0 ∧ a.st = .stuck then t.resumeHere a (action == 1#32) else t
      | none => t)
  else match s.act? ctx handle with
    | none => (0x80000003#32, s)
    | some a =>
      if a.st != .stuck then (0x80000002#32, s)
      else
        let skip := action = 1#32
        if a.reason = 3 then
          if skip then
            (0#32, (s.setAct { a with st := .abandoning, reason := 0
                                      members := a.members.filter fun m => m != a.device }).actTry ctx handle)
          else (0x80000002#32, s)
        else
          (0#32, (s.resumeHere a skip).actTry ctx handle)

/-- act.resume (R346, R353). -/
def execActResume (d a : KReg) (st : Stall) (s : State) : Res :=
  issueWith { ksrc := [(a, 2)] } st noCause isReady
    (fun s i =>
      let G := s.grp i.c.blk i.c.grp
      let r := (s.loseInterval i.c.blk).actResume (s.blk i.c.blk).ctx (kval i.now G i.iid a) (kval i.now G i.iid a 1)
      { s := r.2, lat := .var, writes := kWrite (r.2.grp i.c.blk i.c.grp) d r.1 }) s

/-! ## Routines (R352, R357, R358) -/

/-- An abandoning activity becomes stuck at an entry of this device (R344): at its home, or as this device mirrors it. -/
def State.stickHere (s : State) (e : Entry) (reason : Nat) : State :=
  match s.act? e.ctx e.handle with
  | some a => if a.st == ActState.abandoning || (a.holder != s.device && a.st != ActState.stuck) then s.stick a reason s.device e.stamp else s
  | none => s

/-- A routine has failed: reason 1, with ACT_COMP_FAILED (R358, R380). Its entry runs no longer and is pending; while the activity is
stuck it does not start (log entry 76). -/
def State.routineFail (s : State) (e : Entry) (operand : Word) : State :=
  let s := (s.setEntry { e with cond := 0 }).stickHere e 1
  s.emit 4 e.ctx (leBytes 4 e.handle ++ leBytes 4 operand.toNat ++ leBytes 8 e.stamp)

/-- A routine's block is gone without act.done: it has failed (R358). -/
def State.routineGone (s : State) (u : Nat) : State :=
  let b := s.blk u
  match b.routine with
  | none => s
  | some uid =>
    let s := s.setBlk u { b with routine := none }
    match s.vesper.find? fun (e : Entry) => e.uid == uid && e.cond == 1 with
    | none => s
    | some e => s.routineFail e 0xFFFFFFFF#32

/-- act.done takes effect (R352): the entry's condition, and the end of the group. -/
def State.donePerform (s : State) (p : Pend) : State :=
  let b := s.blk p.blk
  let operand := p.args.getD 0 0#32
  let s := s.delOp p.uid
  if !(b.grp p.grp).live then s
  else
    let s := match b.routine with
      | none => s
      | some uid =>
        let s := s.setBlk p.blk { s.blk p.blk with routine := none }
        match s.vesper.find? fun (e : Entry) => e.uid == uid with
        | none => s
        | some e =>
          if operand = 0#32 then (s.setEntry { e with cond := 2 }).actTry e.ctx e.handle
          else s.routineFail e operand
    s.endGroup p.blk p.grp false

/-- act.done (R346, R352): ILLEGAL outside a compensation routine; a delivery point as exit is; the group waits for it. -/
def execActDone (a : KReg) (st : Stall) (s : State) : Res :=
  orIllegal (fun s c => (s.blk c.blk).routine.isNone) st (deliverWith .full true { ksrc := [(a, 1)] } st noCause isReady
    (fun s i =>
      let s := s.loseInterval i.c.blk
      let r := issueLoads s i [sysPend s i .actDone .dom (kvals s i a 1) []]
      let G := r.s.grp i.c.blk i.c.grp
      { r with s := r.s.setGrp i.c.blk i.c.grp { G with feWait := some i.iid } })) s

/-! ## Running backwards (R354-R356) -/

/-- The state this device knows an activity in: another home's is a free choice between abandoning and what it was last known to be; one
that is stuck at an entry of this device stays so until it hears of a resume (log entry 18). -/
def State.actStateOf (s : State) (ctx handle : Nat) : Option ActState :=
  if s.decides ctx handle then (s.act? ctx handle).map Activity.st
  else if (s.act? ctx handle).any (fun a => a.st == ActState.stuck) then some ActState.stuck
  else if Config.freeBool (pairNat (pairNat s.fresh 10) handle) then some ActState.abandoning
  else some (((s.act? ctx handle).map Activity.st).getD ActState.opened)

/-- R354 lets an entry start: its activity is abandoning, no entry of it runs, and it is the newest that is pending. -/
def State.mayStart (s : State) (e : Entry) : Bool :=
  e.cond == 0 && s.actStateOf e.ctx e.handle == some ActState.abandoning &&
    (s.entriesOf e.ctx e.handle).all fun (x : Entry) => x.uid == e.uid || decide (2 ≤ x.cond) || (x.cond == 0 && decide (x.stamp < e.stamp))

/-- The entries that R355 makes an entry wait for. -/
def State.keyWaits (s : State) (e : Entry) : List Entry :=
  if e.key = 0#64 then []
  else s.vesper.filter fun (x : Entry) => x.ctx == e.ctx && x.key == e.key && x.uid != e.uid && decide (e.stamp < x.stamp) && decide (x.cond < 2)

/-- An entry of another device, be it lost, that R355 makes an entry wait for: which there are is a free choice (R359, log entry 18). -/
def State.keyElsewhere (s : State) (e : Entry) : Bool :=
  e.key != 0#64 && (s.members.any fun m => m.2.member && m.1 != s.device) && Config.freeBool (pairNat (pairNat s.fresh 44) e.uid)

/-- COMPENSATION_START (R354, R355): the entry's continuation is pushed into the context's compensation queue. -/
def State.compensationStart (s : State) (uid : Nat) : State :=
  match s.vesper.find? fun (e : Entry) => e.uid == uid with
  | none => s
  | some e =>
    if s.mayStart e && (s.keyWaits e).isEmpty && !s.keyElsewhere e then
      let s := { s with fresh := s.fresh + 1 }.setEntry { e with cond := 1 }
      let h := 256 + e.ctx
      let q := s.queue h
      let r : Rec := { code := e.code, frame := e.arg, lanes := 32, A := 128, prio := 7, entry := some uid }
      s.setQueue h { q with recs := q.recs ++ [r] }
    else s

/-- An entry waits on one of an activity that is open, committing or stuck (R356); whether one of another device is such is free. -/
def State.keyBlocked (s : State) (e : Entry) : Bool :=
  ((s.keyWaits e).any fun (x : Entry) => x.cond != 1 &&
    (match s.actStateOf x.ctx x.handle with
      | some .opened | some .committing | some .stuck => true
      | _ => false))
  || (s.keyElsewhere e && Config.freeBool (pairNat (pairNat s.fresh 45) e.uid))

/-- What goes wrong at another member in an abandonment: the reason, the member, and the stamp of its entry, a free choice (R344, log entry
18). -/
def State.farFailure (s : State) (a : Activity) : Option (Nat × Nat × Nat) :=
  let free := fun k => Config.freeNat (pairNat (pairNat (pairNat s.fresh 66) a.handle) k)
  let ms := a.members.filter (· != s.device)
  if ms.isEmpty || free 0 % 2 == 0 then none else some (1 + free 1 % 2, ms.getD (free 2 % ms.length) 0, free 3)

/-- An abandonment at another member goes wrong, and the activity is stuck, or it ends, once no entry is left anywhere: at the home the
activity is abandoned; a member whose entries have all been compensated or skipped lets them and the mirrored record go when the home tells
it so, and one whose entry is stuck hears of a resume, which is free (R344, R345, R353, log entry 18). -/
def State.actSettle (s : State) (a : Activity) : State :=
  if a.holder == s.device then
    match (if a.st == .abandoning then s.farFailure a else none) with
    | some (reason, dev, stamp) => s.stick a reason dev stamp
    | none => s.actTry a.ctx a.handle
  else if a.st == .stuck then
    (if Config.freeBool (pairNat (pairNat s.fresh 67) a.handle) then s.resumeHere a (Config.freeBool (pairNat (pairNat s.fresh 68) a.handle)) else s)
  else if (s.entriesOf a.ctx a.handle).all (fun e => decide (2 ≤ e.cond)) && Config.freeBool (pairNat (pairNat s.fresh 46) a.handle) then
    { s with acts := s.acts.filter fun b => !(b.ctx == a.ctx && b.handle == a.handle)
             vesper := s.vesper.filter fun (e : Entry) => !(e.ctx == a.ctx && e.handle == a.handle) }
  else s

/-- One tick of the waits that ACTTMO times (R356), and what other devices have finished meanwhile. -/
def State.actTick (s : State) : State :=
  let s := { s with vesper := s.vesper.map fun (e : Entry) => if s.mayStart e && s.keyBlocked e then { e with waited := e.waited + 1 } else e }
  if s.acts.isEmpty then s else s.acts.foldl State.actSettle { s with fresh := s.fresh + 1 }

/-- ACT_TIMEOUT (R102, R356): the activity becomes stuck with reason 2, with ACT_BLOCKED. -/
def State.actTimeout (s : State) (uid : Nat) : State :=
  match s.vesper.find? fun (e : Entry) => e.uid == uid with
  | none => s
  | some e =>
    let limit := (s.ctx e.ctx).acttmo.toNat
    if limit ≠ 0 ∧ limit < e.waited ∧ e.cond = 0 then
      if (s.act? e.ctx e.handle).any fun a => a.st == ActState.abandoning || (a.holder != s.device && a.st != ActState.stuck) then
        (s.stickHere e 2).emit 3 e.ctx (leBytes 4 e.handle ++ List.replicate 4 0#8 ++ leBytes 8 e.stamp)
      else s
    else s

/-- COMMIT_DISCARD (R344): a member discards a committing activity's entries. -/
def State.commitDiscard (s : State) (ctx handle member : Nat) : State :=
  let drop := fun (t : State) => { t with vesper := t.vesper.filter fun (e : Entry) => !(e.ctx == ctx && e.handle == handle) }
  if !s.decides ctx handle then
    -- a mirrored record goes with the entries; one of which an entry runs, has run or is stuck is not committing
    let may := (s.entriesOf ctx handle).all (fun e => e.cond == 0) && (s.act? ctx handle).all fun a => a.st == ActState.opened
    if member = s.device ∧ may then { drop s with acts := s.acts.filter fun a => !(a.ctx == ctx && a.handle == handle) } else s
  else match s.act? ctx handle with
    | none => s
    | some a =>
      if a.st == .committing && a.discard.contains member then
        let s := s.setAct { a with discard := a.discard.filter (· != member) }
        (if member = s.device then drop s else s).commitTry ctx handle
      else s

/-- The state in which a mirrored record stands at its home: stuck where an entry here is; of one that is not known to be abandoning, open,
committing, abandoning or stuck, else abandoning or stuck, a free choice (log entry 18). -/
def State.lastState (s : State) (a : Activity) : ActState :=
  let n := Config.freeNat (pairNat (pairNat s.fresh 43) a.handle) % 4
  match a.st with
  | .opened => if n = 0 then .opened else if n = 1 then .committing else if n = 2 then .abandoning else .stuck
  | .abandoning => if n = 3 then .stuck else .abandoning
  | st => st

/-- When the home of a mirrored record is lost, the member with the lowest device index takes it over (R342): with its state and, where it
is stuck at another member, what that member reported (log entry 18). -/
def State.takeOver (s : State) (dev : Nat) (a : Activity) : Activity :=
  if a.holder ≠ dev then a
  else
    let left := (a.members.filter (· != dev)).sortUp
    let st := s.lastState a
    let free := fun k => Config.freeNat (pairNat (pairNat (pairNat s.fresh 69) a.handle) k)
    let b := if st == .stuck && a.st != .stuck then
        { a with reason := 1 + free 0 % 3, device := a.members.getD (free 1 % a.members.length) dev, stuckStamp := free 2 } else a
    { b with holder := left.headD s.device, st := st, discard := if st == .committing then left else a.discard }

/-- The loss of a member device (R342, R359). -/
def State.actsLose (s : State) (dev : Nat) : State :=
  s.acts.foldl (fun s a =>
    let a := s.takeOver dev { a with members := if a.holder == s.device then s.joined a else a.members }
    let s := s.setAct a
    if !a.members.contains dev || a.holder != s.device then s
    else match a.st with
      | .opened | .abandoning => s.stick a 3 dev 0
      | .committing => (s.setAct { a with discard := a.discard.filter (· != dev) }).commitTry a.ctx a.handle
      | _ => s) s

end Sys2Proof.Machine
end

