-- ==== Sys2Proof/Machine/Engine.lean ====
section
/-! DEFINITION. mbar objects, and the issue of copies and of matrix operations (R257-R304). -/

namespace Sys2Proof.Machine

/-! ## mbar objects (R283-R287) -/

/-- The address of an object as an instruction names it. -/
def mbarAddr (s : State) (i : Issue) (a : KReg) : Nat := (kval i.now (s.grp i.c.blk i.c.grp) i.iid a).toNat

/-- R287: a bad object address. -/
def mbarCause (s : State) (i : Issue) (a : KReg) : Option Cause :=
  let x := mbarAddr s i a
  if x % 16 = 0 ∧ x + 16 ≤ (s.blk i.c.blk).scratch * 1024 then none else some (mkCause i.c 5)

/-- The group's older accesses to the bytes of an object have performed (R225, R283). -/
def bmReady (s : State) (i : Issue) (a n : Nat) : Option Reason :=
  if s.pend.any fun p => p.blk == i.c.blk && p.grp == i.c.grp && p.bm && !p.done
      && decide (p.addr < a + n) && decide (a < p.addr + p.size) then some .other else none

/-- mbar.init (R285, R287). -/
def execMbarInit (d a : KReg) (st : Stall) (s : State) : Res :=
  issueWith { ksrc := [(a, 1), (d, 1)] } st
    (fun s i _ =>
      let n := (kval i.now (s.grp i.c.blk i.c.grp) i.iid d).toNat
      if n = 0 ∨ 65535 < n then some (mkCause i.c 5) else mbarCause s i a)
    (fun s i => bmReady s i (mbarAddr s i a) 16)
    (fun s i =>
      let n := (kval i.now (s.grp i.c.blk i.c.grp) i.iid d).toNat
      { s := s.mbarPut i.c.blk (mbarAddr s i a) ⟨0, n, n, 0, false⟩ false, lat := .var }) s

/-- mbar.expect (R285). -/
def execMbarExpect (d a : KReg) (st : Stall) (s : State) : Res :=
  issueWith { ksrc := [(a, 1), (d, 1)] } st (fun s i _ => mbarCause s i a)
    (fun s i => bmReady s i (mbarAddr s i a) 16)
    (fun s i => { s := s.mbarExpect i.c.blk (mbarAddr s i a) (kval i.now (s.grp i.c.blk i.c.grp) i.iid d).toNat, lat := .var }) s

/-- mbar.arrive (R285): a release at block scope, then the arrival; the generation returns. -/
def execMbarArrive (d a : KReg) (st : Stall) (s : State) : Res :=
  deliverWith .none true { ksrc := [(a, 1)] } st (fun s i _ => mbarCause s i a) isReady
    (fun s i => issueLoads s i [{ sysPend s i .arrive .blk [] [kKey (s.grp i.c.blk i.c.grp) d] with
      bm := true, addr := mbarAddr s i a, size := 16 }]) s

/-- mbar.arrive takes effect. -/
def State.arrivePerform (s : State) (p : Pend) : State :=
  let r := s.mbarArrive p.blk p.addr
  r.2.sysEnd p [BitVec.ofNat 32 r.1]

/-- mbar.wait (R285): the group waits while the generation is kd[15:0]; then an acquire at block scope. -/
def execMbarWait (d a : KReg) (st : Stall) (s : State) : Res :=
  issueWith { ksrc := [(a, 1), (d, 1)] } st (fun s i _ => mbarCause s i a)
    (fun s i => match bmReady s i (mbarAddr s i a) 16 with
      | some r => some r
      | none =>
        if ((s.blk i.c.blk).mbar (mbarAddr s i a)).gen = (kval i.now (s.grp i.c.blk i.c.grp) i.iid d).toNat % 65536
        then some .barrierWait else none)
    (fun s i => { s := s.acquireFloor i.c.blk i.c.grp .blk }) s

/-- mbar.test (R285). -/
def execMbarTest (d a : KReg) (st : Stall) (s : State) : Res :=
  issueWith { ksrc := [(a, 1)] } st (fun s i _ => mbarCause s i a)
    (fun s i => bmReady s i (mbarAddr s i a) 16)
    (fun s i =>
      let m := (s.blk i.c.blk).mbar (mbarAddr s i a)
      { s := s, lat := .var
        writes := kWrite (s.grp i.c.blk i.c.grp) d (BitVec.ofNat 32 (m.due * 65536 + m.gen)) }) s

/-! ## Copy entries (R288-R304) -/

/-- The group's older writes to block memory have performed (R290, R273). -/
def bmWritten (s : State) (i : Issue) : Bool :=
  s.pend.all fun p => p.blk != i.c.blk || p.grp != i.c.grp || !p.bm || p.done || !p.writes

/-- What an entry issued now must wait for before it starts: the joins of qfence for its queue (R303), and the group's
acquires (R330) and tlbinv (R319) in flight. Matrix queues are named 4 + block × 16 + group. -/
def State.entryAfter (s : State) (i : Issue) (queue : Nat) : List Nat :=
  ((s.core i.c.core).fences.filter fun f => f.1 == queue).flatMap (·.2)
    ++ (s.pend.filter fun p => p.blk == i.c.blk && p.grp == i.c.grp && !p.done &&
        (p.acq.isSome || p.kind == .sys .tlbinv || (match p.kind with
          | .fence _ => true
          | _ => false))).map (·.uid)

/-- Uids of copy entries, and of the channels that walk. -/
def uidsOf (ld st : List CopyEntry) (ch : List (Nat × Chan)) : List Nat :=
  ld.map (·.uid) ++ st.map (·.uid) ++ (ch.filter fun x => x.2.busy).map (·.2.uid)

/-- The uids of engine entries and operations that have not performed, those of evicted blocks among them. -/
def State.openUids (s : State) : List Nat :=
  s.cores.flatMap (fun c => uidsOf c.2.ldq c.2.stq c.2.chans)
    ++ s.blocks.flatMap (fun b => uidsOf b.2.keptLd b.2.keptSt b.2.keptCh ++ b.2.groups.flatMap fun g => g.2.matq.map (·.uid))
    ++ (s.pend.filter fun p => !p.done).map (·.uid)

/-- What an entry waits for has performed. -/
def State.afterDone (s : State) (after : List Nat) : Bool :=
  let live := s.openUids
  after.all fun u => !live.contains u

/-- An entry takes its token at issue (R281). -/
def State.takeToken (s : State) (i : Issue) (tok : Nat) : State :=
  s.setGrp i.c.blk i.c.grp ((s.grp i.c.blk i.c.grp).tokenAdd tok)

/-- A count as the instruction takes it: encoded, or from its register (R292). -/
def countVal (s : State) (i : Issue) : Count → Nat
  | .imm n => n.toNat * 32
  | .reg k => (kval i.now (s.grp i.c.blk i.c.grp) i.iid k).toNat

/-- Registers of a count. -/
def countSrc : Count → List (BitVec 7 × Nat)
  | .imm _ => []
  | .reg k => [(k, 1)]

/-- The mbar object of a literal: its address, or none. -/
def mbarOf (m : BitVec 16) : Option Nat := if m = 0xFFFF#16 then none else some (m.toNat * 16)

/-- An object lies within scratch. -/
def mbarFits (s : State) (i : Issue) (m : BitVec 16) : Bool :=
  match mbarOf m with
  | none => true
  | some a => decide (a + 16 ≤ (s.blk i.c.blk).scratch * 1024)

/-- The MISALIGNED checks of R296. -/
def copyCause (s : State) (i : Issue) (d a : KReg) (n : Count) (m : BitVec 16) : Option Cause :=
  let va := uniVa s i a
  let bm := (kval i.now (s.grp i.c.blk i.c.grp) i.iid d).toNat
  let bytes := countVal s i n
  if va % 32 = 0 ∧ bm % 32 = 0 ∧ bytes % 32 = 0 ∧ bytes ≤ 2 ^ 25 ∧ bm + bytes ≤ (s.blk i.c.blk).scratch * 1024
    ∧ mbarFits s i m = true then none else some (mkCause i.c 5)

/-- Entries of a core's copy queues in use in the present cycle: one freed in a cycle counts until it is over (R288, R417). -/
def State.ldUsed (s : State) (core : Nat) : Nat := max (s.core core).ldq.length (s.core core).inUse.ld
def State.stUsed (s : State) (core : Nat) : Nat := max (s.core core).stq.length (s.core core).inUse.st
/-- A chain channel is in use in the present cycle (R300, R417). -/
def State.chanUsed (s : State) (core ch : Nat) : Bool :=
  (mget {} (s.core core).chans ch : Chan).busy || (s.core core).inUse.chans.contains ch

/-- An entry is taken (R417). -/
def State.useEntry (s : State) (core : Nat) (f : InUse → InUse) : State :=
  let c := s.core core
  s.setCore core { c with inUse := f c.inUse }

/-- A copy queue has room (R288). -/
def queueRoom (s : State) (i : Issue) (load : Bool) : Option Reason :=
  if (if load then s.ldUsed i.c.core else s.stUsed i.c.core) < 16 then none else some .tokenWait

/-- An entry joins a copy queue (R281, R288). -/
def State.addCopy (s : State) (i : Issue) (load : Bool) (e : CopyEntry) : State :=
  let e := { e with uid := s.fresh, blk := i.c.blk, grp := i.c.grp, floor := (s.grp i.c.blk i.c.grp).floor
                    since := s.tick, after := s.entryAfter i (if load then 0 else 1) }
  let s := ({ s with fresh := s.fresh + 1 }).takeToken i e.tok
  let s := s.useEntry i.c.core fun n => if load then { n with ld := n.ld + 1 } else { n with st := n.st + 1 }
  let c := s.core i.c.core
  s.setCore i.c.core (if load then { c with ldq := c.ldq ++ [e] } else { c with stq := c.stq ++ [e] })

/-- cp.ld (R292, R293). -/
def execCpLd (d a : KReg) (n : Count) (tok : BitVec 3) (mbar : BitVec 16) (st : Stall) (s : State) : Res :=
  issueWith { ksrc := [(d, 1), (a, 2)] ++ countSrc n } st (fun s i _ => copyCause s i d a n mbar) (fun s i => queueRoom s i true)
    (fun s i =>
      let e : CopyEntry := {
        tok := tok.toNat, kind := .ld, va := uniVa s i a, bm := (kval i.now (s.grp i.c.blk i.c.grp) i.iid d).toNat
        bytes := countVal s i n, roles := [(s.blk i.c.blk).role], mbar := mbarOf mbar }
      { s := s.addCopy i true e }) s

/-- A store-queue entry waits for the group's older writes to block memory (R290). -/
def storeRoom (s : State) (i : Issue) : Option Reason := if bmWritten s i then queueRoom s i false else some .other

/-- cp.st (R292, R293). -/
def execCpSt (d a : KReg) (n : Count) (tok : BitVec 3) (rel : Option Scope) (st : Stall) (s : State) : Res :=
  issueWith { ksrc := [(d, 1), (a, 2)] ++ countSrc n } st (fun s i _ => copyCause s i d a n 0xFFFF#16) storeRoom
    (fun s i =>
      let e : CopyEntry := {
        tok := tok.toNat, kind := .st, va := uniVa s i a, bm := (kval i.now (s.grp i.c.blk i.c.grp) i.iid d).toNat
        bytes := countVal s i n, rel := rel }
      { s := s.addCopy i false e }) s

/-- cp.red (R292, R294); it ends an interval's flag (R189). -/
def execCpRed (ty : RedTy) (d a : KReg) (n : Count) (tok : BitVec 3) (rel : Option Scope) (st : Stall) (s : State) : Res :=
  issueWith { ksrc := [(d, 1), (a, 2)] ++ countSrc n } st (fun s i _ => copyCause s i d a n 0xFFFF#16) storeRoom
    (fun s i =>
      let e : CopyEntry := {
        tok := tok.toNat, kind := .red ty, va := uniVa s i a, bm := (kval i.now (s.grp i.c.blk i.c.grp) i.iid d).toNat
        bytes := countVal s i n, rel := rel }
      { s := (s.loseInterval i.c.blk).addCopy i false e }) s

/-- Rows of a cp.tile. -/
def rowsVal (s : State) (i : Issue) : RowCount → Nat
  | .imm n => n.toNat
  | .reg k => (kval i.now (s.grp i.c.blk i.c.grp) i.iid k).toNat
/-- Registers of a row count. -/
def rowsSrc : RowCount → List (BitVec 7 × Nat)
  | .imm _ => []
  | .reg k => [(k, 1)]

/-- The roles of a mask. -/
def rolesOf (mask : BitVec 16) : List Nat := (List.range 16).filter fun r => mask.getLsbD r

/-- A role that the team does not have (R272, R299). -/
def State.rolesIllegal (s : State) (c : Cur) (roles : List Nat) : Bool :=
  roles.any fun r => decide ((s.team (s.blk c.blk).team).size ≤ r)

/-- cp.tile (R297-R299); a mask that names another role ends an interval's flag (R189). -/
def execCpTile (d a stride : KReg) (rows : RowCount) (rowBytes roles : BitVec 16) (tok : BitVec 3) (mbar : BitVec 16)
    (st : Stall) (s : State) : Res :=
  orIllegal (fun s c => s.rolesIllegal c (rolesOf roles)) st
    (issueWith { ksrc := [(d, 1), (a, 2), (stride, 1)] ++ rowsSrc rows } st
      (fun s i _ =>
        let G := s.grp i.c.blk i.c.grp
        let bm := (kval i.now G i.iid d).toNat
        let n := rowsVal s i rows
        if uniVa s i a % 32 = 0 ∧ bm % 32 = 0 ∧ (kval i.now G i.iid stride).toNat % 32 = 0 ∧ n ≤ 65535
          ∧ bm + n * rowBytes.toNat ≤ (s.blk i.c.blk).scratch * 1024 ∧ mbarFits s i mbar = true
        then none else some (mkCause i.c 5))
      (fun s i => queueRoom s i true)
      (fun s i =>
        let G := s.grp i.c.blk i.c.grp
        let rs := rolesOf roles
        let s' := if rs.all fun r => r == (s.blk i.c.blk).role then s else s.loseInterval i.c.blk

      let e : CopyEntry := {
        tok := tok.toNat, kind := .tile, va := uniVa s i a, bm := (kval i.now G i.iid d).toNat
        bytes := rowBytes.toNat, stride := (kval i.now G i.iid stride).toNat, rows := rowsVal s i rows
        roles := rs, mbar := mbarOf mbar }
      { s := s'.addCopy i true e })) s

/-- cp.chain (R300): it waits for the group's older writes to block memory (R290); the channel starts at its first record, its error bit cleared. -/
def execCpChain (ch : BitVec 2) (a : KReg) (tok : BitVec 3) (st : Stall) (s : State) : Res :=
  issueWith { ksrc := [(a, 2)] } st (fun s i _ => alignCause (uniVa s i a) 64 i.c)
    (fun s i => if !bmWritten s i then some .other else if s.chanUsed i.c.core ch.toNat then some .tokenWait else none)
    (fun s i =>
      let after := s.entryAfter i 3
      let x : Chan := { busy := true, recVa := uniVa s i a, tok := tok.toNat, blk := i.c.blk, grp := i.c.grp
                        uid := s.fresh, after := after, floor := (s.grp i.c.blk i.c.grp).floor }
      let s := ({ s with fresh := s.fresh + 1 }).takeToken i tok.toNat
      let s := s.useEntry i.c.core fun n => { n with chans := ch.toNat :: n.chans }
      let c := s.core i.c.core
      { s := s.setCore i.c.core { c with chans := mset {} c.chans ch.toNat x } }) s

/-- The entries of the queues that a mask of qfence names (R303). -/
def State.fenceUids (s : State) (c : Cur) (mask : BitVec 4) : List Nat :=
  let k := s.core c.core
  (if mask.getLsbD 0 then k.ldq.map (·.uid) else []) ++ (if mask.getLsbD 1 then k.stq.map (·.uid) else [])
    ++ (if mask.getLsbD 2 then (s.grp c.blk c.grp).matq.map (·.uid) else [])
    ++ (if mask.getLsbD 3 then (k.chans.filter fun x => x.2.busy).map (·.2.uid) else [])

/-- qfence (R303): entries of the named queues issued from now on start after those issued before. -/
def execQfence (mask : BitVec 4) (st : Stall) (s : State) : Res :=
  issueWith {} st noCause isReady
    (fun s i =>
      let us := s.fenceUids i.c mask
      let c := s.core i.c.core
      let live := s.openUids
      let old := (c.fences.map fun f => (f.1, f.2.filter live.contains)).filter fun f => !f.2.isEmpty
      let names := (List.range 4).filter fun q => mask.getLsbD q
      let new := names.map fun q => (if q = 2 then 4 + i.c.blk * 16 + i.c.grp else q, us)
      { s := s.setCore i.c.core { c with fences := if us.isEmpty then old else old ++ new } }) s

/-- The word of cp.stat (R304). -/
def State.cpStat (s : State) (core : Nat) : Word :=
  let c := s.core core
  let bits := fun (f : Chan → Bool) => (List.range 4).foldl (fun m n => if f (mget {} c.chans n) then m + 2 ^ n else m) 0
  BitVec.ofNat 32 (c.ldq.length + 32 * c.stq.length + 1024 * bits (·.busy) + 2 ^ 14 * bits (·.error)
    + (if c.ldq.any fun e => e.susp.isSome then 2 ^ 18 else 0) + (if c.stq.any fun e => e.susp.isSome then 2 ^ 19 else 0))

/-- cp.stat (R304). -/
def execCpStat (d : KReg) (st : Stall) (s : State) : Res :=
  issueWith {} st noCause isReady
    (fun s i => { s := s, lat := .var, writes := kWrite (s.grp i.c.blk i.c.grp) d (s.cpStat i.c.core) }) s

/-! ## Matrix operations (R257-R274) -/

/-- Bytes of an element (R262). -/
def matSize : MatFmt → Nat
  | .bf16 | .f16 => 2
  | _ => 1

/-- The depth as the instruction takes it. -/
def depthVal (s : State) (i : Issue) : Depth → Nat
  | .imm k => k.toNat
  | .reg k => (kval i.now (s.grp i.c.blk i.c.grp) i.iid k).toNat

/-- The passes of a cluster that hold an entry of its reservation table (R260). -/
def State.passesHeld (s : State) (cluster : Nat) : Nat :=
  (s.blocks.flatMap fun b => match b.2.core with
    | some n => if n / 4 = cluster then b.2.groups.flatMap fun g => g.2.matq.filter fun e => e.kind == .mma || e.kind == .pair else []
    | none => []).length

/-- Entries of the reservation table of a core's cluster in use in the present cycle (R260, R417). -/
def State.matTable (s : State) (core : Nat) : Nat := max (s.passesHeld (core / 4)) (s.core (core / 4 * 4)).inUse.mat

/-- A matrix queue has room, and a pass finds a reservation entry (R258, R260, R417). -/
def matRoom (s : State) (i : Issue) (pass : Bool) : Option Reason :=
  let G := s.grp i.c.blk i.c.grp
  if 8 ≤ max G.matq.length G.matUsed || (pass && decide (16 ≤ s.matTable i.c.core)) then some .matrixReservation else none

/-- An entry joins its group's matrix queue (R258, R259). -/
def State.addMat (s : State) (i : Issue) (e : MatEntry) : State :=
  let e := { e with uid := s.fresh, prio := (s.blk i.c.blk).prio, taken := i.now, since := s.tick, floor := (s.grp i.c.blk i.c.grp).floor
                    after := s.entryAfter i (4 + i.c.blk * 16 + i.c.grp) }
  let s := ({ s with fresh := s.fresh + 1 }).takeToken i e.tok
  let s := if e.kind == .mma || e.kind == .pair then s.useEntry (i.c.core / 4 * 4) fun n => { n with mat := n.mat + 1 } else s
  let G := s.grp i.c.blk i.c.grp
  (s.setGrp i.c.blk i.c.grp { G with matq := G.matq ++ [e], matUsed := G.matUsed + 1 }).accNext i.c.core

/-- The uniform registers of a pass other than K. -/
def mmaRegs (m : MmaSpec) : List (BitVec 7 × Nat) := [(m.a.base, 2), (m.a.stride, 1), (m.b.base, 2), (m.b.stride, 1)]

/-- The scale names of a pass: the first field and how many (R264). -/
def mmaScales (m : MmaSpec) (k : Nat) : List (Nat × Nat) :=
  ([m.sa, m.sb].filter fun f => f != 0x7F#7).map fun f => (f.toNat, k / 32)

/-- A uniform register read is early. -/
def kEarly (s : State) (i : Issue) (regs : List (BitVec 7 × Nat)) : Bool :=
  let G := s.grp i.c.blk i.c.grp
  (s.ctxOf i.c.blk).sbchk.getLsbD 0 && regs.any fun f => (List.range f.2).any fun j => (G.producer i.now (kKey G f.1 j)).isSome

/-- A block-memory operand's extent lies within scratch (R262). -/
def operandFits (s : State) (i : Issue) (o : MatOperand) (rows k : Nat) : Bool :=
  let G := s.grp i.c.blk i.c.grp
  let base := uniVa s i o.base
  let stride := (kval i.now G i.iid o.stride).toNat
  base % 32 == 0 && stride % 32 == 0 &&
    (!o.blk || decide (base + (rows - 1) * stride + k * matSize o.fmt ≤ (s.blk i.c.blk).scratch * 1024))

/-- The causes of a pass at issue, after ILLEGAL and RESERVED_FIELD (R74, R171, R264, R268). An early read of a scale register parks the
lanes that read it early alone; the other causes hold for every lane. -/
def mmaCause (rows : Nat) (m : MmaSpec) (s : State) (i : Issue) (L : Nat) : Option Cause :=
  let b := s.blk i.c.blk
  let G := b.grp i.c.grp
  let kReg := match m.depth with
    | .reg k => [(k, 1)]
    | .imm _ => []
  let k := depthVal s i m.depth
  let names := mmaScales m k
  if kEarly s i kReg then some (mkCause i.c 4)
  else if k % 32 ≠ 0 ∨ 8160 < k then some (mkCause i.c (if kEarly s i (mmaRegs m) then 4 else 5))
  else if names.any fun f => f.2 != 0 && (decide (120 < f.1 + f.2) || G.present.any fun L => !inRange b.A (G.lane L) (f.1 + f.2 - 1))
  then some (mkCause i.c 3)
  else if kEarly s i (mmaRegs m) || ((s.ctxOf i.c.blk).sbchk.getLsbD 0 && names.any fun f =>
      (List.range f.2).any fun j => (G.producer i.now (vKey b.A G L (f.1 + j))).isSome) then some (mkCause i.c 4)
  else if operandFits s i m.a rows k && operandFits s i m.b 128 k then none else some (mkCause i.c 5)

/-- A pass reads a bad register: its K register, its bases and strides, or a scale register of a present lane (R190, R264). -/
def mmaBad (m : MmaSpec) (s : State) (i : Issue) : Bool :=
  let b := s.blk i.c.blk
  let G := b.grp i.c.grp
  let ks := mmaRegs m ++ (match m.depth with
    | .reg k => [(k, 1)]
    | .imm _ => [])
  !b.bad.isEmpty && ((ks.any fun f => (List.range f.2).any fun j => s.badKey i.c (kKey G f.1 j)) ||
    (mmaScales m (depthVal s i m.depth)).any fun f => (List.range f.2).any fun j => G.full.any fun L => s.badKey i.c (vKey b.A G L (f.1 + j)))

/-- A pass can issue: its queue and the cluster's table have room (R417); what it reads then may be bad (R190). -/
def mmaReady (m : MmaSpec) (s : State) (i : Issue) : Option Reason :=
  match matRoom s i true with
  | some r => some r
  | none => if mmaBad m s i then some .badRegister else none

/-- The scale bytes of an operand, row by row and block by block; none named: an empty list (R264). -/
def scaleBytes (s : State) (i : Issue) (f : BitVec 7) (bsel : BitVec 2) (rows k : Nat) : List Nat :=
  if f = 0x7F#7 then []
  else
    let b := s.blk i.c.blk
    let G := b.grp i.c.grp
    (List.range rows).flatMap fun m => (List.range (k / 32)).map fun j =>
      let L := m % 32
      let l := G.lane L
      if l.status == .absent || !inRange b.A l (f.toNat + j) then 0
      else byteAt (G.read i.now i.iid (vKey b.A G L (f.toNat + j))) ((bsel.toNat + m / 32) % 4)

/-- An operand as read at issue. -/
def operandOf (s : State) (i : Issue) (o : MatOperand) : MatSrc :=
  { base := uniVa s i o.base, stride := (kval i.now (s.grp i.c.blk i.c.grp) i.iid o.stride).toNat, fmt := o.fmt, blk := o.blk }

/-- A pass issues (R264-R266). -/
def issueMma (kind : MatKind) (rows : Nat) (m : MmaSpec) (s : State) (i : Issue) : Result :=
  let k := depthVal s i m.depth
  { s := s.addMat i { tok := m.tok.toNat, kind := kind, a := operandOf s i m.a, b := operandOf s i m.b, depth := k
                      scA := scaleBytes s i m.sa m.bsel rows k, scB := scaleBytes s i m.sb m.bsel 128 k, ow := m.ow
                      row := m.row.toNat } }

/-- mma (R265, R266). -/
def execMma (m : MmaSpec) (st : Stall) (s : State) : Res :=
  issueWith {} st (mmaCause 64 m) (mmaReady m) (fun s i => issueMma .mma 64 m s i) s

/-- mma.pair may not be issued by an odd role, or without the role after it (R267). -/
def State.pairIllegal (s : State) (c : Cur) : Bool :=
  let b := s.blk c.blk
  b.role % 2 == 1 || decide ((s.team b.team).size ≤ b.role + 1)

/-- mma.pair (R265-R267); it ends an interval's flag (R189). -/
def execMmaPair (m : MmaSpec) (st : Stall) (s : State) : Res :=
  orIllegal State.pairIllegal st
    (issueWith {} st (mmaCause 128 m) (mmaReady m)
      (fun s i => issueMma .pair 128 m (s.loseInterval i.c.blk) i)) s

/-- The common part of an acc.* entry (R269). -/
def accEntry (c : AccSpec) (kind : MatKind) : MatEntry :=
  { tok := c.tok.toNat, kind := kind, row := c.first.toNat, rows := c.rows.toNat + 1, fmt := c.fmt, blk := c.blk }

/-- Bytes of a row in a memory format (R270). -/
def accRowBytes : AccFmt → Nat
  | .f32 => 512
  | _ => 256

/-- The MISALIGNED checks of R271 and R272. -/
def accCause (s : State) (i : Issue) (c : AccSpec) (base stride : Nat) (blk : Bool) (m : BitVec 16) : Option Cause :=
  if base % 32 = 0 ∧ stride % 32 = 0 ∧ mbarFits s i m = true ∧
    (blk = false ∨ base + c.rows.toNat * stride + accRowBytes c.fmt ≤ (s.blk i.c.blk).scratch * 1024)
  then none else some (mkCause i.c 5)

/-- acc.zero (R269, R270). -/
def execAccZero (c : AccSpec) (st : Stall) (s : State) : Res :=
  issueWith {} st noCause (fun s i => matRoom s i false) (fun s i => { s := s.addMat i (accEntry c .zero) }) s

/-- acc.ld (R269-R271). -/
def execAccLd (c : AccSpec) (d a : KReg) (st : Stall) (s : State) : Res :=
  issueWith { ksrc := [(a, 2), (d, 1)] } st
    (fun s i _ => accCause s i c (uniVa s i a) (kval i.now (s.grp i.c.blk i.c.grp) i.iid d).toNat c.blk 0xFFFF#16)
    (fun s i => matRoom s i false)
    (fun s i => { s := s.addMat i { accEntry c .ld with
      base := uniVa s i a, stride := (kval i.now (s.grp i.c.blk i.c.grp) i.iid d).toNat } }) s

/-- acc.st (R269-R271). -/
def execAccSt (c : AccSpec) (d a : KReg) (st : Stall) (s : State) : Res :=
  issueWith { ksrc := [(a, 2), (d, 1)] } st
    (fun s i _ => accCause s i c (uniVa s i a) (kval i.now (s.grp i.c.blk i.c.grp) i.iid d).toNat c.blk 0xFFFF#16)
    (fun s i => matRoom s i false)
    (fun s i => { s := s.addMat i { accEntry c .st with
      base := uniVa s i a, stride := (kval i.now (s.grp i.c.blk i.c.grp) i.iid d).toNat } }) s

/-- acc.cp (R272); naming another role ends an interval's flag. -/
def execAccCp (c : AccSpec) (role : BitVec 4) (mbar : BitVec 16) (d a : KReg) (st : Stall) (s : State) : Res :=
  orIllegal (fun s cu => s.rolesIllegal cu [role.toNat]) st
    (issueWith { ksrc := [(a, 1), (d, 1)] } st
      (fun s i _ =>
        let G := s.grp i.c.blk i.c.grp
        accCause s i c (kval i.now G i.iid a).toNat (kval i.now G i.iid d).toNat true mbar)
      (fun s i => matRoom s i false)
      (fun s i =>
        let G := s.grp i.c.blk i.c.grp
        let s' := if role.toNat = (s.blk i.c.blk).role then s else s.loseInterval i.c.blk
        { s := s'.addMat i { accEntry c .cp with
            base := (kval i.now G i.iid a).toNat, stride := (kval i.now G i.iid d).toNat, role := role.toNat
            mbar := mbarOf mbar } })) s

/-- ofence (R273): it waits for the group's older writes to block memory, then empties the operand cache of block memory. -/
def execOfence (st : Stall) (s : State) : Res :=
  issueWith {} st noCause (fun s i => if bmWritten s i then none else some .other)
    (fun s i => { s := { s with blocks := s.blocks.map fun b =>
      (b.1, if b.2.core = some i.c.core then { b.2 with opcache := [] } else b.2) } }) s

/-- mwait (R274): it delivers the engine faults of the matrix queue and waits until the queue is empty. -/
def execMwait (st : Stall) (s : State) : Res :=
  deliverEngine false .none (fun _ => true) false {} st
    (fun s i => if (s.grp i.c.blk i.c.grp).matq.isEmpty then none else some .matrixReservation)
    (fun s i => { s := s.cover i.c.blk i.c.grp ((List.range 8).map (· + 8)) }) s

end Sys2Proof.Machine
end

