-- ==== Sys2Proof/Machine/System.lean ====
section
/-! DEFINITION. tlbinv, and the effect of the system operations in flight (R128, R129, R285, R318-R320, R349-R352). -/

namespace Sys2Proof.Machine

/-! ## tlbinv (R318, R319) -/

/-- The operands of tlbinv and of TLB_INVAL. -/
structure TlbOp where
  va   : Nat
  ctx  : Nat
  kind : Nat
  bad  : Bool
  deriving DecidableEq, Repr

/-- The operands from their registers (R318): `bad` is status 3. -/
def tlbOp (va : Nat) (w2 w3 : Word) : TlbOp :=
  let ctx := field w2.toNat 0 12
  let kind := field w2.toNat 12 3
  { va := va, ctx := ctx, kind := kind
    bad := decide (3 < kind) || field w2.toNat 15 17 != 0 || w3 != 0#32 || (kind != 0 && va != 0) || (kind == 3 && ctx != 0) }

/-- The context named is not defined, resident or stopped: status 2 (R319). -/
def State.tlbNoCtx (s : State) (o : TlbOp) : Bool :=
  o.kind != 3 && !(match (s.ctx o.ctx).state with
    | .defined | .resident | .stopped => true
    | _ => false)

/-- A cached leaf matches (R318). -/
def TlbOp.drops (o : TlbOp) (t : Tlb) : Bool :=
  match o.kind with
  | 0 => t.ctx == o.ctx && decide (t.base ≤ o.va ∧ o.va < t.base + 2 ^ t.bits)
  | 1 => t.ctx == o.ctx && !bitOf t.leaf 9
  | 2 => t.ctx == o.ctx
  | _ => true

/-- An access translated through a leaf that the invalidation covers. -/
def TlbOp.covers (o : TlbOp) (p : Pend) : Bool :=
  p.access && !p.bm && p.phys.isSome && !p.done &&
    (match o.kind with
      | 0 => p.ctx == o.ctx && decide (p.page ≤ o.va ∧ o.va < p.page + p.psize)
      | 3 => true
      | _ => p.ctx == o.ctx)

/-- A store or atomic that waits on M, or an access that one of them keeps back: it translates afresh (R316). -/
def State.heldByM (s : State) (p : Pend) : Bool :=
  let waits := fun (q : Pend) => q.migr && q.writes && !q.done
  waits p || (older s.pend p.uid).any fun q => waits q && (orderBlocks q p || placeBlocks q p)

/-- Matching entries leave the TLBs, and the memo entries of loads of the contexts named (R169, R250, R319). -/
def State.tlbDrop (s : State) (o : TlbOp) : State :=
  let s := { s with tlb := s.tlb.filter fun t => !o.drops t }
  let hit := fun (ctx : Nat) => o.kind == 3 || ctx == o.ctx
  let s := s.memoMap fun _ ms => ms.filter fun m => !(m.load && hit m.ctx)
  -- a load that has translated makes no entry when it returns
  { s with blocks := s.blocks.map fun b => (b.1, if hit b.2.ctx then
      { b.2 with groups := b.2.groups.map fun g => (g.1, { g.2 with memoWait := [] }) } else b.2) }

/-- Copy entries of the module, with their places. -/
def State.copyRefs (s : State) : List (EngRef × CopyEntry) :=
  s.cores.flatMap fun c =>
    (c.2.ldq.zipIdx.map fun e => (EngRef.ld c.1 e.2, e.1)) ++ (c.2.stq.zipIdx.map fun e => (EngRef.st c.1 e.2, e.1))
      ++ c.2.chans.filterMap fun x => x.2.entry.map fun e => (EngRef.ch c.1 x.1, e)

/-- Accesses of engines and of the device that have translated and not performed, held or under way at a peer: the entry, decrement or
store, the number of the access in it, context, translation. -/
def State.engOpen (s : State) : List (Nat × Nat × Nat × Xlat) :=
  (s.copyRefs.filterMap fun x => x.2.at_.map fun t => (x.2.uid, x.2.progress + 1, (s.blk x.2.blk).ctx, t))
    ++ (s.cores.flatMap fun c => c.2.chans.filterMap fun x =>
      x.2.at_.map fun t => (x.2.uid, x.2.recVa + x.2.rcd.length + 1, (s.blk x.2.blk).ctx, t))
    ++ (s.blocks.flatMap fun b => b.2.groups.flatMap fun g => g.2.matq.filterMap fun e =>
      e.at_.map fun t => (e.uid, e.progress * 2 ^ 64 + e.asked.getD 0 + 1, b.2.ctx, t))
    ++ (s.devSent.map fun x => (x.uid, 1, x.ctx, x.at_))
    ++ s.held.filterMap fun h => h.at_.map fun t => (h.uid, 1, h.ctx, t)

/-- A translation of a context that an invalidation covers. -/
def TlbOp.spans (o : TlbOp) (ctx : Nat) (t : Xlat) : Bool :=
  match o.kind with
  | 0 => ctx == o.ctx && decide (t.page ≤ o.va ∧ o.va < t.page + 2 ^ t.bits)
  | 3 => true
  | _ => ctx == o.ctx

/-- The accesses that an invalidation waits for: operations, with 0, and engine entries, with the number of the access. -/
def State.tlbWaits (s : State) (o : TlbOp) : List (Nat × Nat) :=
  ((s.pend.filter fun p => o.covers p && !s.heldByM p).map fun p => (p.uid, 0))
    ++ (s.engOpen.filter fun x => o.spans x.2.2.1 x.2.2.2).map fun x => (x.1, x.2.1)

/-- One of them is still to perform. -/
def State.tlbOpen (s : State) (ws : List (Nat × Nat)) : Bool :=
  ws.any fun w => if w.2 = 0 then (s.op? w.1).any fun q => !q.done else s.engOpen.any fun x => x.1 == w.1 && x.2.1 == w.2

/-- What waits on M translates afresh. -/
def State.tlbFresh (s : State) (o : TlbOp) : State :=
  { s with pend := s.pend.map fun p => if o.covers p && s.heldByM p && !p.sent then { p with phys := none, migr := false, hist := false } else p }

/-- tlbinv (R318, R319): privileged; a release at device scope, then the invalidation. -/
def execTlbinv (d a : KReg) (st : Stall) (s : State) : Res :=
  orIllegal (fun s c => !(s.ctxOf c.blk).priv) st
    (deliverWith .none true { ksrc := [(a, 4)] } st noCause isReady
      (fun s i => issueLoads s i [sysPend s i .tlbinv .dev (kvals s i a 4) [kKey (s.grp i.c.blk i.c.grp) d]])) s

/-- tlbinv takes effect: it drops, then waits for the accesses that went through what it dropped, then completes. -/
def State.tlbPerform (s : State) (p : Pend) : State :=
  let w := fun j => p.args.getD j 0#32
  let o := tlbOp (dwordOf (w 0) (w 1)).toNat (w 2) (w 3)
  if o.bad then s.sysEnd p [3#32]
  else if s.tlbNoCtx o then s.sysEnd p [2#32]
  else match p.markers with
    | none => (s.tlbDrop o).setOp { p with markers := some (s.tlbWaits o) }
    | some ws => if s.tlbOpen ws then s else (s.tlbFresh o).sysEnd p [0#32]

/-! ## System operations take effect (log entry 16) -/

/-- A system operation whose older accesses have performed (R231, R255, R256): its markers at scope 5 and 6, its effect, and
its release of the group's floor. -/
def State.settleSys (s : State) (p : Pend) : State :=
  match p.kind with
  | .sys op =>
    if p.done || p.fault.isSome || !s.clear p then s
    else if needsMarkers p.rel && p.markers.isNone then
      let m := s.sendMarkers p.blk p.grp p.uid
      m.2.setOp { p with markers := some m.1 }
    else if needsMarkers p.rel && p.markers != some [] then s
    else
      let t := match op with
        | .arrive => s.arrivePerform p
        | .spawn => s.pushPerform p false
        | .launch => s.pushPerform p true
        | .jdec => s.jdecPerform p
        | .actComp => s.compPerform p
        | .actCommit => s.decidePerform p true
        | .actAbandon => s.decidePerform p false
        | .actDone => s.donePerform p
        | .tlbinv => s.tlbPerform p
      if (t.op? p.uid).any fun q => !q.done then t
      else (t.releaseFloor p.blk p.grp (p.rel.getD .dev)).emptyDests p.blk p.grp p.rel
  | _ => s

/-- A fence or a system operation goes on. -/
def State.settle (s : State) (uid : Nat) : State :=
  match s.op? uid with
  | some p => (match p.kind with
    | .fence _ => s.settleFence p
    | _ => s.settleSys p)
  | none => s

end Sys2Proof.Machine
end

