-- ==== Sys2Proof/Machine/Perform.lean ====
section
/-! DEFINITION. The steps of the matrix and copy engines (R257-R302): arbitration, passes, accumulator transfers, sectors of
copies, transfer chains, engine faults. -/

namespace Sys2Proof.Machine

/-! ## Engine reads and writes of global memory (R263, R290, R314) -/

/-- An engine's access to a sector: done, waiting, or a fault with its cause. -/
inductive EngR (α : Type) where
  | ok (v : α) (s : State)
  | wait (t : State)
  | fault (cause : Nat)

/-- A page that an entry translates counts once per entry (R314). -/
def State.engCount (s : State) (ctx va : Nat) (x : Xlat) (store : Bool) (pages : List Nat) : List Nat × State :=
  let pg := va / 4096 * 4096
  if pages.contains pg then (pages, s)
  else (pg :: pages, if bitOf x.leaf 6 then { s with counted := s.counted ++ [⟨ctx, pg, bitsOf x.leaf 8 7, store⟩] } else s)

/-- What an entry's translation of a page counts: it misses L1's TLB once per page and entry (R405). -/
def State.engWalk (s : State) (core ctx va : Nat) (found : Option Tlb) (pages : List Nat) : State :=
  s.countWalk core ctx s.tick found !pages.contains (va / 4096 * 4096)

/-- The service class of a copy engine's requests (R392). -/
def copyClass (ctx : Nat) : Nat := if ctx = 0 then 3 else 1

/-- What an engine read gives. -/
structure EngData where
  bytes  : List Byte
  poison : Bool
  stamp  : Nat
  pages  : List Nat
  /-- A peer that must be asked. -/
  ask    : Option Phys := none
  at_    : Option Xlat := none
  deriving DecidableEq, Repr

/-- The translation of an engine's read (R267, R290, R291). -/
def State.engXlat (s : State) (u va : Nat) (pages : List Nat) : EngR Xlat :=
  let b := s.blk u
  let found := (s.tlbFind (b.core.getD 0) b.ctx va).filter fun _ => s.mayCache 13
  match s.translate (b.core.getD 0) b.ctx va .load (s.mayCache 13) with
  | (.error (c, _), _) => .fault c
  | (.ok x, s) => .ok x (s.engWalk (b.core.getD 0) b.ctx va found pages)

/-- A read of n bytes k bytes beyond a place that has been translated. -/
def State.engRead (s : State) (cls u va k n : Nat) (pages : List Nat) (x : Xlat) : EngR EngData :=
  let b := s.blk u
  let t := s.engCount b.ctx va x false pages
  let s := { t.2 with fresh := t.2.fresh + 1 }
  let ph : Phys := { x.phys with off := x.phys.off + k }
  match ph.target with
  | 0 =>
    let r := s.loadLocal (s.keyOf b.ctx) ph.off n (bitOf x.leaf 4)
    let s := s.served (s.home ph.off) cls 1
    .ok ⟨r.1, r.2.1, r.2.2, t.1, none, none⟩ s
  | 1 =>
    if s.liveMember ph.peer then .ok ⟨[], false, 0, t.1, some ph, some x⟩ s
    else .ok ⟨List.replicate n 0#8, true, 0, t.1, none, none⟩ (s.cirBlk u 3)
  | _ => .ok ⟨rdBytes s.mem (hostBase + ph.off) n, s.hostPoison ph.off n, (s.slice (sliceOfCore (b.core.getD 0))).last, t.1, none, none⟩ s

/-- An engine reads n bytes within a line as a plain load (R263, R290). A peer's line is asked for (`ask`). -/
def State.engLoad (s : State) (cls u va n : Nat) (pages : List Nat) : EngR EngData :=
  match s.engXlat u va pages with
  | .ok x s => s.engRead cls u va 0 n pages x
  | .wait s => .wait s
  | .fault c => .fault c

/-- H of the leaf of a translation. -/
def histOf (x : Option Xlat) : Bool := x.any fun y => bitOf y.leaf 4

/-- What an engine write gives. -/
structure EngDone where
  stamp : Nat
  pages : List Nat
  ask   : Option Phys := none
  at_   : Option Xlat := none
  /-- A release to host memory stands until this tick has passed (R229). -/
  hold  : Option Nat := none
  /-- The words written, with how many values each had had before (R334). -/
  saw   : List (Nat × Nat) := []
  deriving DecidableEq, Repr

/-- An engine writes bytes within a sector: `new` gives them from what stands there (R228, R229, R290, R294, R386). A write that is held
goes through the translation it has (R316). -/
def State.engStore (s : State) (cls u va n : Nat) (new : List Byte → List Byte) (poison reads rel : Bool) (floor : Nat) (hold : Option Nat)
    (at_ : Option Xlat) (pages : List Nat) : EngR EngDone :=
  let b := s.blk u
  let found := (s.tlbFind (b.core.getD 0) b.ctx va).filter fun _ => s.mayCache 15
  match (match at_ with
    | some x => (Except.ok x, s)
    | none => s.translate (b.core.getD 0) b.ctx va .store (s.mayCache 15)) with
  | (.error (c, _), _) => .fault c
  | (.ok x, s) =>
    let core := b.core.getD 0
    if !s.writeReady x.phys (bitOf x.leaf 4) (bitOf x.leaf 5) then .wait (s.noteStall x.phys (bitOf x.leaf 4))
    else if x.phys.target == 2 && (hold.any fun k => decide (s.tickAt (sliceOfCore core) - s.stampBase < k)) then .wait s
    else
      let s := if at_.isNone then s.engWalk (b.core.getD 0) b.ctx va found pages else s
      let t := s.engCount b.ctx va x true pages
      let s := { t.2 with fresh := t.2.fresh + 1 }
      match x.phys.target with
      | 0 =>
        let s := s.served (s.home x.phys.off) cls 1
        let s := if bitOf x.leaf 4 then s.served (s.home x.phys.off) 2 2 else s
        let key := s.keyOf b.ctx
        let bad := poison || (reads && s.poisonedIn x.phys.off n)
        let r := s.storeLocal key x.phys.off (new (s.readLocal key x.phys.off n)) (bitOf x.leaf 4) rel floor (some core)
        .ok ⟨r.1, t.1, none, none, none, r.2.countsAt (r.2.da x.phys.off) n⟩
          (if bad then { r.2 with poison := mset false r.2.poison (r.2.da x.phys.off / 32) true } else r.2)
      | 1 => if s.liveMember x.phys.peer then .ok ⟨0, t.1, some x.phys, some x, none, []⟩ s
          else .ok ⟨0, t.1, none, none, none, []⟩ (s.cirBlk u 3)
      | _ =>
        let sl := sliceOfCore core
        match rel, hold with
        | true, none => let h := s.takeStamp sl floor
                        .ok ⟨h.1, t.1, none, some x, some (h.1 / 2 ^ 14 + 17), []⟩ h.2
        | _, _ =>
          let bad := poison || (reads && s.hostPoison x.phys.off n)
          let r := s.storeHost x.phys.off (new (rdBytes s.mem (hostBase + x.phys.off) n)) (some core) 0
          .ok ⟨0, t.1, none, none, none, r.countsAt (hostBase + x.phys.off) n⟩ (if bad then r.setHostPoison x.phys.off n true else r)

/-! ## The accumulator store (R257) -/

/-- A block can have its core's store. -/
def State.accOk (s : State) (u : Nat) : Bool :=
  let b := s.blk u
  b.accHeld || (match b.core with
    | some n => !s.accTaken u n
    | none => false)

/-! ## Arbitration (R260, R261, R267) -/

/-- The block of a role of a block's team that has not ended (R298). -/
def State.roleBlk (s : State) (u role : Nat) : Option Nat :=
  match mget 0 (s.team (s.blk u).team).blocks role with
  | 0 => none
  | v + 1 => if (s.blk v).live then some v else none

/-- The follower of a block's pair pass (R267). -/
def State.follower (s : State) (u : Nat) : Option Nat := s.roleBlk u ((s.blk u).role + 1)

/-- The head of a group's matrix queue. -/
def State.matHead (s : State) (u g : Nat) : Option MatEntry := (s.grp u g).matq.head?

/-- An entry may start: it stands at the head, is not suspended, what it waits for has performed, and the stores it needs can
be granted (R257, R258, R266). -/
def State.matReady (s : State) (u : Nat) (e : MatEntry) : Bool :=
  match (s.blk u).core with
  | none => false
  | some _ => e.susp.isNone && s.afterDone (e.after.filter (· != e.uid)) && s.accOk u &&
      (e.kind != .pair || (match s.follower u with
        | some f => s.accOk f
        | none => true))

/-- The core of a role by the binding table of a block's team (R142). -/
def State.roleCore (s : State) (u role : Nat) : Option Nat :=
  match mget 0 (s.team (s.blk u).team).cores role with
  | 0 => none
  | n + 1 => some n

/-- The arrays a pass needs, its own core's first: a pair pass takes both arrays of the matrix pair, also where the follower block has
ended (R267). -/
def State.arraysOf (s : State) (u : Nat) (e : MatEntry) : List Nat :=
  (s.blk u).core.toList ++ (if e.kind == .pair then (s.roleCore u ((s.blk u).role + 1)).toList else [])

/-- A candidate for an array: score, issuing core, slot, block and group. -/
structure Candidate where
  score : Nat
  core  : Nat
  slot  : Nat
  blk   : Nat
  grp   : Nat
  deriving DecidableEq, Repr

/-- The candidates for the array of a core (R260). -/
def State.candidates (s : State) (core : Nat) : List Candidate :=
  s.blocks.flatMap fun b =>
    if !b.2.live then [] else
    b.2.groups.filterMap fun g =>
      match g.2.matq.head?, b.2.core with
      | some e, some n =>
        if (e.kind == .mma || e.kind == .pair) && !e.started && s.matReady b.1 e && (s.arraysOf b.1 e).contains core then
          some ⟨(s.cycleOf n - e.taken) + 4096 * e.prio, n, mget 0 b.2.slots g.1, b.1, g.1⟩
        else none
      | _, _ => none

/-- Whether one candidate goes before another (R261). -/
def Candidate.before (a b : Candidate) : Bool :=
  decide (b.score < a.score) || (a.score == b.score && (decide (a.core < b.core) || (a.core == b.core && decide (a.slot < b.slot))))

/-- The winner of a list. -/
def Candidate.best : List Candidate → Option Candidate
  | [] => none
  | c :: r => match Candidate.best r with
    | none => some c
    | some d => some (if d.before c then d else c)

/-- Replace the head of a group's matrix queue. -/
def State.setHead (s : State) (u g : Nat) (e : MatEntry) : State :=
  let G := s.grp u g
  s.setGrp u g { G with matq := e :: G.matq.drop 1 }

/-- A pass starts on its arrays, which it holds until it performs. -/
def State.startPass (s : State) (u g : Nat) (e : MatEntry) : State :=
  let s := (s.arraysOf u e).foldl (fun s n => s.setCore n { s.core n with array := some (u, g) }) s
  let s := s.accGrant u
  let s := match e.kind, s.follower u with
    | .pair, some f => s.accGrant f
    | _, _ => s
  s.setHead u g { e with started := true }

/-- The pair pass that holds the other array of a core's pair and waits for this one (R261). -/
def State.pairWaiting (s : State) (core : Nat) : Option (Nat × Nat) :=
  let other := if core % 2 = 0 then core + 1 else core - 1
  match (s.core other).array with
  | some (u, g) => match s.matHead u g with
    | some e => if e.kind == .pair && !e.started && (s.arraysOf u e).contains core then some (u, g) else none
    | none => none
  | none => none

/-- MATRIX_ARBITRATION (R261): a free array takes the candidate of largest score; a pair pass that wins while its second array
is busy keeps this one idle until the second is free. -/
def State.arbitrate (s : State) (core : Nat) : State :=
  if (s.core core).array.isSome then s
  else match s.pairWaiting core with
    | some (u, g) => match s.matHead u g with
      | some e => if s.matReady u e then s.startPass u g e else s
      | none => s
    | none => match Candidate.best (s.candidates core) with
      | none => s
      | some c => match s.matHead c.blk c.grp with
        | none => s
        | some e =>
          if (s.arraysOf c.blk e).all fun n => (s.core n).array.isNone then s.startPass c.blk c.grp e
          else s.setCore core { s.core core with array := some (c.blk, c.grp) }

/-- Arrays held by a group's pass become free. -/
def State.freeArrays (s : State) (u g : Nat) : State :=
  { s with cores := s.cores.map fun c => (c.1, if c.2.array = some (u, g) then { c.2 with array := none } else c.2) }

/-! ## Passes (R48, R49, R262-R266) -/

/-- A sector of a block-memory operand: from the operand cache, where an earlier pass left it (a free choice), or from block
memory; its bytes, its poison mark, and the state (R263). -/
def State.operandBlk (s : State) (u addr : Nat) : List Byte × Bool × State :=
  let b := s.blk u
  let k := addr / 32
  let cached := mget [] b.opcache k
  let use := !cached.isEmpty && Config.freeBool (pairNat s.fresh 16)
  let bytes := if use then cached else rdBytes b.bm (k * 32) 32
  (bytes, mget false b.bmPoison k, { s.setBlk u { b with opcache := mset [] b.opcache k bytes } with fresh := s.fresh + 1 })

/-- A sector-wise read of a row of an operand. -/
structure RowRead where
  bytes : List Byte := []
  bad   : Bool := false
  s     : State
  entry : MatEntry
  fault : Option (Nat × Nat) := none
  /-- A sector that a peer must be asked for: its VA, place and translation. -/
  ask   : Option (Nat × Phys × Option Xlat) := none

/-- The pages counted for an operand (R314). -/
def MatEntry.pagesOf (e : MatEntry) (b : Bool) : List Nat := if b then e.pagesB else e.pages
def MatEntry.setPages (e : MatEntry) (b : Bool) (pages : List Nat) : MatEntry :=
  if b then { e with pagesB := pages } else { e with pages := pages }

/-- A sector of an operand of global memory: as a peer answered it, or as it is read now (R263). -/
def sectorRead (u va : Nat) (b : Bool) (r : RowRead) : RowRead :=
  match r.entry.got.find? fun x => x.1 == va with
  | some x => { r with bytes := r.bytes ++ x.2.1, bad := r.bad || x.2.2 }
  | none => match r.s.engLoad 1 u va 32 (r.entry.pagesOf b) with
    | .ok d t =>
      let e := { r.entry.setPages b d.pages with maxStamp := max r.entry.maxStamp d.stamp }
      (match d.ask with
        | some ph => { r with s := t, entry := e, ask := some (va, ph, d.at_) }
        | none => { r with bytes := r.bytes ++ d.bytes, bad := r.bad || d.poison, s := t, entry := e })
    | .wait _ => r
    | .fault c => { r with fault := some (c, va) }

/-- The sectors of one row of a chunk: 32 elements from element 32·j on; `b`: of operand B. -/
def rowRead (u : Nat) (o : MatSrc) (b : Bool) (row j : Nat) (r : RowRead) : RowRead :=
  let n := 32 * matSize o.fmt
  let base := o.base + row * o.stride + j * n
  (List.range (n / 32)).foldl (fun r i =>
    if r.fault.isSome || r.ask.isSome then r
    else if o.blk then
      let x := r.s.operandBlk u (base + 32 * i)
      { r with bytes := r.bytes ++ x.1, bad := r.bad || x.2.1, s := x.2.2 }
    else sectorRead u ((base + 32 * i) % 2 ^ 64) b r) { r with bytes := [], bad := false }

/-- The elements of a row of bytes. -/
def elems (f : MatFmt) (bs : List Byte) : List Nat :=
  if matSize f = 1 then bs.map BitVec.toNat
  else (List.range (bs.length / 2)).map fun i => (bs.getD (2 * i) 0#8).toNat + 256 * (bs.getD (2 * i + 1) 0#8).toNat

/-- The rows of one chunk of an operand: elements and poison, row by row. -/
def chunkRows (u : Nat) (o : MatSrc) (b : Bool) (rows j : Nat) (r : RowRead) : List (List Nat × Bool) × RowRead :=
  (List.range rows).foldl (fun a m =>
    let r := rowRead u o b m j a.2
    (a.1 ++ [(elems o.fmt r.bytes, r.bad)], r)) ([], r)

/-- The scale of row m in block j: 127 where no register is named (R264). -/
def scaleOf (sc : List Nat) (k m j : Nat) : Nat := if sc.isEmpty then 127 else sc.getD (m * (k / 32) + j) 0

/-- The floating format of an operand. -/
def MatFmt.fmt : MatFmt → Fmt
  | .f16 => .f16
  | _ => .bf16

/-- One accumulator element after a chunk (R48, R49, R263): poison gives the canonical NaN. -/
def elemStep (e : MatEntry) (j m n : Nat) (a b : List Nat × Bool) (x : Word) : Word :=
  if a.2 || b.2 then 0x7FC00000#32
  else
    let acc := if e.ow && j == 0 then none else some x.toNat
    let pairs := a.1.zip b.1
    match e.a.fmt with
    | .bf16 | .f16 => BitVec.ofNat 32 (chunkStep (MatFmt.fmt e.a.fmt) (MatFmt.fmt e.b.fmt) pairs acc)
    | f => BitVec.ofNat 32 (blockStep (f == .m8) (f == .s8) (e.b.fmt == .s8) pairs (scaleOf e.scA e.depth m j) (scaleOf e.scB e.depth n j) acc)

/-- A row of results goes to its store: rows 0-63 the leader's, 64-127 the follower's (R266, R267). -/
def State.accPut (s : State) (u m r0 : Nat) (vals : Word → Nat → Word) : State :=
  let dst := if m < 64 then some u else s.follower u
  match dst with
  | none => s
  | some d => s.accRow d (r0 + m % 64) ((List.range 128).map fun n => vals ((s.blk d).accAt (r0 + m % 64) n) n)

/-- Rows of a pass. -/
def MatEntry.m (e : MatEntry) : Nat := if e.kind == .pair then 128 else 64

/-- The state once a peer has been asked for a sector: what has been counted stays counted (R314). -/
def State.matAsk (s : State) (u g : Nat) (t : State) (e : MatEntry) (va : Nat) (ph : Phys) (x : Option Xlat) : State :=
  let s := { s with counted := t.counted, fresh := t.fresh }
  let r := s.sendReq 0 ph e.uid (s.blk u).ctx 1 (enables ph.off 32) (histOf x) false false e.floor []
  r.2.setHead u g { e with asked := some va, at_ := x }

/-- What a chunk of a pass, or a row of a transfer, comes to: it is done, it waits, or it faults at a VA. -/
inductive ChunkR where
  | done (e : MatEntry) (s : State)
  | wait (s : State)
  /-- `s`: as the fault leaves it, with the pages that have been counted. -/
  | fault (cause va : Nat) (s : State)

/-- Pages that a chunk or row has translated before it met a fault count, and count once (R314). -/
def State.keepPages (s : State) (u g : Nat) (t : State) (e : MatEntry) : State :=
  match s.matHead u g with
  | some x => { s with counted := t.counted, fresh := t.fresh }.setHead u g { x with pages := e.pages, pagesB := e.pagesB }
  | none => s

/-- One chunk of a pass, or the fault it meets (R266, R268). -/
def State.passChunk (s : State) (u g : Nat) (e : MatEntry) : ChunkR :=
  let j := e.progress
  let A := chunkRows u e.a false e.m j { s := s, entry := e }
  let B := chunkRows u e.b true 128 j { A.2 with bytes := [], bad := false }
  match B.2.fault, B.2.ask with
  | some f, _ => .fault f.1 f.2 (s.keepPages u g B.2.s B.2.entry)
  | none, some q => .wait (s.matAsk u g B.2.s B.2.entry q.1 q.2.1 q.2.2)
  | none, none =>
    let s := B.2.s
    let bad := (A.1 ++ B.1).any fun r => r.2
    let s := (List.range e.m).foldl (fun s m =>
      s.accPut u m e.row fun x n => elemStep e j m n (A.1.getD m ([], false)) (B.1.getD n ([], false)) x) s
    let s := if bad then s.cirBlk u 0 else s
    let e' := { B.2.entry with progress := j + 1, got := [] }
    .done e' (s.setHead u g e')

/-- How many requests an entry of a matrix queue makes at most: two lines for the bytes of a row and chunk, sixteen sectors for a row of the
accumulator store (R263, R270). -/
def MatEntry.requests (e : MatEntry) : Nat :=
  match e.kind with
  | .mma | .pair => e.depth / 32 * (4 * (e.m + 128))
  | .ld | .st | .cp => 16 * e.rows
  | .zero => 0

/-- An entry of a matrix queue performs: it leaves the queue and its token (R258, R259, R290). -/
def State.matDone (s : State) (u g : Nat) (e : MatEntry) : State :=
  let G := s.grp u g
  let s := s.setGrp u g { G with matq := G.matq.drop 1 }
  let s := if e.kind == .mma || e.kind == .pair then (s.count (s.blk u).ctx 0x0D 1).freeArrays u g else s
  let s := s.late (s.blk u).ctx (((s.blk u).core).getD 0) 21 1 e.since e.requests
  ((s.coverAdd u g (e.tok + 8) e.maxStamp e.devs e.saw).tokenSub u g e.tok)

/-- Chunks of a pass one after another; a fault leaves the rest to ENGINE_FAULT, and a peer that is asked answers first. -/
def State.passRun (s : State) (u g : Nat) : Nat → State
  | 0 => s
  | n + 1 => match s.matHead u g with
    | none => s
    | some e =>
      if e.depth / 32 ≤ e.progress || e.asked.isSome then s
      else match s.passChunk u g e with
        | .fault _ _ t => t
        | .wait t => t
        | .done _ t => State.passRun t u g n

/-- PASS_PERFORM (R266): chunks of the pass at the head of a group's queue; after the last one it performs. A depth of 0 writes
+0 when overwriting and performs at once. -/
def State.passPerform (s : State) (u g chunks : Nat) : State :=
  match s.matHead u g with
  | none => s
  | some e =>
    if (e.kind != .mma && e.kind != .pair) || e.susp.isSome then s
    else if e.depth = 0 then
      if !s.matReady u e then s
      else
        let s := s.accGrant u
        let s := match e.kind, s.follower u with
          | .pair, some f => s.accGrant f
          | _, _ => s
        let s := if e.ow then (List.range e.m).foldl (fun s m => s.accPut u m e.row fun _ _ => 0#32) s else s
        s.matDone u g e
    else if !e.started then s
    else
      let s := s.passRun u g (min chunks (e.depth / 32 - e.progress))
      match s.matHead u g with
      | some e' => if e'.uid == e.uid && decide (e.depth / 32 ≤ e'.progress) then s.matDone u g e' else s
      | none => s

/-! ## acc.* operations (R269-R272) -/

/-- An FP32 element in a memory format (R270). -/
def accOut (f : AccFmt) (w : Word) : List Byte :=
  match f with
  | .f32 => leBytes 4 w.toNat
  | .bf16 => leBytes 2 (cvtFmt .f32 .bf16 .rn w.toNat).1
  | .f16 => leBytes 2 (cvtFmt .f32 .f16 .rn w.toNat).1

/-- An element of a memory format widened to FP32, NaNs canonical (R270). -/
def accIn (f : AccFmt) (v : Nat) : Word :=
  match f with
  | .f32 => if (unpack .f32 v).isNan then 0x7FC00000#32 else BitVec.ofNat 32 v
  | .bf16 => BitVec.ofNat 32 (cvtFmt .bf16 .f32 .rn v).1
  | .f16 => BitVec.ofNat 32 (cvtFmt .f16 .f32 .rn v).1

/-- Elements of a sector as words: of a poisoned sector the canonical NaN. -/
def accElems (f : AccFmt) (bs : List Byte) (bad : Bool) : List Word :=
  let n := accRowBytes f / 128
  (List.range (32 / n)).map fun i => if bad then 0x7FC00000#32 else accIn f (leNat ((bs.drop (n * i)).take n))

/-- The row address of an entry's row. -/
def MatEntry.rowVa (e : MatEntry) (k : Nat) : Nat := (e.base + k * e.stride) % 2 ^ 64

/-- The row of an entry is over. -/
def MatEntry.rowDone (e : MatEntry) : MatEntry := { e with progress := e.progress + 1, sec := 0, got := [] }

/-- One sector after another of an acc.st's row in global memory, from the first that does not stand written; a peer's is sent, and the
next waits for its answer (R270). -/
def State.accStGlobal (s : State) (u g : Nat) (bytes : List Byte) (va : Nat) (e : MatEntry) : Nat → ChunkR
  | 0 => .done e.rowDone s
  | n + 1 =>
    let i := e.sec
    if accRowBytes e.fmt / 32 ≤ i then .done e.rowDone s
    else
      let bs := (bytes.drop (32 * i)).take 32
      let a := (va + 32 * i) % 2 ^ 64
      match s.engStore 1 u a 32 (fun _ => bs) false false false e.floor none none e.pages with
      | .wait t => .wait ((s.stalled t).setHead u g e)
      | .fault c => .fault c a (s.setHead u g e)
      | .ok d s =>
        let e := { e with pages := d.pages, maxStamp := max e.maxStamp d.stamp, saw := e.saw ++ d.saw }
        match d.ask with
        | some ph =>
          let t := s.sendReq 1 ph e.uid (s.blk u).ctx 1 (enables ph.off 32) (histOf d.at_) false false e.floor bs
          .wait ((t.2.addSent u g ph.peer t.1).setHead u g { e with devs := (ph.peer :: e.devs).eraseDups, asked := some a, at_ := d.at_ })
        | none => State.accStGlobal s u g bytes va { e with sec := i + 1 } n

/-- The sectors of an acc.ld's row in global memory. -/
def accLdGlobal (u va : Nat) (e : MatEntry) (s : State) (n : Nat) : RowRead × List Word :=
  (List.range n).foldl (fun a i =>
    if a.1.fault.isSome || a.1.ask.isSome then a
    else
      let r := sectorRead u ((va + 32 * i) % 2 ^ 64) false { a.1 with bytes := [], bad := false }
      ({ r with bad := a.1.bad || r.bad }, a.2 ++ accElems e.fmt r.bytes r.bad)) ({ s := s, entry := e }, [])

/-- One row of the entry at a queue's head. -/
def State.accRowStep (s : State) (u g : Nat) (e : MatEntry) : ChunkR :=
  let k := e.progress
  let r := e.row + k
  let n := accRowBytes e.fmt
  let va := e.rowVa k
  let bytes := (List.range 128).flatMap fun c => accOut e.fmt ((s.blk u).accAt r c)
  let secs := List.range (n / 32)
  let putBm := fun (s : State) (d : Nat) => secs.foldl (fun s i =>
    s.bmEngine d (e.base + k * e.stride + 32 * i) ((bytes.drop (32 * i)).take 32) false) s
  let e' := e.rowDone
  match e.kind with
  | .zero => .done e' (s.accRow u r (List.replicate 128 0#32))
  | .st => if e.blk then .done e' (putBm s u) else s.accStGlobal u g bytes va e (n / 32)
  | .cp =>
    match s.roleBlk u e.role with
    | none => .done e' s
    | some d =>
      let s := putBm s d
      .done e' (match e.mbar with
        | some a => s.mbarCredit d a n
        | none => s)
  | .ld =>
    if e.blk then
      let got := secs.map fun i =>
        let a := e.base + k * e.stride + 32 * i
        (rdBytes (s.blk u).bm a 32, mget false (s.blk u).bmPoison (a / 32))
      let bad := got.any fun x => x.2
      let s := s.accRow u r (got.flatMap fun x => accElems e.fmt x.1 x.2)
      .done e' (if bad then s.cirBlk u 0 else s)
    else
      let x := accLdGlobal u va e s (n / 32)
      match x.1.fault, x.1.ask with
      | some f, _ => .fault f.1 f.2 (s.keepPages u g x.1.s x.1.entry)
      | none, some q => .wait (s.matAsk u g x.1.s x.1.entry q.1 q.2.1 q.2.2)
      | none, none =>
        let t := x.1.s.accRow u r x.2
        .done x.1.entry.rowDone (if x.1.bad then t.cirBlk u 0 else t)
  | _ => .wait s

/-- Rows of an acc.* operation one after another. -/
def State.accRun (s : State) (u g : Nat) : Nat → State
  | 0 => s
  | n + 1 => match s.matHead u g with
    | none => s
    | some e =>
      if e.rows ≤ e.progress || e.asked.isSome then s
      else match s.accRowStep u g e with
        | .done e' s => State.accRun (s.setHead u g e') u g n
        | .wait t => t
        | .fault _ _ t => t

/-- ACC_OP_PERFORM (R257-R259, R270-R272): rows of the acc.* operation at the head of a group's queue; after the last one it
performs. -/
def State.accOpPerform (s : State) (u g rows : Nat) : State :=
  match s.matHead u g with
  | none => s
  | some e =>
    if e.kind == .mma || e.kind == .pair || !s.matReady u e then s
    else
      let s := (s.accGrant u).accRun u g (min rows (e.rows - e.progress))
      match s.matHead u g with
      | some e' => if e'.uid == e.uid && decide (e.rows ≤ e'.progress) then s.matDone u g e' else s
      | none => s

/-! ## Copies (R289-R299) -/

/-- Sectors of an entry. -/
def CopyEntry.total (e : CopyEntry) : Nat := e.rows * e.bytes / 32
/-- An entry has started. -/
def CopyEntry.begun (e : CopyEntry) : Bool := decide (0 < e.progress) || e.buf.isSome || e.sent || e.total == 0

/-- The copy entry that a reference names, when it may go on: entries of a queue start in issue order and wait behind a
suspended one; those that credit one object wait for each other (R289, R291, R303). -/
def State.copyAt (s : State) (r : EngRef) : Option CopyEntry :=
  let pick := fun (q : List CopyEntry) (n : Nat) =>
    match q[n]? with
    | none => none
    | some e =>
      let before := q.take n
      if e.susp.isNone && before.all (fun x => x.begun && x.susp.isNone && (e.mbar.isNone || x.mbar != e.mbar))
          && (e.begun && e.total != 0 || s.afterDone (e.after.filter (· != e.uid))) then some e else none
  match r with
  | .ld core n => pick (s.core core).ldq n
  | .st core n => pick (s.core core).stq n
  | .ch core c =>
    let x : Chan := mget {} (s.core core).chans c
    if x.busy && x.susp.isNone then x.entry.bind fun e => if e.susp.isNone then some e else none else none
  | .mat _ _ => none

/-- Replace or remove (none) a copy entry. -/
def State.putCopy (s : State) (r : EngRef) (e : Option CopyEntry) : State :=
  let put := fun (q : List CopyEntry) (n : Nat) => q.take n ++ e.toList ++ q.drop (n + 1)
  match r with
  | .ld core n => let c := s.core core
                  s.setCore core { c with ldq := put c.ldq n }
  | .st core n => let c := s.core core
                  s.setCore core { c with stq := put c.stq n }
  | .ch core k => let c := s.core core
                  let x : Chan := mget {} c.chans k
                  s.setCore core { c with chans := mset {} c.chans k { x with entry := e } }
  | .mat _ _ => s

/-- The VA of an entry's sector (R293, R298). -/
def CopyEntry.sectorVa (e : CopyEntry) (i : Nat) : Nat :=
  if e.rows ≤ 1 then (e.va + 32 * i) % 2 ^ 64
  else (e.va + (32 * i / e.bytes) * e.stride + 32 * i % e.bytes) % 2 ^ 64

/-- A sector of an entry after its write at every destination: its bytes are counted for each, and its requests, of class 1 or for context
0 of class 3, may be late (R289, R392, R405). -/
def State.copyNext (s : State) (r : EngRef) (e : CopyEntry) : State :=
  let ctx := (s.blk e.blk).ctx
  let core := ((s.blk e.blk).core).getD 0
  let n := 32 * if e.kind == .tile then e.wrote.length else 1
  (((s.putCopy r (some { e with progress := e.progress + 1, buf := none, wrote := [], sent := false, hold := none, at_ := none })).count
    ctx 0x0F n).unitAdd core 20 n).late ctx core 21 (copyClass ctx) e.since 2

/-- The element step of cp.red over a sector (R294). -/
def redSector (ty : RedTy) (old src : List Byte) : List Byte :=
  let n := match ty with
    | .bf16 => 2
    | _ => 4
  (List.range (32 / n)).flatMap fun i =>
    let a := leNat ((old.drop (n * i)).take n)
    let b := leNat ((src.drop (n * i)).take n)
    leBytes n (match ty with
      | .f32 => (fadd .f32 Env.rne a b).1
      | .bf16 => (fadd .bf16 Env.rne a b).1
      | .s32 => a + b)

/-- The element type code of a reducing write (R366). -/
def redCode : RedTy → Nat
  | .f32 => 0 | .bf16 => 1 | .s32 => 2

/-- A receiver of a sector that has not yet been written, any of them (R298). -/
def State.nextRole (s : State) (e : CopyEntry) : Option (Nat × Nat) :=
  let left := e.roles.filterMap fun r => if e.wrote.contains r then none else (s.roleBlk e.blk r).map fun d => (r, d)
  left[Config.freeNat (pairNat s.fresh 17) % max 1 left.length]?

/-- A cp.ld or cp.tile sector goes to one receiver; bytes are credited sector by sector, or whole row by whole row (R293, R298). -/
def State.deliverSector (s : State) (r : EngRef) (e : CopyEntry) (bs : List Byte) (bad : Bool) : State :=
  let i := e.progress
  match (match e.kind with
    | .tile => s.nextRole e
    | _ => some ((s.blk e.blk).role, e.blk)) with
  | none => s.copyNext r e
  | some (role, d) =>
    let s := { s.bmEngine d (e.bm + 32 * i) bs bad with fresh := s.fresh + 1 }
    let s := match e.mbar, e.kind with
      | some a, .tile => if 32 * (i + 1) % e.bytes = 0 then s.mbarCredit d a e.bytes else s
      | some a, _ => s.mbarCredit d a 32
      | none, _ => s
    let e' := { e with wrote := role :: e.wrote, buf := some (bs, bad) }
    if e.kind != .tile || (s.nextRole e').isNone then s.copyNext r e' else s.putCopy r (some e')

/-- A sector from global memory to block memory. -/
def State.sectorIn (s : State) (r : EngRef) (e : CopyEntry) : State :=
  match e.buf with
  | some (bs, bad) => s.deliverSector r e bs bad
  | none =>
    match s.engLoad (copyClass (s.blk e.blk).ctx) e.blk (e.sectorVa e.progress) 32 e.pages with
    | .ok d s =>
      let e := { e with pages := d.pages, maxStamp := max e.maxStamp d.stamp }
      match d.ask with
      | some ph =>
        (s.sendReq 0 ph e.uid (s.blk e.blk).ctx (copyClass (s.blk e.blk).ctx) (enables ph.off 32) (histOf d.at_) false false e.floor []).2.putCopy r
          (some { e with sent := true, at_ := d.at_ })
      | none => s.deliverSector r e d.bytes d.poison
    | _ => s

/-- The last sector of an entry with a release waits for the markers (R256, R293, R335). -/
def State.copyMarkers (s : State) (r : EngRef) (e : CopyEntry) : Option State :=
  if e.progress + 1 == e.total && needsMarkers e.rel then
    match e.markers with
    | none =>
      let G := s.grp e.blk e.grp
      let s := s.setGrp e.blk e.grp { G with dests := (G.dests ++ e.devs).eraseDups }
      let m := s.sendMarkers e.blk e.grp e.uid
      some (m.2.putCopy r (some { e with markers := some m.1 }))
    | some [] => none
    | some _ => some s
  else none

/-- A sector from block memory to global memory (R293, R294). -/
def State.sectorOut (s : State) (r : EngRef) (e : CopyEntry) : State :=
  match s.copyMarkers r e with
  | some s => s
  | none =>
    let i := e.progress
    let b := s.blk e.blk
    let a := e.bm + 32 * i
    let src := rdBytes b.bm a 32
    let bad := mget false b.bmPoison (a / 32)
    let last := e.rel.isSome && i + 1 == e.total
    let floor := if last then max e.floor e.maxStamp else e.floor
    let red := match e.kind with
      | .red ty => some ty
      | _ => none
    let new := fun old => match red with
      | some ty => redSector ty old src
      | none => src
    match s.engStore (copyClass b.ctx) e.blk (e.sectorVa i) 32 new bad red.isSome last floor e.hold e.at_ e.pages with
    | .ok d s =>
      let e := { e with pages := d.pages, maxStamp := max e.maxStamp d.stamp, saw := e.saw ++ d.saw }
      match d.ask, d.hold with
      | some ph, _ =>
        let t := s.sendReq (if red.isSome then 3 else 1) ph e.uid b.ctx (copyClass b.ctx)
          (match red with
            | some ty => leBytes 4 (redCode ty)
            | none => enables ph.off 32) (histOf d.at_) last bad floor src
        (t.2.addSent e.blk e.grp ph.peer t.1).putCopy r (some { e with sent := true, at_ := d.at_, devs := (ph.peer :: e.devs).eraseDups })
      | none, some h => s.putCopy r (some { e with hold := some h, at_ := d.at_ })
      | none, none => s.copyNext r e
    | .wait t => s.stalled t
    | .fault _ => s

/-- COPY_SECTOR_WRITE (R289, R290, R293-R298). -/
def State.copySector (s : State) (r : EngRef) : State :=
  match s.copyAt r with
  | none => s
  | some e =>
    if e.sent || decide (e.total ≤ e.progress) then s
    else match e.kind with
      | .ld | .tile => s.sectorIn r e
      | _ => s.sectorOut r e

/-- COPY_ENTRY_PERFORM (R281, R289, R290): an entry whose sectors all stand written leaves its queue and its token. A chain's
transfer is finished by CHAIN_RECORD. -/
def State.copyPerform (s : State) (r : EngRef) : State :=
  match r, s.copyAt r with
  | .ch _ _, _ => s
  | _, none => s
  | _, some e =>
    if e.progress < e.total then s
    else
      let s := s.putCopy r none
      let s := if e.rel.isSome then (s.releaseFloor e.blk e.grp (e.rel.getD .dev)).emptyDests e.blk e.grp e.rel else s
      (s.coverAdd e.blk e.grp e.tok e.maxStamp e.devs e.saw).tokenSub e.blk e.grp e.tok

/-! ## Transfer chains (R300-R302) -/

/-- A transfer record, as its 64 bytes give it: none where a field is outside R301 or a check of R296 fails. Its transfer has a tag of its
own (R295), and its page has been counted with the record (R314). -/
def recEntry (s : State) (x : Chan) (bs : List Byte) : Option (CopyEntry × Nat) :=
  let n := fun a k => leNat ((bs.drop a).take k)
  let b := s.blk x.blk
  let next := n 0 8
  let kind := n 24 1
  let mb := n 26 2
  let scratch := b.scratch * 1024
  if next % 64 = 0 ∧ kind ≤ 4 ∧ n 25 1 ≤ 1 ∧ n 20 4 ≠ 0 ∧ n 20 4 % 32 = 0 ∧ n 8 8 % 32 = 0 ∧ n 16 4 % 32 = 0
      ∧ n 16 4 + n 20 4 ≤ scratch ∧ (kind = 0 ∨ mb = 0xFFFF) ∧ (mb = 0xFFFF ∨ mb * 16 + 16 ≤ scratch)
      ∧ ((bs.drop 28).all fun c => c == 0#8) = true then
    some ({ since := s.tick, uid := s.fresh, blk := x.blk, grp := x.grp, tok := x.tok, va := n 8 8, bm := n 16 4, bytes := n 20 4
            kind := match kind with
              | 0 => .ld | 1 => .st | 2 => .red .f32 | 3 => .red .bf16 | _ => .red .s32
            mbar := if mb = 0xFFFF then none else some (mb * 16)
            floor := max x.floor x.maxStamp, roles := [b.role]
            pages := [x.recVa / 4096 * 4096] }, next)
  else none

/-- Replace a channel. -/
def State.setChan (s : State) (core ch : Nat) (x : Chan) : State :=
  let c := s.core core
  s.setCore core { c with chans := mset {} c.chans ch x }

/-- The end of a walk (R302). -/
def State.chainEnd (s : State) (core ch : Nat) (x : Chan) : State :=
  let s := s.setChan core ch { x with busy := false, entry := none }
  (s.coverAdd x.blk x.grp x.tok x.maxStamp x.devs x.saw).tokenSub x.blk x.grp x.tok

/-- The record of a channel, sector by sector: read at once, or asked of a peer (R302). The poison of its first sector, which holds the
owner byte, is told apart (`bad0`); the page of a record counts once, its transfer's data with it (R314). -/
def State.recSectors (s : State) (core ch : Nat) (x : Chan) (pages : List Nat) (xl : Xlat) : Nat → EngR (EngData × Bool)
  | 0 => .wait s
  | n + 1 =>
    if 64 ≤ x.rcd.length then .ok (⟨x.rcd, x.bad, x.maxStamp, [], none, none⟩, x.bad0) s
    else
      let cls := copyClass (s.blk x.blk).ctx
      match s.engRead cls x.blk x.recVa x.rcd.length 32 pages xl with
      | .ok d t => match d.ask with
        | some ph =>
          .wait ((t.sendReq 0 ph x.uid (t.blk x.blk).ctx cls (enables ph.off 32) (histOf d.at_) false false x.floor []).2.setChan core ch
            { x with at_ := d.at_ })
        | none => t.recSectors core ch { x with rcd := x.rcd ++ d.bytes, bad := x.bad || d.poison, maxStamp := max x.maxStamp d.stamp
                                                bad0 := if x.rcd.isEmpty then d.poison else x.bad0 } d.pages xl n
      | .wait t => .wait t
      | .fault c => .fault c

/-- What is still to be read of a record, under one translation: its sectors lie in one page (R301). -/
def State.recRead (s : State) (core ch : Nat) (x : Chan) (pages : List Nat) : EngR (EngData × Bool) :=
  if x.at_.isSome then .wait s
  else if 64 ≤ x.rcd.length then s.recSectors core ch x pages ⟨⟨0, 0, 0⟩, 0, 0, 0⟩ 1
  else match s.engXlat x.blk x.recVa pages with
    | .ok xl t => t.recSectors core ch x pages xl 3
    | .wait t => .wait t
    | .fault c => .fault c

/-- CHAIN_RECORD (R302): a record is read as a device-scope acquire, or, once its transfer has performed, given back with a
device-scope release. A fault on the record is left to ENGINE_FAULT. -/
def State.chainRecord (s : State) (core ch : Nat) : State :=
  let x : Chan := mget {} (s.core core).chans ch
  if !x.busy || x.susp.isSome then s
  else match x.entry with
    | none =>
      if !s.afterDone (x.after.filter (· != x.uid)) then s
      else match s.recRead core ch x (if x.rcd.isEmpty then [] else [x.recVa / 4096 * 4096]) with
        | .wait t => t
        | .ok (d, bad0) s =>
          let floors := max (s.blk x.blk).floor (s.team (s.blk x.blk).team).floor
          let x := { x with maxStamp := max x.maxStamp (max d.stamp floors), rcd := [], bad := false, bad0 := false }
          if bad0 then (s.cirBlk x.blk 0).chainEnd core ch { x with error := true }
          else if leNat ((d.bytes.drop 25).take 1) % 2 = 0 then s.chainEnd core ch x
          else if d.poison then (s.cirBlk x.blk 0).chainEnd core ch { x with error := true }
          else match recEntry s x d.bytes with
            | none => s.chainEnd core ch { x with error := true }
            | some (e, next) =>
              let s := match e.kind with
                | .red _ => s.loseInterval x.blk
                | _ => s
              { s with fresh := s.fresh + 1 }.setChan core ch { x with entry := some e, next := next }
        | .fault _ => s
    | some e =>
      let onward := fun (s : State) (st : Nat) =>
        let x := { x with maxStamp := max x.maxStamp (max e.maxStamp st), devs := (x.devs ++ e.devs).eraseDups, saw := x.saw ++ e.saw }
        let s := s.releaseFloor x.blk x.grp .dev
        if x.next = 0 then s.chainEnd core ch x
        else s.setChan core ch { x with entry := none, recVa := x.next }
      let floor := max e.floor (max x.maxStamp e.maxStamp)
      if e.susp.isSome || e.sent || decide (e.progress < e.total) then s
      else if e.given then onward s 0
      else match s.engStore (copyClass (s.blk x.blk).ctx) x.blk (x.recVa + 25) 1 (fun _ => [0#8]) false false true floor e.hold e.at_ [x.recVa / 4096 * 4096] with
        | .ok d s =>
          (match d.hold, d.ask with
            | some h, _ => s.setChan core ch { x with entry := some { e with hold := some h, at_ := d.at_ } }
            | none, some ph =>
              let t := s.sendReq 1 ph e.uid (s.blk x.blk).ctx (copyClass (s.blk x.blk).ctx) (enables ph.off 1) (histOf d.at_) true false floor [0#8]
              (t.2.addSent x.blk x.grp ph.peer t.1).setChan core ch { x with entry := some { e with
                sent := true, at_ := d.at_, devs := (ph.peer :: e.devs).eraseDups } }
            | none, none => onward s d.stamp)
        | .wait t => s.stalled t
        | .fault _ => s

/-! ## Engine faults (R268, R291) -/

/-- The fault that a copy entry's next sector meets. -/
def State.copyFault (s : State) (e : CopyEntry) : Option Cause :=
  if e.sent || e.at_.isSome || e.buf.isSome || decide (e.total ≤ e.progress) then none
  else
    let va := e.sectorVa e.progress
    let acc : Acc := match e.kind with
      | .ld | .tile => .load
      | _ => .store
    match (s.translate (((s.blk e.blk).core).getD 0) (s.blk e.blk).ctx va acc (s.mayCache (if acc == .load then 13 else 15))).1 with
    | .error (c, _) => some { code := c, va := va }
    | .ok _ => none

/-- Poison met by a walk (R308). -/
def State.faultPoison (s : State) (u va : Nat) (acc : Acc) : State :=
  match (s.translate (((s.blk u).core).getD 0) (s.blk u).ctx va acc false).1 with
  | .error (_, true) => s.cirBlk u 0
  | _ => s

/-- ENGINE_FAULT (R268, R291): the entry suspends with its progress; a pass releases its arrays. -/
def State.engineSuspend (s : State) (r : EngRef) : State :=
  match r with
  | .mat u g =>
    match s.matHead u g with
    | none => s
    | some e =>
      let f := match e.kind with
        | .mma | .pair => if e.started && e.susp.isNone && e.asked.isNone && decide (e.progress < e.depth / 32) then
            (match s.passChunk u g e with
              | .fault c va t => some (c, va, t)
              | _ => none) else none
        | _ => if s.matReady u e && e.asked.isNone && decide (e.progress < e.rows) then (match s.accRowStep u g e with
            | .fault c va t => some (c, va, t)
            | _ => none) else none
      match f with
      | none => s
      | some (c, va, t) =>
        let s := t.faultPoison u va (if e.kind == .st then .store else .load)
        (s.setHead u g { (s.matHead u g).getD e with susp := some { code := c, va := va }, started := false }).freeArrays u g
  | .ch core ch =>
    let x : Chan := mget {} (s.core core).chans ch
    if !x.busy || x.susp.isSome then s
    else match x.entry with
      | some e =>
        if e.susp.isSome || e.sent || e.at_.isSome || e.given then s
        else if e.progress < e.total then (match s.copyFault e with
          | some f => (s.faultPoison e.blk f.va .load).putCopy r (some { e with susp := some f })
          | none => s)
        else (match (s.translate core (s.blk x.blk).ctx (x.recVa + 25) .store (s.mayCache 15)).1 with
          | .error (c, _) => (s.faultPoison x.blk x.recVa .store).setChan core ch { x with susp := some { code := c, va := x.recVa + 25 } }
          | .ok _ => s)
      | none => if !s.afterDone (x.after.filter (· != x.uid)) || x.at_.isSome || !x.rcd.isEmpty then s else
        (match (s.translate core (s.blk x.blk).ctx x.recVa .load (s.mayCache 13)).1 with
          | .error (c, _) => (s.faultPoison x.blk x.recVa .load).setChan core ch { x with susp := some { code := c, va := x.recVa } }
          | .ok _ => s)
  | _ => match s.copyAt r with
    | none => s
    | some e => match s.copyFault e with
      | some f => (s.faultPoison e.blk f.va .load).putCopy r (some { e with susp := some f })
      | none => s

/-! ## The steps -/

/-- MATRIX_ARBITRATION (R261). -/
def execMatrixArbitration (core : Nat) (s : State) : Res := .next (s.arbitrate core)
/-- PASS_PERFORM (R266). -/
def execPassPerform (blk grp chunks : Nat) (s : State) : Res := .next (s.passPerform blk grp chunks)
/-- ACC_OP_PERFORM (R270, R272). -/
def execAccOpPerform (blk grp rows : Nat) (s : State) : Res := .next (s.accOpPerform blk grp rows)
/-- ENGINE_FAULT (R268, R291). -/
def execEngineFault (e : EngRef) (s : State) : Res := .next (s.engineSuspend e)
/-- COPY_SECTOR_WRITE (R289). -/
def execCopySectorWrite (e : EngRef) (s : State) : Res := .next (s.copySector e)
/-- COPY_ENTRY_PERFORM (R289). -/
def execCopyEntryPerform (e : EngRef) (s : State) : Res := .next (s.copyPerform e)
/-- CHAIN_RECORD (R302). -/
def execChainRecord (core ch : Nat) (s : State) : Res := .next (s.chainRecord core ch)

end Sys2Proof.Machine
end

