-- ==== Sys2Proof/Machine/Mitten.lean ====
section
/-! DEFINITION. The mitten: what the shadow unit computes beside an adder, a multiplier, an FMA pipe or a column adder of the array, and
when its result and the main unit's do not match (R52, R53). -/

namespace Sys2Proof.Machine

/-! ## The shadow result (R52) -/

/-- A value truncated toward zero to 8 significand bits; the exponent is unbounded. -/
def trunc8 : FVal → FVal
  | .fin n m e =>
    let k := Nat.log2 m - 7
    .fin n (m / 2 ^ k) (e + k)
  | v => v

/-- What a shadowed unit is given, after any fz flush: the operands of an addition, a multiplication or an FMA, or the terms of a step
of a column adder. -/
inductive ShadowOp where
  | add (a b : FVal)
  | mul (a b : FVal)
  | fma (a b d : FVal)
  | sum (terms : List FVal)
  deriving DecidableEq, Repr

/-- The terms that are added, each operand first changed by `f`. -/
def ShadowOp.terms (f : FVal → FVal) : ShadowOp → List FVal
  | .add a b => [f a, f b]
  | .mul a b => [mulTerm (f a) (f b)]
  | .fma a b d => [mulTerm (f a) (f b), f d]
  | .sum ts => ts.map f

/-- The least exponent of the finite values of a list. -/
def leastExp (ts : List FVal) : Int :=
  ts.foldl (fun q t => match t with
    | .fin _ _ e => min q e
    | _ => q) 0

/-- A finite value in units of 2^q, for q at most its exponent. -/
def FVal.units (q : Int) : FVal → Int
  | .fin n m e => toUnits n m e q
  | _ => 0

/-- The exact sum of terms with an unbounded exponent; a NaN, or infinities of both signs, give NaN. -/
def sumTerms (ts : List FVal) : FVal :=
  let pos := ts.any (· == .inf false)
  let neg := ts.any (· == .inf true)
  if ts.any FVal.isNan || (pos && neg) then .nan false
  else if pos then .inf false
  else if neg then .inf true
  else
    let q := leastExp ts
    let k : Int := ts.foldl (fun (n : Int) t => n + t.units q) 0
    .fin (decide (k < 0)) k.natAbs q

/-- The shadow result: operands truncated, the sum of their terms, truncated (R52). -/
def ShadowOp.shadow (o : ShadowOp) : FVal := trunc8 (sumTerms (o.terms trunc8))

/-! ## The comparison (R53) -/

/-- An infinity, and a finite value. -/
def FVal.isInf : FVal → Bool
  | .inf _ => true
  | _ => false
def FVal.isFin : FVal → Bool
  | .fin _ _ _ => true
  | _ => false

/-- Special classes are equal: NaN, +∞, −∞, finite. -/
def sameClass : FVal → FVal → Bool
  | .nan _, .nan _ => true
  | .inf a, .inf b => a == b
  | .fin _ _ _, .fin _ _ _ => true
  | _, _ => false

/-- Main and shadow results do not match: their classes differ, or finite ones differ by more than 2^−5 of the largest magnitude among
the terms and the main result. A main result that overflows from finite terms counts as finite, with its unrounded-range value: it is
given so, and an infinity there is no difference of classes. -/
def ShadowOp.mismatch (o : ShadowOp) (main : FVal) : Bool :=
  let sh := o.shadow
  if main.isInf && (o.terms id).all FVal.isFin then false
  else if !sameClass main sh then true
  else match main with
    | .fin _ _ _ =>
      let ts := main :: o.terms id
      let q := leastExp (sh :: ts)
      let top := ts.foldl (fun n t => max n (t.units q).natAbs) 0
      decide (top < 32 * (main.units q - sh.units q).natAbs)
    | _ => false

/-! ## Which unit it stands beside (R52) -/

/-- How many operands a shadowed pipe takes and what it does with them. -/
inductive Pipe where
  | add | sub | mul | fma
  deriving DecidableEq, Repr

/-- The pipe of an instruction: format, whether packed, and its fields D, A, B; F64, integer, fun and conversion pipes have no shadow. -/
def pipeOf : Instr → Option (Pipe × Fmt × Bool × VReg × VReg × VReg)
  | .faddF32 d a b _ => some (.add, .f32, false, d, a, b)
  | .fsubF32 d a b _ => some (.sub, .f32, false, d, a, b)
  | .fmulF32 d a b _ => some (.mul, .f32, false, d, a, b)
  | .ffmaF32 d a b _ => some (.fma, .f32, false, d, a, b)
  | .faddF16x2 d a b _ => some (.add, .f16, true, d, a, b)
  | .fsubF16x2 d a b _ => some (.sub, .f16, true, d, a, b)
  | .fmulF16x2 d a b _ => some (.mul, .f16, true, d, a, b)
  | .ffmaF16x2 d a b _ => some (.fma, .f16, true, d, a, b)
  | .faddBf16x2 d a b _ => some (.add, .bf16, true, d, a, b)
  | .fsubBf16x2 d a b _ => some (.sub, .bf16, true, d, a, b)
  | .fmulBf16x2 d a b _ => some (.mul, .bf16, true, d, a, b)
  | .ffmaBf16x2 d a b _ => some (.fma, .bf16, true, d, a, b)
  | _ => none

/-- The operands of a pipe as its unit meets them. -/
def pipeOp (p : Pipe) (f : Fmt) (env : Env) (a b d : Nat) : ShadowOp :=
  let v := fun x => unpack f (flushIn f env.fz x)
  match p with
  | .add => .add (v a) (v b)
  | .sub => .add (v a) (v b).neg
  | .mul => .mul (v a) (v b)
  | .fma => .fma (v a) (v b) (v d)

/-- The lanes of a group that stand at a PC. -/
def Group.standing (G : Group) (pc : Nat) : List Nat := G.full.filter fun L => (G.lane L).issuable && (G.lane L).pc == pc

/-- What the vector unit of a lane's next instruction is given, low or high element; none where that is no shadowed instruction, or where
a memo hit executes no pipe (R53). -/
def State.laneOp (s : State) (u g L : Nat) (hi : Bool) : Option ShadowOp :=
  let b := s.blk u
  let G := b.grp g
  let l := G.lane L
  let core := b.core.getD 0
  match s.fetch u l.pc with
  | .fault _ _ => none
  | .ok w _ => match decode w.1 w.2 with
    | .error _ => none
    | .ok i => (pipeOf i).bind fun x =>
      let uses : Uses := { vsrc := [(x.2.2.2.2.1, 1), (x.2.2.2.2.2, 1)]
                           dsrc := if x.1 == .fma then some (x.2.2.2.1, 1) else none, vdst := some (x.2.2.2.1, 1) }
      let run := G.standing l.pc
      let c : Cur := ⟨u, g, run, w.1, w.2, l.pc, core, b.quarterOf g, none⟩
      let is : Issue := ⟨c, run, (popPorts b.ports uses.pops).1, s.fresh, s.cycleOf core⟩
      let args := readArgs b.A is.now G is uses
      let hit := memoRun G uses run && (memoLookup s c (pureKey { uses := uses, lat := 4, fpcr := true } c G args run) true).1.isSome
      if hit || !run.contains L || l.inactive || (hi && !x.2.2.1) then none
      else
        let e := fun n => if x.2.2.1 then elem (arg (args L) n) hi else (arg (args L) n).toNat
        some (pipeOp x.1 x.2.1 (envOf G.fpcr) (e 0) (e 1) (e 2))

/-- The terms of a step of a pass at one accumulator element (R48, R49): the products, scaled, and the accumulator where it is added. A
NaR operand or scale makes the step's products one NaN. -/
def stepTerms (e : MatEntry) (j m n : Nat) (a b : List Nat) (x : Word) : List FVal :=
  let acc := if e.ow && j == 0 then [] else [unpack .f32 x.toNat]
  let ea := scaleOf e.scA e.depth m j
  let eb := scaleOf e.scB e.depth n j
  let at_ := fun (k : Int) (q : Int) => FVal.fin (decide (k < 0)) k.natAbs q
  let nar := ea == 255 || eb == 255
  (match e.a.fmt with
    | .bf16 | .f16 => (a.zip b).map fun p => mulTerm (unpack (MatFmt.fmt e.a.fmt) p.1) (unpack (MatFmt.fmt e.b.fmt) p.2)
    | .m8 => (match m8Products (a.zip b) with
      | some ts => if nar then [.nan false] else ts.map fun t => at_ (sgnInt t.1 t.2) ((ea : Int) + eb - 254 - 42)
      | none => [.nan false])
    | f => if nar then [.nan false] else (a.zip b).map fun p => at_ (intByte (f == .s8) p.1 * intByte (e.b.fmt == .s8) p.2) ((ea : Int) + eb - 254)) ++ acc

/-- What a column adder is given at the next step of the pass at the head of a group's queue, for row m and column n; none where there is
no such step. -/
def State.passOp (s : State) (u g m n : Nat) : Option ShadowOp :=
  match s.matHead u g with
  | none => none
  | some e =>
    if (e.kind != .mma && e.kind != .pair) || !e.started || e.susp.isSome || decide (e.depth / 32 ≤ e.progress) || decide (e.m ≤ m)
      || decide (128 ≤ n) then none
    else
      let A := rowRead u e.a false m e.progress { s := s, entry := e }
      let B := rowRead u e.b true n e.progress { A with bytes := [], bad := false }
      if B.fault.isSome || B.ask.isSome || A.bad || B.bad then none
      else
        let dst := if m < 64 then some u else s.follower u
        let x := (dst.map fun d => (s.blk d).accAt (e.row + m % 64) n).getD 0#32
        some (.sum (stepTerms e e.progress m n (elems e.a.fmt A.bytes) (elems e.b.fmt B.bytes) x))

/-- What the unit at a place is given. -/
def State.unitOp (s : State) (u : Nat) : Site → Option ShadowOp
  | .lane g L hi => s.laneOp u g L hi
  | .pass g m n => s.passOp u g m n

/-- A unit's result as the event gives it. -/
def UnitVal.val : UnitVal → FVal
  | .nan => .nan false
  | .inf n => .inf n
  | .fin n m e => .fin n m e

/-- The mitten declares a mismatch at a place of a block: its unit is at work, and its result is this one (R53). -/
def State.mittenAt (s : State) (u : Nat) (site : Site) (main : UnitVal) : Bool :=
  match s.unitOp u site with
  | some o => o.mismatch (UnitVal.val main)
  | none => false

end Sys2Proof.Machine
end

