-- ==== Sys2Proof/Machine/Place.lean ====
section
/-! DEFINITION. Placement: which head a core pops, the cores of a team, admission and re-admission, reservation, heat
(R14, R19, R25, R113, R122-R126, R131, R138-R142, R148, R357). -/

namespace Sys2Proof.Machine

/-! ## Room on cores (R19, R20, R123) -/

/-- What a block needs of a core. -/
structure Need where
  groups  : Nat
  A       : Nat
  scratch : Nat
  acc     : Bool
  /-- Suspended copies that it brings: entries of the two queues, channels (R114, R288). -/
  ld      : Nat := 0
  st      : Nat := 0
  chans   : List Nat := []
  deriving DecidableEq, Repr

/-- The blocks that occupy a core. -/
def State.onCore (s : State) (n : Nat) : List (Nat × Block) := s.blocks.filter fun b => b.2.live && b.2.core == some n

/-- Groups of a lane count (R17). -/
def groupsOf (lanes : Nat) : Nat := (lanes + 31) / 32

/-- A core has what a block needs. -/
def State.room (s : State) (n : Nat) (d : Need) : Bool :=
  let bs := s.onCore n
  let gs := bs.foldl (fun k b => k + groupsOf b.2.lanes) 0
  let rs := bs.foldl (fun k b => k + groupsOf b.2.lanes * b.2.A) 0
  let ks := bs.foldl (fun k b => k + b.2.scratch) 0
  let here := fun (e : CopyEntry) => bs.any fun b => b.1 == e.blk
  decide (gs + d.groups ≤ 32) && decide (rs + d.groups * d.A ≤ Config.fileEntries) && decide (ks + d.scratch ≤ Config.scratchKiB)
    && (!d.acc || bs.all fun b => !b.2.accHeld)
    && decide (((s.core n).ldq.filter here).length + d.ld ≤ 16) && decide (((s.core n).stq.filter here).length + d.st ≤ 16)
    && d.chans.all fun ch => let x : Chan := mget {} (s.core n).chans ch
                             !x.busy || bs.all fun b => b.1 != x.blk

/-- A core may receive placement: its quadrant is neither quarantined nor under test (R14, R415). -/
def State.coreOpen (s : State) (n : Nat) : Bool :=
  !s.island.quarantine.getLsbD (n / 32) && (s.quad (n / 32)).testing.isNone

/-- The cores of a team from a router on: the i-th qualifying router hosts roles 4i to 4i + 3 (R25, R142). -/
def State.gangFrom (s : State) (quad t : Nat) (need : Nat → Need) (ok : Nat → Bool) : List Nat → Nat → List Nat → Option (List Nat)
  | [], first, got => if t ≤ first then some got else none
  | r :: rs, first, got =>
    if t ≤ first then some got
    else
      let roles := List.range (min 4 (t - first))
      let core := fun j => quad * 32 + r * 4 + j
      if roles.all fun j => ok (core j) && s.room (core j) (need (first + j))
      then State.gangFrom s quad t need ok rs (first + 4) (got ++ roles.map core)
      else State.gangFrom s quad t need ok rs first got

/-- How warm a router's cores for a team of t are: their largest temperature. -/
def State.routerHeat (s : State) (quad t r : Nat) : Nat :=
  (List.range (min 4 t)).foldl (fun m j => max m (s.core (quad * 32 + r * 4 + j)).temp) 0

/-- The cores of a team in a quadrant, role by role: of the routers with the lowest numbers, or, where hot cores may host it, of the
coolest (R125, R142; log entry 70). -/
def State.gang (s : State) (quad t : Nat) (need : Nat → Need) (ok : Nat → Bool) (hot : Bool) : Option (List Nat) :=
  let rs := List.range 8
  s.gangFrom quad t need ok (if hot then rs.sortBy fun a b => decide (s.routerHeat quad t a < s.routerHeat quad t b)
    || (s.routerHeat quad t a == s.routerHeat quad t b && decide (a ≤ b)) else rs) 0 []

/-! ## Heads (R115, R121, R122, R126) -/

/-- A queue may be popped: its state, its context's, and something to pop (R96, R117, R134). DESIGN CHOICE (log entry 91): an evicted block
that joined the list of a queue that is idle stays there until the queue is armed (R126). -/
def State.mayPop (s : State) (ctx h : Nat) : Bool :=
  let q := s.queue h
  let c := s.ctx ctx
  let live := c.state == .defined || c.state == .resident
  (if 256 ≤ h then live || c.state == .killing else live && (q.st == .armed || q.st == .draining))
    && (!q.resume.isEmpty || q.occ != 0 || !q.recs.isEmpty)

/-- Contexts with a block on a core. -/
def State.residents (s : State) : List Nat :=
  ((s.blocks.filter fun b => b.2.live && b.2.core.isSome).map fun b => b.2.ctx).eraseDups

/-- A context may take a block: it is resident, or fewer than 64 are (R95, R96). -/
def State.mayReside (s : State) (ctx : Nat) : Bool :=
  s.residents.contains ctx || decide (s.residents.length < Config.residentMax)

/-- The head of a queue. -/
inductive Head where
  /-- Evicted blocks of one team, and their need. -/
  | team (us : List Nat)
  /-- A record, the stamp its slot's read returned, and whether it is the queue's current one. -/
  | record (r : Rec) (stamp : Nat)
  | invalid (r : Rec)
  | fault
  deriving DecidableEq, Repr

/-- The stamp that the read of a ring slot returns (R131, R230). -/
def State.slotStamp (s : State) (ctx va core : Nat) : Nat :=
  match (s.translate 0 ctx va .load (s.mayCache 12)).1 with
  | .error _ => 0
  | .ok x =>
    if x.phys.target = 0 then (s.loadLocal 0#256 x.phys.off 1 (bitOf x.leaf 4)).2.2
    else if x.phys.target = 2 then (s.slice (sliceOfCore core)).last
    else Config.freeNat (pairNat s.fresh 18)

/-- The head of a queue as the queue unit reads it; poisoned words are the poison word (R227). -/
def State.headOf (s : State) (ctx h core : Nat) : Option Head :=
  let q := s.queue h
  match q.resume with
  | u :: _ =>
    let t := (s.blk u).team
    some (.team (q.resume.filter fun v => (s.blk v).team == t))
  | [] =>
    if 256 ≤ h then q.recs.head?.map fun r => .record r 0
    else if q.occ = 0 then none
    else
      let va := q.slotVa q.head
      match s.devLoad ctx va 64 with
      | .error _ => some .fault
      | .ok (bs, bad) =>
        let r := recOf ((bytesWords bs).map fun w => if bad then poisonWord else w)
        if r.bad then some (.invalid r) else some (.record r (s.slotStamp ctx va core))

/-- What the blocks of a head need, role by role, and the team size. -/
def State.headNeed (s : State) : Head → Nat × (Nat → Need)
  | .team us =>
    let byRole := fun (r : Nat) => us.find? fun u => (s.blk u).role == r
    ((s.team (s.blk (us.headD 0)).team).size, fun r => match byRole r with
      | some u => let b := s.blk u
                  ⟨groupsOf b.lanes, b.A, b.scratch, b.accHeld, b.keptLd.length, b.keptSt.length, b.keptCh.map (·.1)⟩
      | none => ⟨0, 0, 0, false, 0, 0, []⟩)
  | .record r _ => (r.team, fun _ => ⟨groupsOf r.lanes, r.A, r.scratch, false, 0, 0, []⟩)
  | _ => (0, fun _ => ⟨0, 0, 0, false, 0, 0, []⟩)

/-! ## Which core pops, and where the team goes (R124, R125, R142) -/

/-- Kernels of a context running or ending (R139). -/
def State.openKernels (s : State) (ctx : Nat) : Nat :=
  (s.kernels.filter fun k => k.2.ctx == ctx && (k.2.state == .running || k.2.state == .ending)).length

/-- A quadrant is reserved for another head of the context, of this priority or above (R124). -/
def State.reservedAgainst (s : State) (ctx h quad prio : Nat) : Bool :=
  s.queues.any fun q => q.1 != h && q.2.bound == some ctx && q.2.reserved == some quad && decide (prio ≤ q.2.prio)

/-- A quadrant could host a head on cool cores alone: the reserved one, or any (R124, R125, R142). -/
def State.coolGang (s : State) (ctx h prio : Nat) (nd : Nat × (Nat → Need)) : Bool :=
  let ok := fun n => s.coreOpen n && !s.reservedAgainst ctx h (n / 32) prio && !(s.core n).hot
  (match (s.queue h).reserved with
    | some quad => [quad]
    | none => List.range 16).any fun quad => (s.gang quad nd.1 nd.2 ok false).isSome

/-- The order in which cores may pop one head: cool cores by number, or, where no cool core could host it, every core, the
coolest first (R124, R125). -/
def State.popOrder (s : State) (ctx h prio : Nat) (nd : Nat × (Nat → Need)) : Bool × List Nat :=
  let open_ := (List.range 512).filter fun n => s.coreOpen n && !s.reservedAgainst ctx h (n / 32) prio && s.room n (nd.2 0)
  if s.coolGang ctx h prio nd then (false, open_.filter fun n => !(s.core n).hot)
  else (true, open_.sortBy fun a b => decide ((s.core a).temp < (s.core b).temp) || ((s.core a).temp == (s.core b).temp && decide (a ≤ b)))

/-- The cores for the head of a queue when a core pops it: none when another core pops it, or no quadrant qualifies (R142). -/
def State.coresFor (s : State) (core ctx h : Nat) (hd : Head) : Option (List Nat) :=
  let q := s.queue h
  let prio := if 256 ≤ h then 7 else q.prio
  let nd := s.headNeed hd
  let ord := s.popOrder ctx h prio nd
  if ord.2.head? != some core then none
  else
    let ok := fun n => s.coreOpen n && !s.reservedAgainst ctx h (n / 32) prio && (ord.1 || !(s.core n).hot)
    match q.reserved with
    | some quad => s.gang quad nd.1 nd.2 ok ord.1
    | none => match s.gang (core / 32) nd.1 nd.2 ok ord.1 with
      | some cs => some cs
      | none => ((List.range 16).filterMap fun quad => s.gang quad nd.1 nd.2 ok ord.1).head?

/-! ## Admission (R19, R25, R142, R148, R410) -/

/-- The next slot on a core whose occupied slots are given: the quarter with the fewest, its lowest free slot (R19). -/
def nextSlot (occ : List Nat) : Nat :=
  let load := fun q => (occ.filter fun x => x / 8 == q).length
  let q := (List.range 4).foldl (fun m q => if load q < load m then q else m) 0
  q * 8 + (((List.range 8).filter fun x => !occ.contains (q * 8 + x)).headD 0)

/-- Slots for n groups. -/
def slotsFor : Nat → List Nat → List Nat
  | 0, _ => []
  | n + 1, occ => nextSlot occ :: slotsFor n (nextSlot occ :: occ)

/-- Occupied slots of a core. -/
def State.slotsUsed (s : State) (n : Nat) : List Nat := (s.onCore n).flatMap fun b =>
  (List.range (groupsOf b.2.lanes)).map fun g => mget 0 b.2.slots g

/-- A block takes its place on a core: slots by ascending group, its accumulator store where it holds one, its suspended
copies and the fences on them (R19, R114, R257, R303); the quadrant holds a block from now on (R415). -/
def State.seat (s : State) (u core : Nat) : State :=
  let b := s.blk u
  let sl := slotsFor (groupsOf b.lanes) (s.slotsUsed core)
  let s := s.setBlk u { b with core := some core, slots := sl.zipIdx.foldl (fun m x => mset 0 m x.2 x.1) []
                               opcache := [], evicting := false, keptLd := [], keptSt := [], keptCh := [], keptFences := [] }
  let s := s.setQuad (core / 32) { s.quad (core / 32) with busyAt := s.tick }
  let c := s.core core
  (s.setCore core { c with ldq := b.keptLd ++ c.ldq, stq := b.keptSt ++ c.stq, fences := c.fences ++ b.keptFences
                           chans := b.keptCh.foldl (fun m x => mset {} m x.1 x.2) c.chans }).accNext core

/-- The SYNC records of a group: one for each distinct PC of its lanes (R409, R410). -/
def State.traceSync (s : State) (u g : Nat) : State :=
  let b := s.blk u
  let G := b.grp g
  let live := G.full.filter fun L => (G.lane L).status != .ended
  let pcs := (live.map fun L => (G.lane L).pc).sortUp.eraseDups
  let s := s.setGrp u g { G with syncDue := false }
  pcs.zipIdx.foldl (fun s x => s.trace u g 0 (x.2 % 32 + 32 * (pcs.length % 64)) ((x.1 + 2 ^ 57 - b.code) % 2 ^ 32)
    (maskOf (live.filter fun L => (G.lane L).pc == x.1))) s

/-- A lane as it starts (R17, R148). -/
def startLane (lanes g code L : Nat) : Lane :=
  let n := g * 32 + L
  if n < lanes then { status := .active, pc := code, stack := mset 0#32 [] 0 (BitVec.ofNat 32 n) }
  else if n < (lanes + 3) / 4 * 4 then { status := .active, helper := true, pc := code, stack := mset 0#32 [] 0 (BitVec.ofNat 32 n) }
  else {}

/-- A group as it starts (R131, R148, R175); the floor is what its acquire found (R230). -/
def startGroup (lanes code g floor now : Nat) (k : SMap Word) : Group :=
  let G : Group := { live := true, k := k, floor := floor
                     lanes := (List.range 32).foldl (fun m L => mset {} m L (startLane lanes g code L)) [] }
  G.full.foldl (fun G L => G.enterRegion L code now) G

/-- The uniform registers a routine starts with (R357). -/
def routineRegs (e : Entry) : SMap Word :=
  let d := fun (v : Nat) => [BitVec.ofNat 32 v, BitVec.ofNat 32 (v / 2 ^ 32)]
  let ws : List Word := d e.arg.toNat ++ d e.start ++ d e.stamp ++ [BitVec.ofNat 32 e.handle]
  ws.zipIdx.foldl (fun m x => mset 0#32 m x.2 x.1) []

/-- A new block of a record. -/
def State.newBlock (s : State) (ctx h : Nat) (r : Rec) (kernel team role bid stamp : Nat) : Nat × State :=
  let u := s.fresh
  let ent := r.entry.bind fun x => s.vesper.find? fun (e : Entry) => e.uid == x
  let regs := match ent with
    | some e => routineRegs e
    | none => []
  let floor := match ent with
    | some e => max stamp e.stamp
    | none => stamp
  let b : Block := {
    live := true, ctx := ctx, kernel := kernel, team := team, role := role, bid := bid, lanes := r.lanes, A := r.A
    scratch := r.scratch, prio := r.prio, frame := r.frame, join := r.join, code := r.code, queue := h, age := u
    routine := r.entry
    groups := (List.range (groupsOf r.lanes)).foldl (fun m g => mset {} m g (startGroup r.lanes r.code g floor s.fresh regs)) [] }
  (u, { s with fresh := u + 1 }.setBlk u b)

/-- A binding table is filled, for every role of the team, and logged (R142). -/
def State.bind (s : State) (team : Nat) (us cores : List Nat) : State :=
  let t := s.team team
  let roles := us.map fun u => (s.blk u).role
  let s := s.setTeam team { t with
    blocks := (roles.zip us).foldl (fun m x => mset 0 m x.1 (x.2 + 1)) t.blocks
    cores := cores.zipIdx.foldl (fun m x => mset 0 m x.2 (x.1 + 1)) t.cores }
  { s with placeLog := s.placeLog ++ [⟨s.tick, cores.headD 0 / 32, t.ctx, cores⟩] }

/-- A context with a block on a core is resident (R96). -/
def State.reside (s : State) (ctx : Nat) : State :=
  let c := s.ctx ctx
  if c.state == .defined && s.residents.contains ctx then s.setCtx ctx { c with state := .resident }
  else if c.state == .resident && !s.residents.contains ctx then s.setCtx ctx { c with state := .defined }
  else s

/-- The record at a head becomes, or goes on as, a kernel (R138-R140, R146). -/
def State.startKernel (s : State) (ctx h : Nat) (r : Rec) : Nat × State :=
  let q := s.queue h
  if 0 < q.popped then (q.kernel, s)
  else
    let c := s.ctx ctx
    let k := s.fresh
    let K : Kernel := { state := .running, ctx := ctx, id := c.started % 65535, kind := if r.grid then 1 else 0, start := s.tick
                        wdog := c.wdog.toNat % 2 ^ 31, compVa := r.comp, teamsLeft := r.blocks / r.team }
    (k, ({ s with fresh := k + 1 }.setKernel k K).setCtx ctx { c with started := c.started + 1 })

/-- The queue after one team of a record was popped (R122). -/
def HwQueue.tookTeam (q : HwQueue) (h : Nat) (r : Rec) (kernel : Nat) : HwQueue :=
  let q := { q with since := none, reserved := none, kernel := kernel }
  if r.blocks ≤ q.popped + r.team then
    (if 256 ≤ h then { q with popped := 0, recs := q.recs.drop 1 } else ({ q with popped := 0, head := q.head + 1 }).settle)
  else { q with popped := q.popped + r.team }

/-- The blocks of a new team, seated role by role. -/
def State.newTeam (s : State) (ctx h : Nat) (r : Rec) (stamp : Nat) (cores : List Nat) : State :=
  let first := r.base + (s.queue h).popped
  let ks := s.startKernel ctx h r
  let k := ks.1
  let s := ks.2
  let team := s.fresh
  let s := { s with fresh := team + 1 }.setTeam team { live := true, ctx := ctx, kernel := k, size := r.team }
  let made := cores.zipIdx.foldl (fun (a : List Nat × State) x =>
    let nb := a.2.newBlock ctx h r k team x.2 (first + x.2) stamp
    (a.1 ++ [nb.1], nb.2.seat nb.1 x.1)) ([], s)
  let s := (made.2.bind team made.1 cores).setQueue h ((made.2.queue h).tookTeam h r k)
  let K := s.kernel k
  let s := s.setKernel k { K with teamsLeft := K.teamsLeft - 1 }
  let s := made.1.foldl (fun s u => (s.blk u).groups.foldl (fun s g => s.traceSync u g.1) s) s
  s.reside ctx

/-- A team is re-admitted (R126). -/
def State.readmit (s : State) (ctx h : Nat) (us cores : List Nat) : State :=
  let q := s.queue h
  let s := s.setQueue h ({ q with resume := q.resume.filter (fun u => !us.contains u), since := none, reserved := none }).settle
  let place := us.filterMap fun u => (cores[(s.blk u).role]?).map fun c => (u, c)
  let s := place.foldl (fun s x => s.seat x.1 x.2) s
  let s := s.bind (s.blk (us.headD 0)).team (place.map (·.1)) cores
  let c := s.ctx ctx
  let s := s.setCtx ctx { c with trcLast := place.foldl (fun m x => mset 0 m x.2 0) c.trcLast }
  let s := us.foldl (fun s u => (s.blk u).groups.foldl (fun s g => if g.2.live then s.traceSync u g.1 else s) s) s
  s.reside ctx

/-! ## Completion records (R141, R145) -/

/-- The 32 bytes of a completion record. -/
def completionBytes (status : Nat) (cir : Word) (start stop ended cut id : Nat) : List Byte :=
  leBytes 4 (2 ^ 31 + status) ++ leBytes 4 cir.toNat ++ leBytes 8 start ++ leBytes 8 stop
    ++ leBytes 4 (min ended 0xFFFFFFFF) ++ leBytes 2 (min cut 0xFFFF) ++ leBytes 2 id

/-- A completion record is stored with release at system scope; a VA that is no multiple of 32 faults. DESIGN CHOICE (log entry 92): it
belongs to no core, and the slice of core 0 stamps and holds it where it goes to host memory (R229). -/
def State.completion (s : State) (ctx : Nat) (kern : Option Nat) (floor va : Nat) (bs : List Byte) : DevR :=
  if va % 32 ≠ 0 then .fault 5 s else s.devStore ctx 0 kern va bs true floor

/-- The rest of a head that was partly popped is gone: its kernel has no team left (R122, R140). -/
def State.headGone (s : State) (q : HwQueue) : State :=
  if 0 < q.popped then (s.setKernel q.kernel { s.kernel q.kernel with teamsLeft := 0 }).kernelTry q.kernel else s

/-- An invalid record at the head is discarded (R121, R141), once its completion record, if it has one, can be written. -/
def State.discardInvalid (s : State) (ctx h : Nat) (r : Rec) : State :=
  let q := s.queue h
  let go := fun (t : State) => ((t.setQueue h ({ q with head := q.head + 1, popped := 0, since := none, reserved := none }).settle).headGone
    q).queueFault ctx h 2 3 (q.head.toNat % 2 ^ q.n) (q.slotVa q.head)
  if r.grid && r.comp != 0 && r.comp % 32 == 0 then
    (match s.completion ctx none 0 r.comp (completionBytes 3 0#32 0 0 0 0 0xFFFF) with
      | .ok t => go t
      | .wait t => s.stalled t
      | .fault _ t => go t)
  else go s

/-- A ring fault at a pop stops the queue (R117, R380). -/
def State.popFault (s : State) (ctx h : Nat) : State :=
  let q := s.queue h
  (s.setQueue h { q with st := .stopped }).queueFault ctx h 4 5 (q.head.toNat % 2 ^ q.n) (q.slotVa q.head)

/-! ## PLACEMENT_POP -/

/-- A core pops the head of one queue, if it can. -/
def State.popTry (s : State) (core ctx h : Nat) : Option State :=
  if !s.mayPop ctx h || !s.mayReside ctx then none
  else match s.headOf ctx h core with
    | none => none
    | some .fault => some (s.popFault ctx h)
    | some (.invalid r) => some (s.discardInvalid ctx h r)
    | some (.team us) => (s.coresFor core ctx h (.team us)).map fun cs => s.readmit ctx h us cs
    | some (.record r st) =>
      if (s.queue h).popped = 0 && decide (Config.kernelsMax ≤ s.openKernels ctx) then none
      else (s.coresFor core ctx h (.record r st)).map fun cs => s.newTeam ctx h r st cs

/-- The queues of a context in the order a core tries them: by priority, queues of equal priority in turn (R124, R134). -/
def State.queueOrder (s : State) (ctx : Nat) : List Nat :=
  let c := s.ctx ctx
  let prio := fun i => if i = 16 then 7 else (match s.queueOf ctx i with
    | some h => (s.queue h).prio
    | none => 0)
  [7, 6, 5, 4, 3, 2, 1, 0].flatMap fun p =>
    ((List.range 17).map fun j => (mget 0 c.rr p + j) % 17).filter fun i => prio i == p && (i == 16 || (s.queueOf ctx i).isSome)

/-- The hardware queue, or compensation queue, of an index. -/
def State.queueAt (s : State) (ctx i : Nat) : Nat := if i = 16 then 256 + ctx else (s.queueOf ctx i).getD 0

/-- The total residency of a context. -/
def Ctx.used (c : Ctx) : Nat := c.residency.foldl (fun t x => t + x.2) 0

/-- Contexts in the order in which they are offered cores: least residency for their weight first (R113). -/
def State.ctxOrder (s : State) : List Nat :=
  (s.ctxs.sortBy fun a b => decide (a.2.used * b.2.weight < b.2.used * a.2.weight)
    || (a.2.used * b.2.weight == b.2.used * a.2.weight && decide (a.1 ≤ b.1))).map (·.1)

/-- PLACEMENT_POP (R122-R126, R138-R142): nothing is popped unless the island is joined, nor while the module is stopped. -/
def State.placementPop (s : State) (core : Nat) : State :=
  if s.island.st != 3 || s.stopped then s
  else
    let tries := s.ctxOrder.flatMap fun c => (s.queueOrder c).map fun i => (c, i)
    match firstSome (fun x => (s.popTry core x.1 (s.queueAt x.1 x.2)).map fun t => (x, t)) tries with
    | none => s
    | some (x, t) =>
      let p := if x.2 = 16 then 7 else (s.queue (s.queueAt x.1 x.2)).prio
      t.setCtx x.1 { t.ctx x.1 with rr := mset 0 (t.ctx x.1).rr p ((x.2 + 1) % 17) }
def execPlacementPop (core : Nat) (s : State) : Res := .next (s.placementPop core)

/-- TEAM_RESERVATION (R124): the quadrant with the most cores that the head could use, the lowest among equals. -/
def State.reserve (s : State) (h : Nat) : State :=
  let q := s.queue h
  match q.bound, q.since, q.reserved with
  | some ctx, some t0, none =>
    if s.tick < t0 + (s.ctx ctx).tslice || !s.mayPop ctx h then s
    else match s.headOf ctx h 0 with
      | some hd =>
        let nd := s.headNeed hd
        let usable := fun quad => ((List.range 32).filter fun j => s.coreOpen (quad * 32 + j) && s.room (quad * 32 + j) (nd.2 0)).length
        let best := (List.range 16).foldl (fun m k => if usable m < usable k then k else m) 0
        s.setQueue h { q with reserved := some best }
      | none => s
  | _, _, _ => s
def execTeamReservation (hwq : Nat) (s : State) : Res := .next (s.reserve hwq)

/-- CORE_THERMAL_UPDATE (R125). -/
def heat (hot : Bool) (temp droop : Nat) : Bool :=
  if hot then !(decide (temp ≤ 88) && decide (droop < 16)) else decide (95 ≤ temp) || decide (64 ≤ droop)
def execCoreThermalUpdate (core temp droop : Nat) (s : State) : Res :=
  let c := s.core core
  .next (s.setCore core { c with hot := heat c.hot temp droop, temp := temp, droop := droop })

end Sys2Proof.Machine
end

