-- ==== Sys2Proof/Machine/Blocks.lean ====
section
/-! DEFINITION. Errors and rollback, eviction, the end of blocks, implicit decrements, kernels and the killing of contexts
(R53, R96, R97, R113, R114, R130, R140-R147, R190, R191, R360). -/

namespace Sys2Proof.Machine

/-! ## Work that a block has outstanding -/

/-- Copy entries of a block in its core's queues and channels: (suspended or behind a suspended entry, going). -/
def State.copiesOf (s : State) (u : Nat) : List CopyEntry :=
  match (s.blk u).core with
  | none => []
  | some n =>
    let c := s.core n
    (c.ldq ++ c.stq).filter (fun e => e.blk == u) ++ (c.chans.filter fun x => x.2.busy && x.2.blk == u).filterMap fun x => x.2.entry

/-- A channel of a block walks. -/
def State.chansOf (s : State) (u : Nat) : List (Nat × Chan) :=
  match (s.blk u).core with
  | none => []
  | some n => (s.core n).chans.filter fun x => x.2.busy && x.2.blk == u

/-- Every copy entry and matrix entry of a block has performed or been discarded (R144). -/
def State.enginesDone (s : State) (u : Nat) : Bool :=
  (s.copiesOf u).isEmpty && (s.chansOf u).isEmpty && (s.blk u).groups.all fun g => g.2.matq.isEmpty

/-- Entries of a queue that go on: those not suspended and not behind a suspended one. -/
def going (q : List CopyEntry) : List CopyEntry := q.takeWhile fun e => e.susp.isNone

/-- A channel is suspended. -/
def Chan.suspended (x : Chan) : Bool := x.susp.isSome || (x.entry.bind (·.susp)).isSome

/-- Every copy entry and matrix entry of a block has performed, where a suspended one counts as performed (R114, R268, R291). -/
def State.enginesStill (s : State) (u : Nat) : Bool :=
  (match (s.blk u).core with
    | none => true
    | some n => let c := s.core n
                (going c.ldq ++ going c.stq).all fun e => e.blk != u)
  && (s.chansOf u).all (fun x => x.2.suspended)
  && (s.blk u).groups.all fun g => match g.2.matq with
    | [] => true
    | e :: _ => e.susp.isSome

/-- The accesses of a block allow it to leave its core: loads have completed, stores are translated; granule waits and stores
that a full record queue holds back are kept (R114). -/
def State.accessesStill (s : State) (u : Nat) : Bool :=
  s.pend.all fun p => p.blk != u || p.done || (p.bm && p.fe) ||
    (match p.kind with
      | .store => p.bm || p.phys.isSome || decide (16 ≤ ((s.blk u).grp p.grp).sfq.length)
      | .atomic => p.dest.isEmpty && (p.bm || p.phys.isSome)
      | _ => false)

/-! ## Errors and rollback (R53, R190, R191) -/

/-- What refers to a bad physical register is marked: every block that reads it raises the error in turn (R190). -/
def State.markBad (s : State) (regs : List BadReg) : State :=
  regs.foldl (fun s r =>
    let b := s.blk r.blk
    let key := RegKey.v r.lane r.slot
    let at_ := ((b.grp r.grp).lane r.lane).region.at_
    s.setBlk r.blk (match r.place with
      | .map => { b with bad := ⟨r.grp, key, s.fresh, none⟩ :: b.bad }
      | .region => { b with bad := ⟨r.grp, key, at_, some (at_ + 1)⟩ :: b.bad }
      | .rollback => { b with interval := { b.interval with bad := ⟨r.grp, key, s.fresh, none⟩ :: b.interval.bad } })) s

/-- An error can be met: the mitten's, only where a shadowed unit of the block is at work and its result does not match (R53). -/
def State.errorMay (s : State) (u : Nat) : ErrKind → Bool
  | .ecc _ => true
  | .mitten site main => s.mittenAt u site main

/-- UNCORRECTABLE_ERROR (R190, R191): the block rolls back when its interval holds its flag; otherwise it is killed. An error
during a rollback starts it again. -/
def State.uncorrectable (s : State) (u : Nat) (kind : ErrKind) : State :=
  let s := match kind with
    | .ecc regs => s.markBad regs
    | .mitten _ _ => s
  let b := s.blk u
  if !b.live then s
  else
    let s := s.cirBlk u (match kind with
      | .ecc _ => 2
      | .mitten _ _ => 1)
    if b.interval.opened && b.interval.flag then s.setBlk u { s.blk u with rolling := true }
    else
      let s := (b.groups.filter fun g => g.2.live).foldl (fun s g => s.cutGroup u g.1) s
      s.setBlk u { s.blk u with rolling := false }
def execUncorrectableError (blk : Nat) (kind : ErrKind) (s : State) : Res :=
  .next (if s.errorMay blk kind then s.uncorrectable blk kind else s)

/-- Block memory as its shadows hold it (R188). -/
def Block.unshadow (b : Block) : Block :=
  b.interval.shadows.foldl (fun b x => { b with
    bm := wrBytes b.bm (x.unit * 128) x.bytes
    full := x.full.zipIdx.foldl (fun m f => mset false m (x.unit * 8 + f.2) f.1) b.full
    bmPoison := x.poison.zipIdx.foldl (fun m f => mset false m (x.unit * 4 + f.2) f.1) b.bmPoison
    opcache := (List.range 4).foldl (fun m i => mset [] m (x.unit * 4 + i) []) b.opcache })
    { b with acc := b.interval.rows.foldl (fun m r => r.2.zipIdx.foldl (fun m v => mset 0#32 m (r.1 * 128 + v.2) v.1) m) b.acc
             ports := b.interval.ports }

/-- A group from its rollback snapshot (R190): trap mode ends, its records are discarded, waits end. Pockets keep their values (R242). -/
def Group.unroll (G : Group) (x : GroupSnap) : Group :=
  { G with live := true, lanes := x.lanes.map fun l => (l.1, { l.2 with pocket := (G.lane l.1).pocket }), k := x.k, ubase := x.ubase, kp := x.kp, fpcr := x.fpcr, fpsr := x.fpsr, sfq := []
           trapped := false, served := [], streak := 0, round := [], lastRun := [], notBefore := 0, untilDone := none, board := []
           feWait := none, memoWait := [], latch := none, wbuf := none }

/-- BLOCK_ROLLBACK (R190): once loads, copy entries and matrix reservations have performed, their results are discarded, and
block memory, accumulator rows and groups are restored. -/
def State.blockRollback (s : State) (u : Nat) : State :=
  let b := s.blk u
  if !b.rolling || !s.enginesStill u || !(s.pend.all fun p => p.blk != u || p.done || (p.bm && p.fe) || (match p.kind with
      | .load | .asof | .sys _ | .fence _ => false
      | .atomic => p.dest.isEmpty && !p.bm
      | .store => !p.bm)) then s
  else
    let s := (b.groups.map (·.1)).foldl (fun s g => s.dropSuspended u g) s
    let s := { s with pend := s.pend.filter fun p => !(p.blk == u && (p.done || p.fe)) }
    let b := (s.blk u).unshadow
    let b := { b with
      groups := b.interval.groups.foldl (fun m x => mset {} m x.grp ((mget {} m x.grp).unroll x)) b.groups
      bad := b.interval.bad
      interval := { b.interval with shadows := [], rows := [] }, rolling := false }
    let s := s.setBlk u b
    (s.cirBlk u 7).count b.ctx 0x11 1
def execBlockRollback (blk : Nat) (s : State) : Res := .next (s.blockRollback blk)

/-! ## Eviction (R113, R114, R126) -/

/-- The live blocks of a block's team. -/
def State.mates (s : State) (u : Nat) : List Nat :=
  let t := (s.blk u).team
  (s.blocks.filter fun b => b.2.live && b.2.team == t).map (·.1)

/-- A team is to be evicted. -/
def State.markEvict (s : State) (u : Nat) : State :=
  (s.mates u).foldl (fun s v => s.setBlk v { s.blk v with evicting := (s.blk v).core.isSome }) s

/-- A block may leave its core (R114). -/
def State.mayLeave (s : State) (u : Nat) : Bool :=
  (s.blk u).core.isNone || ((s.blk u).evicting && !(s.blk u).rolling && s.enginesStill u && s.accessesStill u)

/-- The fences of a core that order what a block issues from now on (R303): those on the core's queues, and on its own matrix queues. -/
def CoreSt.fencesFor (c : CoreSt) (u : Nat) (live : List Nat) : List (Nat × List Nat) :=
  ((c.fences.filter fun f => decide (f.1 < 4) || (decide (4 ≤ f.1) && (f.1 - 4) / 16 == u)).map fun f => (f.1, f.2.filter live.contains)).filter
    fun f => !f.2.isEmpty

/-- A block leaves its core with its state; suspended copy entries go with it, and the fences that order what it issues afterwards (R114,
R268, R303). DESIGN CHOICE (log entry 85): what is left of a stall count is not kept. -/
def State.unseat (s : State) (u : Nat) : State :=
  let b := s.blk u
  match b.core with
  | none => s
  | some n =>
    let c := s.core n
    let s := s.setBlk u { b with core := none, slots := [], opcache := [], evicting := false
                                 keptLd := c.ldq.filter fun e => e.blk == u
                                 keptSt := c.stq.filter fun e => e.blk == u
                                 keptCh := c.chans.filter fun x => x.2.busy && x.2.blk == u
                                 keptFences := c.fencesFor u s.openUids
                                 groups := b.groups.map fun g =>
                                   let waits := fun (iid : Nat) => s.pend.any fun p => p.blk == u && p.grp == g.1 && p.iid == iid && !p.done
                                   (g.1, { g.2 with notBefore := 0, matUsed := 0, board := g.2.board.filter fun e => waits e.iid
                                                    untilDone := g.2.untilDone.filter waits }) }
    (s.setCore n { c with
      ldq := c.ldq.filter fun e => e.blk != u
      stq := c.stq.filter fun e => e.blk != u
      chans := (c.chans.filter fun x => x.2.busy && x.2.blk == u).foldl (fun m x => mset {} m x.1 {}) c.chans }).accNext n

/-- BLOCK_EVICT (R114, R126): a team marked for eviction leaves once each of its blocks may, the youngest of its context first,
and joins the front of its queue's resume list. -/
def State.blockEvict (s : State) (u : Nat) : State :=
  let b := s.blk u
  let us := s.mates u
  if !b.live || !b.evicting || s.dying u || !(us.all s.mayLeave)
      || (s.blocks.any fun x => x.2.live && x.2.evicting && x.2.core.isSome && x.2.ctx == b.ctx && x.2.team != b.team && decide (b.age < x.2.age)) then s
  else
    let s := us.foldl (fun s v => s.unseat v) s
    let q := s.queue b.queue
    (s.setQueue b.queue { q with resume := us ++ q.resume, since := none, reserved := none }).reside b.ctx
def execBlockEvict (blk : Nat) (s : State) : Res := .next (s.blockEvict blk)

/-- The youngest blocks of a context on a core, as few as make room. -/
def State.victims (s : State) (core : Nat) (d : Need) : List Nat → List Nat → Option (List Nat)
  | [], _ => none
  | u :: r, got =>
    let got := got ++ [u]
    let t := got.foldl (fun s v => s.setBlk v { s.blk v with core := none }) s
    if t.room core d then some got else State.victims s core d r got

/-- What the first head of another context that waits for a core needs of it (R113). -/
def State.waitingNeed (s : State) (ctx core : Nat) : Option Need :=
  firstSome (fun x => if s.mayPop x.1 x.2 then
      (match s.headOf x.1 x.2 core with
        | some hd => let nd := s.headNeed hd
                     if nd.1 = 0 || s.room core (nd.2 0) then none else some (nd.2 0)
        | none => none) else none)
    ((s.ctxOrder.filter (· != ctx)).flatMap fun c => (s.queueOrder c).map fun i => (c, s.queueAt c i))

/-- The blocks of a context on a core that are not leaving, the youngest first. -/
def State.youngest (s : State) (ctx core : Nat) : List Nat :=
  (((s.onCore core).filter fun b => b.2.ctx == ctx && !b.2.evicting).sortBy fun a b => decide (b.2.age ≤ a.2.age)).map (·.1)

/-- PARTIAL_EVICTION (R113): a context that has used its TSLICE on a core while another context waits loses its youngest
blocks there, as many as the incoming work needs. -/
def State.partialEvict (s : State) (ctx core : Nat) : State :=
  if mget 0 (s.ctx ctx).turn core < (s.ctx ctx).tslice then s
  else
    match (s.waitingNeed ctx core).bind fun d => s.victims core d (s.youngest ctx core) [] with
    | none => s
    | some us =>
      let s := us.foldl (fun s u => s.markEvict u) s
      s.setCtx ctx { s.ctx ctx with turn := mset 0 (s.ctx ctx).turn core 0 }
def execPartialEviction (ctx core : Nat) (s : State) : Res := .next (s.partialEvict ctx core)

/-! ## Implicit decrements (R130) -/

/-- What an implicit decrement comes to. -/
inductive ImplicitR where
  | wait (t : State)
  | held (h : Held) (s : State)
  | finished (s : State)

/-- The queue that a continuation names. -/
def State.joinQueue (s : State) (h : Held) : Option Nat :=
  match (if h.jd.rcd.isEmpty then s.devLoad h.ctx h.join 32 else .ok (h.jd.rcd, false)) with
  | .ok (bs, _) => s.queueOf h.ctx (recOf (bytesWords bs)).queue
  | .error _ => none

/-- What the status of an implicit decrement's push leads to (R130, R380); an unbound queue's number in the event is a free value. -/
def State.implicitEnd (s : State) (h : Held) (st : Nat) : ImplicitR :=
  if st = 1 ∨ st = 5 then .held { h with jd := {}, at_ := none, armed := st == 5 } s
  else if st = 2 ∨ st = 3 then
    .finished ({ s with fresh := s.fresh + 1 }.queueFault h.ctx ((s.joinQueue h).getD (Config.freeNat (pairNat s.fresh 20) % 256)) 3 st 0 h.join)
  else .finished s

/-- An implicit decrement is tried (R129, R130, R380); one at a peer is held, with its translation, while its requests are out. -/
def State.implicit (s : State) (h : Held) : ImplicitR :=
  let fail := fun (t : State) => ImplicitR.finished (t.queueFault h.ctx 0xFF 5 0 0 h.join)
  if h.join % 64 ≠ 0 then fail s
  else
    let found : Except (Nat × Bool) Xlat × State := match h.at_ with
      | some x => (.ok x, s)
      | none => s.translate h.core h.ctx (h.join + 32) .store (s.mayCache 19)
    match found with
    | (.error (_, p), _) => fail (if p then s.setCir h.kernel 0 else s)
    | (.ok x, t) =>
      if x.phys.target = 1 then
        (match t.jdecPeer h.jd h.uid h.ctx h.core h.kernel h.floor x.phys (bitOf x.leaf 4) (bitOf x.leaf 5) with
          | .going j t => .held { h with jd := j, at_ := some x } t
          | .wait t => .wait t
          | .done _ _ _ true t => .finished t
          | .done _ st _ false t => t.implicitEnd h st)
      else match t.decrement h.ctx h.core (some h.kernel) h.floor x.phys (bitOf x.leaf 4) (bitOf x.leaf 5) with
        | .wait t => .wait t
        | .done _ st _ t => t.implicitEnd h st

/-- DECREMENT_RETRY (R130): a held decrement is tried again; after a ring fault, once its queue is armed again. -/
def State.decrementRetry (s : State) (i : Nat) : State :=
  match s.held[i]? with
  | none => s
  | some h =>
    if h.armed && (s.joinQueue h).any fun q => (s.queue q).st != .armed then s
    else match s.implicit h with
      | .wait t => s.stalled t
      | .held x t => { t with held := t.held.set i x }
      | .finished t => { t with held := t.held.eraseIdx i }
def execDecrementRetry (i : Nat) (s : State) : Res := .next (s.decrementRetry i)

/-! ## The end of a block (R144) -/

/-- A block is over: it frees what it occupied; its record stays for accesses in flight (R144, R257, R291). -/
def State.freeBlock (s : State) (u : Nat) : State :=
  let b := s.blk u
  (s.setBlk u { b with live := false, core := none, slots := [], accHeld := false, acc := [], bm := [], full := [], bmPoison := [],
                       ports := [], opcache := [], objs := [], interval := {}, evicting := false, rolling := false, keptLd := [], keptSt := [], keptCh := [],
                       keptFences := [], groups := b.groups.map fun g => (g.1, { g.2 with lanes := [], k := [], matq := [], tokens := [] }) }).accNext (b.core.getD 512)

/-- BLOCK_END (R130, R144): its groups have ended and its engine entries performed; the implicit decrement releases at device
scope, so it waits for the block's stores. -/
def State.blockEnd (s : State) (u : Nat) : State :=
  let b := s.blk u
  if !b.live || b.core.isNone || b.rolling || b.groups.any (fun g => g.2.live) || !s.enginesDone u then s
  else
    let finish := fun (t : State) =>
      let t := (t.routineGone u).freeBlock u
      let K := t.kernel b.kernel
      let t := t.setKernel b.kernel { K with ended := K.ended + 1 }
      ((t.kernelTry b.kernel).teamTry b.team).reside b.ctx
    -- a block of a kernel that is being killed decrements nothing
    if b.cut || b.join = 0#64 || (s.kernel b.kernel).state == .killing then finish s
    else if s.pend.any fun p => p.blk == u && !p.done && !p.bm && reaches .dev p then s
    else
      let s := b.groups.foldl (fun s g => s.releaseFloor u g.1 .dev) s
      let h : Held := { uid := s.fresh, ctx := b.ctx, join := b.join.toNat, kernel := b.kernel, core := b.core.getD 0, floor := (s.blk u).floor }
      match { s with fresh := s.fresh + 1 }.implicit h with
      | .wait t => s.stalled t
      | .held x t => finish { t with held := t.held ++ [x] }
      | .finished t => finish t
def execBlockEnd (blk : Nat) (s : State) : Res := .next (s.blockEnd blk)

/-! ## Kernels (R140, R145-R147) -/

/-- The largest floor of a kernel's groups, which its completion record's release carries. -/
def State.kernelFloor (s : State) (k : Nat) : Nat :=
  (s.blocks.filter fun b => b.2.kernel == k).foldl (fun f b => b.2.groups.foldl (fun f g => max f g.2.floor) (max f b.2.floor)) 0

/-- KERNEL_END (R145, R380). -/
def State.kernelEvent (s : State) (K : Kernel) (status : Nat) (faulted : Bool) : State :=
  if K.kind = 0 ∧ status = 0 ∧ K.cir = 0#32 then s
  else s.emit 1 K.ctx (leBytes 2 K.id ++ [BitVec.ofNat 8 (status + (if faulted then 16 else 0)), 0#8] ++ leBytes 4 K.cir.toNat
    ++ leBytes 8 K.compVa)

/-- A kernel is over: its completion record, which stands as it was when its store was first tried, and its event (R145, R229). -/
def State.kernelOver (s : State) (k status : Nat) : State :=
  let K := s.kernel k
  let isOver := fun (t : State) (bad : Bool) =>
    (t.setKernel k { t.kernel k with state := .ended, status := status }).kernelEvent (t.kernel k) status bad
  if K.kind = 0 ∨ K.compVa = 0 then isOver s false
  else
    let bytes := if K.compBytes.isEmpty then completionBytes status K.cir K.start s.tick K.ended K.cutGroups K.id else K.compBytes
    match s.completion K.ctx (some k) (s.kernelFloor k) K.compVa bytes with
    | .ok t => isOver t false
    | .wait t => (s.stalled t).setKernel k { (s.stalled t).kernel k with compBytes := bytes }
    | .fault _ t => isOver t true

/-- KERNEL_ENDED (R140): every store of its blocks has performed at system scope. -/
def State.kernelEnded (s : State) (k : Nat) : State :=
  let K := s.kernel k
  if K.state != .ending || s.pend.any fun p => (s.blk p.blk).kernel == k && !p.done && !p.bm && p.writes then s
  else s.kernelOver k 0
def execKernelEnded (k : Nat) (s : State) : Res := .next (s.kernelEnded k)

/-- A kernel enters killing: resident blocks stop issuing, evicted blocks and unpopped teams are discarded (R140). -/
def State.killKernel (s : State) (k status : Nat) : State :=
  let K := s.kernel k
  if K.state != .running && K.state != .ending then
    (if K.state == .killing && status == 2 && K.killTick == s.tick then s.setKernel k { K with status := 2 } else s)
  else
    let s := s.setKernel k { K with state := .killing, status := status, teamsLeft := 0, killTick := s.tick }
    let gone := (s.blocks.filter fun b => b.2.live && b.2.kernel == k && b.2.core.isNone).map (·.1)
    let s := gone.foldl (fun s u => ((s.blk u).groups.foldl (fun s g => if g.2.live then s.endGroup u g.1 false else s) s)) s
    let s := gone.foldl (fun s u => (s.routineGone u).freeBlock u) s
    { s with queues := s.queues.map fun q =>
        let x := { q.2 with resume := q.2.resume.filter fun u => !gone.contains u }
        let part := 0 < x.popped && x.kernel == k
        -- another head waits from now on (R124)
        let x := if part || x.resume.head? != q.2.resume.head? then { x with since := none, reserved := none } else x
        (q.1, if part then
          (if 256 ≤ q.1 then { x with popped := 0, recs := x.recs.drop 1 } else ({ x with popped := 0, head := x.head + 1 }).settle)
        else x.settle) }

/-- WATCHDOG_EXPIRY (R140, R147). -/
def State.watchdog (s : State) (k : Nat) : State :=
  let K := s.kernel k
  if K.wdog ≠ 0 ∧ K.wdog * 65536 ≤ K.counted ∧ (K.state = .running ∨ K.state = .ending) then s.killKernel k 1 else s
def execWatchdogExpiry (k : Nat) (s : State) : Res := .next (s.watchdog k)

/-- A resident block of a kernel that is being killed is removed: suspended engine work is discarded (R140, R268). -/
def State.removeBlock (s : State) (u : Nat) : State :=
  let s := ((s.blk u).groups.map (·.1)).foldl (fun s g => s.dropSuspended u g) s
  let s := (s.blk u).groups.foldl (fun s g => if g.2.live then s.endGroup u g.1 false else s) s
  (s.routineGone u).freeBlock u

/-- The live blocks of a kernel. -/
def State.kernelBlocks (s : State) (k : Nat) : List Nat := (s.blocks.filter fun b => b.2.live && b.2.kernel == k).map (·.1)

/-- KERNEL_KILLED (R140, R145, R268): the suspended engine work of its blocks is discarded; each leaves its core once what remains has
performed; when none is left, the kernel ends with its status. -/
def State.kernelKilled (s : State) (k : Nat) : State :=
  let K := s.kernel k
  if K.state != .killing then s
  else
    let s := (s.kernelBlocks k).foldl (fun s u => ((s.blk u).groups.map (·.1)).foldl (fun s g => s.dropSuspended u g) s) s
    let s := (s.kernelBlocks k).foldl (fun s u => if s.enginesStill u then s.removeBlock u else s) s
    if !(s.kernelBlocks k).isEmpty || s.pend.any fun p => (s.blk p.blk).kernel == k && !p.done && !p.bm && p.writes then s
    else (s.kernelOver k K.status).reside K.ctx
def execKernelKilled (k : Nat) (s : State) : Res := .next (s.kernelKilled k)

/-! ## Killing a context (R97, R117, R130, R141, R360) -/

/-- Grid records of a ring that were not yet popped are owed completion records with status 2 (R141): the records from an index on. DESIGN
CHOICE (log entry 93): one that cannot be read, or is poisoned, is owed none. -/
def State.killRecords (s : State) (ctx h : Nat) : Nat → Word → State
  | 0, _ => s
  | n + 1, i =>
    let q := s.queue h
    let s := match s.devLoad ctx (q.slotVa i) 64 with
      | .ok (bs, bad) =>
        let r := recOf (bytesWords bs)
        if !bad && r.grid && r.comp != 0 then
          let c := s.ctx ctx
          s.setCtx ctx { c with owed := c.owed ++ [(r.comp, completionBytes 2 0#32 0 0 0 0 0xFFFF)] }
        else s
      | .error _ => s
    State.killRecords s ctx h n (i + 1)

/-- The completion records that a killed context is owed, in order; one that must wait, waits (R141, R228). -/
def State.writeOwed (s : State) (ctx : Nat) : List (Nat × List Byte) → State
  | [] => s
  | x :: r =>
    let drop := fun (t : State) => t.setCtx ctx { t.ctx ctx with owed := r }
    match s.completion ctx none 0 x.1 x.2 with
    | .ok t => (drop t).writeOwed ctx r
    | .wait t => s.stalled t
    | .fault _ t => (drop t).writeOwed ctx r

/-- A queue of a killed context: armed, draining or stopped becomes stopped, and empty (R117). -/
def State.killQueue (s : State) (ctx h : Nat) : State :=
  let q := s.queue h
  if q.st == .idle then s
  else
    let first := if 0 < q.popped then q.head + 1 else q.head
    let s := s.killRecords ctx h ((q.tail - first).toNat) first
    s.setQueue h { s.queue h with st := .stopped, head := q.tail, resume := [], popped := 0, since := none, reserved := none }

/-- CTX_KILL's effect (R97): every kernel is killed with status 2, queues are emptied, held decrements are discarded, open
activities are abandoned. -/
def State.kill (s : State) (ctx : Nat) : State :=
  let s := s.setCtx ctx { s.ctx ctx with state := .killing, stopping := false }
  let hs := (List.range 16).filterMap fun i => s.queueOf ctx i
  let ks := (s.kernels.filter fun k => k.2.ctx == ctx).map (·.1)
  let s := hs.foldl (fun s h => s.killQueue ctx h) s
  let s := ks.foldl (fun s k => s.killKernel k 2) s
  let s := { s with held := s.held.filter fun h => h.ctx != ctx }
  let s := s.acts.foldl (fun s a => if a.ctx == ctx && a.st == .opened then s.abandon a else s) s
  s.writeOwed ctx (s.ctx ctx).owed

/-- What a context that is killed still runs is over (R97, R360): its activities are over or stuck, its kernels have ended. -/
def State.killOver (s : State) (ctx : Nat) : Bool :=
  (s.acts.all fun a => a.ctx != ctx || a.st.isOver || a.st == .stuck)
    && (s.kernels.all fun k => k.2.ctx != ctx || k.2.state == .ended || k.2.state == .none)
    && (s.queue (256 + ctx)).recs.isEmpty

/-- CONTEXT_KILL_DONE (R96, R97, R360): nothing of the context runs any longer; its queues are stopped and empty, also of what was pushed
meanwhile, and every completion record that is owed has been written. -/
def State.contextKillDone (s : State) (ctx : Nat) : State :=
  if (s.ctx ctx).state != .killing then s
  else
    let s := if s.killOver ctx then ((List.range 16).filterMap fun i => s.queueOf ctx i).foldl (fun s h => s.killQueue ctx h) s else s
    let s := s.writeOwed ctx (s.ctx ctx).owed
    if (s.ctx ctx).owed.isEmpty && s.killOver ctx then s.setCtx ctx { s.ctx ctx with state := .defined } else s
def execContextKillDone (ctx : Nat) (s : State) : Res := .next (s.contextKillDone ctx)

end Sys2Proof.Machine
end

