-- ==== Sys2Proof/Machine/Device.lean ====
section
/-! DEFINITION. The steps of the memory side and of the traps, the activities' steps, history, re-keying, and the device's rings
(R102, R180, R181, R229, R245, R253, R314, R315, R395-R404, R407). -/

namespace Sys2Proof.Machine

/-! ## Accesses in flight: one step each -/

/-- A step of one operation in flight. -/
def onOp (s : State) (uid : Nat) (f : State → Pend → State) : Res :=
  .next (match s.op? uid with
    | some p => f s p
    | none => s)

/-- PAGE_WALK (R305-R311). -/
def execPageWalk (op : Nat) (cached : Bool) (s : State) : Res := onOp s op fun s p => s.pageWalk p cached
/-- LATE_FAULT (R178). -/
def execLateFault (op : Nat) (s : State) : Res := onOp s op State.lateFault
/-- STORE_FAULT_RECORD (R180). -/
def execStoreFaultRecord (op : Nat) (s : State) : Res := onOp s op State.storeFault
/-- LOAD_RETURN (R234). -/
def execLoadReturn (op : Nat) (s : State) : Res := onOp s op State.loadReturn
/-- STORE_PERFORM (R225, R396). -/
def execStorePerform (op : Nat) (s : State) : Res := onOp s op State.storePerform
/-- ATOMIC_PERFORM (R246). -/
def execAtomicPerform (op : Nat) (s : State) : Res := onOp s op State.atomicPerform
/-- ASOF_WALK (R397). -/
def execAsofWalk (op : Nat) (s : State) : Res := onOp s op State.asofWalk
/-- TRAP_ENTRY (R108, R172, R173). -/
def execTrapEntry (blk grp : Nat) (s : State) : Res := .next (s.trapEntry blk grp)

/-- FORCED_DELIVERY (R181): the lanes that hold records park at the PC of their next issue; the served set of a handler dies
of it (R192). -/
def State.forcedDelivery (s : State) (u g : Nat) : State :=
  let G := s.grp u g
  if !G.live || !G.forced then s
  else
    let hold := G.full.filter fun L => (G.lane L).issuable && G.holdsRecord L
    if G.trapped && hold.any fun L => G.served.contains L then s.doubleTrap u g
    else s.setGrp u g (hold.foldl (fun G L => G.setLane L ((G.lane L).park { code := 15, fpc := (G.lane L).pc, words := 0 })) G)
def execForcedDelivery (blk grp : Nat) (s : State) : Res := .next (s.forcedDelivery blk grp)

/-- QT_QUANTUM_EXPIRY (R102, R245): a held `.qt` update performs; one by one. -/
def execQtQuantumExpiry (op : Nat) (s : State) : Res :=
  onOp s op fun s p => if (p.atom.map (·.use)) == some .qt then s.atomicPerform p else s

/-- HOST_STAMP_HOLD (R229): a release to host memory whose hold is over is sent on. -/
def execHostStampHold (op : Nat) (s : State) : Res :=
  onOp s op fun s p => if p.hold.isSome then (if p.kind == .store then s.storePerform p else s.atomicPerform p) else s

/-! ## Rings (R315, R404) -/

/-- How a push to a ring goes; a fault leaves what was stored before it. -/
inductive RingR where
  | ok (s : State)
  | wait (t : State)
  | fault (va : Nat) (s : State)

/-- Read a number of a ring's header. -/
def State.ringWord (s : State) (ctx va : Nat) : Except Nat Nat :=
  match s.devLoad ctx va 4 with
  | .ok (bs, _) => .ok (leNat bs)
  | .error c => .error c

/-- Push a record of a context's ring with 2^m slots of 16 bytes (R315, R404): a full ring counts it as dropped; the Bool says
that it was written. -/
def State.ringPush (s : State) (ctx va m : Nat) (rcd : List Byte) : RingR × Bool :=
  match s.ringWord ctx va, s.ringWord ctx ((va + 4) % 2 ^ 64), s.ringWord ctx ((va + 8) % 2 ^ 64) with
  | .ok w, .ok r, .ok d =>
    if (w + 2 ^ 32 - r) % 2 ^ 32 = 2 ^ m then
      (match s.devStore ctx 0 none ((va + 8) % 2 ^ 64) (leBytes 4 (min (d + 1) 0xFFFFFFFF)) false 0 with
        | .ok s => (.ok s, false)
        | .wait t => (.wait t, false)
        | .fault _ t => (.fault ((va + 8) % 2 ^ 64) t, false))
    else
      let slot := (va + 16 + 16 * (w % 2 ^ m)) % 2 ^ 64
      let next := fun (s : State) => s.devStore ctx 0 none va (leBytes 4 ((w + 1) % 2 ^ 32)) true 0
      -- while the index must wait, the slot is not written either (R228)
      match s.devStore ctx 0 none slot rcd false 0, next s with
      | .fault _ t, _ => (.fault slot t, false)
      | .wait t, _ => (.wait t, false)
      | _, .wait t => (.wait t, false)
      | .ok t, _ => match next t with
        | .ok u => (.ok u, true)
        | .wait u => (.wait (s.roomFor u), false)
        | .fault _ u => (.fault va u, false)
  | .error _, _, _ => (.fault va s, false)
  | _, .error _, _ => (.fault ((va + 4) % 2 ^ 64) s, false)
  | _, _, .error _ => (.fault ((va + 8) % 2 ^ 64) s, false)

/-- NOTIFY_FAULT (R380). -/
def State.notifyFault (s : State) (ctx stream va : Nat) : State :=
  s.emit 7 ctx ([BitVec.ofNat 8 stream] ++ List.replicate 7 0#8 ++ leBytes 8 va)

/-! ## Access counters (R314, R315) -/

/-- A notification is pushed, unless a store of it must wait: none (R228, R315). -/
def State.notifyPush (s : State) (n : Note) : Option State × State :=
  let c := n.acc
  let x := s.ctx c.ctx
  if x.notifyVa = 0 then (some s, s)
  else
    let rcd := leBytes 8 c.page ++ leBytes 2 n.thr ++ leBytes 2 c.ctx ++ [BitVec.ofNat 8 (c.loc % 4 + (if c.store then 4 else 0))]
      ++ leBytes 3 n.tick
    match s.ringPush c.ctx x.notifyVa x.notifyM rcd with
    | (.ok t, _) => (some t, s)
    | (.wait t, _) => (none, s.stalled t)
    | (.fault va t, _) => (some (t.notifyFault c.ctx 0 va), s)

/-- The notifications that can be pushed are pushed, in order; the others stay (R228). -/
def State.notifyAll (s : State) : List Note → State
  | [] => s
  | n :: r => match s.notifyPush n with
    | (some t, _) => t.notifyAll r
    | (none, t) => let u := t.notifyAll r
                   { u with noted := n :: u.noted }

/-- An increment that faults is skipped; the first of each 2^20 ticks emits NOTIFY_FAULT (R314). -/
def State.countFault (s : State) (ctx va : Nat) : State :=
  let x := s.ctx ctx
  let period := s.tick / 2 ^ 20 + 1
  if mget 0 x.notifyMark 3 = period then s
  else (s.setCtx ctx { x with notifyMark := mset 0 x.notifyMark 3 period }).notifyFault ctx 3 va

/-- ACCESS_COUNT (R314): notifications that waited go on, and the oldest counted access increments its page's counter. -/
def State.accessCount (s : State) : State :=
  let s := { s with noted := [] }.notifyAll s.noted
  match s.counted with
  | [] => s
  | c :: r =>
    let x := s.ctx c.ctx
    let s' := { s with counted := r }
    if x.counterVa = 0 then s'
    else
      let va := (x.counterVa + 2 * (c.page / 4096 % 2 ^ x.counterC)) % 2 ^ 64
      match s'.devLoad c.ctx va 2 with
      | .error _ => s'.countFault c.ctx va
      | .ok (bs, _) =>
        let v := leNat bs
        if v = 0xFFFF then s'
        else match s'.devStore c.ctx 0 none va (leBytes 2 (v + 1)) false 0 with
          | .wait t => s.stalled t
          | .fault _ _ => s'.countFault c.ctx va
          | .ok t => if v + 1 = x.accthr.toNat then { t with noted := [] }.notifyAll (t.noted ++ [({ acc := c, thr := v + 1, tick := s.tick } : Note)]) else t
def execAccessCount (s : State) : Res := .next s.accessCount

/-! ## Activities (R344, R354-R356) -/

/-- COMPENSATION_START (R354, R355). -/
def execCompensationStart (entry : Nat) (s : State) : Res := .next (s.compensationStart entry)
/-- COMMIT_DISCARD (R344). -/
def execCommitDiscard (ctx : Nat) (handle : Word) (member : Nat) (s : State) : Res := .next (s.commitDiscard ctx handle.toNat member)
/-- ACT_TIMEOUT (R356). -/
def execActTimeout (entry : Nat) (s : State) : Res := .next (s.actTimeout entry)

/-! ## History (R253, R398-R400) -/

/-- As-of loads that walk a ring read its entries: reclamation waits for none, since a walk is one step. -/
def State.oldestStamp (s : State) (stack : Nat) : Option Nat :=
  let r := s.ring stack
  if r.oldest < r.next then some (mget {} r.entries r.oldest : HistEntry).stamp else none

/-- HISTORY_RECLAIM (R398, R399): a ring that needs room reclaims its oldest entry, which no pin holds. -/
def State.historyReclaim (s : State) (stack : Nat) : State :=
  match s.oldestStamp stack with
  | some st => if s.ringFull stack && !s.pinHolds st then s.reclaim stack else s
  | none => s
def execHistoryReclaim (stack : Nat) (s : State) : Res := .next (s.historyReclaim stack)

/-- HISTORY_RETENTION_EXPIRY (R398, R399): pins too far in the past break, and the oldest entry too far in the past is
reclaimed. -/
def State.retentionExpiry (s : State) (stack : Nat) : State :=
  let old := s.ctxs.flatMap fun c => (c.2.pins.filter fun p => p.2.used && !p.2.broken && s.expired p.2.stamp).map fun p => (c.1, p.1)
  let s := old.foldl (fun s x => s.breakPin x.1 x.2) s
  match s.oldestStamp stack with
  | some st => if s.expired st && !s.pinHolds st then s.reclaim stack else s
  | none => s
def execHistoryRetentionExpiry (stack : Nat) (s : State) : Res := .next (s.retentionExpiry stack)

/-- PIN_TIMEOUT (R102, R399): a pin that blocks a stalled ring is broken once the stall's PINTMO has passed. -/
def State.pinTimeout (s : State) (ctx h : Nat) : State :=
  let p : Pin := mget {} (s.ctx ctx).pins h
  let limit := fun (ls : List (Nat × Nat)) => ((ls.find? fun x => x.1 == ctx).map (·.2)).getD (s.ctx ctx).pintmo.toNat
  let blocks := (List.range 16).any fun k => match (s.ring k).stall, s.oldestStamp k with
    | some (t0, ls), some st => decide (p.stamp < st) && decide (t0 + limit ls ≤ s.tick)
    | _, _ => false
  if p.used && !p.broken && blocks then s.breakPin ctx h else s
def execPinTimeout (ctx pin : Nat) (s : State) : Res := .next (s.pinTimeout ctx pin)

/-- Every history log of the module is discarded. -/
def State.dropHistory (s : State) : State := { s with rings := [], heads := [], lastWrite := [] }

/-- Every floor of the module becomes 0 (R231, R400). -/
def State.zeroFloors (s : State) : State :=
  { s with
    blocks := s.blocks.map fun b => (b.1, { b.2 with floor := 0, groups := b.2.groups.map fun g =>
      (g.1, { g.2 with floor := 0, covered := g.2.covered.map fun c => (c.1, { c.2 with stamp := 0 })
                       matq := g.2.matq.map fun e => { e with floor := 0, maxStamp := 0 } }) })
    teams := s.teams.map fun t => (t.1, { t.2 with floor := 0 })
    pend := s.pend.map fun p => { p with floor := 0 }
    held := s.held.map fun h => { h with floor := 0, jd := { h.jd with seen := 0 } }
    cores := s.cores.map fun c =>
      let z := fun (e : CopyEntry) => { e with floor := 0, maxStamp := 0 }
      (c.1, { c.2 with ldq := c.2.ldq.map z, stq := c.2.stq.map z, l1 := c.2.l1.map fun l => (l.1, min l.2 1)
                       chans := c.2.chans.map fun x => (x.1, { x.2 with floor := 0, maxStamp := 0, entry := x.2.entry.map z }) }) }

/-! ## Lines and channels (R386, R395, R402) -/

/-- PAGE_REKEY (R402): a page with an exhausted write counter is re-encrypted under its next generation; its written lines count
from 1. -/
def State.rekey (s : State) (page : Nat) : State :=
  let offs := (List.range 32).map fun i => page * 4096 + 128 * i
  let s := offs.foldl (fun s off =>
    let d := s.da off / 128
    let m : LineMeta := mget {} s.lines d
    if m.ctr = 0#56 then s
    else { s with lines := mset {} s.lines d { m with ctr := 1#56, gen := mget 0#8 s.pageGen page + 1 } }) s
  let n := s.home (page * 4096) / 8
  { s with pageGen := mset 0#8 s.pageGen page (mget 0#8 s.pageGen page + 1) }.unitAdd (640 + n) 4 1 |>.lateUnit (640 + n) 0 3 0 64
def execPageRekey (page : Nat) (s : State) : Res :=
  .next (if (List.range 32).any fun i => s.lineFull (page * 4096 + 128 * i) then s.rekey page else s)

/-- CHANNEL_RETRAIN (R395): visible in time only. -/
def execChannelRetrain (_stack _channel : Nat) (s : State) : Res := .next s
/-- SCRUB (R386): what can be corrected is written back and counted, and what cannot is marked poisoned; which sectors have errors is free
(log entry 79). It never clears poison, and bytes stay. -/
def State.scrub (s : State) (line : Nat) : State :=
  let hit := fun (n : Nat) (i : Nat) => Config.freeBool (pairNat (pairNat s.fresh n) i)
  let bad := (List.range 4).filter (hit 50)
  let fixed := (List.range 4).filter fun i => hit 51 i && !hit 50 i
  { s with poison := bad.foldl (fun m i => mset false m (4 * line + i) true) s.poison
           fresh := s.fresh + 1 }.unitAdd (640 + daSlice (128 * line) / 8) 5 fixed.length |>.lateUnit (640 + daSlice (128 * line) / 8) 0 3 0 4
def execScrub (line : Nat) (s : State) : Res := .next (if line < 2 ^ 33 then s.scrub line else s)

end Sys2Proof.Machine
end

