-- ==== Sys2Proof/Machine/Sched.lean ====
section
/-! DEFINITION. Which run a group offers, why a group does not issue, what an issue leaves behind, and what passes with a tick
and with a cycle (R23, R24, R28, R29, R113, R147, R149, R150, R174, R181, R192, R405, R407, R408, R410, R413). -/

namespace Sys2Proof.Machine

/-! ## The run (R149, R150, R174) -/

/-- The lanes that may issue: the issuable ones, in trap mode those of the served set. -/
def Group.offered (G : Group) : List Nat :=
  G.full.filter fun L => (G.lane L).issuable && (!G.trapped || G.served.contains L)

/-- The lanes of a list at a PC. -/
def Group.atPc (G : Group) (lanes : List Nat) (pc : Nat) : List Nat := lanes.filter fun L => (G.lane L).pc == pc

/-- The run that a group offers, and the group as the choice leaves it: a yield round begun at a streak of 32, a PC of the
round taken from its list; outside a round, the streak counts the issue (R150). -/
def Group.offer (G : Group) : List Nat × Group :=
  let is := G.offered
  let G := if 32 ≤ G.streak then
      let rest := is.filter fun L => !G.lastRun.contains L
      { G with streak := 0, round := (rest.map fun L => (G.lane L).pc).sortUp.eraseDups }
    else G
  match G.round.dropWhile fun pc => (G.atPc is pc).isEmpty with
  | pc :: r => (G.atPc is pc, { G with round := r })
  | [] =>
    let run := G.atPc is (G.minPc is)
    (run, { G with round := [], streak := if run.length < is.length then G.streak + 1 else 0 })

/-! ## Why a group does not issue (R28, R408) -/

/-- The code of a reason (R408). -/
def Reason.code : Sys2Proof.Machine.Reason → Nat
  | .trapMode => 2 | .fetch => 3 | .scoreboard => 4 | .stallCount => 5 | .tokenWait => 6 | .barrierWait => 7 | .feWait => 8
  | .qportWait => 9 | .permit => 10 | .matrixReservation => 11 | .historyWait => 12 | .migrationBlock => 13 | .other | .badRegister => 14

/-- A lane waits at a barrier or a meet. -/
def LaneStatus.waiting : LaneStatus → Bool
  | .meet | .barBlk | .barBlkR | .barTeam => true
  | _ => false

/-- Nothing issuable: the lanes that are neither parked nor ended wait at a barrier, or there are none (R408). -/
def Group.idleReason (G : Group) : Reason :=
  let rest := G.full.filter fun L => (G.lane L).status != .parked && (G.lane L).status != .ended
  if !rest.isEmpty && rest.all fun L => (G.lane L).status.waiting then .barrierWait else .other

/-- A fixed-latency load of the group that is due has not returned (R26). -/
def State.loadDue (s : State) (u g now : Nat) : Bool :=
  s.pend.any fun p => p.blk == u && p.grp == g && !p.done && (match p.due with
    | some d => decide (d ≤ now)
    | none => false)

/-- An attempt that waits waits for a ring in which a pin holds the oldest entry (R228, R399). -/
def State.pinned (t : State) : Bool := t.rings.any fun r => r.2.stall.isSome

/-- Why the ring slot of a push waits (R228). -/
def State.pushReason (s : State) (ctx : Nat) (ws : List Word) : Option Reason :=
  match s.queueOf ctx (recOf ws).queue with
  | some h => s.devReason ctx ((s.queue h).slotVa (s.queue h).tail)
  | none => none

/-- Why a write of a group that nothing older keeps back waits: M, or a full ring (R28, R228). -/
def State.pendReason (s : State) (p : Pend) : Option Reason :=
  if p.done || p.sent || p.bm || p.fault.isSome || p.merged.isSome || !s.clear p then none
  else match p.kind with
    | .store | .atomic => p.phys.bind fun ph => s.holdReason ph p.hist p.migr
    | .sys .jdec => p.phys.bind fun ph => match s.holdReason ph p.hist p.migr with
      | some r => some r
      | none => match s.decrement p.ctx 0 none 0 ph p.hist p.migr, s.devLoad p.ctx (p.addr - 32) 32 with
        | .wait t, .ok (bs, _) => if t.pinned then some .historyWait else s.pushReason p.ctx (bytesWords bs)
        | _, _ => none
    | .sys op => if op == .spawn || op == .launch then (match s.push p.ctx 0 none 0 (op == .launch) p.args with
      | .wait t => if t.pinned then some .historyWait else s.pushReason p.ctx p.args
      | .done _ _ => none) else none
    | _ => none

/-- Why the stores of a handler entry wait (R228). -/
def State.entryWait (s : State) (u g : Nat) : Option Reason :=
  let b := s.blk u
  let ss := s.entryStores u g
  match s.devStores b.ctx (b.core.getD 0) (some b.kernel) (b.grp g).floor ss with
  | .wait t => if t.pinned then some .historyWait else ss.findSome? fun x => s.devReason b.ctx x.1
  | _ => none

/-- Why a group that has a write to make waits (R28, R228, R408): its pending writes, and the stores of its handler entry. -/
def State.writeWait (s : State) (u g : Nat) : Option Reason :=
  let rs := (s.pend.filter fun p => p.blk == u && p.grp == g).filterMap s.pendReason ++
    (if s.entryReady u g then (s.entryWait u g).toList else [])
  if rs.contains .historyWait then some .historyWait else rs.head?

/-- What keeps a group from issuing before its instruction is looked at, in the order of R408. -/
def State.waitsFor (s : State) (u g now : Nat) (run : List Nat) : Option Reason :=
  let G := s.grp u g
  if !G.live then some .other
  else if G.untilDone.isSome then some .scoreboard
  else if now < G.notBefore then some .stallCount
  else if run.isEmpty && G.idleReason == .barrierWait then some .barrierWait
  else if G.feWait.isSome then some .feWait
  else if run.isEmpty || !s.blockRuns u then some .other
  else if s.loadDue u g now then some .other
  else if G.forced && run.any fun L => G.holdsRecord L then some .other
  else none

/-- The reason as a sample names it: trap mode comes before the others (R408). -/
def Group.reasonCode (G : Group) (r : Reason) : Nat := if G.trapped then 2 else Reason.code r

/-! ## After an issue -/

/-- Non-ended lanes of a list. -/
def Group.running (G : Group) (lanes : List Nat) : List Nat := lanes.filter fun L => !(G.lane L).isOver

/-- DIVERGE and RECONVERGE (R410). -/
def State.traceIssue (s : State) (u g : Nat) (run : List Nat) : State :=
  let b := s.blk u
  let G := b.grp g
  if !G.live then s
  else
    let mine := G.running run
    let pcs := (mine.map fun L => (G.lane L).pc).sortUp.eraseDups
    let off := fun pc => (pc + 2 ^ 57 - b.code) % 2 ^ 32
    match pcs with
    | [] => s
    | [pc] =>
      let outside := G.full.filter fun L => !run.contains L && (G.lane L).issuable && (G.lane L).pc == pc
      if outside.isEmpty then s else s.trace u g 2 0 (off pc) (maskOf (G.atPc (G.running G.full) pc))
    | _ => pcs.zipIdx.foldl (fun s x => s.trace u g 1 (x.2 % 32 + 32 * (pcs.length % 64)) (off x.1) (maskOf (G.atPc mine x.1))) s

/-- A write maps a register to another physical register: it is bad no longer, but a region entry taken before the write still holds it
(R166, R190). -/
def Block.rewritten (b : Block) (g : Nat) : Block :=
  let after := fun (x : BadCell) =>
    if x.grp != g || x.until_.isSome then x
    else match (b.grp g).board.find? fun e => decide (x.since ≤ e.iid) && e.cells.any fun c => c.key == x.key with
      | some e => { x with until_ := some e.iid }
      | none => x
  if b.bad.isEmpty then b else { b with bad := b.bad.map after }

/-- Register-file entries that a core's blocks can refer to at most: by their rename maps, the region snapshots of 32 lanes, and the
rollback snapshots of their intervals (R166). -/
def State.regsOn (s : State) (core : Nat) : Nat :=
  (s.onCore core).foldl (fun n b => n + groupsOf b.2.lanes * b.2.A * (if b.2.interval.opened then 34 else 33)) 0

/-- A write that finds no free register frees one (R166): where the file can be full, and once no memo entry remains, the oldest rollback
snapshot of a block of the core may go, and its interval loses its flag (R189). Which entries the file holds is a free choice (log entry
73). -/
def State.freeRegs (s : State) (core : Nat) : State :=
  let open_ := ((s.onCore core).filter fun b => b.2.interval.opened && !b.2.interval.groups.isEmpty).sortBy fun a b =>
    decide (a.2.interval.at_ ≤ b.2.interval.at_)
  match open_ with
  | [] => s
  | b :: _ =>
    if s.regsOn core ≤ Config.fileEntries + 256 || !Config.freeBool (pairNat s.fresh 40) then s
    else
      let s := s.setCore core { s.core core with quarters := (s.core core).quarters.map fun (q : Nat × Quarter) => (q.1, { q.2 with memo := [] }) }
      let s := s.loseInterval b.1
      let x := s.blk b.1
      { s.setBlk b.1 { x with interval := { x.interval with groups := [] } } with fresh := s.fresh + 1 }

/-- The quarter and the counters after an issue, and the trap in trap mode that the issue raised in the served set (R29, R181,
R192, R405, R407). -/
def State.afterIssue (s : State) (c : Cur) (trapped : Bool) : State :=
  let u := c.blk
  let g := c.grp
  let now := s.cycleOf c.core
  let k := s.core c.core
  let q := k.quarter c.quarter
  let slot := mget 0 (s.blk u).slots g % 8
  let s := s.setCore c.core (k.setQuarter c.quarter { q with ptr := (slot + 1) % 8, nextAt := now + 1 })
  let ctx := (s.blk u).ctx
  let s := (s.count ctx 0x02 1).count ctx 0x05 c.run.length
  let G := s.grp u g
  let s := s.setGrp u g { G with issues := G.issues + 1
                                 why := 0, lastRun := c.run, lastPc := c.pc, issuedAt := now + 1 }
  let s := (s.setBlk u ((s.blk u).rewritten g)).freeRegs c.core
  let s := s.traceIssue u g c.run
  let G := s.grp u g
  let s := if trapped && G.live && G.trapped && c.run.any fun L => (G.lane L).status == .parked && G.served.contains L
    then s.doubleTrap u g else s
  { s with cur := none }

/-! ## The slots of a core (R19) -/

/-- The group that occupies a slot of a core: its block and number. -/
def State.slotAt (s : State) (core slot : Nat) : Option (Nat × Nat) :=
  ((s.onCore core).flatMap fun b => ((List.range (groupsOf b.2.lanes)).filter fun g => mget 0 b.2.slots g == slot).map
    fun g => (b.1, g)).head?

/-- Occupied slots of a core. -/
def State.slotList (s : State) (core : Nat) : List (Nat × Nat × Nat) :=
  (s.onCore core).flatMap fun b => (List.range (groupsOf b.2.lanes)).map fun g => (mget 0 b.2.slots g, b.1, g)

/-! ## A cycle passes (R23, R405, R407, R408, R417) -/

/-- The power limiter of a die gates issue in this cycle (R408): free in a cycle in which none of its groups issues (log entry 81). -/
def State.gated (s : State) (die now : Nat) : Bool :=
  Config.freeBool (pairNat (pairNat now die) 56) &&
    s.blocks.all fun b => b.2.core.all (fun n => dieOf n != die) || b.2.groups.all fun g => g.2.issuedAt != now + 1

/-- The reason of a slot in a cycle (R408): what its quarter found when it last looked in that cycle; where it has not looked, what keeps
the group from issuing, or that it was not selected. Whether a group that did not issue was throttled, or waited for its words or for a
permit, is free: the model has none of these waits (log entries 57, 81). -/
def State.reason (s : State) (core slot u g : Nat) : Nat :=
  let G := s.grp u g
  let now := s.cycleOf core
  if G.issuedAt = now + 1 then 0
  else
    let why := if G.whyAt = now + 1 then G.why
      else match s.waitsFor u g now G.offer.1 with
        | some r => G.reasonCode r
        | none => if G.trapped then 2 else 15
    let pick := Config.freeNat (pairNat (pairNat (pairNat now core) slot) 55) % 3
    if s.gated (dieOf core) now then 1
    else if pick = 1 && why != 2 && !G.offer.1.isEmpty then 3
    else if pick = 2 && decide (11 ≤ why) then 10
    else why

/-- Cores of a die that hold a block. -/
def State.busyCores (s : State) (die : Nat) : List Nat :=
  ((s.blocks.filterMap fun b => if b.2.live then b.2.core else none).filter fun n => dieOf n == die).sortUp.eraseDups

/-- The lanes of a group's run, and its PC, that a sample names. -/
def Group.sample (G : Group) (now : Nat) : Nat × Nat :=
  if G.issuedAt = now + 1 then (G.lastRun.length, G.lastPc)
  else
    let run := G.offer.1
    let live := G.full.filter fun L => (G.lane L).status != .ended
    (run.length, G.minPc (if run.isEmpty then live else run))

/-- A sample record of the present cycle. -/
def State.sampleBytes (s : State) (core quarter slot u g : Nat) : List Byte :=
  let b := s.blk u
  let x := (b.grp g).sample (s.cycleOf core)
  let t := s.tickAt (128 + core)
  leBytes 4 t
    ++ leBytes 4 (x.1 % 64 + 64 * s.reason core slot u g + 1024 * (slot % 8) + 8192 * quarter + 2 ^ 15 * core + 2 ^ 24 * (t / 2 ^ 32 % 256))
    ++ leBytes 4 ((x.2 + 2 ^ 57 - b.code) % 2 ^ 32)
    ++ leBytes 4 (b.bid % 65536 + 65536 * (g % 16) + 2 ^ 20 * b.ctx)

/-- The samples of a quarter's slots of a context in the present cycle, in ascending slot order (R408). -/
def State.samples (s : State) (core quarter ctx : Nat) : List (List Byte) :=
  ((((s.slotList core).filter fun x => x.1 / 8 == quarter && (s.blk x.2.1).ctx == ctx).sortBy fun a b => decide (a.1 ≤ b.1))).map fun x =>
    s.sampleBytes core quarter x.1 x.2.1 x.2.2

/-- A quarter counts a cycle in which it holds a group of a context; at each period its slots are sampled (R408). -/
def State.sampleCount (s : State) (core quarter ctx : Nat) : State :=
  let k := s.core core
  let q := k.quarter quarter
  let p := (s.ctx ctx).sampPeriod
  let n := mget 0 q.samp ctx + 1
  if p = 0 then s
  else s.setCore core (k.setQuarter quarter (if n < p then { q with samp := mset 0 q.samp ctx n }
    else { q with samp := mset 0 q.samp ctx 0, sampDue := mset [] q.sampDue ctx (mget [] q.sampDue ctx ++ s.samples core quarter ctx) }))

/-- A core's counters for the cycle that ends: the array is busy while a pass that has started runs (R405, R407). -/
def State.countCore (s : State) (core : Nat) : State :=
  let slots := s.slotList core
  let ctxs := (slots.map fun x => (s.blk x.2.1).ctx).eraseDups
  let s0 := s
  let s := ctxs.foldl (fun s c => s.count c 0x01 1) s
  let s := slots.foldl (fun s x =>
    let code := s0.reason core x.1 x.2.1 x.2.2
    (List.range 16).foldl (fun s k => s.count (s0.blk x.2.1).ctx (0x20 + k) (if code = k then 1 else 0)) (s.unitAdd core code 1)) s
  let s := match (s.core core).array with
    | some x => if (s.matHead x.1 x.2).any (·.started) then (s.unitAdd core 19 1).count (s.blk x.1).ctx 0x0E 1 else s
    | none => s
  (List.range 4).foldl (fun s q =>
    (((slots.filter fun x => x.1 / 8 == q).map fun x => (s.blk x.2.1).ctx).eraseDups).foldl (fun s c => s.sampleCount core q c) s) s

/-- What is in use as a cycle of a die begins (R417). -/
def State.openCycle (s : State) (die : Nat) : State :=
  { s with
    cores := s.cores.map fun c => (c.1, if dieOf c.1 = die then { c.2 with inUse := {
      ld := c.2.ldq.length, st := c.2.stq.length, chans := (c.2.chans.filter fun x => x.2.busy).map (·.1)
      mat := if c.1 % 4 = 0 then s.passesHeld (c.1 / 4) else 0 } } else c.2)
    blocks := s.blocks.map fun b => (b.1, if b.2.core.any fun n => dieOf n == die then
      { b.2 with groups := b.2.groups.map fun g => (g.1, { g.2 with matUsed := g.2.matq.length }) } else b.2) }

/-- A clock domain stands gated: from the tick at which its own copy of the tick reaches STOPAT to the tick after a resume (R413, R414).
Its copy is that of a unit as in `tickAt`. -/
def State.gatedAt (s : State) (unit : Nat) : Bool :=
  decide (s.tick < s.resumeTick) ||
    (if s.stopped then decide (s.stopTick ≤ s.tickAt unit)
     else s.stopat != BitVec.ofNat 64 (2 ^ 64 - 1) && decide (s.stopSet < s.stopat.toNat) && decide (s.stopat.toNat ≤ s.tickAt unit))

/-- The unit whose copy of the tick the arithmetic clock of a core's die goes by. -/
def dieUnit (core : Nat) : Nat := 128 + 128 * dieOf core

/-- An arithmetic cycle of a die passes; none while its clock is gated (R23, R413). -/
def State.cycle (s : State) (die : Nat) : State :=
  if s.gatedAt (dieUnit (128 * die)) then s
  else
    let s := (s.busyCores die).foldl (fun s n => s.countCore n) s
    ({ s with cycles := mupd 0 s.cycles die (· + 1) }).openCycle die

/-! ## A tick passes (R24, R113, R124, R147, R356, R413, R415) -/

/-- The module stops at the tick that STOPAT names, when STOPAT was written before that tick (R413, R414). -/
def State.stopNow (s : State) : State :=
  if s.stopat.toNat ≠ 2 ^ 64 - 1 ∧ s.stopat.toNat = s.tick ∧ s.stopSet < s.tick ∧ s.stopped = false then
    { s with stopped := true, stopat := BitVec.ofNat 64 (2 ^ 64 - 1), stopTick := s.tick }
  else s

/-- Ticks that kernels and contexts spend on cores (R113, R147). -/
def State.residency (s : State) : State :=
  let on := s.blocks.filterMap fun b => if b.2.live then b.2.core.map fun n => (b.2.ctx, n, b.2.kernel) else none
  let s := ((on.map fun x => x.2.2).eraseDups).foldl (fun s k => s.setKernel k { s.kernel k with counted := (s.kernel k).counted + 1 }) s
  ((on.map fun x => (x.1, x.2.1)).eraseDups).foldl (fun s x =>
    let c := s.ctx x.1
    s.setCtx x.1 { c with residency := mupd 0 c.residency x.2 (· + 1), turn := mupd 0 c.turn x.2 (· + 1) }) s

/-- Heads that wait: since when (R124). -/
def State.queueTick (s : State) : State :=
  { s with queues := s.queues.map fun x =>
      (x.1, match x.2.bound, x.2.since with
        | some c, none => if s.mayPop c x.1 then { x.2 with since := some s.tick } else x.2
        | _, _ => x.2) }

/-- Quadrants that hold a block as a tick begins (R415). -/
def State.quadTick (s : State) : State :=
  let qs := (s.blocks.filterMap fun b => if b.2.live then b.2.core.map (· / 32) else none).eraseDups
  qs.foldl (fun s q => s.setQuad q { s.quad q with busyAt := s.tick }) s

/-- The global tick advances (R24); a stop that is due comes first. What the gated clock domains count stands still (R147). -/
def State.advance (s : State) : State :=
  let s := s.stopNow
  let s := s.actTick
  let s := if s.stopped || decide (s.tick < s.resumeTick) then s else s.residency
  let s := s.queueTick
  { s with tick := s.tick + 1 }.quadTick

/-! ## What a stop holds (R413) -/

/-- Steps of the gated clock domains: cores, engines, slices, base dies, placement. Steps of the island, of hosts and of the
links go on; a host's access, a doorbell among them, is held in the island, and so is a packet for the dies (`pktWaits`). -/
def gatedStep : Instr → Bool
  | .pageWalk _ _ | .lateFault _ | .storeFaultRecord _ | .forcedDelivery _ _ | .trapEntry _ _ | .loadReturn _ | .storePerform _
  | .atomicPerform _ | .asofWalk _ | .accessCount | .qtQuantumExpiry _ | .hostStampHold _ | .matrixArbitration _
  | .passPerform _ _ _ | .accOpPerform _ _ _ | .engineFault _ | .copySectorWrite _ | .copyEntryPerform _ | .chainRecord _ _
  | .uncorrectableError _ _ | .blockRollback _ | .placementPop _ | .teamReservation _ | .partialEviction _ _ | .blockEvict _
  | .blockEnd _ | .decrementRetry _ | .kernelEnded _ | .watchdogExpiry _ | .kernelKilled _ | .contextKillDone _
  | .compensationStart _ | .commitDiscard _ _ _ | .actTimeout _ | .historyReclaim _ | .historyRetentionExpiry _ | .pinTimeout _ _
  | .domainRebase | .pageRekey _ | .channelRetrain _ _ | .scrub _ | .seriesLatch | .pcSample _ _ | .quadrantTest _
  | .hostMemRead _ _ _ | .hostMemWrite _ _ _ | .queueDoorbell _ _ _ | .tlbInval _ _ _ _ => true
  | .hostRegisterWrite _ off _ => decide (0x1010000 ≤ off ∧ off < 0x1011000)
  | _ => false

/-- The unit whose copy of the tick the domain of a step goes by: of a step on a core that core's die, else the slices'. -/
def State.unitOf (s : State) (i : Instr) : Nat :=
  let core := fun (n : Nat) => dieUnit n
  let blk := fun (u : Nat) => dieUnit (((s.blk u).core).getD 0)
  let ref := fun (e : EngRef) => match e with
    | .mat u _ => blk u
    | .ld n _ | .st n _ | .ch n _ => core n
  match i with
  | .pageWalk op _ | .lateFault op | .storeFaultRecord op | .loadReturn op | .storePerform op | .atomicPerform op | .asofWalk op
  | .qtQuantumExpiry op | .hostStampHold op => blk (((s.op? op).map (·.blk)).getD 0)
  | .forcedDelivery u _ | .trapEntry u _ | .passPerform u _ _ | .accOpPerform u _ _ | .uncorrectableError u _ | .blockRollback u
  | .blockEvict u | .blockEnd u => blk u
  | .engineFault e | .copySectorWrite e | .copyEntryPerform e => ref e
  | .matrixArbitration n | .chainRecord n _ | .partialEviction _ n | .placementPop n | .pcSample n _ => core n
  | _ => 0

/-! ## The domain rebase (R400) -/

/-- The as-of loads that the group of a block waits to issue until their stamp is settled, one for each lane that acts (R249). -/
def State.asofWaiting (s : State) (u g : Nat) : List Pend :=
  let b := s.blk u
  let G := b.grp g
  let core := b.core.getD 0
  let now := s.cycleOf core
  let run := G.offer.1
  if b.core.isNone || (s.waitsFor u g now run).isSome then []
  else
    let pc := (G.lane (run.headD 0)).pc
    match s.fetch u pc with
    | .fault _ _ => []
    | .ok w t => match decode w.1 w.2 with
      | .ok (.ldAsof x stamp nb _ _ a _) =>
        let i : Issue := ⟨⟨u, g, run, w.1, w.2, pc, core, b.quarterOf g, none⟩, G.acting run, [], s.fresh, now⟩
        if nb || decide ((kpair now G i.iid stamp).toNat ≤ s.settled core) then []
        else i.lanes.map fun L => { basePend t i with
          kind := .asof, lanes := [L], addr := laneVa t i a L, size := Width.bytes x, fault := some 13, uid := s.fresh + 1 + L }
      | _ => []

/-- DOMAIN_REBASE (R400): the stamp base becomes the tick; logs, stamps, floors are cleared, pins break, as-of entries die, and
as-of loads raise HISTORY_RECLAIMED, those in flight and those that wait. -/
def State.rebase (s : State) : State :=
  let pins := s.ctxs.flatMap fun c => (c.2.pins.filter fun p => p.2.used && !p.2.broken).map fun p => (c.1, p.1)
  let waiting := s.blocks.flatMap fun b => b.2.groups.flatMap fun g => s.asofWaiting b.1 g.1
  let s := pins.foldl (fun s x => s.breakPin x.1 x.2) s
  let s := (s.dropHistory.zeroFloors).memoMap fun _ ms => ms.filter fun m => !m.asof
  let s := { s with
    slices := [], stampBase := s.tick, peerDusk := [], peerPins := []
    pend := s.pend.map fun (p : Pend) => if p.kind == PKind.asof && !p.done then { p with fault := some 13, sent := false } else p }
  waiting.foldl State.lateFault { s with fresh := s.fresh + 33 }

/-- It begins when the stamp time reaches 2^50 − 2^45 (R400); DOMAIN_CONFIG makes one at once. -/
def execDomainRebase (s : State) : Res := .next (if 2 ^ 50 - 2 ^ 45 ≤ s.tick - s.stampBase then s.rebase else s)

end Sys2Proof.Machine
end

