-- ==== Sys2Proof/Machine/Observe.lean ====
section
/-! DEFINITION. The counter series, samples, the trace ring, the owner's event ring, stops and in-field tests (R379, R380,
R403-R416). -/

namespace Sys2Proof.Machine

/-! ## Stores at a PA that the owner names (R375, R403) -/

/-- A PA is well formed as local or host memory (R309). -/
def paOk (pa : Nat) : Bool := decide (pa < 2 ^ 52) && pa % 2 ^ 48 / 2 ^ 40 == 0 && (pa / 2 ^ 48 == 0 || pa / 2 ^ 48 == 2)

/-- Bytes read at a PA; local memory under context 0's key (R401). -/
def State.paLoad (s : State) (pa n : Nat) : List Byte :=
  if pa / 2 ^ 48 = 2 then rdBytes s.mem (hostBase + pa % 2 ^ 40) n
  else (List.range n).flatMap fun i => s.readLocal (s.ctx 0).key ((pa + i) % 2 ^ 40) 1

/-- Bytes stored at a PA; local memory under context 0's key (R401), a page with an exhausted write counter being re-keyed first (R402). -/
def State.paStore (s : State) (pa : Nat) (bs : List Byte) (rel : Bool) : State :=
  if pa / 2 ^ 48 = 2 then s.hostPut (pa % 2 ^ 40) bs
  else (splitLines (pa % 2 ^ 40) (bs.length + 1) bs).foldl (fun s x =>
    let s := if s.lineFull x.1 then s.rekey (x.1 / 4096) else s
    (s.storeLocal (s.ctx 0).key x.1 x.2 false rel 0 none).2) s

/-! ## The counter series (R404, R407) -/

/-- Kind and counter count of a unit (R407). -/
def unitKind (id : Nat) : Nat × Nat :=
  if id < 512 then (0, 25) else if id < 640 then (1, 8) else if id < 656 then (2, 6) else if id < 660 then (3, 5)
  else if id < 676 then (4, 10) else (5, 6)

/-- The units, in ascending id: 677. -/
def unitIds : List Nat := List.range 512 ++ (List.range 165).map (512 + ·)

/-- A counter of a unit (R407): a core's cycles are its die's. -/
def State.unitWord (s : State) (id i : Nat) : Word :=
  if (unitKind id).1 = 0 ∧ i = 16 then BitVec.ofNat 32 (s.cycleOf id) else mget 0#32 s.units (id * 32 + i)

/-- A unit's frame (R407). -/
def State.frame (s : State) (id : Nat) : List Byte :=
  let k := unitKind id
  leBytes 8 s.tick ++ leBytes 2 id ++ [BitVec.ofNat 8 k.1, BitVec.ofNat 8 k.2] ++ leBytes 4 s.serSeq
    ++ wordBytes ((List.range k.2).map fun i => s.unitWord id i) ++ List.replicate (112 - 4 * k.2) 0#8

/-- Write a frame to the series ring (R404). -/
def State.framePush (s : State) (frame : List Byte) : State :=
  let base := s.serBase.toNat
  let w := leNat (s.paLoad base 4)
  let r := leNat (s.paLoad (base + 4) 4)
  if (w + 2 ^ 32 - r) % 2 ^ 32 = 2 ^ s.serSize then
    s.paStore (base + 8) (leBytes 4 (min (leNat (s.paLoad (base + 8) 4) + 1) 0xFFFFFFFF)) false
  else (s.paStore (base + 16 + 128 * (w % 2 ^ s.serSize)) frame false).paStore base (leBytes 4 ((w + 1) % 2 ^ 32)) true

/-- A latch is due at this tick. -/
def State.latchDue (s : State) : Bool :=
  s.seriesk.toNat != 0 && (s.tick - s.stampBase) % 2 ^ s.seriesk.toNat == 0 && s.serLast != s.tick + 1

/-- SERIES_LATCH (R407): every unit latches its counters on one tick, and their frames are written. -/
def State.seriesLatch (s : State) : State :=
  if !s.latchDue then s
  else
    let t := if s.serSize = 0 then s else (unitIds.map s.frame).foldl State.framePush s
    { t with serSeq := (s.serSeq + 1) % 2 ^ 32, serLast := s.tick + 1, fresh := t.fresh + 1 }
def execSeriesLatch (s : State) : Res := .next s.seriesLatch

/-- The tick advances; a latch that is due on it is made first, unless the slices stand gated (R407, R413). -/
def State.passTick (s : State) : State := (if s.gatedAt 0 then s else s.seriesLatch).advance

/-! ## PC sampling (R408) -/

/-- Push records one after another: how it goes, and what is left of them. -/
def State.pushAll (s : State) (ctx va m : Nat) : List (List Byte) → RingR × List (List Byte)
  | [] => (.ok s, [])
  | r :: rs => match (s.ringPush ctx va m r).1 with
    | .ok t => t.pushAll ctx va m rs
    | .wait t => (.wait (s.stalled t), r :: rs)
    | .fault va t => (.fault va t, [])

/-- The sample records of a context that a quarter has still to write. -/
def State.setDue (s : State) (core quarter ctx : Nat) (l : List (List Byte)) : State :=
  let k := s.core core
  let q := k.quarter quarter
  s.setCore core (k.setQuarter quarter { q with sampDue := mset [] q.sampDue ctx l })

/-- A quarter writes the samples of a context (R404, R408). -/
def State.sampleCtx (s : State) (core quarter ctx : Nat) : State :=
  let c := s.ctx ctx
  match s.pushAll ctx c.sampBase.toNat c.sampM (mget [] ((s.core core).quarter quarter).sampDue ctx) with
  | (.ok t, _) => t.setDue core quarter ctx []
  | (.wait t, left) => t.setDue core quarter ctx left
  | (.fault va t, _) => ((t.setCtx ctx { t.ctx ctx with sampPeriod := 0 }).setDue core quarter ctx []).notifyFault ctx 1 va

/-- PC_SAMPLE (R408). -/
def State.pcSample (s : State) (core quarter : Nat) : State :=
  ((s.core core).quarter quarter).sampDue.foldl (fun s x => s.sampleCtx core quarter x.1) s
def execPcSample (core quarter : Nat) (s : State) : Res := .next (s.pcSample core quarter)

/-! ## The trace ring (R404, R409-R411) -/

/-- A trace record's bytes with its tick delta. -/
def TraceRec.bytes (r : TraceRec) (delta : Nat) : List Byte :=
  leBytes 4 (r.kind + 16 * (r.slot % 32) + 512 * (r.core % 512)) ++ leBytes 2 delta ++ leBytes 2 r.aux ++ leBytes 4 r.lo ++ leBytes 4 r.hi

/-- TIME or GAP (R411). -/
def TraceRec.timed (r : TraceRec) (kind tick : Nat) : TraceRec :=
  { r with kind := kind, aux := 0, lo := tick % 2 ^ 32, hi := tick / 2 ^ 32 % 2 ^ 32, tick := tick }

/-- What precedes a record of a core whose last record was made at `last` − 1, where its last GAP record shows the stop before the tick
`gap` (R411): GAP and TIME after another stop, TIME first and where the delta exceeds 65,535; each with its delta. A record made during the
stop counts as one of the first tick after it. -/
def State.tracePlan (s : State) (r : TraceRec) (last gap : Nat) : List (TraceRec × Nat) :=
  let step := fun (r : TraceRec) (t0 : Option Nat) => match t0 with
    | none => [(r.timed 6 r.tick, 0), (r, 0)]
    | some t => if r.tick - t ≤ 65535 then [(r, r.tick - t)] else [(r.timed 6 r.tick, 0), (r, 0)]
  let before := if last = 0 then none else some (last - 1)
  if s.resumeTick ≠ 0 ∧ gap ≠ s.resumeTick ∧ s.stopTick < r.tick then
    step (r.timed 7 s.stopTick) before ++ [(r.timed 6 s.resumeTick, 0)] ++ step { r with tick := max r.tick s.resumeTick } (some s.resumeTick)
  else step r before

/-- How the writing of trace records goes on: one must wait, with what is left. -/
inductive TraceR where
  | done (s : State)
  | wait (s : State) (left : List TraceRec)
  deriving DecidableEq, Repr

/-- Write one planned record: a record that is dropped leaves its group due for SYNC; a fault turns the stream off (R404, R410). -/
def State.traceWrite (s : State) (x : TraceRec × Nat) : TraceR :=
  let c := s.ctx x.1.ctx
  if !c.trcEn then .done s
  else match s.ringPush x.1.ctx c.trcBase.toNat c.trcM (x.1.bytes x.2) with
    | (.ok t, true) =>
      let c := t.ctx x.1.ctx
      .done (t.setCtx x.1.ctx { c with trcLast := mset 0 c.trcLast x.1.core (x.1.tick + 1)
                                       trcGap := if x.1.kind = 7 then mset 0 c.trcGap x.1.core s.resumeTick else c.trcGap })
    | (.ok t, false) => .done (t.setGrp x.1.blk x.1.grp { t.grp x.1.blk x.1.grp with syncDue := true })
    | (.fault va t, _) => .done ((t.setCtx x.1.ctx { t.ctx x.1.ctx with trcEn := false }).notifyFault x.1.ctx 2 va)
    | (.wait t, _) => .wait (s.stalled t) []

/-- Write planned records in order. -/
def State.traceWrites (s : State) : List (TraceRec × Nat) → TraceR
  | [] => .done s
  | x :: r => match s.traceWrite x with
    | .done t => t.traceWrites r
    | w => w

/-- Write records, each with what precedes it; one that must wait keeps those after it back. -/
def State.traceList (s : State) : List TraceRec → TraceR
  | [] => .done s
  | r :: rs =>
    let c := s.ctx r.ctx
    match s.traceWrites (s.tracePlan r (mget 0 c.trcLast r.core) (mget 0 c.trcGap r.core)) with
    | .done t => t.traceList rs
    | .wait t _ => .wait t (r :: rs)

/-- Write one record; SYNC records of its group come first where they are due (R410). -/
def State.traceOne (s : State) (r : TraceRec) : TraceR :=
  if (s.grp r.blk r.grp).syncDue && r.kind != 0 then
    let t := ({ s with traced := [] }).traceSync r.blk r.grp
    ({ t with traced := s.traced }).traceList (t.traced ++ [r])
  else s.traceList [r]

/-- Write the trace records that the step made; a record whose store waits keeps those after it back. -/
def State.traceFlush (s : State) : List TraceRec → State
  | [] => { s with traced := [] }
  | r :: rs => match s.traceOne r with
    | .done t => t.traceFlush rs
    | .wait t left => { t with traced := left ++ rs }

/-! ## The owner's event ring (R379, R380) -/

/-- Offer an event to the owner's ring: with no owner, no ring or a full ring it stays in the log alone. -/
def State.eventPut (s : State) (e : EventRec) : State :=
  match s.island.owner with
  | none => s
  | some h =>
    let w := s.host h
    let n := w.evtSize.toNat
    if n = 0 ∨ (w.evtTail - w.evtHead).toNat = 2 ^ n then s
    else
      (s.hostPut (w.evtBase.toNat + 32 * (w.evtTail.toNat % 2 ^ n)) e.bytes).setHost h { w with evtTail := w.evtTail + 1 }

/-- What a step leaves for the rings, the other members and the ports: trace records, once the slices run, and events are written, a risen
dusk is sent, packets go to the ports (R369, R398, R404, R413). -/
def State.flush (s : State) : State :=
  let s := if s.gatedAt 0 then s else s.traceFlush s.traced
  let s := s.logNew.foldl State.eventPut s
  let s := { s with logNew := [] }
  (if s.duskNew then { s with duskNew := false }.tellAll 3 (leBytes 8 s.ownDusk) else s).transmit

/-! ## Stops (R413, R414) -/

/-- A write that is dropped and logged (R380). -/
def State.dropped (s : State) (source cause off : Nat) : State :=
  s.emit 0x10 0xFFFF ([BitVec.ofNat 8 source, BitVec.ofNat 8 cause] ++ List.replicate 6 0#8 ++ leBytes 8 off)

/-- STOP_AT (R413). -/
def execStopAt (s : State) : Res := .next s.stopNow

/-- STOP_RESUME (R403, R414): the owner ends a stop. -/
def State.stopResume (s : State) (host : Nat) : State :=
  if s.island.owner ≠ some host then s.dropped host 1 0x3002C
  else if s.stopped then
    -- Myern does not count the gated ticks toward the heartbeat limit (R413)
    { s with stopped := false, resumeTick := s.tick + 1
             island := { s.island with beats := s.island.beats.map fun b => (b.1, b.2 + (s.tick + 1 - s.stopTick)) } }
  else s
def execStopResume (host : Nat) (s : State) : Res := .next (s.stopResume host)

/-! ## In-field tests (R14, R415, R416) -/

/-- A quadrant holds a block. -/
def State.quadBusy (s : State) (q : Nat) : Bool := s.blocks.any fun b => b.2.live && (match b.2.core with
  | some n => n / 32 == q
  | none => false)

/-- QUADRANT_TEST (R415): the quadrant has held no block for 10 ms; it pops nothing during the test. -/
def State.quadTest (s : State) (q : Nat) : State :=
  let x := s.quad q
  if s.island.st = 3 ∧ q < 16 ∧ s.quadBusy q = false ∧ x.busyAt + 10000000 ≤ s.tick ∧ s.island.quarantine.getLsbD q = false ∧ x.testing = none
  then s.setQuad q { x with testing := some s.tick } else s
def execQuadrantTest (q : Nat) (s : State) : Res := .next (s.quadTest q)

/-- The payload of a QUARANTINE event (R415). -/
def quarantineBytes (x : Quad) (q : Nat) (cleared : Bool) : List Byte :=
  leBytes 6 x.lastPass ++ leBytes 6 x.failTick ++ [BitVec.ofNat 8 q, if cleared then 1#8 else 0#8, 0#8, 0#8]

/-- The bytes of the part record that its signature covers (R12). -/
def Island.partBytes (i : Island) : List Byte :=
  i.partNo ++ i.serial ++ leBytes 8 i.partVer ++ i.exposure ++ leBytes 2 i.quarantine.toNat ++ List.replicate 26 0#8

/-- A quadrant's quarantine bit is written in a new, signed record version (R12, R14). -/
def Island.remark (i : Island) (q : Nat) (v : Bool) : Island :=
  let i := { i with quarantine := setBit i.quarantine q v, partVer := i.partVer + 1 }
  { i with signature := leBytes 96 (Config.sign i.partBytes).toNat }

/-- A quadrant that fails is quarantined (R14, R415): the events name the contexts that stood on it since its last pass. -/
def State.quarantineQuad (s : State) (q : Nat) : State :=
  let x := { s.quad q with failTick := s.tick, testing := none }
  let s := s.setQuad q x
  let s := { s with island := (s.island.remark q true) }
  let ctxs := ((s.placeLog.filter fun p => p.quad == q && decide (x.lastPass ≤ p.tick ∧ p.tick ≤ s.tick)).map PlaceRec.ctx).sortUp.eraseDups
  (0xFFFF :: ctxs).foldl (fun s c => s.emit 0x0D c (quarantineBytes x q false)) s

/-- QUADRANT_TEST_DONE (R415). -/
def State.quadDone (s : State) (q : Nat) (pass : Bool) : State :=
  let x := s.quad q
  if x.testing.isNone then s
  else if pass then s.setQuad q { x with testing := none, lastPass := s.tick }
  else s.quarantineQuad q
def execQuadrantTestDone (q : Nat) (pass : Bool) (s : State) : Res := .next (s.quadDone q pass)

/-- A retest of a quarantined quadrant (R416); what it returns. -/
def State.retestQuad (s : State) (q : Nat) (pass : Bool) : Nat × State :=
  if 16 ≤ q ∨ s.island.quarantine.getLsbD q = false then (3, s)
  else if !pass then (1, s)
  else
    let x := { s.quad q with lastPass := s.tick }
    let s := s.setQuad q x
    let s := { s with island := (s.island.remark q false) }
    (0, s.emit 0x0D 0xFFFF (quarantineBytes x q true))

end Sys2Proof.Machine
end

