-- ==== Sys2Proof/Machine/Island.lean ====
section
/-! DEFINITION. The island's states, boot and the cut, membership, ports, and the packets of the load-store domain
(R12, R13, R23, R95, R96, R359, R361-R373, R381, R398). -/

namespace Sys2Proof.Machine

/-! ## Events and broadcasts -/

/-- The island changes its state, with ISLAND_STATE (R371, R380). -/
def State.enter (s : State) (st cause : Nat) : State :=
  let old := s.island.st
  let s := { s with island := { s.island with st := st, cause := cause } }
  s.emit 0x0A 0xFFFF [BitVec.ofNat 8 st, BitVec.ofNat 8 old, BitVec.ofNat 8 cause, s.island.inc]

/-- DOWN (0), UP without an incarnation (1) or UP with one (2) to every other member (R361, R371). -/
def State.broadcast (s : State) (code : Nat) : State := s.tellAll code []

/-- Add to a port's counter (R407). -/
def State.portAdd (s : State) (port idx : Nat) : State := s.unitAdd (660 + port % 16) idx 1

/-- A packet is discarded and counted; the port it came by is not known to the packet (R366, R407). -/
def State.discardPkt (s : State) : State :=
  { s with fresh := s.fresh + 1 }.portAdd (Config.freeNat (pairNat s.fresh 21)) 5

/-! ## What a reset of the compute dies discards (R96, R371) -/

/-- Every context that is not free is lost (R96, R380). -/
def State.loseContexts (s : State) (cause : Nat) : State :=
  (s.ctxs.filter fun c => c.2.state != .free).foldl (fun s c => s.emit 0x0F c.1 [BitVec.ofNat 8 cause]) s

/-- The compute dies are reset: contexts, queues, kernels, blocks, accesses in flight, activities, the vesper segment and the
history logs go; HBM contents, maps, counters of the series and the island's registers stay (R371). -/
def State.dropCompute (s : State) : State :=
  { s with cur := none, tlb := [], pend := [], counted := [], blocks := [], cores := [], ctxs := [], kernels := [], teams := []
           queues := [], held := [], devSent := [], acts := [], vesper := [], hostq := [], noted := [], rings := [], heads := [], lastWrite := [], traced := [], receipts := []
           quads := s.quads.map fun (q : Nat × Quad) => (q.1, { q.2 with testing := none })
           stopped := false, stopat := BitVec.ofNat 64 (2 ^ 64 - 1)
           island := { s.island with duskDue := true } }

/-- Lines not yet written back are discarded (R371): each 8-byte unit of local memory that was written since the last such loss may hold
any bytes then (log entry 77). -/
def State.loseDirty (s : State) : State :=
  let written := (s.past.filter fun x => decide (8 * x.1 < hostBase)).map (·.1)
  let lost := written.filter fun u => Config.freeBool (pairNat (pairNat s.fresh 47) u)
  { s with mem := lost.foldl (fun m u => wrBytes m (8 * u) (leBytes 8 (Config.freeNat (pairNat (pairNat s.fresh 48) u)))) s.mem
           past := s.past.filter fun x => !decide (8 * x.1 < hostBase), fresh := s.fresh + 1 }

/-- Drain begins (R371, R373): DOWN is broadcast, placement stops. -/
def State.drain (s : State) (cause : Nat) : State :=
  let s := (s.broadcast 0).enter 4 cause
  { s with island := { s.island with drainTick := s.tick } }

/-- The cut (R371): it comes when every line is written back, or after 1 ms, with what is not written back lost. -/
def State.cut (s : State) : State :=
  if s.island.st ≠ 4 then s
  else
    let t := if s.island.drainTick + 1000000 ≤ s.tick then s.loseDirty else s
    ((t.loseContexts 1).dropCompute).enter 2 s.island.cause
def execCut (s : State) : Res := .next s.cut

/-- Every port goes down and its packets with it, or trains from now on (R364, R371). -/
def State.resetPorts (s : State) (trains : Bool) : State :=
  { s with ports := (List.range 16).foldl (fun m n => mset {} m n ({
      down := !trains, training := if trains then some s.tick else none, downAt := s.tick, losses := (s.port n).losses } : Port)) [] }

/-- Boot begins: ports train, events are numbered anew, ownership is vacant, the window registers, maps and hres take their defaults, or
what Myern stores for the maps and hres (R371, R375, R376, R379, R391, R407). -/
def State.bootStart (s : State) (cause : Nat) : State :=
  let owner := s.island.owner
  let s := { s with hosts := [], replies := [], maps := s.island.service.maps.map fun (x : Nat × List Nat) => (x.1, ({ active := some x.2 } : MapReg)), hres := s.island.service.hres, logNext := 1, serSeq := 0, serLast := 0, serBase := 0#64, serSize := 0
                    hretain := BitVec.ofNat 32 (2 ^ 30), seriesk := 16#32, retrain := 50000000#32, tlbCmd := none
                    retained := [], rx := []
                    island := { s.island with unverified := false, owner := none, heartbeat := 0, hbPeriod := 100, hmemctx := 0#32, lastAccepted := 0#32, claims := []
                                              ideKeys := [], bank := s.island.nextBank, bootTick := s.tick, boots := s.island.boots + 1 } }
  let s := (s.resetPorts true).enter 1 cause
  match owner with
  | some h => s.emit 0x0C 0xFFFF [0xFF#8, BitVec.ofNat 8 h, 3#8]
  | none => s

/-- ISLAND_RESET's effect (R371): the compute dies are reset at once, without write-back; a DOWN goes out first. -/
def State.islandReset (s : State) : State :=
  let lost := (s.ctxs.filter fun c => c.2.state != .free).map (·.1)
  let s := ((((s.broadcast 0).sendNow).loseDirty).dropCompute).bootStart 0
  lost.foldl (fun s c => s.emit 0x0F c [2#8]) s

/-! ## Power and boot (R12, R13, R95, R371, R381, R401) -/

/-- Set bits of a list of bytes. -/
def popBytes (bs : List Byte) : Nat := bs.foldl (fun n b => n + ((List.range 8).filter fun i => b.getLsbD i).length) 0

/-- A die's exposure map (R12). -/
def Island.map (i : Island) (die : Nat) : List Byte := (i.exposure.drop (17 * die)).take 17

/-- Every die's map has exactly 128 bits set (R12, R13). -/
def Island.mapsOk (i : Island) : Bool := (List.range 4).all fun d => popBytes (i.map d) == 128

/-- The built core, 0 to 135 of its die, that stands at a logical position: exposed cores in ascending order (R13). -/
def Island.builtCore (i : Island) (core : Nat) : Option Nat :=
  ((List.range 136).filter fun j => ((i.map (dieOf core)).getD (j / 8) 0#8).getLsbD (j % 8))[core % 128]?

/-- POWER_GOOD (R12, R371, R401): off to boot, with the part record as the store holds it, which verifies where its signature does and its
zero fields are zero; write counters and page generations are cleared, and HBM holds nothing. -/
def State.powerGood (s : State) (rcd : List Byte) (sigOk : Bool) : State :=
  if s.island.st ≠ 0 then s
  else
    let s := { s with mem := s.mem.filter fun c => decide (hostBase ≤ c.1)
                      past := [], lines := [], pageGen := [], poison := []
                      island := { s.island with
                        partOk := sigOk && ((rcd.drop 102).take 26).all fun b => b == 0#8
                        -- the store's newest record: a quarantine bit is cleared by a passed RETEST alone (R14)
                        partNo := rcd.take 8, serial := (rcd.drop 8).take 16, partVer := max s.island.partVer (leNat ((rcd.drop 24).take 8))
                        exposure := (rcd.drop 32).take 68, quarantine := s.island.quarantine ||| BitVec.ofNat 16 (leNat ((rcd.drop 100).take 2))
                        signature := (rcd.drop 128).take 96, cleared := true } }
    s.bootStart 4
def execPowerGood (rcd : List Byte) (sigOk : Bool) (s : State) : Res := .next (s.powerGood rcd sigOk)

/-- POWER_LOST (R371): all but the nonvolatile store, the event log and host memory is gone (log entry 21). -/
def State.powerLost (s : State) : State :=
  let i := s.island
  { s.dropCompute with
    island := { st := 0, partOk := i.partOk, partNo := i.partNo, serial := i.serial, partVer := i.partVer, exposure := i.exposure
                quarantine := i.quarantine, signature := i.signature, service := i.service, bankA := i.bankA, bankB := i.bankB, bank := i.bank, nextBank := i.nextBank, rollback := i.rollback
                boots := i.boots, precedence := i.precedence, cleared := false, inc := i.inc }
    mem := s.mem.filter fun c => decide (hostBase ≤ c.1)
    past := [], lines := [], pageGen := [], poison := [], slices := [], members := [], peerDusk := [], peerPins := [], retained := [], rx := [], out := [], wire := [], ports := []
    e2eOut := [], e2eIn := [], maps := [], hres := 1, units := [], hosts := [], replies := [], quads := [], placeLog := []
    hretain := BitVec.ofNat 32 (2 ^ 30), seriesk := 16#32, retrain := 50000000#32
    serBase := 0#64, serSize := 0 }
def execPowerLost (s : State) : Res := .next s.powerLost

/-- The version of a bank's image. -/
def Island.version (i : Island) (bank : Bool) : Nat := ((if bank then i.bankB else i.bankA).version).getD 0

/-- FW_STATUS (R380, R381). -/
def State.fwStatus (s : State) (bank : Bool) (event version : Nat) : State :=
  s.emit 0x0E 0xFFFF ([if bank then 1#8 else 0#8, BitVec.ofNat 8 event, 0#8, 0#8] ++ leBytes 4 version)

/-- A bank, and the island with another in its place. -/
def Island.bankOf (i : Island) (b : Bool) : Bank := if b then i.bankB else i.bankA
def Island.setBank (i : Island) (b : Bool) (x : Bank) : Island := if b then { i with bankB := x } else { i with bankA := x }

/-- An image fails to reach forward, and the ports stay down; its third failure in a row swaps the banks (R371, R381). -/
def State.bootFailed (s : State) : State :=
  let s := (s.resetPorts false).enter 1 2
  let i : Island := { s.island with unverified := true }
  let x : Bank := i.bankOf i.bank
  if 3 ≤ x.failed + 1 then
    let b := !i.bank
    { s with island := { i.setBank i.bank { x with failed := 0 } with bank := b, nextBank := b } }.fwStatus b 2 (i.version b)
  else { s with island := i.setBank i.bank { x with failed := x.failed + 1 } }

/-- Every port has trained or is down, and no member's tick lies outside the skew bound (R371). -/
def State.bootReady (s : State) : Bool :=
  ((List.range 16).all fun n => (s.port n).training.isNone) && s.members.all fun m => !m.2.member || m.2.skewed.isNone

/-- BOOT_VERIFIED (R12, R13, R15, R371): verification, with an image not below the anti-rollback counter, and then ports that have trained
and a tick that is synchronised bring forward, with an UP without incarnation; a failure keeps boot. A verification that passes after one
that failed lets the ports train. -/
def State.bootVerified (s : State) (fwOk : Bool) : State :=
  if s.island.st ≠ 1 then s
  else if !fwOk || !s.island.partOk || decide (s.island.version s.island.bank < s.island.rollback) then s.bootFailed
  else if s.island.unverified then { s.resetPorts true with island := { s.island with unverified := false } }
  else if !s.bootReady then s
  else
    let i := s.island
    let s := { s with island := i.setBank i.bank { i.bankOf i.bank with failed := 0 } }.broadcast 1
    s.enter 2 (if s.island.mapsOk then s.island.cause else 3)
def execBootVerified (fwOk : Bool) (s : State) : Res := .next (s.bootVerified fwOk)

/-- Context 0 as Myern makes it from its stored configuration (R95). -/
def serviceCtx (v : Service) (boots : Nat) : Ctx :=
  { state := .defined, priv := true, weight := v.weight, tslice := v.tslice, ptroot := v.ptroot, vesper := v.vesper, counterVa := v.counterVa
    counterC := v.counterC, notifyVa := v.notifyVa, notifyM := v.notifyM, queues := v.queues, key := Config.randomKey boots }

/-- A context's compensation queue (R134). -/
def compQueue (ctx : Nat) : HwQueue := { bound := some ctx, st := .armed, prio := 7 }

/-- COMPUTE_RELEASE (R95, R361, R371, R373): forward to joined; the dusk of slices whose history was cut is the stamp of the
entry. End-to-end numbers begin anew with the incarnation (log entry 87). -/
def State.computeRelease (s : State) : State :=
  if s.island.st ≠ 2 ∨ s.island.mapsOk = false then s
  else
    let i := s.island
    let s := { s with retained := [], rx := [], e2eOut := [], e2eIn := []
                      island := { i with inc := i.inc + 1, duskDue := false, beats := (List.range 4).foldl (fun m d => mset 0 m d s.tick) [] } }
    let s := if i.duskDue then (List.range 128).foldl (fun s n => s.setSlice n { s.slice n with dusk := s.sliceT n }) s else s
    let s := (s.setCtx 0 (serviceCtx i.service i.boots)).setQueue 256 (compQueue 0)
    let s := i.service.queues.foldl (fun s x => if x.2 = 0 then s else s.setQueue (x.2 - 1) { bound := some 0, index := x.1 }) s
    (s.broadcast 2).enter 3 i.cause
def execComputeRelease (s : State) : Res := .next s.computeRelease

/-- DIE_HEARTBEAT (R373). -/
def State.dieBeat (s : State) (die : Nat) : State :=
  if s.island.st = 3 ∧ die < 4 then { s with island := { s.island with beats := mset 0 s.island.beats die s.tick } } else s
def execDieHeartbeat (die : Nat) (s : State) : Res := .next (s.dieBeat die)

/-- COMPUTE_HANG (R373, R413): a heartbeat missing for 10 ms; a stop holds the count. -/
def State.hang (s : State) (die : Nat) : State :=
  if s.island.st = 3 ∧ die < 4 ∧ s.stopped = false ∧ mget 0 s.island.beats die + 10000000 ≤ s.tick then s.drain 1 else s
def execComputeHang (die : Nat) (s : State) : Res := .next (s.hang die)

/-- CLOCK_THROTTLE (R23): k from 4 to 16. -/
def State.throttle (s : State) (die k : Nat) : State :=
  if die < 4 ∧ 4 ≤ k ∧ k ≤ 16 then { s with clockK := mset 0 s.clockK die (16 - k) } else s
def execClockThrottle (die k : Nat) (s : State) : Res := .next (s.throttle die k)

/-! ## Answers to what the dies have sent (R227, R230, R366, R372) -/

/-- Flags of an answer, in its first per-kind byte (log entry 9): 1 poisoned, 2 endpoint_absent, 4 HISTORY_RECLAIMED. -/
structure Answer where
  poison : Bool := false
  absent : Bool := false
  gone   : Bool := false
  stamp  : Nat := 0
  data   : List Byte := []
  deriving DecidableEq, Repr

/-- The answer that a response packet carries: the stamp in bytes 24–31 (R366). -/
def pktAnswer (p : Packet) : Answer :=
  let f := (p.spec.getD 0 0#8).toNat
  { poison := bitOf f 0, absent := bitOf f 1, gone := bitOf f 2, stamp := leNat ((p.spec.drop 2).take 8), data := p.data }

/-- The bytes of an answer to a decrement: the counter, or the continuation (R129). -/
def Answer.jdec (a : Answer) (j : Jdec) : List Byte := a.data.take (if j.phase = 2 then 32 else 4)

/-- An operation in flight has its answer. -/
def State.opAnswered (s : State) (p : Pend) (a : Answer) : State :=
  if !p.sent || p.done then s
  else
    let s := if a.absent then s.cirBlk p.blk 3 else s
    match p.kind with
    | .load => s.returned p (loadWords (a.data.take p.size)) a.poison a.stamp
    | .asof => if a.gone then s.setOp { p with fault := some 13, sent := false } else s.returned p (loadWords (a.data.take p.size)) a.poison 0
    | .store => ((s.raiseFloor p.blk p.grp a.stamp).released p).delOp p.uid
    | .sys .jdec => s.setOp { p with jd := p.jd.answer (a.jdec p.jd) (a.poison || a.absent) a.stamp, sent := false }
    | .atomic => s.atomEnd p (bytesWords (a.data.take p.size)) a.poison (if p.dest.isEmpty && !p.hist && p.rel.isNone then 0 else a.stamp)
    | _ => s

/-- The 32 bytes of a sector that an answer carries. -/
def Answer.sector (a : Answer) : List Byte := (a.data ++ List.replicate 32 0#8).take 32

/-- A copy entry's sector, or a chain's record given back, has its answer (R230, R302). -/
def State.copyAnswered (s : State) (r : EngRef) (e : CopyEntry) (a : Answer) : State :=
  if !e.sent then s
  else
    let s := if a.absent then s.cirBlk e.blk 3 else s
    let e := { e with sent := false, at_ := none, maxStamp := max e.maxStamp a.stamp }
    if e.total ≤ e.progress then s.putCopy r (some { e with given := true })
    else match e.kind with
      | .ld | .tile => s.deliverSector r e a.sector a.poison
      | _ => s.copyNext r e

/-- A chain's record, read sector by sector, has an answer (R302). -/
def State.recAnswered (s : State) (core ch : Nat) (x : Chan) (a : Answer) : State :=
  let s := if a.absent then s.cirBlk x.blk 3 else s
  s.setChan core ch { x with rcd := x.rcd ++ a.sector, bad := x.bad || a.poison, bad0 := if x.rcd.isEmpty then a.poison else x.bad0, at_ := none, maxStamp := max x.maxStamp a.stamp }

/-- A matrix operation with an answer: a sector it reads is there, or one that it wrote is done (R230, R259, R263, R270). -/
def MatEntry.answer (e : MatEntry) (a : Answer) : MatEntry :=
  match e.asked with
  | none => e
  | some va =>
    let k := { e with asked := none, at_ := none, maxStamp := max e.maxStamp a.stamp }
    if e.kind == .st then { k with sec := e.sec + 1 } else { k with got := (va, a.sector, a.poison) :: e.got }

/-- The groups' matrix queues with an entry's answer. -/
def State.matAnswered (s : State) (u g : Nat) (e : MatEntry) (a : Answer) : State :=
  let s := if a.absent then s.cirBlk u 3 else s
  let G := s.grp u g
  s.setGrp u g { G with matq := G.matq.map fun x => if x.uid == e.uid then x.answer a else x }

/-- A request of the engines or of the queue unit, by its tag (log entry 9). -/
inductive Asker where
  | copy (r : EngRef) (e : CopyEntry)
  | rcd (core ch : Nat) (x : Chan)
  | mat (blk grp : Nat) (e : MatEntry)
  | held (i : Nat) (h : Held)

/-- A request's tag is the last 32 bits of its uid (R366, log entry 9). -/
def isTag (uid tag : Nat) : Bool := uid % 2 ^ 32 == tag

/-- Who has asked under a tag; a chain's transfer has the uid of its channel. -/
def State.asker (s : State) (tag : Nat) : Option Asker :=
  let copies := (s.copyRefs.filter fun x => isTag x.2.uid tag).map fun x => Asker.copy x.1 x.2
  let recs := s.cores.flatMap fun c => (c.2.chans.filter fun x => isTag x.2.uid tag && x.2.entry.isNone && x.2.at_.isSome).map fun x =>
    Asker.rcd c.1 x.1 x.2
  let mats := s.blocks.flatMap fun b => b.2.groups.flatMap fun g => (g.2.matq.filter fun e => isTag e.uid tag && e.asked.isSome).map fun e =>
    Asker.mat b.1 g.1 e
  let helds := (s.held.zipIdx.filter fun x => isTag x.1.uid tag).map fun x => Asker.held x.2 x.1
  (copies ++ recs ++ mats ++ helds).head?

/-- A store of the device has its answer (R228, R319). -/
def State.devAnswered (s : State) (tag : Nat) (a : Answer) : State :=
  match s.devSent.find? fun d => isTag d.uid tag with
  | none => s
  | some d =>
    let s := match d.kern with
      | some k => if a.absent then s.setCir k 3 else s
      | none => s
    { s with devSent := s.devSent.filter fun x => x.uid != d.uid }

/-- A request of the module has its answer; an answer to what no longer exists is discarded (R372). -/
def State.answered (s : State) (tag : Nat) (a : Answer) : State :=
  match s.pend.find? fun p => isTag p.uid tag with
  | some p => s.opAnswered p a
  | none => match s.asker tag with
    | some (.copy r e) => s.copyAnswered r e a
    | some (.rcd core ch x) => s.recAnswered core ch x a
    | some (.mat u g e) => s.matAnswered u g e a
    | some (.held i h) =>
      let s := if a.absent then s.setCir h.kernel 3 else s
      { s with held := s.held.set i { h with jd := h.jd.answer (a.jdec h.jd) (a.poison || a.absent) a.stamp } }
    | none => s.devAnswered tag a

/-- Markers of a release at a device: those on a path, or on every path, count as acknowledged (R335). -/
def dropMarkers (ms : Option (List (Nat × Nat))) (dev : Nat) (path : Option Nat) : Option (List (Nat × Nat)) :=
  ms.map fun l => l.filter fun m => !(m.1 == dev && (match path with
    | some x => m.2 == x
    | none => true))

/-- Marker waits of one release, or of all, lose a device's markers. -/
def State.markerGone (s : State) (tag : Option Nat) (dev : Nat) (path : Option Nat) : State :=
  let on := fun (uid : Nat) => match tag with
    | some t => isTag uid t
    | none => true
  let fix := fun (e : CopyEntry) => if on e.uid then { e with markers := dropMarkers e.markers dev path } else e
  { s with
    pend := s.pend.map fun p => if on p.uid && p.kind != .sys .tlbinv then { p with markers := dropMarkers p.markers dev path } else p
    cores := s.cores.map fun c => (c.1, { c.2 with
      ldq := c.2.ldq.map fix, stq := c.2.stq.map fix
      chans := c.2.chans.map fun x => (x.1, { x.2 with entry := x.2.entry.map fix }) }) }

/-- The blocks that wait for a marker of a device, with one release, or with any. -/
def State.markerBlocks (s : State) (tag : Option Nat) (dev : Nat) : List Nat :=
  let has := fun (uid : Nat) (ms : Option (List (Nat × Nat))) => (match tag with
    | some t => isTag uid t
    | none => true) && (ms.getD []).any fun m => m.1 == dev
  ((s.pend.filter fun p => p.kind != .sys .tlbinv && has p.uid p.markers).map (·.blk)
    ++ (s.copyRefs.filter fun x => has x.2.uid x.2.markers).map fun x => x.2.blk).eraseDups

/-! ## Membership (R359, R361, R362) -/

/-- A live member is lost (R361); what it held here, pins and packets that wait, goes with it. -/
def State.loseMember (s : State) (dev cause : Nat) : State :=
  let m : Member := mget {} s.members dev
  if !m.member || !m.live || dev == s.device then s
  else
    let s := s.actsLose dev
    let s := { s with members := mset {} s.members dev { m with live := false, skewed := none }, peerPins := s.peerPins.filter (·.1 != dev)
                      receipts := s.receipts.filter (·.1 != dev), rx := s.rx.filter (·.src != dev) }
    let s := s.emit 0x08 0xFFFF [BitVec.ofNat 8 dev, m.inc, BitVec.ofNat 8 cause]
    let s := (s.markerBlocks none dev).foldl (fun s u => s.cirBlk u 3) s
    let s := s.markerGone none dev none
    let reqs := s.retained.filter fun p => p.dst == dev && decide (p.kind ≤ 3)
    let s := { s with retained := s.retained.filter fun p => p.dst != dev }
    reqs.foldl (fun s p => s.answered p.tag { poison := p.kind != 1 && p.kind != 3, absent := true }) s

/-- DOWN_RECEIVED (R361). -/
def execDownReceived (dev : Nat) (s : State) : Res := .next (s.loseMember dev 1)
/-- No port of the module carries blocks, for 1 ms (R361). -/
def State.portless (s : State) : Bool :=
  (List.range 16).all fun n =>
    let p := s.port n
    !p.up && decide ((p.training.getD p.downAt) + 1000000 ≤ s.tick)

/-- MEMBER_UNREACHABLE (R361): no path has reached a member for 1 ms: nothing has come from it in that time, and no port of the module is
up, or, a free choice, the links beyond are cut (log entry 88). -/
def State.unreachable (s : State) (dev : Nat) : State :=
  if (mget {} s.members dev : Member).seen + 1000000 ≤ s.tick && (s.portless || Config.freeBool (pairNat (pairNat s.tick dev) 65))
  then s.loseMember dev 2 else s
def execMemberUnreachable (dev : Nat) (s : State) : Res := .next (s.unreachable dev)

/-- A member joins, or joins again, under an incarnation (R361, R362); one that was live under another has left joined since, which no
DOWN has said, and is lost first (log entry 78). Under a new incarnation end-to-end numbers to and from it begin anew (log entry 87). -/
def State.upFrom (s : State) (dev : Nat) (inc : BitVec 8) : State :=
  let m : Member := mget {} s.members dev
  if !m.member || dev == s.device then s
  else
    let s := if m.live && m.inc != inc then s.loseMember dev 1 else s
    let mine := fun (k : Nat) => !(m.live && m.inc == inc) && k / 4 == dev
    let s := { s with members := mset {} s.members dev { m with live := true, inc := inc, skewed := none, seen := s.tick }
                      e2eOut := s.e2eOut.filter fun x => !mine x.1, e2eIn := s.e2eIn.filter fun x => !mine x.1
                      retained := s.retained.filter fun p => !mine (4 * p.dst) }
    s.emit 0x09 0xFFFF [BitVec.ofNat 8 dev, inc]
def execUpReceived (dev : Nat) (inc : BitVec 8) (s : State) : Res := .next (s.upFrom dev inc)

/-- SKEW_TIMEOUT (R361): a member's tick has differed too much for 1 ms. -/
def State.skewTimeout (s : State) (dev : Nat) : State :=
  match (mget {} s.members dev : Member).skewed with
  | some t => if t + 1000000 ≤ s.tick then s.loseMember dev 3 else s
  | none => s
def execSkewTimeout (dev : Nat) (s : State) : Res := .next (s.skewTimeout dev)

/-- A member's tick arrives (R4, R361). -/
def State.tickSync (s : State) (dev tick : Nat) : State :=
  let m : Member := mget {} s.members dev
  if !m.member then s
  else
    let far := decide (s.tick + 8 < tick) || decide (tick + 8 < s.tick)
    { s with members := mset {} s.members dev { m with seen := s.tick, skewed := if far then (match m.skewed with
        | some t => some t
        | none => some s.tick) else none } }

/-! ## Ports (R364, R365, R370) -/

/-- The acknowledgement, nak and credits of a good block: blocks up to the acknowledged one leave the retry buffer, and a nak has those
after it sent again (R364, R365). -/
def Port.acknowledge (p : Port) (tick : Nat) (b : LinkBlock) : Port :=
  let p := { p with credits := b.credits, naks := if b.nak then p.naks + 1 else 0 }
  if b.valid then
    { p with acked := b.ack, ackTick := tick, retry := p.retry.filter fun x => decide (2048 ≤ (b.ack + 4096 - x.seq) % 4096) }
  else p

/-- BLOCK_RECEIVED (R364-R366): the next block with a good CRC is accepted, and its packets come in; one that has been accepted already is
discarded; any other is nakked. -/
def State.blockReceived (s : State) (port : Nat) (b : LinkBlock) : State :=
  let p := s.port port
  if 16 ≤ port ∨ p.up = false then s
  else if !b.good then s.setPort port { p with nak := true, ackDue := true }
  else
    let p := { p.acknowledge s.tick b with ackDue := true }
    let s := if b.nak then { (s.portAdd port 2).unitAdd (660 + port) 0 p.retry.length with wire := s.wire ++ p.retry.map fun x => (port, x) } else s
    if b.seq == p.expect then
      let t := takePackets 32 (p.got ++ flitsOf 16 b.data)
      { (s.setPort port { p with expect := (p.expect + 1) % 4096, rcvd := true, nak := false, got := t.2 }).portAdd port 1 with
        agenda := s.agenda ++ t.1.map Action.arrive }
    else if (p.expect + 4096 - b.seq) % 4096 ≤ 1024 then s.setPort port p
    else s.setPort port { p with nak := true }
def execBlockReceived (port : Nat) (b : LinkBlock) (s : State) : Res := .next (s.blockReceived port b)

/-- LINK_RETRAIN (R365): 16 consecutive naks, or 10 µs without an acknowledgement. -/
def State.linkRetrain (s : State) (port : Nat) : State :=
  let p := s.port port
  if p.lanes ≠ 0 ∧ p.down = false ∧ p.training = none ∧ (16 ≤ p.naks ∨ p.ackTick + 10000 ≤ s.tick) then
    (s.setPort port { p with training := some s.tick, naks := 0 }).portAdd port 3
  else s
def execLinkRetrain (port : Nat) (s : State) : Res := .next (s.linkRetrain port)

/-- PORT_TRAINED (R364, R371): 8 lanes, or 4; not while the ports of a module that has failed its verification stay down. -/
def State.portTrained (s : State) (port lanes : Nat) : State :=
  if s.island.st ≠ 0 ∧ s.island.unverified = false ∧ port < 16 ∧ (lanes = 4 ∨ lanes = 8) then
    s.setPort port { s.port port with lanes := lanes, down := false, training := none, naks := 0, ackTick := s.tick }
  else s
def execPortTrained (port lanes : Nat) (s : State) : Res := .next (s.portTrained port lanes)

/-- PORT_DOWN (R365, R369): not trained within 10 ms, or the far side down: the routing tables drop the port, and packets without an
acknowledgement whose path it was are sent again over others, with what it held of other modules. -/
def State.portDown (s : State) (port : Nat) (farSide : Bool) : State :=
  let p := s.port port
  let late := match p.training with
    | some t => decide (t + 10000000 ≤ s.tick)
    | none => false
  if 16 ≤ port ∨ p.down ∨ (farSide = false ∧ late = false) then s
  else
    let again := (s.retained.filter fun r => s.portFor r == some port) ++ p.queue.filter fun r => !s.retained.contains r
    let s := s.setPort port { down := true, training := none, losses := p.losses + 1, downAt := s.tick }
    let s := s.emit 0x0B 0xFFFF [BitVec.ofNat 8 port, if farSide then 2#8 else 1#8]
    { s with out := s.out ++ again }
def execPortDown (port : Nat) (farSide : Bool) (s : State) : Res := .next (s.portDown port farSide)

/-- ESCAPE_MOVE (R370): of a virtual channel of a port that has held flits for 4 µs without sending one, every packet moves to the escape
channel, with its number and path, and goes by the tree. -/
def State.escapeMove (s : State) (port vc : Nat) : State :=
  let p := s.port port
  let t := mget 0 p.since vc
  let moved := p.queue.filter fun q => q.vc == vc
  if 16 ≤ port ∨ 7 ≤ vc ∨ moved = [] ∨ t = 0 ∨ s.tick < t - 1 + 4000 then s
  else
    let s := (s.setPort port { p with queue := p.queue.filter fun q => q.vc != vc, since := mset 0 p.since vc 0 }).portAdd port 4
    moved.foldl (fun s q => s.enqueue { q with vc := 7, esc := true }) s
def execEscapeMove (port vc : Nat) (s : State) : Res := .next (s.escapeMove port vc)

/-! ## Packets that arrive (R362, R366, R368, R369, R372) -/

/-- How a packet arrives: at a device without power; as one that no device takes; for another device; as a number already received; before
its turn; or as the next one. -/
inductive Arrival where
  | off | bad | transit | again | early | accept (s : State)

/-- No device takes the packet: it came on virtual channel 6, or a zero field of it is not zero (R366, R367). -/
def pktBad (p : Packet) : Bool := p.vc == 6 || !p.zeros

/-- The end-to-end check (R369): the next number is accepted, a number already received is discarded, a later packet is held
back. -/
def State.arrive? (s : State) (p : Packet) : Arrival :=
  if s.island.st = 0 then .off
  else if pktBad p then .bad
  else if p.dst ≠ s.device then .transit
  else
    let k := p.src * 4 + p.path
    let e := mget 0 s.e2eIn k
    if p.seq = e then .accept { s with e2eIn := mset 0 s.e2eIn k ((e + 1) % 65536) }
    else if (e + 65536 - p.seq) % 65536 ≤ 4096 then .again
    else .early

/-- Answer a packet: flags and, for a marker, its path; a stamp; data (R366). -/
def State.respond (s : State) (p : Packet) (kind flags st : Nat) (data : List Byte) : State :=
  (s.sendPkt kind 3 p.cls p.src p.off p.tag p.ctx ([BitVec.ofNat 8 flags, BitVec.ofNat 8 p.path] ++ leBytes 8 st) data).2

/-- A packet that no device takes is discarded and counted; a request with a nonzero zero field, or of an illegal kind, is answered with an
error response (R366, R367). -/
def State.badPkt (s : State) (p : Packet) : State :=
  if p.vc ≠ 6 ∧ p.kind ≤ 3 then s.discardPkt.respond p 5 0 0 [] else s.discardPkt

/-- A packet for another device is passed on (R370, R371). -/
def State.pass (s : State) (p : Packet) : State := { s with out := s.out ++ [p] }

/-- H, release, poison and as-of of a request; the causal floor at the head of its data, and n bytes after it; how many bytes its enables name
(R229, R249, R291, log entry 9). -/
def pktFlag (p : Packet) (i : Nat) : Bool := (p.spec.getD 4 0#8).getLsbD i
def pktHist (p : Packet) : Bool := pktFlag p 0
def pktRel (p : Packet) : Bool := pktFlag p 1
def pktFloor (p : Packet) : Nat := leNat (p.data.take 8)
def pktBody (p : Packet) (n : Nat) : List Byte := (p.data.drop 8).take n
def pktSize (p : Packet) : Nat := popBytes (p.spec.take 4)

/-- Requests are served: the dies run, and the packet names their incarnation (R362, R372). -/
def State.serves (s : State) (p : Packet) : Bool := (s.island.st == 3 || s.island.st == 4) && p.inc == s.island.inc

/-- A packet carries an earlier number of its source and path than another (R369). -/
def pktBefore (q p : Packet) : Bool :=
  q.src == p.src && q.path == p.path && decide (1 ≤ (p.seq + 65536 - q.seq) % 65536 ∧ (p.seq + 65536 - q.seq) % 65536 ≤ 4096)

/-- A packet must wait to perform: the dies are gated (R413), an earlier packet of its source and path that touches its line waits (R369),
or, of a write, its page is to be re-keyed or a pin holds back the ring (R399, R402). -/
def State.pktWaits (s : State) (p : Packet) : Bool :=
  (decide (p.kind ≤ 7) && s.gatedAt 0) || (s.rx.any fun q => pktBefore q p && q.off / 128 == p.off / 128)
    || (decide (1 ≤ p.kind ∧ p.kind ≤ 3) && s.serves p && !s.writeReady ⟨0, 0, p.off⟩ (pktHist p) false)

/-- A packet that waits; a write that a pin holds back begins a stall (R399). -/
def State.keepPkt (s : State) (p : Packet) : State :=
  let s := if decide (1 ≤ p.kind ∧ p.kind ≤ 3) && s.serves p then s.noteStall ⟨0, 0, p.off⟩ (pktHist p) else s
  { s with rx := s.rx ++ [p] }

/-- Take a packet of a kind: pass it on, discard and count it, hold it back until its number is the next, keep it until it may perform, or
act on it. A packet of another kind, or with a field beyond its width, is not what the step names. -/
def State.receive (s : State) (kind : Nat) (p : Packet) (act : State → State) : State :=
  if p.kind ≠ kind || !p.held then s
  else match s.arrive? p with
  | .off => s
  | .bad => s.badPkt p
  | .transit => s.pass p
  | .early => if s.rx.contains p then s else { s with rx := s.rx ++ [p] }
  | .accept t =>
    let t := { t with rx := t.rx.erase p }
    if t.pktWaits p then t.keepPkt p else act t
  | .again =>
    if !s.rx.contains p then s.discardPkt
    else if s.pktWaits p then s else act { s with rx := s.rx.erase p }

/-- The slice of a request serves it; the port that it came by, a free choice, may count it as late (R392, R394, R407, log entry 80). -/
def State.serve (s : State) (p : Packet) : State :=
  (s.served (s.home p.off) p.cls 1).lateUnit (660 + Config.freeNat (pairNat s.fresh 70) % 16) 6 p.cls 0 1

/-- PACKET_READ (R249, R366, R372): a plain load, or an as-of load. -/
def State.peerRead (s : State) (p : Packet) : State :=
  s.receive 0 p fun s =>
    if !s.serves p then s.respond p 4 3 0 []
    else if pktFlag p 3 then
      (match s.asofLocal (s.keyOf p.ctx) p.off (pktSize p) (leNat (pktBody p 8)) with
        | none => (s.serve p).respond p 5 4 0 []
        | some (bs, bad, steps) => ((s.serve p).unitAdd (512 + s.home p.off) 7 steps).respond p 4 (if bad then 1 else 0) 0 bs)
    else
      let r := s.loadLocal (s.keyOf p.ctx) p.off (pktSize p) (pktHist p)
      (s.serve p).respond p 4 (if r.2.1 then 1 else 0) r.2.2 r.1
def execPacketRead (p : Packet) (s : State) : Res := .next (s.peerRead p)

/-- A sector that a peer's write has filled is poisoned as its data were (R291, R386). -/
def State.peerPoison (s : State) (p : Packet) (bad : Bool) : State :=
  if bad then { s with poison := mset false s.poison (s.da p.off / 32) true } else s

/-- PACKET_WRITE (R228, R229, R291, R366, R372). -/
def State.peerWrite (s : State) (p : Packet) : State :=
  s.receive 1 p fun s =>
    if !s.serves p then s.respond p 5 2 0 []
    else
      let r := s.storeLocal (s.keyOf p.ctx) p.off (pktBody p (pktSize p)) (pktHist p) (pktRel p) (pktFloor p) none
      ((r.2.peerPoison p (pktFlag p 2)).serve p).respond p 4 0 r.1 []
def execPacketWrite (p : Packet) (s : State) : Res := .next (s.peerWrite p)

/-- PACKET_ATOMIC (R229, R230, R244, R366, R372). -/
def State.peerAtomic (s : State) (p : Packet) : State :=
  s.receive 2 p fun s =>
    if !s.serves p then s.respond p 4 3 0 []
    else match AtomSpec.ofWord (BitVec.ofNat 32 (leNat (p.spec.take 4))) with
      | none => s.respond p 5 0 0 []
      | some spec =>
        let n := atomBytes spec.ty
        let key := s.keyOf p.ctx
        let old := s.readLocal key p.off n
        let bad := s.poisonedAt p.off
        let cas := spec.op == .cas
        let body := pktBody p (2 * n)
        let v := leNat ((if cas then body.drop n else body).take n)
        let r := s.storeLocal key p.off (leBytes n (atomNew spec (leNat old) v (if cas then leNat (body.take n) else 0))) (pktHist p) (pktRel p) (pktFloor p) none
        let st := if (pktHist p) || (pktRel p) then r.1 else (r.2.slice (r.2.home p.off)).last
        (r.2.serve p).respond p 4 (if bad then 1 else 0) st old
def execPacketAtomic (p : Packet) (s : State) : Res := .next (s.peerAtomic p)

/-- The element type of a reducing write. -/
def redOf : Nat → RedTy
  | 0 => .f32 | 1 => .bf16 | _ => .s32

/-- PACKET_REDUCING_WRITE (R291, R294, R295, R366, R372): a sector that was applied before is not applied again. -/
def State.peerReduce (s : State) (p : Packet) : State :=
  s.receive 3 p fun s =>
    if !s.serves p then s.respond p 5 2 0 []
    else if s.receipts.contains (p.src, p.tag, p.off) then s.respond p 4 0 0 []
    else
      let key := s.keyOf p.ctx
      let old := s.readLocal key p.off 32
      let bad := s.poisonedAt p.off || pktFlag p 2
      let r := s.storeLocal key p.off (redSector (redOf (leNat (p.spec.take 4))) old (pktBody p 32)) (pktHist p) (pktRel p) (pktFloor p) none
      let t := { r.2 with receipts := (p.src, p.tag, p.off) :: r.2.receipts }.peerPoison p bad
      (t.serve p).respond p 4 0 r.1 []
def execPacketReducingWrite (p : Packet) (s : State) : Res := .next (s.peerReduce p)

/-- PACKET_RESPONSE (R366, R372). -/
def execPacketResponse (p : Packet) (s : State) : Res := .next (s.receive 4 p fun s => s.answered p.tag (pktAnswer p))
/-- PACKET_ERROR_RESPONSE (R227, R366, R372): a load or an atomic takes poison. -/
def execPacketErrorResponse (p : Packet) (s : State) : Res :=
  .next (s.receive 5 p fun s => s.answered p.tag { (pktAnswer p) with poison := true })

/-- PACKET_MARKER (R335, R372): the writes of its path that it counts were accepted in order before it; it is acknowledged once they have
performed. -/
def State.peerMarker (s : State) (p : Packet) : State :=
  s.receive 6 p fun s => s.respond p 7 (if s.serves p then 0 else 2) 0 []
def execPacketMarker (p : Packet) (s : State) : Res := .next (s.peerMarker p)

/-- PACKET_MARKER_ACK (R335, R372): one flagged endpoint_absent sets that bit of the CIR. -/
def State.markerAcked (s : State) (p : Packet) : State :=
  s.receive 7 p fun s =>
    let us := if (pktAnswer p).absent then s.markerBlocks (some p.tag) p.src else []
    (us.foldl (fun s u => s.cirBlk u 3) s).markerGone (some p.tag) p.src (some (p.spec.getD 1 0#8).toNat)
def execPacketMarkerAck (p : Packet) (s : State) : Res := .next (s.markerAcked p)

/-- A packet of a kind that carries no number of its own, or is taken whatever its number. -/
def State.takePkt (s : State) (kind : Nat) (p : Packet) (act : State → State) : State :=
  if s.island.st = 0 || p.kind ≠ kind || !p.held then s
  else if pktBad p then s.badPkt p
  else if p.dst ≠ s.device then s.pass p else act s

/-- PACKET_E2E_ACK (R369): cumulative; it carries no number of its own. -/
def State.e2eAcked (s : State) (p : Packet) : State :=
  s.takePkt 8 p fun s => { s with retained := s.retained.filter fun r =>
    !(r.dst == p.src && r.path == p.path && decide ((p.seq + 65536 - r.seq) % 65536 < 32768)) }
def execPacketE2eAck (p : Packet) (s : State) : Res := .next (s.e2eAcked p)

/-- E2E_ACK_SEND (R369): it carries the last number accepted in order. -/
def State.e2eAckSend (s : State) (dev path : Nat) : State :=
  s.pass {
    kind := 8, vc := 3, path := path, cls := 0, esc := false, dst := dev, src := s.device, inc := (mget {} s.members dev : Member).inc
    seq := (mget 0 s.e2eIn (dev * 4 + path) + 65535) % 65536, off := 0, tag := 0, ctx := 0, spec := List.replicate 10 0#8, data := [], zeros := true }
def execE2eAckSend (dev path : Nat) (s : State) : Res := .next (s.e2eAckSend dev path)

/-- An UP begins the numbers of its source anew, so it is taken whatever its own; one of the incarnation that the member is known under is
a repeat (log entry 87). -/
def State.upPacket (s : State) (p : Packet) (inc : BitVec 8) : State :=
  let m : Member := mget {} s.members p.src
  if m.live && m.inc == inc then s.discardPkt
  else
    let t := s.upFrom p.src inc
    { t with e2eIn := mset 0 t.e2eIn (p.src * 4 + p.path) ((p.seq + 1) % 65536) }

/-- PACKET_MANAGEMENT (R361, R367, R398, R399). -/
def State.management (s : State) (p : Packet) (m : Management) : State :=
  if Management.of p ≠ some m then s
  else match m with
    | .up none => s.takePkt 9 p id
    | .up (some i) => s.takePkt 9 p fun s => s.upPacket p i
    | .down => s.receive 9 p fun s => s.loseMember p.src 1
    | .tickSync t => s.receive 9 p fun s => s.tickSync p.src t.toNat
    | .dusk d => s.receive 9 p fun s => { s with peerDusk := mset 0 s.peerDusk p.src d.toNat }
    | .pin d => s.receive 9 p fun s => { s with peerPins := s.peerPins ++ [(p.src, d.toNat)] }
    | .unpin d => s.receive 9 p fun s => { s with peerPins := s.peerPins.erase (p.src, d.toNat) }.endStalls d.toNat
def execPacketManagement (p : Packet) (m : Management) (s : State) : Res := .next (s.management p m)

/-- ILLEGAL_PACKET (R366, R367): an illegal kind, a nonzero zero field, or a flit on virtual channel 6. -/
def State.illegalPacket (s : State) (p : Packet) : State :=
  if s.island.st = 0 ∨ (p.kind ≤ 9 ∧ pktBad p = false) then s else s.badPkt p
def execIllegalPacket (p : Packet) (s : State) : Res := .next (s.illegalPacket p)

/-- A packet comes (R366). -/
def State.arrival (s : State) (p : Packet) : State :=
  match p.kind with
  | 0 => s.peerRead p
  | 1 => s.peerWrite p
  | 2 => s.peerAtomic p
  | 3 => s.peerReduce p
  | 4 => s.receive 4 p fun s => s.answered p.tag (pktAnswer p)
  | 5 => s.receive 5 p fun s => s.answered p.tag { (pktAnswer p) with poison := true }
  | 6 => s.peerMarker p
  | 7 => s.markerAcked p
  | 8 => s.e2eAcked p
  | 9 => (match Management.of p with
    | some m => s.management p m
    | none => s.illegalPacket p)
  | _ => s.illegalPacket p

end Sys2Proof.Machine
end

