-- ==== Sys2Proof/Machine/Host.lean ====
section
/-! DEFINITION. What hosts do: windows and registers, doorbells, CXL.mem, the command ring, events, firmware, attestation
(R95-R98, R116, R320, R374-R382, R387-R391, R403, R416, R418). -/

namespace Sys2Proof.Machine

/-! ## Replies (R377, R378) -/

/-- The offset in host memory of the slot of a host's next command (R375, R377). -/
def HostW.slot (w : HostW) : Nat := w.cmdBase.toNat + 64 * (w.cmdHead.toNat % 2 ^ w.cmdSize.toNat)

/-- The reply to a command: its status and result, in the slot of the command ring and as the host got it last. -/
def State.reply (s : State) (host status : Nat) (data : List Byte) : State :=
  let w := s.host host
  let s := { s with replies := mset {} s.replies host { (mget {} s.replies host : HostReply) with status := status, data := data, poison := false } }
  (s.setHost host { w with cmdHead := w.cmdHead + 1 }).hostPut (w.slot + 40)
    (leBytes 4 (2 ^ 31 + status) ++ (data ++ List.replicate 20 0#8).take 20)

/-- A number in a record's arguments. -/
def argNat (args : List Byte) (i n : Nat) : Nat := leNat ((args.drop i).take n)

/-- A host's ring has a record that is not yet executed: its sequence number where one is asked for, opcode, zero field, and arguments with
a property (R375, R377). The step of a command is this record's, or no step. -/
def State.hasCmd (s : State) (host : Nat) (seq : Option Word) (op : Nat) (zero : BitVec 16) (args : List Byte → Bool) : Bool :=
  let w := s.host host
  let a := hostBase + w.slot
  w.cmdSize != 0#32 && w.cmdHead != w.cmdTail && (match seq with
      | some n => rdBytes s.mem a 4 == leBytes 4 n.toNat
      | none => true)
    && rdBytes s.mem (a + 4) 4 == leBytes 2 op ++ leBytes 2 zero.toNat && args (rdBytes s.mem (a + 8) 32)

/-- The arguments hold a number at a place (log entry 9). -/
def isArg (i n v : Nat) (args : List Byte) : Bool := argNat args i n == v
/-- Any arguments: the command has none. -/
def noArgs : List Byte → Bool := fun _ => true

/-- The arguments name a host PA at a place, and, beyond it, a length, of bytes that stand there. -/
def State.namesBytes (s : State) (i : Nat) (bs : List Byte) (args : List Byte) : Bool :=
  argNat args (i + 8) 4 == bs.length && rdBytes s.mem (hostBase + argNat args i 8) bs.length == bs

/-- A command of the owner (R376-R378), from the record in its ring: a status with a result, or none while the command is still going on;
commands are executed one at a time, so another waits. A nonzero zero field of the record returns 3 (R9, R377). -/
def State.command (s : State) (c : Cmd) (op : Nat) (args : List Byte → Bool) (run : State → Option (Nat × List Byte) × State) : State :=
  if s.island.st = 0 ∨ 8 ≤ c.host ∨ s.tlbCmd.isSome ∨ s.hasCmd c.host (some c.seq) op c.zero args = false then s
  else if s.island.owner ≠ some c.host then s.reply c.host 2 []
  else if c.seq = s.island.lastAccepted + 1 then
    match (if c.zero = 0#16 then run s else (some (3, []), s)) with
    | (none, t) => t
    | (some r, t) => ({ t with island := { t.island with lastAccepted := c.seq } }).reply c.host r.1 r.2
  else s.reply c.host (if c.seq ≤ s.island.lastAccepted then 4 else 5) []

/-- A status without a result. -/
def status (n : Nat) (s : State) : Option (Nat × List Byte) × State := (some (n, []), s)

/-- A command that any host may send, whose sequence number is 0 and is not looked at (R376, R377); a nonzero zero field returns 3. -/
def State.openCommand (s : State) (c : Sender) (op : Nat) (args : List Byte → Bool) (run : State → State) : State :=
  if s.island.st = 0 ∨ 8 ≤ c.host ∨ s.tlbCmd.isSome ∨ s.hasCmd c.host none op c.zero args = false then s else if c.zero = 0#16 then run s else s.reply c.host 3 []

/-! ## Doorbells (R116, R376) -/

/-- QUEUE_DOORBELL (R116). -/
def State.doorbell (s : State) (host hwq : Nat) (v : Word) : State :=
  if s.island.st = 0 ∨ 256 ≤ hwq then s
  else if s.island.owner ≠ some host then s.dropped host 1 (0x10000 + 16 * hwq)
  else
    let q := s.queue hwq
    let a := (v - q.tail).toNat
    if (q.st == .armed || q.st == .stopped) && decide (q.occ + a ≤ 2 ^ q.n) then s.setQueue hwq { q with tail := v }
    else s.queueFault (q.bound.getD 0xFFFF) hwq 1 0 0 0
def execQueueDoorbell (host hwq : Nat) (v : Word) (s : State) : Res := .next (s.doorbell host hwq v)

/-! ## Ownership (R375, R376) -/

/-- A host becomes owner, or ownership becomes vacant, with OWNER_CHANGE (R380). -/
def State.setOwner (s : State) (new : Option Nat) (cause : Nat) : State :=
  let old := s.island.owner
  let s := { s with island := { s.island with owner := new, heartbeat := s.tick, claims := [] } }
  let b := fun (h : Option Nat) => BitVec.ofNat 8 (h.getD 0xFF)
  s.emit 0x0C 0xFFFF [b new, b old, BitVec.ofNat 8 cause]

/-- Ticks of 1 s after boot, in which claims are collected for a precedence list. -/
def claimWindow : Nat := 1000000000

/-- OWNERSHIP_GRANT (R376): 1 s after boot, the highest-listed host that claimed. -/
def State.grant (s : State) : State :=
  if s.island.st ≠ 0 ∧ s.island.owner = none ∧ s.island.bootTick + claimWindow ≤ s.tick then
    match s.island.precedence.find? fun h => s.island.claims.contains h with
    | some h => s.setOwner (some h) 0
    | none => s
  else s
def execOwnershipGrant (s : State) : Res := .next s.grant

/-- CLAIM (R376, R377); a grant that is due comes first. From the owner it returns BAD_STATE (log entry 89). -/
def State.claim (s : State) (c : Sender) : State :=
  let host := c.host
  s.openCommand c 0x01 noArgs fun s =>
    let s := s.grant
    match s.island.owner with
    | some o => s.reply host (if o = host then 1 else 2) []
    | none =>
      if !s.island.precedence.isEmpty && decide (s.tick < s.island.bootTick + claimWindow) then
        { s with island := { s.island with claims := s.island.claims ++ [host] } }.reply host 0 []
      else (s.setOwner (some host) 0).reply host 0 []
def execClaim (c : Sender) (s : State) : Res := .next (s.claim c)

/-- HANDOVER (R376, R377). -/
def execHandover (c : Cmd) (successor : Nat) (s : State) : Res :=
  .next (s.command c 0x02 (isArg 0 4 successor) fun s => if 8 ≤ successor then status 3 s else status 0 (s.setOwner (some successor) 1))

/-- HEARTBEAT (R375, R376). -/
def execHeartbeat (host : Nat) (s : State) : Res :=
  .next (if s.island.owner = some host then { s with island := { s.island with heartbeat := s.tick } } else s)

/-- OWNER_HEARTBEAT_LAPSE (R376). -/
def State.lapse (s : State) : State :=
  if s.island.owner.isSome && decide (s.island.heartbeat + 3 * s.island.hbPeriod * 1000000 < s.tick) then s.setOwner none 2 else s
def execOwnerHeartbeatLapse (s : State) : Res := .next s.lapse

/-- HBPERIOD_WRITE (R375, R376): it restarts the count. -/
def State.setHbPeriod (s : State) (host : Nat) (v : Word) : State :=
  if s.island.owner ≠ some host then s.dropped host 1 0x34
  else if v.toNat < 10 ∨ 10000 < v.toNat then s.dropped host 4 0x34
  else { s with island := { s.island with hbPeriod := v.toNat, heartbeat := s.tick } }
def execHbperiodWrite (host : Nat) (v : Word) (s : State) : Res := .next (s.setHbPeriod host v)

/-- HMEMCTX_WRITE (R375, R418). -/
def State.setHmemctx (s : State) (host : Nat) (v : Word) : State :=
  if s.island.owner ≠ some host then s.dropped host 1 0x38
  else if field v.toNat 12 3 ≠ 0 ∨ field v.toNat 16 16 ≠ 0 then s.dropped host 2 0x38
  else { s with island := { s.island with hmemctx := v } }
def execHmemctxWrite (host : Nat) (v : Word) (s : State) : Res := .next (s.setHmemctx host v)

/-! ## The address map (R388-R391) -/

/-- Row i of the staged matrix of a region. -/
def MapReg.row (m : MapReg) (i : Nat) : Nat := mget (defaultRow i) m.staged i

/-- One elimination step over GF(2): the first row with the bit leaves the list and clears the bit from the others; none where
no row has it. -/
def gfStep (rows : List Nat) (bit : Nat) : Option (List Nat) :=
  match rows.find? fun r => r.testBit bit with
  | none => none
  | some p => some ((rows.erase p).map fun r => if r.testBit bit then r ^^^ p else r)

/-- A 40 × 40 matrix over GF(2) is invertible (R388). -/
def gfInvertible (rows : List Nat) : Bool :=
  ((List.range 40).foldl (fun (a : Option (List Nat)) b => a.bind fun rs => gfStep rs b) (some rows)).isSome

/-- The rows that R388 fixes. -/
def fixedRows (rows : List Nat) : Bool :=
  ((List.range 7).all fun i => rows.getD i 0 == 2 ^ i) && (List.range 4).all fun i => rows.getD (26 + i) 0 == 2 ^ (36 + i)

/-- A load of a map, or a write of MEMCFG, is refused (R391). -/
def State.mapBusy (s : State) : Bool :=
  (s.ctxs.any fun c => c.1 != 0 && c.2.state != .free) || (s.blocks.any fun b => b.2.live && b.2.core.isSome && b.2.ctx == 0)

/-- What a load of a region's staged matrix comes to (R390, R391). -/
def State.mapStatus (s : State) (rows : List Nat) : Nat :=
  if s.mapBusy then 2 else if !fixedRows rows then 3 else if !gfInvertible rows then 1 else 0

/-- MAP_LOAD (R390, R391): a write of MAPCTL. -/
def State.mapLoad (s : State) (host region : Nat) (v : Word) : State :=
  let off := 0x20000 + 0x200 * region + 0x140
  if s.island.owner ≠ some host then s.dropped host 1 off
  else if 7 ≤ region ∨ 2 ≤ v.toNat then s.dropped host 2 off
  else if v = 0#32 then s
  else
    let m : MapReg := mget {} s.maps region
    let rows := (List.range 40).map m.row
    let st := s.mapStatus rows
    { s with maps := mset {} s.maps region { m with stat := st, active := if st = 0 then some rows else m.active } }
def execMapLoad (host region : Nat) (v : Word) (s : State) : Res := .next (s.mapLoad host region v)

/-- A write of half a staged row (R390). -/
def State.mapRow (s : State) (host region at_ : Nat) (v : Word) : State :=
  let m : MapReg := mget {} s.maps region
  let i := at_ / 8
  let old := m.row i
  if at_ % 8 = 0 then { s with maps := mset {} s.maps region { m with staged := mset (defaultRow i) m.staged i (old / 2 ^ 32 * 2 ^ 32 + v.toNat) } }
  else if 256 ≤ v.toNat then s.dropped host 2 (0x20000 + 0x200 * region + at_)
  else { s with maps := mset {} s.maps region { m with staged := mset (defaultRow i) m.staged i (old % 2 ^ 32 + 2 ^ 32 * v.toNat) } }

/-- MEMCFG_WRITE (R389-R391): a change discards the history, and each slice's dusk becomes the stamp of the change. -/
def State.memcfg (s : State) (host : Nat) (v : Word) : State :=
  if s.island.owner ≠ some host then s.dropped host 1 0x21000
  else if 8 ≤ v.toNat then s.dropped host 2 0x21000
  else if 4 < v.toNat then s.dropped host 4 0x21000
  else if s.mapBusy || v.toNat == s.hres then s
  else
    let t := (List.range 128).foldl (fun s n => s.setSlice n { s.slice n with dusk := s.sliceT n }) { s.dropHistory with hres := v.toNat }
    { t.killOld with duskNew := true }
def execMemcfgWrite (host : Nat) (v : Word) (s : State) : Res := .next (s.memcfg host v)

/-! ## Observation registers (R403, R408, R409) -/

/-- m of a ring: 0, or 4 to 20; not 0 with the stream on. -/
def ringOk (m : Nat) (on : Bool) : Bool := (m == 0 && !on) || decide (4 ≤ m ∧ m ≤ 20)

/-- SAMPLE_PERIOD_WRITE (R403, R408): a write reloads each quarter's count. -/
def State.samplePeriod (s : State) (host ctx : Nat) (v : Word) : State :=
  let off := 0x40000 + 0x40 * ctx + 8
  let p := field v.toNat 0 24
  let m := field v.toNat 24 5
  if s.island.owner ≠ some host then s.dropped host 1 off
  else if 4096 ≤ ctx ∨ field v.toNat 29 3 ≠ 0 then s.dropped host 2 off
  else if !ringOk m (p != 0) then s.dropped host 4 off
  else
    let c := s.ctx ctx
    let s := s.setCtx ctx { c with sampPeriod := p, sampM := m }
    { s with cores := s.cores.map fun k => (k.1, { k.2 with quarters := k.2.quarters.map fun q =>
      (q.1, { q.2 with samp := mset 0 q.2.samp ctx 0 }) }) }
def execSamplePeriodWrite (host ctx : Nat) (v : Word) (s : State) : Res := .next (s.samplePeriod host ctx v)

/-- TRACE_ENABLE (R403, R409-R411): resident groups write their SYNC records when en becomes 1. -/
def State.traceEnable (s : State) (host ctx : Nat) (v : Word) : State :=
  let off := 0x40000 + 0x40 * ctx + 0x18
  let en := v.getLsbD 0
  let m := field v.toNat 1 5
  if s.island.owner ≠ some host then s.dropped host 1 off
  else if 4096 ≤ ctx ∨ 64 ≤ v.toNat then s.dropped host 2 off
  else if !ringOk m en then s.dropped host 4 off
  else
    let c := s.ctx ctx
    let s := s.setCtx ctx { c with trcEn := en, trcM := m, trcLast := if en && !c.trcEn then [] else c.trcLast }
    if en && !c.trcEn then
      (s.blocks.filter fun b => b.2.live && b.2.core.isSome && b.2.ctx == ctx).foldl (fun s b =>
        b.2.groups.foldl (fun s g => if g.2.live then s.traceSync b.1 g.1 else s) s) s
    else s
def execTraceEnable (host ctx : Nat) (v : Word) (s : State) : Res := .next (s.traceEnable host ctx v)

/-! ## Registers through BAR0 (R375, R390, R403) -/

/-- A 64-bit register with one half replaced. -/
def putHalf (d : DWord) (hi : Bool) (v : Word) : DWord := if hi then dwordOf d.lo v else dwordOf v d.hi

/-- A write of a read-only register: nothing when it names the current value, else dropped (R8). -/
def State.roWrite (s : State) (host off cur : Nat) (v : Word) : State := if v.toNat = cur then s else s.dropped host 2 off

/-- OWNER (R375). -/
def Island.ownerReg (i : Island) : Nat :=
  match i.owner with
  | some h => h
  | none => 8

/-- A write in a host's own window (R375). -/
def State.windowWrite (s : State) (host off : Nat) (v : Word) : State :=
  let w := s.host host
  match off with
  | 0x00 => if v.toNat % 4096 ≠ 0 then s.dropped host 4 off else s.setHost host { w with cmdBase := putHalf w.cmdBase false v }
  | 0x04 => s.setHost host { w with cmdBase := putHalf w.cmdBase true v }
  | 0x08 => if 16 ≤ v.toNat then s.dropped host 2 off
            else if v.toNat < 4 ∨ 12 < v.toNat then s.dropped host 4 off else s.setHost host { w with cmdSize := v }
  | 0x0C => s.setHost host { w with cmdTail := v }
  | 0x10 => s.roWrite host off s.island.lastAccepted.toNat v
  | 0x18 => if v.toNat % 4096 ≠ 0 then s.dropped host 4 off else s.setHost host { w with evtBase := putHalf w.evtBase false v }
  | 0x1C => s.setHost host { w with evtBase := putHalf w.evtBase true v }
  | 0x20 => if 16 ≤ v.toNat then s.dropped host 2 off
            else if v.toNat < 4 ∨ 14 < v.toNat then s.dropped host 4 off else s.setHost host { w with evtSize := v }
  | 0x24 => s.setHost host { w with evtHead := v }
  | 0x28 => s.roWrite host off (s.logNext - 1) v
  | 0x2C => s.roWrite host off s.island.ownerReg v
  | 0x30 => if s.island.owner = some host then { s with island := { s.island with heartbeat := s.tick } } else s
  | 0x34 => s.setHbPeriod host v
  | 0x38 => s.setHmemctx host v
  | _ => s.dropped host 2 off

/-- A write in the device block at 0x30000 (R403). -/
def State.deviceWrite (s : State) (host at_ : Nat) (v : Word) : State :=
  match at_ with
  | 0x00 => { s with serBase := putHalf s.serBase false v }
  | 0x04 => { s with serBase := putHalf s.serBase true v }
  | 0x08 => if 32 ≤ v.toNat then s.dropped host 2 (0x30000 + at_)
            else if v.toNat ≠ 0 ∧ (v.toNat < 8 ∨ 24 < v.toNat) then s.dropped host 4 (0x30000 + at_) else { s with serSize := v.toNat }
  | 0x20 => { s with stopat := putHalf s.stopat false v, stopSet := s.tick }
  | 0x24 => { s with stopat := putHalf s.stopat true v, stopSet := s.tick }
  | 0x28 => s.roWrite host (0x30000 + at_) (if s.stopped then 1 else 0) v
  | 0x2C => if 2 ≤ v.toNat then s.dropped host 2 (0x30000 + at_) else if v = 1#32 then s.stopResume host else s
  | _ => s.dropped host 2 (0x30000 + at_)

/-- A write in a context's block (R403). -/
def State.ctxBlockWrite (s : State) (host ctx at_ : Nat) (v : Word) : State :=
  let c := s.ctx ctx
  match at_ with
  | 0x00 => s.setCtx ctx { c with sampBase := putHalf c.sampBase false v }
  | 0x04 => s.setCtx ctx { c with sampBase := putHalf c.sampBase true v }
  | 0x08 => s.samplePeriod host ctx v
  | 0x10 => s.setCtx ctx { c with trcBase := putHalf c.trcBase false v }
  | 0x14 => s.setCtx ctx { c with trcBase := putHalf c.trcBase true v }
  | 0x18 => s.traceEnable host ctx v
  | _ => s.dropped host 2 (0x40000 + 0x40 * ctx + at_)

/-- A write in CSR space, by the owner (R116, R390, R403). -/
def State.csrSpaceWrite (s : State) (host off : Nat) (v : Word) : State :=
  if s.island.owner ≠ some host then s.dropped host 1 off
  else if 0x10000 ≤ off ∧ off < 0x11000 ∧ off % 16 = 0 then s.doorbell host ((off - 0x10000) / 16) v
  else if 0x20000 ≤ off ∧ off < 0x20000 + 7 * 0x200 then
    let r := (off - 0x20000) / 0x200
    let a := (off - 0x20000) % 0x200
    if a < 0x140 ∧ a % 4 = 0 then s.mapRow host r a v
    else if a = 0x140 then s.mapLoad host r v
    else if a = 0x144 then s.roWrite host off (mget {} s.maps r : MapReg).stat v
    else s.dropped host 2 off
  else if off = 0x21000 then s.memcfg host v
  else if 0x30000 ≤ off ∧ off < 0x30030 then s.deviceWrite host (off - 0x30000) v
  else if 0x40000 ≤ off ∧ off < 0x40000 + 0x40 * 4096 then s.ctxBlockWrite host ((off - 0x40000) / 0x40) ((off - 0x40000) % 0x40) v
  else s.dropped host 2 off

/-- HOST_REGISTER_WRITE (R375, R390, R403): a BAR0 offset; CSR space begins at 0x01000000. -/
def State.registerWrite (s : State) (host off : Nat) (v : Word) : State :=
  if s.island.st = 0 ∨ 8 ≤ host then s
  else if off < 0x1000000 then s.windowWrite host off v else s.csrSpaceWrite host (off - 0x1000000) v
def execHostRegisterWrite (host off : Nat) (v : Word) (s : State) : Res := .next (s.registerWrite host off v)

/-! ### What a read of a register returns (R8, R375, R390, R403): nothing in the machine changes -/

/-- A half of a 64-bit register. -/
def half (d : DWord) (hi : Bool) : Word := if hi then d.hi else d.lo

/-- A read in a host's own window; a write-only register reads as zero. -/
def State.windowRead (s : State) (host off : Nat) : Word :=
  let w := s.host host
  match off with
  | 0x00 => half w.cmdBase false
  | 0x04 => half w.cmdBase true
  | 0x08 => w.cmdSize
  | 0x10 => s.island.lastAccepted
  | 0x18 => half w.evtBase false
  | 0x1C => half w.evtBase true
  | 0x20 => w.evtSize
  | 0x24 => w.evtHead
  | 0x28 => BitVec.ofNat 32 (s.logNext - 1)
  | 0x2C => BitVec.ofNat 32 s.island.ownerReg
  | 0x34 => BitVec.ofNat 32 s.island.hbPeriod
  | 0x38 => s.island.hmemctx
  | _ => 0#32

/-- A read in the block of a region's map: a staged row, or the status of the last load (R390). -/
def State.mapRead (s : State) (region at_ : Nat) : Word :=
  let m : MapReg := mget {} s.maps region
  if at_ < 0x140 ∧ at_ % 4 = 0 then BitVec.ofNat 32 (m.row (at_ / 8) / 2 ^ (8 * (at_ % 8)))
  else if at_ = 0x144 then BitVec.ofNat 32 m.stat else 0#32

/-- A read in the device block (R403). -/
def State.deviceRead (s : State) (at_ : Nat) : Word :=
  match at_ with
  | 0x00 => half s.serBase false
  | 0x04 => half s.serBase true
  | 0x08 => BitVec.ofNat 32 s.serSize
  | 0x20 => half s.stopat false
  | 0x24 => half s.stopat true
  | 0x28 => if s.stopped then 1#32 else 0#32
  | _ => 0#32

/-- A read in a context's block (R403). -/
def State.ctxBlockRead (s : State) (ctx at_ : Nat) : Word :=
  let c := s.ctx ctx
  match at_ with
  | 0x00 => half c.sampBase false
  | 0x04 => half c.sampBase true
  | 0x08 => BitVec.ofNat 32 (c.sampPeriod + 2 ^ 24 * c.sampM)
  | 0x10 => half c.trcBase false
  | 0x14 => half c.trcBase true
  | 0x18 => BitVec.ofNat 32 ((if c.trcEn then 1 else 0) + 2 * c.trcM)
  | _ => 0#32

/-- What a host reads at an offset of BAR0; CSR space begins at 0x01000000, and an unassigned offset reads as 0. -/
def State.registerRead (s : State) (host off : Nat) : Word :=
  if off < 0x1000000 then s.windowRead host off
  else
    let o := off - 0x1000000
    if 0x20000 ≤ o ∧ o < 0x20000 + 7 * 0x200 then s.mapRead ((o - 0x20000) / 0x200) ((o - 0x20000) % 0x200)
    else if o = 0x21000 then BitVec.ofNat 32 s.hres
    else if 0x30000 ≤ o ∧ o < 0x30030 then s.deviceRead (o - 0x30000)
    else if 0x40000 ≤ o ∧ o < 0x40000 + 0x40 * 4096 then s.ctxBlockRead ((o - 0x40000) / 0x40) ((o - 0x40000) % 0x40)
    else 0#32

/-! ## CXL.mem (R372, R374, R376, R418) -/

/-- The compute dies serve HDM. -/
def State.diesUp (s : State) : Bool := s.island.st == 3 || s.island.st == 4

/-- The key of a host's access; none where HMEMCTX names a context without a key (R418). -/
def State.hostKey (s : State) (host : Nat) : Option (BitVec 256) :=
  if s.island.owner = some host ∧ s.island.hmemctx.getLsbD 15 then
    let c := s.ctx (field s.island.hmemctx.toNat 0 12)
    if c.state == .free || c.state == .killing then none else some c.key
  else some (s.ctx 0).key

/-- The host port has served an access of n bytes at an offset: slices serve its lines, flits pass, how many is free, and a deadline may have
been missed (R392, R394, R407, log entry 80). -/
def State.hostServed (s : State) (off n : Nat) : State :=
  let s := (splitLines off (n + 1) (List.replicate n 0#8)).foldl (fun s x => s.served (s.home x.1) 3 1) s
  (((s.unitAdd 676 0 (Config.freeNat (pairNat s.fresh 71))).unitAdd 676 1 (Config.freeNat (pairNat s.fresh 72))).lateUnit 676 2 3 0 1)

/-- HOST_MEM_READ (R372, R418): the data, with CXL poison where there is no key or no die to answer. -/
def State.hostRead (s : State) (host off n : Nat) : State :=
  if s.island.st = 0 ∨ 8 ≤ host ∨ s.usable < off + n then s
  else
    let bad : HostReply := { data := (List.range n).map fun i => BitVec.ofNat 8 (Config.freeNat (pairNat (pairNat s.fresh 49) i)), poison := true }
    let r : HostReply := match s.hostKey host with
      | some k => if !s.diesUp then bad else
          { data := (List.range n).flatMap fun i => s.readLocal k (off + i) 1
            poison := (List.range n).any fun i => s.poisonedAt (off + i) }
      | none => bad
    let s := if s.diesUp && (s.hostKey host).isSome then s.hostServed off n else s
    { s with replies := mset {} s.replies host r, fresh := s.fresh + 1 }
def execHostMemRead (host off n : Nat) (s : State) : Res := .next (s.hostRead host off n)

/-- HOST_MEM_WRITE (R372, R376, R418). -/
def State.hostWrite (s : State) (host off : Nat) (bytes : List Byte) : State :=
  if s.island.st = 0 ∨ 8 ≤ host ∨ s.usable < off + bytes.length then s
  else if s.island.owner ≠ some host then s.dropped host 1 off
  else if !s.diesUp then s.dropped host 3 off
  else match s.hostKey host with
    | none => s.dropped host 5 off
    | some k =>
      let parts := splitLines off (bytes.length + 1) bytes
      if parts.any fun x => s.lineFull x.1 then s
      else (parts.foldl (fun s x => (s.storeLocal k x.1 x.2 false false 0 none).2) s).hostServed off bytes.length
def execHostMemWrite (host off : Nat) (bytes : List Byte) (s : State) : Res := .next (s.hostWrite host off bytes)

/-- CXL_CACHE_INVALIDATION (R374, R385): a host writes a line of its memory, 128 bytes or fewer from the line's start; the
module's copies go. -/
def State.hostLine (s : State) (line : Nat) (bytes : List Byte) : State :=
  s.storeHost (128 * line) (bytes.take 128) none 0
def execCxlCacheInvalidation (line : Nat) (bytes : List Byte) (s : State) : Res := .next (s.hostLine line bytes)

/-! ## STATUS and READ_EVENTS (R377, R380) -/

/-- STATUS: island state, incarnation, LAST_ACCEPTED, LAST_EMITTED (log entry 9). -/
def execStatus (c : Sender) (s : State) : Res :=
  .next (s.openCommand c 0x04 noArgs fun s => s.reply c.host 0
    ([BitVec.ofNat 8 s.island.st, s.island.inc, 0#8, 0#8] ++ leBytes 4 s.island.lastAccepted.toNat ++ leBytes 4 (s.logNext - 1)))

/-- The events of this boot that the log still holds. -/
def State.bootLog (s : State) : List EventRec := s.log.drop (s.log.length - (s.logNext - 1))

/-- READ_EVENTS (R380): a number already overwritten returns GONE. -/
def State.readEvents (s : State) (c : Sender) (first count pa : Nat) : State :=
  let host := c.host
  s.openCommand c 0x05 (fun x => isArg 0 4 first x && isArg 4 4 count x && isArg 8 8 pa x) fun s =>
    let l := s.bootLog
    let oldest := s.logNext - l.length
    if first < oldest then s.reply host 7 []
    else
      let es := l.filter fun e => decide (first ≤ e.seq ∧ e.seq < first + count)
      (s.hostPut pa (es.flatMap EventRec.bytes)).reply host 0 []
def execReadEvents (c : Sender) (first count pa : Nat) (s : State) : Res :=
  .next (s.readEvents c first count pa)

/-! ## Contexts (R95-R98, R377) -/

/-- A create block's fields are in range and its zero fields zero (R306, R377). -/
def createOk (usable : Nat) (bs : List Byte) : Bool :=
  let n := fun a k => leNat ((bs.drop a).take k)
  decide (1 ≤ n 0 2 ∧ n 0 2 ≤ 4095) && decide (n 2 1 < 2) && n 3 1 != 0 && decide (10000 ≤ n 4 4)
    && n 8 8 % 4096 == 0 && decide (n 8 8 < 2 ^ 40) && decide (n 8 8 < usable)
    && decide (10 ≤ n 56 1 ∧ n 56 1 ≤ 24) && decide (4 ≤ n 57 1 ∧ n 57 1 ≤ 16) && decide (n 58 1 ≤ 16) && n 59 1 == 0
    && (bs.drop 72).all fun b => b == 0#8

/-- The hardware queues that are free, lowest first. -/
def State.freeQueues (s : State) : List Nat := (List.range 256).filter fun h => (s.queue h).bound.isNone

/-- The vesper shares of the defined contexts (R345). -/
def State.shares (s : State) : Nat :=
  (s.ctxs.filter fun c => c.2.state != .free).foldl (fun n c => n + c.2.vesper) 0

/-- CTX_CREATE (R96, R98, R115, R377): its status, and the hardware queue of each index. -/
def State.ctxCreate (s : State) (pa : Nat) : (Nat × List Byte) × State :=
  let bs := rdBytes s.mem (hostBase + pa) 128
  let n := fun a k => leNat ((bs.drop a).take k)
  let cn := n 0 2
  let k := n 58 1
  let free := s.freeQueues
  if !createOk s.usable bs then ((3, []), s)
  else if s.island.st ≠ 3 ∨ (s.ctx cn).state ≠ .free then ((1, []), s)
  else if 2 ^ 20 < s.shares + n 60 4 ∨ free.length < k then ((6, []), s)
  else
    let qs := free.take k
    let c : Ctx := {
      state := .defined, priv := n 2 1 == 1, weight := n 3 1, tslice := n 4 4, ptroot := BitVec.ofNat 64 (n 8 8)
      key := BitVec.ofNat 256 (n 16 32), counterVa := n 48 8, counterC := n 56 1, notifyVa := n 64 8, notifyM := n 57 1
      vesper := n 60 4, queues := qs.zipIdx.foldl (fun m x => mset 0 m x.2 (x.1 + 1)) [] }
    let s := (s.setCtx cn c).setQueue (256 + cn) (compQueue cn)
    let s := qs.zipIdx.foldl (fun s x => s.setQueue x.1 { bound := some cn, index := x.2 }) s
    ((0, (List.range 16).map fun i => match qs[i]? with
      | some h => BitVec.ofNat 8 h
      | none => 0xFF#8), s)
def execCtxCreate (c : Cmd) (pa : Nat) (s : State) : Res :=
  .next (s.command c 0x10 (isArg 0 8 pa) fun s => let r := s.ctxCreate pa
                              (some r.1, r.2))

/-- CTX_STOP's effect (R96): queues stop popping; resident blocks are evicted. -/
def State.ctxStop (s : State) (ctx : Nat) : Nat × State :=
  let c := s.ctx ctx
  if c.state != .defined && c.state != .resident then (1, s)
  else
    let us := (s.blocks.filter fun b => b.2.live && b.2.core.isSome && b.2.ctx == ctx).map (·.1)
    (0, us.foldl (fun s u => s.markEvict u) (s.setCtx ctx { c with state := .stopped }))
def execCtxStop (c : Cmd) (ctx : Nat) (s : State) : Res :=
  .next (s.command c 0x11 (isArg 0 4 ctx) fun s => if 4096 ≤ ctx then status 3 s else let r := s.ctxStop ctx
                                                                 status r.1 r.2)

/-- CTX_RESUME's effect (R96). -/
def State.ctxResume (s : State) (ctx : Nat) : Nat × State :=
  let c := s.ctx ctx
  if c.state != .stopped then (1, s) else (0, (s.setCtx ctx { c with state := .defined }).reside ctx)
def execCtxResume (c : Cmd) (ctx : Nat) (s : State) : Res :=
  .next (s.command c 0x12 (isArg 0 4 ctx) fun s => if 4096 ≤ ctx then status 3 s else let r := s.ctxResume ctx
                                                                 status r.1 r.2)

/-- CTX_KILL's effect (R96, R97). -/
def State.ctxKill (s : State) (ctx : Nat) : Nat × State :=
  match (s.ctx ctx).state with
  | .defined | .resident | .stopped => (0, s.kill ctx)
  | _ => (1, s)
def execCtxKill (c : Cmd) (ctx : Nat) (s : State) : Res :=
  .next (s.command c 0x13 (isArg 0 4 ctx) fun s => if 4096 ≤ ctx then status 3 s else let r := s.ctxKill ctx
                                                                 status r.1 r.2)

/-- Nothing of a context is left: blocks, kernels, teams, accesses, engine entries, queues, activities, translations; its key is
erased and its pins released (R96). -/
def State.dropCtx (s : State) (ctx : Nat) : State :=
  let us := (s.blocks.filter fun b => b.2.ctx == ctx).map (·.1)
  let mine := fun (e : CopyEntry) => us.contains e.blk
  let s := ((s.ctx ctx).pins.filter fun p => p.2.used && !p.2.broken).foldl (fun s p => s.pinGone p.2.stamp) s
  { s with
    devSent := s.devSent.filter fun d => d.ctx != ctx
    blocks := s.blocks.filter fun b => b.2.ctx != ctx
    kernels := s.kernels.filter fun k => k.2.ctx != ctx
    teams := s.teams.filter fun t => t.2.ctx != ctx
    pend := s.pend.filter fun p => p.ctx != ctx
    counted := s.counted.filter fun c => c.ctx != ctx
    noted := s.noted.filter fun n => n.acc.ctx != ctx
    tlb := s.tlb.filter fun t => t.ctx != ctx
    held := s.held.filter fun h => h.ctx != ctx
    acts := s.acts.filter fun (a : Activity) => a.ctx != ctx
    vesper := s.vesper.filter fun (e : Entry) => e.ctx != ctx
    queues := s.queues.filter fun q => q.2.bound != some ctx
    traced := s.traced.filter fun t => t.ctx != ctx
    cores := s.cores.map fun c => (c.1, { c.2 with
      ldq := c.2.ldq.filter fun e => !mine e
      stq := c.2.stq.filter fun e => !mine e
      chans := c.2.chans.filter fun x => !(x.2.busy && us.contains x.2.blk)
      array := c.2.array.filter fun x => !us.contains x.1
      quarters := c.2.quarters.map fun q => (q.1, { q.2 with memo := q.2.memo.filter fun m => !(m.load && m.ctx == ctx)
                                                             samp := mset 0 q.2.samp ctx 0, sampDue := mset [] q.2.sampDue ctx [] }) })
    ctxs := mset {} s.ctxs ctx {} }

/-- CTX_DESTROY's effect (R96, R377). -/
def State.ctxDestroy (s : State) (ctx : Nat) : Nat × State :=
  if ctx = 0 ∨ 4096 ≤ ctx then (3, s)
  else match (s.ctx ctx).state with
    | .defined | .stopped => (0, s.dropCtx ctx)
    | _ => (1, s)
def execCtxDestroy (c : Cmd) (ctx : Nat) (s : State) : Res :=
  .next (s.command c 0x14 (isArg 0 4 ctx) fun s => let r := s.ctxDestroy ctx
                              status r.1 r.2)

/-- TLB_INVAL (R320): the dies act as on tlbinv. Where accesses that went through a dropped entry are outstanding, the command is
under way until they have performed. -/
def State.tlbInval (s : State) (c : Cmd) (va : DWord) (op zero : Word) : Option Nat × State :=
  let o := tlbOp va.toNat op zero
  if s.island.st ≠ 3 then (some 1, s)
  else if o.bad then (some 3, s)
  else if s.tlbNoCtx o then (some 1, s)
  else
    let ws := s.tlbWaits o
    let t := s.tlbDrop o
    if ws.isEmpty then (some 0, t.tlbFresh o) else (none, { t with tlbCmd := some ⟨c, va, op, ws⟩ })

/-- The status of a TLB_INVAL under way is written once it waits for nothing (R320). -/
def State.tlbFinish (s : State) (x : TlbCmd) : State :=
  if s.tlbOpen x.waits then s
  else
    let t := { s with tlbCmd := none }.tlbFresh (tlbOp x.va.toNat x.op 0#32)
    { t with island := { t.island with lastAccepted := x.cmd.seq } }.reply x.cmd.host 0 []

def execTlbInval (c : Cmd) (va : DWord) (op zero : Word) (s : State) : Res :=
  .next (match s.tlbCmd with
    | some x => if x.cmd = c then s.tlbFinish x else s
    | none => s.command c 0x15 (fun x => isArg 0 8 va.toNat x && isArg 8 4 op.toNat x && isArg 12 4 zero.toNat x) fun s => let r := s.tlbInval c va op zero
                                   (r.1.map fun n => (n, []), r.2))

/-! ## Resets, the domain, keys, tests, firmware (R361, R371, R374, R381, R400, R416) -/

/-- COMPUTE_RESET (R371). -/
def execComputeReset (c : Cmd) (s : State) : Res :=
  .next (s.command c 0x20 noArgs fun s => if s.island.st ≠ 3 then status 1 s else status 0 (s.drain 0))

/-- ISLAND_RESET (R371): its status is written, then the island resets. -/
def State.islandResetCmd (s : State) (c : Cmd) : State :=
  let ok := s.island.st == 2 || s.island.st == 3 || s.island.st == 4
  let t := s.command c 0x21 noArgs fun s => status (if ok then 0 else 1) s
  if ok && s.hasCmd c.host (some c.seq) 0x21 c.zero noArgs && decide (c.host < 8) && s.island.owner == some c.host && c.seq == s.island.lastAccepted + 1 && c.zero == 0#16 && s.tlbCmd.isNone then t.islandReset else t
def execIslandReset (c : Cmd) (s : State) : Res := .next (s.islandResetCmd c)

/-- The bytes of a domain table: its id, the own index, then index and serial number of each member (log entry 9). -/
def domainBytes (t : DomainTable) : List Byte :=
  leBytes 4 t.id ++ leBytes 1 t.own ++ t.members.flatMap fun m => leBytes 1 m.1 ++ leBytes 16 m.2

/-- A member as a domain table names it: a member known under its serial number stays as it is (R361). -/
def State.memberOf (s : State) (idx serial : Nat) : Member :=
  let m : Member := mget {} s.members idx
  if m.member && m.serial == serial then m else { member := true, serial := serial }

/-- DOMAIN_CONFIG (R361, R400): the table, and a rebase. -/
def State.domainConfig (s : State) (t : DomainTable) : Nat × State :=
  if 128 ≤ t.own || t.members.any fun m => decide (128 ≤ m.1) then (3, s)
  else
    let ms := t.members.foldl (fun m x => mset {} m x.1 (s.memberOf x.1 x.2)) []
    (0, ({ s with device := t.own, members := ms, island := { s.island with domain := t.id } }).rebase)
def execDomainConfig (c : Cmd) (t : DomainTable) (s : State) : Res :=
  .next (s.command c 0x22 (s.namesBytes 0 (domainBytes t)) fun s => let r := s.domainConfig t
                              status r.1 r.2)

/-- IDE_KEY (R374, R377): stream 0 is the selective stream of CXL.io, stream 1 the link IDE of CXL.cache and CXL.mem; there is no other (log
entry 90). -/
def execIdeKey (c : Cmd) (stream : Nat) (key : BitVec 256) (s : State) : Res :=
  .next (s.command c 0x23 (fun x => isArg 0 4 stream x && rdBytes s.mem (hostBase + argNat x 8 8) 32 == leBytes 32 key.toNat) fun s =>
    if 2 ≤ stream then status 3 s
    else status 0 { s with island := { s.island with
    ideKeys := (stream, key) :: s.island.ideKeys.filter fun k => k.1 != stream } })

/-- RETEST (R416): the command completes when the test ends, passing or failing. -/
def execRetest (c : Cmd) (q : Nat) (pass : Bool) (s : State) : Res :=
  .next (s.command c 0x24 (isArg 0 4 q) fun s => let r := s.retestQuad q pass
                              status r.1 r.2)

/-- The bytes of an image: version, signature, body (log entry 9); whether its signature verifies. -/
def imageBytes (x : FwImage) : List Byte := leBytes 4 x.version ++ x.sig ++ x.body
def imageOk (x : FwImage) : Bool := Config.verify (leBytes 4 x.version ++ x.body) x.sig

/-- FW_UPDATE (R15, R381): into the inactive bank; a signature that does not verify, or a version below the counter, is refused. -/
def State.fwUpdate (s : State) (image : FwImage) : Nat × State :=
  let i := s.island
  let bank := !i.bank
  if !imageOk image || decide (image.version < i.rollback) then (8, s.fwStatus bank 4 image.version)
  else
    (0, ({ s with island := i.setBank bank { version := some image.version, image := imageBytes image } }).fwStatus bank 0 image.version)
def execFwUpdate (c : Cmd) (image : FwImage) (s : State) : Res :=
  .next (s.command c 0x30 (fun x => decide (image.sig.length = 96) && s.namesBytes 0 (imageBytes image) x) fun s => let r := s.fwUpdate image
                              status r.1 r.2)

/-- FW_ACTIVATE (R15, R381): the new bank at the next island reset; an image below the anti-rollback counter is refused. -/
def execFwActivate (c : Cmd) (s : State) : Res :=
  .next (s.command c 0x31 noArgs fun s =>
    let i := s.island
    let bank := !i.bank
    if (i.bankOf bank).version.isNone then status 1 s
    else if i.version bank < i.rollback then status 8 (s.fwStatus bank 4 (i.version bank))
    else status 0 (({ s with island := { i with nextBank := bank } }).fwStatus bank 1 (i.version bank)))

/-- FW_COMMIT (R15, R381): the counter rises to the running image's version. -/
def execFwCommit (c : Cmd) (s : State) : Res :=
  .next (s.command c 0x32 noArgs fun s =>
    let i := s.island
    status 0 (({ s with island := { i with rollback := max i.rollback (i.version i.bank) } }).fwStatus i.bank 3 (i.version i.bank)))

/-- Opcodes of R377. -/
def knownOpcode (n : Nat) : Bool :=
  n == 1 || n == 2 || n == 4 || n == 5 || decide (0x10 ≤ n ∧ n ≤ 0x15) || decide (0x20 ≤ n ∧ n ≤ 0x24) || decide (0x30 ≤ n ∧ n ≤ 0x32)

/-- UNSUPPORTED_COMMAND (R377). -/
def execUnsupportedCommand (c : Cmd) (opcode : Nat) (s : State) : Res :=
  .next (if knownOpcode opcode then s else s.command c opcode noArgs (status 9))

/-! ## Attestation (R382) -/

/-- A mailbox reply. -/
def State.spdm (s : State) (host : Nat) (r : Spdm) : State :=
  if s.island.st = 0 ∨ 8 ≤ host then s
  else { s with replies := mset {} s.replies host { mget {} s.replies host with spdm := r } }

/-- GET_VERSION: SPDM 1.3. -/
def execGetVersion (host : Nat) (s : State) : Res := .next (s.spdm host (.version 0x13))
/-- GET_CAPABILITIES. -/
def execGetCapabilities (host : Nat) (s : State) : Res := .next (s.spdm host .capabilities)
/-- NEGOTIATE_ALGORITHMS: only ECDSA on P-384 with SHA-384 (the error numbers: log entry 9). -/
def execNegotiateAlgorithms (host : Nat) (ecdsaP384 sha384 : Bool) (s : State) : Res :=
  .next (s.spdm host (if ecdsaP384 && sha384 then .algorithms else .error 1))
/-- The certificate chain of slot 0: to the Nelrus root, with the identity key as the leaf's. -/
def certChain : List Byte := Config.certHead ++ leBytes 96 Config.identityKey.toNat ++ Config.certTail
/-- GET_DIGESTS: slot 0 alone is populated. -/
def execGetDigests (host : Nat) (s : State) : Res := .next (s.spdm host (.digests 1 (Config.sha384 certChain)))
/-- GET_CERTIFICATE: a part of the chain, and how many bytes follow it. -/
def execGetCertificate (host slot off len : Nat) (s : State) : Res :=
  .next (s.spdm host (if slot = 0 then .certificate ((certChain.drop off).take len) (certChain.length - off - len) else .error 1))
/-- CHALLENGE. -/
def execChallenge (host slot : Nat) (nonce : BitVec 256) (s : State) : Res :=
  .next (s.spdm host (if slot = 0 then .challengeAuth nonce (Config.sign (0x03#8 :: leBytes 32 nonce.toNat)) else .error 1))

/-- What a measurement index measures; the microcode's value is not given (log entry 9). -/
def State.measured (s : State) (index : Nat) : List Byte :=
  let i := s.island
  match index with
  | 1 => leBytes 4 (i.version i.bank) ++ (i.bankOf i.bank).image
  | 2 => leBytes 4 (Config.freeWord (pairNat 2 22)).toNat
  | 3 => i.partBytes ++ i.signature
  | 4 => leBytes 4 i.domain ++ leBytes 1 s.device ++ s.members.flatMap fun m => leBytes 1 m.1 ++ leBytes 16 m.2.serial
  | _ => leBytes 4 i.rollback

/-- GET_MEASUREMENTS. -/
def execGetMeasurements (host index : Nat) (s : State) : Res :=
  .next (s.spdm host (if 1 ≤ index ∧ index ≤ 5 then
      .measurements index (s.measured index) (Config.sign (0x60#8 :: BitVec.ofNat 8 index :: s.measured index)) else .error 1))
/-- Every other request: ERROR with UnsupportedRequest. -/
def execUnsupportedSpdmRequest (host _code : Nat) (s : State) : Res := .next (s.spdm host (.error 7))

end Sys2Proof.Machine
end

