-- ==== Sys2Proof/Machine/Dispatch.lean ====
section
/-! DEFINITION. One arm per row of the opcode table: an instruction word runs for the group in `cur`; the other rows are steps. -/

namespace Sys2Proof.Machine

def exec (i : Instr) (s : State) : Host.Outcome State Fault Refusal :=
  match i with
  | .nop st => Sys2Proof.Machine.execNop st s
  | .guard sel n st => Sys2Proof.Machine.execGuard sel n st s
  | .bra sel off st => Sys2Proof.Machine.execBra sel off st s
  | .call shift off st => Sys2Proof.Machine.execCall shift off st s
  | .jmp a st => Sys2Proof.Machine.execJmp a st s
  | .ret st => Sys2Proof.Machine.execRet st s
  | .callr shift a st => Sys2Proof.Machine.execCallr shift a st s
  | .meet st => Sys2Proof.Machine.execMeet st s
  | .exit st => Sys2Proof.Machine.execExit st s
  | .yield st => Sys2Proof.Machine.execYield st s
  | .brk st => Sys2Proof.Machine.execBrk st s
  | .trap n st => Sys2Proof.Machine.execTrap n st s
  | .region st => Sys2Proof.Machine.execRegion st s
  | .drainst st => Sys2Proof.Machine.execDrainst st s
  | .chkerr d st => Sys2Proof.Machine.execChkerr d st s
  | .rett st => Sys2Proof.Machine.execRett st s
  | .exitGrp st => Sys2Proof.Machine.execExitGrp st s
  | .win b st => Sys2Proof.Machine.execWin b st s
  | .wink b st => Sys2Proof.Machine.execWink b st s
  | .lit d v st => Sys2Proof.Machine.execLit d v st s
  | .klit d v st => Sys2Proof.Machine.execKlit d v st s
  | .mov d a st => Sys2Proof.Machine.execMov d a st s
  | .movBroadcast d a st => Sys2Proof.Machine.execMovBroadcast d a st s
  | .movToUniform d a st => Sys2Proof.Machine.execMovToUniform d a st s
  | .movPv d st => Sys2Proof.Machine.execMovPv d st s
  | .movVp a st => Sys2Proof.Machine.execMovVp a st s
  | .movKp d a st => Sys2Proof.Machine.execMovKp d a st s
  | .sread fn d st => Sys2Proof.Machine.execSread fn d st s
  | .csrr d csr st => Sys2Proof.Machine.execCsrr d csr st s
  | .csrw csr a st => Sys2Proof.Machine.execCsrw csr a st s
  | .waitt mask st => Sys2Proof.Machine.execWaitt mask st s
  | .iadd d a b st => Sys2Proof.Machine.execIadd d a b st s
  | .isub d a b st => Sys2Proof.Machine.execIsub d a b st s
  | .imul d a b st => Sys2Proof.Machine.execImul d a b st s
  | .imulhS d a b st => Sys2Proof.Machine.execImulhS d a b st s
  | .imulhZ d a b st => Sys2Proof.Machine.execImulhZ d a b st s
  | .imad d a b st => Sys2Proof.Machine.execImad d a b st s
  | .and d a b st => Sys2Proof.Machine.execAnd d a b st s
  | .or d a b st => Sys2Proof.Machine.execOr d a b st s
  | .xor d a b st => Sys2Proof.Machine.execXor d a b st s
  | .andn d a b st => Sys2Proof.Machine.execAndn d a b st s
  | .shl d a b st => Sys2Proof.Machine.execShl d a b st s
  | .shr d a b st => Sys2Proof.Machine.execShr d a b st s
  | .sra d a b st => Sys2Proof.Machine.execSra d a b st s
  | .iminS d a b st => Sys2Proof.Machine.execIminS d a b st s
  | .iminZ d a b st => Sys2Proof.Machine.execIminZ d a b st s
  | .imaxS d a b st => Sys2Proof.Machine.execImaxS d a b st s
  | .imaxZ d a b st => Sys2Proof.Machine.execImaxZ d a b st s
  | .iaddi d a imm st => Sys2Proof.Machine.execIaddi d a imm st s
  | .shfi kind d a n st => Sys2Proof.Machine.execShfi kind d a n st s
  | .andi d a imm st => Sys2Proof.Machine.execAndi d a imm st s
  | .iadd64 d a b st => Sys2Proof.Machine.execIadd64 d a b st s
  | .lea d a b st => Sys2Proof.Machine.execLea d a b st s
  | .icmpS c p a b st => Sys2Proof.Machine.execIcmpS c p a b st s
  | .icmpZ c p a b st => Sys2Proof.Machine.execIcmpZ c p a b st s
  | .iun fn d a st => Sys2Proof.Machine.execIun fn d a st s
  | .bfe d a b st => Sys2Proof.Machine.execBfe d a b st s
  | .bfi d a b st => Sys2Proof.Machine.execBfi d a b st s
  | .faddF32 d a b st => Sys2Proof.Machine.execFaddF32 d a b st s
  | .fsubF32 d a b st => Sys2Proof.Machine.execFsubF32 d a b st s
  | .fmulF32 d a b st => Sys2Proof.Machine.execFmulF32 d a b st s
  | .ffmaF32 d a b st => Sys2Proof.Machine.execFfmaF32 d a b st s
  | .fminF32 d a b st => Sys2Proof.Machine.execFminF32 d a b st s
  | .fmaxF32 d a b st => Sys2Proof.Machine.execFmaxF32 d a b st s
  | .fcmpF32 c p a b st => Sys2Proof.Machine.execFcmpF32 c p a b st s
  | .funF32 fn d a st => Sys2Proof.Machine.execFunF32 fn d a st s
  | .faddF16x2 d a b st => Sys2Proof.Machine.execFaddF16x2 d a b st s
  | .fsubF16x2 d a b st => Sys2Proof.Machine.execFsubF16x2 d a b st s
  | .fmulF16x2 d a b st => Sys2Proof.Machine.execFmulF16x2 d a b st s
  | .ffmaF16x2 d a b st => Sys2Proof.Machine.execFfmaF16x2 d a b st s
  | .fminF16x2 d a b st => Sys2Proof.Machine.execFminF16x2 d a b st s
  | .fmaxF16x2 d a b st => Sys2Proof.Machine.execFmaxF16x2 d a b st s
  | .fcmpF16x2 c p a b st => Sys2Proof.Machine.execFcmpF16x2 c p a b st s
  | .funF16x2 fn d a st => Sys2Proof.Machine.execFunF16x2 fn d a st s
  | .faddBf16x2 d a b st => Sys2Proof.Machine.execFaddBf16x2 d a b st s
  | .fsubBf16x2 d a b st => Sys2Proof.Machine.execFsubBf16x2 d a b st s
  | .fmulBf16x2 d a b st => Sys2Proof.Machine.execFmulBf16x2 d a b st s
  | .ffmaBf16x2 d a b st => Sys2Proof.Machine.execFfmaBf16x2 d a b st s
  | .fminBf16x2 d a b st => Sys2Proof.Machine.execFminBf16x2 d a b st s
  | .fmaxBf16x2 d a b st => Sys2Proof.Machine.execFmaxBf16x2 d a b st s
  | .fcmpBf16x2 c p a b st => Sys2Proof.Machine.execFcmpBf16x2 c p a b st s
  | .funBf16x2 fn d a st => Sys2Proof.Machine.execFunBf16x2 fn d a st s
  | .faddF64 d a b st => Sys2Proof.Machine.execFaddF64 d a b st s
  | .fsubF64 d a b st => Sys2Proof.Machine.execFsubF64 d a b st s
  | .fmulF64 d a b st => Sys2Proof.Machine.execFmulF64 d a b st s
  | .ffmaF64 d a b st => Sys2Proof.Machine.execFfmaF64 d a b st s
  | .fminF64 d a b st => Sys2Proof.Machine.execFminF64 d a b st s
  | .fmaxF64 d a b st => Sys2Proof.Machine.execFmaxF64 d a b st s
  | .fcmpF64 c p a b st => Sys2Proof.Machine.execFcmpF64 c p a b st s
  | .funF64 fn d a st => Sys2Proof.Machine.execFunF64 fn d a st s
  | .cvt kind rm d a st => Sys2Proof.Machine.execCvt kind rm d a st s
  | .pkM8Rn d a b st => Sys2Proof.Machine.execPkM8Rn d a b st s
  | .pkM8Rz d a b st => Sys2Proof.Machine.execPkM8Rz d a b st s
  | .upM8 n d a st => Sys2Proof.Machine.execUpM8 n d a st s
  | .vdotM8 d a b st => Sys2Proof.Machine.execVdotM8 d a b st s
  | .shflIdx d a b st => Sys2Proof.Machine.execShflIdx d a b st s
  | .shflUp d a n st => Sys2Proof.Machine.execShflUp d a n st s
  | .shflDn d a n st => Sys2Proof.Machine.execShflDn d a n st s
  | .shflXor d a n st => Sys2Proof.Machine.execShflXor d a n st s
  | .qx fn d a st => Sys2Proof.Machine.execQx fn d a st s
  | .voteAny d p st => Sys2Proof.Machine.execVoteAny d p st s
  | .voteAll d p st => Sys2Proof.Machine.execVoteAll d p st s
  | .voteBallot d p st => Sys2Proof.Machine.execVoteBallot d p st s
  | .voteEq d p st => Sys2Proof.Machine.execVoteEq d p st s
  | .redux op d a st => Sys2Proof.Machine.execRedux op d a st s
  | .kadd d a b st => Sys2Proof.Machine.execKadd d a b st s
  | .ksub d a b st => Sys2Proof.Machine.execKsub d a b st s
  | .kmul d a b st => Sys2Proof.Machine.execKmul d a b st s
  | .kand d a b st => Sys2Proof.Machine.execKand d a b st s
  | .kor d a b st => Sys2Proof.Machine.execKor d a b st s
  | .kxor d a b st => Sys2Proof.Machine.execKxor d a b st s
  | .kshfi kind d a n st => Sys2Proof.Machine.execKshfi kind d a n st s
  | .kaddi d a imm st => Sys2Proof.Machine.execKaddi d a imm st s
  | .kcmpS c p a b st => Sys2Proof.Machine.execKcmpS c p a b st s
  | .kcmpZ c p a b st => Sys2Proof.Machine.execKcmpZ c p a b st s
  | .kadd64 d a b st => Sys2Proof.Machine.execKadd64 d a b st s
  | .kld w ord d a st => Sys2Proof.Machine.execKld w ord d a st s
  | .kst w nt ord d a st => Sys2Proof.Machine.execKst w nt ord d a st s
  | .ldG w ru ord d a st => Sys2Proof.Machine.execLdG w ru ord d a st s
  | .stG w nt ord d a st => Sys2Proof.Machine.execStG w nt ord d a st s
  | .ldxG d a b st => Sys2Proof.Machine.execLdxG d a b st s
  | .stxG d a b st => Sys2Proof.Machine.execStxG d a b st s
  | .ldS w fe clr d a st => Sys2Proof.Machine.execLdS w fe clr d a st s
  | .stS w fe d a st => Sys2Proof.Machine.execStS w fe d a st s
  | .ldL w d a st => Sys2Proof.Machine.execLdL w d a st s
  | .stL w d a st => Sys2Proof.Machine.execStL w d a st s
  | .atomG spec d a b st => Sys2Proof.Machine.execAtomG spec d a b st s
  | .atomS spec d a b st => Sys2Proof.Machine.execAtomS spec d a b st s
  | .ldAsof w stamp nb status d a st => Sys2Proof.Machine.execLdAsof w stamp nb status d a st s
  | .fence kind scope st => Sys2Proof.Machine.execFence kind scope st s
  | .stamp d st => Sys2Proof.Machine.execStamp d st s
  | .settled d st => Sys2Proof.Machine.execSettled d st s
  | .dusk d st => Sys2Proof.Machine.execDusk d st s
  | .hpin d a st => Sys2Proof.Machine.execHpin d a st s
  | .hunpin d a st => Sys2Proof.Machine.execHunpin d a st s
  | .floor d st => Sys2Proof.Machine.execFloor d st s
  | .cpLd d a n tok mbar st => Sys2Proof.Machine.execCpLd d a n tok mbar st s
  | .cpSt d a n tok rel st => Sys2Proof.Machine.execCpSt d a n tok rel st s
  | .cpTile d a stride rows rowBytes roles tok mbar st => Sys2Proof.Machine.execCpTile d a stride rows rowBytes roles tok mbar st s
  | .cpRed ty d a n tok rel st => Sys2Proof.Machine.execCpRed ty d a n tok rel st s
  | .cpChain ch a tok st => Sys2Proof.Machine.execCpChain ch a tok st s
  | .qfence mask st => Sys2Proof.Machine.execQfence mask st s
  | .cpStat d st => Sys2Proof.Machine.execCpStat d st s
  | .mma m st => Sys2Proof.Machine.execMma m st s
  | .mmaPair m st => Sys2Proof.Machine.execMmaPair m st s
  | .accZero c st => Sys2Proof.Machine.execAccZero c st s
  | .accLd c d a st => Sys2Proof.Machine.execAccLd c d a st s
  | .accSt c d a st => Sys2Proof.Machine.execAccSt c d a st s
  | .accCp c role mbar d a st => Sys2Proof.Machine.execAccCp c role mbar d a st s
  | .ofence st => Sys2Proof.Machine.execOfence st s
  | .mwait st => Sys2Proof.Machine.execMwait st s
  | .barBlk st => Sys2Proof.Machine.execBarBlk st s
  | .barBlkR st => Sys2Proof.Machine.execBarBlkR st s
  | .barTeam st => Sys2Proof.Machine.execBarTeam st s
  | .mbarInit d a st => Sys2Proof.Machine.execMbarInit d a st s
  | .mbarExpect d a st => Sys2Proof.Machine.execMbarExpect d a st s
  | .mbarArrive d a st => Sys2Proof.Machine.execMbarArrive d a st s
  | .mbarWait d a st => Sys2Proof.Machine.execMbarWait d a st s
  | .mbarTest d a st => Sys2Proof.Machine.execMbarTest d a st s
  | .spawn d a st => Sys2Proof.Machine.execSpawn d a st s
  | .jdec d a st => Sys2Proof.Machine.execJdec d a st s
  | .launch d a st => Sys2Proof.Machine.execLaunch d a st s
  | .qstat d a st => Sys2Proof.Machine.execQstat d a st s
  | .qinit d a st => Sys2Proof.Machine.execQinit d a st s
  | .actBegin d a st => Sys2Proof.Machine.execActBegin d a st s
  | .actComp d a st => Sys2Proof.Machine.execActComp d a st s
  | .actCommit d a st => Sys2Proof.Machine.execActCommit d a st s
  | .actAbandon d a st => Sys2Proof.Machine.execActAbandon d a st s
  | .actStat d a st => Sys2Proof.Machine.execActStat d a st s
  | .actDone a st => Sys2Proof.Machine.execActDone a st s
  | .actResume d a st => Sys2Proof.Machine.execActResume d a st s
  | .mark a st => Sys2Proof.Machine.execMark a st s
  | .tlbinv d a st => Sys2Proof.Machine.execTlbinv d a st s
  | .pageWalk op cached => Sys2Proof.Machine.execPageWalk op cached s
  | .lateFault op => Sys2Proof.Machine.execLateFault op s
  | .storeFaultRecord op => Sys2Proof.Machine.execStoreFaultRecord op s
  | .forcedDelivery blk grp => Sys2Proof.Machine.execForcedDelivery blk grp s
  | .trapEntry blk grp => Sys2Proof.Machine.execTrapEntry blk grp s
  | .loadReturn op => Sys2Proof.Machine.execLoadReturn op s
  | .storePerform op => Sys2Proof.Machine.execStorePerform op s
  | .atomicPerform op => Sys2Proof.Machine.execAtomicPerform op s
  | .asofWalk op => Sys2Proof.Machine.execAsofWalk op s
  | .accessCount => Sys2Proof.Machine.execAccessCount s
  | .qtQuantumExpiry op => Sys2Proof.Machine.execQtQuantumExpiry op s
  | .hostStampHold op => Sys2Proof.Machine.execHostStampHold op s
  | .matrixArbitration core => Sys2Proof.Machine.execMatrixArbitration core s
  | .passPerform blk grp chunks => Sys2Proof.Machine.execPassPerform blk grp chunks s
  | .accOpPerform blk grp rows => Sys2Proof.Machine.execAccOpPerform blk grp rows s
  | .engineFault e => Sys2Proof.Machine.execEngineFault e s
  | .copySectorWrite e => Sys2Proof.Machine.execCopySectorWrite e s
  | .copyEntryPerform e => Sys2Proof.Machine.execCopyEntryPerform e s
  | .chainRecord core ch => Sys2Proof.Machine.execChainRecord core ch s
  | .uncorrectableError blk kind => Sys2Proof.Machine.execUncorrectableError blk kind s
  | .blockRollback blk => Sys2Proof.Machine.execBlockRollback blk s
  | .placementPop core => Sys2Proof.Machine.execPlacementPop core s
  | .teamReservation hwq => Sys2Proof.Machine.execTeamReservation hwq s
  | .coreThermalUpdate core temp droop => Sys2Proof.Machine.execCoreThermalUpdate core temp droop s
  | .partialEviction ctx core => Sys2Proof.Machine.execPartialEviction ctx core s
  | .blockEvict blk => Sys2Proof.Machine.execBlockEvict blk s
  | .blockEnd blk => Sys2Proof.Machine.execBlockEnd blk s
  | .decrementRetry n => Sys2Proof.Machine.execDecrementRetry n s
  | .kernelEnded k => Sys2Proof.Machine.execKernelEnded k s
  | .watchdogExpiry k => Sys2Proof.Machine.execWatchdogExpiry k s
  | .kernelKilled k => Sys2Proof.Machine.execKernelKilled k s
  | .contextKillDone ctx => Sys2Proof.Machine.execContextKillDone ctx s
  | .compensationStart entry => Sys2Proof.Machine.execCompensationStart entry s
  | .commitDiscard ctx handle member => Sys2Proof.Machine.execCommitDiscard ctx handle member s
  | .actTimeout entry => Sys2Proof.Machine.execActTimeout entry s
  | .historyReclaim stack => Sys2Proof.Machine.execHistoryReclaim stack s
  | .historyRetentionExpiry stack => Sys2Proof.Machine.execHistoryRetentionExpiry stack s
  | .pinTimeout ctx pin => Sys2Proof.Machine.execPinTimeout ctx pin s
  | .domainRebase => Sys2Proof.Machine.execDomainRebase s
  | .pageRekey page => Sys2Proof.Machine.execPageRekey page s
  | .channelRetrain stack channel => Sys2Proof.Machine.execChannelRetrain stack channel s
  | .scrub line => Sys2Proof.Machine.execScrub line s
  | .seriesLatch => Sys2Proof.Machine.execSeriesLatch s
  | .pcSample core quarter => Sys2Proof.Machine.execPcSample core quarter s
  | .stopAt => Sys2Proof.Machine.execStopAt s
  | .stopResume host => Sys2Proof.Machine.execStopResume host s
  | .quadrantTest q => Sys2Proof.Machine.execQuadrantTest q s
  | .quadrantTestDone q pass => Sys2Proof.Machine.execQuadrantTestDone q pass s
  | .queueDoorbell host hwq v => Sys2Proof.Machine.execQueueDoorbell host hwq v s
  | .claim c => Sys2Proof.Machine.execClaim c s
  | .ownershipGrant => Sys2Proof.Machine.execOwnershipGrant s
  | .handover c successor => Sys2Proof.Machine.execHandover c successor s
  | .heartbeat host => Sys2Proof.Machine.execHeartbeat host s
  | .ownerHeartbeatLapse => Sys2Proof.Machine.execOwnerHeartbeatLapse s
  | .hbperiodWrite host v => Sys2Proof.Machine.execHbperiodWrite host v s
  | .hmemctxWrite host v => Sys2Proof.Machine.execHmemctxWrite host v s
  | .hostRegisterWrite host off v => Sys2Proof.Machine.execHostRegisterWrite host off v s
  | .mapLoad host region v => Sys2Proof.Machine.execMapLoad host region v s
  | .memcfgWrite host v => Sys2Proof.Machine.execMemcfgWrite host v s
  | .samplePeriodWrite host ctx v => Sys2Proof.Machine.execSamplePeriodWrite host ctx v s
  | .traceEnable host ctx v => Sys2Proof.Machine.execTraceEnable host ctx v s
  | .hostMemRead host off n => Sys2Proof.Machine.execHostMemRead host off n s
  | .hostMemWrite host off bytes => Sys2Proof.Machine.execHostMemWrite host off bytes s
  | .status c => Sys2Proof.Machine.execStatus c s
  | .readEvents c first count pa => Sys2Proof.Machine.execReadEvents c first count pa s
  | .ctxCreate c pa => Sys2Proof.Machine.execCtxCreate c pa s
  | .ctxStop c ctx => Sys2Proof.Machine.execCtxStop c ctx s
  | .ctxResume c ctx => Sys2Proof.Machine.execCtxResume c ctx s
  | .ctxKill c ctx => Sys2Proof.Machine.execCtxKill c ctx s
  | .ctxDestroy c ctx => Sys2Proof.Machine.execCtxDestroy c ctx s
  | .tlbInval c va op zero => Sys2Proof.Machine.execTlbInval c va op zero s
  | .computeReset c => Sys2Proof.Machine.execComputeReset c s
  | .islandReset c => Sys2Proof.Machine.execIslandReset c s
  | .domainConfig c t => Sys2Proof.Machine.execDomainConfig c t s
  | .ideKey c stream key => Sys2Proof.Machine.execIdeKey c stream key s
  | .retest c q pass => Sys2Proof.Machine.execRetest c q pass s
  | .fwUpdate c image => Sys2Proof.Machine.execFwUpdate c image s
  | .fwActivate c => Sys2Proof.Machine.execFwActivate c s
  | .fwCommit c => Sys2Proof.Machine.execFwCommit c s
  | .getVersion host => Sys2Proof.Machine.execGetVersion host s
  | .getCapabilities host => Sys2Proof.Machine.execGetCapabilities host s
  | .negotiateAlgorithms host ecdsaP384 sha384 => Sys2Proof.Machine.execNegotiateAlgorithms host ecdsaP384 sha384 s
  | .getDigests host => Sys2Proof.Machine.execGetDigests host s
  | .getCertificate host slot off len => Sys2Proof.Machine.execGetCertificate host slot off len s
  | .challenge host slot nonce => Sys2Proof.Machine.execChallenge host slot nonce s
  | .getMeasurements host index => Sys2Proof.Machine.execGetMeasurements host index s
  | .unsupportedSpdmRequest host code => Sys2Proof.Machine.execUnsupportedSpdmRequest host code s
  | .powerGood rcd sigOk => Sys2Proof.Machine.execPowerGood rcd sigOk s
  | .powerLost => Sys2Proof.Machine.execPowerLost s
  | .bootVerified fwOk => Sys2Proof.Machine.execBootVerified fwOk s
  | .computeRelease => Sys2Proof.Machine.execComputeRelease s
  | .dieHeartbeat die => Sys2Proof.Machine.execDieHeartbeat die s
  | .computeHang die => Sys2Proof.Machine.execComputeHang die s
  | .cut => Sys2Proof.Machine.execCut s
  | .downReceived dev => Sys2Proof.Machine.execDownReceived dev s
  | .upReceived dev inc => Sys2Proof.Machine.execUpReceived dev inc s
  | .memberUnreachable dev => Sys2Proof.Machine.execMemberUnreachable dev s
  | .skewTimeout dev => Sys2Proof.Machine.execSkewTimeout dev s
  | .blockReceived port b => Sys2Proof.Machine.execBlockReceived port b s
  | .linkRetrain port => Sys2Proof.Machine.execLinkRetrain port s
  | .portTrained port lanes => Sys2Proof.Machine.execPortTrained port lanes s
  | .portDown port farSide => Sys2Proof.Machine.execPortDown port farSide s
  | .packetRead p => Sys2Proof.Machine.execPacketRead p s
  | .packetWrite p => Sys2Proof.Machine.execPacketWrite p s
  | .packetAtomic p => Sys2Proof.Machine.execPacketAtomic p s
  | .packetReducingWrite p => Sys2Proof.Machine.execPacketReducingWrite p s
  | .packetResponse p => Sys2Proof.Machine.execPacketResponse p s
  | .packetErrorResponse p => Sys2Proof.Machine.execPacketErrorResponse p s
  | .packetMarker p => Sys2Proof.Machine.execPacketMarker p s
  | .packetMarkerAck p => Sys2Proof.Machine.execPacketMarkerAck p s
  | .packetE2eAck p => Sys2Proof.Machine.execPacketE2eAck p s
  | .packetManagement p m => Sys2Proof.Machine.execPacketManagement p m s
  | .e2eAckSend dev path => Sys2Proof.Machine.execE2eAckSend dev path s
  | .escapeMove port vc => Sys2Proof.Machine.execEscapeMove port vc s
  | .clockThrottle die k => Sys2Proof.Machine.execClockThrottle die k s
  | .unsupportedCommand c opcode => Sys2Proof.Machine.execUnsupportedCommand c opcode s
  | .illegalPacket p => Sys2Proof.Machine.execIllegalPacket p s
  | .cxlCacheInvalidation line bytes => Sys2Proof.Machine.execCxlCacheInvalidation line bytes s

end Sys2Proof.Machine
end

