-- ==== Sys2Proof/Machine/Issue.lean ====
section
/-! DEFINITION. A quarter fetches, decodes and issues; one action of the machine; which action comes when none is asked for; the
machine with an instruction placed at its fetch (R28, R29, R73, R74, R149, R170, R192, R310, log entry 2). -/

namespace Sys2Proof.Machine

/-! ## Fetching (R310, R192) -/

/-- A fetch that fails parks every lane of the run at its PC (R310); in the served set's run the group dies (R192). A helper lane raises
nothing and goes on at the next word (R17, R153, log entry 26). -/
def State.fetchFault (s : State) (u g : Nat) (run : List Nat) (pc cause : Nat) (poison : Bool) : State :=
  let s := if poison then s.cirBlk u 0 else s
  let G := s.grp u g
  if G.trapped && run.any (fun L => !(G.lane L).helper) then s.doubleTrap u g
  else s.setGrp u g (run.foldl (fun G L => G.setLane L (if (G.lane L).helper then (G.lane L).advance 1 none none false
    else (G.lane L).park { code := cause, va := pc, fpc := pc, words := 0 })) G)

/-! ## The fate of a word (R73, R74, R99) -/

/-- A use that is ILLEGAL whatever the zero fields hold: privilege, a CSR number, a role, a place (R74, step 3). -/
def State.useIllegal (s : State) (c : Cur) : Instr → Bool
  | .csrr _ n _ | .csrw n _ _ => s.csrIllegal c.blk n.toNat
  | .sread fn _ _ => fn == .island && !(s.ctxOf c.blk).priv
  | .mmaPair _ _ => s.pairIllegal c
  | .accCp _ role _ _ _ _ => s.rolesIllegal c [role.toNat]
  | .cpTile _ _ _ _ _ roles _ _ _ => s.rolesIllegal c (rolesOf roles)
  | .actDone _ _ => (s.blk c.blk).routine.isNone
  | .tlbinv _ _ _ => !(s.ctxOf c.blk).priv
  | _ => false

/-- The cause that a word which is no instruction raises: 1 ILLEGAL, 2 RESERVED_FIELD (R74). -/
def State.badCause (s : State) (c : Cur) : Bad → Nat
  | .illegal _ => 1
  | .reserved _ =>
    match (parse c.word (litAt c.lits 0) (litAt c.lits 1) (litAt c.lits 2) (litAt c.lits 3)).instr with
    | some i => if s.useIllegal c i then 1 else 2
    | none => 2

/-- A word that is no instruction: every lane of the run that acts parks with its cause (R73, R171). -/
def State.badWord (s : State) (c : Cur) (b : Bad) : Res :=
  issueWith {} (sOf c.word) (fun s i _ => some (mkCause i.c (s.badCause i.c b))) isReady (fun s _ => { s := s }) s

/-- The instruction, or the word's trap. -/
def State.runWord (s : State) (c : Cur) : Res :=
  match decode c.word c.lits with
  | .ok i => exec i s
  | .error b => s.badWord c b

/-! ## Issue (R28, R29) -/

/-- What a group does when its quarter looks at it: the reason code it does not issue for, or the state after its issue. -/
def State.tryGroup (s : State) (core quarter u g : Nat) : Nat × Option State :=
  let G := s.grp u g
  let o := G.offer
  let held := s.writeWait u g
  -- of two reasons the one that R408 names first
  let code := fun (r : Reason) => G.reasonCode (match held with
    | some h => if Reason.code h < Reason.code r then h else r
    | none => r)
  match s.waitsFor u g (s.cycleOf core) o.1 with
  | some r => (code r, none)
  | none =>
    let pc := (G.lane (o.1.headD 0)).pc
    match s.fetch u pc with
    | .fault c p => if held.isSome then (code .other, none) else (0, some (s.fetchFault u g o.1 pc c p))
    | .ok w t =>
      let t := t.setGrp u g o.2
      let c : Cur := ⟨u, g, o.1, w.1, w.2, pc, core, quarter, none⟩
      match ({ t with cur := some c }).runWord c with
      | .next t => match t.cur.bind (·.wait) with
        | some .badRegister => (14, some (s.uncorrectable u (.ecc [])))
        | some r => (code r, none)
        | none => if held.isSome then (code .other, none) else (0, some (t.afterIssue c G.trapped))
      | _ => (14, none)

/-- Note why a group did not issue in a cycle (R408). -/
def State.setWhy (s : State) (now u g code : Nat) : State := s.setGrp u g { s.grp u g with why := code, whyAt := now + 1 }

/-- What a quarter finds at its slots, from its pointer on: group, reason code, and the state after an issue (R29). -/
def State.tries (s : State) (core quarter : Nat) : List ((Nat × Nat) × Nat × Option State) :=
  let q := (s.core core).quarter quarter
  if s.gatedAt (dieUnit core) || decide (s.cycleOf core < q.nextAt) then []
  else
    let slots := (List.range 8).map fun j => quarter * 8 + (q.ptr + j) % 8
    (slots.filterMap fun x => s.slotAt core x).map fun x => (x, s.tryGroup core quarter x.1 x.2)

/-! ## Entries that quarters share (R417) -/

/-- The core that keeps the pointer of a resource: 0 and 1 copy queues, 2 to 5 chain channels, 6 the cluster's reservation table. -/
def arbCore (core r : Nat) : Nat := if r = 6 then core / 4 * 4 else core
/-- The quarters that a resource serves, as (core, quarter), by logical core and then quarter. -/
def arbQuarters (core r : Nat) : List (Nat × Nat) :=
  if r = 6 then (List.range 16).map fun i => (core / 4 * 4 + i / 4, i % 4) else (List.range 4).map fun q => (core, q)
/-- The place of a quarter among them. -/
def arbIndex (core quarter r : Nat) : Nat := if r = 6 then core % 4 * 4 + quarter else quarter

/-- The shared entry that an issue of a core has taken (R417). -/
def State.taken (s t : State) (core : Nat) : Option Nat :=
  let a := (s.core core).inUse
  let b := (t.core core).inUse
  if a.ld < b.ld then some 0 else if a.st < b.st then some 1
  else match (List.range 4).find? fun c => b.chans.contains c && !a.chans.contains c with
    | some c => some (2 + c)
    | none => if (s.core (arbCore core 6)).inUse.mat < (t.core (arbCore core 6)).inUse.mat then some 6 else none

/-- Free entries of a resource in the present cycle. -/
def State.freeEntries (s : State) (core r : Nat) : Nat :=
  match r with
  | 0 => 16 - s.ldUsed core
  | 1 => 16 - s.stUsed core
  | 6 => 16 - s.matTable core
  | c => if s.chanUsed core (c - 2) then 0 else 1

/-- The resource that a quarter's chosen slot, the first that is ready, takes. -/
def State.choice (s : State) (core quarter : Nat) : Option Nat :=
  match (s.tries core quarter).find? fun t => t.2.2.isSome with
  | some (_, _, some t) => s.taken t core
  | _ => none

/-- Whether a quarter is served when it needs a resource, and whether more quarters need it than have entries (R417). -/
def State.admits (s : State) (core quarter r : Nat) : Bool × Bool :=
  let x := (s.core (arbCore core r)).arb r (s.cycleOf core)
  let qs := arbQuarters core r
  let turn := (List.range qs.length).map fun i => (x.first + i) % qs.length
  let need := turn.filter fun i => i == arbIndex core quarter r ||
    (qs[i]?).any fun q => s.choice q.1 q.2 == some r
  let free := s.freeEntries core r
  ((need.take free).contains (arbIndex core quarter r), decide (free < need.length))

/-- The pointer of a contended resource: it moves past the last quarter served (R417). -/
def State.arbMove (s : State) (core quarter r : Nat) (served : Bool) : State :=
  let n := (arbQuarters core r).length
  let c := s.core (arbCore core r)
  let x := c.arb r (s.cycleOf core)
  let o := (arbIndex core quarter r + n - x.first) % n + 1
  let x := if served && decide ((x.ptr + n - x.first) % n < o) then { x with ptr := (arbIndex core quarter r + 1) % n } else x
  s.setCore (arbCore core r) { c with arbs := mset {} c.arbs r x }

/-- The slot that issues: the first ready one whose shared entry, if it takes one, its quarter is given; the slots passed over
(R29, R417). -/
def State.pick (s : State) (core quarter : Nat) :
    List ((Nat × Nat) × Nat × Option State) → List ((Nat × Nat) × Nat) → Option ((Nat × Nat) × State) × List ((Nat × Nat) × Nat)
  | [], lost => (none, lost)
  | (x, _, some t) :: rest, lost =>
    match s.taken t core with
    | none => (some (x, t), lost)
    | some r => if (s.admits core quarter r).1 then (some (x, t), lost) else s.pick core quarter rest (lost ++ [(x, r)])
  | _ :: rest, lost => s.pick core quarter rest lost

/-- A quarter issues from the first ready slot from its pointer on that R417 gives what it needs (R29, R417). -/
def State.issueQuarter (s : State) (core quarter : Nat) : State :=
  let tries := s.tries core quarter
  let p := s.pick core quarter tries []
  let lost := fun (x : Nat × Nat) => (p.2.find? fun l => l.1 == x).map fun l =>
    (s.grp x.1 x.2).reasonCode (if l.2 < 6 then .tokenWait else .matrixReservation)
  let t := match p.1 with
    | some (_, t) => (match s.taken t core with
      | some r => if (s.admits core quarter r).2 then t.arbMove core quarter r true else t
      | none => t)
    | none => s
  let t := p.2.foldl (fun t l => t.arbMove core quarter l.2 false) t
  (tries.filter fun y => p.1.all fun x => x.1 != y.1).foldl (fun s y =>
    s.setWhy (s.cycleOf core) y.1.1 y.1.2 ((lost y.1).getD (if y.2.2.isSome then 15 else y.2.1))) t

/-- As a cycle of a die ends, the groups of a quarter that has not looked at them in it are looked at: one that could have issued was not
selected (R408). -/
def State.look (s : State) (die : Nat) : State :=
  let qs := (s.busyCores die).flatMap fun n => (List.range 4).map fun q => (n, q)
  qs.foldl (fun t x => (s.tries x.1 x.2).foldl (fun t y =>
    if (s.grp y.1.1 y.1.2).whyAt = s.cycleOf x.1 + 1 then t
    else t.setWhy (s.cycleOf x.1) y.1.1 y.1.2 (if y.2.2.isSome then 15 else y.2.1)) t) s

/-! ## One action (log entry 2) -/

/-- A variable-latency result has arrived (R26, R64). -/
def State.completeVar (s : State) (u g iid : Nat) : State :=
  let G := s.grp u g
  if G.board.any fun e => e.iid == iid && e.done.isNone && !e.mem then s.setGrp u g (G.complete (s.nowOf u) iid) else s

/-- A row of the table that is a step, not a word. -/
def isStep (i : Instr) : Bool := (encode i).isEmpty

/-- The clock domain of a block: its core's die. -/
def State.blkUnit (s : State) (u : Nat) : Nat := dieUnit (((s.blk u).core).getD 0)

/-- What an action does; a stop holds what the gated clock domains do (R413, R414). -/
def State.act (s : State) (a : Action) : Res :=
  match a with
  | .issue core quarter => .next (s.issueQuarter core quarter)
  | .event i => if !isStep i || (gatedStep i && s.gatedAt (s.unitOf i)) then .next s else exec i s
  | .tick => .next s.passTick
  | .cycle die => .next ((s.look die).cycle die)
  | .complete u g iid => .next (if s.gatedAt (s.blkUnit u) then s else s.completeVar u g iid)
  | .settle uid => .next (if s.gatedAt (s.blkUnit (((s.op? uid).map (·.blk)).getD 0)) then s else s.settle uid)
  | .combine uid into => .next (if s.gatedAt 0 then s else s.combine uid into)
  | .barrier u => .next (if s.gatedAt (s.blkUnit u) then s else (s.blkTry u).teamTry (s.blk u).team)
  | .arrive p => .next (s.arrival p)

/-! ## The model's own schedule (log entry 2) -/

/-- What one operation in flight may do. -/
def pendActions (p : Pend) : List Action :=
  if p.done then []
  else match p.kind with
    | .fence _ => [.settle p.uid]
    | .sys _ => [.event (.pageWalk p.uid false), .event (.lateFault p.uid), .settle p.uid]
    | .load => [.event (.pageWalk p.uid false), .event (.lateFault p.uid), .event (.loadReturn p.uid)]
    | .asof => [.event (.pageWalk p.uid false), .event (.lateFault p.uid), .event (.asofWalk p.uid)]
    | .store => [.event (.pageWalk p.uid false), .event (.storeFaultRecord p.uid), .event (.storePerform p.uid), .event (.hostStampHold p.uid)]
    | .atomic => [.event (.pageWalk p.uid false), .event (.lateFault p.uid), .event (.atomicPerform p.uid), .event (.hostStampHold p.uid)
        , .event (.qtQuantumExpiry p.uid)]

/-- What a block and its groups may do. -/
def blockActions (u : Nat) (b : Block) : List Action :=
  if !b.live then []
  else (b.groups.flatMap fun g =>
      [Action.event (.forcedDelivery u g.1), .event (.trapEntry u g.1), .event (.engineFault (.mat u g.1)), .event (.passPerform u g.1 1)
        , .event (.accOpPerform u g.1 1)] ++ (g.2.board.filter fun e => e.done.isNone && !e.mem).map fun e => .complete u g.1 e.iid)
    ++ [.barrier u, .event (.blockRollback u), .event (.blockEvict u), .event (.blockEnd u)]

/-- What the engines and quarters of a core that holds blocks may do. -/
def coreActions (n : Nat) (c : CoreSt) : List Action :=
  let refs := (if c.ldq.isEmpty then [] else [EngRef.ld n 0]) ++ (if c.stq.isEmpty then [] else [EngRef.st n 0])
    ++ (c.chans.filter fun x => x.2.busy).map fun x => EngRef.ch n x.1
  (List.range 4).map (fun q => Action.issue n q) ++ [.event (.matrixArbitration n)]
    ++ refs.flatMap (fun r => [.event (.engineFault r), .event (.copySectorWrite r), .event (.copyEntryPerform r)])
    ++ ((c.chans.filter fun x => x.2.busy).map fun x => .event (.chainRecord n x.1))
    ++ (List.range 4).map fun q => .event (.pcSample n q)

/-- What the history logs and their pins may do. -/
def State.historyActions (s : State) : List Action :=
  (s.rings.flatMap fun r => [Action.event (.historyReclaim r.1), .event (.historyRetentionExpiry r.1)])
    ++ s.ctxs.flatMap fun c => (c.2.pins.filter fun p => p.2.used && !p.2.broken).flatMap fun p =>
      [Action.event (.pinTimeout c.1 p.1), .event (.historyRetentionExpiry 0)]

/-- What the island and the placement units do as time passes: the owner's lapse, the grant, a stop, a cut that is due, reservations,
partial evictions. -/
def State.islandActions (s : State) : List Action :=
  [.event .ownerHeartbeatLapse, .event .ownershipGrant, .event .stopAt]
    ++ (if s.island.st = 4 then [Action.event .cut] else [])
    ++ (s.tlbCmd.toList.map fun x => .event (.tlbInval x.cmd x.va x.op 0#32))
    ++ (s.queues.filter fun q => q.2.since.isSome).map (fun q => .event (.teamReservation q.1))
    ++ s.ctxs.flatMap fun c => (mkeys c.2.turn).map fun n => .event (.partialEviction c.1 n)

/-- Everything the machine may do of its own accord, in turn. -/
def State.ownActions (s : State) : List Action :=
  let busy := (s.blocks.filterMap fun b => b.2.core).eraseDups
  [.tick, .cycle 0, .cycle 1, .cycle 2, .cycle 3, .event .seriesLatch, .event .accessCount]
    ++ s.pend.flatMap pendActions ++ s.blocks.flatMap (fun b => blockActions b.1 b.2) ++ busy.flatMap (fun n => coreActions n (s.core n))
    ++ (if s.queues.any fun q => (match q.2.bound with
          | some c => s.mayPop c q.1
          | none => false)
        then (List.range 512).map fun n => .event (.placementPop n) else [])
    ++ s.kernels.flatMap (fun k => [Action.event (.kernelEnded k.1), .event (.watchdogExpiry k.1), .event (.kernelKilled k.1)])
    ++ s.ctxs.map (fun c => .event (.contextKillDone c.1))
    ++ s.historyActions ++ s.islandActions
    ++ s.vesper.flatMap (fun (e : Entry) => [Action.event (.compensationStart e.uid), .event (.actTimeout e.uid)])
    ++ s.acts.flatMap (fun (a : Activity) => a.discard.map fun d => .event (.commitDiscard a.ctx (BitVec.ofNat 32 a.handle) d))
    ++ (List.range s.held.length).map (fun i => .event (.decrementRetry i)) ++ s.rx.map fun p => .arrive p

/-- The action of a step: the first asked for, else one of the machine's own in turn. -/
def State.nextAction (s : State) : Action × State :=
  match s.agenda with
  | a :: r => (a, { s with agenda := r })
  | [] =>
    let l := s.ownActions
    ((l[s.auto % l.length]?).getD .tick, { s with auto := s.auto + 1 })

/-- One step: an action, and the rings that its events and records go to. -/
def State.stepOnce (s : State) : Res :=
  let n := ({ s with out := [], wire := [] }).nextAction
  match n.2.act n.1 with
  | .next t => .next t.flush
  | r => r

/-! ## An instruction placed where the machine fetches (log entry 24) -/

/-- The VA of the placed instruction, and its PA. -/
def probeVa : Nat := 0x100000

/-- Page tables that map the first GiB onto itself, writable and executable. -/
def State.probeTables (s : State) : State :=
  let key := (s.ctx 0).key
  ((s.writeLocal key 0x1000 (leBytes 8 0x2181)).writeLocal key 0x2000 (leBytes 8 0x3181)).writeLocal key 0x3000 (leBytes 8 0xF)

/-- A block of four lanes of a privileged context on core 0 at the placed instruction. -/
def probeBlock : Block := {
  live := true, ctx := 1, kernel := 1, team := 1, lanes := 4, scratch := 4, prio := 0, code := probeVa, core := some 0, age := 1
  groups := [(0, startGroup 4 probeVa 0 0 0 [])] }

/-- The machine with bytes at its next fetch: the island joined, a context, a block, page tables, and an agenda that issues. -/
def State.probe (s : State) (bs : List Byte) : State :=
  let s := { s with
    island := { s.island with st := 3 }, stopped := false, stopat := BitVec.ofNat 64 (2 ^ 64 - 1), resumeTick := 0, cur := none, tlb := [], pend := [], blocks := [], cores := [], traced := []
    ctxs := [(1, { state := .resident, priv := true, ptroot := 0x1000#64 })]
    kernels := [(1, { state := .running, ctx := 1 })]
    teams := [(1, { live := true, ctx := 1, kernel := 1, blocks := [(0, 2)], cores := [(0, 1)] })]
    agenda := [.issue 0 0], fresh := max s.fresh 2 }
  let s := s.probeTables
  (s.writeLocal (s.keyOf 1) probeVa bs).setBlk 1 probeBlock

end Sys2Proof.Machine
end

