-- ==== Sys2Proof/Machine/Step.lean ====
section
/-! DEFINITION. One step of the machine, and the machine with an instruction where it fetches next. -/

namespace Sys2Proof.Machine

/-- One step. -/
def step (s : State) : Host.Outcome State Fault Refusal := s.stepOnce

/-- The state with an instruction of the opcode table where step fetches next (log entry 24). -/
def State.withFetchWord (s : State) (nbits w : Nat) : State := s.probe (tableBytes nbits w)

end Sys2Proof.Machine
end

