-- ==== Sys2Proof/Safety.lean ====
section
/-! DEFINITION. What a claim may rest on: the invariant of memory, and the words in which claims about an issued instruction are
stated: which lanes execute it, what keeps the others from it, and what its issue leaves of the group, the block and the lanes
(R28, R74, R135, R149, R154, R171, R193, R194). -/

namespace Sys2Proof.Machine

/-- The invariant that every step keeps: memory stands in its canonical form. -/
def Inv (s : State) : Prop := Memory.wf s.mem = true

/-- A table in its canonical order. -/
def Rising {α : Type} (m : SMap α) : Prop := (m.map (·.1)).Pairwise (· < ·)

/-- Management packets go out, one to every other member, with a code and data (R361, R366, R367, R369, log entry 9): each is retained, under
the next number of its path. -/
structure Tells (s : State) (code : Nat) (data : List Byte) (t : State) : Prop where
  sent : ∃ new : List Packet, t.out = s.out ++ new ∧ t.retained = s.retained ++ new ∧
    (∀ r ∈ new, r.path < 4 ∧ (Rising s.members → r.seq = mget 0 s.e2eOut (r.dst * 4 + r.path)) ∧ r = {
      kind := 9, vc := 5, path := r.path, cls := 0, esc := false, dst := r.dst, src := s.device, inc := (mget {} s.members r.dst : Member).inc
      seq := r.seq, off := 0, tag := 0, ctx := 0, spec := [BitVec.ofNat 8 code, s.island.inc] ++ List.replicate 8 0#8, data := padFlits data
      zeros := true }) ∧
    ∀ d, (∃ r ∈ new, r.dst = d) ↔ d ≠ s.device ∧ ∃ m ∈ s.members, m.1 = d ∧ m.2.member = true

/-! ## Which lanes execute -/

/-- The group that issues. -/
def State.issuer (s : State) (c : Cur) : Group := s.grp c.blk c.grp

/-- A lane of the group that issues. -/
def State.lane (s : State) (c : Cur) (L : Nat) : Lane := (s.issuer c).lane L

/-- A register of the group that issues. -/
def State.reg (s : State) (c : Cur) (key : RegKey) : Word := (s.issuer c).getKey key

/-- Vector register f of a lane, through the lane's window (R157). -/
def State.vReg (s : State) (c : Cur) (L f : Nat) : RegKey := vKey (s.blk c.blk).A (s.issuer c) L f

/-- A cause of the instruction's own, lane by lane; most have none. -/
abbrev Own := Nat → Option Cause

/-- The cause that keeps a lane from executing: a cause of the fields' first, then the instruction's own (R74, R171). -/
def laneCause (u : Uses) (own : Own) (s : State) (c : Cur) (L : Nat) : Option Cause :=
  match u.cause (s.blk c.blk).A ((s.ctxOf c.blk).sbchk.getLsbD 0) (s.cycleOf c.core) (s.issuer c) c.run L with
  | some n => some (mkCause c n)
  | none => own L

/-- The lanes of the run that are not inactive under a guard (R154). -/
def acting (s : State) (c : Cur) : List Nat := (s.issuer c).acting c.run

/-- The lanes that execute (R193). -/
def runs (u : Uses) (own : Own) (s : State) (c : Cur) : List Nat := (acting s c).filter fun L => (laneCause u own s c L).isNone

/-- The lanes that take no cause but an early read: what an instruction waits for, it waits for on their behalf (R28, R66). -/
def mayRun (u : Uses) (own : Own) (s : State) (c : Cur) : List Nat :=
  (acting s c).filter fun L =>
    (u.cause (s.blk c.blk).A false (s.cycleOf c.core) (s.issuer c) c.run L).isNone && (own L).all (·.code == 4)

/-- A group has an instruction at its PC for its run of active lanes (R149). -/
structure AtIssue (s : State) (c : Cur) : Prop where
  cur    : s.cur = some c
  fresh  : c.wait = none
  nodup  : c.run.Nodup
  active : ∀ L ∈ c.run, L < 32 ∧ (s.lane c L).status = .active ∧ (s.lane c L).pc = c.pc

/-- An instruction issues: a group has it, some lane executes, the port entries it needs are there, and no register it reads is bad (R135,
R171, R190). -/
structure Issuing (u : Uses) (own : Own) (s : State) (c : Cur) : Prop extends AtIssue s c where
  some_ : runs u own s c ≠ []
  ports : s.portsOpen c u = true
  sound : s.badRead c u (runs u own s c) = false

/-- What the instruction's body is given. -/
def issueOf (u : Uses) (own : Own) (s : State) (c : Cur) : Issue :=
  ⟨c, runs u own s c, (popPorts (s.blk c.blk).ports u.pops).1, s.fresh, s.cycleOf c.core⟩

/-- What an instruction's readiness is asked with first. -/
def mayIssue (u : Uses) (own : Own) (s : State) (c : Cur) : Issue := { issueOf u own s c with lanes := mayRun u own s c }

/-- The source operands of a lane, field by field: a window register, or the lane's word of a port's oldest entry (R27, R59, R135). -/
def opnds (u : Uses) (own : Own) (s : State) (c : Cur) (L : Nat) : List (List Word) :=
  readArgs (s.blk c.blk).A (s.cycleOf c.core) (s.issuer c) (issueOf u own s c) u L

/-- A uniform source operand (R27, R60). -/
def kOpnd (s : State) (c : Cur) (f : KReg) (j : Nat := 0) : Word := kval (s.cycleOf c.core) (s.issuer c) s.fresh f j

/-! ## What an issue leaves -/

/-- What an instruction does beside going on: the registers it writes at issue, the flags it sets, a transfer, a new guard
window, lanes whose PC stays, a change of an executing lane, a change of the group. -/
structure Eff where
  keys  : List RegKey := []
  flags : FFlags := 0#5
  jump  : Nat → Option Nat := fun _ => none
  guard : Nat → Option (Bool × Nat) := fun _ => none
  stays : Bool := false
  lane  : Nat → Lane → Lane := fun _ l => l
  grp   : Group → Group := fun G => G

/-- The destination registers of a lane, as the instruction names them (R57, R61, R157). -/
def dests (u : Uses) (s : State) (c : Cur) (L : Nat) : List RegKey :=
  match u.vdst with
  | some (f, n) => if isPort f then [] else destKeys (s.blk c.blk).A (s.issuer c) L f n
  | none => []

/-- A helper lane that an active lane would trap in (R153, R193): its destinations become 0, where they are in range. -/
def zeroed (u : Uses) (own : Own) (s : State) (c : Cur) : List RegKey :=
  ((acting s c).filter fun L => (laneCause u own s c L).isSome && (s.lane c L).helper).flatMap fun L =>
    u.laneDests (s.blk c.blk).A (s.issuer c) L

/-- The state after an issue, of the group, its lanes and its block: nothing changes but what is said here. -/
structure Issued (u : Uses) (own : Own) (s : State) (c : Cur) (e : Eff) (t : State) : Prop where
  /-- The instruction has issued and waits for nothing. -/
  cur    : t.cur = some c
  /-- An executing lane goes on to the next instruction, one instruction nearer to the end of its guard window (R149, R154). -/
  goes   : ∀ L ∈ runs u own s c, e.jump L = none → e.guard L = none → (t.lane c L).gflag = (s.lane c L).gflag ∧
    (t.lane c L).gcount = (s.lane c L).gcount - 1 ∧
    (t.lane c L).pc = if e.stays then (s.lane c L).pc else pcAfter (s.lane c L).pc c.words
  /-- A transfer ends the guard window (R154). -/
  jumps  : ∀ L ∈ runs u own s c, ∀ a, e.jump L = some a → e.guard L = none → (t.lane c L).pc = a ∧ (t.lane c L).gcount = 0
  /-- A new guard window replaces the old one (R154). -/
  guards : ∀ L ∈ runs u own s c, ∀ g, e.guard L = some g → (t.lane c L).pc = pcAfter (s.lane c L).pc c.words ∧
    (t.lane c L).gflag = g.1 ∧ (t.lane c L).gcount = g.2
  /-- Nothing else of an executing lane changes, but what the instruction says and its registers. -/
  lanes  : ∀ L ∈ runs u own s c, t.lane c L = { e.lane L (s.lane c L) with
    pc := (t.lane c L).pc, gflag := (t.lane c L).gflag, gcount := (t.lane c L).gcount
    stack := (t.lane c L).stack, preds := (t.lane c L).preds }
  /-- A lane inactive under its guard passes the instruction by (R154). -/
  passes : ∀ L ∈ c.run, (s.lane c L).inactive = true →
    t.lane c L = { s.lane c L with pc := pcAfter (s.lane c L).pc c.words, gcount := (s.lane c L).gcount - 1 }
  /-- A lane with a cause parks at the instruction (R171). -/
  parks  : ∀ L ∈ acting s c, ∀ x, laneCause u own s c L = some x → (s.lane c L).helper = false →
    t.lane c L = { s.lane c L with status := .parked, cause := x }
  /-- A helper lane with a cause goes on, its destinations 0 (R193). -/
  helps  : ∀ L ∈ acting s c, ∀ x, laneCause u own s c L = some x → (s.lane c L).helper = true →
    t.lane c L = { s.lane c L with pc := pcAfter (s.lane c L).pc c.words, gcount := (s.lane c L).gcount - 1
                                   stack := (t.lane c L).stack, preds := (t.lane c L).preds }
  zeros  : ∀ key ∈ zeroed u own s c, key ∉ e.keys → t.reg c key = 0#32
  /-- Lanes outside the run keep everything. -/
  others : ∀ L, L ∉ c.run → t.lane c L = s.lane c L
  /-- Registers that are no destination keep their values. -/
  regs   : ∀ key, key ∉ e.keys → key ∉ zeroed u own s c → t.reg c key = s.reg c key
  /-- Flags accumulate (R34). -/
  flags  : (t.issuer c).fpsr = orFpsr (s.issuer c).fpsr e.flags
  /-- Nothing else of the group changes. -/
  group  : t.issuer c = { e.grp (s.issuer c) with
    lanes := (t.issuer c).lanes, k := (t.issuer c).k, kp := (t.issuer c).kp, fpsr := (t.issuer c).fpsr
    board := (t.issuer c).board, notBefore := (t.issuer c).notBefore, untilDone := (t.issuer c).untilDone }

/-- Every acting lane parks at the instruction with a cause; a helper lane goes on; nothing else changes (R171, R193). -/
structure Parks (s : State) (c : Cur) (x : Cause) (t : State) : Prop where
  parks  : ∀ L ∈ acting s c, (s.lane c L).helper = false → t.lane c L = { s.lane c L with status := .parked, cause := x }
  helps  : ∀ L ∈ acting s c, (s.lane c L).helper = true →
    t.lane c L = { s.lane c L with pc := pcAfter (s.lane c L).pc c.words, gcount := (s.lane c L).gcount - 1 }
  passes : ∀ L ∈ c.run, (s.lane c L).inactive = true →
    t.lane c L = { s.lane c L with pc := pcAfter (s.lane c L).pc c.words, gcount := (s.lane c L).gcount - 1 }
  others : ∀ L, L ∉ c.run → t.lane c L = s.lane c L
  group  : t.issuer c = { s.issuer c with
    lanes := (t.issuer c).lanes, notBefore := (t.issuer c).notBefore, untilDone := (t.issuer c).untilDone }
  groups : ∀ g, g ≠ c.grp → t.grp c.blk g = s.grp c.blk g
  block  : t.blk c.blk = { s.blk c.blk with groups := (t.blk c.blk).groups }
  blocks : ∀ u, u ≠ c.blk → t.blk u = s.blk u
  rest   : t = { s with fresh := t.fresh, blocks := t.blocks }

/-- Nothing of the block changes but the groups and the ports that the instruction pops and pushes; no other block changes, and
no other group. -/
structure BlockKept (s : State) (c : Cur) (t : State) : Prop where
  block  : t.blk c.blk = { s.blk c.blk with groups := (t.blk c.blk).groups, ports := (t.blk c.blk).ports }
  groups : ∀ g, g ≠ c.grp → t.grp c.blk g = s.grp c.blk g
  blocks : ∀ u, u ≠ c.blk → t.blk u = s.blk u

/-- Ports pop from the front and push at the back (R135). -/
structure PortsMoved (u : Uses) (s : State) (c : Cur) (entry : List Word) (t : State) : Prop where
  pushed : ∀ p, u.pushes = some p → mget [] (t.blk c.blk).ports p = mget [] (popPorts (s.blk c.blk).ports u.pops).2 p ++ [entry]
  kept   : ∀ p, u.pushes ≠ some p → mget [] (t.blk c.blk).ports p = mget [] (popPorts (s.blk c.blk).ports u.pops).2 p

/-- No part of the machine outside the blocks changes. -/
def OnlyBlocks (s t : State) : Prop := t = { s with fresh := t.fresh, blocks := t.blocks }

/-- Outside the blocks only the memo tables, the units' next cycles and event counters change (R21, R165, R405, R407). -/
structure OnlyUnits (s t : State) : Prop where
  state : t = { s with fresh := t.fresh, blocks := t.blocks, cores := t.cores, ctxs := t.ctxs, units := t.units }
  ctxs  : ∀ n, t.ctx n = { s.ctx n with ctr := (t.ctx n).ctr }
  cores : ∀ n, t.core n = { s.core n with quarters := (t.core n).quarters }

/-! ## Vector operations (R193) -/

/-- No cause of its own. -/
def noOwn : Own := fun _ => none

/-- What a vector operation sees: FPCR, each lane's operands, and the register that an exchange reads in any lane (R36, R213). -/
def viewOf (u : Uses) (own : Own) (s : State) (c : Cur) : View :=
  ⟨(s.issuer c).fpcr, opnds u own s c, fun j => match u.vsrc with
    | x :: _ => peek (s.blk c.blk).A (s.cycleOf c.core) (s.issuer c) (issueOf u own s c) x.1 j
    | [] => 0#32⟩

/-- The flags of the lanes that are counted: the executing lanes that are no helpers (R34, R193). -/
def countedFlags (s : State) (c : Cur) (lanes : List Nat) (out : Nat → LaneOut) : FFlags :=
  lanes.foldl (fun f L => if (s.lane c L).helper then f else f ||| (out L).flags) 0#5

/-- The entry a vector destination port receives: each executing lane's word, 0 from the others (R135). -/
def portEntry (lanes : List Nat) (out : Nat → LaneOut) : List Word :=
  (List.range 32).map fun L => if L ∈ lanes then (out L).words.headD 0#32 else 0#32

/-- A vector operation is done: each executing lane's destination holds its own result, the port has its entry, and nothing else
changes. -/
structure VecDone (u : Uses) (own : Own) (s : State) (c : Cur) (out : Nat → LaneOut) (t : State) : Prop where
  issued : Issued u own s c
    { keys := (runs u own s c).flatMap fun L => dests u s c L ++ (out L).preds.map fun p => RegKey.p L p.1
      flags := countedFlags s c (runs u own s c) out } t
  dest   : ∀ L ∈ runs u own s c, ∀ f n j, u.vdst = some (f, n) → isPort f = false → j < n →
    (∀ k < n, s.vReg c L (f.toNat + k) = s.vReg c L (f.toNat + j) → k = j) →
    t.reg c (s.vReg c L (f.toNat + j)) = (out L).words.getD j 0#32
  preds  : ∀ L ∈ runs u own s c, ∀ p ∈ (out L).preds, t.reg c (.p L p.1) = Word.ofBool p.2
  ports  : PortsMoved u s c (portEntry (runs u own s c) out) t
  block  : BlockKept s c t
  rest   : OnlyUnits s t

/-- A vector instruction does this wherever it issues: when its fields are free of causes in some lane, its ports are ready and
its unit accepts it (R21, R28). -/
def VecDoes (i : Instr) (u : Uses) (unit : AluUnit) (out : View → Nat → LaneOut) : Prop :=
  ∀ s c, Issuing u noOwn s c → unitFree s c unit = true →
    ∃ t, exec i s = .next t ∧ VecDone u noOwn s c (out (viewOf u noOwn s c)) t

/-- A result word from the words of A, of A and B, and of A, B and D. -/
def onA (f : Word → Word) : View → Nat → LaneOut := fun v L => one (f (arg (v.args L) 0))
def onAB (f : Word → Word → Word) : View → Nat → LaneOut := fun v L => one (f (arg (v.args L) 0) (arg (v.args L) 1))
def onABD (f : Word → Word → Word → Word) : View → Nat → LaneOut :=
  fun v L => one (f (arg (v.args L) 0) (arg (v.args L) 1) (arg (v.args L) 2))
/-- A predicate from the words of A and B (R63, R199). -/
def predAB (p : BitVec 4) (f : Word → Word → Bool) : View → Nat → LaneOut :=
  fun v L => { preds := [(p.toNat, f (arg (v.args L) 0) (arg (v.args L) 1))] }

/-- R63: a condition on two integers. -/
def condInt (c : Cond) (x y : Int) : Bool :=
  match c with
  | .eq => decide (x = y)
  | .ne => decide (x ≠ y)
  | .lt => decide (x < y)
  | .le => decide (x ≤ y)
  | .gt => decide (y < x)
  | .ge => decide (y ≤ x)
  | .un => false

/-- Floating-point results: one element a word, two a word, one a pair (R32, R203). -/
def fpAB (f : Env → Nat → Nat → Nat × FFlags) : View → Nat → LaneOut :=
  fun v L => outF (f (envOf v.fpcr) (arg (v.args L) 0).toNat (arg (v.args L) 1).toNat)
def fpABD (f : Env → Nat → Nat → Nat → Nat × FFlags) : View → Nat → LaneOut :=
  fun v L => outF (f (envOf v.fpcr) (arg (v.args L) 0).toNat (arg (v.args L) 1).toNat (arg (v.args L) 2).toNat)
def fpPackedAB (f : Env → Nat → Nat → Nat × FFlags) : View → Nat → LaneOut :=
  fun v L => outP (f (envOf v.fpcr) ((arg (v.args L) 0).toNat % 65536) ((arg (v.args L) 1).toNat % 65536))
    (f (envOf v.fpcr) ((arg (v.args L) 0).toNat / 65536) ((arg (v.args L) 1).toNat / 65536))
def fpPackedABD (f : Env → Nat → Nat → Nat → Nat × FFlags) : View → Nat → LaneOut :=
  fun v L => outP
    (f (envOf v.fpcr) ((arg (v.args L) 0).toNat % 65536) ((arg (v.args L) 1).toNat % 65536) ((arg (v.args L) 2).toNat % 65536))
    (f (envOf v.fpcr) ((arg (v.args L) 0).toNat / 65536) ((arg (v.args L) 1).toNat / 65536) ((arg (v.args L) 2).toNat / 65536))
def fpPairAB (f : Env → Nat → Nat → Nat × FFlags) : View → Nat → LaneOut :=
  fun v L => outD (f (envOf v.fpcr) (argD (v.args L) 0).toNat (argD (v.args L) 1).toNat)
def fpPairABD (f : Env → Nat → Nat → Nat → Nat × FFlags) : View → Nat → LaneOut :=
  fun v L => outD (f (envOf v.fpcr) (argD (v.args L) 0).toNat (argD (v.args L) 1).toNat (argD (v.args L) 2).toNat)

/-- An operand as an operation reads it: after the flush of FPCR.fz (R35). -/
def operand (f : Fmt) (c : Env) (x : Nat) : FVal := unpack f (flushIn f c.fz x)

/-- The fields of an instruction over two pairs into a pair, and over three. -/
def usePair2 (d a b : VReg) : Uses := { vsrc := [(a, 2), (b, 2)], vdst := some (d, 2) }
def usePair3 (d a b : VReg) : Uses := { vsrc := [(a, 2), (b, 2)], dsrc := some (d, 2), vdst := some (d, 2) }

/-! ## Other instructions that write registers at issue -/

/-- The registers that an instruction names hold the values it gives them, and nothing else changes. `units`: its memo entry and
its event counters may change too (R165, R405). -/
structure Wrote (u : Uses) (own : Own) (s : State) (c : Cur) (units : Bool) (ws : List (RegKey × Word)) (flags : FFlags)
    (t : State) : Prop where
  issued : Issued u own s c { keys := ws.map (·.1), flags := flags } t
  vals   : ∀ w ∈ ws, t.reg c w.1 = w.2
  block  : BlockKept s c t
  rest   : OnlyUnits s t
  alone  : units = false → OnlyBlocks s t

/-- An instruction writes these registers wherever it issues. -/
def Writes (i : Instr) (u : Uses) (units : Bool) (ws : State → Cur → List (RegKey × Word)) (flags : State → Cur → FFlags) : Prop :=
  ∀ s c, Issuing u noOwn s c → ∃ t, exec i s = .next t ∧ Wrote u noOwn s c units (ws s c) (flags s c) t

/-- No flag. -/
def noFlags : State → Cur → FFlags := fun _ _ => 0#5

/-! ## Exchanges and group-wide instructions (R213-R217) -/

/-- The early read that a checking scoreboard refuses in the source lane's register (R66, R213). -/
def exchangeOwn (u : Uses) (src : List (List Word) → Nat → Nat) (s : State) (c : Cur) : Own :=
  exchangeEarly { uses := u, lat := 6, src := some src } s ⟨c, acting s c, [], s.fresh, s.cycleOf c.core⟩

/-- The fields of an exchange: register A is read in another lane, under a name that may lie out of that lane's range (R213). -/
def farRead (u : Uses) : Uses := { u with remote := true, free := true }

/-- An exchange does this wherever it issues and reads no bad register in another lane (R190): each executing lane's destination is the A
register of its source lane. -/
def ExchangeDoes (i : Instr) (u : Uses) (src : List (List Word) → Nat → Nat) : Prop :=
  ∀ s c, Issuing (farRead u) (exchangeOwn (farRead u) src s c) s c →
    exchangeBad { uses := farRead u, lat := 6, src := some src } s (mayIssue (farRead u) (exchangeOwn (farRead u) src s c) s c) = false →
    ∃ t, exec i s = .next t ∧ VecDone (farRead u) (exchangeOwn (farRead u) src s c) s c
      (fun L => one ((viewOf (farRead u) (exchangeOwn (farRead u) src s c) s c).peek
        (src (opnds (farRead u) (exchangeOwn (farRead u) src s c) s c L) L))) t

/-- The counted lanes (R216): executing lanes that are no helpers. -/
def countedLanes (u : Uses) (own : Own) (s : State) (c : Cur) : List Nat := (runs u own s c).filter fun L => !(s.lane c L).helper

/-- A predicate of a lane as the instruction reads it (R27). -/
def predOf (s : State) (c : Cur) (p : BitVec 4) (L : Nat) : Bool :=
  ((s.issuer c).read (s.cycleOf c.core) s.fresh (.p L p.toNat)).getLsbD 0

/-- The early read that a checking scoreboard refuses in the lowest counted lane's register (R66, R218). -/
def lowestOwn (a : VReg) (s : State) (c : Cur) : Own := movEarly a s ⟨c, acting s c, [], s.fresh, s.cycleOf c.core⟩

/-! ## Numbers (R31, R47, R205) -/

/-- The magnitude of a finite pattern without its sign, in units of the format's least subnormal. -/
def Fmt.units (f : Fmt) (b : Nat) : Nat :=
  match unpack f b with
  | .fin _ m e => m * 2 ^ (e - f.qmin).toNat
  | _ => 0

/-- R47: the node i of a level: the sum of the two nodes below it that are present, with the flags of the additions. -/
def treeNode (v : Nat → Option Nat) : Nat → Nat → Option Nat × FFlags
  | 0, i => (v i, fNone)
  | n + 1, i =>
    let a := treeNode v n (2 * i)
    let b := treeNode v n (2 * i + 1)
    match a.1, b.1 with
    | some x, some y => let r := fadd .f32 .rne x y
                        (some r.1, r.2 ||| a.2 ||| b.2)
    | some x, none => (some x, a.2 ||| b.2)
    | none, y => (y, a.2 ||| b.2)

/-- A place of each FP32 pattern that is no NaN in numeric order, −0 just below +0: sign and magnitude as an integer (R31, R205). -/
def signOrder (w : Word) : Int := if w.toNat < 2 ^ 31 then w.toNat else 2 ^ 31 - 1 - (w.toNat : Int)

/-! ## Control flow, delivery points, memory operations (R62, R154-R164, R177, R181, R225) -/

/-- A vector register of a lane, and a pair of them, as the instruction reads them (R27, R234). -/
def vWord (s : State) (c : Cur) (L f : Nat) : Word := (s.issuer c).read (s.cycleOf c.core) s.fresh (s.vReg c L f)
def vPair (s : State) (c : Cur) (L : Nat) (a : VReg) : Nat := (dwordOf (vWord s c L a.toNat) (vWord s c L (a.toNat + 1))).toNat
/-- A uniform pair. -/
def kPair (s : State) (c : Cur) (a : KReg) : Nat := (dwordOf (kOpnd s c a 0) (kOpnd s c a 1)).toNat

/-- A selector's value for a lane: the predicate it names, inverted where it says so (R62). -/
def selOf (s : State) (c : Cur) (sel : Sel) (L : Nat) : Bool :=
  match sel with
  | .always => true
  | .lane n p => predOf s c p L != n
  | .uni n p => ((s.issuer c).read (s.cycleOf c.core) s.fresh (.kp p.toNat)).getLsbD 0 != n

/-- A target 4 × a signed offset away (R155). -/
def targetOf (pc : Nat) (off : BitVec 14) : Nat := (((pc : Int) + 4 * off.toInt) % 2 ^ 57).toNat

/-- MISALIGNED where a lane's address is no multiple of the access (R222). -/
def alignOwn (c : Cur) (addr : Nat → Nat) (size : Nat) : Own := fun L => if addr L % size = 0 then none else some (mkCause c 5)

/-- Nothing holds back an instruction that issues through a delivery point: the lanes that execute hold no store-fault record, where it
delivers them, and what it waits for has been translated (R177, R181). -/
structure Delivered (d : Delivery) (late : Bool) (u : Uses) (own : Own) (s : State) (c : Cur) : Prop where
  early      : deliveryWait d late s (mayIssue u own s c) = none
  translated : deliveryWait d late s (issueOf u own s c) = none
  records    : d ≠ .none → ∀ L ∈ runs u own s c, (s.issuer c).holdsRecord L = false

/-- No engine of the group holds a fault (R268, R291). -/
def EnginesRun (s : State) (c : Cur) : Prop := s.engineFault c.blk c.grp (fun _ => true) true = none

/-- An instruction that neither writes registers nor touches anything outside its group: what it leaves. -/
def Leaves (i : Instr) (u : Uses) (own : State → Cur → Own) (e : State → Cur → Eff) : Prop :=
  ∀ s c, Issuing u (own s c) s c → ∃ t, exec i s = .next t ∧ Issued u (own s c) s c (e s c) t ∧ BlockKept s c t ∧ OnlyBlocks s t

/-- A lane that waits at a meet or barrier has stopped at it (R163, R277, R279). -/
def waitsAt (s : State) (c : Cur) (st : LaneStatus) (t : State) (L : Nat) : Prop :=
  (t.lane c L).status = st ∧ (t.lane c L).pc = (s.lane c L).pc ∧ (t.lane c L).stack = (s.lane c L).stack ∧
  (t.lane c L).preds = (s.lane c L).preds ∧ (t.lane c L).base = (s.lane c L).base

/-- Lane L of group g of block b goes on after its meet or barrier, with a new region entry (R163, R175, R277, R279). -/
def GoesOn (s t : State) (b g L pc : Nat) : Prop :=
  ((t.grp b g).lane L).status = .active ∧ ((t.grp b g).lane L).pc = pcAfter pc 1 ∧
  ((t.grp b g).lane L).region.pc = pcAfter pc 1 ∧ ((t.grp b g).lane L).region.stack = ((s.grp b g).lane L).stack ∧
  ((t.grp b g).lane L).stack = ((s.grp b g).lane L).stack

/-! ## Taking a trap (R108, R173, R180, R182) -/

/-- The store-fault records that an entry delivers: of the lanes served, at most 16, oldest first. -/
def entryRecords (s : State) (u g : Nat) : List StoreFault :=
  let G := s.grp u g
  if (G.lane (G.serve.headD 0)).cause.code = 15 then (G.sfq.filter fun r => r.lanes.any fun L => G.serve.contains L).take 16 else []

/-- What an entry stores, in order: each served lane's 16 entries below its base at STKSAVE + 64 × lane; for STORE_FAULT the 16 record
slots at STKSAVE + 2048, the unused ones zero. -/
def entryStores (s : State) (u g : Nat) : List (Nat × List Byte) :=
  let G := s.grp u g
  (G.serve.map fun L => (G.stksave.toNat + 64 * L, frameBytes (s.blk u).A (G.lane L))) ++
    if (G.lane (G.serve.headD 0)).cause.code = 15 then (List.range 16).map fun i =>
      (G.stksave.toNat + 2048 + 32 * i, match (entryRecords s u g)[i]? with
        | some r => r.bytes
        | none => List.replicate 32 0#8) else []

/-- TVA (R107): the first record's VA for STORE_FAULT, the fault's for a late cause, else 0. -/
def entryVa (s : State) (u g : Nat) : Nat :=
  let x := ((s.grp u g).lane ((s.grp u g).serve.headD 0)).cause
  if x.code = 15 then (match entryRecords s u g with
    | r :: _ => r.va
    | [] => 0) else if x.late = true ∨ (11 ≤ x.code ∧ x.code ≤ 14) then x.va else 0

/-- A list of stores that the device makes for a context at VAs goes through, one after another, from one state to another: each lies in
one line, its translation is allowed and leads to local memory, and neither a migrating page nor a full ring keeps it back (R182, R228,
R309, R310). -/
def StoresGo (ctx core floor : Nat) : State → List (Nat × List Byte) → State → Prop
  | s, [], t => t = s
  | s, (va, bs) :: r, t => va % 128 + bs.length ≤ 128 ∧ ∃ x s1, s.translate core ctx va .store (s.mayCache 11) = (.ok x, s1) ∧
      x.phys.target = 0 ∧ s1.writeReady x.phys (bitOf x.leaf 4) (bitOf x.leaf 5) = true ∧
      StoresGo ctx core floor (s1.storeLocal (s1.keyOf ctx) x.phys.off bs (bitOf x.leaf 4) false floor (some core)).2 r t

/-- No store of a list waits (R228). -/
def NoneWaits (ctx core : Nat) (s : State) (l : List (Nat × List Byte)) : Prop :=
  ∀ y ∈ l, ∀ x s1, s.translate core ctx y.1 .store (s.mayCache 11) = (.ok x, s1) →
    s1.writeReady x.phys (bitOf x.leaf 4) (bitOf x.leaf 5) = true

/-- A group has taken a trap, its stores having led to `s'` (R107, R108, R154, R173, R179, R182): the cause registers name the first lane
served, the served lanes stand at the vector with their bases lowered by 16 and their guard windows set aside. -/
structure Entered (s : State) (u g : Nat) (s' t : State) : Prop where
  tcause : (t.grp u g).tcause = (let x := ((s.grp u g).lane ((s.grp u g).serve.headD 0)).cause
    BitVec.ofNat 32 (x.code + 256 * x.number + if x.late then 2 ^ 15 else 0))
  -- the words of the instruction at TPC
  trec   : (t.grp u g).trec = (let l := (s.grp u g).lane ((s.grp u g).serve.headD 0)
    BitVec.ofNat 32 (if l.cause.words = 0 then s'.wordsAt u l.pc else l.cause.words))
  tpc    : (t.grp u g).tpc = BitVec.ofNat 64 ((s.grp u g).lane ((s.grp u g).serve.headD 0)).pc
  tva    : (t.grp u g).tva = BitVec.ofNat 64 (entryVa s u g)
  tlanes : (t.grp u g).tlanes = BitVec.ofNat 32 (maskOf (s.grp u g).serve)
  mode   : (t.grp u g).trapped = true ∧ (t.grp u g).served = (s.grp u g).serve
  sfq    : (t.grp u g).sfq = (s.grp u g).sfq.filter (fun r => !(entryRecords s u g).contains r)
  lanes  : ∀ L ∈ (s.grp u g).serve, (t.grp u g).lane L = { (s.grp u g).lane L with
    status := .active, pc := (s.ctx (s.blk u).ctx).trapvec.toNat
    trapBase := ((s.grp u g).lane L).base, base := ((s.grp u g).lane L).base - 16
    trapFlag := ((s.grp u g).lane L).gflag, trapCount := ((s.grp u g).lane L).gcount, gcount := 0 }
  others : ∀ L, L ∉ (s.grp u g).serve → (t.grp u g).lane L = (s.grp u g).lane L
  regs   : ∀ n, (t.grp u g).getKey (.k n) = (s.grp u g).getKey (.k n)
  mem    : t.mem = s'.mem

/-! ## Operations that an issue puts in flight (R225, R234, R246, R254) -/

/-- An operation of the issuing instruction: what all of them share. -/
def flown (s : State) (c : Cur) : Pend :=
  { iid := s.fresh, blk := c.blk, grp := c.grp, ctx := (s.blk c.blk).ctx, pc := c.pc, words := c.words, floor := (s.issuer c).floor
    issued := s.tick, cycle := s.cycleOf c.core, core := c.core }

/-- The rollback interval of the issuing block: it loses its flag where the instruction makes it (R189), with interval_lost in its
kernel's check-interval register (R110); else nothing of it changes. -/
structure LostInterval (lose : Bool) (s : State) (c : Cur) (t : State) : Prop where
  interval : (t.blk c.blk).interval = { (s.blk c.blk).interval with
    flag := (s.blk c.blk).interval.flag && !(lose && (s.blk c.blk).interval.opened) }
  kernels  : ∀ n, t.kernel n = if n = (s.blk c.blk).kernel ∧ lose = true ∧ (s.blk c.blk).interval.opened = true ∧
      (s.blk c.blk).interval.flag = true then { s.kernel n with cir := cirEvent (s.kernel n).cir 8 } else s.kernel n

/-- Of the blocks only the issuing group, its block's ports and the flag of its interval change. -/
structure BlockHeld (s : State) (c : Cur) (t : State) : Prop where
  block  : t.blk c.blk = { s.blk c.blk with
    groups := (t.blk c.blk).groups, ports := (t.blk c.blk).ports, interval := (t.blk c.blk).interval }
  groups : ∀ g, g ≠ c.grp → t.grp c.blk g = s.grp c.blk g
  blocks : ∀ u, u ≠ c.blk → t.blk u = s.blk u

/-- The instruction issues and its operations are in flight, under numbers of their own; registers they will write keep their values
till they return. -/
structure Flies (u : Uses) (own : Own) (s : State) (c : Cur) (e : Eff) (ops : List Pend) (units lose : Bool) (t : State) : Prop where
  issued : Issued u own s c e t
  ops    : ∃ new, t.pend = s.pend ++ new ∧ new.map (fun p : Pend => { p with uid := 0 }) = ops ∧ (new.map (·.uid)).Nodup ∧
    ∀ p ∈ new, s.fresh < p.uid
  block  : BlockHeld s c t
  lost   : LostInterval lose s c t
  rest   : t = { s with fresh := t.fresh, blocks := t.blocks, pend := t.pend, kernels := t.kernels, cores := t.cores, ctxs := t.ctxs
                        units := t.units }
  alone  : units = false → t.cores = s.cores ∧ t.ctxs = s.ctxs ∧ t.units = s.units

/-- Wherever an instruction issues, and stands still for no delivery, it puts these operations in flight. -/
def Sends (i : Instr) (d : Delivery) (late : Bool) (u : Uses) (own : State → Cur → Own) (e : State → Cur → Eff)
    (ops : State → Cur → List Pend) (lose : Bool) : Prop :=
  ∀ s c, Issuing u (own s c) s c → Delivered d late u (own s c) s c → ∃ t, exec i s = .next t ∧
    Flies u (own s c) s c (e s c) (ops s c) false lose t

/-- No effect beside going on. -/
def noEff : State → Cur → Eff := fun _ _ => {}

/-- MISALIGNED for block memory, and for a lane's pocket: no multiple of the access, or beyond its end (R222). -/
def bmOwn (s : State) (c : Cur) (addr : Nat → Nat) (size : Nat) : Own := fun L =>
  if addr L % size = 0 ∧ addr L + size ≤ (s.blk c.blk).scratch * 1024 then none else some (mkCause c 5)
def pocketOwn (c : Cur) (addr : Nat → Nat) (size : Nat) : Own := fun L =>
  if addr L % size = 0 ∧ addr L + size ≤ 256 then none else some (mkCause c 5)

/-- The bytes of the first source field of a lane. -/
def dataOf (u : Uses) (own : Own) (s : State) (c : Cur) (n L : Nat) : List Byte :=
  (wordBytes ((opnds u own s c L).getD 0 [])).take n

/-- The registers of a lane's destination hold these words, those of its registers that are distinct. -/
def Holds (s : State) (c : Cur) (t : State) (L : Nat) (d : VReg) (n : Nat) (ws : List Word) : Prop :=
  ∀ j, j < n → (∀ k, k < n → s.vReg c L (d.toNat + k) = s.vReg c L (d.toNat + j) → k = j) →
    t.reg c (s.vReg c L (d.toNat + j)) = ws.getD j 0#32

/-- A reuse or as-of load was served by a memo entry of its quarter (R169, R235, R250): of the same word, operands and context. -/
structure Reused (u : Uses) (own : Own) (s : State) (c : Cur) (d : VReg) (n : Nat) (asof : Bool) (S : Nat) (preds : List Nat) (t : State) :
    Prop where
  entry : ∃ m ∈ ((s.core c.core).quarter c.quarter).memo, m.load = true ∧ m.asofS = S ∧ m.ctx = (s.blk c.blk).ctx ∧
    m.word = memoWord c.word false ∧ m.srcs = (runs u own s c).map (fun L => (opnds u own s c L).flatten) ∧
    (∀ k L, (runs u own s c)[k]? = some L → k < m.vals.length → (m.vals.getD k []).length = n → Holds s c t L d n (m.vals.getD k []) ∧
      ∀ p ∈ preds, t.reg c (.p L p) = 1#32) ∧
    (t.issuer c).floor = max (s.issuer c).floor (if asof then 0 else m.stamp)
  issued : Issued u own s c { keys := (runs u own s c).flatMap fun L => dests u s c L ++ preds.map fun n => RegKey.p L n
                              grp := fun G => { G with floor := (t.issuer c).floor, saw := (t.issuer c).saw } } t
  pend  : t.pend = s.pend
  mem   : t.mem = s.mem

/-! ## Engine entries (R257-R304) -/

/-- A byte count, a row count and a depth as an instruction takes them: encoded, or from a uniform register (R264, R292, R297). -/
def countOf (s : State) (c : Cur) : Count → Nat
  | .imm n => n.toNat * 32
  | .reg k => (kOpnd s c k).toNat
def rowsOf (s : State) (c : Cur) : RowCount → Nat
  | .imm n => n.toNat
  | .reg k => (kOpnd s c k).toNat
def depthOf (s : State) (c : Cur) : Depth → Nat
  | .imm k => k.toNat
  | .reg k => (kOpnd s c k).toNat

/-- An object that a literal names lies within scratch. -/
def objectFits (s : State) (c : Cur) (m : BitVec 16) : Bool :=
  m == 0xFFFF#16 || decide (16 * m.toNat + 16 ≤ (s.blk c.blk).scratch * 1024)

/-- The issuing group's token counts one operation more (R281). -/
structure TokenTaken (s : State) (c : Cur) (tok : Nat) (t : State) : Prop where
  here   : (t.issuer c).token tok = (s.issuer c).token tok + 1
  others : ∀ k, k ≠ tok → (t.issuer c).token k = (s.issuer c).token k

/-- An entry joins the load queue, or the store queue, of the core, as the youngest, with its token (R281, R288, R290, R303). -/
structure Enqueued (u : Uses) (own : Own) (s : State) (c : Cur) (load lose : Bool) (e : CopyEntry) (t : State) : Prop where
  issued : Issued u own s c { grp := fun G => { G with tokens := (t.issuer c).tokens } } t
  token  : TokenTaken s c e.tok t
  core   : ∀ n, t.core n = if n = c.core then
    let e' : CopyEntry := { e with
      uid := s.fresh + 1, blk := c.blk, grp := c.grp, floor := (s.issuer c).floor, since := s.tick
      after := s.entryAfter (issueOf u own s c) (if load then 0 else 1) }
    { s.core n with
      ldq := (s.core n).ldq ++ (if load then [e'] else []), stq := (s.core n).stq ++ (if load then [] else [e'])
      inUse := { (s.core n).inUse with
        ld := (s.core n).inUse.ld + (if load then 1 else 0), st := (s.core n).inUse.st + (if load then 0 else 1) } }
    else s.core n
  block  : BlockHeld s c t
  lost   : LostInterval lose s c t
  rest   : t = { s with fresh := t.fresh, blocks := t.blocks, kernels := t.kernels, cores := t.cores }

/-- The core's free accumulator store may go to a block (R257): the store of each block stays as it is, or, where no block of the core
holds it, is granted with every row +0. -/
def StoreKept (s : State) (c : Cur) (t : State) : Prop :=
  ∀ u, (t.blk u).accHeld = (s.blk u).accHeld ∧ (t.blk u).acc = (s.blk u).acc ∨
    ((t.blk u).accHeld = true ∧ (t.blk u).acc = [] ∧
      ∀ v, (s.blk v).live = true → (s.blk v).core = some c.core → (s.blk v).accHeld = false)

/-- An entry joins the group's matrix queue, and a pass the reservation table of the cluster (R258-R260, R417). -/
structure MatQueued (own : Own) (u : Uses) (s : State) (c : Cur) (lose : Bool) (e : MatEntry) (t : State) : Prop where
  issued : Issued u own s c { grp := fun G => { G with
    tokens := (t.issuer c).tokens
    matUsed := G.matUsed + 1
    matq := G.matq ++ [{ e with uid := s.fresh + 1, prio := (s.blk c.blk).prio, taken := s.cycleOf c.core, floor := G.floor, since := s.tick
                                after := s.entryAfter (issueOf u own s c) (4 + c.blk * 16 + c.grp) }] } } t
  token  : TokenTaken s c e.tok t
  block  : t.blk c.blk = { s.blk c.blk with
    groups := (t.blk c.blk).groups, ports := (t.blk c.blk).ports, interval := (t.blk c.blk).interval
    accHeld := (t.blk c.blk).accHeld, acc := (t.blk c.blk).acc }
  groups : ∀ g, g ≠ c.grp → t.grp c.blk g = s.grp c.blk g
  blocks : ∀ u, u ≠ c.blk → t.blk u = { s.blk u with accHeld := (t.blk u).accHeld, acc := (t.blk u).acc }
  store  : StoreKept s c t
  lost   : LostInterval lose s c t
  cores  : ∀ n, t.core n = if n = c.core / 4 * 4 ∧ (e.kind = .mma ∨ e.kind = .pair)
    then { s.core n with inUse := { (s.core n).inUse with mat := (s.core n).inUse.mat + 1 } } else s.core n
  rest   : t = { s with fresh := t.fresh, blocks := t.blocks, kernels := t.kernels, cores := t.cores }

/-- A matrix operand as it stands at issue. -/
def srcOf (s : State) (c : Cur) (o : MatOperand) : MatSrc :=
  { base := kPair s c o.base, stride := (kOpnd s c o.stride).toNat, fmt := o.fmt, blk := o.blk }

/-- A scale byte (R264): row m's, of block j, from lane m mod 32, byte (bsel + m / 32) mod 4 of register f + j; 0 from an absent lane or
out of its range. -/
def scaleAt (s : State) (c : Cur) (f : BitVec 7) (bsel : BitVec 2) (m j : Nat) : Nat :=
  if (s.lane c (m % 32)).status = .absent ∨ inRange (s.blk c.blk).A (s.lane c (m % 32)) (f.toNat + j) = false then 0
  else (vWord s c (m % 32) (f.toNat + j)).toNat / 2 ^ (8 * ((bsel.toNat + m / 32) % 4)) % 256

/-- A mbar object changes, and nothing else of block memory (R283). -/
structure ObjectSet (u : Uses) (own : Own) (s : State) (c : Cur) (a : Nat) (m : MBar) (isOver : Bool) (t : State) : Prop where
  issued : Issued u own s c {} t
  object : (t.blk c.blk).mbar a = m
  bytes  : ∀ x, x < a ∨ a + 11 ≤ x → mget 0#8 (t.blk c.blk).bm x = mget 0#8 (s.blk c.blk).bm x
  isOver   : isOver = true → (t.kernel (s.blk c.blk).kernel).cir.getLsbD 4 = true
  block  : t.blk c.blk = { s.blk c.blk with
    groups := (t.blk c.blk).groups, bm := (t.blk c.blk).bm, interval := (t.blk c.blk).interval, ports := (t.blk c.blk).ports
    objs := (t.blk c.blk).objs }
  groups : ∀ g, g ≠ c.grp → t.grp c.blk g = s.grp c.blk g
  blocks : ∀ u, u ≠ c.blk → t.blk u = s.blk u
  kernels : ∀ n, n ≠ (s.blk c.blk).kernel → t.kernel n = s.kernel n
  rest   : t = { s with fresh := t.fresh, blocks := t.blocks, kernels := t.kernels }

/-- No object lies in bytes of a block's memory (R283). -/
def noObject (s : State) (u a n : Nat) : Prop := ∀ x ∈ (s.blk u).objs, a + n ≤ x ∨ x + 16 ≤ a

/-- The object after a change of its balance and of the arrivals due: it completes when none is due and the balance is not above 0, with
overrun when it lies below (R284). -/
def settled (m : MBar) : MBar :=
  if m.due = 0 ∧ m.bal ≤ 0 then
    { gen := (m.gen + 1) % 65536, due := m.per, per := m.per, bal := 0, isOver := m.isOver || decide (m.bal < 0) } else m

/-- An address of a mbar object (R287): aligned, within scratch. -/
def objectOwn (s : State) (c : Cur) (a : KReg) : Own := fun _ =>
  if (kOpnd s c a).toNat % 16 = 0 ∧ (kOpnd s c a).toNat + 16 ≤ (s.blk c.blk).scratch * 1024 then none else some (mkCause c 5)

/-- The group's older accesses to the bytes of an object have performed (R225, R283). -/
def objectQuiet (s : State) (c : Cur) (a : Nat) : Prop :=
  ∀ p ∈ s.pend, p.blk = c.blk → p.grp = c.grp → p.bm = true → p.done = false → a + 16 ≤ p.addr ∨ p.addr + p.size ≤ a

/-- The group's older writes to block memory have performed (R273, R290). -/
def writesQuiet (s : State) (c : Cur) : Prop :=
  ∀ p ∈ s.pend, p.blk = c.blk → p.grp = c.grp → p.bm = true → p.writes = true → p.done = true

/-- What a linear copy checks (R296). -/
def copyOwn (d a : KReg) (n : Count) (m : BitVec 16) (s : State) (c : Cur) : Own := fun _ =>
  if kPair s c a % 32 = 0 ∧ (kOpnd s c d).toNat % 32 = 0 ∧ countOf s c n % 32 = 0 ∧ countOf s c n ≤ 2 ^ 25 ∧
    (kOpnd s c d).toNat + countOf s c n ≤ (s.blk c.blk).scratch * 1024 ∧ objectFits s c m = true
  then none else some (mkCause c 5)

/-- What a transfer between accumulator and memory checks (R271, R272). -/
def accOwn (x : AccSpec) (base stride : Nat) (blk : Bool) (m : BitVec 16) (s : State) (c : Cur) : Own := fun _ =>
  if base % 32 = 0 ∧ stride % 32 = 0 ∧ objectFits s c m = true ∧
    (blk = false ∨ base + x.rows.toNat * stride + (if x.fmt = .f32 then 512 else 256) ≤ (s.blk c.blk).scratch * 1024)
  then none else some (mkCause c 5)

/-- What the causes of the instruction's own are asked with. -/
def issueAt (s : State) (c : Cur) : Issue := ⟨c, acting s c, [], s.fresh, s.cycleOf c.core⟩

/-- Every role of a mask is a role of the team (R272, R299). -/
def rolesHere (s : State) (c : Cur) (mask : BitVec 16) : Prop :=
  ∀ r, r < 16 → mask.getLsbD r = true → r < (s.team (s.blk c.blk).team).size

/-- A system operation of the group, with its operands as read at issue. -/
def sysOp (s : State) (c : Cur) (op : SysOp) (rel : Scope) (args : List Word) (dest : List RegKey) : Pend :=
  { flown s c with kind := .sys op, lanes := (s.issuer c).full, uniform := true, args := args, dest := dest, rel := some rel }

/-- Uniform registers as the instruction reads them. -/
def kWords (s : State) (c : Cur) (a : KReg) (n : Nat) : List Word := (List.range n).map fun j => kOpnd s c a j

/-- The last part of a pass entry (R264, R265): what it reads at issue. -/
def passEntry (kind : MatKind) (rows : Nat) (m : MmaSpec) (s : State) (c : Cur) : MatEntry :=
  let k := depthOf s c m.depth
  let scales := fun (f : BitVec 7) (n : Nat) =>
    if f = 0x7F#7 then [] else (List.range n).flatMap fun r => (List.range (k / 32)).map fun j => scaleAt s c f m.bsel r j
  { tok := m.tok.toNat, kind := kind, a := srcOf s c m.a, b := srcOf s c m.b, depth := k
    scA := scales m.sa rows, scB := scales m.sb 128, ow := m.ow, row := m.row.toNat }

/-! ## Steps of the memory side (R225-R231, R244-R249) -/

/-- An operation that can go on: no other operation has its number or is part of its instruction; it has not finished, and nothing older
keeps it back. -/
structure LoneOp (s : State) (op : Nat) (p : Pend) : Prop where
  found : s.op? op = some p
  once  : (s.pend.filter fun q => q.uid == op) = [p]
  only  : ∀ q ∈ s.pend, q.uid = op ∨ (q.iid = p.iid ∧ q.blk = p.blk ∧ q.grp = p.grp) → q = p
  keys  : p.dest.Nodup ∧ ∀ key ∈ p.dest, (∃ L x, key = RegKey.v L x) ∨ ∃ n, key = RegKey.k n
  open_ : p.done = false ∧ p.fault = none ∧ p.sent = false ∧ p.merged = none
  clear : s.clear p = true

/-- The operation has returned with these words and this stamp, and its instruction with it: the destinations that are still its own hold
the words; the floor rises (R64, R65, R225, R230). -/
structure Returned (s : State) (p : Pend) (ws : List Word) (st : Nat) (t : State) : Prop where
  gone  : ∀ q ∈ t.pend, ¬ (q.iid = p.iid ∧ q.blk = p.blk ∧ q.grp = p.grp)
  vals  : ∀ j key, p.dest[j]? = some key → j < ws.length → (∃ e ∈ (s.grp p.blk p.grp).board, e.iid = p.iid ∧ ∃ x ∈ e.cells, x.key = key) →
    p.status ≠ some key → (t.grp p.blk p.grp).getKey key = ws.getD j 0#32
  regs  : ∀ key, key ∉ p.dest → p.status ≠ some key → (t.grp p.blk p.grp).getKey key = (s.grp p.blk p.grp).getKey key
  floor : max (s.grp p.blk p.grp).floor st ≤ (t.grp p.blk p.grp).floor ∧
    (p.acq = none → (t.grp p.blk p.grp).floor = max (s.grp p.blk p.grp).floor st)
  groups : ∀ u g, (u, g) ≠ (p.blk, p.grp) → t.grp u g = s.grp u g

/-- The core that an operation's requests come from: its block's, or, where that has none any more, that of its issue. -/
def State.coreOf (s : State) (p : Pend) : Nat := ((s.blk p.blk).core).getD p.core

/-- The stamp that a load of local memory returns (R230): the one recorded with the line in L1, where L1 serves it; else, under history, that
of the granule's last write; else the largest of the slice. -/
def loadStamp (s : State) (p : Pend) (off : Nat) : Nat :=
  let held := mget 0 (s.core (s.coreOf p)).l1 (s.da off / 128)
  if p.due.isSome = true ∧ held ≠ 0 then held - 1
  else if p.hist = true then mget 0 s.lastWrite (s.da off / 1024) else (s.slice (s.home off)).last

/-- The words of bytes, poisoned (R227). -/
def orPoison (bad : Bool) (p : Pend) (ws : List Word) : List Word := if bad then p.dest.map fun _ => poisonWord else ws

/-- The operation has left, and no other that is not combined into it. -/
structure Gone (s : State) (p : Pend) (t : State) : Prop where
  gone : ∀ q ∈ t.pend, q.uid ≠ p.uid
  -- an acquire or a release raises the floors of what it kept back (R229, R232)
  kept : ∀ q ∈ s.pend, q.uid ≠ p.uid → q.merged ≠ some p.uid → ∃ f, q.floor ≤ f ∧ { q with floor := f } ∈ t.pend

/-- Local memory has changed in these bytes of one line, as the key reads it, and in no other line (R401). -/
structure LineWritten (s : State) (key : BitVec 256) (off : Nat) (bs : List Byte) (t : State) : Prop where
  line  : ∀ j, j < 128 → (t.readLocal key (off / 128 * 128) 128).getD j 0#8 =
    if off % 128 ≤ j ∧ j < off % 128 + bs.length then bs.getD (j - off % 128) 0#8 else (s.readLocal key (off / 128 * 128) 128).getD j 0#8
  bytes : ∀ x, x < s.da (off / 128 * 128) ∨ s.da (off / 128 * 128) + 128 ≤ x → mget 0#8 t.mem x = mget 0#8 s.mem x
  lines : ∀ n, n ≠ s.da (off / 128 * 128) / 128 → (mget {} t.lines n : LineMeta) = mget {} s.lines n

/-! ## Steps of the island, of hosts and of the links (R361-R382) -/

/-- The events that a step adds to the event log, in order and numbered on: kind, context, payload (R379, R380). -/
structure Logs (s : State) (es : List (Nat × Nat × List Byte)) (t : State) : Prop where
  events : t.logNew = s.logNew ++ es.zipIdx.map fun e => (⟨s.logNext + e.2, e.1.1, e.1.2.1, s.tick, e.1.2.2⟩ : EventRec)
  next   : t.logNext = s.logNext + es.length

/-- A host's write has no effect but WRITE_DROPPED, with the source host, the cause and the offset (R375, R380). -/
def Drops (s : State) (host cause off : Nat) (t : State) : Prop :=
  Logs s [(0x10, 0xFFFF, [BitVec.ofNat 8 host, BitVec.ofNat 8 cause] ++ List.replicate 6 0#8 ++ leBytes 8 off)] t ∧
  t = { s with log := t.log, logNew := t.logNew, logNext := t.logNext, logged := t.logged, logChain := t.logChain }

/-- The bytes of a command's status and result in its slot (R377). -/
def slotBytes (status : Nat) (data : List Byte) : List Byte := leBytes 4 (2 ^ 31 + status) ++ (data ++ List.replicate 20 0#8).take 20

/-- Where the record of a host's next command stands (R375, R377). -/
def recordAt (w : HostW) : Nat := hostBase + w.cmdBase.toNat + 64 * (w.cmdHead.toNat % 2 ^ w.cmdSize.toNat)

/-- A host has asked for a command: its ring has a record that is not yet executed, with a sequence number where one is asked for, an
opcode, a zero field, and arguments with a property (R375, R377). -/
structure Asked (s : State) (host : Nat) (seq : Option Word) (op : Nat) (zero : BitVec 16) (args : List Byte → Bool) : Prop where
  ring   : (s.host host).cmdSize ≠ 0#32 ∧ (s.host host).cmdHead ≠ (s.host host).cmdTail
  number : ∀ n, seq = some n → rdBytes s.mem (recordAt (s.host host)) 4 = leBytes 4 n.toNat
  opcode : rdBytes s.mem (recordAt (s.host host) + 4) 4 = leBytes 2 op ++ leBytes 2 zero.toNat
  args   : args (rdBytes s.mem (recordAt (s.host host) + 8) 32) = true

/-- A host has its status and result: in the slot of the record in host memory (R377). -/
structure Replied (s : State) (host status : Nat) (data : List Byte) (t : State) : Prop where
  reply : (mget {} t.replies host : HostReply).status = status ∧ (mget {} t.replies host : HostReply).data = data
  spdm  : (mget {} t.replies host : HostReply).spdm = (mget {} s.replies host : HostReply).spdm
  hosts : ∀ h, t.host h = if h = host then { s.host h with cmdHead := (s.host h).cmdHead + 1 } else s.host h
  mem   : t.mem = wrBytes s.mem (recordAt (s.host host) + 40) (slotBytes status data)
  others : ∀ h, h ≠ host → (mget {} t.replies h : HostReply) = mget {} s.replies h

/-- Of the cores a write of host memory changes the copies of its line alone, in L1 and in memo entries (R169, R325, R385). -/
def OnlyCopies (s t : State) : Prop :=
  ∀ n, t.core n = { s.core n with l1 := (t.core n).l1, quarters := (t.core n).quarters }

/-- Nothing but the reply, a write of host memory. -/
def OnlyReply (s t : State) : Prop :=
  t = { s with replies := t.replies, hosts := t.hosts, mem := t.mem, past := t.past, poison := t.poison, cores := t.cores } ∧ OnlyCopies s t

/-- A command that has no effect. -/
def NoEffect (c : Cmd) (s t : State) : Prop := OnlyReply { s with island := { s.island with lastAccepted := c.seq } } t

/-- What a command that any host may send does, when its record stands in the host's ring (R9, R376, R377): 3 where a zero field of the
record is nonzero, else its own. It waits while a TLB_INVAL command is under way. -/
def OpenCommand (i : Instr) (c : Sender) (op : Nat) (args : List Byte → Bool) (does : State → State → Prop) : Prop :=
  ∀ s, ∃ t, exec i s = .next t ∧ (s.island.st = 0 ∨ 8 ≤ c.host ∨ s.tlbCmd.isSome = true ∨ ¬ Asked s c.host none op c.zero args → t = s) ∧
    (s.island.st ≠ 0 → c.host < 8 → s.tlbCmd = none → Asked s c.host none op c.zero args →
      (c.zero ≠ 0#16 → Replied s c.host 3 [] t ∧ OnlyReply s t) ∧ (c.zero = 0#16 → does s t))

/-- What a command of the owner does, when its record stands in the host's ring (R9, R376-R378): NOT_OWNER from another host; STALE and GAP
out of order; in order 3 where a zero field of the record is nonzero, else its status and result, with its number accepted, and its effect.
It waits while a TLB_INVAL command is under way. -/
def CommandAt (s : State) (i : Instr) (c : Cmd) (op : Nat) (args : State → List Byte → Bool) (answer : State → Nat × List Byte)
    (effect : State → State → Prop) : Prop :=
  ∃ t, exec i s = .next t ∧
    (s.island.st = 0 ∨ 8 ≤ c.host ∨ s.tlbCmd.isSome = true ∨ ¬ Asked s c.host (some c.seq) op c.zero (args s) → t = s) ∧
    (s.island.st ≠ 0 → c.host < 8 → s.tlbCmd = none → Asked s c.host (some c.seq) op c.zero (args s) →
      (s.island.owner ≠ some c.host → Replied s c.host 2 [] t ∧ OnlyReply s t) ∧
      (s.island.owner = some c.host →
        (c.seq ≠ s.island.lastAccepted + 1 →
          Replied s c.host (if c.seq.toNat ≤ s.island.lastAccepted.toNat then 4 else 5) [] t ∧ OnlyReply s t) ∧
        (c.seq = s.island.lastAccepted + 1 → c.zero ≠ 0#16 → Replied s c.host 3 [] t ∧ NoEffect c s t) ∧
        (c.seq = s.island.lastAccepted + 1 → c.zero = 0#16 →
          Replied s c.host (answer s).1 (answer s).2 t ∧ t.island.lastAccepted = c.seq ∧ effect s t)))

/-- A command does this in every state. -/
def Commands (i : Instr) (c : Cmd) (op : Nat) (args : State → List Byte → Bool) (answer : State → Nat × List Byte)
    (effect : State → State → Prop) : Prop :=
  ∀ s, CommandAt s i c op args answer effect

/-- The owner's next command, in its ring: nothing of its record is wrong. -/
def NextCommand (s : State) (c : Cmd) (op : Nat) (args : List Byte → Bool) : Prop :=
  s.island.st ≠ 0 ∧ c.host < 8 ∧ s.island.owner = some c.host ∧ c.seq = s.island.lastAccepted + 1 ∧ c.zero = 0#16 ∧ s.tlbCmd = none ∧
    Asked s c.host (some c.seq) op c.zero args

/-- The arguments of a record: a number of 4 bytes first, or one of 8. -/
def arg4 (n : Nat) : State → List Byte → Bool := fun _ => isArg 0 4 n
def arg8 (n : Nat) : State → List Byte → Bool := fun _ => isArg 0 8 n
def argNone : State → List Byte → Bool := fun _ => noArgs

/-- A packet that answers another goes to the ports and joins the packets retained, behind others sent in the step, on one of the four
paths, under the path's next number (R366, R368, R369). -/
structure Responds (s : State) (pre : List Packet) (p : Packet) (kind flags stamp : Nat) (data : List Byte) (t : State) : Prop where
  sent : ∃ r : Packet, t.out = s.out ++ pre ++ [r] ∧ t.retained = s.retained ++ pre ++ [r] ∧ r.path < 4 ∧ r = {
      kind := kind, vc := 3, path := r.path, cls := p.cls, esc := false, dst := p.src, src := s.device
      inc := (mget {} s.members p.src : Member).inc, seq := r.seq, off := p.off, tag := p.tag % 2 ^ 32, ctx := p.ctx
      spec := [BitVec.ofNat 8 flags, BitVec.ofNat 8 p.path] ++ leBytes 8 stamp, data := padFlits data, zeros := true } ∧
    (pre = [] → r.seq = mget 0 s.e2eOut (p.src * 4 + r.path) ∧
      ∀ k, mget 0 t.e2eOut k = if k = p.src * 4 + r.path then (r.seq + 1) % 65536 else mget 0 s.e2eOut k)

/-- The answer to a write: under history, pins that it has broken are told to the other members first (R399). -/
def RespondsWrite (s : State) (p : Packet) (flags stamp : Nat) (data : List Byte) (t : State) : Prop :=
  ∃ pre : List Packet, (∀ x ∈ pre, x.kind = 9) ∧ (pktHist p = false → pre = []) ∧ Responds s pre p 4 flags stamp data t

/-- A packet is discarded, and counted at one of the ports (R366, R407); nothing of it is stored. -/
structure Discards (s t : State) : Prop where
  kept    : t.mem = s.mem ∧ t.e2eIn = s.e2eIn ∧ t.rx = s.rx
  counted : ∃ n, n < 16 ∧ ∀ k, mget 0#32 t.units k = if k = (660 + n) * 32 + 5 then mget 0#32 s.units k + 1 else mget 0#32 s.units k

/-- A packet on virtual channel 6, with a nonzero zero field or of an illegal kind is discarded; a request of the last two sorts has an error
response (R366, R367). -/
structure Turned (s : State) (p : Packet) (t : State) : Prop where
  gone   : Discards s t
  answer : p.vc ≠ 6 → p.kind ≤ 3 → Responds s [] p 5 0 0 [] t
  silent : p.vc = 6 ∨ 3 < p.kind → t.retained = s.retained

/-- How a packet of a kind arrives (R366, R367): none at a device without power, and no step is of a packet of another kind or with fields
beyond their widths; one that no device takes is discarded; a packet for another device is passed on; the device takes its own. -/
def Takes (i : Instr) (p : Packet) (kind : Nat) (takes : State → State → Prop) : Prop :=
  ∀ s, ∃ t, exec i s = .next t ∧
    let here := s.island.st ≠ 0 ∧ p.kind = kind ∧ p.held = true
    let sound := p.vc ≠ 6 ∧ p.zeros = true
    (¬ here → t = s) ∧ (here → ¬ sound → Turned s p t) ∧ (here → sound → p.dst ≠ s.device → t = { s with out := s.out ++ [p] }) ∧
    (here → sound → p.dst = s.device → takes s t)

/-- A request that the device serves (R362, R372). -/
def served (s : State) (p : Packet) : Prop := (s.island.st = 3 ∨ s.island.st = 4) ∧ p.inc = s.island.inc

/-- A packet that has been accepted must wait to perform: the dies are gated (R413), an earlier packet of its source and path that touches its
line waits (R369), or, of a write that is served, its line's page is to be re-keyed or a pin holds back the ring (R399, R402). -/
def waiting (s : State) (p : Packet) : Prop :=
  (p.kind ≤ 7 ∧ s.gatedAt 0 = true) ∨
  (∃ q ∈ s.rx, q.src = p.src ∧ q.path = p.path ∧ q.off / 128 = p.off / 128 ∧ pktBefore q p = true) ∨
  (1 ≤ p.kind ∧ p.kind ≤ 3 ∧ served s p ∧ s.writeReady ⟨0, 0, p.off⟩ (pktHist p) false = false)

/-- A packet performs, from a state that has taken it: only a step of the module's own changes what has been received, or waits (R369). -/
def Performs (p : Packet) (acts : State → State → Prop) (s t : State) : Prop :=
  acts s t ∧ (p.kind ≤ 7 → t.e2eIn = s.e2eIn ∧ t.rx = s.rx)

/-- How a packet that carries an end-to-end number is taken (R369): the next number is accepted, and performs, or waits; a number already
received is discarded, but for a packet that waits, which performs once it may; a later number is held back until its turn. -/
def Arrives (i : Instr) (p : Packet) (kind : Nat) (acts : State → State → Prop) : Prop :=
  Takes i p kind fun s t =>
    let k := p.src * 4 + p.path
    let e := mget 0 s.e2eIn k
    -- one that was held back until now is so no longer
    let s' := { s with e2eIn := mset 0 s.e2eIn k ((e + 1) % 65536), rx := s.rx.erase p }
    let again := p.seq ≠ e ∧ (e + 65536 - p.seq) % 65536 ≤ 4096
    (p.seq = e → waiting s' p → t.rx = s'.rx ++ [p] ∧ t.e2eIn = s'.e2eIn ∧ t.mem = s.mem ∧ t.out = s.out) ∧
    (p.seq = e → ¬ waiting s' p → Performs p acts s' t) ∧
    (again → p ∉ s.rx → Discards s t ∧ t.out = s.out) ∧
    (again → p ∈ s.rx → waiting s p → t = s) ∧
    (again → p ∈ s.rx → ¬ waiting s p → Performs p acts { s with rx := s.rx.erase p } t) ∧
    (p.seq ≠ e → 4096 < (e + 65536 - p.seq) % 65536 → t = { s with rx := if p ∈ s.rx then s.rx else s.rx ++ [p] })

/-- The stamp of a write of a peer (R229): under history, or a release. -/
def peerStamp (p : Packet) (s : State) : Nat := if pktHist p || pktRel p then s.stampFor (s.home p.off) (pktFloor p) else 0

/-- An operation that has been sent to a peer, and waits for its answer. -/
structure AskedOp (s : State) (op : Nat) (p : Pend) : Prop where
  found : s.op? op = some p
  once  : (s.pend.filter fun q => q.uid == op) = [p]
  only  : ∀ q ∈ s.pend, q.uid = op ∨ (q.iid = p.iid ∧ q.blk = p.blk ∧ q.grp = p.grp) → q = p
  keys  : p.dest.Nodup ∧ ∀ key ∈ p.dest, (∃ L x, key = RegKey.v L x) ∨ ∃ n, key = RegKey.k n
  open_ : p.done = false ∧ p.sent = true
  -- a tag holds the number of the operation
  small : ∀ q ∈ s.pend, q.uid < 2 ^ 32

end Sys2Proof.Machine
end

