-- ==== Sys2Proof/Certificates/Slice0/Obligations.lean ====
section
/-! DEFINITION. The statements for the provers. -/

open Sys2Proof Sys2Proof.Machine

/-! ## Integer instructions (R193-R202) -/

/-- R195, R196: what the R-form integer instructions write. The 0 that a lane which parks gives an entry pushed to a port is the model's
choice (log entry 66). -/
def Obligations.IntegerResults : Prop :=
  ∀ (d a b : VReg) (st : Stall),
    VecDoes (.iadd d a b st) (useR d a b) .main (onAB fun x y => BitVec.ofNat 32 (x.toNat + y.toNat)) ∧
    VecDoes (.isub d a b st) (useR d a b) .main (onAB fun x y => BitVec.ofInt 32 (x.toInt - y.toInt)) ∧
    VecDoes (.imul d a b st) (useR d a b) .main (onAB fun x y => BitVec.ofNat 32 (x.toNat * y.toNat)) ∧
    VecDoes (.imulhS d a b st) (useR d a b) .main (onAB fun x y => BitVec.ofInt 32 (x.toInt * y.toInt / 2 ^ 32)) ∧
    VecDoes (.imulhZ d a b st) (useR d a b) .main (onAB fun x y => BitVec.ofNat 32 (x.toNat * y.toNat / 2 ^ 32)) ∧
    VecDoes (.imad d a b st) (useRD d a b) .main (onABD fun x y z => BitVec.ofNat 32 (x.toNat * y.toNat + z.toNat)) ∧
    VecDoes (.and d a b st) (useR d a b) .main (onAB fun x y => x &&& y) ∧
    VecDoes (.or d a b st) (useR d a b) .main (onAB fun x y => x ||| y) ∧
    VecDoes (.xor d a b st) (useR d a b) .main (onAB fun x y => x ^^^ y) ∧
    VecDoes (.andn d a b st) (useR d a b) .main (onAB fun x y => x &&& ~~~y) ∧
    VecDoes (.shl d a b st) (useR d a b) .main (onAB fun x y => if y.toNat < 32 then BitVec.ofNat 32 (x.toNat * 2 ^ y.toNat) else 0#32) ∧
    VecDoes (.shr d a b st) (useR d a b) .main (onAB fun x y => if y.toNat < 32 then BitVec.ofNat 32 (x.toNat / 2 ^ y.toNat) else 0#32) ∧
    VecDoes (.sra d a b st) (useR d a b) .main (onAB fun x y =>
      if y.toNat < 32 then BitVec.ofInt 32 (x.toInt / 2 ^ y.toNat) else if x.getLsbD 31 then 0xFFFFFFFF#32 else 0#32) ∧
    VecDoes (.iminS d a b st) (useR d a b) .main (onAB fun x y => if x.toInt ≤ y.toInt then x else y) ∧
    VecDoes (.iminZ d a b st) (useR d a b) .main (onAB fun x y => if x.toNat ≤ y.toNat then x else y) ∧
    VecDoes (.imaxS d a b st) (useR d a b) .main (onAB fun x y => if x.toInt ≤ y.toInt then y else x) ∧
    VecDoes (.imaxZ d a b st) (useR d a b) .main (onAB fun x y => if x.toNat ≤ y.toNat then y else x)

/-- R197, R198: what the immediate integer instructions write; 64-bit sums over pairs, and for `lea` the word of B, zero-extended. The 0
that a lane which parks gives an entry pushed to a port is the model's choice (log entry 66). -/
def Obligations.ImmediateAndPairResults : Prop :=
  ∀ (d a : VReg) (st : Stall),
    (∀ imm : BitVec 7, VecDoes (.iaddi d a imm st) (use1 d a) .main (onA fun x => BitVec.ofInt 32 (x.toInt + imm.toInt)) ∧
      VecDoes (.andi d a imm st) (use1 d a) .main (onA fun x => x &&& BitVec.ofInt 32 imm.toInt)) ∧
    (∀ n : BitVec 5,
      VecDoes (.shfi .shl d a n st) (use1 d a) .main (onA fun x => BitVec.ofNat 32 (x.toNat * 2 ^ n.toNat)) ∧
      VecDoes (.shfi .shr d a n st) (use1 d a) .main (onA fun x => BitVec.ofNat 32 (x.toNat / 2 ^ n.toNat)) ∧
      VecDoes (.shfi .sra d a n st) (use1 d a) .main (onA fun x => BitVec.ofInt 32 (x.toInt / 2 ^ n.toNat)) ∧
      VecDoes (.shfi .rot d a n st) (use1 d a) .main (onA fun x => x.rotateLeft n.toNat)) ∧
    ∀ b : VReg,
      VecDoes (.iadd64 d a b st) { vsrc := [(a, 2), (b, 2)], vdst := some (d, 2) } .main
        (fun v L => two (BitVec.ofNat 64 ((argD (v.args L) 0).toNat + (argD (v.args L) 1).toNat))) ∧
      VecDoes (.lea d a b st) { vsrc := [(a, 2), (b, 1)], vdst := some (d, 2) } .main
        (fun v L => two (BitVec.ofNat 64 ((argD (v.args L) 0).toNat + (arg (v.args L) 1).toNat)))

/-- R63, R199: integer compares set the predicate in each executing lane; condition 6 or 7 and a predicate number from 12 up are ILLEGAL. -/
def Obligations.IntegerCompares : Prop :=
  (∀ (c : Cond) (p : BitVec 4) (a b : VReg) (st : Stall), p.toNat < 12 →
    VecDoes (.icmpS c p a b st) { vsrc := [(a, 1), (b, 1)], pdst := [p.toNat] } .main (predAB p fun x y => condInt c x.toInt y.toInt) ∧
    VecDoes (.icmpZ c p a b st) { vsrc := [(a, 1), (b, 1)], pdst := [p.toNat] } .main (predAB p fun x y => condInt c x.toNat y.toNat)) ∧
  (∀ (w : Word) (lits : List Word), opOf w = 0x26#7 ∨ opOf w = 0x27#7 →
    6 ≤ ((dOf w).extractLsb' 4 3).toNat ∨ 12 ≤ ((dOf w).extractLsb' 0 4).toNat → decode w lits = .error (.illegal 1)) ∧
  decode 0x4C883074#32 [] = .ok (.icmpS .lt 2#4 6#7 7#7 4#4)

/-- R200, R201: what the unary functions and the bit-field instructions write, bit by bit; an FN of 0x0B or more is ILLEGAL. The 0 that a
lane which parks gives an entry pushed to a port is the model's choice (log entry 66). -/
def Obligations.BitFunctions : Prop :=
  (∀ (fn : IunFn) (d a : VReg) (st : Stall), VecDoes (.iun fn d a st) (use1 d a) .main (onA (iunVal fn))) ∧
  (∀ (w : Word) (lits : List Word), opOf w = 0x28#7 → 0x0B ≤ (bOf w).toNat → decode w lits = .error (.illegal 1)) ∧
  (∀ a : Word,
    iunVal .popc a = BitVec.ofNat 32 ((List.range 32).countP fun i => a.getLsbD i) ∧
    (∀ n, n < 32 → a.getLsbD (31 - n) = true → (∀ k, k < n → a.getLsbD (31 - k) = false) → iunVal .clz a = BitVec.ofNat 32 n) ∧
    iunVal .clz 0#32 = 32#32 ∧
    (∀ i, i < 32 → (iunVal .brev a).getLsbD i = a.getLsbD (31 - i)) ∧
    iunVal .iabs a = BitVec.ofNat 32 a.toInt.natAbs ∧ iunVal .ineg a = BitVec.ofInt 32 (-a.toInt) ∧ iunVal .not a = ~~~a ∧
    iunVal .sext8 a = BitVec.ofInt 32 (a.setWidth 8).toInt ∧ iunVal .sext16 a = BitVec.ofInt 32 (a.setWidth 16).toInt ∧
    iunVal .zext8 a = BitVec.ofNat 32 (a.toNat % 256) ∧ iunVal .zext16 a = BitVec.ofNat 32 (a.toNat % 65536) ∧
    ∀ i, i < 32 → (iunVal .bswap a).getLsbD i = a.getLsbD (8 * (3 - i / 8) + i % 8)) ∧
  (∀ (d a b : VReg) (st : Stall),
    VecDoes (.bfe d a b st) (useR d a b) .main (onAB fun x y => BitVec.ofNat 32 (x.toNat / 2 ^ (y.toNat % 32) % 2 ^ (y.toNat / 256 % 32))) ∧
    VecDoes (.bfi d a b st) (useRD d a b) .main (onABD bfiVal)) ∧
  ∀ (x y z : Word) i, i < 32 → (bfiVal x y z).getLsbD i =
    if y.toNat % 32 ≤ i ∧ i < min (y.toNat % 32 + y.toNat / 256 % 32) 32 then x.getLsbD (i - y.toNat % 32) else z.getLsbD i

/-- R194, R202: what the uniform instructions write, once for the group. -/
def Obligations.UniformResults : Prop :=
  (∀ (d a b : KReg) (st : Stall),
    let u : Uses := { ksrc := [(a, 1), (b, 1)] }
    let w := fun (f : Word → Word → Word) (s : State) (c : Cur) => [(kKey (s.issuer c) d, f (kOpnd s c a) (kOpnd s c b))]
    Writes (.kadd d a b st) u false (w fun x y => BitVec.ofNat 32 (x.toNat + y.toNat)) noFlags ∧
    Writes (.ksub d a b st) u false (w fun x y => BitVec.ofInt 32 (x.toInt - y.toInt)) noFlags ∧
    Writes (.kmul d a b st) u false (w fun x y => BitVec.ofNat 32 (x.toNat * y.toNat)) noFlags ∧
    Writes (.kand d a b st) u false (w fun x y => x &&& y) noFlags ∧
    Writes (.kor d a b st) u false (w fun x y => x ||| y) noFlags ∧
    Writes (.kxor d a b st) u false (w fun x y => x ^^^ y) noFlags ∧
    Writes (.kadd64 d a b st) { ksrc := [(a, 2), (b, 2)] } false (fun s c =>
      let x : DWord := BitVec.ofNat 64 ((dwordOf (kOpnd s c a 0) (kOpnd s c a 1)).toNat + (dwordOf (kOpnd s c b 0) (kOpnd s c b 1)).toNat)
      [(kKey (s.issuer c) d, x.lo), (kKey (s.issuer c) d 1, x.hi)]) noFlags) ∧
  (∀ (d a : KReg) (st : Stall),
    let u : Uses := { ksrc := [(a, 1)] }
    let w := fun (f : Word → Word) (s : State) (c : Cur) => [(kKey (s.issuer c) d, f (kOpnd s c a))]
    (∀ n : BitVec 5, Writes (.kshfi .shl d a n st) u false (w fun x => BitVec.ofNat 32 (x.toNat * 2 ^ n.toNat)) noFlags ∧
      Writes (.kshfi .shr d a n st) u false (w fun x => BitVec.ofNat 32 (x.toNat / 2 ^ n.toNat)) noFlags ∧
      Writes (.kshfi .sra d a n st) u false (w fun x => BitVec.ofInt 32 (x.toInt / 2 ^ n.toNat)) noFlags ∧
      Writes (.kshfi .rot d a n st) u false (w fun x => x.rotateLeft n.toNat) noFlags) ∧
    ∀ imm : BitVec 7, Writes (.kaddi d a imm st) u false (w fun x => BitVec.ofInt 32 (x.toInt + imm.toInt)) noFlags) ∧
  ∀ (c : Cond) (p : BitVec 4) (a b : KReg) (st : Stall), p.toNat < 4 →
    Writes (.kcmpS c p a b st) { ksrc := [(a, 1), (b, 1)] } false (fun s k =>
      [(.kp p.toNat, Word.ofBool (condInt c (kOpnd s k a).toInt (kOpnd s k b).toInt))]) noFlags ∧
    Writes (.kcmpZ c p a b st) { ksrc := [(a, 1), (b, 1)] } false (fun s k =>
      [(.kp p.toNat, Word.ofBool (condInt c (kOpnd s k a).toNat (kOpnd s k b).toNat))]) noFlags

/-- R66, R190, R218, R219: moves and literals; mov from a vector to a uniform register reads the lowest counted lane's register alone. The 0
that a lane which parks gives an entry pushed to a port is the model's choice (log entry 66). -/
def Obligations.MovesAndLiterals : Prop :=
  (∀ (d a : VReg) (st : Stall), VecDoes (.mov d a st) (use1 d a) .main (onA fun x => x)) ∧
  (∀ (d : VReg) (x : Word) (st : Stall), VecDoes (.lit d x st) { vdst := some (d, 1) } .main (fun _ _ => one x)) ∧
  (∀ (d : KReg) (x : Word) (st : Stall), Writes (.klit d x st) {} false (fun s c => [(kKey (s.issuer c) d, x)]) noFlags) ∧
  (∀ (d : VReg) (a : KReg) (st : Stall) s c, Issuing { vdst := some (d, 1), ksrc := [(a, 1)] } noOwn s c →
    ∃ t, exec (.movBroadcast d a st) s = .next t ∧
      VecDone { vdst := some (d, 1), ksrc := [(a, 1)] } noOwn s c (fun _ => one (kOpnd s c a)) t) ∧
  (∀ (d : KReg) (a : VReg) (st : Stall) s c, let u : Uses := { vsrc := [(a, 1)], remote := true }
    Issuing u (lowestOwn a s c) s c → movBad a s (mayIssue u (lowestOwn a s c) s c) = none →
    movBad a s (issueOf u (lowestOwn a s c) s c) = none → ∃ t, exec (.movToUniform d a st) s = .next t ∧
      Wrote u (lowestOwn a s c) s c false [(kKey (s.issuer c) d, match countedLanes u (lowestOwn a s c) s c with
        | L :: _ => arg (opnds u (lowestOwn a s c) s c L) 0
        | [] => 0#32)] 0#5 t) ∧
  (∀ (d : VReg) (st : Stall) s c, Issuing { vdst := some (d, 1), psrc := List.range 12 } noOwn s c →
    ∃ t, exec (.movPv d st) s = .next t ∧ ∃ f : Nat → Word, VecDone { vdst := some (d, 1), psrc := List.range 12 } noOwn s c (fun L => one (f L)) t ∧
      ∀ L i, (f L).getLsbD i = (decide (i < 12) && ((s.issuer c).read (s.cycleOf c.core) s.fresh (.p L i)).getLsbD 0)) ∧
  (∀ (a : VReg) (st : Stall), VecDoes (.movVp a st) { vsrc := [(a, 1)], pdst := List.range 12 } .main
    (fun v L => { preds := (List.range 12).map fun n => (n, (arg (v.args L) 0).getLsbD n) })) ∧
  ∀ (d : BitVec 7) (a : KReg) (st : Stall), d.toNat < 4 →
    Writes (.movKp d a st) { ksrc := [(a, 1)] } false (fun s c => [(.kp d.toNat, Word.ofBool ((kOpnd s c a).getLsbD 0))]) noFlags

/-! ## Floating-point, M8, exchange and group-wide instructions (R31-R47, R203-R217) -/

/-- R203, R204, R205: the FP32 block, element by element, its flags counted in FPSR. That a transcendental result is the exact one
rounded once is a reading (log entry 10); the 0 that a lane which parks gives an entry pushed to a port is the model's choice (log entry
66). -/
def Obligations.FloatF32Results : Prop :=
  ∀ (d a b : VReg) (st : Stall),
    VecDoes (.faddF32 d a b st) (useR d a b) .main (fpAB (fadd .f32)) ∧
    VecDoes (.fsubF32 d a b st) (useR d a b) .main (fpAB (fsub .f32)) ∧
    VecDoes (.fmulF32 d a b st) (useR d a b) .main (fpAB (fmul .f32)) ∧
    VecDoes (.ffmaF32 d a b st) (useRD d a b) .main (fpABD (ffma .f32)) ∧
    VecDoes (.fminF32 d a b st) (useR d a b) .main (fpAB fun e x y => fminmax .f32 e false x y) ∧
    VecDoes (.fmaxF32 d a b st) (useR d a b) .main (fpAB fun e x y => fminmax .f32 e true x y) ∧
    ∀ fn, VecDoes (.funF32 fn d a st) (use1 d a) .fn (fun v L => outF (funV .f32 (fzOf v.fpcr) fn (arg (v.args L) 0).toNat))

/-- R32, R203, R204, R205, R207: the packed blocks: element 0 in bits 15:0, element 1 in bits 31:16. That a transcendental result is the
exact one rounded once is a reading (log entry 10); the 0 that a lane which parks gives an entry pushed to a port is the model's choice
(log entry 66). -/
def Obligations.FloatPackedResults : Prop :=
  ∀ (d a b : VReg) (st : Stall),
    VecDoes (.faddF16x2 d a b st) (useR d a b) .main (fpPackedAB (fadd .f16)) ∧
    VecDoes (.fsubF16x2 d a b st) (useR d a b) .main (fpPackedAB (fsub .f16)) ∧
    VecDoes (.fmulF16x2 d a b st) (useR d a b) .main (fpPackedAB (fmul .f16)) ∧
    VecDoes (.ffmaF16x2 d a b st) (useRD d a b) .main (fpPackedABD (ffma .f16)) ∧
    VecDoes (.fminF16x2 d a b st) (useR d a b) .main (fpPackedAB fun e x y => fminmax .f16 e false x y) ∧
    VecDoes (.fmaxF16x2 d a b st) (useR d a b) .main (fpPackedAB fun e x y => fminmax .f16 e true x y) ∧
    VecDoes (.faddBf16x2 d a b st) (useR d a b) .main (fpPackedAB (fadd .bf16)) ∧
    VecDoes (.fsubBf16x2 d a b st) (useR d a b) .main (fpPackedAB (fsub .bf16)) ∧
    VecDoes (.fmulBf16x2 d a b st) (useR d a b) .main (fpPackedAB (fmul .bf16)) ∧
    VecDoes (.ffmaBf16x2 d a b st) (useRD d a b) .main (fpPackedABD (ffma .bf16)) ∧
    VecDoes (.fminBf16x2 d a b st) (useR d a b) .main (fpPackedAB fun e x y => fminmax .bf16 e false x y) ∧
    VecDoes (.fmaxBf16x2 d a b st) (useR d a b) .main (fpPackedAB fun e x y => fminmax .bf16 e true x y) ∧
    (∀ fn, VecDoes (.funF16x2 fn d a st) (use1 d a) .fn (fun v L => outP
      (funElem .f16 (fzOf v.fpcr) fn ((arg (v.args L) 0).toNat % 65536)) (funElem .f16 (fzOf v.fpcr) fn ((arg (v.args L) 0).toNat / 65536)))) ∧
    ∀ fn, VecDoes (.funBf16x2 fn d a st) (use1 d a) .fn (fun v L => outP
      (funElem .bf16 (fzOf v.fpcr) fn ((arg (v.args L) 0).toNat % 65536)) (funElem .bf16 (fzOf v.fpcr) fn ((arg (v.args L) 0).toNat / 65536)))

/-- R203, R204, R205, R209: the FP64 block over register pairs, on the F64 unit. That a transcendental result is the exact one rounded
once is a reading (log entry 10). -/
def Obligations.FloatF64Results : Prop :=
  ∀ (d a b : VReg) (st : Stall),
    VecDoes (.faddF64 d a b st) (usePair2 d a b) .f64 (fpPairAB (fadd .f64)) ∧
    VecDoes (.fsubF64 d a b st) (usePair2 d a b) .f64 (fpPairAB (fsub .f64)) ∧
    VecDoes (.fmulF64 d a b st) (usePair2 d a b) .f64 (fpPairAB (fmul .f64)) ∧
    VecDoes (.ffmaF64 d a b st) (usePair3 d a b) .f64 (fpPairABD (ffma .f64)) ∧
    VecDoes (.fminF64 d a b st) (usePair2 d a b) .f64 (fpPairAB fun e x y => fminmax .f64 e false x y) ∧
    VecDoes (.fmaxF64 d a b st) (usePair2 d a b) .f64 (fpPairAB fun e x y => fminmax .f64 e true x y) ∧
    ∀ fn, VecDoes (.funF64 fn d a st) { vsrc := [(a, 2)], vdst := some (d, 2) } .f64
      (fun v L => outD (funV .f64 (fzOf v.fpcr) fn (argD (v.args L) 0).toNat))

/-- R206: compares write p(n), and the packed ones element 1 into p(n + 1). -/
def Obligations.FloatCompares : Prop :=
  ∀ (c : Cond) (p : BitVec 4) (a b : VReg) (st : Stall), p.toNat < 12 →
    VecDoes (.fcmpF32 c p a b st) { vsrc := [(a, 1), (b, 1)], pdst := [p.toNat] } .main (fun v L =>
      let r := fcmp .f32 (envOf v.fpcr) c (arg (v.args L) 0).toNat (arg (v.args L) 1).toNat
      { preds := [(p.toNat, r.1)], flags := r.2 }) ∧
    VecDoes (.fcmpF64 c p a b st) { vsrc := [(a, 2), (b, 2)], pdst := [p.toNat] } .f64 (fun v L =>
      let r := fcmp .f64 (envOf v.fpcr) c (argD (v.args L) 0).toNat (argD (v.args L) 1).toNat
      { preds := [(p.toNat, r.1)], flags := r.2 }) ∧
    (p.toNat % 2 = 0 →
      let packed := fun (f : Fmt) (v : View) (L : Nat) =>
        let r0 := fcmp f (envOf v.fpcr) c ((arg (v.args L) 0).toNat % 65536) ((arg (v.args L) 1).toNat % 65536)
        let r1 := fcmp f (envOf v.fpcr) c ((arg (v.args L) 0).toNat / 65536) ((arg (v.args L) 1).toNat / 65536)
        ({ preds := [(p.toNat, r0.1), (p.toNat + 1, r1.1)], flags := r0.2 ||| r1.2 } : LaneOut)
      VecDoes (.fcmpF16x2 c p a b st) { vsrc := [(a, 1), (b, 1)], pdst := [p.toNat, p.toNat + 1] } .main (packed .f16) ∧
      VecDoes (.fcmpBf16x2 c p a b st) { vsrc := [(a, 1), (b, 1)], pdst := [p.toNat, p.toNat + 1] } .main (packed .bf16))

/-- R31, R204: a NaN operand gives the canonical quiet NaN, with io exactly for a signalling one; so do the invalid operations. -/
def Obligations.FloatNaNs : Prop :=
  ∀ (f : Fmt) (c : Env) (x y z : Nat),
    ((operand f c x).isNan = true ∨ (operand f c y).isNan = true →
      let io := fIf ((operand f c x).sig || (operand f c y).sig) fIo
      fadd f c x y = (f.nan, io) ∧ fsub f c x y = (f.nan, io) ∧ fmul f c x y = (f.nan, io) ∧
      ffma f c x y z = (f.nan, fIf ((operand f c x).sig || (operand f c y).sig || (operand f c z).sig) fIo)) ∧
    -- a NaN addend; beside 0 × ∞ too
    ((operand f c z).isNan = true → (ffma f c x y z).1 = f.nan ∧
      ((∃ n m e, operand f c x = .inf n ∧ operand f c y = .fin m 0 e ∨ operand f c x = .fin m 0 e ∧ operand f c y = .inf n) →
        (ffma f c x y z).2 = fIo) ∧
      ((∀ n m e, ¬ (operand f c x = .inf n ∧ operand f c y = .fin m 0 e) ∧ ¬ (operand f c x = .fin m 0 e ∧ operand f c y = .inf n)) →
        (ffma f c x y z).2 = fIf ((operand f c x).sig || (operand f c y).sig || (operand f c z).sig) fIo)) ∧
    (∀ n m e, operand f c x = .inf n → operand f c y = .fin m 0 e → fmul f c x y = (f.nan, fIo) ∧ ffma f c x y z = (f.nan, fIo)) ∧
    (∀ n m e, operand f c x = .fin m 0 e → operand f c y = .inf n → fmul f c x y = (f.nan, fIo) ∧ ffma f c x y z = (f.nan, fIo)) ∧
    (∀ n, operand f c x = .inf n → operand f c y = .inf n → fsub f c x y = (f.nan, fIo)) ∧
    (∀ n, operand f c x = .inf n → operand f c y = .inf (!n) → fadd f c x y = (f.nan, fIo)) ∧
    -- an infinite product and the infinity of the other sign
    ∀ n k m e, 0 < m → operand f c x = .inf n → operand f c y = .inf k ∨ operand f c y = .fin k m e → operand f c z = .inf (n == k) →
      ffma f c x y z = (f.nan, fIo)

/-- R205: fmin and fmax, of numbers in their numeric order. -/
def Obligations.FloatMinMax : Prop :=
  ∀ (f : Fmt) (c : Env) (max : Bool) (x y : Nat),
    let vx := operand f c x
    let vy := operand f c y
    (fminmax f c max x y).2 = fIf (vx.sig || vy.sig) fIo ∧
    (vx.isNan = true → vy.isNan = true → (fminmax f c max x y).1 = f.nan) ∧
    (vx.isNan = true → vy.isNan = false → (fminmax f c max x y).1 = flushIn f c.fz y) ∧
    (vx.isNan = false → vy.isNan = true → (fminmax f c max x y).1 = flushIn f c.fz x) ∧
    let first := if max then flushIn f c.fz y else flushIn f c.fz x
    let second := if max then flushIn f c.fz x else flushIn f c.fz y
    (∀ na ma ea nb mb eb, vx = .fin na ma ea → vy = .fin nb mb eb → ∀ q, q ≤ ea → q ≤ eb →
      (toUnits na ma ea q < toUnits nb mb eb q → (fminmax f c max x y).1 = first) ∧
      (toUnits nb mb eb q < toUnits na ma ea q → (fminmax f c max x y).1 = second) ∧
      (toUnits na ma ea q = toUnits nb mb eb q → na = nb →
        (fminmax f c max x y).1 = flushIn f c.fz x ∨ (fminmax f c max x y).1 = flushIn f c.fz y)) ∧
    (vx = .inf true ∨ vy = .inf false → vx.isNan = false → vy.isNan = false → vx ≠ vy → (fminmax f c max x y).1 = first) ∧
    (vx = .inf false ∨ vy = .inf true → vx.isNan = false → vy.isNan = false → vx ≠ vy → (fminmax f c max x y).1 = second) ∧
    (∀ n, vx = .inf n → vy = .inf n → (fminmax f c max x y).1 = flushIn f c.fz x ∨ (fminmax f c max x y).1 = flushIn f c.fz y) ∧
    -- −0 is ordered below +0
    (∀ e1 e2, vx = .fin true 0 e1 → vy = .fin false 0 e2 → (fminmax f c max x y).1 = first) ∧
    ∀ e1 e2, vx = .fin false 0 e1 → vy = .fin true 0 e2 → (fminmax f c max x y).1 = second

/-- R63, R206: what a compare finds: unordered, or numbers in their numeric order, with equal zeros. -/
def Obligations.FloatCompareRules : Prop :=
  ∀ (f : Fmt) (e : Env) (x y : Nat),
    ((operand f e x).isNan = true ∨ (operand f e y).isNan = true →
      (∀ c, c = Cond.eq ∨ c = .lt ∨ c = .le ∨ c = .gt ∨ c = .ge → (fcmp f e c x y).1 = false) ∧
      (fcmp f e .ne x y).1 = true ∧ (fcmp f e .un x y).1 = true) ∧
    (∀ c, (fcmp f e c x y).2 = fIf ((operand f e x).sig || (operand f e y).sig) fIo) ∧
    let finds := fun (lt eq : Bool) => (fcmp f e .lt x y).1 = lt ∧ (fcmp f e .eq x y).1 = eq ∧ (fcmp f e .ne x y).1 = !eq ∧
      (fcmp f e .le x y).1 = (lt || eq) ∧ (fcmp f e .gt x y).1 = !(lt || eq) ∧ (fcmp f e .ge x y).1 = !lt ∧ (fcmp f e .un x y).1 = false
    (∀ na ma ea nb mb eb, operand f e x = .fin na ma ea → operand f e y = .fin nb mb eb → ∀ q, q ≤ ea → q ≤ eb →
      finds (decide (toUnits na ma ea q < toUnits nb mb eb q)) (decide (toUnits na ma ea q = toUnits nb mb eb q))) ∧
    (∀ n, operand f e x = .inf n → operand f e y = .inf n → finds false true) ∧
    (operand f e x = .inf true ∨ operand f e y = .inf false → (operand f e x).isNan = false → (operand f e y).isNan = false →
      operand f e x ≠ operand f e y → finds true false) ∧
    (operand f e x = .inf false ∨ operand f e y = .inf true → (operand f e x).isNan = false → (operand f e y).isNan = false →
      operand f e x ≠ operand f e y → finds false false)

/-- R33, R34, R35, R204: the rounding of a magnitude m · 2^e to a multiple k · 2^q of a coarser quantum: to nearest with ties to even,
toward zero, upward and downward; which number of a format an exact one is delivered as, when that is an overflow, and the flags:
tininess after rounding, underflow only where inexact, overflow with inexact, and zero for a tiny result under FPCR.fz. -/
def Obligations.RoundingDirections : Prop :=
  (∀ (neg : Bool) (m : Nat) (e q : Int), e < q →
    let pow := 2 ^ (q - e).toNat
    let k := fun rm => (roundAt rm neg m e false q).1
    (2 * (k .rn * pow) ≤ 2 * m + pow ∧ 2 * m ≤ 2 * (k .rn * pow) + pow) ∧
    (2 * (k .rn * pow) = 2 * m + pow ∨ 2 * m = 2 * (k .rn * pow) + pow → k .rn % 2 = 0) ∧
    (k .rz * pow ≤ m ∧ m < (k .rz + 1) * pow) ∧
    (k .ru = if neg || m % pow = 0 then m / pow else m / pow + 1) ∧
    (k .rd = if neg && m % pow ≠ 0 then m / pow + 1 else m / pow) ∧
    ∀ rm, (roundAt rm neg m e false q).2 = true ↔ m % pow ≠ 0) ∧
  ∀ f ∈ [Fmt.f32, Fmt.f16, Fmt.bf16, Fmt.f64], ∀ (rm : Rm) (neg : Bool) (m : Nat) (e : Int), 0 < m →
    let r := roundTo f rm neg m e false
    let inward := rm = .rz ∨ rm = .ru ∧ neg = true ∨ rm = .rd ∧ neg = false
    -- the exact magnitude, the format's, and the one after its largest, in a common unit
    let exact := m * 2 ^ (e - min e f.qmin).toNat
    let mag := fun b => f.units b * 2 ^ (f.qmin - min e f.qmin).toNat
    let top := 2 ^ (f.fw + f.emaxField - 1) * 2 ^ (f.qmin - min e f.qmin).toNat
    (r.isOver = true ↔ if rm = .rn then mag (f.inf - 1) + top ≤ 2 * exact else if inward then top ≤ exact else mag (f.inf - 1) < exact) ∧
    (r.isOver = true → r.bits = f.sign neg + if inward then f.inf - 1 else f.inf) ∧
    (r.isOver = false → ∃ b, b < f.inf ∧ r.bits = f.sign neg + b ∧ (r.inexact = true ↔ mag b ≠ exact) ∧
      (inward → mag b ≤ exact ∧ ∀ b', b' < f.inf → mag b' ≤ exact → mag b' ≤ mag b) ∧
      (¬ inward → rm ≠ .rn → exact ≤ mag b ∧ ∀ b', b' < f.inf → exact ≤ mag b' → mag b ≤ mag b') ∧
      (rm = .rn → ∀ b', b' < f.inf → ((exact : Int) - mag b).natAbs ≤ ((exact : Int) - mag b').natAbs ∧
        (((exact : Int) - mag b).natAbs = ((exact : Int) - mag b').natAbs → b' ≠ b → b % 2 = 0))) ∧
    -- tiny: what the precision alone makes of the number lies below the least normal one
    (let q := e + Nat.log2 m - f.fw
     let k := (roundAt rm neg m e false q).1
     (r.tiny = true ↔ r.isOver = false ∧ k * 2 ^ (q - min q f.emin).toNat < 2 ^ (f.emin - min q f.emin).toNat)) ∧
    ∀ fz, fromExact f rm fz neg m e =
      if r.isOver then (r.bits, fOf ||| fNx)
      else if fz && f.flushes && r.tiny then (f.sign neg, fUf ||| fNx)
      else (r.bits, fIf r.inexact fNx ||| fIf (r.tiny && r.inexact) fUf)

/-- R204: of finite operands fadd, fsub, fmul and ffma deliver the exact value rounded once, however it is written as a magnitude times a
power of two; an exact zero sum is +0, or −0 where both zeros are negative, or of opposite signs under rounding toward −∞. A value that the
format holds is delivered as it is, whatever the rounding direction, and is not inexact. -/
def Obligations.RoundingKeepsExact : Prop :=
  (∀ f ∈ [Fmt.f32, Fmt.f16, Fmt.bf16, Fmt.f64], ∀ (rm : Rm) (neg : Bool) (bits m : Nat) (e : Int),
    0 < bits → bits < f.inf → unpack f bits = .fin false m e →
    (roundTo f rm neg m e false).bits = f.sign neg + bits ∧ (roundTo f rm neg m e false).inexact = false ∧
    (roundTo f rm neg m e false).isOver = false) ∧
  ∀ f ∈ [Fmt.f32, Fmt.f16, Fmt.bf16, Fmt.f64], ∀ (c : Env) (x y z : Nat) (na nb nd : Bool) (ma mb md : Nat) (ea eb ed : Int),
    operand f c x = .fin na ma ea → operand f c y = .fin nb mb eb → operand f c z = .fin nd md ed →
    ∀ (n : Bool) (m : Nat) (e : Int),
      -- n, m, e write the sum of two such numbers
      let sums := fun (n1 : Bool) (m1 : Nat) (e1 : Int) (n2 : Bool) (m2 : Nat) (e2 : Int) =>
        ∀ q, q ≤ e → q ≤ e1 → q ≤ e2 → toUnits n m e q = toUnits n1 m1 e1 q + toUnits n2 m2 e2 q
      let zero := fun (n1 n2 : Bool) => (f.sign (if n1 = n2 then n1 else c.rm == .rd), fNone)
      (sums na ma ea nb mb eb → fadd f c x y = if m = 0 then zero na nb else fromExact f c.rm c.fz n m e) ∧
      (sums na ma ea (!nb) mb eb → fsub f c x y = if m = 0 then zero na !nb else fromExact f c.rm c.fz n m e) ∧
      (n = (na != nb) → (∀ q, q ≤ e → q ≤ ea + eb → m * 2 ^ (e - q).toNat = ma * mb * 2 ^ (ea + eb - q).toNat) →
        fmul f c x y = if m = 0 then (f.sign n, fNone) else fromExact f c.rm c.fz n m e) ∧
      (sums (na != nb) (ma * mb) (ea + eb) nd md ed →
        ffma f c x y z = if m = 0 then zero (na != nb) nd else fromExact f c.rm c.fz n m e)

/-- R42, R43: the conversions; a pair on either side where the kind has one. The 0 that a lane which parks gives an entry pushed to a port is
the model's choice (log entry 66). -/
def Obligations.Conversions : Prop :=
  (∀ (k : CvtKind) (rm : Rm) (d a : VReg) (st : Stall),
    VecDoes (.cvt k rm d a st) { vsrc := [(a, if k.aPair then 2 else 1)], vdst := some (d, if k.dPair then 2 else 1) } .main
      (fun v L => cvtVal k rm (arg (v.args L) 0) (arg (v.args L) 0 1))) ∧
  ∀ (f : Fmt) (rm : Rm) (lo hi : Int) (x : Nat),
    ((unpack f x).isNan = true → cvtToInt f rm lo hi x = (0, fIo)) ∧
    (∀ n, unpack f x = .inf n → cvtToInt f rm lo hi x = (if n then lo else hi, fIo)) ∧
    ∀ n m e, unpack f x = .fin n m e →
      let k : Int := if n then -((roundAt rm n m e false 0).1 : Int) else (roundAt rm n m e false 0).1
      (k < lo → cvtToInt f rm lo hi x = (lo, fIo)) ∧ (lo ≤ k → hi < k → cvtToInt f rm lo hi x = (hi, fIo)) ∧
      (lo ≤ k → k ≤ hi → (cvtToInt f rm lo hi x).1 = k)

/-- R37, R39, R40, R45, R46, R210, R211, R212: the M8 instructions; what a byte stands for, what a number becomes, the sum of vdot.m8. A tie
between two codes of one parity is a free choice of the model (log entry 11), and the 0 that a lane which parks gives an entry pushed to a
port is its choice (log entry 66). -/
def Obligations.M8Results : Prop :=
  (∀ (d a b : VReg) (st : Stall),
    (∀ rn : Bool, VecDoes (if rn then .pkM8Rn d a b st else .pkM8Rz d a b st) { vsrc := [(a, 2), (b, 2)], vdst := some (d, 1) } .main
      (fun v L =>
        let q := fun (f j : Nat) => m8OfF32 rn (arg (v.args L) f j).toNat
        { words := [BitVec.ofNat 32 ((q 0 0).1 + (q 0 1).1 * 2 ^ 8 + (q 1 0).1 * 2 ^ 16 + (q 1 1).1 * 2 ^ 24)]
          flags := (q 0 0).2 ||| (q 0 1).2 ||| (q 1 0).2 ||| (q 1 1).2 })) ∧
    (∀ n : BitVec 2, VecDoes (.upM8 n d a st) (use1 d a) .main
      (fun v L => outF (m8ToF32 ((arg (v.args L) 0).toNat / 2 ^ (8 * n.toNat) % 256)))) ∧
    VecDoes (.vdotM8 d a b st) (useRD d a b) .main (fun v L =>
      { words := [(vdotM8 (arg (v.args L) 0) (arg (v.args L) 1) (arg (v.args L) 2)).1]
        flags := (vdotM8 (arg (v.args L) 0) (arg (v.args L) 1) (arg (v.args L) 2)).2 })) ∧
  -- R37: the magnitude of a code, in units of 2^−21
  (∀ c, c < 128 → m8Mag c = if c = 0 then 0
    else if 64 ≤ c then (64 + (c - 64)) * 2 ^ 15
    else if 32 ≤ c then (16 + (c - 32) % 16) * 2 ^ (16 - (c - 32) / 16)
    else if 16 ≤ c then (4 + (c - 16) % 4) * 2 ^ (16 - (c - 16) / 4)
    else if 8 ≤ c then 2 ^ (14 - (c - 8)) else if 4 ≤ c then 2 ^ (6 - (c - 4)) else if 2 ≤ c then 2 ^ (2 - (c - 2)) else 1) ∧
  (∀ b, b < 256 → m8Val b = if b = 0x80 then none else some (decide (128 ≤ b), m8Mag (b % 128))) ∧
  -- R39: from FP32
  (∀ (rn : Bool) (x : Nat),
    ((unpack .f32 x).isNan = true ∨ (∃ n, unpack .f32 x = .inf n) → m8OfF32 rn x = (0x80, fIo)) ∧
    ∀ n m e, unpack .f32 x = .fin n m e →
      let exact := m * 2 ^ (e - min e (-21)).toNat
      let mag := fun c => m8Mag c * 2 ^ (-21 - min e (-21)).toNat
      (m = 0 → m8OfF32 rn x = (0, fNone)) ∧
      (mag 127 < exact → m8OfF32 rn x = (if n then 0xFF else 0x7F, fOf ||| fNx)) ∧
      (0 < m → exact ≤ mag 127 → ∃ c, c < 128 ∧ (m8OfF32 rn x).1 = (if c = 0 then 0 else if n then 128 + c else c) ∧
        (m8OfF32 rn x).2 = (if exact < mag 1 then fUf ||| fNx else if mag c = exact then fNone else fNx) ∧
        (rn = false → mag c ≤ exact ∧ ∀ c', c' < 128 → mag c' ≤ exact → mag c' ≤ mag c) ∧
        (rn = true → ∀ c', c' < 128 → ((exact : Int) - mag c).natAbs ≤ ((exact : Int) - mag c').natAbs ∧
          (((exact : Int) - mag c).natAbs = ((exact : Int) - mag c').natAbs → c % 2 = 1 → c' % 2 = 1)))) ∧
  -- R40: to FP32, exact
  (∀ b, b < 256 → (b = 0x80 → m8ToF32 b = (0x7FC00000, fIo)) ∧
    (b ≠ 0x80 → (m8ToF32 b).2 = fNone ∧ (m8ToF32 b).1 / 2 ^ 31 = b / 128 ∧
      Fmt.f32.units ((m8ToF32 b).1 % 2 ^ 31) = m8Mag (b % 128) * 2 ^ 128)) ∧
  -- R46: the sum
  ∀ a b d : Word,
    ((∃ i, i < 4 ∧ (byteAt a i = 0x80 ∨ byteAt b i = 0x80)) → vdotM8 a b d = (0x7FC00000#32, fIo)) ∧
    ((∀ i, i < 4 → byteAt a i ≠ 0x80 ∧ byteAt b i ≠ 0x80) →
      ((unpack .f32 d.toNat).isNan = true → vdotM8 a b d = (0x7FC00000#32, fIf (unpack .f32 d.toNat).sig fIo)) ∧
      (∀ n, unpack .f32 d.toNat = .inf n → vdotM8 a b d = (d, fNone)) ∧
      ∀ n m e, unpack .f32 d.toNat = .fin n m e → ∀ q : Int, q ≤ -42 → q ≤ e →
        let neg := fun i => decide (128 ≤ byteAt a i) != decide (128 ≤ byteAt b i)
        let mag := fun i => m8Mag (byteAt a i % 128) * m8Mag (byteAt b i % 128)
        let sum := ((List.range 4).map fun i => toUnits (neg i) (mag i) (-42) q).sum + toUnits n m e q
        let r := if sum = 0 then (Fmt.f32.sign (n && m == 0 && (List.range 4).all fun i => neg i && mag i == 0), fNone)
          else fromExact .f32 .rn false (decide (sum < 0)) sum.natAbs q
        vdotM8 a b d = (BitVec.ofNat 32 r.1, r.2))

/-- R213, R214, R215: every executing lane takes the register of its source lane as it stands before the exchange, or a port's
element; 0 from an absent lane and from a lane in whose window the name is out of range. It reads no bad register (R190). The 0 that a lane
which parks gives an entry pushed to a port is the model's choice (log entry 66). -/
def Obligations.LaneExchanges : Prop :=
  (∀ (d a b : VReg) (st : Stall),
    ExchangeDoes (.shflIdx d a b st) (useR d a b) (fun args _ => (arg args 1).toNat % 32)) ∧
  (∀ (d a : VReg) (n : BitVec 5) (st : Stall),
    ExchangeDoes (.shflUp d a n st) (use1 d a) (fun _ L => if L < n.toNat then L else L - n.toNat) ∧
    ExchangeDoes (.shflDn d a n st) (use1 d a) (fun _ L => if 31 < L + n.toNat then L else L + n.toNat) ∧
    ExchangeDoes (.shflXor d a n st) (use1 d a) (fun _ L => L ^^^ n.toNat)) ∧
  (∀ (d a : VReg) (st : Stall),
    ExchangeDoes (.qx .h d a st) (use1 d a) (fun _ L => L ^^^ 1) ∧
    ExchangeDoes (.qx .v d a st) (use1 d a) (fun _ L => L ^^^ 2) ∧
    ExchangeDoes (.qx .d d a st) (use1 d a) (fun _ L => L ^^^ 3) ∧
    ∀ n, ExchangeDoes (.qx (.bc n) d a st) (use1 d a) (fun _ L => 4 * (L / 4) + n.toNat)) ∧
  ∀ (A now : Nat) (G : Group) (i : Issue) (f : VReg) (j : Nat), isPort f = false →
    ((G.lane j).status = .absent → peek A now G i f j = 0#32) ∧
    (inRange A (G.lane j) f.toNat = false → peek A now G i f j = 0#32) ∧
    ((G.lane j).status ≠ .absent → inRange A (G.lane j) f.toNat = true → G.producer now (vKey A G j f.toNat) = none →
      peek A now G i f j = G.getKey (vKey A G j f.toNat))

/-- R216: votes over the counted lanes. -/
def Obligations.Votes : Prop :=
  ∀ (d : BitVec 7) (p : BitVec 4) (st : Stall),
    let u : Uses := { psrc := [p.toNat] }
    (d.toNat < 4 →
      Writes (.voteAny d p st) u false (fun s c =>
        [(.kp d.toNat, Word.ofBool (decide (∃ L ∈ countedLanes u noOwn s c, predOf s c p L = true)))]) noFlags ∧
      Writes (.voteAll d p st) u false (fun s c =>
        [(.kp d.toNat, Word.ofBool (decide (∀ L ∈ countedLanes u noOwn s c, predOf s c p L = true)))]) noFlags ∧
      Writes (.voteEq d p st) u false (fun s c =>
        [(.kp d.toNat, Word.ofBool (decide (∀ L ∈ countedLanes u noOwn s c, ∀ M ∈ countedLanes u noOwn s c,
          predOf s c p L = predOf s c p M)))]) noFlags) ∧
    ∀ s c, Issuing u noOwn s c → ∃ t w, exec (.voteBallot d p st) s = .next t ∧ Wrote u noOwn s c false [(kKey (s.issuer c) d, w)] 0#5 t ∧
      ∀ i, i < 32 → (w.getLsbD i = true ↔ i ∈ countedLanes u noOwn s c ∧ predOf s c p i = true)

/-- R47, R205, R217: combinations over the counted lanes, written once; what the integer combinations are, the tree of the floating-point
sum, and the least and greatest number. That a NaN which is passed on in the tree stands unchanged is the model's reading (log entry
67). -/
def Obligations.Reductions : Prop :=
  (∀ (op : ReduxOp) (d : KReg) (a : VReg) (st : Stall),
    let u : Uses := { vsrc := [(a, 1)] }
    let xs := fun s c => (countedLanes u noOwn s c).map fun L => (L, arg (opnds u noOwn s c L) 0)
    Writes (.redux op d a st) u true (fun s c => [(kKey (s.issuer c) d, (reduxVal op (xs s c)).1)]) (fun s c => (reduxVal op (xs s c)).2)) ∧
  ∀ xs : List (Nat × Word),
    (reduxVal .addS xs).1 = BitVec.ofNat 32 (xs.map fun x => x.2.toNat).sum ∧
    ((∀ x ∈ xs, (reduxVal .minS xs).1.toInt ≤ x.2.toInt) ∧ (reduxVal .minS xs).1 ∈ 0x7FFFFFFF#32 :: xs.map (·.2)) ∧
    ((∀ x ∈ xs, x.2.toInt ≤ (reduxVal .maxS xs).1.toInt) ∧ (reduxVal .maxS xs).1 ∈ 0x80000000#32 :: xs.map (·.2)) ∧
    ((∀ x ∈ xs, (reduxVal .minZ xs).1.toNat ≤ x.2.toNat) ∧ (reduxVal .minZ xs).1 ∈ 0xFFFFFFFF#32 :: xs.map (·.2)) ∧
    ((∀ x ∈ xs, x.2.toNat ≤ (reduxVal .maxZ xs).1.toNat) ∧ (reduxVal .maxZ xs).1 ∈ 0#32 :: xs.map (·.2)) ∧
    (∀ i, i < 32 → ((reduxVal .and xs).1.getLsbD i = true ↔ ∀ x ∈ xs, x.2.getLsbD i = true)) ∧
    (∀ i, i < 32 → ((reduxVal .or xs).1.getLsbD i = true ↔ ∃ x ∈ xs, x.2.getLsbD i = true)) ∧
    (∀ i, i < 32 → (reduxVal .xor xs).1.getLsbD i = decide ((xs.countP fun x => x.2.getLsbD i) % 2 = 1)) ∧
    (xs = [] → (reduxVal .fadd xs).1 = 0#32 ∧ (reduxVal .fmin xs).1 = 0x7F800000#32 ∧ (reduxVal .fmax xs).1 = 0xFF800000#32) ∧
    -- R47: of each lane its first value
    (let r := treeNode (fun L => (xs.find? fun x => x.1 == L).map fun x => x.2.toNat) 5 0
     reduxVal .fadd xs = (BitVec.ofNat 32 (r.1.getD 0), r.2)) ∧
    -- fmin, fmax: flags, NaNs, and numbers in their numeric order, −0 below +0
    ∀ wantMax : Bool, let r := reduxVal (if wantMax then .fmax else .fmin) xs
      let nan := fun (x : Nat × Word) => (unpack .f32 x.2.toNat).isNan
      r.2 = fIf (xs.any fun x => (unpack .f32 x.2.toNat).sig) fIo ∧
      (xs ≠ [] → (∀ x ∈ xs, nan x = true) → r.1 = 0x7FC00000#32) ∧
      ((∃ x ∈ xs, nan x = false) → ∃ x ∈ xs, nan x = false ∧ r.1 = x.2 ∧
        ∀ y ∈ xs, nan y = false → if wantMax then signOrder y.2 ≤ signOrder x.2 else signOrder x.2 ≤ signOrder y.2)

/-! ## Special registers, CSRs, tokens (R99-R112, R282) -/

/-- R112: what sread reads; `island` only in a privileged context. -/
def Obligations.SpecialReads : Prop :=
  (∀ (fn : SreadFn) (d : KReg) (st : Stall) s c, Issuing {} noOwn s c → (fn = .island → (s.ctxOf c.blk).priv = true) →
    let v := s.sreadVal (issueOf {} noOwn s c) fn
    let pair := fn = .tick ∨ fn = .frame ∨ fn = .join
    ∃ t, exec (.sread fn d st) s = .next t ∧
      Issued {} noOwn s c {
        keys := if pair then [kKey (s.issuer c) d, kKey (s.issuer c) d 1] else [kKey (s.issuer c) d]
        grp := fun G => { G with tickSeen := if fn = .tick then v else G.tickSeen } } t ∧
      t.reg c (kKey (s.issuer c) d) = BitVec.ofNat 32 v ∧ (pair → t.reg c (kKey (s.issuer c) d 1) = BitVec.ofNat 32 (v / 2 ^ 32)) ∧
      BlockKept s c t ∧ OnlyBlocks s t) ∧
  (∀ (s : State) (i : Issue),
    let b := s.blk i.c.blk
    s.sreadVal i .ctxid = b.ctx ∧ s.sreadVal i .core = i.c.core ∧ s.sreadVal i .slot = mget 0 b.slots i.c.grp ∧
    s.sreadVal i .group = i.c.grp ∧ s.sreadVal i .role = b.role ∧ s.sreadVal i .teamsz = (s.team b.team).size ∧
    s.sreadVal i .blockid = b.bid ∧ s.sreadVal i .lanes = b.lanes ∧ s.sreadVal i .frame = b.frame.toNat ∧
    s.sreadVal i .join = b.join.toNat ∧ s.sreadVal i .ubase = (b.grp i.c.grp).ubase ∧ s.sreadVal i .island = s.island.st ∧
    -- the tick lies within the skew of R4 of the global tick, and a group never reads a smaller one than before
    s.sreadVal i .tick ≤ max (s.tick + 8) (b.grp i.c.grp).tickSeen ∧ s.tick ≤ s.sreadVal i .tick + 8 ∧
    (b.grp i.c.grp).tickSeen ≤ s.sreadVal i .tick ∧
    (∀ L, i.c.run.head? = some L → 0 ≤ ((b.grp i.c.grp).lane L).w → (s.sreadVal i .wbase : Int) = ((b.grp i.c.grp).lane L).w) ∧
    (∀ L, L < 32 → ((s.sreadVal i .present).testBit L = true ↔
      ((b.grp i.c.grp).lane L).status ≠ .absent ∧ ((b.grp i.c.grp).lane L).helper = false)) ∧
    ∀ L, (s.sreadVal i .runmask).testBit L = true ↔ L ∈ i.c.run ∧ ((b.grp i.c.grp).lane L).inactive = false)

/-- R100, R104, R105: csrr reads a whole 32-bit value once every older instruction of the group has completed; an even half of a 64-bit
CSR latches the odd half, which the next csrr of that half returns; any CSR access discards what the group held. That the access issues
only then is the model's reading (log entries 5, 31). -/
def Obligations.CsrReads : Prop :=
  ∀ (d : KReg) (csr : BitVec 16) (st : Stall) s c, Issuing {} noOwn s c → s.csrIllegal c.blk csr.toNat = false →
    s.allComplete c.blk c.grp (s.cycleOf c.core) = true →
    let n := csr.toNat
    let v := s.csrValue c.blk c.grp n
    ∃ t, exec (.csrr d csr st) s = .next t ∧
      Issued {} noOwn s c { keys := [kKey (s.issuer c) d], grp := fun G => { G with
        wbuf := none, latch := if csrWide n then some (n + 1, BitVec.ofNat 32 (v / 2 ^ 32)) else none } } t ∧
      (∀ w, (s.issuer c).latch = some (n, w) → t.reg c (kKey (s.issuer c) d) = w) ∧
      ((∀ w, (s.issuer c).latch ≠ some (n, w)) →
        t.reg c (kKey (s.issuer c) d) = BitVec.ofNat 32 (if csrHalf n = true ∧ n % 2 = 1 then v / 2 ^ 32 else v)) ∧
      BlockKept s c t ∧ OnlyBlocks s t

/-- R100, R105, R106: csrw of a group CSR: FPCR, FPSR and the two halves of STKSAVE; what it takes, and what it refuses with
RESERVED_FIELD in every lane that executes. That an even half is checked with the odd one is the model's reading (log entry 31). -/
def Obligations.CsrWrites : Prop :=
  ∀ (csr : BitVec 16) (a : KReg) (st : Stall) s c, Issuing { ksrc := [(a, 1)] } noOwn s c → s.csrIllegal c.blk csr.toNat = false →
    s.allComplete c.blk c.grp (s.cycleOf c.core) = true →
    let w := kOpnd s c a
    ∃ t, exec (.csrw csr a st) s = .next t ∧ t.cur = some c ∧
      (csr = 0x0000#16 → w.toNat < 8 → (t.issuer c).fpcr = w) ∧
      (csr = 0x0001#16 → w.toNat < 32 → (t.issuer c).fpsr = w) ∧
      (csr = 0x0002#16 → (t.issuer c).wbuf = some (3, w) ∧ (t.issuer c).stksave = (s.issuer c).stksave) ∧
      (csr = 0x0003#16 → ∀ lo, (s.issuer c).wbuf = some (3, lo) → lo.toNat % 256 = 0 → (t.issuer c).stksave = dwordOf lo w) ∧
      (csr = 0x0012#16 → w.toNat < 2 → (t.ctxOf c.blk).sbchk = w) ∧
      (csr = 0x0014#16 → (t.ctxOf c.blk).quantum = w) ∧
      (csr = 0x0800#16 → w.toNat ≤ 2 ^ 30 → t.hretain = w) ∧
      (csr = 0x0800#16 → 2 ^ 30 < w.toNat → t.hretain = s.hretain) ∧
      ((csr = 0x0000#16 ∧ 8 ≤ w.toNat ∨ csr = 0x0001#16 ∧ 32 ≤ w.toNat ∨ csr = 0x0012#16 ∧ 2 ≤ w.toNat) →
        (t.issuer c).fpcr = (s.issuer c).fpcr ∧ (t.issuer c).fpsr = (s.issuer c).fpsr ∧
        ∀ L ∈ runs { ksrc := [(a, 1)] } noOwn s c, (s.lane c L).helper = false →
          (t.lane c L).status = .parked ∧ (t.lane c L).cause = mkCause c 2) ∧
      (∀ key, t.reg c key = s.reg c key) ∧ t.mem = s.mem

/-- R99, R106: an unassigned CSR number, and a device CSR from a context that is not privileged, are ILLEGAL: every lane of the run that
acts parks at the instruction with cause 1. That this comes before a reserved field is the model's reading (log entry 30). -/
def Obligations.CsrIllegal : Prop :=
  ∀ (csr : BitVec 16) (k : KReg) (st : Stall) s c, s.cur = some c → c.run.Nodup → s.csrIllegal c.blk csr.toNat = true →
    (∃ t, exec (.csrr k csr st) s = .next t ∧ ∀ L ∈ acting s c, (s.lane c L).helper = false →
      t.lane c L = { s.lane c L with status := .parked, cause := mkCause c 1 }) ∧
    ∃ t, exec (.csrw csr k st) s = .next t ∧ ∀ L ∈ acting s c, (s.lane c L).helper = false →
      t.lane c L = { s.lane c L with status := .parked, cause := mkCause c 1 }

/-- R282, R290: waitt goes on when no entry of its tokens is outstanding and none is suspended by a fault; the floor rises to the stamps
of what it covers. That it issues only then is the model's reading (log entry 5). -/
def Obligations.TokenWaits : Prop :=
  ∀ (mask : BitVec 8) (st : Stall) s c, Issuing {} noOwn s c →
    (∀ tok, mask.getLsbD tok = true → (s.issuer c).token tok = 0) →
    s.engineFault c.blk c.grp (fun tok => mask.getLsbD tok) true = none →
    ∃ t, exec (.waitt mask st) s = .next t ∧ t.cur = some c ∧ (s.issuer c).floor ≤ (t.issuer c).floor ∧
      (∀ tok, tok < 8 → mask.getLsbD tok = true → (mget {} (s.issuer c).covered tok : Cover).stamp ≤ (t.issuer c).floor) ∧
      (∀ L ∈ runs {} noOwn s c, (t.lane c L).pc = pcAfter (s.lane c L).pc c.words) ∧
      (∀ key, t.reg c key = s.reg c key) ∧ BlockKept s c t ∧ OnlyBlocks s t

/-! ## Control flow (R148-R164, R185-R187) -/

/-- R155, R156, R159, R160: where bra, jmp, call, callr and ret go, what they trap on, and what a call and a return leave of the window
and the link. That a target wraps modulo 2^57 is the model's reading (log entry 25). -/
def Obligations.ControlTransfers : Prop :=
  (∀ (sel : Sel) (off : BitVec 14) (st : Stall), Leaves (.bra sel off st) (Sel.uses sel) (fun _ _ => noOwn) fun s c =>
    { jump := fun L => if selOf s c sel L then some (targetOf c.pc off) else none }) ∧
  (∀ (a : VReg) (st : Stall), Leaves (.jmp a st) { vsrc := [(a, 2)] }
    (fun s c L => if vPair s c L a % 4 ≠ 0 ∨ 2 ^ 57 ≤ vPair s c L a then some (mkCause c 5) else none)
    fun s c => { jump := fun L => some (vPair s c L a) }) ∧
  (∀ (shift : BitVec 7) (off : BitVec 14) (a : VReg) (st : Stall),
    -- the window of the callee must have 16 entries left (REG_RANGE, else SPILL)
    let room : State → Cur → Own := fun s c L =>
      if ((s.blk c.blk).A : Int) - ((s.lane c L).w + shift.toNat) < 16 then some (mkCause c (if (s.lane c L).w < 64 then 3 else 7)) else none
    let key := fun (s : State) (c : Cur) (L j : Nat) =>
      RegKey.v L (((s.lane c L).base + (shift.toNat : Int) + (j : Int)) % ((s.blk c.blk).A : Int)).toNat
    let link := fun (c : Cur) => pcAfter c.pc c.words
    let does := fun (i : Instr) (u : Uses) (own : State → Cur → Own) (target : State → Cur → Nat → Nat) =>
      ∀ s c, Issuing u (own s c) s c → 2 ≤ (s.blk c.blk).A → ∃ t, exec i s = .next t ∧
        Issued u (own s c) s c { keys := (runs u (own s c) s c).flatMap fun L => [key s c L 0, key s c L 1]
                                 jump := fun L => some (target s c L)
                                 lane := fun _ l => { l with base := l.base + (shift.toNat : Int) } } t ∧
        (∀ L ∈ runs u (own s c) s c, t.reg c (key s c L 0) = BitVec.ofNat 32 (link c) ∧
          t.reg c (key s c L 1) = BitVec.ofNat 32 (shift.toNat * 2 ^ 25 + link c / 2 ^ 32)) ∧ BlockKept s c t ∧ OnlyBlocks s t
    does (.call shift off st) {} room (fun _ c _ => targetOf c.pc off) ∧
    does (.callr shift a st) { vsrc := [(a, 2)] }
      (fun s c L => if vPair s c L a % 4 ≠ 0 ∨ 2 ^ 57 ≤ vPair s c L a then some (mkCause c 5) else room s c L) (fun s c L => vPair s c L a)) ∧
  ∀ st : Stall, Leaves (.ret st) { vsrc := [(0#7, 2)] }
    (fun s c L =>
      let shift : Nat := vPair s c L 0#7 / 2 ^ 57
      if shift % 8 ≠ 0 ∨ 112 < shift ∨ vPair s c L 0#7 % 4 ≠ 0 then some (mkCause c 5)
      else if (s.lane c L).w < (shift : Int) then some (mkCause c 8) else none)
    fun s c => {
      jump := fun L => some (vPair s c L 0#7 % 2 ^ 57)
      lane := fun L l => { l with base := l.base - ((vPair s c L 0#7 / 2 ^ 57 : Nat) : Int) } }

/-- R72, R154, R158, R162, R164: nop, guard, win, wink, yield. -/
def Obligations.WindowsAndGuards : Prop :=
  (∀ st : Stall, Leaves (.nop st) {} (fun _ _ => noOwn) fun _ _ => {}) ∧
  (∀ (sel : Sel) (n : BitVec 4) (st : Stall), Leaves (.guard sel n st) (Sel.uses sel) (fun _ _ => noOwn) fun s c =>
    { guard := fun L => some (selOf s c sel L, n.toNat) }) ∧
  (∀ (b : BitVec 7) (st : Stall),
    Leaves (.win b st) {} (fun s c _ => if (s.blk c.blk).A ≤ 8 * b.toNat then some (mkCause c 3) else none) (fun _ _ =>
      { lane := fun _ l => { l with base := l.low + 8 * (b.toNat : Int) } }) ∧
    Leaves (.wink b st) {} (fun _ _ => noOwn) fun _ _ => { grp := fun G => { G with ubase := 32 * b.toNat } }) ∧
  ∀ (st : Stall) s c, Issuing {} noOwn s c → ∃ t, exec (.yield st) s = .next t ∧
    Issued {} noOwn s c { grp := fun G => { G with streak := 0, round := (t.issuer c).round } } t ∧
    (t.issuer c).round.Pairwise (· < ·) ∧
    (∀ pc, pc ∈ (t.issuer c).round ↔ ∃ L, L < 32 ∧ L ∉ c.run ∧ (s.lane c L).status = .active ∧ (s.lane c L).pc = pc) ∧
    BlockKept s c t ∧ OnlyBlocks s t

/-- R175, R186, R111, R185, R189: region and drainst take a new region entry, chkerr reads the kernel's check-interval register and clears
it, trap and brk park every acting lane. -/
def Obligations.RegionsAndChecks : Prop :=
  (∀ st : Stall,
    let entry := fun (s : State) (c : Cur) (pc : Nat) =>
      ({ lane := fun L l => { l with region := {
          pc := pc, low := l.low, base := l.base, stack := l.stack, preds := l.preds, gflag := l.gflag, gcount := l.gcount
          waits := (s.issuer c).waits L, at_ := s.fresh + 1 } } } : Eff)
    ∀ s c, Issuing {} noOwn s c → Delivered .full true {} noOwn s c →
      (∃ t, exec (.region st) s = .next t ∧ Issued {} noOwn s c (entry s c c.pc) t ∧ BlockKept s c t ∧ OnlyBlocks s t) ∧
      ∃ t, exec (.drainst st) s = .next t ∧ Issued {} noOwn s c (entry s c (pcAfter c.pc 1)) t ∧ BlockKept s c t ∧ OnlyBlocks s t) ∧
  (∀ (d : KReg) (st : Stall) s c, Issuing {} noOwn s c → ∃ t, exec (.chkerr d st) s = .next t ∧
    Issued {} noOwn s c { keys := [kKey (s.issuer c) d] } t ∧
    -- the issue ends an open interval first, which is itself an event (R189)
    t.reg c (kKey (s.issuer c) d) = (if (s.blk c.blk).interval.opened = true ∧ (s.blk c.blk).interval.flag = true
      then cirEvent (s.kernel (s.blk c.blk).kernel).cir 8 else (s.kernel (s.blk c.blk).kernel).cir) ∧
    t.kernel (s.blk c.blk).kernel = { s.kernel (s.blk c.blk).kernel with cir := 0#32 } ∧
    (∀ n, n ≠ (s.blk c.blk).kernel → t.kernel n = s.kernel n) ∧ t.mem = s.mem) ∧
  ∀ (n : BitVec 7) (st : Stall) s c, AtIssue s c →
    (∃ t, exec (.trap n st) s = .next t ∧ Parks s c (mkCause c 9 n.toNat) t) ∧
    ∃ t, exec (.brk st) s = .next t ∧ Parks s c (mkCause c 10) t

/-- R163, R153, R175, R277-R280: a lane that reaches a meet or a barrier waits there; when the last one arrives the waiting lanes go on,
at a meet those of the smallest PC. That a meet in trap mode concerns the served lanes is the model's reading (log entry 14). -/
def Obligations.MeetsAndBarriers : Prop :=
  ∀ (st : Stall) s c, Issuing {} noOwn s c → Delivered .full true {} noOwn s c →
    let L' := runs {} noOwn s c
    -- meet: the lanes it concerns, after the arrival
    (let all := (if (s.issuer c).trapped then (s.issuer c).served else (s.issuer c).present).filter fun L => !(s.lane c L).isOver && !(s.lane c L).helper
     ∃ t, exec (.meet st) s = .next t ∧
      ((∃ M ∈ all, M ∉ L' ∧ (s.lane c M).status ≠ .meet) → ∀ L ∈ L', waitsAt s c .meet t L) ∧
      ((s.issuer c).live = true → all ≠ [] → (∀ M ∈ all, M ∈ L' ∨ (s.lane c M).status = .meet) → ∀ L ∈ all,
        ((∀ M ∈ all, (s.lane c L).pc ≤ (s.lane c M).pc) → GoesOn s t c.blk c.grp L (s.lane c L).pc) ∧
        ((∃ M ∈ all, (s.lane c M).pc < (s.lane c L).pc) → (t.lane c L).status = .meet ∧ (t.lane c L).pc = (s.lane c L).pc))) ∧
    (EnginesRun s c →
      -- bar.blk and bar.blk.r: every lane of the block that has not ended
      (let all := (s.blk c.blk).liveLanes
       let there := fun (x : Nat × Nat) => x.1 = c.grp ∧ x.2 ∈ L' ∨ (((s.blk c.blk).grp x.1).lane x.2).status.atBlk = true
       ∀ r : Bool, ∃ t, exec (if r then .barBlkR st else .barBlk st) s = .next t ∧
        ((∃ x ∈ all, ¬ there x) ∨ s.quiet c.blk .blk = false → ∀ L ∈ L', waitsAt s c (if r then .barBlkR else .barBlk) t L) ∧
        ((s.blk c.blk).live = true → ((s.blk c.blk).groups.map (·.1)).Pairwise (· < ·) → all ≠ [] → (∀ x ∈ all, there x) → s.quiet c.blk .blk = true →
          (∀ x ∈ all, GoesOn s t c.blk x.1 x.2 (((s.blk c.blk).grp x.1).lane x.2).pc) ∧
          ((t.blk c.blk).interval.opened = true ↔ ∀ x ∈ all, (x.1 = c.grp ∧ x.2 ∈ L' ∧ r = true) ∨
            ¬ (x.1 = c.grp ∧ x.2 ∈ L') ∧ (((s.blk c.blk).grp x.1).lane x.2).status = .barBlkR))) ∧
      -- bar.team: a block of the team that has not arrived keeps it back
      (let team := (s.blk c.blk).team
       let others := ((s.team team).blocks.map fun x => x.2 - 1).filter fun u => (s.blk u).live && u != c.blk
       let here := ∀ x ∈ (s.blk c.blk).liveLanes, x.1 = c.grp ∧ x.2 ∈ L' ∨ (((s.blk c.blk).grp x.1).lane x.2).status = .barTeam
       ∃ t, exec (.barTeam st) s = .next t ∧
        ((∃ u ∈ others, s.teamHere u = false) → ∀ L ∈ L', waitsAt s c .barTeam t L) ∧
        ((s.blk c.blk).live = true → c.blk ∈ (s.team team).blocks.map (fun x => x.2 - 1) →
          ((s.blk c.blk).groups.map (·.1)).Pairwise (· < ·) → (s.issuer c).live = true → (s.blk c.blk).liveLanes ≠ [] →
          here → s.quiet c.blk .team = true → (∀ u ∈ others, s.teamHere u = true) →
          ∀ L ∈ L', GoesOn s t c.blk c.grp L (s.lane c L).pc)))

/-- R143: exit ends its lanes, and the group when no present lane is left; exit.grp ends every lane, clears the tokens and cuts the block
short. The loads of an ended group are discarded. -/
def Obligations.GroupEnds : Prop :=
  (∀ (st : Stall) s c, Issuing {} noOwn s c → Delivered .full true {} noOwn s c → EnginesRun s c → ∃ t, exec (.exit st) s = .next t ∧
    ((∃ M ∈ (s.issuer c).present, M ∉ runs {} noOwn s c ∧ (s.lane c M).status ≠ .ended) →
      (t.issuer c).live = (s.issuer c).live ∧
      ∀ L ∈ runs {} noOwn s c, (t.lane c L).status = .ended ∧ (t.lane c L).pc = c.pc ∧ (t.lane c L).stack = (s.lane c L).stack) ∧
    ((s.issuer c).live = true → (∀ M ∈ (s.issuer c).present, M ∈ runs {} noOwn s c ∨ (s.lane c M).status = .ended) →
      (t.issuer c).live = false ∧ (t.issuer c).cut = (s.issuer c).cut ∧ (t.blk c.blk).cut = (s.blk c.blk).cut ∧
      (∀ L, L < 32 → (t.lane c L).isOver = true) ∧
      ∀ p ∈ t.pend, p.blk = c.blk → p.grp = c.grp → p.kind ≠ .load ∧ p.kind ≠ .asof)) ∧
  ∀ (st : Stall) s c, Issuing {} noOwn s c → ∃ t, exec (.exitGrp st) s = .next t ∧
    (t.issuer c).live = false ∧ (t.issuer c).cut = true ∧ (t.issuer c).tokens = [] ∧ (t.issuer c).trapped = false ∧
    (t.blk c.blk).cut = true ∧ (∀ L, L < 32 → (t.lane c L).isOver = true) ∧
    (t.kernel (s.blk c.blk).kernel).cutGroups = min ((s.kernel (s.blk c.blk).kernel).cutGroups + 1) 0xFFFF ∧
    (∀ p ∈ t.pend, p.blk = c.blk → p.grp = c.grp → p.kind ≠ .load ∧ p.kind ≠ .asof) ∧ t.mem = s.mem

/-- R181: at a delivery point the lanes that hold store-fault records park with STORE_FAULT, and the others execute. -/
def Obligations.StoreFaultDelivery : Prop :=
  ∀ (k : FenceKind) (sc : Scope) (st : Stall), ∀ i ∈ [Instr.region st, .drainst st, .fence k sc st], ∀ s c, Issuing {} noOwn s c →
    deliveryWait .full true s (issueOf {} noOwn s c) = none → ∃ t, exec i s = .next t ∧
      (∀ L ∈ runs {} noOwn s c, (s.issuer c).holdsRecord L = true → (s.lane c L).helper = false →
        t.lane c L = { s.lane c L with status := .parked, cause := mkCause c 15 }) ∧
      (∀ L ∈ runs {} noOwn s c, (s.issuer c).holdsRecord L = false ∨ (s.lane c L).helper = true →
        (t.lane c L).status = .active ∧ (t.lane c L).pc = pcAfter c.pc c.words) ∧
      ∀ key, t.reg c key = s.reg c key

/-- R17, R173: the lanes served next: of the parked lanes, helpers excepted, those whose cause comes first in R173's order, of these those
of the least PC; for an issue cause all of them. When an entry comes is the model's reading (log entry 27). -/
def Obligations.ServedSet : Prop :=
  ∀ G : Group,
    let waits := fun M => M < 32 ∧ (G.lane M).status = .parked ∧ (G.lane M).helper = false
    (∀ L ∈ G.serve, waits L ∧
      (∀ M, waits M → causeRank (G.lane L).cause.code ≤ causeRank (G.lane M).cause.code) ∧
      ∀ M, waits M → causeRank (G.lane M).cause.code = causeRank (G.lane L).cause.code → (G.lane L).pc ≤ (G.lane M).pc) ∧
    (G.serve = [] ↔ ∀ M, ¬ waits M) ∧
    ∀ L ∈ G.serve, isLate (G.lane (G.serve.headD 0)).cause = false → ∀ M, waits M →
      causeRank (G.lane M).cause.code = causeRank (G.lane L).cause.code → (G.lane M).pc = (G.lane L).pc → M ∈ G.serve

/-- R107, R108, R154, R172, R173, R179, R182, R192, R228: taking a trap: where the pc and the cause are saved, what is stored, where the
served lanes go on, and the trap in trap mode. An entry whose stores go through and none of which waits is made. That the guard window is
set aside is the model's reading (log entry 28). -/
def Obligations.TrapTaking : Prop :=
  (∀ (u g : Nat) (s s' : State), s.entryReady u g = true → (s.ctx (s.blk u).ctx).trapvec ≠ 0#64 →
    NoneWaits (s.blk u).ctx ((s.blk u).core.getD 0) s (entryStores s u g) →
    StoresGo (s.blk u).ctx ((s.blk u).core.getD 0) (s.grp u g).floor s (entryStores s u g) s' →
    ∃ t, exec (.trapEntry u g) s = .next t ∧ Entered s u g s' t) ∧
  ∀ (u g : Nat) (s : State), ∃ t, exec (.trapEntry u g) s = .next t ∧
    let vec := (s.ctx (s.blk u).ctx).trapvec
    (s.entryReady u g = false → t = s) ∧
    (s.entryReady u g = true → vec = 0#64 → (t.grp u g).live = false ∧ (t.grp u g).cut = true ∧
      (t.kernel (s.blk u).kernel).cir.getLsbD 6 = true) ∧
    ∀ s', s.entryReady u g = true → vec ≠ 0#64 →
      s.devStores (s.blk u).ctx ((s.blk u).core.getD 0) (some (s.blk u).kernel) (s.grp u g).floor (entryStores s u g) = .ok s' →
      Entered s u g s' t

/-- R187, R161, R174: rett: outside trap mode ILLEGAL; in trap mode the served lanes go on at TPC, their base raised by 16 (after SPILL
and FILL restored), the 16 entries below it reloaded, and the parked lanes that were not served become active. The order of the frame's
reload and the guard window are the model's readings (log entries 28, 29). -/
def Obligations.TrapReturn : Prop :=
  (∀ (st : Stall) s c, AtIssue s c → (s.issuer c).trapped = false → ∃ t, exec (.rett st) s = .next t ∧ Parks s c (mkCause c 1) t) ∧
  ∀ (st : Stall) s c (ws : Nat → List Word), Issuing {} noOwn s c → (s.issuer c).trapped = true → 16 ≤ (s.blk c.blk).A →
    acting s c = (s.issuer c).served.filter (fun L => !(s.lane c L).isOver) →
    s.hiddenWrites (issueOf {} noOwn s c) = false →
    (∀ L ∈ acting s c, ({ s with fresh := s.fresh + 1 }).frameLoad c.blk c.grp L = .ok (ws L)) →
    let code := (s.issuer c).tcause.toNat % 256
    ∃ t, exec (.rett st) s = .next t ∧ (t.issuer c).trapped = false ∧ (t.issuer c).served = [] ∧
      (∀ L ∈ acting s c,
        (t.lane c L).status = .active ∧ (t.lane c L).pc = (s.issuer c).tpc.toNat ∧
        (t.lane c L).gflag = (s.lane c L).trapFlag ∧ (t.lane c L).gcount = (s.lane c L).trapCount ∧
        (t.lane c L).base = (if code = 7 ∨ code = 8 then (s.lane c L).trapBase else (s.lane c L).base + 16) ∧
        (t.lane c L).low = (if code = 7 then (s.lane c L).low + 64 else if code = 8 then (s.lane c L).low - 64 else (s.lane c L).low) ∧
        (∀ j : Nat, j < 16 → mget 0#32 (t.lane c L).stack (((t.lane c L).base - 16 + (j : Int)) % ((s.blk c.blk).A : Int)).toNat = (ws L).getD j 0#32) ∧
        ∀ slot : Nat, (∀ j : Nat, j < 16 → (((t.lane c L).base - 16 + (j : Int)) % ((s.blk c.blk).A : Int)).toNat ≠ slot) →
          mget 0#32 (t.lane c L).stack slot = mget 0#32 (s.lane c L).stack slot) ∧
      (∀ L, L < 32 → L ∉ acting s c → (s.lane c L).status = .parked → t.lane c L = { s.lane c L with status := .active }) ∧
      t.mem = s.mem ∧ t.pend = s.pend

/-! ## Memory instructions (R221-R256) -/

/-- R221-R225, R233, R234, R236, R237: a global load or store that issues puts one operation in flight for each lane that executes (a
store none for a helper lane), `kld` and `kst` one for the group, each at its lane's address, of its width, with its order; a load's
destination waits for memory. A misaligned lane parks. -/
def Obligations.GlobalAccesses : Prop :=
  (∀ (w : Sys2Proof.Width) (ord : Option Scope) (d a : VReg) (st : Stall),
    let u : Uses := { vsrc := [(a, 2)], vdst := some (d, Width.regs w) }
    let own : State → Cur → Own := fun s c => alignOwn c (fun L => vPair s c L a) (Width.bytes w)
    Sends (.ldG w false ord d a st) .access ord.isSome u own noEff (fun s c => (runs u (own s c) s c).map fun L => { flown s c with
      kind := .load, lanes := [L], helper := (s.lane c L).helper, addr := vPair s c L a, size := Width.bytes w
      dest := destKeys (s.blk c.blk).A (s.issuer c) L d (Width.regs w), acq := ord }) false) ∧
  (∀ (w : Sys2Proof.Width) (nt : Bool) (ord : Option Scope) (d a : VReg) (st : Stall),
    let u : Uses := { vsrc := [(d, Width.regs w), (a, 2)] }
    let own : State → Cur → Own := fun s c => alignOwn c (fun L => vPair s c L a) (Width.bytes w)
    Sends (.stG w nt ord d a st) (if ord.isSome then .full else .none) ord.isSome u own noEff (fun s c =>
      (countedLanes u (own s c) s c).map fun L => { flown s c with
        kind := .store, lanes := [L], addr := vPair s c L a, size := Width.bytes w, data := dataOf u (own s c) s c (Width.bytes w) L
        rel := ord, nt := nt }) false) ∧
  (∀ (d : VReg) (a : KReg) (b : VReg) (st : Stall),
    let u : Uses := { vsrc := [(d, 1), (b, 1)], ksrc := [(a, 2)] }
    let addr := fun (s : State) (c : Cur) (L : Nat) => (kPair s c a + (vWord s c L b.toNat).toNat) % 2 ^ 64
    let own : State → Cur → Own := fun s c => alignOwn c (addr s c) 4
    Sends (.stxG d a b st) .none false u own noEff (fun s c => (countedLanes u (own s c) s c).map fun L => { flown s c with
      kind := .store, lanes := [L], addr := addr s c L, size := 4, data := dataOf u (own s c) s c 4 L }) false) ∧
  (∀ (w : Sys2Proof.Width) (ord : Option Scope) (d a : KReg) (st : Stall),
    let u : Uses := { ksrc := [(a, 2)] }
    let own : State → Cur → Own := fun s c => alignOwn c (fun _ => kPair s c a) (Width.bytes w)
    Sends (.kld w ord d a st) .access ord.isSome u own noEff (fun s c => [{ flown s c with
      kind := .load, lanes := runs u (own s c) s c, uniform := true, helper := (countedLanes u (own s c) s c).isEmpty, addr := kPair s c a
      size := Width.bytes w, dest := (List.range (Width.regs w)).map fun j => kKey (s.issuer c) d j, acq := ord }]) false) ∧
  ∀ (w : Sys2Proof.Width) (nt : Bool) (ord : Option Scope) (d a : KReg) (st : Stall),
    let u : Uses := { ksrc := [(a, 2), (d, Width.regs w)] }
    let own : State → Cur → Own := fun s c => alignOwn c (fun _ => kPair s c a) (Width.bytes w)
    Sends (.kst w nt ord d a st) (if ord.isSome then .full else .none) ord.isSome u own noEff (fun s c =>
      if (countedLanes u (own s c) s c).isEmpty then [] else [{ flown s c with
        kind := .store, lanes := countedLanes u (own s c) s c, uniform := true, addr := kPair s c a, size := Width.bytes w
        data := (wordBytes ((List.range (Width.regs w)).map fun j => kOpnd s c d j)).take (Width.bytes w), rel := ord, nt := nt }]) false

/-- R167-R169, R235, R248-R250: a reuse load and an as-of load issue as loads do, or a memo entry of the quarter serves them; an as-of
load whose stamp is not settled waits, or with `.nb` answers at once with its status 0. That no entry is made for a peer's line is the
model's choice (log entry 12), and that a load that waits for its stamp has not issued is its reading (log entry 5). -/
def Obligations.ReuseLoads : Prop :=
  (∀ (w : Sys2Proof.Width) (ord : Option Scope) (d a : VReg) (st : Stall) s c, isPort d = false →
    let u : Uses := { vsrc := [(a, 2)], vdst := some (d, Width.regs w) }
    let own := alignOwn c (fun L => vPair s c L a) (Width.bytes w)
    Issuing u own s c → Delivered .access ord.isSome u own s c → ∃ t, exec (.ldG w true ord d a st) s = .next t ∧
      (Flies u own s c { grp := fun G => { G with memoWait := (t.issuer c).memoWait } } ((runs u own s c).map fun L => { flown s c with
        kind := .load, lanes := [L], helper := (s.lane c L).helper, addr := vPair s c L a, size := Width.bytes w
        dest := destKeys (s.blk c.blk).A (s.issuer c) L d (Width.regs w), acq := ord, ru := true }) true false t ∨
      Reused u own s c d (Width.regs w) false 0 [] t)) ∧
  (∀ (d : VReg) (a : KReg) (b : VReg) (st : Stall) s c, isPort d = false →
    let u : Uses := { vsrc := [(b, 1)], vdst := some (d, 1), ksrc := [(a, 2)] }
    let addr := fun (L : Nat) => (kPair s c a + (vWord s c L b.toNat).toNat) % 2 ^ 64
    let own := alignOwn c addr 4
    Issuing u own s c → Delivered .access false u own s c → ∃ t, exec (.ldxG d a b st) s = .next t ∧
      (Flies u own s c { grp := fun G => { G with memoWait := (t.issuer c).memoWait } } ((runs u own s c).map fun L => { flown s c with
        kind := .load, lanes := [L], helper := (s.lane c L).helper, addr := addr L, size := 4
        dest := destKeys (s.blk c.blk).A (s.issuer c) L d 1, ru := true }) true false t ∨
      Reused u own s c d 1 false 0 [] t)) ∧
  ∀ (w : Sys2Proof.Width) (stamp : KReg) (nb : Bool) (status : BitVec 4) (d a : VReg) (st : Stall) s c, isPort d = false →
    status.toNat < 12 ∨ status.toNat = 15 →
    let pred := (statusPred status).toList
    let u : Uses := { vsrc := [(a, 2)], vdst := some (d, Width.regs w), ksrc := [(stamp, 2)], pdst := pred }
    let own := alignOwn c (fun L => vPair s c L a) (Width.bytes w)
    let S := kPair s c stamp
    Issuing u own s c → Delivered .access false u own s c →
      (S ≤ s.settled c.core → ∃ t, exec (.ldAsof w stamp nb status d a st) s = .next t ∧
        (Flies u own s c { grp := fun G => { G with memoWait := (t.issuer c).memoWait } } ((runs u own s c).map fun L => { flown s c with
          kind := .asof, lanes := [L], helper := (s.lane c L).helper, addr := vPair s c L a, size := Width.bytes w
          dest := destKeys (s.blk c.blk).A (s.issuer c) L d (Width.regs w), asofS := S
          status := (statusPred status).map fun n => RegKey.p L n }) true false t ∨
        Reused u own s c d (Width.regs w) true S pred t)) ∧
      (s.settled c.core < S → nb = true → ∃ t, exec (.ldAsof w stamp nb status d a st) s = .next t ∧ t.pend = s.pend ∧
        Issued u own s c { keys := (runs u own s c).flatMap fun L => dests u s c L ++ pred.map fun n => RegKey.p L n } t ∧
        (∀ L ∈ runs u own s c, ∀ n ∈ pred, t.reg c (.p L n) = 0#32) ∧
        (∀ L ∈ runs u own s c, Holds s c t L d (Width.regs w) (List.replicate (Width.regs w) 0#32))) ∧
      (s.settled c.core < S → nb = false →
        exec (.ldAsof w stamp nb status d a st) s = .next { s with cur := some { c with wait := some .historyWait } })

/-- R222, R238-R240, R242: block memory and the lane's pocket: what ld.s and st.s put in flight, what ld.l reads and st.l writes. -/
def Obligations.BlockAndPocketAccesses : Prop :=
  (∀ (w : Sys2Proof.Width) (fe clr : Bool) (d a : VReg) (st : Stall),
    let u : Uses := { vsrc := [(a, 1)], vdst := some (d, Width.regs w) }
    let addr := fun (s : State) (c : Cur) (L : Nat) => (vWord s c L a.toNat).toNat
    let own : State → Cur → Own := fun s c => bmOwn s c (addr s c) (Width.bytes w)
    Sends (.ldS w fe clr d a st) .none false u own (fun s _ => { grp := fun G => if fe then { G with feWait := some s.fresh } else G })
      (fun s c => (runs u (own s c) s c).map fun L => { flown s c with
        kind := .load, bm := true, lanes := [L], helper := (s.lane c L).helper, addr := addr s c L, size := Width.bytes w
        dest := destKeys (s.blk c.blk).A (s.issuer c) L d (Width.regs w), fe := fe, clr := clr
        due := if fe then none else some (s.cycleOf c.core + 24
          + 2 * (bankWays ((runs u (own s c) s c).map fun M => (addr s c M, Width.bytes w)) - 1)) }) false) ∧
  (∀ (w : Sys2Proof.Width) (fe : Bool) (d a : VReg) (st : Stall),
    let u : Uses := { vsrc := [(d, Width.regs w), (a, 1)] }
    let addr := fun (s : State) (c : Cur) (L : Nat) => (vWord s c L a.toNat).toNat
    let own : State → Cur → Own := fun s c => bmOwn s c (addr s c) (Width.bytes w)
    Sends (.stS w fe d a st) .none false u own noEff (fun s c => (countedLanes u (own s c) s c).map fun L => { flown s c with
      kind := .store, bm := true, lanes := [L], addr := addr s c L, size := Width.bytes w
      data := dataOf u (own s c) s c (Width.bytes w) L, fe := fe }) false) ∧
  (∀ (w : Sys2Proof.Width) (d a : VReg) (st : Stall) s c, isPort d = false →
    let u : Uses := { vsrc := [(a, 1)], vdst := some (d, Width.regs w) }
    let addr := fun (L : Nat) => (vWord s c L a.toNat).toNat
    let own := pocketOwn c addr (Width.bytes w)
    Issuing u own s c → ∃ t, exec (.ldL w d a st) s = .next t ∧
      Issued u own s c { keys := (runs u own s c).flatMap fun L => dests u s c L } t ∧
      (∀ L ∈ runs u own s c, Holds s c t L d (Width.regs w) (bytesWords (rdBytes (s.lane c L).pocket (addr L) (Width.bytes w)))) ∧
      BlockKept s c t ∧ OnlyBlocks s t) ∧
  ∀ (w : Sys2Proof.Width) (d a : VReg) (st : Stall),
    let u : Uses := { vsrc := [(d, Width.regs w), (a, 1)] }
    let addr := fun (s : State) (c : Cur) (L : Nat) => (vWord s c L a.toNat).toNat
    let own : State → Cur → Own := fun s c => pocketOwn c (addr s c) (Width.bytes w)
    Leaves (.stL w d a st) u own fun s c => { lane := fun L l => if l.helper then l else { l with
      pocket := wrBytes l.pocket (addr s c L) (dataOf u (own s c) s c (Width.bytes w) L) } }

/-- R243-R246, R189: an atomic puts one operation in flight for each executing lane that is no helper, with its operand, or for `cas` the
value compared and the new one; one other than `.sp` ends an interval's flag. A helper lane's destination becomes 0. -/
def Obligations.Atomics : Prop :=
  ∀ (spec : AtomSpec) (d a b : VReg) (st : Stall) s c, isPort d = false → isPort b = false →
    let n := atomBytes spec.ty
    let does := fun (i : Instr) (u : Uses) (own : Own) (del : Delivery) (bm : Bool) (addr : Nat → Nat) =>
      Issuing u own s c → Delivered del (spec.use != .sp) u own s c → ∃ t, exec i s = .next t ∧
        Flies u own s c
          { keys := if spec.noret then [] else ((runs u own s c).filter fun L => (s.lane c L).helper).flatMap fun L => dests u s c L }
          ((countedLanes u own s c).map fun L =>
            let bs := wordBytes ((opnds u own s c L).getD 1 [])
            { flown s c with
              kind := .atomic, bm := bm, lanes := [L], addr := addr L, size := n, atom := some spec
              data := if spec.op = .cas then bs.drop n else bs
              cmp := if spec.op = .cas then bs.take n else []
              acq := if spec.ord = .acq ∨ spec.ord = .acqrel then some spec.scope else none
              rel := if spec.ord = .rel ∨ spec.ord = .acqrel then some spec.scope else none
              dest := if spec.noret then [] else destKeys (s.blk c.blk).A (s.issuer c) L d (n / 4) })
          false (spec.use != .sp && !(countedLanes u own s c).isEmpty) t ∧
        (spec.noret = false → ∀ L ∈ runs u own s c, (s.lane c L).helper = true → Holds s c t L d (n / 4) (List.replicate (n / 4) 0#32))
    does (.atomG spec d a b st) (atomUses spec d a b 2) (alignOwn c (fun L => vPair s c L a) n)
      (if (atomRel spec).isSome then .full else .access) false (fun L => vPair s c L a) ∧
    does (.atomS spec d a b st) (atomUses spec d a b 1) (bmOwn s c (fun L => (vWord s c L a.toNat).toNat) n)
      (if (atomRel spec).isSome then .full else .none) true (fun L => (vWord s c L a.toNat).toNat)

/-- R169, R254, R255: a fence puts one part in flight for each executing lane that is no helper; an acquiring one at block scope or wider
ends the reuse entries of its quarter. -/
def Obligations.Fences : Prop :=
  ∀ (k : FenceKind) (sc : Scope) (st : Stall) s c, Issuing {} noOwn s c → Delivered .full true {} noOwn s c → ∃ t,
    exec (.fence k sc st) s = .next t ∧
    Flies {} noOwn s c {} ((countedLanes {} noOwn s c).map fun L => { flown s c with kind := .fence k, lanes := [L], size := sc.code.toNat })
      true false t ∧
    (k ≠ .rel → sc ≠ .grp → ∀ m ∈ ((t.core c.core).quarter c.quarter).memo, m.load = true → m.asof = true) ∧
    t.ctxs = s.ctxs ∧ t.units = s.units

/-- R251-R253, R189, R399: the stamp class: what stamp, settled, dusk and floor write, and what a pin does; the other members hear of it.
That it takes the lowest free handle is the model's choice (log entry 83), as are the packets' bytes (log entry 9). -/
def Obligations.StampClass : Prop :=
  (∀ (d : KReg) (st : Stall) s c, Issuing {} noOwn s c →
    let does := fun (i : Instr) (v : Nat) (floor : Nat) => ∃ t, exec i s = .next t ∧
      Issued {} noOwn s c { keys := [kKey (s.issuer c) d, kKey (s.issuer c) d 1], grp := fun G => { G with floor := floor } } t ∧
      t.reg c (kKey (s.issuer c) d) = BitVec.ofNat 32 v ∧ t.reg c (kKey (s.issuer c) d 1) = BitVec.ofNat 32 (v / 2 ^ 32) ∧
      BlockKept s c t ∧ OnlyBlocks s t
    let T := max (s.sliceT (sliceOfCore c.core)) (s.issuer c).floor
    does (.stamp d st) T T ∧
    does (.settled d st) (if s.coreNow c.core < 32 then 0 else (s.coreNow c.core - 32) * 2 ^ 14 + 0x3FFF) (s.issuer c).floor ∧
    does (.dusk d st) s.dusk (s.issuer c).floor ∧ does (.floor d st) (s.issuer c).floor (s.issuer c).floor) ∧
  -- the domain dusk is the least dusk of the module's slices and of what live members last sent
  (∀ s : State, (∀ n, n < 128 → s.dusk ≤ (s.slice n).dusk) ∧
    (∀ m ∈ s.members, m.2.member = true → m.2.live = true → m.1 ≠ s.device → s.dusk ≤ mget 0 s.peerDusk m.1) ∧
    ((∃ n, n < 128 ∧ s.dusk = (s.slice n).dusk) ∨
      ∃ m ∈ s.members, m.2.member = true ∧ m.2.live = true ∧ m.1 ≠ s.device ∧ s.dusk = mget 0 s.peerDusk m.1)) ∧
  (∀ (d a : KReg) (st : Stall) s c, Issuing { ksrc := [(a, 2)] } noOwn s c →
    let S := kPair s c a
    let n := (s.blk c.blk).ctx
    let free := fun h => (mget {} (s.ctx n).pins h : Pin).used = false
    ∃ t, exec (.hpin d a st) s = .next t ∧ Issued { ksrc := [(a, 2)] } noOwn s c { keys := [kKey (s.issuer c) d] } t ∧
      (S < s.dusk → t.reg c (kKey (s.issuer c) d) = 0x80000002#32 ∧ t.ctx n = s.ctx n ∧ LostInterval true s c t) ∧
      (s.dusk ≤ S → (∀ h, h < 64 → ¬ free h) →
        t.reg c (kKey (s.issuer c) d) = 0x80000001#32 ∧ t.ctx n = s.ctx n ∧ LostInterval true s c t) ∧
      -- the lowest free handle; a stamp already too far in the past makes a pin that is broken at once
      ∀ h, h < 64 → free h → (∀ k, k < h → ¬ free k) → s.dusk ≤ S →
        t.reg c (kKey (s.issuer c) d) = BitVec.ofNat 32 h ∧
        mget {} (t.ctx n).pins h = ({ used := true, stamp := S, broken := s.expired S, kernel := (s.blk c.blk).kernel } : Pin) ∧
        (∀ k, k ≠ h → mget {} (t.ctx n).pins k = mget {} (s.ctx n).pins k) ∧
        (s.expired S = false → LostInterval true s c t ∧ Tells s 4 (leBytes 8 S) t)) ∧
  ∀ (d a : KReg) (st : Stall) s c, Issuing { ksrc := [(a, 1)] } noOwn s c →
    let h := (kOpnd s c a).toNat
    let cx := s.ctx (s.blk c.blk).ctx
    let p : Pin := mget {} cx.pins h
    ∃ t, exec (.hunpin d a st) s = .next t ∧ Issued { ksrc := [(a, 1)] } noOwn s c { keys := [kKey (s.issuer c) d] } t ∧
      LostInterval true s c t ∧
      (64 ≤ h ∨ p.used = false ∨ p.activity = true → t.reg c (kKey (s.issuer c) d) = 0x80000003#32 ∧ t.ctx (s.blk c.blk).ctx = cx) ∧
      (h < 64 → p.used = true → p.activity = false → t.reg c (kKey (s.issuer c) d) = (if p.broken then 1#32 else 0#32) ∧
        mget {} (t.ctx (s.blk c.blk).ctx).pins h = ({} : Pin) ∧ (p.broken = false → Tells s 5 (leBytes 8 p.stamp) t) ∧
        ∀ k, k ≠ h → mget {} (t.ctx (s.blk c.blk).ctx).pins k = mget {} cx.pins k) ∧ t.mem = s.mem

/-! ## Engines, barrier objects, system operations (R257-R304, R283-R287, R127-R133, R318, R346-R353) -/

/-- R281, R288, R290, R292-R304, R417: what the copy instructions put into their queues or channels, what qfence orders, what cp.stat reads. -/
def Obligations.CopyIssue : Prop :=
  (∀ (d a : KReg) (n : Count) (tok : BitVec 3) (m : BitVec 16) (rel : Option Scope) (ty : RedTy) (st : Stall),
    let u : Uses := { ksrc := [(d, 1), (a, 2)] ++ countSrc n }
    let e := fun (s : State) (c : Cur) =>
      ({ tok := tok.toNat, va := kPair s c a, bm := (kOpnd s c d).toNat, bytes := countOf s c n } : CopyEntry)
    (∀ s c, Issuing u (copyOwn d a n m s c) s c → s.ldUsed c.core < 16 → ∃ t, exec (.cpLd d a n tok m st) s = .next t ∧
      Enqueued u (copyOwn d a n m s c) s c true false
        { e s c with kind := .ld, roles := [(s.blk c.blk).role], mbar := if m = 0xFFFF#16 then none else some (m.toNat * 16) } t) ∧
    ∀ s c, Issuing u (copyOwn d a n 0xFFFF#16 s c) s c → writesQuiet s c → s.stUsed c.core < 16 →
      (∃ t, exec (.cpSt d a n tok rel st) s = .next t ∧
        Enqueued u (copyOwn d a n 0xFFFF#16 s c) s c false false { e s c with kind := .st, rel := rel } t) ∧
      ∃ t, exec (.cpRed ty d a n tok rel st) s = .next t ∧
        Enqueued u (copyOwn d a n 0xFFFF#16 s c) s c false true { e s c with kind := .red ty, rel := rel } t) ∧
  (∀ (d a stride : KReg) (rows : RowCount) (rowBytes roles : BitVec 16) (tok : BitVec 3) (m : BitVec 16) (st : Stall) s c,
    let u : Uses := { ksrc := [(d, 1), (a, 2), (stride, 1)] ++ rowsSrc rows }
    let own : Own := fun _ =>
      if kPair s c a % 32 = 0 ∧ (kOpnd s c d).toNat % 32 = 0 ∧ (kOpnd s c stride).toNat % 32 = 0 ∧ rowsOf s c rows ≤ 65535 ∧
        (kOpnd s c d).toNat + rowsOf s c rows * rowBytes.toNat ≤ (s.blk c.blk).scratch * 1024 ∧ objectFits s c m = true
      then none else some (mkCause c 5)
    let named := (List.range 16).filter fun r => roles.getLsbD r
    (Issuing u own s c → rolesHere s c roles → s.ldUsed c.core < 16 →
      ∃ t, exec (.cpTile d a stride rows rowBytes roles tok m st) s = .next t ∧
        Enqueued u own s c true (named.any fun r => r != (s.blk c.blk).role)
          { tok := tok.toNat, kind := .tile, va := kPair s c a, bm := (kOpnd s c d).toNat, bytes := rowBytes.toNat
            stride := (kOpnd s c stride).toNat, rows := rowsOf s c rows, roles := named
            mbar := if m = 0xFFFF#16 then none else some (m.toNat * 16) } t) ∧
    (AtIssue s c → ¬ rolesHere s c roles → ∃ t, exec (.cpTile d a stride rows rowBytes roles tok m st) s = .next t ∧
      Parks s c (mkCause c 1) t)) ∧
  (∀ (ch : BitVec 2) (a : KReg) (tok : BitVec 3) (st : Stall) s c,
    let u : Uses := { ksrc := [(a, 2)] }
    let own := alignOwn c (fun _ => kPair s c a) 64
    Issuing u own s c → writesQuiet s c → s.chanUsed c.core ch.toNat = false → ∃ t, exec (.cpChain ch a tok st) s = .next t ∧
      Issued u own s c { grp := fun G => { G with tokens := (t.issuer c).tokens } } t ∧ TokenTaken s c tok.toNat t ∧
      (∀ n, mget {} (t.core c.core).chans n = if n = ch.toNat then
        ({ busy := true, error := false, recVa := kPair s c a, tok := tok.toNat, blk := c.blk, grp := c.grp, uid := s.fresh + 1
           after := s.entryAfter (issueOf u own s c) 3, floor := (s.issuer c).floor } : Chan) else mget {} (s.core c.core).chans n) ∧
      t.core c.core = { s.core c.core with
        chans := (t.core c.core).chans
        inUse := { (s.core c.core).inUse with chans := ch.toNat :: (s.core c.core).inUse.chans } } ∧ (∀ n, n ≠ c.core → t.core n = s.core n) ∧
      BlockHeld s c t ∧ LostInterval false s c t ∧ t = { s with fresh := t.fresh, blocks := t.blocks, cores := t.cores }) ∧
  (∀ (mask : BitVec 4) (st : Stall) s c, Issuing {} noOwn s c → ∃ t, exec (.qfence mask st) s = .next t ∧ Issued {} noOwn s c {} t ∧
    -- the entries that stand in the queues named
    (let k := s.core c.core
     let old := fun x => (mask.getLsbD 0 = true ∧ ∃ e ∈ k.ldq, e.uid = x) ∨ (mask.getLsbD 1 = true ∧ ∃ e ∈ k.stq, e.uid = x) ∨
       (mask.getLsbD 2 = true ∧ ∃ e ∈ (s.issuer c).matq, e.uid = x) ∨ (mask.getLsbD 3 = true ∧ ∃ e ∈ k.chans, e.2.busy = true ∧ e.2.uid = x)
     (∀ q x, q < 4 → mask.getLsbD q = true → old x → ∃ f ∈ (t.core c.core).fences,
       f.1 = (if q = 2 then 4 + c.blk * 16 + c.grp else q) ∧ ∀ y, y ∈ f.2 ↔ old y) ∧
     ∀ f ∈ k.fences, ∀ x ∈ f.2, x ∈ t.openUids → ∃ g ∈ (t.core c.core).fences, g.1 = f.1 ∧ x ∈ g.2) ∧
    t.core c.core = { s.core c.core with fences := (t.core c.core).fences } ∧ (∀ n, n ≠ c.core → t.core n = s.core n) ∧
    BlockKept s c t ∧ t = { s with fresh := t.fresh, blocks := t.blocks, cores := t.cores }) ∧
  ∀ (d : KReg) (st : Stall) s c, Issuing {} noOwn s c → ∃ t w, exec (.cpStat d st) s = .next t ∧
    Wrote {} noOwn s c false [(kKey (s.issuer c) d, w)] 0#5 t ∧
    ((s.core c.core).ldq.length < 32 → (s.core c.core).stq.length < 32 →
      w.toNat % 32 = (s.core c.core).ldq.length ∧ w.toNat / 32 % 32 = (s.core c.core).stq.length ∧
      (∀ n, n < 4 → w.getLsbD (10 + n) = (mget {} (s.core c.core).chans n : Chan).busy ∧
        w.getLsbD (14 + n) = (mget {} (s.core c.core).chans n : Chan).error) ∧
      w.getLsbD 18 = (s.core c.core).ldq.any (fun e => e.susp.isSome) ∧ w.getLsbD 19 = (s.core c.core).stq.any (fun e => e.susp.isSome) ∧
      w.toNat < 2 ^ 20)

/-- R190, R257-R274, R417: what a pass and an accumulator operation put into the group's matrix queue, ofence and mwait. That mwait issues only when
it may complete is the model's reading (log entry 5). -/
def Obligations.MatrixIssue : Prop :=
  (∀ (m : MmaSpec) (st : Stall) s c,
    (let own : Own := mmaCause 64 m s (issueAt s c)
     Issuing {} own s c → matRoom s (issueOf {} own s c) true = none → mmaBad m s (issueOf {} own s c) = false →
       ∃ t, exec (.mma m st) s = .next t ∧
       MatQueued own {} s c false (passEntry .mma 64 m s c) t) ∧
    (let own : Own := mmaCause 128 m s (issueAt s c)
     Issuing {} own s c → matRoom s (issueOf {} own s c) true = none → mmaBad m s (issueOf {} own s c) = false → (s.blk c.blk).role % 2 = 0 →
       (s.blk c.blk).role + 1 < (s.team (s.blk c.blk).team).size → ∃ t, exec (.mmaPair m st) s = .next t ∧
       MatQueued own {} s c true (passEntry .pair 128 m s c) t) ∧
    (AtIssue s c → (s.blk c.blk).role % 2 = 1 ∨ (s.team (s.blk c.blk).team).size ≤ (s.blk c.blk).role + 1 →
      ∃ t, exec (.mmaPair m st) s = .next t ∧ Parks s c (mkCause c 1) t)) ∧
  (∀ (x : AccSpec) (st : Stall),
    let e := fun (kind : MatKind) =>
      ({ tok := x.tok.toNat, kind := kind, row := x.first.toNat, rows := x.rows.toNat + 1, fmt := x.fmt, blk := x.blk } : MatEntry)
    (∀ s c, Issuing {} noOwn s c → max (s.issuer c).matq.length (s.issuer c).matUsed < 8 → ∃ t, exec (.accZero x st) s = .next t ∧
      MatQueued noOwn {} s c false (e .zero) t) ∧
    (∀ (d a : KReg) s c,
      let u : Uses := { ksrc := [(a, 2), (d, 1)] }
      let own := accOwn x (kPair s c a) (kOpnd s c d).toNat x.blk 0xFFFF#16 s c
      let to_ := fun (kind : MatKind) => ({ e kind with base := kPair s c a, stride := (kOpnd s c d).toNat } : MatEntry)
      Issuing u own s c → max (s.issuer c).matq.length (s.issuer c).matUsed < 8 →
        (∃ t, exec (.accLd x d a st) s = .next t ∧ MatQueued own u s c false (to_ .ld) t) ∧
        ∃ t, exec (.accSt x d a st) s = .next t ∧ MatQueued own u s c false (to_ .st) t) ∧
    ∀ (role : BitVec 4) (m : BitVec 16) (d a : KReg) s c,
      let u : Uses := { ksrc := [(a, 1), (d, 1)] }
      let own := accOwn x (kOpnd s c a).toNat (kOpnd s c d).toNat true m s c
      (Issuing u own s c → role.toNat < (s.team (s.blk c.blk).team).size → max (s.issuer c).matq.length (s.issuer c).matUsed < 8 →
        ∃ t, exec (.accCp x role m d a st) s = .next t ∧
          MatQueued own u s c (role.toNat != (s.blk c.blk).role)
            { e .cp with base := (kOpnd s c a).toNat, stride := (kOpnd s c d).toNat, role := role.toNat
                         mbar := if m = 0xFFFF#16 then none else some (m.toNat * 16) } t) ∧
      (AtIssue s c → (s.team (s.blk c.blk).team).size ≤ role.toNat →
        ∃ t, exec (.accCp x role m d a st) s = .next t ∧ Parks s c (mkCause c 1) t)) ∧
  (∀ (st : Stall) s c, Issuing {} noOwn s c → writesQuiet s c → ∃ t, exec (.ofence st) s = .next t ∧ Issued {} noOwn s c {} t ∧
    (∀ u, (t.blk u).opcache = if (s.blk u).core = some c.core then [] else (s.blk u).opcache) ∧
    (∀ u, u ≠ c.blk → t.blk u = { s.blk u with opcache := (t.blk u).opcache }) ∧
    t.blk c.blk = { s.blk c.blk with groups := (t.blk c.blk).groups, ports := (t.blk c.blk).ports, opcache := (t.blk c.blk).opcache } ∧
    OnlyBlocks s t) ∧
  ∀ (st : Stall) s c, Issuing {} noOwn s c →
    ((s.issuer c).matq = [] → ∃ t, exec (.mwait st) s = .next t ∧
      Issued {} noOwn s c { grp := fun G => { G with
        floor := (t.issuer c).floor, dests := (t.issuer c).dests, covered := (t.issuer c).covered, saw := (t.issuer c).saw } } t ∧
      (s.issuer c).floor ≤ (t.issuer c).floor ∧
      (∀ k, k < 8 → let x : Cover := mget {} (s.issuer c).covered (k + 8)
        x.stamp ≤ (t.issuer c).floor ∧ (∀ d ∈ x.devs, d ∈ (t.issuer c).dests) ∧ ∀ w ∈ x.saw, w.2 ≤ mget 0 (t.issuer c).saw w.1) ∧ BlockKept s c t ∧ OnlyBlocks s t) ∧
    -- a suspended entry of the queue is delivered to every lane that executes
    ∀ x, ((s.issuer c).matq.filterMap (·.susp)).head? = some x → ∃ t, exec (.mwait st) s = .next t ∧
      ∀ L ∈ runs {} noOwn s c, (s.lane c L).helper = false →
        t.lane c L = { s.lane c L with status := .parked, cause := { mkCause c x.code with va := x.va } }

/-- R283-R287: the mbar instructions: an object is set up, expects bytes, counts arrivals, is waited for and is read; an arrival releases
at block scope, a wait acquires there. That mbar.wait issues only when it may complete is the model's reading (log entry 5),
and mbar.arrive as an operation in flight its choice (log entry 16). -/
def Obligations.BarrierObjects : Prop :=
  (∀ (d a : KReg) (st : Stall) s c,
    let u : Uses := { ksrc := [(a, 1), (d, 1)] }
    let x := (kOpnd s c a).toNat
    let n := (kOpnd s c d).toNat
    let own : Own := fun L => if n = 0 ∨ 65535 < n then some (mkCause c 5) else objectOwn s c a L
    (Issuing u own s c → objectQuiet s c x → ∃ t, exec (.mbarInit d a st) s = .next t ∧ ObjectSet u own s c x ⟨0, n, n, 0, false⟩ false t) ∧
    (Issuing u (objectOwn s c a) s c → objectQuiet s c x →
      let m := (s.blk c.blk).mbar x
      let isOver := decide (0x7FFFFFFF < m.bal + (n : Int))
      let m' : MBar := { m with bal := min (m.bal + (n : Int)) 0x7FFFFFFF, isOver := m.isOver || isOver }
      (∃ t, exec (.mbarExpect d a st) s = .next t ∧
        ObjectSet u (objectOwn s c a) s c x (settled m') (isOver || decide (m'.due = 0 ∧ m'.bal < 0)) t) ∧
      (m.gen ≠ n % 65536 → ∃ t, exec (.mbarWait d a st) s = .next t ∧
        Issued u (objectOwn s c a) s c { grp := fun G => { G with floor := max G.floor (s.blk c.blk).floor } } t ∧
        BlockKept s c t ∧ OnlyBlocks s t) ∧
      (m.gen = n % 65536 → exec (.mbarWait d a st) s = .next { s with cur := some { c with wait := some .barrierWait } }))) ∧
  (∀ (d a : KReg) (st : Stall),
    Sends (.mbarArrive d a st) .none true { ksrc := [(a, 1)] } (fun s c => objectOwn s c a) noEff
      (fun s c => [{ sysOp s c .arrive .blk [] [kKey (s.issuer c) d] with bm := true, addr := (kOpnd s c a).toNat, size := 16 }]) false ∧
    ∀ s c, Issuing { ksrc := [(a, 1)] } (objectOwn s c a) s c → objectQuiet s c (kOpnd s c a).toNat →
      let m := (s.blk c.blk).mbar (kOpnd s c a).toNat
      ∃ t, exec (.mbarTest d a st) s = .next t ∧
        Wrote { ksrc := [(a, 1)] } (objectOwn s c a) s c false [(kKey (s.issuer c) d, BitVec.ofNat 32 (m.due * 65536 + m.gen))] 0#5 t) ∧
  -- an arrival's effect: with none due the phase ends at once with overrun
  ∀ (s : State) (u a : Nat),
    let m := (s.blk u).mbar a
    (s.mbarArrive u a).1 = m.gen ∧
    ((s.mbarArrive u a).2.blk u).mbar a = (if m.due = 0 then { settled { m with bal := 0 } with isOver := true }
      else settled { m with due := m.due - 1 }) ∧
    (m.due = 0 ∨ (m.due = 1 ∧ m.bal < 0) → ((s.mbarArrive u a).2.kernel (s.blk u).kernel).cir.getLsbD 4 = true)

/-- R127-R129, R189, R318, R346, R349, R350, R352: an instruction that releases before its effect puts one system operation in flight,
with its operands as read at issue; the checks that come first. That such an instruction is an operation in flight is the model's choice
(log entry 16). -/
def Obligations.SystemIssue : Prop :=
  (∀ (d a : KReg) (st : Stall),
    let ops := fun (op : SysOp) (rel : Scope) (n : Nat) (s : State) (c : Cur) => [sysOp s c op rel (kWords s c a n) [kKey (s.issuer c) d]]
    Sends (.spawn d a st) .none true { ksrc := [(a, 8)] } (fun _ _ => noOwn) noEff (ops .spawn .dev 8) true ∧
    Sends (.launch d a st) .none true { ksrc := [(a, 16)] } (fun _ _ => noOwn) noEff (ops .launch .dev 16) true ∧
    Sends (.actComp d a st) .none true { ksrc := [(a, 8)] }
      (fun s c _ => if (s.ctxOf c.blk).vesper ≤ s.entriesHeld (s.blk c.blk).ctx then some (mkCause c 16) else none) noEff
      (ops .actComp .dom 8) true ∧
    Sends (.actCommit d a st) .none true { ksrc := [(a, 1)] } (fun _ _ => noOwn) noEff (ops .actCommit .dom 1) true ∧
    Sends (.actAbandon d a st) .none true { ksrc := [(a, 1)] } (fun _ _ => noOwn) noEff (ops .actAbandon .dom 1) true ∧
    -- tlbinv is for privileged contexts
    (∀ s c,
      ((s.ctxOf c.blk).priv = true → Issuing { ksrc := [(a, 4)] } noOwn s c → Delivered .none true { ksrc := [(a, 4)] } noOwn s c →
        ∃ t, exec (.tlbinv d a st) s = .next t ∧ Flies { ksrc := [(a, 4)] } noOwn s c {} (ops .tlbinv .dev 4 s c) false false t) ∧
      ((s.ctxOf c.blk).priv = false → AtIssue s c → ∃ t, exec (.tlbinv d a st) s = .next t ∧ Parks s c (mkCause c 1) t)) ∧
    -- jdec: one decrement for the lanes that are no helpers; 0 where there is none
    ∀ s c,
      let u : Uses := { ksrc := [(a, 2)] }
      let own := alignOwn c (fun _ => kPair s c a) 64
      Issuing u own s c → Delivered .none true u own s c → ∃ t, exec (.jdec d a st) s = .next t ∧
        (countedLanes u own s c ≠ [] → Flies u own s c {}
          [{ sysOp s c .jdec .dev [] [kKey (s.issuer c) d] with
             lanes := countedLanes u own s c, addr := kPair s c a + 32, size := 4, acq := some .dev }] false true t) ∧
        (countedLanes u own s c = [] → Issued u own s c { keys := [kKey (s.issuer c) d] } t ∧
          t.reg c (kKey (s.issuer c) d) = 0#32 ∧ BlockKept s c t ∧ OnlyBlocks s t)) ∧
  ∀ (a : KReg) (st : Stall) s c,
    ((s.blk c.blk).routine.isSome = true → Issuing { ksrc := [(a, 1)] } noOwn s c → Delivered .full true { ksrc := [(a, 1)] } noOwn s c →
      ∃ t, exec (.actDone a st) s = .next t ∧ Flies { ksrc := [(a, 1)] } noOwn s c
        { grp := fun G => { G with feWait := some s.fresh } } [sysOp s c .actDone .dom (kWords s c a 1) []] false true t) ∧
    ((s.blk c.blk).routine = none → AtIssue s c → ∃ t, exec (.actDone a st) s = .next t ∧ Parks s c (mkCause c 1) t)

/-- R132, R133, R346-R348, R351, R353, R412: what qstat, qinit, act.begin, act.stat, act.resume and mark answer and do. That qinit tests
its operands first is the model's reading (log entry 51); that act.begin tests its attributes first and takes the lowest free handle, and
what is left open of another home's answers, are its choices (log entries 18, 84). -/
def Obligations.QueueAndActivityResults : Prop :=
  (∀ (d a : KReg) (st : Stall) s c, Issuing { ksrc := [(a, 1)] } noOwn s c →
    let x := (kOpnd s c a).toNat
    let cx := s.ctxOf c.blk
    ∃ t v, exec (.qstat d a st) s = .next t ∧ Wrote { ksrc := [(a, 1)] } noOwn s c false
        [(kKey (s.issuer c) d, DWord.lo v), (kKey (s.issuer c) d 1, DWord.hi v)] 0#5 t ∧
      (16 ≤ x ∨ mget 0 cx.queues x = 0 → v = 0x80000000#64) ∧
      ∀ h, x < 16 → mget 0 cx.queues x = h + 1 → v = BitVec.ofNat 64
        ((match (s.queue h).st with | .idle => 0 | .armed => 1 | .draining => 2 | .stopped => 3) + 4 * (s.queue h).prio + 32 * (s.queue h).n +
          (if (s.queue h).host then 2 ^ 10 else 0) + (if cx.state = .stopped then 2 ^ 31 else 0) +
          2 ^ 32 * (((s.queue h).tail - (s.queue h).head).toNat + (s.queue h).resume.length))) ∧
  (∀ (d a : KReg) (st : Stall) s c, Issuing { ksrc := [(a, 4)] } noOwn s c →
    let va := kPair s c a
    let w := (kOpnd s c a 2).toNat
    let op := w / 2 ^ 13 % 8
    let n := w / 2 ^ 4 % 32
    let bad := 5 ≤ op ∨ 2 ^ 16 ≤ w ∨ kOpnd s c a 3 ≠ 0#32 ∨ (op = 0 ∧ (va % 4096 ≠ 0 ∨ n < 4 ∨ 20 < n)) ∨
      (op ≠ 0 ∧ (va ≠ 0 ∨ w / 2 ^ 4 % 2 ^ 9 ≠ 0))
    let bound := mget 0 (s.ctxOf c.blk).queues (w % 16)
    ∃ t kd, exec (.qinit d a st) s = .next t ∧ Issued { ksrc := [(a, 4)] } noOwn s c { keys := [kKey (s.issuer c) d] } t ∧
      t.reg c (kKey (s.issuer c) d) = BitVec.ofNat 32 kd ∧ BlockHeld s c t ∧
      t = { s with fresh := t.fresh, blocks := t.blocks, kernels := t.kernels, queues := t.queues } ∧
      (bad → kd = 3) ∧ (¬ bad → bound = 0 → kd = 2) ∧ (kd ≠ 0 → ∀ k, t.queue k = s.queue k) ∧
      ∀ h, ¬ bad → bound = h + 1 → (∀ k, k ≠ h → t.queue k = s.queue k) ∧
        let q := s.queue h
        (op = 0 → q.st = .idle → kd = 0 ∧ t.queue h = { q with
          st := .armed, ring := va, n := n, prio := w / 2 ^ 9 % 8, host := (w / 2 ^ 12 % 2 == 1), head := 0#32, tail := 0#32, popped := 0 }) ∧
        (op = 1 → q.st = .armed → kd = 0 ∧ t.queue h = { q with st := .stopped }) ∧
        (op = 2 → q.st = .stopped → kd = 0 ∧ t.queue h = { q with st := .armed }) ∧
        (op = 3 → q.st = .armed → kd = 0 ∧ t.queue h = if q.head = q.tail ∧ q.resume = [] then
          { q with st := .idle, popped := 0, since := none, reserved := none } else { q with st := .draining }) ∧
        (op = 4 → q.st = .stopped → q.resume ≠ [] → kd = 4) ∧
        (op = 4 → q.st = .stopped → q.resume = [] → kd = 0 ∧
          t.queue h = { q with st := .idle, head := q.tail, popped := 0, since := none, reserved := none, recs := [] }) ∧
        ((op = 0 ∧ q.st ≠ .idle) ∨ (op = 1 ∧ q.st ≠ .armed) ∨ (op = 2 ∧ q.st ≠ .stopped) ∨ (op = 3 ∧ q.st ≠ .armed) ∨
          (op = 4 ∧ q.st ≠ .stopped) → kd = 2)) ∧
  (∀ (d a : KReg) (st : Stall) s c, Issuing { ksrc := [(a, 1)] } noOwn s c →
    let attr := (kOpnd s c a).toNat
    let n := (s.blk c.blk).ctx
    let cx := s.ctx n
    let S := max (s.sliceT (sliceOfCore c.core)) (s.issuer c).floor
    let held := (s.acts.filter fun x : Activity => x.ctx == n && !x.st.isOver).length
    let free := fun h => h < 64 ∧ (mget {} cx.pins h : Pin).used = false
    let key := fun j => kKey (s.issuer c) d j
    ∃ t, exec (.actBegin d a st) s = .next t ∧
      Issued { ksrc := [(a, 1)] } noOwn s c { keys := (List.range 4).map key, grp := fun G => { G with floor := S } } t ∧
      t.reg c (key 1) = 0#32 ∧ LostInterval true s c t ∧
      t = { s with fresh := t.fresh, blocks := t.blocks, kernels := t.kernels, ctxs := t.ctxs, acts := t.acts
                   out := t.out, retained := t.retained, e2eOut := t.e2eOut } ∧
      (let fails := fun (x : Word) => t.reg c (key 0) = x ∧ t.reg c (key 2) = 0#32 ∧ t.reg c (key 3) = 0#32 ∧ t.acts = s.acts ∧ t.ctx n = cx ∧ t.out = s.out
       (2 ≤ attr → fails 0x80000003#32) ∧ (attr < 2 → 1024 ≤ held → fails 0x80000001#32) ∧
       (attr = 1 → (∀ h, ¬ free h) → held < 1024 → fails 0x80000001#32)) ∧
      ∀ pin, held < 1024 → (attr = 0 ∧ pin = none ∨ attr = 1 ∧ ∃ h, pin = some h ∧ free h ∧ ∀ k, k < h → ¬ free k) →
        -- the next serial number; 0 is passed over
        let serial := if (cx.serial + 1) % 2 ^ 24 = 0 then 1 else (cx.serial + 1) % 2 ^ 24
        t.reg c (key 0) = BitVec.ofNat 32 (serial + 2 ^ 24 * s.device) ∧ t.reg c (key 2) = BitVec.ofNat 32 S ∧
        t.reg c (key 3) = BitVec.ofNat 32 (S / 2 ^ 32) ∧ (t.ctx n).serial = serial ∧
        (∀ h, pin = some h → mget {} (t.ctx n).pins h = ({ used := true, stamp := S, activity := true, kernel := (s.blk c.blk).kernel } : Pin) ∧
          Tells s 4 (leBytes 8 S) t) ∧ (pin = none → t.out = s.out ∧ t.retained = s.retained) ∧
        (∀ h, pin ≠ some h → mget {} (t.ctx n).pins h = mget {} cx.pins h) ∧
        ∃ kept, t.acts = kept ++ [{ handle := serial + 2 ^ 24 * s.device, ctx := n, stamp := S, pin := pin, holder := s.device }] ∧ kept.Sublist s.acts ∧
          -- a record gives up its slot only where all are taken, and only a terminal one
          ∀ x ∈ s.acts, x ∉ kept → x.ctx = n ∧ 1024 ≤ (s.acts.filter fun y : Activity => y.ctx == n).length ∧
            ∃ y ∈ s.acts, y.ctx = n ∧ y.handle = x.handle ∧ y.st.isOver = true) ∧
  (∀ (d a : KReg) (st : Stall) s c, Issuing { ksrc := [(a, 1)] } noOwn s c →
    let h := (kOpnd s c a).toNat
    let n := (s.blk c.blk).ctx
    let key := fun j => kKey (s.issuer c) d j
    ∃ t, exec (.actStat d a st) s = .next t ∧ Issued { ksrc := [(a, 1)] } noOwn s c { keys := (List.range 4).map key } t ∧
      LostInterval true s c t ∧ t = { s with fresh := t.fresh, blocks := t.blocks, kernels := t.kernels } ∧
      (2 ^ 31 ≤ h ∨ s.decides n h = true → s.act? n h = none →
        t.reg c (key 0) = 7#32 ∧ t.reg c (key 1) = 0#32 ∧ t.reg c (key 2) = 0#32 ∧ t.reg c (key 3) = 0#32) ∧
      ∀ x, 2 ^ 31 ≤ h ∨ s.decides n h = true → s.act? n h = some x →
        let stamp := if x.st = .stuck ∧ x.reason ≠ 3 then x.stuckStamp else x.stamp
        t.reg c (key 0) = BitVec.ofNat 32 ((match x.st with
          | .opened => 0 | .committing => 1 | .committed => 2 | .abandoning => 3 | .abandoned => 4 | .stuck => 5 + 16 * x.reason + 256 * x.device)) ∧
        t.reg c (key 2) = BitVec.ofNat 32 stamp ∧ t.reg c (key 3) = BitVec.ofNat 32 (stamp / 2 ^ 32) ∧
        (let here := min (s.vesper.countP fun e : Entry => e.ctx == n && e.handle == h && decide (e.cond < 2)) 0xFFFFFFFF
         here ≤ (t.reg c (key 1)).toNat ∧ ((∀ m ∈ s.joined x, m = s.device) ∨ x.st.isOver = true → (t.reg c (key 1)).toNat = here)) ∧
      -- what another home answers has the fields that it may have
      (h < 2 ^ 31 → s.decides n h = false →
        let w := (t.reg c (key 0)).toNat
        w < 2 ^ 15 ∧ w % 8 ≠ 6 ∧ w / 8 % 2 = 0 ∧ (w % 8 ≠ 5 → w < 8) ∧ (w % 8 = 5 → 1 ≤ w / 16 % 16 ∧ w / 16 % 16 ≤ 3) ∧
        (w % 8 = 2 ∨ w % 8 = 4 ∨ w % 8 = 7 → t.reg c (key 1) = 0#32) ∧
        (w % 8 = 7 → t.reg c (key 2) = 0#32 ∧ t.reg c (key 3) = 0#32))) ∧
  (∀ (d a : KReg) (st : Stall) s c, Issuing { ksrc := [(a, 2)] } noOwn s c →
    let h := (kOpnd s c a).toNat
    let action := (kOpnd s c a 1).toNat
    let n := (s.blk c.blk).ctx
    ∃ t, exec (.actResume d a st) s = .next t ∧ Issued { ksrc := [(a, 2)] } noOwn s c { keys := [kKey (s.issuer c) d] } t ∧
      LostInterval true s c t ∧ t.mem = s.mem ∧
      (let fails := fun (x : Word) => t.reg c (kKey (s.issuer c) d) = x ∧ t.acts = s.acts ∧ t.vesper = s.vesper
       (2 ≤ action ∨ 2 ^ 31 ≤ h → fails 0x80000003#32) ∧
       (action < 2 → h < 2 ^ 31 → s.decides n h = true → s.act? n h = none → fails 0x80000003#32) ∧
       ∀ x, action < 2 → h < 2 ^ 31 → s.decides n h = true → s.act? n h = some x →
        (x.st ≠ .stuck ∨ (x.reason = 3 ∧ action = 0) → fails 0x80000002#32) ∧
        (x.st = .stuck → ¬ (x.reason = 3 ∧ action = 0) → t.reg c (kKey (s.issuer c) d) = 0#32 ∧
          ∃ y, t.act? n h = some y ∧ (y.st = .abandoning ∨ y.st = .abandoned) ∧
            y.members = if x.reason = 3 then x.members.filter (· != x.device) else x.members) ∧
        -- retry: the stuck entry is pending again, with a fresh wait; skip: it is skipped, or the activity is abandoned with that
        (x.st = .stuck → x.reason ≠ 3 → x.device = s.device → ∀ e ∈ s.vesper, e.ctx = n → e.handle = h → e.stamp = x.stuckStamp →
          (action = 0 → { e with cond := 0, waited := 0 } ∈ t.vesper) ∧
          (action = 1 → { e with cond := 3, waited := 0 } ∈ t.vesper ∨ (t.act? n h).map (·.st) = some .abandoned))) ∧
      -- another home decides; where it lets it take effect, a stuck entry of this device is pending again, or skipped
      (action < 2 → h < 2 ^ 31 → s.decides n h = false → let r := t.reg c (kKey (s.issuer c) d)
        (r = 0#32 ∨ r = 0x80000002#32 ∨ r = 0x80000003#32) ∧ (r ≠ 0#32 → t.acts = s.acts ∧ t.vesper = s.vesper) ∧
        ∀ x, s.act? n h = some x → x.st = .stuck → x.reason ≠ 3 → x.device = s.device → r = 0#32 →
          (t.act? n h).map (·.st) = some .abandoning ∧
          ∀ e ∈ s.vesper, e.ctx = n → e.handle = h → e.stamp = x.stuckStamp → { e with cond := 3 * action, waited := 0 } ∈ t.vesper)) ∧
  ∀ (a : KReg) (st : Stall) s c, Issuing { ksrc := [(a, 1)] } noOwn s c →
    let b := s.blk c.blk
    ∃ t, exec (.mark a st) s = .next t ∧ Issued { ksrc := [(a, 1)] } noOwn s c {} t ∧ BlockKept s c t ∧
      t = { s with fresh := t.fresh, blocks := t.blocks, traced := t.traced } ∧
      ((s.ctx b.ctx).trcEn = false → t.traced = s.traced) ∧
      ((s.ctx b.ctx).trcEn = true → ∃ r, t.traced = s.traced ++ [r] ∧ r.ctx = b.ctx ∧ r.blk = c.blk ∧ r.grp = c.grp ∧ r.kind = 5 ∧
        r.aux = 0 ∧ r.hi = (kOpnd s c a).toNat ∧ r.tick = s.tick ∧ (b.code ≤ 2 ^ 57 → (r.lo : Int) = ((c.pc : Int) - (b.code : Int)) % 2 ^ 32))

/-! ## Steps of the memory side (R177-R181, R221-R249, R305-R316) -/

/-- R27, R225, R227, R230, R234, R239, R249, R305, R310: a translation gives an operation its address or its fault; a load and an as-of
load return their bytes, poisoned where they are. What a load of fixed latency reads early is open (log entry 55). -/
def Obligations.LoadSteps : Prop :=
  (∀ (op : Nat) (cached : Bool) s, ∃ t, exec (.pageWalk op cached) s = .next t ∧ t.mem = s.mem ∧
    ∀ p, s.op? op = some p → p.bm = false → p.access = true → p.done = false → p.phys = none → p.fault = none →
      (∀ o ∈ older s.pend p.uid, shareLane o p = true → o.bm = false → o.done = false →
        o.kind ≠ .sys .tlbinv ∧ (o.access = true → o.phys.isSome = true)) →
      (p.kind = .store → s.records p.blk p.grp < 16) →
      let found := (s.translate (s.coreOf p) p.ctx p.addr p.acc cached).1
      (∀ x, found = .ok x →
        let q := { p with phys := some x.phys, hist := bitOf x.leaf 4, migr := bitOf x.leaf 5, page := x.page, psize := 2 ^ x.bits }
        (p.kind ≠ .load → p.kind ≠ .asof → t.op? op = some q) ∧
        -- L1 may serve a load whose line stands in it, 60 cycles after its issue
        (p.kind = .load → t.op? op = some { q with miss := true } ∨ (t.op? op = some { q with due := some (p.cycle + 60) } ∧
          x.phys.target = 0 ∧ mget 0 (s.core (s.coreOf p)).l1 (s.da x.phys.off / 128) ≠ 0 ∧ s.nowOf p.blk < p.cycle + 60)) ∧
        -- an as-of load finds its version where it translates, or that the version is gone
        (p.kind = .asof → x.phys.target = 0 →
          (s.asofLocal (s.keyOf p.ctx) x.phys.off p.size p.asofS = none → p.helper = false → t.op? op = some { q with fault := some 13 }) ∧
          ∀ bs bad k, s.asofLocal (s.keyOf p.ctx) x.phys.off p.size p.asofS = some (bs, bad, k) →
            t.op? op = some { q with data := bs, walked := some (bad, k) })) ∧
      ∀ x, found = .error x → p.helper = false → t.op? op = some { p with fault := some x.1 }) ∧
  (∀ (s : State) (key : BitVec 256) (off n S : Nat), s.asofLocal key off n S = none ↔ S < (s.slice (s.home off)).dusk) ∧
  (∀ (s : State) (ctx va : Nat), 2 ^ 57 ≤ va → s.walk ctx va = .fail 11 false) ∧
  (∀ (priv : Bool) (acc : Acc) (e : Nat), permCause priv acc e =
    if (priv = true ∨ bitOf e 3 = true) ∧ (acc = .store → bitOf e 1 = true) ∧ (acc = .fetch → bitOf e 2 = true) ∧ (acc = .asof → bitOf e 4 = true)
    then none else some 12) ∧
  (∀ (op : Nat) s, ∃ t, exec (.loadReturn op) s = .next t ∧ t.mem = s.mem ∧ ∀ p, LoneOp s op p → p.kind = .load →
    (p.bm = true → p.fe = false →
      Returned s p (orPoison (mget false (s.blk p.blk).bmPoison (p.addr / 32)) p (bytesWords (rdBytes (s.blk p.blk).bm p.addr p.size))) 0 t) ∧
    -- of a granule that is full; it becomes empty where the load clears it
    (p.bm = true → p.fe = true → mget false (s.blk p.blk).full (p.addr / 16) = true →
      Returned s p (orPoison (mget false (s.blk p.blk).bmPoison (p.addr / 32)) p (bytesWords (rdBytes (s.blk p.blk).bm p.addr p.size))) 0 t ∧
      (mget false (t.blk p.blk).full (p.addr / 16) = !p.clr)) ∧
    (p.bm = true → p.fe = true → mget false (s.blk p.blk).full (p.addr / 16) = false → t = s) ∧
    ∀ ph, p.bm = false → p.phys = some ph →
      (ph.target = 0 → Returned s p
        (orPoison (s.poisonedIn ph.off p.size) p (bytesWords (s.readLocal (s.keyOf p.ctx) ph.off p.size))) (loadStamp s p ph.off) t ∧
        -- a line that L1 does not serve enters it with its stamp
        (p.due = none → mget 0 (t.core (s.coreOf p)).l1 (s.da ph.off / 128) = loadStamp s p ph.off + 1)) ∧
      (ph.target = 2 → Returned s p (orPoison (s.hostPoison ph.off p.size) p (bytesWords (rdBytes s.mem (hostBase + ph.off) p.size)))
        (s.slice (sliceOfCore (s.coreOf p))).last t)) ∧
  ∀ (op : Nat) s, ∃ t, exec (.asofWalk op) s = .next t ∧ t.mem = s.mem ∧ ∀ p ph, LoneOp s op p → p.kind = .asof → p.phys = some ph →
    ph.target = 0 → ∀ bad k, p.walked = some (bad, k) →
      Returned s p (orPoison bad p (bytesWords p.data)) 0 t ∧
      ∀ key, p.status = some key → (∃ L n, key = .p L n ∧ n < 12) →
        (∃ e ∈ (s.grp p.blk p.grp).board, e.iid = p.iid ∧ ∃ x ∈ e.cells, x.key = key) → (t.grp p.blk p.grp).getKey key = 1#32

/-- R223, R225, R229, R230, R234, R239, R244-R246, R334: a store performs where it was translated to, whole; an atomic reads the old value,
writes the new one and returns the old, one of use `.no` a value no older than the group's last access; a release to host memory waits out
its hold. That a quantum may end at any moment is the model's reading (log entry 49), and which value `.no` returns is open (log entry 1). -/
def Obligations.WriteSteps : Prop :=
  (∀ (op : Nat) s, ∃ t, exec (.storePerform op) s = .next t ∧ ∀ p, LoneOp s op p → p.kind = .store →
    (p.bm = true → noObject s p.blk p.addr p.data.length → (t.blk p.blk).bm = wrBytes (s.blk p.blk).bm p.addr p.data ∧ t.mem = s.mem ∧
      Gone s p t ∧ (p.fe = true → mget false (t.blk p.blk).full (p.addr / 16) = true)) ∧
    ∀ ph, p.bm = false → p.phys = some ph →
      (ph.target = 0 → s.writeReady ph p.hist p.migr = true → p.rel = none → ph.off % 128 + p.data.length ≤ 128 →
        LineWritten s (s.keyOf p.ctx) ph.off p.data t ∧ Gone s p t ∧
        -- a store under history takes a stamp above the group's floor and the slice's last one, and logs the old contents
        (p.hist = true → (t.slice (s.home ph.off)).last = s.stampFor (s.home ph.off) p.floor ∧
          (t.grp p.blk p.grp).floor = max (s.grp p.blk p.grp).floor (s.stampFor (s.home ph.off) p.floor) ∧
          let k := daStack (s.da ph.off)
          (s.ringFull k = false → (mget {} (t.ring k).entries (s.ring k).next : HistEntry) =
            { line := s.da ph.off / 128, bytes := rdBytes s.mem (s.da ph.off / 128 * 128) 128, stored := mget {} s.lines (s.da ph.off / 128)
              stamp := s.stampFor (s.home ph.off) p.floor
              chain := if mget 0 s.heads (s.da ph.off / 128) = 0 then none else some (mget 0 s.heads (s.da ph.off / 128) - 1) }))) ∧
      (ph.target = 2 → p.migr = false → p.rel = none → p.hold = none → t.mem = wrBytes s.mem (hostBase + ph.off) p.data ∧ Gone s p t) ∧
      -- the hold of a release to host memory
      (∀ sc, ph.target = 2 → p.migr = false → p.rel = some sc → needsMarkers p.rel = false → p.hold = none →
        let st := s.stampFor (sliceOfCore (s.coreOf p)) (s.grp p.blk p.grp).floor
        t.op? op = some { p with stamp := st, hold := some (st / 2 ^ 14 + 17) } ∧ t.mem = s.mem) ∧
      (∀ sc T, ph.target = 2 → p.migr = false → p.rel = some sc → needsMarkers p.rel = false → p.hold = some T →
        let now := s.tickAt (sliceOfCore (s.coreOf p)) - s.stampBase
        (now < T → t = s) ∧ (T ≤ now → t.mem = wrBytes s.mem (hostBase + ph.off) p.data ∧ Gone s p t))) ∧
  (∀ (op : Nat) s, ∃ t, exec (.atomicPerform op) s = .next t ∧ ∀ p spec, LoneOp s op p → p.kind = .atomic → p.atom = some spec →
    let new := fun (old : List Byte) => leBytes p.size (atomNew spec (leNat old) (leNat p.data) (leNat p.cmp))
    let ends := fun (old : List Byte) (bad : Bool) (st a : Nat) => (p.dest = [] → Gone s p t) ∧
      (p.dest ≠ [] → spec.use ≠ .no → Returned s p (orPoison bad p (bytesWords old)) st t) ∧
      -- a value that the location has had since the group's last access to it
      (p.dest ≠ [] → spec.use = .no → ∃ ws, Returned s p (orPoison bad p ws) st t ∧ (ws = bytesWords old ∨
        ∃ (i : Nat) (v : DWord), (mget [] s.past (a / 8))[i]? = some v ∧
          (∀ k, k < (p.size + 3) / 4 → mget 0 (s.grp p.blk p.grp).saw (a / 4 + k) + i < (mget [] s.past (a / 8)).length) ∧
          ws = if p.size = 8 then [v.lo, v.hi] else [if a % 8 = 0 then v.lo else v.hi]))
    (p.bm = true → noObject s p.blk p.addr p.size → let old := rdBytes (s.blk p.blk).bm p.addr p.size
      (t.blk p.blk).bm = wrBytes (s.blk p.blk).bm p.addr (new old) ∧ t.mem = s.mem ∧ (p.dest = [] → Gone s p t) ∧
        (p.dest ≠ [] → Returned s p (orPoison (mget false (s.blk p.blk).bmPoison (p.addr / 32)) p (bytesWords old)) 0 t)) ∧
    ∀ ph, p.bm = false → p.phys = some ph → p.rel = none →
      (ph.target = 0 → s.writeReady ph p.hist p.migr = true → ph.off % 128 + p.size ≤ 128 →
        let old := s.readLocal (s.keyOf p.ctx) ph.off p.size
        LineWritten s (s.keyOf p.ctx) ph.off (new old) t ∧ ends old (s.poisonedAt ph.off)
          (if p.hist = true then s.stampFor (s.home ph.off) p.floor else (s.slice (s.home ph.off)).last) (s.da ph.off)) ∧
      (ph.target = 2 → p.migr = false → p.hold = none → let old := rdBytes s.mem (hostBase + ph.off) p.size
        t.mem = wrBytes s.mem (hostBase + ph.off) (new old) ∧
          ends old (s.hostPoison ph.off p.size) (s.slice (sliceOfCore (s.coreOf p))).last (hostBase + ph.off))) ∧
  -- the integer operations on values of n bits
  (∀ (spec : AtomSpec) (old b cmp : Nat), old < 2 ^ (8 * atomBytes spec.ty) → b < 2 ^ (8 * atomBytes spec.ty) →
    let n := 8 * atomBytes spec.ty
    let v := fun (x : Nat) => if spec.ty = .s32 ∨ spec.ty = .s64 then (BitVec.ofNat n x).toInt else (x : Int)
    (spec.op = .add → atomNew spec old b cmp = (old + b) % 2 ^ n) ∧ (spec.op = .and → atomNew spec old b cmp = old &&& b) ∧
    (spec.op = .or → atomNew spec old b cmp = old ||| b) ∧ (spec.op = .xor → atomNew spec old b cmp = old ^^^ b) ∧
    (spec.op = .xchg → atomNew spec old b cmp = b) ∧ (spec.op = .cas → atomNew spec old b cmp = if old = cmp then b else old) ∧
    (spec.op = .min → atomNew spec old b cmp = if v b < v old then b else old) ∧
    (spec.op = .max → atomNew spec old b cmp = if v old < v b then b else old)) ∧
  ∀ (op : Nat) s,
    (∃ t, exec (.qtQuantumExpiry op) s = .next t ∧ ∀ p, s.op? op = some p →
      ((p.atom.map (·.use)) = some .qt → exec (.atomicPerform op) s = .next t) ∧ ((p.atom.map (·.use)) ≠ some .qt → t = s)) ∧
    ∃ t, exec (.hostStampHold op) s = .next t ∧ ∀ p, s.op? op = some p →
      (p.hold.isSome = true → p.kind = .store → exec (.storePerform op) s = .next t) ∧
      (p.hold.isSome = true → p.kind = .atomic → exec (.atomicPerform op) s = .next t) ∧ (p.hold = none → t = s)

/-- R178, R180, R181, R192, R314: a late fault rolls its lanes back to their region entries and parks them; a faulted store makes a record;
delivery is forced after 32 issues or by a full queue; a counted access increments its page's counter. From which issue on the 32 count,
and that a store sent to a peer goes on, are the model's choices (log entries 62, 95). -/
def Obligations.FaultSteps : Prop :=
  (∀ (op : Nat) s, ∃ t, exec (.lateFault op) s = .next t ∧ t.mem = s.mem ∧ ∀ p x, s.op? op = some p → p.fault = some x → p.kind ≠ .store →
    p.access = true → (s.grp p.blk p.grp).live = true →
    let G := s.grp p.blk p.grp
    (G.trapped = true → (∃ L ∈ p.lanes, L ∈ G.served) → (t.grp p.blk p.grp).live = false ∧ (t.grp p.blk p.grp).cut = true ∧
      (t.kernel (s.blk p.blk).kernel).cir.getLsbD 6 = true) ∧
    (¬ (G.trapped = true ∧ ∃ L ∈ p.lanes, L ∈ G.served) → ∀ L ∈ p.lanes, L < 32 → (G.lane L).helper = false →
      let r := (G.lane L).region
      let l := (t.grp p.blk p.grp).lane L
      l = { G.lane L with
        status := .parked, cause := ⟨x, 0, true, p.addr, p.pc, 0⟩, pc := r.pc, low := r.low, base := r.base, gflag := r.gflag
        gcount := r.gcount, stack := l.stack, preds := l.preds, region := l.region } ∧
      ((∀ q ∈ s.pend, q.blk = p.blk → q.grp = p.grp → q.uid = p.uid) → l.stack = r.stack ∧ l.preds = r.preds) ∧
      -- stores since the region entry that have not performed, and the lane's records, are discarded
      (∀ q ∈ t.pend, q.blk = p.blk → q.grp = p.grp → q.kind = .store → L ∈ q.lanes → q.iid < r.at_ ∨ q.sent = true) ∧
      ∀ f ∈ (t.grp p.blk p.grp).sfq, L ∉ f.lanes)) ∧
  (∀ (op : Nat) s, ∃ t, exec (.storeFaultRecord op) s = .next t ∧ t.mem = s.mem ∧ ∀ p x, s.op? op = some p → p.fault = some x →
    p.kind = .store → (s.grp p.blk p.grp).live = true → (s.kernel (s.blk p.blk).kernel).state ≠ .killing → Gone s p t ∧
    (t.grp p.blk p.grp).sfq = (s.grp p.blk p.grp).sfq ++ [({
      lanes := p.lanes, va := p.addr, data := p.data
      width := if p.size = 1 then 0 else if p.size = 2 then 1 else if p.size = 4 then 2 else if p.size = 8 then 3 else 4
      cause := x, pcOff := (p.pc + 2 ^ 57 - (s.blk p.blk).code) % 2 ^ 32, at_ := (s.grp p.blk p.grp).issues } : StoreFault)]) ∧
  (∀ (u g : Nat) s, ∃ t, exec (.forcedDelivery u g) s = .next t ∧ t.mem = s.mem ∧
    let G := s.grp u g
    let due := G.live = true ∧ ((∃ r ∈ G.sfq, r.at_ + 32 ≤ G.issues) ∨ 16 ≤ G.sfq.length)
    let hold := fun (L : Nat) => L < 32 ∧ (G.lane L).status = .active ∧ G.holdsRecord L = true
    (¬ due → t = s) ∧
    (due → G.trapped = true → (∃ L, hold L ∧ L ∈ G.served) → (t.grp u g).live = false ∧ (t.kernel (s.blk u).kernel).cir.getLsbD 6 = true) ∧
    (due → ¬ (G.trapped = true ∧ ∃ L, hold L ∧ L ∈ G.served) → (∀ L, ¬ hold L → (t.grp u g).lane L = G.lane L) ∧
      ∀ L, hold L → (t.grp u g).lane L = { G.lane L with status := .parked, cause := { code := 15, fpc := (G.lane L).pc } })) ∧
  ∀ s : State, ∃ t, exec .accessCount s = .next t ∧ (s.noted = [] → s.counted = [] → t = s) ∧ ∀ c r, s.noted = [] → s.counted = c :: r →
    let x := s.ctx c.ctx
    let s' := { s with counted := r }
    let va := (x.counterVa + 2 * (c.page / 4096 % 2 ^ x.counterC)) % 2 ^ 64
    (x.counterVa = 0 → t = s') ∧
    ∀ bs bad, x.counterVa ≠ 0 → s'.devLoad c.ctx va 2 = .ok (bs, bad) →
      (leNat bs = 0xFFFF → t = s') ∧
      ∀ t', leNat bs ≠ 0xFFFF → s'.devStore c.ctx 0 none va (leBytes 2 (leNat bs + 1)) false 0 = .ok t' →
        leNat bs + 1 ≠ x.accthr.toNat ∨ (t'.ctx c.ctx).notifyVa = 0 → t = t'

/-! ## Steps of the engines, of placement, blocks and kernels (R113-R147, R188-R191, R257-R304) -/

/-- R48, R257, R260, R261, R263, R266, R268, R270-R272, R281, R289-R294, R302: the array goes to the first candidate; a chunk changes 64
× 128 elements; accumulator rows, sectors, entries and chain records are performed; a fault suspends an entry. What poison leaves, and
the order of the candidates, are the model's readings (log entries 19, 22, 45). -/
def Obligations.EngineSteps : Prop :=
  (∀ (core : Nat) s, ∃ t, exec (.matrixArbitration core) s = .next t ∧ t.mem = s.mem ∧
    ((s.core core).array.isSome = true → t = s) ∧
    ((s.core core).array = none → s.pairWaiting core = none →
      (s.candidates core = [] → t = s) ∧
      (s.candidates core ≠ [] → ∃ x ∈ s.candidates core,
        (∀ y ∈ s.candidates core, y.score < x.score ∨ (y.score = x.score ∧ (x.core < y.core ∨ (x.core = y.core ∧ x.slot ≤ y.slot)))) ∧
        ∀ e, s.matHead x.blk x.grp = some e → e.kind = .mma → (s.blk x.blk).core = some core →
          (t.core core).array = some (x.blk, x.grp) ∧ t.matHead x.blk x.grp = some { e with started := true } ∧
          (t.blk x.blk).accHeld = true ∧ ((s.blk x.blk).accHeld = false → (t.blk x.blk).acc = [])))) ∧
  (∀ (u g : Nat) s, ∃ t, exec (.passPerform u g 1) s = .next t ∧ ∀ e, s.matHead u g = some e → e.kind = .mma → e.susp = none →
    let b := s.blk u
    let j := e.progress
    (e.started = false → e.depth ≠ 0 → t = s) ∧
    -- a chunk of operands that stand in block memory
    (e.started = true → e.asked = none → j < e.depth / 32 → e.a.blk = true → e.b.blk = true → b.opcache = [] → (∀ k, mget false b.bmPoison k = false) →
      e.a.base % 32 = 0 → e.a.stride % 32 = 0 → e.b.base % 32 = 0 → e.b.stride % 32 = 0 →
      let row := fun (o : MatSrc) (m : Nat) => elems o.fmt (rdBytes b.bm (o.base + m * o.stride + j * (32 * matSize o.fmt)) (32 * matSize o.fmt))
      (∀ m n, m < 64 → n < 128 → (t.blk u).accAt (e.row + m) n =
        elemStep e j m n (row e.a m, false) (row e.b n, false) (b.accAt (e.row + m) n)) ∧
      (∀ r n, r < e.row ∨ e.row + 64 ≤ r → n < 128 → (t.blk u).accAt r n = b.accAt r n) ∧ t.mem = s.mem ∧
      (j + 1 < e.depth / 32 → ∃ e', t.matHead u g = some e' ∧ e'.progress = j + 1) ∧
      (j + 1 = e.depth / 32 → (t.grp u g).matq = (s.grp u g).matq.drop 1 ∧
        ((s.grp u g).live = true → (t.grp u g).token e.tok = (s.grp u g).token e.tok - 1)))) ∧
  (∀ (u g rows : Nat) s, ∃ t, exec (.accOpPerform u g rows) s = .next t ∧ ∀ e, s.matHead u g = some e →
    let b := s.blk u
    let n := if e.fmt = .f32 then 512 else 256
    let at_ := e.base + e.progress * e.stride
    (s.matReady u e = false → e.kind ≠ .mma → e.kind ≠ .pair → t = s) ∧
    (s.matReady u e = true → e.asked = none → e.progress < e.rows →
      (e.kind = .zero → e.rows - e.progress ≤ rows →
        (∀ k c, e.progress ≤ k → k < e.rows → c < 128 → (t.blk u).accAt (e.row + k) c = 0#32) ∧
        (t.grp u g).matq = (s.grp u g).matq.drop 1 ∧
        ((s.grp u g).live = true → (t.grp u g).token e.tok = (s.grp u g).token e.tok - 1)) ∧
      (rows = 1 → b.accHeld = true → e.blk = true → e.kind = .st →
        rdBytes (t.blk u).bm at_ n = (List.range 128).flatMap fun c => accOut e.fmt (b.accAt (e.row + e.progress) c)) ∧
      (rows = 1 → b.accHeld = true → e.blk = true → e.kind = .ld → (∀ k, mget false b.bmPoison k = false) →
        ∀ c, c < 128 → (t.blk u).accAt (e.row + e.progress) c = accIn e.fmt (leNat (rdBytes b.bm (at_ + n / 128 * c) (n / 128)))) ∧
      (∀ d, rows = 1 → b.accHeld = true → e.kind = .cp → e.mbar = none → s.roleBlk u e.role = some d →
        rdBytes (t.blk d).bm at_ n = (List.range 128).flatMap fun c => accOut e.fmt (b.accAt (e.row + e.progress) c)))) ∧
  (∀ (core n : Nat) s,
    (∃ t, exec (.copySectorWrite (.ld core n)) s = .next t ∧ ∀ e x, s.copyAt (.ld core n) = some e → e.kind = .ld → e.buf = none →
      e.sent = false → e.progress < e.total → e.mbar = none →
      (s.translate (((s.blk e.blk).core).getD 0) (s.blk e.blk).ctx (e.sectorVa e.progress) .load (s.mayCache 13)).1 = .ok x → x.phys.target = 0 →
      let a := e.bm + 32 * e.progress
      (t.blk e.blk).bm = wrBytes (s.blk e.blk).bm a (s.readLocal (s.keyOf (s.blk e.blk).ctx) x.phys.off 32) ∧
      mget false (t.blk e.blk).bmPoison (a / 32) = s.poisonedIn x.phys.off 32 ∧ mget false (t.blk e.blk).full (a / 16) = true ∧
      mget false (t.blk e.blk).full (a / 16 + 1) = true ∧ t.mem = s.mem ∧
      ∃ e', (t.core core).ldq[n]? = some e' ∧ e'.progress = e.progress + 1) ∧
    (∃ t, exec (.copySectorWrite (.st core n)) s = .next t ∧ ∀ e x, s.copyAt (.st core n) = some e → e.sent = false →
      e.progress < e.total → e.rel = none → e.hold = none → e.at_ = none → e.kind ≠ .ld → e.kind ≠ .tile →
      (s.translate (((s.blk e.blk).core).getD 0) (s.blk e.blk).ctx (e.sectorVa e.progress) .store (s.mayCache 15)).1 = .ok x → x.phys.target = 0 →
      s.writeReady x.phys (bitOf x.leaf 4) (bitOf x.leaf 5) = true → x.phys.off % 128 + 32 ≤ 128 →
      let key := s.keyOf (s.blk e.blk).ctx
      let src := rdBytes (s.blk e.blk).bm (e.bm + 32 * e.progress) 32
      LineWritten s key x.phys.off (match e.kind with
        | .red ty => redSector ty (s.readLocal key x.phys.off 32) src
        | _ => src) t ∧
      ∃ e', (t.core core).stq[n]? = some e' ∧ e'.progress = e.progress + 1) ∧
    (∃ t, exec (.copyEntryPerform (.ld core n)) s = .next t ∧ t.mem = s.mem ∧ ∀ e, s.copyAt (.ld core n) = some e →
      (e.progress < e.total → t = s) ∧
      (e.total ≤ e.progress → (t.core core).ldq = (s.core core).ldq.take n ++ (s.core core).ldq.drop (n + 1) ∧
        ((s.grp e.blk e.grp).live = true → (t.grp e.blk e.grp).token e.tok = (s.grp e.blk e.grp).token e.tok - 1))) ∧
    ∃ t, exec (.engineFault (.ld core n)) s = .next t ∧ t.mem = s.mem ∧ ∀ e, s.copyAt (.ld core n) = some e →
      (s.copyFault e = none → t = s) ∧
      ∀ f, s.copyFault e = some f → (t.core core).ldq[n]? = some { e with susp := some f }) ∧
  (∀ (u g : Nat) s, ∃ t, exec (.engineFault (.mat u g)) s = .next t ∧ ∀ e x va, s.matHead u g = some e → e.kind = .mma →
    e.started = true → e.susp = none → e.asked = none → e.progress < e.depth / 32 → ∀ w, s.passChunk u g e = .fault x va w →
      (∃ e' : MatEntry, t.matHead u g = some { e' with susp := some { code := x, va := va }, started := false } ∧
        e' = { e with pages := e'.pages, pagesB := e'.pagesB }) ∧ ∀ n, (t.core n).array ≠ some (u, g)) ∧
  (∀ (core ch : Nat) s, ∃ t, exec (.chainRecord core ch) s = .next t ∧
    let x : Chan := mget {} (s.core core).chans ch
    let y : Chan := mget {} (t.core core).chans ch
    (x.busy = false → t = s) ∧
    -- a record that stands in local or host memory: its two sectors, the first with the owner byte
    (∀ xl a b s0 s1 s', x.busy = true → x.susp = none → x.entry = none → s.afterDone (x.after.filter (· != x.uid)) = true → x.rcd = [] → x.at_ = none →
      s.engXlat x.blk x.recVa [] = .ok xl s0 →
      s0.engRead (copyClass (s0.blk x.blk).ctx) x.blk x.recVa 0 32 [] xl = .ok a s1 → a.ask = none → a.bytes.length = 32 →
      s1.engRead (copyClass (s1.blk x.blk).ctx) x.blk x.recVa 32 32 a.pages xl = .ok b s' → b.ask = none → b.bytes.length = 32 →
      let bytes := a.bytes ++ b.bytes
      let x' := { x with
        maxStamp := max (max (max x.maxStamp a.stamp) b.stamp) (max (s'.blk x.blk).floor (s'.team (s'.blk x.blk).team).floor)
        rcd := [], bad := false, bad0 := false }
      let owned := leNat ((bytes.drop 25).take 1) % 2 = 1
      (a.poison = true → y.busy = false ∧ y.error = true) ∧
      (a.poison = false → ¬ owned → y.busy = false ∧ y.error = x.error) ∧
      (a.poison = false → owned → b.poison = true ∨ recEntry s' x' bytes = none → y.busy = false ∧ y.error = true) ∧
      ∀ e next, a.poison = false → b.poison = false → owned → recEntry s' x' bytes = some (e, next) →
        y.busy = true ∧ y.entry = some e ∧ y.next = next) ∧
    ∀ e d s', x.busy = true → x.susp = none → x.entry = some e → e.susp = none → e.sent = false → e.given = false → e.total ≤ e.progress →
      s.engStore (copyClass (s.blk x.blk).ctx) x.blk (x.recVa + 25) 1 (fun _ => [0#8]) false false true (max e.floor (max x.maxStamp e.maxStamp)) e.hold e.at_
        [x.recVa / 4096 * 4096] = .ok d s' →
      d.hold = none → d.ask = none → (x.next = 0 → y.busy = false) ∧ (x.next ≠ 0 → y.busy = true ∧ y.entry = none ∧ y.recVa = x.next)) ∧
  -- what a record asks for
  ∀ (s : State) (x : Chan) (bs : List Byte) (e : CopyEntry) (next : Nat), recEntry s x bs = some (e, next) →
    let n := fun a k => leNat ((bs.drop a).take k)
    next = n 0 8 ∧ e.va = n 8 8 ∧ e.bm = n 16 4 ∧ e.bytes = n 20 4 ∧ next % 64 = 0 ∧ e.va % 32 = 0 ∧ e.bm % 32 = 0 ∧ e.bytes % 32 = 0 ∧
    e.bm + e.bytes ≤ (s.blk x.blk).scratch * 1024 ∧ e.tok = x.tok

/-- R52, R53, R96, R113, R114, R122-R126, R130, R140, R141, R144, R145, R147, R148, R190, R191: errors roll a block back or end it; placement, reservation,
heat; eviction; the end of blocks, kernels and contexts. The placing, the return of copies, the rollback and the kill are the model's
readings (log entries 7, 44, 50, 58), as are the turns of contexts on a core (log entry 56) and which errors can be met (log entry 74); what an
eviction loses of a stall, the list of an idle queue, the slice of a completion record and a record that a kill cannot read are its choices
(log entries 85, 91-93). -/
def Obligations.BlockAndKernelSteps : Prop :=
  (∀ (u : Nat) (kind : ErrKind) s, ∃ t, exec (.uncorrectableError u kind) s = .next t ∧ t.mem = s.mem ∧
    let b := s.blk u
    -- the mitten declares an error only where its shadow result does not match
    (s.errorMay u kind = false → t = s) ∧ (∀ regs, kind = .ecc regs → s.errorMay u kind = true) ∧
    (s.errorMay u kind = true → b.live = true →
      (t.kernel b.kernel).cir.getLsbD (match kind with | .ecc _ => 2 | .mitten _ _ => 1) = true ∧
      (b.interval.opened = true → b.interval.flag = true →
        t.blk u = { b with rolling := true, bad := (t.blk u).bad, interval := { b.interval with bad := (t.blk u).interval.bad } } ∧
        -- a bad register raises the error again wherever it is read
        ∀ regs r, kind = .ecc regs → r ∈ regs → r.blk = u → r.place = .map → (⟨r.grp, RegKey.v r.lane r.slot, s.fresh, none⟩ : BadCell) ∈ (t.blk u).bad) ∧
      (¬ (b.interval.opened = true ∧ b.interval.flag = true) → (t.blk u).rolling = false ∧
        ∀ g, (t.grp u g).live = false ∧ ((s.grp u g).live = true → (t.grp u g).cut = true)))) ∧
  -- the shadow result: 8 significant bits toward zero, an unbounded exponent, and the bound of a match
  (∀ (n : Bool) (m : Nat) (e : Int), ∃ (m' k : Nat), trunc8 (.fin n m e) = .fin n m' (e + k) ∧ m' < 256 ∧ m' * 2 ^ k ≤ m ∧ m < (m' + 1) * 2 ^ k ∧
    (0 < k → 128 ≤ m')) ∧
  (∀ (o : ShadowOp) (n : Bool) (m : Nat) (e : Int), (∀ m' e', o.shadow = .fin n m' e' →
    o.mismatch (.fin n m e) = true → m ≠ m' ∨ e ≠ e') ∧ (o.shadow.isNan = true → o.mismatch (.fin n m e) = true)) ∧
  (∀ (u : Nat) s, ∃ t, exec (.blockRollback u) s = .next t ∧ t.mem = s.mem ∧
    let b := s.blk u
    (b.rolling = false → t = s) ∧
    (b.rolling = true → s.enginesStill u = true → (∀ p ∈ s.pend, p.blk = u → p.done = true ∨ p.kind = .store ∧ p.bm = false) →
      (t.blk u).rolling = false ∧ (t.blk u).ports = b.interval.ports ∧ (t.kernel b.kernel).cir.getLsbD 7 = true ∧
      ((b.interval.groups.map (·.grp)).Nodup → ∀ x ∈ b.interval.groups,
        let G := t.grp u x.grp
        G.live = true ∧ G.lanes = (x.lanes.map fun l => (l.1, { l.2 with pocket := ((s.grp u x.grp).lane l.1).pocket })) ∧ G.k = x.k ∧ G.ubase = x.ubase ∧ G.kp = x.kp ∧ G.fpcr = x.fpcr ∧ G.fpsr = x.fpsr ∧
        G.trapped = false ∧ G.sfq = []) ∧
      ((b.interval.shadows.map (·.unit)).Nodup → (∀ x ∈ b.interval.shadows, x.bytes.length = 128) →
        (∀ x ∈ b.interval.shadows, rdBytes (t.blk u).bm (x.unit * 128) 128 = x.bytes) ∧
        ∀ a, (∀ x ∈ b.interval.shadows, x.unit ≠ a / 128) → mget 0#8 (t.blk u).bm a = mget 0#8 b.bm a))) ∧
  (∀ (core : Nat) s, ∃ t, exec (.placementPop core) s = .next t ∧
    let tries := s.ctxOrder.flatMap fun c => (s.queueOrder c).map fun i => (c, i)
    (s.island.st ≠ 3 ∨ s.stopped = true → t = s) ∧
    (s.island.st = 3 → s.stopped = false →
      ((∀ x ∈ tries, s.popTry core x.1 (s.queueAt x.1 x.2) = none) → t = s) ∧
      ∀ pre x post t', tries = pre ++ x :: post → (∀ y ∈ pre, s.popTry core y.1 (s.queueAt y.1 y.2) = none) →
        s.popTry core x.1 (s.queueAt x.1 x.2) = some t' →
        -- queues of one priority take turns
        let p := if x.2 = 16 then 7 else (s.queue (s.queueAt x.1 x.2)).prio
        t = t'.setCtx x.1 { t'.ctx x.1 with rr := mset 0 (t'.ctx x.1).rr p ((x.2 + 1) % 17) })) ∧
  -- a record's block of one core as it starts
  (∀ (s : State) (ctx h core stamp : Nat) (r : Rec), r.entry = none → ∃ u, s.fresh ≤ u ∧
    let t := s.newTeam ctx h r stamp [core]
    let b := t.blk u
    b.live = true ∧ b.ctx = ctx ∧ b.core = some core ∧ b.lanes = r.lanes ∧ b.A = r.A ∧ b.scratch = r.scratch ∧ b.frame = r.frame ∧
    b.join = r.join ∧ b.bid = r.base + (s.queue h).popped ∧ b.bm = [] ∧
    ∀ g L, g < (r.lanes + 31) / 32 → L < 32 →
      let n := 32 * g + L
      let l := (t.grp u g).lane L
      (t.grp u g).live = true ∧ (t.grp u g).floor = stamp ∧ (t.grp u g).ubase = 0 ∧ (∀ k, mget 0#32 (t.grp u g).k k = 0#32) ∧
      (n < r.lanes → l.status = .active ∧ l.helper = false) ∧
      (r.lanes ≤ n → n < (r.lanes + 3) / 4 * 4 → l.status = .active ∧ l.helper = true) ∧
      ((r.lanes + 3) / 4 * 4 ≤ n → l.status = .absent) ∧
      (n < (r.lanes + 3) / 4 * 4 → l.pc = r.code ∧ l.base = 0 ∧ l.low = 0 ∧ l.gcount = 0 ∧
        ∀ x, mget 0#32 l.stack x = if x = 0 then BitVec.ofNat 32 n else 0#32)) ∧
  (∀ (h : Nat) s, ∃ t, exec (.teamReservation h) s = .next t ∧
    let q := s.queue h
    (q.since = none ∨ q.reserved ≠ none → t = s) ∧
    ∀ ctx t0 hd, q.bound = some ctx → q.since = some t0 → q.reserved = none →
      (s.tick < t0 + (s.ctx ctx).tslice → t = s) ∧
      (t0 + (s.ctx ctx).tslice ≤ s.tick → s.mayPop ctx h = true → s.headOf ctx h 0 = some hd →
        -- the quadrant with the most cores that have room, the first of equals
        let usable := fun quad => ((List.range 32).filter fun j =>
          s.coreOpen (quad * 32 + j) && s.room (quad * 32 + j) ((s.headNeed hd).2 0)).length
        ∃ best, best < 16 ∧ (∀ k, k < 16 → usable k ≤ usable best ∧ (k < best → usable k < usable best)) ∧
          t = s.setQueue h { q with reserved := some best })) ∧
  (∀ (core temp droop : Nat) s, ∃ t, exec (.coreThermalUpdate core temp droop) s = .next t ∧
    let c := s.core core
    t.core core = { c with temp := temp, droop := droop, hot := (t.core core).hot } ∧
    (c.hot = false → ((t.core core).hot = true ↔ 95 ≤ temp ∨ 64 ≤ droop)) ∧
    (c.hot = true → ((t.core core).hot = false ↔ temp ≤ 88 ∧ droop < 16)) ∧ ∀ n, n ≠ core → t.core n = s.core n) ∧
  (∀ (ctx core : Nat) s, ∃ t, exec (.partialEviction ctx core) s = .next t ∧
    (mget 0 (s.ctx ctx).turn core < (s.ctx ctx).tslice → t = s) ∧ (s.waitingNeed ctx core = none → t = s) ∧
    ∀ d us, (s.ctx ctx).tslice ≤ mget 0 (s.ctx ctx).turn core → s.waitingNeed ctx core = some d →
      s.victims core d (s.youngest ctx core) [] = some us →
      mget 0 (t.ctx ctx).turn core = 0 ∧ (t.ctx ctx).residency = (s.ctx ctx).residency ∧ ∀ u ∈ us, ∀ v ∈ s.mates u, (t.blk v).evicting = (s.blk v).core.isSome) ∧
  (∀ (u : Nat) s, ∃ t, exec (.blockEvict u) s = .next t ∧ t.mem = s.mem ∧
    let b := s.blk u
    (b.live = false ∨ b.evicting = false ∨ s.dying u = true → t = s) ∧
    (b.live = true → b.evicting = true → s.dying u = false → (∀ v ∈ s.mates u, s.mayLeave v = true) →
      (∀ x ∈ s.blocks, x.2.live = true → x.2.evicting = true → x.2.core.isSome = true → x.2.ctx = b.ctx → x.2.team ≠ b.team → x.2.age ≤ b.age) →
      (∀ v ∈ s.mates u, (t.blk v).core = none) ∧ (t.queue b.queue).resume = s.mates u ++ (s.queue b.queue).resume)) ∧
  (∀ (u : Nat) s, ∃ t, exec (.blockEnd u) s = .next t ∧
    let b := s.blk u
    (b.live = false ∨ b.core = none ∨ b.rolling = true ∨ s.enginesDone u = false ∨ (∃ x ∈ b.groups, x.2.live = true) → t = s) ∧
    (b.live = true → b.core.isSome = true → b.rolling = false → s.enginesDone u = true → (∀ x ∈ b.groups, x.2.live = false) →
      let dies := (s.kernel b.kernel).state = .killing
      (b.cut = true ∨ b.join = 0#64 ∨ dies → (t.blk u).live = false ∧ (t.blk u).core = none ∧ (t.blk u).bm = [] ∧
        (t.kernel b.kernel).ended = (s.kernel b.kernel).ended + 1 ∧ t.mem = s.mem) ∧
      (b.cut = false → b.join ≠ 0#64 → ¬ dies → (∃ p ∈ s.pend, p.blk = u ∧ p.done = false ∧ p.bm = false ∧ reaches .dev p = true) → t = s))) ∧
  (∀ (i : Nat) s, ∃ t, exec (.decrementRetry i) s = .next t ∧ (s.held[i]? = none → t = s) ∧
    ∀ h, s.held[i]? = some h →
      -- after a ring fault it is kept until the queue that its continuation names is armed again
      let kept := h.armed = true ∧ ∃ q, s.joinQueue h = some q ∧ (s.queue q).st ≠ .armed
      (kept → t = s) ∧ (¬ kept →
      (∀ x t', s.implicit h = .held x t' → t = { t' with held := t'.held.set i x }) ∧
      ∀ t', s.implicit h = .finished t' → t = { t' with held := t'.held.eraseIdx i })) ∧
  (∀ (k : Nat) s, ∃ t, exec (.kernelEnded k) s = .next t ∧
    let K := s.kernel k
    let quiet := ∀ p ∈ s.pend, (s.blk p.blk).kernel = k → p.bm = false → p.writes = true → p.done = true
    (K.state ≠ .ending ∨ ¬ quiet → t = s) ∧
    (K.state = .ending → quiet →
      (K.kind = 0 ∨ K.compVa = 0 → t.kernel k = { K with state := .ended, status := 0 } ∧ t.mem = s.mem) ∧
      -- the record of its first attempt
      ∀ t', K.kind ≠ 0 → K.compVa ≠ 0 → s.completion K.ctx (some k) (s.kernelFloor k) K.compVa (if K.compBytes = []
          then leBytes 4 (2 ^ 31) ++ leBytes 4 K.cir.toNat ++ leBytes 8 K.start ++ leBytes 8 s.tick ++ leBytes 4 (min K.ended 0xFFFFFFFF) ++
            leBytes 2 (min K.cutGroups 0xFFFF) ++ leBytes 2 K.id else K.compBytes) = .ok t' →
        t.kernel k = { t'.kernel k with state := .ended, status := 0 } ∧ t.mem = t'.mem)) ∧
  (∀ (k : Nat) s, ∃ t, exec (.watchdogExpiry k) s = .next t ∧ t.mem = s.mem ∧
    let K := s.kernel k
    let due := K.wdog ≠ 0 ∧ K.wdog * 65536 ≤ K.counted ∧ (K.state = .running ∨ K.state = .ending)
    (¬ due → t = s) ∧ (due → (t.kernel k).state = .killing ∧ (t.kernel k).status = 1 ∧ (t.kernel k).teamsLeft = 0)) ∧
  (∀ (k : Nat) s, ∃ t, exec (.kernelKilled k) s = .next t ∧
    let K := s.kernel k
    (K.state ≠ .killing → t = s) ∧
    (K.state = .killing → (∀ x ∈ s.blocks, x.2.live = true → x.2.kernel = k → s.enginesStill x.1 = true) →
      (∀ p ∈ s.pend, (s.blk p.blk).kernel = k → p.bm = false → p.writes = true → p.done = true) → K.kind = 0 ∨ K.compVa = 0 →
      (t.kernel k).state = .ended ∧ (t.kernel k).status = K.status ∧ t.mem = s.mem ∧
      ∀ u, (s.blk u).live = true → (s.blk u).kernel = k → (t.blk u).live = false)) ∧
  ∀ (n : Nat) s, ∃ t, exec (.contextKillDone n) s = .next t ∧
    let isOver := (s.ctx n).state = .killing ∧ (∀ a ∈ s.acts, a.ctx = n → a.st.isOver = true ∨ a.st = .stuck) ∧
      (∀ k ∈ s.kernels, k.2.ctx = n → k.2.state = .ended ∨ k.2.state = .none) ∧ (s.queue (256 + n)).recs = []
    let bound := fun (h : Nat) => ∃ i, i < 16 ∧ s.queueOf n i = some h
    ((s.ctx n).state ≠ .killing → t = s) ∧
    ((s.ctx n).owed = [] → (s.ctx n).state = .killing → ¬ isOver → t = s) ∧
    -- what was pushed since the kill goes, and every queue is idle or stopped and empty
    ((s.ctx n).state = .killing → (t.ctx n).state = .defined → isOver ∧ ∀ h, bound h → (s.queue h).st = .idle ∧ t.queue h = s.queue h ∨
      (t.queue h).st = .stopped ∧ (t.queue h).head = (t.queue h).tail ∧ (t.queue h).popped = 0 ∧ (t.queue h).resume = []) ∧
    ((s.ctx n).owed = [] → isOver → (∀ h, bound h → (s.queue h).st = .idle ∨ ((s.queue h).head = (s.queue h).tail ∧ (s.queue h).popped = 0)) →
      (t.ctx n).state = .defined ∧ t.mem = s.mem) ∧
    -- a completion record that is owed is written first
    ∀ x t', (s.ctx n).owed = [x] → isOver → (∀ h, bound h → (s.queue h).st = .idle) → s.completion n none 0 x.1 x.2 = .ok t' → (t.ctx n).state = .defined ∧ t.mem = t'.mem


/-! ## Steps of activities, history and memory (R344, R354-R356, R386, R395-R402) -/

/-- R134, R344, R354-R356, R386, R395, R398-R400, R402: an entry that may start becomes a routine's continuation; members discard what
commits; waits end; the oldest entry of a ring is reclaimed, which no pin holds; pins break; a rebase clears; a page is re-keyed. A ring
of capacity 0, what peers hold of an activity, and a channel's retraining without effect are the model's (log entries 18, 48, 57). -/
def Obligations.ActivityAndHistorySteps : Prop :=
  (∀ (uid : Nat) s, ∃ t, exec (.compensationStart uid) s = .next t ∧ t.mem = s.mem ∧
    ((s.vesper.find? fun e : Entry => e.uid == uid) = none → t = s) ∧
    ∀ e, (s.vesper.find? fun e : Entry => e.uid == uid) = some e →
      -- the newest of its abandoning activity that is pending, none of it running; nothing newer of its key that is not over
      let may := e.cond = 0 ∧ s.actStateOf e.ctx e.handle = some .abandoning ∧
        (∀ x ∈ s.vesper, x.ctx = e.ctx → x.handle = e.handle → x.uid = uid ∨ 2 ≤ x.cond ∨ (x.cond = 0 ∧ x.stamp < e.stamp)) ∧
        (e.key ≠ 0#64 → ∀ x ∈ s.vesper, x.ctx = e.ctx → x.key = e.key → x.uid ≠ uid → e.stamp < x.stamp → 2 ≤ x.cond) ∧ s.keyElsewhere e = false
      (¬ may → t = s) ∧
      (may → t.vesper = s.vesper.map (fun x : Entry => if x.uid = uid then { e with cond := 1 } else x) ∧
        t.queue (256 + e.ctx) = { s.queue (256 + e.ctx) with recs := (s.queue (256 + e.ctx)).recs ++
          [{ code := e.code, frame := e.arg, join := 0#64, lanes := 32, team := 1, A := 128, scratch := 0, prio := 7, entry := some uid }] })) ∧
  (∀ (n : Nat) (h : Word) (member : Nat) s, ∃ t, exec (.commitDiscard n h member) s = .next t ∧ t.mem = s.mem ∧
    let kept := s.vesper.filter fun e : Entry => !(e.ctx == n && e.handle == h.toNat)
    -- a mirrored record goes with the entries, none of which has been started
    let may := member = s.device ∧ (∀ e ∈ s.vesper, e.ctx = n → e.handle = h.toNat → e.cond = 0) ∧ ∀ a, s.act? n h.toNat = some a → a.st = .opened
    (s.decides n h.toNat = false → ¬ may → t = s) ∧
    (s.decides n h.toNat = false → may →
      t = { s with vesper := kept, acts := s.acts.filter fun a => !(a.ctx == n && a.handle == h.toNat) }) ∧
    ∀ a, s.decides n h.toNat = true → s.act? n h.toNat = some a →
      (a.st ≠ .committing ∨ member ∉ a.discard → t = s) ∧
      (a.st = .committing → member ∈ a.discard →
        let rest := a.discard.filter fun m => m != member
        t.vesper = (if member = s.device then kept else s.vesper) ∧
        t.act? n h.toNat = some (if rest = [] then { a with discard := [], st := .committed, endedAt := s.tick, pin := none }
          else { a with discard := rest }))) ∧
  (∀ (uid : Nat) s, ∃ t, exec (.actTimeout uid) s = .next t ∧ t.mem = s.mem ∧ t.vesper = s.vesper ∧
    ∀ e a, (s.vesper.find? fun e : Entry => e.uid == uid) = some e → s.act? e.ctx e.handle = some a →
      -- an entry that waits, of an activity that is not stuck
      let late := (s.ctx e.ctx).acttmo ≠ 0#32 ∧ (s.ctx e.ctx).acttmo.toNat < e.waited ∧ e.cond = 0
      let runs := a.st = .abandoning ∨ (a.holder ≠ s.device ∧ a.st ≠ .stuck)
      (¬ late ∨ ¬ runs → t = s) ∧
      (late → runs →
        t.act? e.ctx e.handle = some { a with st := .stuck, reason := 2, device := s.device, stuckStamp := e.stamp } ∧
        Logs s [(3, e.ctx, leBytes 4 e.handle ++ List.replicate 4 0#8 ++ leBytes 8 e.stamp)] t)) ∧
  (∀ (k : Nat) s, ∃ t, exec (.historyReclaim k) s = .next t ∧ t.mem = s.mem ∧
    let r := s.ring k
    let e : HistEntry := mget {} r.entries r.oldest
    -- the pins that hold the entry, and whose context lets stores wait
    let due := r.oldest < r.next ∧ s.ringCap ≤ r.next - r.oldest ∧
      (∀ c ∈ s.ctxs, ∀ p ∈ c.2.pins, p.2.used = true → p.2.broken = false → p.2.stamp < e.stamp → s.pinWaits c.1 = false) ∧
      -- nor do those of the other members
      ∀ p ∈ s.peerPins, e.stamp ≤ p.2
    (¬ due → t = s) ∧
    (due → t.ring k = { r with oldest := r.oldest + 1, entries := mdel r.entries r.oldest, stall := none } ∧
      (∀ n, n ≠ k → t.ring n = s.ring n ∨ t.ring n = { s.ring n with stall := none }) ∧
      (∀ n h, (mget {} (s.ctx n).pins h : Pin).used = true → (mget {} (s.ctx n).pins h : Pin).stamp < e.stamp →
        (mget {} (t.ctx n).pins h : Pin).broken = true) ∧
      ∀ n, t.slice n = if n = daSlice (e.line * 128) then { s.slice n with dusk := max (s.slice n).dusk e.stamp } else s.slice n)) ∧
  (∀ (k : Nat) s, ∃ t, exec (.historyRetentionExpiry k) s = .next t ∧ t.mem = s.mem ∧
    let past := fun (st : Nat) => s.hretain ≠ 0#32 ∧ st / 2 ^ 14 + s.hretain.toNat < s.tick - s.stampBase
    (∀ n h, let p : Pin := mget {} (s.ctx n).pins h
      let p' : Pin := mget {} (t.ctx n).pins h
      (p.used = true → past p.stamp → p' = { p with broken := true }) ∧
      (Rising s.ctxs → (∀ c ∈ s.ctxs, Rising c.2.pins) → ¬ past p.stamp → p' = p)) ∧
    let e : HistEntry := mget {} (s.ring k).entries (s.ring k).oldest
    ((s.ring k).oldest < (s.ring k).next → past e.stamp →
      (∀ c ∈ s.ctxs, ∀ p ∈ c.2.pins, p.2.used = true → p.2.broken = false → ¬ past p.2.stamp ∧ e.stamp ≤ p.2.stamp) →
      (∀ p ∈ s.peerPins, e.stamp ≤ p.2) → (t.ring k).oldest = (s.ring k).oldest + 1 ∧ (t.slice (daSlice (e.line * 128))).dusk = max (s.slice (daSlice (e.line * 128))).dusk e.stamp)) ∧
  (∀ (n h : Nat) s, ∃ t, exec (.pinTimeout n h) s = .next t ∧ t.mem = s.mem ∧
    let p : Pin := mget {} (s.ctx n).pins h
    let due := p.used = true ∧ p.broken = false ∧ ∃ k t0 limits, k < 16 ∧ (s.ring k).stall = some (t0, limits) ∧
      -- the context's PINTMO as the stall began
      t0 + ((limits.find? fun x => x.1 == n).map (·.2)).getD (s.ctx n).pintmo.toNat ≤ s.tick ∧
      (s.ring k).oldest < (s.ring k).next ∧ p.stamp < (mget {} (s.ring k).entries (s.ring k).oldest : HistEntry).stamp
    (¬ due → t = s) ∧
    (due → (mget {} (t.ctx n).pins h : Pin) = { p with broken := true } ∧
      -- the stalls that it caused end
      (∀ k, t.ring k = if p.stamp < (mget {} (s.ring k).entries (s.ring k).oldest : HistEntry).stamp then { s.ring k with stall := none }
        else s.ring k) ∧
      -- the other members hear of it
      Tells s 5 (leBytes 8 p.stamp) t ∧
      ((s.kernel p.kernel).state = .running ∨ (s.kernel p.kernel).state = .ending → (t.kernel p.kernel).cir.getLsbD 5 = true) ∧
      (p.activity = false → (s.kernel p.kernel).state = .ended →
        Logs s [(6, n, [BitVec.ofNat 8 h, 0#8, 0#8, 0#8] ++ leBytes 4 0 ++ leBytes 8 p.stamp)] t))) ∧
  (∀ s : State, s.tick - s.stampBase < 2 ^ 50 - 2 ^ 45 → exec .domainRebase s = .next s) ∧
  (∀ s : State, 2 ^ 50 - 2 ^ 45 ≤ s.tick - s.stampBase → ∃ t, exec .domainRebase s = .next t ∧ t.mem = s.mem ∧ t.lines = s.lines ∧
    t.stampBase = s.tick ∧
    (∀ k, t.ring k = {}) ∧ t.heads = [] ∧ t.lastWrite = [] ∧ (∀ n, t.slice n = {}) ∧ t.peerDusk = [] ∧
    (∀ u g, (t.blk u).floor = 0 ∧ (t.grp u g).floor = 0) ∧ (∀ n, (t.team n).floor = 0) ∧ (∀ p ∈ t.pend, p.floor = 0) ∧
    (∀ n h, (mget {} (s.ctx n).pins h : Pin).used = true → (mget {} (t.ctx n).pins h : Pin).broken = true) ∧
    (∀ p ∈ t.pend, p.kind = .asof → p.done = false → p.fault = some 13) ∧
    ∀ c ∈ t.cores, ∀ q ∈ c.2.quarters, ∀ m ∈ q.2.memo, m.asof = false) ∧
  (∀ (page : Nat) s, ∃ t, exec (.pageRekey page) s = .next t ∧ t.mem = s.mem ∧
    let line := fun i => s.da (page * 4096 + 128 * i) / 128
    let full := ∃ i, i < 32 ∧ (mget {} s.lines (line i) : LineMeta).ctr = BitVec.ofNat 56 (2 ^ 56 - 1)
    (¬ full → t = s) ∧
    (full → (∀ n, mget 0#8 t.pageGen n = if n = page then mget 0#8 s.pageGen page + 1 else mget 0#8 s.pageGen n) ∧
      (∀ i, i < 32 → (mget {} t.lines (line i) : LineMeta) = if (mget {} s.lines (line i) : LineMeta).ctr = 0#56 then mget {} s.lines (line i)
        else { (mget {} s.lines (line i) : LineMeta) with ctr := 1#56, gen := mget 0#8 s.pageGen page + 1 }) ∧
      (∀ n, (∀ i, i < 32 → line i ≠ n) → (mget {} t.lines n : LineMeta) = mget {} s.lines n) ∧
      -- what was written reads as before
      ∀ i off n, i < 32 → off / 128 = (page * 4096 + 128 * i) / 128 → (mget {} s.lines (line i) : LineMeta).offL = off / 128 →
        t.readLocal (mget {} s.lines (line i) : LineMeta).key off n = s.readLocal (mget {} s.lines (line i) : LineMeta).key off n)) ∧
  (∀ (stack channel : Nat) s, exec (.channelRetrain stack channel) s = .next s) ∧
  -- a scrub marks what it cannot correct, and never clears poison
  ∀ (line : Nat) s, ∃ t, exec (.scrub line) s = .next t ∧ t.mem = s.mem ∧ t.lines = s.lines ∧
    (∀ n, mget false s.poison n = true → mget false t.poison n = true) ∧ (∀ n, n / 4 ≠ line → mget false t.poison n = mget false s.poison n) ∧
    ∀ k, k ≠ (640 + daSlice (128 * line) / 8) * 32 + 5 → mget 0#32 t.units k = mget 0#32 s.units k

/-! ## Observation and hosts (R374-R391, R403-R418) -/

/-- R8, R14, R116, R372, R374-R376, R380, R388-R391, R403, R404, R407-R409, R413-R416, R418: latches, samples, stops and tests; ownership;
and what a host's writes do to the registers, to maps and to memory. The causes of dropped writes, the zeros of a refused doorbell's
event, the status of an early claim, the key of HMEMCTX, tests in state 3 alone, the units of the frames' words, writes to full lines, CSR
registers that any host reads, and CLAIM by the owner are the model's (log entries 32-36, 60, 75, 80, 89). -/
def Obligations.ObservationAndHostSteps : Prop :=
  (∀ s : State, ∃ t, exec .seriesLatch s = .next t ∧
    let due := s.seriesk ≠ 0#32 ∧ (s.tick - s.stampBase) % 2 ^ s.seriesk.toNat = 0 ∧ s.serLast ≠ s.tick + 1
    (¬ due → t = s) ∧
    (due → t.serSeq = (s.serSeq + 1) % 2 ^ 32 ∧ t.serLast = s.tick + 1 ∧
      (s.serSize = 0 → t = { s with serSeq := (s.serSeq + 1) % 2 ^ 32, serLast := s.tick + 1, fresh := t.fresh }))) ∧
  -- a frame, and a push of it to a ring in host memory
  (∀ (s : State) (id : Nat), id < 677 → (s.frame id).length = 128 ∧
    (s.frame id).take 16 = leBytes 8 s.tick ++ leBytes 2 id ++ [BitVec.ofNat 8 (unitKind id).1, BitVec.ofNat 8 (unitKind id).2] ++ leBytes 4 s.serSeq ∧
    ∀ i, i < (unitKind id).2 → let w := leNat (((s.frame id).drop (16 + 4 * i)).take 4)
      ((unitKind id).1 = 0 → i = 16 → w = s.cycleOf id % 2 ^ 32) ∧
      (¬ ((unitKind id).1 = 0 ∧ i = 16) → w = (mget 0#32 s.units (id * 32 + i)).toNat)) ∧
  (∀ (s : State) (bs : List Byte), s.serBase.toNat / 2 ^ 48 = 2 → s.serBase.toNat % 2 ^ 40 + 16 + 128 * 2 ^ s.serSize ≤ 2 ^ 40 →
    let a := hostBase + s.serBase.toNat % 2 ^ 40
    let w := leNat (rdBytes s.mem a 4)
    let r := leNat (rdBytes s.mem (a + 4) 4)
    (s.framePush bs).mem = if (w + 2 ^ 32 - r) % 2 ^ 32 = 2 ^ s.serSize
      then wrBytes s.mem (a + 8) (leBytes 4 (min (leNat (rdBytes s.mem (a + 8) 4) + 1) 0xFFFFFFFF))
      else wrBytes (wrBytes s.mem (a + 16 + 128 * (w % 2 ^ s.serSize)) bs) a (leBytes 4 ((w + 1) % 2 ^ 32))) ∧
  (∀ (core quarter : Nat) s, ∃ t, exec (.pcSample core quarter) s = .next t ∧
    let q := (s.core core).quarter quarter
    (q.sampDue = [] → t = s) ∧
    -- the records of one context: written in order; a fault turns sampling off, and keeps what was written
    ∀ n recs, q.sampDue = [(n, recs)] →
      (∀ t' left, s.pushAll n (s.ctx n).sampBase.toNat (s.ctx n).sampM recs = (.ok t', left) →
        mget [] ((t.core core).quarter quarter).sampDue n = [] ∧ t.mem = t'.mem) ∧
      ∀ va t' left, s.pushAll n (s.ctx n).sampBase.toNat (s.ctx n).sampM recs = (.fault va t', left) → (t.ctx n).sampPeriod = 0 ∧
        t.mem = t'.mem ∧ Logs t' [(7, n, [1#8] ++ List.replicate 7 0#8 ++ leBytes 8 va)] t) ∧
  -- a quarter counts a cycle, and samples its slots at each period
  (∀ (s : State) (core quarter n : Nat),
    let q := (s.core core).quarter quarter
    let t := s.sampleCount core quarter n
    let q' := (t.core core).quarter quarter
    let p := (s.ctx n).sampPeriod
    (p = 0 → t = s) ∧
    (p ≠ 0 → mget 0 q.samp n + 1 < p → mget 0 q'.samp n = mget 0 q.samp n + 1 ∧ q'.sampDue = q.sampDue) ∧
    (p ≠ 0 → p ≤ mget 0 q.samp n + 1 → mget 0 q'.samp n = 0 ∧
      mget [] q'.sampDue n = mget [] q.sampDue n ++ (((s.slotList core).filter fun x => x.1 / 8 == quarter && (s.blk x.2.1).ctx == n).sortBy
        fun a b => decide (a.1 ≤ b.1)).map fun x => s.sampleBytes core quarter x.1 x.2.1 x.2.2)) ∧
  (∀ s : State, ∃ t, exec .stopAt s = .next t ∧
    let due := s.stopat.toNat ≠ 2 ^ 64 - 1 ∧ s.stopat.toNat = s.tick ∧ s.stopSet < s.tick ∧ s.stopped = false
    (¬ due → t = s) ∧ (due → t = { s with stopped := true, stopat := BitVec.ofNat 64 (2 ^ 64 - 1), stopTick := s.tick })) ∧
  (∀ (host : Nat) s, ∃ t, exec (.stopResume host) s = .next t ∧
    (s.island.owner ≠ some host → Drops s host 1 0x3002C t) ∧ (s.island.owner = some host → s.stopped = false → t = s) ∧
    (s.island.owner = some host → s.stopped = true → t.stopped = false ∧ t.resumeTick = s.tick + 1 ∧ t.mem = s.mem ∧ t.blocks = s.blocks)) ∧
  (∀ (q : Nat) s, ∃ t, exec (.quadrantTest q) s = .next t ∧
    let may := s.island.st = 3 ∧ q < 16 ∧ (∀ b ∈ s.blocks, b.2.live = true → ∀ n, b.2.core = some n → n / 32 ≠ q) ∧
      (s.quad q).busyAt + 10000000 ≤ s.tick ∧ s.island.quarantine.getLsbD q = false ∧ (s.quad q).testing = none
    (¬ may → t = s) ∧ (may → t = s.setQuad q { s.quad q with testing := some s.tick })) ∧
  (∀ (q : Nat) s, ∃ t, exec (.quadrantTestDone q true) s = .next t ∧
    t = if (s.quad q).testing = none then s else s.setQuad q { s.quad q with testing := none, lastPass := s.tick }) ∧
  (∀ (q : Nat) s, ∃ t, exec (.quadrantTestDone q false) s = .next t ∧ ((s.quad q).testing = none → t = s) ∧
    ((s.quad q).testing ≠ none → q < 16 → (∀ n, t.island.quarantine.getLsbD n = (s.island.quarantine.getLsbD n || decide (n = q))) ∧
      t.island.partVer = s.island.partVer + 1 ∧
      let pay := leBytes 6 (s.quad q).lastPass ++ leBytes 6 s.tick ++ [BitVec.ofNat 8 q, 0#8, 0#8, 0#8]
      ∃ cs : List Nat, cs.Pairwise (· < ·) ∧ Logs s ((0xFFFF :: cs).map fun n => (0x0D, n, pay)) t ∧
        ∀ n, n ∈ cs ↔ ∃ p ∈ s.placeLog, p.quad = q ∧ (s.quad q).lastPass ≤ p.tick ∧ p.tick ≤ s.tick ∧ p.ctx = n)) ∧
  -- doorbells
  (∀ (host h : Nat) (v : Word) s, ∃ t, exec (.queueDoorbell host h v) s = .next t ∧
    (s.island.st = 0 ∨ 256 ≤ h → t = s) ∧
    (s.island.st ≠ 0 → h < 256 → (s.island.owner ≠ some host → Drops s host 1 (0x10000 + 16 * h) t) ∧
      (s.island.owner = some host →
        let q := s.queue h
        let ok := (q.st = .armed ∨ q.st = .stopped) ∧ q.occ + (v - q.tail).toNat ≤ 2 ^ q.n
        (ok → t = s.setQueue h { q with tail := v }) ∧
        (¬ ok → Logs s [(2, q.bound.getD 0xFFFF, [BitVec.ofNat 8 h, 1#8, 0#8, 0#8] ++ leBytes 4 0 ++ leBytes 8 0)] t ∧ t.queue h = q)))) ∧
  -- ownership
  (∀ c : Sender, OpenCommand (.claim c) c 0x01 noArgs fun s t =>
    -- a grant that is due comes first: 1 s after boot, to the highest-listed host that claimed
    let first := if s.island.bootTick + 1000000000 ≤ s.tick then s.island.precedence.find? fun h => decide (h ∈ s.island.claims) else none
    (∀ o, s.island.owner = some o → Replied s c.host (if o = c.host then 1 else 2) [] t ∧ OnlyReply s t) ∧
    (∀ o, s.island.owner = none → first = some o → Replied s c.host (if o = c.host then 1 else 2) [] t ∧
      t.island = { s.island with owner := some o, heartbeat := s.tick, claims := [] } ∧ Logs s [(0x0C, 0xFFFF, [BitVec.ofNat 8 o, 0xFF#8, 0#8])] t) ∧
    (s.island.owner = none → first = none → Replied s c.host 0 [] t ∧
      let waits := s.island.precedence ≠ [] ∧ s.tick < s.island.bootTick + 1000000000
      (waits → t.island = { s.island with claims := s.island.claims ++ [c.host] }) ∧
      (¬ waits → t.island = { s.island with owner := some c.host, heartbeat := s.tick, claims := [] } ∧
        Logs s [(0x0C, 0xFFFF, [BitVec.ofNat 8 c.host, 0xFF#8, 0#8])] t))) ∧
  (∀ s : State, ∃ t, exec .ownershipGrant s = .next t ∧
    let due := s.island.st ≠ 0 ∧ s.island.owner = none ∧ s.island.bootTick + 1000000000 ≤ s.tick
    let first := s.island.precedence.find? fun h => decide (h ∈ s.island.claims)
    (¬ due ∨ first = none → t = s) ∧
    ∀ h, due → first = some h → t.island = { s.island with owner := some h, heartbeat := s.tick, claims := [] } ∧
      Logs s [(0x0C, 0xFFFF, [BitVec.ofNat 8 h, 0xFF#8, 0#8])] t) ∧
  (∀ (c : Cmd) (n : Nat), Commands (.handover c n) c 0x02 (arg4 n) (fun _ => (if 8 ≤ n then 3 else 0, [])) fun s t =>
    (8 ≤ n → NoEffect c s t) ∧
    (n < 8 → t.island = { s.island with owner := some n, heartbeat := s.tick, claims := [], lastAccepted := c.seq } ∧
      Logs s [(0x0C, 0xFFFF, [BitVec.ofNat 8 n, BitVec.ofNat 8 c.host, 1#8])] t)) ∧
  (∀ (host : Nat) s, exec (.heartbeat host) s =
    .next (if s.island.owner = some host then { s with island := { s.island with heartbeat := s.tick } } else s)) ∧
  (∀ s : State, ∃ t, exec .ownerHeartbeatLapse s = .next t ∧
    let due := s.island.owner ≠ none ∧ s.island.heartbeat + 3 * s.island.hbPeriod * 1000000 < s.tick
    (¬ due → t = s) ∧ ∀ o, due → s.island.owner = some o → t.island.owner = none ∧ Logs s [(0x0C, 0xFFFF, [0xFF#8, BitVec.ofNat 8 o, 2#8])] t) ∧
  (∀ (host : Nat) (v : Word) s,
    (∃ t, exec (.hbperiodWrite host v) s = .next t ∧
      (s.island.owner ≠ some host → Drops s host 1 0x34 t) ∧
      (s.island.owner = some host → v.toNat < 10 ∨ 10000 < v.toNat → Drops s host 4 0x34 t) ∧
      (s.island.owner = some host → 10 ≤ v.toNat → v.toNat ≤ 10000 →
        t = { s with island := { s.island with hbPeriod := v.toNat, heartbeat := s.tick } })) ∧
    ∃ t, exec (.hmemctxWrite host v) s = .next t ∧
      let zero := v.toNat / 2 ^ 12 % 8 = 0 ∧ v.toNat / 2 ^ 16 = 0
      (s.island.owner ≠ some host → Drops s host 1 0x38 t) ∧ (s.island.owner = some host → ¬ zero → Drops s host 2 0x38 t) ∧
      (s.island.owner = some host → zero → t = { s with island := { s.island with hmemctx := v } })) ∧
  -- registers through BAR0: a read-only one reads as its value, a write-only one as 0
  (∀ (s : State) (host : Nat), s.registerRead host 0x10 = s.island.lastAccepted ∧ s.registerRead host 0x38 = s.island.hmemctx ∧
    s.registerRead host 0x2C = BitVec.ofNat 32 (s.island.owner.getD 8) ∧ s.registerRead host 0x0C = 0#32 ∧ s.registerRead host 0x30 = 0#32 ∧
    ∀ region, region < 7 → s.registerRead host (0x1020140 + 0x200 * region) = 0#32 ∧
      s.registerRead host (0x1020144 + 0x200 * region) = BitVec.ofNat 32 (mget {} s.maps region : MapReg).stat) ∧
  (∀ (host off : Nat) (v : Word) s, s.island.st ≠ 0 → host < 8 →
    let w := s.host host
    let into := fun (w' : HostW) => exec (.hostRegisterWrite host off v) s = .next (s.setHost host w')
    let drops := fun (cause at_ : Nat) => ∃ t, exec (.hostRegisterWrite host off v) s = .next t ∧ Drops s host cause at_ t
    let whole := v.toNat % 4096 = 0
    (off = 0x00 ∨ off = 0x18 → ¬ whole → drops 4 off) ∧
    (off = 0x00 → whole → into { w with cmdBase := dwordOf v w.cmdBase.hi }) ∧ (off = 0x04 → into { w with cmdBase := dwordOf w.cmdBase.lo v }) ∧
    (off = 0x08 → (4 ≤ v.toNat → v.toNat ≤ 12 → into { w with cmdSize := v }) ∧ (16 ≤ v.toNat → drops 2 off) ∧
      (v.toNat < 4 ∨ (12 < v.toNat ∧ v.toNat < 16) → drops 4 off)) ∧
    (off = 0x0C → into { w with cmdTail := v }) ∧
    (off = 0x18 → whole → into { w with evtBase := dwordOf v w.evtBase.hi }) ∧ (off = 0x1C → into { w with evtBase := dwordOf w.evtBase.lo v }) ∧
    (off = 0x20 → (4 ≤ v.toNat → v.toNat ≤ 14 → into { w with evtSize := v }) ∧ (16 ≤ v.toNat → drops 2 off) ∧
      (v.toNat < 4 ∨ v.toNat = 15 → drops 4 off)) ∧
    (off = 0x24 → into { w with evtHead := v }) ∧
    (off = 0x10 → v = s.island.lastAccepted → exec (.hostRegisterWrite host off v) s = .next s) ∧
    (off = 0x10 → v ≠ s.island.lastAccepted → drops 2 off) ∧
    (0x3C ≤ off → off < 0x1000000 → drops 2 off) ∧
    (0x1000000 ≤ off → s.island.owner ≠ some host → drops 1 (off - 0x1000000)) ∧
    (s.island.owner = some host →
      (off = 0x1030000 → exec (.hostRegisterWrite host off v) s = .next { s with serBase := dwordOf v s.serBase.hi }) ∧
      (off = 0x1030004 → exec (.hostRegisterWrite host off v) s = .next { s with serBase := dwordOf s.serBase.lo v }) ∧
      (off = 0x1030008 → v.toNat = 0 ∨ (8 ≤ v.toNat ∧ v.toNat ≤ 24) →
        exec (.hostRegisterWrite host off v) s = .next { s with serSize := v.toNat }) ∧
      (off = 0x1030020 → exec (.hostRegisterWrite host off v) s = .next { s with stopat := dwordOf v s.stopat.hi, stopSet := s.tick }) ∧
      (off = 0x1030024 → exec (.hostRegisterWrite host off v) s = .next { s with stopat := dwordOf s.stopat.lo v, stopSet := s.tick }) ∧
      (off = 0x103002C → v = 1#32 → exec (.hostRegisterWrite host off v) s = exec (.stopResume host) s) ∧
      (off = 0x1021000 → exec (.hostRegisterWrite host off v) s = exec (.memcfgWrite host v) s) ∧
      (∀ h, h < 256 → off = 0x1010000 + 16 * h → exec (.hostRegisterWrite host off v) s = exec (.queueDoorbell host h v) s) ∧
      (∀ n, n < 4096 → off = 0x1040008 + 64 * n → exec (.hostRegisterWrite host off v) s = exec (.samplePeriodWrite host n v) s) ∧
      (∀ n, n < 4096 → off = 0x1040018 + 64 * n → exec (.hostRegisterWrite host off v) s = exec (.traceEnable host n v) s) ∧
      ∀ region, region < 7 →
        (off = 0x1020140 + 0x200 * region → exec (.hostRegisterWrite host off v) s = exec (.mapLoad host region v) s) ∧
        ∀ i, i < 40 → off = 0x1020000 + 0x200 * region + 8 * i → ∃ t, exec (.hostRegisterWrite host off v) s = .next t ∧
          (∀ k, (mget {} t.maps region : MapReg).row k = if k = i
            then (mget {} s.maps region : MapReg).row i / 2 ^ 32 * 2 ^ 32 + v.toNat else (mget {} s.maps region : MapReg).row k) ∧
          (mget {} t.maps region : MapReg).active = (mget {} s.maps region : MapReg).active ∧ ∀ r, r ≠ region → (mget {} t.maps r : MapReg) = mget {} s.maps r)) ∧
  (∀ (host region : Nat) (v : Word) s, ∃ t, exec (.mapLoad host region v) s = .next t ∧
    let at_ := 0x20140 + 0x200 * region
    (s.island.owner ≠ some host → Drops s host 1 at_ t) ∧
    (s.island.owner = some host → 7 ≤ region ∨ 2 ≤ v.toNat → Drops s host 2 at_ t) ∧
    (s.island.owner = some host → region < 7 → v = 0#32 → t = s) ∧
    (s.island.owner = some host → region < 7 → v = 1#32 →
      let m : MapReg := mget {} s.maps region
      let rows := (List.range 40).map m.row
      let busy := (∃ c ∈ s.ctxs, c.1 ≠ 0 ∧ c.2.state ≠ .free) ∨ ∃ b ∈ s.blocks, b.2.live = true ∧ b.2.core.isSome = true ∧ b.2.ctx = 0
      let fixed := (∀ i, i < 7 → m.row i = 2 ^ i) ∧ ∀ i, i < 4 → m.row (26 + i) = 2 ^ (36 + i)
      ∃ n, (n = 2 ↔ busy) ∧ (n = 3 ↔ ¬ busy ∧ ¬ fixed) ∧ (n = 1 ↔ ¬ busy ∧ fixed ∧ gfInvertible rows = false) ∧
        (n = 0 ↔ ¬ busy ∧ fixed ∧ gfInvertible rows = true) ∧
        ∀ r, (mget {} t.maps r : MapReg) = if r = region then { m with stat := n, active := if n = 0 then some rows else m.active }
          else mget {} s.maps r)) ∧
  (∀ (host : Nat) (v : Word) s, ∃ t, exec (.memcfgWrite host v) s = .next t ∧ t.mem = s.mem ∧
    (s.island.owner ≠ some host → Drops s host 1 0x21000 t) ∧
    (s.island.owner = some host → 8 ≤ v.toNat → Drops s host 2 0x21000 t) ∧
    (s.island.owner = some host → 4 < v.toNat → v.toNat < 8 → Drops s host 4 0x21000 t) ∧
    (s.island.owner = some host → v.toNat ≤ 4 → (s.mapBusy = true ∨ v.toNat = s.hres → t = s) ∧
      (s.mapBusy = false → v.toNat ≠ s.hres → t.hres = v.toNat ∧ t.rings = [] ∧ t.heads = [] ∧ t.lastWrite = [] ∧
        (∀ n, t.slice n = if n < 128 then { s.slice n with dusk := s.sliceT n } else s.slice n) ∧
        -- as-of entries below a slice's dusk end, and the other members hear of it
        t.duskNew = true ∧ ∀ c ∈ t.cores, ∀ q ∈ c.2.quarters, ∀ m ∈ q.2.memo, m.asof = true →
          ∀ l ∈ m.lines, (t.slice (daSlice (l * 128))).dusk ≤ m.asofS))) ∧
  (∀ (host n : Nat) (v : Word) s,
    let owns := s.island.owner = some host
    (∃ t, exec (.samplePeriodWrite host n v) s = .next t ∧
      let period := v.toNat % 2 ^ 24
      let m := v.toNat / 2 ^ 24 % 32
      let ok := (m = 0 ∧ period = 0) ∨ (4 ≤ m ∧ m ≤ 20)
      (¬ owns → Drops s host 1 (0x40008 + 0x40 * n) t) ∧ (owns → 4096 ≤ n ∨ v.toNat / 2 ^ 29 ≠ 0 → Drops s host 2 (0x40008 + 0x40 * n) t) ∧
      (owns → n < 4096 → v.toNat / 2 ^ 29 = 0 → (¬ ok → Drops s host 4 (0x40008 + 0x40 * n) t) ∧
        (ok → t.ctx n = { s.ctx n with sampPeriod := period, sampM := m } ∧
          ∀ core q, mget 0 ((t.core core).quarter q).samp n = 0))) ∧
    ∃ t, exec (.traceEnable host n v) s = .next t ∧
      let en := v.getLsbD 0
      let m := v.toNat / 2 % 32
      let ok := (m = 0 ∧ en = false) ∨ (4 ≤ m ∧ m ≤ 20)
      (¬ owns → Drops s host 1 (0x40018 + 0x40 * n) t) ∧ (owns → 4096 ≤ n ∨ 64 ≤ v.toNat → Drops s host 2 (0x40018 + 0x40 * n) t) ∧
      (owns → n < 4096 → v.toNat < 64 → (¬ ok → Drops s host 4 (0x40018 + 0x40 * n) t) ∧
        (ok → let on := en = true ∧ (s.ctx n).trcEn = false
          t.ctx n = { s.ctx n with trcEn := en, trcM := m, trcLast := if on then [] else (s.ctx n).trcLast } ∧
          (¬ on → t.traced = s.traced ∧ t.blocks = s.blocks) ∧
          (on → Rising s.blocks → ∃ new, t.traced = s.traced ++ new ∧ ∀ r ∈ new, r.kind = 0 ∧ r.ctx = n ∧ r.tick = s.tick)))) ∧
  -- CXL.mem and CXL.cache
  (∀ (host off n : Nat) s, ∃ t, exec (.hostMemRead host off n) s = .next t ∧ t = { s with replies := t.replies, fresh := t.fresh, units := t.units } ∧
    (s.island.st = 0 ∨ 8 ≤ host ∨ s.usable < off + n → t = s) ∧
    (s.island.st ≠ 0 → host < 8 → off + n ≤ s.usable →
      let r : HostReply := mget {} t.replies host
      let up := s.island.st = 3 ∨ s.island.st = 4
      (s.hostKey host = none ∨ ¬ up → r.data.length = n ∧ r.poison = true) ∧
      ∀ k, s.hostKey host = some k → up → (∀ i, i < n → r.data.getD i 0#8 = (s.readLocal k (off + i) 1).getD 0 0#8) ∧
        (r.poison = true ↔ ∃ i, i < n ∧ s.poisonedAt (off + i) = true))) ∧
  (∀ (s : State) (host : Nat), s.hostKey host =
    let n := s.island.hmemctx.toNat % 2 ^ 12
    if s.island.owner = some host ∧ s.island.hmemctx.getLsbD 15 = true
    then (if (s.ctx n).state = .free ∨ (s.ctx n).state = .killing then none else some (s.ctx n).key) else some (s.ctx 0).key) ∧
  (∀ (host off : Nat) (bytes : List Byte) s, ∃ t, exec (.hostMemWrite host off bytes) s = .next t ∧
    (s.island.st = 0 ∨ 8 ≤ host ∨ s.usable < off + bytes.length → t = s) ∧
    (s.island.st ≠ 0 → host < 8 → off + bytes.length ≤ s.usable →
      let up := s.island.st = 3 ∨ s.island.st = 4
      (s.island.owner ≠ some host → Drops s host 1 off t) ∧
      (s.island.owner = some host → ¬ up → Drops s host 3 off t) ∧
      (s.island.owner = some host → up → s.hostKey host = none → Drops s host 5 off t) ∧
      ∀ k, s.island.owner = some host → up → s.hostKey host = some k → bytes ≠ [] → off % 128 + bytes.length ≤ 128 →
        (s.lineFull off = true → t = s) ∧ (s.lineFull off = false → LineWritten s k off bytes t))) ∧
  ∀ (line : Nat) (bytes : List Byte) s, ∃ t, exec (.cxlCacheInvalidation line bytes) s = .next t ∧
    t.mem = wrBytes s.mem (hostBase + 128 * line) (bytes.take 128) ∧
    (∀ n, mget 0 (t.core n).l1 (hostBase / 128 + line) = 0) ∧
    ∀ c ∈ t.cores, ∀ q ∈ c.2.quarters, ∀ m ∈ q.2.memo, m.load = true → m.asof = false → (hostBase / 128 + line) ∉ m.lines

/-- R15, R95-R98, R115, R320, R345, R361, R371, R374, R377, R380-R382, R416: the commands of the owner, their status, result and effect;
STATUS and READ_EVENTS; the attestation mailbox. The place of STATUS's bytes, the form of mailbox messages, and BAD_STATE outside joined,
FW_ACTIVATE below the counter, zero bytes tested after the number, what TLB_INVAL drops and holds, what a kill discards, what a reset keeps and
how events are then numbered, and the IDE streams are the model's (log entries 9, 37-40, 47, 58, 75, 77, 90). -/
def Obligations.CommandSteps : Prop :=
  (∀ c : Sender, OpenCommand (.status c) c 0x04 noArgs fun s t => Replied s c.host 0
    ([BitVec.ofNat 8 s.island.st, s.island.inc, 0#8, 0#8] ++ leBytes 4 s.island.lastAccepted.toNat ++ leBytes 4 (s.logNext - 1)) t ∧ OnlyReply s t) ∧
  (∀ (c : Sender) (first count pa : Nat), OpenCommand (.readEvents c first count pa) c 0x05
      (fun x => isArg 0 4 first x && isArg 4 4 count x && isArg 8 8 pa x) fun s t =>
    -- the events of this boot that the log still holds
    let l := s.log.drop (s.log.length - (s.logNext - 1))
    (first < s.logNext - l.length → Replied s c.host 7 [] t ∧ OnlyReply s t) ∧
    (s.logNext - l.length ≤ first →
      let bytes := (l.filter fun e => decide (first ≤ e.seq ∧ e.seq < first + count)).flatMap EventRec.bytes
      Replied { s with mem := wrBytes s.mem (hostBase + pa) bytes } c.host 0 [] t)) ∧
  (∀ (c : Cmd) (pa : Nat) s, NextCommand s c 0x10 (isArg 0 8 pa) →
    let bs := rdBytes s.mem (hostBase + pa) 128
    let n := fun a k => leNat ((bs.drop a).take k)
    let cn := n 0 2
    let free := (List.range 256).filter fun h => (s.queue h).bound.isNone
    let ok := createOk s.usable bs
    let room := s.shares + n 60 4 ≤ 2 ^ 20 ∧ n 58 1 ≤ free.length
    ∃ t, exec (.ctxCreate c pa) s = .next t ∧
      (ok = false → Replied s c.host 3 [] t ∧ NoEffect c s t) ∧
      (ok = true → s.island.st ≠ 3 ∨ (s.ctx cn).state ≠ .free → Replied s c.host 1 [] t ∧ NoEffect c s t) ∧
      (ok = true → s.island.st = 3 → (s.ctx cn).state = .free →
        (¬ room → Replied s c.host 6 [] t ∧ NoEffect c s t) ∧
        (room → Replied s c.host 0 ((List.range 16).map fun i => if i < n 58 1 then BitVec.ofNat 8 (free.getD i 0) else 0xFF#8) t ∧
          t.island.lastAccepted = c.seq ∧
          (let x := t.ctx cn
           x.state = .defined ∧ x.priv = decide (n 2 1 = 1) ∧ x.weight = n 3 1 ∧ x.tslice = n 4 4 ∧ x.ptroot.toNat = n 8 8 ∧
            x.key.toNat = n 16 32 ∧ x.counterVa = n 48 8 ∧ x.counterC = n 56 1 ∧ x.notifyM = n 57 1 ∧ x.vesper = n 60 4 ∧ x.notifyVa = n 64 8 ∧
            x.trapvec = 0#64 ∧ x.sbchk = 0#32 ∧ x.pins = [] ∧
            ∀ i, i < 16 → mget 0 x.queues i = if i < n 58 1 then free.getD i 0 + 1 else 0) ∧
          (∀ i, i < n 58 1 → t.queue (free.getD i 0) = { bound := some cn, index := i }) ∧
          (∀ k, k ≠ cn → t.ctx k = s.ctx k) ∧ (∀ h, (s.queue h).bound.isSome = true → h ≠ 256 + cn → t.queue h = s.queue h)))) ∧
  (∀ (c : Cmd) (pa : Nat), Commands (.ctxCreate c pa) c 0x10 (arg8 pa) (fun s => (s.ctxCreate pa).1) fun _ _ => True) ∧
  -- what a create block must hold
  (∀ (usable : Nat) (bs : List Byte), let n := fun a k => leNat ((bs.drop a).take k)
    createOk usable bs = true ↔ 1 ≤ n 0 2 ∧ n 0 2 ≤ 4095 ∧ n 2 1 < 2 ∧ n 3 1 ≠ 0 ∧ 10000 ≤ n 4 4 ∧ n 8 8 % 4096 = 0 ∧ n 8 8 < 2 ^ 40 ∧
      n 8 8 < usable ∧ 10 ≤ n 56 1 ∧ n 56 1 ≤ 24 ∧ 4 ≤ n 57 1 ∧ n 57 1 ≤ 16 ∧ n 58 1 ≤ 16 ∧ n 59 1 = 0 ∧ ∀ b ∈ bs.drop 72, b = 0#8) ∧
  (∀ (c : Cmd) (n : Nat), Commands (.ctxStop c n) c 0x11 (arg4 n)
    (fun s => (if 4096 ≤ n then 3 else if (s.ctx n).state = .defined ∨ (s.ctx n).state = .resident then 0 else 1, [])) fun s t =>
      let ok := n < 4096 ∧ ((s.ctx n).state = .defined ∨ (s.ctx n).state = .resident)
      (¬ ok → NoEffect c s t) ∧
      (ok → (t.ctx n).state = .stopped ∧ ∀ x ∈ s.blocks, x.2.live = true → x.2.core.isSome = true → x.2.ctx = n → ∀ v ∈ s.mates x.1,
        (t.blk v).evicting = (s.blk v).core.isSome)) ∧
  (∀ (c : Cmd) (n : Nat), Commands (.ctxResume c n) c 0x12 (arg4 n)
    (fun s => (if 4096 ≤ n then 3 else if (s.ctx n).state = .stopped then 0 else 1, [])) fun s t =>
      let ok := n < 4096 ∧ (s.ctx n).state = .stopped
      let here := ∃ x ∈ s.blocks, x.2.live = true ∧ x.2.core.isSome = true ∧ x.2.ctx = n
      (¬ ok → NoEffect c s t) ∧
      (ok → (here → (t.ctx n).state = .resident) ∧ (¬ here → (t.ctx n).state = .defined) ∧ t.blocks = s.blocks)) ∧
  -- of a context whose queues hold no record
  (∀ (c : Cmd) (n : Nat) s, (∀ i h, i < 16 → s.queueOf n i = some h → (s.queue h).tail = (s.queue h).head ∧ (s.queue h).popped = 0) →
    (s.ctx n).owed = [] → CommandAt s (.ctxKill c n) c 0x13 (arg4 n)
      (fun s => (if 4096 ≤ n then 3 else if (s.ctx n).state = .free ∨ (s.ctx n).state = .killing then 1 else 0, [])) fun s t =>
      let no := 4096 ≤ n ∨ (s.ctx n).state = .free ∨ (s.ctx n).state = .killing
      (no → NoEffect c s t) ∧
      (¬ no → (t.ctx n).state = .killing ∧ (∀ h ∈ t.held, h.ctx ≠ n) ∧
        ∀ k, Rising s.kernels → (s.kernel k).ctx = n → (s.kernel k).state = .running ∨ (s.kernel k).state = .ending →
          (t.kernel k).state = .killing ∧ (t.kernel k).status = 2)) ∧
  (∀ (c : Cmd) (n : Nat), Commands (.ctxDestroy c n) c 0x14 (arg4 n)
    (fun s => (if n = 0 ∨ 4096 ≤ n then 3 else if (s.ctx n).state = .defined ∨ (s.ctx n).state = .stopped then 0 else 1, [])) fun s t =>
      let ok := n ≠ 0 ∧ n < 4096 ∧ ((s.ctx n).state = .defined ∨ (s.ctx n).state = .stopped)
      (¬ ok → NoEffect c s t) ∧
      (ok → t.ctx n = {} ∧ (∀ k, k ≠ n → t.ctx k = s.ctx k) ∧ (∀ x ∈ t.blocks, x.2.ctx ≠ n) ∧ (∀ x ∈ t.kernels, x.2.ctx ≠ n) ∧
        (∀ x ∈ t.teams, x.2.ctx ≠ n) ∧ (∀ x ∈ t.queues, x.2.bound ≠ some n) ∧ (∀ x ∈ t.acts, x.ctx ≠ n) ∧ (∀ x ∈ t.vesper, x.ctx ≠ n) ∧
        (∀ x ∈ t.tlb, x.ctx ≠ n) ∧ (∀ x ∈ t.pend, x.ctx ≠ n) ∧ t.lines = s.lines)) ∧
  (∀ (c : Cmd) (va : DWord) (op zero : Word) s,
    NextCommand s c 0x15 (fun x => isArg 0 8 va.toNat x && isArg 8 4 op.toNat x && isArg 12 4 zero.toNat x) →
    let n := op.toNat % 2 ^ 12
    let kind := op.toNat / 2 ^ 12 % 8
    let bad := 3 < kind ∨ op.toNat / 2 ^ 15 ≠ 0 ∨ zero ≠ 0#32 ∨ (kind ≠ 0 ∧ va ≠ 0#64) ∨ (kind = 3 ∧ n ≠ 0)
    let noCtx := kind ≠ 3 ∧ ((s.ctx n).state = .free ∨ (s.ctx n).state = .killing)
    let drops := fun (e : Tlb) => (kind = 0 ∧ e.ctx = n ∧ e.base ≤ va.toNat ∧ va.toNat < e.base + 2 ^ e.bits) ∨
      (kind = 1 ∧ e.ctx = n ∧ bitOf e.leaf 9 = false) ∨ (kind = 2 ∧ e.ctx = n) ∨ kind = 3
    ∃ t, exec (.tlbInval c va op zero) s = .next t ∧
      (s.island.st ≠ 3 → Replied s c.host 1 [] t ∧ NoEffect c s t) ∧
      (s.island.st = 3 → bad → Replied s c.host 3 [] t ∧ NoEffect c s t) ∧
      (s.island.st = 3 → ¬ bad → noCtx → Replied s c.host 1 [] t ∧ NoEffect c s t) ∧
      (s.island.st = 3 → ¬ bad → ¬ noCtx → (∀ e, e ∈ t.tlb ↔ e ∈ s.tlb ∧ ¬ drops e) ∧
        (∀ k ∈ t.cores, ∀ q ∈ k.2.quarters, ∀ m ∈ q.2.memo, m.load = true → kind ≠ 3 ∧ m.ctx ≠ n) ∧
        -- the status is written once no access through a dropped entry is outstanding
        ((∀ p ∈ s.pend, p.access = true → p.bm = false → p.phys.isSome = true → p.done = true) → s.engOpen = [] →
          Replied s c.host 0 [] t ∧ t.island.lastAccepted = c.seq ∧ t.tlbCmd = none) ∧
        ((∃ x ∈ s.engOpen, kind = 3 ∨ (kind = 2 ∧ x.2.2.1 = n)) → t.tlbCmd.isSome = true ∧ t.replies = s.replies ∧ t.island = s.island))) ∧
  (∀ (c : Cmd) (va : DWord) (op zero : Word) s x, s.tlbCmd = some x → ∃ t, exec (.tlbInval c va op zero) s = .next t ∧
    (x.cmd ≠ c ∨ s.tlbOpen x.waits = true → t = s) ∧
    (x.cmd = c → s.tlbOpen x.waits = false → t.tlbCmd = none ∧ Replied s c.host 0 [] t ∧ t.island.lastAccepted = c.seq)) ∧
  (∀ (c : Cmd), Commands (.computeReset c) c 0x20 argNone (fun s => (if s.island.st = 3 then 0 else 1, [])) fun s t =>
    (s.island.st ≠ 3 → NoEffect c s t) ∧
    (s.island.st = 3 → t.island.st = 4 ∧ t.island.drainTick = s.tick ∧ Tells s 0 [] t ∧
      Logs s [(0x0A, 0xFFFF, [4#8, 3#8, 0#8, s.island.inc])] t)) ∧
  (∀ (c : Cmd) s, NextCommand s c 0x21 noArgs → ∃ t, exec (.islandReset c) s = .next t ∧
      (s.island.st = 1 → Replied s c.host 1 [] t ∧ NoEffect c s t) ∧
      (s.island.st ≠ 1 → s.island.st ≤ 4 → t.island.st = 1 ∧ t.island.owner = none ∧ t.island.lastAccepted = 0#32 ∧ t.island.hmemctx = 0#32 ∧
        t.island.bank = s.island.nextBank ∧ t.island.boots = s.island.boots + 1 ∧ t.hosts = [] ∧ t.hres = s.island.service.hres ∧
        (∀ n, t.ctx n = {}) ∧ (∀ u, t.blk u = {}) ∧ t.pend = [] ∧ t.rings = [] ∧ t.vesper = [] ∧ t.lines = s.lines ∧
        t.maps = (s.island.service.maps.map fun x => (x.1, { active := some x.2 })) ∧
        -- local memory stays, but for what was not written back
        (∀ a, a < hostBase → (∀ x ∈ s.past, x.1 ≠ a / 8) → mget 0#8 t.mem a = mget 0#8 s.mem a) ∧
        -- events are numbered from 1, the first of the change of state
        (⟨1, 0x0A, 0xFFFF, s.tick, [1#8, BitVec.ofNat 8 s.island.st, 0#8, s.island.inc]⟩ : EventRec) ∈ t.logNew)) ∧
  (∀ (c : Cmd) (d : DomainTable), Commands (.domainConfig c d) c 0x22 (fun s => s.namesBytes 0 (domainBytes d))
    (fun _ => (if 128 ≤ d.own ∨ ∃ m ∈ d.members, 128 ≤ m.1 then 3 else 0, [])) fun s t =>
      let bad := 128 ≤ d.own ∨ ∃ m ∈ d.members, 128 ≤ m.1
      (bad → NoEffect c s t) ∧
      (¬ bad → t.device = d.own ∧ t.island.domain = d.id ∧ t.stampBase = s.tick ∧ t.rings = [] ∧ t.slices = [] ∧
        ((d.members.map (·.1)).Nodup → ∀ i x, (i, x) ∈ d.members → (mget {} t.members i : Member).member = true ∧
          (mget {} t.members i : Member).serial = x) ∧
        ∀ i, (∀ m ∈ d.members, m.1 ≠ i) → (mget {} t.members i : Member).member = false)) ∧
  (∀ (c : Cmd) (stream : Nat) (key : BitVec 256), Commands (.ideKey c stream key) c 0x23
    (fun s x => isArg 0 4 stream x && rdBytes s.mem (hostBase + argNat x 8 8) 32 == leBytes 32 key.toNat)
    (fun _ => (if 2 ≤ stream then 3 else 0, [])) fun s t =>
      -- the selective stream of CXL.io, and the link IDE of CXL.cache and CXL.mem
      (2 ≤ stream → NoEffect c s t) ∧
      (stream < 2 → OnlyReply { s with island := { s.island with lastAccepted := c.seq, ideKeys := t.island.ideKeys } } t ∧
        (∀ k, (stream, k) ∈ t.island.ideKeys ↔ k = key) ∧ ∀ n k, n ≠ stream → ((n, k) ∈ t.island.ideKeys ↔ (n, k) ∈ s.island.ideKeys))) ∧
  (∀ (c : Cmd) (q : Nat) (pass : Bool), Commands (.retest c q pass) c 0x24 (arg4 q)
    (fun s => (if q < 16 ∧ s.island.quarantine.getLsbD q = true then (if pass then 0 else 1) else 3, [])) fun s t =>
      let ok := q < 16 ∧ s.island.quarantine.getLsbD q = true ∧ pass = true
      (¬ ok → NoEffect c s t) ∧
      (ok → (∀ n, t.island.quarantine.getLsbD n = (s.island.quarantine.getLsbD n && decide (n ≠ q))) ∧
        t.island.partVer = s.island.partVer + 1 ∧
        Logs s [(0x0D, 0xFFFF, leBytes 6 s.tick ++ leBytes 6 (s.quad q).failTick ++ [BitVec.ofNat 8 q, 1#8, 0#8, 0#8])] t)) ∧
  (∀ (c : Cmd) (x : FwImage), Commands (.fwUpdate c x) c 0x30
    (fun s a => decide (x.sig.length = 96) && s.namesBytes 0 (imageBytes x) a)
    (fun s => (if Config.verify (leBytes 4 x.version ++ x.body) x.sig = true ∧ s.island.rollback ≤ x.version then 0 else 8, [])) fun s t =>
      let ok := Config.verify (leBytes 4 x.version ++ x.body) x.sig = true ∧ s.island.rollback ≤ x.version
      let b := !s.island.bank
      let fw := fun (e : Byte) => Logs s [(0x0E, 0xFFFF, [if b then 1#8 else 0#8, e, 0#8, 0#8] ++ leBytes 4 x.version)] t
      (¬ ok → fw 4#8 ∧ t.island = { s.island with lastAccepted := c.seq }) ∧
      -- into the bank that does not run
      (ok → fw 0#8 ∧ t.island = { s.island with
        lastAccepted := c.seq, bankA := if b then s.island.bankA else { version := some x.version, image := imageBytes x }
        bankB := if b then { version := some x.version, image := imageBytes x } else s.island.bankB })) ∧
  (∀ (c : Cmd), Commands (.fwActivate c) c 0x31 argNone
    (fun s => (match (if s.island.bank then s.island.bankA else s.island.bankB).version with
      | none => 1
      | some n => if n < s.island.rollback then 8 else 0, [])) fun s t =>
      let v := (if s.island.bank then s.island.bankA else s.island.bankB).version
      let fw := fun (e : Byte) n => Logs s [(0x0E, 0xFFFF, [if !s.island.bank then 1#8 else 0#8, e, 0#8, 0#8] ++ leBytes 4 n)] t
      (v = none → NoEffect c s t) ∧
      ∀ n, v = some n →
        -- an image below the anti-rollback counter is refused
        (n < s.island.rollback → t.island = { s.island with lastAccepted := c.seq } ∧ fw 4#8 n) ∧
        (s.island.rollback ≤ n → t.island = { s.island with lastAccepted := c.seq, nextBank := !s.island.bank } ∧ fw 1#8 n)) ∧
  (∀ (c : Cmd), Commands (.fwCommit c) c 0x32 argNone (fun _ => (0, [])) fun s t =>
    let v := ((if s.island.bank then s.island.bankB else s.island.bankA).version).getD 0
    t.island = { s.island with lastAccepted := c.seq, rollback := max s.island.rollback v } ∧
    Logs s [(0x0E, 0xFFFF, [if s.island.bank then 1#8 else 0#8, 3#8, 0#8, 0#8] ++ leBytes 4 v)] t) ∧
  (∀ (c : Cmd) (opcode : Nat), (¬ (opcode ∈ [0x01, 0x02, 0x04, 0x05, 0x10, 0x11, 0x12, 0x13, 0x14, 0x15, 0x20, 0x21, 0x22, 0x23, 0x24, 0x30, 0x31, 0x32]) →
      Commands (.unsupportedCommand c opcode) c opcode argNone (fun _ => (9, [])) (NoEffect c)) ∧
    (opcode ∈ [0x01, 0x02, 0x04, 0x05, 0x10, 0x11, 0x12, 0x13, 0x14, 0x15, 0x20, 0x21, 0x22, 0x23, 0x24, 0x30, 0x31, 0x32] →
      ∀ s, exec (.unsupportedCommand c opcode) s = .next s)) ∧
  -- the attestation mailbox: one chain, whose leaf has the identity key
  ∀ (host : Nat) s,
    let chain := Config.certHead ++ leBytes 96 Config.identityKey.toNat ++ Config.certTail
    let gets := fun (i : Instr) (r : Spdm) => ∃ t, exec i s = .next t ∧ t = { s with replies := t.replies } ∧
      (s.island.st = 0 ∨ 8 ≤ host → t = s) ∧
      (s.island.st ≠ 0 → host < 8 → (mget {} t.replies host : HostReply) = { (mget {} s.replies host : HostReply) with spdm := r } ∧
        ∀ h, h ≠ host → (mget {} t.replies h : HostReply) = mget {} s.replies h)
    gets (.getVersion host) (.version 0x13) ∧ gets (.getCapabilities host) .capabilities ∧ gets (.getDigests host) (.digests 1 (Config.sha384 chain)) ∧
    (∀ a b : Bool, gets (.negotiateAlgorithms host a b) (if a = true ∧ b = true then .algorithms else .error 1)) ∧
    (∀ slot off len, gets (.getCertificate host slot off len) (if slot = 0
      then .certificate ((chain.drop off).take len) (chain.length - off - len) else .error 1)) ∧
    (∀ slot nonce, gets (.challenge host slot nonce) (if slot = 0 then .challengeAuth nonce (Config.sign (0x03#8 :: leBytes 32 nonce.toNat)) else .error 1)) ∧
    (∀ code, gets (.unsupportedSpdmRequest host code) (.error 7)) ∧
    (∀ n, n = 0 ∨ 5 < n → gets (.getMeasurements host n) (.error 1)) ∧
    -- measurements, with the signature by the identity key
    (let measures := fun n bytes => gets (.getMeasurements host n) (.measurements n bytes (Config.sign (0x60#8 :: BitVec.ofNat 8 n :: bytes)))
     measures 1 (leBytes 4 (((if s.island.bank then s.island.bankB else s.island.bankA).version).getD 0) ++
       (if s.island.bank then s.island.bankB else s.island.bankA).image) ∧
     measures 3 (s.island.partNo ++ s.island.serial ++ leBytes 8 s.island.partVer ++ s.island.exposure ++ leBytes 2 s.island.quarantine.toNat ++
       List.replicate 26 0#8 ++ s.island.signature) ∧
     measures 5 (leBytes 4 s.island.rollback))

/-- R12, R13, R23, R95, R96, R359, R361, R362, R371, R373, R381, R401: power, boot, release, drain and cut; heartbeats; members that are
lost and that join; the clocks. What a cut keeps, POWER_LOST, the renumbering of events, the skew of a member, participation, zero bytes of the
part record, what a cut loses, UP under another incarnation, numbers that begin anew, and whether the links beyond reach a member are the
model's readings (log entries 18, 21, 38, 39, 41, 75, 77, 78, 87, 88). -/
def Obligations.IslandSteps : Prop :=
  (∀ (rcd : List Byte) (sigOk : Bool) s, ∃ t, exec (.powerGood rcd sigOk) s = .next t ∧ (s.island.st ≠ 0 → t = s) ∧
    (s.island.st = 0 → t.island.st = 1 ∧ (t.island.partOk = true ↔ sigOk = true ∧ ∀ b ∈ (rcd.drop 102).take 26, b = 0#8) ∧
      t.island.partNo = rcd.take 8 ∧ t.island.exposure = (rcd.drop 32).take 68 ∧ t.island.signature = (rcd.drop 128).take 96 ∧
      (t.island.mapsOk = true ↔ ∀ d, d < 4 → (((rcd.drop (32 + 17 * d)).take 17).map fun b => (List.range 8).countP fun i => b.getLsbD i).sum = 128) ∧
      t.island.serial = (rcd.drop 8).take 16 ∧ t.island.partVer = max s.island.partVer (leNat ((rcd.drop 24).take 8)) ∧
      -- a quarantine bit is cleared by a passed RETEST alone
      (∀ q, q < 16 → t.island.quarantine.getLsbD q = (s.island.quarantine.getLsbD q || (leNat ((rcd.drop 100).take 2)).testBit q)) ∧ t.island.bank = s.island.nextBank ∧ t.island.boots = s.island.boots + 1 ∧
      t.island.owner = none ∧ t.island.lastAccepted = 0#32 ∧ t.island.rollback = s.island.rollback ∧ t.lines = [] ∧ t.pageGen = [] ∧ t.poison = [] ∧
      (∀ a, mget 0#8 t.mem a = if a < hostBase then 0#8 else mget 0#8 s.mem a) ∧
      (s.island.owner = none → Logs { s with logNext := 1 } [(0x0A, 0xFFFF, [1#8, 0#8, 4#8, s.island.inc])] t))) ∧
  (∀ s : State, ∃ t, exec .powerLost s = .next t ∧ t.island.st = 0 ∧ (∀ n, t.ctx n = {}) ∧ (∀ u, t.blk u = {}) ∧ t.pend = [] ∧ t.lines = [] ∧
    (∀ a, mget 0#8 t.mem a = if a < hostBase then 0#8 else mget 0#8 s.mem a) ∧
    -- the nonvolatile store and the event log stay
    t.island.bankA = s.island.bankA ∧ t.island.bankB = s.island.bankB ∧ t.island.bank = s.island.bank ∧ t.island.nextBank = s.island.nextBank ∧
    t.island.rollback = s.island.rollback ∧ t.island.serial = s.island.serial ∧
    t.island.partVer = s.island.partVer ∧ t.island.quarantine = s.island.quarantine ∧ t.island.partNo = s.island.partNo ∧
    t.island.exposure = s.island.exposure ∧ t.island.signature = s.island.signature ∧ t.log = s.log ∧ t.logNext = s.logNext) ∧
  (∀ (fwOk : Bool) s, ∃ t, exec (.bootVerified fwOk) s = .next t ∧ (s.island.st ≠ 1 → t = s) ∧
    let i := s.island
    -- an image below the anti-rollback counter does not verify
    let runs := fun (i : Island) => if i.bank then i.bankB else i.bankA
    let ok := fwOk = true ∧ i.partOk = true ∧ i.rollback ≤ ((runs i).version).getD 0
    -- every port has trained or is down, and no member's tick is out of bounds
    let ready := (∀ n, n < 16 → (s.port n).training = none) ∧ ∀ m ∈ s.members, m.2.member = true → m.2.skewed = none
    -- after a failure the ports may train from now on
    (i.st = 1 → ok → i.unverified = true → t.island = { i with unverified := false } ∧
      ∀ n, n < 16 → (t.port n).down = false ∧ (t.port n).training = some s.tick) ∧
    (i.st = 1 → ok → i.unverified = false → ¬ ready → t = s) ∧
    (i.st = 1 → ok → i.unverified = false → ready → t.island.st = 2 ∧ runs t.island = { runs i with failed := 0 } ∧ t.island.bank = i.bank ∧
      Tells s 1 [] t ∧ Logs s [(0x0A, 0xFFFF, [2#8, 1#8, BitVec.ofNat 8 (if i.mapsOk then i.cause else 3), i.inc])] t) ∧
    (i.st = 1 → ¬ ok → t.island.st = 1 ∧ t.island.unverified = true ∧ (∀ n, n < 16 → (t.port n).down = true) ∧
      -- the third failure of an image in a row swaps the banks
      ((runs i).failed < 2 → runs t.island = { runs i with failed := (runs i).failed + 1 } ∧ t.island.bank = i.bank ∧
        Logs s [(0x0A, 0xFFFF, [1#8, 1#8, 2#8, i.inc])] t) ∧
      (2 ≤ (runs i).failed → (if i.bank then t.island.bankB else t.island.bankA) = { runs i with failed := 0 } ∧
        t.island.bank = !i.bank ∧ t.island.nextBank = !i.bank ∧
        let v := ((if i.bank then i.bankA else i.bankB).version).getD 0
        Logs s [(0x0A, 0xFFFF, [1#8, 1#8, 2#8, i.inc]),
          (0x0E, 0xFFFF, [if !i.bank then 1#8 else 0#8, 2#8, 0#8, 0#8] ++ leBytes 4 v)] t))) ∧
  (∀ s : State, ∃ t, exec .computeRelease s = .next t ∧ t.mem = s.mem ∧
    let i := s.island
    (i.st ≠ 2 ∨ i.mapsOk = false → t = s) ∧
    (i.st = 2 → i.mapsOk = true → t.island.st = 3 ∧ t.island.inc = i.inc + 1 ∧ 
      -- end-to-end numbers begin anew with the incarnation
      Tells { s with retained := [], e2eOut := [], island := { i with inc := i.inc + 1 } } 2 [] t ∧ t.e2eIn = [] ∧ t.rx = [] ∧
      Logs s [(0x0A, 0xFFFF, [3#8, 2#8, BitVec.ofNat 8 i.cause, i.inc + 1])] t ∧
      (t.ctx 0).state = .defined ∧ (t.ctx 0).priv = true ∧ (t.ctx 0).ptroot = i.service.ptroot ∧ (t.ctx 0).weight = i.service.weight ∧
      (t.ctx 0).tslice = i.service.tslice ∧ (t.ctx 0).vesper = i.service.vesper ∧ (t.ctx 0).queues = i.service.queues ∧ (∀ n, n ≠ 0 → t.ctx n = s.ctx n) ∧
      (i.duskDue = true → ∀ n, n < 128 → (t.slice n).dusk = s.sliceT n) ∧ (i.duskDue = false → t.slices = s.slices) ∧
      ∀ d, d < 4 → mget 0 t.island.beats d = s.tick)) ∧
  (∀ (d : Nat) s, exec (.dieHeartbeat d) s =
    .next (if s.island.st = 3 ∧ d < 4 then { s with island := { s.island with beats := mset 0 s.island.beats d s.tick } } else s)) ∧
  (∀ (d : Nat) s, ∃ t, exec (.computeHang d) s = .next t ∧ t.mem = s.mem ∧
    let due := s.island.st = 3 ∧ d < 4 ∧ s.stopped = false ∧ mget 0 s.island.beats d + 10000000 ≤ s.tick
    (¬ due → t = s) ∧
    (due → t.island = { s.island with st := 4, cause := 1, drainTick := s.tick } ∧ Tells s 0 [] t ∧
      Logs s [(0x0A, 0xFFFF, [4#8, 3#8, 1#8, s.island.inc])] t)) ∧
  (∀ s : State, ∃ t, exec .cut s = .next t ∧ t.lines = s.lines ∧ t.maps = s.maps ∧ (s.island.st ≠ 4 → t = s) ∧
    -- every line is written back, unless 1 ms has passed: then what was written may be lost
    (∀ a, s.tick < s.island.drainTick + 1000000 ∨ hostBase ≤ a ∨ (∀ x ∈ s.past, x.1 ≠ a / 8) → mget 0#8 t.mem a = mget 0#8 s.mem a) ∧
    (s.island.st = 4 → t.island.st = 2 ∧ (∀ n, t.ctx n = {}) ∧ (∀ u, t.blk u = {}) ∧ t.pend = [] ∧ t.rings = [] ∧ t.heads = [] ∧
      t.lastWrite = [] ∧ t.acts = [] ∧ t.vesper = [] ∧ t.tlb = [] ∧ (∀ h, t.queue h = {}) ∧ t.hosts = s.hosts ∧ t.units = s.units ∧
      Logs s (((s.ctxs.filter fun c => c.2.state != .free).map fun c => (0x0F, c.1, [1#8])) ++
        [(0x0A, 0xFFFF, [2#8, 4#8, BitVec.ofNat 8 s.island.cause, s.island.inc])]) t)) ∧
  -- members
  (∀ (dev : Nat) s,
    let m : Member := mget {} s.members dev
    let lost := fun (i : Instr) (cause : Byte) => ∃ t, exec i s = .next t ∧ t.mem = s.mem ∧
      (m.member = false ∨ m.live = false ∨ dev = s.device → t = s) ∧
      (m.member = true → m.live = true → dev ≠ s.device → (mget {} t.members dev : Member) = { m with live := false, skewed := none } ∧
        (∀ p ∈ t.retained, p.dst ≠ dev) ∧ (∀ p ∈ t.rx, p.src ≠ dev) ∧ (∀ x ∈ t.peerPins, x.1 ≠ dev) ∧
        (⟨s.logNext, 0x08, 0xFFFF, s.tick, [BitVec.ofNat 8 dev, m.inc, cause]⟩ : EventRec) ∈ t.logNew)
    lost (.downReceived dev) 1#8 ∧
    -- no path to it for 1 ms: nothing came from it in that time, and no port of the module has been up
    (s.tick < m.seen + 1000000 → exec (.memberUnreachable dev) s = .next s) ∧
    (m.seen + 1000000 ≤ s.tick → (∀ n, n < 16 → (s.port n).up = false ∧ (s.port n).training.getD (s.port n).downAt + 1000000 ≤ s.tick) →
      lost (.memberUnreachable dev) 2#8) ∧
    (∀ t0, (mget {} s.members dev : Member).skewed = some t0 → t0 + 1000000 ≤ s.tick → lost (.skewTimeout dev) 3#8) ∧
    ((∀ t0, (mget {} s.members dev : Member).skewed = some t0 → s.tick < t0 + 1000000) → exec (.skewTimeout dev) s = .next s)) ∧
  -- what the loss of a member makes of the activities it takes part in
  (∀ (s : State) (dev : Nat), (s.acts.map fun a => (a.ctx, a.handle)).Nodup → dev ≠ s.device → ∀ a ∈ s.acts,
    (a.holder = s.device → dev ∉ s.joined a → { a with members := s.joined a } ∈ (s.actsLose dev).acts) ∧
    (a.holder = s.device → dev ∈ s.joined a → a.st = .opened ∨ a.st = .abandoning →
      { a with members := s.joined a, st := .stuck, reason := 3, device := dev, stuckStamp := 0 } ∈ (s.actsLose dev).acts) ∧
    -- the member with the lowest device index takes over what the lost one held
    ∀ m, a.holder = dev → m ∈ a.members → m ≠ dev → (∀ k ∈ a.members, k ≠ dev → m ≤ k) →
      ∃ b ∈ (s.actsLose dev).acts, b.ctx = a.ctx ∧ b.handle = a.handle ∧ b.holder = m) ∧
  (∀ (dev : Nat) (inc : BitVec 8) s, ∃ t, exec (.upReceived dev inc) s = .next t ∧
    let m : Member := mget {} s.members dev
    (m.member = false ∨ dev = s.device → t = s) ∧
    (m.member = true → dev ≠ s.device → (∀ n, (mget {} t.members n : Member) = if n = dev then { m with live := true, inc := inc, skewed := none, seen := s.tick } else mget {} s.members n) ∧
      -- under a new incarnation end-to-end numbers begin anew
      (∀ k, k / 4 = dev → ¬ (m.live = true ∧ m.inc = inc) → mget 0 t.e2eOut k = 0 ∧ mget 0 t.e2eIn k = 0) ∧
      (m.live = true → m.inc = inc → t.e2eOut = s.e2eOut ∧ t.e2eIn = s.e2eIn ∧ t.retained = s.retained) ∧
      (m.live = false ∨ m.inc = inc → Logs s [(0x09, 0xFFFF, [BitVec.ofNat 8 dev, inc])] t) ∧
      -- it was live under another incarnation, and is lost first
      (m.live = true → m.inc ≠ inc → (∀ p ∈ t.retained, p.dst ≠ dev) ∧
        (⟨s.logNext, 0x08, 0xFFFF, s.tick, [BitVec.ofNat 8 dev, m.inc, 1#8]⟩ : EventRec) ∈ t.logNew))) ∧
  ∀ (d k : Nat) s, exec (.clockThrottle d k) s =
    .next (if d < 4 ∧ 4 ≤ k ∧ k ≤ 16 then { s with clockK := mset 0 s.clockK d (16 - k) } else s)

/-- R228-R230, R249, R291, R294, R295, R335, R361, R362, R364-R370, R372, R386, R397-R399, R401: packets as flits, blocks of a link,
retraining, ports, the escape channel; packets: what each asks for, its answer, and what answers do to the operations they answer. The places
of a packet's per-kind fields, what the links beyond the module do, when a port sends, the numbers after a loss and how long receipts stay are the model's
(log entries 9, 42, 43, 57, 86, 87, 97). -/
def Obligations.LinkAndPacketSteps : Prop :=
  -- a packet is what its flits say, in a stream of them
  (∀ p : Packet, p.held = true → p.zeros = true → Packet.ofFlits p.header p.data = p) ∧
  (∀ (p : Packet) (rest : List (List Byte)) (n : Nat), p.held = true → p.zeros = true → p.src ≠ p.dst →
    takePackets (n + 1) (p.flits ++ rest) = (p :: (takePackets n rest).1, (takePackets n rest).2)) ∧
  -- a block that is built holds what it is built of, and its CRC is good
  (∀ (flits : List (List Byte)) (seq : Nat) (ack : Option Nat) (nak : Bool) (credits : List Nat), (∀ f ∈ flits, f.length = 32) →
    let b := mkBlock flits seq ack nak credits
    b.good = true ∧ b.seq = seq % 4096 ∧ b.ack = ack.getD 0 % 4096 ∧ b.valid = ack.isSome ∧ b.nak = nak ∧
    b.credits = ((List.range 8).map fun v => credits.getD v 0 % 65536) ∧
    flitsOf 16 b.data = flits.take 16 ++ List.replicate (16 - flits.length) (List.replicate 32 0#8)) ∧
  -- a port sends the oldest packet of a channel, and keeps the block until it is acknowledged
  (∀ (s : State) (n vc : Nat), let p := s.port n
    let q := (s.sendBlock n vc).port n
    let flits := p.flits ++ (match p.queue.find? fun x => decide (x.vc = vc) with
      | some x => x.flits
      | none => [])
    ∃ credits, let b := mkBlock flits p.seq (if p.rcvd then some ((p.expect + 4095) % 4096) else none) p.nak credits
      (s.sendBlock n vc).wire = s.wire ++ [(n, b)] ∧ q.retry = p.retry ++ [b] ∧ q.seq = (p.seq + 1) % 4096 ∧ q.flits = flits.drop 16 ∧
      q.nak = false ∧ q.ackDue = false) ∧
  (∀ (n : Nat) (b : LinkBlock) s, ∃ t, exec (.blockReceived n b) s = .next t ∧
    let p := s.port n
    let q := t.port n
    (16 ≤ n ∨ p.up = false → t = s) ∧
    (n < 16 → p.up = true →
      -- a block with a wrong CRC is nakked and changes nothing else
      (b.good = false → q = { p with nak := true, ackDue := true } ∧ t.agenda = s.agenda ∧ t.wire = s.wire) ∧
      (b.good = true → q.credits = b.credits ∧ q.naks = (if b.nak then p.naks + 1 else 0) ∧ q.ackDue = true ∧
        -- what is acknowledged leaves the retry buffer; a nak has the rest sent again
        (b.valid = true → q.acked = b.ack ∧ q.ackTick = s.tick ∧
          q.retry = p.retry.filter fun x => decide (2048 ≤ (b.ack + 4096 - x.seq) % 4096)) ∧
        (b.valid = false → q.acked = p.acked ∧ q.ackTick = p.ackTick ∧ q.retry = p.retry) ∧
        t.wire = s.wire ++ (if b.nak then q.retry.map fun x => (n, x) else []) ∧
        let d := (p.expect + 4096 - b.seq) % 4096
        (b.seq = p.expect → q.expect = (p.expect + 1) % 4096 ∧ q.nak = false ∧ q.rcvd = true ∧
          -- the packets that are whole come in
          let x := takePackets 32 (p.got ++ flitsOf 16 b.data)
          q.got = x.2 ∧ t.agenda = s.agenda ++ x.1.map Action.arrive) ∧
        (b.seq ≠ p.expect → 1024 < d → q.expect = p.expect ∧ q.nak = true ∧ t.agenda = s.agenda) ∧
        (b.seq ≠ p.expect → d ≤ 1024 → q.expect = p.expect ∧ q.nak = p.nak ∧ t.agenda = s.agenda)) ∧
      ∀ k, k ≠ n → t.port k = s.port k)) ∧
  (∀ (n : Nat) s, ∃ t, exec (.linkRetrain n) s = .next t ∧
    let p := s.port n
    let due := p.lanes ≠ 0 ∧ p.down = false ∧ p.training = none ∧ (16 ≤ p.naks ∨ p.ackTick + 10000 ≤ s.tick)
    (¬ due → t = s) ∧ (due → ∀ k, t.port k = if k = n then { p with training := some s.tick, naks := 0 } else s.port k)) ∧
  (∀ (n lanes : Nat) s, exec (.portTrained n lanes) s =
    .next (if s.island.st ≠ 0 ∧ s.island.unverified = false ∧ n < 16 ∧ (lanes = 4 ∨ lanes = 8)
      then s.setPort n { s.port n with lanes := lanes, down := false, training := none, naks := 0, ackTick := s.tick } else s)) ∧
  (∀ (n : Nat) (far : Bool) s, ∃ t, exec (.portDown n far) s = .next t ∧
    let p := s.port n
    let due := n < 16 ∧ p.down = false ∧ (far = true ∨ ∃ t0, p.training = some t0 ∧ t0 + 10000000 ≤ s.tick)
    (¬ due → t = s) ∧
    (due → (∀ k, t.port k = if k = n then { down := true, training := none, losses := p.losses + 1, downAt := s.tick } else s.port k) ∧
      t.retained = s.retained ∧
      -- what was to leave by the port, and is not acknowledged, is sent again
      t.out = s.out ++ ((s.retained.filter fun r => s.portFor r == some n) ++ p.queue.filter fun r => !s.retained.contains r) ∧
      Logs s [(0x0B, 0xFFFF, [BitVec.ofNat 8 n, if far then 2#8 else 1#8])] t)) ∧
  (∀ (n vc : Nat) s, ∃ t, exec (.escapeMove n vc) s = .next t ∧ t.mem = s.mem ∧
    let p := s.port n
    let since := mget 0 p.since vc
    let due := n < 16 ∧ vc < 7 ∧ (∃ q ∈ p.queue, q.vc = vc) ∧ since ≠ 0 ∧ since - 1 + 4000 ≤ s.tick
    (¬ due → t = s) ∧
    (due → (∀ q ∈ (t.port n).queue, q.vc ≠ vc) ∧
      -- with its number and path, and by the tree
      (∀ q ∈ p.queue, q.vc = vc → let q' := { q with vc := 7, esc := true }
        ∀ k, s.portFor q' = some k → q' ∈ (t.port k).queue) ∧
      ∀ k, mget 0#32 t.units k = if k = (660 + n) * 32 + 4 then mget 0#32 s.units k + 1 else mget 0#32 s.units k)) ∧
  -- requests
  (∀ (p : Packet), Arrives (.packetRead p) p 0 fun s t => t.mem = s.mem ∧
    let key := s.keyOf p.ctx
    let n := pktSize p
    (¬ served s p → Responds s [] p 4 3 0 [] t) ∧
    (served s p → pktFlag p 3 = false →
      Responds s [] p 4 (if s.poisonedIn p.off n then 1 else 0)
        (if pktHist p then mget 0 s.lastWrite (s.da p.off / 1024) else (s.slice (s.home p.off)).last) (s.readLocal key p.off n) t) ∧
    -- as of the stamp that stands behind the floor
    (served s p → pktFlag p 3 = true →
      (s.asofLocal key p.off n (leNat (pktBody p 8)) = none → Responds s [] p 5 4 0 [] t) ∧
      ∀ bs bad k, s.asofLocal key p.off n (leNat (pktBody p 8)) = some (bs, bad, k) → Responds s [] p 4 (if bad then 1 else 0) 0 bs t)) ∧
  (∀ (p : Packet), Arrives (.packetWrite p) p 1 fun s t =>
    (¬ served s p → Responds s [] p 5 2 0 [] t ∧ t.mem = s.mem) ∧
    let bs := pktBody p (pktSize p)
    (served s p → p.off % 128 + bs.length ≤ 128 → LineWritten s (s.keyOf p.ctx) p.off bs t ∧ RespondsWrite s p 0 (peerStamp p s) [] t ∧
      (pktFlag p 2 = true → mget false t.poison (s.da p.off / 32) = true))) ∧
  (∀ (p : Packet), Arrives (.packetAtomic p) p 2 fun s t =>
    (¬ served s p → Responds s [] p 4 3 0 [] t ∧ t.mem = s.mem) ∧
    (served s p → AtomSpec.ofWord (BitVec.ofNat 32 (leNat (p.spec.take 4))) = none → Responds s [] p 5 0 0 [] t ∧ t.mem = s.mem) ∧
    ∀ spec, served s p → AtomSpec.ofWord (BitVec.ofNat 32 (leNat (p.spec.take 4))) = some spec → p.off % 128 + atomBytes spec.ty ≤ 128 →
      let n := atomBytes spec.ty
      let old := s.readLocal (s.keyOf p.ctx) p.off n
      let body := pktBody p (2 * n)
      let v := leNat ((if spec.op = .cas then body.drop n else body).take n)
      let cmp := if spec.op = .cas then leNat (body.take n) else 0
      LineWritten s (s.keyOf p.ctx) p.off (leBytes n (atomNew spec (leNat old) v cmp)) t ∧
      ∃ st, RespondsWrite s p (if s.poisonedAt p.off then 1 else 0) st old t ∧ (pktHist p = true ∨ pktRel p = true → st = peerStamp p s)) ∧
  (∀ (p : Packet), Arrives (.packetReducingWrite p) p 3 fun s t =>
    (¬ served s p → Responds s [] p 5 2 0 [] t ∧ t.mem = s.mem) ∧
    -- a sector that was applied before is not applied again
    (served s p → (p.src, p.tag, p.off) ∈ s.receipts → Responds s [] p 4 0 0 [] t ∧ t.mem = s.mem) ∧
    (served s p → (p.src, p.tag, p.off) ∉ s.receipts → p.off % 128 + 32 ≤ 128 → (pktBody p 32).length = 32 →
      LineWritten s (s.keyOf p.ctx) p.off (redSector (redOf (leNat (p.spec.take 4))) (s.readLocal (s.keyOf p.ctx) p.off 32) (pktBody p 32)) t ∧
      (p.src, p.tag, p.off) ∈ t.receipts ∧ RespondsWrite s p 0 (peerStamp p s) [] t ∧
      (s.poisonedAt p.off = true ∨ pktFlag p 2 = true → mget false t.poison (s.da p.off / 32) = true))) ∧
  (∀ (p : Packet), Arrives (.packetMarker p) p 6 fun s t => t.mem = s.mem ∧
    (served s p → Responds s [] p 7 0 0 [] t) ∧ (¬ served s p → Responds s [] p 7 2 0 [] t)) ∧
  -- answers
  (∀ (p : Packet) (err : Bool), Arrives (if err then .packetErrorResponse p else .packetResponse p) p (if err then 5 else 4) fun s t =>
    t.mem = s.mem ∧
    let flags := (p.spec.getD 0 0#8).toNat
    let bad := bitOf flags 0 || err
    let st := leNat ((p.spec.drop 2).take 8)
    ∀ o, AskedOp s p.tag o →
      let ws := orPoison bad o (bytesWords (p.data.take o.size))
      (o.kind = .load → Returned s o ws st t) ∧
      (o.kind = .asof → bitOf flags 2 = true → t.op? p.tag = some { o with fault := some 13, sent := false }) ∧
      (o.kind = .asof → bitOf flags 2 = false → Returned s o ws 0 t) ∧
      (o.kind = .store → Gone s o t ∧ (t.grp o.blk o.grp).floor = max (s.grp o.blk o.grp).floor st) ∧
      (o.kind = .atomic → o.dest = [] → Gone s o t) ∧
      (o.kind = .atomic → o.dest ≠ [] → Returned s o ws st t) ∧
      (bitOf flags 1 = true → o.kind = .store → (t.kernel (s.blk o.blk).kernel).cir.getLsbD 3 = true)) ∧
  (∀ (p : Packet), Arrives (.packetMarkerAck p) p 7 fun s t => t.mem = s.mem ∧
    ∀ o ∈ s.pend, (o.uid % 2 ^ 32 ≠ p.tag ∨ o.kind = .sys .tlbinv → o ∈ t.pend) ∧
      (o.uid % 2 ^ 32 = p.tag → o.kind ≠ .sys .tlbinv →
        { o with markers := o.markers.map fun l => l.filter fun m => !(m.1 == p.src && m.2 == (p.spec.getD 1 0#8).toNat) } ∈ t.pend ∧
        -- one flagged endpoint_absent sets that bit of the CIR
        (bitOf (p.spec.getD 0 0#8).toNat 1 = true → (∃ m ∈ o.markers.getD [], m.1 = p.src) →
          (t.kernel (s.blk o.blk).kernel).cir.getLsbD 3 = true))) ∧
  -- an acknowledgement is cumulative
  (∀ (p : Packet), Takes (.packetE2eAck p) p 8 fun s t => t = { s with retained := t.retained } ∧
    ∀ r, r ∈ t.retained ↔ r ∈ s.retained ∧ ¬ (r.dst = p.src ∧ r.path = p.path ∧ (p.seq + 65536 - r.seq) % 65536 < 32768)) ∧
  (∀ (dev path : Nat) s, ∃ t r, exec (.e2eAckSend dev path) s = .next t ∧ t = { s with out := s.out ++ [r] } ∧ r.kind = 8 ∧ r.dst = dev ∧
    r.path = path ∧ r.src = s.device ∧ (1 ≤ mget 0 s.e2eIn (dev * 4 + path) → mget 0 s.e2eIn (dev * 4 + path) < 65536 →
      r.seq = mget 0 s.e2eIn (dev * 4 + path) - 1)) ∧
  -- management, as the packet's first byte names it
  (∀ (p : Packet) (m : Management) s, Management.of p ≠ some m → exec (.packetManagement p m) s = .next s) ∧
  (∀ (p : Packet), Management.of p = some .down → Arrives (.packetManagement p .down) p 9 fun s t => exec (.downReceived p.src) s = .next t) ∧
  (∀ (p : Packet), Management.of p = some (.up none) → Takes (.packetManagement p (.up none)) p 9 fun s t => t = s) ∧
  (∀ (p : Packet) (n : BitVec 8), Management.of p = some (.up (some n)) → Takes (.packetManagement p (.up (some n))) p 9 fun s t =>
    let m : Member := mget {} s.members p.src
    (m.live = true ∧ m.inc = n → Discards s t) ∧
    (¬ (m.live = true ∧ m.inc = n) → ∃ r, exec (.upReceived p.src n) s = .next r ∧
      t = { r with e2eIn := mset 0 r.e2eIn (p.src * 4 + p.path) ((p.seq + 1) % 65536) })) ∧
  (∀ (p : Packet) (d : DWord), Management.of p = some (.dusk d) → Arrives (.packetManagement p (.dusk d)) p 9 fun s t =>
    t = { s with peerDusk := mset 0 s.peerDusk p.src d.toNat }) ∧
  (∀ (p : Packet) (d : DWord), Management.of p = some (.pin d) → Arrives (.packetManagement p (.pin d)) p 9 fun s t =>
    t = { s with peerPins := s.peerPins ++ [(p.src, d.toNat)] }) ∧
  (∀ (p : Packet) (d : DWord), Management.of p = some (.unpin d) → Arrives (.packetManagement p (.unpin d)) p 9 fun s t =>
    t = { s with peerPins := s.peerPins.erase (p.src, d.toNat), rings := t.rings } ∧
    ∀ k, t.ring k = if d.toNat < (mget {} (s.ring k).entries (s.ring k).oldest : HistEntry).stamp then { s.ring k with stall := none } else s.ring k) ∧
  (∀ (p : Packet) (d : DWord), Management.of p = some (.tickSync d) → Arrives (.packetManagement p (.tickSync d)) p 9 fun s t =>
    let m : Member := mget {} s.members p.src
    let far := s.tick + 8 < d.toNat ∨ d.toNat + 8 < s.tick
    (m.member = false → t = s) ∧
    (m.member = true → t = { s with members := t.members } ∧ ∀ n, (mget {} t.members n : Member) = if n = p.src
      then { m with seen := s.tick, skewed := if far then some (m.skewed.getD s.tick) else none } else mget {} s.members n)) ∧
  ∀ (p : Packet) s, ∃ t, exec (.illegalPacket p) s = .next t ∧
    (s.island.st = 0 ∨ (p.kind ≤ 9 ∧ p.vc ≠ 6 ∧ p.zeros = true) → t = s) ∧
    (s.island.st ≠ 0 → 9 < p.kind ∨ p.vc = 6 ∨ p.zeros = false → Turned s p t)

/-! ## Decoding, stepping, reset, and the invariant -/

/-- R28, R29, R54, R55, R73, R74, R149, R171, R310, R417: an issue runs the instruction that the words at the offered run's PC decode to, in
the first slot that is ready; a word that is no instruction parks every acting lane; a step of the device, of hosts or of peers runs as
it is asked for. That a step is one action, asked for by the agenda, is the model's form (log entry 2). -/
def Obligations.StepRunsDecoded : Prop :=
  (∀ (s : State) (core quarter : Nat) (rest : List Action) (pre post : List (Nat × Nat)) (u g : Nat),
    s.agenda = .issue core quarter :: rest → s.gatedAt (dieUnit core) = false →
    let s0 := { s with out := [], wire := [], agenda := rest }
    let q := (s.core core).quarter quarter
    let now := s.cycleOf core
    let run := (s.grp u g).offer.1
    let pc := ((s.grp u g).lane (run.headD 0)).pc
    q.nextAt ≤ now →
    (((List.range 8).map fun j => quarter * 8 + (q.ptr + j) % 8).filterMap fun x => s0.slotAt core x) = pre ++ (u, g) :: post →
    (∀ y ∈ pre, (s0.tryGroup core quarter y.1 y.2).2 = none) → s0.waitsFor u g now run = none → s0.writeWait u g = none →
    ∀ w lits t i r, s0.fetch u pc = .ok (w, lits) t → decode w lits = .ok i →
      let c : Cur := ⟨u, g, run, w, lits, pc, core, quarter, none⟩
      exec i { (t.setGrp u g (s.grp u g).offer.2) with cur := some c } = .next r → r.cur.bind (·.wait) = none →
      let a := r.afterIssue c (s.grp u g).trapped
      -- of the entries that quarters share, one is taken only in the quarter's turn
      (∀ k, s0.taken a core = some k → (s0.admits core quarter k).1 = true) →
      -- beside the issue, only the turn, and why the other slots did not issue, are noted
      ∃ (b : State) (notes : List (Nat × Nat × Nat)), (b = a ∨ ∃ k, s0.taken a core = some k ∧ b = a.arbMove core quarter k true) ∧
        (∀ y ∈ notes, (y.1, y.2.1) ≠ (u, g)) ∧
        step s = .next (notes.foldl (fun s y => s.setWhy now y.1 y.2.1 y.2.2) b).flush) ∧
  (∀ (s : State) (c : Cur) (b : Bad), AtIssue s c → decode c.word c.lits = .error b →
    ∃ t, s.runWord c = .next t ∧ Parks s c (mkCause c (s.badCause c b)) t) ∧
  ∀ (s : State) (i : Instr) (rest : List Action), s.agenda = .event i :: rest → i.isWord = false →
    let s0 := { s with out := [], wire := [], agenda := rest }
    -- a stop holds the steps of the gated clock domains
    let held := gatedStep i && s0.gatedAt (s0.unitOf i)
    (held = true → step s = .next s0.flush) ∧ (held = false → ∀ t, exec i s0 = .next t → step s = .next t.flush)

/-- R54-R57, R61-R63, R67, R73, R74, R219: the spec's worked encodings, and its near misses. -/
def Obligations.DecodedWords : Prop :=
  decode 0b0000010_1000011_11111111111010_0000#32 [] = .ok (.bra (.lane true 3#4) (BitVec.ofInt 14 (-6)) 0#4) ∧
  decode 0b0010000_0000011_0000001_0000010_0100#32 [] = .ok (.iadd 3#7 1#7 2#7 4#4) ∧
  decode 0b0110110_0100010_0000110_0000111_0100#32 [] = .ok (.fcmpF32 .lt 2#4 6#7 7#7 4#4) ∧
  decode 0b1110000_0000100_0001000_0110100_1111#32 [] = .ok (.ldG .b64 false (some .dev) 4#7 8#7 15#4) ∧
  decode 0b0000001_0000001_0000000_0000011_0000#32 [] = .ok (.guard (.lane false 1#4) 3#4 0#4) ∧
  decode 0b0000111_0001010_0000000_0000000_0100#32 [0x3F800000#32] = .ok (.lit 10#7 0x3F800000#32 4#4) ∧
  decode 0#32 [] = .ok (.nop 0#4) ∧
  decode 0b0110110_1110010_0000110_0000111_0100#32 [] = .error (.illegal 1) ∧
  decode 0b1110000_0000101_0001000_0110100_1111#32 [] = .error (.illegal 1) ∧
  decode 0b1110000_0000100_0001000_0110111_1111#32 [] = .error (.illegal 1) ∧
  decode 0b0000001_0000001_0000000_1000011_0000#32 [] = .error (.reserved 1) ∧
  decode 0b0000001_0000001_0000000_0000000_0000#32 [] = .error (.illegal 1) ∧
  decode 0b0000111_0001010_0000001_0000000_0100#32 [0x3F800000#32] = .error (.reserved 2)

/-- R54-R57, R69-R71, R73: every instruction with fields that its encoding admits is what its words decode to, from words and from bytes; its
first word alone fixes how many follow. -/
def Obligations.DecodeEncode : Prop :=
  ∀ i : Instr, i.isWord = true → i.wf = true → ∃ w lits, encode i = w :: lits ∧ litCount w = some lits.length ∧ decode w lits = .ok i ∧
    ∀ rest : List Byte, decodeBytes ((w :: lits).flatMap bytesOfWord ++ rest) = some (.ok i, rest)

/-- R66, R96, R100, R102, R117, R229, R361, R371, R375, R379, R387-R391, R403, R407, R414: what reset leaves; memory lists nothing, in its
canonical form. The values of registers for which the spec gives none are the model's (log entry 3), and no clause names one. -/
def Obligations.ResetValues : Prop :=
  Memory.wf State.reset.mem = true ∧ Inv State.reset ∧
  State.reset.island.st = 1 ∧ State.reset.island.owner = none ∧ State.reset.island.lastAccepted = 0#32 ∧ State.reset.island.hbPeriod = 100 ∧
  State.reset.island.hmemctx = 0#32 ∧ (∀ n, (State.reset.ctx n).state = .free) ∧ (∀ n, (State.reset.kernel n).state = .none) ∧
  (∀ u, (State.reset.blk u).live = false) ∧ (∀ h, (State.reset.queue h).st = .idle) ∧ State.reset.pend = [] ∧ State.reset.tlb = [] ∧
  State.reset.hres = 1 ∧ (∀ region, State.reset.matrix region = (List.range 40).map defaultRow) ∧
  State.reset.hretain = BitVec.ofNat 32 (2 ^ 30) ∧ State.reset.seriesk = 16#32 ∧ State.reset.stopat = BitVec.ofNat 64 (2 ^ 64 - 1) ∧
  State.reset.serSize = 0 ∧ State.reset.serSeq = 0 ∧ State.reset.logNext = 1 ∧ State.reset.stopped = false ∧
  -- a context as it is created
  (({} : Ctx).sbchk = 0#32 ∧ ({} : Ctx).trapvec = 0#64 ∧ ({} : Ctx).wdog = 0#32 ∧ ({} : Ctx).quantum = 1000#32 ∧
    ({} : Ctx).pintmo = 1000000#32 ∧ ({} : Ctx).accthr = 256#32 ∧ ({} : Ctx).acttmo = 10000000#32) ∧
  -- the default map permutes the offsets of a region: it has an inverse
  gfInvertible ((List.range 40).map defaultRow) = true ∧ fixedRows ((List.range 40).map defaultRow) = true

/-- R7, R387, R401: memory keeps its one canonical form through every step, from every state that has it (log entry 4). -/
def Obligations.StepKeepsMemoryCanonical : Prop :=
  ∀ (s t : State), Inv s → step s = .next t → Inv t
end

