-- ==== Sys2Proof/Laws/Table.lean ====
section
/-! SUPPORT. Sparse tables: a read after a write, and the canonical form that every write keeps. -/

namespace Sys2Proof.Machine

section
variable {α : Type}

theorem mget_mdel_self (d : α) (m : SMap α) (k : Nat) : mget d (mdel m k) k = d := by
  induction m with
  | nil => rfl
  | cons x m ih =>
    by_cases h : x.1 = k
    · simp [mdel, h, ih]
    · simp [mdel, h, mget, ih]

theorem mget_mdel_ne (d : α) (m : SMap α) {k j : Nat} (h : j ≠ k) : mget d (mdel m k) j = mget d m j := by
  induction m with
  | nil => rfl
  | cons x m ih =>
    by_cases hk : x.1 = k
    · have : x.1 ≠ j := fun e => h (e.symm.trans hk)
      simp [mdel, hk, ih, mget, hk ▸ this]
    · by_cases hj : x.1 = j
      · rw [mdel, if_neg hk, mget, if_pos hj, mget, if_pos hj]
      · simp [mdel, hk, mget, hj, ih]

theorem mget_mins_self (d : α) (m : SMap α) (k : Nat) (v : α) (h : ∀ x ∈ m, x.1 ≠ k) : mget d (mins m k v) k = v := by
  induction m with
  | nil => simp [mins, mget]
  | cons x m ih =>
    have hx := h x (by simp)
    have hm : ∀ y ∈ m, y.1 ≠ k := fun y hy => h y (by simp [hy])
    by_cases hk : k < x.1
    · simp [mins, hk, mget]
    · simp [mins, hk, mget, hx, ih hm]

theorem mget_mins_ne (d : α) (m : SMap α) {k j : Nat} (v : α) (h : j ≠ k) : mget d (mins m k v) j = mget d m j := by
  induction m with
  | nil => simp [mins, mget, Ne.symm h]
  | cons x m ih =>
    by_cases hk : k < x.1
    · simp [mins, hk, mget, Ne.symm h]
    · by_cases hj : x.1 = j
      · rw [mins, if_neg hk, mget, if_pos hj, mget, if_pos hj]
      · rw [mins, if_neg hk, mget, if_neg hj, mget, if_neg hj, ih]

theorem mem_mdel_ne (m : SMap α) (k : Nat) : ∀ x ∈ mdel m k, x.1 ≠ k := by
  induction m with
  | nil => simp [mdel]
  | cons y m ih =>
    intro x hx
    by_cases hk : y.1 = k
    · exact ih x (by simpa [mdel, hk] using hx)
    · rcases (by simpa [mdel, hk] using hx : x = y ∨ x ∈ mdel m k) with rfl | h
      · exact hk
      · exact ih x h

variable [DecidableEq α]

/-- A table reads back what was written. -/
@[simp] theorem mget_mset_self (d : α) (m : SMap α) (k : Nat) (v : α) : mget d (mset d m k v) k = v := by
  unfold mset
  split
  · next h => rw [h, mget_mdel_self]
  · exact mget_mins_self d _ k v (mem_mdel_ne m k)

/-- A write leaves every other key alone. -/
theorem mget_mset_ne (d : α) (m : SMap α) {k j : Nat} (v : α) (h : j ≠ k) : mget d (mset d m k v) j = mget d m j := by
  unfold mset
  split
  · exact mget_mdel_ne d m h
  · rw [mget_mins_ne d _ v h, mget_mdel_ne d m h]

/-- A read after a write. -/
theorem mget_mset (d : α) (m : SMap α) (k j : Nat) (v : α) : mget d (mset d m k v) j = if j = k then v else mget d m j := by
  split
  · next h => rw [h, mget_mset_self]
  · next h => exact mget_mset_ne d m v h

theorem mwfFrom_mono (d : α) (m : SMap α) {lo hi : Nat} (h : lo ≤ hi) (w : mwfFrom d hi m = true) : mwfFrom d lo m = true := by
  cases m with
  | nil => rfl
  | cons x m =>
    simp only [mwfFrom, Bool.and_eq_true, decide_eq_true_eq] at w ⊢
    exact ⟨⟨h.trans w.1.1, w.1.2⟩, w.2⟩

theorem mwfFrom_mdel (d : α) (k : Nat) : ∀ (m : SMap α) (lo : Nat), mwfFrom d lo m = true → mwfFrom d lo (mdel m k) = true
  | [], _, _ => rfl
  | x :: m, lo, w => by
    simp only [mwfFrom, Bool.and_eq_true, decide_eq_true_eq] at w
    by_cases hk : x.1 = k
    · simp only [mdel, hk, if_true]
      exact mwfFrom_mdel d k m lo (mwfFrom_mono d m (by omega) w.2)
    · simp only [mdel, hk, if_false, mwfFrom, Bool.and_eq_true, decide_eq_true_eq]
      exact ⟨w.1, mwfFrom_mdel d k m _ w.2⟩

theorem mwfFrom_mins (d : α) (k : Nat) (v : α) (hv : v ≠ d) : ∀ (m : SMap α) (lo : Nat), lo ≤ k → (∀ x ∈ m, x.1 ≠ k) →
    mwfFrom d lo m = true → mwfFrom d lo (mins m k v) = true
  | [], lo, h, _, _ => by simp [mins, mwfFrom, h, hv]
  | x :: m, lo, h, hn, w => by
    simp only [mwfFrom, Bool.and_eq_true, decide_eq_true_eq] at w
    by_cases hk : k < x.1
    · simp only [mins, hk, if_true, mwfFrom, Bool.and_eq_true, decide_eq_true_eq]
      exact ⟨⟨h, hv⟩, ⟨by omega, w.1.2⟩, w.2⟩
    · have hx := hn x (by simp)
      simp only [mins, hk, if_false, mwfFrom, Bool.and_eq_true, decide_eq_true_eq]
      exact ⟨w.1, mwfFrom_mins d k v hv m _ (by omega) (fun y hy => hn y (by simp [hy])) w.2⟩

/-- A write keeps the canonical form. -/
theorem mwf_mset (d : α) (m : SMap α) (k : Nat) (v : α) (w : mwf d m = true) : mwf d (mset d m k v) = true := by
  unfold mset mwf at *
  split
  · exact mwfFrom_mdel d k m 0 w
  · next h => exact mwfFrom_mins d k v h _ 0 (Nat.zero_le _) (mem_mdel_ne m k) (mwfFrom_mdel d k m 0 w)

end

/-- A write of bytes keeps memory's canonical form. -/
theorem wrBytes_wf (bs : List Byte) : ∀ (m : SMap Byte) (a : Nat), Memory.wf m = true → Memory.wf (wrBytes m a bs) = true := by
  induction bs with
  | nil => exact fun _ _ h => h
  | cons b bs ih => exact fun m a h => ih _ _ (mwf_mset 0#8 m a b h)

/-- A byte after a write of bytes. -/
theorem mget_wrBytes (bs : List Byte) : ∀ (m : SMap Byte) (a k : Nat),
    mget 0#8 (wrBytes m a bs) k = if a ≤ k ∧ k < a + bs.length then bs.getD (k - a) 0#8 else mget 0#8 m k := by
  induction bs with
  | nil => intro m a k; simp only [wrBytes, List.length_nil, Nat.add_zero]; rw [if_neg (by omega)]
  | cons b bs ih =>
    intro m a k
    rw [wrBytes, ih, mget_mset]
    simp only [List.length_cons]
    by_cases h1 : k = a
    · subst h1
      rw [if_neg (by omega), if_pos rfl, if_pos (by omega)]
      simp
    · by_cases h2 : a + 1 ≤ k ∧ k < a + 1 + bs.length
      · rw [if_pos h2, if_pos (by omega), show k - a = (k - (a + 1)) + 1 by omega]
        simp
      · rw [if_neg h2, if_neg h1, if_neg (by omega)]

end Sys2Proof.Machine
end

