-- ==== Sys2Proof/Laws/Lanes.lean ====
section
/-! SUPPORT. Groups, lanes and registers: a read after a write, and what the end of an issue does to each lane. -/

namespace Sys2Proof.Machine

/-! ## Parts of the state -/

@[simp] theorem blk_setBlk (s : State) (u : Nat) (b : Block) : (s.setBlk u b).blk u = b := mget_mset_self ..
theorem blk_setBlk_ne (s : State) {u v : Nat} (b : Block) (h : v ≠ u) : (s.setBlk u b).blk v = s.blk v := mget_mset_ne _ _ _ h
@[simp] theorem grp_setGrp (b : Block) (g : Nat) (G : Group) : (b.setGrp g G).grp g = G := mget_mset_self ..
theorem grp_setGrp_ne (b : Block) {g h : Nat} (G : Group) (e : h ≠ g) : (b.setGrp g G).grp h = b.grp h := mget_mset_ne _ _ _ e
@[simp] theorem state_grp_setGrp (s : State) (u g : Nat) (G : Group) : (s.setGrp u g G).grp u g = G := by
  simp [State.setGrp, State.grp]
@[simp] theorem state_grp_setBlk (s : State) (u g : Nat) (b : Block) : (s.setBlk u b).grp u g = b.grp g := by
  simp [State.grp]
@[simp] theorem lane_setLane (G : Group) (L : Nat) (l : Lane) : (G.setLane L l).lane L = l := mget_mset_self ..
theorem lane_setLane_ne (G : Group) {L M : Nat} (l : Lane) (h : M ≠ L) : (G.setLane L l).lane M = G.lane M := mget_mset_ne _ _ _ h
theorem lane_setLane_if (G : Group) (L M : Nat) (l : Lane) : (G.setLane L l).lane M = if M = L then l else G.lane M := mget_mset ..
@[simp] theorem core_setCore (s : State) (n : Nat) (c : CoreSt) : (s.setCore n c).core n = c := mget_mset_self ..
@[simp] theorem ctx_setCtx (s : State) (n : Nat) (c : Ctx) : (s.setCtx n c).ctx n = c := mget_mset_self ..
theorem ctx_setCtx_if (s : State) (n m : Nat) (c : Ctx) : (s.setCtx n c).ctx m = if m = n then c else s.ctx m := mget_mset ..
@[simp] theorem kernel_setKernel (s : State) (n : Nat) (k : Kernel) : (s.setKernel n k).kernel n = k := mget_mset_self ..
@[simp] theorem team_setTeam (s : State) (n : Nat) (x : Team) : (s.setTeam n x).team n = x := mget_mset_self ..
@[simp] theorem slice_setSlice (s : State) (n : Nat) (x : Slice) : (s.setSlice n x).slice n = x := mget_mset_self ..
@[simp] theorem ring_setRing (s : State) (n : Nat) (x : Ring) : (s.setRing n x).ring n = x := mget_mset_self ..
@[simp] theorem queue_setQueue (s : State) (n : Nat) (x : HwQueue) : (s.setQueue n x).queue n = x := mget_mset_self ..
@[simp] theorem quad_setQuad (s : State) (n : Nat) (x : Quad) : (s.setQuad n x).quad n = x := mget_mset_self ..
@[simp] theorem port_setPort (s : State) (n : Nat) (x : Port) : (s.setPort n x).port n = x := mget_mset_self ..
@[simp] theorem host_setHost (s : State) (n : Nat) (x : HostW) : (s.setHost n x).host n = x := mget_mset_self ..

/-! ## Registers -/

theorem ofNat_two_pow (n i : Nat) : BitVec.ofNat n (2 ^ i) = BitVec.twoPow n i := by
  apply BitVec.eq_of_toNat_eq
  rw [BitVec.toNat_ofNat, BitVec.toNat_twoPow]

/-- A bit of a word after one bit is replaced. -/
theorem getLsbD_setBit {n : Nat} (v : BitVec n) (i j : Nat) (b : Bool) (h : i < n) :
    (setBit v i b).getLsbD j = if j = i then b else v.getLsbD j := by
  unfold setBit
  rw [ofNat_two_pow]
  by_cases e : j = i
  · subst e
    cases b
    · simp only [Bool.false_eq_true, if_false, if_true, BitVec.getLsbD_and, BitVec.getLsbD_not, BitVec.getLsbD_twoPow, h]; simp
    · simp only [if_true, BitVec.getLsbD_or, BitVec.getLsbD_twoPow, h]; simp
  · have e' : ¬ i = j := fun x => e x.symm
    cases b
    · by_cases hj : j < n
      · simp only [Bool.false_eq_true, if_false, BitVec.getLsbD_and, BitVec.getLsbD_not, BitVec.getLsbD_twoPow, e, e', hj]; simp
      · simp only [Bool.false_eq_true, if_false, e, BitVec.getLsbD_of_ge _ _ (Nat.le_of_not_lt hj)]
    · simp only [if_true, BitVec.getLsbD_or, BitVec.getLsbD_twoPow, e, e', if_false]; simp

/-- A register that a group has: predicates and uniform predicates are 12 and 4 (R57, R60). -/
def RegKey.exists : RegKey → Bool
  | .p _ n => decide (n < 12)
  | .kp n => decide (n < 4)
  | _ => true

/-- What a register keeps of a word: a predicate its bit 0. -/
def RegKey.keep : RegKey → Word → Word
  | .p _ _, w => Word.ofBool (w.getLsbD 0)
  | .kp _, w => Word.ofBool (w.getLsbD 0)
  | .v _ _, w => w
  | .k _, w => w

theorem keep_ofBool (key : RegKey) (b : Bool) : key.keep (Word.ofBool b) = Word.ofBool b := by
  cases key <;> cases b <;> rfl

/-- A register after a write. -/
theorem getKey_setKey (G : Group) (key j : RegKey) (v : Word) (h : key.exists = true) :
    (G.setKey key v).getKey j = if j = key then key.keep v else G.getKey j := by
  cases key with
  | v L x =>
    cases j with
    | v M y =>
      by_cases hM : M = L
      · subst hM
        by_cases hy : y = x
        · subst hy; simp [Group.setKey, Group.getKey, RegKey.keep]
        · simp [Group.setKey, Group.getKey, hy, mget_mset_ne _ _ _ hy]
      · simp [Group.setKey, Group.getKey, hM, lane_setLane_ne _ _ hM]
    | p M y =>
      by_cases hM : M = L
      · subst hM; simp [Group.setKey, Group.getKey]
      · simp [Group.setKey, Group.getKey, lane_setLane_ne _ _ hM]
    | k n => rfl
    | kp n => rfl
  | p L x =>
    simp only [RegKey.exists, decide_eq_true_eq] at h
    cases j with
    | v M y =>
      by_cases hM : M = L
      · subst hM; simp [Group.setKey, Group.getKey]
      · simp [Group.setKey, Group.getKey, lane_setLane_ne _ _ hM]
    | p M y =>
      by_cases hM : M = L
      · subst hM
        simp only [Group.setKey, Group.getKey, lane_setLane, getLsbD_setBit _ _ _ _ h, RegKey.keep, RegKey.p.injEq, true_and]
        split <;> rfl
      · simp [Group.setKey, Group.getKey, hM, lane_setLane_ne _ _ hM]
    | k n => rfl
    | kp n => rfl
  | k n =>
    cases j with
    | v M y => rfl
    | p M y => rfl
    | k m => simp only [Group.setKey, Group.getKey, RegKey.keep, RegKey.k.injEq, mget_mset]
    | kp m => rfl
  | kp n =>
    simp only [RegKey.exists, decide_eq_true_eq] at h
    cases j with
    | v M y => rfl
    | p M y => rfl
    | k m => rfl
    | kp m =>
      simp only [Group.setKey, Group.getKey, getLsbD_setBit _ _ _ _ h, RegKey.keep, RegKey.kp.injEq]
      split <;> rfl

/-- A register that no write names. -/
theorem getKey_writes_none (key : RegKey) : ∀ (ws : List (RegKey × Word)) (G : Group), (∀ w ∈ ws, w.1.exists = true) →
    (∀ w ∈ ws, w.1 ≠ key) → (G.writes ws).getKey key = G.getKey key
  | [], _, _, _ => rfl
  | w :: ws, G, he, hn => by
    have h := getKey_writes_none key ws (G.setKey w.1 w.2) (fun x hx => he x (by simp [hx])) (fun x hx => hn x (by simp [hx]))
    simp only [Group.writes, List.foldl_cons] at h ⊢
    rw [h, getKey_setKey _ _ _ _ (he w (by simp)), if_neg (fun e => hn w (by simp) e.symm)]

/-- A register that some write names, when all that name it carry one value. -/
theorem getKey_writes (key : RegKey) (v : Word) : ∀ (ws : List (RegKey × Word)) (G : Group), (∀ w ∈ ws, w.1.exists = true) →
    (∀ w ∈ ws, w.1 = key → w.2 = v) → (∃ w ∈ ws, w.1 = key) → (G.writes ws).getKey key = key.keep v
  | [], _, _, _, h => by simp at h
  | w :: ws, G, he, hv, h => by
    have he' : ∀ x ∈ ws, x.1.exists = true := fun x hx => he x (by simp [hx])
    have hv' : ∀ x ∈ ws, x.1 = key → x.2 = v := fun x hx => hv x (by simp [hx])
    by_cases hs : ∃ x ∈ ws, x.1 = key
    · exact getKey_writes key v ws (G.setKey w.1 w.2) he' hv' hs
    · have hn : ∀ x ∈ ws, x.1 ≠ key := fun x hx e => hs ⟨x, hx, e⟩
      have hw : w.1 = key := by
        obtain ⟨x, hx, e⟩ := h
        rcases List.mem_cons.1 hx with rfl | hx
        · exact e
        · exact absurd ⟨x, hx, e⟩ hs
      have h1 := getKey_writes_none key ws (G.setKey w.1 w.2) he' hn
      have h2 : (G.setKey w.1 w.2).getKey key = key.keep v := by
        rw [getKey_setKey _ _ _ _ (he w (by simp)), if_pos hw.symm, hw, hv w (by simp) hw]
      exact h1.trans h2

/-- What writing registers leaves of the rest of a lane. -/
theorem lane_writes (ws : List (RegKey × Word)) : ∀ (G : Group) (L : Nat), (G.writes ws).lane L =
    { G.lane L with stack := ((G.writes ws).lane L).stack, preds := ((G.writes ws).lane L).preds } := by
  induction ws with
  | nil => intro G L; rfl
  | cons w ws ih =>
    intro G L
    have h1 : (G.setKey w.1 w.2).lane L = { G.lane L with stack := ((G.setKey w.1 w.2).lane L).stack
                                                          preds := ((G.setKey w.1 w.2).lane L).preds } := by
      obtain ⟨key, v⟩ := w
      cases key with
      | v M x =>
        by_cases hM : L = M
        · subst hM; simp [Group.setKey]
        · simp [Group.setKey, lane_setLane_ne _ _ hM]
      | p M x =>
        by_cases hM : L = M
        · subst hM; simp [Group.setKey]
        · simp [Group.setKey, lane_setLane_ne _ _ hM]
      | k n => rfl
      | kp n => rfl
    have h := ih (G.setKey w.1 w.2) L
    simp only [Group.writes, List.foldl_cons] at h ⊢
    rw [h, h1]

theorem setKey_stack (G : Group) (key : RegKey) (v : Word) (L : Nat) (h : ∀ x, key ≠ .v L x) :
    ((G.setKey key v).lane L).stack = (G.lane L).stack := by
  cases key with
  | v M x =>
    have hM : L ≠ M := fun e => h x (by rw [e])
    simp [Group.setKey, lane_setLane_ne _ _ hM]
  | p M x =>
    by_cases hM : L = M
    · subst hM; simp [Group.setKey]
    · simp [Group.setKey, lane_setLane_ne _ _ hM]
  | k n => rfl
  | kp n => rfl

theorem setKey_preds (G : Group) (key : RegKey) (v : Word) (L : Nat) (h : ∀ x, key ≠ .p L x) :
    ((G.setKey key v).lane L).preds = (G.lane L).preds := by
  cases key with
  | v M x =>
    by_cases hM : L = M
    · subst hM; simp [Group.setKey]
    · simp [Group.setKey, lane_setLane_ne _ _ hM]
  | p M x =>
    have hM : L ≠ M := fun e => h x (by rw [e])
    simp [Group.setKey, lane_setLane_ne _ _ hM]
  | k n => rfl
  | kp n => rfl

/-- No write names a register of the lane's stack. -/
theorem writes_stack (L : Nat) : ∀ (ws : List (RegKey × Word)) (G : Group), (∀ w ∈ ws, ∀ x, w.1 ≠ .v L x) →
    ((G.writes ws).lane L).stack = (G.lane L).stack
  | [], _, _ => rfl
  | w :: ws, G, h =>
    (writes_stack L ws (G.setKey w.1 w.2) fun x hx => h x (by simp [hx])).trans (setKey_stack G _ _ L (h w (by simp)))

/-- No write names a predicate of the lane. -/
theorem writes_preds (L : Nat) : ∀ (ws : List (RegKey × Word)) (G : Group), (∀ w ∈ ws, ∀ x, w.1 ≠ .p L x) →
    ((G.writes ws).lane L).preds = (G.lane L).preds
  | [], _, _ => rfl
  | w :: ws, G, h =>
    (writes_preds L ws (G.setKey w.1 w.2) fun x hx => h x (by simp [hx])).trans (setKey_preds G _ _ L (h w (by simp)))

/-- What writing registers leaves of the rest of a group. -/
theorem writes_group (ws : List (RegKey × Word)) : ∀ (G : Group), G.writes ws =
    { G with lanes := (G.writes ws).lanes, k := (G.writes ws).k, kp := (G.writes ws).kp } := by
  induction ws with
  | nil => intro G; rfl
  | cons w ws ih =>
    intro G
    have h1 : G.setKey w.1 w.2 = { G with lanes := (G.setKey w.1 w.2).lanes, k := (G.setKey w.1 w.2).k
                                          kp := (G.setKey w.1 w.2).kp } := by
      obtain ⟨key, v⟩ := w
      cases key <;> rfl
    have h := ih (G.setKey w.1 w.2)
    simp only [Group.writes, List.foldl_cons] at h ⊢
    rw [h, h1]

/-! ## The end of an issue -/

/-- Lanes after `produce`: those of the writes. -/
theorem produce_lanes (G : Group) (now iid : Nat) (d : Option Nat) (ws : List (RegKey × Word)) :
    (G.produce now iid d ws).lanes = (G.writes ws).lanes := by
  unfold Group.produce
  split
  · next h => rw [List.isEmpty_iff.1 h]; rfl
  · rfl

theorem produce_getKey (G : Group) (now iid : Nat) (d : Option Nat) (ws : List (RegKey × Word)) (key : RegKey) :
    (G.produce now iid d ws).getKey key = (G.writes ws).getKey key := by
  unfold Group.produce
  split
  · next h => rw [List.isEmpty_iff.1 h]; rfl
  · cases key <;> rfl

/-- What `produce` leaves of the rest of a group. -/
theorem produce_group (G : Group) (now iid : Nat) (d : Option Nat) (ws : List (RegKey × Word)) : G.produce now iid d ws =
    { G with lanes := (G.produce now iid d ws).lanes, k := (G.produce now iid d ws).k, kp := (G.produce now iid d ws).kp
             board := (G.produce now iid d ws).board } := by
  unfold Group.produce
  split
  · rfl
  · rw [writes_group]

/-- Lanes after `leave`: those of the writes. -/
theorem leave_lanes (G : Group) (now iid : Nat) (l : Lat) (ws : List (RegKey × Word)) :
    (G.leave now iid l ws).lanes = (G.writes ws).lanes := by
  cases l <;> simp only [Group.leave, produce_lanes]

theorem leave_getKey (G : Group) (now iid : Nat) (l : Lat) (ws : List (RegKey × Word)) (key : RegKey) :
    (G.leave now iid l ws).getKey key = (G.writes ws).getKey key := by
  cases l <;> simp only [Group.leave, produce_getKey]
  cases key <;> rfl

/-- What `leave` leaves of the rest of a group. -/
theorem leave_group (G : Group) (now iid : Nat) (l : Lat) (ws : List (RegKey × Word)) : G.leave now iid l ws =
    { G with lanes := (G.leave now iid l ws).lanes, k := (G.leave now iid l ws).k, kp := (G.leave now iid l ws).kp
             board := (G.leave now iid l ws).board } := by
  cases l
  case mem => simp only [Group.leave]; rw [writes_group]
  all_goals exact produce_group _ _ _ _ _

/-- A lane after the fold over the run. -/
def laneAfter (words : Nat) (r : Result) (parks : List (Nat × Cause)) (L : Nat) (l : Lane) : Lane :=
  match parks.find? (fun p => p.1 == L) with
  | some p => l.park p.2
  | none => l.advance words ((r.pcs.find? fun p => p.1 == L).map (·.2)) ((r.guards.find? fun p => p.1 == L).map (·.2)) (r.keeps.contains L)

theorem advance_fold (words : Nat) (r : Result) (parks : List (Nat × Cause)) : ∀ (run : List Nat) (G : Group), run.Nodup →
    let H := run.foldl (fun g L => g.setLane L (laneAfter words r parks L (g.lane L))) G
    (∀ L, H.lane L = if L ∈ run then laneAfter words r parks L (G.lane L) else G.lane L) ∧ H = { G with lanes := H.lanes }
  | [], G, _ => by simp
  | M :: run, G, hn => by
    have hn' := List.nodup_cons.1 hn
    have ih := advance_fold words r parks run (G.setLane M (laneAfter words r parks M (G.lane M))) hn'.2
    simp only [List.foldl_cons] at ih ⊢
    refine ⟨fun L => ?_, ih.2.trans rfl⟩
    rw [ih.1 L]
    by_cases hL : L = M
    · subst hL; simp [hn'.1]
    · simp [hL, lane_setLane_ne _ _ hL]

theorem advanceLanes_eq (G : Group) (c : Cur) (words : Nat) (r : Result) (parks : List (Nat × Cause)) :
    advanceLanes G c words r parks = c.run.foldl (fun g L => g.setLane L (laneAfter words r parks L (g.lane L))) G := by
  unfold advanceLanes laneAfter
  congr 1
  funext g L
  cases List.find? (fun p => p.1 == L) parks <;> rfl

/-- Every lane after the end of an issue. -/
theorem advanceLanes_lane (G : Group) (c : Cur) (words : Nat) (r : Result) (parks : List (Nat × Cause)) (hn : c.run.Nodup)
    (L : Nat) : (advanceLanes G c words r parks).lane L = if L ∈ c.run then laneAfter words r parks L (G.lane L) else G.lane L := by
  rw [advanceLanes_eq]
  exact (advance_fold words r parks c.run G hn).1 L

theorem advanceLanes_group (G : Group) (c : Cur) (words : Nat) (r : Result) (parks : List (Nat × Cause)) (hn : c.run.Nodup) :
    advanceLanes G c words r parks = { G with lanes := (advanceLanes G c words r parks).lanes } := by
  rw [advanceLanes_eq]
  exact (advance_fold words r parks c.run G hn).2

/-- Neither parking nor going on writes a register. -/
theorem laneAfter_regs (words : Nat) (r : Result) (parks : List (Nat × Cause)) (L : Nat) (l : Lane) :
    laneAfter words r parks L l = { l with
      status := (laneAfter words r parks L l).status, cause := (laneAfter words r parks L l).cause
      pc := (laneAfter words r parks L l).pc, gflag := (laneAfter words r parks L l).gflag
      gcount := (laneAfter words r parks L l).gcount } := by
  unfold laneAfter
  split
  · rfl
  · unfold Lane.advance
    split
    · rfl
    · split
      · rfl
      · split <;> rfl

theorem advanceLanes_getKey (G : Group) (c : Cur) (words : Nat) (r : Result) (parks : List (Nat × Cause)) (hn : c.run.Nodup)
    (key : RegKey) : (advanceLanes G c words r parks).getKey key = G.getKey key := by
  cases key with
  | v L x =>
    simp only [Group.getKey, advanceLanes_lane _ _ _ _ _ hn]
    split
    · rw [laneAfter_regs]
    · rfl
  | p L x =>
    simp only [Group.getKey, advanceLanes_lane _ _ _ _ _ hn]
    split
    · rw [laneAfter_regs]
    · rfl
  | k n => rw [advanceLanes_group _ _ _ _ _ hn]; rfl
  | kp n => rw [advanceLanes_group _ _ _ _ _ hn]; rfl

theorem stall_group (G : Group) (now iid : Nat) (st : Stall) (lat : Lat) : G.stall now iid st lat =
    { G with notBefore := (G.stall now iid st lat).notBefore, untilDone := (G.stall now iid st lat).untilDone } := by
  unfold Group.stall
  split
  · rfl
  · cases lat <;> rfl

theorem stall_lane (G : Group) (now iid : Nat) (st : Stall) (lat : Lat) (L : Nat) : (G.stall now iid st lat).lane L = G.lane L := by
  rw [stall_group]; rfl

theorem stall_getKey (G : Group) (now iid : Nat) (st : Stall) (lat : Lat) (key : RegKey) :
    (G.stall now iid st lat).getKey key = G.getKey key := by
  rw [stall_group]; cases key <;> rfl

end Sys2Proof.Machine
end

