-- ==== Sys2Proof/Laws/Issue.lean ====
section
/-! SUPPORT. What the issue of an instruction does, once for all of them: `issueWith_eq` says that an instruction that issues
answers the end of its body, `issued_of_finish` what that end leaves (R154, R171, R193). -/

namespace Sys2Proof.Machine

/-- The state an instruction's body starts from: a new instance number, the ports popped. -/
def startState (u : Uses) (s : State) (c : Cur) : State :=
  ({ s with fresh := s.fresh + 1 }).setBlk c.blk { s.blk c.blk with ports := (popPorts (s.blk c.blk).ports u.pops).2 }

/-- Lanes that park, with their causes. -/
def parksOf (u : Uses) (own : Own) (s : State) (c : Cur) : List (Nat × Cause) :=
  ((acting s c).filterMap fun L => (laneCause u own s c L).map fun x => (L, x)).filter fun p => !(s.lane c p.1).helper

/-- Zeros for helper lanes. -/
def zerosOf (u : Uses) (own : Own) (s : State) (c : Cur) : List (RegKey × Word) :=
  ((((acting s c).filterMap fun L => (laneCause u own s c L).map fun x => (L, x)).filter
      fun p => (s.lane c p.1).helper).map (·.1)).flatMap fun L =>
    (u.laneDests (s.blk c.blk).A (s.issuer c) L).map fun k => (k, 0#32)

theorem withCur_some {s : State} {c : Cur} (h : s.cur = some c) (k : Cur → State) : withCur s k = .next (k c) := by
  unfold withCur
  rw [h]

theorem ready_none {x : Option Reason} (h : x = none) (a : Reason → State) (k : State) :
    (match (generalizing := false) x with
      | some r => a r
      | none => k) = k := by subst h; rfl

/-- A lane that executes is one of those that an instruction's readiness is asked for. -/
theorem runs_sub_mayRun {u : Uses} {own : Own} {s : State} {c : Cur} {L : Nat} (h : L ∈ runs u own s c) : L ∈ mayRun u own s c := by
  simp only [runs, mayRun, List.mem_filter, Option.isNone_iff_eq_none, Bool.and_eq_true] at h ⊢
  obtain ⟨ha, hc⟩ := h
  unfold laneCause at hc
  split at hc
  · cases hc
  · rename_i hu
    refine ⟨ha, ?_, by rw [hc]; rfl⟩
    unfold Uses.cause at hu ⊢
    repeat' split at hu
    all_goals first | (cases hu; done) | simp_all

/-- An instruction that issues answers the end of its body. -/
theorem issueWith_eq {u : Uses} {own : Own} {s : State} {c : Cur} (h : Issuing u own s c) (st : Stall)
    (extra : State → Issue → Nat → Option Cause) (ready : State → Issue → Option Reason) (body : State → Issue → Result)
    (hx : extra s ⟨c, acting s c, [], s.fresh, s.cycleOf c.core⟩ = own)
    (hm : ready { s with fresh := s.fresh + 1 } (mayIssue u own s c) = none)
    (hr : ready { s with fresh := s.fresh + 1 } (issueOf u own s c) = none) :
    issueWith u st extra ready body s = .next (finish c s.fresh st u.pushes
      { body (startState u s c) (issueOf u own s c) with
        writes := zerosOf u own s c ++ (body (startState u s c) (issueOf u own s c)).writes } (parksOf u own s c)) := by
  subst hx
  rw [issueWith, withCur_some h.cur]
  refine congrArg Host.Outcome.next ?_
  generalize ho : (extra s ⟨c, acting s c, [], s.fresh, s.cycleOf c.core⟩) = own at *
  have e2 : (runs u own s c).isEmpty = false := by simpa [List.isEmpty_iff] using h.some_
  have e1 : (mayRun u own s c).isEmpty = false := by
    obtain ⟨L, hL⟩ := List.exists_mem_of_ne_nil _ h.some_
    have := runs_sub_mayRun hL
    cases e : mayRun u own s c with
    | nil => rw [e] at this; cases this
    | cons => rfl
  have e3 : (!s.portsOpen c u) = false := by rw [h.ports]; rfl
  subst ho
  refine Eq.trans (if_neg (by rw [Bool.not_eq_true]; exact e1)) ?_
  refine Eq.trans (if_neg (by rw [Bool.not_eq_true]; exact e3)) ?_
  refine Eq.trans (ready_none hm _ _) ?_
  refine Eq.trans (if_neg (by rw [Bool.not_eq_true]; exact e2)) ?_
  refine Eq.trans (ready_none hr _ _) ?_
  exact if_neg (by rw [Bool.not_eq_true]; exact h.sound)

/-! ## The end of a body -/

/-- The group at the end of an issue, before it stands under its stall. -/
def endGroupOf (c : Cur) (iid now : Nat) (r : Result) (parks : List (Nat × Cause)) (G : Group) : Group :=
  let G := G.leave now iid r.lat r.writes
  advanceLanes { G with fpsr := orFpsr G.fpsr r.flags } c c.words r (parks ++ r.parks)

theorem finish_issuer (c : Cur) (iid : Nat) (st : Stall) (push : Option Nat) (r : Result) (parks : List (Nat × Cause)) :
    (finish c iid st push r parks).issuer c = (endGroupOf c iid (r.s.cycleOf c.core) r parks (r.s.issuer c)).stall
      (r.s.cycleOf c.core) iid st (if r.lat = .var ∧ r.writes.isEmpty then .issue else r.lat) := by
  unfold finish State.issuer
  simp only [state_grp_setBlk, grp_setGrp]
  cases push <;> cases r.push <;> rfl

theorem finish_state (c : Cur) (iid : Nat) (st : Stall) (push : Option Nat) (r : Result) (parks : List (Nat × Cause)) :
    finish c iid st push r parks = { r.s with blocks := (finish c iid st push r parks).blocks } := rfl

theorem finish_blk_ne (c : Cur) (iid : Nat) (st : Stall) (push : Option Nat) (r : Result) (parks : List (Nat × Cause)) {v : Nat}
    (h : v ≠ c.blk) : (finish c iid st push r parks).blk v = r.s.blk v := blk_setBlk_ne _ _ h

theorem finish_grp_ne (c : Cur) (iid : Nat) (st : Stall) (push : Option Nat) (r : Result) (parks : List (Nat × Cause)) {g : Nat}
    (h : g ≠ c.grp) : (finish c iid st push r parks).grp c.blk g = r.s.grp c.blk g := by
  unfold finish
  rw [state_grp_setBlk, grp_setGrp_ne _ _ h]
  cases push <;> cases r.push <;> rfl

theorem finish_blk (c : Cur) (iid : Nat) (st : Stall) (push : Option Nat) (r : Result) (parks : List (Nat × Cause)) :
    (finish c iid st push r parks).blk c.blk = { r.s.blk c.blk with
      groups := ((finish c iid st push r parks).blk c.blk).groups
      ports := match push, r.push with
        | some p, some e => mset [] (r.s.blk c.blk).ports p (mget [] (r.s.blk c.blk).ports p ++ [e])
        | _, _ => (r.s.blk c.blk).ports } := by
  unfold finish
  simp only [blk_setBlk]
  cases push <;> cases r.push <;> rfl

theorem getKey_fpsr (G : Group) (w : Word) (key : RegKey) : ({ G with fpsr := w } : Group).getKey key = G.getKey key := by
  cases key <;> rfl

theorem endGroup_lane (c : Cur) (iid now : Nat) (r : Result) (parks : List (Nat × Cause)) (G : Group) (hn : c.run.Nodup) (L : Nat) :
    (endGroupOf c iid now r parks G).lane L =
      if L ∈ c.run then laneAfter c.words r (parks ++ r.parks) L ((G.writes r.writes).lane L) else (G.writes r.writes).lane L := by
  have h : ∀ (d : Lat), ({ (G.leave now iid d r.writes) with
      fpsr := orFpsr (G.leave now iid d r.writes).fpsr r.flags } : Group).lane L = (G.writes r.writes).lane L := fun d => by
    show mget {} (G.leave now iid d r.writes).lanes L = _
    rw [leave_lanes]; rfl
  unfold endGroupOf
  simp only [advanceLanes_lane _ _ _ _ _ hn]
  split <;> simp only [h]

theorem endGroup_getKey (c : Cur) (iid now : Nat) (r : Result) (parks : List (Nat × Cause)) (G : Group) (hn : c.run.Nodup)
    (key : RegKey) : (endGroupOf c iid now r parks G).getKey key = (G.writes r.writes).getKey key := by
  unfold endGroupOf
  simp only [advanceLanes_getKey _ _ _ _ _ hn, getKey_fpsr, leave_getKey]

theorem endGroup_group (c : Cur) (iid now : Nat) (r : Result) (parks : List (Nat × Cause)) (G : Group) (hn : c.run.Nodup) :
    endGroupOf c iid now r parks G = { G with
      lanes := (endGroupOf c iid now r parks G).lanes, k := (endGroupOf c iid now r parks G).k
      kp := (endGroupOf c iid now r parks G).kp, board := (endGroupOf c iid now r parks G).board
      fpsr := orFpsr G.fpsr r.flags } := by
  unfold endGroupOf
  simp only []
  rw [advanceLanes_group _ _ _ _ _ hn]
  simp only []
  rw [leave_group]

/-! ## Parks and zeros -/

theorem mem_parksOf {u : Uses} {own : Own} {s : State} {c : Cur} {p : Nat × Cause} :
    p ∈ parksOf u own s c ↔ p.1 ∈ acting s c ∧ laneCause u own s c p.1 = some p.2 ∧ (s.lane c p.1).helper = false := by
  obtain ⟨L, x⟩ := p
  simp only [parksOf, List.mem_filter, List.mem_filterMap, Option.map_eq_some_iff, Prod.mk.injEq, Bool.not_eq_true']
  constructor
  · rintro ⟨⟨M, hM, y, hy, rfl, rfl⟩, hh⟩
    exact ⟨hM, hy, hh⟩
  · rintro ⟨hM, hy, hh⟩
    exact ⟨⟨L, hM, x, hy, rfl, rfl⟩, hh⟩

theorem mem_runs {u : Uses} {own : Own} {s : State} {c : Cur} {L : Nat} :
    L ∈ runs u own s c ↔ L ∈ acting s c ∧ laneCause u own s c L = none := by
  simp [runs, List.mem_filter]

theorem mem_acting {s : State} {c : Cur} {L : Nat} : L ∈ acting s c ↔ L ∈ c.run ∧ (s.lane c L).inactive = false := by
  simp [acting, Group.acting, List.mem_filter, State.lane]

theorem find_parks_none {u : Uses} {own : Own} {s : State} {c : Cur} {L : Nat}
    (h : ¬ ∃ x, L ∈ acting s c ∧ laneCause u own s c L = some x ∧ (s.lane c L).helper = false) :
    (parksOf u own s c).find? (fun p => p.1 == L) = none := by
  rw [List.find?_eq_none]
  rintro ⟨M, x⟩ hp
  simp only [beq_iff_eq]
  rintro rfl
  exact h ⟨x, mem_parksOf.1 hp⟩

theorem find_parks_some {u : Uses} {own : Own} {s : State} {c : Cur} {L : Nat} {x : Cause} (h1 : L ∈ acting s c)
    (h2 : laneCause u own s c L = some x) (h3 : (s.lane c L).helper = false) :
    (parksOf u own s c).find? (fun p => p.1 == L) = some (L, x) := by
  cases hf : (parksOf u own s c).find? (fun p => p.1 == L) with
  | none =>
    have := List.find?_eq_none.1 hf (L, x) (mem_parksOf.2 ⟨h1, h2, h3⟩)
    simp at this
  | some p =>
    have hm := mem_parksOf.1 (List.mem_of_find?_eq_some hf)
    have he : p.1 = L := by simpa using List.find?_some hf
    obtain ⟨M, y⟩ := p
    subst he
    simp only at hm
    rw [h2] at hm
    simp only [Option.some.injEq] at hm
    rw [hm.2.1]

/-- The destinations of a lane are registers of its own, which exist. -/
theorem mem_laneDests {u : Uses} {A : Nat} {G : Group} {L : Nat} {key : RegKey} (h : key ∈ u.laneDests A G L) :
    ∃ x, key = .v L x ∨ (key = .p L x ∧ x < 12) := by
  unfold Uses.laneDests at h
  rcases List.mem_append.1 h with h | h
  · split at h
    · split at h
      · simp at h
      · simp only [destKeys, List.mem_map] at h
        obtain ⟨j, _, hj⟩ := h
        exact ⟨_, .inl hj.symm⟩
    · simp at h
  · simp only [List.mem_map, List.mem_filter, decide_eq_true_eq] at h
    obtain ⟨n, ⟨_, hn⟩, rfl⟩ := h
    exact ⟨n, .inr ⟨rfl, hn⟩⟩

/-- The keys of the zeros are those of `zeroed`: stack slots and predicates of helper lanes that have a cause. -/
theorem mem_zerosOf {u : Uses} {own : Own} {s : State} {c : Cur} {w : RegKey × Word} (h : w ∈ zerosOf u own s c) :
    w.1 ∈ zeroed u own s c ∧ w.2 = 0#32 ∧ ∃ L x, (w.1 = .v L x ∨ (w.1 = .p L x ∧ x < 12)) ∧ L ∈ acting s c
      ∧ (laneCause u own s c L).isSome = true ∧ (s.lane c L).helper = true := by
  simp only [zerosOf, List.mem_flatMap, List.mem_map, List.mem_filter, List.mem_filterMap, Option.map_eq_some_iff] at h
  obtain ⟨L, ⟨⟨M, y⟩, ⟨⟨N, hN, z, hz, he⟩, hh⟩, rfl⟩, k, hk, rfl⟩ := h
  simp only [Prod.mk.injEq] at he
  obtain ⟨rfl, rfl⟩ := he
  obtain ⟨x, hx⟩ := mem_laneDests hk
  refine ⟨?_, rfl, N, x, hx, hN, by rw [hz]; rfl, hh⟩
  simp only [zeroed, List.mem_flatMap, List.mem_filter, Bool.and_eq_true]
  exact ⟨N, ⟨hN, by rw [hz]; rfl, hh⟩, hk⟩

theorem zeroed_mem {u : Uses} {own : Own} {s : State} {c : Cur} {key : RegKey} (h : key ∈ zeroed u own s c) :
    (key, 0#32) ∈ zerosOf u own s c := by
  simp only [zeroed, List.mem_flatMap, List.mem_filter, Bool.and_eq_true] at h
  obtain ⟨L, ⟨hL, hc, hh⟩, hk⟩ := h
  obtain ⟨x, hx⟩ := Option.isSome_iff_exists.1 hc
  simp only [zerosOf, List.mem_flatMap, List.mem_map, List.mem_filter, List.mem_filterMap, Option.map_eq_some_iff]
  exact ⟨L, ⟨(L, x), ⟨⟨L, hL, x, hx, rfl⟩, hh⟩, rfl⟩, key, hk, rfl⟩

/-! ## What an issue leaves -/

/-- A body that keeps to an effect: what `issued_of_finish` asks of it. -/
structure Keeps (u : Uses) (own : Own) (s : State) (c : Cur) (e : Eff) (r : Result) : Prop where
  cur   : r.s.cur = some c
  group : r.s.issuer c = { e.grp (s.issuer c) with lanes := (r.s.issuer c).lanes }
  k     : (e.grp (s.issuer c)).k = (s.issuer c).k
  kp    : (e.grp (s.issuer c)).kp = (s.issuer c).kp
  fpsr  : (e.grp (s.issuer c)).fpsr = (s.issuer c).fpsr
  lanes : ∀ L, r.s.lane c L = if L ∈ runs u own s c then e.lane L (s.lane c L) else s.lane c L
  lane  : ∀ L ∈ runs u own s c, (e.lane L (s.lane c L)).pc = (s.lane c L).pc ∧ (e.lane L (s.lane c L)).gflag = (s.lane c L).gflag ∧
    (e.lane L (s.lane c L)).gcount = (s.lane c L).gcount ∧ (e.lane L (s.lane c L)).stack = (s.lane c L).stack ∧
    (e.lane L (s.lane c L)).preds = (s.lane c L).preds
  keys  : ∀ w ∈ r.writes, w.1 ∈ e.keys ∧ w.1.exists = true
  vlane : ∀ w ∈ r.writes, ∀ L x, w.1 = .v L x → L ∈ runs u own s c
  plane : ∀ w ∈ r.writes, ∀ L x, w.1 = .p L x → L ∈ runs u own s c
  flags : r.flags = e.flags
  jump  : ∀ L, (r.pcs.find? fun p => p.1 == L).map (·.2) = if L ∈ runs u own s c then e.jump L else none
  guard : ∀ L, (r.guards.find? fun p => p.1 == L).map (·.2) = if L ∈ runs u own s c then e.guard L else none
  stays : ∀ L, r.keeps.contains L = (e.stays && decide (L ∈ runs u own s c))
  parks : r.parks = []

section
variable {u : Uses} {own : Own} {s : State} {c : Cur} {e : Eff} {r : Result}

theorem Keeps.getKey (h : Keeps u own s c e r) (key : RegKey) : (r.s.issuer c).getKey key = (s.issuer c).getKey key := by
  have hl : ∀ L, (r.s.lane c L).stack = (s.lane c L).stack ∧ (r.s.lane c L).preds = (s.lane c L).preds := fun L => by
    rw [h.lanes L]
    split
    · next hL => exact ⟨(h.lane L hL).2.2.2.1, (h.lane L hL).2.2.2.2⟩
    · exact ⟨rfl, rfl⟩
  cases key with
  | v L x => exact congrArg (fun m => mget 0#32 m x) (hl L).1
  | p L x => exact congrArg (fun m : BitVec 12 => Word.ofBool (m.getLsbD x)) (hl L).2
  | k n => exact congrArg (fun m => mget 0#32 m n) ((congrArg Group.k h.group).trans h.k)
  | kp n => exact congrArg (fun m : BitVec 4 => Word.ofBool (m.getLsbD n)) ((congrArg Group.kp h.group).trans h.kp)

/-- The state at the end of an issue. -/
def endOf (u : Uses) (own : Own) (s : State) (c : Cur) (st : Stall) (r : Result) : State :=
  finish c s.fresh st u.pushes { r with writes := zerosOf u own s c ++ r.writes } (parksOf u own s c)

theorem endOf_lane (h : Issuing u own s c) (k : Keeps u own s c e r) (st : Stall) (L : Nat) :
    (endOf u own s c st r).lane c L = if L ∈ c.run then
      laneAfter c.words r (parksOf u own s c) L (((r.s.issuer c).writes (zerosOf u own s c ++ r.writes)).lane L)
      else ((r.s.issuer c).writes (zerosOf u own s c ++ r.writes)).lane L := by
  unfold endOf State.lane
  rw [finish_issuer, stall_lane, endGroup_lane _ _ _ _ _ _ h.nodup]
  simp only [k.parks, List.append_nil]
  rfl

theorem endOf_reg (h : Issuing u own s c) (st : Stall) (key : RegKey) :
    (endOf u own s c st r).reg c key = ((r.s.issuer c).writes (zerosOf u own s c ++ r.writes)).getKey key := by
  unfold endOf State.reg
  rw [finish_issuer, stall_getKey, endGroup_getKey _ _ _ _ _ _ h.nodup]

theorem zeros_exist : ∀ w ∈ zerosOf u own s c, w.1.exists = true := fun w hw => by
  obtain ⟨_, _, L, x, hk | ⟨hk, hx⟩, _⟩ := mem_zerosOf hw
  · rw [hk]; rfl
  · rw [hk]; simpa [RegKey.exists] using hx

theorem all_exist (k : Keeps u own s c e r) : ∀ w ∈ zerosOf u own s c ++ r.writes, w.1.exists = true := fun w hw => by
  rcases List.mem_append.1 hw with h | h
  · exact zeros_exist w h
  · exact (k.keys w h).2

/-- A lane whose registers the issue does not write, before its PC moves. -/
theorem written_lane (k : Keeps u own s c e r) (L : Nat) (hr : L ∉ runs u own s c)
    (hz : ¬ (L ∈ acting s c ∧ (laneCause u own s c L).isSome = true ∧ (s.lane c L).helper = true)) :
    ((r.s.issuer c).writes (zerosOf u own s c ++ r.writes)).lane L = s.lane c L := by
  have h1 := writes_stack L (zerosOf u own s c ++ r.writes) (r.s.issuer c) (fun w hw x e => by
    rcases List.mem_append.1 hw with h | h
    · obtain ⟨_, _, M, y, hk, hz'⟩ := mem_zerosOf h
      rw [e] at hk
      rcases hk with hk | ⟨hk, _⟩
      · obtain ⟨rfl, rfl⟩ := RegKey.v.inj hk
        exact hz hz'
      · exact RegKey.noConfusion hk
    · exact hr (k.vlane w h L x e))
  have h2 := writes_preds L (zerosOf u own s c ++ r.writes) (r.s.issuer c) (fun w hw x e => by
    rcases List.mem_append.1 hw with h | h
    · obtain ⟨_, _, M, y, hk, hz'⟩ := mem_zerosOf h
      rw [e] at hk
      rcases hk with hk | ⟨hk, _⟩
      · exact RegKey.noConfusion hk
      · obtain ⟨rfl, rfl⟩ := RegKey.p.inj hk
        exact hz hz'
    · exact hr (k.plane w h L x e))
  have h3 : (r.s.issuer c).lane L = s.lane c L := by
    have := k.lanes L
    rwa [if_neg hr] at this
  rw [lane_writes, h1, h2, h3]

/-- A lane of the run goes on as the result says. -/
theorem laneAfter_go (words : Nat) (r : Result) (parks : List (Nat × Cause)) (L : Nat) (l : Lane)
    (hp : parks.find? (fun p => p.1 == L) = none) : laneAfter words r parks L l =
      l.advance words ((r.pcs.find? fun p => p.1 == L).map (·.2)) ((r.guards.find? fun p => p.1 == L).map (·.2)) (r.keeps.contains L) := by
  unfold laneAfter
  rw [hp]

theorem notParked (L : Nat) (h : L ∈ runs u own s c) : (parksOf u own s c).find? (fun p => p.1 == L) = none :=
  find_parks_none fun ⟨x, _, h2, _⟩ => by rw [(mem_runs.1 h).2] at h2; cases h2

/-- THE END OF AN ISSUE: a body that keeps to an effect leaves what `Issued` says. -/
theorem issued_of_keeps (h : Issuing u own s c) (k : Keeps u own s c e r) (st : Stall) :
    Issued u own s c e (endOf u own s c st r) where
  cur := k.cur
  goes L hL ht hg := by
    have hrun := (mem_acting.1 (mem_runs.1 hL).1).1
    have hl := k.lane L hL
    rw [endOf_lane h k, if_pos hrun, laneAfter_go _ _ _ _ _ (notParked L hL), k.jump L, k.guard L, if_pos hL, if_pos hL, ht, hg, k.stays L,
      lane_writes]
    have hs : (r.s.issuer c).lane L = e.lane L (s.lane c L) := by
      have := k.lanes L; rwa [if_pos hL] at this
    simp only [hs, decide_eq_true hL, Bool.and_true, Lane.advance]
    cases e.stays <;> simp [hl]
  jumps L hL a ht hg := by
    have hrun := (mem_acting.1 (mem_runs.1 hL).1).1
    rw [endOf_lane h k, if_pos hrun, laneAfter_go _ _ _ _ _ (notParked L hL), k.jump L, k.guard L, if_pos hL, if_pos hL, ht, hg]
    exact ⟨rfl, rfl⟩
  guards L hL g hg := by
    have hrun := (mem_acting.1 (mem_runs.1 hL).1).1
    have hl := k.lane L hL
    rw [endOf_lane h k, if_pos hrun, laneAfter_go _ _ _ _ _ (notParked L hL), k.jump L, k.guard L, if_pos hL, if_pos hL, hg, lane_writes]
    have hs : (r.s.issuer c).lane L = e.lane L (s.lane c L) := by
      have := k.lanes L; rwa [if_pos hL] at this
    simp [Lane.advance, hs, hl.1]
  lanes L hL := by
    have hrun := (mem_acting.1 (mem_runs.1 hL).1).1
    have hs : (r.s.issuer c).lane L = e.lane L (s.lane c L) := by
      have := k.lanes L; rwa [if_pos hL] at this
    have hq : ∀ l : Lane, laneAfter c.words r (parksOf u own s c) L l = { l with
        pc := (laneAfter c.words r (parksOf u own s c) L l).pc, gflag := (laneAfter c.words r (parksOf u own s c) L l).gflag
        gcount := (laneAfter c.words r (parksOf u own s c) L l).gcount } := fun l => by
      rw [laneAfter_go _ _ _ _ _ (notParked L hL)]
      unfold Lane.advance
      split
      · rfl
      · split
        · rfl
        · split <;> rfl
    rw [endOf_lane h k, if_pos hrun, hq, lane_writes, hs]
  passes L hL hi := by
    have hr : L ∉ runs u own s c := fun x => by
      have := (mem_acting.1 (mem_runs.1 x).1).2
      rw [hi] at this; cases this
    have ha : L ∉ acting s c := fun x => by
      have := (mem_acting.1 x).2
      rw [hi] at this; cases this
    rw [endOf_lane h k, if_pos hL, written_lane k L hr (fun x => ha x.1),
      laneAfter_go _ _ _ _ _ (find_parks_none fun ⟨_, x, _⟩ => ha x), k.jump L, k.guard L, if_neg hr, if_neg hr, k.stays L]
    simp [Lane.advance, hr]
  parks L hL x hx hh := by
    have hr : L ∉ runs u own s c := fun y => by rw [(mem_runs.1 y).2] at hx; cases hx
    have hrun := (mem_acting.1 hL).1
    rw [endOf_lane h k, if_pos hrun, written_lane k L hr (fun y => by rw [hh] at y; cases y.2.2)]
    unfold laneAfter
    rw [find_parks_some hL hx hh]
    rfl
  helps L hL x hx hh := by
    have hr : L ∉ runs u own s c := fun y => by rw [(mem_runs.1 y).2] at hx; cases hx
    have hrun := (mem_acting.1 hL).1
    have h3 : (r.s.issuer c).lane L = s.lane c L := by
      have := k.lanes L
      rwa [if_neg hr] at this
    rw [endOf_lane h k, if_pos hrun, laneAfter_go _ _ _ _ _ (find_parks_none fun ⟨_, _, _, y⟩ => by rw [hh] at y; cases y), k.jump L,
      k.guard L, if_neg hr, if_neg hr, k.stays L, lane_writes, h3]
    simp [Lane.advance, hr]
  zeros key hk hn := by
    rw [endOf_reg h]
    have := getKey_writes key 0#32 (zerosOf u own s c ++ r.writes) (r.s.issuer c) (all_exist k) (fun w hw e => by
      rcases List.mem_append.1 hw with h | h
      · exact (mem_zerosOf h).2.1
      · exact absurd (k.keys w h).1 (e ▸ hn)) ⟨(key, 0#32), List.mem_append.2 (.inl (zeroed_mem hk)), rfl⟩
    rw [this]
    cases key <;> rfl
  others L hL := by
    have ha : L ∉ acting s c := fun x => hL (mem_acting.1 x).1
    rw [endOf_lane h k, if_neg hL, written_lane k L (fun x => ha (mem_runs.1 x).1) (fun x => ha x.1)]
  regs key hk hz := by
    rw [endOf_reg h, getKey_writes_none key _ _ (all_exist k) (fun w hw e => by
      rcases List.mem_append.1 hw with h | h
      · exact hz (e ▸ (mem_zerosOf h).1)
      · exact hk (e ▸ (k.keys w h).1)), k.getKey]
    rfl
  flags := by
    unfold endOf
    rw [finish_issuer, stall_group, endGroup_group _ _ _ _ _ _ h.nodup]
    show orFpsr (r.s.issuer c).fpsr r.flags = _
    rw [k.flags, k.group]
    exact congrArg (orFpsr · e.flags) k.fpsr
  group := by
    unfold endOf
    rw [finish_issuer, stall_group, endGroup_group _ _ _ _ _ _ h.nodup, k.group]

/-- A written register, when all writes to it carry one value. -/
theorem endOf_written (h : Issuing u own s c) (k : Keeps u own s c e r) (st : Stall) (key : RegKey) (v : Word)
    (hz : key ∉ zeroed u own s c) (hv : ∀ w ∈ r.writes, w.1 = key → w.2 = v) (hw : ∃ w ∈ r.writes, w.1 = key) :
    (endOf u own s c st r).reg c key = key.keep v := by
  rw [endOf_reg h]
  refine getKey_writes key v _ _ (all_exist k) (fun w hw e => ?_) ?_
  · rcases List.mem_append.1 hw with h | h
    · exact absurd (e ▸ (mem_zerosOf h).1) hz
    · exact hv w h e
  · obtain ⟨w, hw, e⟩ := hw
    exact ⟨w, List.mem_append.2 (.inr hw), e⟩

/-- A lane that executes has no zeroed register. -/
theorem not_zeroed {L x : Nat} (hL : L ∈ runs u own s c) : RegKey.v L x ∉ zeroed u own s c := fun hk => by
  obtain ⟨_, _, M, y, he | ⟨he, _⟩, _, hc, _⟩ := mem_zerosOf (zeroed_mem hk)
  · obtain ⟨rfl, rfl⟩ := RegKey.v.inj he
    rw [(mem_runs.1 hL).2] at hc
    cases hc
  · exact RegKey.noConfusion he

theorem not_zeroed_p {L x : Nat} (hL : L ∈ runs u own s c) : RegKey.p L x ∉ zeroed u own s c := fun hk => by
  obtain ⟨_, _, M, y, he | ⟨he, _⟩, _, hc, _⟩ := mem_zerosOf (zeroed_mem hk)
  · exact RegKey.noConfusion he
  · obtain ⟨rfl, rfl⟩ := RegKey.p.inj he
    rw [(mem_runs.1 hL).2] at hc
    cases hc

theorem not_zeroed_k {x : Nat} : RegKey.k x ∉ zeroed u own s c := fun hk => by
  obtain ⟨_, _, M, y, he | ⟨he, _⟩, _⟩ := mem_zerosOf (zeroed_mem hk) <;> exact RegKey.noConfusion he

theorem not_zeroed_kp {x : Nat} : RegKey.kp x ∉ zeroed u own s c := fun hk => by
  obtain ⟨_, _, M, y, he | ⟨he, _⟩, _⟩ := mem_zerosOf (zeroed_mem hk) <;> exact RegKey.noConfusion he

theorem block_rest {a b y : Block} {g : SMap Group} {p : SMap (List (List Word))} (h : a = { y with groups := g, ports := p })
    (hs : y = { b with groups := y.groups, ports := y.ports }) : a = { b with groups := a.groups, ports := a.ports } := by
  rw [h]
  exact congrArg (fun z : Block => { z with groups := g, ports := p }) hs

/-- The block at the end of an issue whose body leaves the blocks alone. -/
theorem blockKept_of (st : Stall) (hb : ∀ v, v ≠ c.blk → r.s.blk v = s.blk v) (hg : ∀ g, g ≠ c.grp → r.s.grp c.blk g = s.grp c.blk g)
    (hs : r.s.blk c.blk = { s.blk c.blk with groups := (r.s.blk c.blk).groups, ports := (r.s.blk c.blk).ports }) :
    BlockKept s c (endOf u own s c st r) where
  block := by
    exact block_rest (finish_blk c s.fresh st u.pushes { r with writes := zerosOf u own s c ++ r.writes } (parksOf u own s c)) hs
  groups g h := (finish_grp_ne _ _ _ _ _ _ h).trans (hg g h)
  blocks v h := (finish_blk_ne _ _ _ _ _ _ h).trans (hb v h)

end

end Sys2Proof.Machine
end

