-- ==== Sys2Proof/Laws/State.lean ====
section
/-! SUPPORT. What each update of one part of the state leaves of every other part: one lemma a field, true by unfolding. -/

namespace Sys2Proof.Machine

/-! ## setBlk -/

@[simp] theorem State.setBlk_tick (s : State) (u : Nat) (b : Block) : (s.setBlk u b).tick = s.tick := rfl
@[simp] theorem State.setBlk_stampBase (s : State) (u : Nat) (b : Block) : (s.setBlk u b).stampBase = s.stampBase := rfl
@[simp] theorem State.setBlk_cycles (s : State) (u : Nat) (b : Block) : (s.setBlk u b).cycles = s.cycles := rfl
@[simp] theorem State.setBlk_clockK (s : State) (u : Nat) (b : Block) : (s.setBlk u b).clockK = s.clockK := rfl
@[simp] theorem State.setBlk_device (s : State) (u : Nat) (b : Block) : (s.setBlk u b).device = s.device := rfl
@[simp] theorem State.setBlk_agenda (s : State) (u : Nat) (b : Block) : (s.setBlk u b).agenda = s.agenda := rfl
@[simp] theorem State.setBlk_auto (s : State) (u : Nat) (b : Block) : (s.setBlk u b).auto = s.auto := rfl
@[simp] theorem State.setBlk_fresh (s : State) (u : Nat) (b : Block) : (s.setBlk u b).fresh = s.fresh := rfl
@[simp] theorem State.setBlk_cur (s : State) (u : Nat) (b : Block) : (s.setBlk u b).cur = s.cur := rfl
@[simp] theorem State.setBlk_mem (s : State) (u : Nat) (b : Block) : (s.setBlk u b).mem = s.mem := rfl
@[simp] theorem State.setBlk_lines (s : State) (u : Nat) (b : Block) : (s.setBlk u b).lines = s.lines := rfl
@[simp] theorem State.setBlk_pageGen (s : State) (u : Nat) (b : Block) : (s.setBlk u b).pageGen = s.pageGen := rfl
@[simp] theorem State.setBlk_poison (s : State) (u : Nat) (b : Block) : (s.setBlk u b).poison = s.poison := rfl
@[simp] theorem State.setBlk_slices (s : State) (u : Nat) (b : Block) : (s.setBlk u b).slices = s.slices := rfl
@[simp] theorem State.setBlk_rings (s : State) (u : Nat) (b : Block) : (s.setBlk u b).rings = s.rings := rfl
@[simp] theorem State.setBlk_heads (s : State) (u : Nat) (b : Block) : (s.setBlk u b).heads = s.heads := rfl
@[simp] theorem State.setBlk_lastWrite (s : State) (u : Nat) (b : Block) : (s.setBlk u b).lastWrite = s.lastWrite := rfl
@[simp] theorem State.setBlk_maps (s : State) (u : Nat) (b : Block) : (s.setBlk u b).maps = s.maps := rfl
@[simp] theorem State.setBlk_hres (s : State) (u : Nat) (b : Block) : (s.setBlk u b).hres = s.hres := rfl
@[simp] theorem State.setBlk_tlb (s : State) (u : Nat) (b : Block) : (s.setBlk u b).tlb = s.tlb := rfl
@[simp] theorem State.setBlk_pend (s : State) (u : Nat) (b : Block) : (s.setBlk u b).pend = s.pend := rfl
@[simp] theorem State.setBlk_counted (s : State) (u : Nat) (b : Block) : (s.setBlk u b).counted = s.counted := rfl
@[simp] theorem State.setBlk_cores (s : State) (u : Nat) (b : Block) : (s.setBlk u b).cores = s.cores := rfl
@[simp] theorem State.setBlk_ctxs (s : State) (u : Nat) (b : Block) : (s.setBlk u b).ctxs = s.ctxs := rfl
@[simp] theorem State.setBlk_kernels (s : State) (u : Nat) (b : Block) : (s.setBlk u b).kernels = s.kernels := rfl
@[simp] theorem State.setBlk_teams (s : State) (u : Nat) (b : Block) : (s.setBlk u b).teams = s.teams := rfl
@[simp] theorem State.setBlk_units (s : State) (u : Nat) (b : Block) : (s.setBlk u b).units = s.units := rfl
@[simp] theorem State.setBlk_log (s : State) (u : Nat) (b : Block) : (s.setBlk u b).log = s.log := rfl
@[simp] theorem State.setBlk_logNext (s : State) (u : Nat) (b : Block) : (s.setBlk u b).logNext = s.logNext := rfl
@[simp] theorem State.setBlk_logNew (s : State) (u : Nat) (b : Block) : (s.setBlk u b).logNew = s.logNew := rfl
@[simp] theorem State.setBlk_traced (s : State) (u : Nat) (b : Block) : (s.setBlk u b).traced = s.traced := rfl
@[simp] theorem State.setBlk_members (s : State) (u : Nat) (b : Block) : (s.setBlk u b).members = s.members := rfl
@[simp] theorem State.setBlk_peerDusk (s : State) (u : Nat) (b : Block) : (s.setBlk u b).peerDusk = s.peerDusk := rfl
@[simp] theorem State.setBlk_retained (s : State) (u : Nat) (b : Block) : (s.setBlk u b).retained = s.retained := rfl
@[simp] theorem State.setBlk_e2eOut (s : State) (u : Nat) (b : Block) : (s.setBlk u b).e2eOut = s.e2eOut := rfl
@[simp] theorem State.setBlk_e2eIn (s : State) (u : Nat) (b : Block) : (s.setBlk u b).e2eIn = s.e2eIn := rfl
@[simp] theorem State.setBlk_out (s : State) (u : Nat) (b : Block) : (s.setBlk u b).out = s.out := rfl
@[simp] theorem State.setBlk_receipts (s : State) (u : Nat) (b : Block) : (s.setBlk u b).receipts = s.receipts := rfl
@[simp] theorem State.setBlk_past (s : State) (u : Nat) (b : Block) : (s.setBlk u b).past = s.past := rfl
@[simp] theorem State.setBlk_hostq (s : State) (u : Nat) (b : Block) : (s.setBlk u b).hostq = s.hostq := rfl
@[simp] theorem State.setBlk_noted (s : State) (u : Nat) (b : Block) : (s.setBlk u b).noted = s.noted := rfl
@[simp] theorem State.setBlk_tlbCmd (s : State) (u : Nat) (b : Block) : (s.setBlk u b).tlbCmd = s.tlbCmd := rfl
@[simp] theorem State.setBlk_logged (s : State) (u : Nat) (b : Block) : (s.setBlk u b).logged = s.logged := rfl
@[simp] theorem State.setBlk_logChain (s : State) (u : Nat) (b : Block) : (s.setBlk u b).logChain = s.logChain := rfl
@[simp] theorem State.setBlk_ports (s : State) (u : Nat) (b : Block) : (s.setBlk u b).ports = s.ports := rfl
@[simp] theorem State.setBlk_queues (s : State) (u : Nat) (b : Block) : (s.setBlk u b).queues = s.queues := rfl
@[simp] theorem State.setBlk_held (s : State) (u : Nat) (b : Block) : (s.setBlk u b).held = s.held := rfl
@[simp] theorem State.setBlk_acts (s : State) (u : Nat) (b : Block) : (s.setBlk u b).acts = s.acts := rfl
@[simp] theorem State.setBlk_vesper (s : State) (u : Nat) (b : Block) : (s.setBlk u b).vesper = s.vesper := rfl
@[simp] theorem State.setBlk_island (s : State) (u : Nat) (b : Block) : (s.setBlk u b).island = s.island := rfl
@[simp] theorem State.setBlk_hosts (s : State) (u : Nat) (b : Block) : (s.setBlk u b).hosts = s.hosts := rfl
@[simp] theorem State.setBlk_replies (s : State) (u : Nat) (b : Block) : (s.setBlk u b).replies = s.replies := rfl
@[simp] theorem State.setBlk_quads (s : State) (u : Nat) (b : Block) : (s.setBlk u b).quads = s.quads := rfl
@[simp] theorem State.setBlk_placeLog (s : State) (u : Nat) (b : Block) : (s.setBlk u b).placeLog = s.placeLog := rfl
@[simp] theorem State.setBlk_hretain (s : State) (u : Nat) (b : Block) : (s.setBlk u b).hretain = s.hretain := rfl
@[simp] theorem State.setBlk_seriesk (s : State) (u : Nat) (b : Block) : (s.setBlk u b).seriesk = s.seriesk := rfl
@[simp] theorem State.setBlk_retrain (s : State) (u : Nat) (b : Block) : (s.setBlk u b).retrain = s.retrain := rfl
@[simp] theorem State.setBlk_stopat (s : State) (u : Nat) (b : Block) : (s.setBlk u b).stopat = s.stopat := rfl
@[simp] theorem State.setBlk_serBase (s : State) (u : Nat) (b : Block) : (s.setBlk u b).serBase = s.serBase := rfl
@[simp] theorem State.setBlk_serSize (s : State) (u : Nat) (b : Block) : (s.setBlk u b).serSize = s.serSize := rfl
@[simp] theorem State.setBlk_serSeq (s : State) (u : Nat) (b : Block) : (s.setBlk u b).serSeq = s.serSeq := rfl
@[simp] theorem State.setBlk_serLast (s : State) (u : Nat) (b : Block) : (s.setBlk u b).serLast = s.serLast := rfl
@[simp] theorem State.setBlk_stopped (s : State) (u : Nat) (b : Block) : (s.setBlk u b).stopped = s.stopped := rfl
@[simp] theorem State.setBlk_stopTick (s : State) (u : Nat) (b : Block) : (s.setBlk u b).stopTick = s.stopTick := rfl
@[simp] theorem State.setBlk_stopSet (s : State) (u : Nat) (b : Block) : (s.setBlk u b).stopSet = s.stopSet := rfl
@[simp] theorem State.setBlk_resumeTick (s : State) (u : Nat) (b : Block) : (s.setBlk u b).resumeTick = s.resumeTick := rfl
@[simp] theorem State.setBlk_at_core (s : State) (u : Nat) (b : Block) (n : Nat) : (s.setBlk u b).core n = s.core n := rfl
@[simp] theorem State.setBlk_at_ctx (s : State) (u : Nat) (b : Block) (n : Nat) : (s.setBlk u b).ctx n = s.ctx n := rfl
@[simp] theorem State.setBlk_at_kernel (s : State) (u : Nat) (b : Block) (n : Nat) : (s.setBlk u b).kernel n = s.kernel n := rfl
@[simp] theorem State.setBlk_at_team (s : State) (u : Nat) (b : Block) (n : Nat) : (s.setBlk u b).team n = s.team n := rfl
@[simp] theorem State.setBlk_at_slice (s : State) (u : Nat) (b : Block) (n : Nat) : (s.setBlk u b).slice n = s.slice n := rfl
@[simp] theorem State.setBlk_at_ring (s : State) (u : Nat) (b : Block) (n : Nat) : (s.setBlk u b).ring n = s.ring n := rfl
@[simp] theorem State.setBlk_at_queue (s : State) (u : Nat) (b : Block) (n : Nat) : (s.setBlk u b).queue n = s.queue n := rfl
@[simp] theorem State.setBlk_at_quad (s : State) (u : Nat) (b : Block) (n : Nat) : (s.setBlk u b).quad n = s.quad n := rfl
@[simp] theorem State.setBlk_at_port (s : State) (u : Nat) (b : Block) (n : Nat) : (s.setBlk u b).port n = s.port n := rfl
@[simp] theorem State.setBlk_at_host (s : State) (u : Nat) (b : Block) (n : Nat) : (s.setBlk u b).host n = s.host n := rfl
@[simp] theorem State.setBlk_peerPins (s : State) (u : Nat) (b : Block) : (s.setBlk u b).peerPins = s.peerPins := rfl
@[simp] theorem State.setBlk_duskNew (s : State) (u : Nat) (b : Block) : (s.setBlk u b).duskNew = s.duskNew := rfl
@[simp] theorem State.setBlk_rx (s : State) (u : Nat) (b : Block) : (s.setBlk u b).rx = s.rx := rfl
@[simp] theorem State.setBlk_wire (s : State) (u : Nat) (b : Block) : (s.setBlk u b).wire = s.wire := rfl
@[simp] theorem State.setBlk_devSent (s : State) (u : Nat) (b : Block) : (s.setBlk u b).devSent = s.devSent := rfl

/-! ## setGrp -/

@[simp] theorem State.setGrp_tick (s : State) (u g : Nat) (G : Group) : (s.setGrp u g G).tick = s.tick := rfl
@[simp] theorem State.setGrp_stampBase (s : State) (u g : Nat) (G : Group) : (s.setGrp u g G).stampBase = s.stampBase := rfl
@[simp] theorem State.setGrp_cycles (s : State) (u g : Nat) (G : Group) : (s.setGrp u g G).cycles = s.cycles := rfl
@[simp] theorem State.setGrp_clockK (s : State) (u g : Nat) (G : Group) : (s.setGrp u g G).clockK = s.clockK := rfl
@[simp] theorem State.setGrp_device (s : State) (u g : Nat) (G : Group) : (s.setGrp u g G).device = s.device := rfl
@[simp] theorem State.setGrp_agenda (s : State) (u g : Nat) (G : Group) : (s.setGrp u g G).agenda = s.agenda := rfl
@[simp] theorem State.setGrp_auto (s : State) (u g : Nat) (G : Group) : (s.setGrp u g G).auto = s.auto := rfl
@[simp] theorem State.setGrp_fresh (s : State) (u g : Nat) (G : Group) : (s.setGrp u g G).fresh = s.fresh := rfl
@[simp] theorem State.setGrp_cur (s : State) (u g : Nat) (G : Group) : (s.setGrp u g G).cur = s.cur := rfl
@[simp] theorem State.setGrp_mem (s : State) (u g : Nat) (G : Group) : (s.setGrp u g G).mem = s.mem := rfl
@[simp] theorem State.setGrp_lines (s : State) (u g : Nat) (G : Group) : (s.setGrp u g G).lines = s.lines := rfl
@[simp] theorem State.setGrp_pageGen (s : State) (u g : Nat) (G : Group) : (s.setGrp u g G).pageGen = s.pageGen := rfl
@[simp] theorem State.setGrp_poison (s : State) (u g : Nat) (G : Group) : (s.setGrp u g G).poison = s.poison := rfl
@[simp] theorem State.setGrp_slices (s : State) (u g : Nat) (G : Group) : (s.setGrp u g G).slices = s.slices := rfl
@[simp] theorem State.setGrp_rings (s : State) (u g : Nat) (G : Group) : (s.setGrp u g G).rings = s.rings := rfl
@[simp] theorem State.setGrp_heads (s : State) (u g : Nat) (G : Group) : (s.setGrp u g G).heads = s.heads := rfl
@[simp] theorem State.setGrp_lastWrite (s : State) (u g : Nat) (G : Group) : (s.setGrp u g G).lastWrite = s.lastWrite := rfl
@[simp] theorem State.setGrp_maps (s : State) (u g : Nat) (G : Group) : (s.setGrp u g G).maps = s.maps := rfl
@[simp] theorem State.setGrp_hres (s : State) (u g : Nat) (G : Group) : (s.setGrp u g G).hres = s.hres := rfl
@[simp] theorem State.setGrp_tlb (s : State) (u g : Nat) (G : Group) : (s.setGrp u g G).tlb = s.tlb := rfl
@[simp] theorem State.setGrp_pend (s : State) (u g : Nat) (G : Group) : (s.setGrp u g G).pend = s.pend := rfl
@[simp] theorem State.setGrp_counted (s : State) (u g : Nat) (G : Group) : (s.setGrp u g G).counted = s.counted := rfl
@[simp] theorem State.setGrp_cores (s : State) (u g : Nat) (G : Group) : (s.setGrp u g G).cores = s.cores := rfl
@[simp] theorem State.setGrp_ctxs (s : State) (u g : Nat) (G : Group) : (s.setGrp u g G).ctxs = s.ctxs := rfl
@[simp] theorem State.setGrp_kernels (s : State) (u g : Nat) (G : Group) : (s.setGrp u g G).kernels = s.kernels := rfl
@[simp] theorem State.setGrp_teams (s : State) (u g : Nat) (G : Group) : (s.setGrp u g G).teams = s.teams := rfl
@[simp] theorem State.setGrp_units (s : State) (u g : Nat) (G : Group) : (s.setGrp u g G).units = s.units := rfl
@[simp] theorem State.setGrp_log (s : State) (u g : Nat) (G : Group) : (s.setGrp u g G).log = s.log := rfl
@[simp] theorem State.setGrp_logNext (s : State) (u g : Nat) (G : Group) : (s.setGrp u g G).logNext = s.logNext := rfl
@[simp] theorem State.setGrp_logNew (s : State) (u g : Nat) (G : Group) : (s.setGrp u g G).logNew = s.logNew := rfl
@[simp] theorem State.setGrp_traced (s : State) (u g : Nat) (G : Group) : (s.setGrp u g G).traced = s.traced := rfl
@[simp] theorem State.setGrp_members (s : State) (u g : Nat) (G : Group) : (s.setGrp u g G).members = s.members := rfl
@[simp] theorem State.setGrp_peerDusk (s : State) (u g : Nat) (G : Group) : (s.setGrp u g G).peerDusk = s.peerDusk := rfl
@[simp] theorem State.setGrp_retained (s : State) (u g : Nat) (G : Group) : (s.setGrp u g G).retained = s.retained := rfl
@[simp] theorem State.setGrp_e2eOut (s : State) (u g : Nat) (G : Group) : (s.setGrp u g G).e2eOut = s.e2eOut := rfl
@[simp] theorem State.setGrp_e2eIn (s : State) (u g : Nat) (G : Group) : (s.setGrp u g G).e2eIn = s.e2eIn := rfl
@[simp] theorem State.setGrp_out (s : State) (u g : Nat) (G : Group) : (s.setGrp u g G).out = s.out := rfl
@[simp] theorem State.setGrp_receipts (s : State) (u g : Nat) (G : Group) : (s.setGrp u g G).receipts = s.receipts := rfl
@[simp] theorem State.setGrp_past (s : State) (u g : Nat) (G : Group) : (s.setGrp u g G).past = s.past := rfl
@[simp] theorem State.setGrp_hostq (s : State) (u g : Nat) (G : Group) : (s.setGrp u g G).hostq = s.hostq := rfl
@[simp] theorem State.setGrp_noted (s : State) (u g : Nat) (G : Group) : (s.setGrp u g G).noted = s.noted := rfl
@[simp] theorem State.setGrp_tlbCmd (s : State) (u g : Nat) (G : Group) : (s.setGrp u g G).tlbCmd = s.tlbCmd := rfl
@[simp] theorem State.setGrp_logged (s : State) (u g : Nat) (G : Group) : (s.setGrp u g G).logged = s.logged := rfl
@[simp] theorem State.setGrp_logChain (s : State) (u g : Nat) (G : Group) : (s.setGrp u g G).logChain = s.logChain := rfl
@[simp] theorem State.setGrp_ports (s : State) (u g : Nat) (G : Group) : (s.setGrp u g G).ports = s.ports := rfl
@[simp] theorem State.setGrp_queues (s : State) (u g : Nat) (G : Group) : (s.setGrp u g G).queues = s.queues := rfl
@[simp] theorem State.setGrp_held (s : State) (u g : Nat) (G : Group) : (s.setGrp u g G).held = s.held := rfl
@[simp] theorem State.setGrp_acts (s : State) (u g : Nat) (G : Group) : (s.setGrp u g G).acts = s.acts := rfl
@[simp] theorem State.setGrp_vesper (s : State) (u g : Nat) (G : Group) : (s.setGrp u g G).vesper = s.vesper := rfl
@[simp] theorem State.setGrp_island (s : State) (u g : Nat) (G : Group) : (s.setGrp u g G).island = s.island := rfl
@[simp] theorem State.setGrp_hosts (s : State) (u g : Nat) (G : Group) : (s.setGrp u g G).hosts = s.hosts := rfl
@[simp] theorem State.setGrp_replies (s : State) (u g : Nat) (G : Group) : (s.setGrp u g G).replies = s.replies := rfl
@[simp] theorem State.setGrp_quads (s : State) (u g : Nat) (G : Group) : (s.setGrp u g G).quads = s.quads := rfl
@[simp] theorem State.setGrp_placeLog (s : State) (u g : Nat) (G : Group) : (s.setGrp u g G).placeLog = s.placeLog := rfl
@[simp] theorem State.setGrp_hretain (s : State) (u g : Nat) (G : Group) : (s.setGrp u g G).hretain = s.hretain := rfl
@[simp] theorem State.setGrp_seriesk (s : State) (u g : Nat) (G : Group) : (s.setGrp u g G).seriesk = s.seriesk := rfl
@[simp] theorem State.setGrp_retrain (s : State) (u g : Nat) (G : Group) : (s.setGrp u g G).retrain = s.retrain := rfl
@[simp] theorem State.setGrp_stopat (s : State) (u g : Nat) (G : Group) : (s.setGrp u g G).stopat = s.stopat := rfl
@[simp] theorem State.setGrp_serBase (s : State) (u g : Nat) (G : Group) : (s.setGrp u g G).serBase = s.serBase := rfl
@[simp] theorem State.setGrp_serSize (s : State) (u g : Nat) (G : Group) : (s.setGrp u g G).serSize = s.serSize := rfl
@[simp] theorem State.setGrp_serSeq (s : State) (u g : Nat) (G : Group) : (s.setGrp u g G).serSeq = s.serSeq := rfl
@[simp] theorem State.setGrp_serLast (s : State) (u g : Nat) (G : Group) : (s.setGrp u g G).serLast = s.serLast := rfl
@[simp] theorem State.setGrp_stopped (s : State) (u g : Nat) (G : Group) : (s.setGrp u g G).stopped = s.stopped := rfl
@[simp] theorem State.setGrp_stopTick (s : State) (u g : Nat) (G : Group) : (s.setGrp u g G).stopTick = s.stopTick := rfl
@[simp] theorem State.setGrp_stopSet (s : State) (u g : Nat) (G : Group) : (s.setGrp u g G).stopSet = s.stopSet := rfl
@[simp] theorem State.setGrp_resumeTick (s : State) (u g : Nat) (G : Group) : (s.setGrp u g G).resumeTick = s.resumeTick := rfl
@[simp] theorem State.setGrp_at_core (s : State) (u g : Nat) (G : Group) (n : Nat) : (s.setGrp u g G).core n = s.core n := rfl
@[simp] theorem State.setGrp_at_ctx (s : State) (u g : Nat) (G : Group) (n : Nat) : (s.setGrp u g G).ctx n = s.ctx n := rfl
@[simp] theorem State.setGrp_at_kernel (s : State) (u g : Nat) (G : Group) (n : Nat) : (s.setGrp u g G).kernel n = s.kernel n := rfl
@[simp] theorem State.setGrp_at_team (s : State) (u g : Nat) (G : Group) (n : Nat) : (s.setGrp u g G).team n = s.team n := rfl
@[simp] theorem State.setGrp_at_slice (s : State) (u g : Nat) (G : Group) (n : Nat) : (s.setGrp u g G).slice n = s.slice n := rfl
@[simp] theorem State.setGrp_at_ring (s : State) (u g : Nat) (G : Group) (n : Nat) : (s.setGrp u g G).ring n = s.ring n := rfl
@[simp] theorem State.setGrp_at_queue (s : State) (u g : Nat) (G : Group) (n : Nat) : (s.setGrp u g G).queue n = s.queue n := rfl
@[simp] theorem State.setGrp_at_quad (s : State) (u g : Nat) (G : Group) (n : Nat) : (s.setGrp u g G).quad n = s.quad n := rfl
@[simp] theorem State.setGrp_at_port (s : State) (u g : Nat) (G : Group) (n : Nat) : (s.setGrp u g G).port n = s.port n := rfl
@[simp] theorem State.setGrp_at_host (s : State) (u g : Nat) (G : Group) (n : Nat) : (s.setGrp u g G).host n = s.host n := rfl
@[simp] theorem State.setGrp_peerPins (s : State) (u g : Nat) (G : Group) : (s.setGrp u g G).peerPins = s.peerPins := rfl
@[simp] theorem State.setGrp_duskNew (s : State) (u g : Nat) (G : Group) : (s.setGrp u g G).duskNew = s.duskNew := rfl
@[simp] theorem State.setGrp_rx (s : State) (u g : Nat) (G : Group) : (s.setGrp u g G).rx = s.rx := rfl
@[simp] theorem State.setGrp_wire (s : State) (u g : Nat) (G : Group) : (s.setGrp u g G).wire = s.wire := rfl
@[simp] theorem State.setGrp_devSent (s : State) (u g : Nat) (G : Group) : (s.setGrp u g G).devSent = s.devSent := rfl

/-! ## setCore -/

@[simp] theorem State.setCore_tick (s : State) (k : Nat) (c : CoreSt) : (s.setCore k c).tick = s.tick := rfl
@[simp] theorem State.setCore_stampBase (s : State) (k : Nat) (c : CoreSt) : (s.setCore k c).stampBase = s.stampBase := rfl
@[simp] theorem State.setCore_cycles (s : State) (k : Nat) (c : CoreSt) : (s.setCore k c).cycles = s.cycles := rfl
@[simp] theorem State.setCore_clockK (s : State) (k : Nat) (c : CoreSt) : (s.setCore k c).clockK = s.clockK := rfl
@[simp] theorem State.setCore_device (s : State) (k : Nat) (c : CoreSt) : (s.setCore k c).device = s.device := rfl
@[simp] theorem State.setCore_agenda (s : State) (k : Nat) (c : CoreSt) : (s.setCore k c).agenda = s.agenda := rfl
@[simp] theorem State.setCore_auto (s : State) (k : Nat) (c : CoreSt) : (s.setCore k c).auto = s.auto := rfl
@[simp] theorem State.setCore_fresh (s : State) (k : Nat) (c : CoreSt) : (s.setCore k c).fresh = s.fresh := rfl
@[simp] theorem State.setCore_cur (s : State) (k : Nat) (c : CoreSt) : (s.setCore k c).cur = s.cur := rfl
@[simp] theorem State.setCore_mem (s : State) (k : Nat) (c : CoreSt) : (s.setCore k c).mem = s.mem := rfl
@[simp] theorem State.setCore_lines (s : State) (k : Nat) (c : CoreSt) : (s.setCore k c).lines = s.lines := rfl
@[simp] theorem State.setCore_pageGen (s : State) (k : Nat) (c : CoreSt) : (s.setCore k c).pageGen = s.pageGen := rfl
@[simp] theorem State.setCore_poison (s : State) (k : Nat) (c : CoreSt) : (s.setCore k c).poison = s.poison := rfl
@[simp] theorem State.setCore_slices (s : State) (k : Nat) (c : CoreSt) : (s.setCore k c).slices = s.slices := rfl
@[simp] theorem State.setCore_rings (s : State) (k : Nat) (c : CoreSt) : (s.setCore k c).rings = s.rings := rfl
@[simp] theorem State.setCore_heads (s : State) (k : Nat) (c : CoreSt) : (s.setCore k c).heads = s.heads := rfl
@[simp] theorem State.setCore_lastWrite (s : State) (k : Nat) (c : CoreSt) : (s.setCore k c).lastWrite = s.lastWrite := rfl
@[simp] theorem State.setCore_maps (s : State) (k : Nat) (c : CoreSt) : (s.setCore k c).maps = s.maps := rfl
@[simp] theorem State.setCore_hres (s : State) (k : Nat) (c : CoreSt) : (s.setCore k c).hres = s.hres := rfl
@[simp] theorem State.setCore_tlb (s : State) (k : Nat) (c : CoreSt) : (s.setCore k c).tlb = s.tlb := rfl
@[simp] theorem State.setCore_pend (s : State) (k : Nat) (c : CoreSt) : (s.setCore k c).pend = s.pend := rfl
@[simp] theorem State.setCore_counted (s : State) (k : Nat) (c : CoreSt) : (s.setCore k c).counted = s.counted := rfl
@[simp] theorem State.setCore_blocks (s : State) (k : Nat) (c : CoreSt) : (s.setCore k c).blocks = s.blocks := rfl
@[simp] theorem State.setCore_ctxs (s : State) (k : Nat) (c : CoreSt) : (s.setCore k c).ctxs = s.ctxs := rfl
@[simp] theorem State.setCore_kernels (s : State) (k : Nat) (c : CoreSt) : (s.setCore k c).kernels = s.kernels := rfl
@[simp] theorem State.setCore_teams (s : State) (k : Nat) (c : CoreSt) : (s.setCore k c).teams = s.teams := rfl
@[simp] theorem State.setCore_units (s : State) (k : Nat) (c : CoreSt) : (s.setCore k c).units = s.units := rfl
@[simp] theorem State.setCore_log (s : State) (k : Nat) (c : CoreSt) : (s.setCore k c).log = s.log := rfl
@[simp] theorem State.setCore_logNext (s : State) (k : Nat) (c : CoreSt) : (s.setCore k c).logNext = s.logNext := rfl
@[simp] theorem State.setCore_logNew (s : State) (k : Nat) (c : CoreSt) : (s.setCore k c).logNew = s.logNew := rfl
@[simp] theorem State.setCore_traced (s : State) (k : Nat) (c : CoreSt) : (s.setCore k c).traced = s.traced := rfl
@[simp] theorem State.setCore_members (s : State) (k : Nat) (c : CoreSt) : (s.setCore k c).members = s.members := rfl
@[simp] theorem State.setCore_peerDusk (s : State) (k : Nat) (c : CoreSt) : (s.setCore k c).peerDusk = s.peerDusk := rfl
@[simp] theorem State.setCore_retained (s : State) (k : Nat) (c : CoreSt) : (s.setCore k c).retained = s.retained := rfl
@[simp] theorem State.setCore_e2eOut (s : State) (k : Nat) (c : CoreSt) : (s.setCore k c).e2eOut = s.e2eOut := rfl
@[simp] theorem State.setCore_e2eIn (s : State) (k : Nat) (c : CoreSt) : (s.setCore k c).e2eIn = s.e2eIn := rfl
@[simp] theorem State.setCore_out (s : State) (k : Nat) (c : CoreSt) : (s.setCore k c).out = s.out := rfl
@[simp] theorem State.setCore_receipts (s : State) (k : Nat) (c : CoreSt) : (s.setCore k c).receipts = s.receipts := rfl
@[simp] theorem State.setCore_past (s : State) (k : Nat) (c : CoreSt) : (s.setCore k c).past = s.past := rfl
@[simp] theorem State.setCore_hostq (s : State) (k : Nat) (c : CoreSt) : (s.setCore k c).hostq = s.hostq := rfl
@[simp] theorem State.setCore_noted (s : State) (k : Nat) (c : CoreSt) : (s.setCore k c).noted = s.noted := rfl
@[simp] theorem State.setCore_tlbCmd (s : State) (k : Nat) (c : CoreSt) : (s.setCore k c).tlbCmd = s.tlbCmd := rfl
@[simp] theorem State.setCore_logged (s : State) (k : Nat) (c : CoreSt) : (s.setCore k c).logged = s.logged := rfl
@[simp] theorem State.setCore_logChain (s : State) (k : Nat) (c : CoreSt) : (s.setCore k c).logChain = s.logChain := rfl
@[simp] theorem State.setCore_ports (s : State) (k : Nat) (c : CoreSt) : (s.setCore k c).ports = s.ports := rfl
@[simp] theorem State.setCore_queues (s : State) (k : Nat) (c : CoreSt) : (s.setCore k c).queues = s.queues := rfl
@[simp] theorem State.setCore_held (s : State) (k : Nat) (c : CoreSt) : (s.setCore k c).held = s.held := rfl
@[simp] theorem State.setCore_acts (s : State) (k : Nat) (c : CoreSt) : (s.setCore k c).acts = s.acts := rfl
@[simp] theorem State.setCore_vesper (s : State) (k : Nat) (c : CoreSt) : (s.setCore k c).vesper = s.vesper := rfl
@[simp] theorem State.setCore_island (s : State) (k : Nat) (c : CoreSt) : (s.setCore k c).island = s.island := rfl
@[simp] theorem State.setCore_hosts (s : State) (k : Nat) (c : CoreSt) : (s.setCore k c).hosts = s.hosts := rfl
@[simp] theorem State.setCore_replies (s : State) (k : Nat) (c : CoreSt) : (s.setCore k c).replies = s.replies := rfl
@[simp] theorem State.setCore_quads (s : State) (k : Nat) (c : CoreSt) : (s.setCore k c).quads = s.quads := rfl
@[simp] theorem State.setCore_placeLog (s : State) (k : Nat) (c : CoreSt) : (s.setCore k c).placeLog = s.placeLog := rfl
@[simp] theorem State.setCore_hretain (s : State) (k : Nat) (c : CoreSt) : (s.setCore k c).hretain = s.hretain := rfl
@[simp] theorem State.setCore_seriesk (s : State) (k : Nat) (c : CoreSt) : (s.setCore k c).seriesk = s.seriesk := rfl
@[simp] theorem State.setCore_retrain (s : State) (k : Nat) (c : CoreSt) : (s.setCore k c).retrain = s.retrain := rfl
@[simp] theorem State.setCore_stopat (s : State) (k : Nat) (c : CoreSt) : (s.setCore k c).stopat = s.stopat := rfl
@[simp] theorem State.setCore_serBase (s : State) (k : Nat) (c : CoreSt) : (s.setCore k c).serBase = s.serBase := rfl
@[simp] theorem State.setCore_serSize (s : State) (k : Nat) (c : CoreSt) : (s.setCore k c).serSize = s.serSize := rfl
@[simp] theorem State.setCore_serSeq (s : State) (k : Nat) (c : CoreSt) : (s.setCore k c).serSeq = s.serSeq := rfl
@[simp] theorem State.setCore_serLast (s : State) (k : Nat) (c : CoreSt) : (s.setCore k c).serLast = s.serLast := rfl
@[simp] theorem State.setCore_stopped (s : State) (k : Nat) (c : CoreSt) : (s.setCore k c).stopped = s.stopped := rfl
@[simp] theorem State.setCore_stopTick (s : State) (k : Nat) (c : CoreSt) : (s.setCore k c).stopTick = s.stopTick := rfl
@[simp] theorem State.setCore_stopSet (s : State) (k : Nat) (c : CoreSt) : (s.setCore k c).stopSet = s.stopSet := rfl
@[simp] theorem State.setCore_resumeTick (s : State) (k : Nat) (c : CoreSt) : (s.setCore k c).resumeTick = s.resumeTick := rfl
@[simp] theorem State.setCore_at_blk (s : State) (k : Nat) (c : CoreSt) (n : Nat) : (s.setCore k c).blk n = s.blk n := rfl
@[simp] theorem State.setCore_at_grp (s : State) (k : Nat) (c : CoreSt) (n m : Nat) : (s.setCore k c).grp n m = s.grp n m := rfl
@[simp] theorem State.setCore_at_ctx (s : State) (k : Nat) (c : CoreSt) (n : Nat) : (s.setCore k c).ctx n = s.ctx n := rfl
@[simp] theorem State.setCore_at_kernel (s : State) (k : Nat) (c : CoreSt) (n : Nat) : (s.setCore k c).kernel n = s.kernel n := rfl
@[simp] theorem State.setCore_at_team (s : State) (k : Nat) (c : CoreSt) (n : Nat) : (s.setCore k c).team n = s.team n := rfl
@[simp] theorem State.setCore_at_slice (s : State) (k : Nat) (c : CoreSt) (n : Nat) : (s.setCore k c).slice n = s.slice n := rfl
@[simp] theorem State.setCore_at_ring (s : State) (k : Nat) (c : CoreSt) (n : Nat) : (s.setCore k c).ring n = s.ring n := rfl
@[simp] theorem State.setCore_at_queue (s : State) (k : Nat) (c : CoreSt) (n : Nat) : (s.setCore k c).queue n = s.queue n := rfl
@[simp] theorem State.setCore_at_quad (s : State) (k : Nat) (c : CoreSt) (n : Nat) : (s.setCore k c).quad n = s.quad n := rfl
@[simp] theorem State.setCore_at_port (s : State) (k : Nat) (c : CoreSt) (n : Nat) : (s.setCore k c).port n = s.port n := rfl
@[simp] theorem State.setCore_at_host (s : State) (k : Nat) (c : CoreSt) (n : Nat) : (s.setCore k c).host n = s.host n := rfl
@[simp] theorem State.setCore_peerPins (s : State) (k : Nat) (c : CoreSt) : (s.setCore k c).peerPins = s.peerPins := rfl
@[simp] theorem State.setCore_duskNew (s : State) (k : Nat) (c : CoreSt) : (s.setCore k c).duskNew = s.duskNew := rfl
@[simp] theorem State.setCore_rx (s : State) (k : Nat) (c : CoreSt) : (s.setCore k c).rx = s.rx := rfl
@[simp] theorem State.setCore_wire (s : State) (k : Nat) (c : CoreSt) : (s.setCore k c).wire = s.wire := rfl
@[simp] theorem State.setCore_devSent (s : State) (k : Nat) (c : CoreSt) : (s.setCore k c).devSent = s.devSent := rfl

/-! ## setCtx -/

@[simp] theorem State.setCtx_tick (s : State) (k : Nat) (c : Ctx) : (s.setCtx k c).tick = s.tick := rfl
@[simp] theorem State.setCtx_stampBase (s : State) (k : Nat) (c : Ctx) : (s.setCtx k c).stampBase = s.stampBase := rfl
@[simp] theorem State.setCtx_cycles (s : State) (k : Nat) (c : Ctx) : (s.setCtx k c).cycles = s.cycles := rfl
@[simp] theorem State.setCtx_clockK (s : State) (k : Nat) (c : Ctx) : (s.setCtx k c).clockK = s.clockK := rfl
@[simp] theorem State.setCtx_device (s : State) (k : Nat) (c : Ctx) : (s.setCtx k c).device = s.device := rfl
@[simp] theorem State.setCtx_agenda (s : State) (k : Nat) (c : Ctx) : (s.setCtx k c).agenda = s.agenda := rfl
@[simp] theorem State.setCtx_auto (s : State) (k : Nat) (c : Ctx) : (s.setCtx k c).auto = s.auto := rfl
@[simp] theorem State.setCtx_fresh (s : State) (k : Nat) (c : Ctx) : (s.setCtx k c).fresh = s.fresh := rfl
@[simp] theorem State.setCtx_cur (s : State) (k : Nat) (c : Ctx) : (s.setCtx k c).cur = s.cur := rfl
@[simp] theorem State.setCtx_mem (s : State) (k : Nat) (c : Ctx) : (s.setCtx k c).mem = s.mem := rfl
@[simp] theorem State.setCtx_lines (s : State) (k : Nat) (c : Ctx) : (s.setCtx k c).lines = s.lines := rfl
@[simp] theorem State.setCtx_pageGen (s : State) (k : Nat) (c : Ctx) : (s.setCtx k c).pageGen = s.pageGen := rfl
@[simp] theorem State.setCtx_poison (s : State) (k : Nat) (c : Ctx) : (s.setCtx k c).poison = s.poison := rfl
@[simp] theorem State.setCtx_slices (s : State) (k : Nat) (c : Ctx) : (s.setCtx k c).slices = s.slices := rfl
@[simp] theorem State.setCtx_rings (s : State) (k : Nat) (c : Ctx) : (s.setCtx k c).rings = s.rings := rfl
@[simp] theorem State.setCtx_heads (s : State) (k : Nat) (c : Ctx) : (s.setCtx k c).heads = s.heads := rfl
@[simp] theorem State.setCtx_lastWrite (s : State) (k : Nat) (c : Ctx) : (s.setCtx k c).lastWrite = s.lastWrite := rfl
@[simp] theorem State.setCtx_maps (s : State) (k : Nat) (c : Ctx) : (s.setCtx k c).maps = s.maps := rfl
@[simp] theorem State.setCtx_hres (s : State) (k : Nat) (c : Ctx) : (s.setCtx k c).hres = s.hres := rfl
@[simp] theorem State.setCtx_tlb (s : State) (k : Nat) (c : Ctx) : (s.setCtx k c).tlb = s.tlb := rfl
@[simp] theorem State.setCtx_pend (s : State) (k : Nat) (c : Ctx) : (s.setCtx k c).pend = s.pend := rfl
@[simp] theorem State.setCtx_counted (s : State) (k : Nat) (c : Ctx) : (s.setCtx k c).counted = s.counted := rfl
@[simp] theorem State.setCtx_blocks (s : State) (k : Nat) (c : Ctx) : (s.setCtx k c).blocks = s.blocks := rfl
@[simp] theorem State.setCtx_cores (s : State) (k : Nat) (c : Ctx) : (s.setCtx k c).cores = s.cores := rfl
@[simp] theorem State.setCtx_kernels (s : State) (k : Nat) (c : Ctx) : (s.setCtx k c).kernels = s.kernels := rfl
@[simp] theorem State.setCtx_teams (s : State) (k : Nat) (c : Ctx) : (s.setCtx k c).teams = s.teams := rfl
@[simp] theorem State.setCtx_units (s : State) (k : Nat) (c : Ctx) : (s.setCtx k c).units = s.units := rfl
@[simp] theorem State.setCtx_log (s : State) (k : Nat) (c : Ctx) : (s.setCtx k c).log = s.log := rfl
@[simp] theorem State.setCtx_logNext (s : State) (k : Nat) (c : Ctx) : (s.setCtx k c).logNext = s.logNext := rfl
@[simp] theorem State.setCtx_logNew (s : State) (k : Nat) (c : Ctx) : (s.setCtx k c).logNew = s.logNew := rfl
@[simp] theorem State.setCtx_traced (s : State) (k : Nat) (c : Ctx) : (s.setCtx k c).traced = s.traced := rfl
@[simp] theorem State.setCtx_members (s : State) (k : Nat) (c : Ctx) : (s.setCtx k c).members = s.members := rfl
@[simp] theorem State.setCtx_peerDusk (s : State) (k : Nat) (c : Ctx) : (s.setCtx k c).peerDusk = s.peerDusk := rfl
@[simp] theorem State.setCtx_retained (s : State) (k : Nat) (c : Ctx) : (s.setCtx k c).retained = s.retained := rfl
@[simp] theorem State.setCtx_e2eOut (s : State) (k : Nat) (c : Ctx) : (s.setCtx k c).e2eOut = s.e2eOut := rfl
@[simp] theorem State.setCtx_e2eIn (s : State) (k : Nat) (c : Ctx) : (s.setCtx k c).e2eIn = s.e2eIn := rfl
@[simp] theorem State.setCtx_out (s : State) (k : Nat) (c : Ctx) : (s.setCtx k c).out = s.out := rfl
@[simp] theorem State.setCtx_receipts (s : State) (k : Nat) (c : Ctx) : (s.setCtx k c).receipts = s.receipts := rfl
@[simp] theorem State.setCtx_past (s : State) (k : Nat) (c : Ctx) : (s.setCtx k c).past = s.past := rfl
@[simp] theorem State.setCtx_hostq (s : State) (k : Nat) (c : Ctx) : (s.setCtx k c).hostq = s.hostq := rfl
@[simp] theorem State.setCtx_noted (s : State) (k : Nat) (c : Ctx) : (s.setCtx k c).noted = s.noted := rfl
@[simp] theorem State.setCtx_tlbCmd (s : State) (k : Nat) (c : Ctx) : (s.setCtx k c).tlbCmd = s.tlbCmd := rfl
@[simp] theorem State.setCtx_logged (s : State) (k : Nat) (c : Ctx) : (s.setCtx k c).logged = s.logged := rfl
@[simp] theorem State.setCtx_logChain (s : State) (k : Nat) (c : Ctx) : (s.setCtx k c).logChain = s.logChain := rfl
@[simp] theorem State.setCtx_ports (s : State) (k : Nat) (c : Ctx) : (s.setCtx k c).ports = s.ports := rfl
@[simp] theorem State.setCtx_queues (s : State) (k : Nat) (c : Ctx) : (s.setCtx k c).queues = s.queues := rfl
@[simp] theorem State.setCtx_held (s : State) (k : Nat) (c : Ctx) : (s.setCtx k c).held = s.held := rfl
@[simp] theorem State.setCtx_acts (s : State) (k : Nat) (c : Ctx) : (s.setCtx k c).acts = s.acts := rfl
@[simp] theorem State.setCtx_vesper (s : State) (k : Nat) (c : Ctx) : (s.setCtx k c).vesper = s.vesper := rfl
@[simp] theorem State.setCtx_island (s : State) (k : Nat) (c : Ctx) : (s.setCtx k c).island = s.island := rfl
@[simp] theorem State.setCtx_hosts (s : State) (k : Nat) (c : Ctx) : (s.setCtx k c).hosts = s.hosts := rfl
@[simp] theorem State.setCtx_replies (s : State) (k : Nat) (c : Ctx) : (s.setCtx k c).replies = s.replies := rfl
@[simp] theorem State.setCtx_quads (s : State) (k : Nat) (c : Ctx) : (s.setCtx k c).quads = s.quads := rfl
@[simp] theorem State.setCtx_placeLog (s : State) (k : Nat) (c : Ctx) : (s.setCtx k c).placeLog = s.placeLog := rfl
@[simp] theorem State.setCtx_hretain (s : State) (k : Nat) (c : Ctx) : (s.setCtx k c).hretain = s.hretain := rfl
@[simp] theorem State.setCtx_seriesk (s : State) (k : Nat) (c : Ctx) : (s.setCtx k c).seriesk = s.seriesk := rfl
@[simp] theorem State.setCtx_retrain (s : State) (k : Nat) (c : Ctx) : (s.setCtx k c).retrain = s.retrain := rfl
@[simp] theorem State.setCtx_stopat (s : State) (k : Nat) (c : Ctx) : (s.setCtx k c).stopat = s.stopat := rfl
@[simp] theorem State.setCtx_serBase (s : State) (k : Nat) (c : Ctx) : (s.setCtx k c).serBase = s.serBase := rfl
@[simp] theorem State.setCtx_serSize (s : State) (k : Nat) (c : Ctx) : (s.setCtx k c).serSize = s.serSize := rfl
@[simp] theorem State.setCtx_serSeq (s : State) (k : Nat) (c : Ctx) : (s.setCtx k c).serSeq = s.serSeq := rfl
@[simp] theorem State.setCtx_serLast (s : State) (k : Nat) (c : Ctx) : (s.setCtx k c).serLast = s.serLast := rfl
@[simp] theorem State.setCtx_stopped (s : State) (k : Nat) (c : Ctx) : (s.setCtx k c).stopped = s.stopped := rfl
@[simp] theorem State.setCtx_stopTick (s : State) (k : Nat) (c : Ctx) : (s.setCtx k c).stopTick = s.stopTick := rfl
@[simp] theorem State.setCtx_stopSet (s : State) (k : Nat) (c : Ctx) : (s.setCtx k c).stopSet = s.stopSet := rfl
@[simp] theorem State.setCtx_resumeTick (s : State) (k : Nat) (c : Ctx) : (s.setCtx k c).resumeTick = s.resumeTick := rfl
@[simp] theorem State.setCtx_at_blk (s : State) (k : Nat) (c : Ctx) (n : Nat) : (s.setCtx k c).blk n = s.blk n := rfl
@[simp] theorem State.setCtx_at_grp (s : State) (k : Nat) (c : Ctx) (n m : Nat) : (s.setCtx k c).grp n m = s.grp n m := rfl
@[simp] theorem State.setCtx_at_core (s : State) (k : Nat) (c : Ctx) (n : Nat) : (s.setCtx k c).core n = s.core n := rfl
@[simp] theorem State.setCtx_at_kernel (s : State) (k : Nat) (c : Ctx) (n : Nat) : (s.setCtx k c).kernel n = s.kernel n := rfl
@[simp] theorem State.setCtx_at_team (s : State) (k : Nat) (c : Ctx) (n : Nat) : (s.setCtx k c).team n = s.team n := rfl
@[simp] theorem State.setCtx_at_slice (s : State) (k : Nat) (c : Ctx) (n : Nat) : (s.setCtx k c).slice n = s.slice n := rfl
@[simp] theorem State.setCtx_at_ring (s : State) (k : Nat) (c : Ctx) (n : Nat) : (s.setCtx k c).ring n = s.ring n := rfl
@[simp] theorem State.setCtx_at_queue (s : State) (k : Nat) (c : Ctx) (n : Nat) : (s.setCtx k c).queue n = s.queue n := rfl
@[simp] theorem State.setCtx_at_quad (s : State) (k : Nat) (c : Ctx) (n : Nat) : (s.setCtx k c).quad n = s.quad n := rfl
@[simp] theorem State.setCtx_at_port (s : State) (k : Nat) (c : Ctx) (n : Nat) : (s.setCtx k c).port n = s.port n := rfl
@[simp] theorem State.setCtx_at_host (s : State) (k : Nat) (c : Ctx) (n : Nat) : (s.setCtx k c).host n = s.host n := rfl
@[simp] theorem State.setCtx_peerPins (s : State) (k : Nat) (c : Ctx) : (s.setCtx k c).peerPins = s.peerPins := rfl
@[simp] theorem State.setCtx_duskNew (s : State) (k : Nat) (c : Ctx) : (s.setCtx k c).duskNew = s.duskNew := rfl
@[simp] theorem State.setCtx_rx (s : State) (k : Nat) (c : Ctx) : (s.setCtx k c).rx = s.rx := rfl
@[simp] theorem State.setCtx_wire (s : State) (k : Nat) (c : Ctx) : (s.setCtx k c).wire = s.wire := rfl
@[simp] theorem State.setCtx_devSent (s : State) (k : Nat) (c : Ctx) : (s.setCtx k c).devSent = s.devSent := rfl

/-! ## setKernel -/

@[simp] theorem State.setKernel_tick (s : State) (k : Nat) (x : Kernel) : (s.setKernel k x).tick = s.tick := rfl
@[simp] theorem State.setKernel_stampBase (s : State) (k : Nat) (x : Kernel) : (s.setKernel k x).stampBase = s.stampBase := rfl
@[simp] theorem State.setKernel_cycles (s : State) (k : Nat) (x : Kernel) : (s.setKernel k x).cycles = s.cycles := rfl
@[simp] theorem State.setKernel_clockK (s : State) (k : Nat) (x : Kernel) : (s.setKernel k x).clockK = s.clockK := rfl
@[simp] theorem State.setKernel_device (s : State) (k : Nat) (x : Kernel) : (s.setKernel k x).device = s.device := rfl
@[simp] theorem State.setKernel_agenda (s : State) (k : Nat) (x : Kernel) : (s.setKernel k x).agenda = s.agenda := rfl
@[simp] theorem State.setKernel_auto (s : State) (k : Nat) (x : Kernel) : (s.setKernel k x).auto = s.auto := rfl
@[simp] theorem State.setKernel_fresh (s : State) (k : Nat) (x : Kernel) : (s.setKernel k x).fresh = s.fresh := rfl
@[simp] theorem State.setKernel_cur (s : State) (k : Nat) (x : Kernel) : (s.setKernel k x).cur = s.cur := rfl
@[simp] theorem State.setKernel_mem (s : State) (k : Nat) (x : Kernel) : (s.setKernel k x).mem = s.mem := rfl
@[simp] theorem State.setKernel_lines (s : State) (k : Nat) (x : Kernel) : (s.setKernel k x).lines = s.lines := rfl
@[simp] theorem State.setKernel_pageGen (s : State) (k : Nat) (x : Kernel) : (s.setKernel k x).pageGen = s.pageGen := rfl
@[simp] theorem State.setKernel_poison (s : State) (k : Nat) (x : Kernel) : (s.setKernel k x).poison = s.poison := rfl
@[simp] theorem State.setKernel_slices (s : State) (k : Nat) (x : Kernel) : (s.setKernel k x).slices = s.slices := rfl
@[simp] theorem State.setKernel_rings (s : State) (k : Nat) (x : Kernel) : (s.setKernel k x).rings = s.rings := rfl
@[simp] theorem State.setKernel_heads (s : State) (k : Nat) (x : Kernel) : (s.setKernel k x).heads = s.heads := rfl
@[simp] theorem State.setKernel_lastWrite (s : State) (k : Nat) (x : Kernel) : (s.setKernel k x).lastWrite = s.lastWrite := rfl
@[simp] theorem State.setKernel_maps (s : State) (k : Nat) (x : Kernel) : (s.setKernel k x).maps = s.maps := rfl
@[simp] theorem State.setKernel_hres (s : State) (k : Nat) (x : Kernel) : (s.setKernel k x).hres = s.hres := rfl
@[simp] theorem State.setKernel_tlb (s : State) (k : Nat) (x : Kernel) : (s.setKernel k x).tlb = s.tlb := rfl
@[simp] theorem State.setKernel_pend (s : State) (k : Nat) (x : Kernel) : (s.setKernel k x).pend = s.pend := rfl
@[simp] theorem State.setKernel_counted (s : State) (k : Nat) (x : Kernel) : (s.setKernel k x).counted = s.counted := rfl
@[simp] theorem State.setKernel_blocks (s : State) (k : Nat) (x : Kernel) : (s.setKernel k x).blocks = s.blocks := rfl
@[simp] theorem State.setKernel_cores (s : State) (k : Nat) (x : Kernel) : (s.setKernel k x).cores = s.cores := rfl
@[simp] theorem State.setKernel_ctxs (s : State) (k : Nat) (x : Kernel) : (s.setKernel k x).ctxs = s.ctxs := rfl
@[simp] theorem State.setKernel_teams (s : State) (k : Nat) (x : Kernel) : (s.setKernel k x).teams = s.teams := rfl
@[simp] theorem State.setKernel_units (s : State) (k : Nat) (x : Kernel) : (s.setKernel k x).units = s.units := rfl
@[simp] theorem State.setKernel_log (s : State) (k : Nat) (x : Kernel) : (s.setKernel k x).log = s.log := rfl
@[simp] theorem State.setKernel_logNext (s : State) (k : Nat) (x : Kernel) : (s.setKernel k x).logNext = s.logNext := rfl
@[simp] theorem State.setKernel_logNew (s : State) (k : Nat) (x : Kernel) : (s.setKernel k x).logNew = s.logNew := rfl
@[simp] theorem State.setKernel_traced (s : State) (k : Nat) (x : Kernel) : (s.setKernel k x).traced = s.traced := rfl
@[simp] theorem State.setKernel_members (s : State) (k : Nat) (x : Kernel) : (s.setKernel k x).members = s.members := rfl
@[simp] theorem State.setKernel_peerDusk (s : State) (k : Nat) (x : Kernel) : (s.setKernel k x).peerDusk = s.peerDusk := rfl
@[simp] theorem State.setKernel_retained (s : State) (k : Nat) (x : Kernel) : (s.setKernel k x).retained = s.retained := rfl
@[simp] theorem State.setKernel_e2eOut (s : State) (k : Nat) (x : Kernel) : (s.setKernel k x).e2eOut = s.e2eOut := rfl
@[simp] theorem State.setKernel_e2eIn (s : State) (k : Nat) (x : Kernel) : (s.setKernel k x).e2eIn = s.e2eIn := rfl
@[simp] theorem State.setKernel_out (s : State) (k : Nat) (x : Kernel) : (s.setKernel k x).out = s.out := rfl
@[simp] theorem State.setKernel_receipts (s : State) (k : Nat) (x : Kernel) : (s.setKernel k x).receipts = s.receipts := rfl
@[simp] theorem State.setKernel_past (s : State) (k : Nat) (x : Kernel) : (s.setKernel k x).past = s.past := rfl
@[simp] theorem State.setKernel_hostq (s : State) (k : Nat) (x : Kernel) : (s.setKernel k x).hostq = s.hostq := rfl
@[simp] theorem State.setKernel_noted (s : State) (k : Nat) (x : Kernel) : (s.setKernel k x).noted = s.noted := rfl
@[simp] theorem State.setKernel_tlbCmd (s : State) (k : Nat) (x : Kernel) : (s.setKernel k x).tlbCmd = s.tlbCmd := rfl
@[simp] theorem State.setKernel_logged (s : State) (k : Nat) (x : Kernel) : (s.setKernel k x).logged = s.logged := rfl
@[simp] theorem State.setKernel_logChain (s : State) (k : Nat) (x : Kernel) : (s.setKernel k x).logChain = s.logChain := rfl
@[simp] theorem State.setKernel_ports (s : State) (k : Nat) (x : Kernel) : (s.setKernel k x).ports = s.ports := rfl
@[simp] theorem State.setKernel_queues (s : State) (k : Nat) (x : Kernel) : (s.setKernel k x).queues = s.queues := rfl
@[simp] theorem State.setKernel_held (s : State) (k : Nat) (x : Kernel) : (s.setKernel k x).held = s.held := rfl
@[simp] theorem State.setKernel_acts (s : State) (k : Nat) (x : Kernel) : (s.setKernel k x).acts = s.acts := rfl
@[simp] theorem State.setKernel_vesper (s : State) (k : Nat) (x : Kernel) : (s.setKernel k x).vesper = s.vesper := rfl
@[simp] theorem State.setKernel_island (s : State) (k : Nat) (x : Kernel) : (s.setKernel k x).island = s.island := rfl
@[simp] theorem State.setKernel_hosts (s : State) (k : Nat) (x : Kernel) : (s.setKernel k x).hosts = s.hosts := rfl
@[simp] theorem State.setKernel_replies (s : State) (k : Nat) (x : Kernel) : (s.setKernel k x).replies = s.replies := rfl
@[simp] theorem State.setKernel_quads (s : State) (k : Nat) (x : Kernel) : (s.setKernel k x).quads = s.quads := rfl
@[simp] theorem State.setKernel_placeLog (s : State) (k : Nat) (x : Kernel) : (s.setKernel k x).placeLog = s.placeLog := rfl
@[simp] theorem State.setKernel_hretain (s : State) (k : Nat) (x : Kernel) : (s.setKernel k x).hretain = s.hretain := rfl
@[simp] theorem State.setKernel_seriesk (s : State) (k : Nat) (x : Kernel) : (s.setKernel k x).seriesk = s.seriesk := rfl
@[simp] theorem State.setKernel_retrain (s : State) (k : Nat) (x : Kernel) : (s.setKernel k x).retrain = s.retrain := rfl
@[simp] theorem State.setKernel_stopat (s : State) (k : Nat) (x : Kernel) : (s.setKernel k x).stopat = s.stopat := rfl
@[simp] theorem State.setKernel_serBase (s : State) (k : Nat) (x : Kernel) : (s.setKernel k x).serBase = s.serBase := rfl
@[simp] theorem State.setKernel_serSize (s : State) (k : Nat) (x : Kernel) : (s.setKernel k x).serSize = s.serSize := rfl
@[simp] theorem State.setKernel_serSeq (s : State) (k : Nat) (x : Kernel) : (s.setKernel k x).serSeq = s.serSeq := rfl
@[simp] theorem State.setKernel_serLast (s : State) (k : Nat) (x : Kernel) : (s.setKernel k x).serLast = s.serLast := rfl
@[simp] theorem State.setKernel_stopped (s : State) (k : Nat) (x : Kernel) : (s.setKernel k x).stopped = s.stopped := rfl
@[simp] theorem State.setKernel_stopTick (s : State) (k : Nat) (x : Kernel) : (s.setKernel k x).stopTick = s.stopTick := rfl
@[simp] theorem State.setKernel_stopSet (s : State) (k : Nat) (x : Kernel) : (s.setKernel k x).stopSet = s.stopSet := rfl
@[simp] theorem State.setKernel_resumeTick (s : State) (k : Nat) (x : Kernel) : (s.setKernel k x).resumeTick = s.resumeTick := rfl
@[simp] theorem State.setKernel_at_blk (s : State) (k : Nat) (x : Kernel) (n : Nat) : (s.setKernel k x).blk n = s.blk n := rfl
@[simp] theorem State.setKernel_at_grp (s : State) (k : Nat) (x : Kernel) (n m : Nat) : (s.setKernel k x).grp n m = s.grp n m := rfl
@[simp] theorem State.setKernel_at_core (s : State) (k : Nat) (x : Kernel) (n : Nat) : (s.setKernel k x).core n = s.core n := rfl
@[simp] theorem State.setKernel_at_ctx (s : State) (k : Nat) (x : Kernel) (n : Nat) : (s.setKernel k x).ctx n = s.ctx n := rfl
@[simp] theorem State.setKernel_at_team (s : State) (k : Nat) (x : Kernel) (n : Nat) : (s.setKernel k x).team n = s.team n := rfl
@[simp] theorem State.setKernel_at_slice (s : State) (k : Nat) (x : Kernel) (n : Nat) : (s.setKernel k x).slice n = s.slice n := rfl
@[simp] theorem State.setKernel_at_ring (s : State) (k : Nat) (x : Kernel) (n : Nat) : (s.setKernel k x).ring n = s.ring n := rfl
@[simp] theorem State.setKernel_at_queue (s : State) (k : Nat) (x : Kernel) (n : Nat) : (s.setKernel k x).queue n = s.queue n := rfl
@[simp] theorem State.setKernel_at_quad (s : State) (k : Nat) (x : Kernel) (n : Nat) : (s.setKernel k x).quad n = s.quad n := rfl
@[simp] theorem State.setKernel_at_port (s : State) (k : Nat) (x : Kernel) (n : Nat) : (s.setKernel k x).port n = s.port n := rfl
@[simp] theorem State.setKernel_at_host (s : State) (k : Nat) (x : Kernel) (n : Nat) : (s.setKernel k x).host n = s.host n := rfl
@[simp] theorem State.setKernel_peerPins (s : State) (k : Nat) (x : Kernel) : (s.setKernel k x).peerPins = s.peerPins := rfl
@[simp] theorem State.setKernel_duskNew (s : State) (k : Nat) (x : Kernel) : (s.setKernel k x).duskNew = s.duskNew := rfl
@[simp] theorem State.setKernel_rx (s : State) (k : Nat) (x : Kernel) : (s.setKernel k x).rx = s.rx := rfl
@[simp] theorem State.setKernel_wire (s : State) (k : Nat) (x : Kernel) : (s.setKernel k x).wire = s.wire := rfl
@[simp] theorem State.setKernel_devSent (s : State) (k : Nat) (x : Kernel) : (s.setKernel k x).devSent = s.devSent := rfl

/-! ## setTeam -/

@[simp] theorem State.setTeam_tick (s : State) (k : Nat) (x : Team) : (s.setTeam k x).tick = s.tick := rfl
@[simp] theorem State.setTeam_stampBase (s : State) (k : Nat) (x : Team) : (s.setTeam k x).stampBase = s.stampBase := rfl
@[simp] theorem State.setTeam_cycles (s : State) (k : Nat) (x : Team) : (s.setTeam k x).cycles = s.cycles := rfl
@[simp] theorem State.setTeam_clockK (s : State) (k : Nat) (x : Team) : (s.setTeam k x).clockK = s.clockK := rfl
@[simp] theorem State.setTeam_device (s : State) (k : Nat) (x : Team) : (s.setTeam k x).device = s.device := rfl
@[simp] theorem State.setTeam_agenda (s : State) (k : Nat) (x : Team) : (s.setTeam k x).agenda = s.agenda := rfl
@[simp] theorem State.setTeam_auto (s : State) (k : Nat) (x : Team) : (s.setTeam k x).auto = s.auto := rfl
@[simp] theorem State.setTeam_fresh (s : State) (k : Nat) (x : Team) : (s.setTeam k x).fresh = s.fresh := rfl
@[simp] theorem State.setTeam_cur (s : State) (k : Nat) (x : Team) : (s.setTeam k x).cur = s.cur := rfl
@[simp] theorem State.setTeam_mem (s : State) (k : Nat) (x : Team) : (s.setTeam k x).mem = s.mem := rfl
@[simp] theorem State.setTeam_lines (s : State) (k : Nat) (x : Team) : (s.setTeam k x).lines = s.lines := rfl
@[simp] theorem State.setTeam_pageGen (s : State) (k : Nat) (x : Team) : (s.setTeam k x).pageGen = s.pageGen := rfl
@[simp] theorem State.setTeam_poison (s : State) (k : Nat) (x : Team) : (s.setTeam k x).poison = s.poison := rfl
@[simp] theorem State.setTeam_slices (s : State) (k : Nat) (x : Team) : (s.setTeam k x).slices = s.slices := rfl
@[simp] theorem State.setTeam_rings (s : State) (k : Nat) (x : Team) : (s.setTeam k x).rings = s.rings := rfl
@[simp] theorem State.setTeam_heads (s : State) (k : Nat) (x : Team) : (s.setTeam k x).heads = s.heads := rfl
@[simp] theorem State.setTeam_lastWrite (s : State) (k : Nat) (x : Team) : (s.setTeam k x).lastWrite = s.lastWrite := rfl
@[simp] theorem State.setTeam_maps (s : State) (k : Nat) (x : Team) : (s.setTeam k x).maps = s.maps := rfl
@[simp] theorem State.setTeam_hres (s : State) (k : Nat) (x : Team) : (s.setTeam k x).hres = s.hres := rfl
@[simp] theorem State.setTeam_tlb (s : State) (k : Nat) (x : Team) : (s.setTeam k x).tlb = s.tlb := rfl
@[simp] theorem State.setTeam_pend (s : State) (k : Nat) (x : Team) : (s.setTeam k x).pend = s.pend := rfl
@[simp] theorem State.setTeam_counted (s : State) (k : Nat) (x : Team) : (s.setTeam k x).counted = s.counted := rfl
@[simp] theorem State.setTeam_blocks (s : State) (k : Nat) (x : Team) : (s.setTeam k x).blocks = s.blocks := rfl
@[simp] theorem State.setTeam_cores (s : State) (k : Nat) (x : Team) : (s.setTeam k x).cores = s.cores := rfl
@[simp] theorem State.setTeam_ctxs (s : State) (k : Nat) (x : Team) : (s.setTeam k x).ctxs = s.ctxs := rfl
@[simp] theorem State.setTeam_kernels (s : State) (k : Nat) (x : Team) : (s.setTeam k x).kernels = s.kernels := rfl
@[simp] theorem State.setTeam_units (s : State) (k : Nat) (x : Team) : (s.setTeam k x).units = s.units := rfl
@[simp] theorem State.setTeam_log (s : State) (k : Nat) (x : Team) : (s.setTeam k x).log = s.log := rfl
@[simp] theorem State.setTeam_logNext (s : State) (k : Nat) (x : Team) : (s.setTeam k x).logNext = s.logNext := rfl
@[simp] theorem State.setTeam_logNew (s : State) (k : Nat) (x : Team) : (s.setTeam k x).logNew = s.logNew := rfl
@[simp] theorem State.setTeam_traced (s : State) (k : Nat) (x : Team) : (s.setTeam k x).traced = s.traced := rfl
@[simp] theorem State.setTeam_members (s : State) (k : Nat) (x : Team) : (s.setTeam k x).members = s.members := rfl
@[simp] theorem State.setTeam_peerDusk (s : State) (k : Nat) (x : Team) : (s.setTeam k x).peerDusk = s.peerDusk := rfl
@[simp] theorem State.setTeam_retained (s : State) (k : Nat) (x : Team) : (s.setTeam k x).retained = s.retained := rfl
@[simp] theorem State.setTeam_e2eOut (s : State) (k : Nat) (x : Team) : (s.setTeam k x).e2eOut = s.e2eOut := rfl
@[simp] theorem State.setTeam_e2eIn (s : State) (k : Nat) (x : Team) : (s.setTeam k x).e2eIn = s.e2eIn := rfl
@[simp] theorem State.setTeam_out (s : State) (k : Nat) (x : Team) : (s.setTeam k x).out = s.out := rfl
@[simp] theorem State.setTeam_receipts (s : State) (k : Nat) (x : Team) : (s.setTeam k x).receipts = s.receipts := rfl
@[simp] theorem State.setTeam_past (s : State) (k : Nat) (x : Team) : (s.setTeam k x).past = s.past := rfl
@[simp] theorem State.setTeam_hostq (s : State) (k : Nat) (x : Team) : (s.setTeam k x).hostq = s.hostq := rfl
@[simp] theorem State.setTeam_noted (s : State) (k : Nat) (x : Team) : (s.setTeam k x).noted = s.noted := rfl
@[simp] theorem State.setTeam_tlbCmd (s : State) (k : Nat) (x : Team) : (s.setTeam k x).tlbCmd = s.tlbCmd := rfl
@[simp] theorem State.setTeam_logged (s : State) (k : Nat) (x : Team) : (s.setTeam k x).logged = s.logged := rfl
@[simp] theorem State.setTeam_logChain (s : State) (k : Nat) (x : Team) : (s.setTeam k x).logChain = s.logChain := rfl
@[simp] theorem State.setTeam_ports (s : State) (k : Nat) (x : Team) : (s.setTeam k x).ports = s.ports := rfl
@[simp] theorem State.setTeam_queues (s : State) (k : Nat) (x : Team) : (s.setTeam k x).queues = s.queues := rfl
@[simp] theorem State.setTeam_held (s : State) (k : Nat) (x : Team) : (s.setTeam k x).held = s.held := rfl
@[simp] theorem State.setTeam_acts (s : State) (k : Nat) (x : Team) : (s.setTeam k x).acts = s.acts := rfl
@[simp] theorem State.setTeam_vesper (s : State) (k : Nat) (x : Team) : (s.setTeam k x).vesper = s.vesper := rfl
@[simp] theorem State.setTeam_island (s : State) (k : Nat) (x : Team) : (s.setTeam k x).island = s.island := rfl
@[simp] theorem State.setTeam_hosts (s : State) (k : Nat) (x : Team) : (s.setTeam k x).hosts = s.hosts := rfl
@[simp] theorem State.setTeam_replies (s : State) (k : Nat) (x : Team) : (s.setTeam k x).replies = s.replies := rfl
@[simp] theorem State.setTeam_quads (s : State) (k : Nat) (x : Team) : (s.setTeam k x).quads = s.quads := rfl
@[simp] theorem State.setTeam_placeLog (s : State) (k : Nat) (x : Team) : (s.setTeam k x).placeLog = s.placeLog := rfl
@[simp] theorem State.setTeam_hretain (s : State) (k : Nat) (x : Team) : (s.setTeam k x).hretain = s.hretain := rfl
@[simp] theorem State.setTeam_seriesk (s : State) (k : Nat) (x : Team) : (s.setTeam k x).seriesk = s.seriesk := rfl
@[simp] theorem State.setTeam_retrain (s : State) (k : Nat) (x : Team) : (s.setTeam k x).retrain = s.retrain := rfl
@[simp] theorem State.setTeam_stopat (s : State) (k : Nat) (x : Team) : (s.setTeam k x).stopat = s.stopat := rfl
@[simp] theorem State.setTeam_serBase (s : State) (k : Nat) (x : Team) : (s.setTeam k x).serBase = s.serBase := rfl
@[simp] theorem State.setTeam_serSize (s : State) (k : Nat) (x : Team) : (s.setTeam k x).serSize = s.serSize := rfl
@[simp] theorem State.setTeam_serSeq (s : State) (k : Nat) (x : Team) : (s.setTeam k x).serSeq = s.serSeq := rfl
@[simp] theorem State.setTeam_serLast (s : State) (k : Nat) (x : Team) : (s.setTeam k x).serLast = s.serLast := rfl
@[simp] theorem State.setTeam_stopped (s : State) (k : Nat) (x : Team) : (s.setTeam k x).stopped = s.stopped := rfl
@[simp] theorem State.setTeam_stopTick (s : State) (k : Nat) (x : Team) : (s.setTeam k x).stopTick = s.stopTick := rfl
@[simp] theorem State.setTeam_stopSet (s : State) (k : Nat) (x : Team) : (s.setTeam k x).stopSet = s.stopSet := rfl
@[simp] theorem State.setTeam_resumeTick (s : State) (k : Nat) (x : Team) : (s.setTeam k x).resumeTick = s.resumeTick := rfl
@[simp] theorem State.setTeam_at_blk (s : State) (k : Nat) (x : Team) (n : Nat) : (s.setTeam k x).blk n = s.blk n := rfl
@[simp] theorem State.setTeam_at_grp (s : State) (k : Nat) (x : Team) (n m : Nat) : (s.setTeam k x).grp n m = s.grp n m := rfl
@[simp] theorem State.setTeam_at_core (s : State) (k : Nat) (x : Team) (n : Nat) : (s.setTeam k x).core n = s.core n := rfl
@[simp] theorem State.setTeam_at_ctx (s : State) (k : Nat) (x : Team) (n : Nat) : (s.setTeam k x).ctx n = s.ctx n := rfl
@[simp] theorem State.setTeam_at_kernel (s : State) (k : Nat) (x : Team) (n : Nat) : (s.setTeam k x).kernel n = s.kernel n := rfl
@[simp] theorem State.setTeam_at_slice (s : State) (k : Nat) (x : Team) (n : Nat) : (s.setTeam k x).slice n = s.slice n := rfl
@[simp] theorem State.setTeam_at_ring (s : State) (k : Nat) (x : Team) (n : Nat) : (s.setTeam k x).ring n = s.ring n := rfl
@[simp] theorem State.setTeam_at_queue (s : State) (k : Nat) (x : Team) (n : Nat) : (s.setTeam k x).queue n = s.queue n := rfl
@[simp] theorem State.setTeam_at_quad (s : State) (k : Nat) (x : Team) (n : Nat) : (s.setTeam k x).quad n = s.quad n := rfl
@[simp] theorem State.setTeam_at_port (s : State) (k : Nat) (x : Team) (n : Nat) : (s.setTeam k x).port n = s.port n := rfl
@[simp] theorem State.setTeam_at_host (s : State) (k : Nat) (x : Team) (n : Nat) : (s.setTeam k x).host n = s.host n := rfl
@[simp] theorem State.setTeam_peerPins (s : State) (k : Nat) (x : Team) : (s.setTeam k x).peerPins = s.peerPins := rfl
@[simp] theorem State.setTeam_duskNew (s : State) (k : Nat) (x : Team) : (s.setTeam k x).duskNew = s.duskNew := rfl
@[simp] theorem State.setTeam_rx (s : State) (k : Nat) (x : Team) : (s.setTeam k x).rx = s.rx := rfl
@[simp] theorem State.setTeam_wire (s : State) (k : Nat) (x : Team) : (s.setTeam k x).wire = s.wire := rfl
@[simp] theorem State.setTeam_devSent (s : State) (k : Nat) (x : Team) : (s.setTeam k x).devSent = s.devSent := rfl

/-! ## setSlice -/

@[simp] theorem State.setSlice_tick (s : State) (k : Nat) (x : Slice) : (s.setSlice k x).tick = s.tick := rfl
@[simp] theorem State.setSlice_stampBase (s : State) (k : Nat) (x : Slice) : (s.setSlice k x).stampBase = s.stampBase := rfl
@[simp] theorem State.setSlice_cycles (s : State) (k : Nat) (x : Slice) : (s.setSlice k x).cycles = s.cycles := rfl
@[simp] theorem State.setSlice_clockK (s : State) (k : Nat) (x : Slice) : (s.setSlice k x).clockK = s.clockK := rfl
@[simp] theorem State.setSlice_device (s : State) (k : Nat) (x : Slice) : (s.setSlice k x).device = s.device := rfl
@[simp] theorem State.setSlice_agenda (s : State) (k : Nat) (x : Slice) : (s.setSlice k x).agenda = s.agenda := rfl
@[simp] theorem State.setSlice_auto (s : State) (k : Nat) (x : Slice) : (s.setSlice k x).auto = s.auto := rfl
@[simp] theorem State.setSlice_fresh (s : State) (k : Nat) (x : Slice) : (s.setSlice k x).fresh = s.fresh := rfl
@[simp] theorem State.setSlice_cur (s : State) (k : Nat) (x : Slice) : (s.setSlice k x).cur = s.cur := rfl
@[simp] theorem State.setSlice_mem (s : State) (k : Nat) (x : Slice) : (s.setSlice k x).mem = s.mem := rfl
@[simp] theorem State.setSlice_lines (s : State) (k : Nat) (x : Slice) : (s.setSlice k x).lines = s.lines := rfl
@[simp] theorem State.setSlice_pageGen (s : State) (k : Nat) (x : Slice) : (s.setSlice k x).pageGen = s.pageGen := rfl
@[simp] theorem State.setSlice_poison (s : State) (k : Nat) (x : Slice) : (s.setSlice k x).poison = s.poison := rfl
@[simp] theorem State.setSlice_rings (s : State) (k : Nat) (x : Slice) : (s.setSlice k x).rings = s.rings := rfl
@[simp] theorem State.setSlice_heads (s : State) (k : Nat) (x : Slice) : (s.setSlice k x).heads = s.heads := rfl
@[simp] theorem State.setSlice_lastWrite (s : State) (k : Nat) (x : Slice) : (s.setSlice k x).lastWrite = s.lastWrite := rfl
@[simp] theorem State.setSlice_maps (s : State) (k : Nat) (x : Slice) : (s.setSlice k x).maps = s.maps := rfl
@[simp] theorem State.setSlice_hres (s : State) (k : Nat) (x : Slice) : (s.setSlice k x).hres = s.hres := rfl
@[simp] theorem State.setSlice_tlb (s : State) (k : Nat) (x : Slice) : (s.setSlice k x).tlb = s.tlb := rfl
@[simp] theorem State.setSlice_pend (s : State) (k : Nat) (x : Slice) : (s.setSlice k x).pend = s.pend := rfl
@[simp] theorem State.setSlice_counted (s : State) (k : Nat) (x : Slice) : (s.setSlice k x).counted = s.counted := rfl
@[simp] theorem State.setSlice_blocks (s : State) (k : Nat) (x : Slice) : (s.setSlice k x).blocks = s.blocks := rfl
@[simp] theorem State.setSlice_cores (s : State) (k : Nat) (x : Slice) : (s.setSlice k x).cores = s.cores := rfl
@[simp] theorem State.setSlice_ctxs (s : State) (k : Nat) (x : Slice) : (s.setSlice k x).ctxs = s.ctxs := rfl
@[simp] theorem State.setSlice_kernels (s : State) (k : Nat) (x : Slice) : (s.setSlice k x).kernels = s.kernels := rfl
@[simp] theorem State.setSlice_teams (s : State) (k : Nat) (x : Slice) : (s.setSlice k x).teams = s.teams := rfl
@[simp] theorem State.setSlice_units (s : State) (k : Nat) (x : Slice) : (s.setSlice k x).units = s.units := rfl
@[simp] theorem State.setSlice_log (s : State) (k : Nat) (x : Slice) : (s.setSlice k x).log = s.log := rfl
@[simp] theorem State.setSlice_logNext (s : State) (k : Nat) (x : Slice) : (s.setSlice k x).logNext = s.logNext := rfl
@[simp] theorem State.setSlice_logNew (s : State) (k : Nat) (x : Slice) : (s.setSlice k x).logNew = s.logNew := rfl
@[simp] theorem State.setSlice_traced (s : State) (k : Nat) (x : Slice) : (s.setSlice k x).traced = s.traced := rfl
@[simp] theorem State.setSlice_members (s : State) (k : Nat) (x : Slice) : (s.setSlice k x).members = s.members := rfl
@[simp] theorem State.setSlice_peerDusk (s : State) (k : Nat) (x : Slice) : (s.setSlice k x).peerDusk = s.peerDusk := rfl
@[simp] theorem State.setSlice_retained (s : State) (k : Nat) (x : Slice) : (s.setSlice k x).retained = s.retained := rfl
@[simp] theorem State.setSlice_e2eOut (s : State) (k : Nat) (x : Slice) : (s.setSlice k x).e2eOut = s.e2eOut := rfl
@[simp] theorem State.setSlice_e2eIn (s : State) (k : Nat) (x : Slice) : (s.setSlice k x).e2eIn = s.e2eIn := rfl
@[simp] theorem State.setSlice_out (s : State) (k : Nat) (x : Slice) : (s.setSlice k x).out = s.out := rfl
@[simp] theorem State.setSlice_receipts (s : State) (k : Nat) (x : Slice) : (s.setSlice k x).receipts = s.receipts := rfl
@[simp] theorem State.setSlice_past (s : State) (k : Nat) (x : Slice) : (s.setSlice k x).past = s.past := rfl
@[simp] theorem State.setSlice_hostq (s : State) (k : Nat) (x : Slice) : (s.setSlice k x).hostq = s.hostq := rfl
@[simp] theorem State.setSlice_noted (s : State) (k : Nat) (x : Slice) : (s.setSlice k x).noted = s.noted := rfl
@[simp] theorem State.setSlice_tlbCmd (s : State) (k : Nat) (x : Slice) : (s.setSlice k x).tlbCmd = s.tlbCmd := rfl
@[simp] theorem State.setSlice_logged (s : State) (k : Nat) (x : Slice) : (s.setSlice k x).logged = s.logged := rfl
@[simp] theorem State.setSlice_logChain (s : State) (k : Nat) (x : Slice) : (s.setSlice k x).logChain = s.logChain := rfl
@[simp] theorem State.setSlice_ports (s : State) (k : Nat) (x : Slice) : (s.setSlice k x).ports = s.ports := rfl
@[simp] theorem State.setSlice_queues (s : State) (k : Nat) (x : Slice) : (s.setSlice k x).queues = s.queues := rfl
@[simp] theorem State.setSlice_held (s : State) (k : Nat) (x : Slice) : (s.setSlice k x).held = s.held := rfl
@[simp] theorem State.setSlice_acts (s : State) (k : Nat) (x : Slice) : (s.setSlice k x).acts = s.acts := rfl
@[simp] theorem State.setSlice_vesper (s : State) (k : Nat) (x : Slice) : (s.setSlice k x).vesper = s.vesper := rfl
@[simp] theorem State.setSlice_island (s : State) (k : Nat) (x : Slice) : (s.setSlice k x).island = s.island := rfl
@[simp] theorem State.setSlice_hosts (s : State) (k : Nat) (x : Slice) : (s.setSlice k x).hosts = s.hosts := rfl
@[simp] theorem State.setSlice_replies (s : State) (k : Nat) (x : Slice) : (s.setSlice k x).replies = s.replies := rfl
@[simp] theorem State.setSlice_quads (s : State) (k : Nat) (x : Slice) : (s.setSlice k x).quads = s.quads := rfl
@[simp] theorem State.setSlice_placeLog (s : State) (k : Nat) (x : Slice) : (s.setSlice k x).placeLog = s.placeLog := rfl
@[simp] theorem State.setSlice_hretain (s : State) (k : Nat) (x : Slice) : (s.setSlice k x).hretain = s.hretain := rfl
@[simp] theorem State.setSlice_seriesk (s : State) (k : Nat) (x : Slice) : (s.setSlice k x).seriesk = s.seriesk := rfl
@[simp] theorem State.setSlice_retrain (s : State) (k : Nat) (x : Slice) : (s.setSlice k x).retrain = s.retrain := rfl
@[simp] theorem State.setSlice_stopat (s : State) (k : Nat) (x : Slice) : (s.setSlice k x).stopat = s.stopat := rfl
@[simp] theorem State.setSlice_serBase (s : State) (k : Nat) (x : Slice) : (s.setSlice k x).serBase = s.serBase := rfl
@[simp] theorem State.setSlice_serSize (s : State) (k : Nat) (x : Slice) : (s.setSlice k x).serSize = s.serSize := rfl
@[simp] theorem State.setSlice_serSeq (s : State) (k : Nat) (x : Slice) : (s.setSlice k x).serSeq = s.serSeq := rfl
@[simp] theorem State.setSlice_serLast (s : State) (k : Nat) (x : Slice) : (s.setSlice k x).serLast = s.serLast := rfl
@[simp] theorem State.setSlice_stopped (s : State) (k : Nat) (x : Slice) : (s.setSlice k x).stopped = s.stopped := rfl
@[simp] theorem State.setSlice_stopTick (s : State) (k : Nat) (x : Slice) : (s.setSlice k x).stopTick = s.stopTick := rfl
@[simp] theorem State.setSlice_stopSet (s : State) (k : Nat) (x : Slice) : (s.setSlice k x).stopSet = s.stopSet := rfl
@[simp] theorem State.setSlice_resumeTick (s : State) (k : Nat) (x : Slice) : (s.setSlice k x).resumeTick = s.resumeTick := rfl
@[simp] theorem State.setSlice_at_blk (s : State) (k : Nat) (x : Slice) (n : Nat) : (s.setSlice k x).blk n = s.blk n := rfl
@[simp] theorem State.setSlice_at_grp (s : State) (k : Nat) (x : Slice) (n m : Nat) : (s.setSlice k x).grp n m = s.grp n m := rfl
@[simp] theorem State.setSlice_at_core (s : State) (k : Nat) (x : Slice) (n : Nat) : (s.setSlice k x).core n = s.core n := rfl
@[simp] theorem State.setSlice_at_ctx (s : State) (k : Nat) (x : Slice) (n : Nat) : (s.setSlice k x).ctx n = s.ctx n := rfl
@[simp] theorem State.setSlice_at_kernel (s : State) (k : Nat) (x : Slice) (n : Nat) : (s.setSlice k x).kernel n = s.kernel n := rfl
@[simp] theorem State.setSlice_at_team (s : State) (k : Nat) (x : Slice) (n : Nat) : (s.setSlice k x).team n = s.team n := rfl
@[simp] theorem State.setSlice_at_ring (s : State) (k : Nat) (x : Slice) (n : Nat) : (s.setSlice k x).ring n = s.ring n := rfl
@[simp] theorem State.setSlice_at_queue (s : State) (k : Nat) (x : Slice) (n : Nat) : (s.setSlice k x).queue n = s.queue n := rfl
@[simp] theorem State.setSlice_at_quad (s : State) (k : Nat) (x : Slice) (n : Nat) : (s.setSlice k x).quad n = s.quad n := rfl
@[simp] theorem State.setSlice_at_port (s : State) (k : Nat) (x : Slice) (n : Nat) : (s.setSlice k x).port n = s.port n := rfl
@[simp] theorem State.setSlice_at_host (s : State) (k : Nat) (x : Slice) (n : Nat) : (s.setSlice k x).host n = s.host n := rfl
@[simp] theorem State.setSlice_peerPins (s : State) (k : Nat) (x : Slice) : (s.setSlice k x).peerPins = s.peerPins := rfl
@[simp] theorem State.setSlice_duskNew (s : State) (k : Nat) (x : Slice) : (s.setSlice k x).duskNew = s.duskNew := rfl
@[simp] theorem State.setSlice_rx (s : State) (k : Nat) (x : Slice) : (s.setSlice k x).rx = s.rx := rfl
@[simp] theorem State.setSlice_wire (s : State) (k : Nat) (x : Slice) : (s.setSlice k x).wire = s.wire := rfl
@[simp] theorem State.setSlice_devSent (s : State) (k : Nat) (x : Slice) : (s.setSlice k x).devSent = s.devSent := rfl

/-! ## setRing -/

@[simp] theorem State.setRing_tick (s : State) (k : Nat) (x : Ring) : (s.setRing k x).tick = s.tick := rfl
@[simp] theorem State.setRing_stampBase (s : State) (k : Nat) (x : Ring) : (s.setRing k x).stampBase = s.stampBase := rfl
@[simp] theorem State.setRing_cycles (s : State) (k : Nat) (x : Ring) : (s.setRing k x).cycles = s.cycles := rfl
@[simp] theorem State.setRing_clockK (s : State) (k : Nat) (x : Ring) : (s.setRing k x).clockK = s.clockK := rfl
@[simp] theorem State.setRing_device (s : State) (k : Nat) (x : Ring) : (s.setRing k x).device = s.device := rfl
@[simp] theorem State.setRing_agenda (s : State) (k : Nat) (x : Ring) : (s.setRing k x).agenda = s.agenda := rfl
@[simp] theorem State.setRing_auto (s : State) (k : Nat) (x : Ring) : (s.setRing k x).auto = s.auto := rfl
@[simp] theorem State.setRing_fresh (s : State) (k : Nat) (x : Ring) : (s.setRing k x).fresh = s.fresh := rfl
@[simp] theorem State.setRing_cur (s : State) (k : Nat) (x : Ring) : (s.setRing k x).cur = s.cur := rfl
@[simp] theorem State.setRing_mem (s : State) (k : Nat) (x : Ring) : (s.setRing k x).mem = s.mem := rfl
@[simp] theorem State.setRing_lines (s : State) (k : Nat) (x : Ring) : (s.setRing k x).lines = s.lines := rfl
@[simp] theorem State.setRing_pageGen (s : State) (k : Nat) (x : Ring) : (s.setRing k x).pageGen = s.pageGen := rfl
@[simp] theorem State.setRing_poison (s : State) (k : Nat) (x : Ring) : (s.setRing k x).poison = s.poison := rfl
@[simp] theorem State.setRing_slices (s : State) (k : Nat) (x : Ring) : (s.setRing k x).slices = s.slices := rfl
@[simp] theorem State.setRing_heads (s : State) (k : Nat) (x : Ring) : (s.setRing k x).heads = s.heads := rfl
@[simp] theorem State.setRing_lastWrite (s : State) (k : Nat) (x : Ring) : (s.setRing k x).lastWrite = s.lastWrite := rfl
@[simp] theorem State.setRing_maps (s : State) (k : Nat) (x : Ring) : (s.setRing k x).maps = s.maps := rfl
@[simp] theorem State.setRing_hres (s : State) (k : Nat) (x : Ring) : (s.setRing k x).hres = s.hres := rfl
@[simp] theorem State.setRing_tlb (s : State) (k : Nat) (x : Ring) : (s.setRing k x).tlb = s.tlb := rfl
@[simp] theorem State.setRing_pend (s : State) (k : Nat) (x : Ring) : (s.setRing k x).pend = s.pend := rfl
@[simp] theorem State.setRing_counted (s : State) (k : Nat) (x : Ring) : (s.setRing k x).counted = s.counted := rfl
@[simp] theorem State.setRing_blocks (s : State) (k : Nat) (x : Ring) : (s.setRing k x).blocks = s.blocks := rfl
@[simp] theorem State.setRing_cores (s : State) (k : Nat) (x : Ring) : (s.setRing k x).cores = s.cores := rfl
@[simp] theorem State.setRing_ctxs (s : State) (k : Nat) (x : Ring) : (s.setRing k x).ctxs = s.ctxs := rfl
@[simp] theorem State.setRing_kernels (s : State) (k : Nat) (x : Ring) : (s.setRing k x).kernels = s.kernels := rfl
@[simp] theorem State.setRing_teams (s : State) (k : Nat) (x : Ring) : (s.setRing k x).teams = s.teams := rfl
@[simp] theorem State.setRing_units (s : State) (k : Nat) (x : Ring) : (s.setRing k x).units = s.units := rfl
@[simp] theorem State.setRing_log (s : State) (k : Nat) (x : Ring) : (s.setRing k x).log = s.log := rfl
@[simp] theorem State.setRing_logNext (s : State) (k : Nat) (x : Ring) : (s.setRing k x).logNext = s.logNext := rfl
@[simp] theorem State.setRing_logNew (s : State) (k : Nat) (x : Ring) : (s.setRing k x).logNew = s.logNew := rfl
@[simp] theorem State.setRing_traced (s : State) (k : Nat) (x : Ring) : (s.setRing k x).traced = s.traced := rfl
@[simp] theorem State.setRing_members (s : State) (k : Nat) (x : Ring) : (s.setRing k x).members = s.members := rfl
@[simp] theorem State.setRing_peerDusk (s : State) (k : Nat) (x : Ring) : (s.setRing k x).peerDusk = s.peerDusk := rfl
@[simp] theorem State.setRing_retained (s : State) (k : Nat) (x : Ring) : (s.setRing k x).retained = s.retained := rfl
@[simp] theorem State.setRing_e2eOut (s : State) (k : Nat) (x : Ring) : (s.setRing k x).e2eOut = s.e2eOut := rfl
@[simp] theorem State.setRing_e2eIn (s : State) (k : Nat) (x : Ring) : (s.setRing k x).e2eIn = s.e2eIn := rfl
@[simp] theorem State.setRing_out (s : State) (k : Nat) (x : Ring) : (s.setRing k x).out = s.out := rfl
@[simp] theorem State.setRing_receipts (s : State) (k : Nat) (x : Ring) : (s.setRing k x).receipts = s.receipts := rfl
@[simp] theorem State.setRing_past (s : State) (k : Nat) (x : Ring) : (s.setRing k x).past = s.past := rfl
@[simp] theorem State.setRing_hostq (s : State) (k : Nat) (x : Ring) : (s.setRing k x).hostq = s.hostq := rfl
@[simp] theorem State.setRing_noted (s : State) (k : Nat) (x : Ring) : (s.setRing k x).noted = s.noted := rfl
@[simp] theorem State.setRing_tlbCmd (s : State) (k : Nat) (x : Ring) : (s.setRing k x).tlbCmd = s.tlbCmd := rfl
@[simp] theorem State.setRing_logged (s : State) (k : Nat) (x : Ring) : (s.setRing k x).logged = s.logged := rfl
@[simp] theorem State.setRing_logChain (s : State) (k : Nat) (x : Ring) : (s.setRing k x).logChain = s.logChain := rfl
@[simp] theorem State.setRing_ports (s : State) (k : Nat) (x : Ring) : (s.setRing k x).ports = s.ports := rfl
@[simp] theorem State.setRing_queues (s : State) (k : Nat) (x : Ring) : (s.setRing k x).queues = s.queues := rfl
@[simp] theorem State.setRing_held (s : State) (k : Nat) (x : Ring) : (s.setRing k x).held = s.held := rfl
@[simp] theorem State.setRing_acts (s : State) (k : Nat) (x : Ring) : (s.setRing k x).acts = s.acts := rfl
@[simp] theorem State.setRing_vesper (s : State) (k : Nat) (x : Ring) : (s.setRing k x).vesper = s.vesper := rfl
@[simp] theorem State.setRing_island (s : State) (k : Nat) (x : Ring) : (s.setRing k x).island = s.island := rfl
@[simp] theorem State.setRing_hosts (s : State) (k : Nat) (x : Ring) : (s.setRing k x).hosts = s.hosts := rfl
@[simp] theorem State.setRing_replies (s : State) (k : Nat) (x : Ring) : (s.setRing k x).replies = s.replies := rfl
@[simp] theorem State.setRing_quads (s : State) (k : Nat) (x : Ring) : (s.setRing k x).quads = s.quads := rfl
@[simp] theorem State.setRing_placeLog (s : State) (k : Nat) (x : Ring) : (s.setRing k x).placeLog = s.placeLog := rfl
@[simp] theorem State.setRing_hretain (s : State) (k : Nat) (x : Ring) : (s.setRing k x).hretain = s.hretain := rfl
@[simp] theorem State.setRing_seriesk (s : State) (k : Nat) (x : Ring) : (s.setRing k x).seriesk = s.seriesk := rfl
@[simp] theorem State.setRing_retrain (s : State) (k : Nat) (x : Ring) : (s.setRing k x).retrain = s.retrain := rfl
@[simp] theorem State.setRing_stopat (s : State) (k : Nat) (x : Ring) : (s.setRing k x).stopat = s.stopat := rfl
@[simp] theorem State.setRing_serBase (s : State) (k : Nat) (x : Ring) : (s.setRing k x).serBase = s.serBase := rfl
@[simp] theorem State.setRing_serSize (s : State) (k : Nat) (x : Ring) : (s.setRing k x).serSize = s.serSize := rfl
@[simp] theorem State.setRing_serSeq (s : State) (k : Nat) (x : Ring) : (s.setRing k x).serSeq = s.serSeq := rfl
@[simp] theorem State.setRing_serLast (s : State) (k : Nat) (x : Ring) : (s.setRing k x).serLast = s.serLast := rfl
@[simp] theorem State.setRing_stopped (s : State) (k : Nat) (x : Ring) : (s.setRing k x).stopped = s.stopped := rfl
@[simp] theorem State.setRing_stopTick (s : State) (k : Nat) (x : Ring) : (s.setRing k x).stopTick = s.stopTick := rfl
@[simp] theorem State.setRing_stopSet (s : State) (k : Nat) (x : Ring) : (s.setRing k x).stopSet = s.stopSet := rfl
@[simp] theorem State.setRing_resumeTick (s : State) (k : Nat) (x : Ring) : (s.setRing k x).resumeTick = s.resumeTick := rfl
@[simp] theorem State.setRing_at_blk (s : State) (k : Nat) (x : Ring) (n : Nat) : (s.setRing k x).blk n = s.blk n := rfl
@[simp] theorem State.setRing_at_grp (s : State) (k : Nat) (x : Ring) (n m : Nat) : (s.setRing k x).grp n m = s.grp n m := rfl
@[simp] theorem State.setRing_at_core (s : State) (k : Nat) (x : Ring) (n : Nat) : (s.setRing k x).core n = s.core n := rfl
@[simp] theorem State.setRing_at_ctx (s : State) (k : Nat) (x : Ring) (n : Nat) : (s.setRing k x).ctx n = s.ctx n := rfl
@[simp] theorem State.setRing_at_kernel (s : State) (k : Nat) (x : Ring) (n : Nat) : (s.setRing k x).kernel n = s.kernel n := rfl
@[simp] theorem State.setRing_at_team (s : State) (k : Nat) (x : Ring) (n : Nat) : (s.setRing k x).team n = s.team n := rfl
@[simp] theorem State.setRing_at_slice (s : State) (k : Nat) (x : Ring) (n : Nat) : (s.setRing k x).slice n = s.slice n := rfl
@[simp] theorem State.setRing_at_queue (s : State) (k : Nat) (x : Ring) (n : Nat) : (s.setRing k x).queue n = s.queue n := rfl
@[simp] theorem State.setRing_at_quad (s : State) (k : Nat) (x : Ring) (n : Nat) : (s.setRing k x).quad n = s.quad n := rfl
@[simp] theorem State.setRing_at_port (s : State) (k : Nat) (x : Ring) (n : Nat) : (s.setRing k x).port n = s.port n := rfl
@[simp] theorem State.setRing_at_host (s : State) (k : Nat) (x : Ring) (n : Nat) : (s.setRing k x).host n = s.host n := rfl
@[simp] theorem State.setRing_peerPins (s : State) (k : Nat) (x : Ring) : (s.setRing k x).peerPins = s.peerPins := rfl
@[simp] theorem State.setRing_duskNew (s : State) (k : Nat) (x : Ring) : (s.setRing k x).duskNew = s.duskNew := rfl
@[simp] theorem State.setRing_rx (s : State) (k : Nat) (x : Ring) : (s.setRing k x).rx = s.rx := rfl
@[simp] theorem State.setRing_wire (s : State) (k : Nat) (x : Ring) : (s.setRing k x).wire = s.wire := rfl
@[simp] theorem State.setRing_devSent (s : State) (k : Nat) (x : Ring) : (s.setRing k x).devSent = s.devSent := rfl

/-! ## setQueue -/

@[simp] theorem State.setQueue_tick (s : State) (k : Nat) (x : HwQueue) : (s.setQueue k x).tick = s.tick := rfl
@[simp] theorem State.setQueue_stampBase (s : State) (k : Nat) (x : HwQueue) : (s.setQueue k x).stampBase = s.stampBase := rfl
@[simp] theorem State.setQueue_cycles (s : State) (k : Nat) (x : HwQueue) : (s.setQueue k x).cycles = s.cycles := rfl
@[simp] theorem State.setQueue_clockK (s : State) (k : Nat) (x : HwQueue) : (s.setQueue k x).clockK = s.clockK := rfl
@[simp] theorem State.setQueue_device (s : State) (k : Nat) (x : HwQueue) : (s.setQueue k x).device = s.device := rfl
@[simp] theorem State.setQueue_agenda (s : State) (k : Nat) (x : HwQueue) : (s.setQueue k x).agenda = s.agenda := rfl
@[simp] theorem State.setQueue_auto (s : State) (k : Nat) (x : HwQueue) : (s.setQueue k x).auto = s.auto := rfl
@[simp] theorem State.setQueue_fresh (s : State) (k : Nat) (x : HwQueue) : (s.setQueue k x).fresh = s.fresh := rfl
@[simp] theorem State.setQueue_cur (s : State) (k : Nat) (x : HwQueue) : (s.setQueue k x).cur = s.cur := rfl
@[simp] theorem State.setQueue_mem (s : State) (k : Nat) (x : HwQueue) : (s.setQueue k x).mem = s.mem := rfl
@[simp] theorem State.setQueue_lines (s : State) (k : Nat) (x : HwQueue) : (s.setQueue k x).lines = s.lines := rfl
@[simp] theorem State.setQueue_pageGen (s : State) (k : Nat) (x : HwQueue) : (s.setQueue k x).pageGen = s.pageGen := rfl
@[simp] theorem State.setQueue_poison (s : State) (k : Nat) (x : HwQueue) : (s.setQueue k x).poison = s.poison := rfl
@[simp] theorem State.setQueue_slices (s : State) (k : Nat) (x : HwQueue) : (s.setQueue k x).slices = s.slices := rfl
@[simp] theorem State.setQueue_rings (s : State) (k : Nat) (x : HwQueue) : (s.setQueue k x).rings = s.rings := rfl
@[simp] theorem State.setQueue_heads (s : State) (k : Nat) (x : HwQueue) : (s.setQueue k x).heads = s.heads := rfl
@[simp] theorem State.setQueue_lastWrite (s : State) (k : Nat) (x : HwQueue) : (s.setQueue k x).lastWrite = s.lastWrite := rfl
@[simp] theorem State.setQueue_maps (s : State) (k : Nat) (x : HwQueue) : (s.setQueue k x).maps = s.maps := rfl
@[simp] theorem State.setQueue_hres (s : State) (k : Nat) (x : HwQueue) : (s.setQueue k x).hres = s.hres := rfl
@[simp] theorem State.setQueue_tlb (s : State) (k : Nat) (x : HwQueue) : (s.setQueue k x).tlb = s.tlb := rfl
@[simp] theorem State.setQueue_pend (s : State) (k : Nat) (x : HwQueue) : (s.setQueue k x).pend = s.pend := rfl
@[simp] theorem State.setQueue_counted (s : State) (k : Nat) (x : HwQueue) : (s.setQueue k x).counted = s.counted := rfl
@[simp] theorem State.setQueue_blocks (s : State) (k : Nat) (x : HwQueue) : (s.setQueue k x).blocks = s.blocks := rfl
@[simp] theorem State.setQueue_cores (s : State) (k : Nat) (x : HwQueue) : (s.setQueue k x).cores = s.cores := rfl
@[simp] theorem State.setQueue_ctxs (s : State) (k : Nat) (x : HwQueue) : (s.setQueue k x).ctxs = s.ctxs := rfl
@[simp] theorem State.setQueue_kernels (s : State) (k : Nat) (x : HwQueue) : (s.setQueue k x).kernels = s.kernels := rfl
@[simp] theorem State.setQueue_teams (s : State) (k : Nat) (x : HwQueue) : (s.setQueue k x).teams = s.teams := rfl
@[simp] theorem State.setQueue_units (s : State) (k : Nat) (x : HwQueue) : (s.setQueue k x).units = s.units := rfl
@[simp] theorem State.setQueue_log (s : State) (k : Nat) (x : HwQueue) : (s.setQueue k x).log = s.log := rfl
@[simp] theorem State.setQueue_logNext (s : State) (k : Nat) (x : HwQueue) : (s.setQueue k x).logNext = s.logNext := rfl
@[simp] theorem State.setQueue_logNew (s : State) (k : Nat) (x : HwQueue) : (s.setQueue k x).logNew = s.logNew := rfl
@[simp] theorem State.setQueue_traced (s : State) (k : Nat) (x : HwQueue) : (s.setQueue k x).traced = s.traced := rfl
@[simp] theorem State.setQueue_members (s : State) (k : Nat) (x : HwQueue) : (s.setQueue k x).members = s.members := rfl
@[simp] theorem State.setQueue_peerDusk (s : State) (k : Nat) (x : HwQueue) : (s.setQueue k x).peerDusk = s.peerDusk := rfl
@[simp] theorem State.setQueue_retained (s : State) (k : Nat) (x : HwQueue) : (s.setQueue k x).retained = s.retained := rfl
@[simp] theorem State.setQueue_e2eOut (s : State) (k : Nat) (x : HwQueue) : (s.setQueue k x).e2eOut = s.e2eOut := rfl
@[simp] theorem State.setQueue_e2eIn (s : State) (k : Nat) (x : HwQueue) : (s.setQueue k x).e2eIn = s.e2eIn := rfl
@[simp] theorem State.setQueue_out (s : State) (k : Nat) (x : HwQueue) : (s.setQueue k x).out = s.out := rfl
@[simp] theorem State.setQueue_receipts (s : State) (k : Nat) (x : HwQueue) : (s.setQueue k x).receipts = s.receipts := rfl
@[simp] theorem State.setQueue_past (s : State) (k : Nat) (x : HwQueue) : (s.setQueue k x).past = s.past := rfl
@[simp] theorem State.setQueue_hostq (s : State) (k : Nat) (x : HwQueue) : (s.setQueue k x).hostq = s.hostq := rfl
@[simp] theorem State.setQueue_noted (s : State) (k : Nat) (x : HwQueue) : (s.setQueue k x).noted = s.noted := rfl
@[simp] theorem State.setQueue_tlbCmd (s : State) (k : Nat) (x : HwQueue) : (s.setQueue k x).tlbCmd = s.tlbCmd := rfl
@[simp] theorem State.setQueue_logged (s : State) (k : Nat) (x : HwQueue) : (s.setQueue k x).logged = s.logged := rfl
@[simp] theorem State.setQueue_logChain (s : State) (k : Nat) (x : HwQueue) : (s.setQueue k x).logChain = s.logChain := rfl
@[simp] theorem State.setQueue_ports (s : State) (k : Nat) (x : HwQueue) : (s.setQueue k x).ports = s.ports := rfl
@[simp] theorem State.setQueue_held (s : State) (k : Nat) (x : HwQueue) : (s.setQueue k x).held = s.held := rfl
@[simp] theorem State.setQueue_acts (s : State) (k : Nat) (x : HwQueue) : (s.setQueue k x).acts = s.acts := rfl
@[simp] theorem State.setQueue_vesper (s : State) (k : Nat) (x : HwQueue) : (s.setQueue k x).vesper = s.vesper := rfl
@[simp] theorem State.setQueue_island (s : State) (k : Nat) (x : HwQueue) : (s.setQueue k x).island = s.island := rfl
@[simp] theorem State.setQueue_hosts (s : State) (k : Nat) (x : HwQueue) : (s.setQueue k x).hosts = s.hosts := rfl
@[simp] theorem State.setQueue_replies (s : State) (k : Nat) (x : HwQueue) : (s.setQueue k x).replies = s.replies := rfl
@[simp] theorem State.setQueue_quads (s : State) (k : Nat) (x : HwQueue) : (s.setQueue k x).quads = s.quads := rfl
@[simp] theorem State.setQueue_placeLog (s : State) (k : Nat) (x : HwQueue) : (s.setQueue k x).placeLog = s.placeLog := rfl
@[simp] theorem State.setQueue_hretain (s : State) (k : Nat) (x : HwQueue) : (s.setQueue k x).hretain = s.hretain := rfl
@[simp] theorem State.setQueue_seriesk (s : State) (k : Nat) (x : HwQueue) : (s.setQueue k x).seriesk = s.seriesk := rfl
@[simp] theorem State.setQueue_retrain (s : State) (k : Nat) (x : HwQueue) : (s.setQueue k x).retrain = s.retrain := rfl
@[simp] theorem State.setQueue_stopat (s : State) (k : Nat) (x : HwQueue) : (s.setQueue k x).stopat = s.stopat := rfl
@[simp] theorem State.setQueue_serBase (s : State) (k : Nat) (x : HwQueue) : (s.setQueue k x).serBase = s.serBase := rfl
@[simp] theorem State.setQueue_serSize (s : State) (k : Nat) (x : HwQueue) : (s.setQueue k x).serSize = s.serSize := rfl
@[simp] theorem State.setQueue_serSeq (s : State) (k : Nat) (x : HwQueue) : (s.setQueue k x).serSeq = s.serSeq := rfl
@[simp] theorem State.setQueue_serLast (s : State) (k : Nat) (x : HwQueue) : (s.setQueue k x).serLast = s.serLast := rfl
@[simp] theorem State.setQueue_stopped (s : State) (k : Nat) (x : HwQueue) : (s.setQueue k x).stopped = s.stopped := rfl
@[simp] theorem State.setQueue_stopTick (s : State) (k : Nat) (x : HwQueue) : (s.setQueue k x).stopTick = s.stopTick := rfl
@[simp] theorem State.setQueue_stopSet (s : State) (k : Nat) (x : HwQueue) : (s.setQueue k x).stopSet = s.stopSet := rfl
@[simp] theorem State.setQueue_resumeTick (s : State) (k : Nat) (x : HwQueue) : (s.setQueue k x).resumeTick = s.resumeTick := rfl
@[simp] theorem State.setQueue_at_blk (s : State) (k : Nat) (x : HwQueue) (n : Nat) : (s.setQueue k x).blk n = s.blk n := rfl
@[simp] theorem State.setQueue_at_grp (s : State) (k : Nat) (x : HwQueue) (n m : Nat) : (s.setQueue k x).grp n m = s.grp n m := rfl
@[simp] theorem State.setQueue_at_core (s : State) (k : Nat) (x : HwQueue) (n : Nat) : (s.setQueue k x).core n = s.core n := rfl
@[simp] theorem State.setQueue_at_ctx (s : State) (k : Nat) (x : HwQueue) (n : Nat) : (s.setQueue k x).ctx n = s.ctx n := rfl
@[simp] theorem State.setQueue_at_kernel (s : State) (k : Nat) (x : HwQueue) (n : Nat) : (s.setQueue k x).kernel n = s.kernel n := rfl
@[simp] theorem State.setQueue_at_team (s : State) (k : Nat) (x : HwQueue) (n : Nat) : (s.setQueue k x).team n = s.team n := rfl
@[simp] theorem State.setQueue_at_slice (s : State) (k : Nat) (x : HwQueue) (n : Nat) : (s.setQueue k x).slice n = s.slice n := rfl
@[simp] theorem State.setQueue_at_ring (s : State) (k : Nat) (x : HwQueue) (n : Nat) : (s.setQueue k x).ring n = s.ring n := rfl
@[simp] theorem State.setQueue_at_quad (s : State) (k : Nat) (x : HwQueue) (n : Nat) : (s.setQueue k x).quad n = s.quad n := rfl
@[simp] theorem State.setQueue_at_port (s : State) (k : Nat) (x : HwQueue) (n : Nat) : (s.setQueue k x).port n = s.port n := rfl
@[simp] theorem State.setQueue_at_host (s : State) (k : Nat) (x : HwQueue) (n : Nat) : (s.setQueue k x).host n = s.host n := rfl
@[simp] theorem State.setQueue_peerPins (s : State) (k : Nat) (x : HwQueue) : (s.setQueue k x).peerPins = s.peerPins := rfl
@[simp] theorem State.setQueue_duskNew (s : State) (k : Nat) (x : HwQueue) : (s.setQueue k x).duskNew = s.duskNew := rfl
@[simp] theorem State.setQueue_rx (s : State) (k : Nat) (x : HwQueue) : (s.setQueue k x).rx = s.rx := rfl
@[simp] theorem State.setQueue_wire (s : State) (k : Nat) (x : HwQueue) : (s.setQueue k x).wire = s.wire := rfl
@[simp] theorem State.setQueue_devSent (s : State) (k : Nat) (x : HwQueue) : (s.setQueue k x).devSent = s.devSent := rfl

/-! ## setQuad -/

@[simp] theorem State.setQuad_tick (s : State) (k : Nat) (x : Quad) : (s.setQuad k x).tick = s.tick := rfl
@[simp] theorem State.setQuad_stampBase (s : State) (k : Nat) (x : Quad) : (s.setQuad k x).stampBase = s.stampBase := rfl
@[simp] theorem State.setQuad_cycles (s : State) (k : Nat) (x : Quad) : (s.setQuad k x).cycles = s.cycles := rfl
@[simp] theorem State.setQuad_clockK (s : State) (k : Nat) (x : Quad) : (s.setQuad k x).clockK = s.clockK := rfl
@[simp] theorem State.setQuad_device (s : State) (k : Nat) (x : Quad) : (s.setQuad k x).device = s.device := rfl
@[simp] theorem State.setQuad_agenda (s : State) (k : Nat) (x : Quad) : (s.setQuad k x).agenda = s.agenda := rfl
@[simp] theorem State.setQuad_auto (s : State) (k : Nat) (x : Quad) : (s.setQuad k x).auto = s.auto := rfl
@[simp] theorem State.setQuad_fresh (s : State) (k : Nat) (x : Quad) : (s.setQuad k x).fresh = s.fresh := rfl
@[simp] theorem State.setQuad_cur (s : State) (k : Nat) (x : Quad) : (s.setQuad k x).cur = s.cur := rfl
@[simp] theorem State.setQuad_mem (s : State) (k : Nat) (x : Quad) : (s.setQuad k x).mem = s.mem := rfl
@[simp] theorem State.setQuad_lines (s : State) (k : Nat) (x : Quad) : (s.setQuad k x).lines = s.lines := rfl
@[simp] theorem State.setQuad_pageGen (s : State) (k : Nat) (x : Quad) : (s.setQuad k x).pageGen = s.pageGen := rfl
@[simp] theorem State.setQuad_poison (s : State) (k : Nat) (x : Quad) : (s.setQuad k x).poison = s.poison := rfl
@[simp] theorem State.setQuad_slices (s : State) (k : Nat) (x : Quad) : (s.setQuad k x).slices = s.slices := rfl
@[simp] theorem State.setQuad_rings (s : State) (k : Nat) (x : Quad) : (s.setQuad k x).rings = s.rings := rfl
@[simp] theorem State.setQuad_heads (s : State) (k : Nat) (x : Quad) : (s.setQuad k x).heads = s.heads := rfl
@[simp] theorem State.setQuad_lastWrite (s : State) (k : Nat) (x : Quad) : (s.setQuad k x).lastWrite = s.lastWrite := rfl
@[simp] theorem State.setQuad_maps (s : State) (k : Nat) (x : Quad) : (s.setQuad k x).maps = s.maps := rfl
@[simp] theorem State.setQuad_hres (s : State) (k : Nat) (x : Quad) : (s.setQuad k x).hres = s.hres := rfl
@[simp] theorem State.setQuad_tlb (s : State) (k : Nat) (x : Quad) : (s.setQuad k x).tlb = s.tlb := rfl
@[simp] theorem State.setQuad_pend (s : State) (k : Nat) (x : Quad) : (s.setQuad k x).pend = s.pend := rfl
@[simp] theorem State.setQuad_counted (s : State) (k : Nat) (x : Quad) : (s.setQuad k x).counted = s.counted := rfl
@[simp] theorem State.setQuad_blocks (s : State) (k : Nat) (x : Quad) : (s.setQuad k x).blocks = s.blocks := rfl
@[simp] theorem State.setQuad_cores (s : State) (k : Nat) (x : Quad) : (s.setQuad k x).cores = s.cores := rfl
@[simp] theorem State.setQuad_ctxs (s : State) (k : Nat) (x : Quad) : (s.setQuad k x).ctxs = s.ctxs := rfl
@[simp] theorem State.setQuad_kernels (s : State) (k : Nat) (x : Quad) : (s.setQuad k x).kernels = s.kernels := rfl
@[simp] theorem State.setQuad_teams (s : State) (k : Nat) (x : Quad) : (s.setQuad k x).teams = s.teams := rfl
@[simp] theorem State.setQuad_units (s : State) (k : Nat) (x : Quad) : (s.setQuad k x).units = s.units := rfl
@[simp] theorem State.setQuad_log (s : State) (k : Nat) (x : Quad) : (s.setQuad k x).log = s.log := rfl
@[simp] theorem State.setQuad_logNext (s : State) (k : Nat) (x : Quad) : (s.setQuad k x).logNext = s.logNext := rfl
@[simp] theorem State.setQuad_logNew (s : State) (k : Nat) (x : Quad) : (s.setQuad k x).logNew = s.logNew := rfl
@[simp] theorem State.setQuad_traced (s : State) (k : Nat) (x : Quad) : (s.setQuad k x).traced = s.traced := rfl
@[simp] theorem State.setQuad_members (s : State) (k : Nat) (x : Quad) : (s.setQuad k x).members = s.members := rfl
@[simp] theorem State.setQuad_peerDusk (s : State) (k : Nat) (x : Quad) : (s.setQuad k x).peerDusk = s.peerDusk := rfl
@[simp] theorem State.setQuad_retained (s : State) (k : Nat) (x : Quad) : (s.setQuad k x).retained = s.retained := rfl
@[simp] theorem State.setQuad_e2eOut (s : State) (k : Nat) (x : Quad) : (s.setQuad k x).e2eOut = s.e2eOut := rfl
@[simp] theorem State.setQuad_e2eIn (s : State) (k : Nat) (x : Quad) : (s.setQuad k x).e2eIn = s.e2eIn := rfl
@[simp] theorem State.setQuad_out (s : State) (k : Nat) (x : Quad) : (s.setQuad k x).out = s.out := rfl
@[simp] theorem State.setQuad_receipts (s : State) (k : Nat) (x : Quad) : (s.setQuad k x).receipts = s.receipts := rfl
@[simp] theorem State.setQuad_past (s : State) (k : Nat) (x : Quad) : (s.setQuad k x).past = s.past := rfl
@[simp] theorem State.setQuad_hostq (s : State) (k : Nat) (x : Quad) : (s.setQuad k x).hostq = s.hostq := rfl
@[simp] theorem State.setQuad_noted (s : State) (k : Nat) (x : Quad) : (s.setQuad k x).noted = s.noted := rfl
@[simp] theorem State.setQuad_tlbCmd (s : State) (k : Nat) (x : Quad) : (s.setQuad k x).tlbCmd = s.tlbCmd := rfl
@[simp] theorem State.setQuad_logged (s : State) (k : Nat) (x : Quad) : (s.setQuad k x).logged = s.logged := rfl
@[simp] theorem State.setQuad_logChain (s : State) (k : Nat) (x : Quad) : (s.setQuad k x).logChain = s.logChain := rfl
@[simp] theorem State.setQuad_ports (s : State) (k : Nat) (x : Quad) : (s.setQuad k x).ports = s.ports := rfl
@[simp] theorem State.setQuad_queues (s : State) (k : Nat) (x : Quad) : (s.setQuad k x).queues = s.queues := rfl
@[simp] theorem State.setQuad_held (s : State) (k : Nat) (x : Quad) : (s.setQuad k x).held = s.held := rfl
@[simp] theorem State.setQuad_acts (s : State) (k : Nat) (x : Quad) : (s.setQuad k x).acts = s.acts := rfl
@[simp] theorem State.setQuad_vesper (s : State) (k : Nat) (x : Quad) : (s.setQuad k x).vesper = s.vesper := rfl
@[simp] theorem State.setQuad_island (s : State) (k : Nat) (x : Quad) : (s.setQuad k x).island = s.island := rfl
@[simp] theorem State.setQuad_hosts (s : State) (k : Nat) (x : Quad) : (s.setQuad k x).hosts = s.hosts := rfl
@[simp] theorem State.setQuad_replies (s : State) (k : Nat) (x : Quad) : (s.setQuad k x).replies = s.replies := rfl
@[simp] theorem State.setQuad_placeLog (s : State) (k : Nat) (x : Quad) : (s.setQuad k x).placeLog = s.placeLog := rfl
@[simp] theorem State.setQuad_hretain (s : State) (k : Nat) (x : Quad) : (s.setQuad k x).hretain = s.hretain := rfl
@[simp] theorem State.setQuad_seriesk (s : State) (k : Nat) (x : Quad) : (s.setQuad k x).seriesk = s.seriesk := rfl
@[simp] theorem State.setQuad_retrain (s : State) (k : Nat) (x : Quad) : (s.setQuad k x).retrain = s.retrain := rfl
@[simp] theorem State.setQuad_stopat (s : State) (k : Nat) (x : Quad) : (s.setQuad k x).stopat = s.stopat := rfl
@[simp] theorem State.setQuad_serBase (s : State) (k : Nat) (x : Quad) : (s.setQuad k x).serBase = s.serBase := rfl
@[simp] theorem State.setQuad_serSize (s : State) (k : Nat) (x : Quad) : (s.setQuad k x).serSize = s.serSize := rfl
@[simp] theorem State.setQuad_serSeq (s : State) (k : Nat) (x : Quad) : (s.setQuad k x).serSeq = s.serSeq := rfl
@[simp] theorem State.setQuad_serLast (s : State) (k : Nat) (x : Quad) : (s.setQuad k x).serLast = s.serLast := rfl
@[simp] theorem State.setQuad_stopped (s : State) (k : Nat) (x : Quad) : (s.setQuad k x).stopped = s.stopped := rfl
@[simp] theorem State.setQuad_stopTick (s : State) (k : Nat) (x : Quad) : (s.setQuad k x).stopTick = s.stopTick := rfl
@[simp] theorem State.setQuad_stopSet (s : State) (k : Nat) (x : Quad) : (s.setQuad k x).stopSet = s.stopSet := rfl
@[simp] theorem State.setQuad_resumeTick (s : State) (k : Nat) (x : Quad) : (s.setQuad k x).resumeTick = s.resumeTick := rfl
@[simp] theorem State.setQuad_at_blk (s : State) (k : Nat) (x : Quad) (n : Nat) : (s.setQuad k x).blk n = s.blk n := rfl
@[simp] theorem State.setQuad_at_grp (s : State) (k : Nat) (x : Quad) (n m : Nat) : (s.setQuad k x).grp n m = s.grp n m := rfl
@[simp] theorem State.setQuad_at_core (s : State) (k : Nat) (x : Quad) (n : Nat) : (s.setQuad k x).core n = s.core n := rfl
@[simp] theorem State.setQuad_at_ctx (s : State) (k : Nat) (x : Quad) (n : Nat) : (s.setQuad k x).ctx n = s.ctx n := rfl
@[simp] theorem State.setQuad_at_kernel (s : State) (k : Nat) (x : Quad) (n : Nat) : (s.setQuad k x).kernel n = s.kernel n := rfl
@[simp] theorem State.setQuad_at_team (s : State) (k : Nat) (x : Quad) (n : Nat) : (s.setQuad k x).team n = s.team n := rfl
@[simp] theorem State.setQuad_at_slice (s : State) (k : Nat) (x : Quad) (n : Nat) : (s.setQuad k x).slice n = s.slice n := rfl
@[simp] theorem State.setQuad_at_ring (s : State) (k : Nat) (x : Quad) (n : Nat) : (s.setQuad k x).ring n = s.ring n := rfl
@[simp] theorem State.setQuad_at_queue (s : State) (k : Nat) (x : Quad) (n : Nat) : (s.setQuad k x).queue n = s.queue n := rfl
@[simp] theorem State.setQuad_at_port (s : State) (k : Nat) (x : Quad) (n : Nat) : (s.setQuad k x).port n = s.port n := rfl
@[simp] theorem State.setQuad_at_host (s : State) (k : Nat) (x : Quad) (n : Nat) : (s.setQuad k x).host n = s.host n := rfl
@[simp] theorem State.setQuad_peerPins (s : State) (k : Nat) (x : Quad) : (s.setQuad k x).peerPins = s.peerPins := rfl
@[simp] theorem State.setQuad_duskNew (s : State) (k : Nat) (x : Quad) : (s.setQuad k x).duskNew = s.duskNew := rfl
@[simp] theorem State.setQuad_rx (s : State) (k : Nat) (x : Quad) : (s.setQuad k x).rx = s.rx := rfl
@[simp] theorem State.setQuad_wire (s : State) (k : Nat) (x : Quad) : (s.setQuad k x).wire = s.wire := rfl
@[simp] theorem State.setQuad_devSent (s : State) (k : Nat) (x : Quad) : (s.setQuad k x).devSent = s.devSent := rfl

/-! ## setPort -/

@[simp] theorem State.setPort_tick (s : State) (k : Nat) (x : Port) : (s.setPort k x).tick = s.tick := rfl
@[simp] theorem State.setPort_stampBase (s : State) (k : Nat) (x : Port) : (s.setPort k x).stampBase = s.stampBase := rfl
@[simp] theorem State.setPort_cycles (s : State) (k : Nat) (x : Port) : (s.setPort k x).cycles = s.cycles := rfl
@[simp] theorem State.setPort_clockK (s : State) (k : Nat) (x : Port) : (s.setPort k x).clockK = s.clockK := rfl
@[simp] theorem State.setPort_device (s : State) (k : Nat) (x : Port) : (s.setPort k x).device = s.device := rfl
@[simp] theorem State.setPort_agenda (s : State) (k : Nat) (x : Port) : (s.setPort k x).agenda = s.agenda := rfl
@[simp] theorem State.setPort_auto (s : State) (k : Nat) (x : Port) : (s.setPort k x).auto = s.auto := rfl
@[simp] theorem State.setPort_fresh (s : State) (k : Nat) (x : Port) : (s.setPort k x).fresh = s.fresh := rfl
@[simp] theorem State.setPort_cur (s : State) (k : Nat) (x : Port) : (s.setPort k x).cur = s.cur := rfl
@[simp] theorem State.setPort_mem (s : State) (k : Nat) (x : Port) : (s.setPort k x).mem = s.mem := rfl
@[simp] theorem State.setPort_lines (s : State) (k : Nat) (x : Port) : (s.setPort k x).lines = s.lines := rfl
@[simp] theorem State.setPort_pageGen (s : State) (k : Nat) (x : Port) : (s.setPort k x).pageGen = s.pageGen := rfl
@[simp] theorem State.setPort_poison (s : State) (k : Nat) (x : Port) : (s.setPort k x).poison = s.poison := rfl
@[simp] theorem State.setPort_slices (s : State) (k : Nat) (x : Port) : (s.setPort k x).slices = s.slices := rfl
@[simp] theorem State.setPort_rings (s : State) (k : Nat) (x : Port) : (s.setPort k x).rings = s.rings := rfl
@[simp] theorem State.setPort_heads (s : State) (k : Nat) (x : Port) : (s.setPort k x).heads = s.heads := rfl
@[simp] theorem State.setPort_lastWrite (s : State) (k : Nat) (x : Port) : (s.setPort k x).lastWrite = s.lastWrite := rfl
@[simp] theorem State.setPort_maps (s : State) (k : Nat) (x : Port) : (s.setPort k x).maps = s.maps := rfl
@[simp] theorem State.setPort_hres (s : State) (k : Nat) (x : Port) : (s.setPort k x).hres = s.hres := rfl
@[simp] theorem State.setPort_tlb (s : State) (k : Nat) (x : Port) : (s.setPort k x).tlb = s.tlb := rfl
@[simp] theorem State.setPort_pend (s : State) (k : Nat) (x : Port) : (s.setPort k x).pend = s.pend := rfl
@[simp] theorem State.setPort_counted (s : State) (k : Nat) (x : Port) : (s.setPort k x).counted = s.counted := rfl
@[simp] theorem State.setPort_blocks (s : State) (k : Nat) (x : Port) : (s.setPort k x).blocks = s.blocks := rfl
@[simp] theorem State.setPort_cores (s : State) (k : Nat) (x : Port) : (s.setPort k x).cores = s.cores := rfl
@[simp] theorem State.setPort_ctxs (s : State) (k : Nat) (x : Port) : (s.setPort k x).ctxs = s.ctxs := rfl
@[simp] theorem State.setPort_kernels (s : State) (k : Nat) (x : Port) : (s.setPort k x).kernels = s.kernels := rfl
@[simp] theorem State.setPort_teams (s : State) (k : Nat) (x : Port) : (s.setPort k x).teams = s.teams := rfl
@[simp] theorem State.setPort_units (s : State) (k : Nat) (x : Port) : (s.setPort k x).units = s.units := rfl
@[simp] theorem State.setPort_log (s : State) (k : Nat) (x : Port) : (s.setPort k x).log = s.log := rfl
@[simp] theorem State.setPort_logNext (s : State) (k : Nat) (x : Port) : (s.setPort k x).logNext = s.logNext := rfl
@[simp] theorem State.setPort_logNew (s : State) (k : Nat) (x : Port) : (s.setPort k x).logNew = s.logNew := rfl
@[simp] theorem State.setPort_traced (s : State) (k : Nat) (x : Port) : (s.setPort k x).traced = s.traced := rfl
@[simp] theorem State.setPort_members (s : State) (k : Nat) (x : Port) : (s.setPort k x).members = s.members := rfl
@[simp] theorem State.setPort_peerDusk (s : State) (k : Nat) (x : Port) : (s.setPort k x).peerDusk = s.peerDusk := rfl
@[simp] theorem State.setPort_retained (s : State) (k : Nat) (x : Port) : (s.setPort k x).retained = s.retained := rfl
@[simp] theorem State.setPort_e2eOut (s : State) (k : Nat) (x : Port) : (s.setPort k x).e2eOut = s.e2eOut := rfl
@[simp] theorem State.setPort_e2eIn (s : State) (k : Nat) (x : Port) : (s.setPort k x).e2eIn = s.e2eIn := rfl
@[simp] theorem State.setPort_out (s : State) (k : Nat) (x : Port) : (s.setPort k x).out = s.out := rfl
@[simp] theorem State.setPort_receipts (s : State) (k : Nat) (x : Port) : (s.setPort k x).receipts = s.receipts := rfl
@[simp] theorem State.setPort_past (s : State) (k : Nat) (x : Port) : (s.setPort k x).past = s.past := rfl
@[simp] theorem State.setPort_hostq (s : State) (k : Nat) (x : Port) : (s.setPort k x).hostq = s.hostq := rfl
@[simp] theorem State.setPort_noted (s : State) (k : Nat) (x : Port) : (s.setPort k x).noted = s.noted := rfl
@[simp] theorem State.setPort_tlbCmd (s : State) (k : Nat) (x : Port) : (s.setPort k x).tlbCmd = s.tlbCmd := rfl
@[simp] theorem State.setPort_logged (s : State) (k : Nat) (x : Port) : (s.setPort k x).logged = s.logged := rfl
@[simp] theorem State.setPort_logChain (s : State) (k : Nat) (x : Port) : (s.setPort k x).logChain = s.logChain := rfl
@[simp] theorem State.setPort_queues (s : State) (k : Nat) (x : Port) : (s.setPort k x).queues = s.queues := rfl
@[simp] theorem State.setPort_held (s : State) (k : Nat) (x : Port) : (s.setPort k x).held = s.held := rfl
@[simp] theorem State.setPort_acts (s : State) (k : Nat) (x : Port) : (s.setPort k x).acts = s.acts := rfl
@[simp] theorem State.setPort_vesper (s : State) (k : Nat) (x : Port) : (s.setPort k x).vesper = s.vesper := rfl
@[simp] theorem State.setPort_island (s : State) (k : Nat) (x : Port) : (s.setPort k x).island = s.island := rfl
@[simp] theorem State.setPort_hosts (s : State) (k : Nat) (x : Port) : (s.setPort k x).hosts = s.hosts := rfl
@[simp] theorem State.setPort_replies (s : State) (k : Nat) (x : Port) : (s.setPort k x).replies = s.replies := rfl
@[simp] theorem State.setPort_quads (s : State) (k : Nat) (x : Port) : (s.setPort k x).quads = s.quads := rfl
@[simp] theorem State.setPort_placeLog (s : State) (k : Nat) (x : Port) : (s.setPort k x).placeLog = s.placeLog := rfl
@[simp] theorem State.setPort_hretain (s : State) (k : Nat) (x : Port) : (s.setPort k x).hretain = s.hretain := rfl
@[simp] theorem State.setPort_seriesk (s : State) (k : Nat) (x : Port) : (s.setPort k x).seriesk = s.seriesk := rfl
@[simp] theorem State.setPort_retrain (s : State) (k : Nat) (x : Port) : (s.setPort k x).retrain = s.retrain := rfl
@[simp] theorem State.setPort_stopat (s : State) (k : Nat) (x : Port) : (s.setPort k x).stopat = s.stopat := rfl
@[simp] theorem State.setPort_serBase (s : State) (k : Nat) (x : Port) : (s.setPort k x).serBase = s.serBase := rfl
@[simp] theorem State.setPort_serSize (s : State) (k : Nat) (x : Port) : (s.setPort k x).serSize = s.serSize := rfl
@[simp] theorem State.setPort_serSeq (s : State) (k : Nat) (x : Port) : (s.setPort k x).serSeq = s.serSeq := rfl
@[simp] theorem State.setPort_serLast (s : State) (k : Nat) (x : Port) : (s.setPort k x).serLast = s.serLast := rfl
@[simp] theorem State.setPort_stopped (s : State) (k : Nat) (x : Port) : (s.setPort k x).stopped = s.stopped := rfl
@[simp] theorem State.setPort_stopTick (s : State) (k : Nat) (x : Port) : (s.setPort k x).stopTick = s.stopTick := rfl
@[simp] theorem State.setPort_stopSet (s : State) (k : Nat) (x : Port) : (s.setPort k x).stopSet = s.stopSet := rfl
@[simp] theorem State.setPort_resumeTick (s : State) (k : Nat) (x : Port) : (s.setPort k x).resumeTick = s.resumeTick := rfl
@[simp] theorem State.setPort_at_blk (s : State) (k : Nat) (x : Port) (n : Nat) : (s.setPort k x).blk n = s.blk n := rfl
@[simp] theorem State.setPort_at_grp (s : State) (k : Nat) (x : Port) (n m : Nat) : (s.setPort k x).grp n m = s.grp n m := rfl
@[simp] theorem State.setPort_at_core (s : State) (k : Nat) (x : Port) (n : Nat) : (s.setPort k x).core n = s.core n := rfl
@[simp] theorem State.setPort_at_ctx (s : State) (k : Nat) (x : Port) (n : Nat) : (s.setPort k x).ctx n = s.ctx n := rfl
@[simp] theorem State.setPort_at_kernel (s : State) (k : Nat) (x : Port) (n : Nat) : (s.setPort k x).kernel n = s.kernel n := rfl
@[simp] theorem State.setPort_at_team (s : State) (k : Nat) (x : Port) (n : Nat) : (s.setPort k x).team n = s.team n := rfl
@[simp] theorem State.setPort_at_slice (s : State) (k : Nat) (x : Port) (n : Nat) : (s.setPort k x).slice n = s.slice n := rfl
@[simp] theorem State.setPort_at_ring (s : State) (k : Nat) (x : Port) (n : Nat) : (s.setPort k x).ring n = s.ring n := rfl
@[simp] theorem State.setPort_at_queue (s : State) (k : Nat) (x : Port) (n : Nat) : (s.setPort k x).queue n = s.queue n := rfl
@[simp] theorem State.setPort_at_quad (s : State) (k : Nat) (x : Port) (n : Nat) : (s.setPort k x).quad n = s.quad n := rfl
@[simp] theorem State.setPort_at_host (s : State) (k : Nat) (x : Port) (n : Nat) : (s.setPort k x).host n = s.host n := rfl
@[simp] theorem State.setPort_peerPins (s : State) (k : Nat) (x : Port) : (s.setPort k x).peerPins = s.peerPins := rfl
@[simp] theorem State.setPort_duskNew (s : State) (k : Nat) (x : Port) : (s.setPort k x).duskNew = s.duskNew := rfl
@[simp] theorem State.setPort_rx (s : State) (k : Nat) (x : Port) : (s.setPort k x).rx = s.rx := rfl
@[simp] theorem State.setPort_wire (s : State) (k : Nat) (x : Port) : (s.setPort k x).wire = s.wire := rfl
@[simp] theorem State.setPort_devSent (s : State) (k : Nat) (x : Port) : (s.setPort k x).devSent = s.devSent := rfl

/-! ## setHost -/

@[simp] theorem State.setHost_tick (s : State) (k : Nat) (x : HostW) : (s.setHost k x).tick = s.tick := rfl
@[simp] theorem State.setHost_stampBase (s : State) (k : Nat) (x : HostW) : (s.setHost k x).stampBase = s.stampBase := rfl
@[simp] theorem State.setHost_cycles (s : State) (k : Nat) (x : HostW) : (s.setHost k x).cycles = s.cycles := rfl
@[simp] theorem State.setHost_clockK (s : State) (k : Nat) (x : HostW) : (s.setHost k x).clockK = s.clockK := rfl
@[simp] theorem State.setHost_device (s : State) (k : Nat) (x : HostW) : (s.setHost k x).device = s.device := rfl
@[simp] theorem State.setHost_agenda (s : State) (k : Nat) (x : HostW) : (s.setHost k x).agenda = s.agenda := rfl
@[simp] theorem State.setHost_auto (s : State) (k : Nat) (x : HostW) : (s.setHost k x).auto = s.auto := rfl
@[simp] theorem State.setHost_fresh (s : State) (k : Nat) (x : HostW) : (s.setHost k x).fresh = s.fresh := rfl
@[simp] theorem State.setHost_cur (s : State) (k : Nat) (x : HostW) : (s.setHost k x).cur = s.cur := rfl
@[simp] theorem State.setHost_mem (s : State) (k : Nat) (x : HostW) : (s.setHost k x).mem = s.mem := rfl
@[simp] theorem State.setHost_lines (s : State) (k : Nat) (x : HostW) : (s.setHost k x).lines = s.lines := rfl
@[simp] theorem State.setHost_pageGen (s : State) (k : Nat) (x : HostW) : (s.setHost k x).pageGen = s.pageGen := rfl
@[simp] theorem State.setHost_poison (s : State) (k : Nat) (x : HostW) : (s.setHost k x).poison = s.poison := rfl
@[simp] theorem State.setHost_slices (s : State) (k : Nat) (x : HostW) : (s.setHost k x).slices = s.slices := rfl
@[simp] theorem State.setHost_rings (s : State) (k : Nat) (x : HostW) : (s.setHost k x).rings = s.rings := rfl
@[simp] theorem State.setHost_heads (s : State) (k : Nat) (x : HostW) : (s.setHost k x).heads = s.heads := rfl
@[simp] theorem State.setHost_lastWrite (s : State) (k : Nat) (x : HostW) : (s.setHost k x).lastWrite = s.lastWrite := rfl
@[simp] theorem State.setHost_maps (s : State) (k : Nat) (x : HostW) : (s.setHost k x).maps = s.maps := rfl
@[simp] theorem State.setHost_hres (s : State) (k : Nat) (x : HostW) : (s.setHost k x).hres = s.hres := rfl
@[simp] theorem State.setHost_tlb (s : State) (k : Nat) (x : HostW) : (s.setHost k x).tlb = s.tlb := rfl
@[simp] theorem State.setHost_pend (s : State) (k : Nat) (x : HostW) : (s.setHost k x).pend = s.pend := rfl
@[simp] theorem State.setHost_counted (s : State) (k : Nat) (x : HostW) : (s.setHost k x).counted = s.counted := rfl
@[simp] theorem State.setHost_blocks (s : State) (k : Nat) (x : HostW) : (s.setHost k x).blocks = s.blocks := rfl
@[simp] theorem State.setHost_cores (s : State) (k : Nat) (x : HostW) : (s.setHost k x).cores = s.cores := rfl
@[simp] theorem State.setHost_ctxs (s : State) (k : Nat) (x : HostW) : (s.setHost k x).ctxs = s.ctxs := rfl
@[simp] theorem State.setHost_kernels (s : State) (k : Nat) (x : HostW) : (s.setHost k x).kernels = s.kernels := rfl
@[simp] theorem State.setHost_teams (s : State) (k : Nat) (x : HostW) : (s.setHost k x).teams = s.teams := rfl
@[simp] theorem State.setHost_units (s : State) (k : Nat) (x : HostW) : (s.setHost k x).units = s.units := rfl
@[simp] theorem State.setHost_log (s : State) (k : Nat) (x : HostW) : (s.setHost k x).log = s.log := rfl
@[simp] theorem State.setHost_logNext (s : State) (k : Nat) (x : HostW) : (s.setHost k x).logNext = s.logNext := rfl
@[simp] theorem State.setHost_logNew (s : State) (k : Nat) (x : HostW) : (s.setHost k x).logNew = s.logNew := rfl
@[simp] theorem State.setHost_traced (s : State) (k : Nat) (x : HostW) : (s.setHost k x).traced = s.traced := rfl
@[simp] theorem State.setHost_members (s : State) (k : Nat) (x : HostW) : (s.setHost k x).members = s.members := rfl
@[simp] theorem State.setHost_peerDusk (s : State) (k : Nat) (x : HostW) : (s.setHost k x).peerDusk = s.peerDusk := rfl
@[simp] theorem State.setHost_retained (s : State) (k : Nat) (x : HostW) : (s.setHost k x).retained = s.retained := rfl
@[simp] theorem State.setHost_e2eOut (s : State) (k : Nat) (x : HostW) : (s.setHost k x).e2eOut = s.e2eOut := rfl
@[simp] theorem State.setHost_e2eIn (s : State) (k : Nat) (x : HostW) : (s.setHost k x).e2eIn = s.e2eIn := rfl
@[simp] theorem State.setHost_out (s : State) (k : Nat) (x : HostW) : (s.setHost k x).out = s.out := rfl
@[simp] theorem State.setHost_receipts (s : State) (k : Nat) (x : HostW) : (s.setHost k x).receipts = s.receipts := rfl
@[simp] theorem State.setHost_past (s : State) (k : Nat) (x : HostW) : (s.setHost k x).past = s.past := rfl
@[simp] theorem State.setHost_hostq (s : State) (k : Nat) (x : HostW) : (s.setHost k x).hostq = s.hostq := rfl
@[simp] theorem State.setHost_noted (s : State) (k : Nat) (x : HostW) : (s.setHost k x).noted = s.noted := rfl
@[simp] theorem State.setHost_tlbCmd (s : State) (k : Nat) (x : HostW) : (s.setHost k x).tlbCmd = s.tlbCmd := rfl
@[simp] theorem State.setHost_logged (s : State) (k : Nat) (x : HostW) : (s.setHost k x).logged = s.logged := rfl
@[simp] theorem State.setHost_logChain (s : State) (k : Nat) (x : HostW) : (s.setHost k x).logChain = s.logChain := rfl
@[simp] theorem State.setHost_ports (s : State) (k : Nat) (x : HostW) : (s.setHost k x).ports = s.ports := rfl
@[simp] theorem State.setHost_queues (s : State) (k : Nat) (x : HostW) : (s.setHost k x).queues = s.queues := rfl
@[simp] theorem State.setHost_held (s : State) (k : Nat) (x : HostW) : (s.setHost k x).held = s.held := rfl
@[simp] theorem State.setHost_acts (s : State) (k : Nat) (x : HostW) : (s.setHost k x).acts = s.acts := rfl
@[simp] theorem State.setHost_vesper (s : State) (k : Nat) (x : HostW) : (s.setHost k x).vesper = s.vesper := rfl
@[simp] theorem State.setHost_island (s : State) (k : Nat) (x : HostW) : (s.setHost k x).island = s.island := rfl
@[simp] theorem State.setHost_replies (s : State) (k : Nat) (x : HostW) : (s.setHost k x).replies = s.replies := rfl
@[simp] theorem State.setHost_quads (s : State) (k : Nat) (x : HostW) : (s.setHost k x).quads = s.quads := rfl
@[simp] theorem State.setHost_placeLog (s : State) (k : Nat) (x : HostW) : (s.setHost k x).placeLog = s.placeLog := rfl
@[simp] theorem State.setHost_hretain (s : State) (k : Nat) (x : HostW) : (s.setHost k x).hretain = s.hretain := rfl
@[simp] theorem State.setHost_seriesk (s : State) (k : Nat) (x : HostW) : (s.setHost k x).seriesk = s.seriesk := rfl
@[simp] theorem State.setHost_retrain (s : State) (k : Nat) (x : HostW) : (s.setHost k x).retrain = s.retrain := rfl
@[simp] theorem State.setHost_stopat (s : State) (k : Nat) (x : HostW) : (s.setHost k x).stopat = s.stopat := rfl
@[simp] theorem State.setHost_serBase (s : State) (k : Nat) (x : HostW) : (s.setHost k x).serBase = s.serBase := rfl
@[simp] theorem State.setHost_serSize (s : State) (k : Nat) (x : HostW) : (s.setHost k x).serSize = s.serSize := rfl
@[simp] theorem State.setHost_serSeq (s : State) (k : Nat) (x : HostW) : (s.setHost k x).serSeq = s.serSeq := rfl
@[simp] theorem State.setHost_serLast (s : State) (k : Nat) (x : HostW) : (s.setHost k x).serLast = s.serLast := rfl
@[simp] theorem State.setHost_stopped (s : State) (k : Nat) (x : HostW) : (s.setHost k x).stopped = s.stopped := rfl
@[simp] theorem State.setHost_stopTick (s : State) (k : Nat) (x : HostW) : (s.setHost k x).stopTick = s.stopTick := rfl
@[simp] theorem State.setHost_stopSet (s : State) (k : Nat) (x : HostW) : (s.setHost k x).stopSet = s.stopSet := rfl
@[simp] theorem State.setHost_resumeTick (s : State) (k : Nat) (x : HostW) : (s.setHost k x).resumeTick = s.resumeTick := rfl
@[simp] theorem State.setHost_at_blk (s : State) (k : Nat) (x : HostW) (n : Nat) : (s.setHost k x).blk n = s.blk n := rfl
@[simp] theorem State.setHost_at_grp (s : State) (k : Nat) (x : HostW) (n m : Nat) : (s.setHost k x).grp n m = s.grp n m := rfl
@[simp] theorem State.setHost_at_core (s : State) (k : Nat) (x : HostW) (n : Nat) : (s.setHost k x).core n = s.core n := rfl
@[simp] theorem State.setHost_at_ctx (s : State) (k : Nat) (x : HostW) (n : Nat) : (s.setHost k x).ctx n = s.ctx n := rfl
@[simp] theorem State.setHost_at_kernel (s : State) (k : Nat) (x : HostW) (n : Nat) : (s.setHost k x).kernel n = s.kernel n := rfl
@[simp] theorem State.setHost_at_team (s : State) (k : Nat) (x : HostW) (n : Nat) : (s.setHost k x).team n = s.team n := rfl
@[simp] theorem State.setHost_at_slice (s : State) (k : Nat) (x : HostW) (n : Nat) : (s.setHost k x).slice n = s.slice n := rfl
@[simp] theorem State.setHost_at_ring (s : State) (k : Nat) (x : HostW) (n : Nat) : (s.setHost k x).ring n = s.ring n := rfl
@[simp] theorem State.setHost_at_queue (s : State) (k : Nat) (x : HostW) (n : Nat) : (s.setHost k x).queue n = s.queue n := rfl
@[simp] theorem State.setHost_at_quad (s : State) (k : Nat) (x : HostW) (n : Nat) : (s.setHost k x).quad n = s.quad n := rfl
@[simp] theorem State.setHost_at_port (s : State) (k : Nat) (x : HostW) (n : Nat) : (s.setHost k x).port n = s.port n := rfl
@[simp] theorem State.setHost_peerPins (s : State) (k : Nat) (x : HostW) : (s.setHost k x).peerPins = s.peerPins := rfl
@[simp] theorem State.setHost_duskNew (s : State) (k : Nat) (x : HostW) : (s.setHost k x).duskNew = s.duskNew := rfl
@[simp] theorem State.setHost_rx (s : State) (k : Nat) (x : HostW) : (s.setHost k x).rx = s.rx := rfl
@[simp] theorem State.setHost_wire (s : State) (k : Nat) (x : HostW) : (s.setHost k x).wire = s.wire := rfl
@[simp] theorem State.setHost_devSent (s : State) (k : Nat) (x : HostW) : (s.setHost k x).devSent = s.devSent := rfl

/-! ## unitAdd -/

@[simp] theorem State.unitAdd_tick (s : State) (unit idx x : Nat) : (s.unitAdd unit idx x).tick = s.tick := rfl
@[simp] theorem State.unitAdd_stampBase (s : State) (unit idx x : Nat) : (s.unitAdd unit idx x).stampBase = s.stampBase := rfl
@[simp] theorem State.unitAdd_cycles (s : State) (unit idx x : Nat) : (s.unitAdd unit idx x).cycles = s.cycles := rfl
@[simp] theorem State.unitAdd_clockK (s : State) (unit idx x : Nat) : (s.unitAdd unit idx x).clockK = s.clockK := rfl
@[simp] theorem State.unitAdd_device (s : State) (unit idx x : Nat) : (s.unitAdd unit idx x).device = s.device := rfl
@[simp] theorem State.unitAdd_agenda (s : State) (unit idx x : Nat) : (s.unitAdd unit idx x).agenda = s.agenda := rfl
@[simp] theorem State.unitAdd_auto (s : State) (unit idx x : Nat) : (s.unitAdd unit idx x).auto = s.auto := rfl
@[simp] theorem State.unitAdd_fresh (s : State) (unit idx x : Nat) : (s.unitAdd unit idx x).fresh = s.fresh := rfl
@[simp] theorem State.unitAdd_cur (s : State) (unit idx x : Nat) : (s.unitAdd unit idx x).cur = s.cur := rfl
@[simp] theorem State.unitAdd_mem (s : State) (unit idx x : Nat) : (s.unitAdd unit idx x).mem = s.mem := rfl
@[simp] theorem State.unitAdd_lines (s : State) (unit idx x : Nat) : (s.unitAdd unit idx x).lines = s.lines := rfl
@[simp] theorem State.unitAdd_pageGen (s : State) (unit idx x : Nat) : (s.unitAdd unit idx x).pageGen = s.pageGen := rfl
@[simp] theorem State.unitAdd_poison (s : State) (unit idx x : Nat) : (s.unitAdd unit idx x).poison = s.poison := rfl
@[simp] theorem State.unitAdd_slices (s : State) (unit idx x : Nat) : (s.unitAdd unit idx x).slices = s.slices := rfl
@[simp] theorem State.unitAdd_rings (s : State) (unit idx x : Nat) : (s.unitAdd unit idx x).rings = s.rings := rfl
@[simp] theorem State.unitAdd_heads (s : State) (unit idx x : Nat) : (s.unitAdd unit idx x).heads = s.heads := rfl
@[simp] theorem State.unitAdd_lastWrite (s : State) (unit idx x : Nat) : (s.unitAdd unit idx x).lastWrite = s.lastWrite := rfl
@[simp] theorem State.unitAdd_maps (s : State) (unit idx x : Nat) : (s.unitAdd unit idx x).maps = s.maps := rfl
@[simp] theorem State.unitAdd_hres (s : State) (unit idx x : Nat) : (s.unitAdd unit idx x).hres = s.hres := rfl
@[simp] theorem State.unitAdd_tlb (s : State) (unit idx x : Nat) : (s.unitAdd unit idx x).tlb = s.tlb := rfl
@[simp] theorem State.unitAdd_pend (s : State) (unit idx x : Nat) : (s.unitAdd unit idx x).pend = s.pend := rfl
@[simp] theorem State.unitAdd_counted (s : State) (unit idx x : Nat) : (s.unitAdd unit idx x).counted = s.counted := rfl
@[simp] theorem State.unitAdd_blocks (s : State) (unit idx x : Nat) : (s.unitAdd unit idx x).blocks = s.blocks := rfl
@[simp] theorem State.unitAdd_cores (s : State) (unit idx x : Nat) : (s.unitAdd unit idx x).cores = s.cores := rfl
@[simp] theorem State.unitAdd_ctxs (s : State) (unit idx x : Nat) : (s.unitAdd unit idx x).ctxs = s.ctxs := rfl
@[simp] theorem State.unitAdd_kernels (s : State) (unit idx x : Nat) : (s.unitAdd unit idx x).kernels = s.kernels := rfl
@[simp] theorem State.unitAdd_teams (s : State) (unit idx x : Nat) : (s.unitAdd unit idx x).teams = s.teams := rfl
@[simp] theorem State.unitAdd_log (s : State) (unit idx x : Nat) : (s.unitAdd unit idx x).log = s.log := rfl
@[simp] theorem State.unitAdd_logNext (s : State) (unit idx x : Nat) : (s.unitAdd unit idx x).logNext = s.logNext := rfl
@[simp] theorem State.unitAdd_logNew (s : State) (unit idx x : Nat) : (s.unitAdd unit idx x).logNew = s.logNew := rfl
@[simp] theorem State.unitAdd_traced (s : State) (unit idx x : Nat) : (s.unitAdd unit idx x).traced = s.traced := rfl
@[simp] theorem State.unitAdd_members (s : State) (unit idx x : Nat) : (s.unitAdd unit idx x).members = s.members := rfl
@[simp] theorem State.unitAdd_peerDusk (s : State) (unit idx x : Nat) : (s.unitAdd unit idx x).peerDusk = s.peerDusk := rfl
@[simp] theorem State.unitAdd_retained (s : State) (unit idx x : Nat) : (s.unitAdd unit idx x).retained = s.retained := rfl
@[simp] theorem State.unitAdd_e2eOut (s : State) (unit idx x : Nat) : (s.unitAdd unit idx x).e2eOut = s.e2eOut := rfl
@[simp] theorem State.unitAdd_e2eIn (s : State) (unit idx x : Nat) : (s.unitAdd unit idx x).e2eIn = s.e2eIn := rfl
@[simp] theorem State.unitAdd_out (s : State) (unit idx x : Nat) : (s.unitAdd unit idx x).out = s.out := rfl
@[simp] theorem State.unitAdd_receipts (s : State) (unit idx x : Nat) : (s.unitAdd unit idx x).receipts = s.receipts := rfl
@[simp] theorem State.unitAdd_past (s : State) (unit idx x : Nat) : (s.unitAdd unit idx x).past = s.past := rfl
@[simp] theorem State.unitAdd_hostq (s : State) (unit idx x : Nat) : (s.unitAdd unit idx x).hostq = s.hostq := rfl
@[simp] theorem State.unitAdd_noted (s : State) (unit idx x : Nat) : (s.unitAdd unit idx x).noted = s.noted := rfl
@[simp] theorem State.unitAdd_tlbCmd (s : State) (unit idx x : Nat) : (s.unitAdd unit idx x).tlbCmd = s.tlbCmd := rfl
@[simp] theorem State.unitAdd_logged (s : State) (unit idx x : Nat) : (s.unitAdd unit idx x).logged = s.logged := rfl
@[simp] theorem State.unitAdd_logChain (s : State) (unit idx x : Nat) : (s.unitAdd unit idx x).logChain = s.logChain := rfl
@[simp] theorem State.unitAdd_ports (s : State) (unit idx x : Nat) : (s.unitAdd unit idx x).ports = s.ports := rfl
@[simp] theorem State.unitAdd_queues (s : State) (unit idx x : Nat) : (s.unitAdd unit idx x).queues = s.queues := rfl
@[simp] theorem State.unitAdd_held (s : State) (unit idx x : Nat) : (s.unitAdd unit idx x).held = s.held := rfl
@[simp] theorem State.unitAdd_acts (s : State) (unit idx x : Nat) : (s.unitAdd unit idx x).acts = s.acts := rfl
@[simp] theorem State.unitAdd_vesper (s : State) (unit idx x : Nat) : (s.unitAdd unit idx x).vesper = s.vesper := rfl
@[simp] theorem State.unitAdd_island (s : State) (unit idx x : Nat) : (s.unitAdd unit idx x).island = s.island := rfl
@[simp] theorem State.unitAdd_hosts (s : State) (unit idx x : Nat) : (s.unitAdd unit idx x).hosts = s.hosts := rfl
@[simp] theorem State.unitAdd_replies (s : State) (unit idx x : Nat) : (s.unitAdd unit idx x).replies = s.replies := rfl
@[simp] theorem State.unitAdd_quads (s : State) (unit idx x : Nat) : (s.unitAdd unit idx x).quads = s.quads := rfl
@[simp] theorem State.unitAdd_placeLog (s : State) (unit idx x : Nat) : (s.unitAdd unit idx x).placeLog = s.placeLog := rfl
@[simp] theorem State.unitAdd_hretain (s : State) (unit idx x : Nat) : (s.unitAdd unit idx x).hretain = s.hretain := rfl
@[simp] theorem State.unitAdd_seriesk (s : State) (unit idx x : Nat) : (s.unitAdd unit idx x).seriesk = s.seriesk := rfl
@[simp] theorem State.unitAdd_retrain (s : State) (unit idx x : Nat) : (s.unitAdd unit idx x).retrain = s.retrain := rfl
@[simp] theorem State.unitAdd_stopat (s : State) (unit idx x : Nat) : (s.unitAdd unit idx x).stopat = s.stopat := rfl
@[simp] theorem State.unitAdd_serBase (s : State) (unit idx x : Nat) : (s.unitAdd unit idx x).serBase = s.serBase := rfl
@[simp] theorem State.unitAdd_serSize (s : State) (unit idx x : Nat) : (s.unitAdd unit idx x).serSize = s.serSize := rfl
@[simp] theorem State.unitAdd_serSeq (s : State) (unit idx x : Nat) : (s.unitAdd unit idx x).serSeq = s.serSeq := rfl
@[simp] theorem State.unitAdd_serLast (s : State) (unit idx x : Nat) : (s.unitAdd unit idx x).serLast = s.serLast := rfl
@[simp] theorem State.unitAdd_stopped (s : State) (unit idx x : Nat) : (s.unitAdd unit idx x).stopped = s.stopped := rfl
@[simp] theorem State.unitAdd_stopTick (s : State) (unit idx x : Nat) : (s.unitAdd unit idx x).stopTick = s.stopTick := rfl
@[simp] theorem State.unitAdd_stopSet (s : State) (unit idx x : Nat) : (s.unitAdd unit idx x).stopSet = s.stopSet := rfl
@[simp] theorem State.unitAdd_resumeTick (s : State) (unit idx x : Nat) : (s.unitAdd unit idx x).resumeTick = s.resumeTick := rfl
@[simp] theorem State.unitAdd_at_blk (s : State) (unit idx x : Nat) (n : Nat) : (s.unitAdd unit idx x).blk n = s.blk n := rfl
@[simp] theorem State.unitAdd_at_grp (s : State) (unit idx x : Nat) (n m : Nat) : (s.unitAdd unit idx x).grp n m = s.grp n m := rfl
@[simp] theorem State.unitAdd_at_core (s : State) (unit idx x : Nat) (n : Nat) : (s.unitAdd unit idx x).core n = s.core n := rfl
@[simp] theorem State.unitAdd_at_ctx (s : State) (unit idx x : Nat) (n : Nat) : (s.unitAdd unit idx x).ctx n = s.ctx n := rfl
@[simp] theorem State.unitAdd_at_kernel (s : State) (unit idx x : Nat) (n : Nat) : (s.unitAdd unit idx x).kernel n = s.kernel n := rfl
@[simp] theorem State.unitAdd_at_team (s : State) (unit idx x : Nat) (n : Nat) : (s.unitAdd unit idx x).team n = s.team n := rfl
@[simp] theorem State.unitAdd_at_slice (s : State) (unit idx x : Nat) (n : Nat) : (s.unitAdd unit idx x).slice n = s.slice n := rfl
@[simp] theorem State.unitAdd_at_ring (s : State) (unit idx x : Nat) (n : Nat) : (s.unitAdd unit idx x).ring n = s.ring n := rfl
@[simp] theorem State.unitAdd_at_queue (s : State) (unit idx x : Nat) (n : Nat) : (s.unitAdd unit idx x).queue n = s.queue n := rfl
@[simp] theorem State.unitAdd_at_quad (s : State) (unit idx x : Nat) (n : Nat) : (s.unitAdd unit idx x).quad n = s.quad n := rfl
@[simp] theorem State.unitAdd_at_port (s : State) (unit idx x : Nat) (n : Nat) : (s.unitAdd unit idx x).port n = s.port n := rfl
@[simp] theorem State.unitAdd_at_host (s : State) (unit idx x : Nat) (n : Nat) : (s.unitAdd unit idx x).host n = s.host n := rfl
@[simp] theorem State.unitAdd_peerPins (s : State) (unit idx x : Nat) : (s.unitAdd unit idx x).peerPins = s.peerPins := rfl
@[simp] theorem State.unitAdd_duskNew (s : State) (unit idx x : Nat) : (s.unitAdd unit idx x).duskNew = s.duskNew := rfl
@[simp] theorem State.unitAdd_rx (s : State) (unit idx x : Nat) : (s.unitAdd unit idx x).rx = s.rx := rfl
@[simp] theorem State.unitAdd_wire (s : State) (unit idx x : Nat) : (s.unitAdd unit idx x).wire = s.wire := rfl
@[simp] theorem State.unitAdd_devSent (s : State) (unit idx x : Nat) : (s.unitAdd unit idx x).devSent = s.devSent := rfl

/-! ## count -/

@[simp] theorem State.count_tick (s : State) (k ev x : Nat) : (s.count k ev x).tick = s.tick := rfl
@[simp] theorem State.count_stampBase (s : State) (k ev x : Nat) : (s.count k ev x).stampBase = s.stampBase := rfl
@[simp] theorem State.count_cycles (s : State) (k ev x : Nat) : (s.count k ev x).cycles = s.cycles := rfl
@[simp] theorem State.count_clockK (s : State) (k ev x : Nat) : (s.count k ev x).clockK = s.clockK := rfl
@[simp] theorem State.count_device (s : State) (k ev x : Nat) : (s.count k ev x).device = s.device := rfl
@[simp] theorem State.count_agenda (s : State) (k ev x : Nat) : (s.count k ev x).agenda = s.agenda := rfl
@[simp] theorem State.count_auto (s : State) (k ev x : Nat) : (s.count k ev x).auto = s.auto := rfl
@[simp] theorem State.count_fresh (s : State) (k ev x : Nat) : (s.count k ev x).fresh = s.fresh := rfl
@[simp] theorem State.count_cur (s : State) (k ev x : Nat) : (s.count k ev x).cur = s.cur := rfl
@[simp] theorem State.count_mem (s : State) (k ev x : Nat) : (s.count k ev x).mem = s.mem := rfl
@[simp] theorem State.count_lines (s : State) (k ev x : Nat) : (s.count k ev x).lines = s.lines := rfl
@[simp] theorem State.count_pageGen (s : State) (k ev x : Nat) : (s.count k ev x).pageGen = s.pageGen := rfl
@[simp] theorem State.count_poison (s : State) (k ev x : Nat) : (s.count k ev x).poison = s.poison := rfl
@[simp] theorem State.count_slices (s : State) (k ev x : Nat) : (s.count k ev x).slices = s.slices := rfl
@[simp] theorem State.count_rings (s : State) (k ev x : Nat) : (s.count k ev x).rings = s.rings := rfl
@[simp] theorem State.count_heads (s : State) (k ev x : Nat) : (s.count k ev x).heads = s.heads := rfl
@[simp] theorem State.count_lastWrite (s : State) (k ev x : Nat) : (s.count k ev x).lastWrite = s.lastWrite := rfl
@[simp] theorem State.count_maps (s : State) (k ev x : Nat) : (s.count k ev x).maps = s.maps := rfl
@[simp] theorem State.count_hres (s : State) (k ev x : Nat) : (s.count k ev x).hres = s.hres := rfl
@[simp] theorem State.count_tlb (s : State) (k ev x : Nat) : (s.count k ev x).tlb = s.tlb := rfl
@[simp] theorem State.count_pend (s : State) (k ev x : Nat) : (s.count k ev x).pend = s.pend := rfl
@[simp] theorem State.count_counted (s : State) (k ev x : Nat) : (s.count k ev x).counted = s.counted := rfl
@[simp] theorem State.count_blocks (s : State) (k ev x : Nat) : (s.count k ev x).blocks = s.blocks := rfl
@[simp] theorem State.count_cores (s : State) (k ev x : Nat) : (s.count k ev x).cores = s.cores := rfl
@[simp] theorem State.count_kernels (s : State) (k ev x : Nat) : (s.count k ev x).kernels = s.kernels := rfl
@[simp] theorem State.count_teams (s : State) (k ev x : Nat) : (s.count k ev x).teams = s.teams := rfl
@[simp] theorem State.count_units (s : State) (k ev x : Nat) : (s.count k ev x).units = s.units := rfl
@[simp] theorem State.count_log (s : State) (k ev x : Nat) : (s.count k ev x).log = s.log := rfl
@[simp] theorem State.count_logNext (s : State) (k ev x : Nat) : (s.count k ev x).logNext = s.logNext := rfl
@[simp] theorem State.count_logNew (s : State) (k ev x : Nat) : (s.count k ev x).logNew = s.logNew := rfl
@[simp] theorem State.count_traced (s : State) (k ev x : Nat) : (s.count k ev x).traced = s.traced := rfl
@[simp] theorem State.count_members (s : State) (k ev x : Nat) : (s.count k ev x).members = s.members := rfl
@[simp] theorem State.count_peerDusk (s : State) (k ev x : Nat) : (s.count k ev x).peerDusk = s.peerDusk := rfl
@[simp] theorem State.count_retained (s : State) (k ev x : Nat) : (s.count k ev x).retained = s.retained := rfl
@[simp] theorem State.count_e2eOut (s : State) (k ev x : Nat) : (s.count k ev x).e2eOut = s.e2eOut := rfl
@[simp] theorem State.count_e2eIn (s : State) (k ev x : Nat) : (s.count k ev x).e2eIn = s.e2eIn := rfl
@[simp] theorem State.count_out (s : State) (k ev x : Nat) : (s.count k ev x).out = s.out := rfl
@[simp] theorem State.count_receipts (s : State) (k ev x : Nat) : (s.count k ev x).receipts = s.receipts := rfl
@[simp] theorem State.count_past (s : State) (k ev x : Nat) : (s.count k ev x).past = s.past := rfl
@[simp] theorem State.count_hostq (s : State) (k ev x : Nat) : (s.count k ev x).hostq = s.hostq := rfl
@[simp] theorem State.count_noted (s : State) (k ev x : Nat) : (s.count k ev x).noted = s.noted := rfl
@[simp] theorem State.count_tlbCmd (s : State) (k ev x : Nat) : (s.count k ev x).tlbCmd = s.tlbCmd := rfl
@[simp] theorem State.count_logged (s : State) (k ev x : Nat) : (s.count k ev x).logged = s.logged := rfl
@[simp] theorem State.count_logChain (s : State) (k ev x : Nat) : (s.count k ev x).logChain = s.logChain := rfl
@[simp] theorem State.count_ports (s : State) (k ev x : Nat) : (s.count k ev x).ports = s.ports := rfl
@[simp] theorem State.count_queues (s : State) (k ev x : Nat) : (s.count k ev x).queues = s.queues := rfl
@[simp] theorem State.count_held (s : State) (k ev x : Nat) : (s.count k ev x).held = s.held := rfl
@[simp] theorem State.count_acts (s : State) (k ev x : Nat) : (s.count k ev x).acts = s.acts := rfl
@[simp] theorem State.count_vesper (s : State) (k ev x : Nat) : (s.count k ev x).vesper = s.vesper := rfl
@[simp] theorem State.count_island (s : State) (k ev x : Nat) : (s.count k ev x).island = s.island := rfl
@[simp] theorem State.count_hosts (s : State) (k ev x : Nat) : (s.count k ev x).hosts = s.hosts := rfl
@[simp] theorem State.count_replies (s : State) (k ev x : Nat) : (s.count k ev x).replies = s.replies := rfl
@[simp] theorem State.count_quads (s : State) (k ev x : Nat) : (s.count k ev x).quads = s.quads := rfl
@[simp] theorem State.count_placeLog (s : State) (k ev x : Nat) : (s.count k ev x).placeLog = s.placeLog := rfl
@[simp] theorem State.count_hretain (s : State) (k ev x : Nat) : (s.count k ev x).hretain = s.hretain := rfl
@[simp] theorem State.count_seriesk (s : State) (k ev x : Nat) : (s.count k ev x).seriesk = s.seriesk := rfl
@[simp] theorem State.count_retrain (s : State) (k ev x : Nat) : (s.count k ev x).retrain = s.retrain := rfl
@[simp] theorem State.count_stopat (s : State) (k ev x : Nat) : (s.count k ev x).stopat = s.stopat := rfl
@[simp] theorem State.count_serBase (s : State) (k ev x : Nat) : (s.count k ev x).serBase = s.serBase := rfl
@[simp] theorem State.count_serSize (s : State) (k ev x : Nat) : (s.count k ev x).serSize = s.serSize := rfl
@[simp] theorem State.count_serSeq (s : State) (k ev x : Nat) : (s.count k ev x).serSeq = s.serSeq := rfl
@[simp] theorem State.count_serLast (s : State) (k ev x : Nat) : (s.count k ev x).serLast = s.serLast := rfl
@[simp] theorem State.count_stopped (s : State) (k ev x : Nat) : (s.count k ev x).stopped = s.stopped := rfl
@[simp] theorem State.count_stopTick (s : State) (k ev x : Nat) : (s.count k ev x).stopTick = s.stopTick := rfl
@[simp] theorem State.count_stopSet (s : State) (k ev x : Nat) : (s.count k ev x).stopSet = s.stopSet := rfl
@[simp] theorem State.count_resumeTick (s : State) (k ev x : Nat) : (s.count k ev x).resumeTick = s.resumeTick := rfl
@[simp] theorem State.count_at_blk (s : State) (k ev x : Nat) (n : Nat) : (s.count k ev x).blk n = s.blk n := rfl
@[simp] theorem State.count_at_grp (s : State) (k ev x : Nat) (n m : Nat) : (s.count k ev x).grp n m = s.grp n m := rfl
@[simp] theorem State.count_at_core (s : State) (k ev x : Nat) (n : Nat) : (s.count k ev x).core n = s.core n := rfl
@[simp] theorem State.count_at_kernel (s : State) (k ev x : Nat) (n : Nat) : (s.count k ev x).kernel n = s.kernel n := rfl
@[simp] theorem State.count_at_team (s : State) (k ev x : Nat) (n : Nat) : (s.count k ev x).team n = s.team n := rfl
@[simp] theorem State.count_at_slice (s : State) (k ev x : Nat) (n : Nat) : (s.count k ev x).slice n = s.slice n := rfl
@[simp] theorem State.count_at_ring (s : State) (k ev x : Nat) (n : Nat) : (s.count k ev x).ring n = s.ring n := rfl
@[simp] theorem State.count_at_queue (s : State) (k ev x : Nat) (n : Nat) : (s.count k ev x).queue n = s.queue n := rfl
@[simp] theorem State.count_at_quad (s : State) (k ev x : Nat) (n : Nat) : (s.count k ev x).quad n = s.quad n := rfl
@[simp] theorem State.count_at_port (s : State) (k ev x : Nat) (n : Nat) : (s.count k ev x).port n = s.port n := rfl
@[simp] theorem State.count_at_host (s : State) (k ev x : Nat) (n : Nat) : (s.count k ev x).host n = s.host n := rfl
@[simp] theorem State.count_peerPins (s : State) (k ev x : Nat) : (s.count k ev x).peerPins = s.peerPins := rfl
@[simp] theorem State.count_duskNew (s : State) (k ev x : Nat) : (s.count k ev x).duskNew = s.duskNew := rfl
@[simp] theorem State.count_rx (s : State) (k ev x : Nat) : (s.count k ev x).rx = s.rx := rfl
@[simp] theorem State.count_wire (s : State) (k ev x : Nat) : (s.count k ev x).wire = s.wire := rfl
@[simp] theorem State.count_devSent (s : State) (k ev x : Nat) : (s.count k ev x).devSent = s.devSent := rfl

/-! ## setCir -/

@[simp] theorem State.setCir_tick (s : State) (k bit : Nat) : (s.setCir k bit).tick = s.tick := rfl
@[simp] theorem State.setCir_stampBase (s : State) (k bit : Nat) : (s.setCir k bit).stampBase = s.stampBase := rfl
@[simp] theorem State.setCir_cycles (s : State) (k bit : Nat) : (s.setCir k bit).cycles = s.cycles := rfl
@[simp] theorem State.setCir_clockK (s : State) (k bit : Nat) : (s.setCir k bit).clockK = s.clockK := rfl
@[simp] theorem State.setCir_device (s : State) (k bit : Nat) : (s.setCir k bit).device = s.device := rfl
@[simp] theorem State.setCir_agenda (s : State) (k bit : Nat) : (s.setCir k bit).agenda = s.agenda := rfl
@[simp] theorem State.setCir_auto (s : State) (k bit : Nat) : (s.setCir k bit).auto = s.auto := rfl
@[simp] theorem State.setCir_fresh (s : State) (k bit : Nat) : (s.setCir k bit).fresh = s.fresh := rfl
@[simp] theorem State.setCir_cur (s : State) (k bit : Nat) : (s.setCir k bit).cur = s.cur := rfl
@[simp] theorem State.setCir_mem (s : State) (k bit : Nat) : (s.setCir k bit).mem = s.mem := rfl
@[simp] theorem State.setCir_lines (s : State) (k bit : Nat) : (s.setCir k bit).lines = s.lines := rfl
@[simp] theorem State.setCir_pageGen (s : State) (k bit : Nat) : (s.setCir k bit).pageGen = s.pageGen := rfl
@[simp] theorem State.setCir_poison (s : State) (k bit : Nat) : (s.setCir k bit).poison = s.poison := rfl
@[simp] theorem State.setCir_slices (s : State) (k bit : Nat) : (s.setCir k bit).slices = s.slices := rfl
@[simp] theorem State.setCir_rings (s : State) (k bit : Nat) : (s.setCir k bit).rings = s.rings := rfl
@[simp] theorem State.setCir_heads (s : State) (k bit : Nat) : (s.setCir k bit).heads = s.heads := rfl
@[simp] theorem State.setCir_lastWrite (s : State) (k bit : Nat) : (s.setCir k bit).lastWrite = s.lastWrite := rfl
@[simp] theorem State.setCir_maps (s : State) (k bit : Nat) : (s.setCir k bit).maps = s.maps := rfl
@[simp] theorem State.setCir_hres (s : State) (k bit : Nat) : (s.setCir k bit).hres = s.hres := rfl
@[simp] theorem State.setCir_tlb (s : State) (k bit : Nat) : (s.setCir k bit).tlb = s.tlb := rfl
@[simp] theorem State.setCir_pend (s : State) (k bit : Nat) : (s.setCir k bit).pend = s.pend := rfl
@[simp] theorem State.setCir_counted (s : State) (k bit : Nat) : (s.setCir k bit).counted = s.counted := rfl
@[simp] theorem State.setCir_blocks (s : State) (k bit : Nat) : (s.setCir k bit).blocks = s.blocks := rfl
@[simp] theorem State.setCir_cores (s : State) (k bit : Nat) : (s.setCir k bit).cores = s.cores := rfl
@[simp] theorem State.setCir_ctxs (s : State) (k bit : Nat) : (s.setCir k bit).ctxs = s.ctxs := rfl
@[simp] theorem State.setCir_teams (s : State) (k bit : Nat) : (s.setCir k bit).teams = s.teams := rfl
@[simp] theorem State.setCir_units (s : State) (k bit : Nat) : (s.setCir k bit).units = s.units := rfl
@[simp] theorem State.setCir_log (s : State) (k bit : Nat) : (s.setCir k bit).log = s.log := rfl
@[simp] theorem State.setCir_logNext (s : State) (k bit : Nat) : (s.setCir k bit).logNext = s.logNext := rfl
@[simp] theorem State.setCir_logNew (s : State) (k bit : Nat) : (s.setCir k bit).logNew = s.logNew := rfl
@[simp] theorem State.setCir_traced (s : State) (k bit : Nat) : (s.setCir k bit).traced = s.traced := rfl
@[simp] theorem State.setCir_members (s : State) (k bit : Nat) : (s.setCir k bit).members = s.members := rfl
@[simp] theorem State.setCir_peerDusk (s : State) (k bit : Nat) : (s.setCir k bit).peerDusk = s.peerDusk := rfl
@[simp] theorem State.setCir_retained (s : State) (k bit : Nat) : (s.setCir k bit).retained = s.retained := rfl
@[simp] theorem State.setCir_e2eOut (s : State) (k bit : Nat) : (s.setCir k bit).e2eOut = s.e2eOut := rfl
@[simp] theorem State.setCir_e2eIn (s : State) (k bit : Nat) : (s.setCir k bit).e2eIn = s.e2eIn := rfl
@[simp] theorem State.setCir_out (s : State) (k bit : Nat) : (s.setCir k bit).out = s.out := rfl
@[simp] theorem State.setCir_receipts (s : State) (k bit : Nat) : (s.setCir k bit).receipts = s.receipts := rfl
@[simp] theorem State.setCir_past (s : State) (k bit : Nat) : (s.setCir k bit).past = s.past := rfl
@[simp] theorem State.setCir_hostq (s : State) (k bit : Nat) : (s.setCir k bit).hostq = s.hostq := rfl
@[simp] theorem State.setCir_noted (s : State) (k bit : Nat) : (s.setCir k bit).noted = s.noted := rfl
@[simp] theorem State.setCir_tlbCmd (s : State) (k bit : Nat) : (s.setCir k bit).tlbCmd = s.tlbCmd := rfl
@[simp] theorem State.setCir_logged (s : State) (k bit : Nat) : (s.setCir k bit).logged = s.logged := rfl
@[simp] theorem State.setCir_logChain (s : State) (k bit : Nat) : (s.setCir k bit).logChain = s.logChain := rfl
@[simp] theorem State.setCir_ports (s : State) (k bit : Nat) : (s.setCir k bit).ports = s.ports := rfl
@[simp] theorem State.setCir_queues (s : State) (k bit : Nat) : (s.setCir k bit).queues = s.queues := rfl
@[simp] theorem State.setCir_held (s : State) (k bit : Nat) : (s.setCir k bit).held = s.held := rfl
@[simp] theorem State.setCir_acts (s : State) (k bit : Nat) : (s.setCir k bit).acts = s.acts := rfl
@[simp] theorem State.setCir_vesper (s : State) (k bit : Nat) : (s.setCir k bit).vesper = s.vesper := rfl
@[simp] theorem State.setCir_island (s : State) (k bit : Nat) : (s.setCir k bit).island = s.island := rfl
@[simp] theorem State.setCir_hosts (s : State) (k bit : Nat) : (s.setCir k bit).hosts = s.hosts := rfl
@[simp] theorem State.setCir_replies (s : State) (k bit : Nat) : (s.setCir k bit).replies = s.replies := rfl
@[simp] theorem State.setCir_quads (s : State) (k bit : Nat) : (s.setCir k bit).quads = s.quads := rfl
@[simp] theorem State.setCir_placeLog (s : State) (k bit : Nat) : (s.setCir k bit).placeLog = s.placeLog := rfl
@[simp] theorem State.setCir_hretain (s : State) (k bit : Nat) : (s.setCir k bit).hretain = s.hretain := rfl
@[simp] theorem State.setCir_seriesk (s : State) (k bit : Nat) : (s.setCir k bit).seriesk = s.seriesk := rfl
@[simp] theorem State.setCir_retrain (s : State) (k bit : Nat) : (s.setCir k bit).retrain = s.retrain := rfl
@[simp] theorem State.setCir_stopat (s : State) (k bit : Nat) : (s.setCir k bit).stopat = s.stopat := rfl
@[simp] theorem State.setCir_serBase (s : State) (k bit : Nat) : (s.setCir k bit).serBase = s.serBase := rfl
@[simp] theorem State.setCir_serSize (s : State) (k bit : Nat) : (s.setCir k bit).serSize = s.serSize := rfl
@[simp] theorem State.setCir_serSeq (s : State) (k bit : Nat) : (s.setCir k bit).serSeq = s.serSeq := rfl
@[simp] theorem State.setCir_serLast (s : State) (k bit : Nat) : (s.setCir k bit).serLast = s.serLast := rfl
@[simp] theorem State.setCir_stopped (s : State) (k bit : Nat) : (s.setCir k bit).stopped = s.stopped := rfl
@[simp] theorem State.setCir_stopTick (s : State) (k bit : Nat) : (s.setCir k bit).stopTick = s.stopTick := rfl
@[simp] theorem State.setCir_stopSet (s : State) (k bit : Nat) : (s.setCir k bit).stopSet = s.stopSet := rfl
@[simp] theorem State.setCir_resumeTick (s : State) (k bit : Nat) : (s.setCir k bit).resumeTick = s.resumeTick := rfl
@[simp] theorem State.setCir_at_blk (s : State) (k bit : Nat) (n : Nat) : (s.setCir k bit).blk n = s.blk n := rfl
@[simp] theorem State.setCir_at_grp (s : State) (k bit : Nat) (n m : Nat) : (s.setCir k bit).grp n m = s.grp n m := rfl
@[simp] theorem State.setCir_at_core (s : State) (k bit : Nat) (n : Nat) : (s.setCir k bit).core n = s.core n := rfl
@[simp] theorem State.setCir_at_ctx (s : State) (k bit : Nat) (n : Nat) : (s.setCir k bit).ctx n = s.ctx n := rfl
@[simp] theorem State.setCir_at_team (s : State) (k bit : Nat) (n : Nat) : (s.setCir k bit).team n = s.team n := rfl
@[simp] theorem State.setCir_at_slice (s : State) (k bit : Nat) (n : Nat) : (s.setCir k bit).slice n = s.slice n := rfl
@[simp] theorem State.setCir_at_ring (s : State) (k bit : Nat) (n : Nat) : (s.setCir k bit).ring n = s.ring n := rfl
@[simp] theorem State.setCir_at_queue (s : State) (k bit : Nat) (n : Nat) : (s.setCir k bit).queue n = s.queue n := rfl
@[simp] theorem State.setCir_at_quad (s : State) (k bit : Nat) (n : Nat) : (s.setCir k bit).quad n = s.quad n := rfl
@[simp] theorem State.setCir_at_port (s : State) (k bit : Nat) (n : Nat) : (s.setCir k bit).port n = s.port n := rfl
@[simp] theorem State.setCir_at_host (s : State) (k bit : Nat) (n : Nat) : (s.setCir k bit).host n = s.host n := rfl
@[simp] theorem State.setCir_peerPins (s : State) (k bit : Nat) : (s.setCir k bit).peerPins = s.peerPins := rfl
@[simp] theorem State.setCir_duskNew (s : State) (k bit : Nat) : (s.setCir k bit).duskNew = s.duskNew := rfl
@[simp] theorem State.setCir_rx (s : State) (k bit : Nat) : (s.setCir k bit).rx = s.rx := rfl
@[simp] theorem State.setCir_wire (s : State) (k bit : Nat) : (s.setCir k bit).wire = s.wire := rfl
@[simp] theorem State.setCir_devSent (s : State) (k bit : Nat) : (s.setCir k bit).devSent = s.devSent := rfl

/-! ## Block.setGrp -/

@[simp] theorem Block.setGrp_live (b : Block) (g : Nat) (G : Group) : (b.setGrp g G).live = b.live := rfl
@[simp] theorem Block.setGrp_ctx (b : Block) (g : Nat) (G : Group) : (b.setGrp g G).ctx = b.ctx := rfl
@[simp] theorem Block.setGrp_kernel (b : Block) (g : Nat) (G : Group) : (b.setGrp g G).kernel = b.kernel := rfl
@[simp] theorem Block.setGrp_team (b : Block) (g : Nat) (G : Group) : (b.setGrp g G).team = b.team := rfl
@[simp] theorem Block.setGrp_role (b : Block) (g : Nat) (G : Group) : (b.setGrp g G).role = b.role := rfl
@[simp] theorem Block.setGrp_bid (b : Block) (g : Nat) (G : Group) : (b.setGrp g G).bid = b.bid := rfl
@[simp] theorem Block.setGrp_lanes (b : Block) (g : Nat) (G : Group) : (b.setGrp g G).lanes = b.lanes := rfl
@[simp] theorem Block.setGrp_A (b : Block) (g : Nat) (G : Group) : (b.setGrp g G).A = b.A := rfl
@[simp] theorem Block.setGrp_scratch (b : Block) (g : Nat) (G : Group) : (b.setGrp g G).scratch = b.scratch := rfl
@[simp] theorem Block.setGrp_prio (b : Block) (g : Nat) (G : Group) : (b.setGrp g G).prio = b.prio := rfl
@[simp] theorem Block.setGrp_frame (b : Block) (g : Nat) (G : Group) : (b.setGrp g G).frame = b.frame := rfl
@[simp] theorem Block.setGrp_join (b : Block) (g : Nat) (G : Group) : (b.setGrp g G).join = b.join := rfl
@[simp] theorem Block.setGrp_code (b : Block) (g : Nat) (G : Group) : (b.setGrp g G).code = b.code := rfl
@[simp] theorem Block.setGrp_queue (b : Block) (g : Nat) (G : Group) : (b.setGrp g G).queue = b.queue := rfl
@[simp] theorem Block.setGrp_core (b : Block) (g : Nat) (G : Group) : (b.setGrp g G).core = b.core := rfl
@[simp] theorem Block.setGrp_age (b : Block) (g : Nat) (G : Group) : (b.setGrp g G).age = b.age := rfl
@[simp] theorem Block.setGrp_slots (b : Block) (g : Nat) (G : Group) : (b.setGrp g G).slots = b.slots := rfl
@[simp] theorem Block.setGrp_floor (b : Block) (g : Nat) (G : Group) : (b.setGrp g G).floor = b.floor := rfl
@[simp] theorem Block.setGrp_bm (b : Block) (g : Nat) (G : Group) : (b.setGrp g G).bm = b.bm := rfl
@[simp] theorem Block.setGrp_full (b : Block) (g : Nat) (G : Group) : (b.setGrp g G).full = b.full := rfl
@[simp] theorem Block.setGrp_bmPoison (b : Block) (g : Nat) (G : Group) : (b.setGrp g G).bmPoison = b.bmPoison := rfl
@[simp] theorem Block.setGrp_objs (b : Block) (g : Nat) (G : Group) : (b.setGrp g G).objs = b.objs := rfl
@[simp] theorem Block.setGrp_bad (b : Block) (g : Nat) (G : Group) : (b.setGrp g G).bad = b.bad := rfl
@[simp] theorem Block.setGrp_opcache (b : Block) (g : Nat) (G : Group) : (b.setGrp g G).opcache = b.opcache := rfl
@[simp] theorem Block.setGrp_ports (b : Block) (g : Nat) (G : Group) : (b.setGrp g G).ports = b.ports := rfl
@[simp] theorem Block.setGrp_accHeld (b : Block) (g : Nat) (G : Group) : (b.setGrp g G).accHeld = b.accHeld := rfl
@[simp] theorem Block.setGrp_acc (b : Block) (g : Nat) (G : Group) : (b.setGrp g G).acc = b.acc := rfl
@[simp] theorem Block.setGrp_interval (b : Block) (g : Nat) (G : Group) : (b.setGrp g G).interval = b.interval := rfl
@[simp] theorem Block.setGrp_cut (b : Block) (g : Nat) (G : Group) : (b.setGrp g G).cut = b.cut := rfl
@[simp] theorem Block.setGrp_routine (b : Block) (g : Nat) (G : Group) : (b.setGrp g G).routine = b.routine := rfl
@[simp] theorem Block.setGrp_rolling (b : Block) (g : Nat) (G : Group) : (b.setGrp g G).rolling = b.rolling := rfl
@[simp] theorem Block.setGrp_evicting (b : Block) (g : Nat) (G : Group) : (b.setGrp g G).evicting = b.evicting := rfl
@[simp] theorem Block.setGrp_keptLd (b : Block) (g : Nat) (G : Group) : (b.setGrp g G).keptLd = b.keptLd := rfl
@[simp] theorem Block.setGrp_keptSt (b : Block) (g : Nat) (G : Group) : (b.setGrp g G).keptSt = b.keptSt := rfl
@[simp] theorem Block.setGrp_keptCh (b : Block) (g : Nat) (G : Group) : (b.setGrp g G).keptCh = b.keptCh := rfl
@[simp] theorem Block.setGrp_keptFences (b : Block) (g : Nat) (G : Group) : (b.setGrp g G).keptFences = b.keptFences := rfl

/-! ## Group.setLane -/

@[simp] theorem Group.setLane_live (H : Group) (L : Nat) (l : Lane) : (H.setLane L l).live = H.live := rfl
@[simp] theorem Group.setLane_cut (H : Group) (L : Nat) (l : Lane) : (H.setLane L l).cut = H.cut := rfl
@[simp] theorem Group.setLane_k (H : Group) (L : Nat) (l : Lane) : (H.setLane L l).k = H.k := rfl
@[simp] theorem Group.setLane_ubase (H : Group) (L : Nat) (l : Lane) : (H.setLane L l).ubase = H.ubase := rfl
@[simp] theorem Group.setLane_kp (H : Group) (L : Nat) (l : Lane) : (H.setLane L l).kp = H.kp := rfl
@[simp] theorem Group.setLane_fpcr (H : Group) (L : Nat) (l : Lane) : (H.setLane L l).fpcr = H.fpcr := rfl
@[simp] theorem Group.setLane_fpsr (H : Group) (L : Nat) (l : Lane) : (H.setLane L l).fpsr = H.fpsr := rfl
@[simp] theorem Group.setLane_stksave (H : Group) (L : Nat) (l : Lane) : (H.setLane L l).stksave = H.stksave := rfl
@[simp] theorem Group.setLane_tcause (H : Group) (L : Nat) (l : Lane) : (H.setLane L l).tcause = H.tcause := rfl
@[simp] theorem Group.setLane_trec (H : Group) (L : Nat) (l : Lane) : (H.setLane L l).trec = H.trec := rfl
@[simp] theorem Group.setLane_tpc (H : Group) (L : Nat) (l : Lane) : (H.setLane L l).tpc = H.tpc := rfl
@[simp] theorem Group.setLane_tva (H : Group) (L : Nat) (l : Lane) : (H.setLane L l).tva = H.tva := rfl
@[simp] theorem Group.setLane_tlanes (H : Group) (L : Nat) (l : Lane) : (H.setLane L l).tlanes = H.tlanes := rfl
@[simp] theorem Group.setLane_latch (H : Group) (L : Nat) (l : Lane) : (H.setLane L l).latch = H.latch := rfl
@[simp] theorem Group.setLane_wbuf (H : Group) (L : Nat) (l : Lane) : (H.setLane L l).wbuf = H.wbuf := rfl
@[simp] theorem Group.setLane_floor (H : Group) (L : Nat) (l : Lane) : (H.setLane L l).floor = H.floor := rfl
@[simp] theorem Group.setLane_tokens (H : Group) (L : Nat) (l : Lane) : (H.setLane L l).tokens = H.tokens := rfl
@[simp] theorem Group.setLane_matq (H : Group) (L : Nat) (l : Lane) : (H.setLane L l).matq = H.matq := rfl
@[simp] theorem Group.setLane_sfq (H : Group) (L : Nat) (l : Lane) : (H.setLane L l).sfq = H.sfq := rfl
@[simp] theorem Group.setLane_issues (H : Group) (L : Nat) (l : Lane) : (H.setLane L l).issues = H.issues := rfl
@[simp] theorem Group.setLane_matUsed (H : Group) (L : Nat) (l : Lane) : (H.setLane L l).matUsed = H.matUsed := rfl
@[simp] theorem Group.setLane_saw (H : Group) (L : Nat) (l : Lane) : (H.setLane L l).saw = H.saw := rfl
@[simp] theorem Group.setLane_tickSeen (H : Group) (L : Nat) (l : Lane) : (H.setLane L l).tickSeen = H.tickSeen := rfl
@[simp] theorem Group.setLane_seen (H : Group) (L : Nat) (l : Lane) : (H.setLane L l).seen = H.seen := rfl
@[simp] theorem Group.setLane_trapped (H : Group) (L : Nat) (l : Lane) : (H.setLane L l).trapped = H.trapped := rfl
@[simp] theorem Group.setLane_served (H : Group) (L : Nat) (l : Lane) : (H.setLane L l).served = H.served := rfl
@[simp] theorem Group.setLane_streak (H : Group) (L : Nat) (l : Lane) : (H.setLane L l).streak = H.streak := rfl
@[simp] theorem Group.setLane_round (H : Group) (L : Nat) (l : Lane) : (H.setLane L l).round = H.round := rfl
@[simp] theorem Group.setLane_lastRun (H : Group) (L : Nat) (l : Lane) : (H.setLane L l).lastRun = H.lastRun := rfl
@[simp] theorem Group.setLane_notBefore (H : Group) (L : Nat) (l : Lane) : (H.setLane L l).notBefore = H.notBefore := rfl
@[simp] theorem Group.setLane_untilDone (H : Group) (L : Nat) (l : Lane) : (H.setLane L l).untilDone = H.untilDone := rfl
@[simp] theorem Group.setLane_board (H : Group) (L : Nat) (l : Lane) : (H.setLane L l).board = H.board := rfl
@[simp] theorem Group.setLane_dests (H : Group) (L : Nat) (l : Lane) : (H.setLane L l).dests = H.dests := rfl
@[simp] theorem Group.setLane_sentCnt (H : Group) (L : Nat) (l : Lane) : (H.setLane L l).sentCnt = H.sentCnt := rfl
@[simp] theorem Group.setLane_covered (H : Group) (L : Nat) (l : Lane) : (H.setLane L l).covered = H.covered := rfl
@[simp] theorem Group.setLane_feWait (H : Group) (L : Nat) (l : Lane) : (H.setLane L l).feWait = H.feWait := rfl
@[simp] theorem Group.setLane_syncDue (H : Group) (L : Nat) (l : Lane) : (H.setLane L l).syncDue = H.syncDue := rfl
@[simp] theorem Group.setLane_memoWait (H : Group) (L : Nat) (l : Lane) : (H.setLane L l).memoWait = H.memoWait := rfl
@[simp] theorem Group.setLane_why (H : Group) (L : Nat) (l : Lane) : (H.setLane L l).why = H.why := rfl
@[simp] theorem Group.setLane_lastPc (H : Group) (L : Nat) (l : Lane) : (H.setLane L l).lastPc = H.lastPc := rfl
@[simp] theorem Group.setLane_issuedAt (H : Group) (L : Nat) (l : Lane) : (H.setLane L l).issuedAt = H.issuedAt := rfl
@[simp] theorem Group.setLane_whyAt (H : Group) (L : Nat) (l : Lane) : (H.setLane L l).whyAt = H.whyAt := rfl

/-! ## CoreSt.setQuarter -/

@[simp] theorem CoreSt.setQuarter_ldq (c : CoreSt) (q : Nat) (x : Quarter) : (c.setQuarter q x).ldq = c.ldq := rfl
@[simp] theorem CoreSt.setQuarter_stq (c : CoreSt) (q : Nat) (x : Quarter) : (c.setQuarter q x).stq = c.stq := rfl
@[simp] theorem CoreSt.setQuarter_chans (c : CoreSt) (q : Nat) (x : Quarter) : (c.setQuarter q x).chans = c.chans := rfl
@[simp] theorem CoreSt.setQuarter_fences (c : CoreSt) (q : Nat) (x : Quarter) : (c.setQuarter q x).fences = c.fences := rfl
@[simp] theorem CoreSt.setQuarter_arbs (c : CoreSt) (q : Nat) (x : Quarter) : (c.setQuarter q x).arbs = c.arbs := rfl
@[simp] theorem CoreSt.setQuarter_inUse (c : CoreSt) (q : Nat) (x : Quarter) : (c.setQuarter q x).inUse = c.inUse := rfl
@[simp] theorem CoreSt.setQuarter_hot (c : CoreSt) (q : Nat) (x : Quarter) : (c.setQuarter q x).hot = c.hot := rfl
@[simp] theorem CoreSt.setQuarter_array (c : CoreSt) (q : Nat) (x : Quarter) : (c.setQuarter q x).array = c.array := rfl
@[simp] theorem CoreSt.setQuarter_l1 (c : CoreSt) (q : Nat) (x : Quarter) : (c.setQuarter q x).l1 = c.l1 := rfl
@[simp] theorem CoreSt.setQuarter_temp (c : CoreSt) (q : Nat) (x : Quarter) : (c.setQuarter q x).temp = c.temp := rfl
@[simp] theorem CoreSt.setQuarter_droop (c : CoreSt) (q : Nat) (x : Quarter) : (c.setQuarter q x).droop = c.droop := rfl

end Sys2Proof.Machine
end

