-- ==== Sys2Proof/Laws/Vector.lean ====
section
/-! SUPPORT. The vector operation, once for every instruction that is one: `vecOp_next` (R193). -/

namespace Sys2Proof.Machine

/-! ## The units and the memo table leave the blocks alone -/

/-- Only cores' quarters, counters of contexts and units differ. -/
structure UnitsOnly (s t : State) : Prop where
  state : t = { s with cores := t.cores, ctxs := t.ctxs, units := t.units }
  ctxs  : ∀ n, t.ctx n = { s.ctx n with ctr := (t.ctx n).ctr }
  cores : ∀ n, t.core n = { s.core n with quarters := (t.core n).quarters }

theorem UnitsOnly.refl (s : State) : UnitsOnly s s := ⟨rfl, fun _ => rfl, fun _ => rfl⟩

theorem UnitsOnly.trans {s t r : State} (a : UnitsOnly s t) (b : UnitsOnly t r) : UnitsOnly s r where
  state := by rw [b.state, a.state]
  ctxs n := by rw [b.ctxs, a.ctxs]
  cores n := by rw [b.cores, a.cores]

theorem core_setCore_if (s : State) (n m : Nat) (c : CoreSt) : (s.setCore n c).core m = if m = n then c else s.core m := mget_mset ..

theorem unitsOnly_setQuarter (s : State) (n q : Nat) (x : Quarter) : UnitsOnly s (s.setCore n ((s.core n).setQuarter q x)) where
  state := rfl
  ctxs _ := rfl
  cores m := by
    rw [core_setCore_if]
    split
    · next h => subst h; rfl
    · rfl

theorem unitsOnly_count (s : State) (ctx ev n : Nat) : UnitsOnly s (s.count ctx ev n) where
  state := rfl
  ctxs m := by
    rw [State.count, ctx_setCtx_if]
    split
    · next h => subst h; rfl
    · rfl
  cores _ := rfl

theorem unitsOnly_unitAdd (s : State) (unit idx n : Nat) : UnitsOnly s (s.unitAdd unit idx n) := ⟨rfl, fun _ => rfl, fun _ => rfl⟩

theorem unitsOnly_memoLookup (s : State) (c : Cur) (m : Memo) (make : Bool) : UnitsOnly s (memoLookup s c m make).2 := by
  unfold memoLookup
  simp only []
  split
  · exact ((unitsOnly_setQuarter ..).trans (unitsOnly_count ..)).trans (unitsOnly_unitAdd ..)
  · exact ((unitsOnly_setQuarter ..).trans (unitsOnly_count ..)).trans (unitsOnly_unitAdd ..)

theorem unitsOnly_takeUnit (s : State) (c : Cur) (u : AluUnit) : UnitsOnly s (takeUnit s c u) := by
  cases u
  · exact UnitsOnly.refl s
  · exact unitsOnly_setQuarter ..
  · exact unitsOnly_setQuarter ..

theorem UnitsOnly.blocks {s t : State} (h : UnitsOnly s t) : t.blocks = s.blocks := by rw [h.state]
theorem UnitsOnly.blk {s t : State} (h : UnitsOnly s t) (u : Nat) : t.blk u = s.blk u := by
  unfold State.blk
  rw [h.blocks]
theorem UnitsOnly.issuer {s t : State} (h : UnitsOnly s t) (c : Cur) : t.issuer c = s.issuer c :=
  congrArg (fun b : Block => b.grp c.grp) (h.blk c.blk)
theorem UnitsOnly.cur {s t : State} (h : UnitsOnly s t) : t.cur = s.cur := by rw [h.state]

/-! ## The state a body starts from -/

theorem startState_issuer (u : Uses) (s : State) (c : Cur) : (startState u s c).issuer c = s.issuer c := by
  simp [startState, State.issuer, State.grp, Block.grp]

theorem startState_blk (u : Uses) (s : State) (c : Cur) : (startState u s c).blk c.blk =
    { s.blk c.blk with ports := (popPorts (s.blk c.blk).ports u.pops).2 } := by
  simp [startState]

theorem startState_blk_ne (u : Uses) (s : State) (c : Cur) {v : Nat} (h : v ≠ c.blk) : (startState u s c).blk v = s.blk v := by
  unfold startState
  rw [blk_setBlk_ne _ _ h]; rfl

theorem startState_cur (u : Uses) (s : State) (c : Cur) : (startState u s c).cur = s.cur := rfl

/-! ## A body that leaves groups and lanes alone -/

/-- `Keeps` for a body that changes no group and no lane itself, parks none and moves no PC. -/
theorem keeps_plain {u : Uses} {own : Own} {s : State} {c : Cur} {e : Eff} {r : Result} (h : Issuing u own s c)
    (hu : r.s.issuer c = s.issuer c) (hc : r.s.cur = s.cur) (hl : e.lane = fun _ l => l) (hg : e.grp = fun G => G)
    (hj : e.jump = fun _ => none) (hd : e.guard = fun _ => none) (hs : e.stays = false)
    (hk : ∀ w ∈ r.writes, w.1 ∈ e.keys ∧ w.1.exists = true) (hv : ∀ w ∈ r.writes, ∀ L x, w.1 = .v L x → L ∈ runs u own s c)
    (hp : ∀ w ∈ r.writes, ∀ L x, w.1 = .p L x → L ∈ runs u own s c) (hf : r.flags = e.flags) (h1 : r.pcs = []) (h2 : r.guards = [])
    (h3 : r.keeps = []) (h4 : r.parks = []) : Keeps u own s c e r where
  cur := hc.trans h.cur
  group := by rw [hg, hu]
  k := by rw [hg]
  kp := by rw [hg]
  fpsr := by rw [hg]
  lanes L := by
    rw [hl]
    simp only [ite_self]
    exact congrArg (fun G : Group => G.lane L) hu
  lane L _ := by rw [hl]; exact ⟨rfl, rfl, rfl, rfl, rfl⟩
  keys := hk
  vlane := hv
  plane := hp
  flags := hf
  jump L := by rw [h1, hj]; simp
  guard L := by rw [h2, hd]; simp
  stays L := by rw [h3, hs]; simp
  parks := h4

/-! ## The vector operation -/

section
variable {sh : VShape} {own : Own} {s : State} {c : Cur} {f : View → Nat → LaneOut}

/-- The body of a vector operation. -/
def vecResult (sh : VShape) (f : View → Nat → LaneOut) (s : State) (i : Issue) : Result :=
  let b := s.blk i.c.blk
  let G := b.grp i.c.grp
  let args := readArgs b.A i.now G i sh.uses
  let v : View := ⟨G.fpcr, args, fun j => match sh.uses.vsrc with
    | x :: _ => peek b.A i.now G i x.1 j
    | [] => 0#32⟩
  let outs := i.lanes.map fun L => (L, f v L)
  let m := if sh.memo && memoRun G sh.uses i.lanes
    then memoLookup s i.c (pureKey sh i.c G args i.lanes) true else (none, s)
  let hit := m.1.isSome
  { s := if hit then m.2 else takeUnit m.2 i.c sh.unit
    writes := outs.flatMap fun o => outWrites b.A G sh.uses o.1 o.2
    push := some (pushEntry outs)
    flags := outFlags G outs
    lat := .fixed (if hit then 1 else sh.lat) }

/-- An exchange that reads no bad register on behalf of any lane reads none on behalf of those that execute. -/
theorem exchangeBad_runs (hb : exchangeBad sh s (mayIssue sh.uses own s c) = false) :
    exchangeBad sh s (issueOf sh.uses own s c) = false := by
  unfold exchangeBad at hb ⊢
  rw [Bool.and_eq_false_iff] at hb ⊢
  refine hb.imp id fun hb => ?_
  rw [List.any_eq_false] at hb ⊢
  exact fun L hL => hb L (runs_sub_mayRun hL)

theorem vecOp_eq (st : Stall) (h : Issuing sh.uses own s c)
    (hx : exchangeEarly sh s ⟨c, acting s c, [], s.fresh, s.cycleOf c.core⟩ = own) (hu : unitFree s c sh.unit = true)
    (hb : exchangeBad sh s (mayIssue sh.uses own s c) = false) :
    vecOp sh st f s = .next (endOf sh.uses own s c st (vecResult sh f (startState sh.uses s c) (issueOf sh.uses own s c))) := by
  unfold vecOp
  have hu' : unitFree { s with fresh := s.fresh + 1 } c sh.unit = true := hu
  have ready : ∀ x (b : Bool), b = false → (if x && !unitFree { s with fresh := s.fresh + 1 } c sh.unit then some Reason.other
      else if b then some .badRegister else none) = none := fun x b hb => by rw [hu', hb]; cases x <;> rfl
  exact issueWith_eq h st _ _ _ hx (ready _ _ hb) (ready _ _ (exchangeBad_runs hb))

theorem find_map_some (lanes : List Nat) (g : Nat → LaneOut) (L : Nat) :
    ((lanes.map fun L => (L, g L)).find? fun o => o.1 == L) = if L ∈ lanes then some (L, g L) else none := by
  induction lanes with
  | nil => simp
  | cons M r ih =>
    by_cases hM : M = L
    · subst hM; simp
    · have : ¬ L = M := fun e => hM e.symm
      simp only [List.map_cons, List.find?_cons, List.mem_cons, this, false_or]
      rw [show (M == L) = false by simpa using hM]
      exact ih

theorem pushEntry_eq (lanes : List Nat) (g : Nat → LaneOut) : pushEntry (lanes.map fun L => (L, g L)) = portEntry lanes g := by
  unfold pushEntry portEntry
  refine List.map_congr_left fun L _ => ?_
  rw [find_map_some]
  by_cases h : L ∈ lanes
  · rw [if_pos h, if_pos h]
  · rw [if_neg h, if_neg h]

theorem outFlags_eq (lanes : List Nat) (g : Nat → LaneOut) :
    outFlags (s.issuer c) (lanes.map fun L => (L, g L)) = countedFlags s c lanes g := by
  unfold outFlags countedFlags
  rw [List.foldl_map]
  rfl

/-- The state of the result differs from the start in the units alone. -/
theorem vecResult_units (sh : VShape) (f : View → Nat → LaneOut) (s : State) (i : Issue) : UnitsOnly s (vecResult sh f s i).s := by
  unfold vecResult
  simp only []
  split
  · split
    · exact unitsOnly_memoLookup ..
    · exact (unitsOnly_memoLookup ..).trans (unitsOnly_takeUnit ..)
  · exact unitsOnly_takeUnit ..

/-- The writes of a vector operation, lane by lane. -/
theorem vecResult_writes (sh : VShape) (f : View → Nat → LaneOut) (own : Own) (s : State) (c : Cur) :
    (vecResult sh f (startState sh.uses s c) (issueOf sh.uses own s c)).writes =
      (runs sh.uses own s c).flatMap fun L => outWrites (s.blk c.blk).A (s.issuer c) sh.uses L (f (viewOf sh.uses own s c) L) := by
  have hi := startState_issuer sh.uses s c
  have hb : ((startState sh.uses s c).blk c.blk).A = (s.blk c.blk).A := by rw [startState_blk]
  unfold vecResult
  simp only [List.flatMap_map]
  have hg : ((startState sh.uses s c).blk (issueOf sh.uses own s c).c.blk).grp (issueOf sh.uses own s c).c.grp = s.issuer c := hi
  have ha : ((startState sh.uses s c).blk (issueOf sh.uses own s c).c.blk).A = (s.blk c.blk).A := hb
  rw [hg, ha]
  rfl

theorem mem_outWrites {A : Nat} {G : Group} {u : Uses} {L : Nat} {o : LaneOut} {w : RegKey × Word} (h : w ∈ outWrites A G u L o) :
    (∃ f n j, u.vdst = some (f, n) ∧ isPort f = false ∧ j < n ∧ w = (vKey A G L (f.toNat + j), o.words.getD j 0#32)) ∨
    (∃ p ∈ o.preds, w = (.p L p.1, Word.ofBool p.2)) := by
  unfold outWrites at h
  rcases List.mem_append.1 h with h | h
  · left
    cases hv : u.vdst with
    | none => simp [hv] at h
    | some d =>
      obtain ⟨f, n⟩ := d
      simp only [hv] at h
      cases hp : isPort f with
      | true => simp [hp] at h
      | false =>
        simp only [hp, Bool.false_eq_true, if_false] at h
        obtain ⟨j, hj, he⟩ := List.getElem_of_mem h
        have hj' : j < n ∧ j < o.words.length := by simpa [destKeys] using hj
        refine ⟨f, n, j, rfl, hp, hj'.1, ?_⟩
        rw [← he, List.getElem_zip]
        simp [destKeys, List.getD_eq_getElem?_getD, List.getElem?_eq_getElem hj'.2]
  · right
    obtain ⟨p, hp, rfl⟩ := List.mem_map.1 h
    exact ⟨p, hp, rfl⟩

theorem dest_in_outWrites {A : Nat} {G : Group} {u : Uses} {L : Nat} {o : LaneOut} {f : BitVec 7} {n j : Nat}
    (hv : u.vdst = some (f, n)) (hp : isPort f = false) (hj : j < n) (hl : o.words.length = n) :
    (vKey A G L (f.toNat + j), o.words.getD j 0#32) ∈ outWrites A G u L o := by
  unfold outWrites
  refine List.mem_append.2 (.inl ?_)
  simp only [hv, hp, Bool.false_eq_true, if_false]
  have hj' : j < (destKeys A G L f n).length ∧ j < o.words.length := ⟨by simpa [destKeys] using hj, by omega⟩
  have : ((destKeys A G L f n).zip o.words)[j]'(by simp; omega) = (vKey A G L (f.toNat + j), o.words.getD j 0#32) := by
    rw [List.getElem_zip]
    simp [destKeys, List.getD_eq_getElem?_getD, List.getElem?_eq_getElem hj'.2]
  rw [← this]
  exact List.getElem_mem _

theorem dests_eq {u : Uses} {f : BitVec 7} {n : Nat} (s : State) (c : Cur) (L : Nat) (hv : u.vdst = some (f, n)) (hp : isPort f = false) :
    dests u s c L = destKeys (s.blk c.blk).A (s.issuer c) L f n := by
  unfold dests
  simp [hv, hp]

theorem state_units {u : Uses} {t : State} (h : t = { startState u s c with cores := t.cores, ctxs := t.ctxs, units := t.units })
    (B : SMap Block) : ({ t with blocks := B } : State) =
      { s with fresh := t.fresh, blocks := B, cores := t.cores, ctxs := t.ctxs, units := t.units } := by
  have hf : t.fresh = s.fresh + 1 := by
    have := congrArg State.fresh h
    exact this
  refine (congrArg (fun x : State => ({ x with blocks := B } : State)) h).trans ?_
  rw [hf]
  rfl

/-- Ports at the end of an issue. -/
theorem portsMoved_of {u : Uses} {r : Result} {entry : List Word} (st : Stall)
    (hp : (r.s.blk c.blk).ports = (popPorts (s.blk c.blk).ports u.pops).2) (he : r.push = some entry) :
    PortsMoved u s c entry (endOf u own s c st r) := by
  have hb : ((endOf u own s c st r).blk c.blk).ports = match u.pushes, some entry with
      | some p, some e => mset [] (popPorts (s.blk c.blk).ports u.pops).2 p (mget [] (popPorts (s.blk c.blk).ports u.pops).2 p ++ [e])
      | _, _ => (popPorts (s.blk c.blk).ports u.pops).2 := by
    unfold endOf
    rw [finish_blk]
    simp only [hp, he]
    first
      | done
      | (cases u.pushes <;> rfl)
  constructor
  · intro p hq
    rw [hb, hq]
    exact mget_mset_self ..
  · intro p hq
    rw [hb]
    cases h : u.pushes with
    | none => rfl
    | some q => exact mget_mset_ne _ _ _ (fun e => hq (by rw [h, e]))

/-- THE VECTOR OPERATION (R193): where it issues and its unit accepts it, it answers a next state in which every executing lane has
its own result. -/
theorem vecOp_next (st : Stall) (h : Issuing sh.uses own s c)
    (hx : exchangeEarly sh s ⟨c, acting s c, [], s.fresh, s.cycleOf c.core⟩ = own) (hu : unitFree s c sh.unit = true)
    (hb : exchangeBad sh s (mayIssue sh.uses own s c) = false)
    (hlen : ∀ v L fd n, sh.uses.vdst = some (fd, n) → isPort fd = false → (f v L).words.length = n)
    (hpred : ∀ v L, ∀ p ∈ (f v L).preds, p.1 < 12 ∧ ∀ q ∈ (f v L).preds, q.1 = p.1 → q.2 = p.2) :
    ∃ t, vecOp sh st f s = .next t ∧ VecDone sh.uses own s c (f (viewOf sh.uses own s c)) t := by
  refine ⟨_, vecOp_eq st h hx hu hb, ?_⟩
  have hunits := vecResult_units sh f (startState sh.uses s c) (issueOf sh.uses own s c)
  have hw := vecResult_writes sh f own s c
  have hmem : ∀ w ∈ (vecResult sh f (startState sh.uses s c) (issueOf sh.uses own s c)).writes,
      ∃ L ∈ runs sh.uses own s c, w ∈ outWrites (s.blk c.blk).A (s.issuer c) sh.uses L (f (viewOf sh.uses own s c) L) := fun w hm => by
    rw [hw] at hm
    exact List.mem_flatMap.1 hm
  have hin : ∀ L ∈ runs sh.uses own s c, ∀ w ∈ outWrites (s.blk c.blk).A (s.issuer c) sh.uses L (f (viewOf sh.uses own s c) L),
      w ∈ (vecResult sh f (startState sh.uses s c) (issueOf sh.uses own s c)).writes := fun L hL w hm => by
    rw [hw]
    exact List.mem_flatMap.2 ⟨L, hL, hm⟩
  have hk : Keeps sh.uses own s c
      { keys := (runs sh.uses own s c).flatMap fun L => dests sh.uses s c L ++ (f (viewOf sh.uses own s c) L).preds.map fun p => RegKey.p L p.1
        flags := countedFlags s c (runs sh.uses own s c) (f (viewOf sh.uses own s c)) }
      (vecResult sh f (startState sh.uses s c) (issueOf sh.uses own s c)) := by
    refine keeps_plain h ((hunits.issuer c).trans (startState_issuer ..)) hunits.cur rfl rfl rfl rfl rfl ?_ ?_ ?_ ?_ rfl rfl rfl rfl
    · intro w hm
      obtain ⟨L, hL, ho⟩ := hmem w hm
      rcases mem_outWrites ho with ⟨fd, n, j, hv, hp, hj, rfl⟩ | ⟨p, hp, rfl⟩
      · refine ⟨List.mem_flatMap.2 ⟨L, hL, List.mem_append.2 (.inl ?_)⟩, rfl⟩
        rw [dests_eq s c L hv hp]
        exact List.mem_map.2 ⟨j, List.mem_range.2 hj, rfl⟩
      · refine ⟨List.mem_flatMap.2 ⟨L, hL, List.mem_append.2 (.inr (List.mem_map.2 ⟨p, hp, rfl⟩))⟩, ?_⟩
        simpa [RegKey.exists] using (hpred _ L p hp).1
    · intro w hm M x he
      obtain ⟨L, hL, ho⟩ := hmem w hm
      rcases mem_outWrites ho with ⟨fd, n, j, hv, hp, hj, rfl⟩ | ⟨p, hp, rfl⟩
      · obtain ⟨rfl, _⟩ := RegKey.v.inj he
        exact hL
      · exact RegKey.noConfusion he
    · intro w hm M x he
      obtain ⟨L, hL, ho⟩ := hmem w hm
      rcases mem_outWrites ho with ⟨fd, n, j, hv, hp, hj, rfl⟩ | ⟨p, hp, rfl⟩
      · exact RegKey.noConfusion he
      · obtain ⟨rfl, _⟩ := RegKey.p.inj he
        exact hL
    · have hg : (startState sh.uses s c).issuer c = s.issuer c := startState_issuer ..
      have hb : ((startState sh.uses s c).blk c.blk).A = (s.blk c.blk).A := by rw [startState_blk]
      rw [← outFlags_eq]
      unfold vecResult
      simp only []
      have hg' : ((startState sh.uses s c).blk (issueOf sh.uses own s c).c.blk).grp (issueOf sh.uses own s c).c.grp = s.issuer c := hg
      have hb' : ((startState sh.uses s c).blk (issueOf sh.uses own s c).c.blk).A = (s.blk c.blk).A := hb
      rw [hg', hb']
      rfl
  refine ⟨issued_of_keeps h hk st, ?_, ?_, ?_, ?_, ?_⟩
  · intro L hL fd n j hv hp hj hd
    refine (endOf_written h hk st _ ((f (viewOf sh.uses own s c) L).words.getD j 0#32) (not_zeroed hL) ?_
      ⟨_, hin L hL _ (dest_in_outWrites hv hp hj (hlen _ L fd n hv hp)), rfl⟩).trans rfl
    intro w hm he
    obtain ⟨M, hM, ho⟩ := hmem w hm
    rcases mem_outWrites ho with ⟨fd', n', k, hv', hp', hk', rfl⟩ | ⟨p, hp', rfl⟩
    · rw [hv] at hv'
      obtain ⟨rfl, rfl⟩ : fd = fd' ∧ n = n' := by simpa using hv'
      obtain ⟨rfl, hx'⟩ := RegKey.v.inj he
      have : k = j := hd k hk' (by simpa [State.vReg, vKey] using hx')
      rw [this]
    · exact RegKey.noConfusion he
  · intro L hL p hp
    have hpin : (RegKey.p L p.1, Word.ofBool p.2) ∈ outWrites (s.blk c.blk).A (s.issuer c) sh.uses L (f (viewOf sh.uses own s c) L) :=
      List.mem_append.2 (.inr (List.mem_map.2 ⟨p, hp, rfl⟩))
    refine (endOf_written h hk st _ (Word.ofBool p.2) (not_zeroed_p hL) ?_ ⟨_, hin L hL _ hpin, rfl⟩).trans (keep_ofBool _ _)
    intro w hm he
    obtain ⟨M, hM, ho⟩ := hmem w hm
    rcases mem_outWrites ho with ⟨fd', n', k, hv', hp', hk', rfl⟩ | ⟨q, hq, rfl⟩
    · exact RegKey.noConfusion he
    · obtain ⟨rfl, hx'⟩ := RegKey.p.inj he
      exact congrArg Word.ofBool ((hpred _ M p hp).2 q hq hx')
  · refine portsMoved_of st ?_ ?_
    · rw [hunits.blk, startState_blk]
    · unfold vecResult
      simp only [pushEntry_eq]
      have hg' : ((startState sh.uses s c).blk (issueOf sh.uses own s c).c.blk).grp (issueOf sh.uses own s c).c.grp = s.issuer c :=
        startState_issuer ..
      have hb' : ((startState sh.uses s c).blk (issueOf sh.uses own s c).c.blk).A = (s.blk c.blk).A := by
        show ((startState sh.uses s c).blk c.blk).A = _
        rw [startState_blk]
      rw [hg', hb']
      rfl
  · refine blockKept_of st (fun v hv => ?_) (fun g hg => ?_) ?_
    · rw [hunits.blk, startState_blk_ne _ _ _ hv]
    · show ((vecResult sh f (startState sh.uses s c) (issueOf sh.uses own s c)).s.blk c.blk).grp g = _
      rw [hunits.blk, startState_blk]
      rfl
    · rw [hunits.blk, startState_blk]
  · refine ⟨?_, fun n => ?_, fun n => ?_⟩
    · exact state_units hunits.state _
    · exact hunits.ctxs n
    · exact hunits.cores n

end

/-- An instruction that is a vector operation without exchange. -/
theorem vecDoes_of {i : Instr} (sh : VShape) (f : View → Nat → LaneOut) {st : Stall} {g : View → Nat → LaneOut}
    (he : ∀ s, exec i s = vecOp sh st f s) (hs : sh.src = none) (hg : g = f)
    (hlen : ∀ v L fd n, sh.uses.vdst = some (fd, n) → isPort fd = false → (f v L).words.length = n)
    (hp : ∀ v L, ∀ p ∈ (f v L).preds, p.1 < 12 ∧ ∀ q ∈ (f v L).preds, q.1 = p.1 → q.2 = p.2) :
    VecDoes i sh.uses sh.unit g := by
  subst hg
  intro s c h hu
  rw [he]
  have hk : ∀ i L, exchangeKey sh s i L = none := fun i L => by unfold exchangeKey; rw [hs]
  refine vecOp_next st h ?_ hu ?_ hlen hp
  · funext L
    simp [exchangeEarly, hk, noOwn]
  · simp [exchangeBad, hk]

theorem int2_does {i : Instr} {d a b : VReg} {st : Stall} (f : Word → Word → Word) {g : Word → Word → Word}
    (he : ∀ s, exec i s = int2 d a b st f s) (hg : ∀ x y, g x y = f x y) : VecDoes i (useR d a b) .main (onAB g) :=
  vecDoes_of { uses := useR d a b, lat := 4 } (fun v L => one (f (arg (v.args L) 0) (arg (v.args L) 1))) he rfl
    (by funext v L; simp [onAB, hg]) (by intro v L fd n h _; simp [useR] at h; simp [one, h]) (by simp [one])

theorem int3_does {i : Instr} {d a b : VReg} {st : Stall} (f : Word → Word → Word → Word) {g : Word → Word → Word → Word}
    (he : ∀ s, exec i s = int3 d a b st f s) (hg : ∀ x y z, g x y z = f x y z) : VecDoes i (useRD d a b) .main (onABD g) :=
  vecDoes_of { uses := useRD d a b, lat := 4 } (fun v L => one (f (arg (v.args L) 0) (arg (v.args L) 1) (arg (v.args L) 2))) he rfl
    (by funext v L; simp [onABD, hg]) (by intro v L fd n h _; simp [useRD] at h; simp [one, h]) (by simp [one])

theorem int1_does {i : Instr} {d a : VReg} {st : Stall} (f : Word → Word) {g : Word → Word}
    (he : ∀ s, exec i s = int1 d a st f s) (hg : ∀ x, g x = f x) : VecDoes i (use1 d a) .main (onA g) :=
  vecDoes_of { uses := use1 d a, lat := 4 } (fun v L => one (f (arg (v.args L) 0))) he rfl
    (by funext v L; simp [onA, hg]) (by intro v L fd n h _; simp [use1] at h; simp [one, h]) (by simp [one])

theorem intCmp_does {i : Instr} {p : BitVec 4} {a b : VReg} {st : Stall} (f : Word → Word → Bool) {g : Word → Word → Bool}
    (hp : p.toNat < 12) (he : ∀ s, exec i s = intCmp p a b st f s) (hg : ∀ x y, g x y = f x y) :
    VecDoes i { vsrc := [(a, 1), (b, 1)], pdst := [p.toNat] } .main (predAB p g) :=
  vecDoes_of { uses := { vsrc := [(a, 1), (b, 1)], pdst := [p.toNat] }, lat := 4, cform := true }
    (fun v L => { preds := [(p.toNat, f (arg (v.args L) 0) (arg (v.args L) 1))] }) he rfl
    (by funext v L; simp [predAB, hg]) (by intro v L fd n h; simp at h) (by simp [hp])

end Sys2Proof.Machine
end

