-- ==== Sys2Proof/Laws/Control.lean ====
section
/-! SUPPORT. Instructions that change their own group and lanes at issue (R149-R164): what their body must do for its instruction to
leave an effect. -/

namespace Sys2Proof.Machine

section
variable {u : Uses} {own : Own} {s : State} {c : Cur} {e : Eff} {r : Result}

theorem runs_nodup (h : Issuing u own s c) : (runs u own s c).Nodup :=
  ((h.nodup.filter _).filter _)

/-- A change of each lane of a list, lane by lane. -/
theorem fold_setLane (f : Nat → Lane → Lane) : ∀ (lanes : List Nat) (G : Group), lanes.Nodup →
    let H := lanes.foldl (fun g L => g.setLane L (f L (g.lane L))) G
    (∀ L, H.lane L = if L ∈ lanes then f L (G.lane L) else G.lane L) ∧ H = { G with lanes := H.lanes }
  | [], G, _ => by simp
  | L :: r, G, h => by
    obtain ⟨h1, h2⟩ := List.nodup_cons.1 h
    obtain ⟨i1, i2⟩ := fold_setLane f r (G.setLane L (f L (G.lane L))) h2
    refine ⟨fun M => ?_, ?_⟩
    · show (List.foldl _ (G.setLane L (f L (G.lane L))) r).lane M = _
      rw [i1, lane_setLane_if]
      by_cases hM : M = L
      · subst hM; simp [h1]
      · simp [hM]
    · show List.foldl _ (G.setLane L (f L (G.lane L))) r = _
      exact i2.trans rfl

theorem setGrp_issuer (s : State) (c : Cur) (G : Group) : (s.setGrp c.blk c.grp G).issuer c = G := state_grp_setGrp ..
theorem setGrp_cur (s : State) (u g : Nat) (G : Group) : (s.setGrp u g G).cur = s.cur := rfl

/-- A body that changes only its group: the group without its lanes as the effect says, each lane as the effect says. -/
theorem keeps_of_group (h : Issuing u own s c) {G : Group} (hs : r.s = (startState u s c).setGrp c.blk c.grp G)
    (hg : G = { e.grp (s.issuer c) with lanes := G.lanes })
    (h1 : (e.grp (s.issuer c)).k = (s.issuer c).k) (h2 : (e.grp (s.issuer c)).kp = (s.issuer c).kp)
    (h3 : (e.grp (s.issuer c)).fpsr = (s.issuer c).fpsr)
    (hl : ∀ L, G.lane L = if L ∈ runs u own s c then e.lane L (s.lane c L) else s.lane c L)
    (h4 : ∀ L ∈ runs u own s c, (e.lane L (s.lane c L)).pc = (s.lane c L).pc ∧ (e.lane L (s.lane c L)).gflag = (s.lane c L).gflag ∧
      (e.lane L (s.lane c L)).gcount = (s.lane c L).gcount ∧ (e.lane L (s.lane c L)).stack = (s.lane c L).stack ∧
      (e.lane L (s.lane c L)).preds = (s.lane c L).preds)
    (hk : ∀ w ∈ r.writes, w.1 ∈ e.keys ∧ w.1.exists = true) (hv : ∀ w ∈ r.writes, ∀ L x, w.1 = .v L x ∨ w.1 = .p L x → L ∈ runs u own s c)
    (hf : r.flags = e.flags)
    (hj : ∀ L, (r.pcs.find? fun p => p.1 == L).map (·.2) = if L ∈ runs u own s c then e.jump L else none)
    (hd : ∀ L, (r.guards.find? fun p => p.1 == L).map (·.2) = if L ∈ runs u own s c then e.guard L else none)
    (hq : ∀ L, r.keeps.contains L = (e.stays && decide (L ∈ runs u own s c))) (hp : r.parks = []) : Keeps u own s c e r := by
  have hi : r.s.issuer c = G := by rw [hs, setGrp_issuer]
  exact {
    cur := by rw [hs]; exact h.cur
    group := by rw [hi]; exact hg
    k := h1, kp := h2, fpsr := h3
    lanes := fun L => by unfold State.lane; rw [hi]; exact hl L
    lane := h4, keys := hk
    vlane := fun w hw L x he => hv w hw L x (.inl he)
    plane := fun w hw L x he => hv w hw L x (.inr he)
    flags := hf, jump := hj, guard := hd, stays := hq, parks := hp }

theorem blockKept_group (st : Stall) {G : Group} (hs : r.s = (startState u s c).setGrp c.blk c.grp G) :
    BlockKept s c (endOf u own s c st r) := by
  refine blockKept_of st (fun v hv => ?_) (fun g hg => ?_) ?_
  · rw [hs, State.setGrp, blk_setBlk_ne _ _ hv, startState_blk_ne _ _ _ hv]
  · rw [hs, State.setGrp, State.grp, blk_setBlk, grp_setGrp_ne _ _ hg]
    exact (congrArg (fun b : Block => b.grp g) (startState_blk u s c)).trans rfl
  · rw [hs, State.setGrp, blk_setBlk, startState_blk]
    rfl

theorem onlyBlocks_group (st : Stall) {G : Group} (hs : r.s = (startState u s c).setGrp c.blk c.grp G) :
    OnlyBlocks s (endOf u own s c st r) := by
  unfold OnlyBlocks endOf
  rw [finish_state, hs]
  rfl

theorem find_pairs {α : Type} (lanes : List Nat) (g : Nat → α) (L : Nat) :
    ((lanes.map fun L => (L, g L)).find? fun o => o.1 == L).map (·.2) = if L ∈ lanes then some (g L) else none := by
  induction lanes with
  | nil => simp
  | cons M r ih =>
    by_cases hM : M = L
    · subst hM; simp
    · have : ¬ L = M := fun e => hM e.symm
      simp only [List.map_cons, List.find?_cons, List.mem_cons, this, false_or]
      rw [show (M == L) = false by simpa using hM]
      exact ih

end

/-- An issue whose body changes only its group leaves its effect. -/
theorem leaves_issue {u : Uses} {own : Own} {s : State} {c : Cur} {e : Eff} {st : Stall} {extra : State → Issue → Nat → Option Cause}
    {body : State → Issue → Result} (h : Issuing u own s c) (hx : extra s ⟨c, acting s c, [], s.fresh, s.cycleOf c.core⟩ = own) (G : Group)
    (hs : (body (startState u s c) (issueOf u own s c)).s = (startState u s c).setGrp c.blk c.grp G)
    (hk : Keeps u own s c e (body (startState u s c) (issueOf u own s c))) : ∃ t, issueWith u st extra isReady body s = .next t ∧
      Issued u own s c e t ∧ BlockKept s c t ∧ OnlyBlocks s t :=
  ⟨_, issueWith_eq h st extra isReady body hx rfl rfl, issued_of_keeps h hk st, blockKept_group st hs, onlyBlocks_group st hs⟩

/-- A body that changes no state of its own: where the lanes go, and what they write. -/
theorem keeps_still {u : Uses} {own : Own} {s : State} {c : Cur} {e : Eff} {r : Result} (h : Issuing u own s c) (hs : r.s = startState u s c)
    (hl : e.lane = fun _ l => l) (hg : e.grp = fun G => G)
    (hk : ∀ w ∈ r.writes, w.1 ∈ e.keys ∧ w.1.exists = true) (hv : ∀ w ∈ r.writes, ∀ L x, w.1 = .v L x ∨ w.1 = .p L x → L ∈ runs u own s c)
    (hf : r.flags = e.flags)
    (hj : ∀ L, (r.pcs.find? fun p => p.1 == L).map (·.2) = if L ∈ runs u own s c then e.jump L else none)
    (hd : ∀ L, (r.guards.find? fun p => p.1 == L).map (·.2) = if L ∈ runs u own s c then e.guard L else none)
    (hq : ∀ L, r.keeps.contains L = (e.stays && decide (L ∈ runs u own s c))) (hp : r.parks = []) : Keeps u own s c e r := by
  have hi : r.s.issuer c = s.issuer c := by rw [hs, startState_issuer]
  exact {
    cur := by rw [hs]; exact h.cur
    group := by rw [hg, hi]
    k := by rw [hg], kp := by rw [hg], fpsr := by rw [hg]
    lanes := fun L => by rw [hl]; simp only [ite_self]; exact congrArg (fun G : Group => G.lane L) hi
    lane := fun L _ => by rw [hl]; exact ⟨rfl, rfl, rfl, rfl, rfl⟩
    keys := hk
    vlane := fun w hw L x he => hv w hw L x (.inl he)
    plane := fun w hw L x he => hv w hw L x (.inr he)
    flags := hf, jump := hj, guard := hd, stays := hq, parks := hp }

theorem blockKept_still {u : Uses} {own : Own} {s : State} {c : Cur} {r : Result} (st : Stall) (hs : r.s = startState u s c) :
    BlockKept s c (endOf u own s c st r) := by
  refine blockKept_of st (fun v hv => ?_) (fun g _ => ?_) ?_
  · rw [hs, startState_blk_ne _ _ _ hv]
  · rw [hs]
    exact (congrArg (fun b : Block => b.grp g) (startState_blk u s c)).trans rfl
  · rw [hs, startState_blk]

theorem onlyBlocks_still {u : Uses} {own : Own} {s : State} {c : Cur} {r : Result} (st : Stall) (hs : r.s = startState u s c) :
    OnlyBlocks s (endOf u own s c st r) := by
  unfold OnlyBlocks endOf
  rw [finish_state, hs]
  rfl

/-- An issue whose body changes no state of its own leaves its effect. -/
theorem leaves_still {u : Uses} {own : Own} {s : State} {c : Cur} {e : Eff} {st : Stall} {extra : State → Issue → Nat → Option Cause}
    {body : State → Issue → Result} (h : Issuing u own s c) (hx : extra s ⟨c, acting s c, [], s.fresh, s.cycleOf c.core⟩ = own)
    (hs : (body (startState u s c) (issueOf u own s c)).s = startState u s c)
    (hk : Keeps u own s c e (body (startState u s c) (issueOf u own s c))) : ∃ t, issueWith u st extra isReady body s = .next t ∧
      Issued u own s c e t ∧ BlockKept s c t ∧ OnlyBlocks s t :=
  ⟨_, issueWith_eq h st extra isReady body hx rfl rfl, issued_of_keeps h hk st, blockKept_still st hs, onlyBlocks_still st hs⟩

/-- The group, and the depth of a lane's stack, as a body sees them. -/
theorem start_grp (u : Uses) (own : Own) (s : State) (c : Cur) :
    (startState u s c).grp (issueOf u own s c).c.blk (issueOf u own s c).c.grp = s.issuer c := startState_issuer u s c
theorem start_A (u : Uses) (own : Own) (s : State) (c : Cur) : ((startState u s c).blk (issueOf u own s c).c.blk).A = (s.blk c.blk).A :=
  (congrArg Block.A (startState_blk u s c)).trans rfl

end Sys2Proof.Machine
end

