-- ==== Sys2Proof/Laws/Link.lean ====
section
/-! SUPPORT. What a block of a link is built of: its length, and a CRC that is good (R364). -/

namespace Sys2Proof

open Machine

theorem leBytes_length (n v : Nat) : (leBytes n v).length = n := by
  induction n generalizing v with
  | zero => rfl
  | succ n ih => simp [leBytes, ih]

theorem leNat_leBytes (n v : Nat) : leNat (leBytes n v) = v % 256 ^ n := by
  induction n generalizing v with
  | zero => simp [leBytes, leNat, Nat.mod_one]
  | succ n ih =>
    simp only [leBytes, leNat, ih, BitVec.toNat_ofNat]
    rw [pow_succ 256 n, Nat.mul_comm (256 ^ n) 256, Nat.mod_mul]

theorem crcBit_lt (n : Nat) {c : Nat} (h : c < 2 ^ 32) : crcBit n c < 2 ^ 32 := by
  induction n generalizing c with
  | zero => exact h
  | succ n ih =>
    rw [crcBit]
    split
    · exact ih (Nat.xor_lt_two_pow (by omega) (by decide))
    · exact ih (by omega)

theorem crcBytes_lt (bs : List Byte) {c : Nat} (h : c < 2 ^ 32) : crcBytes c bs < 2 ^ 32 := by
  induction bs generalizing c with
  | nil => exact h
  | cons b r ih => exact ih (crcBit_lt 8 (Nat.xor_lt_two_pow h (by have := b.isLt; omega)))

theorem crc32_lt (bs : List Byte) : crc32 bs < 2 ^ 32 := Nat.xor_lt_two_pow (crcBytes_lt bs (by decide)) (by decide)

/-- A block of whole flits has its length and its CRC. -/
theorem mkBlock_good {flits : List (List Byte)} {seq : Nat} {ack : Option Nat} {nak : Bool} {credits : List Nat} {b : LinkBlock}
    (e : b = mkBlock flits seq ack nak credits) (h : ∀ f ∈ flits, f.length = 32) : b.good = true := by
  subst e
  have hl : ∀ l : List (List Byte), (∀ f ∈ l, f.length = 32) → l.flatten.length = 32 * l.length := by
    intro l hl
    induction l with
    | nil => rfl
    | cons f r ih =>
      rw [List.flatten_cons, List.length_append, hl f (by simp), ih fun g hg => hl g (by simp [hg]), List.length_cons]
      omega
  have h16 := hl (flits.take 16) fun f hf => h f (List.mem_of_mem_take hf)
  have hn : (flits.take 16).length ≤ 16 := by simp
  have hc : ((List.range 8).flatMap fun v => leBytes 2 (credits.getD v 0)).length = 16 := by
    simp [List.length_flatMap, leBytes_length]
  simp only [LinkBlock.good, mkBlock, Bool.and_eq_true, beq_iff_eq]
  generalize hh : (leBytes 2 (seq % 4096) ++ _ ++ _ ++ List.replicate 8 0#8 : List Byte) = head
  have h28 : head.length = 28 := by
    rw [← hh]
    simp [leBytes_length]
  refine ⟨⟨?_, ?_⟩, ?_⟩
  · rw [List.length_append, h16, List.length_replicate]
    omega
  · rw [List.length_append, h28, leBytes_length]
  · rw [← h28, List.drop_left, List.take_left, leNat_leBytes, Nat.mod_eq_of_lt (by have := crc32_lt; simpa using this _)]

end Sys2Proof
end

