-- ==== Sys2Proof/Laws/Memory.lean ====
section
/-! SUPPORT. Memory: every operation that writes it keeps its canonical form; what a write of local memory leaves of every line, and what
reads back. -/

namespace Sys2Proof.Machine

/-! ## What does not touch memory -/

theorem memoMap_mem (s : State) (f : Nat → List Memo → List Memo) : (s.memoMap f).mem = s.mem := rfl
theorem invalidate_mem (s : State) (line : Nat) (core : Option Nat) (st : Nat) : (s.invalidate line core st).mem = s.mem := rfl
theorem takeStamp_mem (s : State) (n f : Nat) : (s.takeStamp n f).2.mem = s.mem := rfl
theorem emit_mem (s : State) (k c : Nat) (p : List Byte) : (s.emit k c p).mem = s.mem := rfl
theorem dropped_mem (s : State) (h c o : Nat) : (s.dropped h c o).mem = s.mem := rfl

/-- What a line of local memory is stored as depends on these parts of the state alone. -/
structure SameMemory (s t : State) : Prop where
  mem     : t.mem = s.mem
  lines   : t.lines = s.lines
  pageGen : t.pageGen = s.pageGen
  maps    : t.maps = s.maps

theorem SameMemory.refl (s : State) : SameMemory s s := ⟨rfl, rfl, rfl, rfl⟩
theorem SameMemory.trans {s t r : State} (a : SameMemory s t) (b : SameMemory t r) : SameMemory s r :=
  ⟨b.mem.trans a.mem, b.lines.trans a.lines, b.pageGen.trans a.pageGen, b.maps.trans a.maps⟩

/-- What is counted touches no memory. -/
theorem sameMemory_count (s : State) (ctx ev n : Nat) : SameMemory s (s.count ctx ev n) := ⟨rfl, rfl, rfl, rfl⟩
theorem sameMemory_unitAdd (s : State) (unit idx n : Nat) : SameMemory s (s.unitAdd unit idx n) := ⟨rfl, rfl, rfl, rfl⟩
theorem sameMemory_late (s : State) (ctx unit base cls since n : Nat) : SameMemory s (s.late ctx unit base cls since n) := by
  unfold State.late
  split
  · exact .refl s
  · exact ⟨rfl, rfl, rfl, rfl⟩
theorem sameMemory_lateUnit (s : State) (unit base cls since n : Nat) : SameMemory s (s.lateUnit unit base cls since n) := by
  unfold State.lateUnit
  split
  · exact .refl s
  · exact ⟨rfl, rfl, rfl, rfl⟩
theorem sameMemory_served (s : State) (slice cls n : Nat) : SameMemory s (s.served slice cls n) := ⟨rfl, rfl, rfl, rfl⟩
theorem sameMemory_noteSeen (s : State) (p : Pend) (what n : Nat) : SameMemory s (s.noteSeen p what n) := ⟨rfl, rfl, rfl, rfl⟩
theorem sameMemory_countWalk (s : State) (core ctx since : Nat) (found : Option Tlb) (first : Bool) :
    SameMemory s (s.countWalk core ctx since found first) := by
  have h := ((sameMemory_count s ctx 0x08 (if first && !found.any (·.unit == core) then 1 else 0)).trans
    (sameMemory_count _ ctx 0x09 (if found.isSome then 0 else 1))).trans
    (sameMemory_unitAdd _ (656 + dieOf core) 0 (if found.isSome then 0 else 1))
  unfold State.countWalk
  by_cases c : (if found.isSome = true then 0 else 1) = 0
  · rw [if_pos c]
    exact h
  · rw [if_neg c]
    exact (h.trans (sameMemory_served ..)).trans (sameMemory_late ..)

theorem SameMemory.da {s t : State} (h : SameMemory s t) (off : Nat) : t.da off = s.da off := by
  simp only [State.da, State.matrix, h.maps]

theorem SameMemory.readLocal {s t : State} (h : SameMemory s t) (key : BitVec 256) (off n : Nat) :
    t.readLocal key off n = s.readLocal key off n := by
  simp only [State.readLocal, h.da, h.lines, h.mem]

/-- A fold of steps that leave memory alone leaves it alone. -/
theorem sameMemory_foldl {α : Type} (f : State → α → State) (h : ∀ s x, SameMemory s (f s x)) : ∀ (l : List α) (s : State),
    SameMemory s (l.foldl f s)
  | [], s => .refl s
  | x :: l, s => (h s x).trans (sameMemory_foldl f h l _)

theorem sameMemory_setCir (s : State) (n bit : Nat) : SameMemory s (s.setCir n bit) := ⟨rfl, rfl, rfl, rfl⟩
theorem sameMemory_emit (s : State) (kind ctx : Nat) (p : List Byte) : SameMemory s (s.emit kind ctx p) := ⟨rfl, rfl, rfl, rfl⟩

/-- What is sent touches no memory. -/
theorem sameMemory_tellAll (s : State) (code : Nat) (data : List Byte) : SameMemory s (s.tellAll code data) :=
  sameMemory_foldl (fun s d => (s.sendPkt 9 5 0 d 0 0 0 [BitVec.ofNat 8 code, s.island.inc] data).2) (fun _ _ => ⟨rfl, rfl, rfl, rfl⟩) _ s
theorem sameMemory_pinGone (s : State) (stamp : Nat) : SameMemory s (s.pinGone stamp) :=
  SameMemory.trans (t := s.endStalls stamp) ⟨rfl, rfl, rfl, rfl⟩ (sameMemory_tellAll ..)

theorem sameMemory_breakPin (s : State) (k h : Nat) : SameMemory s (s.breakPin k h) := by
  unfold State.breakPin
  dsimp only
  split
  · exact .refl s
  · have g : ∀ (c : Ctx) n, SameMemory s ((s.setCtx k c).pinGone n) := fun c n =>
      SameMemory.trans (t := s.setCtx k c) ⟨rfl, rfl, rfl, rfl⟩ (sameMemory_pinGone ..)
    split
    · exact (g _ _).trans (sameMemory_setCir ..)
    · exact (g _ _).trans (sameMemory_emit ..)

theorem sameMemory_reclaim (s : State) (n : Nat) : SameMemory s (s.reclaim n) := by
  unfold State.reclaim
  dsimp only
  split
  · have h := sameMemory_foldl (fun (s : State) (p : Nat × Nat) => s.breakPin p.1 p.2) (fun s p => sameMemory_breakPin s p.1 p.2)
      (s.pinsBelow (mget {} (s.ring n).entries (s.ring n).oldest : HistEntry).stamp) s
    generalize (s.pinsBelow (mget {} (s.ring n).entries (s.ring n).oldest : HistEntry).stamp).foldl
      (fun (s : State) (p : Nat × Nat) => s.breakPin p.1 p.2) s = t at h ⊢
    exact h.trans ⟨rfl, rfl, rfl, rfl⟩
  · exact .refl s

theorem sameMemory_notePast (s : State) (d n : Nat) : SameMemory s (s.notePast d n) := ⟨rfl, rfl, rfl, rfl⟩

theorem sameMemory_logAppend (s : State) (line st : Nat) : SameMemory s (s.logAppend line st) := by
  have h : SameMemory s (if s.ringFull (daStack (line * 128)) && decide ((s.ring (daStack (line * 128))).oldest < (s.ring (daStack (line * 128))).next)
      then s.reclaim (daStack (line * 128)) else s) := by
    split
    · exact sameMemory_reclaim s _
    · exact .refl s
  unfold State.logAppend
  dsimp only
  generalize (if (s.ringFull (daStack (line * 128)) && decide ((s.ring (daStack (line * 128))).oldest < (s.ring (daStack (line * 128))).next)) = true
      then s.reclaim (daStack (line * 128)) else s) = x at h ⊢
  have k : ∀ (y : State) (n : Nat) (c : Prop) [Decidable c], SameMemory x y → SameMemory x (if c then y.reclaim n else y) := by
    intro y n c _ hy
    split
    · exact hy.trans (sameMemory_reclaim y n)
    · exact hy
  exact h.trans (k _ _ _ ⟨rfl, rfl, rfl, rfl⟩)

theorem sameMemory_clearPoison (s : State) (off n : Nat) : SameMemory s (s.clearPoison off n) := by
  unfold State.clearPoison
  dsimp only
  generalize List.range ((off + n - (off + 31) / 32 * 32) / 32) = l
  induction l generalizing s with
  | nil => exact .refl s
  | cons x l ih => exact .trans (t := { s with poison := mset false s.poison (s.da ((off + 31) / 32 * 32 + 32 * x) / 32) false }) ⟨rfl, rfl, rfl, rfl⟩ (ih _)

theorem sameMemory_takeStamp (s : State) (n f : Nat) : SameMemory s (s.takeStamp n f).2 := ⟨rfl, rfl, rfl, rfl⟩

/-! ## Writing a line -/

theorem writeLocal_wf (s : State) (key : BitVec 256) (off : Nat) (bs : List Byte) (h : Memory.wf s.mem = true) :
    Memory.wf (s.writeLocal key off bs).mem = true := by
  unfold State.writeLocal
  dsimp only
  split
  · exact wrBytes_wf _ _ _ h
  · exact wrBytes_wf _ _ _ (wrBytes_wf _ _ _ h)

theorem writeLocal_congr {s t : State} (h : SameMemory s t) (key : BitVec 256) (off : Nat) (bs : List Byte) :
    SameMemory (s.writeLocal key off bs) (t.writeLocal key off bs) := by
  refine ⟨?_, ?_, h.pageGen, h.maps⟩ <;> simp only [State.writeLocal, h.da, h.lines, h.mem, h.pageGen, h.readLocal]

theorem sameMemory_stored (x : State) (hist : Bool) (m : SMap Nat) (line : Nat) (core : Option Nat) (st : Nat) :
    SameMemory x ((if hist = true then { x with lastWrite := m } else x).invalidate line core st) := by
  cases hist <;> exact ⟨rfl, rfl, rfl, rfl⟩

theorem sameMemory_stamped (s : State) (c : Bool) (n f : Nat) : SameMemory s (if c = true then s.takeStamp n f else (0, s)).2 := by
  cases c
  · exact .refl s
  · exact sameMemory_takeStamp s n f

theorem sameMemory_logged (s : State) (c : Bool) (line st : Nat) : SameMemory s (if c = true then s.logAppend line st else s) := by
  cases c
  · exact .refl s
  · exact sameMemory_logAppend s line st

/-- A store leaves memory as the write of its line does. -/
theorem storeLocal_memory (s : State) (key : BitVec 256) (off : Nat) (bs : List Byte) (hist rel : Bool) (floor : Nat) (core : Option Nat) :
    SameMemory (s.writeLocal key off bs) (s.storeLocal key off bs hist rel floor core).2 := by
  unfold State.storeLocal
  dsimp only
  have h1 := sameMemory_stamped s (hist || rel) (daSlice (s.da off)) floor
  generalize (if (hist || rel) = true then s.takeStamp (daSlice (s.da off)) floor else (0, s)) = t at h1 ⊢
  have h2 := h1.trans (sameMemory_logged t.2 hist (s.da off / 128) t.1)
  generalize (if hist = true then t.2.logAppend (s.da off / 128) t.1 else t.2) = x at h2 ⊢
  have h3 := (writeLocal_congr (h2.trans (sameMemory_notePast x (s.da off) bs.length)) key off bs).trans
    (sameMemory_clearPoison ((x.notePast (s.da off) bs.length).writeLocal key off bs) off bs.length)
  generalize ((x.notePast (s.da off) bs.length).writeLocal key off bs).clearPoison off bs.length = y at h3 ⊢
  exact h3.trans (sameMemory_stored y hist _ _ _ _)

theorem storeLocal_wf (s : State) (key : BitVec 256) (off : Nat) (bs : List Byte) (hist rel : Bool) (floor : Nat) (core : Option Nat)
    (h : Memory.wf s.mem = true) : Memory.wf (s.storeLocal key off bs hist rel floor core).2.mem = true := by
  rw [(storeLocal_memory ..).mem]
  exact writeLocal_wf s key off bs h

theorem readLocal_length (s : State) (key : BitVec 256) (off n : Nat) : (s.readLocal key off n).length = n := by
  simp [State.readLocal]

theorem readLocal_getD (s : State) (key : BitVec 256) (off n j : Nat) (h : j < n) : (s.readLocal key off n).getD j 0#8 =
    seenByte key (off / 128) (mget {} s.lines (s.da (off / 128 * 128) / 128)) (off % 128 + j)
      (mget 0#8 s.mem (s.da (off / 128 * 128) + (off % 128 + j))) := by
  simp [State.readLocal, h]

/-- What a write of a line whose counter is not full leaves: the bytes, and the rest of the line, as its key reads them; no other
line. -/
theorem lineWritten_writeLocal (s : State) (key : BitVec 256) (off : Nat) (bs : List Byte) (hf : s.lineFull off = false)
    (hl : off % 128 + bs.length ≤ 128) : LineWritten s key off bs (s.writeLocal key off bs) := by
  have hda : ∀ x, (s.writeLocal key off bs).da x = s.da x := fun x => rfl
  have e1 : off / 128 * 128 / 128 = off / 128 := by omega
  have e2 : off / 128 * 128 % 128 = 0 := by omega
  refine ⟨fun j hj => ?_, fun x hx => ?_, fun n hn => ?_⟩
  · rw [readLocal_getD _ _ _ _ _ hj, readLocal_getD _ _ _ _ _ hj, hda, e1, e2]
    set d := s.da (off / 128 * 128) with hd
    simp only [Nat.zero_add, State.writeLocal, ← hd, mget_mset_self, seenByte]
    have hc : (mget {} s.lines (d / 128) : LineMeta).ctr + 1 ≠ 0#56 := by
      intro e
      have hf' : (mget {} s.lines (d / 128) : LineMeta).ctr ≠ BitVec.ofNat 56 (2 ^ 56 - 1) := by
        simpa [State.lineFull, ← hd] using hf
      exact hf' (by bv_omega)
    rw [if_neg hc, if_pos ⟨trivial, trivial⟩, mget_wrBytes]
    by_cases hr : off % 128 ≤ j ∧ j < off % 128 + bs.length
    · rw [if_pos (by omega), if_pos hr, show d + j - (d + off % 128) = j - off % 128 by omega]
    · rw [if_neg (by omega), if_neg hr]
      split
      · next h => rw [if_neg h.1, if_pos h.2]
      · next h =>
        rw [mget_wrBytes, if_pos (by rw [readLocal_length]; omega), show d + j - d = j by omega, readLocal_getD _ _ _ _ _ hj, e1, e2, ← hd,
          Nat.zero_add]
        rfl
  · simp only [State.writeLocal]
    rw [mget_wrBytes, if_neg (by omega)]
    split
    · rfl
    · rw [mget_wrBytes, if_neg (by rw [readLocal_length]; omega)]
  · simp only [State.writeLocal]
    rw [mget_mset_ne _ _ _ hn]

theorem LineWritten.congr {s t r : State} {key : BitVec 256} {off : Nat} {bs : List Byte} (h : LineWritten s key off bs t)
    (e : SameMemory t r) : LineWritten s key off bs r :=
  ⟨fun j hj => by rw [e.readLocal, h.line j hj], fun x hx => by rw [e.mem, h.bytes x hx], fun n hn => by rw [e.lines, h.lines n hn]⟩

/-- What a store performed at its home slice leaves of memory. -/
theorem lineWritten_storeLocal (s : State) (key : BitVec 256) (off : Nat) (bs : List Byte) (hist rel : Bool) (floor : Nat) (core : Option Nat)
    (hf : s.lineFull off = false) (hl : off % 128 + bs.length ≤ 128) :
    LineWritten s key off bs (s.storeLocal key off bs hist rel floor core).2 :=
  (lineWritten_writeLocal s key off bs hf hl).congr (storeLocal_memory ..)

/-! ## Memory of hosts -/

/-- A fold of stores keeps the canonical form. -/
theorem storeParts_wf (key : BitVec 256) (hist rel : Bool) (floor : Nat) (core : Option Nat) : ∀ (parts : List (Nat × List Byte)) (s : State),
    Memory.wf s.mem = true → Memory.wf (parts.foldl (fun s x => (s.storeLocal key x.1 x.2 hist rel floor core).2) s).mem = true
  | [], _, h => h
  | x :: r, s, h => storeParts_wf key hist rel floor core r _ (storeLocal_wf s key x.1 x.2 hist rel floor core h)

/-- A fold of steps that keep the canonical form keeps it. -/
theorem foldl_wf {α : Type} (f : State → α → State) (hf : ∀ s x, Memory.wf s.mem = true → Memory.wf (f s x).mem = true) :
    ∀ (l : List α) (s : State), Memory.wf s.mem = true → Memory.wf (l.foldl f s).mem = true
  | [], _, h => h
  | x :: l, s, h => foldl_wf f hf l _ (hf s x h)

theorem storeHost_wf (s : State) (off : Nat) (bs : List Byte) (core : Option Nat) (st : Nat) (h : Memory.wf s.mem = true) :
    Memory.wf (s.storeHost off bs core st).mem = true := wrBytes_wf _ _ _ h

theorem hostPut_wf (s : State) (off : Nat) (bs : List Byte) (h : Memory.wf s.mem = true) : Memory.wf (s.hostPut off bs).mem = true :=
  foldl_wf _ (fun s x h => storeHost_wf s x.1 x.2 none 0 h) _ s h

theorem rekey_wf (s : State) (page : Nat) (h : Memory.wf s.mem = true) : Memory.wf (s.rekey page).mem = true := by
  unfold State.rekey
  generalize (List.range 32).map (fun i => page * 4096 + 128 * i) = offs
  dsimp only
  rw [(sameMemory_lateUnit ..).mem, (sameMemory_unitAdd ..).mem]
  refine foldl_wf _ (fun s x h => ?_) offs s h
  split <;> exact h

theorem paStore_wf (s : State) (pa : Nat) (bs : List Byte) (rel : Bool) (h : Memory.wf s.mem = true) : Memory.wf (s.paStore pa bs rel).mem = true := by
  unfold State.paStore
  split
  · exact hostPut_wf _ _ _ h
  · refine foldl_wf _ (fun s x h => ?_) _ s h
    dsimp only
    split
    · exact storeLocal_wf _ _ _ _ _ _ _ _ (rekey_wf _ _ h)
    · exact storeLocal_wf _ _ _ _ _ _ _ _ h

theorem ite_wf {c : Prop} [Decidable c] {x y : State} (hx : Memory.wf x.mem = true) (hy : Memory.wf y.mem = true) :
    Memory.wf (if c then x else y).mem = true := by
  split
  · exact hx
  · exact hy

theorem framePush_wf (s : State) (f : List Byte) (h : Memory.wf s.mem = true) : Memory.wf (s.framePush f).mem = true := by
  unfold State.framePush
  exact ite_wf (paStore_wf _ _ _ _ h) (paStore_wf _ _ _ _ (paStore_wf _ _ _ _ h))

theorem mem_setHost (s : State) (h : Nat) (w : HostW) : (s.setHost h w).mem = s.mem := rfl

theorem eventPut_wf (s : State) (e : EventRec) (h : Memory.wf s.mem = true) : Memory.wf (s.eventPut e).mem = true := by
  unfold State.eventPut
  split
  · exact h
  · dsimp only
    split
    · exact h
    · rw [mem_setHost]
      exact hostPut_wf _ _ _ h

theorem reply_wf (s : State) (host n : Nat) (d : List Byte) (h : Memory.wf s.mem = true) : Memory.wf (s.reply host n d).mem = true := by
  unfold State.reply
  exact hostPut_wf _ _ _ h

theorem readEvents_wf (s : State) (c : Sender) (first count pa : Nat) (h : Memory.wf s.mem = true) :
    Memory.wf (s.readEvents c first count pa).mem = true := by
  unfold State.readEvents State.openCommand
  split
  · exact h
  · split
    · dsimp only
      split
      · exact reply_wf _ _ _ _ h
      · exact reply_wf _ _ _ _ (hostPut_wf _ _ _ h)
    · exact reply_wf _ _ _ _ h

theorem hostLine_wf (s : State) (line : Nat) (bs : List Byte) (h : Memory.wf s.mem = true) : Memory.wf (s.hostLine line bs).mem = true :=
  wrBytes_wf _ _ _ h

theorem sameMemory_hostServed (s : State) (off n : Nat) : SameMemory s (s.hostServed off n) := by
  unfold State.hostServed
  exact (((sameMemory_foldl (fun (s : State) (x : Nat × List Byte) => s.served (s.home x.1) 3 1) (fun _ _ => sameMemory_served ..) _ s).trans
    (sameMemory_unitAdd ..)).trans (sameMemory_unitAdd ..)).trans (sameMemory_lateUnit ..)

theorem hostWrite_wf (s : State) (host off : Nat) (bs : List Byte) (h : Memory.wf s.mem = true) : Memory.wf (s.hostWrite host off bs).mem = true := by
  unfold State.hostWrite
  split
  · exact h
  · split
    · exact h
    · split
      · exact h
      · split
        · exact h
        · dsimp only
          split
          · exact h
          · rw [(sameMemory_hostServed ..).mem]
            exact storeParts_wf _ _ _ _ _ _ _ h

/-! ## Reset, and power -/

theorem mwfFrom_filter (p : Nat × Byte → Bool) : ∀ (m : SMap Byte) (lo : Nat), mwfFrom 0#8 lo m = true → mwfFrom 0#8 lo (m.filter p) = true
  | [], _, _ => rfl
  | x :: m, lo, w => by
    simp only [mwfFrom, Bool.and_eq_true, decide_eq_true_eq] at w
    by_cases hp : p x = true
    · simp only [List.filter, hp, mwfFrom, Bool.and_eq_true, decide_eq_true_eq]
      exact ⟨w.1, mwfFrom_filter p m _ w.2⟩
    · simp only [List.filter, hp]
      exact mwfFrom_filter p m lo (mwfFrom_mono _ _ (by omega) w.2)

/-- Memory that is cut to a part of its addresses keeps the canonical form. -/
theorem filter_wf (p : Nat × Byte → Bool) (m : SMap Byte) (h : Memory.wf m = true) : Memory.wf (m.filter p) = true := mwfFrom_filter p m 0 h

/-- What a cut loses leaves memory in its form. -/
theorem loseDirty_wf (s : State) (h : Memory.wf s.mem = true) : Memory.wf s.loseDirty.mem = true := by
  have fold : ∀ (l : List Nat) (m : SMap Byte), Memory.wf m = true →
      Memory.wf (l.foldl (fun m u => wrBytes m (8 * u) (leBytes 8 (Config.freeNat (pairNat (pairNat s.fresh 48) u)))) m) = true := by
    intro l
    induction l with
    | nil => exact fun m h => h
    | cons u l ih => exact fun m h => ih _ (wrBytes_wf _ _ _ h)
  exact fold _ _ h

theorem reset_wf : Memory.wf State.reset.mem = true := rfl

/-- Two memories in canonical form that read alike everywhere are the same list. -/
theorem mwf_ext : ∀ (m n : SMap Byte) (a b : Nat), mwfFrom 0#8 a m = true → mwfFrom 0#8 b n = true → (∀ k, mget 0#8 m k = mget 0#8 n k) → m = n
  | [], [], _, _, _, _, _ => rfl
  | [], (k, v) :: n, _, b, _, w, h => by
    simp only [mwfFrom, Bool.and_eq_true, decide_eq_true_eq] at w
    exact absurd (by simpa [mget] using (h k).symm) w.1.2
  | (k, v) :: m, [], a, _, w, _, h => by
    simp only [mwfFrom, Bool.and_eq_true, decide_eq_true_eq] at w
    exact absurd (by simpa [mget] using h k) w.1.2
  | (k, v) :: m, (j, u) :: n, a, b, w, z, h => by
    simp only [mwfFrom, Bool.and_eq_true, decide_eq_true_eq] at w z
    have below : ∀ (m : SMap Byte) (lo k : Nat), mwfFrom 0#8 lo m = true → k < lo → mget 0#8 m k = 0#8 := by
      intro m
      induction m with
      | nil => exact fun _ _ _ _ => rfl
      | cons x m ih =>
        intro lo k w hk
        simp only [mwfFrom, Bool.and_eq_true, decide_eq_true_eq] at w
        rw [mget, if_neg (by omega)]
        exact ih _ k w.2 (by omega)
    have hkj : k = j := by
      rcases Nat.lt_trichotomy k j with hk | hk | hk
      · have := h k
        rw [mget, if_pos rfl, mget, if_neg (by omega), below n _ k z.2 (by omega)] at this
        exact absurd this w.1.2
      · exact hk
      · have := h j
        rw [mget, if_neg (by omega), below m _ j w.2 (by omega), mget, if_pos rfl] at this
        exact absurd this.symm z.1.2
    subst hkj
    have hv := h k
    rw [mget, if_pos rfl, mget, if_pos rfl] at hv
    subst hv
    rw [mwf_ext m n (k + 1) (k + 1) w.2 z.2 fun x => by
      by_cases hx : x = k
      · subst hx
        rw [below m _ x w.2 (by omega), below n _ x z.2 (by omega)]
      · have := h x
        rwa [mget, if_neg (by omega), mget, if_neg (by omega)] at this]

end Sys2Proof.Machine
end

