-- ==== Sys2Proof/Laws/PerInstr.lean ====
section
/-! SUPPORT. One law per instruction: an instruction has an encoding of words exactly where it is an instruction word and no step. -/

namespace Sys2Proof.Laws.Words

/-- The encoder gives words to the instruction words, and none to the steps. -/
def Statement (i : Instr) : Prop := i.isWord = !(encode i).isEmpty

theorem nop (s : Stall) : Statement (.nop s) := rfl
theorem guard (sel : Sel) (n : BitVec 4) (s : Stall) : Statement (.guard sel n s) := rfl
theorem bra (sel : Sel) (off : BitVec 14) (s : Stall) : Statement (.bra sel off s) := rfl
theorem call (shift : BitVec 7) (off : BitVec 14) (s : Stall) : Statement (.call shift off s) := rfl
theorem jmp (a : VReg) (s : Stall) : Statement (.jmp a s) := rfl
theorem ret (s : Stall) : Statement (.ret s) := rfl
theorem callr (shift : BitVec 7) (a : VReg) (s : Stall) : Statement (.callr shift a s) := rfl
theorem meet (s : Stall) : Statement (.meet s) := rfl
theorem exit (s : Stall) : Statement (.exit s) := rfl
theorem yield (s : Stall) : Statement (.yield s) := rfl
theorem brk (s : Stall) : Statement (.brk s) := rfl
theorem trap (n : BitVec 7) (s : Stall) : Statement (.trap n s) := rfl
theorem region (s : Stall) : Statement (.region s) := rfl
theorem drainst (s : Stall) : Statement (.drainst s) := rfl
theorem chkerr (d : KReg) (s : Stall) : Statement (.chkerr d s) := rfl
theorem rett (s : Stall) : Statement (.rett s) := rfl
theorem exitGrp (s : Stall) : Statement (.exitGrp s) := rfl
theorem win (b : BitVec 7) (s : Stall) : Statement (.win b s) := rfl
theorem wink (b : BitVec 7) (s : Stall) : Statement (.wink b s) := rfl
theorem lit (d : VReg) (v : Word) (s : Stall) : Statement (.lit d v s) := rfl
theorem klit (d : KReg) (v : Word) (s : Stall) : Statement (.klit d v s) := rfl
theorem mov (d a : VReg) (s : Stall) : Statement (.mov d a s) := rfl
theorem movBroadcast (d : VReg) (a : KReg) (s : Stall) : Statement (.movBroadcast d a s) := rfl
theorem movToUniform (d : KReg) (a : VReg) (s : Stall) : Statement (.movToUniform d a s) := rfl
theorem movPv (d : VReg) (s : Stall) : Statement (.movPv d s) := rfl
theorem movVp (a : VReg) (s : Stall) : Statement (.movVp a s) := rfl
theorem movKp (d : BitVec 7) (a : KReg) (s : Stall) : Statement (.movKp d a s) := rfl
theorem sread (fn : SreadFn) (d : KReg) (s : Stall) : Statement (.sread fn d s) := rfl
theorem csrr (d : KReg) (csr : BitVec 16) (s : Stall) : Statement (.csrr d csr s) := rfl
theorem csrw (csr : BitVec 16) (a : KReg) (s : Stall) : Statement (.csrw csr a s) := rfl
theorem waitt (mask : BitVec 8) (s : Stall) : Statement (.waitt mask s) := rfl
theorem iadd (d a b : VReg) (s : Stall) : Statement (.iadd d a b s) := rfl
theorem isub (d a b : VReg) (s : Stall) : Statement (.isub d a b s) := rfl
theorem imul (d a b : VReg) (s : Stall) : Statement (.imul d a b s) := rfl
theorem imulhS (d a b : VReg) (s : Stall) : Statement (.imulhS d a b s) := rfl
theorem imulhZ (d a b : VReg) (s : Stall) : Statement (.imulhZ d a b s) := rfl
theorem imad (d a b : VReg) (s : Stall) : Statement (.imad d a b s) := rfl
theorem and (d a b : VReg) (s : Stall) : Statement (.and d a b s) := rfl
theorem or (d a b : VReg) (s : Stall) : Statement (.or d a b s) := rfl
theorem xor (d a b : VReg) (s : Stall) : Statement (.xor d a b s) := rfl
theorem andn (d a b : VReg) (s : Stall) : Statement (.andn d a b s) := rfl
theorem shl (d a b : VReg) (s : Stall) : Statement (.shl d a b s) := rfl
theorem shr (d a b : VReg) (s : Stall) : Statement (.shr d a b s) := rfl
theorem sra (d a b : VReg) (s : Stall) : Statement (.sra d a b s) := rfl
theorem iminS (d a b : VReg) (s : Stall) : Statement (.iminS d a b s) := rfl
theorem iminZ (d a b : VReg) (s : Stall) : Statement (.iminZ d a b s) := rfl
theorem imaxS (d a b : VReg) (s : Stall) : Statement (.imaxS d a b s) := rfl
theorem imaxZ (d a b : VReg) (s : Stall) : Statement (.imaxZ d a b s) := rfl
theorem iaddi (d a : VReg) (i : BitVec 7) (s : Stall) : Statement (.iaddi d a i s) := rfl
theorem shfi (kind : ShiftKind) (d a : VReg) (n : BitVec 5) (s : Stall) : Statement (.shfi kind d a n s) := rfl
theorem andi (d a : VReg) (i : BitVec 7) (s : Stall) : Statement (.andi d a i s) := rfl
theorem iadd64 (d a b : VReg) (s : Stall) : Statement (.iadd64 d a b s) := rfl
theorem lea (d a b : VReg) (s : Stall) : Statement (.lea d a b s) := rfl
theorem icmpS (c : Cond) (p : BitVec 4) (a b : VReg) (s : Stall) : Statement (.icmpS c p a b s) := rfl
theorem icmpZ (c : Cond) (p : BitVec 4) (a b : VReg) (s : Stall) : Statement (.icmpZ c p a b s) := rfl
theorem iun (fn : IunFn) (d a : VReg) (s : Stall) : Statement (.iun fn d a s) := rfl
theorem bfe (d a b : VReg) (s : Stall) : Statement (.bfe d a b s) := rfl
theorem bfi (d a b : VReg) (s : Stall) : Statement (.bfi d a b s) := rfl
theorem faddF32 (d a b : VReg) (s : Stall) : Statement (.faddF32 d a b s) := rfl
theorem fsubF32 (d a b : VReg) (s : Stall) : Statement (.fsubF32 d a b s) := rfl
theorem fmulF32 (d a b : VReg) (s : Stall) : Statement (.fmulF32 d a b s) := rfl
theorem ffmaF32 (d a b : VReg) (s : Stall) : Statement (.ffmaF32 d a b s) := rfl
theorem fminF32 (d a b : VReg) (s : Stall) : Statement (.fminF32 d a b s) := rfl
theorem fmaxF32 (d a b : VReg) (s : Stall) : Statement (.fmaxF32 d a b s) := rfl
theorem fcmpF32 (c : Cond) (p : BitVec 4) (a b : VReg) (s : Stall) : Statement (.fcmpF32 c p a b s) := rfl
theorem funF32 (fn : FunFn) (d a : VReg) (s : Stall) : Statement (.funF32 fn d a s) := rfl
theorem faddF16x2 (d a b : VReg) (s : Stall) : Statement (.faddF16x2 d a b s) := rfl
theorem fsubF16x2 (d a b : VReg) (s : Stall) : Statement (.fsubF16x2 d a b s) := rfl
theorem fmulF16x2 (d a b : VReg) (s : Stall) : Statement (.fmulF16x2 d a b s) := rfl
theorem ffmaF16x2 (d a b : VReg) (s : Stall) : Statement (.ffmaF16x2 d a b s) := rfl
theorem fminF16x2 (d a b : VReg) (s : Stall) : Statement (.fminF16x2 d a b s) := rfl
theorem fmaxF16x2 (d a b : VReg) (s : Stall) : Statement (.fmaxF16x2 d a b s) := rfl
theorem fcmpF16x2 (c : Cond) (p : BitVec 4) (a b : VReg) (s : Stall) : Statement (.fcmpF16x2 c p a b s) := rfl
theorem funF16x2 (fn : FunFn) (d a : VReg) (s : Stall) : Statement (.funF16x2 fn d a s) := rfl
theorem faddBf16x2 (d a b : VReg) (s : Stall) : Statement (.faddBf16x2 d a b s) := rfl
theorem fsubBf16x2 (d a b : VReg) (s : Stall) : Statement (.fsubBf16x2 d a b s) := rfl
theorem fmulBf16x2 (d a b : VReg) (s : Stall) : Statement (.fmulBf16x2 d a b s) := rfl
theorem ffmaBf16x2 (d a b : VReg) (s : Stall) : Statement (.ffmaBf16x2 d a b s) := rfl
theorem fminBf16x2 (d a b : VReg) (s : Stall) : Statement (.fminBf16x2 d a b s) := rfl
theorem fmaxBf16x2 (d a b : VReg) (s : Stall) : Statement (.fmaxBf16x2 d a b s) := rfl
theorem fcmpBf16x2 (c : Cond) (p : BitVec 4) (a b : VReg) (s : Stall) : Statement (.fcmpBf16x2 c p a b s) := rfl
theorem funBf16x2 (fn : FunFn) (d a : VReg) (s : Stall) : Statement (.funBf16x2 fn d a s) := rfl
theorem faddF64 (d a b : VReg) (s : Stall) : Statement (.faddF64 d a b s) := rfl
theorem fsubF64 (d a b : VReg) (s : Stall) : Statement (.fsubF64 d a b s) := rfl
theorem fmulF64 (d a b : VReg) (s : Stall) : Statement (.fmulF64 d a b s) := rfl
theorem ffmaF64 (d a b : VReg) (s : Stall) : Statement (.ffmaF64 d a b s) := rfl
theorem fminF64 (d a b : VReg) (s : Stall) : Statement (.fminF64 d a b s) := rfl
theorem fmaxF64 (d a b : VReg) (s : Stall) : Statement (.fmaxF64 d a b s) := rfl
theorem fcmpF64 (c : Cond) (p : BitVec 4) (a b : VReg) (s : Stall) : Statement (.fcmpF64 c p a b s) := rfl
theorem funF64 (fn : FunFn) (d a : VReg) (s : Stall) : Statement (.funF64 fn d a s) := rfl
theorem cvt (kind : CvtKind) (rm : Rm) (d a : VReg) (s : Stall) : Statement (.cvt kind rm d a s) := rfl
theorem pkM8Rn (d a b : VReg) (s : Stall) : Statement (.pkM8Rn d a b s) := rfl
theorem pkM8Rz (d a b : VReg) (s : Stall) : Statement (.pkM8Rz d a b s) := rfl
theorem upM8 (n : BitVec 2) (d a : VReg) (s : Stall) : Statement (.upM8 n d a s) := rfl
theorem vdotM8 (d a b : VReg) (s : Stall) : Statement (.vdotM8 d a b s) := rfl
theorem shflIdx (d a b : VReg) (s : Stall) : Statement (.shflIdx d a b s) := rfl
theorem shflUp (d a : VReg) (n : BitVec 5) (s : Stall) : Statement (.shflUp d a n s) := rfl
theorem shflDn (d a : VReg) (n : BitVec 5) (s : Stall) : Statement (.shflDn d a n s) := rfl
theorem shflXor (d a : VReg) (n : BitVec 5) (s : Stall) : Statement (.shflXor d a n s) := rfl
theorem qx (fn : QxFn) (d a : VReg) (s : Stall) : Statement (.qx fn d a s) := rfl
theorem voteAny (d : BitVec 7) (p : BitVec 4) (s : Stall) : Statement (.voteAny d p s) := rfl
theorem voteAll (d : BitVec 7) (p : BitVec 4) (s : Stall) : Statement (.voteAll d p s) := rfl
theorem voteBallot (d : KReg) (p : BitVec 4) (s : Stall) : Statement (.voteBallot d p s) := rfl
theorem voteEq (d : BitVec 7) (p : BitVec 4) (s : Stall) : Statement (.voteEq d p s) := rfl
theorem redux (op : ReduxOp) (d : KReg) (a : VReg) (s : Stall) : Statement (.redux op d a s) := rfl
theorem kadd (d a b : KReg) (s : Stall) : Statement (.kadd d a b s) := rfl
theorem ksub (d a b : KReg) (s : Stall) : Statement (.ksub d a b s) := rfl
theorem kmul (d a b : KReg) (s : Stall) : Statement (.kmul d a b s) := rfl
theorem kand (d a b : KReg) (s : Stall) : Statement (.kand d a b s) := rfl
theorem kor (d a b : KReg) (s : Stall) : Statement (.kor d a b s) := rfl
theorem kxor (d a b : KReg) (s : Stall) : Statement (.kxor d a b s) := rfl
theorem kshfi (kind : ShiftKind) (d a : KReg) (n : BitVec 5) (s : Stall) : Statement (.kshfi kind d a n s) := rfl
theorem kaddi (d a : KReg) (i : BitVec 7) (s : Stall) : Statement (.kaddi d a i s) := rfl
theorem kcmpS (c : Cond) (p : BitVec 4) (a b : KReg) (s : Stall) : Statement (.kcmpS c p a b s) := rfl
theorem kcmpZ (c : Cond) (p : BitVec 4) (a b : KReg) (s : Stall) : Statement (.kcmpZ c p a b s) := rfl
theorem kadd64 (d a b : KReg) (s : Stall) : Statement (.kadd64 d a b s) := rfl
theorem kld (w : Width) (ord : Option Scope) (d a : KReg) (s : Stall) : Statement (.kld w ord d a s) := rfl
theorem kst (w : Width) (nt : Bool) (ord : Option Scope) (d a : KReg) (s : Stall) : Statement (.kst w nt ord d a s) := rfl
theorem ldG (w : Width) (ru : Bool) (ord : Option Scope) (d a : VReg) (s : Stall) : Statement (.ldG w ru ord d a s) := rfl
theorem stG (w : Width) (nt : Bool) (ord : Option Scope) (d a : VReg) (s : Stall) : Statement (.stG w nt ord d a s) := rfl
theorem ldxG (d : VReg) (a : KReg) (b : VReg) (s : Stall) : Statement (.ldxG d a b s) := rfl
theorem stxG (d : VReg) (a : KReg) (b : VReg) (s : Stall) : Statement (.stxG d a b s) := rfl
theorem ldS (w : Width) (fe clr : Bool) (d a : VReg) (s : Stall) : Statement (.ldS w fe clr d a s) := rfl
theorem stS (w : Width) (fe : Bool) (d a : VReg) (s : Stall) : Statement (.stS w fe d a s) := rfl
theorem ldL (w : Width) (d a : VReg) (s : Stall) : Statement (.ldL w d a s) := rfl
theorem stL (w : Width) (d a : VReg) (s : Stall) : Statement (.stL w d a s) := rfl
theorem atomG (spec : AtomSpec) (d a b : VReg) (s : Stall) : Statement (.atomG spec d a b s) := rfl
theorem atomS (spec : AtomSpec) (d a b : VReg) (s : Stall) : Statement (.atomS spec d a b s) := rfl
theorem ldAsof (w : Width) (stamp : KReg) (nb : Bool) (status : BitVec 4) (d a : VReg) (s : Stall) : Statement (.ldAsof w stamp nb status d a s) := rfl
theorem fence (kind : FenceKind) (scope : Scope) (s : Stall) : Statement (.fence kind scope s) := rfl
theorem stamp (d : KReg) (s : Stall) : Statement (.stamp d s) := rfl
theorem settled (d : KReg) (s : Stall) : Statement (.settled d s) := rfl
theorem dusk (d : KReg) (s : Stall) : Statement (.dusk d s) := rfl
theorem hpin (d a : KReg) (s : Stall) : Statement (.hpin d a s) := rfl
theorem hunpin (d a : KReg) (s : Stall) : Statement (.hunpin d a s) := rfl
theorem floor (d : KReg) (s : Stall) : Statement (.floor d s) := rfl
theorem cpLd (d a : KReg) (n : Count) (tok : BitVec 3) (mbar : BitVec 16) (s : Stall) : Statement (.cpLd d a n tok mbar s) := rfl
theorem cpSt (d a : KReg) (n : Count) (tok : BitVec 3) (rel : Option Scope) (s : Stall) : Statement (.cpSt d a n tok rel s) := rfl
theorem cpTile (d a stride : KReg) (rows : RowCount) (rowBytes : BitVec 16) (roles : BitVec 16) (tok : BitVec 3) (mbar : BitVec 16) (s : Stall) : Statement (.cpTile d a stride rows rowBytes roles tok mbar s) := rfl
theorem cpRed (ty : RedTy) (d a : KReg) (n : Count) (tok : BitVec 3) (rel : Option Scope) (s : Stall) : Statement (.cpRed ty d a n tok rel s) := rfl
theorem cpChain (ch : BitVec 2) (a : KReg) (tok : BitVec 3) (s : Stall) : Statement (.cpChain ch a tok s) := rfl
theorem qfence (mask : BitVec 4) (s : Stall) : Statement (.qfence mask s) := rfl
theorem cpStat (d : KReg) (s : Stall) : Statement (.cpStat d s) := rfl
theorem mma (m : MmaSpec) (s : Stall) : Statement (.mma m s) := rfl
theorem mmaPair (m : MmaSpec) (s : Stall) : Statement (.mmaPair m s) := rfl
theorem accZero (c : AccSpec) (s : Stall) : Statement (.accZero c s) := rfl
theorem accLd (c : AccSpec) (d a : KReg) (s : Stall) : Statement (.accLd c d a s) := rfl
theorem accSt (c : AccSpec) (d a : KReg) (s : Stall) : Statement (.accSt c d a s) := rfl
theorem accCp (c : AccSpec) (role : BitVec 4) (mbar : BitVec 16) (d a : KReg) (s : Stall) : Statement (.accCp c role mbar d a s) := rfl
theorem ofence (s : Stall) : Statement (.ofence s) := rfl
theorem mwait (s : Stall) : Statement (.mwait s) := rfl
theorem barBlk (s : Stall) : Statement (.barBlk s) := rfl
theorem barBlkR (s : Stall) : Statement (.barBlkR s) := rfl
theorem barTeam (s : Stall) : Statement (.barTeam s) := rfl
theorem mbarInit (d a : KReg) (s : Stall) : Statement (.mbarInit d a s) := rfl
theorem mbarExpect (d a : KReg) (s : Stall) : Statement (.mbarExpect d a s) := rfl
theorem mbarArrive (d a : KReg) (s : Stall) : Statement (.mbarArrive d a s) := rfl
theorem mbarWait (d a : KReg) (s : Stall) : Statement (.mbarWait d a s) := rfl
theorem mbarTest (d a : KReg) (s : Stall) : Statement (.mbarTest d a s) := rfl
theorem spawn (d a : KReg) (s : Stall) : Statement (.spawn d a s) := rfl
theorem jdec (d a : KReg) (s : Stall) : Statement (.jdec d a s) := rfl
theorem launch (d a : KReg) (s : Stall) : Statement (.launch d a s) := rfl
theorem qstat (d a : KReg) (s : Stall) : Statement (.qstat d a s) := rfl
theorem qinit (d a : KReg) (s : Stall) : Statement (.qinit d a s) := rfl
theorem actBegin (d a : KReg) (s : Stall) : Statement (.actBegin d a s) := rfl
theorem actComp (d a : KReg) (s : Stall) : Statement (.actComp d a s) := rfl
theorem actCommit (d a : KReg) (s : Stall) : Statement (.actCommit d a s) := rfl
theorem actAbandon (d a : KReg) (s : Stall) : Statement (.actAbandon d a s) := rfl
theorem actStat (d a : KReg) (s : Stall) : Statement (.actStat d a s) := rfl
theorem actDone (a : KReg) (s : Stall) : Statement (.actDone a s) := rfl
theorem actResume (d a : KReg) (s : Stall) : Statement (.actResume d a s) := rfl
theorem mark (a : KReg) (s : Stall) : Statement (.mark a s) := rfl
theorem tlbinv (d a : KReg) (s : Stall) : Statement (.tlbinv d a s) := rfl
theorem pageWalk (op : Nat) (cached : Bool) : Statement (.pageWalk op cached) := rfl
theorem lateFault (op : Nat) : Statement (.lateFault op) := rfl
theorem storeFaultRecord (op : Nat) : Statement (.storeFaultRecord op) := rfl
theorem forcedDelivery (blk grp : Nat) : Statement (.forcedDelivery blk grp) := rfl
theorem trapEntry (blk grp : Nat) : Statement (.trapEntry blk grp) := rfl
theorem loadReturn (op : Nat) : Statement (.loadReturn op) := rfl
theorem storePerform (op : Nat) : Statement (.storePerform op) := rfl
theorem atomicPerform (op : Nat) : Statement (.atomicPerform op) := rfl
theorem asofWalk (op : Nat) : Statement (.asofWalk op) := rfl
theorem accessCount : Statement (.accessCount) := rfl
theorem qtQuantumExpiry (op : Nat) : Statement (.qtQuantumExpiry op) := rfl
theorem hostStampHold (op : Nat) : Statement (.hostStampHold op) := rfl
theorem matrixArbitration (core : Nat) : Statement (.matrixArbitration core) := rfl
theorem passPerform (blk grp : Nat) (chunks : Nat) : Statement (.passPerform blk grp chunks) := rfl
theorem accOpPerform (blk grp : Nat) (rows : Nat) : Statement (.accOpPerform blk grp rows) := rfl
theorem engineFault (e : EngRef) : Statement (.engineFault e) := rfl
theorem copySectorWrite (e : EngRef) : Statement (.copySectorWrite e) := rfl
theorem copyEntryPerform (e : EngRef) : Statement (.copyEntryPerform e) := rfl
theorem chainRecord (core ch : Nat) : Statement (.chainRecord core ch) := rfl
theorem uncorrectableError (blk : Nat) (kind : ErrKind) : Statement (.uncorrectableError blk kind) := rfl
theorem blockRollback (blk : Nat) : Statement (.blockRollback blk) := rfl
theorem placementPop (core : Nat) : Statement (.placementPop core) := rfl
theorem teamReservation (hwq : Nat) : Statement (.teamReservation hwq) := rfl
theorem coreThermalUpdate (core temp droop : Nat) : Statement (.coreThermalUpdate core temp droop) := rfl
theorem partialEviction (ctx core : Nat) : Statement (.partialEviction ctx core) := rfl
theorem blockEvict (blk : Nat) : Statement (.blockEvict blk) := rfl
theorem blockEnd (blk : Nat) : Statement (.blockEnd blk) := rfl
theorem decrementRetry (i : Nat) : Statement (.decrementRetry i) := rfl
theorem kernelEnded (k : Nat) : Statement (.kernelEnded k) := rfl
theorem watchdogExpiry (k : Nat) : Statement (.watchdogExpiry k) := rfl
theorem kernelKilled (k : Nat) : Statement (.kernelKilled k) := rfl
theorem contextKillDone (ctx : Nat) : Statement (.contextKillDone ctx) := rfl
theorem compensationStart (entry : Nat) : Statement (.compensationStart entry) := rfl
theorem commitDiscard (ctx : Nat) (handle : Word) (member : Nat) : Statement (.commitDiscard ctx handle member) := rfl
theorem actTimeout (entry : Nat) : Statement (.actTimeout entry) := rfl
theorem historyReclaim (stack : Nat) : Statement (.historyReclaim stack) := rfl
theorem historyRetentionExpiry (stack : Nat) : Statement (.historyRetentionExpiry stack) := rfl
theorem pinTimeout (ctx pin : Nat) : Statement (.pinTimeout ctx pin) := rfl
theorem domainRebase : Statement (.domainRebase) := rfl
theorem pageRekey (page : Nat) : Statement (.pageRekey page) := rfl
theorem channelRetrain (stack channel : Nat) : Statement (.channelRetrain stack channel) := rfl
theorem scrub (line : Nat) : Statement (.scrub line) := rfl
theorem seriesLatch : Statement (.seriesLatch) := rfl
theorem pcSample (core quarter : Nat) : Statement (.pcSample core quarter) := rfl
theorem stopAt : Statement (.stopAt) := rfl
theorem stopResume (host : Nat) : Statement (.stopResume host) := rfl
theorem quadrantTest (q : Nat) : Statement (.quadrantTest q) := rfl
theorem quadrantTestDone (q : Nat) (pass : Bool) : Statement (.quadrantTestDone q pass) := rfl
theorem queueDoorbell (host hwq : Nat) (v : Word) : Statement (.queueDoorbell host hwq v) := rfl
theorem claim (c : Sender) : Statement (.claim c) := rfl
theorem ownershipGrant : Statement (.ownershipGrant) := rfl
theorem handover (c : Cmd) (successor : Nat) : Statement (.handover c successor) := rfl
theorem heartbeat (host : Nat) : Statement (.heartbeat host) := rfl
theorem ownerHeartbeatLapse : Statement (.ownerHeartbeatLapse) := rfl
theorem hbperiodWrite (host : Nat) (v : Word) : Statement (.hbperiodWrite host v) := rfl
theorem hmemctxWrite (host : Nat) (v : Word) : Statement (.hmemctxWrite host v) := rfl
theorem hostRegisterWrite (host : Nat) (off : Nat) (v : Word) : Statement (.hostRegisterWrite host off v) := rfl
theorem mapLoad (host region : Nat) (v : Word) : Statement (.mapLoad host region v) := rfl
theorem memcfgWrite (host : Nat) (v : Word) : Statement (.memcfgWrite host v) := rfl
theorem samplePeriodWrite (host ctx : Nat) (v : Word) : Statement (.samplePeriodWrite host ctx v) := rfl
theorem traceEnable (host ctx : Nat) (v : Word) : Statement (.traceEnable host ctx v) := rfl
theorem hostMemRead (host off n : Nat) : Statement (.hostMemRead host off n) := rfl
theorem hostMemWrite (host off : Nat) (bytes : List Byte) : Statement (.hostMemWrite host off bytes) := rfl
theorem status (c : Sender) : Statement (.status c) := rfl
theorem readEvents (c : Sender) (first count pa : Nat) : Statement (.readEvents c first count pa) := rfl
theorem ctxCreate (c : Cmd) (pa : Nat) : Statement (.ctxCreate c pa) := rfl
theorem ctxStop (c : Cmd) (ctx : Nat) : Statement (.ctxStop c ctx) := rfl
theorem ctxResume (c : Cmd) (ctx : Nat) : Statement (.ctxResume c ctx) := rfl
theorem ctxKill (c : Cmd) (ctx : Nat) : Statement (.ctxKill c ctx) := rfl
theorem ctxDestroy (c : Cmd) (ctx : Nat) : Statement (.ctxDestroy c ctx) := rfl
theorem tlbInval (c : Cmd) (va : DWord) (op : Word) (zero : Word) : Statement (.tlbInval c va op zero) := rfl
theorem computeReset (c : Cmd) : Statement (.computeReset c) := rfl
theorem islandReset (c : Cmd) : Statement (.islandReset c) := rfl
theorem domainConfig (c : Cmd) (t : DomainTable) : Statement (.domainConfig c t) := rfl
theorem ideKey (c : Cmd) (stream : Nat) (key : BitVec 256) : Statement (.ideKey c stream key) := rfl
theorem retest (c : Cmd) (q : Nat) (pass : Bool) : Statement (.retest c q pass) := rfl
theorem fwUpdate (c : Cmd) (image : FwImage) : Statement (.fwUpdate c image) := rfl
theorem fwActivate (c : Cmd) : Statement (.fwActivate c) := rfl
theorem fwCommit (c : Cmd) : Statement (.fwCommit c) := rfl
theorem getVersion (host : Nat) : Statement (.getVersion host) := rfl
theorem getCapabilities (host : Nat) : Statement (.getCapabilities host) := rfl
theorem negotiateAlgorithms (host : Nat) (ecdsaP384 sha384 : Bool) : Statement (.negotiateAlgorithms host ecdsaP384 sha384) := rfl
theorem getDigests (host : Nat) : Statement (.getDigests host) := rfl
theorem getCertificate (host slot off len : Nat) : Statement (.getCertificate host slot off len) := rfl
theorem challenge (host slot : Nat) (nonce : BitVec 256) : Statement (.challenge host slot nonce) := rfl
theorem getMeasurements (host index : Nat) : Statement (.getMeasurements host index) := rfl
theorem unsupportedSpdmRequest (host code : Nat) : Statement (.unsupportedSpdmRequest host code) := rfl
theorem powerGood (rec : List Byte) (sigOk : Bool) : Statement (.powerGood rec sigOk) := rfl
theorem powerLost : Statement (.powerLost) := rfl
theorem bootVerified (fwOk : Bool) : Statement (.bootVerified fwOk) := rfl
theorem computeRelease : Statement (.computeRelease) := rfl
theorem dieHeartbeat (die : Nat) : Statement (.dieHeartbeat die) := rfl
theorem computeHang (die : Nat) : Statement (.computeHang die) := rfl
theorem cut : Statement (.cut) := rfl
theorem downReceived (dev : Nat) : Statement (.downReceived dev) := rfl
theorem upReceived (dev : Nat) (inc : BitVec 8) : Statement (.upReceived dev inc) := rfl
theorem memberUnreachable (dev : Nat) : Statement (.memberUnreachable dev) := rfl
theorem skewTimeout (dev : Nat) : Statement (.skewTimeout dev) := rfl
theorem blockReceived (port : Nat) (b : LinkBlock) : Statement (.blockReceived port b) := rfl
theorem linkRetrain (port : Nat) : Statement (.linkRetrain port) := rfl
theorem portTrained (port lanes : Nat) : Statement (.portTrained port lanes) := rfl
theorem portDown (port : Nat) (farSide : Bool) : Statement (.portDown port farSide) := rfl
theorem packetRead (p : Packet) : Statement (.packetRead p) := rfl
theorem packetWrite (p : Packet) : Statement (.packetWrite p) := rfl
theorem packetAtomic (p : Packet) : Statement (.packetAtomic p) := rfl
theorem packetReducingWrite (p : Packet) : Statement (.packetReducingWrite p) := rfl
theorem packetResponse (p : Packet) : Statement (.packetResponse p) := rfl
theorem packetErrorResponse (p : Packet) : Statement (.packetErrorResponse p) := rfl
theorem packetMarker (p : Packet) : Statement (.packetMarker p) := rfl
theorem packetMarkerAck (p : Packet) : Statement (.packetMarkerAck p) := rfl
theorem packetE2eAck (p : Packet) : Statement (.packetE2eAck p) := rfl
theorem packetManagement (p : Packet) (m : Management) : Statement (.packetManagement p m) := rfl
theorem e2eAckSend (dev path : Nat) : Statement (.e2eAckSend dev path) := rfl
theorem escapeMove (port vc : Nat) : Statement (.escapeMove port vc) := rfl
theorem clockThrottle (die k : Nat) : Statement (.clockThrottle die k) := rfl
theorem unsupportedCommand (c : Cmd) (opcode : Nat) : Statement (.unsupportedCommand c opcode) := rfl
theorem illegalPacket (p : Packet) : Statement (.illegalPacket p) := rfl
theorem cxlCacheInvalidation (line : Nat) (bytes : List Byte) : Statement (.cxlCacheInvalidation line bytes) := rfl

end Sys2Proof.Laws.Words
end

