-- ==== Sys2Proof/Laws/Uniform.lean ====
section
/-! SUPPORT. Instructions that write registers at issue and change nothing else: `wrote_next` for all of them, `uniOp_next` for the
uniform operations (R194). -/

namespace Sys2Proof.Machine

/-- A body that only writes registers, apart from memo entries, units and counters. -/
structure WritesOnly (u : Uses) (own : Own) (s : State) (c : Cur) (ws : List (RegKey × Word)) (flags : FFlags) (r : Result) : Prop where
  units  : UnitsOnly (startState u s c) r.s
  writes : r.writes.map (fun w => (w.1, w.1.keep w.2)) = ws
  flags  : r.flags = flags
  pcs    : r.pcs = []
  guards : r.guards = []
  keeps  : r.keeps = []
  parks  : r.parks = []
  ok     : ∀ w ∈ ws, w.1.exists = true ∧ ∀ x ∈ ws, x.1 = w.1 → x.2 = w.2
  lanes  : ∀ w ∈ ws, ∀ L x, w.1 = .v L x ∨ w.1 = .p L x → L ∈ runs u own s c

section
variable {u : Uses} {own : Own} {s : State} {c : Cur} {ws : List (RegKey × Word)} {flags : FFlags} {r : Result}

/-- A write of the body is one of the list, as its register keeps it. -/
theorem WritesOnly.mem (w : WritesOnly u own s c ws flags r) {x : RegKey × Word} (h : x ∈ r.writes) : (x.1, x.1.keep x.2) ∈ ws := by
  rw [← w.writes]
  exact List.mem_map.2 ⟨x, h, rfl⟩

theorem WritesOnly.keepsTo (h : Issuing u own s c) (w : WritesOnly u own s c ws flags r) :
    Keeps u own s c { keys := ws.map (·.1), flags := flags } r :=
  keeps_plain h ((w.units.issuer c).trans (startState_issuer ..)) w.units.cur rfl rfl rfl rfl rfl
    (fun _ hx => ⟨List.mem_map.2 ⟨_, w.mem hx, rfl⟩, (w.ok _ (w.mem hx)).1⟩)
    (fun _ hx L y he => w.lanes _ (w.mem hx) L y (.inl he)) (fun _ hx L y he => w.lanes _ (w.mem hx) L y (.inr he))
    w.flags w.pcs w.guards w.keeps w.parks

theorem keep_keep (key : RegKey) (w : Word) : key.keep (key.keep w) = key.keep w := by
  cases key <;> simp only [RegKey.keep] <;> cases w.getLsbD 0 <;> rfl

/-- Outside the blocks, the end of such a body. -/
theorem onlyUnits_endOf (st : Stall) (hu : UnitsOnly (startState u s c) r.s) : OnlyUnits s (endOf u own s c st r) :=
  ⟨state_units hu.state _, hu.ctxs, hu.cores⟩

theorem blockKept_units (st : Stall) (hu : UnitsOnly (startState u s c) r.s) : BlockKept s c (endOf u own s c st r) := by
  refine blockKept_of st (fun v hv => ?_) (fun g hg => ?_) ?_
  · rw [hu.blk, startState_blk_ne _ _ _ hv]
  · show (r.s.blk c.blk).grp g = _
    rw [hu.blk, startState_blk]
    rfl
  · rw [hu.blk, startState_blk]

theorem onlyBlocks_endOf (st : Stall) (hs : r.s = startState u s c) : OnlyBlocks s (endOf u own s c st r) := by
  unfold OnlyBlocks endOf
  rw [finish_state, hs]
  rfl

/-- A register that some write names, when all that name it come to one value. -/
theorem getKey_writes_keep (key : RegKey) (v : Word) : ∀ (ws : List (RegKey × Word)) (G : Group), (∀ w ∈ ws, w.1.exists = true) →
    (∀ w ∈ ws, w.1 = key → w.1.keep w.2 = v) → (∃ w ∈ ws, w.1 = key) → (G.writes ws).getKey key = v
  | [], _, _, _, h => by simp at h
  | w :: ws, G, he, hv, h => by
    have he' : ∀ x ∈ ws, x.1.exists = true := fun x hx => he x (by simp [hx])
    by_cases hs : ∃ x ∈ ws, x.1 = key
    · exact getKey_writes_keep key v ws (G.setKey w.1 w.2) he' (fun x hx => hv x (by simp [hx])) hs
    · have hn : ∀ x ∈ ws, x.1 ≠ key := fun x hx e => hs ⟨x, hx, e⟩
      have hw : w.1 = key := by
        obtain ⟨x, hx, e⟩ := h
        rcases List.mem_cons.1 hx with rfl | hx
        · exact e
        · exact absurd ⟨x, hx, e⟩ hs
      refine (getKey_writes_none key ws (G.setKey w.1 w.2) he' hn).trans ?_
      rw [getKey_setKey _ _ _ _ (he w (by simp)), if_pos hw.symm]
      exact hv w (by simp) hw

/-- What such an instruction leaves. -/
theorem wrote_endOf (h : Issuing u own s c) (w : WritesOnly u own s c ws flags r) (st : Stall) (units : Bool)
    (hu : units = false → r.s = startState u s c) (hz' : ∀ x ∈ ws, x.1 ∉ zeroed u own s c) :
    Wrote u own s c units ws flags (endOf u own s c st r) where
  issued := issued_of_keeps h (w.keepsTo h) st
  vals x hx := by
    have hm : x ∈ r.writes.map (fun w => (w.1, w.1.keep w.2)) := by rw [w.writes]; exact hx
    obtain ⟨y, hy, he⟩ := List.mem_map.1 hm
    have hv : ∀ z ∈ r.writes, z.1 = x.1 → z.1.keep z.2 = x.2 := fun z hz e => (w.ok x hx).2 _ (w.mem hz) e
    rw [endOf_reg h]
    refine (getKey_writes_keep x.1 x.2 _ _ (all_exist (w.keepsTo h)) (fun z hz e => ?_) ?_)
    · rcases List.mem_append.1 hz with h' | h'
      · exact absurd (e ▸ (mem_zerosOf h').1) (hz' x hx)
      · exact hv z h' e
    · exact ⟨y, List.mem_append.2 (.inr hy), by rw [← he]⟩
  block := blockKept_units st w.units
  rest := onlyUnits_endOf st w.units
  alone e := onlyBlocks_endOf st (hu e)

/-- Uniform registers and uniform predicates are never zeroed for a helper. -/
theorem uniform_not_zeroed {key : RegKey} (h : (∃ n, key = .k n) ∨ ∃ n, key = .kp n) : key ∉ zeroed u own s c := by
  rcases h with ⟨n, rfl⟩ | ⟨n, rfl⟩
  · exact not_zeroed_k
  · exact not_zeroed_kp

end

/-- Writes to uniform registers and predicates, each register once. -/
def uniformWrites (ws : List (RegKey × Word)) : Prop :=
  ∀ w ∈ ws, ((∃ n, w.1 = .k n) ∨ ∃ n, w.1 = .kp n ∧ n < 4) ∧ ∀ x ∈ ws, x.1 = w.1 → x.2 = w.2

theorem uniform_ok {ws : List (RegKey × Word)} (h : uniformWrites ws) :
    ∀ w ∈ ws, w.1.exists = true ∧ ∀ x ∈ ws, x.1 = w.1 → x.2 = w.2 := fun w hw => by
  refine ⟨?_, (h w hw).2⟩
  rcases (h w hw).1 with ⟨n, hn⟩ | ⟨n, hn, hl⟩
  · rw [hn]; rfl
  · rw [hn]; simpa [RegKey.exists] using hl

theorem uniform_lanes {u : Uses} {own : Own} {s : State} {c : Cur} {ws : List (RegKey × Word)} (h : uniformWrites ws) :
    ∀ w ∈ ws, ∀ L x, w.1 = .v L x ∨ w.1 = .p L x → L ∈ runs u own s c := fun w hw L x he => by
  rcases (h w hw).1 with ⟨n, hn⟩ | ⟨n, hn, _⟩ <;> rw [hn] at he <;> rcases he with he | he <;> exact RegKey.noConfusion he

/-- An instruction whose body only writes uniform registers. -/
theorem uniform_next {u : Uses} {s : State} {c : Cur} {ws : List (RegKey × Word)} {flags : FFlags} (h : Issuing u noOwn s c)
    (st : Stall) (units : Bool) (body : State → Issue → Result)
    (hb : ∀ r, body (startState u s c) (issueOf u noOwn s c) = r → UnitsOnly (startState u s c) r.s ∧ (units = false → r.s = startState u s c) ∧
      r.writes.map (fun w => (w.1, w.1.keep w.2)) = ws ∧ r.flags = flags ∧ r.pcs = [] ∧ r.guards = [] ∧ r.keeps = [] ∧ r.parks = []) (hw : uniformWrites ws) :
    ∃ t, issueWith u st noCause isReady body s = .next t ∧ Wrote u noOwn s c units ws flags t := by
  obtain ⟨h1, h2, h3, h4, h5, h6, h7, h8⟩ := hb _ rfl
  exact ⟨_, issueWith_eq h st noCause isReady body rfl rfl rfl, wrote_endOf h
    ⟨h1, h3, h4, h5, h6, h7, h8, uniform_ok hw, uniform_lanes hw⟩ st units h2
    (fun x hx => uniform_not_zeroed ((hw x hx).1.imp_right fun ⟨n, hn, _⟩ => ⟨n, hn⟩))⟩

theorem kval_start (u : Uses) (s : State) (c : Cur) (own : Own) (f : KReg) (j : Nat) :
    kval (issueOf u own s c).now ((startState u s c).issuer c) (issueOf u own s c).iid f j = kOpnd s c f j := by
  rw [startState_issuer]; rfl

/-- THE UNIFORM OPERATION (R194). -/
theorem uniOp_next {u : Uses} {s : State} {c : Cur} (h : Issuing u noOwn s c) (lat : Nat) (st : Stall)
    (f : (BitVec 7 → Nat → Word) → Group → List Nat → UniOut) (ws : List (RegKey × Word))
    (he : (f (fun k j => kOpnd s c k j) (s.issuer c) (runs u noOwn s c)).writes.map (fun w => (w.1, w.1.keep w.2)) = ws)
    (hw : uniformWrites ws) : ∃ t, uniOp u lat st f s = .next t ∧ Wrote u noOwn s c false ws
      (f (fun k j => kOpnd s c k j) (s.issuer c) (runs u noOwn s c)).flags t := by
  refine uniform_next h st false _ (fun r hr => ?_) hw
  subst hr
  have hg : (startState u s c).grp c.blk c.grp = s.issuer c := startState_issuer ..
  have hf : f (fun k j => kval (issueOf u noOwn s c).now ((startState u s c).grp c.blk c.grp) (issueOf u noOwn s c).iid k j)
      ((startState u s c).grp c.blk c.grp) (issueOf u noOwn s c).lanes = f (fun k j => kOpnd s c k j) (s.issuer c) (runs u noOwn s c) := by
    rw [hg]; rfl
  exact ⟨UnitsOnly.refl _, fun _ => rfl, (congrArg (fun o => o.writes.map fun w => (w.1, w.1.keep w.2)) hf).trans he,
    congrArg UniOut.flags hf, rfl, rfl, rfl, rfl⟩

end Sys2Proof.Machine
end

