-- ==== Sys2Proof/Machine/KnasText.lean ====
section
/-! DEFINITION. The knas assembler's view of source text: its diagnostics (R78, R94), characters and tokens of a line (R79),
numbers and expressions (R80), register names, and operands. Nothing here depends on the machine's state. -/

namespace Sys2Proof.Knas

/-! ## Diagnostics (R78, R94) -/

/-- The codes of R94. -/
inductive Code where
  | e101 | e102 | e103 | e104 | e105 | e106 | e107 | e108 | e109 | e110 | e111 | e112 | e113 | e114 | e115 | e116 | e117
  | e118 | e119 | e120 | e121 | e122 | w201 | w202 | w203 | w204 | w205 | w206 | w207 | w208
  deriving DecidableEq, Repr

/-- The number nnn of a code (R94). -/
def Code.number : Code → Nat
  | .e101 => 101 | .e102 => 102 | .e103 => 103 | .e104 => 104 | .e105 => 105 | .e106 => 106 | .e107 => 107 | .e108 => 108
  | .e109 => 109 | .e110 => 110 | .e111 => 111 | .e112 => 112 | .e113 => 113 | .e114 => 114 | .e115 => 115 | .e116 => 116
  | .e117 => 117 | .e118 => 118 | .e119 => 119 | .e120 => 120 | .e121 => 121 | .e122 => 122
  | .w201 => 201 | .w202 => 202 | .w203 => 203 | .w204 => 204 | .w205 => 205 | .w206 => 206 | .w207 => 207 | .w208 => 208

/-- E1xx is an error, W2xx a warning (R78). -/
def Code.isError (c : Code) : Bool := c.number < 200

/-- The meaning that R94 gives. -/
def Code.meaning : Code → String
  | .e101 => "unknown mnemonic, qualifier, directive or CSR name; a required rounding qualifier missing"
  | .e102 => "wrong number or kind of operands"
  | .e103 => "value out of range for its field; division by zero"
  | .e104 => "qualifiers would encode a reserved value"
  | .e105 => "odd pair or misaligned b128 register"
  | .e106 => "vector register beyond .regs v at the known window base"
  | .e107 => "uniform register beyond .regs k at the known UBASE"
  | .e108 => "branch offset beyond IMM14"
  | .e109 => "guard window holds a control transfer"
  | .e110 => "queue port under a lane-predicated guard"
  | .e111 => "checked region overwrites a live-in"
  | .e112 => "undefined local symbol"
  | .e113 => "symbol defined twice"
  | .e114 => "directive operand out of range"
  | .e115 => "offset memory operand outside a macro with tmp="
  | .e116 => "macro argument count, depth or recursion"
  | .e117 => "unbalanced block directive"
  | .e118 => "include not found or nested beyond 16"
  | .e119 => "relocation check failed"
  | .e120 => "instruction outside .text"
  | .e121 => "kernel without .regs"
  | .e122 => "stall count out of 0-15, or missing under --stall=check"
  | .w201 => "forced stall count below the computed one"
  | .w202 => "forced count below 15 on a variable-latency producer that is read"
  | .w203 => "queue port in a possibly partial run"
  | .w204 => "label inside a guard window"
  | .w205 => "checked region without a late-faulting instruction"
  | .w206 => "unreachable instruction"
  | .w207 => ".scratch rounded up to whole KiB"
  | .w208 => "nop inserted for a stall deficit"

/-- A place in a source file (R78). -/
structure Loc where
  file   : String
  line   : Nat
  column : Nat
  deriving DecidableEq, Repr

/-- A diagnostic: its code, the line that was written, and for a line of a macro's body the invocation (R78). -/
structure Diag where
  code : Code
  loc  : Loc
  via  : Option Loc := none
  deriving DecidableEq, Repr

def Loc.show (l : Loc) : String := l.file ++ ":" ++ toString l.line ++ ":" ++ toString l.column ++ ": "

/-- The name of a code: E1xx or W2xx. -/
def Code.name (c : Code) : String := (if c.isError then "E" else "W") ++ toString c.number

/-- The lines of a diagnostic (R78). -/
def Diag.lines (d : Diag) : List String :=
  (d.loc.show ++ d.code.name ++ " " ++ d.code.meaning)
    :: (match d.via with
      | some v => [v.show ++ "in this macro invocation"]
      | none => [])

/-- A result, or the code that the line raises. -/
abbrev E := Except Code

/-! ## Characters (R79) -/

/-- The mark inside a symbol that knas renames in a macro's body (R86); no source line may hold it. -/
def renameMark : Char := Char.ofNat 0xE000

def isSymStart (c : Char) : Bool := c.isAlpha || c == '_' || c == '.'
def isSymChar (c : Char) : Bool := isSymStart c || c.isDigit || c == renameMark

def isBlank (c : Char) : Bool := c == ' ' || c == '\t' || c == '\r'

/-- Text without the blanks before and after it. -/
def trim (t : List Char) : List Char := ((t.dropWhile isBlank).reverse.dropWhile isBlank).reverse

/-- A line without its comment, which starts at `//` or `;` outside a quoted path (R79). -/
def stripComment (quoted : Bool) : List Char → List Char
  | [] => []
  | ';' :: r => if quoted then ';' :: stripComment quoted r else []
  | '"' :: r => '"' :: stripComment (!quoted) r
  | ['/'] => ['/']
  | '/' :: c :: r => if quoted || c != '/' then '/' :: stripComment quoted (c :: r) else []
  | c :: r => c :: stripComment quoted r

/-- A line's label, its mnemonic or directive, and the text that follows (R79). -/
structure Parts where
  label : Option String
  head  : String
  rest  : List Char
  deriving DecidableEq, Repr

/-- The symbol at the start of a text, and what follows it. -/
def takeSym (t : List Char) : List Char × List Char :=
  match t with
  | c :: _ => if isSymStart c then (t.takeWhile isSymChar, t.dropWhile isSymChar) else ([], t)
  | [] => ([], [])

/-- The parts of a line; a line whose text is no label and no mnemonic has an empty head and a rest. -/
def parts (line : List Char) : Parts :=
  let t := trim (stripComment false line)
  let a := takeSym t
  match a.1, a.2.dropWhile isBlank with
  | _ :: _, ':' :: r =>
    let t := trim r
    let b := takeSym t
    ⟨some (String.ofList a.1), String.ofList b.1, trim b.2⟩
  | _, _ => ⟨none, String.ofList a.1, trim a.2⟩

/-- The column that a diagnostic names: that of its line's first character that is not blank (DESIGN CHOICE, log entry 65: R78 has a
column and does not say of what). -/
def columnOf (line : List Char) : Nat := (line.takeWhile isBlank).length + 1

/-! ## Numbers (R80) -/

/-- The value of a digit. -/
def digitOf (c : Char) : Nat :=
  if c.isDigit then c.toNat - 48 else if 'a' ≤ c ∧ c ≤ 'f' then c.toNat - 87 else if 'A' ≤ c ∧ c ≤ 'F' then c.toNat - 55 else 99

/-- Digits of a base; underscores carry no value. -/
def readDigits (base : Nat) (t : List Char) : Option Nat :=
  let ds := t.filter (· != '_')
  if ds.isEmpty || ds.any (fun c => base ≤ digitOf c) then none else some (ds.foldl (fun n c => n * base + digitOf c) 0)

def isDecimal (c : Char) : Bool := c.isDigit || c == '_'

/-- binary32 of m × 10^e, to nearest, ties to even (R80). -/
def floatBits (m : Nat) (e : Int) : Word :=
  if m = 0 then 0#32
  else if 0 ≤ e then BitVec.ofNat 32 (Machine.roundTo .f32 .rn false (m * 10 ^ e.toNat) 0 false).bits
  else
    let d := 10 ^ (-e).toNat
    let sh := Nat.log2 d + 64
    let n := m * 2 ^ sh
    BitVec.ofNat 32 (Machine.roundTo .f32 .rn false (n / d) (-(sh : Int)) (n % d != 0)).bits

/-! ## Tokens -/

/-- What operands are made of. -/
inductive Tok where
  | num (v : DWord)
  | flt (w : Word)
  | name (s : String)
  | str (s : String)
  | op (s : String)
  deriving DecidableEq, Repr

/-- A whole number as a token: 64 bits, like every value of an expression (R80, log entry 63). -/
def numTok (n : Option Nat) : E Tok :=
  match n with
  | some n => .ok (.num (BitVec.ofNat 64 n))
  | none => .error .e102

/-- The number at the start of a text, which begins with a digit (R80). -/
def lexNumber (t : List Char) : E (Tok × List Char) :=
  let run := t.takeWhile fun c => c.isAlphanum || c == '_'
  let rest := t.dropWhile fun c => c.isAlphanum || c == '_'
  match t with
  | '0' :: 'x' :: _ => (numTok (readDigits 16 (run.drop 2))).map fun k => (k, rest)
  | '0' :: 'b' :: _ => (numTok (readDigits 2 (run.drop 2))).map fun k => (k, rest)
  | _ =>
    match t.dropWhile isDecimal with
    | '.' :: r =>
      let whole := (t.takeWhile isDecimal).filter (· != '_')
      let frac := (r.takeWhile isDecimal).filter (· != '_')
      let m := (readDigits 10 (whole ++ frac)).getD 0
      let r := r.dropWhile isDecimal
      match r with
      | c :: r' =>
        if c == 'e' || c == 'E' then
          let (neg, r') := match r' with
            | '-' :: q => (true, q)
            | '+' :: q => (false, q)
            | q => (false, q)
          match readDigits 10 (r'.takeWhile isDecimal) with
          | some x =>
            let rest := r'.dropWhile isDecimal
            if rest.head?.any isSymChar then .error .e102
            else .ok (.flt (floatBits m ((if neg then -(x : Int) else x) - frac.length)), rest)
          | none => .error .e102
        else if isSymChar c then .error .e102
        else .ok (.flt (floatBits m (-(frac.length : Int))), r)
      | [] => .ok (.flt (floatBits m (-(frac.length : Int))), r)
    | _ => (numTok (readDigits 10 run)).map fun k => (k, rest)

def isPunct (c : Char) : Bool := ['(', ')', '[', ']', ',', ':', '=', '!', '~', '+', '-', '*', '/', '%', '|', '^', '&'].contains c

/-- The tokens of a text without its comment; the fuel is its length. -/
def lexWith : Nat → List Char → E (List Tok)
  | 0, _ => .ok []
  | _ + 1, [] => .ok []
  | f + 1, c :: r =>
    if isBlank c then lexWith f r
    else if c.isDigit then
      match lexNumber (c :: r) with
      | .ok (k, r) => (lexWith f r).map (k :: ·)
      | .error e => .error e
    else if isSymStart c then
      let a := takeSym (c :: r)
      (lexWith f a.2).map (.name (String.ofList a.1) :: ·)
    else if c == '"' then
      let a := r.takeWhile (· != '"')
      match r.dropWhile (· != '"') with
      | _ :: r => (lexWith f r).map (.str (String.ofList a) :: ·)
      | [] => .error .e102
    else if c == '<' && r.head? == some '<' then (lexWith f (r.drop 1)).map (.op "<<" :: ·)
    else if c == '>' && r.head? == some '>' then (lexWith f (r.drop 1)).map (.op ">>" :: ·)
    else if isPunct c then (lexWith f r).map (.op (String.ofList [c]) :: ·)
    else .error .e102

def lex (t : List Char) : E (List Tok) := lexWith t.length t

/-! ## Expressions (R80) -/

/-- Unary operators, with %lo and %hi. -/
inductive UnOp where
  | neg | inv | lo | hi
  deriving DecidableEq, Repr

inductive BinOp where
  | or | xor | and | shl | shr | add | sub | mul | div | rem
  deriving DecidableEq, Repr

inductive Expr where
  | num (v : DWord)
  | sym (n : String)
  | un (o : UnOp) (a : Expr)
  | bin (o : BinOp) (a b : Expr)
  deriving DecidableEq, Repr

/-- The binary operators by precedence, 0 the lowest (R80). -/
def binOf (level : Nat) (s : String) : Option BinOp :=
  match level, s with
  | 0, "|" => some .or
  | 1, "^" => some .xor
  | 2, "&" => some .and
  | 3, "<<" => some .shl | 3, ">>" => some .shr
  | 4, "+" => some .add | 4, "-" => some .sub
  | 5, "*" => some .mul | 5, "/" => some .div | 5, "%" => some .rem
  | _, _ => none

mutual
/-- An expression whose operators bind at least as tightly as a level; level 6 is a unary expression or an atom. -/
def parseLevel : Nat → Nat → List Tok → Option (Expr × List Tok)
  | 0, _, _ => none
  | f + 1, level, ts =>
    if level < 6 then
      match parseLevel f (level + 1) ts with
      | some (a, r) => parseMore f level a r
      | none => none
    else
      match ts with
      | .num v :: r => some (.num v, r)
      | .op "-" :: r => (parseLevel f 6 r).map fun x => (.un .neg x.1, x.2)
      | .op "~" :: r => (parseLevel f 6 r).map fun x => (.un .inv x.1, x.2)
      | .op "%" :: .name "lo" :: .op "(" :: r =>
        match parseLevel f 0 r with
        | some (a, .op ")" :: r) => some (.un .lo a, r)
        | _ => none
      | .op "%" :: .name "hi" :: .op "(" :: r =>
        match parseLevel f 0 r with
        | some (a, .op ")" :: r) => some (.un .hi a, r)
        | _ => none
      | .op "(" :: r =>
        match parseLevel f 0 r with
        | some (a, .op ")" :: r) => some (a, r)
        | _ => none
      | .name n :: r => some (.sym n, r)
      | _ => none
/-- The operators of one level, from left to right. -/
def parseMore : Nat → Nat → Expr → List Tok → Option (Expr × List Tok)
  | 0, _, _, _ => none
  | f + 1, level, a, ts =>
    match ts with
    | .op s :: r =>
      match binOf level s with
      | some o =>
        match parseLevel f (level + 1) r with
        | some (b, r) => parseMore f level (.bin o a b) r
        | none => none
      | none => some (a, ts)
    | _ => some (a, ts)
end

/-- An expression that takes all of the tokens. -/
def parseExpr (ts : List Tok) : E Expr :=
  match parseLevel (10 * ts.length + 10) 0 ts with
  | some (e, []) => .ok e
  | _ => .error .e102

/-! ## Values -/

/-- The sections that hold code and data (R82). -/
inductive Sect where
  | text | data | rodata | bss | param
  deriving DecidableEq, Repr

/-- What a relocatable value is relative to. -/
inductive Base where
  | sect (s : Sect)
  | ext (name : String)
  deriving DecidableEq, Repr

/-- A value: constant, or an address that the linker completes (R83). -/
structure Val where
  c    : DWord
  base : Option Base := none
  deriving DecidableEq, Repr

/-- What an expression gives: a value, or %lo or %hi of an address. -/
inductive EVal where
  | val (v : Val)
  | part (hi : Bool) (v : Val)
  deriving DecidableEq, Repr

/-- Binary operators on constants, 64-bit two's complement (R80). A shift by 64 or more leaves the sign, or 0; a negative amount
is out of range (log entry 63). -/
def BinOp.run (o : BinOp) (a b : DWord) : E DWord :=
  match o with
  | .or => .ok (a ||| b)
  | .xor => .ok (a ^^^ b)
  | .and => .ok (a &&& b)
  | .shl => if b.msb then .error .e103 else .ok (a <<< b)
  | .shr => if b.msb then .error .e103 else .ok (a.sshiftRight (min b.toNat 64))
  | .add => .ok (a + b)
  | .sub => .ok (a - b)
  | .mul => .ok (a * b)
  | .div => if b = 0#64 then .error .e103 else .ok (a.sdiv b)
  | .rem => if b = 0#64 then .error .e103 else .ok (a.srem b)

/-- Binary operators on values: an address takes a constant added or subtracted, and two addresses of one base differ by a
constant; nothing else is computed before the link (R83, log entry 64). -/
def BinOp.vals (o : BinOp) (a b : Val) : E Val :=
  match a.base, b.base with
  | none, none => (o.run a.c b.c).map fun c => ⟨c, none⟩
  | some x, none => if o = .add then .ok ⟨a.c + b.c, x⟩ else if o = .sub then .ok ⟨a.c - b.c, x⟩ else .error .e102
  | none, some y => if o = .add then .ok ⟨a.c + b.c, y⟩ else .error .e102
  | some x, some y => if o = .sub ∧ x = y then .ok ⟨a.c - b.c, none⟩ else .error .e102

/-- The value of an expression under a symbol table (R80). -/
def eval (look : String → E Val) : Expr → E EVal
  | .num v => .ok (.val ⟨v, none⟩)
  | .sym n => (look n).map .val
  | .un o e =>
    match eval look e with
    | .error c => .error c
    | .ok (.part _ _) => .error .e102
    | .ok (.val v) =>
      match o, v.base with
      | .neg, none => .ok (.val ⟨-v.c, none⟩)
      | .inv, none => .ok (.val ⟨~~~v.c, none⟩)
      | .lo, none => .ok (.val ⟨v.c &&& 0xFFFFFFFF#64, none⟩)
      | .hi, none => .ok (.val ⟨v.c >>> 32, none⟩)
      | .lo, some _ => .ok (.part false v)
      | .hi, some _ => .ok (.part true v)
      | _, some _ => .error .e102
  | .bin o a b =>
    match eval look a, eval look b with
    | .ok (.val x), .ok (.val y) => (o.vals x y).map .val
    | .error c, _ => .error c
    | _, .error c => .error c
    | _, _ => .error .e102

/-! ## Registers and operands (R79) -/

/-- A register or port name. -/
inductive Reg where
  | v (n : Nat) | k (n : Nat) | p (n : Nat) | kp (n : Nat) | q (n : Nat)
  deriving DecidableEq, Repr

/-- The number of a register name: decimal digits, no leading zero. -/
def regNum (t : List Char) : Option Nat :=
  match t with
  | ['0'] => some 0
  | c :: _ => if c != '0' && t.all (·.isDigit) then readDigits 10 t else none
  | [] => none

/-- A symbol that spells a register or a port. -/
def regOf (s : String) : Option Reg :=
  match s.toList with
  | 'k' :: 'p' :: r => (regNum r).map .kp
  | 'v' :: r => (regNum r).map .v
  | 'k' :: r => (regNum r).map .k
  | 'p' :: r => (regNum r).map .p
  | 'q' :: r => (regNum r).map .q
  | _ => none

/-- What stands after the base in a memory operand. -/
inductive MemTail where
  | none
  | reg (r : Reg)
  | off (e : Expr)
  | stride (r : Reg)
  deriving DecidableEq, Repr

/-- A memory operand; `blk` marks the form s[…]. -/
structure MemOp where
  blk  : Bool
  base : Reg
  odd  : Option Reg
  tail : MemTail
  deriving DecidableEq, Repr

/-- An operand as written. -/
inductive Opnd where
  | reg (r : Reg)
  | pair (a b : Reg)
  | notp (r : Reg)
  | mem (m : MemOp)
  | acc (e : Expr)
  | flt (w : Word)
  | namedReg (n : String) (r : Reg)
  | named (n : String) (e : Expr)
  | expr (e : Expr)
  deriving DecidableEq, Repr

/-- What stands between the brackets of a memory operand. -/
def parseMem (blk : Bool) (ts : List Tok) : E Opnd :=
  let (regs, rest) := match ts with
    | .name a :: .op ":" :: .name b :: r => ((regOf a, some (regOf b)), r)
    | .name a :: r => ((regOf a, none), r)
    | r => ((none, none), r)
  let tail : E MemTail := match rest with
    | [] => .ok .none
    | [.name "stride", .name r] => match regOf r with
      | some r => .ok (.stride r)
      | none => .error .e102
    | [.op "+", .name r] => match regOf r with
      | some r => .ok (.reg r)
      | none => .ok (.off (.sym r))
    | .op "+" :: r => (parseExpr r).map .off
    | .op "-" :: _ => (parseExpr rest).map .off
    | _ => .error .e102
  match regs, tail with
  | (some a, none), .ok t => .ok (.mem ⟨blk, a, none, t⟩)
  | (some a, some (some b)), .ok t => .ok (.mem ⟨blk, a, some b, t⟩)
  | _, _ => .error .e102

/-- One operand. -/
def parseOpnd (ts : List Tok) : E Opnd :=
  match ts with
  | [.name n] => match regOf n with
    | some r => .ok (.reg r)
    | none => .ok (.expr (.sym n))
  | [.name a, .op ":", .name b] => match regOf a, regOf b with
    | some a, some b => .ok (.pair a b)
    | _, _ => .error .e102
  | [.op "!", .name a] => match regOf a with
    | some a => .ok (.notp a)
    | none => .error .e102
  | [.flt w] => .ok (.flt w)
  | [.op "-", .flt w] => .ok (.flt (w ^^^ 0x80000000#32))
  | .op "[" :: r => if r.getLast? = some (.op "]") then parseMem false r.dropLast else .error .e102
  | .name "s" :: .op "[" :: r => if r.getLast? = some (.op "]") then parseMem true r.dropLast else .error .e102
  | .name "acc" :: .op "[" :: r => if r.getLast? = some (.op "]") then (parseExpr r.dropLast).map .acc else .error .e102
  | [.name n, .op "=", .name r] => match regOf r with
    | some r => .ok (.namedReg n r)
    | none => .ok (.named n (.sym r))
  | .name n :: .op "=" :: r => (parseExpr r).map (.named n)
  | _ => (parseExpr ts).map .expr

/-- Split tokens at the commas outside brackets and parentheses. -/
def splitCommas : List Tok → Nat → List Tok → List (List Tok)
  | [], _, cur => [cur.reverse]
  | .op "," :: r, 0, cur => cur.reverse :: splitCommas r 0 []
  | t :: r, d, cur =>
    let d' := if t = .op "(" ∨ t = .op "[" then d + 1 else if t = .op ")" ∨ t = .op "]" then d - 1 else d
    splitCommas r d' (t :: cur)

/-- A token that can end an operand. -/
def endsOperand (t : Tok) : Bool :=
  match t with
  | .num _ | .flt _ | .name _ | .str _ => true
  | .op s => s == ")" || s == "]"

/-- Where the stall count `~n` starts: a `~` after an operand, or before any (R79). -/
def splitStall : Option Tok → Nat → List Tok → List Tok × Option (List Tok)
  | _, _, [] => ([], none)
  | prev, d, t :: r =>
    if d = 0 ∧ t = .op "~" ∧ (prev.all endsOperand) then ([], some r)
    else
      let d' := if t = .op "(" ∨ t = .op "[" then d + 1 else if t = .op ")" ∨ t = .op "]" then d - 1 else d
      let x := splitStall (some t) d' r
      (t :: x.1, x.2)

/-- Operands from tokens. -/
def parseOpnds (ts : List Tok) : E (List Opnd) :=
  if ts.isEmpty then .ok [] else (splitCommas ts 0 []).mapM parseOpnd

/-- The words between the dots of a mnemonic. -/
def splitDots (s : String) : List String :=
  (s.toList.foldr (fun c acc => if c == '.' then [] :: acc else match acc with
    | w :: r => (c :: w) :: r
    | [] => [[c]]) [[]]).map String.ofList

end Sys2Proof.Knas
end

