-- ==== Sys2Proof/Machine/KnasOps.lean ====
section
/-! DEFINITION. How knas reads each instruction: mnemonic, qualifiers and operands (R79, R81, and the assembly form that each
instruction's own rule gives) to the instruction that Decode encodes, or the code that the line raises. -/

namespace Sys2Proof.Knas

/-- What an instruction's operands are read in: the symbols, the offset of its word in .text, and the frame shift in force (R85). -/
structure Ctx where
  look  : String → E Val
  here  : Nat
  frame : Option Nat

/-- The kinds of relocation (R83). -/
inductive RelKind where
  | pcw14 | lo32 | hi32 | abs32 | abs64
  deriving DecidableEq, Repr

/-- An instruction, and the relocation that it leaves for the linker. -/
structure Built where
  instr : Instr
  rel   : Option (RelKind × Val) := none
  deriving DecidableEq, Repr

/-! ## Fields -/

/-- A vector register or port (R58, R79). -/
def vR : Opnd → E VReg
  | .reg (.v n) => if n < 120 then .ok (BitVec.ofNat 7 n) else .error .e103
  | .reg (.q n) => if n < 8 then .ok (BitVec.ofNat 7 (120 + n)) else .error .e103
  | _ => .error .e102
/-- A vector register where a port is forbidden (R59, R224). -/
def vN : Opnd → E VReg
  | .reg (.v n) => if n < 120 then .ok (BitVec.ofNat 7 n) else .error .e103
  | _ => .error .e102
/-- The first register of an aligned group: the name alone, or a pair as written (R61, R81). -/
def vAl (m : Nat) : Opnd → E VReg
  | .reg (.v n) => if 120 ≤ n then .error .e103 else if n % m = 0 then .ok (BitVec.ofNat 7 n) else .error .e105
  | .pair (.v a) (.v b) =>
    if b ≠ a + 1 ∨ m ≠ 2 then .error .e102 else if 120 ≤ b then .error .e103 else if a % 2 = 0 then .ok (BitVec.ofNat 7 a) else .error .e105
  | _ => .error .e102
/-- A uniform register (R60, R79). -/
def kR : Opnd → E KReg
  | .reg (.k n) => if n < 128 then .ok (BitVec.ofNat 7 n) else .error .e103
  | _ => .error .e102
/-- The first of an aligned group of uniform registers. -/
def kAl (m : Nat) : Opnd → E KReg
  | .reg (.k n) => if 128 ≤ n then .error .e103 else if n % m = 0 then .ok (BitVec.ofNat 7 n) else .error .e105
  | .pair (.k a) (.k b) =>
    if b ≠ a + 1 ∨ m ≠ 2 then .error .e102 else if 128 ≤ b then .error .e103 else if a % 2 = 0 then .ok (BitVec.ofNat 7 a) else .error .e105
  | _ => .error .e102
/-- A lane predicate p0-p11 (R63). -/
def pR : Opnd → E (BitVec 4)
  | .reg (.p n) => if n < 12 then .ok (BitVec.ofNat 4 n) else .error .e103
  | _ => .error .e102
/-- A uniform predicate kp0-kp3 in a field of w bits (R63, R216). -/
def kpR (w : Nat) : Opnd → E (BitVec w)
  | .reg (.kp n) => if n < 4 then .ok (BitVec.ofNat w n) else .error .e103
  | _ => .error .e102

/-- A selector (R62). -/
def selR : Opnd → E Sel
  | .reg (.p n) => if n < 12 then .ok (.lane false (BitVec.ofNat 4 n)) else .error .e103
  | .reg (.kp n) => if n < 4 then .ok (.uni false (BitVec.ofNat 2 n)) else .error .e103
  | .notp (.p n) => if n < 12 then .ok (.lane true (BitVec.ofNat 4 n)) else .error .e103
  | .notp (.kp n) => if n < 4 then .ok (.uni true (BitVec.ofNat 2 n)) else .error .e103
  | _ => .error .e102

/-- A constant expression's value, as a signed number. -/
def Ctx.const (c : Ctx) (e : Expr) : E Int :=
  match eval c.look e with
  | .ok (.val ⟨v, none⟩) => .ok v.toInt
  | .ok _ => .error .e102
  | .error x => .error x

/-- A constant from lo to hi that is a multiple of step (R81). -/
def Ctx.range (c : Ctx) (lo hi : Int) (step : Int) (e : Expr) : E Int :=
  match c.const e with
  | .ok v => if lo ≤ v ∧ v ≤ hi ∧ v % step = 0 then .ok v else .error .e103
  | .error x => .error x

/-- An expression operand. -/
def exprOf : Opnd → E Expr
  | .expr e => .ok e
  | _ => .error .e102

/-- A constant operand in a range. -/
def Ctx.imm (c : Ctx) (lo hi : Int) (step : Int) (o : Opnd) : E Int := (exprOf o).bind (c.range lo hi step)

/-- imm7 (R81). -/
def Ctx.imm7 (c : Ctx) (o : Opnd) : E (BitVec 7) := (c.imm (-64) 63 1 o).map (BitVec.ofInt 7)

/-- The literal word of lit and klit: a number, a decimal floating value, or half of an address, the low half
where neither %lo nor %hi is written (R80, R81, R83, log entry 64). -/
def Ctx.literal (c : Ctx) (o : Opnd) : E (Word × Option (RelKind × Val)) :=
  match o with
  | .flt w => .ok (w, none)
  | .expr e =>
    match eval c.look e with
    | .ok (.val ⟨v, none⟩) =>
      if -2147483648 ≤ v.toInt ∧ v.toInt ≤ 4294967295 then .ok (v.setWidth 32, none) else .error .e103
    | .ok (.part false v) => .ok (0#32, some (.lo32, v))
    | .ok (.part true v) => .ok (0#32, some (.hi32, v))
    | .ok (.val v) => .ok (0#32, some (.lo32, v))
    | .error x => .error x
  | _ => .error .e102

/-- The target of bra and call: an offset in words within the section, or a relocation (R76, R81, R83). A distance that is no multiple of
4 raises E103 (DESIGN CHOICE, log entry 65: R76 and R81 name no code for it). -/
def Ctx.target (c : Ctx) (o : Opnd) : E (BitVec 14 × Option (RelKind × Val)) :=
  match (exprOf o).bind (eval c.look) with
  | .ok (.val ⟨v, some (.sect .text)⟩) =>
    let d := v.toInt - c.here
    if d % 4 ≠ 0 then .error .e103
    else if -8192 ≤ d / 4 ∧ d / 4 ≤ 8191 then .ok (BitVec.ofInt 14 (d / 4), none) else .error .e108
  | .ok (.val v) => .ok (0#14, some (.pcw14, v))
  | .ok _ => .error .e102
  | .error x => .error x

/-! ## Qualifiers -/

def widthOf (s : String) : E Width :=
  match s with
  | "b8" => .ok .b8 | "b16" => .ok .b16 | "b32" => .ok .b32 | "b64" => .ok .b64 | "b128" => .ok .b128 | _ => .error .e101
def scopeOf (s : String) : E Scope :=
  match s with
  | "grp" => .ok .grp | "blk" => .ok .blk | "team" => .ok .team | "dev" => .ok .dev | "dom" => .ok .dom | "sys" => .ok .sys
  | _ => .error .e101
def condOf (s : String) : E Cond :=
  match s with
  | "eq" => .ok .eq | "ne" => .ok .ne | "lt" => .ok .lt | "le" => .ok .le | "gt" => .ok .gt | "ge" => .ok .ge | "un" => .ok .un
  | _ => .error .e101
/-- A condition of an integer compare: un encodes a reserved value (R63, R81). -/
def icondOf (s : String) : E Cond := (condOf s).bind fun c => if c = .un then .error .e104 else .ok c
def shiftKindOf (s : String) : E ShiftKind :=
  match s with
  | "shl" => .ok .shl | "shr" => .ok .shr | "sra" => .ok .sra | "rot" => .ok .rot | _ => .error .e101
def iunOf (s : String) : E IunFn :=
  match s with
  | "popc" => .ok .popc | "clz" => .ok .clz | "brev" => .ok .brev | "iabs" => .ok .iabs | "ineg" => .ok .ineg | "not" => .ok .not
  | "sext8" => .ok .sext8 | "sext16" => .ok .sext16 | "zext8" => .ok .zext8 | "zext16" => .ok .zext16 | "bswap" => .ok .bswap
  | _ => .error .e101
def funOf (s : String) : E FunFn :=
  match s with
  | "abs" => .ok .abs | "neg" => .ok .neg | "rcp" => .ok .rcp | "rsq" => .ok .rsq | "sqrt" => .ok .sqrt | "exp2" => .ok .exp2
  | "log2" => .ok .log2 | "sinpi" => .ok .sinpi | "cospi" => .ok .cospi | "floor" => .ok .floor | "ceil" => .ok .ceil
  | "trunc" => .ok .trunc | "rint" => .ok .rint | _ => .error .e101
def rmOf (s : String) : Option Rm :=
  match s with
  | "rn" => some .rn | "rz" => some .rz | "ru" => some .ru | "rd" => some .rd | _ => none
/-- The kinds of cvt by what follows the rounding (R42). -/
def cvtOf (q : List String) : E CvtKind :=
  match q with
  | ["f32", "s32"] => .ok .f32s32 | ["f32", "z32"] => .ok .f32z32 | ["s32", "f32"] => .ok .s32f32 | ["z32", "f32"] => .ok .z32f32
  | ["f32", "f16", "lo"] => .ok .f32f16lo | ["f32", "f16", "hi"] => .ok .f32f16hi
  | ["f32", "bf16", "lo"] => .ok .f32bf16lo | ["f32", "bf16", "hi"] => .ok .f32bf16hi
  | ["f16x2", "f32"] => .ok .f16x2f32 | ["bf16x2", "f32"] => .ok .bf16x2f32 | ["f64", "f32"] => .ok .f64f32
  | ["f32", "f64"] => .ok .f32f64 | ["f64", "s32"] => .ok .f64s32 | ["f64", "z32"] => .ok .f64z32
  | ["s32", "f64"] => .ok .s32f64 | ["z32", "f64"] => .ok .z32f64
  | _ => .error .e101
/-- The kind and rounding of a cvt: required where R42 gives rm, refused on an exact kind (R81). -/
def cvtQual (q : List String) : E (CvtKind × Rm) :=
  match q with
  | r :: rest =>
    match rmOf r with
    | some rm => (cvtOf rest).bind fun k => if k.exact then .error .e104 else .ok (k, rm)
    | none => (cvtOf q).bind fun k => if k.exact then .ok (k, .rn) else .error .e101
  | [] => .error .e101
def qxOf (s : String) : E QxFn :=
  match s with
  | "h" => .ok .h | "v" => .ok .v | "d" => .ok .d | "bc0" => .ok (.bc 0) | "bc1" => .ok (.bc 1) | "bc2" => .ok (.bc 2)
  | "bc3" => .ok (.bc 3) | _ => .error .e101
def reduxOf (q : List String) : E ReduxOp :=
  match q with
  | ["add", "s32"] => .ok .addS | ["min", "s32"] => .ok .minS | ["max", "s32"] => .ok .maxS | ["min", "z32"] => .ok .minZ
  | ["max", "z32"] => .ok .maxZ | ["and"] => .ok .and | ["or"] => .ok .or | ["xor"] => .ok .xor | ["fadd", "f32"] => .ok .fadd
  | ["fmin", "f32"] => .ok .fmin | ["fmax", "f32"] => .ok .fmax | _ => .error .e101
def sreadOf (s : String) : E SreadFn :=
  match s with
  | "tick" => .ok .tick | "ctxid" => .ok .ctxid | "core" => .ok .core | "slot" => .ok .slot | "group" => .ok .group
  | "role" => .ok .role | "teamsz" => .ok .teamsz | "blockid" => .ok .blockid | "lanes" => .ok .lanes | "runmask" => .ok .runmask
  | "present" => .ok .present | "frame" => .ok .frame | "join" => .ok .join | "wbase" => .ok .wbase | "ubase" => .ok .ubase
  | "island" => .ok .island | _ => .error .e102
def fenceOf (s : String) : E FenceKind :=
  match s with
  | "acq" => .ok .acq | "rel" => .ok .rel | "ar" => .ok .acqrel | "sc" => .ok .sc | _ => .error .e101
def atomOpOf (s : String) : E AtomOp :=
  match s with
  | "add" => .ok .add | "min" => .ok .min | "max" => .ok .max | "and" => .ok .and | "or" => .ok .or | "xor" => .ok .xor
  | "xchg" => .ok .xchg | "cas" => .ok .cas | "fadd" => .ok .fadd | "fmin" => .ok .fmin | "fmax" => .ok .fmax | _ => .error .e101
def atomTyOf (s : String) : E AtomTy :=
  match s with
  | "s32" => .ok .s32 | "z32" => .ok .z32 | "s64" => .ok .s64 | "z64" => .ok .z64 | "f32" => .ok .f32 | "f16x2" => .ok .f16x2
  | "bf16x2" => .ok .bf16x2 | _ => .error .e101
def atomUseOf (s : String) : E AtomUse :=
  match s with
  | "un" => .ok .un | "cm" => .ok .cm | "no" => .ok .no | "qt" => .ok .qt | "sp" => .ok .sp | _ => .error .e101
/-- The qualifiers of an atomic: operation, type, use, then an order, then the scope, which is always written (R243). -/
def atomQual (q : List String) (noret : Bool) : E AtomSpec :=
  match q with
  | op :: ty :: use :: rest =>
    let tail : E (AtomOrd × Scope) := match rest with
      | [sc] => (scopeOf sc).map fun s => (.relaxed, s)
      | ["acq", sc] => (scopeOf sc).map fun s => (.acq, s)
      | ["rel", sc] => (scopeOf sc).map fun s => (.rel, s)
      | ["ar", sc] => (scopeOf sc).map fun s => (.acqrel, s)
      | _ => .error .e101
    match atomOpOf op, atomTyOf ty, atomUseOf use, tail with
    | .ok o, .ok t, .ok u, .ok (d, s) => .ok ⟨o, t, u, d, s, noret⟩
    | _, _, _, _ => .error .e101
  | _ => .error .e101
def redTyOf (s : String) : E RedTy :=
  match s with
  | "f32" => .ok .f32 | "bf16" => .ok .bf16 | "s32" => .ok .s32 | _ => .error .e101
def matFmtOf (s : String) : E MatFmt :=
  match s with
  | "bf16" => .ok .bf16 | "f16" => .ok .f16 | "m8" => .ok .m8 | "s8" => .ok .s8 | "z8" => .ok .z8 | _ => .error .e101
def accFmtOf (s : String) : E AccFmt :=
  match s with
  | "f32" => .ok .f32 | "bf16" => .ok .bf16 | "f16" => .ok .f16 | _ => .error .e101

/-- Width, modifier (.ru or .nt as `m` says) and order (.acq or .rel as `o` says) of a global or uniform access (R67, R79). -/
def memQual (m o : String) (q : List String) : E (Width × Bool × Option Scope) :=
  match q with
  | [] => .error .e101
  | w :: r =>
    (widthOf w).bind fun w =>
      let hasM := r.head? == some m
      match if hasM then r.drop 1 else r with
      | [] => .ok (w, hasM, none)
      | [x, sc] => if x = o then (scopeOf sc).map fun s => (w, hasM, some s) else .error .e101
      | _ => .error .e101

/-! ## Data and addresses of memory instructions -/

/-- The data register of a vector access (R67, R224): `port` where b32 data may be a port. -/
def vData (w : Width) (port : Bool) (o : Opnd) : E VReg :=
  match w with
  | .b8 | .b16 => vN o
  | .b32 => if port then vR o else vN o
  | .b64 => vAl 2 o
  | .b128 => vAl 4 o

/-- The data register of a uniform access (R237). -/
def kData (w : Width) (o : Opnd) : E KReg :=
  match w with
  | .b8 | .b16 | .b32 => kR o
  | .b64 => kAl 2 o
  | .b128 => kAl 4 o

/-- A base as an operand: the pair, or the register alone. -/
def MemOp.baseOpnd (m : MemOp) : Opnd :=
  match m.odd with
  | some b => .pair m.base b
  | none => .reg m.base

/-- [va:va+1]. No form of an instruction takes an offset: macros replace it (R87, `assembleInstr`). -/
def addrVP : Opnd → E VReg
  | .mem ⟨false, a, some b, .none⟩ => vAl 2 (.pair a b)
  | _ => .error .e102
/-- [va]. -/
def addrV : Opnd → E VReg
  | .mem ⟨false, a, none, .none⟩ => vN (.reg a)
  | _ => .error .e102
/-- [ka:ka+1]. -/
def addrKP : Opnd → E KReg
  | .mem ⟨false, a, some b, .none⟩ => kAl 2 (.pair a b)
  | _ => .error .e102
/-- [ka:ka+1 + vb]. -/
def addrX : Opnd → E (KReg × VReg)
  | .mem ⟨false, a, some b, .reg r⟩ => (kAl 2 (.pair a b)).bind fun k => (vN (.reg r)).map fun v => (k, v)
  | _ => .error .e102
/-- [ka], the place of an mbar object. -/
def addrK : Opnd → E KReg
  | .mem ⟨false, a, none, .none⟩ => kR (.reg a)
  | _ => .error .e102
/-- s[ka]. -/
def addrS : Opnd → E KReg
  | .mem ⟨true, a, none, .none⟩ => kR (.reg a)
  | _ => .error .e102
/-- [ka:ka+1 stride kb] or s[ka:ka+1 stride kb]: the space, base and stride. -/
def addrStride : Opnd → E (Bool × KReg × KReg)
  | .mem ⟨blk, a, some b, .stride r⟩ => (kAl 2 (.pair a b)).bind fun k => (kR (.reg r)).map fun s => (blk, k, s)
  | _ => .error .e102
/-- s[ka stride kb]. -/
def addrSStride : Opnd → E (KReg × KReg)
  | .mem ⟨true, a, none, .stride r⟩ => (kR (.reg a)).bind fun k => (kR (.reg r)).map fun s => (k, s)
  | _ => .error .e102

/-! ## Named operands -/

/-- An operand `name=…`. -/
def Opnd.isNamed : Opnd → Option String
  | .named n _ | .namedReg n _ => some n
  | _ => none

/-- The operands without a name, when every name is one of `ok` and none comes twice. -/
def plainOpnds (ok : List String) (ops : List Opnd) : E (List Opnd) :=
  let names := ops.filterMap Opnd.isNamed
  if names.all ok.contains && names.eraseDups.length == names.length then .ok (ops.filter fun o => o.isNamed.isNone) else .error .e102

def namedOpnd (n : String) (ops : List Opnd) : Option Opnd := ops.find? fun o => o.isNamed == some n

/-- name=e with a constant in a range; a default where it may be left out. -/
def Ctx.namedImm (c : Ctx) (n : String) (lo hi step : Int) (dflt : Option Int) (ops : List Opnd) : E Int :=
  match namedOpnd n ops, dflt with
  | some (.named _ e), _ => c.range lo hi step e
  | none, some d => .ok d
  | _, _ => .error .e102

/-- tok=t (R281). -/
def Ctx.tok (c : Ctx) (ops : List Opnd) : E (BitVec 3) := (c.namedImm "tok" 0 7 1 none ops).map (BitVec.ofInt 3)

/-- mbar=off: the offset ÷ 16, 0xFFFF where it is left out (R292). -/
def Ctx.mbar (c : Ctx) (ops : List Opnd) : E (BitVec 16) :=
  (c.namedImm "mbar" 0 (16 * 65534) 16 (some (16 * 65535)) ops).map fun v => BitVec.ofInt 16 (v / 16)

/-- bytes=n or bytes=k (R292). -/
def Ctx.bytes (c : Ctx) (ops : List Opnd) : E Count :=
  match namedOpnd "bytes" ops with
  | some (.namedReg _ r) => (kR (.reg r)).map .reg
  | some (.named _ e) => (c.range 32 (32 * 1048575) 32 e).map fun v => .imm (BitVec.ofInt 20 (v / 32))
  | _ => .error .e102

/-- rows=n or rows=k of cp.tile (R297). -/
def Ctx.rows (c : Ctx) (ops : List Opnd) : E RowCount :=
  match namedOpnd "rows" ops with
  | some (.namedReg _ r) => (kR (.reg r)).map .reg
  | some (.named _ e) => (c.range 1 65535 1 e).map fun v => .imm (BitVec.ofInt 16 v)
  | _ => .error .e102

/-- k=n or k=kn of a pass (R265). -/
def Ctx.depth (c : Ctx) (ops : List Opnd) : E Depth :=
  match namedOpnd "k" ops with
  | some (.namedReg _ r) => (kR (.reg r)).map .reg
  | some (.named _ e) => (c.range 32 8160 32 e).map fun v => .imm (BitVec.ofInt 13 v)
  | _ => .error .e102

/-- sa=vn or sb=vn; 0x7F where it is left out (R265). -/
def scaleArg (n : String) (ops : List Opnd) : E (BitVec 7) :=
  match namedOpnd n ops with
  | some (.namedReg _ r) => vN (.reg r)
  | none => .ok 0x7F#7
  | _ => .error .e102

/-- Release qualifiers of a copy: none, or .rel and a scope (R292). -/
def relQual (q : List String) : E (Option Scope) :=
  match q with
  | [] => .ok none
  | ["rel", sc] => (scopeOf sc).map some
  | _ => .error .e101

/-! ## Tables of plain forms -/

/-- op vd, va, vb (R195, R201, R203, R212, R214). -/
def tableVVV : List (String × (VReg → VReg → VReg → Stall → Instr)) :=
  [("iadd", .iadd), ("isub", .isub), ("imul", .imul), ("imulh.s", .imulhS), ("imulh.z", .imulhZ), ("and", .and), ("or", .or)
  , ("xor", .xor), ("andn", .andn), ("shl", .shl), ("shr", .shr), ("sra", .sra), ("imin.s", .iminS), ("imin.z", .iminZ)
  , ("imax.s", .imaxS), ("imax.z", .imaxZ), ("bfe", .bfe), ("shfl.idx", .shflIdx)]
  ++ [("fadd.f32", .faddF32), ("fsub.f32", .fsubF32), ("fmul.f32", .fmulF32), ("fmin.f32", .fminF32), ("fmax.f32", .fmaxF32)
  , ("fadd.f16x2", .faddF16x2), ("fsub.f16x2", .fsubF16x2), ("fmul.f16x2", .fmulF16x2), ("fmin.f16x2", .fminF16x2)
  , ("fmax.f16x2", .fmaxF16x2), ("fadd.bf16x2", .faddBf16x2), ("fsub.bf16x2", .fsubBf16x2), ("fmul.bf16x2", .fmulBf16x2)
  , ("fmin.bf16x2", .fminBf16x2), ("fmax.bf16x2", .fmaxBf16x2)]

/-- The same with D read, which may then be no port (R59). -/
def tableDVV : List (String × (VReg → VReg → VReg → Stall → Instr)) :=
  [("imad", .imad), ("bfi", .bfi), ("ffma.f32", .ffmaF32), ("ffma.f16x2", .ffmaF16x2), ("ffma.bf16x2", .ffmaBf16x2), ("vdot.m8", .vdotM8)]

/-- op on three pairs (R198, R203). -/
def tablePPP : List (String × (VReg → VReg → VReg → Stall → Instr)) :=
  [("iadd64", .iadd64), ("fadd.f64", .faddF64), ("fsub.f64", .fsubF64), ("fmul.f64", .fmulF64), ("ffma.f64", .ffmaF64)
  , ("fmin.f64", .fminF64), ("fmax.f64", .fmaxF64)]

/-- op kd, ka, kb (R202). -/
def tableKKK : List (String × (KReg → KReg → KReg → Stall → Instr)) :=
  [("kadd", .kadd), ("ksub", .ksub), ("kmul", .kmul), ("kand", .kand), ("kor", .kor), ("kxor", .kxor)]

/-- No operands. -/
def table0 : List (String × (Stall → Instr)) :=
  [("nop", .nop), ("ret", .ret), ("meet", .meet), ("exit", .exit), ("yield", .yield), ("brk", .brk), ("region", .region)
  , ("drainst", .drainst), ("rett", .rett), ("exit.grp", .exitGrp), ("ofence", .ofence), ("mwait", .mwait), ("bar.blk", .barBlk)
  , ("bar.blk.r", .barBlkR), ("bar.team", .barTeam)]

/-- op kd, with the alignment of the field (R111, R251, R304). -/
def tableK : List (String × Nat × (KReg → Stall → Instr)) :=
  [("chkerr", 1, .chkerr), ("stamp", 2, .stamp), ("settled", 2, .settled), ("dusk", 2, .dusk), ("floor", 2, .floor)
  , ("cp.stat", 1, .cpStat), ("act.done", 1, .actDone), ("mark", 1, .mark)]

/-- op kd, ka, with the alignments of the fields (R127, R132, R133, R251, R318, R346). -/
def tableKK : List (String × Nat × Nat × (KReg → KReg → Stall → Instr)) :=
  [("hpin", 1, 2, .hpin), ("hunpin", 1, 1, .hunpin), ("spawn", 1, 8, .spawn), ("jdec", 1, 2, .jdec), ("launch", 1, 16, .launch)
  , ("qstat", 2, 1, .qstat), ("qinit", 1, 4, .qinit), ("act.begin", 4, 1, .actBegin), ("act.comp", 1, 8, .actComp)
  , ("act.commit", 1, 1, .actCommit), ("act.abandon", 1, 1, .actAbandon), ("act.stat", 4, 1, .actStat)
  , ("act.resume", 1, 2, .actResume), ("tlbinv", 1, 4, .tlbinv)]

/-- The 32-bit CSRs that have names of their own, and both halves of the 64-bit ones (R100, R103). -/
def csrNames : List (String × Nat) :=
  [("fpcr", 0x00), ("fpsr", 0x01), ("stksave.lo", 0x02), ("stksave.hi", 0x03), ("tcause", 0x04), ("trec", 0x05), ("tpc.lo", 0x06)
  , ("tpc.hi", 0x07), ("tva.lo", 0x08), ("tva.hi", 0x09), ("tlanes", 0x0A), ("trapvec.lo", 0x10), ("trapvec.hi", 0x11)
  , ("sbchk", 0x12), ("wdog", 0x13), ("quantum", 0x14), ("pintmo", 0x15), ("accthr", 0x16), ("acttmo", 0x17), ("ctxid", 0x18)
  , ("ctxattr", 0x19), ("tslice", 0x1A), ("ptroot.lo", 0x1C), ("ptroot.hi", 0x1D), ("hretain", 0x800), ("seriesk", 0x801)
  , ("retrain", 0x802), ("stopat.lo", 0x804), ("stopat.hi", 0x805)]
  ++ (List.range 32).map (fun i => ("ctr" ++ toString i, 0x100 + i))
  ++ (List.range 32).map (fun i => ("ctrsel" ++ toString i, 0x120 + i))

/-- Names that R103 refuses: 64-bit CSRs without a suffix. -/
def csrWideNames : List String := ["stksave", "tpc", "tva", "trapvec", "ptroot", "stopat"]

/-- A CSR operand: a name of the list, or an expression from 0 to 0xFFFF (R103). Another name that is no symbol is an unknown CSR name
(R94). -/
def Ctx.csr (c : Ctx) (o : Opnd) : E (BitVec 16) :=
  match o with
  | .expr (.sym n) =>
    match csrNames.find? fun x => x.1 == n with
    | some x => .ok (BitVec.ofNat 16 x.2)
    | none =>
      if csrWideNames.contains n then .error .e101
      else match c.range 0 65535 1 (.sym n) with
        | .ok v => .ok (BitVec.ofInt 16 v)
        | .error .e112 => .error .e101
        | .error e => .error e
  | o => (c.imm 0 65535 1 o).map (BitVec.ofInt 16)

/-- A queue name of qfence (R303). -/
def queueBit (o : Opnd) : E (BitVec 4) :=
  match o with
  | .expr (.sym "ld") => .ok 1 | .expr (.sym "st") => .ok 2 | .expr (.sym "mat") => .ok 4 | .expr (.sym "ch") => .ok 8
  | _ => .error .e102

/-- The mask of a list of queue names, each at most once. -/
def queueMask (ops : List Opnd) : E (BitVec 4) :=
  (ops.mapM queueBit).bind fun bs =>
    if bs.isEmpty || bs.eraseDups.length != bs.length then .error .e102 else .ok (bs.foldl (· ||| ·) 0#4)

/-! ## The instructions by family -/

/-- An instruction that leaves no relocation. -/
def plain (i : Instr) : E Built := .ok ⟨i, none⟩

/-- Control flow and the window (R72, R154-R164, R85, R143, R184). -/
def asmControl (c : Ctx) (mn : String) (ops : List Opnd) (s : Stall) : Option (E Built) :=
  match mn, ops with
  | "guard", [a, n] => some do plain (.guard (← selR a) (BitVec.ofInt 4 (← c.imm 1 15 1 n)) s)
  | "bra", [a, t] => some do
      let sel ← selR a
      let x ← c.target t
      .ok ⟨.bra sel x.1 s, x.2⟩
  | "bra", [t] => some do
      let x ← c.target t
      .ok ⟨.bra .always x.1 s, x.2⟩
  | "call", [t] => some (match c.frame with
      | some f => do
        let x ← c.target t
        .ok ⟨.call (BitVec.ofNat 7 f) x.1 s, x.2⟩
      | none => .error .e102)
  | "call", [t, f] => some do
      let x ← c.target t
      let f ← c.imm 0 112 8 f
      .ok ⟨.call (BitVec.ofInt 7 f) x.1 s, x.2⟩
  | "jmp", [a] => some do plain (.jmp (← vAl 2 a) s)
  | "callr", [a, f] => some do
      let a ← vAl 2 a
      plain (.callr (BitVec.ofInt 7 (← c.imm 0 112 8 f)) a s)
  | "trap", [n] => some do plain (.trap (BitVec.ofInt 7 (← c.imm 0 127 1 n)) s)
  | "win", [n] => some do plain (.win (BitVec.ofInt 7 ((← c.imm 0 1016 8 n) / 8)) s)
  | "wink", [n] => some do plain (.wink (BitVec.ofInt 7 ((← c.imm 0 224 32 n) / 32)) s)
  | _, _ => none

/-- Literals, moves, special registers, CSRs, tokens (R218, R219, R112, R103, R282). -/
def asmMoves (c : Ctx) (mn : String) (ops : List Opnd) (s : Stall) : Option (E Built) :=
  match mn, ops with
  | "lit", [d, v] => some do
      let d ← vR d
      let x ← c.literal v
      .ok ⟨.lit d x.1 s, x.2⟩
  | "klit", [d, v] => some do
      let d ← kR d
      let x ← c.literal v
      .ok ⟨.klit d x.1 s, x.2⟩
  | "mov", [.reg (.k d), a] => some do plain (.movToUniform (← kR (.reg (.k d))) (← vR a) s)
  | "mov", [.reg (.kp d), a] => some do plain (.movKp (← kpR 7 (.reg (.kp d))) (← kR a) s)
  | "mov", [d, .reg (.k a)] => some do plain (.movBroadcast (← vR d) (← kR (.reg (.k a))) s)
  | "mov", [d, a] => some do plain (.mov (← vR d) (← vR a) s)
  | "mov.pv", [d] => some do plain (.movPv (← vR d) s)
  | "mov.vp", [a] => some do plain (.movVp (← vR a) s)
  | "sread", [d, .expr (.sym n)] => some do
      let fn ← sreadOf n
      plain (.sread fn (← if fn.pair then kAl 2 d else kR d) s)
  | "csrr", [d, n] => some do plain (.csrr (← kR d) (← c.csr n) s)
  | "csrw", [n, a] => some do plain (.csrw (← c.csr n) (← kR a) s)
  | "waitt", [m] => some do plain (.waitt (BitVec.ofInt 8 (← c.imm 0 255 1 m)) s)
  | _, _ => none

/-- Compute instructions with qualifiers or immediates (R195-R217), by the words of the mnemonic. The odd predicate of a packed fcmp
raises E103 (DESIGN CHOICE, log entry 65: the spec names no code for it; R81's E105 speaks of odd pairs and b128 fields). -/
def asmCompute (c : Ctx) (q : List String) (ops : List Opnd) (s : Stall) : Option (E Built) :=
  match q, ops with
  | ["iaddi"], [d, a, i] => some do plain (.iaddi (← vR d) (← vR a) (← c.imm7 i) s)
  | ["andi"], [d, a, i] => some do plain (.andi (← vR d) (← vR a) (← c.imm7 i) s)
  | ["shfi", k], [d, a, n] => some do plain (.shfi (← shiftKindOf k) (← vR d) (← vR a) (BitVec.ofInt 5 (← c.imm 0 31 1 n)) s)
  | ["lea"], [d, a, b] => some do plain (.lea (← vAl 2 d) (← vAl 2 a) (← vR b) s)
  | ["icmp", "s", x], [p, a, b] => some do plain (.icmpS (← icondOf x) (← pR p) (← vR a) (← vR b) s)
  | ["icmp", "z", x], [p, a, b] => some do plain (.icmpZ (← icondOf x) (← pR p) (← vR a) (← vR b) s)
  | ["iun", f], [d, a] => some do plain (.iun (← iunOf f) (← vR d) (← vR a) s)
  | ["fcmp", x], [p, a, b] => some do plain (.fcmpF32 (← condOf x) (← pR p) (← vR a) (← vR b) s)
  | ["fcmp", "f32", x], [p, a, b] => some do plain (.fcmpF32 (← condOf x) (← pR p) (← vR a) (← vR b) s)
  | ["fcmp", "f16x2", x], [p, a, b] => some do
      let x ← condOf x
      let p ← pR p
      if p.toNat % 2 = 1 then .error .e103 else plain (.fcmpF16x2 x p (← vR a) (← vR b) s)
  | ["fcmp", "bf16x2", x], [p, a, b] => some do
      let x ← condOf x
      let p ← pR p
      if p.toNat % 2 = 1 then .error .e103 else plain (.fcmpBf16x2 x p (← vR a) (← vR b) s)
  | ["fcmp", "f64", x], [p, a, b] => some do plain (.fcmpF64 (← condOf x) (← pR p) (← vAl 2 a) (← vAl 2 b) s)
  | ["fun", f, "f32"], [d, a] => some do plain (.funF32 (← funOf f) (← vR d) (← vR a) s)
  | ["fun", f, "f16x2"], [d, a] => some do plain (.funF16x2 (← funOf f) (← vR d) (← vR a) s)
  | ["fun", f, "bf16x2"], [d, a] => some do plain (.funBf16x2 (← funOf f) (← vR d) (← vR a) s)
  | ["fun", f, "f64"], [d, a] => some do plain (.funF64 (← funOf f) (← vAl 2 d) (← vAl 2 a) s)
  | "cvt" :: k, [d, a] => some do
      let k ← cvtQual k
      plain (.cvt k.1 k.2 (← if k.1.dPair then vAl 2 d else vR d) (← if k.1.aPair then vAl 2 a else vR a) s)
  | ["pk", "m8", "rn"], [d, a, b] => some do plain (.pkM8Rn (← vR d) (← vAl 2 a) (← vAl 2 b) s)
  | ["pk", "m8", "rz"], [d, a, b] => some do plain (.pkM8Rz (← vR d) (← vAl 2 a) (← vAl 2 b) s)
  | ["up", "m8"], [d, a, n] => some do
      let d ← vR d
      let a ← vR a
      plain (.upM8 (BitVec.ofInt 2 (← c.imm 0 3 1 n)) d a s)
  | ["shfl", "up"], [d, a, n] => some do plain (.shflUp (← vR d) (← vR a) (BitVec.ofInt 5 (← c.imm 0 31 1 n)) s)
  | ["shfl", "dn"], [d, a, n] => some do plain (.shflDn (← vR d) (← vR a) (BitVec.ofInt 5 (← c.imm 0 31 1 n)) s)
  | ["shfl", "xor"], [d, a, n] => some do plain (.shflXor (← vR d) (← vR a) (BitVec.ofInt 5 (← c.imm 0 31 1 n)) s)
  | ["qx", f], [d, a] => some do plain (.qx (← qxOf f) (← vR d) (← vR a) s)
  | ["vote", "any"], [d, p] => some do plain (.voteAny (← kpR 7 d) (← pR p) s)
  | ["vote", "all"], [d, p] => some do plain (.voteAll (← kpR 7 d) (← pR p) s)
  | ["vote", "ballot"], [d, p] => some do plain (.voteBallot (← kR d) (← pR p) s)
  | ["vote", "eq"], [d, p] => some do plain (.voteEq (← kpR 7 d) (← pR p) s)
  | "redux" :: o, [d, a] => some do plain (.redux (← reduxOf o) (← kR d) (← vR a) s)
  | ["kshfi", k], [d, a, n] => some do plain (.kshfi (← shiftKindOf k) (← kR d) (← kR a) (BitVec.ofInt 5 (← c.imm 0 31 1 n)) s)
  | ["kaddi"], [d, a, i] => some do plain (.kaddi (← kR d) (← kR a) (← c.imm7 i) s)
  | ["kcmp", "s", x], [p, a, b] => some do plain (.kcmpS (← icondOf x) (← kpR 4 p) (← kR a) (← kR b) s)
  | ["kcmp", "z", x], [p, a, b] => some do plain (.kcmpZ (← icondOf x) (← kpR 4 p) (← kR a) (← kR b) s)
  | ["kadd64"], [d, a, b] => some do plain (.kadd64 (← kAl 2 d) (← kAl 2 a) (← kAl 2 b) s)
  | _, _ => none

/-- An atomic (R243, R247): the destination is left out with noret. -/
def asmAtom (glb : Bool) (q : List String) (ops : List Opnd) (s : Stall) : E Built :=
  let go (noret : Bool) (d : E VReg) (m b : Opnd) : E Built := do
    let sp ← atomQual q noret
    let a ← if glb then addrVP m else addrV m
    let b ← if sp.op = .cas then (if sp.ty.is64 then vAl 4 b else vAl 2 b) else if sp.ty.is64 then vAl 2 b else vN b
    let d ← d
    if noret = false ∧ sp.ty.is64 ∧ d.toNat % 2 = 1 then .error .e105
    else plain (if glb then .atomG sp d a b s else .atomS sp d a b s)
  match ops with
  | [m, b] => go true (.ok 0#7) m b
  | [.pair x y, m, b] => go false (vAl 2 (.pair x y)) m b
  | [d, m, b] => go false (vN d) m b
  | _ => .error .e102

/-- Memory, stamp and fence instructions (R233-R255). -/
def asmMemory (_ : Ctx) (q : List String) (ops : List Opnd) (s : Stall) : Option (E Built) :=
  match q, ops with
  | "kld" :: q, [d, m] => some do
      let x ← memQual "ru" "acq" q
      if x.2.1 then .error .e104 else plain (.kld x.1 x.2.2 (← kData x.1 d) (← addrKP m) s)
  | "kst" :: q, [m, d] => some do
      let x ← memQual "nt" "rel" q
      let a ← addrKP m
      plain (.kst x.1 x.2.1 x.2.2 (← kData x.1 d) a s)
  | "ld" :: "g" :: q, [d, m] => some do
      let x ← memQual "ru" "acq" q
      if x.2.1 && x.2.2.isSome then .error .e104 else plain (.ldG x.1 x.2.1 x.2.2 (← vData x.1 false d) (← addrVP m) s)
  | "st" :: "g" :: q, [m, d] => some do
      let x ← memQual "nt" "rel" q
      let a ← addrVP m
      plain (.stG x.1 x.2.1 x.2.2 (← vData x.1 true d) a s)
  | ["ldx", "g"], [d, m] => some do
      let d ← vN d
      let x ← addrX m
      plain (.ldxG d x.1 x.2 s)
  | ["stx", "g"], [m, d] => some do
      let x ← addrX m
      plain (.stxG (← vR d) x.1 x.2 s)
  | "ld" :: "s" :: w :: q, [d, m] => some do
      let w ← widthOf w
      match q with
      | [] => plain (.ldS w false false (← vData w false d) (← addrV m) s)
      | ["fe"] => plain (.ldS w true false (← vData w false d) (← addrV m) s)
      | ["fe", "clr"] => plain (.ldS w true true (← vData w false d) (← addrV m) s)
      | ["clr"] => .error .e104
      | _ => .error .e101
  | "st" :: "s" :: w :: q, [m, d] => some do
      let w ← widthOf w
      match q with
      | [] =>
        let a ← addrV m
        plain (.stS w false (← vData w true d) a s)
      | ["fe"] =>
        let a ← addrV m
        plain (.stS w true (← vData w true d) a s)
      | ["clr"] | ["fe", "clr"] => .error .e104
      | _ => .error .e101
  | ["ld", "l", w], [d, m] => some do
      let w ← widthOf w
      plain (.ldL w (← vData w false d) (← addrV m) s)
  | ["st", "l", w], [m, d] => some do
      let w ← widthOf w
      let a ← addrV m
      plain (.stL w (← vData w true d) a s)
  | "atom" :: "g" :: q, ops => some (asmAtom true q ops s)
  | "atom" :: "s" :: q, ops => some (asmAtom false q ops s)
  | "ld" :: "asof" :: w :: q, d :: m :: k :: p => some do
      let w ← widthOf w
      let nb ← match q with
        | [] => .ok false
        | ["nb"] => .ok true
        | _ => .error .e101
      let d ← vData w false d
      let a ← addrVP m
      let k ← kAl 2 k
      match p with
      | [] => if nb then .error .e102 else plain (.ldAsof w k false 15 d a s)
      | [p] => plain (.ldAsof w k nb (← pR p) d a s)
      | _ => .error .e102
  | ["fence", k, sc], [] => some do plain (.fence (← fenceOf k) (← scopeOf sc) s)
  | ["mbar", "init"], [m, d] => some do
      let a ← addrK m
      plain (.mbarInit (← kR d) a s)
  | ["mbar", "expect"], [m, d] => some do
      let a ← addrK m
      plain (.mbarExpect (← kR d) a s)
  | ["mbar", "arrive"], [d, m] => some do plain (.mbarArrive (← kR d) (← addrK m) s)
  | ["mbar", "wait"], [m, d] => some do
      let a ← addrK m
      plain (.mbarWait (← kR d) a s)
  | ["mbar", "test"], [d, m] => some do plain (.mbarTest (← kR d) (← addrK m) s)
  | _, _ => none

/-- The copy engine (R292-R303). -/
def asmCopy (c : Ctx) (q : List String) (ops : List Opnd) (s : Stall) : Option (E Built) :=
  match q with
  | ["cp", "ld"] => some do
      match ← plainOpnds ["bytes", "tok", "mbar"] ops with
      | [d, a] =>
        let d ← addrS d
        let a ← addrKP a
        plain (.cpLd d a (← c.bytes ops) (← c.tok ops) (← c.mbar ops) s)
      | _ => .error .e102
  | "cp" :: "st" :: q => some do
      let r ← relQual q
      match ← plainOpnds ["bytes", "tok"] ops with
      | [a, d] =>
        let a ← addrKP a
        let d ← addrS d
        plain (.cpSt d a (← c.bytes ops) (← c.tok ops) r s)
      | _ => .error .e102
  | "cp" :: "red" :: "add" :: ty :: q => some do
      let ty ← redTyOf ty
      let r ← relQual q
      match ← plainOpnds ["bytes", "tok"] ops with
      | [a, d] =>
        let a ← addrKP a
        let d ← addrS d
        plain (.cpRed ty d a (← c.bytes ops) (← c.tok ops) r s)
      | _ => .error .e102
  | ["cp", "tile"] => some do
      match ← plainOpnds ["rows", "rowbytes", "roles", "tok", "mbar"] ops with
      | [d, a] =>
        let d ← addrS d
        let x ← addrStride a
        if x.1 then .error .e102
        else
          let rb ← c.namedImm "rowbytes" 32 65504 32 none ops
          let roles ← c.namedImm "roles" 1 65535 1 none ops
          plain (.cpTile d x.2.1 x.2.2 (← c.rows ops) (BitVec.ofInt 16 rb) (BitVec.ofInt 16 roles) (← c.tok ops) (← c.mbar ops) s)
      | _ => .error .e102
  | ["cp", "chain"] => some do
      match ← plainOpnds ["ch", "tok"] ops with
      | [a] =>
        let a ← addrKP a
        plain (.cpChain (BitVec.ofInt 2 (← c.namedImm "ch" 0 3 1 none ops)) a (← c.tok ops) s)
      | _ => .error .e102
  | ["qfence"] => some do plain (.qfence (← queueMask ops) s)
  | _ => none

/-- mma and mma.pair (R265). -/
def asmMma (c : Ctx) (mk : MmaSpec → Stall → Instr) (q : List String) (ops : List Opnd) (s : Stall) : E Built := do
  let ow := q.getLast? == some "ow"
  let f ← match if ow then q.dropLast else q with
    | [f] => (matFmtOf f).map fun f => (f, f)
    | [f, g] => (matFmtOf f).bind fun f => (matFmtOf g).map fun g => (f, g)
    | _ => .error .e101
  match ← plainOpnds ["k", "sa", "sb", "bsel", "tok"] ops with
  | [.acc r, a, b] =>
    let row ← c.range 0 448 64 r
    let a ← addrStride a
    let b ← addrStride b
    let bsel ← c.namedImm "bsel" 0 3 1 (some 0) ops
    plain (mk ⟨⟨a.2.1, a.2.2, f.1, a.1⟩, ⟨b.2.1, b.2.2, f.2, b.1⟩, ← c.depth ops, ← scaleArg "sa" ops, ← scaleArg "sb" ops
      , BitVec.ofInt 2 bsel, BitVec.ofInt 9 row, ow, ← c.tok ops⟩ s)
  | _ => .error .e102

/-- First row, rows, token of an accumulator transfer: first + rows at most 512 (R269, R271). -/
def Ctx.accSpec (c : Ctx) (first : Expr) (fmt : AccFmt) (blk : Bool) (ops : List Opnd) : E AccSpec := do
  let f ← c.range 0 511 1 first
  let n ← c.namedImm "rows" 1 128 1 none ops
  let t ← c.tok ops
  if 512 < f + n then .error .e103 else .ok ⟨BitVec.ofInt 9 f, BitVec.ofInt 7 (n - 1), t, blk, fmt⟩

/-- The matrix engine (R265, R269, R272). -/
def asmMatrix (c : Ctx) (q : List String) (ops : List Opnd) (s : Stall) : Option (E Built) :=
  match q with
  | "mma" :: "pair" :: q => some (asmMma c .mmaPair q ops s)
  | "mma" :: q => some (asmMma c .mma q ops s)
  | ["acc", "zero"] => some do
      match ← plainOpnds ["rows", "tok"] ops with
      | [.acc f] => plain (.accZero (← c.accSpec f .f32 false ops) s)
      | _ => .error .e102
  | ["acc", "ld", f] => some do
      let fm ← accFmtOf f
      match ← plainOpnds ["rows", "tok"] ops with
      | [.acc f, m] =>
        let x ← addrStride m
        plain (.accLd (← c.accSpec f fm x.1 ops) x.2.2 x.2.1 s)
      | _ => .error .e102
  | ["acc", "st", f] => some do
      let fm ← accFmtOf f
      match ← plainOpnds ["rows", "tok"] ops with
      | [m, .acc f] =>
        let x ← addrStride m
        plain (.accSt (← c.accSpec f fm x.1 ops) x.2.2 x.2.1 s)
      | _ => .error .e102
  | ["acc", "cp", f] => some do
      let fm ← accFmtOf f
      match ← plainOpnds ["role", "rows", "tok", "mbar"] ops with
      | [m, .acc f] =>
        let x ← addrSStride m
        let role ← c.namedImm "role" 0 15 1 none ops
        plain (.accCp (← c.accSpec f fm false ops) (BitVec.ofInt 4 role) (← c.mbar ops) x.2 x.1 s)
      | _ => .error .e102
  | _ => none

/-- The plain tables. -/
def asmTables (mn : String) (ops : List Opnd) (s : Stall) : Option (E Built) :=
  match table0.find? fun x => x.1 == mn with
  | some x => some (if ops.isEmpty then plain (x.2 s) else .error .e102)
  | none =>
  match tableVVV.find? fun x => x.1 == mn with
  | some x => some (match ops with
    | [d, a, b] => do plain (x.2 (← vR d) (← vR a) (← vR b) s)
    | _ => .error .e102)
  | none =>
  match tableDVV.find? fun x => x.1 == mn with
  | some x => some (match ops with
    | [d, a, b] => do plain (x.2 (← vN d) (← vR a) (← vR b) s)
    | _ => .error .e102)
  | none =>
  match tablePPP.find? fun x => x.1 == mn with
  | some x => some (match ops with
    | [d, a, b] => do plain (x.2 (← vAl 2 d) (← vAl 2 a) (← vAl 2 b) s)
    | _ => .error .e102)
  | none =>
  match tableKKK.find? fun x => x.1 == mn with
  | some x => some (match ops with
    | [d, a, b] => do plain (x.2 (← kR d) (← kR a) (← kR b) s)
    | _ => .error .e102)
  | none =>
  match tableK.find? fun x => x.1 == mn with
  | some x => some (match ops with
    | [d] => do plain (x.2.2 (← kAl x.2.1 d) s)
    | _ => .error .e102)
  | none =>
  match tableKK.find? fun x => x.1 == mn with
  | some x => some (match ops with
    | [d, a] => do plain (x.2.2.2 (← kAl x.2.1 d) (← kAl x.2.2.1 a) s)
    | _ => .error .e102)
  | none => none

/-- The first words of mnemonics: with one of these, wrong operands are E102; any other is an unknown mnemonic. -/
def families : List (List String) :=
  [["guard"], ["bra"], ["call"], ["jmp"], ["callr"], ["trap"], ["win"], ["wink"], ["lit"], ["klit"], ["mov"], ["mov", "pv"]
  , ["mov", "vp"], ["sread"], ["csrr"], ["csrw"], ["waitt"], ["iaddi"], ["andi"], ["lea"], ["kaddi"], ["kadd64"], ["up", "m8"]
  , ["pk", "m8", "rn"], ["pk", "m8", "rz"], ["shfl", "up"], ["shfl", "dn"], ["shfl", "xor"], ["vote", "any"], ["vote", "all"]
  , ["vote", "ballot"], ["vote", "eq"], ["ldx", "g"], ["stx", "g"], ["mbar", "init"], ["mbar", "expect"], ["mbar", "arrive"]
  , ["mbar", "wait"], ["mbar", "test"]]

/-- Whether the words of a mnemonic are ones that some instruction has, whatever its operands. -/
def knownMnemonic (q : List String) : Bool :=
  families.contains q || (match q with
    | ["shfi", k] | ["kshfi", k] => (shiftKindOf k).toOption.isSome
    | ["icmp", "s", x] | ["icmp", "z", x] | ["kcmp", "s", x] | ["kcmp", "z", x] | ["fcmp", x] => (condOf x).toOption.isSome
    | ["fcmp", t, x] => ["f32", "f16x2", "bf16x2", "f64"].contains t && (condOf x).toOption.isSome
    | ["iun", f] => (iunOf f).toOption.isSome
    | ["fun", f, t] => (funOf f).toOption.isSome && ["f32", "f16x2", "bf16x2", "f64"].contains t
    | "cvt" :: k => (cvtQual k).toOption.isSome
    | ["qx", f] => (qxOf f).toOption.isSome
    | "redux" :: o => (reduxOf o).toOption.isSome
    | "kld" :: q | "ld" :: "g" :: q => (memQual "ru" "acq" q).toOption.isSome
    | "kst" :: q | "st" :: "g" :: q => (memQual "nt" "rel" q).toOption.isSome
    | "ld" :: "s" :: w :: q => (widthOf w).toOption.isSome && [[], ["fe"], ["fe", "clr"]].contains q
    | "st" :: "s" :: w :: q => (widthOf w).toOption.isSome && [[], ["fe"]].contains q
    | ["ld", "l", w] | ["st", "l", w] | ["ld", "asof", w] | ["ld", "asof", w, "nb"] => (widthOf w).toOption.isSome
    | ["fence", k, sc] => (fenceOf k).toOption.isSome && (scopeOf sc).toOption.isSome
    | _ => false)

/-- A memory operand with an offset: where none is accepted it raises E115 (R87). -/
def Opnd.hasOffset : Opnd → Bool
  | .mem ⟨_, _, _, .off _⟩ => true
  | _ => false

/-- The instruction of a line (R79, R81), or the code that it raises. A line whose encoding would raise ILLEGAL or RESERVED_FIELD is
rejected: what no check of a field names is a reserved value of the qualifiers (log entry 65). -/
def assembleInstr (c : Ctx) (mn : String) (ops : List Opnd) (s : Stall) : E Built :=
  let q := splitDots mn
  let r := (asmTables mn ops s).orElse fun _ => (asmControl c mn ops s).orElse fun _ => (asmMoves c mn ops s).orElse fun _ =>
    (asmCompute c q ops s).orElse fun _ => (asmMemory c q ops s).orElse fun _ => (asmCopy c q ops s).orElse fun _ =>
    asmMatrix c q ops s
  match r with
  | some (.ok b) => if b.instr.wf then .ok b else .error .e104
  | some (.error x) => .error (if x ≠ .e101 ∧ ops.any Opnd.hasOffset then .e115 else x)
  | none => .error (if !knownMnemonic q then .e101 else if ops.any Opnd.hasOffset then .e115 else .e102)

end Sys2Proof.Knas
end

