-- ==== Sys2Proof/Machine/KnasSource.lean ====
section
/-! DEFINITION. The source program of knas: block directives, macros and their expansion, conditionals, includes, and every
directive (R82, R84-R87), to the items that the sections hold. -/

namespace Sys2Proof.Knas

/-! ## Lines and blocks (R84, R86) -/

/-- A source line: where it was written, and the invocation that expanded it. -/
structure Line where
  loc  : Loc
  via  : Option Loc
  text : List Char
  deriving DecidableEq, Repr

/-- The block structure of a text. -/
inductive Node where
  | line (l : Line)
  | rept (l : Line) (body : List Node)
  | cond (l : Line) (yes no : List Node)
  | mac (l : Line) (body : List Line)
  | bad (l : Line)

def Line.head (l : Line) : String := (parts l.text).head

/-- A line that ends or divides a block keeps its label in the text before it: the label alone, as a line. -/
def Line.labelLine (l : Line) : List Line :=
  match (parts l.text).label with
  | some n => [{ l with text := n.toList ++ [':'] }]
  | none => []

/-- The lines up to the `.endm` that closes a macro, and those from there on. -/
def takeMacro : Nat → List Line → List Line × List Line
  | _, [] => ([], [])
  | d, l :: ls =>
    if l.head = ".endm" ∧ d = 0 then ([], l :: ls)
    else
      let d' := if l.head = ".endm" then d - 1 else if l.head = ".macro" then d + 1 else d
      let x := takeMacro d' ls
      (l :: x.1, x.2)

/-- Block directives that close or divide a block. -/
def closers : List String := [".endr", ".endm", ".endif", ".else"]

/-- The blocks of a text up to a closer; the fuel is the number of lines. -/
def blocksWith : Nat → List Line → List Node × List Line
  | 0, ls => ([], ls)
  | _ + 1, [] => ([], [])
  | f + 1, l :: ls =>
    if closers.contains l.head then ([], l :: ls)
    else if l.head = ".rept" then
      let b := blocksWith f ls
      match b.2 with
      | e :: r =>
        if e.head = ".endr" then
          let x := blocksWith f r
          (.rept l (b.1 ++ e.labelLine.map Node.line) :: x.1, x.2)
        else (.bad l :: b.1, e :: r)
      | [] => (.bad l :: b.1, [])
    else if l.head = ".if" then
      let b := blocksWith f ls
      match b.2 with
      | e :: r =>
        if e.head = ".endif" then
          let x := blocksWith f r
          (.cond l (b.1 ++ e.labelLine.map Node.line) [] :: x.1, x.2)
        else if e.head = ".else" then
          let c := blocksWith f r
          match c.2 with
          | e' :: r' =>
            if e'.head = ".endif" then
              let x := blocksWith f r'
              (.cond l (b.1 ++ (e.labelLine.map Node.line)) (c.1 ++ (e'.labelLine.map Node.line)) :: x.1, x.2)
            else (.bad l :: b.1 ++ c.1, e' :: r')
          | [] => (.bad l :: b.1 ++ c.1, [])
        else (.bad l :: b.1, e :: r)
      | [] => (.bad l :: b.1, [])
    else if l.head = ".macro" then
      let b := takeMacro 0 ls
      match b.2 with
      | e :: r =>
        let x := blocksWith f r
        (.mac l (b.1 ++ e.labelLine) :: x.1, x.2)
      | [] => ([.bad l], [])
    else
      let x := blocksWith f ls
      (.line l :: x.1, x.2)

/-- All the blocks of a text; a closer without its opener is unbalanced (E117). -/
def blocksAll : Nat → List Line → List Node
  | 0, _ => []
  | f + 1, ls =>
    let x := blocksWith (ls.length + 1) ls
    match x.2 with
    | [] => x.1
    | l :: r => x.1 ++ .bad l :: blocksAll f r

/-! ## What a program becomes -/

/-- What .text holds, in order. -/
inductive Item where
  | insn (mn : String) (ops : List Opnd) (stall : Option Nat) (frame : Option Nat) (checked : Bool)
  | datum (wide : Bool) (e : Expr)
  | space (bytes : Nat)
  | align (n : Nat)
  | label (name : String)
  deriving DecidableEq, Repr

/-- An item, its line, and how many kernels were opened before it. -/
structure Placed where
  item : Item
  line : Line
  kern : Nat
  deriving DecidableEq, Repr

/-- A datum of another section, at its offset. -/
structure Datum where
  sect : Sect
  off  : Nat
  wide : Bool
  e    : Expr
  line : Line
  deriving DecidableEq, Repr

/-- A kernel and its declarations (R84). `opening` until something of .text follows the directive. -/
structure Kernel where
  name    : String
  line    : Line
  team    : Nat := 1
  regs    : Option (Nat × Nat) := none
  scratch : Nat := 0
  opening : Bool := true
  deriving DecidableEq, Repr

/-- A macro: its parameters, its temporary, its body (R86, R87). -/
structure Macro where
  params : List String
  tmp    : Option Nat
  body   : List Line
  deriving DecidableEq, Repr

/-- The program read so far. Lists are newest first. -/
structure Src where
  equs    : List (String × DWord) := []
  dlabels : List (String × Sect × Nat) := []
  tlabels : List String := []
  globals : List String := []
  macros  : List (String × Macro) := []
  sect    : Sect := .text
  szData  : Nat := 0
  szRo    : Nat := 0
  szBss   : Nat := 0
  szParam : Nat := 0
  items   : List Placed := []
  data    : List Datum := []
  kernels : List Kernel := []
  frame   : Option Nat := none
  uniq    : Nat := 0
  diags   : List Diag := []
  deriving DecidableEq, Repr

/-- What a line is expanded in: the macros open, the depth of includes, the temporary of the macro (R86, R87). -/
structure Where where
  macros   : List String := []
  includes : Nat := 0
  tmp      : Option Nat := none
  deriving DecidableEq, Repr

/-- The files that a run can read, and the directories that `.include` searches (R77). -/
structure Files where
  texts : List (String × List (List Char))
  dirs  : List String
  deriving DecidableEq, Repr

def Src.diag (s : Src) (l : Line) (c : Code) : Src := { s with diags := ⟨c, l.loc, l.via⟩ :: s.diags }

/-- A section's size so far, .text apart. -/
def Src.size (s : Src) (x : Sect) : Nat :=
  match x with
  | .data => s.szData | .rodata => s.szRo | .bss => s.szBss | .param => s.szParam | .text => 0

def Src.setSize (s : Src) (x : Sect) (n : Nat) : Src :=
  match x with
  | .data => { s with szData := n }
  | .rodata => { s with szRo := n }
  | .bss => { s with szBss := n }
  | .param => { s with szParam := n }
  | .text => s

def Src.defined (s : Src) (n : String) : Bool :=
  s.equs.any (fun x => x.1 == n) || s.dlabels.any (fun x => x.1 == n) || s.tlabels.contains n

/-- The value of a label outside .text: in .param its offset from the frame pointer (R82). -/
def dataVal (x : Sect × Nat) : Val := ⟨BitVec.ofNat 64 x.2, if x.1 = .param then none else some (.sect x.1)⟩

/-- The symbols that are constant, or addresses, at the line reached. A label of .text moves with the stall counts: no constant
(log entry 64). -/
def Src.lookNow (s : Src) (n : String) : E Val :=
  match s.equs.find? fun x => x.1 == n with
  | some x => .ok ⟨x.2, none⟩
  | none =>
    match s.dlabels.find? fun x => x.1 == n with
    | some x => .ok (dataVal x.2)
    | none => if s.tlabels.contains n then .error .e114 else .error .e112

/-- A constant at the line reached: an address is none (E114), and an absolute symbol that a later line defines is undefined here, also
in the offset of R87 (E112; DESIGN CHOICE, log entry 65). -/
def Src.constNow (s : Src) (e : Expr) : E Int :=
  match eval s.lookNow e with
  | .ok (.val ⟨v, none⟩) => .ok v.toInt
  | .ok _ => .error .e114
  | .error x => .error x

/-- A directive's operand: out of range is E114 (R84). -/
def Src.operand (s : Src) (lo hi step : Int) (ts : List Tok) : E Nat :=
  match parseExpr ts with
  | .ok e => match s.constNow e with
    | .ok v => if lo ≤ v ∧ v ≤ hi ∧ v % step = 0 then .ok v.toNat else .error .e114
    | .error x => .error x
  | .error x => .error x

/-- Something of .text follows a `.kernel`. -/
def Src.closeOpening (s : Src) : Src :=
  match s.kernels with
  | k :: r => { s with kernels := { k with opening := false } :: r }
  | [] => s

def Src.put (s : Src) (l : Line) (i : Item) : Src := { s with items := ⟨i, l, s.kernels.length⟩ :: s.items }

/-! ## Labels, data, declarations -/

/-- A name that a symbol may not have: a register's or a port's (R79). The line then raises E102, and a `v`, `k`, `p`, `kp` or `q` with
a number of any size counts as such a name (DESIGN CHOICE, log entry 65: R79 forbids the names and gives neither a code nor a list). -/
def badName (n : String) : Bool := n.isEmpty || (regOf n).isSome

/-- Define a label at the place reached. A kernel's name written as a label right after its directive is that kernel's place; any
other second definition is E113 (R82, R84). A label before an `.align` outside .text is where the padding starts, not the datum after
it (DESIGN CHOICE, log entry 65). -/
def Src.label (s : Src) (l : Line) (n : String) : Src :=
  if badName n then s.diag l .e102
  else if s.sect = .text ∧ (s.kernels.head?.any fun k => k.name == n && k.opening) then s.closeOpening.put l (.label n)
  else if s.defined n then s.diag l .e113
  else if s.sect = .text then { s with tlabels := n :: s.tlabels }.put l (.label n)
  else { s with dlabels := (n, s.sect, s.size s.sect) :: s.dlabels }

/-- A datum of 4 or 8 bytes (R84). -/
def Src.datum (s : Src) (l : Line) (wide : Bool) (e : Expr) : Src :=
  if s.sect = .text then s.closeOpening.put l (.datum wide e)
  else
    let off := s.size s.sect
    { s with data := ⟨s.sect, off, wide, e, l⟩ :: s.data }.setSize s.sect (off + if wide then 8 else 4)

/-- A kernel that ends has its registers declared (E121), at the line of its `.kernel`. -/
def Src.endKernel (s : Src) : Src :=
  match s.kernels with
  | k :: _ => if k.regs.isNone then s.diag k.line .e121 else s
  | [] => s

/-- Change the open kernel's declarations; without one, the declaration is out of place. -/
def Src.declare (s : Src) (l : Line) (f : Kernel → Kernel) : Src :=
  match s.kernels with
  | k :: r => { s with kernels := f k :: r }
  | [] => s.diag l .e114

/-- A step that may raise a code at the line. -/
def Src.try {α : Type} (s : Src) (l : Line) (r : E α) (f : α → Src) : Src :=
  match r with
  | .ok a => f a
  | .error c => s.diag l c

/-- The operands v=A and k=M of `.regs` (R84). -/
def regsOperands (s : Src) (ts : List Tok) : E (Nat × Nat) :=
  match splitCommas ts 0 [] with
  | [.name "v" :: .op "=" :: a] => (s.operand 128 512 8 a).map fun a => (a, 256)
  | [.name "v" :: .op "=" :: a, .name "k" :: .op "=" :: m] =>
    (s.operand 128 512 8 a).bind fun a => (s.operand 32 256 32 m).map fun m => (a, m)
  | _ => .error .e102

/-- A power of two. -/
def isPow2 (n : Nat) : Bool := n == 2 ^ Nat.log2 n

/-- The stall count of a line: a constant from 0 to 15 (E122). -/
def Src.stall (s : Src) (ts : Option (List Tok)) : E (Option Nat) :=
  match ts with
  | none => .ok none
  | some ts =>
    match parseExpr ts with
    | .ok e => match s.constNow e with
      | .ok v => if 0 ≤ v ∧ v ≤ 15 then .ok (some v.toNat) else .error .e122
      | .error x => .error x
    | .error x => .error x

/-- A directive that opens no block and reads no file (R84). -/
def Src.directive (s : Src) (l : Line) (d : String) (ts : List Tok) : Src :=
  match d, ts with
  | ".text", [] => { s with sect := .text }
  | ".data", [] => { s with sect := .data }
  | ".rodata", [] => { s with sect := .rodata }
  | ".bss", [] => { s with sect := .bss }
  | ".param", [] => { s with sect := .param }
  | ".kernel", [.name n] =>
    let s := s.endKernel
    if badName n then s.diag l .e102
    else if s.defined n then s.diag l .e113
    else
      let s := { s with kernels := { name := n, line := l } :: s.kernels, tlabels := n :: s.tlabels, globals := n :: s.globals }
      s.put l (.label n)
  | ".team", ts => s.try l (s.operand 1 16 1 ts) fun n => s.declare l fun k => { k with team := n }
  | ".regs", ts => s.try l (regsOperands s ts) fun r => s.declare l fun k => { k with regs := some r }
  | ".scratch", ts => s.try l (s.operand 0 327680 1 ts) fun n =>
    (if n % 1024 = 0 then s else s.diag l .w207).declare l fun k => { k with scratch := (n + 1023) / 1024 }
  | ".frame", ts => s.try l (s.operand 16 112 8 ts) fun n => { s with frame := some n }
  | ".align", ts => s.try l (s.operand 4 4096 4 ts) fun n =>
    if !isPow2 n then s.diag l .e114
    else if s.sect = .text then s.put l (.align n)
    else s.setSize s.sect ((s.size s.sect + n - 1) / n * n)
  | ".space", ts => s.try l (s.operand 0 4294967295 (if s.sect = .text then 4 else 1) ts) fun n =>
    if s.sect = .text then s.closeOpening.put l (.space n) else s.setSize s.sect (s.size s.sect + n)
  | ".word", ts => s.try l ((splitCommas ts 0 []).mapM parseExpr) fun es => es.foldl (fun s e => s.datum l false e) s
  | ".dword", ts => s.try l ((splitCommas ts 0 []).mapM parseExpr) fun es => es.foldl (fun s e => s.datum l true e) s
  | ".equ", .name n :: .op "," :: ts =>
    if badName n then s.diag l .e102
    else if s.defined n then s.diag l .e113
    else s.try l ((parseExpr ts).bind s.constNow) fun v => { s with equs := (n, BitVec.ofInt 64 v) :: s.equs }
  | ".global", [.name n] => if badName n then s.diag l .e102 else { s with globals := n :: s.globals }
  | _, _ => s.diag l (if [".text", ".data", ".rodata", ".bss", ".param", ".kernel", ".equ", ".global"].contains d then .e102 else .e101)

/-! ## Instructions -/

/-- The offset operand of an access in a macro with a temporary: its base pair, and its offset (R87). -/
def offsetOf (ops : List Opnd) : Option (Reg × Reg × Expr) :=
  ops.findSome? fun o => match o with
    | .mem ⟨false, .v a, some (.v b), .off e⟩ => some (.v a, .v b, e)
    | _ => none

/-- The operands with the offset operand replaced by the temporary pair (R87). -/
def useTmp (n : Nat) (ops : List Opnd) : List Opnd :=
  ops.map fun o => match o with
    | .mem ⟨false, .v _, some (.v _), .off _⟩ => .mem ⟨false, .v n, some (.v (n + 1)), .none⟩
    | o => o

/-- An instruction line (R79, R82, R87). -/
def Src.insn (s : Src) (w : Where) (l : Line) (mn : String) (rest : List Char) (checked : Bool := false) : Src :=
  if s.sect ≠ .text then s.diag l .e120
  else
    s.try l (lex rest) fun ts =>
      let x := splitStall none 0 ts
      s.try l (parseOpnds x.1) fun ops =>
        s.try l (s.stall x.2) fun st =>
          let s := s.closeOpening
          match w.tmp, offsetOf ops with
          | some n, some (a, b, e) =>
            s.try l (s.constNow e) fun v =>
              if v < 0 ∨ 4294967295 < v then s.diag l .e103
              else
                let s := s.put l (.insn "lit" [.reg (.v (n + 2)), .expr (.num (BitVec.ofInt 64 v))] none s.frame false)
                let s := s.put l (.insn "lea" [.pair (.v n) (.v (n + 1)), .pair a b, .reg (.v (n + 2))] none s.frame false)
                s.put l (.insn mn (useTmp n ops) st s.frame checked)
          | _, _ => s.put l (.insn mn ops st s.frame checked)

/-! ## Macros (R86) -/

/-- Text split at the commas outside brackets, parentheses and quotes. -/
def splitArgs : List Char → Nat → Bool → List Char → List (List Char)
  | [], _, _, cur => [trim cur.reverse]
  | c :: r, d, q, cur =>
    if c == ',' && d == 0 && !q then trim cur.reverse :: splitArgs r 0 false []
    else
      let d' := if c == '(' || c == '[' then d + 1 else if c == ')' || c == ']' then d - 1 else d
      splitArgs r d' (q != (c == '"')) (c :: cur)

/-- The longest parameter whose name starts a text. -/
def matchParam (ps : List (String × List Char)) (t : List Char) : Option (List Char × Nat) :=
  (ps.filter fun p => p.1.toList.isPrefixOf t).foldl (fun best p =>
    match best with
    | some b => if b.2 < p.1.length then some (p.2, p.1.length) else some b
    | none => some (p.2, p.1.length)) none

/-- Each \p replaced by its argument's text; the fuel is the text's length. -/
def substWith (ps : List (String × List Char)) : Nat → List Char → List Char
  | 0, _ => []
  | _ + 1, [] => []
  | f + 1, '\\' :: r =>
    match matchParam ps r with
    | some (a, n) => a ++ substWith ps f (r.drop n)
    | none => '\\' :: substWith ps f r
  | f + 1, c :: r => c :: substWith ps f r

/-- The labels of a body that begin with `..`, as far as they are spelled in the body itself. -/
def localLabels (body : List Line) : List (List Char) :=
  body.filterMap fun l =>
    let a := takeSym (trim (stripComment false l.text))
    match a.1, a.2.dropWhile isBlank with
    | '.' :: '.' :: _, c :: _ => if c == ':' || c == '\\' then some a.1 else none
    | _, _ => none

/-- The labels named, renamed for expansion n; the fuel is the text's length. -/
def renameWith (names : List (List Char)) (n : Nat) : Nat → List Char → List Char
  | 0, _ => []
  | _ + 1, [] => []
  | f + 1, c :: r =>
    if isSymStart c then
      let a := takeSym (c :: r)
      (if names.contains a.1 then '.' :: renameMark :: (toString n).toList ++ a.1.drop 1 else a.1) ++ renameWith names n f a.2
    else if c.isDigit then
      (c :: r).takeWhile isSymChar ++ renameWith names n f ((c :: r).dropWhile isSymChar)
    else c :: renameWith names n f r

/-- The lines of an expansion. -/
def Macro.expand (m : Macro) (args : List (List Char)) (n : Nat) (via : Loc) : List Line :=
  let ps := m.params.zip args
  let names := localLabels m.body
  m.body.map fun l =>
    let t := renameWith names n (l.text.length + 1) l.text
    { l with text := substWith ps (t.length + 1) t, via := some via }

/-- `.macro name p1, p2, … [tmp=vN]`: N a multiple of 4 whose group of three stands below v120; another N is E114 (DESIGN CHOICE, log
entry 65: R87 gives no code). -/
def parseMacro (rest : List Char) : E (String × List String × Option Nat) :=
  let a := takeSym rest
  let words := ((splitArgs a.2 0 false []).flatMap fun t =>
    (String.ofList (t.map fun c => if isBlank c then ' ' else c)).splitOn " ").filter (· != "")
  let tmps := words.filter fun w => "tmp=".toList.isPrefixOf w.toList
  let ps := words.filter fun w => !"tmp=".toList.isPrefixOf w.toList
  if a.1.isEmpty || ps.any (fun p => (takeSym p.toList).2 != [] || p.isEmpty) || ps.eraseDups.length != ps.length then .error .e102
  else
    match tmps with
    | [] => .ok (String.ofList a.1, ps, none)
    | [t] =>
      match regOf (String.ofList (t.toList.drop 4)) with
      | some (.v n) => if n % 4 = 0 ∧ n ≤ 116 then .ok (String.ofList a.1, ps, some n) else .error .e114
      | _ => .error .e102
    | _ => .error .e102

/-! ## Running the blocks -/

/-- What reads further lines one level deeper: a macro's expansion, an included file. -/
abbrev Deeper := Where → Src → List Line → Src

/-- A file's lines, numbered from 1, in the expansion that included it, if one did (R78). -/
def fileLines (name : String) (via : Option Loc) (texts : List (List Char)) : List Line :=
  texts.zipIdx.map fun x => ⟨⟨name, x.2 + 1, columnOf x.1⟩, via, x.1⟩

/-- `.include "file"`: the first directory that has it; nesting at most 16 (R77, R84). -/
def Src.incl (files : Files) (deep : Deeper) (s : Src) (w : Where) (l : Line) (ts : List Tok) : Src :=
  match ts with
  | [.str path] =>
    if 16 ≤ w.includes then s.diag l .e118
    else
      match files.dirs.findSome? fun d => files.texts.find? fun x => x.1 == (if d = "" then path else d ++ "/" ++ path) with
      | some x => deep { w with includes := w.includes + 1 } s (fileLines x.1 l.via x.2)
      | none => s.diag l .e118
  | _ => s.diag l .e102

/-- A macro's invocation (R86). An empty argument is a missing one (DESIGN CHOICE, log entry 65). -/
def Src.invoke (deep : Deeper) (s : Src) (w : Where) (l : Line) (name : String) (m : Macro) (rest : List Char) : Src :=
  let args := if rest.isEmpty then [] else splitArgs rest 0 false []
  if w.macros.contains name ∨ 64 ≤ w.macros.length ∨ args.length ≠ m.params.length ∨ args.any (·.isEmpty) then s.diag l .e116
  else
    deep { w with macros := name :: w.macros, tmp := m.tmp } { s with uniq := s.uniq + 1 } (m.expand args s.uniq l.loc)

/-- A line that opens no block. -/
def Src.line (files : Files) (deep : Deeper) (s : Src) (w : Where) (l : Line) : Src :=
  let p := parts l.text
  let s := match p.label with
    | some n => s.label l n
    | none => s
  if p.head.isEmpty then (if p.rest.isEmpty then s else s.diag l .e101)
  else
    match s.macros.find? fun x => x.1 == p.head with
    | some m => s.invoke deep w l p.head m.2 p.rest
    | none =>
      if p.head = ".region" then s.insn w l "region" p.rest true
      else if p.head.toList.head? = some '.' then
        s.try l (lex p.rest) fun ts => if p.head = ".include" then s.incl files deep w l ts else s.directive l p.head ts
      else s.insn w l p.head p.rest

/-- The label of a line that opens a block. -/
def Src.blockLabel (s : Src) (l : Line) : Src :=
  match (parts l.text).label with
  | some n => s.label l n
  | none => s

/-- The operand of `.rept` or `.if`. -/
def Src.blockOperand (s : Src) (l : Line) : E Int := ((lex (parts l.text).rest).bind parseExpr).bind s.constNow

mutual
/-- One block (R84, R86). -/
def runNode (files : Files) (deep : Deeper) (w : Where) (s : Src) : Node → Src
  | .line l => s.line files deep w l
  | .rept l body =>
    let s := s.blockLabel l
    match s.blockOperand l with
    | .ok n =>
      if n < 0 ∨ 65536 < n then s.diag l .e114
      else (List.range n.toNat).foldl (fun s _ => runNodes files deep w s body) s
    | .error c => s.diag l c
  | .cond l yes no =>
    let s := s.blockLabel l
    match s.blockOperand l with
    | .ok n => if n ≠ 0 then runNodes files deep w s yes else runNodes files deep w s no
    | .error c => s.diag l c
  | .mac l body =>
    let s := s.blockLabel l
    match parseMacro (parts l.text).rest with
    | .ok (n, ps, t) =>
      if s.macros.any fun x => x.1 == n then s.diag l .e113 else { s with macros := (n, ⟨ps, t, body⟩) :: s.macros }
    | .error c => s.diag l c
  | .bad l => s.diag l .e117
/-- Blocks in order. -/
def runNodes (files : Files) (deep : Deeper) (w : Where) (s : Src) : List Node → Src
  | [] => s
  | n :: r => runNodes files deep w (runNode files deep w s n) r
end

/-- Lines at a depth: every level is a macro's expansion (at most 64) or an include (at most 16). A line that holds knas's own mark is
none of the language. -/
def runLines (files : Files) : Nat → Where → Src → List Line → Src
  | 0, _, s, _ => s
  | d + 1, w, s, ls => runNodes files (runLines files d) w s (blocksAll (ls.length + 1) ls)

/-- A program: its file's lines, after the definitions of the command line (R77). -/
def readProgram (files : Files) (name : String) (text : List (List Char)) (defs : List (String × DWord)) : Src :=
  let ls := fileLines name none text
  let s : Src := { equs := defs }
  let s := (ls.filter fun l => l.text.contains renameMark).foldl (fun s l => s.diag l .e101) s
  (runLines files 96 {} s ls).endKernel

end Sys2Proof.Knas
end

