-- ==== Sys2Proof/Machine/KnasStall.lean ====
section
/-! DEFINITION. What knas knows of a program's instructions: the registers that each reads and writes and its latency (R26), the
control-flow graph (R88), the window base and UBASE (R92), and the stall counts (R88-R90). -/

namespace Sys2Proof.Knas

/-! ## Registers and latencies -/

/-- A register as an instruction names it. -/
inductive RName where
  | v (f : Nat) | k (f : Nat) | p (n : Nat) | kp (n : Nat)
  deriving DecidableEq, Repr

/-- A latency (R26); none where no register is written. -/
inductive Lat where
  | none
  | fixed (n : Nat)
  | var
  deriving DecidableEq, Repr

/-- What an instruction reads and writes. -/
structure Uses where
  rd  : List RName := []
  wr  : List RName := []
  lat : Lat := .none
  deriving DecidableEq, Repr

/-- Vector registers from a field; a port is none (R66). -/
def vs (f : BitVec 7) (n : Nat := 1) : List RName := if 120 ≤ f.toNat then [] else (List.range n).map fun i => .v (f.toNat + i)
/-- Uniform registers from a field. -/
def ks (f : BitVec 7) (n : Nat := 1) : List RName := (List.range n).map fun i => .k (f.toNat + i)
/-- Lane predicates of the window of a lane. -/
def allPreds : List RName := (List.range 12).map .p

/-- A selector's predicate. -/
def selReads : Sel → List RName
  | .always => []
  | .lane _ p => [.p p.toNat]
  | .uni _ p => [.kp p.toNat]

/-- Registers of an access of a width (R221). -/
def widthRegs : Width → Nat
  | .b8 | .b16 | .b32 => 1
  | .b64 => 2
  | .b128 => 4

/-- An instruction with a fixed latency. -/
def fix (n : Nat) (wr rd : List RName) : Uses := ⟨rd, wr, .fixed n⟩
/-- One with a variable latency. -/
def vary (wr rd : List RName) : Uses := ⟨rd, wr, .var⟩
/-- One that writes no register. -/
def reads (rd : List RName) : Uses := ⟨rd, [], .none⟩

/-- Three vector fields. -/
def vvv (n : Nat) (d a b : VReg) : Uses := fix n (vs d) (vs a ++ vs b)
/-- Three vector fields, the first also read. -/
def dvv (n : Nat) (d a b : VReg) : Uses := fix n (vs d) (vs a ++ vs b ++ vs d)
/-- Three vector pairs. -/
def ppp (n : Nat) (d a b : VReg) : Uses := fix n (vs d 2) (vs a 2 ++ vs b 2)
/-- Three uniform fields. -/
def kkk (d a b : KReg) : Uses := fix 2 (ks d) (ks a ++ ks b)

/-- The register of a substituted count. -/
def countReads : Count → List RName
  | .imm _ => []
  | .reg k => ks k
def rowReads : RowCount → List RName
  | .imm _ => []
  | .reg k => ks k

/-- The scale registers of a pass: one for each block of 32 (R264); with a substituted K all that the field can name. -/
def scaleReads (d : Depth) (f : BitVec 7) : List RName :=
  match d with
  | .imm k => vs f (min (k.toNat / 32) (120 - f.toNat))
  | .reg _ => vs f (120 - f.toNat)

/-- What a pass reads (R265). -/
def mmaReads (m : MmaSpec) : List RName :=
  ks m.a.base 2 ++ ks m.a.stride ++ ks m.b.base 2 ++ ks m.b.stride
    ++ (match m.depth with
      | .imm _ => []
      | .reg k => ks k)
    ++ scaleReads m.depth m.sa ++ scaleReads m.depth m.sb

/-- The registers that an instruction reads and writes, and its latency (R26, R220, and each instruction's own rule). -/
def usesOf : Instr → Uses
  | .guard sel _ _ => reads (selReads sel)
  | .bra sel _ _ => reads (selReads sel)
  | .jmp a _ => reads (vs a 2)
  | .ret _ => reads [.v 0, .v 1]
  | .callr _ a _ => reads (vs a 2)
  | .chkerr d _ => vary (ks d) []
  | .lit d _ _ => fix 4 (vs d) []
  | .klit d _ _ => fix 2 (ks d) []
  | .mov d a _ => fix 4 (vs d) (vs a)
  | .movBroadcast d a _ => fix 4 (vs d) (ks a)
  | .movToUniform d a _ => fix 4 (ks d) (vs a)
  | .movPv d _ => fix 4 (vs d) allPreds
  | .movVp a _ => fix 4 allPreds (vs a)
  | .movKp d a _ => fix 4 [.kp d.toNat] (ks a)
  | .sread fn d _ => vary (ks d (if fn.pair then 2 else 1)) []
  | .csrr d _ _ => vary (ks d) []
  | .csrw _ a _ => reads (ks a)
  | .iadd d a b _ | .isub d a b _ | .imul d a b _ | .imulhS d a b _ | .imulhZ d a b _ | .and d a b _ | .or d a b _ | .xor d a b _
  | .andn d a b _ | .shl d a b _ | .shr d a b _ | .sra d a b _ | .iminS d a b _ | .iminZ d a b _ | .imaxS d a b _ | .imaxZ d a b _
  | .bfe d a b _ => vvv 4 d a b
  | .imad d a b _ | .bfi d a b _ | .vdotM8 d a b _ => dvv 4 d a b
  | .iaddi d a _ _ | .andi d a _ _ => fix 4 (vs d) (vs a)
  | .shfi _ d a _ _ => fix 4 (vs d) (vs a)
  | .iadd64 d a b _ => ppp 4 d a b
  | .lea d a b _ => fix 4 (vs d 2) (vs a 2 ++ vs b)
  | .icmpS _ p a b _ | .icmpZ _ p a b _ => fix 4 [.p p.toNat] (vs a ++ vs b)
  | .iun _ d a _ => fix 4 (vs d) (vs a)
  | .faddF32 d a b _ | .fsubF32 d a b _ | .fmulF32 d a b _ | .fminF32 d a b _ | .fmaxF32 d a b _
  | .faddF16x2 d a b _ | .fsubF16x2 d a b _ | .fmulF16x2 d a b _ | .fminF16x2 d a b _ | .fmaxF16x2 d a b _
  | .faddBf16x2 d a b _ | .fsubBf16x2 d a b _ | .fmulBf16x2 d a b _ | .fminBf16x2 d a b _ | .fmaxBf16x2 d a b _ => vvv 4 d a b
  | .ffmaF32 d a b _ | .ffmaF16x2 d a b _ | .ffmaBf16x2 d a b _ => dvv 4 d a b
  | .fcmpF32 _ p a b _ => fix 4 [.p p.toNat] (vs a ++ vs b)
  | .fcmpF16x2 _ p a b _ | .fcmpBf16x2 _ p a b _ => fix 4 [.p p.toNat, .p (p.toNat + 1)] (vs a ++ vs b)
  | .funF32 _ d a _ | .funF16x2 _ d a _ | .funBf16x2 _ d a _ => fix 16 (vs d) (vs a)
  | .faddF64 d a b _ | .fsubF64 d a b _ | .fmulF64 d a b _ | .fminF64 d a b _ | .fmaxF64 d a b _ => ppp 8 d a b
  | .ffmaF64 d a b _ => fix 8 (vs d 2) (vs a 2 ++ vs b 2 ++ vs d 2)
  | .fcmpF64 _ p a b _ => fix 8 [.p p.toNat] (vs a 2 ++ vs b 2)
  | .funF64 _ d a _ => fix 16 (vs d 2) (vs a 2)
  | .cvt k _ d a _ => fix 4 (vs d (if k.dPair then 2 else 1)) (vs a (if k.aPair then 2 else 1))
  | .pkM8Rn d a b _ | .pkM8Rz d a b _ => fix 4 (vs d) (vs a 2 ++ vs b 2)
  | .upM8 _ d a _ => fix 4 (vs d) (vs a)
  | .shflIdx d a b _ => vvv 6 d a b
  | .shflUp d a _ _ | .shflDn d a _ _ | .shflXor d a _ _ => fix 6 (vs d) (vs a)
  | .qx _ d a _ => fix 6 (vs d) (vs a)
  | .voteAny d p _ | .voteAll d p _ | .voteEq d p _ => fix 8 [.kp d.toNat] [.p p.toNat]
  | .voteBallot d p _ => fix 8 (ks d) [.p p.toNat]
  | .redux _ d a _ => fix 8 (ks d) (vs a)
  | .kadd d a b _ | .ksub d a b _ | .kmul d a b _ | .kand d a b _ | .kor d a b _ | .kxor d a b _ => kkk d a b
  | .kshfi _ d a _ _ => fix 2 (ks d) (ks a)
  | .kaddi d a _ _ => fix 2 (ks d) (ks a)
  | .kcmpS _ p a b _ | .kcmpZ _ p a b _ => fix 2 [.kp p.toNat] (ks a ++ ks b)
  | .kadd64 d a b _ => fix 2 (ks d 2) (ks a 2 ++ ks b 2)
  | .kld w _ d a _ => vary (ks d (widthRegs w)) (ks a 2)
  | .kst w _ _ d a _ => reads (ks a 2 ++ ks d (widthRegs w))
  | .ldG w _ _ d a _ => vary (vs d (widthRegs w)) (vs a 2)
  | .stG w _ _ d a _ => reads (vs a 2 ++ vs d (widthRegs w))
  | .ldxG d a b _ => vary (vs d) (ks a 2 ++ vs b)
  | .stxG d a b _ => reads (ks a 2 ++ vs b ++ vs d)
  | .ldS w _ _ d a _ => vary (vs d (widthRegs w)) (vs a)
  | .stS w _ d a _ => reads (vs a ++ vs d (widthRegs w))
  | .ldL w d a _ => fix 8 (vs d (widthRegs w)) (vs a)
  | .stL w d a _ => reads (vs a ++ vs d (widthRegs w))
  | .atomG sp d a b _ =>
    let n := (if sp.ty.is64 then 2 else 1)
    let rd := vs a 2 ++ vs b (if sp.op = .cas then 2 * n else n)
    if sp.noret then reads rd else vary (vs d n) rd
  | .atomS sp d a b _ =>
    let n := (if sp.ty.is64 then 2 else 1)
    let rd := vs a ++ vs b (if sp.op = .cas then 2 * n else n)
    if sp.noret then reads rd else vary (vs d n) rd
  | .ldAsof w st _ p d a _ => vary (vs d (widthRegs w) ++ (if p = 15#4 then [] else [.p p.toNat])) (vs a 2 ++ ks st 2)
  | .stamp d _ | .settled d _ | .dusk d _ | .floor d _ => vary (ks d 2) []
  | .hpin d a _ => vary (ks d) (ks a 2)
  | .hunpin d a _ => vary (ks d) (ks a)
  | .cpLd d a n _ _ _ | .cpSt d a n _ _ _ => reads (ks d ++ ks a 2 ++ countReads n)
  | .cpTile d a st rows _ _ _ _ _ => reads (ks d ++ ks a 2 ++ ks st ++ rowReads rows)
  | .cpRed _ d a n _ _ _ => reads (ks d ++ ks a 2 ++ countReads n)
  | .cpChain _ a _ _ => reads (ks a 2)
  | .cpStat d _ => vary (ks d) []
  | .mma m _ | .mmaPair m _ => reads (mmaReads m)
  | .accLd _ d a _ | .accSt _ d a _ => reads (ks a 2 ++ ks d)
  | .accCp _ _ _ d a _ => reads (ks a ++ ks d)
  | .mbarInit d a _ | .mbarExpect d a _ | .mbarWait d a _ => reads (ks a ++ ks d)
  | .mbarArrive d a _ | .mbarTest d a _ => vary (ks d) (ks a)
  | .spawn d a _ | .actComp d a _ => vary (ks d) (ks a 8)
  | .launch d a _ => vary (ks d) (ks a 16)
  | .jdec d a _ | .actResume d a _ => vary (ks d) (ks a 2)
  | .qstat d a _ => vary (ks d 2) (ks a)
  | .qinit d a _ | .tlbinv d a _ => vary (ks d) (ks a 4)
  | .actBegin d a _ | .actStat d a _ => vary (ks d 4) (ks a)
  | .actCommit d a _ | .actAbandon d a _ => vary (ks d) (ks a)
  | .actDone a _ | .mark a _ => reads (ks a)
  | _ => {}

/-! ## The program as a graph (R88) -/

/-- An instruction of .text, each `nop` of `.space` and `.align` among them (R84), a word of data, or the end of .text where a label
stands there. Each takes one place of a guard's window and of a path (R88, R93). -/
structure INode where
  /-- The end of what stands before it: an inserted `nop` may follow. -/
  start   : Nat
  off     : Nat
  instr   : Option Instr
  forced  : Option Nat
  /-- A line of the source writes it: padding is written by its directive alone. -/
  written : Bool
  checked : Bool
  /-- The labels at it. -/
  labels  : List String
  /-- The offset that its bra or call names in this section; none where it leads elsewhere. -/
  target  : Option Nat
  kern    : Nat
  line    : Line
  /-- Where it stands among the program's items, and where what stands since the node before it begins: its labels and alignment. -/
  item    : Nat
  lead    : Nat
  deriving DecidableEq, Repr

/-- The program's nodes with what their labels mean. -/
structure Graph where
  nodes   : Array INode
  /-- Labels that another file, the launch or an address can reach. -/
  globals : List String
  kernels : List String
  taken   : List String

def Graph.node? (g : Graph) (i : Nat) : Option INode := g.nodes[i]?

/-- The node that a label's offset leads to. -/
def Graph.at? (g : Graph) (off : Nat) : Option Nat := g.nodes.findIdx? fun n => n.start ≤ off && off ≤ n.off

/-- Whether a label of the node is in a list. -/
def INode.labelled (n : INode) (l : List String) : Bool := n.labels.any l.contains

/-- An instruction after which control does not fall through: R88's edges are fall-through and bra. -/
def endsFlow (i : Instr) : Bool :=
  match i with
  | .jmp _ _ | .ret _ | .exit _ | .exitGrp _ | .rett _ => true
  | .bra .always _ _ => true
  | _ => false

/-- Where nothing may be outstanding (R89). -/
def isPoint (i : Instr) : Bool :=
  match i with
  | .call _ _ _ | .callr _ _ _ | .jmp _ _ | .ret _ | .exit _ | .exitGrp _ | .rett _ => true
  | _ => false

/-- The window of a guard holds the node: inactive lanes go on after it, whatever it does (R143, R154). -/
def Graph.windowed (g : Graph) (i : Nat) : Bool :=
  (List.range 15).any fun k => decide (k < i) && match (g.node? (i - 1 - k)).bind (·.instr) with
    | some (.guard _ n _) => decide (k < n.toNat)
    | _ => false

/-- The node that a bra names in this section. -/
def Graph.braTo (g : Graph) (i : Nat) : Option Nat :=
  match g.node? i with
  | some n => (match n.instr with
    | some (.bra _ _ _) => n.target.bind g.at?
    | _ => none)
  | none => none

/-- The nodes that follow a node; an end of the list, data and targets elsewhere are left out. A line in error is followed by the next. -/
def Graph.succs (g : Graph) (i : Nat) : List Nat :=
  match (g.node? i).bind (·.instr) with
  | some ins =>
    (if endsFlow ins && !g.windowed i then [] else if i + 1 < g.nodes.size then [i + 1] else []) ++ (g.braTo i).toList
  | none => if (g.node? i).any (·.written) && i + 1 < g.nodes.size then [i + 1] else []

/-- The nodes before each node. -/
def Graph.preds (g : Graph) : Array (List Nat) :=
  (List.range g.nodes.size).foldl (fun a i => (g.succs i).eraseDups.foldl (fun a j => a.modify j (· ++ [i])) a)
    (Array.replicate g.nodes.size [])

/-- A bra that leaves the section: its target is a global label (R89). -/
def Graph.leaves (g : Graph) (i : Nat) : Bool :=
  match g.node? i with
  | some n => (match n.instr with
    | some (.bra _ _ _) => (n.target.bind g.at?).isNone
    | _ => false)
  | none => false

/-- Nothing may be outstanding when control is at a node (R89). -/
def Graph.point (g : Graph) (i : Nat) : Bool :=
  match g.node? i with
  | some n => n.labelled g.globals || n.instr.any isPoint
  | none => false

/-- The nodes that a call names. -/
def Graph.called (g : Graph) : List Nat :=
  g.nodes.toList.filterMap fun n => match n.instr with
    | some (.call _ _ _) => n.target.bind g.at?
    | _ => none

/-- Where control can arrive from outside the graph: the start, labels that are global or whose address is taken, and calls. -/
def Graph.entries (g : Graph) : List Nat :=
  let called := g.called
  (List.range g.nodes.size).filter fun i => match g.node? i with
    | some n => i == 0 || n.labelled g.globals || n.labelled g.taken || called.contains i
    | none => false

/-! ## Window base and UBASE (R92) -/

/-- A base: known, or the unknown one in force since a node. -/
inductive Win where
  | known (n : Nat)
  | since (node : Nat)
  deriving DecidableEq, Repr

/-- The window base and UBASE. -/
structure Bases where
  w : Win
  u : Win
  deriving DecidableEq, Repr

/-- The bases at a node where control enters: 0 and 0 at a kernel (R148), unknown elsewhere. -/
def Graph.entryBases (g : Graph) (i : Nat) : Bases :=
  match g.node? i with
  | some n => if n.labelled g.kernels then ⟨.known 0, .known 0⟩ else ⟨.since i, .since i⟩
  | none => ⟨.since i, .since i⟩

/-- The bases after a node: win and wink set them (R158, R162). -/
def Graph.basesAfter (g : Graph) (i : Nat) (b : Bases) : Bases :=
  match (g.node? i).bind (·.instr) with
  | some (.win n _) => { b with w := .known (8 * n.toNat) }
  | some (.wink n _) => { b with u := .known (32 * n.toNat) }
  | _ => b

/-- Bases that meet at node j: unknown from there on where they differ. -/
def joinWin (j : Nat) (a b : Win) : Win := if a = b then a else .since j
def joinBases (j : Nat) (a : Option Bases) (b : Bases) : Option Bases :=
  match a with
  | none => some b
  | some a => some ⟨joinWin j a.w b.w, joinWin j a.u b.u⟩

/-- A base found anew: a node where bases once met stays the start of an unknown one. -/
def keepWin (j : Nat) (old new : Win) : Win := if old = .since j then old else new
def keepBases (j : Nat) (old new : Bases) : Bases := ⟨keepWin j old.w new.w, keepWin j old.u new.u⟩

/-- One pass over the nodes. -/
def Graph.basePass (g : Graph) (preds : Array (List Nat)) (entries : List Nat) (st : Array (Option Bases)) : Array (Option Bases) :=
  (List.range g.nodes.size).foldl (fun st j =>
    let b : Option Bases := if entries.contains j then some (g.entryBases j) else none
    let b := (preds.getD j []).foldl (fun b p => match st.getD p none with
      | some x => joinBases j b (g.basesAfter p x)
      | none => b) b
    let b := match st.getD j none, b with
      | some old, some new => some (keepBases j old new)
      | old, none => old
      | none, new => new
    st.set! j b) st

/-- Passes until nothing changes: each node becomes the start of an unknown base at most once, and what follows it takes that up. -/
def Graph.basePasses (g : Graph) (preds : Array (List Nat)) (entries : List Nat) : Nat → Array (Option Bases) → Array (Option Bases)
  | 0, st => st
  | f + 1, st =>
    let st' := g.basePass preds entries st
    if st' == st then st else g.basePasses preds entries f st'

/-- The bases at every node. Code that control does not reach takes those of the node before it and changes nothing elsewhere. -/
def Graph.bases (g : Graph) : Array (Option Bases) :=
  let fuel := (2 * g.nodes.size + 2) * (g.nodes.size + 2)
  let none' := Array.replicate g.nodes.size none
  let reached := g.basePasses g.preds g.entries fuel none'
  let firsts := (List.range g.nodes.size).filter fun i => (reached.getD i none).isNone && !(g.preds.getD i []).contains (i - 1)
  if firsts.isEmpty then reached
  else
    let preds := firsts.foldl (fun a i => a.modify i (· ++ [i - 1])) g.preds
    let all := g.basePasses preds g.entries fuel none'
    ((List.range g.nodes.size).map fun i => (reached.getD i none).or (all.getD i none)).toArray

/-- A register with its place where the base is known or at least the same: the key by which two names are compared. -/
inductive RKey where
  | v (base : Win) (f : Nat) | k (base : Win) (f : Nat) | p (n : Nat) | kp (n : Nat)
  deriving DecidableEq, Repr

def rkey (b : Option Bases) (i : Nat) (r : RName) : RKey :=
  let b := b.getD ⟨.since i, .since i⟩
  match r with
  | .v f => (match b.w with
    | .known n => .v (.known 0) (n + f)
    | w => .v w f)
  | .k f => (match b.u with
    | .known n => .k (.known 0) ((n + f) % 256)
    | u => .k u f)
  | .p n => .p n
  | .kp n => .kp n

/-- Whether two keys can name one register: under different bases, one of them unknown, they can where they agree modulo the
step of a base, 8 or 32 (R158, R162). -/
def RKey.may (a b : RKey) : Bool :=
  match a, b with
  | .v x f, .v y g => if x = y then f == g else f % 8 == g % 8
  | .k x f, .k y g => if x = y then f == g else f % 32 == g % 32
  | a, b => a == b

/-- The keys that a node reads and writes. -/
def Graph.keys (g : Graph) (bs : Array (Option Bases)) (i : Nat) : List RKey × List RKey × Lat :=
  match (g.node? i).bind (·.instr) with
  | some ins =>
    let u := usesOf ins
    (u.rd.map (rkey (bs.getD i none) i), u.wr.map (rkey (bs.getD i none) i), u.lat)
  | none => ([], [], .none)

/-- The nodes in the window of a guard: lanes may be inactive there, so that a write does not surely overwrite (R154). -/
def Graph.guarded (g : Graph) : List Nat :=
  (List.range g.nodes.size).flatMap fun i => match (g.node? i).bind (·.instr) with
    | some (.guard _ n _) => (List.range n.toNat).map (i + 1 + ·)
    | _ => []

/-- What a call's entry writes: the callee's v0 and v1 are the caller's v(s) and v(s+1) (R159). They are no names of the instruction
and no results that it waits for. -/
def calleeWrites (i : Instr) : List RName :=
  match i with
  | .call sh _ _ | .callr sh _ _ => [.v sh.toNat, .v (sh.toNat + 1)]
  | _ => []

/-- The keys that a node writes, a call's entry among them. -/
def Graph.allWrites (g : Graph) (bs : Array (Option Bases)) (i : Nat) : List RKey :=
  (g.keys bs i).2.1 ++ (((g.node? i).bind (·.instr)).toList.flatMap calleeWrites).map (rkey (bs.getD i none) i)

/-- What the analysis of a graph needs, computed once. -/
structure Facts where
  graph   : Graph
  preds   : Array (List Nat)
  succs   : Array (List Nat)
  keys    : Array (List RKey × List RKey × Lat)
  writes  : Array (List RKey)
  guarded : List Nat
  points  : Array Bool

def Graph.facts (g : Graph) : Facts :=
  let bs := g.bases
  let idx := List.range g.nodes.size
  { graph := g, preds := g.preds, succs := (idx.map g.succs).toArray, keys := (idx.map (g.keys bs)).toArray
    writes := (idx.map (g.allWrites bs)).toArray
    guarded := g.guarded, points := (idx.map g.point).toArray }

def Facts.key (f : Facts) (i : Nat) : List RKey × List RKey × Lat := f.keys.getD i ([], [], .none)

/-- Whether node j surely overwrites a register. -/
def Facts.overwrites (f : Facts) (j : Nat) (r : RKey) : Bool := !f.guarded.contains j && (f.key j).2.1.contains r

/-! ## Variable latencies (R88 step 5, R89) -/

/-- What can happen to a result before its register is overwritten: a reader, or a place where nothing may be outstanding. -/
structure Fate where
  read  : Bool
  point : Bool
  deriving DecidableEq, Repr

/-- Search from the nodes that follow a producer; the fuel bounds the nodes visited. -/
def Facts.fateWith (f : Facts) (r : RKey) : Nat → List Nat → List Nat → Fate → Fate
  | 0, _, _, z => z
  | _ + 1, [], _, z => z
  | n + 1, j :: todo, seen, z =>
    if seen.contains j then f.fateWith r n todo seen z
    else
      let z := ⟨z.read || (f.key j).1.any r.may, z.point || f.points.getD j false || f.graph.leaves j⟩
      f.fateWith r n ((if f.overwrites j r then [] else f.succs.getD j []) ++ todo) (j :: seen) z

/-- The fate of a node's results. -/
def Facts.fate (f : Facts) (i : Nat) : Fate :=
  let n := 3 * f.graph.nodes.size + 3
  (f.key i).2.1.foldl (fun z r => f.fateWith r n (f.succs.getD i []) [] ⟨z.read, z.point || f.graph.leaves i⟩) ⟨false, false⟩

/-! ## Fixed latencies (R88 steps 1-4, R89) -/

/-- A fixed-latency result on its way: its register, and the cycles that a reader must still wait. -/
structure Owed where
  key : RKey
  rem : Nat
  deriving DecidableEq, Repr

/-- The state of the choice: each stall count, the nop before each node, what is owed on entry to each. -/
structure Choice where
  s    : Array Nat
  nop  : Array Nat
  owed : Array (List Owed)
  /-- Forced counts below the computed one. -/
  low  : List Nat
  deriving DecidableEq, Repr

/-- The longest of what is owed for each register. -/
def mergeOwed (a b : List Owed) : List Owed :=
  b.foldl (fun a o => if a.any fun x => x.key == o.key && o.rem ≤ x.rem then a else o :: a.filter fun x => x.key != o.key) a

/-- What is owed after node p, whose results take their latency from its issue (R26); a stall of 15 waits for them (R64). Nothing
from before a point of R89 is outstanding after it. -/
def Facts.after (f : Facts) (c : Choice) (p : Nat) : List Owed :=
  let s := c.s.getD p 0
  let d := max s 1
  let x := f.key p
  let old := if f.points.getD p false then [] else (c.owed.getD p []).filter fun o => !f.overwrites p o.key
  let own := match x.2.2 with
    | .fixed n => if s = 15 then [] else x.2.1.map fun r => ⟨r, n⟩
    | _ => []
  (mergeOwed old own).filterMap fun o => if o.rem ≤ d then none else some { o with rem := o.rem - d }

/-- The wait that node j still needs: for the registers that it reads, or for all (R89). -/
def Facts.deficit (f : Facts) (j : Nat) (owed : List Owed) : Nat :=
  let rd := (f.key j).1
  owed.foldl (fun m o => if f.points.getD j false || rd.any o.key.may then max m o.rem else m) 0

/-- The edge from p into j runs past the nop that is inserted before j: j has a global label, before which nothing may be outstanding
(R89), so that the nop stands before the label, and p is a branch to it. -/
def Facts.skipsNop (f : Facts) (p j : Nat) : Bool :=
  (f.graph.node? j).any (·.labelled f.graph.globals) && f.graph.braTo p == some j

/-- The cycles of the nop that an edge passes. -/
def Facts.edgeNop (f : Facts) (c : Choice) (p j : Nat) : Nat := if f.skipsNop p j then 0 else c.nop.getD j 0

/-- Raise the stall count of p by a deficit, which is net of the nop that stands at node q: beyond 14 that nop takes the rest (R88
steps 3, 4). A forced count stays and takes no nop (R90); R88 chooses at most 14 here, so a forced 14 is not below it. -/
def Facts.raise (f : Facts) (c : Choice) (p q d : Nat) : Choice :=
  if d = 0 then c
  else if ((f.graph.node? p).bind (·.forced)).isSome then
    if 14 ≤ c.s.getD p 0 ∨ c.low.contains p then c else { c with low := p :: c.low }
  else if c.s.getD p 0 = 15 then c
  else
    let want := max (c.s.getD p 0) 1 + d
    if want ≤ 14 then { c with s := c.s.set! p want }
    else { c with s := c.s.set! p 14, nop := c.nop.set! q (c.nop.getD q 0 + (want - 14)) }

/-- The owed results at the issue of a node that a nop precedes. -/
def lessNop (n : Nat) (o : List Owed) : List Owed :=
  o.filterMap fun x => if x.rem ≤ n then none else some { x with rem := x.rem - n }

/-- What is owed at each node under the stall counts so far: passes until nothing changes. -/
def Facts.settle (f : Facts) : Nat → Choice → Choice
  | 0, c => c
  | n + 1, c =>
    let c' := (List.range f.graph.nodes.size).foldl (fun c j =>
      { c with owed := c.owed.set! j ((f.preds.getD j []).foldl (fun o p => mergeOwed o (lessNop (f.edgeNop c p j) (f.after c p))) []) }) c
    if c'.owed == c.owed then c else f.settle n c'

/-- The counts raised for what node j reads, on every edge into it; and its own where it leaves the section (R89). The nop of a branch
to a global label, or out of the section, stands before the branch (DESIGN CHOICE, log entry 96). -/
def Facts.raiseFor (f : Facts) (c : Choice) (j : Nat) : Choice :=
  let c := (f.preds.getD j []).foldl (fun c p =>
    f.raise c p (if f.skipsNop p j then p else j) (f.deficit j (lessNop (f.edgeNop c p j) (f.after c p)))) c
  if f.graph.leaves j then f.raise c j j ((f.after c j).foldl (fun m o => max m o.rem) 0) else c

/-- The readers in program order: after each raise the distances are taken anew; a pass without one ends the choice. R88 gives no order
in which readers are served where one raise changes what another needs, as in a loop: this one is the model's (DESIGN CHOICE, log
entry 96). -/
def Facts.rounds (f : Facts) : Nat → Nat → Choice → Choice
  | 0, _, c => c
  | n + 1, j, c =>
    if f.graph.nodes.size ≤ j then c
    else
      let c' := f.raiseFor c j
      if c'.s == c.s && c'.nop == c.nop then f.rounds n (j + 1) c'
      else f.rounds n j (f.settle (17 * f.graph.nodes.size + 2) { c' with owed := Array.replicate f.graph.nodes.size [] })

/-- What the choice starts from: forced counts; 15 for a variable-latency result that is read or reaches a point of R89; else 0. -/
def Facts.start (f : Facts) : Choice :=
  let n := f.graph.nodes.size
  { s := ((List.range n).map fun i => match f.graph.node? i with
      | some x => (match x.forced with
        | some s => s
        | none => if (f.key i).2.2 = .var && (let z := f.fate i; z.read || z.point) then 15 else 0)
      | none => 0).toArray
    nop := Array.replicate n 0, owed := Array.replicate n [], low := [] }

/-- The stall counts of a program, and the nops to insert (R88-R90). -/
def Facts.choose (f : Facts) : Choice :=
  let n := f.graph.nodes.size
  f.rounds ((16 * n + 1) * (n + 1)) 0 (f.settle (17 * n + 2) f.start)

/-- The warnings of R90: W201 below the computed count, W202 on a variable-latency result that is read. -/
def Facts.forcedWarnings (f : Facts) (c : Choice) : List (Nat × Code) :=
  (List.range f.graph.nodes.size).flatMap fun i => match (f.graph.node? i).bind (·.forced) with
    | some s =>
      let var := (f.key i).2.2 = .var && decide (s < 15)
      let z := f.fate i
      (if c.low.contains i || (var && (z.read || z.point)) then [(i, Code.w201)] else [])
        ++ (if var && z.read then [(i, Code.w202)] else [])
    | none => []

end Sys2Proof.Knas
end

