-- ==== Sys2Proof/Machine/KnasCheck.lean ====
section
/-! DEFINITION. The checks of knas over a whole program: checked regions (R91), registers beyond the declarations (R92), guard
windows and queue ports (R93), unreachable instructions (R94). -/

namespace Sys2Proof.Knas

def Graph.instr? (g : Graph) (i : Nat) : Option Instr := (g.node? i).bind (·.instr)

/-- The nodes that a search reaches from a list, not entering those that `stop` names; the fuel bounds the nodes visited. -/
def Graph.reachWith (g : Graph) (stop : Nat → Bool) : Nat → List Nat → List Nat → List Nat
  | 0, _, seen => seen
  | _ + 1, [], seen => seen
  | f + 1, i :: todo, seen =>
    if seen.contains i || stop i then g.reachWith stop f todo seen else g.reachWith stop f (g.succs i ++ todo) (i :: seen)

def Graph.reach (g : Graph) (stop : Nat → Bool) (start : List Nat) : List Nat :=
  g.reachWith stop (start.length + 3 * g.nodes.size + 3) start []

/-! ## Unreachable instructions (W206) -/

/-- Instructions that control never reaches. -/
def Graph.unreachable (g : Graph) : List (Nat × Code) :=
  let r := g.reach (fun _ => false) g.entries
  (List.range g.nodes.size).filterMap fun i => if (g.node? i).any (fun n => n.written && n.instr.isSome) && !r.contains i then some (i, .w206) else none

/-! ## Checked regions (R91) -/

/-- Where a checked region ends. -/
def endsRegion (i : Instr) : Bool :=
  match i with
  | .region _ | .meet _ | .barBlk _ | .barBlkR _ | .barTeam _ | .drainst _ | .exit _ | .exitGrp _ => true
  | _ => false

/-- Instructions that can fault late: R91's list. -/
def faultsLate (i : Instr) : Bool :=
  match i with
  | .ldG _ _ _ _ _ _ | .ldxG _ _ _ _ | .kld _ _ _ _ _ | .atomG _ _ _ _ _ | .ldAsof _ _ _ _ _ _ _ => true
  | _ => false

def Graph.regionEnd (g : Graph) (i : Nat) : Bool :=
  (g.instr? i).all endsRegion || (match g.node? i with
    | some n => n.labelled g.globals
    | none => true)

/-- Whether a path of the region from its start reaches a reader of r with no writer of r before it; the fuel bounds the search. -/
def Facts.readFirstWith (f : Facts) (r : RKey) : Nat → List Nat → List Nat → Bool
  | 0, _, _ => false
  | _ + 1, [], _ => false
  | n + 1, j :: todo, seen =>
    if seen.contains j || f.graph.regionEnd j then f.readFirstWith r n todo seen
    else if (f.key j).1.contains r then true
    else f.readFirstWith r n ((if (f.writes.getD j []).contains r then [] else f.succs.getD j []) ++ todo) (j :: seen)

/-- A region: the nodes after its `.region` up to its ends, by every path. -/
def Facts.regionChecks (f : Facts) (i : Nat) : List (Nat × Code) :=
  let g := f.graph
  let start := g.succs i
  let nodes := g.reach g.regionEnd start
  let late := nodes.filter fun j => (g.instr? j).any faultsLate
  if late.isEmpty then [(i, .w205)]
  else
    (nodes.filter fun j =>
      (g.reach g.regionEnd [j]).any late.contains
        && (f.writes.getD j []).any fun r => f.readFirstWith r (3 * g.nodes.size + 3) start []).map fun j => (j, .e111)

def Facts.regions (f : Facts) : List (Nat × Code) :=
  (List.range f.graph.nodes.size).flatMap fun i => match f.graph.node? i with
    | some n => if n.checked then f.regionChecks i else []
    | none => []

/-! ## Registers beyond the declarations (R92) -/

/-- The registers that an instruction names as R92 counts them: under a substituted K the scale fields alone, since how many follow
is not known (R264). -/
def namesOf (i : Instr) : List RName :=
  match i with
  | .mma m _ | .mmaPair m _ =>
    (match m.depth with
      | .reg k => ks k ++ mmaReads { m with depth := .imm 32#13 }
      | .imm _ => mmaReads m)
  | _ => (usesOf i).rd ++ (usesOf i).wr

/-- E106 and E107 of a node: A and M are its kernel's. -/
def Graph.beyond (g : Graph) (regs : Nat → Option (Nat × Nat)) (bs : Array (Option Bases)) (i : Nat) : List (Nat × Code) :=
  match g.node? i with
  | some n =>
    match n.instr, regs n.kern, bs.getD i none with
    | some ins, some (a, m), some b =>
      let names := namesOf ins
      let v := match b.w with
        | .known w => names.any fun r => match r with
          | .v f => decide (a ≤ w + f)
          | _ => false
        | _ => false
      let k := match b.u with
        | .known w => names.any fun r => match r with
          | .k f => decide (m ≤ (w + f) % 256)
          | _ => false
        | _ => false
      (if v then [(i, Code.e106)] else []) ++ (if k then [(i, Code.e107)] else [])
    | _, _, _ => []
  | none => []

/-! ## Guard windows and queue ports (R93) -/

/-- Transfers that a guard window may not hold. -/
def isTransfer (i : Instr) : Bool :=
  match i with
  | .bra _ _ _ | .call _ _ _ | .jmp _ _ | .callr _ _ _ | .ret _ | .exit _ => true
  | _ => false

/-- The vector fields of an instruction that can name a port. -/
def portFields : Instr → List (BitVec 7)
  | .lit d _ _ => [d]
  | .mov d a _ => [d, a]
  | .movBroadcast d _ _ => [d]
  | .movToUniform _ a _ => [a]
  | .movPv d _ => [d]
  | .movVp a _ => [a]
  | .iadd d a b _ | .isub d a b _ | .imul d a b _ | .imulhS d a b _ | .imulhZ d a b _ | .imad d a b _ | .and d a b _ | .or d a b _
  | .xor d a b _ | .andn d a b _ | .shl d a b _ | .shr d a b _ | .sra d a b _ | .iminS d a b _ | .iminZ d a b _ | .imaxS d a b _
  | .imaxZ d a b _ | .bfe d a b _ | .bfi d a b _ | .vdotM8 d a b _ | .shflIdx d a b _ => [d, a, b]
  | .iaddi d a _ _ | .andi d a _ _ => [d, a]
  | .shfi _ d a _ _ => [d, a]
  | .lea _ _ b _ => [b]
  | .icmpS _ _ a b _ | .icmpZ _ _ a b _ => [a, b]
  | .iun _ d a _ => [d, a]
  | .faddF32 d a b _ | .fsubF32 d a b _ | .fmulF32 d a b _ | .ffmaF32 d a b _ | .fminF32 d a b _ | .fmaxF32 d a b _
  | .faddF16x2 d a b _ | .fsubF16x2 d a b _ | .fmulF16x2 d a b _ | .ffmaF16x2 d a b _ | .fminF16x2 d a b _ | .fmaxF16x2 d a b _
  | .faddBf16x2 d a b _ | .fsubBf16x2 d a b _ | .fmulBf16x2 d a b _ | .ffmaBf16x2 d a b _ | .fminBf16x2 d a b _
  | .fmaxBf16x2 d a b _ => [d, a, b]
  | .fcmpF32 _ _ a b _ | .fcmpF16x2 _ _ a b _ | .fcmpBf16x2 _ _ a b _ => [a, b]
  | .funF32 _ d a _ | .funF16x2 _ d a _ | .funBf16x2 _ d a _ => [d, a]
  | .cvt k _ d a _ => (if k.dPair then [] else [d]) ++ (if k.aPair then [] else [a])
  | .pkM8Rn d _ _ _ | .pkM8Rz d _ _ _ => [d]
  | .upM8 _ d a _ => [d, a]
  | .shflUp d a _ _ | .shflDn d a _ _ | .shflXor d a _ _ => [d, a]
  | .qx _ d a _ => [d, a]
  | .redux _ _ a _ => [a]
  | .stG .b32 _ _ d _ _ => [d]
  | .stxG d _ _ _ => [d]
  | .stS .b32 _ d _ _ => [d]
  | .stL .b32 d _ _ => [d]
  | _ => []

def usesPort (i : Instr) : Bool := (portFields i).any isPort

/-- The nodes of a window of n instructions from node j on: an inserted `nop` takes a place (R88 step 4), and so does a word of data.
With each, whether its instruction still stands in the window; where the last place is the `nop` before it, its labels alone do. -/
def windowFrom (nop : Nat → Nat) : Nat → Nat → List (Nat × Bool)
  | 0, _ => []
  | 1, j => [(j, nop j = 0)]
  | n + 2, j => if nop j = 0 then (j, true) :: windowFrom nop (n + 1) (j + 1) else (j, true) :: windowFrom nop n (j + 1)

/-- A guard's window: its next n instructions in the text, under the nops inserted before nodes. -/
def Graph.guardChecks (g : Graph) (nop : Nat → Nat) (i : Nat) : List (Nat × Code) :=
  match g.instr? i with
  | some (.guard sel n _) =>
    let window := windowFrom nop n.toNat (i + 1)
    let lane := match sel with
      | .lane _ _ => true
      | _ => false
    (if window.any fun j => j.2 && (g.instr? j.1).any isTransfer then [(i, Code.e109)] else [])
      ++ window.flatMap fun j =>
        (match g.node? j.1 with
          | some n => if n.labels.isEmpty || (!j.2 && n.labelled g.globals) then [] else [(j.1, Code.w204)]
          | none => [])
        ++ (if lane && j.2 && (g.instr? j.1).any usesPort then [(j.1, Code.e110)] else [])
  | _ => []

/-- A branch on a lane predicate, after which a run may be partial. -/
def splitsRun (i : Instr) : Bool :=
  match i with
  | .bra (.lane _ _) _ _ => true
  | _ => false

/-- Where the lanes meet again. -/
def joinsRun (i : Instr) : Bool :=
  match i with
  | .meet _ | .barBlk _ | .barBlkR _ | .barTeam _ => true
  | _ => false

/-- W203: the port uses that a path from a lane-predicated branch reaches before a meet or a barrier. -/
def Graph.partialPorts (g : Graph) : List (Nat × Code) :=
  let starts := (List.range g.nodes.size).flatMap fun i => if (g.instr? i).any splitsRun then g.succs i else []
  ((g.reach (fun j => (g.instr? j).any joinsRun) starts).filter fun j => (g.instr? j).any usesPort).map fun j => (j, .w203)

/-- All the checks of a program, with the nops inserted before its nodes. -/
def Facts.checks (f : Facts) (nop : Nat → Nat) (regs : Nat → Option (Nat × Nat)) : List (Nat × Code) :=
  let g := f.graph
  let bs := g.bases
  let idx := List.range g.nodes.size
  f.regions ++ idx.flatMap (g.beyond regs bs) ++ idx.flatMap (g.guardChecks nop) ++ g.partialPorts ++ g.unreachable

end Sys2Proof.Knas
end

