-- ==== Sys2Proof/Machine/Knas.lean ====
section
/-! DEFINITION. knas as a whole: the layout of .text, symbols and relocations (R82, R83), the encoding of every line with its stall
count, the object, the listing, the command line and the exit status (R77, R78), and the linker's relocations (R83). -/

namespace Sys2Proof.Knas

/-! ## Layout (R55, R82, R84) -/

/-- Literal words of an instruction, by its mnemonic (R55, R69, R71). -/
def litWords (mn : String) : Nat :=
  match splitDots mn with
  | ["lit"] | ["klit"] | ["csrr"] | ["csrw"] | ["cp", "chain"] | ["acc", "zero"] => 1
  | "atom" :: _ | "ld" :: "asof" :: _ | ["acc", "ld", _] | ["acc", "st", _] => 1
  | "cp" :: "ld" :: _ | "cp" :: "st" :: _ | "cp" :: "red" :: _ | ["acc", "cp", _] => if mn = "cp.stat" then 0 else 2
  | ["cp", "tile"] => 3
  | "mma" :: _ => 4
  | _ => 0

/-- The bytes that an item takes at an offset. -/
def Item.size (off : Nat) : Item → Nat
  | .insn mn _ _ _ _ => 4 * (1 + litWords mn)
  | .datum wide _ => if wide then 8 else 4
  | .space n => n
  | .align n => (off + n - 1) / n * n - off
  | .label _ => 0

/-- Each item from number i on with its offset, where `nop` inserts instructions before items; and the end. -/
def layoutWith (nop : Nat → Nat) (i off : Nat) : List Placed → List (Placed × Nat) × Nat
  | [] => ([], off)
  | p :: r =>
    let off := if nop i = 0 then off else off + 4
    let x := layoutWith nop (i + 1) (off + p.item.size off) r
    ((p, off) :: x.1, x.2)

/-- Each item with its offset, and the end. -/
def layout (off : Nat) (ps : List Placed) : List (Placed × Nat) × Nat := layoutWith (fun _ => 0) 0 off ps

/-- The labels of .text; a name placed twice stands at its last place (a kernel's own label, R84). -/
def textLabels (ps : List (Placed × Nat)) : List (String × Nat) :=
  ps.foldl (fun t p => match p.1.item with
    | .label n => (n, p.2) :: t
    | _ => t) []

/-- The symbol table of the whole file (R82): a symbol that `.global` names and the file does not define is another file's. -/
def Src.look (s : Src) (labels : List (String × Nat)) (n : String) : E Val :=
  match s.equs.find? fun x => x.1 == n with
  | some x => .ok ⟨x.2, none⟩
  | none =>
    match labels.find? fun x => x.1 == n with
    | some x => .ok ⟨BitVec.ofNat 64 x.2, some (.sect .text)⟩
    | none =>
      match s.dlabels.find? fun x => x.1 == n with
      | some x => .ok (dataVal x.2)
      | none => if s.globals.contains n then .ok ⟨0#64, some (.ext n)⟩ else .error .e112

/-! ## The object (R77, R82, R83) -/

/-- A relocation: where, its kind, the symbol and addend (R83). -/
structure Reloc where
  sect : Sect
  off  : Nat
  kind : RelKind
  base : Option Base
  add  : DWord
  deriving DecidableEq, Repr

/-- A symbol that other files see: its section and offset, or its value. -/
structure Symbol where
  name : String
  base : Option Base
  c    : DWord
  deriving DecidableEq, Repr

/-- An entry of the kernel table (R82, R84). -/
structure KernelEntry where
  name    : String
  off     : Nat
  team    : Nat
  v       : Nat
  k       : Nat
  scratch : Nat
  deriving DecidableEq, Repr

/-- A row of the listing: address, words, stall count, line (R77). -/
structure ListRow where
  addr  : Nat
  words : List Word
  stall : Nat
  text  : List Char
  deriving DecidableEq, Repr

/-- An object: the bytes of its sections, the size of .bss, relocations, global symbols, the kernel table. -/
structure Object where
  text    : List Byte
  data    : List Byte
  rodata  : List Byte
  bss     : Nat
  param   : List Byte
  relocs  : List Reloc
  symbols : List Symbol
  kernels : List KernelEntry
  deriving DecidableEq, Repr

/-- The alignment of a section's start (R82). -/
def Sect.alignment (s : Sect) : Nat :=
  match s with
  | .text => 4
  | _ => 8

/-! ## Encoding -/

/-- What an item of .text becomes: its bytes, an instruction's relocation, its row of the listing, and the code it raises. -/
structure Emitted where
  bytes : List Byte := []
  rel   : List Reloc := []
  row   : List ListRow := []
  err   : Option Code := none
  deriving DecidableEq, Repr

/-- A datum of 4 or 8 bytes: a constant that fits, or an address (R83, R84). -/
def emitDatum (look : String → E Val) (sect : Sect) (off : Nat) (wide : Bool) (e : Expr) : Emitted :=
  let n := if wide then 8 else 4
  match eval look e with
  | .ok (.val ⟨v, none⟩) =>
    if !wide && !(decide (-2147483648 ≤ v.toInt) && decide (v.toInt ≤ 4294967295)) then { bytes := List.replicate n 0#8, err := some .e114 }
    else if sect = .bss ∧ v ≠ 0#64 then { err := some .e114 }
    else { bytes := (List.range n).map fun i => v.extractLsb' (8 * i) 8 }
  | .ok (.val v) =>
    if sect = .bss then { err := some .e114 }
    else { bytes := List.replicate n 0#8, rel := [⟨sect, off, if wide then .abs64 else .abs32, v.base, v.c⟩] }
  | .ok _ => { bytes := List.replicate n 0#8, err := some .e102 }
  | .error c => { bytes := List.replicate n 0#8, err := some c }

/-- The nops that pad .text (R84), with their stall counts. -/
def padBytes (n : Nat) (counts : List Nat) : List Byte :=
  (List.range (n / 4)).flatMap fun k => (encode (.nop (BitVec.ofNat 4 (counts.getD k 0)))).flatMap bytesOfWord

/-- An item of .text with the stall counts of its instructions. The listing has rows for the instructions that lines write, none for
data or padding (DESIGN CHOICE, log entry 65: R77 gives the columns and an example, not which lines have rows). -/
def emitItem (look : String → E Val) (p : Placed) (off : Nat) (counts : List Nat) : Emitted :=
  let stall := counts.headD 0
  match p.item with
  | .insn mn ops _ frame _ =>
    match assembleInstr ⟨look, off, frame⟩ mn ops (BitVec.ofNat 4 stall) with
    | .ok b =>
      let ws := encode b.instr
      { bytes := ws.flatMap bytesOfWord
        rel := b.rel.toList.map fun r => ⟨.text, if r.1 = .pcw14 then off else off + 4, r.1, r.2.base, r.2.c⟩
        row := [⟨off, ws, stall, trim p.line.text⟩] }
    | .error c => { err := some c }
  | .datum wide e => emitDatum look .text off wide e
  | .space n => { bytes := padBytes n counts }
  | .align _ => { bytes := padBytes (p.item.size off) counts }
  | .label _ => {}

/-! ## The graph of a program -/

/-- The symbols of an expression. -/
def Expr.syms : Expr → List String
  | .num _ => []
  | .sym n => [n]
  | .un _ a => a.syms
  | .bin _ a b => a.syms ++ b.syms

def Opnd.syms : Opnd → List String
  | .expr e | .acc e | .named _ e => e.syms
  | .mem m => (match m.tail with
    | .off e => e.syms
    | _ => [])
  | _ => []

/-- The symbols whose addresses the program takes otherwise than as the target of a bra or call. -/
def Src.takenSyms (s : Src) : List String :=
  s.items.flatMap (fun p => match p.item with
    | .insn mn ops _ _ _ => if mn = "bra" ∨ mn = "call" then [] else ops.flatMap Opnd.syms
    | .datum _ e => e.syms
    | _ => []) ++ s.data.flatMap fun d => d.e.syms

/-- The target of a bra or call within .text. -/
def targetOff (look : String → E Val) (mn : String) (ops : List Opnd) : Option Nat :=
  let t := if mn = "bra" then ops.getLast? else if mn = "call" then ops.head? else none
  match t with
  | some (.expr e) => (match eval look e with
    | .ok (.val ⟨v, some (.sect .text)⟩) => some v.toNat
    | _ => none)
  | _ => none

/-- The nodes of n words of one kind: the first takes the labels. -/
def wordNodes (p : Placed) (i lead start off : Nat) (ins : Option Instr) (labels : List String) (n : Nat) : List INode :=
  (List.range n).map fun k =>
    ⟨if k = 0 then start else off + 4 * k, off + 4 * k, ins, none, false, false, if k = 0 then labels else [], none, p.kern, p.line, i
    , if k = 0 then lead else i⟩

/-- The nodes of placed items from number i on; `start` is the end of the last node, `labels` what stands since then, the last of
them at `last`; `lead` is the first item after the last one that is no alignment. Labels with nothing after them have a node of their
own at the end (R89). -/
def nodesOf (look : String → E Val) : List (Placed × Nat) → Nat → Nat → Nat → List String → Option Placed → List INode
  | [], i, lead, start, labels, last =>
    last.toList.map fun p => ⟨start, start, none, none, false, false, labels, none, p.kern, p.line, i, lead⟩
  | (p, off) :: r, i, lead, start, labels, last =>
    let size := p.item.size off
    match p.item with
    | .label n => nodesOf look r (i + 1) lead start (n :: labels) (some p)
    | .space _ =>
      if size = 0 then nodesOf look r (i + 1) lead start labels last
      else wordNodes p i lead start off (some (.nop 0#4)) labels (size / 4) ++ nodesOf look r (i + 1) (i + 1) (off + size) [] none
    | .align _ =>
      if size = 0 then nodesOf look r (i + 1) lead start labels last
      else wordNodes p i lead start off (some (.nop 0#4)) labels (size / 4) ++ nodesOf look r (i + 1) i (off + size) [] none
    | .datum _ _ => wordNodes p i lead start off none labels (size / 4) ++ nodesOf look r (i + 1) (i + 1) (off + size) [] none
    | .insn mn ops st frame checked =>
      let ins := (assembleInstr ⟨look, off, frame⟩ mn ops 0#4).toOption.map (·.instr)
      ⟨start, off, ins, st, true, checked, labels, targetOff look mn ops, p.kern, p.line, i, lead⟩
        :: nodesOf look r (i + 1) (i + 1) (off + size) [] none

/-- The graph of a program's .text. -/
def Src.graph (s : Src) (look : String → E Val) (ps : List (Placed × Nat)) : Graph :=
  { nodes := (nodesOf look ps 0 0 0 [] none).toArray, globals := s.globals, kernels := s.kernels.map (·.name), taken := s.takenSyms }

/-! ## Stall counts on items -/

/-- The counts of each item's instructions, and the nop before it: after the labels of its node (DESIGN CHOICE, log entry 96), but before
them, and before an alignment, where one of them is global (R89). -/
structure Stalls where
  count : Nat → List Nat
  nop   : Nat → Nat

def Facts.stalls (f : Facts) (c : Choice) : Stalls :=
  let rows := f.graph.nodes.toList.zipIdx.map fun n => (n.1.item, c.s.getD n.2 0)
  let nops := f.graph.nodes.toList.zipIdx.map fun n =>
    (if n.1.labelled f.graph.globals then n.1.lead else n.1.item, c.nop.getD n.2 0)
  { count := fun i => (rows.filter fun r => r.1 == i).map (·.2), nop := fun i => (nops.filter fun r => r.1 == i).foldl (fun m r => max m r.2) 0 }

/-- A nop that is inserted before an item, or at the end after the last one. -/
def insertedNop (d : Nat) (p : Placed) : List (Placed × List Nat) :=
  if d = 0 then [] else [(⟨.insn "nop" [] (some d) none false, p.line, p.kern⟩, [d])]

/-- The items with the nops in place, each with its stall counts (R88 step 4). -/
def withNops (st : Stalls) : Option Placed → List Placed → Nat → List (Placed × List Nat)
  | last, [], i => last.toList.flatMap (insertedNop (st.nop i))
  | _, p :: r, i => insertedNop (st.nop i) p ++ (p, st.count i) :: withNops st (some p) r (i + 1)

/-- The stall counts of a program: an inserted nop changes what an `.align` after it pads, and then the graph is made anew. The fuel
bounds the rounds. -/
def Src.schedule (s : Src) (items : List Placed) (check : Bool) : Nat → (Nat → Nat) → Facts × Choice
  | 0, nop =>
    let ps := (layoutWith nop 0 0 items).1
    let f := (s.graph (s.look (textLabels ps)) ps).facts
    (f, if check then f.start else f.choose)
  | n + 1, nop =>
    let x := s.schedule items check 0 nop
    let sizes (nop : Nat → Nat) : List Nat := (layoutWith nop 0 0 items).1.map fun p => p.1.item.size p.2
    let nop' := (x.1.stalls x.2).nop
    if sizes nop' = sizes nop then x else s.schedule items check n nop'

/-! ## Assembly -/

/-- What the command line asks for (R77). -/
structure Options where
  file       : String
  output     : String
  dirs       : List String := []
  defs       : List (String × DWord) := []
  listing    : Option String := none
  werror     : Bool := false
  suppressed : List Nat := []
  stallCheck : Bool := false
  deriving DecidableEq, Repr

/-- What a run gives: the exit status, the diagnostics, the object, the listing. -/
structure Outcome where
  status  : Nat
  diags   : List Diag
  object  : Option Object
  listing : List ListRow
  deriving DecidableEq, Repr

/-- The bytes of a section outside .text, from its data. -/
def sectBytes (size : Nat) (data : List (Nat × List Byte)) : List Byte :=
  data.foldl (fun bs d => bs.take d.1 ++ d.2 ++ bs.drop (d.1 + d.2.length)) (List.replicate size 0#8)

/-- A diagnostic at a line. -/
def Line.diag (l : Line) (c : Code) : Diag := ⟨c, l.loc, l.via⟩

/-- A program assembled: its diagnostics, its object, its rows. An object is not made of a program with errors. -/
def assemble (s : Src) (stallCheck : Bool) : List Diag × Object × List ListRow :=
  let items := s.items.reverse
  let (f, c) := s.schedule items stallCheck (items.length + 2) fun _ => 0
  let nodeDiags (l : List (Nat × Code)) : List Diag := l.filterMap fun x => (f.graph.node? x.1).map fun n => n.line.diag x.2
  let missing := if stallCheck then
      (List.range f.graph.nodes.size).filterMap fun i => match f.graph.node? i with
        | some n => if n.written && n.instr.isSome && n.forced.isNone then some (i, Code.e122) else none
        | none => none
    else f.forcedWarnings c ++ (List.range f.graph.nodes.size).filterMap fun i => if c.nop.getD i 0 = 0 then none else some (i, Code.w208)
  let regs (k : Nat) : Option (Nat × Nat) := if k = 0 then none else (s.kernels.reverse[k - 1]?).bind (·.regs)
  let final := withNops (f.stalls c) none items 0
  let lay := layout 0 (final.map (·.1))
  let labels := textLabels lay.1
  let look := s.look labels
  let out := (lay.1.zip final).map fun x => (x.1.1, emitItem look x.1.1 x.1.2 x.2.2)
  let datas := s.data.reverse.map fun d => (d, emitDatum look d.sect d.off d.wide d.e)
  let errs := out.filterMap (fun x => x.2.err.map x.1.line.diag) ++ datas.filterMap fun x => x.2.err.map x.1.line.diag
  let sec (x : Sect) : List Byte :=
    sectBytes (s.size x) ((datas.filter fun d => d.1.sect = x).map fun d => (d.1.off, d.2.bytes))
  let syms := s.globals.eraseDups.filterMap fun n => match s.look labels n with
    | .ok ⟨_, some (.ext _)⟩ => none
    | .ok v => some ⟨n, v.base, v.c⟩
    | .error _ => none
  let kernels := s.kernels.reverse.map fun k =>
    let r := k.regs.getD (0, 0)
    ⟨k.name, ((labels.find? fun x => x.1 == k.name).map (·.2)).getD 0, k.team, r.1, r.2, k.scratch⟩
  (s.diags.reverse ++ errs ++ nodeDiags missing ++ nodeDiags (f.checks (fun i => c.nop.getD i 0) regs)
  , ⟨out.flatMap fun x => x.2.bytes, sec .data, sec .rodata, s.szBss, sec .param
    , out.flatMap (fun x => x.2.rel) ++ datas.flatMap (fun x => x.2.rel), syms, kernels⟩
  , out.flatMap fun x => x.2.row)

/-- A run on valid options. A source file that does not exist is an invalid invocation, status 2 (DESIGN CHOICE, log entry 65). Warnings that are not suppressed stay, and `-Werror` makes them errors; with an error the status is 1 and no
object is written (R77). -/
def run (texts : List (String × List (List Char))) (o : Options) : Outcome :=
  match texts.find? fun x => x.1 == o.file with
  | none => ⟨2, [], none, []⟩
  | some t =>
    let dir := String.ofList ((o.file.toList.reverse.dropWhile (· != '/')).drop 1).reverse
    let r := assemble (readProgram ⟨texts, dir :: o.dirs⟩ o.file t.2 o.defs) o.stallCheck
    let diags := r.1.filter fun d => d.code.isError || !o.suppressed.contains d.code.number
    if diags.any fun d => d.code.isError || o.werror then ⟨1, diags, none, r.2.2⟩ else ⟨0, diags, some r.2.1, r.2.2⟩

/-! ## The command line (R77) -/

/-- The default name of the object: the source's with `.kno`. -/
def objectName (f : String) : String :=
  let r := f.toList.reverse
  String.ofList ((if ".kna".toList.reverse.isPrefixOf r then r.drop 4 else r).reverse ++ ".kno".toList)

/-- A definition of the command line: `name=expr`, whose expression may use the definitions before it. One that fails (no `=`, a
name that no symbol may have or that comes twice, an expression that has no value) makes the invocation invalid, status 2 (DESIGN
CHOICE, log entry 65: R77 names no case). -/
def parseDef (defs : List (String × DWord)) (t : String) : Option (String × DWord) :=
  let a := takeSym t.toList
  match a.2 with
  | '=' :: r =>
    match (lex r).bind fun ts => (parseExpr ts).bind ({ equs := defs : Src }).constNow with
    | .ok v =>
      let n := String.ofList a.1
      if badName n || defs.any (fun d => d.1 == n) then none else some (n, BitVec.ofInt 64 v)
    | .error _ => none
  | _ => none

/-- The options so far: the source file and the object's name may still be missing. -/
structure Args where
  file : Option String := none
  out  : Option String := none
  opts : Options := { file := "", output := "" }
  deriving DecidableEq, Repr

/-- Read the arguments; none where the invocation is invalid. A second `-o`, and `-Wno-` with a number outside 201-208, make it so
(DESIGN CHOICE, log entry 65). -/
def parseArgs : List String → Args → Option Args
  | [], a => some a
  | "-o" :: f :: r, a => if a.out.isSome then none else parseArgs r { a with out := some f }
  | "-I" :: d :: r, a => parseArgs r { a with opts := { a.opts with dirs := a.opts.dirs ++ [d] } }
  | "-D" :: d :: r, a =>
    match parseDef a.opts.defs d with
    | some x => parseArgs r { a with opts := { a.opts with defs := x :: a.opts.defs } }
    | none => none
  | "-l" :: f :: r, a => parseArgs r { a with opts := { a.opts with listing := some f } }
  | "-Werror" :: r, a => parseArgs r { a with opts := { a.opts with werror := true } }
  | "--stall=check" :: r, a => parseArgs r { a with opts := { a.opts with stallCheck := true } }
  | x :: r, a =>
    if "-Wno-".toList.isPrefixOf x.toList then
      match readDigits 10 (x.toList.drop 5) with
      | some n => if 201 ≤ n ∧ n ≤ 208 then parseArgs r { a with opts := { a.opts with suppressed := n :: a.opts.suppressed } } else none
      | none => none
    else if x.toList.head? = some '-' ∨ a.file.isSome then none
    else parseArgs r { a with file := some x }

/-- knas: exactly one source file; status 2 where the invocation is invalid. -/
def knas (texts : List (String × List (List Char))) (args : List String) : Outcome × Option Options :=
  match parseArgs args {} with
  | some a =>
    match a.file with
    | some f =>
      let o := { a.opts with file := f, output := a.out.getD (objectName f) }
      (run texts o, some o)
    | none => (⟨2, [], none, []⟩, none)
  | none => (⟨2, [], none, []⟩, none)

/-! ## Relocations at link (R83) -/

/-- The field of PCW14: the offset in words, where it is a multiple of 4 and fits. -/
def branchField (s a p : DWord) : E (BitVec 14) :=
  let d := (s + a - p).toInt
  if d % 4 = 0 ∧ -8192 ≤ d / 4 ∧ d / 4 ≤ 8191 then .ok (BitVec.ofInt 14 (d / 4)) else .error .e119

/-- The bytes of a field after a relocation: S the symbol's address, A the addend, P the address of the instruction word. -/
def RelKind.apply (k : RelKind) (s a p : DWord) (old : List Byte) : E (List Byte) :=
  match k with
  | .pcw14 =>
    match wordOfBytes old, branchField s a p with
    | some (w, _), .ok i => .ok (bytesOfWord ((w &&& ~~~(0x3FFF0#32)) ||| (i.setWidth 32 <<< 4)))
    | _, .error c => .error c
    | none, _ => .error .e119
  | .lo32 => .ok (bytesOfWord ((s + a).setWidth 32))
  | .hi32 => .ok (bytesOfWord (((s + a) >>> 32).setWidth 32))
  | .abs32 => if (s + a).toNat < 2 ^ 32 then .ok (bytesOfWord ((s + a).setWidth 32)) else .error .e119
  | .abs64 => .ok (bytesOfWord ((s + a).setWidth 32) ++ bytesOfWord (((s + a) >>> 32).setWidth 32))

/-- The bytes that a relocation covers. -/
def RelKind.width (k : RelKind) : Nat :=
  match k with
  | .abs64 => 8
  | _ => 4

/-- Where an object's sections are placed. -/
structure Placement where
  text   : DWord
  data   : DWord
  rodata : DWord
  bss    : DWord
  deriving DecidableEq, Repr

def Placement.at (p : Placement) (s : Sect) : DWord :=
  match s with
  | .text => p.text | .data => p.data | .rodata => p.rodata | .bss => p.bss | .param => 0#64

/-- The address of a global symbol among placed objects. -/
def globalAddr (objs : List (Object × Placement)) (n : String) : Option DWord :=
  objs.findSome? fun o => (o.1.symbols.find? fun s => s.name == n).map fun s => match s.base with
    | some (.sect x) => o.2.at x + s.c
    | _ => s.c

/-- The address that a relocation's symbol has. -/
def baseAddr (objs : List (Object × Placement)) (p : Placement) (b : Option Base) : E DWord :=
  match b with
  | none => .ok 0#64
  | some (.sect x) => .ok (p.at x)
  | some (.ext n) => match globalAddr objs n with
    | some a => .ok a
    | none => .error .e112

def Object.bytes (o : Object) (s : Sect) : List Byte :=
  match s with
  | .text => o.text | .data => o.data | .rodata => o.rodata | .param => o.param | .bss => []

def Object.setBytes (o : Object) (s : Sect) (b : List Byte) : Object :=
  match s with
  | .text => { o with text := b }
  | .data => { o with data := b }
  | .rodata => { o with rodata := b }
  | .param => { o with param := b }
  | .bss => o

/-- One relocation of a placed object. -/
def relocate (objs : List (Object × Placement)) (p : Placement) (o : Object) (r : Reloc) : E Object := do
  let s ← baseAddr objs p r.base
  let bs := o.bytes r.sect
  let n := r.kind.width
  let new ← r.kind.apply s r.add (p.at r.sect + BitVec.ofNat 64 r.off) ((bs.drop r.off).take n)
  .ok (o.setBytes r.sect (bs.take r.off ++ new ++ bs.drop (r.off + n)))

/-- The linker's work on one of the objects: every relocation in turn (R83). -/
def linkOne (objs : List (Object × Placement)) (o : Object × Placement) : E Object :=
  o.1.relocs.foldlM (relocate objs o.2) o.1

end Sys2Proof.Knas
end

