-- ==== Sys2Proof/Tests/Setup.lean ====
section
/-! SUPPORT. What tests and witnesses share: a small machine with a block of four lanes whose instruction issues, and checks of the
premises of statements that a kernel can evaluate, with the proofs that the checks suffice. -/

namespace Sys2Proof.Machine

/-- The island joined, privileged context 1, a block of four lanes on core 0 at VA 0x100000, page tables that map the first GiB. -/
def base0 : State := State.reset.probe (List.replicate 4 0#8)

/-- The block's group issues a NOP: every lane of it is in the run. -/
def cur1 : Cur := ⟨1, 0, [0, 1, 2, 3], 0#32, [], 0x100000, 0, 0, none⟩

/-- The machine at that issue. -/
def base : State := { base0 with cur := some cur1, agenda := [] }

/-- Registers of the group set to values. -/
def State.put (s : State) (ws : List (RegKey × Word)) : State := s.setGrp 1 0 ((s.grp 1 0).writes ws)
/-- The group, and one lane of it, changed. -/
def State.onGrp (s : State) (f : Group → Group) : State := s.setGrp 1 0 (f (s.grp 1 0))
def State.onLane (s : State) (L : Nat) (f : Lane → Lane) : State := s.onGrp fun G => G.setLane L (f (G.lane L))
def State.onBlk (s : State) (f : Block → Block) : State := s.setBlk 1 (f (s.blk 1))
def State.onCtx (s : State) (f : Ctx → Ctx) : State := s.setCtx 1 (f (s.ctx 1))
def State.onIsland (s : State) (f : Island → Island) : State := { s with island := f s.island }

/-- What an instruction leaves. -/
def after (i : Instr) (s : State) : State :=
  match exec i s with
  | .next t => t
  | _ => s

/-- A register of the group. -/
def State.key (s : State) (key : RegKey) : Word := (s.grp 1 0).getKey key

/-- A result that holds a value with a property. -/
def okB {ε α : Type} (r : Except ε α) (p : α → Bool) : Bool :=
  match r with
  | .ok x => p x
  | .error _ => false

theorem okB_iff {ε α : Type} {r : Except ε α} {p : α → Bool} (h : okB r p = true) : ∃ x, r = .ok x ∧ p x = true := by
  cases r with
  | ok x => exact ⟨x, rfl, h⟩
  | error _ => cases h

/-- The machine with lane 3 alone: the others have ended. -/
def only3 : State := base.onGrp fun G => [0, 1, 2].foldl (fun G L => G.setLane L { G.lane L with status := .ended }) G
/-- An issue of lane 3. -/
def cur3 : Cur := { cur1 with run := [3] }

/-- The next record of a host's command ring: number, opcode, zero field, arguments. -/
def State.asks (s : State) (host seq op z : Nat) (args : List Byte) : State :=
  let w : HostW := { s.host host with cmdBase := 0x8000#64, cmdSize := 4#32, cmdTail := (s.host host).cmdHead + 1 }
  let bs : List Byte := leBytes 4 seq ++ leBytes 2 op ++ leBytes 2 z ++ args ++ List.replicate (32 - args.length) 0#8
  { s.setHost host w with mem := wrBytes s.mem (hostBase + w.slot) bs }

/-! ## Premises, checked -/

def atIssueB (s : State) (c : Cur) : Bool :=
  decide (s.cur = some c) && decide (c.wait = none) && decide c.run.Nodup &&
    c.run.all fun L => decide (L < 32) && decide ((s.lane c L).status = .active) && decide ((s.lane c L).pc = c.pc)

theorem atIssue_of {s : State} {c : Cur} (h : atIssueB s c = true) : AtIssue s c := by
  simp only [atIssueB, Bool.and_eq_true, decide_eq_true_eq, List.all_eq_true] at h
  exact ⟨h.1.1.1, h.1.1.2, h.1.2, fun L hL => ⟨(h.2 L hL).1.1, (h.2 L hL).1.2, (h.2 L hL).2⟩⟩

def issuingB (u : Uses) (own : Own) (s : State) (c : Cur) : Bool :=
  atIssueB s c && !(runs u own s c).isEmpty && s.portsOpen c u && !s.badRead c u (runs u own s c)

theorem issuing_of {u : Uses} {own : Own} {s : State} {c : Cur} (h : issuingB u own s c = true) : Issuing u own s c := by
  simp only [issuingB, Bool.and_eq_true] at h
  refine ⟨atIssue_of h.1.1.1, ?_, h.1.2, by simpa using h.2⟩
  have := h.1.1.2
  intro e
  rw [e] at this
  cases this

def deliveredB (d : Delivery) (late : Bool) (u : Uses) (own : Own) (s : State) (c : Cur) : Bool :=
  decide (deliveryWait d late s (mayIssue u own s c) = none) && decide (deliveryWait d late s (issueOf u own s c) = none) && (runs u own s c).all fun L => !(s.issuer c).holdsRecord L

theorem delivered_of {d : Delivery} {late : Bool} {u : Uses} {own : Own} {s : State} {c : Cur}
    (h : deliveredB d late u own s c = true) : Delivered d late u own s c := by
  simp only [deliveredB, Bool.and_eq_true, decide_eq_true_eq, List.all_eq_true, Bool.not_eq_true'] at h
  exact ⟨h.1.1, h.1.2, fun _ L hL => h.2 L hL⟩

theorem engines_of {s : State} {c : Cur} (h : (s.engineFault c.blk c.grp (fun _ => true) true).isNone = true) : EnginesRun s c :=
  Option.isNone_iff_eq_none.1 h

/-- A key that an operation may write. -/
def keyB : RegKey → Bool
  | .v _ _ | .k _ => true
  | _ => false

def aloneB (s : State) (op : Nat) (p : Pend) : Bool :=
  decide (s.op? op = some p) && decide ((s.pend.filter fun q => q.uid == op) = [p]) &&
    (s.pend.all fun q => !(q.uid == op || (q.iid == p.iid && q.blk == p.blk && q.grp == p.grp)) || decide (q = p)) &&
    decide p.dest.Nodup && p.dest.all keyB

theorem alone_of {s : State} {op : Nat} {p : Pend} (h : aloneB s op p = true) :
    s.op? op = some p ∧ (s.pend.filter fun q => q.uid == op) = [p] ∧
    (∀ q ∈ s.pend, q.uid = op ∨ (q.iid = p.iid ∧ q.blk = p.blk ∧ q.grp = p.grp) → q = p) ∧
    (p.dest.Nodup ∧ ∀ key ∈ p.dest, (∃ L x, key = RegKey.v L x) ∨ ∃ n, key = RegKey.k n) := by
  simp only [aloneB, Bool.and_eq_true, decide_eq_true_eq, List.all_eq_true] at h
  refine ⟨h.1.1.1.1, h.1.1.1.2, fun q hq hx => ?_, h.1.2, fun key hk => ?_⟩
  · have := h.1.1.2 q hq
    simp only [Bool.or_eq_true, Bool.not_eq_true', Bool.or_eq_false_iff, Bool.and_eq_false_iff, beq_eq_false_iff_ne, decide_eq_true_eq] at this
    rcases this with ⟨h1, h2⟩ | h'
    · rcases hx with hx | ⟨a, b, c⟩
      · exact absurd hx h1
      · rcases h2 with (h2 | h2) | h2 <;> contradiction
    · exact h'
  · have := h.2 key hk
    cases key with
    | v L x => exact .inl ⟨L, x, rfl⟩
    | k n => exact .inr ⟨n, rfl⟩
    | p _ _ => cases this
    | kp _ => cases this

def askedB (s : State) (host : Nat) (seq : Option Word) (op : Nat) (zero : BitVec 16) (args : List Byte → Bool) : Bool :=
  let w := s.host host
  decide (w.cmdSize ≠ 0#32 ∧ w.cmdHead ≠ w.cmdTail) && seq.all (fun n => decide (rdBytes s.mem (recordAt w) 4 = leBytes 4 n.toNat))
    && decide (rdBytes s.mem (recordAt w + 4) 4 = leBytes 2 op ++ leBytes 2 zero.toNat) && args (rdBytes s.mem (recordAt w + 8) 32)

theorem asked_of {s : State} {host op : Nat} {seq : Option Word} {zero : BitVec 16} {args : List Byte → Bool}
    (h : askedB s host seq op zero args = true) : Asked s host seq op zero args := by
  simp only [askedB, Bool.and_eq_true, decide_eq_true_eq] at h
  refine ⟨h.1.1.1, fun n e => ?_, h.1.2, h.2⟩
  subst e
  simpa using h.1.1.2

def nextCommandB (s : State) (c : Cmd) (op : Nat) (args : List Byte → Bool) : Bool :=
  decide (s.island.st ≠ 0 ∧ c.host < 8 ∧ s.island.owner = some c.host ∧ c.seq = s.island.lastAccepted + 1 ∧ c.zero = 0#16 ∧ s.tlbCmd = none) &&
    askedB s c.host (some c.seq) op c.zero args

theorem nextCommand_of {s : State} {c : Cmd} {op : Nat} {args : List Byte → Bool} (h : nextCommandB s c op args = true) :
    NextCommand s c op args := by
  simp only [nextCommandB, Bool.and_eq_true, decide_eq_true_eq] at h
  exact ⟨h.1.1, h.1.2.1, h.1.2.2.1, h.1.2.2.2.1, h.1.2.2.2.2.1, h.1.2.2.2.2.2, asked_of h.2⟩

def loneOpB (s : State) (op : Nat) (p : Pend) : Bool :=
  aloneB s op p && decide (p.done = false ∧ p.fault = none ∧ p.sent = false ∧ p.merged = none) && s.clear p

theorem loneOp_of {s : State} {op : Nat} {p : Pend} (h : loneOpB s op p = true) : LoneOp s op p := by
  simp only [loneOpB, Bool.and_eq_true, decide_eq_true_eq] at h
  have a := alone_of h.1.1
  exact ⟨a.1, a.2.1, a.2.2.1, a.2.2.2, h.1.2, h.2⟩

def askedOpB (s : State) (op : Nat) (p : Pend) : Bool :=
  aloneB s op p && decide (p.done = false ∧ p.sent = true) && decide (∀ q ∈ s.pend, q.uid < 2 ^ 32)

theorem askedOp_of {s : State} {op : Nat} {p : Pend} (h : askedOpB s op p = true) : AskedOp s op p := by
  simp only [askedOpB, Bool.and_eq_true, decide_eq_true_eq] at h
  have a := alone_of h.1.1
  exact ⟨a.1, a.2.1, a.2.2.1, a.2.2.2, h.1.2, h.2⟩

/-- Something to issue, in the machine above. -/
abbrev Issues (u : Uses) (own : Own) : Prop := Issuing u own base cur1

end Sys2Proof.Machine
end

