-- ==== Sys2Proof/Tests/Slice0.lean ====
section
/-! SUPPORT. The model's own tests: words written out from the spec's encodings, ill-formed terms, and single steps whose results were
worked out by hand from the rules named. -/

namespace Sys2Proof.Machine

set_option Elab.async false

/-! ## Decoding -/

/-- A word with its literal words is this instruction. -/
def reads (x : Word × List Word × Instr) : Bool :=
  match decode x.1 x.2.1 with
  | .ok j => decide (j = x.2.2)
  | .error _ => false

theorem reads_iff (x : Word × List Word × Instr) : reads x = true ↔ decode x.1 x.2.1 = .ok x.2.2 := by
  unfold reads
  cases h : decode x.1 x.2.1 <;> simp

/-- R62, R72, R143, R154-R161, R163, R184-R187: control flow. -/
theorem test_decode_control : ([
    (0b0000000_0000000_0000000_0000000_0101#32, [], .nop 5#4),
    (0b0000001_0000001_0000000_0000011_0000#32, [], .guard (.lane false 1#4) 3#4 0#4),
    (0b0000001_1100010_0000000_0001111_0000#32, [], .guard (.uni true 2#2) 15#4 0#4),
    (0b0000010_1000011_1111111_1111010_0000#32, [], .bra (.lane true 3#4) (BitVec.ofInt 14 (-6)) 0#4),
    (0b0000010_0010000_0000000_0000101_0000#32, [], .bra .always 5#14 0#4),
    (0b0000011_1110000_1000000_0000000_0001#32, [], .call 112#7 (BitVec.ofInt 14 (-8192)) 1#4),
    (0b0000100_0000000_0000100_0000000_0000#32, [], .jmp 4#7 0#4),
    (0b0000100_0000000_0000000_0000001_0000#32, [], .ret 0#4),
    (0b0000100_0001000_0000110_0000010_0010#32, [], .callr 8#7 6#7 2#4),
    (0b0000100_0000000_0000000_0000011_0000#32, [], .meet 0#4),
    (0b0000100_0000000_0000000_0000100_0000#32, [], .exit 0#4),
    (0b0000100_0000000_0000000_0000101_0000#32, [], .yield 0#4),
    (0b0000100_0000000_0000000_0000110_0000#32, [], .brk 0#4),
    (0b0000100_1111111_0000000_0000111_0000#32, [], .trap 127#7 0#4),
    (0b0000100_0000000_0000000_0001000_0011#32, [], .region 3#4),
    (0b0000100_0000000_0000000_0001001_0000#32, [], .drainst 0#4),
    (0b0000100_0000011_0000000_0001010_1111#32, [], .chkerr 3#7 15#4),
    (0b0000100_0000000_0000000_0001011_0000#32, [], .rett 0#4),
    (0b0000100_0000000_0000000_0001100_0000#32, [], .exitGrp 0#4),
    (0b0000101_0000000_0000000_0010000_0000#32, [], .win 16#7 0#4),
    (0b0000110_0000000_0000000_0000111_0000#32, [], .wink 7#7 0#4)] : List (Word × List Word × Instr)).all reads = true := by
  decide +kernel

/-- R70, R100, R103, R112, R218, R219, R282: literals, moves, special registers, CSRs, tokens. -/
theorem test_decode_moves : ([
    (0b0000111_0001010_0000000_0000000_0100#32, [0x3F800000#32], .lit 10#7 0x3F800000#32 4#4),
    (0b0001000_1111111_0000000_0000000_0000#32, [0xFFFFFFFF#32], .klit 127#7 0xFFFFFFFF#32 0#4),
    (0b0001001_0000011_0001001_0000000_0000#32, [], .mov 3#7 9#7 0#4),
    (0b0001001_0000011_1111111_0000001_0000#32, [], .movBroadcast 3#7 127#7 0#4),
    (0b0001001_0001000_0001001_0000010_0000#32, [], .movToUniform 8#7 9#7 0#4),
    (0b0001001_0000011_0000000_0000011_0000#32, [], .movPv 3#7 0#4),
    (0b0001001_0000000_0001001_0000100_0000#32, [], .movVp 9#7 0#4),
    (0b0001001_0000001_0000011_0000101_0000#32, [], .movKp 1#7 3#7 0#4),
    (0b0001010_0000100_0000000_0000000_1111#32, [], .sread .tick 4#7 15#4),
    (0b0001010_0000101_0000000_0001111_1111#32, [], .sread .island 5#7 15#4),
    (0b0001011_0000011_0000000_0000000_1111#32, [0b0000000000000000_0000000000000001#32], .csrr 3#7 1#16 15#4),
    (0b0001100_0000000_0000100_0000000_0000#32, [0b0000000000000000_0000000000000000#32], .csrw 0#16 4#7 0#4),
    (0b0001101_0000000_0000000_0000011_0000#32, [], .waitt 0b00000011#8 0#4),
    (0b0001101_0000000_0000001_1111111_0000#32, [], .waitt 0xFF#8 0#4)] : List (Word × List Word × Instr)).all reads = true := by
  decide +kernel

/-- R69, R70, R195-R201: integer instructions. -/
theorem test_decode_integer : ([
    (0b0010000_0000001_0101000_1010000_0000#32, [], .iadd 1#7 40#7 80#7 0#4),
    (0b0010001_0000010_0101001_1010001_0001#32, [], .isub 2#7 41#7 81#7 1#4),
    (0b0010010_0000011_0101010_1010010_0010#32, [], .imul 3#7 42#7 82#7 2#4),
    (0b0010011_0000100_0101011_1010011_0011#32, [], .imulhS 4#7 43#7 83#7 3#4),
    (0b0010100_0000101_0101100_1010100_0100#32, [], .imulhZ 5#7 44#7 84#7 4#4),
    (0b0010101_0000110_0101101_1010101_0101#32, [], .imad 6#7 45#7 85#7 5#4),
    (0b0010110_0000111_0101110_1010110_0110#32, [], .and 7#7 46#7 86#7 6#4),
    (0b0010111_0001000_0101111_1010111_0111#32, [], .or 8#7 47#7 87#7 7#4),
    (0b0011000_0001001_0110000_1011000_1000#32, [], .xor 9#7 48#7 88#7 8#4),
    (0b0011001_0001010_0110001_1011001_1001#32, [], .andn 10#7 49#7 89#7 9#4),
    (0b0011010_0001011_0110010_1011010_1010#32, [], .shl 11#7 50#7 90#7 10#4),
    (0b0011011_0001100_0110011_1011011_1011#32, [], .shr 12#7 51#7 91#7 11#4),
    (0b0011100_0001101_0110100_1011100_1100#32, [], .sra 13#7 52#7 92#7 12#4),
    (0b0011101_0001110_0110101_1011101_1101#32, [], .iminS 14#7 53#7 93#7 13#4),
    (0b0011110_0001111_0110110_1011110_1110#32, [], .iminZ 15#7 54#7 94#7 14#4),
    (0b0011111_0010000_0110111_1011111_0000#32, [], .imaxS 16#7 55#7 95#7 0#4),
    (0b0100000_0010001_0111000_1100000_0001#32, [], .imaxZ 17#7 56#7 96#7 1#4),
    (0b0100001_0000001_0000010_1000000_0000#32, [], .iaddi 1#7 2#7 (BitVec.ofInt 7 (-64)) 0#4),
    (0b0100011_0000001_0000010_0111111_0000#32, [], .andi 1#7 2#7 63#7 0#4),
    (0b0100010_0000001_0000010_0011111_0000#32, [], .shfi .shl 1#7 2#7 31#5 0#4),
    (0b0100010_0000001_0000010_0111110_0000#32, [], .shfi .shr 1#7 2#7 30#5 0#4),
    (0b0100010_0000001_0000010_1011101_0000#32, [], .shfi .sra 1#7 2#7 29#5 0#4),
    (0b0100010_0000001_0000010_1111100_0000#32, [], .shfi .rot 1#7 2#7 28#5 0#4),
    (0b0100100_0000010_0000100_0000110_0000#32, [], .iadd64 2#7 4#7 6#7 0#4),
    (0b0100101_0000010_0000100_0000111_0000#32, [], .lea 2#7 4#7 7#7 0#4),
    (0b0100110_0100010_0000110_0000111_0100#32, [], .icmpS .lt 2#4 6#7 7#7 4#4),
    (0b0100111_1011011_0000110_0000111_0100#32, [], .icmpZ .ge 11#4 6#7 7#7 4#4),
    (0b0101000_0000001_0000010_0001010_0000#32, [], .iun .bswap 1#7 2#7 0#4),
    (0b0101000_0000001_0000010_0000000_0000#32, [], .iun .popc 1#7 2#7 0#4),
    (0b0101001_0000001_0000010_0000011_0000#32, [], .bfe 1#7 2#7 3#7 0#4),
    (0b0101010_0000001_0000010_0000011_0000#32, [], .bfi 1#7 2#7 3#7 0#4)] : List (Word × List Word × Instr)).all reads = true := by
  decide +kernel

/-- R69, R70, R203-R209: floating point. -/
theorem test_decode_float : ([
    (0b0110000_0000001_0000010_0000011_0000#32, [], .faddF32 1#7 2#7 3#7 0#4),
    (0b0110001_0000010_0000011_0000100_0000#32, [], .fsubF32 2#7 3#7 4#7 0#4),
    (0b0110010_0000011_0000100_0000101_0000#32, [], .fmulF32 3#7 4#7 5#7 0#4),
    (0b0110011_0000100_0000101_0000110_0000#32, [], .ffmaF32 4#7 5#7 6#7 0#4),
    (0b0110100_0000101_0000110_0000111_0000#32, [], .fminF32 5#7 6#7 7#7 0#4),
    (0b0110101_0000110_0000111_0001000_0000#32, [], .fmaxF32 6#7 7#7 8#7 0#4),
    (0b0110110_1100010_0000110_0001000_0100#32, [], .fcmpF32 .un 2#4 6#7 8#7 4#4),
    (0b0110111_0000010_0000100_0000100_0000#32, [], .funF32 .sqrt 2#7 4#7 0#4),
    (0b0111000_0000001_0000010_0000011_0000#32, [], .faddF16x2 1#7 2#7 3#7 0#4),
    (0b0111001_0000010_0000011_0000100_0000#32, [], .fsubF16x2 2#7 3#7 4#7 0#4),
    (0b0111010_0000011_0000100_0000101_0000#32, [], .fmulF16x2 3#7 4#7 5#7 0#4),
    (0b0111011_0000100_0000101_0000110_0000#32, [], .ffmaF16x2 4#7 5#7 6#7 0#4),
    (0b0111100_0000101_0000110_0000111_0000#32, [], .fminF16x2 5#7 6#7 7#7 0#4),
    (0b0111101_0000110_0000111_0001000_0000#32, [], .fmaxF16x2 6#7 7#7 8#7 0#4),
    (0b0111110_1100010_0000110_0001000_0100#32, [], .fcmpF16x2 .un 2#4 6#7 8#7 4#4),
    (0b0111111_0000010_0000100_0000100_0000#32, [], .funF16x2 .sqrt 2#7 4#7 0#4),
    (0b1000000_0000001_0000010_0000011_0000#32, [], .faddBf16x2 1#7 2#7 3#7 0#4),
    (0b1000001_0000010_0000011_0000100_0000#32, [], .fsubBf16x2 2#7 3#7 4#7 0#4),
    (0b1000010_0000011_0000100_0000101_0000#32, [], .fmulBf16x2 3#7 4#7 5#7 0#4),
    (0b1000011_0000100_0000101_0000110_0000#32, [], .ffmaBf16x2 4#7 5#7 6#7 0#4),
    (0b1000100_0000101_0000110_0000111_0000#32, [], .fminBf16x2 5#7 6#7 7#7 0#4),
    (0b1000101_0000110_0000111_0001000_0000#32, [], .fmaxBf16x2 6#7 7#7 8#7 0#4),
    (0b1000110_1100010_0000110_0001000_0100#32, [], .fcmpBf16x2 .un 2#4 6#7 8#7 4#4),
    (0b1000111_0000010_0000100_0000100_0000#32, [], .funBf16x2 .sqrt 2#7 4#7 0#4),
    (0b1001000_0000010_0000100_0000110_0000#32, [], .faddF64 2#7 4#7 6#7 0#4),
    (0b1001001_0000100_0000110_0001000_0000#32, [], .fsubF64 4#7 6#7 8#7 0#4),
    (0b1001010_0000110_0001000_0001010_0000#32, [], .fmulF64 6#7 8#7 10#7 0#4),
    (0b1001011_0001000_0001010_0001100_0000#32, [], .ffmaF64 8#7 10#7 12#7 0#4),
    (0b1001100_0001010_0001100_0001110_0000#32, [], .fminF64 10#7 12#7 14#7 0#4),
    (0b1001101_0001100_0001110_0010000_0000#32, [], .fmaxF64 12#7 14#7 16#7 0#4),
    (0b1001110_1100010_0000110_0001000_0100#32, [], .fcmpF64 .un 2#4 6#7 8#7 4#4),
    (0b1001111_0000010_0000100_0000100_0000#32, [], .funF64 .sqrt 2#7 4#7 0#4)] : List (Word × List Word × Instr)).all reads = true := by
  decide +kernel

/-- R42, R69, R70, R210-R217: conversions, M8, exchanges, group-wide instructions. -/
theorem test_decode_exchange : ([
    (0b1010000_0000001_0000010_0000010_0000#32, [], .cvt .f32s32 .ru 1#7 2#7 0#4),
    (0b1010000_0000001_0000010_0111101_0000#32, [], .cvt .z32f64 .rz 1#7 2#7 0#4),
    (0b1010001_0000001_0000010_0000100_0000#32, [], .pkM8Rn 1#7 2#7 4#7 0#4),
    (0b1010010_0000001_0000010_0000100_0000#32, [], .pkM8Rz 1#7 2#7 4#7 0#4),
    (0b1010011_0000001_0000010_0000011_0000#32, [], .upM8 3#2 1#7 2#7 0#4),
    (0b1010100_0000001_0000010_0000011_0000#32, [], .vdotM8 1#7 2#7 3#7 0#4),
    (0b1011000_0000001_0000010_0000011_0000#32, [], .shflIdx 1#7 2#7 3#7 0#4),
    (0b1011001_0000001_0000010_0011111_0000#32, [], .shflUp 1#7 2#7 31#5 0#4),
    (0b1011010_0000001_0000010_0000001_0000#32, [], .shflDn 1#7 2#7 1#5 0#4),
    (0b1011011_0000001_0000010_0010000_0000#32, [], .shflXor 1#7 2#7 16#5 0#4),
    (0b1011100_0000001_0000010_0000000_0000#32, [], .qx .h 1#7 2#7 0#4),
    (0b1011100_0000001_0000010_0000111_0000#32, [], .qx (.bc 3#2) 1#7 2#7 0#4),
    (0b1011101_0000011_0001011_0000000_0000#32, [], .voteAny 3#7 11#4 0#4),
    (0b1011101_0000000_0000010_0000001_0000#32, [], .voteAll 0#7 2#4 0#4),
    (0b1011101_0000101_0000011_0000010_1000#32, [], .voteBallot 5#7 3#4 8#4),
    (0b1011101_0000001_0000010_0000011_0000#32, [], .voteEq 1#7 2#4 0#4),
    (0b1011110_0000011_0001001_0000000_0000#32, [], .redux .addS 3#7 9#7 0#4),
    (0b1011110_0000011_0001001_0001010_0000#32, [], .redux .fmax 3#7 9#7 0#4)] : List (Word × List Word × Instr)).all reads = true := by
  decide +kernel

/-- R69, R202: uniform instructions. -/
theorem test_decode_uniform : ([
    (0b1100000_0000001_1111000_0000011_0000#32, [], .kadd 1#7 120#7 3#7 0#4),
    (0b1100001_0000010_1111001_0000100_0000#32, [], .ksub 2#7 121#7 4#7 0#4),
    (0b1100010_0000011_1111010_0000101_0000#32, [], .kmul 3#7 122#7 5#7 0#4),
    (0b1100011_0000100_1111011_0000110_0000#32, [], .kand 4#7 123#7 6#7 0#4),
    (0b1100100_0000101_1111100_0000111_0000#32, [], .kor 5#7 124#7 7#7 0#4),
    (0b1100101_0000110_1111101_0001000_0000#32, [], .kxor 6#7 125#7 8#7 0#4),
    (0b1100110_0000001_0000010_1001001_0000#32, [], .kshfi .sra 1#7 2#7 9#5 0#4),
    (0b1100111_0000001_0000010_1111111_0000#32, [], .kaddi 1#7 2#7 (BitVec.ofInt 7 (-1)) 0#4),
    (0b1101000_0010011_0000110_0000111_0000#32, [], .kcmpS .ne 3#4 6#7 7#7 0#4),
    (0b1101001_0110000_0000110_0000111_0000#32, [], .kcmpZ .le 0#4 6#7 7#7 0#4),
    (0b1101010_0000010_0000100_0000110_0000#32, [], .kadd64 2#7 4#7 6#7 0#4)] : List (Word × List Word × Instr)).all reads = true := by
  decide +kernel

/-- R67, R68, R233-R254: loads, stores, atomics, fences, stamps. -/
theorem test_decode_memory : ([
    (0b1101011_0000010_0000100_0110001_0000#32, [], .kld .b64 (some .grp) 2#7 4#7 0#4),
    (0b1101100_0000010_0000100_0101000_0000#32, [], .kst .b32 true none 2#7 4#7 0#4),
    (0b1110000_0000100_0001000_0110100_1111#32, [], .ldG .b64 false (some .dev) 4#7 8#7 15#4),
    (0b1110000_0000100_0001000_0001000_1111#32, [], .ldG .b8 true none 4#7 8#7 15#4),
    (0b1110001_0000100_0001000_1000110_0000#32, [], .stG .b128 false (some .sys) 4#7 8#7 0#4),
    (0b1110010_0000001_0000100_0000011_0000#32, [], .ldxG 1#7 4#7 3#7 0#4),
    (0b1110011_1111111_0000100_0000011_0000#32, [], .stxG 127#7 4#7 3#7 0#4),
    (0b1110100_0000001_0000010_0101100_1111#32, [], .ldS .b32 true true 1#7 2#7 15#4),
    (0b1110101_0000001_0000010_0011000_0000#32, [], .stS .b16 true 1#7 2#7 0#4),
    (0b1110110_0000100_0000010_1000000_1111#32, [], .ldL .b128 4#7 2#7 15#4),
    (0b1110111_0000100_0000010_0000000_0000#32, [], .stL .b8 4#7 2#7 0#4),
    (0b1111000_0000010_0000100_0001000_1111#32, [0b0111_010_000_11_101_0_0000000000000000#32],
      .atomG ⟨.cas, .s64, .un, .acqrel, .dom, false⟩ 2#7 4#7 8#7 15#4),
    (0b1111001_0000000_0000101_0001001_0000#32, [0b1000_101_001_00_010_1_0000000000000000#32],
      .atomS ⟨.fadd, .f16x2, .cm, .relaxed, .blk, true⟩ 0#7 5#7 9#7 0#4),
    (0b1111010_0000001_0000010_0100000_1111#32, [0b0000100_1_1011_00000000000000000000#32], .ldAsof .b32 4#7 true 11#4 1#7 2#7 15#4),
    (0b1111011_0000000_0000000_0010101_0000#32, [], .fence .rel .dom 0#4),
    (0b1111011_0000000_0000000_0110100_0000#32, [], .fence .sc .dev 0#4),
    (0b1111100_0000100_0000000_0000000_1111#32, [], .stamp 4#7 15#4),
    (0b1111100_0000100_0000000_0000001_1111#32, [], .settled 4#7 15#4),
    (0b1111100_0000100_0000000_0000010_1111#32, [], .dusk 4#7 15#4),
    (0b1111100_0000010_0000100_0000011_1111#32, [], .hpin 2#7 4#7 15#4),
    (0b1111100_0000010_0000101_0000100_1111#32, [], .hunpin 2#7 5#7 15#4),
    (0b1111100_0000100_0000000_0000101_1111#32, [], .floor 4#7 15#4)] : List (Word × List Word × Instr)).all reads = true := by
  decide +kernel

/-- R265, R269, R271, R272, R274, R292, R297, R300, R303, R304: copies and the matrix engine. -/
theorem test_decode_engines : ([
    (0b1111101_0000010_0000100_0000000_0000#32, [0b00000000000010000000_001_0000000_0_0#32, 0b0000000000010000_0000000000000000#32],
      .cpLd 2#7 4#7 (.imm 128#20) 1#3 0x10#16 0#4),
    (0b1111101_0000010_0000100_0000001_0000#32, [0b00000000000000000000_111_0001001_1_0#32, 0b000000000000_100_00000000000000000#32],
      .cpSt 2#7 4#7 (.reg 9#7) 7#3 (some .dev) 0#4),
    (0b1111101_0000010_0000100_0000010_0000#32, [0b0000000000010000_0000000001000000#32, 0b0000000000000011_0000110_101_000000#32, 0b1111111111111111_0_000_0000000_00000#32],
      .cpTile 2#7 4#7 6#7 (.imm 16#16) 64#16 3#16 5#3 0xFFFF#16 0#4),
    (0b1111101_0000010_0000100_0000011_0000#32, [0b00000000000000000001_000_0000000_0_0#32, 0b10_0000000000_000_00000000000000000#32],
      .cpRed .s32 2#7 4#7 (.imm 1#20) 0#3 none 0#4),
    (0b1111101_0000000_0000100_0000100_0000#32, [0x0000000D#32], .cpChain 1#2 4#7 3#3 0#4),
    (0b1111101_0000011_0000000_0000110_1111#32, [], .cpStat 3#7 15#4),
    (0b1111110_0000000_0000000_0000000_0000#32, [0b0000100_0000110_000_00_0000000000000#32, 0b0001000_0001010_000_01_0000000000000#32, 0b0000001000000_1111111_1111111_00_0_00#32, 0b001000000_1_010_0000_0000000_00000000#32],
      .mma ⟨⟨4#7, 6#7, .bf16, false⟩, ⟨8#7, 10#7, .bf16, true⟩, .imm 64#13, 0x7F#7, 0x7F#7, 0#2, 64#9, true, 2#3⟩ 0#4),
    (0b1111110_0000000_0000000_0000001_0000#32, [0b0000100_0000110_010_01_0000000000000#32, 0b0001000_0001010_010_01_0000000000000#32, 0b0000000000000_0000011_0000100_01_1_00#32, 0b000000000_0_111_0000_0000101_00000000#32],
      .mmaPair ⟨⟨4#7, 6#7, .m8, true⟩, ⟨8#7, 10#7, .m8, true⟩, .reg 5#7, 3#7, 4#7, 1#2, 0#9, false, 7#3⟩ 0#4),
    (0b1111110_0000000_0000000_0000010_0000#32, [0x007F0000#32], .accZero ⟨0#9, 127#7, 0#3, false, .f32⟩ 0#4),
    (0b1111110_0000101_0000110_0000011_0000#32, [0b110000000_1111111_011_1_10_0000000000#32],
      .accLd ⟨384#9, 127#7, 3#3, true, .f16⟩ 5#7 6#7 0#4),
    (0b1111110_0000101_0000110_0000100_0000#32, [0b000000001_0000000_000_0_01_0000000000#32], .accSt ⟨1#9, 0#7, 0#3, false, .bf16⟩ 5#7 6#7 0#4),
    (0b1111110_0000101_0000111_0000101_0000#32, [0b000000000_0000000_000_0_00_1111_000000#32, 0b0000000000100000_0000000000000000#32],
      .accCp ⟨0#9, 0#7, 0#3, false, .f32⟩ 15#4 0x20#16 5#7 7#7 0#4),
    (0b1111110_0000000_0000000_0000110_0000#32, [], .ofence 0#4),
    (0b1111110_0000000_0000000_0000111_0000#32, [], .mwait 0#4),
    (0b1111101_0000000_0001111_0000101_0000#32, [], .qfence 15#4 0#4)] : List (Word × List Word × Instr)).all reads = true := by
  decide +kernel

/-- R127, R132, R133, R276, R287, R318, R346, R412: barriers, mbar objects, queues, activities, marks, tlbinv. -/
theorem test_decode_system : ([
    (0xFE000000#32, [], .barBlk 0#4),
    (0xFE000800#32, [], .barBlkR 0#4),
    (0xFE000010#32, [], .barTeam 0#4),
    (0b1111111_0000011_0000101_0000010_0000#32, [], .mbarInit 3#7 5#7 0#4),
    (0b1111111_0000011_0000101_0000011_0000#32, [], .mbarExpect 3#7 5#7 0#4),
    (0b1111111_0000011_0000101_0000100_0000#32, [], .mbarArrive 3#7 5#7 0#4),
    (0b1111111_0000011_0000101_0000101_0000#32, [], .mbarWait 3#7 5#7 0#4),
    (0b1111111_0000011_0000101_0000110_0000#32, [], .mbarTest 3#7 5#7 0#4),
    (0xFE08410F#32, [], .spawn 2#7 8#7 15#4),
    (0xFE0C311F#32, [], .jdec 3#7 6#7 15#4),
    (0xFE08812F#32, [], .launch 2#7 16#7 15#4),
    (0b1111111_0000100_0000101_0010011_1111#32, [], .qstat 4#7 5#7 15#4),
    (0b1111111_0000100_0001000_0010100_1111#32, [], .qinit 4#7 8#7 15#4),
    (0xFE200A0F#32, [], .actBegin 8#7 1#7 15#4),
    (0xFE08821F#32, [], .actComp 2#7 16#7 15#4),
    (0xFE08422F#32, [], .actCommit 2#7 8#7 15#4),
    (0xFE08423F#32, [], .actAbandon 2#7 8#7 15#4),
    (0xFE30424F#32, [], .actStat 12#7 8#7 15#4),
    (0xFE004A50#32, [], .actDone 9#7 0#4),
    (0xFE08426F#32, [], .actResume 2#7 8#7 15#4),
    (0xFE001B00#32, [], .mark 3#7 0#4),
    (0b1111111_0000010_0000100_1000000_1111#32, [], .tlbinv 2#7 4#7 15#4)] : List (Word × List Word × Instr)).all reads = true := by
  decide +kernel

/-- R73: words that are no instruction: an unassigned opcode, a reserved bit, an enumerated value outside its list. -/
theorem test_decode_refuses : ([
    (0b0001110_0000000_0000000_0000000_0000#32, Bad.illegal 1),
    (0b0000000_0000001_0000000_0000000_0000#32, .reserved 1),
    (0b0000100_0000000_0000000_0001101_0000#32, .illegal 1),
    (0b0000001_0000001_0000000_0000000_0000#32, .illegal 1),
    (0b0100100_0000011_0000100_0000110_0000#32, .illegal 1)] : List (Word × Bad)).all (fun x =>
      match decode x.1 [] with
      | .error b => decide (b = x.2)
      | .ok _ => false) = true := by
  decide +kernel

/-- One ill-formed term for each check of well-formedness (R58-R63, R67, R73, R127, R159, R224, R243-R246, R262, R265, R268-R271, R296, R299). -/
theorem test_wf_refuses : ([
    .guard (.lane false 12#4) 3#4 0#4, .guard .always 0#4 0#4, .bra (.lane true 15#4) 1#14 0#4, .call 4#7 1#14 0#4, .call 120#7 1#14 0#4,
    .jmp 5#7 0#4, .jmp 120#7 0#4, .callr 1#7 4#7 0#4, .callr 8#7 3#7 0#4, .wink 8#7 0#4, .movKp 4#7 0#7 0#4, .sread .tick 3#7 0#4,
    .imad 120#7 0#7 0#7 0#4, .iadd64 1#7 0#7 0#7 0#4, .iadd64 0#7 1#7 0#7 0#4, .iadd64 0#7 0#7 1#7 0#4, .lea 1#7 0#7 0#7 0#4, .lea 0#7 1#7 0#7 0#4,
    .icmpS .un 0#4 0#7 0#7 0#4, .icmpS .eq 12#4 0#7 0#7 0#4, .icmpZ .un 0#4 0#7 0#7 0#4, .icmpZ .eq 12#4 0#7 0#7 0#4, .bfi 127#7 0#7 0#7 0#4,
    .ffmaF32 120#7 0#7 0#7 0#4, .ffmaF16x2 120#7 0#7 0#7 0#4, .ffmaBf16x2 120#7 0#7 0#7 0#4, .fcmpF32 .eq 12#4 0#7 0#7 0#4,
    .fcmpF16x2 .eq 1#4 0#7 0#7 0#4, .fcmpF16x2 .eq 12#4 0#7 0#7 0#4, .fcmpBf16x2 .eq 3#4 0#7 0#7 0#4, .faddF64 1#7 0#7 0#7 0#4,
    .fsubF64 0#7 1#7 0#7 0#4, .fmulF64 0#7 0#7 1#7 0#4, .ffmaF64 120#7 0#7 0#7 0#4, .fminF64 1#7 0#7 0#7 0#4, .fmaxF64 1#7 0#7 0#7 0#4,
    .fcmpF64 .eq 0#4 1#7 0#7 0#4, .fcmpF64 .eq 12#4 0#7 0#7 0#4, .funF64 .rcp 0#7 0#7 0#4, .funF64 .abs 1#7 0#7 0#4, .funF64 .abs 0#7 1#7 0#4,
    .cvt .f64f32 .rz 0#7 0#7 0#4, .cvt .f64f32 .rn 1#7 0#7 0#4, .cvt .f32f64 .rn 0#7 1#7 0#4, .pkM8Rn 0#7 1#7 0#7 0#4, .pkM8Rz 0#7 0#7 1#7 0#4,
    .vdotM8 120#7 0#7 0#7 0#4, .voteAny 4#7 0#4 0#4, .voteAll 0#7 12#4 0#4, .voteBallot 0#7 12#4 0#4, .voteEq 4#7 0#4 0#4,
    .kcmpS .un 0#4 0#7 0#7 0#4, .kcmpS .eq 4#4 0#7 0#7 0#4, .kcmpZ .un 0#4 0#7 0#7 0#4, .kadd64 1#7 0#7 0#7 0#4, .kadd64 0#7 1#7 0#7 0#4,
    .kadd64 0#7 0#7 1#7 0#4, .kld .b64 none 1#7 0#7 0#4, .kld .b32 none 0#7 1#7 0#4, .kst .b128 false none 2#7 0#7 0#4, .kst .b8 false none 0#7 1#7 0#4,
    .ldG .b64 false none 1#7 0#7 0#4, .ldG .b32 false none 0#7 1#7 0#4, .ldG .b32 true (some .grp) 0#7 0#7 0#4, .ldG .b32 false none 120#7 0#7 0#4,
    .stG .b8 false none 120#7 0#7 0#4, .stG .b32 false none 0#7 1#7 0#4, .ldxG 120#7 0#7 0#7 0#4, .ldxG 0#7 1#7 0#7 0#4, .ldxG 0#7 0#7 120#7 0#4,
    .stxG 0#7 1#7 0#7 0#4, .stxG 0#7 0#7 120#7 0#4, .ldS .b128 false false 2#7 0#7 0#4, .ldS .b32 false true 0#7 0#7 0#4, .ldS .b32 false false 0#7 120#7 0#4,
    .stS .b64 false 1#7 0#7 0#4, .stS .b32 false 0#7 120#7 0#4, .ldL .b64 1#7 0#7 0#4, .ldL .b32 0#7 120#7 0#4, .stL .b16 120#7 0#7 0#4,
    .atomG ⟨.add, .f32, .un, .relaxed, .grp, false⟩ 0#7 0#7 0#7 0#4, .atomG ⟨.fadd, .s32, .un, .relaxed, .grp, false⟩ 0#7 0#7 0#7 0#4,
    .atomG ⟨.add, .s32, .cm, .relaxed, .grp, false⟩ 0#7 0#7 0#7 0#4, .atomG ⟨.cas, .s32, .no, .relaxed, .grp, false⟩ 0#7 0#7 0#7 0#4,
    .atomG ⟨.add, .s32, .sp, .acq, .grp, false⟩ 0#7 0#7 0#7 0#4, .atomG ⟨.add, .s32, .un, .relaxed, .grp, true⟩ 1#7 0#7 0#7 0#4,
    .atomG ⟨.add, .s64, .un, .relaxed, .grp, false⟩ 1#7 0#7 0#7 0#4, .atomG ⟨.cas, .s32, .un, .relaxed, .grp, false⟩ 0#7 0#7 1#7 0#4,
    .atomG ⟨.cas, .s64, .un, .relaxed, .grp, false⟩ 0#7 0#7 2#7 0#4, .atomG ⟨.add, .s32, .un, .relaxed, .grp, false⟩ 0#7 1#7 0#7 0#4,
    .atomS ⟨.add, .s32, .un, .relaxed, .dev, false⟩ 0#7 0#7 0#7 0#4, .atomS ⟨.add, .s32, .un, .relaxed, .grp, false⟩ 0#7 120#7 0#7 0#4,
    .ldAsof .b32 1#7 false 0#4 0#7 0#7 0#4, .ldAsof .b32 0#7 true 15#4 0#7 0#7 0#4, .ldAsof .b32 0#7 false 12#4 0#7 0#7 0#4,
    .stamp 1#7 0#4, .settled 1#7 0#4, .dusk 1#7 0#4, .hpin 0#7 1#7 0#4, .floor 1#7 0#4, .cpLd 0#7 0#7 (.imm 0#20) 0#3 0xFFFF#16 0#4,
    .cpLd 0#7 1#7 (.imm 1#20) 0#3 0xFFFF#16 0#4, .cpSt 0#7 1#7 (.imm 1#20) 0#3 none 0#4, .cpRed .f32 0#7 1#7 (.imm 1#20) 0#3 none 0#4,
    .cpTile 0#7 0#7 0#7 (.imm 0#16) 32#16 1#16 0#3 0xFFFF#16 0#4, .cpTile 0#7 0#7 0#7 (.imm 1#16) 0#16 1#16 0#3 0xFFFF#16 0#4,
    .cpTile 0#7 0#7 0#7 (.imm 1#16) 33#16 1#16 0#3 0xFFFF#16 0#4, .cpTile 0#7 0#7 0#7 (.imm 1#16) 32#16 0#16 0#3 0xFFFF#16 0#4,
    .cpChain 0#2 1#7 0#3 0#4, .qfence 0#4 0#4,
    .mma ⟨⟨0#7, 0#7, .bf16, false⟩, ⟨0#7, 0#7, .f16, false⟩, .imm 32#13, 0x7F#7, 0x7F#7, 0#2, 0#9, false, 0#3⟩ 0#4,
    .mma ⟨⟨1#7, 0#7, .bf16, false⟩, ⟨0#7, 0#7, .bf16, false⟩, .imm 32#13, 0x7F#7, 0x7F#7, 0#2, 0#9, false, 0#3⟩ 0#4,
    .mma ⟨⟨0#7, 0#7, .m8, false⟩, ⟨0#7, 0#7, .m8, false⟩, .imm 32#13, 120#7, 0x7F#7, 0#2, 0#9, false, 0#3⟩ 0#4,
    .mma ⟨⟨0#7, 0#7, .f16, false⟩, ⟨0#7, 0#7, .f16, false⟩, .imm 32#13, 0x7F#7, 4#7, 0#2, 0#9, false, 0#3⟩ 0#4,
    .mmaPair ⟨⟨0#7, 0#7, .m8, false⟩, ⟨0#7, 0#7, .m8, false⟩, .imm 33#13, 0x7F#7, 0x7F#7, 0#2, 0#9, false, 0#3⟩ 0#4,
    .mmaPair ⟨⟨0#7, 0#7, .m8, false⟩, ⟨0#7, 0#7, .m8, false⟩, .imm 32#13, 0x7F#7, 0x7F#7, 0#2, 32#9, false, 0#3⟩ 0#4,
    .accZero ⟨511#9, 1#7, 0#3, false, .f32⟩ 0#4, .accZero ⟨0#9, 1#7, 0#3, true, .f32⟩ 0#4, .accZero ⟨0#9, 1#7, 0#3, false, .bf16⟩ 0#4,
    .accLd ⟨511#9, 1#7, 0#3, false, .f32⟩ 0#7 0#7 0#4, .accLd ⟨0#9, 1#7, 0#3, false, .f32⟩ 0#7 1#7 0#4, .accSt ⟨0#9, 1#7, 0#3, false, .f32⟩ 0#7 1#7 0#4,
    .accCp ⟨0#9, 1#7, 0#3, true, .f32⟩ 0#4 0#16 0#7 0#7 0#4, .spawn 0#7 4#7 0#4, .jdec 0#7 1#7 0#4, .launch 0#7 8#7 0#4, .qstat 1#7 0#7 0#4,
    .qinit 0#7 2#7 0#4, .actBegin 2#7 0#7 0#4, .actComp 0#7 4#7 0#4, .actStat 2#7 0#7 0#4, .actResume 0#7 1#7 0#4, .tlbinv 0#7 2#7 0#4] :
      List Instr).all (fun i => !i.wf) = true := by
  decide +kernel

/-! ## Single steps -/

/-- v0 of the four lanes: 0, 1, 2, 3 (R148); v1 and v2 as given, in every lane. -/
def with12 (a b : Word) : State := base.put ((List.range 4).flatMap fun L => [(.v L 1, a), (.v L 2, b)])

/-- Register 4 of lane 0 after an instruction on v1 and v2. -/
def v4 (i : Instr) (a b : Word) : Word := (after i (with12 a b)).key (.v 0 4)

/-- R193, R195: arithmetic wraps; a shift by 32 leaves 0 or the sign; the high halves differ by signedness. -/
theorem test_integer : [v4 (.iadd 4#7 1#7 2#7 0#4) 0xFFFFFFFF#32 2#32, v4 (.isub 4#7 1#7 2#7 0#4) 1#32 2#32,
    v4 (.imulhS 4#7 1#7 2#7 0#4) 0xFFFFFFFF#32 0xFFFFFFFF#32, v4 (.imulhZ 4#7 1#7 2#7 0#4) 0xFFFFFFFF#32 0xFFFFFFFF#32,
    v4 (.shl 4#7 1#7 2#7 0#4) 1#32 32#32, v4 (.sra 4#7 1#7 2#7 0#4) 0x80000000#32 40#32, v4 (.andn 4#7 1#7 2#7 0#4) 0xFF#32 0x0F#32,
    v4 (.iminS 4#7 1#7 2#7 0#4) 0xFFFFFFFF#32 1#32, v4 (.imaxZ 4#7 1#7 2#7 0#4) 0xFFFFFFFF#32 1#32] =
    [1#32, 0xFFFFFFFF#32, 0#32, 0xFFFFFFFE#32, 0#32, 0xFFFFFFFF#32, 0xF0#32, 0xFFFFFFFF#32, 0xFFFFFFFF#32] := by decide +kernel

/-- R197, R200, R201: a rotation, a negative immediate, bytes reversed, a field taken and put. -/
theorem test_bits : [v4 (.shfi .rot 4#7 1#7 8#5 0#4) 0x12345678#32 0#32, v4 (.iaddi 4#7 1#7 0x40#7 0#4) 0#32 0#32,
    v4 (.iun .bswap 4#7 1#7 0#4) 0x12345678#32 0#32, v4 (.iun .clz 4#7 1#7 0#4) 0x00010000#32 0#32, v4 (.iun .sext8 4#7 1#7 0#4) 0x80#32 0#32,
    v4 (.bfe 4#7 1#7 2#7 0#4) 0x12345678#32 0x0C08#32] =
    [0x34567812#32, 0xFFFFFFC0#32, 0x78563412#32, 15#32, 0xFFFFFF80#32, 0x456#32] := by decide +kernel

/-- R63, R199: a signed compare in each lane: only lanes 0 and 1 hold less than 2. -/
theorem test_icmp : let t := after (.icmpS .lt 3#4 0#7 2#7 0#4) (with12 0#32 2#32)
    (List.range 4).map (fun L => t.key (.p L 3)) = [1#32, 1#32, 0#32, 0#32] := by decide +kernel

/-- R203-R205: 1 + 2^-24 rounds to even, inexact; the smaller zero; infinity minus infinity is invalid. -/
theorem test_float : v4 (.faddF32 4#7 1#7 2#7 0#4) 0x3F800000#32 0x33800000#32 = 0x3F800000#32 ∧
    (after (.faddF32 4#7 1#7 2#7 0#4) (with12 0x3F800000#32 0x33800000#32)).key (.v 0 4) = 0x3F800000#32 ∧
    v4 (.fminF32 4#7 1#7 2#7 0#4) 0#32 0x80000000#32 = 0x80000000#32 ∧
    v4 (.fsubF32 4#7 1#7 2#7 0#4) 0x7F800000#32 0x7F800000#32 = 0x7FC00000#32 ∧
    v4 (.fmulF16x2 4#7 1#7 2#7 0#4) 0x3C004000#32 0x40004000#32 = 0x40004400#32 := by decide +kernel

/-- R42, R43: 2^31 clamps; -1.5 rounds toward zero. -/
theorem test_cvt : v4 (.cvt .s32f32 .rz 4#7 1#7 0#4) 0x4F000000#32 0#32 = 0x7FFFFFFF#32 ∧
    v4 (.cvt .s32f32 .rz 4#7 1#7 0#4) 0xBFC00000#32 0#32 = 0xFFFFFFFF#32 := by decide +kernel

/-- R213, R216, R217: an exchange of neighbours, the votes of lanes 0 and 1, the sum of 0 to 3. -/
theorem test_lanes : ((List.range 4).map fun L => (after (.shflXor 4#7 0#7 1#5 0#4) base).key (.v L 4)) = [1#32, 0#32, 3#32, 2#32] ∧
    (after (.voteBallot 5#7 3#4 0#4) (base.put [(.p 0 3, 1#32), (.p 1 3, 1#32)])).key (.k 5) = 3#32 ∧
    (after (.redux .addS 5#7 0#7 0#4) base).key (.k 5) = 6#32 := by decide +kernel

/-- R194, R202: a uniform sum through UBASE. -/
theorem test_uniform : (after (.kadd 1#7 2#7 3#7 0#4)
    ((base.put [(.k 34, 5#32), (.k 35, 0xFFFFFFFF#32)]).onGrp fun G => { G with ubase := 32 })).key (.k 33) = 4#32 := by decide +kernel

/-- R99, R105, R106: FPCR takes 7 and refuses 8 with RESERVED_FIELD. -/
theorem test_csrw : ((after (.csrw 0#16 1#7 0#4) (base.put [(.k 1, 7#32)])).grp 1 0).fpcr = 7#32 ∧
    (((after (.csrw 0#16 1#7 0#4) (base.put [(.k 1, 8#32)])).grp 1 0).lane 3).cause.code = 2 := by decide +kernel

/-- R155, R159, R160: a branch back over itself, and a call whose return comes back behind it. -/
theorem test_control : (((after (.bra .always (BitVec.ofInt 14 (-6)) 0#4) base).grp 1 0).lane 2).pc = 0x100000 - 24 ∧
    (let t := (after (.call 16#7 4#14 0#4) base).onGrp fun G => { G with notBefore := 0 }
     ((t.grp 1 0).lane 1).pc = 0x100010 ∧ ((t.grp 1 0).lane 1).w = 16 ∧
     t.key (.v 1 16) = 0x100004#32 ∧ t.key (.v 1 17) = 0x20000000#32) := by decide +kernel

/-- R171, R185: a software trap parks every lane with its number. -/
theorem test_trap : ((List.range 4).map fun L =>
    let l := ((after (.trap 5#7 0#4) base).grp 1 0).lane L
    (l.status, l.cause.code, l.cause.number, l.pc)) = List.replicate 4 (.parked, 9, 5, 0x100000) := by decide +kernel

/-- R154: a lane under a guard that does not hold passes the next instruction by. -/
theorem test_guard : let s := (after (.guard (.lane false 0#4) 1#4 0#4) (base.put [(.p 0 0, 1#32)]))
    let c : Cur := { cur1 with pc := 0x100004 }
    let t := after (.lit 4#7 9#32 0#4) { s with cur := some c }
    (t.key (.v 0 4), t.key (.v 1 4), ((t.grp 1 0).lane 1).pc, ((t.grp 1 0).lane 1).gcount) = (9#32, 0#32, 0x100008, 0) := by decide +kernel

/-- R143, R163: the last lane's arrival at a meet frees all; exit ends the group. -/
theorem test_meet_exit : (((after (.meet 0#4) base).grp 1 0).lane 3).pc = 0x100004 ∧
    (((after (.meet 0#4) base).grp 1 0).lane 3).status = .active ∧ ((after (.exit 0#4) base).grp 1 0).live = false := by decide +kernel

/-- R225, R229, R234, R401: a store of lane 0, its translation, its performance: little-endian, at the mapped address. -/
theorem test_store : let s := base.put [(.v 0 2, 0x200000#32), (.v 0 6, 0x11223344#32)]
    let s := { s with cur := some { cur1 with run := [0] } }
    let t := after (.stG .b32 false none 6#7 2#7 0#4) s
    let op := (t.pend.headD {}).uid
    let t := after (.storePerform op) (after (.pageWalk op false) t)
    t.readLocal (t.keyOf 1) 0x200000 5 = [0x44#8, 0x33#8, 0x22#8, 0x11#8, 0#8] ∧ t.pend = [] := by decide +kernel

/-- R244: an atomic add returns the old value and leaves the sum. -/
theorem test_atomic : let s := (base.put [(.v 0 2, 0x200000#32), (.v 0 6, 5#32)]).writeLocal 0 0x200000 (leBytes 4 7)
    let s := { s with cur := some { cur1 with run := [0] } }
    let t := after (.atomG ⟨.add, .s32, .un, .relaxed, .dev, false⟩ 8#7 2#7 6#7 0#4) s
    let op := (t.pend.headD {}).uid
    let t := after (.atomicPerform op) (after (.pageWalk op false) t)
    t.readLocal (t.keyOf 1) 0x200000 4 = leBytes 4 12 ∧ t.key (.v 0 8) = 7#32 := by decide +kernel

/-- R222: a word at an odd address parks its lane. -/
theorem test_misaligned : (((after (.ldG .b32 false none 4#7 2#7 0#4) (base.put [(.v 1 2, 2#32)])).grp 1 0).lane 1).cause.code = 5 := by
  decide +kernel

/-- R242: the pocket of each lane is its own. -/
theorem test_pocket : let t := after (.stL .b32 0#7 2#7 0#4) base
    (List.range 4).map (fun L => rdBytes ((t.grp 1 0).lane L).pocket 0 2) = [[0#8, 0#8], [1#8, 0#8], [2#8, 0#8], [3#8, 0#8]] := by decide +kernel

/-- R283, R284: an object for one arrival; the arrival completes its phase. -/
theorem test_mbar : let t := after (.mbarInit 2#7 1#7 0#4) (base.put [(.k 1, 16#32), (.k 2, 1#32)])
    (t.blk 1).mbar 16 = ⟨0, 1, 1, 0, false⟩ ∧ ((t.mbarArrive 1 16).2.blk 1).mbar 16 = ⟨0, 1, 1, 1, false⟩ := by decide +kernel

/-- R108, R161, R173, R182, R187: a trap's entry saves the PC, the cause and the lanes, lowers the window by 16 and starts the handler. -/
theorem test_trap_entry : let s := { only3.onCtx fun x => { x with trapvec := 0x180000#64 } with cur := some { cur1 with run := [3] } }
    let t := after (.trapEntry 1 0) { after (.trap 1#7 0#4) s with cur := none }
    (t.grp 1 0).tcause = 0x109#32 ∧ (t.grp 1 0).tpc = 0x100000#64 ∧ (t.grp 1 0).tlanes = 8#32 ∧ (t.grp 1 0).trapped = true ∧
    ((t.grp 1 0).lane 3).pc = 0x180000 ∧ ((t.grp 1 0).lane 3).base = -16 ∧ ((t.grp 1 0).lane 3).status = .active := by decide +kernel

/-- R376, R377, R361: a claim makes a host the owner; its first command is number 1; a wrong number is a gap. -/
theorem test_owner : let s := after (.claim ⟨2, 0⟩) (({ base with cur := none } : State).asks 2 0 1 0 [])
    s.island.owner = some 2 ∧ (mget {} (after (.computeReset ⟨2, 2#32, 0⟩) (s.asks 2 2 0x20 0 [])).replies 2).status = 5 ∧
    (after (.computeReset ⟨2, 1#32, 0⟩) (s.asks 2 1 0x20 0 [])).island.st = 4 := by decide +kernel

/-- R371, R95: from boot, with trained ports, to joined. -/
theorem test_boot : let s := (List.range 16).foldl (fun s n => after (.portTrained n 8) s) State.reset
    let t := after .computeRelease (after (.bootVerified true) s)
    t.island.st = 3 ∧ t.island.inc = 1#8 ∧ (t.ctx 0).priv = true := by decide +kernel

/-- R364: the check value of the CRC-32 of IEEE 802.3, over the characters 1 to 9. -/
theorem test_crc : crc32 ((List.range 9).map fun i => BitVec.ofNat 8 (0x31 + i)) = 0xCBF43926 := by decide +kernel

/-- R364: a block with a wrong CRC is nakked, and the one after it is still awaited. -/
theorem test_block (b : LinkBlock) (h : b.good = false) : let t := (after (.portTrained 0 8) base).blockReceived 0 b
    (t.port 0).nak = true ∧ (t.port 0).expect = 0 := by
  have up : ¬ (16 ≤ 0 ∨ ((after (.portTrained 0 8) base).port 0).up = false) := by decide +kernel
  simp only [State.blockReceived, if_neg up, h, Bool.not_false, if_true]
  decide +kernel

/-- R28, R149: a placed word runs in the next step (the word is `lit v10, 0x3F800000`). -/
theorem test_step : (match step (State.reset.withFetchWord 64 (0x0E280004 + 2 ^ 32 * 0x3F800000)) with
    | .next t => t.key (.v 3 10)
    | _ => 0#32) = 0x3F800000#32 := by decide +kernel

end Sys2Proof.Machine
end

