-- ==== Sys2Proof/Tests/WitnessAlu.lean ====
section
/-! SUPPORT. Witnesses, first part: states and operands that meet the premises of the statements about instructions that compute,
move, exchange, and read or write registers. -/

namespace Sys2Proof.Machine

set_option Elab.async false

/-- Port 1 holds an entry. -/
def basePorts : State := base.onBlk fun b => { b with ports := [(1, [List.replicate 32 7#32])] }

theorem witness_IntegerResults : Issues (useR 119#7 1#7 2#7) noOwn ∧ Issues (useRD 4#7 4#7 4#7) noOwn ∧ unitFree base cur1 .main = true ∧
    -- a port as destination and as source
    Issuing (useR 120#7 121#7 2#7) noOwn basePorts cur1 ∧ unitFree basePorts cur1 .main = true := by
  constructorm* _ ∧ _ <;> first | exact issuing_of (by decide +kernel) | decide +kernel

theorem witness_ImmediateAndPairResults : Issues (use1 4#7 119#7) noOwn ∧ unitFree base cur1 .main = true ∧
    Issues { vsrc := [(2#7, 2), (118#7, 2)], vdst := some (4#7, 2) } noOwn ∧
    Issues { vsrc := [(2#7, 2), (3#7, 1)], vdst := some (2#7, 2) } noOwn := by
  constructorm* _ ∧ _ <;> first | exact issuing_of (by decide +kernel) | decide +kernel

theorem witness_IntegerCompares_illegal :
    (opOf 0x4D883074#32 = 0x26#7 ∧ 6 ≤ ((dOf 0x4D883074#32).extractLsb' 4 3).toNat) ∧
    (opOf 0x4EB03074#32 = 0x27#7 ∧ 12 ≤ ((dOf 0x4EB03074#32).extractLsb' 0 4).toNat) := by decide
theorem witness_BitFunctions_illegal : opOf 0x500800B4#32 = 0x28#7 ∧ 0x0B ≤ (bOf 0x500800B4#32).toNat := by decide
theorem witness_IntegerCompares : (11#4).toNat < 12 ∧ Issues { vsrc := [(1#7, 1), (2#7, 1)] } noOwn ∧ unitFree base cur1 .main = true := by
  constructorm* _ ∧ _ <;> first | exact issuing_of (by decide +kernel) | decide +kernel

theorem witness_BitFunctions : Issues (use1 4#7 1#7) noOwn ∧ Issues (useR 4#7 1#7 2#7) noOwn ∧ Issues (useRD 4#7 1#7 2#7) noOwn ∧
    unitFree base cur1 .main = true ∧
    -- leading zeros: 31, and 0
    (31 < 32 ∧ (1#32).getLsbD (31 - 31) = true ∧ ∀ k, k < 31 → (1#32).getLsbD (31 - k) = false) ∧
    (0 < 32 ∧ (0x80000000#32).getLsbD (31 - 0) = true ∧ ∀ k, k < 0 → (0x80000000#32).getLsbD (31 - k) = false) ∧ 31 < 32 := by
  constructorm* _ ∧ _ <;> first | exact issuing_of (by decide +kernel) | decide +kernel

theorem witness_UniformResults : Issues { ksrc := [(1#7, 1), (127#7, 1)] } noOwn ∧ Issues { ksrc := [(2#7, 2), (126#7, 2)] } noOwn ∧
    Issues { ksrc := [(1#7, 1)] } noOwn ∧ (3#4).toNat < 4 := by
  constructorm* _ ∧ _ <;> first | exact issuing_of (by decide +kernel) | decide +kernel

theorem witness_MovesAndLiterals : Issues (use1 4#7 1#7) noOwn ∧ Issues { vdst := some (4#7, 1) } noOwn ∧ unitFree base cur1 .main = true ∧
    Issues {} noOwn ∧ Issues { vdst := some (4#7, 1), ksrc := [(1#7, 1)] } noOwn ∧ Issues { vsrc := [(1#7, 1)] } noOwn ∧
    Issues { vdst := some (4#7, 1), psrc := List.range 12 } noOwn ∧ (3#7).toNat < 4 ∧ Issues { ksrc := [(1#7, 1)] } noOwn ∧
    -- mov to a uniform register: the lowest lane's register is not bad
    (let u : Uses := { vsrc := [(1#7, 1)], remote := true }
     Issues u (lowestOwn 1#7 base cur1) ∧ (movBad 1#7 base (mayIssue u (lowestOwn 1#7 base cur1) base cur1)).isNone = true ∧
     (movBad 1#7 base (issueOf u (lowestOwn 1#7 base cur1) base cur1)).isNone = true) := by
  constructorm* _ ∧ _ <;> first | exact issuing_of (by decide +kernel) | decide +kernel

theorem witness_FloatF32Results : Issues (useR 4#7 1#7 2#7) noOwn ∧ Issues (useRD 4#7 1#7 2#7) noOwn ∧ Issues (use1 4#7 1#7) noOwn ∧
    unitFree base cur1 .main = true ∧ unitFree base cur1 .fn = true := by
  constructorm* _ ∧ _ <;> first | exact issuing_of (by decide +kernel) | decide +kernel

theorem witness_FloatPackedResults : Issues (useR 4#7 4#7 4#7) noOwn ∧ Issues (useRD 4#7 1#7 2#7) noOwn ∧ Issues (use1 4#7 1#7) noOwn ∧
    unitFree base cur1 .main = true ∧ unitFree base cur1 .fn = true := by
  constructorm* _ ∧ _ <;> first | exact issuing_of (by decide +kernel) | decide +kernel

theorem witness_FloatF64Results : Issues (usePair2 4#7 2#7 118#7) noOwn ∧ Issues (usePair3 4#7 2#7 6#7) noOwn ∧
    Issues { vsrc := [(2#7, 2)], vdst := some (4#7, 2) } noOwn ∧ unitFree base cur1 .f64 = true := by
  constructorm* _ ∧ _ <;> first | exact issuing_of (by decide +kernel) | decide +kernel

theorem witness_FloatCompares : (11#4).toNat < 12 ∧ (10#4).toNat < 12 ∧ (10#4).toNat % 2 = 0 ∧ Issues { vsrc := [(1#7, 1), (2#7, 1)] } noOwn ∧
    Issues { vsrc := [(2#7, 2), (4#7, 2)] } noOwn ∧ unitFree base cur1 .main = true ∧ unitFree base cur1 .f64 = true := by
  constructorm* _ ∧ _ <;> first | exact issuing_of (by decide +kernel) | decide +kernel

/-- The environment of FPCR 0. -/
abbrev env0 : Env := envOf 0#32

theorem witness_FloatNaNs : (operand .f32 env0 0x7F800001).isNan = true ∧ (operand .f16 env0 0x7E00).isNan = true ∧
    operand .f32 env0 0x7F800000 = .inf false ∧ operand .f32 env0 0xFF800000 = .inf (!false) ∧ operand .f32 env0 0x80000000 = .fin true 0 (-149) ∧
    operand .f64 env0 0xFFF0000000000000 = .inf true ∧ operand .f64 env0 0xFFF0000000000000 = .inf true ∧
    -- a NaN addend beside ∞ × 0, and beside 1 × 1; 0 × ∞; ∞ × ∞ − ∞, and ∞ × 1 − ∞
    (∃ n m e, operand .f32 env0 0x7F800000 = .inf n ∧ operand .f32 env0 0 = .fin m 0 e ∨ operand .f32 env0 0x7F800000 = .fin m 0 e ∧
      operand .f32 env0 0 = .inf n) ∧
    (∀ n m e, ¬ (operand .f32 env0 0x3F800000 = .inf n ∧ operand .f32 env0 0x3F800000 = .fin m 0 e) ∧
      ¬ (operand .f32 env0 0x3F800000 = .fin m 0 e ∧ operand .f32 env0 0x3F800000 = .inf n)) ∧
    (0 < 2 ^ 23 ∧ operand .f32 env0 0x7F800000 = .inf (false == true) ∧ operand .f32 env0 0xBF800000 = .fin true (2 ^ 23) (-23)) := by
  refine ⟨by decide +kernel, by decide +kernel, by decide +kernel, by decide +kernel, by decide +kernel, by decide +kernel, by decide +kernel,
    ⟨false, false, -149, by decide +kernel⟩, fun n m e => ?_, by decide +kernel, by decide +kernel, by decide +kernel⟩
  rw [show operand .f32 env0 0x3F800000 = .fin false (2 ^ 23) (-23) by decide +kernel]
  simp

/-- Numbers below, above and equal to one another, and the infinities. -/
def ordered : Prop :=
  operand .f32 env0 0x3F800000 = .fin false (2 ^ 23) (-23) ∧ operand .f32 env0 0x40000000 = .fin false (2 ^ 23) (-22) ∧
    toUnits false (2 ^ 23) (-23) (-23) < toUnits false (2 ^ 23) (-22) (-23) ∧ toUnits true 0 (-149) (-149) = toUnits false 0 (-149) (-149) ∧
    operand .f32 env0 0x7F800000 = .inf false ∧ operand .f32 env0 0xFF800000 = .inf true ∧ FVal.inf false ≠ .inf true

theorem witness_FloatMinMax : (operand .f32 env0 0x7FC00000).isNan = true ∧ (operand .f32 env0 0xFFC00000).isNan = true ∧
    (operand .f32 env0 0x3F800000).isNan = false ∧ operand .f32 env0 0x80000000 = .fin true 0 (-149) ∧ operand .f32 env0 0 = .fin false 0 (-149) ∧
    ordered := by
  unfold ordered; decide +kernel

theorem witness_FloatCompareRules : (operand .f32 env0 0x7F800001).isNan = true ∧ (operand .f32 env0 0).isNan = false ∧
    operand .f32 env0 0x80000000 = .fin true 0 (-149) ∧ operand .f32 env0 0 = .fin false 0 (-149) ∧ ordered := by
  unfold ordered; decide +kernel

theorem witness_RoundingDirections : (0 : Int) < 1 ∧ 2 * 1 = 2 * ((roundAt .rn false 1 0 false 1).1 * 2 ^ ((1 : Int) - 0).toNat) + 2 ^ ((1 : Int) - 0).toNat ∧
    2 * ((roundAt .rn false 3 0 false 1).1 * 2 ^ ((1 : Int) - 0).toNat) = 2 * 3 + 2 ^ ((1 : Int) - 0).toNat ∧
    -- an overflow in each direction; a tiny result, exact and not
    (∀ rm ∈ [Rm.rn, .rz, .ru, .rd], (roundTo .f16 rm false 1 16 false).isOver = true ∧ (roundTo .f16 rm false 3 (-1) false).isOver = false) ∧
    (roundTo .f16 .rn false 1 (-24) false).tiny = true ∧ (roundTo .f16 .rn false 1 (-24) false).inexact = false ∧
    (roundTo .f16 .rn false 3 (-25) false).tiny = true ∧ (roundTo .f16 .rn false 3 (-25) false).inexact = true := by decide +kernel

theorem witness_RoundingKeepsExact : (0 < 1 ∧ 1 < Fmt.f32.inf ∧ unpack .f32 1 = .fin false 1 (-149)) ∧
    (0 < 0x7F7FFFFF ∧ 0x7F7FFFFF < Fmt.f32.inf ∧ unpack .f32 0x7F7FFFFF = .fin false 0xFFFFFF 104) ∧
    (0 < 0x3C00 ∧ 0x3C00 < Fmt.f16.inf ∧ unpack .f16 0x3C00 = .fin false 1024 (-10)) ∧
    -- 1 + 2 = 3; 1 × 2 = 2, and 1 × 2 + 1 = 3; 1 − 1 = 0
    (operand .f32 env0 0x3F800000 = .fin false (2 ^ 23) (-23) ∧ operand .f32 env0 0x40000000 = .fin false (2 ^ 23) (-22) ∧
      (∀ q, q ≤ (0 : Int) → q ≤ -23 → q ≤ -22 → toUnits false 3 0 q = toUnits false (2 ^ 23) (-23) q + toUnits false (2 ^ 23) (-22) q) ∧
      (∀ q : Int, q ≤ 1 → q ≤ -23 + -22 → 1 * 2 ^ (1 - q).toNat = 2 ^ 23 * 2 ^ 23 * 2 ^ (-23 + -22 - q).toNat) ∧
      ∀ q, q ≤ (0 : Int) → q ≤ -23 → q ≤ -23 → toUnits false 0 0 q = toUnits false (2 ^ 23) (-23) q + toUnits true (2 ^ 23) (-23) q) := by
  refine ⟨by decide +kernel, by decide +kernel, by decide +kernel, by decide +kernel, by decide +kernel, fun q _ h _ => ?_, fun q _ h => ?_,
    fun q _ h _ => ?_⟩
  · obtain ⟨n, rfl⟩ : ∃ n : Nat, q = -23 - n := ⟨(-23 - q).toNat, by omega⟩
    simp only [toUnits, show ((0 : Int) - (-23 - n)).toNat = 23 + n by omega, show ((-23 : Int) - (-23 - n)).toNat = n by omega,
      show ((-22 : Int) - (-23 - n)).toNat = n + 1 by omega, pow_add]
    push_cast; ring
  · obtain ⟨n, rfl⟩ : ∃ n : Nat, q = -45 - n := ⟨(-45 - q).toNat, by omega⟩
    rw [show ((1 : Int) - (-45 - n)).toNat = 46 + n by omega, show ((-23 : Int) + -22 - (-45 - n)).toNat = n by omega, pow_add]
    ring
  · simp [toUnits]

/-- What 2^31, −2^31 and −(2^31 + 256) round to. -/
theorem witness_Conversions : Issues { vsrc := [(1#7, 1)], vdst := some (4#7, 1) } noOwn ∧ Issues { vsrc := [(2#7, 2)], vdst := some (4#7, 1) } noOwn ∧
    Issues { vsrc := [(1#7, 1)], vdst := some (4#7, 2) } noOwn ∧ unitFree base cur1 .main = true ∧
    (unpack .f32 0x7FC00000).isNan = true ∧ unpack .f32 0xFF800000 = .inf true ∧ unpack .f32 0x7F800000 = .inf false ∧
    (unpack .f32 0xCF000001 = .fin true 8388609 8 ∧ -((roundAt .rz true 8388609 8 false 0).1 : Int) < -2147483648) ∧
    (unpack .f32 0x4F000000 = .fin false 8388608 8 ∧ (-2147483648 : Int) ≤ ((roundAt .rz false 8388608 8 false 0).1 : Int) ∧
      (2147483647 : Int) < ((roundAt .rz false 8388608 8 false 0).1 : Int)) ∧
    (unpack .f32 0xCF000000 = .fin true 8388608 8 ∧ (-2147483648 : Int) ≤ -((roundAt .rz true 8388608 8 false 0).1 : Int) ∧
      -((roundAt .rz true 8388608 8 false 0).1 : Int) ≤ 2147483647) := by
  constructorm* _ ∧ _ <;> first | exact issuing_of (by decide +kernel) | decide +kernel

theorem witness_M8Results : Issues { vsrc := [(2#7, 2), (6#7, 2)], vdst := some (4#7, 1) } noOwn ∧ Issues (use1 4#7 1#7) noOwn ∧
    Issues (useRD 4#7 1#7 2#7) noOwn ∧ unitFree base cur1 .main = true ∧
    -- a number between two codes, one beyond the largest, a NaN, an infinity
    (unpack .f32 0x3F810000 = .fin false 8454144 (-23) ∧ 8454144 * 2 ^ ((-23 : Int) - min (-23) (-21)).toNat ≤ m8Mag 127 * 2 ^ (-21 - min (-23 : Int) (-21)).toNat ∧
      unpack .f32 0x4F000000 = .fin false (2 ^ 23) 8 ∧ m8Mag 127 * 2 ^ (-21 - min (8 : Int) (-21)).toNat < 2 ^ 23 * 2 ^ ((8 : Int) - min 8 (-21)).toNat ∧
      (unpack .f32 0x7FC00000).isNan = true ∧ unpack .f32 0x7F800000 = .inf false) ∧
    -- the bytes of a sum, with a NaR and without
    (byteAt 0x80#32 0 = 0x80 ∧ ∀ i, i < 4 → byteAt 0x41C04140#32 i ≠ 0x80 ∧ byteAt 0x40404040#32 i ≠ 0x80) := by
  constructorm* _ ∧ _ <;> first | exact issuing_of (by decide +kernel) | decide +kernel

theorem witness_LaneExchanges :
    (let u := { useR 4#7 0#7 1#7 with remote := true }
     Issues u (exchangeOwn u (fun args _ => (arg args 1).toNat % 32) base cur1)) ∧
    (let u := { use1 4#7 0#7 with remote := true }
     Issues u (exchangeOwn u (fun _ L => L ^^^ 31) base cur1)) ∧ isPort 119#7 = false ∧
    ((base.grp 1 0).lane 31).status = .absent ∧
    inRange 128 (((base.onLane 3 fun l => { l with base := 16 }).grp 1 0).lane 3) (112#7).toNat = false ∧
    ((base.grp 1 0).lane 3).status ≠ .absent ∧ inRange 128 ((base.grp 1 0).lane 3) (119#7).toNat = true ∧
    ((base.grp 1 0).producer 0 (vKey 128 (base.grp 1 0) 3 (119#7).toNat)).isNone = true := by
  constructorm* _ ∧ _ <;> first | exact issuing_of (by decide +kernel) | decide +kernel

theorem witness_Votes : (3#7).toNat < 4 ∧ Issues { psrc := [(11#4).toNat] } noOwn := by
  constructorm* _ ∧ _ <;> first | exact issuing_of (by decide +kernel) | decide +kernel

theorem witness_Reductions : Issues { vsrc := [(1#7, 1)] } noOwn ∧ ([] : List (Nat × Word)) = [] ∧
    (∀ x ∈ [((3, 0x7FC00000#32) : Nat × Word)], (unpack .f32 x.2.toNat).isNan = true) ∧
    ∃ x ∈ [((3, 0x7FC00000#32) : Nat × Word), (5, 1#32)], (unpack .f32 x.2.toNat).isNan = false := by
  constructorm* _ ∧ _ <;> first | exact issuing_of (by decide +kernel) | decide +kernel

theorem witness_SpecialReads : Issues {} noOwn ∧ (base.ctxOf 1).priv = true ∧ cur1.run.head? = some 0 ∧ 0 ≤ ((base.grp 1 0).lane 0).w := by
  constructorm* _ ∧ _ <;> first | exact issuing_of (by decide +kernel) | decide +kernel

/-- The group has read the low half of STKSAVE, and has written it. -/
def halfRead : State := base.onGrp fun G => { G with latch := some (3, 5#32) }
def halfWritten : State := (base.onGrp fun G => { G with wbuf := some (3, 0x100#32) }).put [(.k 1, 1#32)]

theorem witness_CsrReads : Issues {} noOwn ∧ base.csrIllegal 1 (2#16).toNat = false ∧ base.allComplete 1 0 0 = true ∧
    (base.issuer cur1).latch.isNone = true ∧
    Issuing {} noOwn halfRead cur1 ∧ halfRead.csrIllegal 1 (3#16).toNat = false ∧ halfRead.allComplete 1 0 0 = true ∧
    (halfRead.issuer cur1).latch = some (3, 5#32) := by
  constructorm* _ ∧ _ <;> first | exact issuing_of (by decide +kernel) | decide +kernel

/-- Uniform register 1 holds a value. -/
def withK1 (w : Word) : State := base.put [(.k 1, w)]

/-- csrw of this CSR issues with this value. -/
def csrwB (csr : BitVec 16) (w : Word) : Bool :=
  issuingB { ksrc := [(1#7, 1)] } noOwn (withK1 w) cur1 && !(withK1 w).csrIllegal 1 csr.toNat && (withK1 w).allComplete 1 0 0 &&
    kOpnd (withK1 w) cur1 1#7 == w

theorem csrw_of {csr : BitVec 16} {w : Word} (h : csrwB csr w = true) : Issuing { ksrc := [(1#7, 1)] } noOwn (withK1 w) cur1 ∧
    (withK1 w).csrIllegal 1 csr.toNat = false ∧ (withK1 w).allComplete 1 0 0 = true ∧ kOpnd (withK1 w) cur1 1#7 = w := by
  simp only [csrwB, Bool.and_eq_true, Bool.not_eq_true', beq_iff_eq] at h
  exact ⟨issuing_of h.1.1.1, h.1.1.2, h.1.2, h.2⟩

/-- The values that csrw takes, and those it refuses: FPCR, FPSR, SBCHK, HRETAIN at their limits; the two halves of STKSAVE. -/
theorem witness_CsrWrites : (∀ x ∈ ([(0#16, 7#32), (0#16, 8#32), (1#16, 31#32), (1#16, 32#32), (2#16, 0x100#32), (0x12#16, 1#32), (0x12#16, 2#32),
      (0x14#16, 0xFFFFFFFF#32), (0x800#16, BitVec.ofNat 32 (2 ^ 30)), (0x800#16, BitVec.ofNat 32 (2 ^ 30 + 1))] : List (BitVec 16 × Word)),
    Issuing { ksrc := [(1#7, 1)] } noOwn (withK1 x.2) cur1 ∧ (withK1 x.2).csrIllegal 1 x.1.toNat = false ∧
      (withK1 x.2).allComplete 1 0 0 = true ∧ kOpnd (withK1 x.2) cur1 1#7 = x.2) ∧
    (Issuing { ksrc := [(1#7, 1)] } noOwn halfWritten cur1 ∧ halfWritten.csrIllegal 1 (3#16).toNat = false ∧ halfWritten.allComplete 1 0 0 = true ∧
      (halfWritten.issuer cur1).wbuf = some (3, 0x100#32) ∧ (0x100#32).toNat % 256 = 0) := by
  refine ⟨?_, ?_⟩
  · have h : ([(0#16, 7#32), (0#16, 8#32), (1#16, 31#32), (1#16, 32#32), (2#16, 0x100#32), (0x12#16, 1#32), (0x12#16, 2#32),
      (0x14#16, 0xFFFFFFFF#32), (0x800#16, BitVec.ofNat 32 (2 ^ 30)), (0x800#16, BitVec.ofNat 32 (2 ^ 30 + 1))] : List (BitVec 16 × Word)).all
        (fun x => csrwB x.1 x.2) = true := by decide +kernel
    exact fun x hx => csrw_of (List.all_eq_true.1 h x hx)
  · constructorm* _ ∧ _ <;> first | exact issuing_of (by decide +kernel) | decide +kernel

theorem witness_CsrIllegal : base.cur = some cur1 ∧ cur1.run.Nodup ∧ base.csrIllegal 1 (0xFFFF#16).toNat = true ∧
    -- a device CSR from a context that is not privileged
    (base.onCtx fun x => { x with priv := false }).csrIllegal 1 (0x800#16).toNat = true := by decide +kernel

theorem witness_TokenWaits : Issues {} noOwn ∧ (∀ tok, tok < 8 → (base.issuer cur1).token tok = 0) ∧
    (base.issuer cur1).tokens = [] ∧ (base.engineFault 1 0 (fun tok => (0xFF#8).getLsbD tok) true).isNone = true := by
  constructorm* _ ∧ _ <;> first | exact issuing_of (by decide +kernel) | decide +kernel

end Sys2Proof.Machine
end

