-- ==== Sys2Proof/Tests/WitnessFlow.lean ====
section
/-! SUPPORT. Witnesses, second part: states that meet the premises of the statements about control flow, barriers, traps. -/

namespace Sys2Proof.Machine

set_option Elab.async false

/-- The causes of jmp, callr and ret, and the room that a call needs, as the statement gives them. -/
def jumpOwn (s : State) (c : Cur) (a : VReg) : Own := fun L => if vPair s c L a % 4 ≠ 0 ∨ 2 ^ 57 ≤ vPair s c L a then some (mkCause c 5) else none
def roomOwn (s : State) (c : Cur) (shift : BitVec 7) : Own := fun L =>
  if ((s.blk c.blk).A : Int) - ((s.lane c L).w + shift.toNat) < 16 then some (mkCause c (if (s.lane c L).w < 64 then 3 else 7)) else none
def retOwn (s : State) (c : Cur) : Own := fun L =>
  let shift : Nat := vPair s c L 0#7 / 2 ^ 57
  if shift % 8 ≠ 0 ∨ 112 < shift ∨ vPair s c L 0#7 % 4 ≠ 0 then some (mkCause c 5)
  else if (s.lane c L).w < (shift : Int) then some (mkCause c 8) else none

/-- A callee's frame: a shift of 112, the largest, and a link. -/
def called : State := (base.onLane 3 fun l => { l with base := 112 }).put [(.v 3 112, 0x100004#32), (.v 3 113, 0xE0000000#32)]

theorem witness_ControlTransfers : Issues (Sel.uses (.lane true 11#4)) noOwn ∧ Issues (Sel.uses (.uni false 3#2)) noOwn ∧
    Issues (Sel.uses .always) noOwn ∧ Issues { vsrc := [(2#7, 2)] } (jumpOwn base cur1 2#7) ∧
    -- the largest shift that leaves 16 entries
    Issues {} (roomOwn base cur1 112#7) ∧ 2 ≤ (base.blk 1).A ∧
    Issues { vsrc := [(2#7, 2)] } (fun L => if vPair base cur1 L 2#7 % 4 ≠ 0 ∨ 2 ^ 57 ≤ vPair base cur1 L 2#7 then some (mkCause cur1 5)
      else roomOwn base cur1 112#7 L) ∧
    Issuing { vsrc := [(0#7, 2)] } (retOwn { called with cur := some cur3 } cur3) { called with cur := some cur3 } cur3 := by
  constructorm* _ ∧ _ <;> first | exact issuing_of (by decide +kernel) | decide +kernel

theorem witness_WindowsAndGuards : Issues {} noOwn ∧ Issues (Sel.uses (.lane false 11#4)) noOwn ∧
    Issues {} (fun _ => if (base.blk 1).A ≤ 8 * (15#7).toNat then some (mkCause cur1 3) else none) := by
  constructorm* _ ∧ _ <;> exact issuing_of (by decide +kernel)

theorem witness_RegionsAndChecks : Issues {} noOwn ∧ Delivered .full true {} noOwn base cur1 ∧ AtIssue base cur1 := by
  constructorm* _ ∧ _ <;> first | exact issuing_of (by decide +kernel) | exact delivered_of (by decide +kernel) | exact atIssue_of (by decide +kernel)

/-! ## Barriers -/

/-- Lane 3 issues; the others are still active. -/
def early : State := { base with cur := some cur3 }
/-- Lane 3 issues; the others wait at a barrier of this status, lane 0 at a smaller PC. -/
def late (st : LaneStatus) : State :=
  { base.onGrp fun G => [0, 1, 2].foldl (fun G L => G.setLane L { G.lane L with status := st, pc := if L = 0 then 0xFFFF0 else 0x100000 }) G with
    cur := some cur3 }
/-- The lanes that a meet concerns, outside trap mode. -/
def meetLanes (s : State) : List Nat := (s.issuer cur3).present.filter fun L => !(s.lane cur3 L).isOver && !(s.lane cur3 L).helper
/-- The block's other core partner: a second block of the team, whose lanes run. -/
def twoBlocks (st : LaneStatus) : State :=
  let s := (late .barTeam).setTeam 1 { live := true, ctx := 1, kernel := 1, size := 2, blocks := [(0, 2), (1, 3)], cores := [(0, 1), (1, 2)] }
  s.setBlk 2 { probeBlock with role := 1, core := some 1, groups := [(0, [0, 1, 2, 3].foldl (fun G L => G.setLane L { G.lane L with status := st })
    (startGroup 4 probeVa 0 0 0 []))] }

theorem witness_MeetsAndBarriers :
    -- not the last lane
    (Issuing {} noOwn early cur3 ∧ Delivered .full true {} noOwn early cur3 ∧ EnginesRun early cur3 ∧
      (∃ M ∈ meetLanes early, M ∉ runs {} noOwn early cur3 ∧ (early.lane cur3 M).status ≠ .meet) ∧
      ∃ x ∈ (early.blk 1).liveLanes, ¬ (x.1 = 0 ∧ x.2 ∈ runs {} noOwn early cur3 ∨ (((early.blk 1).grp x.1).lane x.2).status.atBlk = true)) ∧
    -- the last lane at a meet: lane 0 waits at a smaller PC
    (Issuing {} noOwn (late .meet) cur3 ∧ Delivered .full true {} noOwn (late .meet) cur3 ∧ ((late .meet).issuer cur3).live = true ∧
      meetLanes (late .meet) ≠ [] ∧
      (∀ M ∈ meetLanes (late .meet), M ∈ runs {} noOwn (late .meet) cur3 ∨ ((late .meet).lane cur3 M).status = .meet) ∧
      (∀ M ∈ meetLanes (late .meet), ((late .meet).lane cur3 0).pc ≤ ((late .meet).lane cur3 M).pc) ∧
      ∃ M ∈ meetLanes (late .meet), ((late .meet).lane cur3 M).pc < ((late .meet).lane cur3 3).pc) ∧
    -- the last lane at a block barrier
    (Issuing {} noOwn (late .barBlkR) cur3 ∧ Delivered .full true {} noOwn (late .barBlkR) cur3 ∧ EnginesRun (late .barBlkR) cur3 ∧
      ((late .barBlkR).blk 1).live = true ∧ (((late .barBlkR).blk 1).groups.map (·.1)).Pairwise (· < ·) ∧ ((late .barBlkR).blk 1).liveLanes ≠ [] ∧
      (∀ x ∈ ((late .barBlkR).blk 1).liveLanes, x.1 = 0 ∧ x.2 ∈ runs {} noOwn (late .barBlkR) cur3 ∨
        ((((late .barBlkR).blk 1).grp x.1).lane x.2).status.atBlk = true) ∧ (late .barBlkR).quiet 1 .blk = true) := by
  constructorm* _ ∧ _ <;>
    first | exact issuing_of (by decide +kernel) | exact delivered_of (by decide +kernel) | exact engines_of (by decide +kernel) | decide +kernel

/-- Of a team barrier: one block, both blocks there, the other block still running. -/
theorem witness_MeetsAndBarriers_team :
    (∀ s ∈ [late .barTeam, twoBlocks .barTeam], Issuing {} noOwn s cur3 ∧ Delivered .full true {} noOwn s cur3 ∧ EnginesRun s cur3 ∧
      (s.blk 1).live = true ∧ 1 ∈ (s.team (s.blk 1).team).blocks.map (fun x => x.2 - 1) ∧ ((s.blk 1).groups.map (·.1)).Pairwise (· < ·) ∧
      (s.issuer cur3).live = true ∧ (s.blk 1).liveLanes ≠ [] ∧
      (∀ x ∈ (s.blk 1).liveLanes, x.1 = 0 ∧ x.2 ∈ runs {} noOwn s cur3 ∨ (((s.blk 1).grp x.1).lane x.2).status = .barTeam) ∧
      s.quiet 1 .team = true ∧
      ∀ u ∈ ((s.team (s.blk 1).team).blocks.map fun x => x.2 - 1).filter fun u => (s.blk u).live && u != 1, s.teamHere u = true) ∧
    (Issuing {} noOwn (twoBlocks .active) cur3 ∧ Delivered .full true {} noOwn (twoBlocks .active) cur3 ∧ EnginesRun (twoBlocks .active) cur3 ∧
      ∃ u ∈ (((twoBlocks .active).team ((twoBlocks .active).blk 1).team).blocks.map fun x => x.2 - 1).filter fun u =>
        ((twoBlocks .active).blk u).live && u != 1, (twoBlocks .active).teamHere u = false) := by
  simp only [List.forall_mem_cons, List.not_mem_nil, false_implies, implies_true, and_true]
  constructorm* _ ∧ _ <;>
    first | exact issuing_of (by decide +kernel) | exact delivered_of (by decide +kernel) | exact engines_of (by decide +kernel) | decide +kernel

theorem witness_GroupEnds :
    (Issuing {} noOwn early cur3 ∧ Delivered .full true {} noOwn early cur3 ∧ EnginesRun early cur3 ∧
      ∃ M ∈ (early.issuer cur3).present, M ∉ runs {} noOwn early cur3 ∧ (early.lane cur3 M).status ≠ .ended) ∧
    (Issues {} noOwn ∧ Delivered .full true {} noOwn base cur1 ∧ EnginesRun base cur1 ∧ (base.issuer cur1).live = true ∧
      ∀ M ∈ (base.issuer cur1).present, M ∈ runs {} noOwn base cur1 ∨ (base.lane cur1 M).status = .ended) := by
  constructorm* _ ∧ _ <;>
    first | exact issuing_of (by decide +kernel) | exact delivered_of (by decide +kernel) | exact engines_of (by decide +kernel) | decide +kernel

/-- Lane 0 holds a store-fault record. -/
def recorded : State := base.onGrp fun G => { G with sfq := [⟨[0], 0x300000, [1#8, 0#8, 0#8, 0#8], 2, 11, 0, 0⟩] }

theorem witness_StoreFaultDelivery : Issuing {} noOwn recorded cur1 ∧ deliveryWait .full true recorded (issueOf {} noOwn recorded cur1) = none ∧
    (0 ∈ runs {} noOwn recorded cur1 ∧ (recorded.issuer cur1).holdsRecord 0 = true ∧ (recorded.lane cur1 0).helper = false) ∧
    (3 ∈ runs {} noOwn recorded cur1 ∧ (recorded.issuer cur1).holdsRecord 3 = false) := by
  constructorm* _ ∧ _ <;> first | exact issuing_of (by decide +kernel) | decide +kernel

/-! ## Traps -/

/-- Lane 3 alone is left, parked with a cause. -/
def parked (x : Cause) (vec : DWord) : State :=
  { (only3.onLane 3 fun l => { l with status := .parked, cause := x }).onCtx fun k => { k with trapvec := vec } with cur := none }

theorem witness_ServedSet : 3 ∈ ((parked { code := 9 } 0#64).grp 1 0).serve ∧
    isLate (((parked { code := 9 } 0#64).grp 1 0).lane (((parked { code := 9 } 0#64).grp 1 0).serve.headD 0)).cause = false ∧
    3 ∈ ((parked { code := 12, late := true, va := 8 } 0#64).grp 1 0).serve := by decide +kernel

/-- The stores of a list go through, and none of them waits. -/
def storesGoB (ctx core floor : Nat) : State → List (Nat × List Byte) → Bool
  | _, [] => true
  | s, (va, bs) :: r => decide (va % 128 + bs.length ≤ 128) && match s.translate core ctx va .store (s.mayCache 11) with
    | (.ok x, s1) => decide (x.phys.target = 0) && s1.writeReady x.phys (bitOf x.leaf 4) (bitOf x.leaf 5) &&
        storesGoB ctx core floor (s1.storeLocal (s1.keyOf ctx) x.phys.off bs (bitOf x.leaf 4) false floor (some core)).2 r
    | (.error _, _) => false

theorem storesGo_of {ctx core floor : Nat} {s : State} {l : List (Nat × List Byte)} (h : storesGoB ctx core floor s l = true) :
    ∃ t, StoresGo ctx core floor s l t := by
  induction l generalizing s with
  | nil => exact ⟨s, rfl⟩
  | cons y r ih =>
    obtain ⟨va, bs⟩ := y
    simp only [storesGoB, Bool.and_eq_true, decide_eq_true_eq] at h
    obtain ⟨h1, h2⟩ := h
    split at h2
    · next x s1 e =>
      simp only [Bool.and_eq_true, decide_eq_true_eq] at h2
      obtain ⟨t, ht⟩ := ih h2.2
      exact ⟨t, h1, x, s1, e, h2.1.1, h2.1.2, ht⟩
    · cases h2

def noneWaitsB (ctx core : Nat) (s : State) (l : List (Nat × List Byte)) : Bool :=
  l.all fun y => match s.translate core ctx y.1 .store (s.mayCache 11) with
    | (.ok x, s1) => s1.writeReady x.phys (bitOf x.leaf 4) (bitOf x.leaf 5)
    | (.error _, _) => true

theorem noneWaits_of {ctx core : Nat} {s : State} {l : List (Nat × List Byte)} (h : noneWaitsB ctx core s l = true) :
    NoneWaits ctx core s l := by
  intro y hy x s1 e
  have := List.all_eq_true.1 h y hy
  rw [e] at this
  exact this

/-- A trap of lane 3 whose handler stands at 0x180000. -/
def trapping : State := parked { code := 9 } 0x180000#64

theorem witness_TrapTaking : base.entryReady 1 0 = false ∧
    ((parked { code := 9, number := 5 } 0#64).entryReady 1 0 = true ∧ ((parked { code := 9 } 0#64).ctx ((parked { code := 9 } 0#64).blk 1).ctx).trapvec = 0#64) ∧
    trapping.entryReady 1 0 = true ∧ (trapping.ctx (trapping.blk 1).ctx).trapvec ≠ 0#64 ∧
    NoneWaits (trapping.blk 1).ctx ((trapping.blk 1).core.getD 0) trapping (entryStores trapping 1 0) ∧
    (∃ t, StoresGo (trapping.blk 1).ctx ((trapping.blk 1).core.getD 0) (trapping.grp 1 0).floor trapping (entryStores trapping 1 0) t) ∧
    ∃ s', trapping.devStores (trapping.blk 1).ctx ((trapping.blk 1).core.getD 0) (some (trapping.blk 1).kernel) (trapping.grp 1 0).floor
      (entryStores trapping 1 0) = .ok s' := by
  refine ⟨by decide +kernel, ⟨by decide +kernel, by decide +kernel⟩, by decide +kernel, by decide +kernel, noneWaits_of (by decide +kernel),
    storesGo_of (by decide +kernel), ?_⟩
  have h : (match trapping.devStores (trapping.blk 1).ctx ((trapping.blk 1).core.getD 0) (some (trapping.blk 1).kernel)
        (trapping.grp 1 0).floor (entryStores trapping 1 0) with
      | .ok _ => true
      | _ => false) = true := by decide +kernel
  split at h
  · next s' e => exact ⟨s', e⟩
  · cases h

/-- Lane 3 runs its handler, after a trap of this code. -/
def handling (code : Nat) : State :=
  { only3.onGrp fun G => { G.setLane 3 { G.lane 3 with base := -16 } with
      trapped := true, served := [3], tpc := 0x100000#64, tcause := BitVec.ofNat 32 code } with cur := some cur3 }

/-- The reload of lane 3 answers 16 zeros. -/
def reloads (s : State) : Bool :=
  okB (({ s with fresh := s.fresh + 1 }).frameLoad 1 0 3) fun ws => ws == List.replicate 16 0#32

theorem reloads_iff {s : State} (h : reloads s = true) :
    ∀ L ∈ [3], ({ s with fresh := s.fresh + 1 }).frameLoad 1 0 L = .ok (List.replicate 16 0#32) := by
  intro L hL
  obtain ⟨x, hx, he⟩ := okB_iff h
  rw [List.mem_singleton.1 hL, hx, eq_of_beq he]

theorem witness_TrapReturn : (AtIssue base cur1 ∧ (base.issuer cur1).trapped = false) ∧
    ∀ code ∈ [7, 8, 9], Issuing {} noOwn (handling code) cur3 ∧ ((handling code).issuer cur3).trapped = true ∧ 16 ≤ ((handling code).blk 1).A ∧
      acting (handling code) cur3 = ((handling code).issuer cur3).served.filter (fun L => !((handling code).lane cur3 L).isOver) ∧
      (handling code).hiddenWrites (issueOf {} noOwn (handling code) cur3) = false ∧
      ((handling code).issuer cur3).tcause.toNat % 256 = code ∧
      ∀ L ∈ acting (handling code) cur3, ({ handling code with fresh := (handling code).fresh + 1 }).frameLoad 1 0 L =
        .ok (List.replicate 16 0#32) := by
  have e : ∀ code, acting (handling code) cur3 = [3] := fun code => rfl
  refine ⟨⟨atIssue_of (by decide +kernel), by decide +kernel⟩, ?_⟩
  rw [List.forall_mem_cons, List.forall_mem_cons, List.forall_mem_singleton, e, e, e]
  refine ⟨⟨?_, ?_, ?_, ?_, ?_, ?_, ?_⟩, ⟨?_, ?_, ?_, ?_, ?_, ?_, ?_⟩, ⟨?_, ?_, ?_, ?_, ?_, ?_, ?_⟩⟩ <;>
    first | exact issuing_of (by decide +kernel) | exact reloads_iff (by decide +kernel) | decide +kernel

end Sys2Proof.Machine
end

