-- ==== Sys2Proof/Tests/WitnessHost.lean ====
section
/-! SUPPORT. Witnesses, sixth part: states that meet the premises of the statements about observation, hosts, commands, the island, links
and packets. -/

namespace Sys2Proof.Machine

set_option Elab.async false

/-- Nothing issues; host 0 owns the device. -/
def quiet : State := { base with cur := none }
def owned : State := quiet.onIsland fun i => { i with owner := some 0 }
/-- Owned, with no context and no block: maps may change. -/
def bare : State := { owned with ctxs := [], blocks := [] }

/-! ## Observation and hosts -/

/-- The series has a ring of 256 frames in host memory; the ring holds n frames. -/
def series (n : Nat) : State := { quiet with serBase := BitVec.ofNat 64 (2 * 2 ^ 48 + 4096), serSize := 8
                                             mem := wrBytes quiet.mem (hostBase + 4096) (leBytes 4 n) }

/-- Quarter 0 of core 0 has counted n cycles of a sampling period of context 1, whose ring stands at a VA, and has records to write. -/
def sampled (va n : Nat) (recs : List (List Byte)) : State :=
  let s := quiet.setCore 0 ((quiet.core 0).setQuarter 0 { (quiet.core 0).quarter 0 with samp := [(1, n)], sampDue := [(1, recs)] })
  s.onCtx fun c => { c with sampPeriod := 50, sampM := 4, sampBase := BitVec.ofNat 64 va }

/-- What a push of the samples of context 1 comes to: whether it faults. -/
def samplePush (s : State) : Option Bool :=
  match s.pushAll 1 (s.ctx 1).sampBase.toNat (s.ctx 1).sampM (mget [] ((s.core 0).quarter 0).sampDue 1) with
  | (.ok _, _) => some false
  | (.fault _ _, _) => some true
  | (.wait _, _) => none

theorem witness_ObservationAndHostSteps_observe :
    -- latches: due and not due
    (quiet.seriesk ≠ 0#32 ∧ (quiet.tick - quiet.stampBase) % 2 ^ quiet.seriesk.toNat = 0 ∧ quiet.serLast ≠ quiet.tick + 1) ∧
    ¬ ({ quiet with tick := 1 } : State).tick % 2 ^ quiet.seriesk.toNat = 0 ∧
    -- pushes to a ring that is full, and not full
    (∀ n ∈ [256, 255], let s := series n
      s.serBase.toNat / 2 ^ 48 = 2 ∧ s.serBase.toNat % 2 ^ 40 + 16 + 128 * 2 ^ s.serSize ≤ 2 ^ 40) ∧
    (leNat (rdBytes (series 256).mem (hostBase + (series 256).serBase.toNat % 2 ^ 40) 4) = 2 ^ (series 256).serSize) ∧
    -- samples: none due; due, with a ring that takes them, and one that faults
    ((quiet.core 0).quarter 0).sampDue = [] ∧
    (∀ r ∈ [[], [List.replicate 16 0#8]], ((sampled 0 0 r).core 0 |>.quarter 0).sampDue = [(1, r)]) ∧
    samplePush (sampled 0x200000 0 []) = some false ∧ samplePush (sampled 0x40000000 0 [List.replicate 16 0#8]) = some true ∧
    -- cycles that are counted: with no period; below it; the last
    ((quiet.ctx 1).sampPeriod = 0 ∧ ((sampled 0 48 []).ctx 1).sampPeriod = 50 ∧ mget 0 ((sampled 0 48 []).core 0 |>.quarter 0).samp 1 + 1 < 50 ∧
      50 ≤ mget 0 ((sampled 0 49 []).core 0 |>.quarter 0).samp 1 + 1) ∧
    -- a stop that is due; resuming
    (let s := { quiet with stopat := 5#64, tick := 5, stopSet := 4 }
     s.stopat.toNat ≠ 2 ^ 64 - 1 ∧ s.stopat.toNat = s.tick ∧ s.stopSet < s.tick ∧ s.stopped = false) ∧ ¬ quiet.stopat.toNat = quiet.tick ∧
    (quiet.island.owner ≠ some 0 ∧ owned.island.owner = some 0 ∧ owned.stopped = false ∧ ({ owned with stopped := true } : State).island.owner = some 0) ∧
    -- tests of quadrants: quadrant 1 may, quadrant 0 has a block
    (let s := { quiet with tick := 10000000 }
     s.island.st = 3 ∧ 1 < 16 ∧ (∀ b ∈ s.blocks, b.2.live = true → ∀ n, b.2.core = some n → n / 32 ≠ 1) ∧ (s.quad 1).busyAt + 10000000 ≤ s.tick ∧
      s.island.quarantine.getLsbD 1 = false ∧ (s.quad 1).testing = none ∧ s.quadBusy 0 = true) ∧
    ((quiet.setQuad 1 { testing := some 0 }).quad 1).testing ≠ none := by
  simp only [List.forall_mem_cons, List.not_mem_nil, false_implies, implies_true, and_true]
  constructorm* _ ∧ _ <;> decide +kernel

theorem witness_ObservationAndHostSteps_hosts :
    -- no power; power, an owner and another host
    ((quiet.onIsland fun i => { i with st := 0 }).island.st = 0 ∧ 256 ≤ 256 ∧ owned.island.st ≠ 0 ∧ 0 < 256 ∧ owned.island.owner ≠ some 1 ∧
      owned.island.owner = some 0) ∧
    -- doorbells: idle, armed with room for exactly the records, and for one fewer
    (let q : HwQueue := { bound := some 1, st := .armed, n := 2 }
     ¬ ((owned.queue 0).st = .armed ∨ (owned.queue 0).st = .stopped) ∧ q.occ + (4#32 - q.tail).toNat ≤ 2 ^ q.n ∧ ¬ q.occ + (5#32 - q.tail).toNat ≤ 2 ^ q.n) ∧
    -- claims: owned; vacant, with and without a list; grants
    (owned.island.st ≠ 0 ∧ 0 < 8 ∧ quiet.island.owner = none ∧ Asked (owned.asks 0 0 0x01 0 []) 0 none 0x01 0#16 noArgs ∧
      Asked (quiet.asks 0 0 0x01 0 []) 0 none 0x01 0#16 noArgs ∧ ¬ Asked owned 0 none 0x01 0#16 noArgs) ∧
    (let s := quiet.onIsland fun i => { i with precedence := [3], claims := [3] }
     s.island.precedence ≠ [] ∧ s.tick < s.island.bootTick + 1000000000 ∧ Asked (s.asks 0 0 0x01 0 []) 0 none 0x01 0#16 noArgs ∧
      (let s := { s with tick := 1000000000 }
       s.island.st ≠ 0 ∧ s.island.owner = none ∧ s.island.bootTick + 1000000000 ≤ s.tick ∧ Asked (s.asks 0 0 0x01 0 []) 0 none 0x01 0#16 noArgs ∧
        (s.island.precedence.find? fun h => decide (h ∈ s.island.claims)) = some 3)) ∧
    -- a lapse at the limit plus one, and none at the limit
    (let s := { owned with tick := 300000001 }
     s.island.owner ≠ none ∧ s.island.heartbeat + 3 * s.island.hbPeriod * 1000000 < s.tick) ∧
    ¬ owned.island.heartbeat + 3 * owned.island.hbPeriod * 1000000 < 300000000 ∧
    -- periods at the bounds; HMEMCTX with and without a zero field set
    ((9#32).toNat < 10 ∧ 10000 < (10001#32).toNat ∧ 10 ≤ (10#32).toNat ∧ (10000#32).toNat ≤ 10000) ∧
    ((0x8FFF#32).toNat / 2 ^ 12 % 8 = 0 ∧ (0x8FFF#32).toNat / 2 ^ 16 = 0 ∧ ¬ (0x1000#32).toNat / 2 ^ 12 % 8 = 0) ∧
    -- a handover
    Asked (owned.asks 0 1 0x02 0 (leBytes 4 7)) 0 (some 1#32) 0x02 0#16 (arg4 7 owned) ∧
    -- bases, and sizes of rings at the bounds of their clauses
    ((0x1000#32).toNat % 4096 = 0 ∧ ¬ (0x1001#32).toNat % 4096 = 0) ∧
    (4 ≤ (4#32).toNat ∧ (12#32).toNat ≤ 12 ∧ 16 ≤ (16#32).toNat ∧ (3#32).toNat < 4 ∧ 12 < (13#32).toNat ∧ (15#32).toNat < 16) ∧
    -- LAST_ACCEPTED and another value
    (0#32 = owned.island.lastAccepted ∧ 1#32 ≠ owned.island.lastAccepted) := by
  constructorm* _ ∧ _ <;> first | exact asked_of (by decide +kernel) | exact fun h => h.ring.1 rfl | decide +kernel

/-- A region whose staged row 10 is a value, and row 3. -/
def staged (r10 r3 : Nat) : State := { bare with maps := [(2, { staged := [(3, r3), (10, r10)] })] }

theorem witness_ObservationAndHostSteps_maps :
    (0 < 7 ∧ 7 ≤ 7 ∧ 2 ≤ (2#32).toNat ∧ bare.island.owner = some 0) ∧
    -- busy; fixed rows changed; not invertible; good
    ((∃ c ∈ owned.ctxs, c.1 ≠ 0 ∧ c.2.state ≠ .free) ∧ bare.mapBusy = false) ∧
    (let m : MapReg := mget {} (staged (defaultRow 10) 1).maps 2
     ¬ ∀ i, i < 7 → m.row i = 2 ^ i) ∧
    (let m : MapReg := mget {} (staged 0 8).maps 2
     (∀ i, i < 7 → m.row i = 2 ^ i) ∧ (∀ i, i < 4 → m.row (26 + i) = 2 ^ (36 + i)) ∧ gfInvertible ((List.range 40).map m.row) = false) ∧
    (let m : MapReg := mget {} (staged (defaultRow 10) 8).maps 2
     (∀ i, i < 7 → m.row i = 2 ^ i) ∧ (∀ i, i < 4 → m.row (26 + i) = 2 ^ (36 + i)) ∧ gfInvertible ((List.range 40).map m.row) = true) ∧
    -- MEMCFG: out of its field, out of range, busy, the same, a change
    (8 ≤ (8#32).toNat ∧ 4 < (5#32).toNat ∧ (7#32).toNat < 8 ∧ (4#32).toNat ≤ 4 ∧ owned.mapBusy = true ∧ (1#32).toNat = bare.hres ∧ (4#32).toNat ≠ bare.hres) ∧
    -- sample and trace registers
    (4096 ≤ 4096 ∧ 4095 < 4096 ∧ (0x20000000#32).toNat / 2 ^ 29 ≠ 0 ∧ (0x04000001#32).toNat / 2 ^ 29 = 0 ∧ 4 ≤ (0x04000001#32).toNat / 2 ^ 24 % 32 ∧
      (0x14000000#32).toNat / 2 ^ 24 % 32 ≤ 20 ∧ ¬ (4 ≤ (0x03000001#32).toNat / 2 ^ 24 % 32) ∧ (0x03000001#32).toNat % 2 ^ 24 ≠ 0) ∧
    (64 ≤ (64#32).toNat ∧ (9#32).toNat < 64 ∧ (9#32).getLsbD 0 = true ∧ 4 ≤ (9#32).toNat / 2 % 32 ∧ (owned.ctx 1).trcEn = false ∧ Rising owned.blocks) ∧
    -- host accesses: out of memory; another host; no key; a key
    (quiet.usable < quiet.usable + 1 ∧ 0 + 8 ≤ quiet.usable ∧ (owned.island.st = 3 ∨ owned.island.st = 4)) ∧
    (let s := owned.onIsland fun i => { i with hmemctx := 0x8005#32 }
     (s.hostKey 0).isNone = true ∧ s.island.owner = some 0) ∧
    ((owned.hostKey 0).isSome = true ∧ [1#8] ≠ [] ∧ 127 % 128 + [1#8].length ≤ 128 ∧ owned.lineFull 127 = false) ∧
    (let s := { owned with lines := mset {} owned.lines (owned.da 0 / 128) { ctr := BitVec.ofNat 56 (2 ^ 56 - 1) } }
     s.lineFull 0 = true ∧ (s.hostKey 0).isSome = true) := by
  simp only [Rising]
  constructorm* _ ∧ _ <;> decide +kernel

/-! ## Commands -/

/-- The next command of host 0. -/
def cmd1 : Cmd := ⟨0, 1#32, 0#16⟩

/-- A create block for context 5 at PA 4096, its time slice and queue count. -/
def createBlock (tslice queues vesper : Nat) : List Byte :=
  leBytes 2 5 ++ [0#8, 1#8] ++ leBytes 4 tslice ++ leBytes 8 0x1000 ++ leBytes 32 77 ++ leBytes 8 0x5000 ++ [10#8, 4#8, BitVec.ofNat 8 queues, 0#8]
    ++ leBytes 4 vesper ++ leBytes 8 0x6000 ++ List.replicate 56 0#8
def creating (tslice queues vesper : Nat) : State := 
  { owned.asks 0 1 0x10 0 (leBytes 8 4096) with mem := wrBytes (owned.asks 0 1 0x10 0 (leBytes 8 4096)).mem (hostBase + 4096) (createBlock tslice queues vesper) }

theorem witness_CommandSteps_create :
    (∀ s ∈ [creating 9999 2 0, creating 10000 2 0, creating 10000 2 0x100001], NextCommand s cmd1 0x10 (isArg 0 8 4096)) ∧
    createOk (creating 9999 2 0).usable (rdBytes (creating 9999 2 0).mem (hostBase + 4096) 128) = false ∧
    (∀ s ∈ [creating 10000 2 0, creating 10000 2 0x100001], createOk s.usable (rdBytes s.mem (hostBase + 4096) 128) = true ∧ s.island.st = 3 ∧
      (s.ctx 5).state = .free) ∧
    ((creating 10000 2 0).shares + 0 ≤ 2 ^ 20 ∧ 2 ≤ ((List.range 256).filter fun h => ((creating 10000 2 0).queue h).bound.isNone).length) ∧
    ¬ (creating 10000 2 0x100001).shares + 0x100001 ≤ 2 ^ 20 ∧
    (((creating 10000 2 0).setCtx 5 { state := .defined }).ctx 5).state ≠ .free ∧
    -- from another host; out of order, below and above
    (owned.island.owner ≠ some 1 ∧ 0#32 ≠ owned.island.lastAccepted + 1 ∧ (0#32).toNat ≤ owned.island.lastAccepted.toNat ∧
      2#32 ≠ owned.island.lastAccepted + 1 ∧ ¬ (2#32).toNat ≤ owned.island.lastAccepted.toNat) := by
  simp only [List.forall_mem_cons, List.not_mem_nil, false_implies, implies_true, and_true]
  constructorm* _ ∧ _ <;> first | exact nextCommand_of (by decide +kernel) | decide +kernel

/-- Context 5 in a state. -/
def ctx5 (st : CtxState) : State := owned.setCtx 5 { state := st }

/-- A copy entry of the block has asked a peer for its first sector. -/
def engaged : State := owned.setCore 0 { owned.core 0 with ldq := [{ uid := 7, blk := 1, sent := true, at_ := some ⟨⟨1, 5, 0⟩, 0, 0, 12⟩ }] }

/-- The tables, keys and images that commands name, at PA 4096. -/
def table1 : DomainTable := { id := 4, own := 127, members := [(3, 9), (127, 8)] }
def image1 : FwImage := { version := 2, sig := List.replicate 96 0#8, body := [1#8] }
def laidOut (op : Nat) (args bs : List Byte) : State :=
  let s := owned.asks 0 1 op 0 args
  { s with mem := wrBytes s.mem (hostBase + 4096) bs }

/-- A record of each command stands in the ring of host 0. -/
theorem witness_CommandSteps_records :
    (∀ op ∈ [0x20, 0x31, 0x32, 3], Asked (owned.asks 0 1 op 0 []) 0 (some 1#32) op 0#16 (argNone owned)) ∧
    (∀ op ∈ [0x11, 0x12, 0x13, 0x14, 0x24], Asked (owned.asks 0 1 op 0 (leBytes 4 5)) 0 (some 1#32) op 0#16 (arg4 5 owned)) ∧
    NextCommand (owned.asks 0 1 0x21 0 []) cmd1 0x21 noArgs ∧
    NextCommand (owned.asks 0 1 0x15 0 (leBytes 8 0x2000 ++ leBytes 4 0x2001 ++ leBytes 4 0)) cmd1 0x15
      (fun x => isArg 0 8 (0x2000#64).toNat x && isArg 8 4 (0x2001#32).toNat x && isArg 12 4 (0#32).toNat x) ∧
    Asked (owned.asks 0 0 0x04 0 []) 0 none 0x04 0#16 noArgs ∧ Asked (owned.asks 0 0 0x04 1 []) 0 none 0x04 1#16 noArgs ∧
    Asked (owned.asks 0 0 0x05 0 (leBytes 4 1 ++ leBytes 4 2 ++ leBytes 8 4096)) 0 none 0x05 0#16
      (fun x => isArg 0 4 1 x && isArg 4 4 2 x && isArg 8 8 4096 x) ∧
    (let s := laidOut 0x22 (leBytes 8 4096 ++ leBytes 4 (domainBytes table1).length) (domainBytes table1)
     Asked s 0 (some 1#32) 0x22 0#16 (s.namesBytes 0 (domainBytes table1))) ∧
    (let s := laidOut 0x23 (leBytes 8 1 ++ leBytes 8 4096) (leBytes 32 77)
     Asked s 0 (some 1#32) 0x23 0#16 fun x => isArg 0 4 1 x && rdBytes s.mem (hostBase + argNat x 8 8) 32 == leBytes 32 (77#256).toNat) ∧
    (let s := laidOut 0x30 (leBytes 8 4096 ++ leBytes 4 (imageBytes image1).length) (imageBytes image1)
     Asked s 0 (some 1#32) 0x30 0#16 fun x => decide (image1.sig.length = 96) && s.namesBytes 0 (imageBytes image1) x) := by
  simp only [List.forall_mem_cons, List.not_mem_nil, false_implies, implies_true, and_true]
  constructorm* _ ∧ _ <;> first | exact asked_of (by decide +kernel) | exact nextCommand_of (by decide +kernel)

theorem witness_CommandSteps_contexts :
    -- STATUS, READ_EVENTS
    (owned.island.st ≠ 0 ∧ 0 < 8 ∧ 8 ≤ 8 ∧ owned.tlbCmd.isNone = true ∧ (⟨0, 0#16⟩ : Sender).zero = 0#16 ∧ (⟨0, 1#16⟩ : Sender).zero ≠ 0#16) ∧
    (0 < owned.logNext - (owned.log.drop (owned.log.length - (owned.logNext - 1))).length ∧
      owned.logNext - (owned.log.drop (owned.log.length - (owned.logNext - 1))).length ≤ 1) ∧
    -- states for each answer
    (4096 ≤ 4096 ∧ 5 < 4096 ∧ ((ctx5 .defined).ctx 5).state = .defined ∧ ((ctx5 .stopped).ctx 5).state = .stopped ∧
      ((ctx5 .free).ctx 5).state = .free ∧ ((ctx5 .killing).ctx 5).state = .killing ∧ (owned.ctx 1).state = .resident) ∧
    (∃ x ∈ owned.blocks, x.2.live = true ∧ x.2.core.isSome = true ∧ x.2.ctx = 1) ∧ (∀ x ∈ (ctx5 .stopped).blocks, x.2.ctx ≠ 5) ∧
    -- a context that has no records, and one with a kernel
    (∀ i, i < 16 → ∀ h, owned.queueOf 1 i = some h → (owned.queue h).tail = (owned.queue h).head ∧ (owned.queue h).popped = 0) ∧ (owned.ctx 1).owed = [] ∧
    (Rising owned.kernels ∧ (owned.kernel 1).ctx = 1 ∧ (owned.kernel 1).state = .running) ∧
    -- TLB_INVAL: not joined, bad, without context, good
    (owned.island.st = 3 ∧ 3 < (0x4000#32).toNat / 2 ^ 12 % 8 ∧ (0x8000#32).toNat / 2 ^ 15 ≠ 0 ∧ ((ctx5 .free).ctx 5).state = .free ∧
      (0x2001#32).toNat / 2 ^ 12 % 8 = 2 ∧ (0x2001#32).toNat % 2 ^ 12 = 1 ∧ (owned.ctx 1).state ≠ .free ∧ owned.pend = [] ∧ owned.engOpen = []) ∧
    -- (one that an engine's access keeps under way; one under way that waits for nothing any more)
    (∃ x ∈ engaged.engOpen, x.2.2.1 = 1) ∧ (let s := { owned with tlbCmd := some ⟨cmd1, 0#64, 0x2001#32, [(9, 0)]⟩ }
     s.tlbOpen [(9, 0)] = false ∧ engaged.tlbOpen [(7, 1)] = true) ∧
    -- resets, from forward, and refused in boot
    ((owned.onIsland fun i => { i with st := 2 }).island.st ≠ 1 ∧ (owned.onIsland fun i => { i with st := 2 }).island.st ≤ 4 ∧
      (owned.onIsland fun i => { i with st := 1 }).island.st = 1) ∧
    -- domain tables
    (let d := table1
     ¬ (128 ≤ d.own ∨ ∃ m ∈ d.members, 128 ≤ m.1) ∧ (d.members.map (·.1)).Nodup ∧ (3, 9) ∈ d.members ∧ ∀ m ∈ d.members, m.1 ≠ 4) ∧ 128 ≤ 128 ∧
    -- retests
    ((owned.onIsland fun i => { i with quarantine := 2#16 }).island.quarantine.getLsbD 1 = true ∧ 1 < 16 ∧ owned.island.quarantine.getLsbD 1 = false) ∧
    -- streams; images
    (2 ≤ 2 ∧ 1 < 2) ∧ (owned.island.rollback ≤ 0 ∧ ¬ (owned.onIsland fun i => { i with rollback := 2 }).island.rollback ≤ 1) ∧
    ((owned.onIsland fun i => { i with bankB := { version := none } }).island.bankB.version = none ∧ owned.island.bankB.version = some 0 ∧
      owned.island.rollback ≤ 0 ∧ 0 < (owned.onIsland fun i => { i with rollback := 2 }).island.rollback) ∧
    ¬ (3 ∈ [0x01, 0x02, 0x04, 0x05, 0x10, 0x11, 0x12, 0x13, 0x14, 0x15, 0x20, 0x21, 0x22, 0x23, 0x24, 0x30, 0x31, 0x32]) := by
  simp only [Rising]
  constructorm* _ ∧ _ <;> decide +kernel

/-! ## The island -/

/-- A part record whose exposure maps all have 128 bits, and one in which a map has 127. -/
def partRecord (last : Byte) : List Byte :=
  List.replicate 32 0#8 ++ (List.replicate 3 (List.replicate 16 0xFF#8 ++ [0#8])).flatten ++ List.replicate 15 0xFF#8 ++ [last, 0#8] ++ List.replicate 16 0#8
def islandIs (f : Island → Island) : State := quiet.onIsland f

/-- Members 0 (the device) and 5. -/
def domain2 (live : Bool) (skewed : Option Nat) : State :=
  { quiet with members := [(0, { member := true, live := true }), (5, { member := true, live := live, inc := 3#8, skewed := skewed })], tick := 1000000 }

/-- Every port has trained. -/
def trained (s : State) : State := (List.range 16).foldl (fun s n => s.setPort n { lanes := 8, training := none }) s

theorem witness_IslandSteps :
    ((islandIs fun i => { i with st := 0 }).island.st = 0 ∧ quiet.island.st ≠ 0 ∧ (islandIs fun i => { i with st := 0 }).island.owner = none) ∧
    (∀ d, d < 4 → ((((partRecord 0xFF#8).drop (32 + 17 * d)).take 17).map fun b => (List.range 8).countP fun i => b.getLsbD i).sum = 128) ∧
    (∀ b ∈ ((partRecord 0xFF#8).drop 102).take 26, b = 0#8) ∧
    (((((partRecord 0x7F#8).drop (32 + 17 * 3)).take 17).map fun b => (List.range 8).countP fun i => b.getLsbD i).sum = 127) ∧
    -- boot: verified; not, for the second and the third time
    ((islandIs fun i => { i with st := 1 }).island.st = 1 ∧ (islandIs fun i => { i with st := 1 }).island.partOk = true ∧
      (islandIs fun i => { i with st := 1 }).island.rollback ≤ (islandIs fun i => { i with st := 1 }).island.bankA.version.getD 0 ∧
      ¬ (islandIs fun i => { i with st := 1, rollback := 1 }).island.rollback ≤ (islandIs fun i => { i with st := 1 }).island.bankA.version.getD 0 ∧
      (islandIs fun i => { i with st := 1, bankA := { failed := 1 } }).island.bankA.failed < 2 ∧
      2 ≤ (islandIs fun i => { i with st := 1, bankA := { failed := 2 } }).island.bankA.failed ∧
      (islandIs fun i => { i with st := 1 }).island.bank = false ∧ (islandIs fun i => { i with st := 1, unverified := true }).island.unverified = true ∧
      -- ports that train, and that have trained
      ((islandIs fun i => { i with st := 1 }).port 15).training = some 0 ∧
      (let s := trained (islandIs fun i => { i with st := 1 })
       s.island.unverified = false ∧ (∀ n, n < 16 → (s.port n).training = none) ∧ ∀ m ∈ s.members, m.2.member = true → m.2.skewed = none)) ∧
    ((islandIs fun i => { i with st := 2 }).island.st = 2 ∧ (islandIs fun i => { i with st := 2 }).island.mapsOk = true ∧
      (islandIs fun i => { i with st := 2, exposure := [] }).island.mapsOk = false ∧ (islandIs fun i => { i with st := 2, duskDue := true }).island.duskDue = true) ∧
    (let s := { quiet with tick := 10000000 }
     s.island.st = 3 ∧ 3 < 4 ∧ s.stopped = false ∧ mget 0 s.island.beats 3 + 10000000 ≤ s.tick) ∧ ¬ mget 0 quiet.island.beats 3 + 10000000 ≤ 9999999 ∧
    ((islandIs fun i => { i with st := 4 }).island.st = 4) ∧
    (let s := { islandIs (fun i => { i with st := 4, drainTick := 5 }) with tick := 1000004, past := [(0x42000, [0#64])] }
     s.tick < s.island.drainTick + 1000000 ∧ ¬ { s with tick := 1000005 }.tick < s.island.drainTick + 1000000 ∧ ∀ x ∈ s.past, x.1 ≠ 0x210008 / 8) ∧
    -- members
    (∀ s ∈ [domain2 true none, domain2 true (some 0)], let m : Member := mget {} s.members 5
      m.member = true ∧ m.live = true ∧ 5 ≠ s.device ∧ m.inc = 3#8 ∧ m.inc ≠ 4#8) ∧
    -- heard of within 1 ms, and not; no port for 1 ms
    ({ domain2 true none with tick := 999999 } : State).tick < (mget {} (domain2 true none).members 5 : Member).seen + 1000000 ∧
    (let s := domain2 true none
     (mget {} s.members 5 : Member).seen + 1000000 ≤ s.tick ∧
      ∀ n, n < 16 → (s.port n).up = false ∧ (s.port n).training.getD (s.port n).downAt + 1000000 ≤ s.tick) ∧
    (5 * 4 + 1) / 4 = 5 ∧ (mget {} (domain2 false none).members 5 : Member).live = false ∧
    ((mget {} (domain2 true (some 0)).members 5 : Member).skewed = some 0 ∧ 0 + 1000000 ≤ (domain2 true (some 0)).tick ∧
      (mget {} (domain2 true (some 1)).members 5 : Member).skewed = some 1 ∧ (domain2 true (some 1)).tick < 1 + 1000000) ∧
    (let s := { domain2 true none with acts := [{ handle := 5, ctx := 1, members := [5] }, { handle := 6, ctx := 1, st := .abandoning }
      , { handle := 7, ctx := 1, holder := 5, members := [5, 9, 0] }] }
     (s.acts.map fun a => (a.ctx, a.handle)).Nodup ∧ 5 ≠ s.device ∧ (∃ a ∈ s.acts, a.holder = s.device ∧ 5 ∈ s.joined a ∧ a.st = .opened) ∧
      (∃ a ∈ s.acts, a.holder = s.device ∧ 5 ∉ s.joined a) ∧
      ∃ a ∈ s.acts, a.holder = 5 ∧ 0 ∈ a.members ∧ 0 ≠ 5 ∧ ∀ k ∈ a.members, k ≠ 5 → 0 ≤ k) ∧
    (3 < 4 ∧ 4 ≤ 4 ∧ 16 ≤ 16 ∧ ¬ 4 ≤ 3) := by
  simp only [List.forall_mem_cons, List.not_mem_nil, false_implies, implies_true, and_true]
  constructorm* _ ∧ _ <;> decide +kernel

/-! ## Links and packets -/

/-- Port 2 trained with 8 lanes. -/
def linked (f : Port → Port) : State := quiet.setPort 2 (f { lanes := 8, training := none, expect := 5 })
def block2 (seq : Nat) (nak : Bool) : LinkBlock := mkBlock [] seq (some 3) nak [1]

/-- A packet of device 5 for this one, the next of its path. -/
def packet (kind : Nat) (spec data : List Byte) : Packet :=
  { kind := kind, vc := 0, path := 1, cls := 0, esc := false, dst := 0, src := 5, inc := 0#8, seq := 0, off := 0x210000, tag := 9, ctx := 1
    spec := (spec ++ List.replicate 10 0#8).take 10, data := padFlits data, zeros := true }
/-- An enable mask or operation word, with flags. -/
def enabled (w flags : Nat) : List Byte := leBytes 4 w ++ leBytes 1 flags
def reqs : List Packet := [packet 0 (enabled 0xFF 0) [1#8], packet 0 (enabled 0xFF 8) [1#8], packet 1 (enabled 0xFF 4) [1#8],
  packet 2 (enabled 0x60000 0) [1#8], packet 3 (enabled 0 4) (List.replicate 40 0#8)]

/-- An operation that a peer was asked for. -/
def asked1 (kind : PKind) (dest : List RegKey) (atom : Option AtomSpec) : Pend :=
  { uid := 9, iid := 9, ctx := 1, blk := 1, kind := kind, dest := dest, sent := true, atom := atom }
def askedState (p : Pend) : State := { quiet with pend := [p] }

theorem witness_LinkAndPacketSteps_ports :
    -- flits and packets
    ((packet 1 (enabled 0xFF 4) [1#8]).held = true ∧ (packet 1 (enabled 0xFF 4) [1#8]).src ≠ (packet 1 (enabled 0xFF 4) [1#8]).dst) ∧
    (∀ f ∈ [List.replicate 32 1#8], f.length = 32) ∧
    -- link blocks: not trained; bad; the expected one; a repeat; one too far ahead; with and without an acknowledgement
    ((quiet.port 2).up = false ∧ 16 ≤ 16 ∧ ((linked id).port 2).up = true ∧ 2 < 16 ∧ (⟨[], []⟩ : LinkBlock).good = false) ∧
    (∀ n ∈ [4, 5, 6], ∀ b ∈ [false, true], (block2 n b).good = true) ∧ (block2 5 false).seq = ((linked id).port 2).expect ∧
    ((block2 4 false).seq ≠ 5 ∧ (((linked id).port 2).expect + 4096 - (block2 4 false).seq) % 4096 ≤ 1024) ∧
    1024 < (((linked id).port 2).expect + 4096 - (block2 6 false).seq) % 4096 ∧ (block2 5 true).valid = true ∧ (block2 5 true).nak = true ∧
    (mkBlock [] 5 none false []).good = true ∧ (mkBlock [] 5 none false []).valid = false ∧
    -- retraining at 16 naks, and not at 15; ports that go down
    (let p := (linked fun p => { p with naks := 16 }).port 2
     p.lanes ≠ 0 ∧ p.down = false ∧ p.training = none ∧ 16 ≤ p.naks) ∧
    (let s := linked fun p => { p with naks := 15 }
     ¬ (16 ≤ (s.port 2).naks ∨ (s.port 2).ackTick + 10000 ≤ s.tick)) ∧
    (let s := { linked (fun p => { p with training := some 0 }) with tick := 10000000 }
     (s.port 2).training = some 0 ∧ 0 + 10000000 ≤ s.tick ∧ (s.port 2).down = false) ∧
    -- a channel that has held a packet for 4 µs, and for less
    (let s := { linked (fun p => { p with queue := [packet 0 [] []], since := [(0, 1)] }) with tick := 4000 }
     2 < 16 ∧ 0 < 7 ∧ (∃ q ∈ (s.port 2).queue, q.vc = 0) ∧ mget 0 (s.port 2).since 0 = 1 ∧ 1 - 1 + 4000 ≤ s.tick ∧ ¬ 1 - 1 + 4000 ≤ 3999) := by
  simp only [List.forall_mem_cons, List.not_mem_nil, false_implies, implies_true, and_true]
  constructorm* _ ∧ _ <;> first | exact mkBlock_good rfl (by decide) | decide +kernel

theorem witness_LinkAndPacketSteps_arrivals :
    -- no power; transit; a repeat; an early one; the next
    ((islandIs fun i => { i with st := 0 }).island.st = 0 ∧ (packet 0 [] []).vc ≠ 6 ∧ (packet 0 [] []).dst = quiet.device ∧ quiet.island.st ≠ 0 ∧
      (∀ p ∈ reqs, p.held = true) ∧ (packet 0 [] []).held = true ∧ ({ packet 0 [] [] with tag := 2 ^ 32 } : Packet).held = false ∧
      ({ packet 0 [] [] with dst := 7 } : Packet).dst ≠ quiet.device ∧ (0 + 65536 - 61440) % 65536 ≤ 4096 ∧ 4096 < (0 + 65536 - 1) % 65536 ∧
      (packet 0 [] []).seq = mget 0 quiet.e2eIn (5 * 4 + 1)) ∧
    -- packets that wait: for the dies, for an earlier one of their line; and that do not; one that waits already
    (waiting { quiet with resumeTick := 1 } (packet 0 [] []) ∧ waiting { quiet with rx := [packet 1 [] []] } { packet 0 [] [] with seq := 1 } ∧
      (∀ p ∈ reqs, ¬ waiting quiet p) ∧
      (let s := { quiet with rx := [packet 0 [] []], e2eIn := [(21, 1)] }
       ¬ waiting s (packet 0 [] []) ∧ packet 0 [] [] ∈ s.rx ∧ (packet 0 [] []).seq ≠ 1 ∧ (1 + 65536 - (packet 0 [] []).seq) % 65536 ≤ 4096) ∧
      packet 0 [] [] ∉ quiet.rx) ∧
    -- requests that are served and ready
    ((quiet.island.st = 3 ∨ quiet.island.st = 4) ∧ (packet 0 [] []).inc = quiet.island.inc ∧ quiet.writeReady ⟨0, 0, 0x210000⟩ false false = true ∧
      ({ packet 0 [] [] with inc := 1#8 } : Packet).inc ≠ quiet.island.inc) ∧
    (reqs.map fun p => (p.kind, pktFlag p 3, pktFlag p 2)) = [(0, false, false), (0, true, false), (1, false, true), (2, false, false), (3, false, true)] ∧
    (reqs.all fun p => decide (p.off % 128 + 32 ≤ 128) && !pktHist p && decide (1 < p.kind ∨ pktSize p = 8)) = true ∧
    (∀ p ∈ reqs, p.off % 128 + (pktBody p (pktSize p)).length ≤ 128) ∧ (pktBody (packet 3 (enabled 0 4) (List.replicate 40 0#8)) 32).length = 32 ∧
    ((AtomSpec.ofWord (BitVec.ofNat 32 (leNat ((enabled 0x60000 0).take 4)))).isSome = true ∧ (AtomSpec.ofWord 0xFFFFFFFF#32).isNone = true) ∧
    ((5, 9, 0x210000) ∉ quiet.receipts ∧ (5, 9, 0x210000) ∈ ({ quiet with receipts := [(5, 9, 0x210000)] } : State).receipts) ∧
    ((quiet.asofLocal (quiet.keyOf 1) 0x210000 8 0).isSome = true ∧
      (({ quiet with slices := (List.range 128).map fun n => (n, { dusk := 5 }) } : State).asofLocal (quiet.keyOf 1) 0x210000 8 0).isNone = true) := by
  simp only [waiting, served]
  constructorm* _ ∧ _ <;> decide +kernel

theorem witness_LinkAndPacketSteps_answers :
    -- operations that wait for an answer, and flags
    (∀ p ∈ [asked1 .load [.v 0 1] none, asked1 .asof [.v 0 1] none, asked1 .store [] none, asked1 .atomic [] none
        , asked1 .atomic [.v 0 1] (AtomSpec.ofWord 0x60000#32)], AskedOp (askedState p) 9 p) ∧
    (bitOf 4 2 = true ∧ bitOf 0 2 = false ∧ bitOf 2 1 = true) ∧
    (let o := { asked1 .store [] none with markers := some [(5, 1)] }
     o ∈ (askedState o).pend ∧ o.uid % 2 ^ 32 = 9 ∧ 9 % 2 ^ 32 ≠ 8 ∧ ∃ m ∈ o.markers.getD [], m.1 = (packet 7 [2#8, 1#8] []).src) ∧
    -- acknowledgements
    (let s := { quiet with e2eIn := [(21, 1)] }
     1 ≤ mget 0 s.e2eIn (5 * 4 + 1) ∧ mget 0 s.e2eIn (5 * 4 + 1) < 65536) ∧
    -- management: what each first byte names
    ((List.range 8).map fun i => Management.of (packet 9 [BitVec.ofNat 8 i, 4#8] [7#8])) =
      [some .down, some (.up none), some (.up (some 4#8)), some (.dusk 7#64), some (.pin 7#64), some (.unpin 7#64), some (.tickSync 7#64), none] ∧
    ((mget {} (domain2 true none).members 5 : Member).live = true ∧ (mget {} (domain2 true none).members 5 : Member).inc = 3#8 ∧ (3#8 : Byte) ≠ 4#8) ∧
    -- ticks of members
    (¬ (quiet.tick + 8 < 8 ∨ 8 + 8 < quiet.tick) ∧ quiet.tick + 8 < 9 ∧ (mget {} (domain2 true none).members 5 : Member).member = true ∧
      (mget {} quiet.members 5 : Member).member = false) ∧
    -- illegal packets
    (9 < (packet 10 [] []).kind ∧ (packet 9 [] []).kind ≤ 9 ∧ (packet 9 [] []).zeros = true ∧ ({ packet 3 [] [] with zeros := false } : Packet).zeros = false ∧
      ({ packet 3 [] [] with vc := 6 } : Packet).vc = 6) := by
  simp only [List.forall_mem_cons, List.not_mem_nil, false_implies, implies_true, and_true]
  constructorm* _ ∧ _ <;> first | exact askedOp_of (by decide +kernel) | decide +kernel

end Sys2Proof.Machine
end

