-- ==== Sys2Proof/Tests/WitnessMem.lean ====
section
/-! SUPPORT. Witnesses, third part: states that meet the premises of the statements about memory: what issues put in flight, and how
operations return, perform and fault. -/

namespace Sys2Proof.Machine

set_option Elab.async false

theorem skew_bounds (u : Nat) : -8 ≤ Config.skew u ∧ Config.skew u ≤ 8 := by unfold Config.skew; omega

/-! ## Issues -/

abbrev ldUse (w : Sys2Proof.Width) : Uses := { vsrc := [(2#7, 2)], vdst := some (4#7, Width.regs w) }
abbrev stUse (w : Sys2Proof.Width) : Uses := { vsrc := [(4#7, Width.regs w), (2#7, 2)] }
abbrev laneOwn (w : Sys2Proof.Width) : Own := alignOwn cur1 (fun L => vPair base cur1 L 2#7) (Width.bytes w)
abbrev uniOwn (w : Sys2Proof.Width) : Own := alignOwn cur1 (fun _ => kPair base cur1 2#7) (Width.bytes w)
abbrev idxOwn : Own := alignOwn cur1 (fun L => (kPair base cur1 2#7 + (vWord base cur1 L (6#7).toNat).toNat) % 2 ^ 64) 4

theorem witness_GlobalAccesses :
    (Issues (ldUse .b128) (laneOwn .b128) ∧ Delivered .access true (ldUse .b128) (laneOwn .b128) base cur1) ∧
    (Issues (stUse .b128) (laneOwn .b128) ∧ Delivered .full true (stUse .b128) (laneOwn .b128) base cur1 ∧
      Delivered .none false (stUse .b128) (laneOwn .b128) base cur1) ∧
    (let u : Uses := { vsrc := [(4#7, 1), (6#7, 1)], ksrc := [(2#7, 2)] }
     Issues u idxOwn ∧ Delivered .none false u idxOwn base cur1) ∧
    (Issues { ksrc := [(2#7, 2)] } (uniOwn .b128) ∧ Delivered .access true { ksrc := [(2#7, 2)] } (uniOwn .b128) base cur1) ∧
    (let u : Uses := { ksrc := [(2#7, 2), (4#7, Width.regs .b128)] }
     Issues u (uniOwn .b128) ∧ Delivered .full true u (uniOwn .b128) base cur1) := by
  constructorm* _ ∧ _ <;> first | exact issuing_of (by decide +kernel) | exact delivered_of (by decide +kernel)

/-- At tick 0 nothing above 0 is settled, whatever the skew of the core. -/
theorem settled_zero {s : State} (ht : s.tick = 0) (core : Nat) : s.settled core = 0 := by
  have h := (skew_bounds (128 + core)).2
  have : s.coreNow core < 32 := by
    unfold State.coreNow State.tickAt
    rw [ht]
    omega
  unfold State.settled
  rw [if_pos this]

/-- The stamp operand is 0, or 1. -/
def asofState (S : Word) : State := base.put [(.k 6, S)]
abbrev asUse : Uses := { vsrc := [(2#7, 2)], vdst := some (4#7, Width.regs .b64), ksrc := [(6#7, 2)] }
abbrev asOwn (S : Word) : Own := alignOwn cur1 (fun L => vPair (asofState S) cur1 L 2#7) (Width.bytes .b64)

theorem witness_ReuseLoads : isPort 4#7 = false ∧
    (Issues (ldUse .b64) (laneOwn .b64) ∧ Delivered .access true (ldUse .b64) (laneOwn .b64) base cur1) ∧
    (let u : Uses := { vsrc := [(6#7, 1)], vdst := some (4#7, 1), ksrc := [(2#7, 2)] }
     Issues u idxOwn ∧ Delivered .access false u idxOwn base cur1) ∧
    (((11#4).toNat < 12 ∨ (11#4).toNat = 15) ∧ ((15#4).toNat < 12 ∨ (15#4).toNat = 15)) ∧
    (∀ S ∈ [0#32, 1#32], Issuing asUse (asOwn S) (asofState S) cur1 ∧ Delivered .access false asUse (asOwn S) (asofState S) cur1) ∧
    kPair (asofState 0#32) cur1 6#7 ≤ (asofState 0#32).settled 0 ∧ (asofState 1#32).settled 0 < kPair (asofState 1#32) cur1 6#7 := by
  have h0 : kPair (asofState 0#32) cur1 6#7 = 0 := by decide +kernel
  have h1 : kPair (asofState 1#32) cur1 6#7 = 1 := by decide +kernel
  rw [h0, h1, settled_zero (by decide +kernel), settled_zero (by decide +kernel), List.forall_mem_cons, List.forall_mem_singleton]
  constructorm* _ ∧ _ <;> first | exact issuing_of (by decide +kernel) | exact delivered_of (by decide +kernel) | decide +kernel

/-- Lane addresses at the end of block memory and of the pocket. -/
def atEnd (a : Word) : State := base.put ((List.range 4).map fun L => (.v L 2, a))

theorem witness_BlockAndPocketAccesses :
    (let u : Uses := { vsrc := [(2#7, 1)], vdst := some (4#7, Width.regs .b128) }
     let own := bmOwn (atEnd 4080#32) cur1 (fun L => (vWord (atEnd 4080#32) cur1 L (2#7).toNat).toNat) (Width.bytes .b128)
     Issuing u own (atEnd 4080#32) cur1 ∧ Delivered .none false u own (atEnd 4080#32) cur1) ∧
    (let u : Uses := { vsrc := [(4#7, Width.regs .b128), (2#7, 1)] }
     let own := bmOwn (atEnd 4080#32) cur1 (fun L => (vWord (atEnd 4080#32) cur1 L (2#7).toNat).toNat) (Width.bytes .b128)
     Issuing u own (atEnd 4080#32) cur1 ∧ Delivered .none false u own (atEnd 4080#32) cur1) ∧
    (let u : Uses := { vsrc := [(2#7, 1)], vdst := some (4#7, Width.regs .b128) }
     isPort 4#7 = false ∧ Issuing u (pocketOwn cur1 (fun L => (vWord (atEnd 240#32) cur1 L (2#7).toNat).toNat) (Width.bytes .b128)) (atEnd 240#32) cur1) ∧
    Issuing { vsrc := [(4#7, Width.regs .b128), (2#7, 1)] }
      (pocketOwn cur1 (fun L => (vWord (atEnd 240#32) cur1 L (2#7).toNat).toNat) (Width.bytes .b128)) (atEnd 240#32) cur1 := by
  constructorm* _ ∧ _ <;> first | exact issuing_of (by decide +kernel) | exact delivered_of (by decide +kernel) | decide +kernel

/-- An atomic that returns, one that does not and releases. -/
abbrev addSpec : AtomSpec := ⟨.add, .s32, .un, .acq, .dev, false⟩
abbrev redSpec : AtomSpec := ⟨.add, .s64, .un, .rel, .blk, true⟩

theorem witness_Atomics : isPort 4#7 = false ∧ isPort 6#7 = false ∧ addSpec.noret = false ∧
    (∀ sp ∈ [addSpec, redSpec],
      (let own := alignOwn cur1 (fun L => vPair base cur1 L 2#7) (atomBytes sp.ty)
       Issues (atomUses sp 4#7 2#7 6#7 2) own ∧ Delivered (if (atomRel sp).isSome then .full else .access) true (atomUses sp 4#7 2#7 6#7 2) own base cur1) ∧
      (let own := bmOwn base cur1 (fun L => (vWord base cur1 L (2#7).toNat).toNat) (atomBytes sp.ty)
       Issues (atomUses sp 4#7 2#7 6#7 1) own ∧ Delivered (if (atomRel sp).isSome then .full else .none) true (atomUses sp 4#7 2#7 6#7 1) own base cur1)) := by
  rw [List.forall_mem_cons, List.forall_mem_singleton]
  constructorm* _ ∧ _ <;> first | exact issuing_of (by decide +kernel) | exact delivered_of (by decide +kernel) | decide +kernel

theorem witness_Fences : Issues {} noOwn ∧ Delivered .full true {} noOwn base cur1 ∧ FenceKind.sc ≠ .rel ∧ Scope.blk ≠ .grp := by
  constructorm* _ ∧ _ <;> first | exact issuing_of (by decide +kernel) | exact delivered_of (by decide +kernel) | decide +kernel

/-- The stamp to pin, the dusk of slice 0 and the handles that are taken. -/
def pinState (S : Word) (dusk n : Nat) : State :=
  (({ base with slices := if dusk = 0 then [] else (List.range 128).map fun k => (k, { dusk := dusk }) } : State).onCtx fun x =>
    { x with pins := (List.range n).map fun h => (h, ({ used := true, stamp := 9, activity := decide (h = 1) } : Pin)) }).put [(.k 2, S)]

theorem witness_StampClass : Issues {} noOwn ∧
    (Issuing { ksrc := [(2#7, 2)] } noOwn (pinState 4#32 5 0) cur1 ∧ kPair (pinState 4#32 5 0) cur1 2#7 < (pinState 4#32 5 0).dusk) ∧
    (Issuing { ksrc := [(2#7, 2)] } noOwn (pinState 5#32 5 64) cur1 ∧ (pinState 5#32 5 64).dusk ≤ kPair (pinState 5#32 5 64) cur1 2#7 ∧
      ∀ h, h < 64 → (mget {} ((pinState 5#32 5 64).ctx 1).pins h : Pin).used = true) ∧
    (Issuing { ksrc := [(2#7, 2)] } noOwn (pinState 5#32 5 63) cur1 ∧ (pinState 5#32 5 63).dusk ≤ kPair (pinState 5#32 5 63) cur1 2#7 ∧
      (mget {} ((pinState 5#32 5 63).ctx 1).pins 63 : Pin).used = false ∧
      (∀ k, k < 63 → ¬ (mget {} ((pinState 5#32 5 63).ctx 1).pins k : Pin).used = false) ∧ (pinState 5#32 5 63).expired 5 = false) ∧
    -- hunpin: a handle out of range, a free one, an activity's; one that is held
    (∀ h ∈ [64#32, 63#32, 1#32], Issuing { ksrc := [(2#7, 1)] } noOwn (pinState h 0 63) cur1 ∧
      let x := (kOpnd (pinState h 0 63) cur1 2#7).toNat
      let p : Pin := mget {} ((pinState h 0 63).ctx 1).pins x
      64 ≤ x ∨ p.used = false ∨ p.activity = true) ∧
    (Issuing { ksrc := [(2#7, 1)] } noOwn (pinState 62#32 0 63) cur1 ∧
      let x := (kOpnd (pinState 62#32 0 63) cur1 2#7).toNat
      let p : Pin := mget {} ((pinState 62#32 0 63).ctx 1).pins x
      x < 64 ∧ p.used = true ∧ p.activity = false) := by
  rw [List.forall_mem_cons, List.forall_mem_cons, List.forall_mem_singleton]
  constructorm* _ ∧ _ <;> first | exact issuing_of (by decide +kernel) | decide +kernel

/-! ## Operations in flight -/

/-- A machine with one operation in flight, of lane 0. -/
def flight (p : Pend) : State := { base with cur := none, pend := [p], fresh := 100 }
def op0 : Pend := { uid := 50, iid := 40, blk := 1, grp := 0, lanes := [0], ctx := 1, size := 4, addr := 0x200000, dest := [.v 0 4], pc := 0x100000 }
/-- Translated: to local memory, to host memory. -/
def here : Pend := { op0 with phys := some ⟨0, 0, 0x200000⟩ }
def hosted : Pend := { op0 with phys := some ⟨2, 0, 0x40⟩ }

theorem witness_LoadSteps :
    -- translation: an address that maps, one that does not, one beyond the address space
    ((flight op0).op? 50 = some op0 ∧ op0.bm = false ∧ op0.access = true ∧ op0.done = false ∧ op0.phys = none ∧ op0.fault = none ∧
      (older (flight op0).pend op0.uid) = [] ∧ (flight op0).records 1 0 < 16 ∧
      okB ((flight op0).translate 0 1 0x200000 .load false).1 (fun x => x.phys.target == 0) = true) ∧
    -- L1 holds the line
    (let s := (flight op0).setCore 0 { (flight op0).core 0 with l1 := [((flight op0).da 0x200000 / 128, 1)] }
     s.op? 50 = some op0 ∧ okB (s.translate 0 1 0x200000 .load true).1 (fun x => x.phys.target == 0) = true ∧
     mget 0 (s.core (s.coreOf op0)).l1 (s.da 0x200000 / 128) ≠ 0 ∧ s.nowOf op0.blk < op0.cycle + 60) ∧
    (okB ((flight op0).translate 0 1 0x40000000 .load false).1 (fun _ => true) = false ∧ op0.helper = false) ∧ 2 ^ 57 ≤ 2 ^ 57 ∧
    -- returns
    (∀ p ∈ [{ op0 with bm := true, addr := 16 }, here, hosted], LoneOp (flight p) 50 p ∧ p.kind = .load ∧ p.fe = false) ∧
    (let p : Pend := { op0 with bm := true, addr := 16, fe := true, clr := true }
     LoneOp (flight p) 50 p ∧ p.kind = .load ∧ mget false ((flight p).blk 1).full 1 = false ∧
     LoneOp ((flight p).onBlk fun b => { b with full := [(1, true)] }) 50 p ∧
     mget false (((flight p).onBlk fun b => { b with full := [(1, true)] }).blk 1).full (p.addr / 16) = true) ∧
    -- as-of loads: older than the dusk; whose version was found
    (let p : Pend := { here with kind := .asof, asofS := 4, status := some (.p 0 11), walked := some (false, 0) }
     LoneOp (flight p) 50 p ∧ p.kind = .asof ∧ p.phys = some ⟨0, 0, 0x200000⟩ ∧ p.walked = some (false, 0) ∧ p.helper = false ∧
     p.asofS < (((flight p).setSlice ((flight p).home 0x200000) { dusk := 5 }).slice ((flight p).home 0x200000)).dusk ∧
     ((flight p).asofLocal ((flight p).keyOf 1) 0x200000 4 4).isSome = true ∧ p.status = some (.p 0 11)) := by
  rw [List.forall_mem_cons, List.forall_mem_cons, List.forall_mem_singleton]
  constructorm* _ ∧ _ <;> first | exact loneOp_of (by decide +kernel) | decide +kernel

/-- A store and an atomic of those places. -/
def storing (p : Pend) : Pend := { p with kind := .store, data := [1#8, 2#8, 3#8, 4#8], dest := [] }
def adding (p : Pend) (dest : List RegKey) : Pend := { p with kind := .atomic, data := leBytes 4 5, dest := dest, atom := some addSpec }

theorem witness_WriteSteps :
    (∀ p ∈ [storing { op0 with bm := true, addr := 16 }, storing { op0 with bm := true, addr := 16, fe := true }],
      LoneOp (flight p) 50 p ∧ p.kind = .store ∧ p.bm = true ∧ ((flight p).blk 1).objs = []) ∧
    -- to local memory, at the end of a line, without and with history
    (∀ p ∈ [storing { here with phys := some ⟨0, 0, 0x20007C⟩ }, storing { here with phys := some ⟨0, 0, 0x20007C⟩, hist := true }],
      LoneOp (flight p) 50 p ∧ p.kind = .store ∧ p.bm = false ∧ p.phys = some ⟨0, 0, 0x20007C⟩ ∧
      (flight p).writeReady ⟨0, 0, 0x20007C⟩ p.hist p.migr = true ∧ p.rel = none ∧ 0x20007C % 128 + p.data.length ≤ 128 ∧
      (flight p).ringFull (daStack ((flight p).da 0x20007C)) = false) ∧
    -- to host memory; a release there takes its stamp first, and then waits
    (let p := storing hosted
     LoneOp (flight p) 50 p ∧ p.kind = .store ∧ p.phys = some ⟨2, 0, 0x40⟩ ∧ p.migr = false ∧ p.rel = none ∧ p.hold = none) ∧
    (let p := storing { hosted with rel := some .dev }
     LoneOp (flight p) 50 p ∧ p.rel = some .dev ∧ needsMarkers p.rel = false ∧ p.hold = none) ∧
    (let p := storing { hosted with rel := some .dev, hold := some 50 }
     LoneOp (flight p) 50 p ∧ p.hold = some 50 ∧ (flight p).tickAt (sliceOfCore (((flight p).blk p.blk).core.getD 0)) - (flight p).stampBase < 50 ∧
     LoneOp { flight p with tick := 100 } 50 p ∧
     50 ≤ ({ flight p with tick := 100 } : State).tickAt (sliceOfCore (((flight p).blk p.blk).core.getD 0)) - (flight p).stampBase) ∧
    -- atomics
    (∀ p ∈ [adding { op0 with bm := true, addr := 16 } [.v 0 4], adding here [.v 0 4], adding here [], adding hosted [.v 0 4]],
      LoneOp (flight p) 50 p ∧ p.kind = .atomic ∧ p.atom = some addSpec ∧ p.rel = none ∧ p.hold = none ∧ p.migr = false ∧
      (flight p).writeReady ⟨0, 0, 0x200000⟩ p.hist p.migr = true ∧ 0x200000 % 128 + p.size ≤ 128 ∧ addSpec.use ≠ .no ∧ ((flight p).blk 1).objs = []) ∧
    -- one that may return an older value
    (let p := { adding here [.v 0 4] with atom := some { addSpec with use := .no } }
     LoneOp (flight p) 50 p ∧ p.kind = .atomic ∧ p.rel = none ∧ p.hold = none ∧ p.dest ≠ [] ∧
     (flight p).writeReady ⟨0, 0, 0x200000⟩ p.hist p.migr = true) ∧
    -- operands at their limits
    (0xFFFFFFFF < 2 ^ (8 * atomBytes .s32) ∧ 0xFFFFFFFFFFFFFFFF < 2 ^ (8 * atomBytes .z64)) ∧
    (let p := adding { hosted with hold := some 50, atom := some { addSpec with use := .qt } } []
     (flight p).op? 50 = some p ∧ p.hold.isSome = true ∧ ((flight op0).op? 50 = some op0 ∧ op0.hold = none)) := by
  have h0 := skew_bounds (sliceOfCore 0)
  have hc : ∀ p, ((flight p).blk (storing { hosted with rel := some .dev, hold := some 50 }).blk).core.getD 0 = 0 := fun p => rfl
  have hb : ∀ p, (flight p).stampBase = 0 := fun p => rfl
  have ht : ∀ p, (flight p).tick = 0 := fun p => rfl
  simp only [List.forall_mem_cons, List.not_mem_nil, false_implies, implies_true, and_true, State.tickAt, hc, hb, ht]
  constructorm* _ ∧ _ <;> first | exact loneOp_of (by decide +kernel) | (clear hc hb ht; omega) | decide +kernel

/-- A late fault of lane 0. -/
def faulted : Pend := { op0 with fault := some 12 }
/-- A group with n records, and its count of issues since they entered the queue. -/
def records (n since : Nat) : State :=
  base.onGrp fun G => { G with sfq := List.replicate n ⟨[0], 0x300000, [1#8], 0, 11, 0, 0⟩, issues := since }
/-- A counted page of context 1. -/
def counting (va : Nat) (old : Nat) : State :=
  let s : State := { base with cur := none, counted := [⟨1, 0x200000, 0, true⟩] }
  (s.writeLocal (s.keyOf 1) 0x280000 (leBytes 2 old)).onCtx fun x => { x with counterVa := va }

theorem witness_FaultSteps :
    (let s := flight faulted
     s.op? 50 = some faulted ∧ faulted.fault = some 12 ∧ faulted.kind ≠ .store ∧ faulted.access = true ∧ (s.grp 1 0).live = true ∧
      (s.grp 1 0).trapped = false ∧ ((s.grp 1 0).lane 0).helper = false ∧ (∀ q ∈ s.pend, q.uid = faulted.uid)) ∧
    (let s := (flight faulted).onGrp fun G => { G with trapped := true, served := [0] }
     s.op? 50 = some faulted ∧ (s.grp 1 0).live = true ∧ (s.grp 1 0).trapped = true ∧ ∃ L ∈ faulted.lanes, L ∈ (s.grp 1 0).served) ∧
    (let p := storing faulted
     (flight p).op? 50 = some p ∧ p.fault = some 12 ∧ p.kind = .store ∧ ((flight p).grp 1 0).live = true ∧ ((flight p).kernel ((flight p).blk 1).kernel).state ≠ .killing) ∧
    -- delivery is forced: after 32 issues, and by 16 records; also in trap mode
    (∀ s ∈ [records 1 32, records 16 0], (s.grp 1 0).live = true ∧ ((∃ r ∈ (s.grp 1 0).sfq, r.at_ + 32 ≤ (s.grp 1 0).issues) ∨ 16 ≤ (s.grp 1 0).sfq.length) ∧
      ((s.grp 1 0).lane 0).status = .active ∧ (s.grp 1 0).holdsRecord 0 = true ∧ (s.grp 1 0).trapped = false) ∧
    (¬ ((∃ r ∈ ((records 15 31).grp 1 0).sfq, r.at_ + 32 ≤ ((records 15 31).grp 1 0).issues) ∨ 16 ≤ ((records 15 31).grp 1 0).sfq.length)) ∧
    (let s := (records 16 0).onGrp fun G => { G with trapped := true, served := [0] }
     (s.grp 1 0).trapped = true ∧ 0 ∈ (s.grp 1 0).served ∧ (s.grp 1 0).holdsRecord 0 = true) ∧
    -- access counters: none, one at its limit, one that counts
    (base.counted = [] ∧ (counting 0 0).noted = [] ∧ ((counting 0 0).ctx 1).counterVa = 0) ∧
    (((counting 0x280000 0xFFFF).ctx 1).counterVa ≠ 0 ∧
      okB ({ counting 0x280000 0xFFFF with counted := [] }.devLoad 1 ((0x280000 + 2 * (0x200000 / 4096 % 2 ^ 10)) % 2 ^ 64) 2) (fun x => leNat x.1 == 0) = true ∧
      okB ({ counting 0x27FC00 0xFFFF with counted := [] }.devLoad 1 ((0x27FC00 + 2 * (0x200000 / 4096 % 2 ^ 10)) % 2 ^ 64) 2) (fun x => leNat x.1 == 0xFFFF) = true ∧
      (match { counting 0x280000 7 with counted := [] }.devStore 1 0 none 0x280400 (leBytes 2 8) false 0 with
        | .ok t => (t.ctx 1).notifyVa == 0
        | _ => false) = true) := by
  rw [List.forall_mem_cons, List.forall_mem_singleton]
  constructorm* _ ∧ _ <;> decide +kernel

end Sys2Proof.Machine
end

