-- ==== Sys2Proof/Tests/WitnessRun.lean ====
section
/-! SUPPORT. Witnesses, seventh part: states and instructions that meet the premises of the statements about issuing, decoding and the
invariant. -/

namespace Sys2Proof.Machine

set_option Elab.async false

/-- The offered run of the group at `base0` fetches a word that decodes, to an instruction that issues and takes no shared entry. -/
def issuesB (s : State) (core quarter u g : Nat) : Bool :=
  let s0 := { s with out := [], wire := [], agenda := s.agenda.tail }
  let run := (s.grp u g).offer.1
  let pc := ((s.grp u g).lane (run.headD 0)).pc
  match s0.fetch u pc with
  | .ok (w, lits) t => match decode w lits with
    | .ok i =>
      let c : Cur := ⟨u, g, run, w, lits, pc, core, quarter, none⟩
      match exec i { (t.setGrp u g (s.grp u g).offer.2) with cur := some c } with
      | .next r => (r.cur.bind (·.wait)).isNone && (s0.taken (r.afterIssue c (s.grp u g).trapped) core).isNone
      | _ => false
    | .error _ => false
  | .fault _ _ => false

/-- An issue is the next action; a stop holds what STOP_AT gates. -/
theorem witness_StepRunsDecoded :
    (base0.agenda = .issue 0 0 :: [] ∧ base0.gatedAt (dieUnit 0) = false ∧ ((base0.core 0).quarter 0).nextAt ≤ base0.cycleOf 0) ∧
    (((List.range 8).map fun j => 0 * 8 + (((base0.core 0).quarter 0).ptr + j) % 8).filterMap fun x =>
      ({ base0 with out := [], wire := [], agenda := [] } : State).slotAt 0 x) = [] ++ (1, 0) :: [] ∧
    (({ base0 with out := [], wire := [], agenda := [] } : State).waitsFor 1 0 (base0.cycleOf 0) (base0.grp 1 0).offer.1).isNone = true ∧
    (({ base0 with out := [], wire := [], agenda := [] } : State).writeWait 1 0).isNone = true ∧
    issuesB base0 0 0 1 0 = true ∧
    -- a word that is no instruction
    (let c := { cur1 with word := 0b0110110_1110010_0000110_0000111_0100#32 }
     AtIssue { base with cur := some c } c ∧ decode c.word c.lits = .error (.illegal 1)) ∧
    -- events, with and without a stop
    ((.stopAt : Instr).isWord = false ∧ (.seriesLatch : Instr).isWord = false ∧
      gatedStep (.placementPop 0) = true ∧ gatedStep (.claim ⟨0, 0#16⟩) = false ∧
      ({ base with resumeTick := 1 } : State).gatedAt (base.unitOf (.placementPop 0)) = true ∧ base.gatedAt (base.unitOf (.placementPop 0)) = false) := by
  constructorm* _ ∧ _ <;> first | exact atIssue_of (by decide +kernel) | decide +kernel

/-- An instruction of one word, and ones with a literal. -/
theorem witness_DecodeEncode :
    ∀ i ∈ [Instr.iadd 3#7 1#7 2#7 4#4, .lit 10#7 0x3F800000#32 4#4, .bra (.lane true 3#4) (BitVec.ofInt 14 (-6)) 0#4],
      i.isWord = true ∧ i.wf = true ∧ (encode i).isEmpty = false := by decide +kernel

/-- A state whose memory lists something, and its step. -/
theorem witness_StepKeepsMemoryCanonical : Inv base0 ∧ base0.mem ≠ [] ∧
    (match step base0 with
      | .next t => Memory.wf t.mem
      | _ => false) = true := by
  refine ⟨?_, ?_, ?_⟩ <;> first | (unfold Inv; decide +kernel) | decide +kernel

end Sys2Proof.Machine
end

