-- ==== Sys2Proof/Tests/WitnessSteps.lean ====
section
/-! SUPPORT. Witnesses, fifth part: states that meet the premises of the statements about the steps of the engines, of placement, blocks,
kernels, activities, history and memory. -/

namespace Sys2Proof.Machine

set_option Elab.async false

/-! ## Engines -/

/-- The group has one matrix entry; the block is the one at `base`. -/
def matState (e : MatEntry) : State := { base.onGrp fun G => { G with matq := [e] } with cur := none }
/-- A pass over operands in block memory, of this depth and progress. -/
def bmPass (depth progress : Nat) (started : Bool) : MatEntry :=
  { kind := .mma, uid := 9, depth := depth, progress := progress, started := started, a := ⟨0, 32, .m8, true⟩, b := ⟨0, 32, .m8, true⟩ }
/-- A copy entry of the group. -/
def copyState (load : Bool) (e : CopyEntry) : State :=
  { base.setCore 0 { base.core 0 with ldq := if load then [e] else [], stq := if load then [] else [e] } with cur := none }
def ld1 (va : Nat) (progress : Nat) : CopyEntry := { uid := 9, blk := 1, va := va, bytes := 64, progress := progress }

/-- An accumulator operation of one row that has not been done. -/
def accE (kind : MatKind) : MatEntry := { kind := kind, uid := 9, rows := 1, blk := true, stride := 32 }
def accState (kind : MatKind) : State := (matState (accE kind)).onBlk fun b => { b with accHeld := true }

theorem witness_EngineSteps_matrix :
    -- arbitration: a busy array, nothing that waits, a candidate
    ((base.setCore 0 { base.core 0 with array := some (1, 0) }).core 0).array.isSome = true ∧
    ((base.core 0).array = none ∧ (base.pairWaiting 0).isNone = true ∧ (base.candidates 0).length = 0) ∧
    (let s := matState (bmPass 64 0 false)
     (s.core 0).array = none ∧ (s.pairWaiting 0).isNone = true ∧ (s.candidates 0).length = 1 ∧ s.matHead 1 0 = some (bmPass 64 0 false) ∧
      (s.blk 1).core = some 0 ∧ (s.blk 1).accHeld = false) ∧
    -- chunks: not started; the first of two, and the last
    (let s := matState (bmPass 64 0 false)
     s.matHead 1 0 = some (bmPass 64 0 false) ∧ (bmPass 64 0 false).kind = .mma ∧ (bmPass 64 0 false).susp = none ∧ (bmPass 64 0 false).depth ≠ 0) ∧
    (∀ j ∈ [0, 1], let e := bmPass 64 j true
      (matState e).matHead 1 0 = some e ∧ e.started = true ∧ e.asked = none ∧ j < e.depth / 32 ∧ e.a.blk = true ∧ e.b.blk = true ∧ ((matState e).blk 1).opcache = [] ∧
        ((matState e).blk 1).bmPoison = [] ∧ e.a.base % 32 = 0 ∧ e.a.stride % 32 = 0 ∧ ((matState e).grp 1 0).live = true) ∧ 0 + 1 < 64 / 32 ∧
    1 + 1 = 64 / 32 ∧
    -- accumulator operations
    (let s := matState { accE .st with susp := some { code := 12 } }
     s.matHead 1 0 = some { accE .st with susp := some { code := 12 } } ∧ s.matReady 1 { accE .st with susp := some { code := 12 } } = false) ∧
    (∀ k ∈ [MatKind.zero, .ld, .st, .cp], (accState k).matHead 1 0 = some (accE k) ∧ (accState k).matReady 1 (accE k) = true ∧
      (accE k).asked = none ∧ (accE k).progress < (accE k).rows ∧ ((accState k).blk 1).accHeld = true ∧ (accE k).mbar = none ∧ (accState k).roleBlk 1 0 = some 1) ∧
    -- a chunk that faults: its operand does not map
    (let e := { bmPass 64 0 true with a := ⟨0x40000000, 32, .m8, false⟩ }
     (matState e).matHead 1 0 = some e ∧ e.started = true ∧ e.susp = none ∧ e.asked = none ∧ e.progress < e.depth / 32 ∧
      (match (matState e).passChunk 1 0 e with
        | .fault c va _ => c == 14 && va == 0x40000000
        | _ => false) = true) := by
  simp only [List.forall_mem_cons, List.not_mem_nil, false_implies, implies_true, and_true]
  constructorm* _ ∧ _ <;> decide +kernel

/-- A channel of the group's whose record stands at 0x200000. -/
def chain (bytes : List Byte) (e : Option CopyEntry) (next : Nat) : State :=
  let s := (base.writeLocal (base.keyOf 1) 0x200000 bytes)
  { s.setCore 0 { s.core 0 with chans := [(0, { busy := true, recVa := 0x200000, blk := 1, uid := 9, entry := e, next := next })] } with cur := none }
/-- The record: no transfer; one of 64 bytes at 0x210000 into block memory 0 without object, followed by the record at 0x200040; a bad one. -/
def record (ctl : Nat) (bytes : Nat) : List Byte :=
  leBytes 8 0x200040 ++ leBytes 8 0x210000 ++ leBytes 4 0 ++ leBytes 4 bytes ++ leBytes 1 0 ++ leBytes 1 ctl ++ leBytes 2 0xFFFF
/-- What the channel reads: whether each sector is poisoned, it asks for a transfer, and a good one. -/
def reads4 (s : State) : Option (Bool × Bool × Bool × Bool) :=
  let x : Chan := mget {} (s.core 0).chans 0
  match s.engXlat x.blk x.recVa [] with
  | .ok xl s0 => (match s0.engRead (copyClass (s0.blk x.blk).ctx) x.blk x.recVa 0 32 [] xl with
    | .ok a s1 => (match s1.engRead (copyClass (s1.blk x.blk).ctx) x.blk x.recVa 32 32 a.pages xl with
      | .ok b s' =>
        let bs := a.bytes ++ b.bytes
        let x' : Chan := { x with maxStamp := max (max (max x.maxStamp a.stamp) b.stamp) (max (s'.blk x.blk).floor (s'.team (s'.blk x.blk).team).floor) }
        if a.ask.isSome || b.ask.isSome || a.bytes.length != 32 || b.bytes.length != 32 then none
        else some (a.poison, b.poison, leNat ((bs.drop 25).take 1) % 2 == 1, (recEntry s' x' bs).isSome)
      | _ => none)
    | _ => none)
  | _ => none

theorem witness_EngineSteps_copies :
    (let e := ld1 0x200000 0
     (copyState true e).copyAt (.ld 0 0) = some e ∧ e.kind = .ld ∧ e.buf = none ∧ e.sent = false ∧ e.progress < e.total ∧ e.mbar = none ∧
      okB ((copyState true e).translate 0 1 (e.sectorVa e.progress) .load ((copyState true e).mayCache 13)).1 (fun x => x.phys.target == 0) = true ∧
      (copyState true e).copyFault e = none) ∧
    (∀ k ∈ [CopyKind.st, .red .f32], let e := { ld1 0x200040 1 with kind := k }
      (copyState false e).copyAt (.st 0 0) = some e ∧ e.sent = false ∧ e.progress < e.total ∧ e.rel = none ∧ e.hold = none ∧ e.at_ = none ∧ e.kind ≠ .ld ∧ e.kind ≠ .tile ∧
      okB ((copyState false e).translate 0 1 (e.sectorVa e.progress) .store ((copyState false e).mayCache 15)).1 (fun x => x.phys.target == 0 &&
        decide (x.phys.off % 128 + 32 ≤ 128) && (copyState false e).writeReady x.phys (bitOf x.leaf 4) (bitOf x.leaf 5)) = true) ∧
    (let e := ld1 0x200000 2
     (copyState true e).copyAt (.ld 0 0) = some e ∧ e.total ≤ e.progress ∧ ((copyState true e).grp 1 0).live = true) ∧
    (let e := ld1 0x40000000 0
     (copyState true e).copyAt (.ld 0 0) = some e ∧ ((copyState true e).copyFault e).isSome = true) ∧
    -- a channel that rests; records: none asked for, a bad one, a good one, ones with a poisoned sector
    (mget {} (base.core 0).chans 0 : Chan).busy = false ∧
    (let s := chain [] none 0
     let x : Chan := mget {} (s.core 0).chans 0
     x.busy = true ∧ x.susp = none ∧ x.entry = none ∧ x.rcd = [] ∧ x.at_ = none ∧ s.afterDone (x.after.filter (· != x.uid)) = true) ∧
    reads4 (chain (record 0 64) none 0) = some (false, false, false, true) ∧ reads4 (chain (record 1 63) none 0) = some (false, false, true, false) ∧
    reads4 (chain (record 1 64) none 0) = some (false, false, true, true) ∧
    reads4 { chain (record 1 64) none 0 with poison := [((base.da 0x200000) / 32, true)] } = some (true, false, true, true) ∧
    reads4 { chain (record 1 64) none 0 with poison := [((base.da 0x200020) / 32, true)] } = some (false, true, true, true) ∧
    -- the end of a record's transfer, with and without a next one
    (∀ next ∈ [0, 0x200040], let s := chain (record 1 64) (some (ld1 0x210000 2)) next
      let x : Chan := mget {} (s.core 0).chans 0
      x.busy = true ∧ x.susp = none ∧ x.entry = some (ld1 0x210000 2) ∧ (ld1 0x210000 2).susp = none ∧ (ld1 0x210000 2).sent = false ∧
      (ld1 0x210000 2).given = false ∧ (ld1 0x210000 2).total ≤ (ld1 0x210000 2).progress ∧
      (match s.engStore (copyClass (s.blk x.blk).ctx) x.blk (x.recVa + 25) 1 (fun _ => [0#8]) false false true (max 0 (max x.maxStamp 0)) none none [x.recVa / 4096 * 4096] with
        | .ok d _ => d.hold.isNone && d.ask.isNone
        | _ => false) = true) := by
  simp only [List.forall_mem_cons, List.not_mem_nil, false_implies, implies_true, and_true]
  constructorm* _ ∧ _ <;> decide +kernel

/-! ## Blocks and kernels -/

/-- An interval with a snapshot of the group and one saved unit of block memory. -/
def interval : Interval :=
  { opened := true, flag := true, shadows := [⟨2, List.replicate 128 7#8, [], []⟩], groups := [⟨0, [], [], 0, 0#4, 0#32, 0#32, []⟩] }
def idle : State := { base with cur := none }
/-- A record of one block, as the compensation queue of a context holds it. -/
def record1 (scratch : Nat) : Rec := { code := 0x100000, lanes := 32, A := 128, scratch := scratch }
/-- The queue of context n holds a record; context 2 exists; context 1 has used its turn on core 0. -/
def queued (n scratch : Nat) : State :=
  let s := idle.setQueue (256 + n) { recs := [record1 scratch] }
  (s.setCtx 2 { state := .defined }).onCtx fun x => { x with turn := [(0, 10000)] }

theorem witness_BlockAndKernelSteps_blocks :
    idle.errorMay 1 (.ecc [⟨1, 0, 0, 4, .map⟩]) = true ∧ ((idle.blk 1).live = true ∧ (idle.blk 1).interval.opened = false) ∧
    (let s := idle.onBlk fun b => { b with interval := interval }
     (s.blk 1).live = true ∧ (s.blk 1).interval.opened = true ∧ (s.blk 1).interval.flag = true) ∧
    -- a rollback
    (let s := idle.onBlk fun b => { b with interval := interval, rolling := true }
     (s.blk 1).rolling = true ∧ s.enginesStill 1 = true ∧ s.pend = [] ∧ ((s.blk 1).interval.groups.map (·.grp)).Nodup ∧
      ((s.blk 1).interval.shadows.map (·.unit)).Nodup ∧ ∀ x ∈ (s.blk 1).interval.shadows, x.bytes.length = 128) ∧
    -- placement: not joined; nothing to pop; the compensation queue of context 1, with nothing before it
    ((idle.onIsland fun i => { i with st := 2 }).island.st ≠ 3 ∧ idle.island.st = 3 ∧ idle.stopped = false ∧
      (idle.ctxOrder.flatMap fun c => (idle.queueOrder c).map fun i => (c, i)) = [(1, 16)] ∧
      (idle.popTry 0 1 (idle.queueAt 1 16)).isNone = true) ∧
    (let s := idle.setQueue 257 { recs := [record1 4] }
     (s.ctxOrder.flatMap fun c => (s.queueOrder c).map fun i => (c, i)) = [] ++ (1, 16) :: [] ∧ (s.popTry 0 1 (s.queueAt 1 16)).isSome = true) ∧
    (record1 4).entry = none ∧ (0 < 1 ∧ 31 < 32) ∧
    -- a reservation: not asked for; not due; due
    ((idle.queue 200).since = none) ∧
    (let q : HwQueue := { bound := some 1, st := .armed, n := 4, since := some 0, resume := [1] }
     let s := (idle.setQueue 200 q)
     (s.queue 200).bound = some 1 ∧ (s.queue 200).since = some 0 ∧ (s.queue 200).reserved = none ∧ s.tick < 0 + (s.ctx 1).tslice ∧
      0 + (s.ctx 1).tslice ≤ 10000 ∧ ({ s with tick := 10000 } : State).mayPop 1 200 = true ∧
      (({ s with tick := 10000 } : State).headOf 1 200 0).isSome = true) ∧
    ((idle.core 0).hot = false ∧ ((idle.setCore 0 { idle.core 0 with hot := true }).core 0).hot = true) ∧
    -- eviction of the block on core 0: its time is not used up; nobody waits; context 2 needs the core
    (mget 0 (idle.ctx 1).turn 0 < (idle.ctx 1).tslice ∧ ((queued 1 4).waitingNeed 1 0).isNone = true) ∧
    (let s := queued 2 320
     (s.ctx 1).tslice ≤ mget 0 (s.ctx 1).turn 0 ∧
      (match s.waitingNeed 1 0 with
        | some d => s.victims 0 d (s.youngest 1 0) [] == some [1]
        | none => false) = true) ∧
    (let s := idle.onBlk fun b => { b with evicting := true }
     (s.blk 1).live = true ∧ (s.blk 1).evicting = true ∧ s.dying 1 = false ∧ (∀ v ∈ s.mates 1, s.mayLeave v = true) ∧
      ∀ x ∈ s.blocks, x.2.live = true → x.2.evicting = true → x.2.core.isSome = true → x.2.ctx = (s.blk 1).ctx → x.2.team ≠ (s.blk 1).team →
        x.2.age ≤ (s.blk 1).age) ∧ (idle.blk 1).evicting = false := by
  constructorm* _ ∧ _ <;> decide +kernel

/-- The group has ended; a kernel in a state. -/
def endedState (cut : Bool) (join : DWord) : State :=
  idle.onBlk fun b => { b with cut := cut, join := join, groups := [(0, { b.grp 0 with live := false })] }
def kernelState (st : KState) (kind comp : Nat) : State := idle.setKernel 1 { state := st, ctx := 1, kind := kind, compVa := comp, wdog := 1, counted := 65536 }

/-- Context 1 has hardware queue 200 as its queue 0, which is idle. -/
def named : State := (idle.onCtx fun x => { x with queues := [(0, 201)] }).setQueue 200 { bound := some 1 }

theorem witness_BlockAndKernelSteps_kernels :
    (∃ x ∈ (idle.blk 1).groups, x.2.live = true) ∧
    (∀ s ∈ [endedState true 0x200000#64, endedState false 0#64, endedState false 0x200000#64],
      (s.blk 1).live = true ∧ (s.blk 1).core.isSome = true ∧ (s.blk 1).rolling = false ∧ s.enginesDone 1 = true ∧ ∀ x ∈ (s.blk 1).groups, x.2.live = false) ∧
    (endedState true 0x200000#64).blk 1 = { (endedState true 0x200000#64).blk 1 with cut := true } ∧ ((endedState false 0#64).blk 1).join = 0#64 ∧
    (((endedState false 0x200000#64).setKernel 1 { state := .killing, ctx := 1 }).kernel 1).state = .killing ∧
    (let s := { endedState false 0x200000#64 with pend := [{ uid := 50, blk := 1, kind := .store }] }
     (s.blk 1).cut = false ∧ (s.blk 1).join ≠ 0#64 ∧ ∃ p ∈ s.pend, p.blk = 1 ∧ p.done = false ∧ p.bm = false ∧ reaches .dev p = true) ∧
    -- held decrements: none; of a join descriptor of zeros, in a context with no such queue; at a misaligned address
    (idle.held[0]?.isNone = true) ∧
    (let s := { idle with held := [{ ctx := 1, join := 0x200000 }] }
     s.held[0]? = some { ctx := 1, join := 0x200000 } ∧ (s.joinQueue { ctx := 1, join := 0x200000 }).isNone = true ∧
      okB (s.devLoad 1 0x200000 32) (fun x => (s.queueOf 1 (recOf (bytesWords x.1)).queue).isNone) = true ∧
      (match s.implicit { ctx := 1, join := 0x200001 } with
        | .finished _ => true
        | _ => false) = true) ∧
    -- (kept after a ring fault, while the queue that the continuation names is not armed)
    (let s := { named with held := [{ ctx := 1, join := 0x200000, armed := true }] }
     ∃ q ∈ s.joinQueue { ctx := 1, join := 0x200000, armed := true }, (s.queue q).st ≠ .armed) ∧
    -- ends: not ending; ending, without and with a completion record
    ((kernelState .running 0 0).kernel 1).state ≠ .ending ∧
    (((kernelState .ending 0 0).kernel 1).state = .ending ∧ ((kernelState .ending 0 0).kernel 1).kind = 0 ∧ (kernelState .ending 0 0).pend = []) ∧
    (let s := kernelState .ending 1 0x200000
     (s.kernel 1).kind ≠ 0 ∧ (s.kernel 1).compVa ≠ 0 ∧
      (match s.completion 1 (some 1) (s.kernelFloor 1) (s.kernel 1).compVa (List.replicate 32 0#8) with
        | .ok _ => true
        | _ => false) = true) ∧
    -- the watchdog at its limit
    (let K := (kernelState .running 0 0).kernel 1
     K.wdog ≠ 0 ∧ K.wdog * 65536 ≤ K.counted ∧ K.state = .running) ∧
    (let s := kernelState .killing 0 0
     (s.kernel 1).state = .killing ∧ (∀ x ∈ s.blocks, x.2.live = true → x.2.kernel = 1 → s.enginesStill x.1 = true) ∧ s.pend = [] ∧
      ((s.kernel 1).kind = 0 ∨ (s.kernel 1).compVa = 0) ∧ (s.blk 1).live = true ∧ (s.blk 1).kernel = 1) ∧
    -- a context whose killing is over
    (let s := (kernelState .ended 0 0).onCtx fun x => { x with state := .killing }
     (s.ctx 1).state = .killing ∧ (∀ a ∈ s.acts, a.ctx = 1 → a.st.isOver = true ∨ a.st = .stuck) ∧
      (∀ k ∈ s.kernels, k.2.ctx = 1 → k.2.state = .ended ∨ k.2.state = .none) ∧ (s.queue (256 + 1)).recs = [] ∧ (s.ctx 1).owed = [] ∧ named.queueOf 1 0 = some 200 ∧ (named.queue 200).st = .idle ∧
      (match s.completion 1 none 0 0x200000 (List.replicate 32 0#8) with
        | .ok _ => true
        | _ => false) = true) := by
  simp only [List.forall_mem_cons, List.not_mem_nil, false_implies, implies_true, and_true]
  constructorm* _ ∧ _ <;> decide +kernel

/-! ## Activities, history, memory -/

/-- An activity with one pending entry. -/
def act1 (st : ActState) (discard : List Nat) : Activity := { handle := 5, ctx := 1, st := st, discard := discard, stamp := 4 }
def entry1 (waited : Nat) : Entry := { uid := 3, stamp := 7, handle := 5, ctx := 1, key := 1#64, code := 0x100000, waited := waited }
def actsState (st : ActState) (discard : List Nat) (waited : Nat) : State := { idle with acts := [act1 st discard], vesper := [entry1 waited] }

/-- A ring of stack 0 that holds its capacity, its oldest entry of stamp 6. -/
def ringState (tick pin : Nat) : State :=
  let s := { idle.setRing 0 { oldest := 0, next := idle.ringCap, entries := [(0, { stamp := 6 })], stall := some (0, [(1, 5)]) } with tick := tick }
  s.onCtx fun x => { x with pins := [(3, { used := true, stamp := pin, kernel := 1 })] }

theorem witness_ActivityAndHistorySteps :
    (idle.vesper.find? fun e : Entry => e.uid == 3).isNone = true ∧
    (let s := actsState .abandoning [] 0
     (s.vesper.find? fun e : Entry => e.uid == 3) = some (entry1 0) ∧ (entry1 0).cond = 0 ∧ s.actStateOf 1 5 = some .abandoning ∧
      (∀ x ∈ s.vesper, x.ctx = 1 → x.handle = 5 → x.uid = 3 ∨ 2 ≤ x.cond ∨ (x.cond = 0 ∧ x.stamp < 7)) ∧
      ((entry1 0).key ≠ 0#64 → ∀ x ∈ s.vesper, x.ctx = 1 → x.key = (entry1 0).key → x.uid ≠ 3 → 7 < x.stamp → 2 ≤ x.cond) ∧ s.keyElsewhere (entry1 0) = false) ∧
    (actsState .opened [] 0).actStateOf 1 5 ≠ some .abandoning ∧
    -- discards: at home, the last member and one of two; not committing; away
    ((actsState .committing [0] 0).decides 1 5 = true ∧ (actsState .committing [0] 0).device = 0 ∧ (actsState .committing [0] 0).act? 1 5 = some (act1 .committing [0]) ∧
      (actsState .committing [0, 9] 0).act? 1 5 = some (act1 .committing [0, 9]) ∧ (actsState .opened [] 0).act? 1 5 = some (act1 .opened []) ∧
      idle.decides 1 (0x01000005#32).toNat = false ∧ 0 = idle.device ∧ idle.vesper = [] ∧ (idle.act? 1 (0x01000005#32).toNat).isNone = true) ∧
    -- waits
    (let s := actsState .abandoning [] 10000001
     (s.vesper.find? fun e : Entry => e.uid == 3) = some (entry1 10000001) ∧ s.act? 1 5 = some (act1 .abandoning []) ∧ (s.ctx 1).acttmo ≠ 0#32 ∧
      (s.ctx 1).acttmo.toNat < (entry1 10000001).waited ∧ (entry1 10000001).cond = 0) ∧
    (let s := { idle with acts := [{ act1 .opened [] with holder := 5 }], vesper := [entry1 10000001] }
     s.act? 1 5 = some { act1 .opened [] with holder := 5 } ∧ 5 ≠ s.device) ∧ ¬ (idle.ctx 1).acttmo.toNat < (entry1 10000000).waited ∧
    -- reclaiming: a pin at the stamp does not hold it, a pin below does
    (let s := ringState 0 6
     (s.ring 0).oldest < (s.ring 0).next ∧ s.ringCap ≤ (s.ring 0).next - (s.ring 0).oldest ∧
      ∀ c ∈ s.ctxs, ∀ p ∈ c.2.pins, p.2.used = true → p.2.broken = false → (mget {} (s.ring 0).entries 0 : HistEntry).stamp ≤ p.2.stamp) ∧
    -- a pin below whose context lets no store wait does not hold it either
    (let s := (({ ringState 0 5 with rings := [] }).setRing 0 { oldest := 0, next := idle.ringCap, entries := [(0, { stamp := 6 })] }).onCtx fun x =>
       { x with pintmo := 0#32 }
     (s.ring 0).oldest < (s.ring 0).next ∧ (mget {} (s.ctx 1).pins 3 : Pin).used = true ∧
      (mget {} (s.ctx 1).pins 3 : Pin).stamp < (mget {} (s.ring 0).entries 0 : HistEntry).stamp ∧ ∀ c ∈ s.ctxs, ∀ p ∈ c.2.pins, s.pinWaits c.1 = false) ∧
    (ringState 0 5).pinWaits 1 = true ∧
    -- retention: past, and not past
    (let s := { ringState 100 (1 * 2 ^ 14) with hretain := 98#32 }
     s.hretain ≠ 0#32 ∧ (mget {} (s.ctx 1).pins 3 : Pin).used = true ∧ (1 * 2 ^ 14) / 2 ^ 14 + s.hretain.toNat < s.tick - s.stampBase ∧
      ¬ ((2 * 2 ^ 14) / 2 ^ 14 + s.hretain.toNat < s.tick - s.stampBase) ∧ Rising s.ctxs ∧ (∀ c ∈ s.ctxs, Rising c.2.pins)) ∧
    (let s := { ringState 100 (5 * 2 ^ 14) with hretain := 98#32 }
     (s.ring 0).oldest < (s.ring 0).next ∧ (mget {} (s.ring 0).entries 0 : HistEntry).stamp / 2 ^ 14 + s.hretain.toNat < s.tick - s.stampBase ∧
      ∀ c ∈ s.ctxs, ∀ p ∈ c.2.pins, p.2.used = true → p.2.broken = false → ¬ (p.2.stamp / 2 ^ 14 + s.hretain.toNat < s.tick - s.stampBase) ∧ 6 ≤ p.2.stamp) ∧
    -- a pin that a stall waits for, at the limit and before it
    (let s := ringState 5 5
     let p : Pin := mget {} (s.ctx 1).pins 3
     p.used = true ∧ p.broken = false ∧ (s.ring 0).stall = some (0, [(1, 5)]) ∧ 0 + 5 ≤ s.tick ∧ (s.ring 0).oldest < (s.ring 0).next ∧
      p.stamp < (mget {} (s.ring 0).entries 0 : HistEntry).stamp ∧ p.activity = false ∧ (s.kernel 1).state = .running) ∧ ¬ 0 + 5 ≤ (ringState 4 5).tick ∧
    ((kernelState .ended 0 0).kernel 1).state = .ended ∧
    -- a rebase with a pin and an as-of load
    ((ringState 0 5).tick - (ringState 0 5).stampBase < 2 ^ 50 - 2 ^ 45) ∧
    (let s := { ringState (2 ^ 50 - 2 ^ 45) 5 with pend := [{ uid := 50, kind := .asof, blk := 1 }] }
     2 ^ 50 - 2 ^ 45 ≤ s.tick - s.stampBase ∧ (mget {} (s.ctx 1).pins 3 : Pin).used = true ∧ ∃ p ∈ s.pend, p.kind = .asof ∧ p.done = false) ∧
    -- a page with a line whose counter is full, and one with none
    (let n := idle.da (0x300 * 4096) / 128
     let s := { idle with lines := mset {} idle.lines n ⟨0, 0x300 * 4096 / 128, BitVec.ofNat 56 (2 ^ 56 - 1), 0#8⟩ }
     (mget {} s.lines (s.da (0x300 * 4096 + 128 * 0) / 128) : LineMeta).ctr = BitVec.ofNat 56 (2 ^ 56 - 1) ∧
      (mget {} s.lines (s.da (0x300 * 4096 + 128 * 0) / 128) : LineMeta).offL = 0x300 * 4096 / 128) ∧
    (∀ i ∈ List.range 32, (mget {} idle.lines (idle.da (0x300 * 4096 + 128 * i) / 128) : LineMeta).ctr ≠ BitVec.ofNat 56 (2 ^ 56 - 1)) := by
  simp only [Rising]
  constructorm* _ ∧ _ <;> decide +kernel

end Sys2Proof.Machine
end

