-- ==== Sys2Proof/Tests/WitnessUnits.lean ====
section
/-! SUPPORT. Witnesses, fourth part: states that meet the premises of the statements about the copy and matrix engines, barrier objects,
system operations, queues and activities. -/

namespace Sys2Proof.Machine

set_option Elab.async false

/-! ## Issues of engine instructions -/

abbrev cpUse : Uses := { ksrc := [(0#7, 1), (2#7, 2)] }
/-- The largest copy that block memory holds, with an object in its last 16 bytes. -/
abbrev cpCount : Count := .imm 128#20
abbrev tileOwn : Own := fun _ =>
  if kPair base cur1 2#7 % 32 = 0 ∧ (kOpnd base cur1 0#7).toNat % 32 = 0 ∧ (kOpnd base cur1 4#7).toNat % 32 = 0 ∧
    rowsOf base cur1 (.imm 2#16) ≤ 65535 ∧ (kOpnd base cur1 0#7).toNat + rowsOf base cur1 (.imm 2#16) * (2048#16).toNat ≤ (base.blk 1).scratch * 1024 ∧
    objectFits base cur1 255#16 = true then none else some (mkCause cur1 5)

theorem witness_CopyIssue :
    (Issues (cpUse) (copyOwn 0#7 2#7 cpCount 255#16 base cur1) ∧ Issues cpUse (copyOwn 0#7 2#7 cpCount 0xFFFF#16 base cur1) ∧ writesQuiet base cur1 ∧
      (base.core 0).ldq.length < 16 ∧ (base.core 0).stq.length < 16) ∧
    (Issues { ksrc := [(0#7, 1), (2#7, 2), (4#7, 1)] } tileOwn ∧ rolesHere base cur1 1#16) ∧ (AtIssue base cur1 ∧ ¬ rolesHere base cur1 2#16) ∧
    (Issues { ksrc := [(2#7, 2)] } (alignOwn cur1 (fun _ => kPair base cur1 2#7) 64) ∧ (mget {} (base.core 0).chans 3 : Chan).busy = false) ∧
    Issues {} noOwn ∧
    -- a fence over queues that hold entries
    (let s := base.setCore 0 { base.core 0 with ldq := [{ uid := 7 }], chans := [(0, { busy := true, uid := 8 })], fences := [(0, [7])] }
     Issuing {} noOwn s cur1 ∧ (15#4).getLsbD 0 = true ∧ (∃ e ∈ (s.core 0).ldq, e.uid = 7) ∧ (∃ e ∈ (s.core 0).chans, e.2.busy = true ∧ e.2.uid = 8) ∧
     (s.core 0).ldq.length < 32 ∧ (s.core 0).stq.length < 32 ∧ ∃ f ∈ (s.core 0).fences, 7 ∈ f.2) := by
  simp only [writesQuiet, rolesHere]
  constructorm* _ ∧ _ <;> first | exact issuing_of (by decide +kernel) | exact atIssue_of (by decide +kernel) | decide +kernel

/-- A pass over operands in global memory, into the last row a pass can have. -/
abbrev pass : MmaSpec := ⟨⟨2#7, 4#7, .m8, false⟩, ⟨6#7, 8#7, .m8, false⟩, .imm 8160#13, 0x7F#7, 0x7F#7, 3#2, 448#9, false, 7#3⟩
/-- The block has role 0 of a team of two; role 1. -/
def paired (role : Nat) : State :=
  (base.onBlk fun b => { b with role := role }).setTeam 1 { live := true, ctx := 1, kernel := 1, size := 2, blocks := [(0, 2)], cores := [(0, 1)] }
abbrev rows : AccSpec := ⟨0#9, 7#7, 0#3, true, .bf16⟩

theorem witness_MatrixIssue :
    (Issues {} (mmaCause 64 pass base (issueAt base cur1)) ∧ (matRoom base (issueOf {} (mmaCause 64 pass base (issueAt base cur1)) base cur1) true).isNone = true ∧
      mmaBad pass base (issueOf {} (mmaCause 64 pass base (issueAt base cur1)) base cur1) = false) ∧
    (Issuing {} (mmaCause 128 pass (paired 0) (issueAt (paired 0) cur1)) (paired 0) cur1 ∧
      (matRoom (paired 0) (issueOf {} (mmaCause 128 pass (paired 0) (issueAt (paired 0) cur1)) (paired 0) cur1) true).isNone = true ∧
      mmaBad pass (paired 0) (issueOf {} (mmaCause 128 pass (paired 0) (issueAt (paired 0) cur1)) (paired 0) cur1) = false ∧
      ((paired 0).blk 1).role % 2 = 0 ∧ ((paired 0).blk 1).role + 1 < ((paired 0).team ((paired 0).blk 1).team).size) ∧
    (AtIssue (paired 1) cur1 ∧ ((paired 1).blk 1).role % 2 = 1) ∧ (AtIssue base cur1 ∧ (base.team (base.blk 1).team).size ≤ (base.blk 1).role + 1) ∧
    (Issues {} noOwn ∧ (base.issuer cur1).matq.length < 8) ∧
    Issues { ksrc := [(2#7, 2), (0#7, 1)] } (accOwn rows (kPair base cur1 2#7) (kOpnd base cur1 0#7).toNat rows.blk 0xFFFF#16 base cur1) ∧
    (Issues { ksrc := [(2#7, 1), (0#7, 1)] } (accOwn { rows with blk := false } (kOpnd base cur1 2#7).toNat (kOpnd base cur1 0#7).toNat true 255#16 base cur1) ∧
      (0#4).toNat < (base.team (base.blk 1).team).size) ∧ (base.team (base.blk 1).team).size ≤ (1#4).toNat ∧
    writesQuiet base cur1 ∧ (base.issuer cur1).matq = [] ∧
    -- a suspended entry
    (let s := base.onGrp fun G => { G with matq := [{ kind := .mma, susp := some { code := 12, va := 64 } }] }
     Issuing {} noOwn s cur1 ∧ (((s.issuer cur1).matq.filterMap (·.susp)).head?).isSome = true ∧ 0 ∈ runs {} noOwn s cur1) := by
  simp only [writesQuiet]
  constructorm* _ ∧ _ <;> first | exact issuing_of (by decide +kernel) | exact atIssue_of (by decide +kernel) | decide +kernel

/-- An object at address 16, and a uniform operand. -/
def objState (n : Word) (m : MBar) : State := (base.put [(.k 2, 16#32), (.k 4, n)]).onBlk fun b => { b with bm := wrBytes b.bm 16 m.bytes }
abbrev mbUse : Uses := { ksrc := [(2#7, 1), (4#7, 1)] }
abbrev initOwn (n : Word) : Own := fun L =>
  let k := (kOpnd (objState n ⟨0, 1, 1, 0, false⟩) cur1 4#7).toNat
  if k = 0 ∨ 65535 < k then some (mkCause cur1 5) else objectOwn (objState n ⟨0, 1, 1, 0, false⟩) cur1 2#7 L

theorem witness_BarrierObjects :
    (∀ n ∈ [1#32, 65535#32], Issuing mbUse (initOwn n) (objState n ⟨0, 1, 1, 0, false⟩) cur1 ∧ objectQuiet (objState n ⟨0, 1, 1, 0, false⟩) cur1 16) ∧
    -- a wait whose phase has ended, one whose phase has not
    (∀ n ∈ [0#32, 1#32], let s := objState n ⟨0, 1, 1, 0, false⟩
      Issuing mbUse (objectOwn s cur1 2#7) s cur1 ∧ objectQuiet s cur1 16 ∧ ((s.blk 1).mbar 16).gen = 0) ∧ 0 ≠ (1#32).toNat % 65536 ∧
    0 = (0#32).toNat % 65536 ∧
    (let s := objState 0#32 ⟨0, 1, 1, 0, false⟩
     Issuing { ksrc := [(2#7, 1)] } (objectOwn s cur1 2#7) s cur1 ∧ Delivered .none true { ksrc := [(2#7, 1)] } (objectOwn s cur1 2#7) s cur1) ∧
    -- an arrival where none is due
    ((((objState 0#32 ⟨0, 0, 1, 0, false⟩).blk 1).mbar 16).due = 0 ∧
      ((objState 0#32 ⟨-1, 1, 1, 0, false⟩).blk 1).mbar 16 = ⟨-1, 1, 1, 0, false⟩) := by
  simp only [objectQuiet, List.forall_mem_cons, List.not_mem_nil, false_implies, implies_true, and_true]
  constructorm* _ ∧ _ <;> first | exact issuing_of (by decide +kernel) | exact delivered_of (by decide +kernel) | decide +kernel

/-- A context that is not privileged; a block that runs a routine; an entry that no slot is left for. -/
def plain : State := base.onCtx fun x => { x with priv := false, vesper := 1 }
def routine : State := base.onBlk fun b => { b with routine := some 3 }
abbrev stackOwn (s : State) : Own := fun _ => if (s.ctxOf 1).vesper ≤ s.entriesHeld (s.blk 1).ctx then some (mkCause cur1 16) else none

theorem witness_SystemIssue :
    (∀ n ∈ [8, 16, 1, 4], Issues { ksrc := [(0#7, n)] } noOwn ∧ Delivered .none true { ksrc := [(0#7, n)] } noOwn base cur1) ∧
    (Issuing { ksrc := [(0#7, 8)] } (stackOwn plain) plain cur1 ∧ Delivered .none true { ksrc := [(0#7, 8)] } (stackOwn plain) plain cur1) ∧
    (base.ctxOf 1).priv = true ∧ ((plain.ctxOf 1).priv = false ∧ AtIssue plain cur1) ∧
    (Issues { ksrc := [(2#7, 2)] } (alignOwn cur1 (fun _ => kPair base cur1 2#7) 64) ∧
      Delivered .none true { ksrc := [(2#7, 2)] } (alignOwn cur1 (fun _ => kPair base cur1 2#7) 64) base cur1 ∧
      countedLanes { ksrc := [(2#7, 2)] } (alignOwn cur1 (fun _ => kPair base cur1 2#7) 64) base cur1 ≠ []) ∧
    -- a run of a helper lane alone
    (let s := { base.onLane 3 fun l => { l with helper := true } with cur := some cur3 }
     Issuing { ksrc := [(2#7, 2)] } (alignOwn cur3 (fun _ => kPair s cur3 2#7) 64) s cur3 ∧
     Delivered .none true { ksrc := [(2#7, 2)] } (alignOwn cur3 (fun _ => kPair s cur3 2#7) 64) s cur3 ∧
     countedLanes { ksrc := [(2#7, 2)] } (alignOwn cur3 (fun _ => kPair s cur3 2#7) 64) s cur3 = []) ∧
    ((routine.blk 1).routine.isSome = true ∧ Issuing { ksrc := [(0#7, 1)] } noOwn routine cur1 ∧ Delivered .full true { ksrc := [(0#7, 1)] } noOwn routine cur1) ∧
    ((base.blk 1).routine = none ∧ AtIssue base cur1) := by
  simp only [List.forall_mem_cons, List.not_mem_nil, false_implies, implies_true, and_true]
  constructorm* _ ∧ _ <;>
    first | exact issuing_of (by decide +kernel) | exact delivered_of (by decide +kernel) | exact atIssue_of (by decide +kernel) | decide +kernel

/-! ## Queues and activities -/

/-- Queue 15 of context 1 is hardware queue 200, in this state. -/
def queueState (st : QState) (resume : List Nat) : State :=
  (base.onCtx fun x => { x with queues := [(15, 201)] }).setQueue 200 { bound := some 1, index := 15, st := st, n := 4, resume := resume }
/-- The operands of qinit: an operation on queue q, at no address or at 4096. -/
def qinitState (st : QState) (resume : List Nat) (w : Word) (va : Word) : State := (queueState st resume).put [(.k 0, va), (.k 2, w)]

/-- The state, the resume list, the operand word and the address of each clause of qinit: initialised with the smallest and the largest
ring, stopped, resumed, drained, reset, and each refused. -/
def qinitCases : List (QState × List Nat × Word × Word) :=
  [(.idle, [], 0x004F#32, 4096#32), (.idle, [], 0x014F#32, 4096#32), (.armed, [], 0x200F#32, 0#32), (.stopped, [], 0x400F#32, 0#32),
   (.armed, [], 0x600F#32, 0#32), (.stopped, [9], 0x800F#32, 0#32), (.stopped, [], 0x800F#32, 0#32), (.armed, [], 0x004F#32, 4096#32),
   (.idle, [], 0x200F#32, 0#32), (.idle, [], 0x004E#32, 4096#32), (.idle, [], 0x003F#32, 4096#32), (.idle, [], 0xA00F#32, 0#32)]

theorem qinit_issues : ∀ x ∈ qinitCases, Issuing { ksrc := [(0#7, 4)] } noOwn (qinitState x.1 x.2.1 x.2.2.1 x.2.2.2) cur1 := by
  have h : qinitCases.all (fun x => issuingB { ksrc := [(0#7, 4)] } noOwn (qinitState x.1 x.2.1 x.2.2.1 x.2.2.2) cur1) = true := by decide +kernel
  exact fun x hx => issuing_of (List.all_eq_true.1 h x hx)

/-- The operation, whether it is bad, whether a queue is bound, and the queue's state, of each case: as the rule's table has them. -/
theorem qinit_cases : qinitCases.map (fun x =>
      let s := qinitState x.1 x.2.1 x.2.2.1 x.2.2.2
      let w := (kOpnd s cur1 0#7 2).toNat
      let va := kPair s cur1 0#7
      let op := w / 2 ^ 13 % 8
      let n := w / 2 ^ 4 % 32
      (op, decide (5 ≤ op ∨ 2 ^ 16 ≤ w ∨ kOpnd s cur1 0#7 3 ≠ 0#32 ∨ (op = 0 ∧ (va % 4096 ≠ 0 ∨ n < 4 ∨ 20 < n)) ∨ (op ≠ 0 ∧ (va ≠ 0 ∨ w / 2 ^ 4 % 2 ^ 9 ≠ 0))),
        mget 0 (s.ctxOf 1).queues (w % 16), decide ((s.queue 200).st = x.1))) =
    [(0, false, 201, true), (0, false, 201, true), (1, false, 201, true), (2, false, 201, true), (3, false, 201, true), (4, false, 201, true),
     (4, false, 201, true), (0, false, 201, true), (1, false, 201, true), (0, false, 0, true), (0, true, 201, true), (5, true, 201, true)] := by
  decide +kernel

/-- An activity of context 1 with handle 5, in this state, and its entry; the group names it, with an action. -/
def actState (st : ActState) (reason : Nat) (h action : Word) : State :=
  { base with
    acts := [{ handle := 5, ctx := 1, st := st, reason := reason, stuckStamp := 7 }]
    vesper := [{ uid := 3, stamp := 7, handle := 5, ctx := 1 }] }.put [(.k 0, h), (.k 1, action)]

/-- As many activities and pins as a context may hold. -/
def fullActs (acts pins : Nat) (attr : Word) : State :=
  (({ base with acts := (List.range acts).map fun n => ({ handle := n + 1, ctx := 1 } : Activity) } : State).onCtx fun x =>
    { x with pins := (List.range pins).map fun h => (h, ({ used := true } : Pin)) }).put [(.k 0, attr)]

theorem witness_QueueAndActivityResults :
    -- qstat: out of range, not bound, bound
    (Issuing { ksrc := [(0#7, 1)] } noOwn ((queueState .armed []).put [(.k 0, 16#32)]) cur1 ∧ 16 ≤ (16#32).toNat ∧
      mget 0 ((queueState .armed []).ctxOf 1).queues 14 = 0 ∧
      Issuing { ksrc := [(0#7, 1)] } noOwn ((queueState .armed []).put [(.k 0, 15#32)]) cur1 ∧ mget 0 ((queueState .armed []).ctxOf 1).queues 15 = 200 + 1) ∧
    -- act.begin: a bad attribute, too many activities, no pin left, and both kinds that succeed
    (∀ x ∈ ([(0, 0, 2#32), (0, 64, 1#32), (0, 63, 1#32), (0, 0, 0#32)] : List (Nat × Nat × Word)),
      Issuing { ksrc := [(0#7, 1)] } noOwn (fullActs x.1 x.2.1 x.2.2) cur1 ∧
        ((fullActs x.1 x.2.1 x.2.2).acts.filter fun y : Activity => y.ctx == 1 && !y.st.isOver).length < 1024) ∧
    (∀ h, h < 64 → (mget {} ((fullActs 0 64 1#32).ctx 1).pins h : Pin).used = true) ∧
    ((mget {} ((fullActs 0 63 1#32).ctx 1).pins 63 : Pin).used = false ∧ ∀ k, k < 63 → (mget {} ((fullActs 0 63 1#32).ctx 1).pins k : Pin).used = true) ∧
    (Issuing { ksrc := [(0#7, 1)] } noOwn (fullActs 1024 0 1#32) cur1 ∧
      1024 ≤ ((fullActs 1024 0 1#32).acts.filter fun y : Activity => y.ctx == 1 && !y.st.isOver).length) ∧
    -- act.stat and act.resume: no such activity; open; stuck, retried and skipped; stuck by a lost member
    (∀ x ∈ ([(.opened, 0, 6#32, 0#32), (.opened, 0, 0x80000005#32, 0#32), (.opened, 0, 5#32, 2#32), (.opened, 0, 5#32, 0#32), (.stuck, 1, 5#32, 0#32),
        (.stuck, 1, 5#32, 1#32), (.stuck, 3, 5#32, 0#32), (.stuck, 3, 5#32, 1#32)] : List (ActState × Nat × Word × Word)),
      Issuing { ksrc := [(0#7, 2)] } noOwn (actState x.1 x.2.1 x.2.2.1 x.2.2.2) cur1 ∧ Issuing { ksrc := [(0#7, 1)] } noOwn (actState x.1 x.2.1 x.2.2.1 x.2.2.2) cur1) ∧
    (∀ x ∈ (actState .stuck 1 5#32 0#32).acts, ∀ m ∈ (actState .stuck 1 5#32 0#32).joined x, m = (actState .stuck 1 5#32 0#32).device) ∧
    ((actState .stuck 1 5#32 0#32).decides 1 5 = true ∧ (actState .stuck 1 5#32 0#32).decides 1 6 = true ∧ ((actState .stuck 1 5#32 0#32).act? 1 6).isNone = true ∧
      ((actState .stuck 1 5#32 0#32).act? 1 5).map (fun y : Activity => (y.st, y.reason, y.stuckStamp)) = some (.stuck, 1, 7) ∧
      ((actState .stuck 1 5#32 0#32).vesper.map fun e : Entry => (e.ctx, e.handle, e.stamp)) = [(1, 5, 7)]) ∧
    -- another device decides: open, and stuck here
    (∀ x ∈ ([(.opened, 0, 5#32, 0#32), (.stuck, 1, 5#32, 1#32)] : List (ActState × Nat × Word × Word)),
      let s := actState x.1 x.2.1 x.2.2.1 x.2.2.2
      let s : State := { s with acts := s.acts.map fun a => { a with holder := s.device + 1 } }
      Issuing { ksrc := [(0#7, 2)] } noOwn s cur1 ∧ s.decides 1 5 = false ∧ (s.act? 1 5).map (·.device) = some s.device) ∧
    -- mark
    (Issues { ksrc := [(0#7, 1)] } noOwn ∧ (base.ctx 1).trcEn = false ∧ ((base.onCtx fun x => { x with trcEn := true }).ctx 1).trcEn = true ∧
      (base.blk 1).code ≤ 2 ^ 57) := by
  simp only [List.forall_mem_cons, List.not_mem_nil, false_implies, implies_true, and_true]
  constructorm* _ ∧ _ <;> first | exact issuing_of (by decide +kernel) | decide +kernel

end Sys2Proof.Machine
end

section
/-! LEMMAS AND PROOFS. What each function of the model does to memory, and that every step keeps the canonical form of memory (O60). -/

namespace Sys2Proof.Machine

/-! ## What leaves memory as it is -/

/-- Memory after a choice of two states. -/
@[simp] theorem State.mem_ite (c : Prop) [Decidable c] (a b : State) :
    (if c then a else b).mem = if c then a.mem else b.mem :=
  apply_ite State.mem c a b

/-- What each step of a fold keeps, the fold keeps. -/
theorem foldl_keeps {σ α β : Type} (p : σ → β) (f : σ → α → σ) (h : ∀ a x, p (f a x) = p a) (l : List α) (a : σ) :
    p (l.foldl f a) = p a := by
  induction l generalizing a with
  | nil => rfl
  | cons x l ih => rw [List.foldl_cons, ih, h]

/-- A fold of steps that leave memory alone leaves it alone. -/
@[simp] theorem State.mem_foldl {α : Type} (f : State → α → State) (h : ∀ s x, (f s x).mem = s.mem) (l : List α) (s : State) :
    (l.foldl f s).mem = s.mem := foldl_keeps State.mem f h l s

@[simp] theorem State.nextAction_mem (s : State) : (s.nextAction).2.mem = s.mem := by
  unfold State.nextAction
  split <;> simp
@[simp] theorem State.noteStall_mem (s : State) (ph : Phys) (hist : Bool) : (s.noteStall ph hist).mem = s.mem := by simp [State.noteStall]
@[simp] theorem State.setHostPoison_mem (s : State) (off n : Nat) (v : Bool) : (s.setHostPoison off n v).mem = s.mem := by rfl
@[simp] theorem State.notePast_mem (s : State) (a n : Nat) : (s.notePast a n).mem = s.mem := (sameMemory_notePast ..).mem
@[simp] theorem State.memoMap_mem (s : State) (f : Nat → List Memo → List Memo) : (s.memoMap f).mem = s.mem :=
   Sys2Proof.Machine.memoMap_mem ..
@[simp] theorem State.invalidate_mem (s : State) (line : Nat) (core : Option Nat) (stamp : Nat) :
    (s.invalidate line core stamp).mem = s.mem :=
   Sys2Proof.Machine.invalidate_mem ..
@[simp] theorem State.takeStamp_mem (s : State) (slice floor : Nat) : (s.takeStamp slice floor).2.mem = s.mem :=
   Sys2Proof.Machine.takeStamp_mem ..
@[simp] theorem State.post_mem (s : State) (p : Packet) : (s.post p).mem = s.mem := by rfl
@[simp] theorem State.sendPkt_mem (s : State) (kind vc cls dst off tag ctx : Nat) (spec data : List Byte) :
    (s.sendPkt kind vc cls dst off tag ctx spec data).2.mem = s.mem := by
  rfl
@[simp] theorem State.tellAll_mem (s : State) (code : Nat) (data : List Byte) : (s.tellAll code data).mem = s.mem :=
   (sameMemory_tellAll ..).mem
@[simp] theorem State.endStalls_mem (s : State) (stamp : Nat) : (s.endStalls stamp).mem = s.mem := by rfl
@[simp] theorem State.pinGone_mem (s : State) (stamp : Nat) : (s.pinGone stamp).mem = s.mem := (sameMemory_pinGone ..).mem
@[simp] theorem State.emit_mem (s : State) (kind ctx : Nat) (payload : List Byte) : (s.emit kind ctx payload).mem = s.mem :=
   Sys2Proof.Machine.emit_mem ..
@[simp] theorem State.breakPin_mem (s : State) (ctx h : Nat) : (s.breakPin ctx h).mem = s.mem := (sameMemory_breakPin ..).mem
@[simp] theorem State.reclaim_mem (s : State) (stack : Nat) : (s.reclaim stack).mem = s.mem := (sameMemory_reclaim ..).mem
@[simp] theorem State.logAppend_mem (s : State) (line stamp : Nat) : (s.logAppend line stamp).mem = s.mem := (sameMemory_logAppend ..).mem
@[simp] theorem State.clearPoison_mem (s : State) (off n : Nat) : (s.clearPoison off n).mem = s.mem := (sameMemory_clearPoison ..).mem
@[simp] theorem State.hostGate_mem (s : State) (core floor off : Nat) (bs : List Byte) : (s.hostGate core floor off bs).2.mem = s.mem := by
  unfold State.hostGate
  dsimp only
  (repeat' split) <;> simp
@[simp] theorem State.tlbPut_mem (s : State) (x : Tlb) : (s.tlbPut x).mem = s.mem := by rfl
@[simp] theorem State.tlbFill_mem (s : State) (core ctx va : Nat) (ent : Nat × Nat × Nat) (tables : List (Nat × Nat)) :
    (s.tlbFill core ctx va ent tables).mem = s.mem := by
  simp [State.tlbFill]
@[simp] theorem State.translate_mem (s : State) (core ctx va : Nat) (acc : Acc) (cached : Bool) :
    (s.translate core ctx va acc cached).2.mem = s.mem := by
  unfold State.translate
  dsimp only
  (repeat' split) <;> simp
@[simp] theorem State.cirOf_mem (s : State) (kern : Option Nat) (bit : Nat) : (s.cirOf kern bit).mem = s.mem := by
  unfold State.cirOf
  split <;> simp
@[simp] theorem State.sendReq_mem (s : State) (kind : Nat) (ph : Phys) (tag ctx cls : Nat) (lit : List Byte) (hist rel bad : Bool)
    (floor : Nat) (payload : List Byte) :
    (s.sendReq kind ph tag ctx cls lit hist rel bad floor payload).2.mem = s.mem := by
  rfl
@[simp] theorem State.devSend_mem (s : State) (ctx : Nat) (kern : Option Nat) (x : Xlat) (bs : List Byte) (rel : Bool) (floor : Nat) :
    (s.devSend ctx kern x bs rel floor).mem = s.mem := by
  rfl
@[simp] theorem State.queueFault_mem (s : State) (ctx hw cause status slot va : Nat) :
    (s.queueFault ctx hw cause status slot va).mem = s.mem := by
  rfl
@[simp] theorem State.roomFor_mem (s t : State) : (s.roomFor t).mem = s.mem := by simp [State.roomFor]
@[simp] theorem State.unitSat_mem (s : State) (unit idx n : Nat) : (s.unitSat unit idx n).mem = s.mem := by rfl
@[simp] theorem State.late_mem (s : State) (ctx unit base cls since n : Nat) : (s.late ctx unit base cls since n).mem = s.mem :=
   (sameMemory_late ..).mem
@[simp] theorem State.served_mem (s : State) (slice cls n : Nat) : (s.served slice cls n).mem = s.mem := (sameMemory_served ..).mem
@[simp] theorem State.countWalk_mem (s : State) (core ctx since : Nat) (found : Option Tlb) (first : Bool) :
    (s.countWalk core ctx since found first).mem = s.mem :=
   (sameMemory_countWalk ..).mem
@[simp] theorem State.cirBlk_mem (s : State) (u bit : Nat) : (s.cirBlk u bit).mem = s.mem := by rfl
@[simp] theorem State.endGroup_mem (s : State) (u g : Nat) (cut : Bool) : (s.endGroup u g cut).mem = s.mem := by simp [State.endGroup]
@[simp] theorem State.dropSuspended_mem (s : State) (u g : Nat) : (s.dropSuspended u g).mem = s.mem := by
  unfold State.dropSuspended
  dsimp only
  split <;> simp
@[simp] theorem State.trace_mem (s : State) (u g kind aux lo hi : Nat) : (s.trace u g kind aux lo hi).mem = s.mem := by simp [State.trace]
@[simp] theorem State.traceResume_mem (s : State) (u aux : Nat) (sel : LaneStatus → Bool) : (s.traceResume u aux sel).mem = s.mem := by
  simp [State.traceResume]
@[simp] theorem State.releaseFloor_mem (s : State) (u g : Nat) (sc : Scope) : (s.releaseFloor u g sc).mem = s.mem := by
  unfold State.releaseFloor
  split <;> simp
@[simp] theorem State.raiseFloor_mem (s : State) (u g st : Nat) : (s.raiseFloor u g st).mem = s.mem := by rfl
@[simp] theorem State.acquireFloor_mem (s : State) (u g : Nat) (sc : Scope) : (s.acquireFloor u g sc).mem = s.mem := by rfl
@[simp] theorem State.teamTry_mem (s : State) (t : Nat) : (s.teamTry t).mem = s.mem := by
  unfold State.teamTry
  dsimp only
  split
  · refine Eq.trans (State.mem_foldl _ ?_ _ _) ?_
    · exact fun _ _ => rfl
    · simp
  · rfl
@[simp] theorem State.barrierFloors_mem (s : State) (u : Nat) (sc : Scope) : (s.barrierFloors u sc).mem = s.mem := by
  simp [State.barrierFloors]
@[simp] theorem State.blkTry_mem (s : State) (u : Nat) : (s.blkTry u).mem = s.mem := by simp [State.blkTry]
@[simp] theorem State.cutGroup_mem (s : State) (u g : Nat) : (s.cutGroup u g).mem = s.mem := by simp [State.cutGroup]
@[simp] theorem State.doubleTrap_mem (s : State) (u g : Nat) : (s.doubleTrap u g).mem = s.mem := by simp [State.doubleTrap]
@[simp] theorem State.fetchFault_mem (s : State) (u g : Nat) (run : List Nat) (pc cause : Nat) (poison : Bool) :
    (s.fetchFault u g run pc cause poison).mem = s.mem := by
  simp [State.fetchFault]
@[simp] theorem notReady_mem (s : State) (c : Cur) (r : Reason) : (notReady s c r).mem = s.mem := by rfl
@[simp] theorem callResult_mem (s : State) (i : Issue) (shift : Nat) (target : Nat → Nat) : (callResult s i shift target).s.mem = s.mem := by
  rfl
@[simp] theorem State.meetTry_mem (s : State) (u g : Nat) : (s.meetTry u g).mem = s.mem := by simp [State.meetTry]
@[simp] theorem arrive_mem (s : State) (i : Issue) (st : LaneStatus) (aux : Nat) : (arrive s i st aux).mem = s.mem := by simp [arrive]
@[simp] theorem State.barriers_mem (s : State) (u g : Nat) : (s.barriers u g).mem = s.mem := by simp [State.barriers]
@[simp] theorem State.exitAfter_mem (s : State) (u g : Nat) : (s.exitAfter u g).mem = s.mem := by simp [State.exitAfter]
@[simp] theorem State.loseInterval_mem (s : State) (u : Nat) : (s.loseInterval u).mem = s.mem := by simp [State.loseInterval]
@[simp] theorem State.devNote_mem (s : State) (kern : Option Nat) (ctx va n : Nat) : (s.devNote kern ctx va n).mem = s.mem := by
  unfold State.devNote
  split <;> simp
@[simp] theorem State.resumeEngines_mem (s : State) (u g : Nat) : (s.resumeEngines u g).mem = s.mem := by
  unfold State.resumeEngines
  dsimp only
  split <;> simp
@[simp] theorem State.rettDo_mem (s : State) (u g : Nat) (run : List Nat) : (s.rettDo u g run).mem = s.mem := by simp [State.rettDo]
@[simp] theorem memoLookup_mem (s : State) (c : Cur) (m : Memo) (make : Bool) : (memoLookup s c m make).2.mem = s.mem := by
  unfold memoLookup
  dsimp only
  split <;> simp
@[simp] theorem takeUnit_mem (s : State) (c : Cur) (u : AluUnit) : (takeUnit s c u).mem = s.mem := by
  unfold takeUnit
  split <;> simp
@[simp] theorem State.csrPut_mem (s : State) (u g n v : Nat) : (s.csrPut u g n v).mem = s.mem := by
  unfold State.csrPut
  split <;> simp
@[simp] theorem State.seeWords_mem (s : State) (u g : Nat) (ws : List (Nat × Nat)) : (s.seeWords u g ws).mem = s.mem := by rfl
@[simp] theorem State.cover_mem (s : State) (u g : Nat) (keys : List Nat) : (s.cover u g keys).mem = s.mem := by rfl
@[simp] theorem State.addPend_mem (s : State) (p : Pend) : (s.addPend p).mem = s.mem := by rfl
@[simp] theorem State.addPends_mem (s : State) (ps : List Pend) : (s.addPends ps).mem = s.mem := by simp [State.addPends]
@[simp] theorem issueLoads_mem (s : State) (i : Issue) (ps : List Pend) : (issueLoads s i ps).s.mem = s.mem := by simp [issueLoads]
@[simp] theorem issueStores_mem (s : State) (ps : List Pend) : (issueStores s ps).s.mem = s.mem := by simp [issueStores]
@[simp] theorem memoLoad_mem (s : State) (i : Issue) (u : Uses) (elig : Bool) (key : Memo) (status : Option Nat) (ps : List Pend) :
    (memoLoad s i u elig key status ps).s.mem = s.mem := by
  have look : (if s.memoClear ps then memoLookup s i.c key false else (none, s)).2.mem = s.mem := by
    split
    · exact memoLookup_mem ..
    · rfl
  unfold memoLoad
  dsimp only
  split
  · split <;> rename_i e <;> rw [e] at look <;> simpa using look
  · simp
@[simp] theorem issueAtomics_mem (s : State) (i : Issue) (spec : AtomSpec) (d : VReg) (ps : List Pend) :
    (issueAtomics s i spec d ps).s.mem = s.mem := by
  unfold issueAtomics
  dsimp only
  split <;> simp
@[simp] theorem State.endReuse_mem (s : State) (core quarter : Nat) : (s.endReuse core quarter).mem = s.mem := by rfl
@[simp] theorem State.takeToken_mem (s : State) (i : Issue) (tok : Nat) : (s.takeToken i tok).mem = s.mem := by rfl
@[simp] theorem State.useEntry_mem (s : State) (core : Nat) (f : InUse → InUse) : (s.useEntry core f).mem = s.mem := by rfl
@[simp] theorem State.addCopy_mem (s : State) (i : Issue) (load : Bool) (e : CopyEntry) : (s.addCopy i load e).mem = s.mem := by rfl
@[simp] theorem State.accGrant_mem (s : State) (u : Nat) : (s.accGrant u).mem = s.mem := by simp [State.accGrant]
@[simp] theorem State.accNext_mem (s : State) (core : Nat) : (s.accNext core).mem = s.mem := by
  unfold State.accNext
  dsimp only
  (repeat' split) <;> simp
@[simp] theorem State.addMat_mem (s : State) (i : Issue) (e : MatEntry) : (s.addMat i e).mem = s.mem := by simp [State.addMat]
@[simp] theorem issueMma_mem (kind : MatKind) (rows : Nat) (m : MmaSpec) (s : State) (i : Issue) :
    (issueMma kind rows m s i).s.mem = s.mem := by
  simp [issueMma]
@[simp] theorem State.bmStore_mem (s : State) (u addr : Nat) (bs : List Byte) : (s.bmStore u addr bs).mem = s.mem := by simp [State.bmStore]
@[simp] theorem State.mbarPut_mem (s : State) (u a : Nat) (m : MBar) (isOver : Bool) : (s.mbarPut u a m isOver).mem = s.mem := by
  simp [State.mbarPut]
@[simp] theorem State.mbarExpect_mem (s : State) (u a n : Nat) : (s.mbarExpect u a n).mem = s.mem := by simp [State.mbarExpect]
@[simp] theorem State.kernelTry_mem (s : State) (k : Nat) : (s.kernelTry k).mem = s.mem := by simp [State.kernelTry]
@[simp] theorem State.discardRing_mem (s : State) (h : Nat) : (s.discardRing h).mem = s.mem := by simp [State.discardRing]
@[simp] theorem State.qinit_mem (s : State) (ctx va : Nat) (w2 w3 : Word) : (s.qinit ctx va w2 w3).2.mem = s.mem := by
  unfold State.qinit
  dsimp only
  (repeat' split) <;> simp
@[simp] theorem State.actSlot_mem (s : State) (ctx : Nat) : (s.actSlot ctx).mem = s.mem := by
  unfold State.actSlot
  dsimp only
  (repeat' split) <;> simp
@[simp] theorem State.actBegin_mem (s : State) (u g core : Nat) (attr : Word) : (s.actBegin u g core attr).2.mem = s.mem := by
  unfold State.actBegin
  dsimp only
  (repeat' split) <;> simp
@[simp] theorem State.setAct_mem (s : State) (a : Activity) : (s.setAct a).mem = s.mem := by rfl
@[simp] theorem State.resumeHere_mem (s : State) (a : Activity) (skip : Bool) : (s.resumeHere a skip).mem = s.mem := by rfl
@[simp] theorem State.actEnd_mem (s : State) (a : Activity) : (s.actEnd a).mem = s.mem := by rfl
@[simp] theorem State.actUnpin_mem (s : State) (a : Activity) : (s.actUnpin a).mem = s.mem := by
  unfold State.actUnpin
  split <;> simp
@[simp] theorem State.actTry_mem (s : State) (ctx handle : Nat) : (s.actTry ctx handle).mem = s.mem := by
  unfold State.actTry
  split <;> simp
@[simp] theorem State.actResume_mem (s : State) (ctx : Nat) (h action : Word) : (s.actResume ctx h action).2.mem = s.mem := by
  unfold State.actResume
  dsimp only
  (repeat' split) <;> simp
@[simp] theorem State.noteSeen_mem (s : State) (p : Pend) (what n : Nat) : (s.noteSeen p what n).mem = s.mem := (sameMemory_noteSeen ..).mem
@[simp] theorem State.setOp_mem (s : State) (p : Pend) : (s.setOp p).mem = s.mem := by rfl
@[simp] theorem State.countAccess_mem (s : State) (p : Pend) (x : Xlat) : (s.countAccess p x).mem = s.mem := by simp [State.countAccess]
@[simp] theorem State.see_mem (s : State) (p : Pend) : (s.see p).mem = s.mem := by
  unfold State.see
  split <;> simp
@[simp] theorem State.lift_mem (s : State) (p : Pend) : (s.lift p).mem = s.mem := by rfl
@[simp] theorem State.acquired_mem (s : State) (p : Pend) (sc : Scope) : (s.acquired p sc).mem = s.mem := by rfl
@[simp] theorem State.lateOp_mem (s : State) (p : Pend) : (s.lateOp p).mem = s.mem := by
  unfold State.lateOp
  dsimp only
  (repeat' split) <;> simp
@[simp] theorem State.memoMake_mem (s : State) (u g iid : Nat) (ops : List Pend) : (s.memoMake u g iid ops).mem = s.mem := by
  unfold State.memoMake
  dsimp only
  split <;> simp
@[simp] theorem State.retire_mem (s : State) (u g iid : Nat) : (s.retire u g iid).mem = s.mem := by simp [State.retire]
@[simp] theorem State.returned_mem (s : State) (p : Pend) (ws : List Word) (bad : Bool) (st : Nat) : (s.returned p ws bad st).mem = s.mem := by
  unfold State.returned
  dsimp only
  (repeat' split) <;> simp
@[simp] theorem State.walkFault_mem (s : State) (p : Pend) (cause : Nat) : (s.walkFault p cause).mem = s.mem := by simp [State.walkFault]
@[simp] theorem State.pageWalk_mem (s : State) (p : Pend) (cached : Bool) : (s.pageWalk p cached).mem = s.mem := by
  have look := State.translate_mem s (((s.blk p.blk).core).getD p.core) p.ctx p.addr p.acc cached
  unfold State.pageWalk
  dsimp only
  split
  · rfl
  split
  · rfl
  split
  · rfl
  split <;> rename_i e <;> rw [e] at look <;> simp only at look
  · split
    · split <;> simp [look]
    · simp [look]
  · simp [look]
@[simp] theorem State.retireAll_mem (s : State) (u g : Nat) : (s.retireAll u g).mem = s.mem := by simp [State.retireAll]
@[simp] theorem State.delOp_mem (s : State) (uid : Nat) : (s.delOp uid).mem = s.mem := by rfl
@[simp] theorem State.rollLane_mem (s : State) (p : Pend) (cause L : Nat) : (s.rollLane p cause L).mem = s.mem := by rfl
@[simp] theorem State.lateFault_mem (s : State) (p : Pend) : (s.lateFault p).mem = s.mem := by
  unfold State.lateFault
  split <;> simp
@[simp] theorem State.storeFault_mem (s : State) (p : Pend) : (s.storeFault p).mem = s.mem := by
  unfold State.storeFault
  split <;> simp
@[simp] theorem State.forcedDelivery_mem (s : State) (u g : Nat) : (s.forcedDelivery u g).mem = s.mem := by simp [State.forcedDelivery]
@[simp] theorem State.stalled_mem (s t : State) : (s.stalled t).mem = t.mem := by rfl
@[simp] theorem State.setFull_mem (s : State) (u granule : Nat) (v : Bool) : (s.setFull u granule v).mem = s.mem := by simp [State.setFull]
@[simp] theorem State.addSent_mem (s : State) (u g dev path : Nat) : (s.addSent u g dev path).mem = s.mem := by rfl
@[simp] theorem State.addDest_mem (s : State) (u g dev path : Nat) : (s.addDest u g dev path).mem = s.mem := by rfl
@[simp] theorem State.emptyDests_mem (s : State) (u g : Nat) (sc : Option Scope) : (s.emptyDests u g sc).mem = s.mem := by
  simp [State.emptyDests]
@[simp] theorem State.releasing_mem (s : State) (p : Pend) (sc : Scope) : (s.releasing p sc).mem = s.mem := by simp [State.releasing]
@[simp] theorem State.released_mem (s : State) (p : Pend) : (s.released p).mem = s.mem := by
  unfold State.released
  dsimp only
  (repeat' split) <;> simp
@[simp] theorem State.atomEnd_mem (s : State) (p : Pend) (ws : List Word) (bad : Bool) (st : Nat) : (s.atomEnd p ws bad st).mem = s.mem := by
  unfold State.atomEnd
  dsimp only
  (repeat' split) <;> simp
@[simp] theorem State.askPeer_mem (s : State) (p : Pend) (ph : Phys) (kind : Nat) (lit data : List Byte) :
    (s.askPeer p ph kind lit data).mem = s.mem := by
  unfold State.askPeer
  dsimp only
  (repeat' split) <;> simp
@[simp] theorem State.countLine_mem (s : State) (p : Pend) (hit : Bool) : (s.countLine p hit).mem = s.mem := by rfl
@[simp] theorem State.l1Fill_mem (s : State) (core line st : Nat) : (s.l1Fill core line st).mem = s.mem := by rfl
@[simp] theorem State.loadPhys_mem (s : State) (core : Nat) (p : Pend) (ph : Phys) : (s.loadPhys core p ph).2.2.2.mem = s.mem := by
  unfold State.loadPhys
  dsimp only
  (repeat' split) <;> simp
@[simp] theorem State.loadReturn_mem (s : State) (p : Pend) : (s.loadReturn p).mem = s.mem := by
  unfold State.loadReturn
  dsimp only
  (repeat' split) <;> simp
@[simp] theorem State.bmWrite_mem (s : State) (u addr : Nat) (bs : List Byte) : (s.bmWrite u addr bs).mem = s.mem := by simp [State.bmWrite]
@[simp] theorem State.bmPerform_mem (s : State) (p : Pend) : (s.bmPerform p).mem = s.mem := by simp [State.bmPerform]
@[simp] theorem State.sendMarkers_mem (s : State) (u g tag : Nat) : (s.sendMarkers u g tag).2.mem = s.mem := by simp [State.sendMarkers]
@[simp] theorem State.l1Drop_mem (s : State) (core line : Nat) : (s.l1Drop core line).mem = s.mem := by rfl
@[simp] theorem State.hostHold_mem (s : State) (p : Pend) : (s.hostHold p).mem = s.mem := by rfl
@[simp] theorem State.asofWalk_mem (s : State) (p : Pend) : (s.asofWalk p).mem = s.mem := by
  unfold State.asofWalk
  simp
  (repeat' split) <;> simp
@[simp] theorem State.notifyFault_mem (s : State) (ctx stream va : Nat) : (s.notifyFault ctx stream va).mem = s.mem := by rfl
@[simp] theorem State.countFault_mem (s : State) (ctx va : Nat) : (s.countFault ctx va).mem = s.mem := by simp [State.countFault]
@[simp] theorem State.setHead_mem (s : State) (u g : Nat) (e : MatEntry) : (s.setHead u g e).mem = s.mem := by rfl
@[simp] theorem State.startPass_mem (s : State) (u g : Nat) (e : MatEntry) : (s.startPass u g e).mem = s.mem := by
  have arrays := State.mem_foldl (fun (s : State) n => s.setCore n { s.core n with array := some (u, g) }) (fun _ _ => rfl) (s.arraysOf u e) s
  unfold State.startPass
  dsimp only
  split <;> simp [arrays]
@[simp] theorem State.arbitrate_mem (s : State) (core : Nat) : (s.arbitrate core).mem = s.mem := by
  unfold State.arbitrate
  dsimp only
  (repeat' split) <;> simp
@[simp] theorem State.accRow_mem (s : State) (u r : Nat) (vals : List Word) : (s.accRow u r vals).mem = s.mem := by simp [State.accRow]
@[simp] theorem State.accPut_mem (s : State) (u m r0 : Nat) (vals : Word → Nat → Word) : (s.accPut u m r0 vals).mem = s.mem := by
  unfold State.accPut
  dsimp only
  split <;> simp
@[simp] theorem State.freeArrays_mem (s : State) (u g : Nat) : (s.freeArrays u g).mem = s.mem := by rfl
@[simp] theorem State.tokenSub_mem (s : State) (u g t : Nat) : (s.tokenSub u g t).mem = s.mem := by simp [State.tokenSub]
@[simp] theorem State.coverAdd_mem (s : State) (u g key st : Nat) (devs : List Nat) (saw : List (Nat × Nat)) :
    (s.coverAdd u g key st devs saw).mem = s.mem := by
  rfl
@[simp] theorem State.matDone_mem (s : State) (u g : Nat) (e : MatEntry) : (s.matDone u g e).mem = s.mem := by simp [State.matDone]
@[simp] theorem State.operandBlk_mem (s : State) (u addr : Nat) : (s.operandBlk u addr).2.2.mem = s.mem := by rfl
@[simp] theorem State.engWalk_mem (s : State) (core ctx va : Nat) (found : Option Tlb) (pages : List Nat) :
    (s.engWalk core ctx va found pages).mem = s.mem := by
  simp [State.engWalk]
@[simp] theorem State.engCount_mem (s : State) (ctx va : Nat) (x : Xlat) (store : Bool) (pages : List Nat) :
    (s.engCount ctx va x store pages).2.mem = s.mem := by
  unfold State.engCount
  dsimp only
  split <;> simp

/-! Reads of the engines, and fetches -/

/-- Every state that an answer of an engine's access holds has a property. -/
def EngR.All {α : Type} (P : State → Prop) : EngR α → Prop
  | .ok _ s => P s
  | .wait t => P t
  | .fault _ => True

/-- Every state that a chunk's answer holds has a property. -/
def ChunkR.All (P : State → Prop) : ChunkR → Prop
  | .done _ s => P s
  | .wait t => P t
  | .fault _ _ s => P s

/-- The state that a fetch leaves has a property. -/
def FetchR.All {α : Type} (P : State → Prop) : FetchR α → Prop
  | .ok _ s => P s
  | .fault _ _ => True

theorem State.engXlat_mem (s : State) (u va : Nat) (pages : List Nat) : (s.engXlat u va pages).All (·.mem = s.mem) := by
  have look := s.translate_mem ((s.blk u).core.getD 0) (s.blk u).ctx va .load (s.mayCache 13)
  unfold State.engXlat
  dsimp only
  split <;> rename_i e <;> rw [e] at look
  · trivial
  · simpa [EngR.All] using look

theorem State.engRead_mem (s : State) (cls u va k n : Nat) (pages : List Nat) (x : Xlat) :
    (s.engRead cls u va k n pages x).All (·.mem = s.mem) := by
  unfold State.engRead
  dsimp only
  split
  · simp [EngR.All]
  · split <;> simp [EngR.All]
  · simp [EngR.All]

theorem State.engLoad_mem (s : State) (cls u va n : Nat) (pages : List Nat) : (s.engLoad cls u va n pages).All (·.mem = s.mem) := by
  have hx := s.engXlat_mem u va pages
  unfold State.engLoad
  split <;> rename_i e <;> rw [e] at hx
  · next x t =>
    have hr := t.engRead_mem cls u va 0 n pages x
    rw [show t.mem = s.mem from hx] at hr
    exact hr
  · exact hx
  · trivial

theorem sectorRead_mem (u va : Nat) (b : Bool) (r : RowRead) : (sectorRead u va b r).s.mem = r.s.mem := by
  have hl := r.s.engLoad_mem 1 u va 32 (r.entry.pagesOf b)
  unfold sectorRead
  split
  · rfl
  · split <;> rename_i e <;> rw [e] at hl
    dsimp only
    split <;> exact hl

theorem rowRead_mem (u : Nat) (o : MatSrc) (b : Bool) (row j : Nat) (r : RowRead) : (rowRead u o b row j r).s.mem = r.s.mem := by
  unfold rowRead
  refine foldl_keeps (fun r : RowRead => r.s.mem) _ (fun r i => ?_) _ _
  split
  · rfl
  · split
    · simp
    · exact sectorRead_mem ..

theorem chunkRows_mem (u : Nat) (o : MatSrc) (b : Bool) (rows j : Nat) (r : RowRead) : (chunkRows u o b rows j r).2.s.mem = r.s.mem :=
  foldl_keeps (fun a : List (List Nat × Bool) × RowRead => a.2.s.mem) _ (fun _ _ => rowRead_mem ..) _ _

theorem accLdGlobal_mem (u va : Nat) (e : MatEntry) (s : State) (n : Nat) : (accLdGlobal u va e s n).1.s.mem = s.mem := by
  unfold accLdGlobal
  refine foldl_keeps (fun a : RowRead × List Word => a.1.s.mem) _ (fun a i => ?_) _ _
  split
  · rfl
  · exact sectorRead_mem ..

@[simp] theorem State.keepPages_mem (s : State) (u g : Nat) (t : State) (e : MatEntry) : (s.keepPages u g t e).mem = s.mem := by
  unfold State.keepPages
  split <;> simp
@[simp] theorem State.matAsk_mem (s : State) (u g : Nat) (t : State) (e : MatEntry) (va : Nat) (ph : Phys) (x : Option Xlat) :
    (s.matAsk u g t e va ph x).mem = s.mem := by
  rfl

theorem State.passChunk_mem (s : State) (u g : Nat) (e : MatEntry) : (s.passChunk u g e).All (·.mem = s.mem) := by
  have hB : (chunkRows u e.b true 128 e.progress
      { (chunkRows u e.a false e.m e.progress { s := s, entry := e }).2 with bytes := [], bad := false }).2.s.mem = s.mem :=
    (chunkRows_mem ..).trans (chunkRows_mem ..)
  unfold State.passChunk
  dsimp only
  split <;> simp [ChunkR.All, hB]

@[simp] theorem State.passRun_mem (u g : Nat) : ∀ (n : Nat) (s : State), (s.passRun u g n).mem = s.mem
  | 0, _ => rfl
  | n + 1, s => by
    unfold State.passRun
    split
    · rfl
    · split
      · rfl
      · have hc := s.passChunk_mem u g ‹_›
        split <;> rename_i e <;> rw [e] at hc
        · exact hc
        · exact hc
        · exact (State.passRun_mem u g n _).trans hc
@[simp] theorem State.passPerform_mem (s : State) (u g chunks : Nat) : (s.passPerform u g chunks).mem = s.mem := by
  unfold State.passPerform
  dsimp only
  (repeat' split) <;> simp
@[simp] theorem State.bmEngine_mem (s : State) (u addr : Nat) (bs : List Byte) (poison : Bool) :
    (s.bmEngine u addr bs poison).mem = s.mem := by
  simp [State.bmEngine]
@[simp] theorem State.mbarCredit_mem (s : State) (u a n : Nat) : (s.mbarCredit u a n).mem = s.mem := by simp [State.mbarCredit]
@[simp] theorem State.faultPoison_mem (s : State) (u va : Nat) (acc : Acc) : (s.faultPoison u va acc).mem = s.mem := by
  unfold State.faultPoison
  split <;> simp
@[simp] theorem State.putCopy_mem (s : State) (r : EngRef) (e : Option CopyEntry) : (s.putCopy r e).mem = s.mem := by
  unfold State.putCopy
  split <;> simp
@[simp] theorem State.setChan_mem (s : State) (core ch : Nat) (x : Chan) : (s.setChan core ch x).mem = s.mem := by rfl
@[simp] theorem State.copyNext_mem (s : State) (r : EngRef) (e : CopyEntry) : (s.copyNext r e).mem = s.mem := by simp [State.copyNext]
@[simp] theorem State.deliverSector_mem (s : State) (r : EngRef) (e : CopyEntry) (bs : List Byte) (bad : Bool) :
    (s.deliverSector r e bs bad).mem = s.mem := by
  unfold State.deliverSector
  dsimp only
  (repeat' split) <;> simp

@[simp] theorem State.sectorIn_mem (s : State) (r : EngRef) (e : CopyEntry) : (s.sectorIn r e).mem = s.mem := by
  have hl := s.engLoad_mem (copyClass (s.blk e.blk).ctx) e.blk (e.sectorVa e.progress) 32 e.pages
  unfold State.sectorIn
  split
  · simp
  · split
    · next h =>
      rw [h] at hl
      dsimp only
      split <;> simpa [EngR.All] using hl
    · rfl
/-- The markers of a copy's release change no memory. -/
theorem State.copyMarkers_mem {s : State} {r : EngRef} {e : CopyEntry} {t : State} (h : s.copyMarkers r e = some t) : t.mem = s.mem := by
  unfold State.copyMarkers at h
  split at h
  · cases hm : e.markers with
    | none =>
      rw [hm] at h
      cases h
      simp
    | some l =>
      rw [hm] at h
      cases l <;> cases h
      rfl
  · cases h
@[simp] theorem State.copyPerform_mem (s : State) (r : EngRef) : (s.copyPerform r).mem = s.mem := by
  unfold State.copyPerform
  split <;> simp
@[simp] theorem State.chainEnd_mem (s : State) (core ch : Nat) (x : Chan) : (s.chainEnd core ch x).mem = s.mem := by simp [State.chainEnd]
@[simp] theorem State.markBad_mem (s : State) (regs : List BadReg) : (s.markBad regs).mem = s.mem := by
  unfold State.markBad
  exact State.mem_foldl _ (fun _ _ => by simp) _ _
@[simp] theorem State.uncorrectable_mem (s : State) (u : Nat) (kind : ErrKind) : (s.uncorrectable u kind).mem = s.mem := by
  unfold State.uncorrectable
  split <;> simp
@[simp] theorem State.blockRollback_mem (s : State) (u : Nat) : (s.blockRollback u).mem = s.mem := by simp [State.blockRollback]
@[simp] theorem State.popFault_mem (s : State) (ctx h : Nat) : (s.popFault ctx h).mem = s.mem := by rfl
@[simp] theorem State.headGone_mem (s : State) (q : HwQueue) : (s.headGone q).mem = s.mem := by simp [State.headGone]
@[simp] theorem State.seat_mem (s : State) (u core : Nat) : (s.seat u core).mem = s.mem := by simp [State.seat]
@[simp] theorem State.bind_mem (s : State) (team : Nat) (us cores : List Nat) : (s.bind team us cores).mem = s.mem := by rfl
@[simp] theorem State.traceSync_mem (s : State) (u g : Nat) : (s.traceSync u g).mem = s.mem := by simp [State.traceSync]
@[simp] theorem State.reside_mem (s : State) (ctx : Nat) : (s.reside ctx).mem = s.mem := by simp [State.reside]
@[simp] theorem State.readmit_mem (s : State) (ctx h : Nat) (us cores : List Nat) : (s.readmit ctx h us cores).mem = s.mem := by
  simp [State.readmit]
@[simp] theorem State.startKernel_mem (s : State) (ctx h : Nat) (r : Rec) : (s.startKernel ctx h r).2.mem = s.mem := by
  unfold State.startKernel
  dsimp only
  split <;> simp
@[simp] theorem State.newBlock_mem (s : State) (ctx h : Nat) (r : Rec) (kernel team role bid stamp : Nat) :
    (s.newBlock ctx h r kernel team role bid stamp).2.mem = s.mem := by
  rfl
@[simp] theorem State.newTeam_mem (s : State) (ctx h : Nat) (r : Rec) (stamp : Nat) (cores : List Nat) :
    (s.newTeam ctx h r stamp cores).mem = s.mem := by
  have made : ∀ (f : List Nat × State → Nat × Nat → List Nat × State) (_ : ∀ a x, (f a x).2.mem = a.2.mem) (l : List (Nat × Nat))
      (a : List Nat × State), (l.foldl f a).2.mem = a.2.mem := fun f hf l a => foldl_keeps (fun a : List Nat × State => a.2.mem) f hf l a
  unfold State.newTeam
  simp [made]
@[simp] theorem State.reserve_mem (s : State) (h : Nat) : (s.reserve h).mem = s.mem := by
  unfold State.reserve
  dsimp only
  (repeat' split) <;> simp
@[simp] theorem State.markEvict_mem (s : State) (u : Nat) : (s.markEvict u).mem = s.mem := by
  unfold State.markEvict
  exact State.mem_foldl _ (fun _ _ => by simp) _ _
@[simp] theorem State.partialEvict_mem (s : State) (ctx core : Nat) : (s.partialEvict ctx core).mem = s.mem := by
  unfold State.partialEvict
  dsimp only
  (repeat' split) <;> simp
@[simp] theorem State.unseat_mem (s : State) (u : Nat) : (s.unseat u).mem = s.mem := by
  unfold State.unseat
  dsimp only
  split <;> simp
@[simp] theorem State.blockEvict_mem (s : State) (u : Nat) : (s.blockEvict u).mem = s.mem := by simp [State.blockEvict]
@[simp] theorem State.freeBlock_mem (s : State) (u : Nat) : (s.freeBlock u).mem = s.mem := by simp [State.freeBlock]
@[simp] theorem State.stick_mem (s : State) (a : Activity) (reason device stamp : Nat) : (s.stick a reason device stamp).mem = s.mem := by
  rfl
@[simp] theorem State.stickHere_mem (s : State) (e : Entry) (reason : Nat) : (s.stickHere e reason).mem = s.mem := by
  unfold State.stickHere
  split <;> simp
@[simp] theorem State.setEntry_mem (s : State) (e : Entry) : (s.setEntry e).mem = s.mem := by rfl
@[simp] theorem State.routineFail_mem (s : State) (e : Entry) (operand : Word) : (s.routineFail e operand).mem = s.mem := by
  simp [State.routineFail]
@[simp] theorem State.routineGone_mem (s : State) (u : Nat) : (s.routineGone u).mem = s.mem := by
  unfold State.routineGone
  dsimp only
  (repeat' split) <;> simp
@[simp] theorem State.kernelEvent_mem (s : State) (K : Kernel) (status : Nat) (faulted : Bool) :
    (s.kernelEvent K status faulted).mem = s.mem := by
  simp [State.kernelEvent]
@[simp] theorem State.killKernel_mem (s : State) (k status : Nat) : (s.killKernel k status).mem = s.mem := by simp [State.killKernel]
@[simp] theorem State.watchdog_mem (s : State) (k : Nat) : (s.watchdog k).mem = s.mem := by simp [State.watchdog]
@[simp] theorem State.removeBlock_mem (s : State) (u : Nat) : (s.removeBlock u).mem = s.mem := by simp [State.removeBlock]
@[simp] theorem State.killRecords_mem (ctx h : Nat) : ∀ (n : Nat) (s : State) (i : Word), (s.killRecords ctx h n i).mem = s.mem
  | 0, _, _ => rfl
  | n + 1, s, i => by
    rw [State.killRecords, State.killRecords_mem ctx h n]
    dsimp only
    split
    · split <;> simp
    · rfl
@[simp] theorem State.killQueue_mem (s : State) (ctx h : Nat) : (s.killQueue ctx h).mem = s.mem := by simp [State.killQueue]
@[simp] theorem State.compensationStart_mem (s : State) (uid : Nat) : (s.compensationStart uid).mem = s.mem := by
  unfold State.compensationStart
  split <;> simp
@[simp] theorem State.commitTry_mem (s : State) (ctx handle : Nat) : (s.commitTry ctx handle).mem = s.mem := by
  unfold State.commitTry
  split <;> simp
@[simp] theorem State.commitDiscard_mem (s : State) (ctx handle member : Nat) : (s.commitDiscard ctx handle member).mem = s.mem := by
  unfold State.commitDiscard
  dsimp only
  (repeat' split) <;> simp
@[simp] theorem State.actTimeout_mem (s : State) (uid : Nat) : (s.actTimeout uid).mem = s.mem := by
  unfold State.actTimeout
  split <;> simp
@[simp] theorem State.historyReclaim_mem (s : State) (stack : Nat) : (s.historyReclaim stack).mem = s.mem := by
  unfold State.historyReclaim
  split <;> simp
@[simp] theorem State.retentionExpiry_mem (s : State) (stack : Nat) : (s.retentionExpiry stack).mem = s.mem := by
  unfold State.retentionExpiry
  dsimp only
  split <;> simp
@[simp] theorem State.pinTimeout_mem (s : State) (ctx h : Nat) : (s.pinTimeout ctx h).mem = s.mem := by simp [State.pinTimeout]
@[simp] theorem State.zeroFloors_mem (s : State) : (s.zeroFloors).mem = s.mem := by rfl
@[simp] theorem State.dropHistory_mem (s : State) : (s.dropHistory).mem = s.mem := by rfl
@[simp] theorem State.rebase_mem (s : State) : (s.rebase).mem = s.mem := by simp [State.rebase]
@[simp] theorem State.lateUnit_mem (s : State) (unit base cls since n : Nat) : (s.lateUnit unit base cls since n).mem = s.mem :=
   (sameMemory_lateUnit ..).mem
@[simp] theorem State.rekey_mem (s : State) (page : Nat) : (s.rekey page).mem = s.mem := by simp [State.rekey]
@[simp] theorem State.scrub_mem (s : State) (line : Nat) : (s.scrub line).mem = s.mem := by simp [State.scrub]
@[simp] theorem State.setDue_mem (s : State) (core quarter ctx : Nat) (l : List (List Byte)) : (s.setDue core quarter ctx l).mem = s.mem := by
  rfl
@[simp] theorem State.stopNow_mem (s : State) : (s.stopNow).mem = s.mem := by simp [State.stopNow]
@[simp] theorem State.dropped_mem (s : State) (source cause off : Nat) : (s.dropped source cause off).mem = s.mem :=
   Sys2Proof.Machine.dropped_mem ..
@[simp] theorem State.stopResume_mem (s : State) (host : Nat) : (s.stopResume host).mem = s.mem := by simp [State.stopResume]
@[simp] theorem State.quadTest_mem (s : State) (q : Nat) : (s.quadTest q).mem = s.mem := by simp [State.quadTest]
@[simp] theorem State.quarantineQuad_mem (s : State) (q : Nat) : (s.quarantineQuad q).mem = s.mem := by simp [State.quarantineQuad]
@[simp] theorem State.quadDone_mem (s : State) (q : Nat) (pass : Bool) : (s.quadDone q pass).mem = s.mem := by simp [State.quadDone]
@[simp] theorem State.doorbell_mem (s : State) (host hwq : Nat) (v : Word) : (s.doorbell host hwq v).mem = s.mem := by simp [State.doorbell]
@[simp] theorem State.setOwner_mem (s : State) (new : Option Nat) (cause : Nat) : (s.setOwner new cause).mem = s.mem := by rfl
@[simp] theorem State.grant_mem (s : State) : (s.grant).mem = s.mem := by
  unfold State.grant
  simp
  (repeat' split) <;> simp
@[simp] theorem status_mem (n : Nat) (s : State) : (status n s).2.mem = s.mem := by rfl
@[simp] theorem State.lapse_mem (s : State) : (s.lapse).mem = s.mem := by simp [State.lapse]
@[simp] theorem State.setHbPeriod_mem (s : State) (host : Nat) (v : Word) : (s.setHbPeriod host v).mem = s.mem := by
  simp [State.setHbPeriod]
@[simp] theorem State.setHmemctx_mem (s : State) (host : Nat) (v : Word) : (s.setHmemctx host v).mem = s.mem := by simp [State.setHmemctx]
@[simp] theorem State.roWrite_mem (s : State) (host off cur : Nat) (v : Word) : (s.roWrite host off cur v).mem = s.mem := by
  simp [State.roWrite]
@[simp] theorem State.windowWrite_mem (s : State) (host off : Nat) (v : Word) : (s.windowWrite host off v).mem = s.mem := by
  unfold State.windowWrite
  split <;> simp
@[simp] theorem State.mapRow_mem (s : State) (host region at_ : Nat) (v : Word) : (s.mapRow host region at_ v).mem = s.mem := by
  simp [State.mapRow]
@[simp] theorem State.mapLoad_mem (s : State) (host region : Nat) (v : Word) : (s.mapLoad host region v).mem = s.mem := by
  simp [State.mapLoad]
@[simp] theorem State.killOld_mem (s : State) : (s.killOld).mem = s.mem := by rfl
@[simp] theorem State.memcfg_mem (s : State) (host : Nat) (v : Word) : (s.memcfg host v).mem = s.mem := by
  have dusks := State.mem_foldl (fun (s : State) n => s.setSlice n { s.slice n with dusk := s.sliceT n }) (fun _ _ => rfl)
  unfold State.memcfg
  simp [dusks]
@[simp] theorem State.deviceWrite_mem (s : State) (host at_ : Nat) (v : Word) : (s.deviceWrite host at_ v).mem = s.mem := by
  unfold State.deviceWrite
  split <;> simp
@[simp] theorem State.samplePeriod_mem (s : State) (host ctx : Nat) (v : Word) : (s.samplePeriod host ctx v).mem = s.mem := by
  simp [State.samplePeriod]
@[simp] theorem State.traceEnable_mem (s : State) (host ctx : Nat) (v : Word) : (s.traceEnable host ctx v).mem = s.mem := by
  simp [State.traceEnable]
@[simp] theorem State.ctxBlockWrite_mem (s : State) (host ctx at_ : Nat) (v : Word) : (s.ctxBlockWrite host ctx at_ v).mem = s.mem := by
  unfold State.ctxBlockWrite
  split <;> simp
@[simp] theorem State.csrSpaceWrite_mem (s : State) (host off : Nat) (v : Word) : (s.csrSpaceWrite host off v).mem = s.mem := by
  simp [State.csrSpaceWrite]
@[simp] theorem State.registerWrite_mem (s : State) (host off : Nat) (v : Word) : (s.registerWrite host off v).mem = s.mem := by
  simp [State.registerWrite]
@[simp] theorem State.hostServed_mem (s : State) (off n : Nat) : (s.hostServed off n).mem = s.mem := (sameMemory_hostServed ..).mem
@[simp] theorem State.hostRead_mem (s : State) (host off n : Nat) : (s.hostRead host off n).mem = s.mem := by simp [State.hostRead]
@[simp] theorem State.ctxCreate_mem (s : State) (pa : Nat) : (s.ctxCreate pa).2.mem = s.mem := by
  unfold State.ctxCreate
  dsimp only
  split
  · rfl
  split
  · rfl
  split
  · rfl
  · exact Eq.trans (State.mem_foldl (fun (s : State) (x : Nat × Nat) => s.setQueue x.1 _) (fun _ _ => rfl) _ _) rfl
@[simp] theorem State.ctxStop_mem (s : State) (ctx : Nat) : (s.ctxStop ctx).2.mem = s.mem := by
  unfold State.ctxStop
  dsimp only
  split <;> simp
@[simp] theorem State.ctxResume_mem (s : State) (ctx : Nat) : (s.ctxResume ctx).2.mem = s.mem := by
  unfold State.ctxResume
  dsimp only
  split <;> simp
@[simp] theorem State.abandon_mem (s : State) (a : Activity) : (s.abandon a).mem = s.mem := by simp [State.abandon]
@[simp] theorem State.dropCtx_mem (s : State) (ctx : Nat) : (s.dropCtx ctx).mem = s.mem := by simp [State.dropCtx]
@[simp] theorem State.ctxDestroy_mem (s : State) (ctx : Nat) : (s.ctxDestroy ctx).2.mem = s.mem := by
  unfold State.ctxDestroy
  split
  · rfl
  · split <;> simp
@[simp] theorem State.tlbFresh_mem (s : State) (o : TlbOp) : (s.tlbFresh o).mem = s.mem := by rfl
@[simp] theorem State.tlbDrop_mem (s : State) (o : TlbOp) : (s.tlbDrop o).mem = s.mem := by rfl
@[simp] theorem State.tlbInval_mem (s : State) (c : Cmd) (va : DWord) (op zero : Word) : (s.tlbInval c va op zero).2.mem = s.mem := by
  unfold State.tlbInval
  dsimp only
  (repeat' split) <;> simp
@[simp] theorem State.enter_mem (s : State) (st cause : Nat) : (s.enter st cause).mem = s.mem := by rfl
@[simp] theorem State.broadcast_mem (s : State) (code : Nat) : (s.broadcast code).mem = s.mem := by simp [State.broadcast]
@[simp] theorem State.drain_mem (s : State) (cause : Nat) : (s.drain cause).mem = s.mem := by simp [State.drain]
@[simp] theorem State.resetPorts_mem (s : State) (trains : Bool) : (s.resetPorts trains).mem = s.mem := by rfl
@[simp] theorem State.bootStart_mem (s : State) (cause : Nat) : (s.bootStart cause).mem = s.mem := by
  unfold State.bootStart
  dsimp only
  split <;> simp
@[simp] theorem State.dropCompute_mem (s : State) : (s.dropCompute).mem = s.mem := by rfl
@[simp] theorem State.sendBlock_mem (s : State) (n vc : Nat) : (s.sendBlock n vc).mem = s.mem := by rfl
@[simp] theorem State.enqueue_mem (s : State) (p : Packet) : (s.enqueue p).mem = s.mem := by
  unfold State.enqueue
  split <;> simp
@[simp] theorem State.sendNow_mem (s : State) : (s.sendNow).mem = s.mem := by
  unfold State.sendNow
  refine State.mem_foldl _ (fun s p => ?_) _ _
  split <;> simp
@[simp] theorem State.domainConfig_mem (s : State) (t : DomainTable) : (s.domainConfig t).2.mem = s.mem := by
  unfold State.domainConfig
  split <;> simp
@[simp] theorem State.retestQuad_mem (s : State) (q : Nat) (pass : Bool) : (s.retestQuad q pass).2.mem = s.mem := by
  unfold State.retestQuad
  dsimp only
  (repeat' split) <;> simp
@[simp] theorem State.fwStatus_mem (s : State) (bank : Bool) (event version : Nat) : (s.fwStatus bank event version).mem = s.mem := by rfl
@[simp] theorem State.fwUpdate_mem (s : State) (image : FwImage) : (s.fwUpdate image).2.mem = s.mem := by
  unfold State.fwUpdate
  dsimp only
  split <;> simp
@[simp] theorem State.spdm_mem (s : State) (host : Nat) (r : Spdm) : (s.spdm host r).mem = s.mem := by simp [State.spdm]
@[simp] theorem State.bootFailed_mem (s : State) : (s.bootFailed).mem = s.mem := by simp [State.bootFailed]
@[simp] theorem State.bootVerified_mem (s : State) (fwOk : Bool) : (s.bootVerified fwOk).mem = s.mem := by simp [State.bootVerified]
@[simp] theorem State.computeRelease_mem (s : State) : (s.computeRelease).mem = s.mem := by
  have dusks := State.mem_foldl (fun (s : State) n => s.setSlice n { s.slice n with dusk := s.sliceT n }) (fun _ _ => rfl)
  have queues := State.mem_foldl (fun (s : State) (x : Nat × Nat) => if x.2 = 0 then s else s.setQueue (x.2 - 1) { bound := some 0, index := x.1 })
    (fun _ _ => by split <;> rfl)
  unfold State.computeRelease
  simp [dusks, queues]
@[simp] theorem State.dieBeat_mem (s : State) (die : Nat) : (s.dieBeat die).mem = s.mem := by simp [State.dieBeat]
@[simp] theorem State.hang_mem (s : State) (die : Nat) : (s.hang die).mem = s.mem := by simp [State.hang]
@[simp] theorem State.loseContexts_mem (s : State) (cause : Nat) : (s.loseContexts cause).mem = s.mem := by simp [State.loseContexts]
@[simp] theorem State.actsLose_mem (s : State) (dev : Nat) : (s.actsLose dev).mem = s.mem := by
  unfold State.actsLose
  refine State.mem_foldl _ (fun s a => ?_) _ _
  dsimp only
  generalize s.takeOver dev _ = b
  split
  · simp
  · split <;> simp
@[simp] theorem State.markerGone_mem (s : State) (tag : Option Nat) (dev : Nat) (path : Option Nat) :
    (s.markerGone tag dev path).mem = s.mem := by
  rfl
@[simp] theorem State.opAnswered_mem (s : State) (p : Pend) (a : Answer) : (s.opAnswered p a).mem = s.mem := by
  unfold State.opAnswered
  dsimp only
  (repeat' split) <;> simp
@[simp] theorem State.copyAnswered_mem (s : State) (r : EngRef) (e : CopyEntry) (a : Answer) : (s.copyAnswered r e a).mem = s.mem := by
  unfold State.copyAnswered
  dsimp only
  (repeat' split) <;> simp
@[simp] theorem State.recAnswered_mem (s : State) (core ch : Nat) (x : Chan) (a : Answer) : (s.recAnswered core ch x a).mem = s.mem := by
  simp [State.recAnswered]
@[simp] theorem State.matAnswered_mem (s : State) (u g : Nat) (e : MatEntry) (a : Answer) : (s.matAnswered u g e a).mem = s.mem := by
  simp [State.matAnswered]
@[simp] theorem State.devAnswered_mem (s : State) (tag : Nat) (a : Answer) : (s.devAnswered tag a).mem = s.mem := by
  unfold State.devAnswered
  dsimp only
  (repeat' split) <;> simp
@[simp] theorem State.answered_mem (s : State) (tag : Nat) (a : Answer) : (s.answered tag a).mem = s.mem := by
  unfold State.answered
  dsimp only
  (repeat' split) <;> simp
@[simp] theorem State.loseMember_mem (s : State) (dev cause : Nat) : (s.loseMember dev cause).mem = s.mem := by simp [State.loseMember]
@[simp] theorem State.upFrom_mem (s : State) (dev : Nat) (inc : BitVec 8) : (s.upFrom dev inc).mem = s.mem := by simp [State.upFrom]
@[simp] theorem State.unreachable_mem (s : State) (dev : Nat) : (s.unreachable dev).mem = s.mem := by simp [State.unreachable]
@[simp] theorem State.skewTimeout_mem (s : State) (dev : Nat) : (s.skewTimeout dev).mem = s.mem := by
  unfold State.skewTimeout
  split <;> simp
@[simp] theorem State.portAdd_mem (s : State) (port idx : Nat) : (s.portAdd port idx).mem = s.mem := by rfl
@[simp] theorem State.blockReceived_mem (s : State) (port : Nat) (b : LinkBlock) : (s.blockReceived port b).mem = s.mem := by
  simp [State.blockReceived]
@[simp] theorem State.linkRetrain_mem (s : State) (port : Nat) : (s.linkRetrain port).mem = s.mem := by simp [State.linkRetrain]
@[simp] theorem State.portTrained_mem (s : State) (port lanes : Nat) : (s.portTrained port lanes).mem = s.mem := by simp [State.portTrained]
@[simp] theorem State.portDown_mem (s : State) (port : Nat) (farSide : Bool) : (s.portDown port farSide).mem = s.mem := by
  simp [State.portDown]
@[simp] theorem State.respond_mem (s : State) (p : Packet) (kind flags st : Nat) (data : List Byte) :
    (s.respond p kind flags st data).mem = s.mem := by
  rfl
@[simp] theorem State.discardPkt_mem (s : State) : (s.discardPkt).mem = s.mem := by rfl
@[simp] theorem State.badPkt_mem (s : State) (p : Packet) : (s.badPkt p).mem = s.mem := by simp [State.badPkt]
@[simp] theorem State.pass_mem (s : State) (p : Packet) : (s.pass p).mem = s.mem := by rfl
@[simp] theorem State.keepPkt_mem (s : State) (p : Packet) : (s.keepPkt p).mem = s.mem := by simp [State.keepPkt]
/-- An accepted packet changes no memory. -/
theorem State.arrive?_mem {s t : State} {p : Packet} (h : s.arrive? p = .accept t) : t.mem = s.mem := by
  unfold State.arrive? at h
  split at h
  · cases h
  split at h
  · cases h
  split at h
  · cases h
  dsimp only at h
  split at h
  · cases h
    rfl
  · split at h <;> cases h

/-- What a packet that arrives does to memory: nothing, or what serving it does. -/
theorem State.receive_cases (s : State) (kind : Nat) (p : Packet) (act : State → State) :
    (s.receive kind p act).mem = s.mem ∨ ∃ t, t.mem = s.mem ∧ s.receive kind p act = act t := by
  unfold State.receive
  split
  · exact .inl rfl
  split
  · exact .inl rfl
  · exact .inl (by simp)
  · exact .inl (by simp)
  · left
    split <;> rfl
  · next t h =>
    dsimp only
    split
    · exact .inl (by simpa using State.arrive?_mem h)
    · exact .inr ⟨{ t with rx := t.rx.erase p }, (show t.mem = s.mem from State.arrive?_mem h), rfl⟩
  · split
    · exact .inl (by simp)
    · split
      · exact .inl rfl
      · exact .inr ⟨{ s with rx := s.rx.erase p }, rfl, rfl⟩

@[simp] theorem State.receive_mem (s : State) (kind : Nat) (p : Packet) (act : State → State) (h : ∀ s, (act s).mem = s.mem) :
    (s.receive kind p act).mem = s.mem := by
  rcases s.receive_cases kind p act with e | ⟨t, e, f⟩
  · exact e
  · rw [f, h, e]

@[simp] theorem State.serve_mem (s : State) (p : Packet) : (s.serve p).mem = s.mem := by simp [State.serve]
@[simp] theorem State.peerRead_mem (s : State) (p : Packet) : (s.peerRead p).mem = s.mem := by
  unfold State.peerRead
  refine s.receive_mem 0 p _ fun s => ?_
  dsimp only
  split
  · simp
  split
  · split <;> simp
  · simp
@[simp] theorem State.peerPoison_mem (s : State) (p : Packet) (bad : Bool) : (s.peerPoison p bad).mem = s.mem := by simp [State.peerPoison]
@[simp] theorem State.peerMarker_mem (s : State) (p : Packet) : (s.peerMarker p).mem = s.mem := by simp [State.peerMarker]
@[simp] theorem State.markerAcked_mem (s : State) (p : Packet) : (s.markerAcked p).mem = s.mem := by simp [State.markerAcked]
@[simp] theorem State.takePkt_mem (s : State) (kind : Nat) (p : Packet) (act : State → State) (h : ∀ s, (act s).mem = s.mem) :
    (s.takePkt kind p act).mem = s.mem := by
  unfold State.takePkt
  simp [h]
@[simp] theorem State.e2eAcked_mem (s : State) (p : Packet) : (s.e2eAcked p).mem = s.mem := by simp [State.e2eAcked]
@[simp] theorem State.upPacket_mem (s : State) (p : Packet) (inc : BitVec 8) : (s.upPacket p inc).mem = s.mem := by simp [State.upPacket]
@[simp] theorem State.tickSync_mem (s : State) (dev tick : Nat) : (s.tickSync dev tick).mem = s.mem := by simp [State.tickSync]
@[simp] theorem State.management_mem (s : State) (p : Packet) (m : Management) : (s.management p m).mem = s.mem := by
  unfold State.management
  simp
  (repeat' split) <;> simp
@[simp] theorem State.e2eAckSend_mem (s : State) (dev path : Nat) : (s.e2eAckSend dev path).mem = s.mem := by rfl
@[simp] theorem State.escapeMove_mem (s : State) (port vc : Nat) : (s.escapeMove port vc).mem = s.mem := by simp [State.escapeMove]
@[simp] theorem State.throttle_mem (s : State) (die k : Nat) : (s.throttle die k).mem = s.mem := by simp [State.throttle]
@[simp] theorem State.illegalPacket_mem (s : State) (p : Packet) : (s.illegalPacket p).mem = s.mem := by simp [State.illegalPacket]

theorem State.recSectors_mem (core ch : Nat) (xl : Xlat) : ∀ (n : Nat) (s : State) (x : Chan) (pages : List Nat),
    (s.recSectors core ch x pages xl n).All (·.mem = s.mem)
  | 0, _, _, _ => rfl
  | n + 1, s, x, pages => by
    unfold State.recSectors
    split
    · rfl
    · have hr := s.engRead_mem (copyClass (s.blk x.blk).ctx) x.blk x.recVa x.rcd.length 32 pages xl
      dsimp only
      split <;> rename_i h <;> rw [h] at hr
      · split
        · simpa [EngR.All] using hr
        · exact (show _ = s.mem from hr) ▸ State.recSectors_mem core ch xl n ..
      · exact hr
      · trivial

theorem State.recRead_mem (s : State) (core ch : Nat) (x : Chan) (pages : List Nat) : (s.recRead core ch x pages).All (·.mem = s.mem) := by
  have hx := s.engXlat_mem x.blk x.recVa pages
  unfold State.recRead
  split
  · rfl
  split
  · exact State.recSectors_mem ..
  split <;> rename_i h <;> rw [h] at hx
  · exact (show _ = s.mem from hx) ▸ State.recSectors_mem core ch ..
  · exact hx
  · trivial

theorem State.fetchAt_mem (s : State) (u pc : Nat) : (s.fetchAt u pc).All (·.mem = s.mem) := by
  have look := ({ s with fresh := s.fresh + 1 } : State).translate_mem ((s.blk u).core.getD 0) (s.blk u).ctx pc .fetch (s.mayCache 23)
  unfold State.fetchAt
  dsimp only
  split <;> rename_i h <;> rw [h] at look
  · trivial
  · simpa [FetchR.All] using look

theorem State.fetchLits_mem (u : Nat) : ∀ (n : Nat) (s : State) (pc : Nat) (x : Phys), (s.fetchLits u n pc x).All (·.mem = s.mem)
  | 0, _, _, _ => rfl
  | n + 1, s, pc, x => by
    have hn : (if pcAfter pc 1 / 4096 = pc / 4096 then FetchR.ok { x with off := x.off + 4 } s else s.fetchAt u (pcAfter pc 1)).All
        (·.mem = s.mem) := by
      split
      · rfl
      · exact s.fetchAt_mem ..
    unfold State.fetchLits
    dsimp only
    split <;> rename_i h <;> rw [h] at hn
    · trivial
    · next y t =>
      have ih := State.fetchLits_mem u n t (pcAfter pc 1) y
      split <;> rename_i h <;> rw [h] at ih
      · trivial
      · exact Eq.trans ih hn

theorem State.fetch_mem (s : State) (u pc : Nat) : (s.fetch u pc).All (·.mem = s.mem) := by
  have ha := s.fetchAt_mem u pc
  unfold State.fetch
  split <;> rename_i h <;> rw [h] at ha
  · trivial
  · next x t =>
    have hl := State.fetchLits_mem u ((litCount (t.codeWord (s.blk u).ctx x)).getD 0) t pc x
    dsimp only
    split <;> rename_i h <;> rw [h] at hl
    · trivial
    · exact Eq.trans hl ha

@[simp] theorem State.freeRegs_mem (s : State) (core : Nat) : (s.freeRegs core).mem = s.mem := by
  unfold State.freeRegs
  dsimp only
  split <;> simp
@[simp] theorem State.traceIssue_mem (s : State) (u g : Nat) (run : List Nat) : (s.traceIssue u g run).mem = s.mem := by
  unfold State.traceIssue
  dsimp only
  (repeat' split) <;> simp
@[simp] theorem State.afterIssue_mem (s : State) (c : Cur) (trapped : Bool) : (s.afterIssue c trapped).mem = s.mem := by
  simp [State.afterIssue]
@[simp] theorem State.arbMove_mem (s : State) (core quarter r : Nat) (served : Bool) : (s.arbMove core quarter r served).mem = s.mem := by
  rfl
@[simp] theorem State.setWhy_mem (s : State) (now u g code : Nat) : (s.setWhy now u g code).mem = s.mem := by rfl
@[simp] theorem State.actSettle_mem (s : State) (a : Activity) : (s.actSettle a).mem = s.mem := by
  unfold State.actSettle
  simp
  (repeat' split) <;> simp
@[simp] theorem State.actTick_mem (s : State) : (s.actTick).mem = s.mem := by simp [State.actTick]
@[simp] theorem State.residency_mem (s : State) : (s.residency).mem = s.mem := by
  unfold State.residency
  refine Eq.trans (State.mem_foldl _ ?_ _ _) (State.mem_foldl _ ?_ _ _)
  · exact fun _ _ => rfl
  · exact fun _ _ => rfl
@[simp] theorem State.queueTick_mem (s : State) : (s.queueTick).mem = s.mem := by rfl
@[simp] theorem State.quadTick_mem (s : State) : (s.quadTick).mem = s.mem := by
  unfold State.quadTick
  exact State.mem_foldl _ (fun _ _ => by simp) _ _
@[simp] theorem State.advance_mem (s : State) : (s.advance).mem = s.mem := by simp [State.advance]
@[simp] theorem State.sampleCount_mem (s : State) (core quarter ctx : Nat) : (s.sampleCount core quarter ctx).mem = s.mem := by
  simp [State.sampleCount]
/-- The cycle counts of a core's slots change no memory. -/
theorem slotCounts_mem {α : Type} (core : Nat) (code ctx : α → Nat) (n : α → Nat → Nat) (s : State) (l : List α) :
    (l.foldl (fun t x => (List.range 16).foldl (fun t k => t.count (ctx x) (0x20 + k) (n x k)) (t.unitAdd core (code x) 1)) s).mem =
      s.mem := by
  refine State.mem_foldl _ (fun t x => ?_) l s
  refine Eq.trans (State.mem_foldl _ (fun t k => ?_) (List.range 16) _) (State.unitAdd_mem t core (code x) 1)
  exact State.count_mem t ..

@[simp] theorem State.countCore_mem (s : State) (core : Nat) : (s.countCore core).mem = s.mem := by
  have slots := fun t => slotCounts_mem core (fun x : Nat × Nat × Nat => s.reason core x.1 x.2.1 x.2.2) (fun x => (s.blk x.2.1).ctx)
    (fun x k => if s.reason core x.1 x.2.1 x.2.2 = k then 1 else 0) t (s.slotList core)
  have ctxs := State.mem_foldl (fun (t : State) c => t.count c 0x01 1) (fun _ _ => rfl)
  unfold State.countCore
  refine Eq.trans (State.mem_foldl _ (fun s q => State.mem_foldl _ (fun _ _ => State.sampleCount_mem ..) _ _) _ _) ?_
  dsimp only
  split
  · split <;> simp [slots, ctxs]
  · simp [slots, ctxs]
@[simp] theorem State.openCycle_mem (s : State) (die : Nat) : (s.openCycle die).mem = s.mem := by rfl
@[simp] theorem State.cycle_mem (s : State) (die : Nat) : (s.cycle die).mem = s.mem := by simp [State.cycle]
@[simp] theorem State.completeVar_mem (s : State) (u g iid : Nat) : (s.completeVar u g iid).mem = s.mem := by simp [State.completeVar]
@[simp] theorem State.settleFence_mem (s : State) (p : Pend) : (s.settleFence p).mem = s.mem := by
  unfold State.settleFence
  dsimp only
  (repeat' split) <;> simp
@[simp] theorem State.mbarArrive_mem (s : State) (u a : Nat) : (s.mbarArrive u a).2.mem = s.mem := by simp [State.mbarArrive]
@[simp] theorem State.sysEnd_mem (s : State) (p : Pend) (ws : List Word) : (s.sysEnd p ws).mem = s.mem := by simp [State.sysEnd]
@[simp] theorem State.arrivePerform_mem (s : State) (p : Pend) : (s.arrivePerform p).mem = s.mem := by simp [State.arrivePerform]
@[simp] theorem State.mirror_mem (s : State) (ctx handle : Nat) : (s.mirror ctx handle).mem = s.mem := by
  unfold State.mirror
  split <;> simp
@[simp] theorem State.compPerform_mem (s : State) (p : Pend) : (s.compPerform p).mem = s.mem := by simp [State.compPerform]
@[simp] theorem State.decidePerform_mem (s : State) (p : Pend) (commit : Bool) : (s.decidePerform p commit).mem = s.mem := by
  unfold State.decidePerform
  dsimp only
  (repeat' split) <;> simp
@[simp] theorem State.donePerform_mem (s : State) (p : Pend) : (s.donePerform p).mem = s.mem := by
  unfold State.donePerform
  dsimp only
  (repeat' split) <;> simp
@[simp] theorem State.tlbPerform_mem (s : State) (p : Pend) : (s.tlbPerform p).mem = s.mem := by
  unfold State.tlbPerform
  split <;> simp
@[simp] theorem State.combine_mem (s : State) (uid into : Nat) : (s.combine uid into).mem = s.mem := by
  unfold State.combine
  dsimp only
  (repeat' split) <;> simp
@[simp] theorem State.pump_mem (s : State) (n : Nat) : (s.pump n).mem = s.mem := by simp [State.pump]
@[simp] theorem State.transmit_mem (s : State) : (s.transmit).mem = s.mem := by simp [State.transmit]

/-! ## What writes memory keeps its canonical form -/

/-- Memory stands in its canonical form. -/
abbrev MemWf (s : State) : Prop := Memory.wf s.mem = true

theorem MemWf.of_mem {s t : State} (h : MemWf s) (e : t.mem = s.mem) : MemWf t := by rwa [MemWf, e]

/-- Every state that a device write's answer holds has a property. -/
def DevR.All (P : State → Prop) : DevR → Prop
  | .ok s => P s
  | .wait t => P t
  | .fault _ s => P s

/-- Every state that a push's answer holds has a property. -/
def PushR.All (P : State → Prop) : PushR → Prop
  | .wait t => P t
  | .done _ s => P s

/-- Every state that a decrement's answer holds has a property. -/
def DecR.All (P : State → Prop) : DecR → Prop
  | .wait t => P t
  | .done _ _ _ s => P s

/-- Every state that the answer of a step of a peer's decrement holds has a property. -/
def JdecR.All (P : State → Prop) : JdecR → Prop
  | .going _ s => P s
  | .wait t => P t
  | .done _ _ _ _ s => P s

/-- Every state that the answer of an implicit decrement holds has a property. -/
def ImplicitR.All (P : State → Prop) : ImplicitR → Prop
  | .wait t => P t
  | .held _ s => P s
  | .finished s => P s

/-- Every state that the answer of a ring's push holds has a property. -/
def RingR.All (P : State → Prop) : RingR → Prop
  | .ok s => P s
  | .wait t => P t
  | .fault _ s => P s

/-- The state that a trace write leaves has a property. -/
def TraceR.All (P : State → Prop) : TraceR → Prop
  | .done s => P s
  | .wait s _ => P s

/-! Writes of the device, and pushes -/

theorem State.devStore_wf (s : State) (ctx core : Nat) (kern : Option Nat) (va : Nat) (bs : List Byte) (rel : Bool) (floor : Nat)
    (h : MemWf s) : (s.devStore ctx core kern va bs rel floor).All MemWf := by
  have look := s.translate_mem core ctx va .store (s.mayCache 11)
  unfold State.devStore
  split
  · exact h
  split <;> rename_i e <;> rw [e] at look
  · split
    · exact h.of_mem (by simp)
    · exact h
  · next x t =>
    have ht : MemWf t := h.of_mem look
    split
    · exact ht.of_mem (by simp)
    split
    · exact storeLocal_wf _ _ _ _ _ _ _ _ ht
    · split <;> exact ht.of_mem (by simp)
    · have gate := t.hostGate_mem core floor x.phys.off bs
      split
      · split <;> rename_i g <;> rw [g] at gate
        · exact ht.of_mem gate
        · exact storeHost_wf _ _ _ _ _ (ht.of_mem gate)
      · exact storeHost_wf _ _ _ _ _ ht

theorem State.devRun_wf (ctx core : Nat) (kern : Option Nat) (floor : Nat) : ∀ (l : List (Nat × List Byte)) (s : State), MemWf s →
    (s.devRun ctx core kern floor l).All MemWf
  | [], _, h => h
  | (va, bs) :: l, s, h => by
    have first := s.devStore_wf ctx core kern va bs false floor h
    unfold State.devRun
    split
    · next e =>
      rw [e] at first
      exact State.devRun_wf ctx core kern floor l _ first
    · exact first

theorem State.devStores_wf (s : State) (ctx core : Nat) (kern : Option Nat) (floor : Nat) (l : List (Nat × List Byte)) (h : MemWf s) :
    (s.devStores ctx core kern floor l).All MemWf := by
  have run := State.devRun_wf ctx core kern floor l s h
  unfold State.devStores
  split
  · next t e =>
    obtain ⟨x, -, hx⟩ := List.exists_of_findSome?_eq_some e
    have one := s.devStore_wf ctx core kern x.1 x.2 false floor h
    split at hx <;> cases hx
    next e => exact e ▸ one
  · split
    · exact h.of_mem (roomFor_mem ..)
    · exact run

theorem State.push_wf (s : State) (ctx core : Nat) (kern : Option Nat) (floor : Nat) (grid : Bool) (ws : List Word) (h : MemWf s) :
    (s.push ctx core kern floor grid ws).All MemWf := by
  unfold State.push
  dsimp only
  split
  · exact h
  split
  · exact h
  split
  · exact h
  split
  · exact h
  have put := fun va bs => s.devStore_wf ctx core kern va bs true floor h
  split <;> rename_i e <;> have w := e ▸ put _ _
  · exact w
  · exact w.of_mem (by simp)
  · exact w.of_mem (by simp)

/-- A counter that is put back where it stands. -/
theorem counterPut_wf (t : State) (key : BitVec 256) (ph : Phys) (bs : List Byte) (hist : Bool) (floor core : Nat) (h : MemWf t) :
    MemWf (if ph.target = 2 then t.storeHost ph.off bs (some core) 0 else (t.storeLocal key ph.off bs hist true floor (some core)).2) := by
  split
  · exact storeHost_wf _ _ _ _ _ h
  · exact storeLocal_wf _ _ _ _ _ _ _ _ h

theorem State.decrement_wf (s : State) (ctx core : Nat) (kern : Option Nat) (floor : Nat) (ph : Phys) (hist migr : Bool) (h : MemWf s) :
    (s.decrement ctx core kern floor ph hist migr).All MemWf := by
  have gate : (if ph.target = 2 then s.hostGate core floor ph.off [] else (some (s.stampFor (s.home ph.off) floor), s)).2.mem = s.mem := by
    split
    · exact hostGate_mem ..
    · rfl
  unfold State.decrement
  split
  · exact h.of_mem (by simp)
  refine iteInduction (motive := DecR.All MemWf) (fun _ => h) (fun _ => ?_)
  dsimp only
  generalize (if ph.target = 2 then s.hostGate core floor ph.off [] else _) = G at gate ⊢
  obtain ⟨_ | st, t⟩ := G
  · exact h.of_mem gate
  have ht : MemWf t := h.of_mem gate
  refine iteInduction (motive := DecR.All MemWf) (fun _ => counterPut_wf _ _ _ _ _ _ _ ht) (fun _ => ?_)
  have pushed := fun ws => t.push_wf ctx core kern floor false ws ht
  split <;> rename_i e <;> have w := e ▸ pushed _
  · exact ht.of_mem (by simp)
  · split
    · exact ht.of_mem (by simp)
    · exact counterPut_wf _ _ _ _ _ _ _ w
  · exact w

theorem State.jdecPeer_wf (s : State) (j : Jdec) (uid ctx core kern floor : Nat) (ph : Phys) (hist migr : Bool) (h : MemWf s) :
    (s.jdecPeer j uid ctx core kern floor ph hist migr).All MemWf := by
  have pushed := s.push_wf ctx core (some kern) (max j.seen floor) false (bytesWords j.rcd) h
  unfold State.jdecPeer
  dsimp only
  split
  · exact h
  split
  · exact h
  split
  · exact h.of_mem (by simp)
  split
  · split
    · exact h
    split
    · exact h
    split <;> rename_i e <;> rw [e] at pushed
    · exact pushed
    · exact pushed
    · exact pushed.of_mem (by simp)
  · split
    · exact h
    split
    · exact h.of_mem (by simp)
    split
    · exact h
    split
    · exact h.of_mem (by simp)
    split
    · exact h.of_mem (by simp)
    split <;> rename_i e <;> rw [e] at pushed
    · exact pushed
    · exact h.of_mem (by simp)
    · exact pushed

/-! Traps, stores and atomics -/

theorem State.trapEntry_wf (s : State) (u g : Nat) (h : MemWf s) : MemWf (s.trapEntry u g) := by
  unfold State.trapEntry
  split
  · exact h
  dsimp only
  split
  · exact h.of_mem (by simp)
  have stored := s.devStores_wf (s.blk u).ctx ((s.blk u).core.getD 0) (some (s.blk u).kernel) ((s.blk u).grp g).floor (s.entryStores u g) h
  split <;> rename_i e <;> rw [e] at stored <;> exact stored.of_mem (by simp)

theorem State.storePerform_wf (s : State) (p : Pend) (h : MemWf s) : MemWf (s.storePerform p) := by
  unfold State.storePerform
  split
  · exact h
  split
  · exact h.of_mem (by simp)
  split
  · exact h
  split
  · exact h.of_mem (by simp)
  split
  · exact h
  split
  · exact h.of_mem (by simp)
  split
  · exact h
  split
  · exact h.of_mem (by simp)
  dsimp only
  split
  · split <;> simp [MemWf, storeLocal_wf, h]
  · exact h.of_mem (by simp)
  · split
    · exact h.of_mem (by simp)
    split
    · exact h
    · simp [MemWf, storeHost_wf, h]

theorem State.atomicPerform_wf (s : State) (p : Pend) (h : MemWf s) : MemWf (s.atomicPerform p) := by
  unfold State.atomicPerform
  split
  · exact h
  split
  · exact h
  split
  · exact h
  split
  · exact h.of_mem (by simp)
  split
  · exact h
  split
  · exact h.of_mem (by simp)
  split
  · exact h
  split
  · exact h.of_mem (by simp)
  dsimp only
  split
  · simp [MemWf, storeLocal_wf, h]
  · exact h.of_mem (by simp)
  · split
    · exact h.of_mem (by simp)
    split
    · exact h
    · simp [MemWf, storeHost_wf, h]

/-! Rings: notes, counts and samples -/

theorem State.ringPush_wf (s : State) (ctx va m : Nat) (rcd : List Byte) (h : MemWf s) : (s.ringPush ctx va m rcd).1.All MemWf := by
  have store := fun (t : State) (ht : MemWf t) va bs rel => t.devStore_wf ctx 0 none va bs rel 0 ht
  unfold State.ringPush
  split
  · next w r d _ _ _ =>
    split
    · have full := store s h ((va + 8) % 2 ^ 64) (leBytes 4 (min (d + 1) 0xFFFFFFFF)) false
      split <;> rename_i e <;> rw [e] at full <;> exact full
    · dsimp only
      have slot := store s h ((va + 16 + 16 * (w % 2 ^ m)) % 2 ^ 64) rcd false
      have index := store s h va (leBytes 4 ((w + 1) % 2 ^ 32)) true
      cases hs : s.devStore ctx 0 none ((va + 16 + 16 * (w % 2 ^ m)) % 2 ^ 64) rcd false 0 with
      | fault c t => exact (hs ▸ slot : (DevR.fault c t).All MemWf)
      | wait t => exact (hs ▸ slot : (DevR.wait t).All MemWf)
      | ok t =>
        have ht : MemWf t := (hs ▸ slot : (DevR.ok t).All MemWf)
        have both := store t ht va (leBytes 4 ((w + 1) % 2 ^ 32)) true
        cases hi : s.devStore ctx 0 none va (leBytes 4 ((w + 1) % 2 ^ 32)) true 0 with
        | wait v => exact (hi ▸ index : (DevR.wait v).All MemWf)
        | fault _ _ | ok _ =>
          dsimp only
          split <;> rename_i e <;> rw [e] at both
          · exact both
          · exact h.of_mem (by simp)
          · exact both
  · exact h
  · exact h
  · exact h

theorem State.notifyPush_wf (s : State) (n : Note) (h : MemWf s) :
    (∀ t, (s.notifyPush n).1 = some t → MemWf t) ∧ MemWf (s.notifyPush n).2 := by
  unfold State.notifyPush
  dsimp only
  split
  · exact ⟨fun t e => Option.some.inj e ▸ h, h⟩
  generalize hp : s.ringPush _ _ _ _ = p
  have pushed : p.1.All MemWf := hp ▸ s.ringPush_wf _ _ _ _ h
  obtain ⟨t | t | ⟨va, t⟩, sent⟩ := p
  · dsimp only
    refine ⟨fun t e => ?_, h⟩
    cases e
    exact pushed
  · dsimp only
    refine ⟨fun t e => ?_, MemWf.of_mem (s := t) pushed (by simp)⟩
    cases e
  · dsimp only
    refine ⟨fun t e => ?_, h⟩
    cases e
    exact MemWf.of_mem (s := t) pushed (by simp)

theorem State.notifyAll_wf : ∀ (l : List Note) (s : State), MemWf s → MemWf (s.notifyAll l)
  | [], _, h => h
  | n :: l, s, h => by
    obtain ⟨sent, kept⟩ := s.notifyPush_wf n h
    unfold State.notifyAll
    split <;> rename_i e <;> rw [e] at sent kept
    · exact State.notifyAll_wf l _ (sent _ rfl)
    · exact State.notifyAll_wf l _ kept

theorem State.accessCount_wf (s : State) (h : MemWf s) : MemWf s.accessCount := by
  have notes := State.notifyAll_wf s.noted { s with noted := [] } h
  unfold State.accessCount
  generalize ({ s with noted := [] } : State).notifyAll s.noted = t at notes ⊢
  dsimp only
  split
  · exact notes
  split
  · exact notes
  split
  · exact notes.of_mem (by simp)
  split
  · exact notes
  generalize hd : State.devStore _ _ _ _ _ _ _ _ = d
  have stored : d.All MemWf := hd ▸ State.devStore_wf _ _ _ _ _ _ _ _ (notes.of_mem rfl)
  split
  · exact stored.of_mem (by simp)
  · exact notes.of_mem (by simp)
  · split
    · exact State.notifyAll_wf _ _ stored
    · exact stored

theorem State.pushAll_wf (ctx va m : Nat) : ∀ (l : List (List Byte)) (s : State), MemWf s → (s.pushAll ctx va m l).1.All MemWf
  | [], _, h => h
  | r :: l, s, h => by
    have pushed := s.ringPush_wf ctx va m r h
    unfold State.pushAll
    split <;> rename_i e <;> rw [e] at pushed
    · exact State.pushAll_wf ctx va m l _ pushed
    · exact pushed.of_mem (by simp)
    · exact pushed

theorem State.sampleCtx_wf (s : State) (core quarter ctx : Nat) (h : MemWf s) : MemWf (s.sampleCtx core quarter ctx) := by
  have pushed := State.pushAll_wf ctx (s.ctx ctx).sampBase.toNat (s.ctx ctx).sampM
    (mget [] ((s.core core).quarter quarter).sampDue ctx) s h
  unfold State.sampleCtx
  dsimp only
  split <;> rename_i e <;> rw [e] at pushed <;> exact pushed.of_mem (by simp)

theorem State.pcSample_wf (s : State) (core quarter : Nat) (h : MemWf s) : MemWf (s.pcSample core quarter) :=
  foldl_wf _ (fun s x h => s.sampleCtx_wf core quarter x.1 h) _ s h

theorem State.seriesLatch_wf (s : State) (h : MemWf s) : MemWf s.seriesLatch := by
  unfold State.seriesLatch
  split
  · exact h
  · exact ite_wf h (foldl_wf _ (fun s f h => framePush_wf s f h) _ s h)

theorem State.traceWrite_wf (s : State) (x : TraceRec × Nat) (h : MemWf s) : (s.traceWrite x).All MemWf := by
  unfold State.traceWrite
  dsimp only
  split
  · exact h
  have pushed := s.ringPush_wf x.1.ctx (s.ctx x.1.ctx).trcBase.toNat (s.ctx x.1.ctx).trcM (x.1.bytes x.2) h
  split <;> rename_i e <;> rw [e] at pushed <;> exact pushed.of_mem (by simp)

theorem State.traceWrites_wf : ∀ (l : List (TraceRec × Nat)) (s : State), MemWf s → (s.traceWrites l).All MemWf
  | [], _, h => h
  | x :: l, s, h => by
    have one := s.traceWrite_wf x h
    unfold State.traceWrites
    split
    · next e =>
      rw [e] at one
      exact State.traceWrites_wf l _ one
    · exact one

theorem State.traceList_wf : ∀ (l : List TraceRec) (s : State), MemWf s → (s.traceList l).All MemWf
  | [], _, h => h
  | r :: l, s, h => by
    have one := State.traceWrites_wf (s.tracePlan r (mget 0 (s.ctx r.ctx).trcLast r.core) (mget 0 (s.ctx r.ctx).trcGap r.core)) s h
    unfold State.traceList
    dsimp only
    split <;> rename_i e <;> rw [e] at one
    · exact State.traceList_wf l _ one
    · exact one

theorem State.traceOne_wf (s : State) (r : TraceRec) (h : MemWf s) : (s.traceOne r).All MemWf := by
  unfold State.traceOne
  split
  · exact State.traceList_wf _ _ (h.of_mem (traceSync_mem ..))
  · exact State.traceList_wf _ _ h

theorem State.traceFlush_wf : ∀ (l : List TraceRec) (s : State), MemWf s → MemWf (s.traceFlush l)
  | [], _, h => h
  | r :: l, s, h => by
    have one := s.traceOne_wf r h
    unfold State.traceFlush
    split <;> rename_i e <;> rw [e] at one
    · exact State.traceFlush_wf l _ one
    · exact one

theorem State.flush_wf (s : State) (h : MemWf s) : MemWf s.flush := by
  have traced : MemWf (if s.gatedAt 0 then s else s.traceFlush s.traced) := ite_wf h (State.traceFlush_wf _ _ h)
  unfold State.flush
  generalize (if s.gatedAt 0 then s else s.traceFlush s.traced) = t at traced ⊢
  have logged : MemWf (t.logNew.foldl State.eventPut t) := foldl_wf State.eventPut eventPut_wf t.logNew t traced
  dsimp only
  split <;> exact MemWf.of_mem (s := t.logNew.foldl State.eventPut t) logged (by simp)

/-! Engines -/

theorem State.engStore_wf (s : State) (cls u va n : Nat) (new : List Byte → List Byte) (poison reads rel : Bool) (floor : Nat) (hold : Option Nat)
    (at_ : Option Xlat) (pages : List Nat) (h : MemWf s) :
    (s.engStore cls u va n new poison reads rel floor hold at_ pages).All MemWf := by
  have look := s.translate_mem ((s.blk u).core.getD 0) (s.blk u).ctx va .store (s.mayCache 15)
  unfold State.engStore
  cases at_
  case' some x =>
    have ht := h
    simp only [Option.isNone_some, Bool.false_eq_true, ↓reduceIte]
  case' none =>
    simp only [Option.isNone_none, ↓reduceIte]
    split <;> rename_i e <;> rw [e] at look
    case' h_1 => trivial
    case' h_2 => have ht := h.of_mem look
  all_goals
    refine iteInduction (motive := EngR.All MemWf) (fun _ => ht.of_mem (by simp)) (fun _ => ?_)
    refine iteInduction (motive := EngR.All MemWf) (fun _ => ht) (fun _ => ?_)
    split
    · simp [EngR.All, MemWf, storeLocal_wf, ht]
    · split <;> simp [EngR.All, MemWf, ht]
    · split
      · exact ht.of_mem (by simp)
      · simp [EngR.All, MemWf, storeHost_wf, ht]

theorem State.accStGlobal_wf (u g : Nat) (bytes : List Byte) (va : Nat) : ∀ (n : Nat) (s : State) (e : MatEntry), MemWf s →
    (s.accStGlobal u g bytes va e n).All MemWf
  | 0, _, _, h => h
  | n + 1, s, e, h => by
    unfold State.accStGlobal
    refine iteInduction (motive := ChunkR.All MemWf) (fun _ => h) (fun _ => ?_)
    have stored := s.engStore_wf 1 u ((va + 32 * e.sec) % 2 ^ 64) 32 (fun _ => (bytes.drop (32 * e.sec)).take 32) false false false e.floor
      none none e.pages h
    dsimp only
    split <;> rename_i r <;> rw [r] at stored
    · next t =>
      exact MemWf.of_mem (s := t) stored (by simp)
    · exact h.of_mem (by simp)
    · next t =>
      split
      · exact MemWf.of_mem (s := t) stored (by simp)
      · exact State.accStGlobal_wf u g bytes va n _ _ stored

theorem State.accRowStep_wf (s : State) (u g : Nat) (e : MatEntry) (h : MemWf s) : (s.accRowStep u g e).All MemWf := by
  have load := accLdGlobal_mem u (e.rowVa e.progress) e s (accRowBytes e.fmt / 32)
  unfold State.accRowStep
  dsimp only
  split
  · exact h.of_mem (by simp)
  · split
    · exact h.of_mem (by simp)
    · exact State.accStGlobal_wf _ _ _ _ _ _ _ h
  · split
    · exact h
    · split <;> exact h.of_mem (by simp)
  · split
    · split <;> exact h.of_mem (by simp)
    · split
      · exact h.of_mem (by simp)
      · exact h.of_mem (by simp)
      · split <;> exact h.of_mem (by simpa using load)
  · exact h

theorem State.accRun_wf (u g : Nat) : ∀ (n : Nat) (s : State), MemWf s → MemWf (s.accRun u g n)
  | 0, _, h => h
  | n + 1, s, h => by
    unfold State.accRun
    split
    · exact h
    split
    · exact h
    next e _ _ =>
    have row := s.accRowStep_wf u g e h
    split <;> rename_i r <;> rw [r] at row
    · exact State.accRun_wf u g n _ (MemWf.of_mem (s := _) row (by simp))
    · exact row
    · exact row

theorem State.accOpPerform_wf (s : State) (u g rows : Nat) (h : MemWf s) : MemWf (s.accOpPerform u g rows) := by
  have run := fun n => State.accRun_wf u g n (s.accGrant u) (h.of_mem (accGrant_mem ..))
  unfold State.accOpPerform
  split
  · exact h
  split
  · exact h
  dsimp only
  split
  · split
    · exact (run _).of_mem (matDone_mem ..)
    · exact run _
  · exact run _

theorem ChunkR.All.imp {P Q : State → Prop} {r : ChunkR} (h : r.All P) (hPQ : ∀ s, P s → Q s) : r.All Q := by
  cases r <;> exact hPQ _ h

/-- The state in which a suspended pass or operation of an accumulator leaves its fault. -/
theorem chunkFault_wf {r : ChunkR} {c va : Nat} {t : State}
    (e : (match r with
      | .fault c va t => some (c, va, t)
      | _ => none) = some (c, va, t)) (h : r.All MemWf) : MemWf t := by
  cases r <;> cases e
  exact h

theorem State.engineSuspend_wf (s : State) (r : EngRef) (h : MemWf s) : MemWf (s.engineSuspend r) := by
  unfold State.engineSuspend
  split
  · next u g =>
    split
    · exact h
    next e _ =>
    dsimp only
    split
    · exact h
    next c va t found =>
    have ht : MemWf t := by
      have pass : (s.passChunk u g e).All MemWf := (s.passChunk_mem u g e).imp fun _ e => h.of_mem e
      have row := s.accRowStep_wf u g e h
      split at found <;> split at found
      · exact chunkFault_wf found pass
      · cases found
      · exact chunkFault_wf found pass
      · cases found
      · exact chunkFault_wf found row
      · cases found
    exact ht.of_mem (by simp)
  · dsimp only
    split
    · exact h
    split
    · split
      · exact h
      split
      · split
        · exact h.of_mem (by simp)
        · exact h
      · split
        · exact h.of_mem (by simp)
        · exact h
    · split
      · exact h
      split
      · exact h.of_mem (by simp)
      · exact h
  · split
    · exact h
    split
    · exact h.of_mem (by simp)
    · exact h

theorem State.sectorOut_wf (s : State) (r : EngRef) (e : CopyEntry) (h : MemWf s) : MemWf (s.sectorOut r e) := by
  unfold State.sectorOut
  split
  · next t m => exact h.of_mem (State.copyMarkers_mem m)
  dsimp only
  generalize hs : s.engStore _ _ _ _ _ _ _ _ _ _ _ _ = a
  have stored : a.All MemWf := hs ▸ s.engStore_wf _ _ _ _ _ _ _ _ _ _ _ _ h
  rcases a with ⟨d, t⟩ | t | c
  · dsimp only
    split <;> exact MemWf.of_mem (s := t) stored (by simp)
  · exact MemWf.of_mem (s := t) stored (by simp)
  · exact h

theorem State.copySector_wf (s : State) (r : EngRef) (h : MemWf s) : MemWf (s.copySector r) := by
  unfold State.copySector
  split
  · exact h
  split
  · exact h
  split
  · exact h.of_mem (by simp)
  · exact h.of_mem (by simp)
  · exact s.sectorOut_wf _ _ h

theorem State.chainRecord_wf (s : State) (core ch : Nat) (h : MemWf s) : MemWf (s.chainRecord core ch) := by
  unfold State.chainRecord
  dsimp only
  split
  · exact h
  split
  · split
    · exact h
    have read := fun x pages => s.recRead_mem core ch x pages
    split <;> rename_i q <;> have w := q ▸ read _ _
    · exact h.of_mem w
    · have ht := h.of_mem w
      split
      · exact ht.of_mem (by simp)
      split
      · exact ht.of_mem (by simp)
      split
      · exact ht.of_mem (by simp)
      split
      · exact ht.of_mem (by simp)
      · split <;> exact ht.of_mem (by simp)
    · exact h
  · next e _ =>
    split
    · exact h
    split
    · split <;> exact h.of_mem (by simp)
    generalize hs : s.engStore _ _ _ _ _ _ _ _ _ _ _ _ = a
    have stored : a.All MemWf := hs ▸ s.engStore_wf _ _ _ _ _ _ _ _ _ _ _ _ h
    rcases a with ⟨d, t⟩ | t | c
    · dsimp only
      split
      · exact MemWf.of_mem (s := t) stored (by simp)
      · exact MemWf.of_mem (s := t) stored (by simp)
      · split <;> exact MemWf.of_mem (s := t) stored (by simp)
    · exact MemWf.of_mem (s := t) stored (by simp)
    · exact h

/-! Queues, kernels and contexts -/

theorem State.completion_wf (s : State) (ctx : Nat) (kern : Option Nat) (floor va : Nat) (bs : List Byte) (h : MemWf s) :
    (s.completion ctx kern floor va bs).All MemWf := by
  unfold State.completion
  split
  · exact h
  · exact s.devStore_wf _ _ _ _ _ _ _ h

theorem State.discardInvalid_wf (s : State) (ctx hw : Nat) (r : Rec) (h : MemWf s) : MemWf (s.discardInvalid ctx hw r) := by
  have wrote := s.completion_wf ctx none 0 r.comp (completionBytes 3 0#32 0 0 0 0 0xFFFF) h
  unfold State.discardInvalid
  dsimp only
  split
  · split <;> rename_i e <;> rw [e] at wrote <;> exact MemWf.of_mem wrote (by simp)
  · exact h.of_mem (by simp)

theorem State.popTry_wf {s t : State} {core ctx hw : Nat} (e : s.popTry core ctx hw = some t) (h : MemWf s) : MemWf t := by
  unfold State.popTry at e
  split at e
  · cases e
  split at e
  · cases e
  · cases e
    exact h.of_mem (by simp)
  · cases e
    exact s.discardInvalid_wf _ _ _ h
  · obtain ⟨cs, -, rfl⟩ := Option.map_eq_some_iff.mp e
    exact h.of_mem (by simp)
  · split at e
    · cases e
    · obtain ⟨cs, -, rfl⟩ := Option.map_eq_some_iff.mp e
      exact h.of_mem (by simp)

/-- What the first success of a search answers. -/
theorem firstSome_some {α β : Type} {f : α → Option β} {b : β} : ∀ {l : List α}, firstSome f l = some b → ∃ a ∈ l, f a = some b
  | a :: l, h => by
    unfold firstSome at h
    split at h
    · next c e =>
      cases h
      exact ⟨a, List.mem_cons_self, e⟩
    · obtain ⟨x, hx, e⟩ := firstSome_some h
      exact ⟨x, List.mem_cons_of_mem _ hx, e⟩

theorem State.placementPop_wf (s : State) (core : Nat) (h : MemWf s) : MemWf (s.placementPop core) := by
  unfold State.placementPop
  split
  · exact h
  dsimp only
  split
  · exact h
  next x t e =>
  obtain ⟨y, -, e⟩ := firstSome_some e
  obtain ⟨u, hu, e⟩ := Option.map_eq_some_iff.mp e
  cases e
  exact (State.popTry_wf hu h).of_mem (by simp)

theorem State.implicitEnd_wf (s : State) (x : Held) (st : Nat) (h : MemWf s) : (s.implicitEnd x st).All MemWf := by
  unfold State.implicitEnd
  split
  · exact h
  split
  · exact MemWf.of_mem h (by simp)
  · exact h

theorem State.implicit_wf (s : State) (x : Held) (h : MemWf s) : (s.implicit x).All MemWf := by
  have look := s.translate_mem x.core x.ctx (x.join + 32) .store (s.mayCache 19)
  unfold State.implicit
  dsimp only
  split
  · exact h.of_mem (by simp)
  cases x.at_
  case' some y =>
    have ht := h
    dsimp only
  case' none =>
    dsimp only
    split <;> rename_i e <;> rw [e] at look
    case' h_1 => split <;> exact MemWf.of_mem h (by simp)
    case' h_2 => have ht := h.of_mem look
  all_goals
    split
    · generalize hj : State.jdecPeer _ _ _ _ _ _ _ _ _ _ = j
      have peer : j.All MemWf := hj ▸ State.jdecPeer_wf _ _ _ _ _ _ _ _ _ _ ht
      rcases j with ⟨j, u⟩ | u | ⟨kd, st, stamp, _ | _, u⟩
      · exact peer
      · exact peer
      · exact u.implicitEnd_wf _ _ peer
      · exact peer
    · generalize hd : State.decrement _ _ _ _ _ _ _ _ = d
      have own : d.All MemWf := hd ▸ State.decrement_wf _ _ _ _ _ _ _ _ ht
      rcases d with u | ⟨kd, st, stamp, u⟩
      · exact own
      · exact u.implicitEnd_wf _ _ own

theorem State.blockEnd_wf (s : State) (u : Nat) (h : MemWf s) : MemWf (s.blockEnd u) := by
  unfold State.blockEnd
  dsimp only
  split
  · exact h
  split
  · exact h.of_mem (by simp)
  split
  · exact h
  generalize hi : State.implicit _ _ = r
  have ended : r.All MemWf := hi ▸ State.implicit_wf _ _ (h.of_mem (by simp))
  rcases r with t | ⟨x, t⟩ | t <;> exact MemWf.of_mem (s := t) ended (by simp)

theorem State.decrementRetry_wf (s : State) (i : Nat) (h : MemWf s) : MemWf (s.decrementRetry i) := by
  unfold State.decrementRetry
  split
  · exact h
  next x _ =>
  have tried := s.implicit_wf x h
  split
  · exact h
  split <;> rename_i e <;> rw [e] at tried <;> exact MemWf.of_mem tried (by simp)

theorem State.kernelOver_wf (s : State) (k status : Nat) (h : MemWf s) : MemWf (s.kernelOver k status) := by
  unfold State.kernelOver
  dsimp only
  split
  · exact h.of_mem (by simp)
  generalize hc : s.completion _ _ _ _ _ = r
  have wrote : r.All MemWf := hc ▸ s.completion_wf _ _ _ _ _ h
  rcases r with t | t | ⟨c, t⟩ <;> exact MemWf.of_mem (s := t) wrote (by simp)

theorem State.kernelEnded_wf (s : State) (k : Nat) (h : MemWf s) : MemWf (s.kernelEnded k) := by
  unfold State.kernelEnded
  dsimp only
  split
  · exact h
  · exact s.kernelOver_wf k 0 h

theorem State.kernelKilled_wf (s : State) (k : Nat) (h : MemWf s) : MemWf (s.kernelKilled k) := by
  unfold State.kernelKilled
  dsimp only
  split
  · exact h
  generalize hd : (s.kernelBlocks k).foldl (fun s u => ((s.blk u).groups.map (·.1)).foldl (fun s g => s.dropSuspended u g) s) s = t
  have dropped : MemWf t := hd ▸ h.of_mem (by simp)
  generalize hr : (t.kernelBlocks k).foldl (fun s u => if s.enginesStill u then s.removeBlock u else s) t = v
  have removed : MemWf v := hr ▸ dropped.of_mem (State.mem_foldl _ (fun s u => by split <;> simp) _ _)
  split
  · exact removed
  · exact (v.kernelOver_wf k (s.kernel k).status removed).of_mem (by simp)

theorem State.writeOwed_wf (ctx : Nat) : ∀ (l : List (Nat × List Byte)) (s : State), MemWf s → MemWf (s.writeOwed ctx l)
  | [], _, h => h
  | x :: l, s, h => by
    have wrote := s.completion_wf ctx none 0 x.1 x.2 h
    unfold State.writeOwed
    dsimp only
    split <;> rename_i e <;> rw [e] at wrote
    · exact State.writeOwed_wf ctx l _ (MemWf.of_mem wrote (by simp))
    · exact MemWf.of_mem wrote (by simp)
    · exact State.writeOwed_wf ctx l _ (MemWf.of_mem wrote (by simp))

theorem State.contextKillDone_wf (s : State) (ctx : Nat) (h : MemWf s) : MemWf (s.contextKillDone ctx) := by
  unfold State.contextKillDone
  split
  · exact h
  dsimp only
  generalize hk : (if s.killOver ctx then ((List.range 16).filterMap fun i => s.queueOf ctx i).foldl (fun s h => s.killQueue ctx h) s else s) = t
  have killed : MemWf t := hk ▸ h.of_mem (by simp)
  have wrote := State.writeOwed_wf ctx (t.ctx ctx).owed t killed
  split
  · exact wrote.of_mem (by simp)
  · exact wrote

theorem State.kill_wf (s : State) (ctx : Nat) (h : MemWf s) : MemWf (s.kill ctx) := by
  unfold State.kill
  refine State.writeOwed_wf _ _ _ (h.of_mem ?_)
  simp

/-! The host's commands and writes -/

theorem State.openCommand_wf (s : State) (c : Sender) (op : Nat) (args : List Byte → Bool) (run : State → State) (h : MemWf s)
    (hr : MemWf (run s)) : MemWf (s.openCommand c op args run) := by
  unfold State.openCommand
  split
  · exact h
  split
  · exact hr
  · exact reply_wf _ _ _ _ h

theorem State.command_wf (s : State) (c : Cmd) (op : Nat) (args : List Byte → Bool) (run : State → Option (Nat × List Byte) × State)
    (h : MemWf s) (hr : MemWf (run s).2) : MemWf (s.command c op args run) := by
  have ran : MemWf (if c.zero = 0#16 then run s else (some (3, []), s)).2 := by
    split
    · exact hr
    · exact h
  unfold State.command
  split
  · exact h
  split
  · exact reply_wf _ _ _ _ h
  split
  · split <;> rename_i e <;> rw [e] at ran
    · exact ran
    · exact reply_wf _ _ _ _ ran
  · exact reply_wf _ _ _ _ h

theorem State.claim_wf (s : State) (c : Sender) (h : MemWf s) : MemWf (s.claim c) := by
  refine s.openCommand_wf _ _ _ _ h ?_
  have granted : MemWf s.grant := h.of_mem (by simp)
  dsimp only
  split
  · exact reply_wf _ _ _ _ granted
  split
  · exact reply_wf _ _ _ _ granted
  · exact reply_wf _ _ _ _ granted

theorem State.tlbFinish_wf (s : State) (x : TlbCmd) (h : MemWf s) : MemWf (s.tlbFinish x) := by
  unfold State.tlbFinish
  split
  · exact h
  · exact reply_wf _ _ _ _ h

theorem State.ctxKill_wf (s : State) (ctx : Nat) (h : MemWf s) : MemWf (s.ctxKill ctx).2 := by
  unfold State.ctxKill
  split
  · exact s.kill_wf ctx h
  · exact s.kill_wf ctx h
  · exact s.kill_wf ctx h
  · exact h

/-! The island -/

theorem State.islandReset_wf (s : State) (h : MemWf s) : MemWf s.islandReset := by
  have lost : MemWf ((s.broadcast 0).sendNow).loseDirty := loseDirty_wf _ (h.of_mem (by simp))
  unfold State.islandReset
  exact lost.of_mem (by simp)

theorem State.islandResetCmd_wf (s : State) (c : Cmd) (h : MemWf s) : MemWf (s.islandResetCmd c) := by
  have done := s.command_wf c 0x21 noArgs (fun s => status (if s.island.st == 2 || s.island.st == 3 || s.island.st == 4 then 0 else 1) s)
    h h
  unfold State.islandResetCmd
  dsimp only
  split
  · exact State.islandReset_wf _ done
  · exact done

theorem State.powerGood_wf (s : State) (rcd : List Byte) (sigOk : Bool) (h : MemWf s) : MemWf (s.powerGood rcd sigOk) := by
  unfold State.powerGood
  split
  · exact h
  · exact MemWf.of_mem (s := { s with mem := s.mem.filter fun c => decide (hostBase ≤ c.1) }) (filter_wf _ _ h) (by simp)

theorem State.powerLost_wf (s : State) (h : MemWf s) : MemWf s.powerLost := filter_wf _ _ h

theorem State.cut_wf (s : State) (h : MemWf s) : MemWf s.cut := by
  have lost : MemWf (if s.island.drainTick + 1000000 ≤ s.tick then s.loseDirty else s) := ite_wf (loseDirty_wf _ h) h
  unfold State.cut
  split
  · exact h
  · exact lost.of_mem (by simp)

/-! Requests of peers -/

theorem State.receive_wf (s : State) (kind : Nat) (p : Packet) (act : State → State) (h : MemWf s)
    (ha : ∀ t, MemWf t → MemWf (act t)) : MemWf (s.receive kind p act) := by
  rcases s.receive_cases kind p act with e | ⟨t, e, f⟩
  · exact h.of_mem e
  · exact f ▸ ha t (h.of_mem e)

theorem State.peerWrite_wf (s : State) (p : Packet) (h : MemWf s) : MemWf (s.peerWrite p) := by
  refine s.receive_wf _ _ _ h fun t ht => ?_
  split
  · exact ht.of_mem (by simp)
  · simp [MemWf, storeLocal_wf, ht]

theorem State.peerAtomic_wf (s : State) (p : Packet) (h : MemWf s) : MemWf (s.peerAtomic p) := by
  refine s.receive_wf _ _ _ h fun t ht => ?_
  split
  · exact ht.of_mem (by simp)
  split
  · exact ht.of_mem (by simp)
  · simp [MemWf, storeLocal_wf, ht]

theorem State.peerReduce_wf (s : State) (p : Packet) (h : MemWf s) : MemWf (s.peerReduce p) := by
  refine s.receive_wf _ _ _ h fun t ht => ?_
  split
  · exact ht.of_mem (by simp)
  split
  · exact ht.of_mem (by simp)
  · simp [MemWf, storeLocal_wf, ht]

theorem State.arrival_wf (s : State) (p : Packet) (h : MemWf s) : MemWf (s.arrival p) := by
  unfold State.arrival
  split
  · exact h.of_mem (by simp)
  · exact s.peerWrite_wf p h
  · exact s.peerAtomic_wf p h
  · exact s.peerReduce_wf p h
  · exact h.of_mem (by simp)
  · exact h.of_mem (by simp)
  · exact h.of_mem (by simp)
  · exact h.of_mem (by simp)
  · exact h.of_mem (by simp)
  · split <;> exact h.of_mem (by simp)
  · exact h.of_mem (by simp)

/-! Operations of the system that settle -/

theorem State.pushPerform_wf (s : State) (p : Pend) (grid : Bool) (h : MemWf s) : MemWf (s.pushPerform p grid) := by
  have pushed := s.push_wf p.ctx (((s.blk p.blk).core).getD p.core) (some (s.blk p.blk).kernel) (s.grp p.blk p.grp).floor grid p.args h
  unfold State.pushPerform
  split <;> rename_i e <;> rw [e] at pushed <;> exact MemWf.of_mem pushed (by simp)

theorem State.jdecPerform_wf (s : State) (p : Pend) (h : MemWf s) : MemWf (s.jdecPerform p) := by
  unfold State.jdecPerform
  split
  · exact h
  next ph _ =>
  have peer := s.jdecPeer_wf p.jd p.uid p.ctx (((s.blk p.blk).core).getD p.core) (s.blk p.blk).kernel (s.grp p.blk p.grp).floor ph p.hist
    p.migr h
  have own := s.decrement_wf p.ctx (((s.blk p.blk).core).getD p.core) (some (s.blk p.blk).kernel) (s.grp p.blk p.grp).floor ph p.hist
    p.migr h
  dsimp only
  split
  · exact h.of_mem (by simp)
  split
  · split <;> rename_i e <;> rw [e] at peer
    · exact MemWf.of_mem peer (by simp)
    · exact MemWf.of_mem peer (by simp)
    · exact MemWf.of_mem peer (by simp)
  · split <;> rename_i e <;> rw [e] at own <;> exact MemWf.of_mem own (by simp)

/-- What follows once an operation of the system has been performed. -/
theorem settled_wf (p : Pend) (t : State) (h : MemWf t) :
    MemWf (if (t.op? p.uid).any fun q => !q.done then t
      else (t.releaseFloor p.blk p.grp (p.rel.getD .dev)).emptyDests p.blk p.grp p.rel) :=
  ite_wf h (h.of_mem (by simp))

theorem State.settleSys_wf (s : State) (p : Pend) (h : MemWf s) : MemWf (s.settleSys p) := by
  unfold State.settleSys
  cases p.kind with
  | sys op =>
    dsimp only
    split
    · exact h
    split
    · exact h.of_mem (by simp)
    split
    · exact h
    cases op with
    | spawn => exact settled_wf p _ (s.pushPerform_wf p false h)
    | launch => exact settled_wf p _ (s.pushPerform_wf p true h)
    | jdec => exact settled_wf p _ (s.jdecPerform_wf p h)
    | arrive => exact settled_wf p _ (h.of_mem (arrivePerform_mem ..))
    | actComp => exact settled_wf p _ (h.of_mem (compPerform_mem ..))
    | actCommit | actAbandon => exact settled_wf p _ (h.of_mem (decidePerform_mem ..))
    | actDone => exact settled_wf p _ (h.of_mem (donePerform_mem ..))
    | tlbinv => exact settled_wf p _ (h.of_mem (tlbPerform_mem ..))
  | _ => exact h

theorem State.settle_wf (s : State) (uid : Nat) (h : MemWf s) : MemWf (s.settle uid) := by
  unfold State.settle
  split
  · split
    · exact h.of_mem (by simp)
    · exact s.settleSys_wf _ h
  · exact h

/-! ## Every instruction keeps the canonical form of memory -/

/-- From a state with canonical memory, what gives a next state gives one with canonical memory. -/
def KeepsWf (f : State → Res) : Prop := ∀ s t, MemWf s → f s = .next t → MemWf t

theorem keepsWf_next {f : State → State} (h : ∀ s, MemWf s → MemWf (f s)) : KeepsWf fun s => .next (f s) := by
  intro s t hs e
  cases e
  exact h s hs

/-- An event that leaves memory alone keeps its form. -/
theorem keepsWf_of_mem {f : State → State} (h : ∀ s, (f s).mem = s.mem) : KeepsWf fun s => .next (f s) :=
  keepsWf_next fun s hs => hs.of_mem (h s)

theorem keepsWf_onOp {uid : Nat} {f : State → Pend → State} (h : ∀ s p, MemWf s → MemWf (f s p)) : KeepsWf fun s => onOp s uid f := by
  refine keepsWf_next fun s hs => ?_
  split
  · exact h s _ hs
  · exact hs

theorem keepsWf_command {c : Cmd} {op : Nat} {args : State → List Byte → Bool} {run : State → State → Option (Nat × List Byte) × State}
    (h : ∀ s, MemWf s → MemWf (run s s).2) : KeepsWf fun s => .next (s.command c op (args s) (run s)) :=
  keepsWf_next fun s hs => s.command_wf c op _ _ hs (h s hs)

theorem finish_mem (c : Cur) (iid : Nat) (st : Stall) (push : Option Nat) (r : Result) (parks : List (Nat × Cause)) :
    (finish c iid st push r parks).mem = r.s.mem := by rfl

/-- An instruction whose body leaves memory alone: its issue does too, whatever becomes of it. -/
theorem keepsWf_issueWith {u : Uses} {st : Stall} {extra : State → Issue → Nat → Option Cause} {ready : State → Issue → Option Reason}
    {body : State → Issue → Result} (h : ∀ s i, (body s i).s.mem = s.mem) : KeepsWf fun s => issueWith u st extra ready body s := by
  intro s t hs e
  dsimp only at e
  unfold issueWith withCur at e
  split at e
  · cases e
  cases e
  dsimp only
  split
  · exact hs
  split
  · exact hs
  split
  · exact hs
  split
  · exact hs
  split
  · exact hs
  split
  · exact hs
  · exact hs.of_mem (by rw [finish_mem, h]; rfl)

@[simp] theorem Result.s_ite (c : Prop) [Decidable c] (a b : Result) : (if c then a else b).s = if c then a.s else b.s :=
  apply_ite Result.s c a b

/-- A lookup of the reuse buffer that may be left out. -/
theorem lookup_mem (s : State) (c : Cur) (m : Memo) (elig : Bool) : (if elig then memoLookup s c m true else (none, s)).2.mem = s.mem := by
  split
  · exact memoLookup_mem ..
  · rfl

theorem keepsWf_vecOp {sh : VShape} {st : Stall} {f : View → Nat → LaneOut} : KeepsWf fun s => vecOp sh st f s := by
  refine keepsWf_issueWith fun s i => ?_
  dsimp only
  rw [State.mem_ite, takeUnit_mem, ite_self]
  exact lookup_mem ..

theorem keepsWf_uniOp {u : Uses} {lat : Nat} {st : Stall} {f : (BitVec 7 → Nat → Word) → Group → List Nat → UniOut} :
    KeepsWf fun s => uniOp u lat st f s := keepsWf_issueWith fun _ _ => rfl

theorem keepsWf_deliverWith {d : Delivery} {late : Bool} {u : Uses} {st : Stall} {extra : State → Issue → Nat → Option Cause}
    {ready : State → Issue → Option Reason} {body : State → Issue → Result} (h : ∀ s i, (body s i).s.mem = s.mem) :
    KeepsWf fun s => deliverWith d late u st extra ready body s := by
  refine keepsWf_issueWith fun s i => ?_
  exact iteInduction (motive := fun r : Result => r.s.mem = s.mem) (fun _ => rfl) (fun _ => h ..)

theorem keepsWf_deliverEngine {late : Bool} {d : Delivery} {tok : Nat → Bool} {cp : Bool} {u : Uses} {st : Stall}
    {ready : State → Issue → Option Reason} {body : State → Issue → Result} (h : ∀ s i, (body s i).s.mem = s.mem) :
    KeepsWf fun s => deliverEngine late d tok cp u st ready body s := by
  refine keepsWf_deliverWith fun s i => ?_
  split
  · dsimp only
    split
    · exact h ..
    · rfl
  · exact h ..

theorem keepsWf_orIllegal {bad : State → Cur → Bool} {st : Stall} {k : State → Res} (h : KeepsWf fun s => k s) :
    KeepsWf fun s => orIllegal bad st k s := by
  intro s t hs e
  dsimp only at e
  unfold orIllegal at e
  split at e
  · exact h s t hs e
  split at e
  · exact keepsWf_issueWith (fun _ _ => rfl) s t hs e
  · exact h s t hs e

theorem keepsWf_afterCur {f : State → State → Nat → Nat → State} {k : State → Res} (h : KeepsWf fun s => k s)
    (hf : ∀ s t u g, (f s t u g).mem = t.mem) : KeepsWf fun s => afterCur s (f s) (k s) := by
  intro s t hs e
  dsimp only at e
  unfold afterCur at e
  split at e
  · exact h s t hs e
  · cases hk : k s with
    | next v =>
      rw [hk] at e
      cases e
      have hv := h s v hs hk
      dsimp only
      split
      · exact hv
      · exact hv.of_mem (hf ..)
    | fault _ | refused _ =>
      rw [hk] at e
      cases e

theorem State.unreachable_wf (s : State) (dev : Nat) (h : MemWf s) : MemWf (s.unreachable dev) := by
  unfold State.unreachable
  exact ite_wf (h.of_mem (loseMember_mem ..)) h

/-- Every word, and every event, keeps the canonical form of memory. -/
theorem exec_keepsWf (i : Instr) : KeepsWf fun s => exec i s := by
  cases i with
  | mov | iaddi | shfi | andi | iun | iadd | isub | imul | imulhS | imulhZ | and | or | xor | andn | shl | shr | sra | iminS | iminZ | imaxS
  | imaxZ | bfe | imad | bfi | icmpS | icmpZ | faddF32 | fsubF32 | fmulF32 | fminF32 | fmaxF32 | ffmaF32 | fcmpF32 | faddF16x2 | fsubF16x2
  | fmulF16x2 | fminF16x2 | fmaxF16x2 | faddBf16x2 | fsubBf16x2 | fmulBf16x2 | fminBf16x2 | fmaxBf16x2 | ffmaF16x2 | ffmaBf16x2 | fcmpF16x2
  | fcmpBf16x2 | faddF64 | fsubF64 | fmulF64 | fminF64 | fmaxF64 | ffmaF64 | fcmpF64 | funF16x2 | funBf16x2 | pkM8Rn | pkM8Rz | shflIdx
  | shflUp | shflDn | shflXor | qx | lit | movVp | iadd64 | lea | funF32 | funF64 | cvt | upM8 | vdotM8 =>
    dsimp only [exec, execMov, execIaddi, execShfi, execAndi, execIun, execIadd, execIsub, execImul, execImulhS, execImulhZ, execAnd, execOr,
      execXor, execAndn, execShl, execShr, execSra, execIminS, execIminZ, execImaxS, execImaxZ, execBfe, execImad, execBfi, execIcmpS,
      execIcmpZ, execFaddF32, execFsubF32, execFmulF32, execFminF32, execFmaxF32, execFfmaF32, execFcmpF32, execFaddF16x2, execFsubF16x2,
      execFmulF16x2, execFminF16x2, execFmaxF16x2, execFaddBf16x2, execFsubBf16x2, execFmulBf16x2, execFminBf16x2, execFmaxBf16x2,
      execFfmaF16x2, execFfmaBf16x2, execFcmpF16x2, execFcmpBf16x2, execFaddF64, execFsubF64, execFmulF64, execFminF64, execFmaxF64,
      execFfmaF64, execFcmpF64, execFunF16x2, execFunBf16x2, execPkM8Rn, execPkM8Rz, execShflIdx, execShflUp, execShflDn, execShflXor,
      execQx, execLit, execMovVp, execIadd64, execLea, execFunF32, execFunF64, execCvt, execUpM8, execVdotM8, int1, int2, int3, intCmp, fp2,
      fp3, fpCmp, fpp2, fpp3, fppCmp, fpd2, fpd3, fpdCmp, funPacked, pkM8Op, exchange]
    exact keepsWf_vecOp
  | kshfi | kaddi | kadd | ksub | kmul | kand | kor | kxor | kcmpS | kcmpZ | klit | movKp | kadd64 =>
    dsimp only [exec, execKshfi, execKaddi, execKadd, execKsub, execKmul, execKand, execKor, execKxor, execKcmpS, execKcmpZ, execKlit,
      execMovKp, execKadd64, uni1, uni2, uniCmp]
    exact keepsWf_uniOp
  | nop | guard | bra | jmp | brk | trap | movBroadcast | movToUniform | movPv | ldL | cpStat | mbarTest | qstat | voteAny | voteAll
  | voteBallot | voteEq | stamp | settled | dusk | floor =>
    dsimp only [exec, execNop, execGuard, execBra, execJmp, execBrk, execTrap, execMovBroadcast, execMovToUniform, execMovPv, execLdL,
      execCpStat, execMbarTest, execQstat, execVoteAny, execVoteAll, execVoteBallot, execVoteEq, execStamp, execSettled, execDusk, execFloor,
      voteOp, stampPair]
    exact keepsWf_issueWith fun s i => by simp
  | call | ret | callr | yield | chkerr | win | wink | stxG | ldS | stS | stL | hpin | hunpin | cpLd | cpSt | cpRed | cpChain | qfence | mma
  | accZero | accLd | accSt | ofence | mbarInit | mbarExpect | mbarWait | qinit | actBegin | actStat | actResume | mark =>
    dsimp only [exec, execCall, execRet, execCallr, execYield, execChkerr, execWin, execWink, execStxG, execLdS, execStS, execStL, execHpin,
      execHunpin, execCpLd, execCpSt, execCpRed, execCpChain, execQfence, execMma, execAccZero, execAccLd, execAccSt, execOfence,
      execMbarInit, execMbarExpect, execMbarWait, execQinit, execActBegin, execActStat, execActResume, execMark]
    exact keepsWf_issueWith fun s i => by simp
  | redux =>
    dsimp only [exec, execRedux]
    exact keepsWf_issueWith fun s i => lookup_mem s i.c _ _
  | region | drainst | kld | kst | stG | atomG | atomS | fence | mbarArrive | spawn | jdec | launch | actComp | actCommit | actAbandon | ldG
  | ldxG | ldAsof =>
    dsimp only [exec, execRegion, execDrainst, execKld, execKst, execStG, execAtomG, execAtomS, execFence, execMbarArrive, execSpawn,
      execJdec, execLaunch, execActComp, execActCommit, execActAbandon, execLdG, execLdxG, execLdAsof]
    exact keepsWf_deliverWith fun s i => by simp
  | waitt | mwait =>
    dsimp only [exec, execWaitt, execMwait]
    exact keepsWf_deliverEngine fun s i => by simp
  | sread | csrr | csrw | cpTile | mmaPair | accCp =>
    dsimp only [exec, execSread, execCsrr, execCsrw, execCpTile, execMmaPair, execAccCp]
    exact keepsWf_orIllegal (keepsWf_issueWith fun s i => by simp)
  | tlbinv | actDone =>
    dsimp only [exec, execTlbinv, execActDone]
    exact keepsWf_orIllegal (keepsWf_deliverWith fun s i => by simp)
  | meet =>
    dsimp only [exec, execMeet]
    exact keepsWf_afterCur (keepsWf_deliverWith fun s i => by simp) fun _ _ _ _ => by simp
  | exit | barBlk | barBlkR | barTeam =>
    dsimp only [exec, execExit, execBarBlk, execBarBlkR, execBarTeam]
    exact keepsWf_afterCur (keepsWf_deliverEngine fun s i => by simp) fun _ _ _ _ => by simp
  | rett | exitGrp =>
    dsimp only [exec, execRett, execExitGrp]
    exact keepsWf_afterCur (keepsWf_issueWith fun s i => by simp) fun s _ _ _ => by split <;> simp
  | pageWalk | lateFault | storeFaultRecord | loadReturn | asofWalk =>
    dsimp only [exec, execPageWalk, execLateFault, execStoreFaultRecord, execLoadReturn, execAsofWalk]
    exact keepsWf_onOp fun s p hs => hs.of_mem (by simp)
  | storePerform =>
    dsimp only [exec, execStorePerform]
    exact keepsWf_onOp State.storePerform_wf
  | atomicPerform =>
    dsimp only [exec, execAtomicPerform]
    exact keepsWf_onOp State.atomicPerform_wf
  | qtQuantumExpiry =>
    dsimp only [exec, execQtQuantumExpiry]
    exact keepsWf_onOp fun s p hs => ite_wf (s.atomicPerform_wf p hs) hs
  | hostStampHold =>
    dsimp only [exec, execHostStampHold]
    exact keepsWf_onOp fun s p hs => ite_wf (ite_wf (s.storePerform_wf p hs) (s.atomicPerform_wf p hs)) hs
  | forcedDelivery | matrixArbitration | passPerform | copyEntryPerform | blockRollback | teamReservation | partialEviction | blockEvict
  | watchdogExpiry | compensationStart | commitDiscard | actTimeout | historyReclaim | historyRetentionExpiry | pinTimeout | channelRetrain
  | stopAt | stopResume | quadrantTest | quadrantTestDone | queueDoorbell | ownershipGrant | ownerHeartbeatLapse | hbperiodWrite
  | hmemctxWrite | hostRegisterWrite | mapLoad | memcfgWrite | samplePeriodWrite | traceEnable | hostMemRead | getVersion | getCapabilities
  | negotiateAlgorithms | getDigests | getCertificate | challenge | getMeasurements | unsupportedSpdmRequest | bootVerified | computeRelease
  | dieHeartbeat | computeHang | downReceived | upReceived | skewTimeout | blockReceived | linkRetrain | portTrained | portDown | packetRead
  | packetResponse | packetErrorResponse | packetMarker | packetMarkerAck | packetE2eAck | packetManagement | e2eAckSend | escapeMove
  | clockThrottle | illegalPacket | coreThermalUpdate | uncorrectableError | domainRebase | pageRekey | scrub | heartbeat =>
    exact keepsWf_of_mem fun s => by simp
  | memberUnreachable dev =>
    -- by its cases, not by `keepsWf_next`: the kernel would evaluate the comparison with 1000000 ticks
    intro s t hs e
    cases e
    exact s.unreachable_wf dev hs
  | trapEntry => exact keepsWf_next fun s hs => s.trapEntry_wf _ _ hs
  | accessCount => exact keepsWf_next State.accessCount_wf
  | accOpPerform => exact keepsWf_next fun s hs => s.accOpPerform_wf _ _ _ hs
  | engineFault => exact keepsWf_next fun s hs => s.engineSuspend_wf _ hs
  | copySectorWrite => exact keepsWf_next fun s hs => s.copySector_wf _ hs
  | chainRecord => exact keepsWf_next fun s hs => s.chainRecord_wf _ _ hs
  | placementPop => exact keepsWf_next fun s hs => s.placementPop_wf _ hs
  | blockEnd => exact keepsWf_next fun s hs => s.blockEnd_wf _ hs
  | decrementRetry => exact keepsWf_next fun s hs => s.decrementRetry_wf _ hs
  | kernelEnded => exact keepsWf_next fun s hs => s.kernelEnded_wf _ hs
  | kernelKilled => exact keepsWf_next fun s hs => s.kernelKilled_wf _ hs
  | contextKillDone => exact keepsWf_next fun s hs => s.contextKillDone_wf _ hs
  | seriesLatch => exact keepsWf_next State.seriesLatch_wf
  | pcSample => exact keepsWf_next fun s hs => s.pcSample_wf _ _ hs
  | claim => exact keepsWf_next fun s hs => s.claim_wf _ hs
  | hostMemWrite => exact keepsWf_next fun s hs => hostWrite_wf s _ _ _ hs
  | status => exact keepsWf_next fun s hs => s.openCommand_wf _ _ _ _ hs (reply_wf _ _ _ _ hs)
  | readEvents => exact keepsWf_next fun s hs => readEvents_wf s _ _ _ _ hs
  | islandReset => exact keepsWf_next fun s hs => s.islandResetCmd_wf _ hs
  | powerGood => exact keepsWf_next fun s hs => s.powerGood_wf _ _ hs
  | powerLost => exact keepsWf_next State.powerLost_wf
  | cut => exact keepsWf_next State.cut_wf
  | packetWrite => exact keepsWf_next fun s hs => s.peerWrite_wf _ hs
  | packetAtomic => exact keepsWf_next fun s hs => s.peerAtomic_wf _ hs
  | packetReducingWrite => exact keepsWf_next fun s hs => s.peerReduce_wf _ hs
  | cxlCacheInvalidation => exact keepsWf_next fun s hs => hostLine_wf s _ _ hs
  | handover | ctxCreate | ctxStop | ctxResume | ctxDestroy | computeReset | domainConfig | ideKey | retest | fwUpdate | fwActivate | fwCommit =>
    dsimp only [exec, execHandover, execCtxCreate, execCtxStop, execCtxResume, execCtxDestroy, execComputeReset, execDomainConfig,
      execIdeKey, execRetest, execFwUpdate, execFwActivate, execFwCommit]
    exact keepsWf_command fun s hs => hs.of_mem (by simp [apply_ite Prod.snd])
  | ctxKill =>
    dsimp only [exec, execCtxKill]
    exact keepsWf_command fun s hs => by
      split
      · exact hs
      · exact s.ctxKill_wf _ hs
  | tlbInval =>
    dsimp only [exec, execTlbInval]
    refine keepsWf_next fun s hs => ?_
    split
    · split
      · exact s.tlbFinish_wf _ hs
      · exact hs
    · exact s.command_wf _ _ _ _ hs (hs.of_mem (State.tlbInval_mem ..))
  | unsupportedCommand =>
    dsimp only [exec, execUnsupportedCommand]
    exact keepsWf_next fun s hs => ite_wf hs (s.command_wf _ _ _ _ hs hs)

/-! ## Every step keeps the canonical form of memory -/

theorem State.runWord_keepsWf (c : Cur) : KeepsWf fun s => s.runWord c := by
  intro s t hs e
  dsimp only at e
  unfold State.runWord at e
  split at e
  · exact exec_keepsWf _ s t hs e
  · exact keepsWf_issueWith (fun _ _ => rfl) s t hs e

theorem State.fetch_wf (s : State) (u pc : Nat) (h : MemWf s) : (s.fetch u pc).All MemWf := by
  have f := s.fetch_mem u pc
  cases e : s.fetch u pc with
  | ok w t =>
    rw [e] at f
    exact h.of_mem f
  | fault _ _ => trivial

theorem State.tryGroup_wf {s t : State} {core quarter u g n : Nat} (e : s.tryGroup core quarter u g = (n, some t)) (h : MemWf s) : MemWf t := by
  unfold State.tryGroup at e
  dsimp only at e
  split at e
  · cases e
  have fetched := s.fetch_wf u ((s.grp u g).lane ((s.grp u g).offer.1.headD 0)).pc h
  split at e <;> rename_i q <;> rw [q] at fetched
  · split at e <;> cases e
    exact h.of_mem (by simp)
  · split at e
    · next r =>
      have ran := State.runWord_keepsWf _ _ _ (MemWf.of_mem fetched (by simp)) r
      split at e
      · cases e
        exact h.of_mem (by simp)
      · cases e
      · split at e <;> cases e
        exact ran.of_mem (by simp)
    · cases e

theorem State.tries_wf {s : State} {core quarter : Nat} {y : (Nat × Nat) × Nat × Option State} (hy : y ∈ s.tries core quarter) (h : MemWf s)
    {t : State} (e : y.2.2 = some t) : MemWf t := by
  unfold State.tries at hy
  dsimp only at hy
  split at hy
  · cases hy
  · obtain ⟨x, -, rfl⟩ := List.mem_map.mp hy
    exact State.tryGroup_wf (n := (s.tryGroup core quarter x.1 x.2).1) (Prod.ext rfl e) h

/-- What a pick chooses is one of the tries. -/
theorem State.pick_mem {s t : State} {core quarter : Nat} {x : Nat × Nat} : ∀ {tries : List ((Nat × Nat) × Nat × Option State)}
    {lost : List ((Nat × Nat) × Nat)}, (s.pick core quarter tries lost).1 = some (x, t) → ∃ y ∈ tries, y.2.2 = some t
  | [], _, e => by cases e
  | (a, n, none) :: rest, lost, e => by
    obtain ⟨y, hy, ht⟩ := State.pick_mem (tries := rest) (lost := lost) e
    exact ⟨y, List.mem_cons_of_mem _ hy, ht⟩
  | (a, n, some v) :: rest, lost, e => by
    unfold State.pick at e
    split at e
    · cases e
      exact ⟨_, List.mem_cons_self, rfl⟩
    split at e
    · cases e
      exact ⟨_, List.mem_cons_self, rfl⟩
    · obtain ⟨y, hy, ht⟩ := State.pick_mem e
      exact ⟨y, List.mem_cons_of_mem _ hy, ht⟩

theorem State.issueQuarter_wf (s : State) (core quarter : Nat) (h : MemWf s) : MemWf (s.issueQuarter core quarter) := by
  have issued : MemWf (match (s.pick core quarter (s.tries core quarter) []).1 with
      | some (_, t) => (match s.taken t core with
        | some r => if (s.admits core quarter r).2 then t.arbMove core quarter r true else t
        | none => t)
      | none => s) := by
    split
    · next x t e =>
      obtain ⟨y, hy, ht⟩ := State.pick_mem e
      have wt := State.tries_wf hy h ht
      split
      · split
        · exact wt.of_mem (by simp)
        · exact wt
      · exact wt
    · exact h
  unfold State.issueQuarter
  exact MemWf.of_mem issued (by simp <;> rfl)

theorem State.passTick_wf (s : State) (h : MemWf s) : MemWf s.passTick :=
  MemWf.of_mem (ite_wf h (s.seriesLatch_wf h)) (State.advance_mem _)

@[simp] theorem State.look_mem (s : State) (die : Nat) : (s.look die).mem = s.mem := by
  unfold State.look
  refine State.mem_foldl _ (fun t x => ?_) _ _
  refine State.mem_foldl _ (fun t y => ?_) _ _
  split
  · rfl
  · exact setWhy_mem ..

/-- Every action keeps the canonical form of memory. -/
theorem State.act_keepsWf (a : Action) : KeepsWf fun s => s.act a := by
  cases a with
  | issue core quarter => exact keepsWf_next fun s hs => s.issueQuarter_wf core quarter hs
  | event i =>
    intro s t hs e
    dsimp only [State.act] at e
    split at e
    · cases e
      exact hs
    · exact exec_keepsWf i s t hs e
  | tick => exact keepsWf_next State.passTick_wf
  | settle uid => exact keepsWf_next fun s hs => ite_wf hs (s.settle_wf uid hs)
  | arrive p => exact keepsWf_next fun s hs => s.arrival_wf p hs
  | cycle | complete | combine | barrier =>
    dsimp only [State.act]
    exact keepsWf_of_mem fun s => by simp

theorem step_keepsWf : KeepsWf step := by
  intro s t hs e
  unfold step State.stepOnce at e
  dsimp only at e
  split at e
  · next v hv =>
    cases e
    exact v.flush_wf (State.act_keepsWf _ _ _ (hs.of_mem (State.nextAction_mem { s with out := [], wire := [] })) hv)
  · next r hr =>
    exact absurd e (hr t)

/-- Settles O60: memory is written by stores of bytes and cut by power alone, and both keep its canonical form. -/
theorem stepKeepsMemoryCanonical : Obligations.StepKeepsMemoryCanonical := by
  unfold Obligations.StepKeepsMemoryCanonical
  exact step_keepsWf

end Sys2Proof.Machine
end

section
/-! LEMMAS AND PROOFS. Events, replies and commands of hosts; the steps of observation and of hosts (O52). -/

namespace Sys2Proof.Machine

/-! ## Maps under a change of every value -/

/-- What a relation holds of unchanged and of changed values, it holds of what is read before and after a change of every value. -/
theorem mget_map_rel {α : Type} {R : α → α → Prop} (d : α) (g : Nat × α → Nat × α) (m : SMap α) (k : Nat) (hk : ∀ x, (g x).1 = x.1)
    (hd : R d d) (h : ∀ x, x.1 = k → R x.2 (g x).2) : R (mget d m k) (mget d (m.map g) k) := by
  induction m with
  | nil => exact hd
  | cons x m ih =>
    obtain ⟨a, v⟩ := x
    simp only [List.map_cons, mget, hk]
    split
    · next e => exact h (a, v) e
    · exact ih

/-- A map set under one default and read under another, at another key. -/
theorem mget_mset_ne' {α : Type} [DecidableEq α] (d d' : α) (m : SMap α) {k j : Nat} (v : α) (h : j ≠ k) :
    mget d (mset d' m k v) j = mget d m j := by
  unfold mset
  split
  · exact mget_mdel_ne d m h
  · exact (mget_mins_ne d _ v h).trans (mget_mdel_ne d m h)

/-! ## Events (R379, R380) -/

theorem Logs.refl (s : State) : Logs s [] s := ⟨by simp, rfl⟩

/-- EMIT adds one event. -/
theorem logs_emit (s : State) (kind ctx : Nat) (p : List Byte) : Logs s [(kind, ctx, p)] (s.emit kind ctx p) := ⟨rfl, rfl⟩

/-- The events count from the log, its number and the tick alone. -/
theorem Logs.congr {s s' t : State} {es : List (Nat × Nat × List Byte)} (h : Logs s' es t) (hl : s'.logNew = s.logNew)
    (hn : s'.logNext = s.logNext) (ht : s'.tick = s.tick) : Logs s es t := by
  obtain ⟨he, hx⟩ := h
  rw [hl, hn, ht] at he
  rw [hn] at hx
  exact ⟨he, hx⟩

/-- Events of two steps, one after the other. -/
theorem Logs.trans {s t u : State} {es fs : List (Nat × Nat × List Byte)} (h : Logs s es t) (h' : Logs t fs u) (ht : t.tick = s.tick) :
    Logs s (es ++ fs) u := by
  obtain ⟨he, hn⟩ := h
  obtain ⟨he', hn'⟩ := h'
  refine ⟨?_, ?_⟩
  · rw [he', he, hn, ht, List.zipIdx_append, List.map_append, List.append_assoc, List.zipIdx_eq_map_add (l := fs) (i := 0 + es.length)]
    simp [Function.comp_def, Nat.add_assoc]
  · rw [hn', hn, List.length_append, Nat.add_assoc]

/-- Events that stood in the log stay, and the first that comes is numbered next. -/
theorem Logs.keeps {s t : State} {es : List (Nat × Nat × List Byte)} (h : Logs s es t) {x : EventRec} (hx : x ∈ s.logNew) : x ∈ t.logNew := by
  rw [h.events]
  exact List.mem_append_left _ hx

theorem Logs.first {s t : State} {e : Nat × Nat × List Byte} {es : List (Nat × Nat × List Byte)} (h : Logs s (e :: es) t) :
    (⟨s.logNext, e.1, e.2.1, s.tick, e.2.2⟩ : EventRec) ∈ t.logNew := by
  rw [h.events, List.zipIdx_cons, List.map_cons]
  exact List.mem_append_right _ (List.mem_cons_self ..)

/-- WRITE_DROPPED alone. -/
theorem drops_dropped (s : State) (host cause off : Nat) : Drops s host cause off (s.dropped host cause off) := ⟨logs_emit .., rfl⟩

/-! ## Writes of host memory (R374, R385) -/

theorem wrBytes_append (m : SMap Byte) (a : Nat) (xs ys : List Byte) :
    wrBytes m a (xs ++ ys) = wrBytes (wrBytes m a xs) (a + xs.length) ys := by
  induction xs generalizing m a with
  | nil => rfl
  | cons x xs ih => rw [List.cons_append, wrBytes, wrBytes, ih, List.length_cons, Nat.add_right_comm, Nat.add_assoc]

/-- A relation of cores: equal but for L1 and the quarters. -/
def CopiesOf (a b : CoreSt) : Prop := ∃ l q, b = { a with l1 := l, quarters := q }

/-- A write of host memory: nothing but memory, its past and poison, and the copies that the cores hold of it. -/
structure HostWritten (s t : State) : Prop where
  frame  : ∃ m p x c, t = { s with mem := m, past := p, poison := x, cores := c }
  copies : ∀ n, CopiesOf (s.core n) (t.core n)

theorem HostWritten.refl (s : State) : HostWritten s s := ⟨⟨_, _, _, _, rfl⟩, fun _ => ⟨_, _, rfl⟩⟩

theorem HostWritten.trans {s t u : State} (h : HostWritten s t) (h' : HostWritten t u) : HostWritten s u := by
  obtain ⟨⟨m, p, x, c, rfl⟩, hc⟩ := h
  obtain ⟨⟨m', p', x', c', rfl⟩, hc'⟩ := h'
  refine ⟨⟨m', p', x', c', rfl⟩, fun n => ?_⟩
  obtain ⟨l, q, e⟩ := hc n
  obtain ⟨l', q', e'⟩ := hc' n
  exact ⟨l', q', e'.trans (by rw [e])⟩

/-- An invalidation takes copies of one line out of the cores, and does nothing else. -/
theorem hostWritten_invalidate (s : State) (line : Nat) (core : Option Nat) (stamp : Nat) : HostWritten s (s.invalidate line core stamp) := by
  refine ⟨⟨_, _, _, _, rfl⟩, fun n => ?_⟩
  simp only [State.invalidate, State.memoMap, State.core, List.map_map]
  exact mget_map_rel (R := CopiesOf) {} _ s.cores n (fun _ => rfl) ⟨_, _, rfl⟩ fun _ _ => ⟨_, _, rfl⟩

/-- A store to host memory, by a core or by a host. -/
theorem hostWritten_storeHost (s : State) (off : Nat) (bs : List Byte) (core : Option Nat) (stamp : Nat) :
    HostWritten s (s.storeHost off bs core stamp) := by
  have h : HostWritten s { (s.notePast (hostBase + off) bs.length).setHostPoison off bs.length false with
      mem := wrBytes s.mem (hostBase + off) bs } := ⟨⟨_, _, _, _, rfl⟩, fun _ => ⟨_, _, rfl⟩⟩
  exact h.trans (hostWritten_invalidate ..)

@[simp] theorem State.storeHost_mem (s : State) (off : Nat) (bs : List Byte) (core : Option Nat) (stamp : Nat) :
    (s.storeHost off bs core stamp).mem = wrBytes s.mem (hostBase + off) bs := rfl

theorem hostWritten_hostPut (s : State) (off : Nat) (bs : List Byte) : HostWritten s (s.hostPut off bs) := by
  unfold State.hostPut
  generalize splitLines off (bs.length + 1) bs = l
  induction l generalizing s with
  | nil => exact .refl s
  | cons x l ih => exact (hostWritten_storeHost ..).trans (ih _)

/-- The lines of a write hold its bytes in order. -/
theorem mem_foldl_storeHost (fuel off : Nat) (bs : List Byte) (s : State) (h : bs.length < fuel) :
    ((splitLines off fuel bs).foldl (fun s x => s.storeHost x.1 x.2 none 0) s).mem = wrBytes s.mem (hostBase + off) bs := by
  induction fuel generalizing off bs s with
  | zero => exact absurd h (Nat.not_lt_zero _)
  | succ fuel ih =>
    unfold splitLines
    cases bs with
    | nil => rfl
    | cons b bs =>
      set n := 128 - off % 128 with hn
      have hpos : 0 < n := by omega
      simp only [List.isEmpty_cons, Bool.false_eq_true, if_false, List.foldl_cons]
      rw [ih _ _ _ (by simp only [List.length_drop, List.length_cons] at h ⊢; omega), State.storeHost_mem]
      conv_rhs => rw [← List.take_append_drop n (b :: bs), wrBytes_append]
      by_cases hle : n ≤ (b :: bs).length
      · rw [List.length_take, Nat.min_eq_left hle, Nat.add_assoc]
      · rw [List.drop_of_length_le (by omega)]; rfl

@[simp] theorem State.hostPut_mem (s : State) (off : Nat) (bs : List Byte) :
    (s.hostPut off bs).mem = wrBytes s.mem (hostBase + off) bs := mem_foldl_storeHost _ off bs s (Nat.lt_succ_self _)

/-! ## Replies (R377, R378) -/

/-- The reply of a command, and nothing else but a write of host memory. -/
theorem onlyReply_of_hostWritten {s t u : State} (h : HostWritten t u)
    (ht : t = { s with replies := t.replies, hosts := t.hosts }) : OnlyReply s u := by
  obtain ⟨⟨m, p, x, c, rfl⟩, hc⟩ := h
  refine ⟨?_, fun n => ?_⟩
  · conv_lhs => rw [ht]
  · obtain ⟨l, q, e⟩ := hc n
    have hs : t.core n = s.core n := by rw [ht]; rfl
    rw [e, hs]

/-- A reply before its slot is written: as the host got it last, and the ring one further. -/
def State.replying (s : State) (host status : Nat) (data : List Byte) : State :=
  { s with
    replies := mset {} s.replies host { (mget {} s.replies host : HostReply) with status := status, data := data, poison := false }
    hosts := mset {} s.hosts host { s.host host with cmdHead := (s.host host).cmdHead + 1 } }

theorem State.reply_eq (s : State) (host status : Nat) (data : List Byte) :
    s.reply host status data = (s.replying host status data).hostPut ((s.host host).slot + 40) (slotBytes status data) := rfl

theorem onlyReply_reply (s : State) (host status : Nat) (data : List Byte) : OnlyReply s (s.reply host status data) :=
  onlyReply_of_hostWritten (hostWritten_hostPut (s.replying host status data) _ _) rfl

/-- A reply stands in the slot of the record, and the ring goes on by one. -/
theorem replied_reply (s : State) (host status : Nat) (data : List Byte) : Replied s host status data (s.reply host status data) := by
  have hm : (s.reply host status data).mem = wrBytes s.mem (hostBase + ((s.host host).slot + 40)) (slotBytes status data) := by
    rw [State.reply_eq, State.hostPut_mem]; rfl
  obtain ⟨⟨m, p, x, c, e⟩, -⟩ := hostWritten_hostPut (s.replying host status data) ((s.host host).slot + 40) (slotBytes status data)
  rw [← State.reply_eq] at e
  have hr : (s.reply host status data).replies = (s.replying host status data).replies := by rw [e]
  have hh : (s.reply host status data).hosts = (s.replying host status data).hosts := by rw [e]
  refine ⟨?_, ?_, fun h => ?_, ?_, fun h hne => ?_⟩
  · rw [hr, State.replying, mget_mset_self]; exact ⟨rfl, rfl⟩
  · rw [hr, State.replying, mget_mset_self]
  · rw [State.host, hh, State.replying, mget_mset]
    split
    · next e => rw [e]
    · rfl
  · rw [hm]
    simp only [recordAt, HostW.slot, Nat.add_assoc]
  · rw [hr, State.replying, mget_mset_ne _ _ _ hne]

theorem Replied.congr {s s' t : State} {host n : Nat} {data : List Byte} (h : Replied s' host n data t) (hr : s'.replies = s.replies)
    (hh : s'.hosts = s.hosts) (hm : s'.mem = s.mem) : Replied s host n data t := by
  obtain ⟨reply, spdm, hosts, mem, others⟩ := h
  rw [hr] at spdm
  simp only [State.host, hh] at hosts mem
  rw [hm] at mem
  exact ⟨reply, spdm, hosts, mem, fun k hk => (others k hk).trans (by rw [hr])⟩

/-- What is left alone by a reply. -/
theorem OnlyReply.frame {s t : State} (h : OnlyReply s t) : ∃ r h m p x c, t = { s with replies := r, hosts := h, mem := m, past := p, poison := x, cores := c } :=
  ⟨_, _, _, _, _, _, h.1⟩

theorem OnlyReply.island {s t : State} (h : OnlyReply s t) : t.island = s.island := by
  obtain ⟨_, _, _, _, _, _, e⟩ := h.frame
  rw [e]

/-- Events stand under the reply. -/
theorem Logs.of_onlyReply {s t u : State} {es : List (Nat × Nat × List Byte)} (h : Logs s es t) (hu : OnlyReply t u) : Logs s es u := by
  obtain ⟨_, _, _, _, _, _, e⟩ := hu.frame
  exact ⟨(congrArg State.logNew e).trans h.events, (congrArg State.logNext e).trans h.next⟩

/-- Contexts, blocks and kernels under the status of a command. -/
theorem OnlyReply.ctx {t u : State} {i : Island} (h : OnlyReply { t with island := i } u) (n : Nat) : u.ctx n = t.ctx n := by
  obtain ⟨_, _, _, _, _, _, e⟩ := h.frame
  rw [e]
  rfl

theorem OnlyReply.blk {t u : State} {i : Island} (h : OnlyReply { t with island := i } u) (n : Nat) : u.blk n = t.blk n := by
  obtain ⟨_, _, _, _, _, _, e⟩ := h.frame
  rw [e]
  rfl

theorem OnlyReply.kernel {t u : State} {i : Island} (h : OnlyReply { t with island := i } u) (n : Nat) : u.kernel n = t.kernel n := by
  obtain ⟨_, _, _, _, _, _, e⟩ := h.frame
  rw [e]
  rfl

theorem OnlyReply.blocks {t u : State} {i : Island} (h : OnlyReply { t with island := i } u) : u.blocks = t.blocks := by
  obtain ⟨_, _, _, _, _, _, e⟩ := h.frame
  rw [e]

theorem Logs.withIsland {s t : State} {es : List (Nat × Nat × List Byte)} (h : Logs s es t) (i : Island) : Logs s es { t with island := i } :=
  ⟨h.events, h.next⟩

@[simp] theorem reply_island (s : State) (host n : Nat) (data : List Byte) : (s.reply host n data).island = s.island :=
  (onlyReply_reply s host n data).island

/-! ## Commands (R375-R378) -/

theorem hasCmd_iff (s : State) (host : Nat) (seq : Option Word) (op : Nat) (zero : BitVec 16) (args : List Byte → Bool) :
    s.hasCmd host seq op zero args = true ↔ Asked s host seq op zero args := by
  have at_ : hostBase + (s.host host).slot = recordAt (s.host host) := by simp only [recordAt, HostW.slot, Nat.add_assoc]
  simp only [State.hasCmd, at_, Bool.and_eq_true, bne_iff_ne, beq_iff_eq]
  constructor
  · rintro ⟨⟨⟨⟨hs, ht⟩, hn⟩, ho⟩, ha⟩
    refine ⟨⟨hs, ht⟩, ?_, ho, ha⟩
    rintro n rfl
    exact beq_iff_eq.1 hn
  · rintro ⟨ring, number, ho, ha⟩
    refine ⟨⟨⟨ring, ?_⟩, ho⟩, ha⟩
    cases seq with
    | none => rfl
    | some n => exact beq_iff_eq.2 (number n rfl)

/-- A command is not executed: without power, from no host, while a TLB_INVAL waits, or with no record of it. -/
theorem notRun_iff (s : State) (host : Nat) (seq : Option Word) (op : Nat) (zero : BitVec 16) (args : List Byte → Bool) :
    (s.island.st = 0 ∨ 8 ≤ host ∨ s.tlbCmd.isSome ∨ s.hasCmd host seq op zero args = false) ↔
      (s.island.st = 0 ∨ 8 ≤ host ∨ s.tlbCmd.isSome = true ∨ ¬ Asked s host seq op zero args) := by
  rw [← hasCmd_iff, Bool.not_eq_true]

/-- The same of one that is: each reason is excluded. -/
theorem runs_of {s : State} {host : Nat} {seq : Option Word} {op : Nat} {zero : BitVec 16} {args : List Byte → Bool}
    (hst : s.island.st ≠ 0) (hh : host < 8) (ht : s.tlbCmd = none) (ha : Asked s host seq op zero args) :
    ¬ (s.island.st = 0 ∨ 8 ≤ host ∨ s.tlbCmd.isSome ∨ s.hasCmd host seq op zero args = false) := by
  rw [notRun_iff]
  rintro (h | h | h | h)
  · exact hst h
  · omega
  · simp [ht] at h
  · exact h ha

/-- A command of any host does what its run does. -/
theorem openCommand_of {i : Instr} {c : Sender} {op : Nat} {args : List Byte → Bool} {does : State → State → Prop} (run : State → State)
    (hi : ∀ s, exec i s = .next (s.openCommand c op args run)) (h : ∀ s, s.island.st ≠ 0 → does s (run s)) : OpenCommand i c op args does := by
  intro s
  refine ⟨_, hi s, fun hn => if_pos ((notRun_iff ..).2 hn), fun hst hh ht ha => ⟨fun hz => ?_, fun hz => ?_⟩⟩
  · rw [State.openCommand, if_neg (runs_of hst hh ht ha), if_neg hz]
    exact ⟨replied_reply .., onlyReply_reply ..⟩
  · rw [State.openCommand, if_neg (runs_of hst hh ht ha), if_pos hz]
    exact h s hst

/-- What a command of the owner comes to, in order and with its zero field zero: its number is accepted, and its status written. -/
def State.accepted (t : State) (c : Cmd) (r : Nat × List Byte) : State :=
  ({ t with island := { t.island with lastAccepted := c.seq } }).reply c.host r.1 r.2

/-- A command of the owner that ends at once: its answer, and its effect under the reply. -/
theorem commandAt_of {s : State} {i : Instr} {c : Cmd} {op : Nat} {args : State → List Byte → Bool} {answer : State → Nat × List Byte}
    {effect : State → State → Prop} (run : State → Option (Nat × List Byte) × State)
    (hi : exec i s = .next (s.command c op (args s) run)) (hr : (run s).1 = some (answer s))
    (hreplies : (run s).2.replies = s.replies) (hhosts : (run s).2.hosts = s.hosts) (hmem : (run s).2.mem = s.mem)
    (he : s.island.owner = some c.host → ∀ u, OnlyReply { (run s).2 with island := { (run s).2.island with lastAccepted := c.seq } } u → effect s u) :
    CommandAt s i c op args answer effect := by
  refine ⟨_, hi, fun hn => if_pos ((notRun_iff ..).2 hn), fun hst hh ht ha => ⟨fun ho => ?_, fun ho => ⟨fun hq => ?_, fun hq hz => ?_, fun hq hz => ?_⟩⟩⟩
  all_goals rw [State.command, if_neg (runs_of hst hh ht ha)]
  · rw [if_pos ho]
    exact ⟨replied_reply .., onlyReply_reply ..⟩
  · rw [if_neg (not_not.2 ho), if_neg hq]
    exact ⟨replied_reply .., onlyReply_reply ..⟩
  · rw [if_neg (not_not.2 ho), if_pos hq, if_neg hz]
    exact ⟨(replied_reply ..).congr rfl rfl rfl, onlyReply_reply ..⟩
  · rw [if_neg (not_not.2 ho), if_pos hq, if_pos hz]
    rcases hrun : run s with ⟨r, t⟩
    rw [hrun] at hr hreplies hhosts hmem he
    obtain rfl : r = some (answer s) := hr
    refine ⟨(replied_reply ..).congr hreplies hhosts hmem, ?_, he ho _ (onlyReply_reply ..)⟩
    obtain ⟨_, _, _, _, _, _, e⟩ := (onlyReply_reply { t with island := { t.island with lastAccepted := c.seq } } c.host (answer s).1 (answer s).2).frame
    exact congrArg (fun u : State => u.island.lastAccepted) e

/-- A command that is refused: its status is all that it does. -/
theorem commandAt_refused {s : State} {i : Instr} {c : Cmd} {op : Nat} {args : State → List Byte → Bool} {answer : State → Nat × List Byte}
    {effect : State → State → Prop} {run : State → Option (Nat × List Byte) × State}
    (hi : exec i s = .next (s.command c op (args s) run)) {n : Nat} (hr : run s = status n s) (ha : answer s = (n, []))
    (he : ∀ u, NoEffect c s u → effect s u) : CommandAt s i c op args answer effect :=
  commandAt_of run hi (by rw [hr, ha]; rfl) (by rw [hr]; rfl) (by rw [hr]; rfl) (by rw [hr]; rfl) fun _ u hu => he u (by rw [hr] at hu; exact hu)

/-- A command that is carried out: what it makes of the machine, under its status. -/
theorem commandAt_done {s : State} {i : Instr} {c : Cmd} {op : Nat} {args : State → List Byte → Bool} {answer : State → Nat × List Byte}
    {effect : State → State → Prop} {run : State → Option (Nat × List Byte) × State}
    (hi : exec i s = .next (s.command c op (args s) run)) {n : Nat} {t : State} (hr : run s = status n t) (ha : answer s = (n, []))
    (hreplies : t.replies = s.replies) (hhosts : t.hosts = s.hosts) (hmem : t.mem = s.mem)
    (he : s.island.owner = some c.host → ∀ u, OnlyReply { t with island := { t.island with lastAccepted := c.seq } } u → effect s u) :
    CommandAt s i c op args answer effect :=
  commandAt_of run hi (by rw [hr, ha]; rfl) (by rw [hr]; exact hreplies) (by rw [hr]; exact hhosts) (by rw [hr]; exact hmem)
    (by rw [hr]; exact he)

/-- The owner's next command, in its ring, does what its run does. -/
theorem command_next {s : State} {c : Cmd} {op : Nat} {args : List Byte → Bool} (h : NextCommand s c op args)
    (run : State → Option (Nat × List Byte) × State) :
    s.command c op args run = match run s with
      | (none, t) => t
      | (some r, t) => t.accepted c r := by
  obtain ⟨hst, hh, ho, hq, hz, ht, ha⟩ := h
  rw [State.command, if_neg (runs_of hst hh ht ha), if_neg (not_not.2 ho), if_pos hq, if_pos hz]
  rfl

/-! ## Sorted lists -/

theorem putBy_eq_orderedInsert (a : Nat) (l : List Nat) : l.putBy (fun a b => decide (a ≤ b)) a = l.orderedInsert (· ≤ ·) a := by
  induction l with
  | nil => rfl
  | cons b l ih => simp only [List.putBy, List.orderedInsert_cons, decide_eq_true_eq, ih]

theorem sortUp_eq_insertionSort (l : List Nat) : l.sortUp = l.insertionSort (· ≤ ·) := by
  induction l with
  | nil => rfl
  | cons a l ih =>
    rw [List.insertionSort_cons, ← ih, ← putBy_eq_orderedInsert]
    rfl

theorem pairwise_lt_eraseDups {l : List Nat} (h : l.Pairwise (· ≤ ·)) : l.eraseDups.Pairwise (· < ·) := by
  induction hn : l.length using Nat.strong_induction_on generalizing l with
  | _ n ih =>
    cases l with
    | nil => simp
    | cons a l =>
      obtain ⟨ha, hl⟩ := List.pairwise_cons.1 h
      rw [List.eraseDups_cons, List.pairwise_cons]
      refine ⟨fun b hb => ?_, ih _ ?_ (hl.filter _) rfl⟩
      · obtain ⟨hbl, hne⟩ := List.mem_filter.1 (List.mem_eraseDups.1 hb)
        exact lt_of_le_of_ne (ha b hbl) fun e => by simp [e] at hne
      · rw [← hn, List.length_cons]
        exact Nat.lt_succ_of_le (List.length_filter_le ..)

/-- The distinct elements of a list, in ascending order. -/
theorem pairwise_lt_sortUp_eraseDups (l : List Nat) : l.sortUp.eraseDups.Pairwise (· < ·) :=
  pairwise_lt_eraseDups (by rw [sortUp_eq_insertionSort]; exact List.pairwise_insertionSort ..)

theorem mem_sortUp_eraseDups (l : List Nat) (a : Nat) : a ∈ l.sortUp.eraseDups ↔ a ∈ l := by
  rw [List.mem_eraseDups, sortUp_eq_insertionSort, List.mem_insertionSort]

/-! ## The series (R404, R407) -/

theorem latchDue_iff (s : State) : s.latchDue = true ↔
    s.seriesk ≠ 0#32 ∧ (s.tick - s.stampBase) % 2 ^ s.seriesk.toNat = 0 ∧ s.serLast ≠ s.tick + 1 := by
  simp [State.latchDue, BitVec.toNat_eq, and_assoc]

theorem seriesLatch_step (s : State) : ∃ t, exec .seriesLatch s = .next t ∧
    let due := s.seriesk ≠ 0#32 ∧ (s.tick - s.stampBase) % 2 ^ s.seriesk.toNat = 0 ∧ s.serLast ≠ s.tick + 1
    (¬ due → t = s) ∧
    (due → t.serSeq = (s.serSeq + 1) % 2 ^ 32 ∧ t.serLast = s.tick + 1 ∧
      (s.serSize = 0 → t = { s with serSeq := (s.serSeq + 1) % 2 ^ 32, serLast := s.tick + 1, fresh := t.fresh })) := by
  refine ⟨s.seriesLatch, rfl, fun h => ?_, fun h => ?_⟩
  · rw [← latchDue_iff] at h
    simp [State.seriesLatch, h]
  · rw [← latchDue_iff] at h
    simp only [State.seriesLatch, h, Bool.not_true, Bool.false_eq_true, if_false]
    refine ⟨trivial, trivial, fun h0 => ?_⟩
    rw [if_pos h0]

theorem wordBytes_length (ws : List Word) : (wordBytes ws).length = 4 * ws.length := by
  induction ws with
  | nil => rfl
  | cons w ws ih =>
    rw [wordBytes, List.flatMap_cons, List.length_append, leBytes_length, ← wordBytes, ih, List.length_cons]
    ring

/-- Bytes of words: each in its four places. -/
theorem take_drop_wordBytes (ws : List Word) (rest : List Byte) (i : Nat) (h : i < ws.length) :
    (((wordBytes ws ++ rest).drop (4 * i)).take 4) = leBytes 4 ws[i].toNat := by
  induction ws generalizing i with
  | nil => exact absurd h (Nat.not_lt_zero _)
  | cons w ws ih =>
    have hb : wordBytes (w :: ws) ++ rest = leBytes 4 w.toNat ++ (wordBytes ws ++ rest) := by
      rw [wordBytes, List.flatMap_cons, List.append_assoc]; rfl
    have h4 : (leBytes 4 w.toNat).length = 4 := leBytes_length ..
    cases i with
    | zero => rw [hb, Nat.mul_zero, List.drop_zero, List.take_left' h4, List.getElem_cons_zero]
    | succ i =>
      have hi : i < ws.length := Nat.lt_of_succ_lt_succ h
      rw [hb, Nat.mul_succ, Nat.add_comm, ← List.drop_drop, List.drop_left' h4, ih i hi, List.getElem_cons_succ]

/-- The words of a frame. -/
def State.frameWords (s : State) (id : Nat) : List Word := (List.range (unitKind id).2).map fun i => s.unitWord id i

/-- The first 16 bytes of a frame. -/
def State.frameHead (s : State) (id : Nat) : List Byte :=
  leBytes 8 s.tick ++ leBytes 2 id ++ [BitVec.ofNat 8 (unitKind id).1, BitVec.ofNat 8 (unitKind id).2] ++ leBytes 4 s.serSeq

theorem State.frame_eq (s : State) (id : Nat) : s.frame id =
    s.frameHead id ++ (wordBytes (s.frameWords id) ++ List.replicate (112 - 4 * (unitKind id).2) 0#8) := by
  rw [← List.append_assoc]; rfl

theorem frameHead_length (s : State) (id : Nat) : (s.frameHead id).length = 16 := by
  simp [State.frameHead, leBytes_length]

theorem unitKind_count_le (id : Nat) : (unitKind id).2 ≤ 28 := by
  unfold unitKind
  split_ifs <;> decide

theorem frame_reads (s : State) (id : Nat) : (s.frame id).length = 128 ∧
    (s.frame id).take 16 = leBytes 8 s.tick ++ leBytes 2 id ++ [BitVec.ofNat 8 (unitKind id).1, BitVec.ofNat 8 (unitKind id).2] ++ leBytes 4 s.serSeq ∧
    ∀ i, i < (unitKind id).2 → let w := leNat (((s.frame id).drop (16 + 4 * i)).take 4)
      ((unitKind id).1 = 0 → i = 16 → w = s.cycleOf id % 2 ^ 32) ∧
      (¬ ((unitKind id).1 = 0 ∧ i = 16) → w = (mget 0#32 s.units (id * 32 + i)).toNat) := by
  have hw : (s.frameWords id).length = (unitKind id).2 := by simp [State.frameWords]
  rw [State.frame_eq]
  refine ⟨?_, List.take_left' (frameHead_length ..), fun i hi => ?_⟩
  · have := unitKind_count_le id
    simp only [List.length_append, frameHead_length, wordBytes_length, hw, List.length_replicate]
    omega
  · have word : leNat (((s.frameHead id ++ (wordBytes (s.frameWords id) ++ List.replicate (112 - 4 * (unitKind id).2) 0#8)).drop
        (16 + 4 * i)).take 4) = (s.unitWord id i).toNat := by
      rw [← List.drop_drop, List.drop_left' (frameHead_length ..), take_drop_wordBytes _ _ i (by rw [hw]; exact hi), leNat_leBytes]
      simp only [State.frameWords, List.getElem_map, List.getElem_range]
      exact Nat.mod_eq_of_lt (s.unitWord id i).isLt
    simp only [word, State.unitWord]
    refine ⟨fun h0 h16 => ?_, fun h => ?_⟩
    · rw [if_pos ⟨h0, h16⟩, BitVec.toNat_ofNat]
    · rw [if_neg h]

/-- Reads and stores at a PA in host memory. -/
theorem paLoad_host (s : State) (pa n : Nat) (h : pa / 2 ^ 48 = 2) : s.paLoad pa n = rdBytes s.mem (hostBase + pa % 2 ^ 40) n := if_pos h
theorem paStore_host_mem (s : State) (pa : Nat) (bs : List Byte) (rel : Bool) (h : pa / 2 ^ 48 = 2) :
    (s.paStore pa bs rel).mem = wrBytes s.mem (hostBase + pa % 2 ^ 40) bs := by
  rw [State.paStore, if_pos h, State.hostPut_mem]

theorem framePush_host_mem (s : State) (bs : List Byte) (h : s.serBase.toNat / 2 ^ 48 = 2)
    (hfit : s.serBase.toNat % 2 ^ 40 + 16 + 128 * 2 ^ s.serSize ≤ 2 ^ 40) :
    let a := hostBase + s.serBase.toNat % 2 ^ 40
    let w := leNat (rdBytes s.mem a 4)
    let r := leNat (rdBytes s.mem (a + 4) 4)
    (s.framePush bs).mem = if (w + 2 ^ 32 - r) % 2 ^ 32 = 2 ^ s.serSize
      then wrBytes s.mem (a + 8) (leBytes 4 (min (leNat (rdBytes s.mem (a + 8) 4) + 1) 0xFFFFFFFF))
      else wrBytes (wrBytes s.mem (a + 16 + 128 * (w % 2 ^ s.serSize)) bs) a (leBytes 4 ((w + 1) % 2 ^ 32)) := by
  intro a w r
  -- within the ring an offset stays in host memory
  have inside : ∀ k, k < 16 + 128 * 2 ^ s.serSize → (s.serBase.toNat + k) / 2 ^ 48 = 2 ∧
      hostBase + (s.serBase.toNat + k) % 2 ^ 40 = a + k := by
    intro k hk
    refine ⟨by omega, ?_⟩
    simp only [a]
    omega
  have hpos : 0 < 2 ^ s.serSize := Nat.two_pow_pos _
  obtain ⟨h4, e4⟩ := inside 4 (by omega)
  obtain ⟨h8, e8⟩ := inside 8 (by omega)
  obtain ⟨hs, es⟩ := inside (16 + 128 * (w % 2 ^ s.serSize)) (by have := Nat.mod_lt w hpos; omega)
  rw [← Nat.add_assoc] at hs es
  have hw : leNat (s.paLoad s.serBase.toNat 4) = w := by rw [paLoad_host _ _ _ h]
  have hr : leNat (s.paLoad (s.serBase.toNat + 4) 4) = r := by rw [paLoad_host _ _ _ h4, e4]
  simp only [State.framePush, hw, hr, paLoad_host _ _ _ h8, e8]
  split
  · rw [paStore_host_mem _ _ _ _ h8, e8]
  · rw [paStore_host_mem _ _ _ _ h, paStore_host_mem _ _ _ _ hs, es, Nat.add_assoc a]

/-! ## Samples (R408) -/

/-- The quarter of a core that has been set. -/
theorem quarter_setQuarter (k : CoreSt) (n : Nat) (q : Quarter) : (k.setQuarter n q).quarter n = q := mget_mset_self ..

theorem sampDue_setDue (s : State) (core quarter ctx : Nat) (l : List (List Byte)) :
    mget [] (((s.setDue core quarter ctx l).core core).quarter quarter).sampDue ctx = l := by
  rw [State.setDue, core_setCore, quarter_setQuarter, mget_mset_self]

/-- Sampling goes off at a fault, and the owner hears of it (R408, R314). -/
def State.sampOff (t : State) (core quarter n va : Nat) : State :=
  ((t.setCtx n { t.ctx n with sampPeriod := 0 }).setDue core quarter n []).notifyFault n 1 va

theorem ctx_setDue (s : State) (core quarter n k : Nat) (l : List (List Byte)) : (s.setDue core quarter n l).ctx k = s.ctx k := rfl
theorem ctx_notifyFault (s : State) (n stream va k : Nat) : (s.notifyFault n stream va).ctx k = s.ctx k := rfl

theorem sampOff_period (t : State) (core quarter n va : Nat) : ((t.sampOff core quarter n va).ctx n).sampPeriod = 0 := by
  rw [State.sampOff, ctx_notifyFault, ctx_setDue, ctx_setCtx]

theorem sampOff_mem (t : State) (core quarter n va : Nat) : (t.sampOff core quarter n va).mem = t.mem := by
  rw [State.sampOff, State.notifyFault_mem, State.setDue_mem]
  rfl

theorem logs_setDue {s t : State} {es : List (Nat × Nat × List Byte)} {core quarter n : Nat} {l : List (List Byte)}
    (h : Logs (s.setDue core quarter n l) es t) : Logs s es t := h.congr rfl rfl rfl

theorem logs_sampOff (t : State) (core quarter n va : Nat) :
    Logs t [(7, n, [1#8] ++ List.replicate 7 0#8 ++ leBytes 8 va)] (t.sampOff core quarter n va) := by
  have h : Logs (t.setCtx n { t.ctx n with sampPeriod := 0 }) _ (t.sampOff core quarter n va) := logs_setDue (logs_emit ..)
  exact h.congr rfl rfl rfl

theorem pcSample_step (core quarter : Nat) (s : State) : ∃ t, exec (.pcSample core quarter) s = .next t ∧
    let q := (s.core core).quarter quarter
    (q.sampDue = [] → t = s) ∧
    ∀ n recs, q.sampDue = [(n, recs)] →
      (∀ t' left, s.pushAll n (s.ctx n).sampBase.toNat (s.ctx n).sampM recs = (.ok t', left) →
        mget [] ((t.core core).quarter quarter).sampDue n = [] ∧ t.mem = t'.mem) ∧
      ∀ va t' left, s.pushAll n (s.ctx n).sampBase.toNat (s.ctx n).sampM recs = (.fault va t', left) → (t.ctx n).sampPeriod = 0 ∧
        t.mem = t'.mem ∧ Logs t' [(7, n, [1#8] ++ List.replicate 7 0#8 ++ leBytes 8 va)] t := by
  refine ⟨s.pcSample core quarter, rfl, fun h => ?_, fun n recs h => ?_⟩
  · rw [State.pcSample, h]; rfl
  have hp : s.pcSample core quarter = s.sampleCtx core quarter n := by rw [State.pcSample, h]; rfl
  have hd : mget [] ((s.core core).quarter quarter).sampDue n = recs := by rw [h]; exact if_pos rfl
  rw [hp]
  refine ⟨fun t' left e => ?_, fun va t' left e => ?_⟩
  · have hs : s.sampleCtx core quarter n = t'.setDue core quarter n [] := by rw [State.sampleCtx, hd, e]
    rw [hs]
    exact ⟨sampDue_setDue .., State.setDue_mem ..⟩
  · have hs : s.sampleCtx core quarter n = t'.sampOff core quarter n va := by rw [State.sampleCtx, hd, e]; rfl
    rw [hs]
    exact ⟨sampOff_period .., sampOff_mem .., logs_sampOff ..⟩

theorem sampleCount_quarter (s : State) (core quarter n : Nat) :
    let q := (s.core core).quarter quarter
    let t := s.sampleCount core quarter n
    let q' := (t.core core).quarter quarter
    let p := (s.ctx n).sampPeriod
    (p = 0 → t = s) ∧
    (p ≠ 0 → mget 0 q.samp n + 1 < p → mget 0 q'.samp n = mget 0 q.samp n + 1 ∧ q'.sampDue = q.sampDue) ∧
    (p ≠ 0 → p ≤ mget 0 q.samp n + 1 → mget 0 q'.samp n = 0 ∧
      mget [] q'.sampDue n = mget [] q.sampDue n ++ (((s.slotList core).filter fun x => x.1 / 8 == quarter && (s.blk x.2.1).ctx == n).sortBy
        fun a b => decide (a.1 ≤ b.1)).map fun x => s.sampleBytes core quarter x.1 x.2.1 x.2.2) := by
  refine ⟨fun h => if_pos h, fun h hlt => ?_, fun h hle => ?_⟩
  · simp only [State.sampleCount, if_neg h, if_pos hlt, core_setCore, quarter_setQuarter, mget_mset_self, and_self]
  · simp only [State.sampleCount, if_neg h, if_neg (Nat.not_lt.2 hle), core_setCore, quarter_setQuarter, mget_mset_self, State.samples, and_self]

/-! ## Stops (R413, R414) -/

theorem stopAt_step (s : State) : ∃ t, exec .stopAt s = .next t ∧
    let due := s.stopat.toNat ≠ 2 ^ 64 - 1 ∧ s.stopat.toNat = s.tick ∧ s.stopSet < s.tick ∧ s.stopped = false
    (¬ due → t = s) ∧ (due → t = { s with stopped := true, stopat := BitVec.ofNat 64 (2 ^ 64 - 1), stopTick := s.tick }) :=
  ⟨s.stopNow, rfl, fun h => if_neg h, fun h => if_pos h⟩

theorem stopResume_step (host : Nat) (s : State) : ∃ t, exec (.stopResume host) s = .next t ∧
    (s.island.owner ≠ some host → Drops s host 1 0x3002C t) ∧ (s.island.owner = some host → s.stopped = false → t = s) ∧
    (s.island.owner = some host → s.stopped = true → t.stopped = false ∧ t.resumeTick = s.tick + 1 ∧ t.mem = s.mem ∧ t.blocks = s.blocks) := by
  refine ⟨s.stopResume host, rfl, fun h => ?_, fun h h0 => ?_, fun h h1 => ?_⟩
  · rw [State.stopResume, if_pos h]
    exact drops_dropped ..
  · rw [State.stopResume, if_neg (not_not.2 h), h0]
    rfl
  · rw [State.stopResume, if_neg (not_not.2 h), if_pos h1]
    exact ⟨rfl, rfl, rfl, rfl⟩

/-! ## In-field tests (R415, R416) -/

theorem quadBusy_eq_false_iff (s : State) (q : Nat) : s.quadBusy q = false ↔
    ∀ b ∈ s.blocks, b.2.live = true → ∀ n, b.2.core = some n → n / 32 ≠ q := by
  rw [State.quadBusy, List.any_eq_false]
  refine forall₂_congr fun b _ => ?_
  cases b.2.core <;> simp

theorem quadrantTest_step (q : Nat) (s : State) : ∃ t, exec (.quadrantTest q) s = .next t ∧
    let may := s.island.st = 3 ∧ q < 16 ∧ (∀ b ∈ s.blocks, b.2.live = true → ∀ n, b.2.core = some n → n / 32 ≠ q) ∧
      (s.quad q).busyAt + 10000000 ≤ s.tick ∧ s.island.quarantine.getLsbD q = false ∧ (s.quad q).testing = none
    (¬ may → t = s) ∧ (may → t = s.setQuad q { s.quad q with testing := some s.tick }) := by
  refine ⟨s.quadTest q, rfl, fun h => ?_, fun h => ?_⟩
  · rw [← quadBusy_eq_false_iff] at h
    exact if_neg h
  · rw [← quadBusy_eq_false_iff] at h
    exact if_pos h

theorem quadrantTestDone_pass_step (q : Nat) (s : State) : ∃ t, exec (.quadrantTestDone q true) s = .next t ∧
    t = if (s.quad q).testing = none then s else s.setQuad q { s.quad q with testing := none, lastPass := s.tick } := by
  refine ⟨s.quadDone q true, rfl, ?_⟩
  simp only [State.quadDone, Option.isNone_iff_eq_none, if_true]

/-- Events of one kind and payload for several contexts. -/
theorem logs_foldl_emit (kind : Nat) (p : List Byte) (cs : List Nat) (s : State) :
    Logs s (cs.map fun n => (kind, n, p)) (cs.foldl (fun s c => s.emit kind c p) s) := by
  induction cs generalizing s with
  | nil => exact .refl s
  | cons c cs ih => exact (logs_emit s kind c p).trans (ih _) rfl

/-- The contexts that stood on a quadrant since its last pass (R415). -/
def State.stoodOn (s : State) (q : Nat) : List Nat :=
  ((s.placeLog.filter fun p => p.quad == q && decide ((s.quad q).lastPass ≤ p.tick ∧ p.tick ≤ s.tick)).map PlaceRec.ctx).sortUp.eraseDups

theorem mem_stoodOn (s : State) (q n : Nat) : n ∈ s.stoodOn q ↔
    ∃ p ∈ s.placeLog, p.quad = q ∧ (s.quad q).lastPass ≤ p.tick ∧ p.tick ≤ s.tick ∧ p.ctx = n := by
  rw [State.stoodOn, mem_sortUp_eraseDups]
  simp [and_assoc]

/-- A failed quadrant before its events: its test is over, its bit is set. -/
def State.quarantined (s : State) (q : Nat) : State :=
  { s.setQuad q { s.quad q with failTick := s.tick, testing := none } with island := s.island.remark q true }

theorem quarantineQuad_eq (s : State) (q : Nat) : s.quarantineQuad q = (0xFFFF :: s.stoodOn q).foldl (fun t c => t.emit 0x0D c
    (leBytes 6 (s.quad q).lastPass ++ leBytes 6 s.tick ++ [BitVec.ofNat 8 q, 0#8, 0#8, 0#8])) (s.quarantined q) := rfl

theorem quarantineQuad_island (s : State) (q : Nat) : (s.quarantineQuad q).island = s.island.remark q true := by
  rw [quarantineQuad_eq]
  refine foldl_keeps (fun t : State => t.island) _ ?_ _ (s.quarantined q)
  exact fun _ _ => rfl

/-- The quarantine bits after a bit is set or cleared. -/
theorem remark_quarantine (i : Island) {q : Nat} (hq : q < 16) (v : Bool) (n : Nat) :
    (i.remark q v).quarantine.getLsbD n = if n = q then v else i.quarantine.getLsbD n := getLsbD_setBit i.quarantine q n v hq

theorem quadrantTestDone_fail_step (q : Nat) (s : State) : ∃ t, exec (.quadrantTestDone q false) s = .next t ∧
    ((s.quad q).testing = none → t = s) ∧
    ((s.quad q).testing ≠ none → q < 16 → (∀ n, t.island.quarantine.getLsbD n = (s.island.quarantine.getLsbD n || decide (n = q))) ∧
      t.island.partVer = s.island.partVer + 1 ∧
      let pay := leBytes 6 (s.quad q).lastPass ++ leBytes 6 s.tick ++ [BitVec.ofNat 8 q, 0#8, 0#8, 0#8]
      ∃ cs : List Nat, cs.Pairwise (· < ·) ∧ Logs s ((0xFFFF :: cs).map fun n => (0x0D, n, pay)) t ∧
        ∀ n, n ∈ cs ↔ ∃ p ∈ s.placeLog, p.quad = q ∧ (s.quad q).lastPass ≤ p.tick ∧ p.tick ≤ s.tick ∧ p.ctx = n) := by
  refine ⟨s.quadDone q false, rfl, fun h => ?_, fun h hq => ?_⟩
  · rw [State.quadDone, if_pos (Option.isNone_iff_eq_none.2 h)]
  have hd : s.quadDone q false = s.quarantineQuad q := by
    rw [State.quadDone, if_neg (mt Option.isNone_iff_eq_none.1 h)]
    rfl
  rw [hd, quarantineQuad_island]
  refine ⟨fun n => ?_, rfl, s.stoodOn q, pairwise_lt_sortUp_eraseDups _, ?_, mem_stoodOn s q⟩
  · rw [remark_quarantine _ hq]
    by_cases e : n = q <;> simp [e]
  · rw [quarantineQuad_eq]
    exact (logs_foldl_emit ..).congr rfl rfl rfl

/-! ## Doorbells (R116, R376) -/

theorem queueDoorbell_step (host h : Nat) (v : Word) (s : State) : ∃ t, exec (.queueDoorbell host h v) s = .next t ∧
    (s.island.st = 0 ∨ 256 ≤ h → t = s) ∧
    (s.island.st ≠ 0 → h < 256 → (s.island.owner ≠ some host → Drops s host 1 (0x10000 + 16 * h) t) ∧
      (s.island.owner = some host →
        let q := s.queue h
        let ok := (q.st = .armed ∨ q.st = .stopped) ∧ q.occ + (v - q.tail).toNat ≤ 2 ^ q.n
        (ok → t = s.setQueue h { q with tail := v }) ∧
        (¬ ok → Logs s [(2, q.bound.getD 0xFFFF, [BitVec.ofNat 8 h, 1#8, 0#8, 0#8] ++ leBytes 4 0 ++ leBytes 8 0)] t ∧ t.queue h = q))) := by
  refine ⟨s.doorbell host h v, rfl, fun hn => if_pos hn, fun hst hh => ⟨fun ho => ?_, fun ho => ?_⟩⟩
  all_goals rw [State.doorbell, if_neg (by omega)]
  · rw [if_pos ho]
    exact drops_dropped ..
  · rw [if_neg (not_not.2 ho)]
    have cond : (((s.queue h).st == .armed || (s.queue h).st == .stopped) &&
        decide ((s.queue h).occ + (v - (s.queue h).tail).toNat ≤ 2 ^ (s.queue h).n)) = true ↔
        ((s.queue h).st = .armed ∨ (s.queue h).st = .stopped) ∧ (s.queue h).occ + (v - (s.queue h).tail).toNat ≤ 2 ^ (s.queue h).n := by
      simp
    refine ⟨fun ok => if_pos (cond.2 ok), fun ok => ?_⟩
    rw [if_neg (mt cond.1 ok)]
    exact ⟨logs_emit .., rfl⟩

/-! ## Ownership (R375, R376, R380) -/

/-- OWNER_CHANGE, and nothing else but the owner, the count of heartbeats and the claims. -/
theorem setOwner_island (s : State) (new : Option Nat) (cause : Nat) :
    (s.setOwner new cause).island = { s.island with owner := new, heartbeat := s.tick, claims := [] } := rfl

theorem logs_setOwner (s : State) (new : Option Nat) (cause : Nat) : Logs s [(0x0C, 0xFFFF,
    [BitVec.ofNat 8 (new.getD 0xFF), BitVec.ofNat 8 (s.island.owner.getD 0xFF), BitVec.ofNat 8 cause])] (s.setOwner new cause) :=
  ⟨rfl, rfl⟩

/-- The highest-listed host that claimed. -/
def State.firstClaim (s : State) : Option Nat := s.island.precedence.find? fun h => decide (h ∈ s.island.claims)

theorem firstClaim_eq (s : State) : (s.island.precedence.find? fun h => s.island.claims.contains h) = s.firstClaim := by
  simp only [State.firstClaim, List.contains_eq_mem]

/-- A grant is due: the dies have power, there is no owner, and 1 s has passed since boot. -/
def State.grantDue (s : State) : Prop := s.island.st ≠ 0 ∧ s.island.owner = none ∧ s.island.bootTick + 1000000000 ≤ s.tick

theorem grant_of_not_due (s : State) (h : ¬ s.grantDue) : s.grant = s := if_neg h

theorem grant_of_due (s : State) (h : s.grantDue) : s.grant = match s.firstClaim with
    | some h => s.setOwner (some h) 0
    | none => s := by
  rw [State.grant, firstClaim_eq]
  exact if_pos h

theorem grant_of_none (s : State) (h : s.firstClaim = none) : s.grant = s := by
  by_cases hd : s.grantDue
  · rw [grant_of_due s hd, h]
  · exact grant_of_not_due s hd

theorem grant_of_some {s : State} {h : Nat} (hd : s.grantDue) (hf : s.firstClaim = some h) : s.grant = s.setOwner (some h) 0 := by
  rw [grant_of_due s hd, hf]

theorem ownershipGrant_step (s : State) : ∃ t, exec .ownershipGrant s = .next t ∧
    let due := s.island.st ≠ 0 ∧ s.island.owner = none ∧ s.island.bootTick + 1000000000 ≤ s.tick
    let first := s.island.precedence.find? fun h => decide (h ∈ s.island.claims)
    (¬ due ∨ first = none → t = s) ∧
    ∀ h, due → first = some h → t.island = { s.island with owner := some h, heartbeat := s.tick, claims := [] } ∧
      Logs s [(0x0C, 0xFFFF, [BitVec.ofNat 8 h, 0xFF#8, 0#8])] t := by
  refine ⟨s.grant, rfl, ?_, fun h hd hf => ?_⟩
  · rintro (h | h)
    · exact grant_of_not_due s h
    · exact grant_of_none s h
  · rw [grant_of_some hd hf]
    have hl := logs_setOwner s (some h) 0
    rw [hd.2.1] at hl
    exact ⟨rfl, hl⟩

/-- What a claim comes to, once a grant that is due has been made. -/
def State.claimed (s : State) (host : Nat) : State :=
  match s.island.owner with
  | some o => s.reply host (if o = host then 1 else 2) []
  | none =>
    if s.island.precedence ≠ [] ∧ s.tick < s.island.bootTick + 1000000000 then
      { s with island := { s.island with claims := s.island.claims ++ [host] } }.reply host 0 []
    else (s.setOwner (some host) 0).reply host 0 []

theorem claim_eq (c : Sender) (s : State) : exec (.claim c) s = .next (s.openCommand c 0x01 noArgs fun s => s.grant.claimed c.host) := by
  have run : (fun s : State => s.grant.claimed c.host) = fun s => match s.grant.island.owner with
      | some o => s.grant.reply c.host (if o = c.host then 1 else 2) []
      | none =>
        if !s.grant.island.precedence.isEmpty && decide (s.grant.tick < s.grant.island.bootTick + claimWindow) then
          { s.grant with island := { s.grant.island with claims := s.grant.island.claims ++ [c.host] } }.reply c.host 0 []
        else (s.grant.setOwner (some c.host) 0).reply c.host 0 [] := by
    funext s
    unfold State.claimed
    split
    · rfl
    · refine if_congr (Iff.symm ?_) rfl rfl
      rw [Bool.and_eq_true, decide_eq_true_eq]
      simp [claimWindow]
  rw [run]
  rfl

/-- A claim under an owner that was granted just now, or stands. -/
theorem claimed_owned {s : State} {o : Nat} (host : Nat) (h : s.island.owner = some o) :
    s.claimed host = s.reply host (if o = host then 1 else 2) [] := by rw [State.claimed, h]

theorem claim_step (c : Sender) : OpenCommand (.claim c) c 0x01 noArgs fun s t =>
    let first := if s.island.bootTick + 1000000000 ≤ s.tick then s.island.precedence.find? fun h => decide (h ∈ s.island.claims) else none
    (∀ o, s.island.owner = some o → Replied s c.host (if o = c.host then 1 else 2) [] t ∧ OnlyReply s t) ∧
    (∀ o, s.island.owner = none → first = some o → Replied s c.host (if o = c.host then 1 else 2) [] t ∧
      t.island = { s.island with owner := some o, heartbeat := s.tick, claims := [] } ∧ Logs s [(0x0C, 0xFFFF, [BitVec.ofNat 8 o, 0xFF#8, 0#8])] t) ∧
    (s.island.owner = none → first = none → Replied s c.host 0 [] t ∧
      let waits := s.island.precedence ≠ [] ∧ s.tick < s.island.bootTick + 1000000000
      (waits → t.island = { s.island with claims := s.island.claims ++ [c.host] }) ∧
      (¬ waits → t.island = { s.island with owner := some c.host, heartbeat := s.tick, claims := [] } ∧
        Logs s [(0x0C, 0xFFFF, [BitVec.ofNat 8 c.host, 0xFF#8, 0#8])] t)) := by
  refine openCommand_of (fun s => s.grant.claimed c.host) (claim_eq c) fun s hst => ⟨fun o ho => ?_, fun o ho hf => ?_, fun ho hf => ?_⟩
  · rw [grant_of_not_due s (fun h => by simp [h.2.1] at ho), claimed_owned c.host ho]
    exact ⟨replied_reply .., onlyReply_reply ..⟩
  · by_cases hb : s.island.bootTick + 1000000000 ≤ s.tick
    · rw [if_pos hb] at hf
      have hl := logs_setOwner s (some o) 0
      rw [ho] at hl
      rw [grant_of_some ⟨hst, ho, hb⟩ hf, claimed_owned c.host (congrArg Island.owner (setOwner_island s (some o) 0)), reply_island]
      exact ⟨(replied_reply ..).congr rfl rfl rfl, rfl, hl.of_onlyReply (onlyReply_reply ..)⟩
    · rw [if_neg hb] at hf
      cases hf
  · have hg : s.grant = s := by
      by_cases hb : s.island.bootTick + 1000000000 ≤ s.tick
      · rw [if_pos hb] at hf
        exact grant_of_none s hf
      · exact grant_of_not_due s fun h => hb h.2.2
    have hl := logs_setOwner s (some c.host) 0
    rw [ho] at hl
    rw [hg, State.claimed, ho]
    by_cases w : s.island.precedence ≠ [] ∧ s.tick < s.island.bootTick + 1000000000
    · simp only [if_pos w, reply_island]
      exact ⟨(replied_reply ..).congr rfl rfl rfl, fun _ => trivial, fun h => absurd w h⟩
    · simp only [if_neg w, reply_island]
      exact ⟨(replied_reply ..).congr rfl rfl rfl, fun h => absurd h w, fun _ => ⟨rfl, hl.of_onlyReply (onlyReply_reply ..)⟩⟩

theorem handover_step (c : Cmd) (n : Nat) : Commands (.handover c n) c 0x02 (arg4 n) (fun _ => (if 8 ≤ n then 3 else 0, [])) fun s t =>
    (8 ≤ n → NoEffect c s t) ∧
    (n < 8 → t.island = { s.island with owner := some n, heartbeat := s.tick, claims := [], lastAccepted := c.seq } ∧
      Logs s [(0x0C, 0xFFFF, [BitVec.ofNat 8 n, BitVec.ofNat 8 c.host, 1#8])] t) := by
  intro s
  by_cases h : 8 ≤ n
  · exact commandAt_refused rfl (if_pos h) (by rw [if_pos h]) fun u hu => ⟨fun _ => hu, fun h' => absurd h (Nat.not_le.2 h')⟩
  · refine commandAt_done rfl (if_neg h) (by rw [if_neg h]) rfl rfl rfl fun ho u hu => ⟨fun h' => absurd h' h, fun _ => ⟨hu.island, ?_⟩⟩
    have hl := logs_setOwner s (some n) 1
    rw [ho] at hl
    exact (hl.withIsland _).of_onlyReply hu

theorem heartbeat_step (host : Nat) (s : State) : exec (.heartbeat host) s =
    .next (if s.island.owner = some host then { s with island := { s.island with heartbeat := s.tick } } else s) := rfl

theorem ownerHeartbeatLapse_step (s : State) : ∃ t, exec .ownerHeartbeatLapse s = .next t ∧
    let due := s.island.owner ≠ none ∧ s.island.heartbeat + 3 * s.island.hbPeriod * 1000000 < s.tick
    (¬ due → t = s) ∧ ∀ o, due → s.island.owner = some o → t.island.owner = none ∧ Logs s [(0x0C, 0xFFFF, [0xFF#8, BitVec.ofNat 8 o, 2#8])] t := by
  have cond : (s.island.owner.isSome && decide (s.island.heartbeat + 3 * s.island.hbPeriod * 1000000 < s.tick)) = true ↔
      s.island.owner ≠ none ∧ s.island.heartbeat + 3 * s.island.hbPeriod * 1000000 < s.tick := by
    rw [Bool.and_eq_true, decide_eq_true_eq, Option.isSome_iff_ne_none]
  refine ⟨s.lapse, rfl, fun h => if_neg (mt cond.1 h), fun o h ho => ?_⟩
  rw [State.lapse, if_pos (cond.2 h)]
  have hl := logs_setOwner s none 2
  rw [ho] at hl
  exact ⟨rfl, hl⟩

theorem hbperiodWrite_step (host : Nat) (v : Word) (s : State) : ∃ t, exec (.hbperiodWrite host v) s = .next t ∧
      (s.island.owner ≠ some host → Drops s host 1 0x34 t) ∧
      (s.island.owner = some host → v.toNat < 10 ∨ 10000 < v.toNat → Drops s host 4 0x34 t) ∧
      (s.island.owner = some host → 10 ≤ v.toNat → v.toNat ≤ 10000 →
        t = { s with island := { s.island with hbPeriod := v.toNat, heartbeat := s.tick } }) := by
  refine ⟨s.setHbPeriod host v, rfl, fun h => ?_, fun h hv => ?_, fun h hl hu => ?_⟩
  all_goals rw [State.setHbPeriod]
  · rw [if_pos h]
    exact drops_dropped ..
  · rw [if_neg (not_not.2 h), if_pos hv]
    exact drops_dropped ..
  · rw [if_neg (not_not.2 h), if_neg (by omega)]

theorem hmemctxWrite_step (host : Nat) (v : Word) (s : State) : ∃ t, exec (.hmemctxWrite host v) s = .next t ∧
      let zero := v.toNat / 2 ^ 12 % 8 = 0 ∧ v.toNat / 2 ^ 16 = 0
      (s.island.owner ≠ some host → Drops s host 1 0x38 t) ∧ (s.island.owner = some host → ¬ zero → Drops s host 2 0x38 t) ∧
      (s.island.owner = some host → zero → t = { s with island := { s.island with hmemctx := v } }) := by
  have cond : (field v.toNat 12 3 ≠ 0 ∨ field v.toNat 16 16 ≠ 0) ↔ ¬ (v.toNat / 2 ^ 12 % 8 = 0 ∧ v.toNat / 2 ^ 16 = 0) := by
    have := v.isLt
    simp only [field]
    omega
  refine ⟨s.setHmemctx host v, rfl, fun h => ?_, fun h hv => ?_, fun h hz => ?_⟩
  all_goals rw [State.setHmemctx]
  · rw [if_pos h]
    exact drops_dropped ..
  · rw [if_neg (not_not.2 h), if_pos (cond.2 hv)]
    exact drops_dropped ..
  · rw [if_neg (not_not.2 h), if_neg (fun hc => cond.1 hc hz)]

/-! ## Registers through BAR0 (R8, R375, R390, R403) -/

theorem ownerReg_eq (i : Island) : i.ownerReg = i.owner.getD 8 := by
  unfold Island.ownerReg
  cases i.owner <;> rfl

/-- A read in the block of a region's map. -/
theorem registerRead_map (s : State) (host : Nat) {region a : Nat} (hr : region < 7) (ha : a < 0x200) :
    s.registerRead host (0x1020000 + 0x200 * region + a) = s.mapRead region a := by
  have hd : (0x1020000 + 0x200 * region + a - 0x1000000 - 0x20000) / 0x200 = region := by omega
  have hm : (0x1020000 + 0x200 * region + a - 0x1000000 - 0x20000) % 0x200 = a := by omega
  simp only [State.registerRead]
  rw [if_neg (by omega), if_pos (by omega), hd, hm]

theorem registerReads (s : State) (host : Nat) : s.registerRead host 0x10 = s.island.lastAccepted ∧ s.registerRead host 0x38 = s.island.hmemctx ∧
    s.registerRead host 0x2C = BitVec.ofNat 32 (s.island.owner.getD 8) ∧ s.registerRead host 0x0C = 0#32 ∧ s.registerRead host 0x30 = 0#32 ∧
    ∀ region, region < 7 → s.registerRead host (0x1020140 + 0x200 * region) = 0#32 ∧
      s.registerRead host (0x1020144 + 0x200 * region) = BitVec.ofNat 32 (mget {} s.maps region : MapReg).stat := by
  refine ⟨rfl, rfl, ?_, rfl, rfl, fun region hr => ⟨?_, ?_⟩⟩
  · rw [← ownerReg_eq]; rfl
  · rw [show 0x1020140 + 0x200 * region = 0x1020000 + 0x200 * region + 0x140 by omega, registerRead_map s host hr (by decide)]
    rfl
  · rw [show 0x1020144 + 0x200 * region = 0x1020000 + 0x200 * region + 0x144 by omega, registerRead_map s host hr (by decide)]
    rfl

section
variable {s : State} {host : Nat} {off : Nat} (v : Word) (hst : s.island.st ≠ 0) (hh : host < 8)
include hst hh

/-- A write in a host's own window. -/
theorem registerWrite_window (ho : off < 0x1000000) : exec (.hostRegisterWrite host off v) s = .next (s.windowWrite host off v) := by
  change Host.Outcome.next (s.registerWrite host off v) = _
  rw [State.registerWrite, if_neg (by omega), if_pos ho]

/-- A write in CSR space. -/
theorem registerWrite_csr : exec (.hostRegisterWrite host (0x1000000 + off) v) s = .next (s.csrSpaceWrite host off v) := by
  change Host.Outcome.next (s.registerWrite host (0x1000000 + off) v) = _
  rw [State.registerWrite, if_neg (by omega), if_neg (by omega), Nat.add_sub_cancel_left]

end

/-- Offsets of a host's window that no register has. -/
theorem windowWrite_unassigned (s : State) (host : Nat) {off : Nat} (v : Word) (h : 0x3C ≤ off) : s.windowWrite host off v = s.dropped host 2 off := by
  unfold State.windowWrite
  split <;> try omega
  rfl

section
variable {s : State} {host : Nat} (v : Word) (ho : s.island.owner = some host)
include ho

theorem csrSpaceWrite_doorbell {h : Nat} (hh : h < 256) : s.csrSpaceWrite host (0x10000 + 16 * h) v = s.doorbell host h v := by
  have hd : (0x10000 + 16 * h - 0x10000) / 16 = h := by omega
  rw [State.csrSpaceWrite, if_neg (not_not.2 ho), if_pos (by omega), hd]

theorem csrSpaceWrite_memcfg : s.csrSpaceWrite host 0x21000 v = s.memcfg host v := by
  rw [State.csrSpaceWrite, if_neg (not_not.2 ho)]
  rfl

theorem csrSpaceWrite_device {a : Nat} (ha : a < 0x30) : s.csrSpaceWrite host (0x30000 + a) v = s.deviceWrite host a v := by
  rw [State.csrSpaceWrite, if_neg (not_not.2 ho), if_neg (by omega), if_neg (by omega), if_neg (by omega), if_pos (by omega),
    Nat.add_sub_cancel_left]

theorem csrSpaceWrite_ctx {n a : Nat} (hn : n < 4096) (ha : a < 0x40) :
    s.csrSpaceWrite host (0x40000 + 0x40 * n + a) v = s.ctxBlockWrite host n a v := by
  have hd : (0x40000 + 0x40 * n + a - 0x40000) / 0x40 = n := by omega
  have hm : (0x40000 + 0x40 * n + a - 0x40000) % 0x40 = a := by omega
  rw [State.csrSpaceWrite, if_neg (not_not.2 ho), if_neg (by omega), if_neg (by omega), if_neg (by omega), if_neg (by omega), if_pos (by omega),
    hd, hm]

/-- The block of a region's map. -/
theorem csrSpaceWrite_map {region a : Nat} (hr : region < 7) (ha : a < 0x200) : s.csrSpaceWrite host (0x20000 + 0x200 * region + a) v =
    if a < 0x140 ∧ a % 4 = 0 then s.mapRow host region a v
    else if a = 0x140 then s.mapLoad host region v
    else if a = 0x144 then s.roWrite host (0x20000 + 0x200 * region + a) (mget {} s.maps region : MapReg).stat v
    else s.dropped host 2 (0x20000 + 0x200 * region + a) := by
  have hd : (0x20000 + 0x200 * region + a - 0x20000) / 0x200 = region := by omega
  have hm : (0x20000 + 0x200 * region + a - 0x20000) % 0x200 = a := by omega
  rw [State.csrSpaceWrite, if_neg (not_not.2 ho), if_neg (by omega), if_pos (by omega)]
  simp only [hd, hm]

end

/-- A write of the low half of a staged row changes that half (R390). -/
theorem mapRow_low (s : State) (host region i : Nat) (v : Word) :
    (∀ k, (mget {} (s.mapRow host region (8 * i) v).maps region : MapReg).row k = if k = i
      then (mget {} s.maps region : MapReg).row i / 2 ^ 32 * 2 ^ 32 + v.toNat else (mget {} s.maps region : MapReg).row k) ∧
    (mget {} (s.mapRow host region (8 * i) v).maps region : MapReg).active = (mget {} s.maps region : MapReg).active ∧
    ∀ r, r ≠ region → (mget {} (s.mapRow host region (8 * i) v).maps r : MapReg) = mget {} s.maps r := by
  have hd : 8 * i / 8 = i := by omega
  simp only [State.mapRow, hd, Nat.mul_mod_right, if_true, mget_mset_self]
  refine ⟨fun k => ?_, trivial, fun r hr => mget_mset_ne _ _ _ hr⟩
  by_cases hk : k = i
  · subst hk
    rw [if_pos rfl]
    exact mget_mset_self ..
  · rw [if_neg hk]
    exact mget_mset_ne' _ _ _ _ hk

section
variable {s : State} {host : Nat} (v : Word)

theorem windowWrite_base_misaligned {off : Nat} (h : off = 0x00 ∨ off = 0x18) (hv : ¬ v.toNat % 4096 = 0) :
    s.windowWrite host off v = s.dropped host 4 off := by
  obtain rfl | rfl := h <;> exact if_pos hv

theorem windowWrite_accepted : s.windowWrite host 0x10 v = if v = s.island.lastAccepted then s else s.dropped host 2 0x10 := by
  refine if_congr ?_ rfl rfl
  exact BitVec.toNat_inj

theorem windowWrite_size {off : Nat} {most : Nat} {w : HostW} (h : s.windowWrite host off v =
      if 16 ≤ v.toNat then s.dropped host 2 off else if v.toNat < 4 ∨ most < v.toNat then s.dropped host 4 off else s.setHost host w) :
    (4 ≤ v.toNat → v.toNat ≤ most → most < 16 → s.windowWrite host off v = s.setHost host w) ∧
    (16 ≤ v.toNat → s.windowWrite host off v = s.dropped host 2 off) ∧
    (v.toNat < 4 ∨ (most < v.toNat ∧ v.toNat < 16) → s.windowWrite host off v = s.dropped host 4 off) := by
  rw [h]
  refine ⟨fun h4 hm h16 => ?_, fun h16 => if_pos h16, fun h' => ?_⟩
  · rw [if_neg (by omega), if_neg (by omega)]
  · rw [if_neg (by omega), if_pos (by omega)]

end

theorem hostRegisterWrite_step (host off : Nat) (v : Word) (s : State) (hst : s.island.st ≠ 0) (hh : host < 8) :
    let w := s.host host
    let into := fun (w' : HostW) => exec (.hostRegisterWrite host off v) s = .next (s.setHost host w')
    let drops := fun (cause at_ : Nat) => ∃ t, exec (.hostRegisterWrite host off v) s = .next t ∧ Drops s host cause at_ t
    let whole := v.toNat % 4096 = 0
    (off = 0x00 ∨ off = 0x18 → ¬ whole → drops 4 off) ∧
    (off = 0x00 → whole → into { w with cmdBase := dwordOf v w.cmdBase.hi }) ∧ (off = 0x04 → into { w with cmdBase := dwordOf w.cmdBase.lo v }) ∧
    (off = 0x08 → (4 ≤ v.toNat → v.toNat ≤ 12 → into { w with cmdSize := v }) ∧ (16 ≤ v.toNat → drops 2 off) ∧
      (v.toNat < 4 ∨ (12 < v.toNat ∧ v.toNat < 16) → drops 4 off)) ∧
    (off = 0x0C → into { w with cmdTail := v }) ∧
    (off = 0x18 → whole → into { w with evtBase := dwordOf v w.evtBase.hi }) ∧ (off = 0x1C → into { w with evtBase := dwordOf w.evtBase.lo v }) ∧
    (off = 0x20 → (4 ≤ v.toNat → v.toNat ≤ 14 → into { w with evtSize := v }) ∧ (16 ≤ v.toNat → drops 2 off) ∧
      (v.toNat < 4 ∨ v.toNat = 15 → drops 4 off)) ∧
    (off = 0x24 → into { w with evtHead := v }) ∧
    (off = 0x10 → v = s.island.lastAccepted → exec (.hostRegisterWrite host off v) s = .next s) ∧
    (off = 0x10 → v ≠ s.island.lastAccepted → drops 2 off) ∧
    (0x3C ≤ off → off < 0x1000000 → drops 2 off) ∧
    (0x1000000 ≤ off → s.island.owner ≠ some host → drops 1 (off - 0x1000000)) ∧
    (s.island.owner = some host →
      (off = 0x1030000 → exec (.hostRegisterWrite host off v) s = .next { s with serBase := dwordOf v s.serBase.hi }) ∧
      (off = 0x1030004 → exec (.hostRegisterWrite host off v) s = .next { s with serBase := dwordOf s.serBase.lo v }) ∧
      (off = 0x1030008 → v.toNat = 0 ∨ (8 ≤ v.toNat ∧ v.toNat ≤ 24) →
        exec (.hostRegisterWrite host off v) s = .next { s with serSize := v.toNat }) ∧
      (off = 0x1030020 → exec (.hostRegisterWrite host off v) s = .next { s with stopat := dwordOf v s.stopat.hi, stopSet := s.tick }) ∧
      (off = 0x1030024 → exec (.hostRegisterWrite host off v) s = .next { s with stopat := dwordOf s.stopat.lo v, stopSet := s.tick }) ∧
      (off = 0x103002C → v = 1#32 → exec (.hostRegisterWrite host off v) s = exec (.stopResume host) s) ∧
      (off = 0x1021000 → exec (.hostRegisterWrite host off v) s = exec (.memcfgWrite host v) s) ∧
      (∀ h, h < 256 → off = 0x1010000 + 16 * h → exec (.hostRegisterWrite host off v) s = exec (.queueDoorbell host h v) s) ∧
      (∀ n, n < 4096 → off = 0x1040008 + 64 * n → exec (.hostRegisterWrite host off v) s = exec (.samplePeriodWrite host n v) s) ∧
      (∀ n, n < 4096 → off = 0x1040018 + 64 * n → exec (.hostRegisterWrite host off v) s = exec (.traceEnable host n v) s) ∧
      ∀ region, region < 7 →
        (off = 0x1020140 + 0x200 * region → exec (.hostRegisterWrite host off v) s = exec (.mapLoad host region v) s) ∧
        ∀ i, i < 40 → off = 0x1020000 + 0x200 * region + 8 * i → ∃ t, exec (.hostRegisterWrite host off v) s = .next t ∧
          (∀ k, (mget {} t.maps region : MapReg).row k = if k = i
            then (mget {} s.maps region : MapReg).row i / 2 ^ 32 * 2 ^ 32 + v.toNat else (mget {} s.maps region : MapReg).row k) ∧
          (mget {} t.maps region : MapReg).active = (mget {} s.maps region : MapReg).active ∧ ∀ r, r ≠ region → (mget {} t.maps r : MapReg) = mget {} s.maps r) := by
  intro w into drops whole
  have window (o : Nat) (h : o < 0x1000000) := registerWrite_window (off := o) v hst hh h
  have csr (o : Nat) := registerWrite_csr (off := o) v hst hh
  -- a register of the window that takes its value, and one whose write is dropped
  have takes {w' : HostW} (h : off < 0x1000000) (e : s.windowWrite host off v = s.setHost host w') : into w' := (window off h).trans (by rw [e])
  have dropsAt {cause : Nat} (h : off < 0x1000000) (e : s.windowWrite host off v = s.dropped host cause off) : drops cause off :=
    ⟨_, window off h, by rw [e]; exact drops_dropped ..⟩
  refine ⟨fun h hw => dropsAt (by omega) (windowWrite_base_misaligned v h hw), ?_, ?_, ?_, ?_, ?_, ?_, ?_, ?_, ?_, ?_,
    fun h hl => dropsAt hl (windowWrite_unassigned s host v h), fun h ho => ?_, fun ho => ?_⟩
  · rintro rfl hw
    exact takes (by decide) (if_neg (not_not.2 hw))
  · rintro rfl
    exact takes (by decide) rfl
  · rintro rfl
    obtain ⟨h0, h2, h4⟩ := windowWrite_size v (s := s) (host := host) (off := 8) rfl
    exact ⟨fun hl hu => takes (by decide) (h0 hl hu (by decide)), fun h => dropsAt (by decide) (h2 h), fun h => dropsAt (by decide) (h4 h)⟩
  · rintro rfl
    exact takes (by decide) rfl
  · rintro rfl hw
    exact takes (by decide) (if_neg (not_not.2 hw))
  · rintro rfl
    exact takes (by decide) rfl
  · rintro rfl
    obtain ⟨h0, h2, h4⟩ := windowWrite_size v (s := s) (host := host) (off := 32) rfl
    exact ⟨fun hl hu => takes (by decide) (h0 hl hu (by decide)), fun h => dropsAt (by decide) (h2 h),
      fun h => dropsAt (by decide) (h4 (by omega))⟩
  · rintro rfl
    exact takes (by decide) rfl
  · rintro rfl hv
    exact (window _ (by decide)).trans (by rw [windowWrite_accepted, if_pos hv])
  · rintro rfl hv
    exact dropsAt (by decide) (by rw [windowWrite_accepted, if_neg hv])
  · obtain ⟨o, rfl⟩ := Nat.exists_eq_add_of_le h
    refine ⟨_, csr o, ?_⟩
    rw [State.csrSpaceWrite, if_pos ho, Nat.add_sub_cancel_left]
    exact drops_dropped ..
  have device (a : Nat) (h : off = 0x1030000 + a) (ha : a < 0x30) : exec (.hostRegisterWrite host off v) s = .next (s.deviceWrite host a v) := by
    rw [h, show 0x1030000 + a = 0x1000000 + (0x30000 + a) by omega, csr, csrSpaceWrite_device v ho ha]
  have ctxs (n a : Nat) (hn : n < 4096) (ha : a < 0x40) (h : off = 0x1040000 + 64 * n + a) :
      exec (.hostRegisterWrite host off v) s = .next (s.ctxBlockWrite host n a v) := by
    rw [h, show 0x1040000 + 64 * n + a = 0x1000000 + (0x40000 + 0x40 * n + a) by omega, csr, csrSpaceWrite_ctx v ho hn ha]
  refine ⟨fun h => device 0x00 h (by decide), fun h => device 0x04 h (by decide), fun h hv => ?_, fun h => device 0x20 h (by decide),
    fun h => device 0x24 h (by decide), fun h hv => ?_, fun h => ?_, fun k hk h => ?_, fun n hn h => ctxs n 0x08 hn (by decide) (by omega),
    fun n hn h => ctxs n 0x18 hn (by decide) (by omega), fun region hr => ⟨fun h => ?_, fun i hi h => ?_⟩⟩
  · rw [device 0x08 h (by decide)]
    change Host.Outcome.next (if 32 ≤ v.toNat then _ else if v.toNat ≠ 0 ∧ (v.toNat < 8 ∨ 24 < v.toNat) then _ else _) = _
    rw [if_neg (by omega), if_neg (by omega)]
  · rw [device 0x2C h (by decide), hv]
    rfl
  · rw [h, show 0x1021000 = 0x1000000 + 0x21000 by rfl, csr, csrSpaceWrite_memcfg v ho]
    rfl
  · rw [h, show 0x1010000 + 16 * k = 0x1000000 + (0x10000 + 16 * k) by omega, csr, csrSpaceWrite_doorbell v ho hk]
    rfl
  · rw [h, show 0x1020140 + 0x200 * region = 0x1000000 + (0x20000 + 0x200 * region + 0x140) by omega, csr, csrSpaceWrite_map v ho hr (by decide)]
    rfl
  · refine ⟨_, ?_, mapRow_low s host region i v⟩
    rw [h, show 0x1020000 + 0x200 * region + 8 * i = 0x1000000 + (0x20000 + 0x200 * region + 8 * i) by omega, csr,
      csrSpaceWrite_map v ho hr (by omega), if_pos (by omega)]

/-! ## The address map (R388-R391) -/

theorem mapBusy_iff (s : State) : s.mapBusy = true ↔
    (∃ c ∈ s.ctxs, c.1 ≠ 0 ∧ c.2.state ≠ .free) ∨ ∃ b ∈ s.blocks, b.2.live = true ∧ b.2.core.isSome = true ∧ b.2.ctx = 0 := by
  simp [State.mapBusy, and_assoc]

/-- The rows that R388 fixes, of a staged matrix. -/
theorem fixedRows_iff (m : MapReg) : fixedRows ((List.range 40).map m.row) = true ↔
    (∀ i, i < 7 → m.row i = 2 ^ i) ∧ ∀ i, i < 4 → m.row (26 + i) = 2 ^ (36 + i) := by
  have row : ∀ i, i < 40 → ((List.range 40).map m.row).getD i 0 = m.row i := by
    intro i hi
    simp [List.getD_eq_getElem?_getD, hi]
  simp only [fixedRows, Bool.and_eq_true, List.all_eq_true, List.mem_range, beq_iff_eq]
  refine and_congr (forall₂_congr fun i hi => ?_) (forall₂_congr fun i hi => ?_)
  · rw [row i (by omega)]
  · rw [row (26 + i) (by omega)]

/-- What a load comes to: each status has its one reason. -/
theorem mapStatus_iff (s : State) (rows : List Nat) : (s.mapStatus rows = 2 ↔ s.mapBusy = true) ∧
    (s.mapStatus rows = 3 ↔ ¬ s.mapBusy = true ∧ ¬ fixedRows rows = true) ∧
    (s.mapStatus rows = 1 ↔ ¬ s.mapBusy = true ∧ fixedRows rows = true ∧ gfInvertible rows = false) ∧
    (s.mapStatus rows = 0 ↔ ¬ s.mapBusy = true ∧ fixedRows rows = true ∧ gfInvertible rows = true) := by
  unfold State.mapStatus
  cases s.mapBusy <;> cases fixedRows rows <;> cases gfInvertible rows <;> decide

theorem mapLoad_step (host region : Nat) (v : Word) (s : State) : ∃ t, exec (.mapLoad host region v) s = .next t ∧
    let at_ := 0x20140 + 0x200 * region
    (s.island.owner ≠ some host → Drops s host 1 at_ t) ∧
    (s.island.owner = some host → 7 ≤ region ∨ 2 ≤ v.toNat → Drops s host 2 at_ t) ∧
    (s.island.owner = some host → region < 7 → v = 0#32 → t = s) ∧
    (s.island.owner = some host → region < 7 → v = 1#32 →
      let m : MapReg := mget {} s.maps region
      let rows := (List.range 40).map m.row
      let busy := (∃ c ∈ s.ctxs, c.1 ≠ 0 ∧ c.2.state ≠ .free) ∨ ∃ b ∈ s.blocks, b.2.live = true ∧ b.2.core.isSome = true ∧ b.2.ctx = 0
      let fixed := (∀ i, i < 7 → m.row i = 2 ^ i) ∧ ∀ i, i < 4 → m.row (26 + i) = 2 ^ (36 + i)
      ∃ n, (n = 2 ↔ busy) ∧ (n = 3 ↔ ¬ busy ∧ ¬ fixed) ∧ (n = 1 ↔ ¬ busy ∧ fixed ∧ gfInvertible rows = false) ∧
        (n = 0 ↔ ¬ busy ∧ fixed ∧ gfInvertible rows = true) ∧
        ∀ r, (mget {} t.maps r : MapReg) = if r = region then { m with stat := n, active := if n = 0 then some rows else m.active }
          else mget {} s.maps r) := by
  have at_ : 0x20140 + 0x200 * region = 0x20000 + 0x200 * region + 0x140 := by omega
  refine ⟨s.mapLoad host region v, rfl, ?_⟩
  simp only [at_]
  refine ⟨fun ho => ?_, fun ho h => ?_, fun ho hr hv => ?_, fun ho hr hv => ?_⟩
  all_goals rw [State.mapLoad]
  · rw [if_pos ho]
    exact drops_dropped ..
  · rw [if_neg (not_not.2 ho), if_pos h]
    exact drops_dropped ..
  · rw [if_neg (not_not.2 ho), if_neg (by simp [hv]; omega), if_pos hv]
  · rw [if_neg (not_not.2 ho), if_neg (by simp [hv]; omega), if_neg (by simp [hv])]
    obtain ⟨h2, h3, h1, h0⟩ := mapStatus_iff s ((List.range 40).map (mget {} s.maps region : MapReg).row)
    simp only [mapBusy_iff, fixedRows_iff] at h2 h3 h1 h0
    exact ⟨_, h2, h3, h1, h0, fun r => mget_mset ..⟩

/-! ## Memo entries -/

/-- A property of every memo entry of the cores. -/
def MemoAll (P : Memo → Prop) (s : State) : Prop := ∀ c ∈ s.cores, ∀ q ∈ c.2.quarters, ∀ m ∈ q.2.memo, P m

/-- Entries that a change of every memo leaves have what the change leaves. -/
theorem memoAll_memoMap {P : Memo → Prop} {f : Nat → List Memo → List Memo} (s : State) (h : ∀ n ms, ∀ m ∈ f n ms, P m) :
    MemoAll P (s.memoMap f) := by
  intro c hc q hq m hm
  obtain ⟨c', -, rfl⟩ := List.mem_map.1 hc
  obtain ⟨q', -, rfl⟩ := List.mem_map.1 hq
  exact h _ _ m hm

/-- Entries that fall below a slice's dusk are gone (R398). -/
theorem killOld_memo (s : State) : MemoAll (fun m => m.asof = true → ∀ l ∈ m.lines, (s.killOld.slice (daSlice (l * 128))).dusk ≤ m.asofS) s.killOld := by
  refine memoAll_memoMap s fun n ms m hm => ?_
  obtain ⟨-, h⟩ := List.mem_filter.1 hm
  intro ha l hl
  simp only [ha, Bool.true_and, Bool.not_eq_true', List.any_eq_false, decide_eq_true_eq, not_lt] at h
  exact h l hl

@[simp] theorem killOld_slice (s : State) (n : Nat) : s.killOld.slice n = s.slice n := rfl

/-! ## Dusk at a stamp (R371, R390) -/

/-- The first slices' dusk becomes the stamp of now. -/
@[irreducible] def State.duskNow (s : State) (m : Nat) : State := (List.range m).foldl (fun s n => s.setSlice n { s.slice n with dusk := s.sliceT n }) s

theorem duskNow_succ (s : State) (m : Nat) :
    s.duskNow (m + 1) = (s.duskNow m).setSlice m { (s.duskNow m).slice m with dusk := (s.duskNow m).sliceT m } := by
  rw [State.duskNow, State.duskNow, List.range_succ, List.foldl_append]
  rfl

theorem duskNow_frame (s : State) (m : Nat) : ∃ x, s.duskNow m = { s with slices := x } := by
  induction m with
  | zero => exact ⟨s.slices, by rw [State.duskNow]; rfl⟩
  | succ m ih =>
    obtain ⟨x, e⟩ := ih
    rw [duskNow_succ, e]
    exact ⟨_, rfl⟩

theorem duskNow_slice (s : State) (m n : Nat) : (s.duskNow m).slice n = if n < m then { s.slice n with dusk := s.sliceT n } else s.slice n := by
  induction m with
  | zero => rw [State.duskNow]; rfl
  | succ m ih =>
    have ht : (s.duskNow m).sliceT m = s.sliceT m := by
      obtain ⟨x, e⟩ := duskNow_frame s m
      rw [e]
      rfl
    rw [duskNow_succ, State.slice, State.setSlice, mget_mset, ht]
    by_cases h : n = m
    · subst h
      rw [if_pos rfl, if_pos (Nat.lt_succ_self n), ih, if_neg (Nat.lt_irrefl n)]
    · rw [if_neg h]
      refine ih.trans (if_congr ?_ rfl rfl)
      omega

/-- A change of hres: the history goes, each slice's dusk becomes the stamp of now, and what memo entries hold below it goes (R390). -/
def State.rehashed (s : State) (v m : Nat) : State := { (State.duskNow { s.dropHistory with hres := v } m).killOld with duskNew := true }

theorem memcfg_changed (s : State) (host : Nat) (v : Word) (ho : s.island.owner = some host) (h : v.toNat ≤ 4) (hb : s.mapBusy = false)
    (hv : v.toNat ≠ s.hres) : s.memcfg host v = s.rehashed v.toNat 128 := by
  rw [State.memcfg, if_neg (not_not.2 ho), if_neg (by omega), if_neg (by omega), if_neg (by simp [hb, hv]), State.rehashed, State.duskNow]

theorem rehashed_fields (s : State) (v m : Nat) : (s.rehashed v m).hres = v ∧ (s.rehashed v m).rings = [] ∧ (s.rehashed v m).heads = [] ∧
    (s.rehashed v m).lastWrite = [] ∧ (∀ n, (s.rehashed v m).slice n = if n < m then { s.slice n with dusk := s.sliceT n } else s.slice n) ∧
    (s.rehashed v m).duskNew = true ∧
    MemoAll (fun x => x.asof = true → ∀ l ∈ x.lines, ((s.rehashed v m).slice (daSlice (l * 128))).dusk ≤ x.asofS) (s.rehashed v m) := by
  obtain ⟨x, e⟩ := duskNow_frame { s.dropHistory with hres := v } m
  have hs := duskNow_slice { s.dropHistory with hres := v } m
  have hm := killOld_memo (State.duskNow { s.dropHistory with hres := v } m)
  rw [State.rehashed]
  rw [e] at hs hm ⊢
  exact ⟨rfl, rfl, rfl, rfl, hs, rfl, hm⟩

theorem memcfgWrite_step (host : Nat) (v : Word) (s : State) : ∃ t, exec (.memcfgWrite host v) s = .next t ∧ t.mem = s.mem ∧
    (s.island.owner ≠ some host → Drops s host 1 0x21000 t) ∧
    (s.island.owner = some host → 8 ≤ v.toNat → Drops s host 2 0x21000 t) ∧
    (s.island.owner = some host → 4 < v.toNat → v.toNat < 8 → Drops s host 4 0x21000 t) ∧
    (s.island.owner = some host → v.toNat ≤ 4 → (s.mapBusy = true ∨ v.toNat = s.hres → t = s) ∧
      (s.mapBusy = false → v.toNat ≠ s.hres → t.hres = v.toNat ∧ t.rings = [] ∧ t.heads = [] ∧ t.lastWrite = [] ∧
        (∀ n, t.slice n = if n < 128 then { s.slice n with dusk := s.sliceT n } else s.slice n) ∧
        t.duskNew = true ∧ ∀ c ∈ t.cores, ∀ q ∈ c.2.quarters, ∀ m ∈ q.2.memo, m.asof = true →
          ∀ l ∈ m.lines, (t.slice (daSlice (l * 128))).dusk ≤ m.asofS)) := by
  refine ⟨s.memcfg host v, rfl, State.memcfg_mem .., fun ho => ?_, fun ho h => ?_, fun ho h h8 => ?_, fun ho h => ⟨fun hn => ?_, fun hb hv => ?_⟩⟩
  · rw [State.memcfg, if_pos ho]
    exact drops_dropped ..
  · rw [State.memcfg, if_neg (not_not.2 ho), if_pos h]
    exact drops_dropped ..
  · rw [State.memcfg, if_neg (not_not.2 ho), if_neg (by omega), if_pos h]
    exact drops_dropped ..
  · rw [State.memcfg, if_neg (not_not.2 ho), if_neg (by omega), if_neg (by omega), if_pos (by simpa using hn)]
  · rw [memcfg_changed s host v ho h hb hv]
    exact rehashed_fields s v.toNat 128

/-! ## Observation registers (R403, R408, R409) -/

theorem ringOk_iff (m : Nat) (on : Bool) : ringOk m on = true ↔ (m = 0 ∧ on = false) ∨ (4 ≤ m ∧ m ≤ 20) := by
  simp [ringOk]

theorem field_zero (v n : Nat) : field v 0 n = v % 2 ^ n := by
  simp [field]

/-- A quarter that counts no cycle of a context. -/
def Uncounted (n : Nat) (c : CoreSt) : Prop := ∀ q, mget 0 (c.quarter q).samp n = 0

/-- A write of a sampling period reloads each quarter's count. -/
theorem samp_reloaded (n : Nat) (cs : SMap CoreSt) (core : Nat) : Uncounted n (mget {} (cs.map fun k => (k.1, { k.2 with
    quarters := k.2.quarters.map fun q => (q.1, { q.2 with samp := mset 0 q.2.samp n 0 }) })) core) := by
  refine mget_map_rel (R := fun _ b => Uncounted n b) {} _ cs core (fun _ => rfl) (fun _ => rfl) fun x _ q => ?_
  exact mget_map_rel (R := fun _ b : Quarter => mget 0 b.samp n = 0) {} _ x.2.quarters q (fun _ => rfl) rfl fun y _ => mget_mset_self 0 y.2.samp n 0

theorem samplePeriodWrite_step (host n : Nat) (v : Word) (s : State) :
    ∃ t, exec (.samplePeriodWrite host n v) s = .next t ∧
      let period := v.toNat % 2 ^ 24
      let m := v.toNat / 2 ^ 24 % 32
      let ok := (m = 0 ∧ period = 0) ∨ (4 ≤ m ∧ m ≤ 20)
      (s.island.owner ≠ some host → Drops s host 1 (0x40008 + 0x40 * n) t) ∧
      (s.island.owner = some host → 4096 ≤ n ∨ v.toNat / 2 ^ 29 ≠ 0 → Drops s host 2 (0x40008 + 0x40 * n) t) ∧
      (s.island.owner = some host → n < 4096 → v.toNat / 2 ^ 29 = 0 → (¬ ok → Drops s host 4 (0x40008 + 0x40 * n) t) ∧
        (ok → t.ctx n = { s.ctx n with sampPeriod := period, sampM := m } ∧
          ∀ core q, mget 0 ((t.core core).quarter q).samp n = 0)) := by
  have off : 0x40000 + 0x40 * n + 8 = 0x40008 + 0x40 * n := by omega
  have h29 : field v.toNat 29 3 ≠ 0 ↔ v.toNat / 2 ^ 29 ≠ 0 := by
    have := v.isLt
    simp only [field]
    omega
  have hok : ringOk (field v.toNat 24 5) (v.toNat % 2 ^ 24 != 0) = true ↔
      (v.toNat / 2 ^ 24 % 32 = 0 ∧ v.toNat % 2 ^ 24 = 0) ∨ (4 ≤ v.toNat / 2 ^ 24 % 32 ∧ v.toNat / 2 ^ 24 % 32 ≤ 20) := by
    rw [ringOk_iff, bne_eq_false_iff_eq]
    rfl
  refine ⟨s.samplePeriod host n v, rfl, ?_⟩
  simp only [State.samplePeriod, off, h29, field_zero]
  refine ⟨fun ho => ?_, fun ho h => ?_, fun ho hn hz => ⟨fun h => ?_, fun h => ?_⟩⟩
  · rw [if_pos ho]
    exact drops_dropped ..
  · rw [if_neg (not_not.2 ho), if_pos h]
    exact drops_dropped ..
  · rw [if_neg (not_not.2 ho), if_neg (by omega), if_pos (by rw [Bool.not_eq_true', ← Bool.not_eq_true, hok]; exact h)]
    exact drops_dropped ..
  · rw [if_neg (not_not.2 ho), if_neg (by omega), if_neg (by rw [Bool.not_eq_true', ← Bool.not_eq_true, hok]; exact not_not.2 h)]
    exact ⟨ctx_setCtx .., fun core q => samp_reloaded n s.cores core q⟩

/-! ## Trace records (R409-R411) -/

/-- Nothing but SYNC records of a context and what the groups owe. -/
structure Traced (n : Nat) (s t : State) : Prop where
  ctxs  : t.ctxs = s.ctxs
  tick  : t.tick = s.tick
  owner : ∀ u, (t.blk u).ctx = (s.blk u).ctx
  new   : ∃ new, t.traced = s.traced ++ new ∧ ∀ r ∈ new, r.kind = 0 ∧ r.ctx = n ∧ r.tick = s.tick

theorem Traced.refl (n : Nat) (s : State) : Traced n s s := ⟨rfl, rfl, fun _ => rfl, [], by simp, by simp⟩

theorem Traced.trans {n : Nat} {s t u : State} (h : Traced n s t) (h' : Traced n t u) : Traced n s u := by
  obtain ⟨hc, ht, ho, new, hn, hr⟩ := h
  obtain ⟨hc', ht', ho', new', hn', hr'⟩ := h'
  refine ⟨hc'.trans hc, ht'.trans ht, fun v => (ho' v).trans (ho v), new ++ new', by rw [hn', hn, List.append_assoc], fun r hm => ?_⟩
  obtain hm | hm := List.mem_append.1 hm
  · exact hr r hm
  · exact ht ▸ hr' r hm

/-- Steps that each add such records, one after another. -/
theorem Traced.foldl {α : Type} {n : Nat} {s t : State} {f : State → α → State} {l : List α} (ht : Traced n s t)
    (h : ∀ t, Traced n s t → ∀ x ∈ l, Traced n t (f t x)) : Traced n s (l.foldl f t) := by
  induction l generalizing t with
  | nil => exact ht
  | cons x l ih => exact ih (ht.trans (h t ht x (List.mem_cons_self ..))) fun t ht y hy => h t ht y (List.mem_cons_of_mem _ hy)

theorem traced_trace {n u : Nat} {s : State} (h : (s.blk u).ctx = n) (g aux lo hi : Nat) : Traced n s (s.trace u g 0 aux lo hi) := by
  unfold State.trace
  dsimp only
  split
  · exact ⟨rfl, rfl, fun _ => rfl, [_], rfl, by simp [h]⟩
  · exact .refl n s

/-- A group's debt of SYNC records is settled. -/
theorem traced_setGrp (n : Nat) (s : State) (u g : Nat) (G : Group) : Traced n s (s.setGrp u g G) := by
  refine ⟨rfl, rfl, fun v => ?_, [], by simp [State.setGrp, State.setBlk], by simp⟩
  by_cases e : v = u
  · subst e
    rw [State.setGrp, blk_setBlk]
    rfl
  · rw [State.setGrp, blk_setBlk_ne _ _ e]

theorem traced_traceSync {n u : Nat} {s : State} (h : (s.blk u).ctx = n) (g : Nat) : Traced n s (s.traceSync u g) := by
  unfold State.traceSync
  refine (traced_setGrp n s u g _).foldl fun t ht x _ => ?_
  exact traced_trace (by rw [ht.owner, h]) ..

/-- A map in order gives each of its values. -/
theorem mget_of_mem_rising {α : Type} {m : SMap α} (h : Rising m) (d : α) {k : Nat} {v : α} (hm : (k, v) ∈ m) : mget d m k = v := by
  induction m with
  | nil => cases hm
  | cons x m ih =>
    obtain ⟨hx, hm'⟩ := List.pairwise_cons.1 (show ((x :: m).map (·.1)).Pairwise (· < ·) from h)
    obtain ⟨a, w⟩ := x
    simp only [mget]
    cases hm with
    | head => rw [if_pos rfl]
    | tail _ ht =>
      have hlt : a < k := hx k (List.mem_map_of_mem (f := (·.1)) ht)
      rw [if_neg (Nat.ne_of_lt hlt), ih hm' ht]

/-- The groups that are resident of a context write their SYNC records. -/
def State.syncAll (s : State) (n : Nat) : State :=
  (s.blocks.filter fun b => b.2.live && b.2.core.isSome && b.2.ctx == n).foldl (fun s b =>
    b.2.groups.foldl (fun s g => if g.2.live then s.traceSync b.1 g.1 else s) s) s

theorem traced_syncAll (s : State) (n : Nat) (h : Rising s.blocks) : Traced n s (s.syncAll n) := by
  refine (Traced.refl n s).foldl fun t ht b hb => ?_
  obtain ⟨hb, hc⟩ := List.mem_filter.1 hb
  have owner : (t.blk b.1).ctx = n := by
    have : s.blk b.1 = b.2 := mget_of_mem_rising h {} hb
    rw [ht.owner, this]
    simp only [Bool.and_eq_true, beq_iff_eq] at hc
    exact hc.2
  refine (Traced.refl n t).foldl fun w hw g _ => ?_
  split
  · exact traced_traceSync (by rw [hw.owner, owner]) _
  · exact .refl n w

/-- The contexts stay as they are, whatever the blocks. -/
theorem ctxs_traceSync (s : State) (u g : Nat) : (s.traceSync u g).ctxs = s.ctxs := by
  unfold State.traceSync
  refine (foldl_keeps State.ctxs _ (fun t x => ?_) _ _).trans (rfl : (s.setGrp u g _).ctxs = s.ctxs)
  unfold State.trace
  dsimp only
  split <;> rfl

theorem ctxs_syncAll (s : State) (n : Nat) : (s.syncAll n).ctxs = s.ctxs := by
  refine foldl_keeps State.ctxs _ (fun t b => ?_) _ s
  refine foldl_keeps State.ctxs _ (fun t g => ?_) _ t
  split
  · exact ctxs_traceSync ..
  · rfl

theorem ctx_syncAll (s : State) (n k : Nat) : (s.syncAll n).ctx k = s.ctx k := by rw [State.ctx, ctxs_syncAll]; rfl

theorem traceEnable_step (host n : Nat) (v : Word) (s : State) :
    ∃ t, exec (.traceEnable host n v) s = .next t ∧
      let en := v.getLsbD 0
      let m := v.toNat / 2 % 32
      let ok := (m = 0 ∧ en = false) ∨ (4 ≤ m ∧ m ≤ 20)
      (s.island.owner ≠ some host → Drops s host 1 (0x40018 + 0x40 * n) t) ∧
      (s.island.owner = some host → 4096 ≤ n ∨ 64 ≤ v.toNat → Drops s host 2 (0x40018 + 0x40 * n) t) ∧
      (s.island.owner = some host → n < 4096 → v.toNat < 64 → (¬ ok → Drops s host 4 (0x40018 + 0x40 * n) t) ∧
        (ok → let on := en = true ∧ (s.ctx n).trcEn = false
          t.ctx n = { s.ctx n with trcEn := en, trcM := m, trcLast := if on then [] else (s.ctx n).trcLast } ∧
          (¬ on → t.traced = s.traced ∧ t.blocks = s.blocks) ∧
          (on → Rising s.blocks → ∃ new, t.traced = s.traced ++ new ∧ ∀ r ∈ new, r.kind = 0 ∧ r.ctx = n ∧ r.tick = s.tick))) := by
  have off : 0x40000 + 0x40 * n + 0x18 = 0x40018 + 0x40 * n := by omega
  have hm : field v.toNat 1 5 = v.toNat / 2 % 32 := rfl
  have hok : ringOk (v.toNat / 2 % 32) (v.getLsbD 0) = true ↔
      (v.toNat / 2 % 32 = 0 ∧ v.getLsbD 0 = false) ∨ (4 ≤ v.toNat / 2 % 32 ∧ v.toNat / 2 % 32 ≤ 20) := ringOk_iff ..
  refine ⟨s.traceEnable host n v, rfl, ?_⟩
  simp only [State.traceEnable, off, hm]
  refine ⟨fun ho => ?_, fun ho h => ?_, fun ho hn hz => ⟨fun h => ?_, fun h => ?_⟩⟩
  · rw [if_pos ho]
    exact drops_dropped ..
  · rw [if_neg (not_not.2 ho), if_pos h]
    exact drops_dropped ..
  · rw [if_neg (not_not.2 ho), if_neg (by omega), if_pos (by rw [Bool.not_eq_true', ← Bool.not_eq_true, hok]; exact h)]
    exact drops_dropped ..
  · rw [if_neg (not_not.2 ho), if_neg (by omega), if_neg (by rw [Bool.not_eq_true', ← Bool.not_eq_true, hok]; exact not_not.2 h)]
    simp only [Bool.and_eq_true, Bool.not_eq_true']
    by_cases on : v.getLsbD 0 = true ∧ (s.ctx n).trcEn = false
    · simp only [if_pos on]
      refine ⟨?_, fun h => absurd on h, fun _ hr => (traced_syncAll (s.setCtx n _) n hr).new⟩
      exact (ctx_syncAll (s.setCtx n _) n n).trans (ctx_setCtx ..)
    · simp only [if_neg on]
      exact ⟨ctx_setCtx .., fun _ => ⟨rfl, rfl⟩, fun h => absurd h on⟩

/-! ## CXL.mem (R372, R376, R418) -/

/-- Nothing but counters and free values. -/
def OnlyCounted (s t : State) : Prop := ∃ u f, t = { s with units := u, fresh := f }

theorem OnlyCounted.refl (s : State) : OnlyCounted s s := ⟨_, _, rfl⟩

theorem OnlyCounted.trans {s t u : State} (h : OnlyCounted s t) (h' : OnlyCounted t u) : OnlyCounted s u := by
  obtain ⟨_, _, rfl⟩ := h
  obtain ⟨_, _, rfl⟩ := h'
  exact ⟨_, _, rfl⟩

theorem onlyCounted_served (s : State) (slice cls n : Nat) : OnlyCounted s (s.served slice cls n) := ⟨_, _, rfl⟩

theorem onlyCounted_lateUnit (s : State) (unit base cls since n : Nat) : OnlyCounted s (s.lateUnit unit base cls since n) := by
  unfold State.lateUnit
  split
  · exact .refl s
  · exact ⟨_, _, rfl⟩

theorem onlyCounted_hostServed (s : State) (off n : Nat) : OnlyCounted s (s.hostServed off n) := by
  have lines (l : List (Nat × List Byte)) : ∀ s : State, OnlyCounted s (l.foldl (fun s x => s.served (s.home x.1) 3 1) s) := by
    induction l with
    | nil => exact .refl
    | cons x l ih => exact fun s => (onlyCounted_served ..).trans (ih _)
  exact (lines _ s).trans (.trans ⟨_, _, rfl⟩ (onlyCounted_lateUnit ..))

theorem diesUp_iff (s : State) : s.diesUp = true ↔ s.island.st = 3 ∨ s.island.st = 4 := by
  simp [State.diesUp]

/-- The reply to a read that no key or no die answers, and of one that is answered. -/
def State.badReply (s : State) (n : Nat) : HostReply :=
  { data := (List.range n).map fun i => BitVec.ofNat 8 (Config.freeNat (pairNat (pairNat s.fresh 49) i)), poison := true }
def State.readReply (s : State) (k : BitVec 256) (off n : Nat) : HostReply :=
  { data := (List.range n).flatMap fun i => s.readLocal k (off + i) 1
    poison := (List.range n).any fun i => s.poisonedAt (off + i) }

theorem readReply_data (s : State) (k : BitVec 256) (off n i : Nat) (h : i < n) :
    (s.readReply k off n).data.getD i 0#8 = (s.readLocal k (off + i) 1).getD 0 0 := by
  have one : ∀ j, s.readLocal k (off + j) 1 = [(s.readLocal k (off + j) 1).getD 0 0] := by
    intro j
    obtain ⟨b, hb⟩ := List.length_eq_one_iff.1 (readLocal_length s k (off + j) 1)
    rw [hb]
    rfl
  have hd : (s.readReply k off n).data = (List.range n).map fun i => (s.readLocal k (off + i) 1).getD 0 0 := by
    refine (List.flatMap_congr fun j _ => one j).trans ?_
    exact List.map_eq_flatMap.symm
  rw [hd]
  simp [List.getD_eq_getElem?_getD, h]

theorem readReply_poison (s : State) (k : BitVec 256) (off n : Nat) :
    (s.readReply k off n).poison = true ↔ ∃ i, i < n ∧ s.poisonedAt (off + i) = true := by
  simp [State.readReply]

/-- A reply that holds the data, and one that does not. -/
def State.replyWith (s : State) (host : Nat) (r : HostReply) : State := { s with replies := mset {} s.replies host r, fresh := s.fresh + 1 }

theorem replyWith_read (s : State) (host : Nat) (r : HostReply) : (mget {} (s.replyWith host r).replies host : HostReply) = r := mget_mset_self ..

theorem hostRead_answered {s : State} {host off n : Nat} {k : BitVec 256} (h : ¬ (s.island.st = 0 ∨ 8 ≤ host ∨ s.usable < off + n))
    (hk : s.hostKey host = some k) (hd : s.diesUp = true) :
    s.hostRead host off n = (s.hostServed off n).replyWith host (s.readReply k off n) := by
  rw [State.hostRead, if_neg h]
  simp only [hk, hd, Bool.not_true, Bool.false_eq_true, if_false, Option.isSome_some, Bool.and_self, if_true]
  rfl

theorem hostRead_unanswered {s : State} {host off n : Nat} (h : ¬ (s.island.st = 0 ∨ 8 ≤ host ∨ s.usable < off + n))
    (hn : s.hostKey host = none ∨ ¬ s.diesUp = true) : s.hostRead host off n = s.replyWith host (s.badReply n) := by
  rw [State.hostRead, if_neg h]
  cases hk : s.hostKey host with
  | none =>
    simp only [Option.isSome_none, Bool.and_false, Bool.false_eq_true, if_false]
    rfl
  | some k =>
    have hd : s.diesUp = false := by simpa [hk] using hn
    simp only [hd, Bool.false_and, Bool.false_eq_true, if_false, Bool.not_false, if_true]
    rfl

theorem hostMemRead_step (host off n : Nat) (s : State) : ∃ t, exec (.hostMemRead host off n) s = .next t ∧
    t = { s with replies := t.replies, fresh := t.fresh, units := t.units } ∧
    (s.island.st = 0 ∨ 8 ≤ host ∨ s.usable < off + n → t = s) ∧
    (s.island.st ≠ 0 → host < 8 → off + n ≤ s.usable →
      let r : HostReply := mget {} t.replies host
      let up := s.island.st = 3 ∨ s.island.st = 4
      (s.hostKey host = none ∨ ¬ up → r.data.length = n ∧ r.poison = true) ∧
      ∀ k, s.hostKey host = some k → up → (∀ i, i < n → r.data.getD i 0#8 = (s.readLocal k (off + i) 1).getD 0 0) ∧
        (r.poison = true ↔ ∃ i, i < n ∧ s.poisonedAt (off + i) = true)) := by
  refine ⟨s.hostRead host off n, rfl, ?_, fun h => if_pos h, fun hst hh hu => ?_⟩
  · by_cases h : s.island.st = 0 ∨ 8 ≤ host ∨ s.usable < off + n
    · rw [State.hostRead, if_pos h]
    by_cases hk : s.hostKey host = none ∨ ¬ s.diesUp = true
    · rw [hostRead_unanswered h hk]
      rfl
    · obtain ⟨hk, hd⟩ := not_or.1 hk
      obtain ⟨k, hk⟩ := Option.ne_none_iff_exists'.1 hk
      obtain ⟨_, _, e⟩ := onlyCounted_hostServed s off n
      rw [hostRead_answered h hk (not_not.1 hd), e]
      rfl
  · have h : ¬ (s.island.st = 0 ∨ 8 ≤ host ∨ s.usable < off + n) := by omega
    rw [← diesUp_iff]
    refine ⟨fun hn => ?_, fun k hk hd => ?_⟩
    · rw [hostRead_unanswered h hn, replyWith_read]
      exact ⟨by simp [State.badReply], rfl⟩
    · rw [hostRead_answered h hk hd, replyWith_read]
      exact ⟨fun i hi => readReply_data s k off n i hi, readReply_poison ..⟩

theorem hostKey_eq (s : State) (host : Nat) : s.hostKey host =
    let n := s.island.hmemctx.toNat % 2 ^ 12
    if s.island.owner = some host ∧ s.island.hmemctx.getLsbD 15 = true
    then (if (s.ctx n).state = .free ∨ (s.ctx n).state = .killing then none else some (s.ctx n).key) else some (s.ctx 0).key := by
  simp only [State.hostKey, field_zero, Bool.or_eq_true, beq_iff_eq]

/-- A write within a line is one part. -/
theorem splitLines_single {off fuel : Nat} {bs : List Byte} (hne : bs ≠ []) (h : off % 128 + bs.length ≤ 128) :
    splitLines off (fuel + 1) bs = [(off, bs)] := by
  have he : bs.isEmpty = false := by simpa using hne
  have hl : bs.length ≤ 128 - off % 128 := by omega
  have rest : ∀ off fuel, splitLines off fuel [] = [] := fun off fuel => by cases fuel <;> rfl
  rw [splitLines]
  simp only [he, Bool.false_eq_true, if_false, List.take_of_length_le hl, List.drop_of_length_le hl, rest]

theorem hostMemWrite_step (host off : Nat) (bytes : List Byte) (s : State) : ∃ t, exec (.hostMemWrite host off bytes) s = .next t ∧
    (s.island.st = 0 ∨ 8 ≤ host ∨ s.usable < off + bytes.length → t = s) ∧
    (s.island.st ≠ 0 → host < 8 → off + bytes.length ≤ s.usable →
      let up := s.island.st = 3 ∨ s.island.st = 4
      (s.island.owner ≠ some host → Drops s host 1 off t) ∧
      (s.island.owner = some host → ¬ up → Drops s host 3 off t) ∧
      (s.island.owner = some host → up → s.hostKey host = none → Drops s host 5 off t) ∧
      ∀ k, s.island.owner = some host → up → s.hostKey host = some k → bytes ≠ [] → off % 128 + bytes.length ≤ 128 →
        (s.lineFull off = true → t = s) ∧ (s.lineFull off = false → LineWritten s k off bytes t)) := by
  refine ⟨s.hostWrite host off bytes, rfl, fun h => if_pos h, fun hst hh hu => ?_⟩
  rw [State.hostWrite, if_neg (by omega)]
  simp only [← diesUp_iff]
  refine ⟨fun ho => ?_, fun ho hd => ?_, fun ho hd hk => ?_, fun k ho hd hk hne hfit => ?_⟩
  · rw [if_pos ho]
    exact drops_dropped ..
  · rw [if_neg (not_not.2 ho), if_pos (by simpa using hd)]
    exact drops_dropped ..
  · rw [if_neg (not_not.2 ho), if_neg (by simpa using hd), hk]
    exact drops_dropped ..
  · rw [if_neg (not_not.2 ho), if_neg (by simpa using hd), hk, splitLines_single hne hfit]
    simp only [List.any_cons, List.any_nil, Bool.or_false, List.foldl_cons, List.foldl_nil]
    refine ⟨fun hf => if_pos hf, fun hf => ?_⟩
    rw [if_neg (by simp [hf])]
    exact (lineWritten_storeLocal s k off bytes false false 0 none hf hfit).congr (sameMemory_hostServed ..)

/-! ## Host memory (R374, R385) -/

/-- After an invalidation no core holds the line in L1, and no memo entry has read it. -/
theorem invalidate_l1 (s : State) (line stamp n : Nat) : mget 0 ((s.invalidate line none stamp).core n).l1 line = 0 := by
  simp only [State.invalidate, State.core, State.memoMap, List.map_map]
  exact mget_map_rel (R := fun _ b : CoreSt => mget 0 b.l1 line = 0) {} _ s.cores n (fun _ => rfl) rfl fun x _ => mget_mset_self 0 x.2.l1 line 0

theorem invalidate_memo (s : State) (line : Nat) (core : Option Nat) (stamp : Nat) :
    MemoAll (fun m => m.load = true → m.asof = false → line ∉ m.lines) (s.invalidate line core stamp) := by
  intro c hc q hq
  obtain ⟨c', hc', rfl⟩ := List.mem_map.1 hc
  refine memoAll_memoMap (P := fun m => m.load = true → m.asof = false → line ∉ m.lines) s (fun n ms m hm hload hasof hl => ?_) c' hc' q hq
  have hf := (List.mem_filter.1 hm).2
  simp [hload, hasof, hl] at hf

theorem cxlCacheInvalidation_step (line : Nat) (bytes : List Byte) (s : State) : ∃ t, exec (.cxlCacheInvalidation line bytes) s = .next t ∧
    t.mem = wrBytes s.mem (hostBase + 128 * line) (bytes.take 128) ∧
    (∀ n, mget 0 (t.core n).l1 (hostBase / 128 + line) = 0) ∧
    ∀ c ∈ t.cores, ∀ q ∈ c.2.quarters, ∀ m ∈ q.2.memo, m.load = true → m.asof = false → (hostBase / 128 + line) ∉ m.lines := by
  have hl : (hostBase + 128 * line) / 128 = hostBase / 128 + line := by
    simp only [hostBase]
    omega
  refine ⟨s.hostLine line bytes, rfl, rfl, ?_⟩
  rw [State.hostLine, State.storeHost, hl]
  exact ⟨fun n => invalidate_l1 .., invalidate_memo _ _ none 0⟩

/-- Settles O52, one lemma for each step that observes or that a host makes. -/
theorem observationAndHostSteps : Obligations.ObservationAndHostSteps := by
  unfold Obligations.ObservationAndHostSteps
  exact ⟨seriesLatch_step, fun s id _ => frame_reads s id, framePush_host_mem, pcSample_step, sampleCount_quarter, stopAt_step, stopResume_step,
    quadrantTest_step, quadrantTestDone_pass_step, quadrantTestDone_fail_step, queueDoorbell_step, claim_step, ownershipGrant_step, handover_step,
    heartbeat_step, ownerHeartbeatLapse_step, fun host v s => ⟨hbperiodWrite_step host v s, hmemctxWrite_step host v s⟩, registerReads,
    hostRegisterWrite_step, mapLoad_step, memcfgWrite_step, fun host n v s => ⟨samplePeriodWrite_step host n v s, traceEnable_step host n v s⟩,
    hostMemRead_step, hostKey_eq, hostMemWrite_step, cxlCacheInvalidation_step⟩

end Sys2Proof.Machine
end

section
/-! LEMMAS AND PROOFS. The commands of the owner, event reads, the attestation mailbox (O53). -/

namespace Sys2Proof.Machine

/-! ## Management packets (R361, R366, R369) -/

/-- The management packet to a member, on a path and under a number. -/
def State.notice (s : State) (code : Nat) (data : List Byte) (dst path seq : Nat) : Packet :=
  { kind := 9, vc := 5, path := path, cls := 0, esc := false, dst := dst, src := s.device, inc := (mget {} s.members dst : Member).inc
    seq := seq, off := 0, tag := 0, ctx := 0, spec := [BitVec.ofNat 8 code, s.island.inc] ++ List.replicate 8 0#8, data := padFlits data, zeros := true }

/-- A path that carries no request is one of four. -/
theorem pathFor_lt (s : State) (kind dst off : Nat) (h : 3 < kind) : s.pathFor kind dst off < 4 := by
  have none : s.retained.find? (fun p => p.dst == dst && p.kind ≤ 3 && kind ≤ 3 && p.off / 128 == off / 128) = none := by
    refine List.find?_eq_none.2 fun p _ => ?_
    simp [Nat.not_le.2 h]
  rw [State.pathFor, none]
  dsimp only
  rw [List.getD_eq_getElem?_getD]
  generalize hps : (List.range 4).filter _ = ps
  cases e : ps[Config.freeNat (pairNat s.fresh 2) % ps.length]? with
  | none => exact Nat.succ_pos 3
  | some x => exact List.mem_range.1 (List.mem_filter.1 (hps ▸ List.mem_of_getElem? e)).1

/-- A notice to one member. -/
def State.notify (s : State) (code : Nat) (data : List Byte) (d : Nat) : State :=
  (s.sendPkt 9 5 0 d 0 0 0 [BitVec.ofNat 8 code, s.island.inc] data).2

/-- Notices to a list of members, one after another. -/
structure Notices (s : State) (code : Nat) (data : List Byte) (ds : List Nat) (t : State) (new : List Packet) : Prop where
  out      : t.out = s.out ++ new
  retained : t.retained = s.retained ++ new
  packets  : ∀ r ∈ new, r.path < 4 ∧ (ds.Nodup → r.seq = mget 0 s.e2eOut (r.dst * 4 + r.path)) ∧ r = s.notice code data r.dst r.path r.seq
  dests    : ∀ d, (∃ r ∈ new, r.dst = d) ↔ d ∈ ds

theorem notices_foldl (code : Nat) (data : List Byte) (ds : List Nat) (s : State) :
    ∃ new, Notices s code data ds (ds.foldl (fun s d => s.notify code data d) s) new := by
  induction ds generalizing s with
  | nil => exact ⟨[], by simp, by simp, by simp, by simp⟩
  | cons d ds ih =>
    obtain ⟨new, hout, hret, hp, hd⟩ := ih (s.notify code data d)
    set path := s.pathFor 9 d 0 with hpath
    set seq := mget 0 s.e2eOut (d * 4 + path) with hseq
    have hlt : path < 4 := pathFor_lt s 9 d 0 (by decide)
    have ho : (s.notify code data d).out = s.out ++ [s.notice code data d path seq] := rfl
    have hr : (s.notify code data d).retained = s.retained ++ [s.notice code data d path seq] := rfl
    have he : (s.notify code data d).e2eOut = mset 0 s.e2eOut (d * 4 + path) ((seq + 1) % 65536) := rfl
    refine ⟨s.notice code data d path seq :: new, ?_, ?_, fun r hr => ?_, fun k => ?_⟩
    · rw [List.foldl_cons, hout, ho, List.append_assoc]; rfl
    · rw [List.foldl_cons, hret, hr, List.append_assoc]; rfl
    · cases hr with
      | head => exact ⟨hlt, fun _ => rfl, rfl⟩
      | tail _ hr =>
        obtain ⟨h4, hn, e⟩ := hp r hr
        refine ⟨h4, fun hnd => ?_, e⟩
        obtain ⟨hnot, hnd⟩ := List.nodup_cons.1 hnd
        have hne : r.dst ≠ d := fun e => hnot ((hd d).1 ⟨r, hr, e⟩)
        rw [hn hnd, he]
        exact mget_mset_ne _ _ _ (by omega)
    · rw [List.mem_cons, ← hd]
      simp only [List.mem_cons, exists_eq_or_imp]
      exact or_congr eq_comm Iff.rfl

/-- A notice to every other member. -/
theorem tells_tellAll (s : State) (code : Nat) (data : List Byte) : Tells s code data (s.tellAll code data) := by
  obtain ⟨new, hout, hret, hp, hd⟩ := notices_foldl code data ((s.members.filter fun m => m.2.member && m.1 != s.device).map (·.1)) s
  refine ⟨new, hout, hret, fun r hr => ?_, fun d => (hd d).trans ?_⟩
  · obtain ⟨h4, hn, e⟩ := hp r hr
    refine ⟨h4, fun hm => hn ?_, e⟩
    have hm : (s.members.map (·.1)).Nodup := List.Pairwise.imp Nat.ne_of_lt hm
    exact hm.sublist (List.Sublist.map _ List.filter_sublist)
  · simp only [List.mem_map, List.mem_filter, Bool.and_eq_true, bne_iff_ne]
    constructor
    · rintro ⟨m, ⟨hm, hmem, hne⟩, rfl⟩
      exact ⟨hne, m, hm, rfl, hmem⟩
    · rintro ⟨hne, m, hm, rfl, hmem⟩
      exact ⟨m, ⟨hm, hmem, hne⟩, rfl⟩

/-- What notices leave: everything but packets, their numbers and a free value. -/
theorem tellAll_frame (s : State) (code : Nat) (data : List Byte) :
    ∃ f r o e, s.tellAll code data = { s with fresh := f, retained := r, out := o, e2eOut := e } := by
  unfold State.tellAll
  generalize (s.members.filter fun m => m.2.member && m.1 != s.device).map (·.1) = ds
  induction ds generalizing s with
  | nil => exact ⟨_, _, _, _, rfl⟩
  | cons d ds ih =>
    obtain ⟨_, _, _, _, e⟩ := ih (s.notify code data d)
    exact ⟨_, _, _, _, e⟩

/-- Notices count from a few fields of the state, and stand in two. -/
theorem Tells.congr {s s' t t' : State} {code : Nat} {data : List Byte} (h : Tells s code data t)
    (hs : s.out = s'.out ∧ s.retained = s'.retained ∧ s.e2eOut = s'.e2eOut ∧ s.members = s'.members ∧ s.device = s'.device)
    (hi : s.island.inc = s'.island.inc) (ho : t.out = t'.out) (hr : t.retained = t'.retained) : Tells s' code data t' := by
  obtain ⟨new, h1, h2, h3, h4⟩ := h
  obtain ⟨hout, hret, he, hm, hd⟩ := hs
  rw [hout, ho] at h1
  rw [hret, hr] at h2
  rw [he, hm, hd, hi] at h3
  rw [hd, hm] at h4
  exact ⟨new, h1, h2, h3, h4⟩

/-! ## STATUS and READ_EVENTS (R377, R380) -/

theorem status_step (c : Sender) : OpenCommand (.status c) c 0x04 noArgs fun s t => Replied s c.host 0
    ([BitVec.ofNat 8 s.island.st, s.island.inc, 0#8, 0#8] ++ leBytes 4 s.island.lastAccepted.toNat ++ leBytes 4 (s.logNext - 1)) t ∧ OnlyReply s t :=
  openCommand_of _ (fun _ => rfl) fun _ _ => ⟨replied_reply .., onlyReply_reply ..⟩

theorem readEvents_step (c : Sender) (first count pa : Nat) : OpenCommand (.readEvents c first count pa) c 0x05
      (fun x => isArg 0 4 first x && isArg 4 4 count x && isArg 8 8 pa x) fun s t =>
    let l := s.log.drop (s.log.length - (s.logNext - 1))
    (first < s.logNext - l.length → Replied s c.host 7 [] t ∧ OnlyReply s t) ∧
    (s.logNext - l.length ≤ first →
      let bytes := (l.filter fun e => decide (first ≤ e.seq ∧ e.seq < first + count)).flatMap EventRec.bytes
      Replied { s with mem := wrBytes s.mem (hostBase + pa) bytes } c.host 0 [] t) := by
  refine openCommand_of _ (fun _ => rfl) fun s _ => ⟨fun h => ?_, fun h => ?_⟩
  · rw [show s.log.drop (s.log.length - (s.logNext - 1)) = s.bootLog from rfl] at h
    dsimp only
    rw [if_pos h]
    exact ⟨replied_reply .., onlyReply_reply ..⟩
  · rw [show s.log.drop (s.log.length - (s.logNext - 1)) = s.bootLog from rfl] at h ⊢
    dsimp only
    rw [if_neg (Nat.not_lt.2 h)]
    obtain ⟨⟨m, p, x, k, e⟩, -⟩ := hostWritten_hostPut s pa
      ((s.bootLog.filter fun e => decide (first ≤ e.seq ∧ e.seq < first + count)).flatMap EventRec.bytes)
    exact (replied_reply ..).congr (by rw [e]) (by rw [e]) (State.hostPut_mem ..)

/-! ## Contexts (R95-R98, R377) -/

theorem createOk_iff (usable : Nat) (bs : List Byte) : let n := fun a k => leNat ((bs.drop a).take k)
    createOk usable bs = true ↔ 1 ≤ n 0 2 ∧ n 0 2 ≤ 4095 ∧ n 2 1 < 2 ∧ n 3 1 ≠ 0 ∧ 10000 ≤ n 4 4 ∧ n 8 8 % 4096 = 0 ∧ n 8 8 < 2 ^ 40 ∧
      n 8 8 < usable ∧ 10 ≤ n 56 1 ∧ n 56 1 ≤ 24 ∧ 4 ≤ n 57 1 ∧ n 57 1 ≤ 16 ∧ n 58 1 ≤ 16 ∧ n 59 1 = 0 ∧ ∀ b ∈ bs.drop 72, b = 0#8 := by
  intro n
  simp only [createOk, Bool.and_eq_true, decide_eq_true_eq, bne_iff_ne, beq_iff_eq, List.all_eq_true, and_assoc]
  rfl

/-- The value of k bytes is below 256^k. -/
theorem leNat_lt (bs : List Byte) : leNat bs < 256 ^ bs.length := by
  induction bs with
  | nil => exact Nat.one_pos
  | cons b bs ih =>
    have hb := b.isLt
    rw [leNat, List.length_cons, Nat.pow_succ]
    omega

theorem leNat_take_lt (bs : List Byte) (k : Nat) : leNat (bs.take k) < 256 ^ k :=
  (leNat_lt _).trans_le (Nat.pow_le_pow_right (by decide) (List.length_take_le ..))

/-- The hardware queues of a context's indices, as a table. -/
theorem mget_queueTable (l : List Nat) (m : SMap Nat) (j i : Nat) :
    mget 0 ((l.zipIdx j).foldl (fun m x => mset 0 m x.2 (x.1 + 1)) m) i =
      if j ≤ i ∧ i < j + l.length then l.getD (i - j) 0 + 1 else mget 0 m i := by
  induction l generalizing m j with
  | nil => rw [if_neg (by simp)]; rfl
  | cons h l ih =>
    rw [List.zipIdx_cons, List.foldl_cons, ih, mget_mset, List.length_cons]
    by_cases e : i = j
    · subst e
      rw [if_neg (by omega), if_pos rfl, if_pos (by omega), Nat.sub_self, List.getD_cons_zero]
    · by_cases hi : j + 1 ≤ i ∧ i < j + 1 + l.length
      · rw [if_pos hi, if_pos (by omega), show i - j = (i - (j + 1)) + 1 by omega, List.getD_cons_succ]
      · rw [if_neg hi, if_neg e, if_neg (by omega)]

/-- Queues become bound to a context, the first at an index. -/
def State.bindQueues (s : State) (cn j : Nat) (qs : List Nat) : State :=
  (qs.zipIdx j).foldl (fun s x => s.setQueue x.1 { bound := some cn, index := x.2 }) s

theorem queue_setQueue_ne (s : State) {h k : Nat} (x : HwQueue) (e : k ≠ h) : (s.setQueue h x).queue k = s.queue k := mget_mset_ne _ _ _ e

theorem bindQueues_frame (s : State) (cn j : Nat) (qs : List Nat) : ∃ m, s.bindQueues cn j qs = { s with queues := m } := by
  induction qs generalizing s j with
  | nil => exact ⟨_, rfl⟩
  | cons h qs ih =>
    obtain ⟨m, e⟩ := ih (s.setQueue h { bound := some cn, index := j }) (j + 1)
    exact ⟨m, e⟩

theorem queue_bindQueues_of_not_mem (s : State) (cn j : Nat) {qs : List Nat} {h : Nat} (hn : h ∉ qs) :
    (s.bindQueues cn j qs).queue h = s.queue h := by
  induction qs generalizing s j with
  | nil => rfl
  | cons k qs ih =>
    obtain ⟨hne, hn⟩ := not_or.1 (mt List.mem_cons.2 hn)
    exact (ih (s.setQueue k { bound := some cn, index := j }) (j + 1) hn).trans (queue_setQueue_ne _ _ hne)

theorem queue_bindQueues (s : State) (cn j : Nat) {qs : List Nat} (hn : qs.Nodup) {i : Nat} (hi : i < qs.length) :
    (s.bindQueues cn j qs).queue (qs.getD i 0) = { bound := some cn, index := j + i } := by
  induction qs generalizing s j i with
  | nil => exact absurd hi (Nat.not_lt_zero i)
  | cons k qs ih =>
    obtain ⟨hk, hn⟩ := List.nodup_cons.1 hn
    cases i with
    | zero => exact (queue_bindQueues_of_not_mem (s.setQueue k { bound := some cn, index := j }) cn (j + 1) hk).trans (queue_setQueue ..)
    | succ i =>
      have := ih (s.setQueue k { bound := some cn, index := j }) (j + 1) hn (Nat.lt_of_succ_lt_succ hi)
      rw [List.getD_cons_succ]
      exact this.trans (by rw [Nat.add_assoc, Nat.add_comm 1 i])

/-- The context that a create block makes, with its queues. -/
def newCtx (bs : List Byte) (qs : List Nat) : Ctx :=
  let n := fun a k => leNat ((bs.drop a).take k)
  { state := .defined, priv := n 2 1 == 1, weight := n 3 1, tslice := n 4 4, ptroot := BitVec.ofNat 64 (n 8 8)
    key := BitVec.ofNat 256 (n 16 32), counterVa := n 48 8, counterC := n 56 1, notifyVa := n 64 8, notifyM := n 57 1
    vesper := n 60 4, queues := qs.zipIdx.foldl (fun m x => mset 0 m x.2 (x.1 + 1)) [] }

/-- The machine with it. -/
def State.createAs (s : State) (bs : List Byte) (cn : Nat) (qs : List Nat) : State :=
  ((s.setCtx cn (newCtx bs qs)).setQueue (256 + cn) (compQueue cn)).bindQueues cn 0 qs

/-- The queue numbers that CTX_CREATE returns. -/
def queueBytes (qs : List Nat) : List Byte := (List.range 16).map fun i => match qs[i]? with
  | some h => BitVec.ofNat 8 h
  | none => 0xFF#8

section
variable (s : State) (pa : Nat)

/-- The create block, and its numbers. -/
def State.createBlock : List Byte := rdBytes s.mem (hostBase + pa) 128
def State.createNum (a k : Nat) : Nat := leNat (((s.createBlock pa).drop a).take k)

theorem ctxCreate_eq : s.ctxCreate pa =
    if !createOk s.usable (s.createBlock pa) then ((3, []), s)
    else if s.island.st ≠ 3 ∨ (s.ctx (s.createNum pa 0 2)).state ≠ .free then ((1, []), s)
    else if 2 ^ 20 < s.shares + s.createNum pa 60 4 ∨ s.freeQueues.length < s.createNum pa 58 1 then ((6, []), s)
    else ((0, queueBytes (s.freeQueues.take (s.createNum pa 58 1))),
      s.createAs (s.createBlock pa) (s.createNum pa 0 2) (s.freeQueues.take (s.createNum pa 58 1))) := rfl

theorem ctxCreate_bad (h : createOk s.usable (s.createBlock pa) = false) : s.ctxCreate pa = ((3, []), s) := by
  rw [ctxCreate_eq, if_pos (by rw [Bool.not_eq_true']; exact h)]

theorem ctxCreate_badState (h : createOk s.usable (s.createBlock pa) = true)
    (hs : s.island.st ≠ 3 ∨ (s.ctx (s.createNum pa 0 2)).state ≠ .free) : s.ctxCreate pa = ((1, []), s) := by
  rw [ctxCreate_eq, if_neg (by rw [Bool.not_eq_true', Bool.not_eq_false]; exact h), if_pos hs]

theorem ctxCreate_full (h : createOk s.usable (s.createBlock pa) = true)
    (hs : ¬ (s.island.st ≠ 3 ∨ (s.ctx (s.createNum pa 0 2)).state ≠ .free))
    (hr : 2 ^ 20 < s.shares + s.createNum pa 60 4 ∨ s.freeQueues.length < s.createNum pa 58 1) : s.ctxCreate pa = ((6, []), s) := by
  rw [ctxCreate_eq, if_neg (by rw [Bool.not_eq_true', Bool.not_eq_false]; exact h), if_neg hs, if_pos hr]

theorem ctxCreate_made (h : createOk s.usable (s.createBlock pa) = true)
    (hs : ¬ (s.island.st ≠ 3 ∨ (s.ctx (s.createNum pa 0 2)).state ≠ .free))
    (hr : ¬ (2 ^ 20 < s.shares + s.createNum pa 60 4 ∨ s.freeQueues.length < s.createNum pa 58 1)) :
    s.ctxCreate pa = ((0, queueBytes (s.freeQueues.take (s.createNum pa 58 1))),
      s.createAs (s.createBlock pa) (s.createNum pa 0 2) (s.freeQueues.take (s.createNum pa 58 1))) := by
  rw [ctxCreate_eq, if_neg (by rw [Bool.not_eq_true', Bool.not_eq_false]; exact h), if_neg hs, if_neg hr]

end

theorem ctxCreate_frame (s : State) (pa : Nat) : ∃ c q, (s.ctxCreate pa).2 = { s with ctxs := c, queues := q } := by
  by_cases h : createOk s.usable (s.createBlock pa) = false
  · rw [ctxCreate_bad s pa h]; exact ⟨_, _, rfl⟩
  rw [Bool.not_eq_false] at h
  by_cases hs : s.island.st ≠ 3 ∨ (s.ctx (s.createNum pa 0 2)).state ≠ .free
  · rw [ctxCreate_badState s pa h hs]; exact ⟨_, _, rfl⟩
  by_cases hr : 2 ^ 20 < s.shares + s.createNum pa 60 4 ∨ s.freeQueues.length < s.createNum pa 58 1
  · rw [ctxCreate_full s pa h hs hr]; exact ⟨_, _, rfl⟩
  · rw [ctxCreate_made s pa h hs hr, State.createAs]
    obtain ⟨m, e⟩ := bindQueues_frame ((s.setCtx (s.createNum pa 0 2) (newCtx (s.createBlock pa) (s.freeQueues.take (s.createNum pa 58 1)))).setQueue
      (256 + s.createNum pa 0 2) (compQueue (s.createNum pa 0 2))) (s.createNum pa 0 2) 0 (s.freeQueues.take (s.createNum pa 58 1))
    exact ⟨_, _, e⟩

theorem ctxCreate_command (c : Cmd) (pa : Nat) : Commands (.ctxCreate c pa) c 0x10 (arg8 pa) (fun s => (s.ctxCreate pa).1) fun _ _ => True := by
  intro s
  obtain ⟨_, _, e⟩ := ctxCreate_frame s pa
  exact commandAt_of (fun s => (some (s.ctxCreate pa).1, (s.ctxCreate pa).2)) rfl rfl (by rw [e]) (by rw [e]) (by rw [e]) fun _ _ _ => trivial

/-! ## What an accepted command leaves -/

theorem onlyReply_accepted (t : State) (c : Cmd) (r : Nat × List Byte) :
    OnlyReply { t with island := { t.island with lastAccepted := c.seq } } (t.accepted c r) := onlyReply_reply ..

theorem noEffect_accepted (s : State) (c : Cmd) (r : Nat × List Byte) : NoEffect c s (s.accepted c r) := onlyReply_accepted ..

theorem replied_accepted {s t : State} (c : Cmd) (r : Nat × List Byte) (hr : t.replies = s.replies) (hh : t.hosts = s.hosts) (hm : t.mem = s.mem) :
    Replied s c.host r.1 r.2 (t.accepted c r) := (replied_reply ..).congr hr hh hm

/-- A command that is refused. -/
theorem refused_accepted (s : State) (c : Cmd) (n : Nat) : Replied s c.host n [] (s.accepted c (n, [])) ∧ NoEffect c s (s.accepted c (n, [])) :=
  ⟨replied_accepted c (n, []) rfl rfl rfl, noEffect_accepted ..⟩

/-- What does not change under a reply, of an accepted command. -/
theorem accepted_frame (t : State) (c : Cmd) (r : Nat × List Byte) : ∃ a b m p x k, t.accepted c r = { t with
    island := { t.island with lastAccepted := c.seq }, replies := a, hosts := b, mem := m, past := p, poison := x, cores := k } :=
  (onlyReply_accepted t c r).frame

/-! ## CTX_CREATE -/

theorem freeQueues_nodup (s : State) : s.freeQueues.Nodup := List.nodup_range.filter _

theorem mem_freeQueues (s : State) (h : Nat) : h ∈ s.freeQueues ↔ h < 256 ∧ (s.queue h).bound = none := by
  simp [State.freeQueues]

/-- The first of the free queues. -/
theorem getD_take (l : List Nat) {k i : Nat} (hi : i < k) : (l.take k).getD i 0 = l.getD i 0 := by
  simp [List.getD_eq_getElem?_getD, hi]

theorem queueBytes_take (l : List Nat) {k : Nat} (hk : k ≤ l.length) :
    queueBytes (l.take k) = (List.range 16).map fun i => if i < k then BitVec.ofNat 8 (l.getD i 0) else 0xFF#8 := by
  refine List.map_congr_left fun i _ => ?_
  by_cases hi : i < k
  · have he : (l.take k)[i]? = some (l.getD i 0) := by
      rw [List.getElem?_take_of_lt hi, List.getD_eq_getElem?_getD, List.getElem?_eq_getElem (hi.trans_le hk)]
      rfl
    rw [he, if_pos hi]
  · have he : (l.take k)[i]? = none := by
      rw [List.getElem?_eq_none_iff, List.length_take]
      omega
    rw [he, if_neg hi]

theorem newCtx_fields (bs : List Byte) (qs : List Nat) : let n := fun a k => leNat ((bs.drop a).take k)
    let x := newCtx bs qs
    x.state = .defined ∧ x.priv = decide (n 2 1 = 1) ∧ x.weight = n 3 1 ∧ x.tslice = n 4 4 ∧ x.ptroot.toNat = n 8 8 ∧
      x.key.toNat = n 16 32 ∧ x.counterVa = n 48 8 ∧ x.counterC = n 56 1 ∧ x.notifyM = n 57 1 ∧ x.vesper = n 60 4 ∧ x.notifyVa = n 64 8 ∧
      x.trapvec = 0#64 ∧ x.sbchk = 0#32 ∧ x.pins = [] ∧ ∀ i, mget 0 x.queues i = if i < qs.length then qs.getD i 0 + 1 else 0 := by
  intro n x
  have hp : x.ptroot.toNat = n 8 8 := by
    refine (BitVec.toNat_ofNat ..).trans (Nat.mod_eq_of_lt ?_)
    exact leNat_take_lt _ 8
  have hk : x.key.toNat = n 16 32 := by
    refine (BitVec.toNat_ofNat ..).trans (Nat.mod_eq_of_lt ?_)
    exact leNat_take_lt _ 32
  refine ⟨rfl, rfl, rfl, rfl, hp, hk, rfl, rfl, rfl, rfl, rfl, rfl, rfl, rfl, fun i => ?_⟩
  refine (mget_queueTable qs [] 0 i).trans ?_
  simp only [Nat.zero_le, Nat.zero_add, true_and, Nat.sub_zero]
  rfl

theorem createAs_ctx (s : State) (bs : List Byte) (cn k : Nat) (qs : List Nat) :
    (s.createAs bs cn qs).ctx k = if k = cn then newCtx bs qs else s.ctx k := by
  obtain ⟨m, e⟩ := bindQueues_frame ((s.setCtx cn (newCtx bs qs)).setQueue (256 + cn) (compQueue cn)) cn 0 qs
  rw [State.createAs, e]
  exact ctx_setCtx_if s cn k (newCtx bs qs)

theorem createAs_queue (s : State) (bs : List Byte) (cn : Nat) {qs : List Nat} (hn : qs.Nodup) {i : Nat} (hi : i < qs.length) :
    (s.createAs bs cn qs).queue (qs.getD i 0) = { bound := some cn, index := i } := by
  refine (queue_bindQueues _ cn 0 hn hi).trans ?_
  rw [Nat.zero_add]

theorem createAs_queue_other (s : State) (bs : List Byte) (cn : Nat) {qs : List Nat} {h : Nat} (hq : h ∉ qs) (hc : h ≠ 256 + cn) :
    (s.createAs bs cn qs).queue h = s.queue h := by
  exact (queue_bindQueues_of_not_mem _ cn 0 hq).trans (queue_setQueue_ne (s.setCtx cn (newCtx bs qs)) _ hc)

/-- What a context that is made holds, its queues, and what stays, under the status of its command. -/
theorem createAs_accepted (s : State) (c : Cmd) (pa : Nat) (hlen : s.createNum pa 58 1 ≤ s.freeQueues.length) :
    let n := s.createNum pa
    let cn := n 0 2
    let free := s.freeQueues
    let qs := free.take (n 58 1)
    let t := (s.createAs (s.createBlock pa) cn qs).accepted c (0, queueBytes qs)
    Replied s c.host 0 ((List.range 16).map fun i => if i < n 58 1 then BitVec.ofNat 8 (free.getD i 0) else 0xFF#8) t ∧
      t.island.lastAccepted = c.seq ∧ t.ctx cn = newCtx (s.createBlock pa) qs ∧
      (∀ i, mget 0 (newCtx (s.createBlock pa) qs).queues i = if i < n 58 1 then free.getD i 0 + 1 else 0) ∧
      (∀ i, i < n 58 1 → t.queue (free.getD i 0) = { bound := some cn, index := i }) ∧
      (∀ k, k ≠ cn → t.ctx k = s.ctx k) ∧ (∀ h, (s.queue h).bound.isSome = true → h ≠ 256 + cn → t.queue h = s.queue h) := by
  intro n cn free qs t
  have hl : qs.length = n 58 1 := List.length_take_of_le hlen
  have hnd : qs.Nodup := (freeQueues_nodup s).sublist (List.take_sublist ..)
  obtain ⟨m, e⟩ := bindQueues_frame ((s.setCtx cn (newCtx (s.createBlock pa) qs)).setQueue (256 + cn) (compQueue cn)) cn 0 qs
  have he : s.createAs (s.createBlock pa) cn qs = { s.setCtx cn (newCtx (s.createBlock pa) qs) with queues := m } := e
  obtain ⟨_, _, _, _, _, _, f⟩ := accepted_frame (s.createAs (s.createBlock pa) cn qs) c (0, queueBytes qs)
  have hctx (k : Nat) : t.ctx k = (s.createAs (s.createBlock pa) cn qs).ctx k := by
    simp only [t, f]
    rfl
  have hqueue (k : Nat) : t.queue k = (s.createAs (s.createBlock pa) cn qs).queue k := by
    simp only [t, f]
    rfl
  refine ⟨?_, ?_, ?_, fun i => ?_, fun i hi => ?_, fun k hk => ?_, fun h hb hc => ?_⟩
  · have := replied_accepted (s := s) (t := s.createAs (s.createBlock pa) cn qs) c (0, queueBytes qs) (by rw [he]; rfl) (by rw [he]; rfl) (by rw [he]; rfl)
    exact (congrArg (fun d => Replied s c.host 0 d t) (queueBytes_take free hlen)).mp this
  · simp only [t, f]
  · rw [hctx, createAs_ctx, if_pos rfl]
  · obtain ⟨-, -, -, -, -, -, -, -, -, -, -, -, -, -, hq⟩ := newCtx_fields (s.createBlock pa) qs
    rw [hq, hl]
    split
    · next hi => rw [getD_take free hi]
    · rfl
  · rw [hqueue, ← getD_take free hi, createAs_queue s _ cn hnd (by rw [hl]; exact hi)]
  · rw [hctx, createAs_ctx, if_neg hk]
  · rw [hqueue, createAs_queue_other s _ cn (fun hm => ?_) hc]
    have := ((mem_freeQueues s h).1 (List.mem_of_mem_take hm)).2
    rw [this] at hb
    cases hb

theorem ctxCreate_step (c : Cmd) (pa : Nat) (s : State) (hc : NextCommand s c 0x10 (isArg 0 8 pa)) :
    let bs := rdBytes s.mem (hostBase + pa) 128
    let n := fun a k => leNat ((bs.drop a).take k)
    let cn := n 0 2
    let free := (List.range 256).filter fun h => (s.queue h).bound.isNone
    let ok := createOk s.usable bs
    let room := s.shares + n 60 4 ≤ 2 ^ 20 ∧ n 58 1 ≤ free.length
    ∃ t, exec (.ctxCreate c pa) s = .next t ∧
      (ok = false → Replied s c.host 3 [] t ∧ NoEffect c s t) ∧
      (ok = true → s.island.st ≠ 3 ∨ (s.ctx cn).state ≠ .free → Replied s c.host 1 [] t ∧ NoEffect c s t) ∧
      (ok = true → s.island.st = 3 → (s.ctx cn).state = .free →
        (¬ room → Replied s c.host 6 [] t ∧ NoEffect c s t) ∧
        (room → Replied s c.host 0 ((List.range 16).map fun i => if i < n 58 1 then BitVec.ofNat 8 (free.getD i 0) else 0xFF#8) t ∧
          t.island.lastAccepted = c.seq ∧
          (let x := t.ctx cn
           x.state = .defined ∧ x.priv = decide (n 2 1 = 1) ∧ x.weight = n 3 1 ∧ x.tslice = n 4 4 ∧ x.ptroot.toNat = n 8 8 ∧
            x.key.toNat = n 16 32 ∧ x.counterVa = n 48 8 ∧ x.counterC = n 56 1 ∧ x.notifyM = n 57 1 ∧ x.vesper = n 60 4 ∧ x.notifyVa = n 64 8 ∧
            x.trapvec = 0#64 ∧ x.sbchk = 0#32 ∧ x.pins = [] ∧
            ∀ i, i < 16 → mget 0 x.queues i = if i < n 58 1 then free.getD i 0 + 1 else 0) ∧
          (∀ i, i < n 58 1 → t.queue (free.getD i 0) = { bound := some cn, index := i }) ∧
          (∀ k, k ≠ cn → t.ctx k = s.ctx k) ∧ (∀ h, (s.queue h).bound.isSome = true → h ≠ 256 + cn → t.queue h = s.queue h))) := by
  intro bs n cn free ok room
  have run : exec (.ctxCreate c pa) s = .next ((s.ctxCreate pa).2.accepted c (s.ctxCreate pa).1) :=
    congrArg Host.Outcome.next (command_next hc fun s => (some (s.ctxCreate pa).1, (s.ctxCreate pa).2))
  refine ⟨_, run, fun h => ?_, fun h hs => ?_, fun h h3 hf => ⟨fun hr => ?_, fun hr => ?_⟩⟩
  · rw [ctxCreate_bad s pa h]
    exact refused_accepted s c 3
  · rw [ctxCreate_badState s pa h hs]
    exact refused_accepted s c 1
  all_goals have hs : ¬ (s.island.st ≠ 3 ∨ (s.ctx (s.createNum pa 0 2)).state ≠ .free) := not_or.2 ⟨not_not.2 h3, not_not.2 hf⟩
  · have full : 2 ^ 20 < s.shares + s.createNum pa 60 4 ∨ s.freeQueues.length < s.createNum pa 58 1 :=
      (not_and_or.1 hr).imp Nat.not_le.1 Nat.not_le.1
    rw [ctxCreate_full s pa h hs full]
    exact refused_accepted s c 6
  · obtain ⟨hshare, hlen⟩ := hr
    rw [ctxCreate_made s pa h hs (not_or.2 ⟨Nat.not_lt.2 hshare, Nat.not_lt.2 hlen⟩)]
    obtain ⟨replied, accepted, made, queues, bound, ctxs, others⟩ := createAs_accepted s c pa hlen
    obtain ⟨hst, hpr, hw, hts, hpt, hk, hcv, hcc, hnm, hv, hnv, htv, hsb, hpn, -⟩ :=
      newCtx_fields (s.createBlock pa) (s.freeQueues.take (s.createNum pa 58 1))
    dsimp only
    refine ⟨replied, accepted, ?_, bound, ctxs, others⟩
    rw [show State.ctx _ cn = newCtx _ _ from made]
    exact ⟨hst, hpr, hw, hts, hpt, hk, hcv, hcc, hnm, hv, hnv, htv, hsb, hpn, fun i _ => queues i⟩

/-! ## Commands of the island (R371, R374, R381, R416) -/

/-- A drain: the others hear of it, the island enters state 4. -/
theorem drain_step (s : State) (cause : Nat) :
    (s.drain cause).island = { s.island with st := 4, cause := cause, drainTick := s.tick } ∧ Tells s 0 [] (s.drain cause) ∧
    Logs s [(0x0A, 0xFFFF, [4#8, BitVec.ofNat 8 s.island.st, BitVec.ofNat 8 cause, s.island.inc])] (s.drain cause) ∧
    (s.drain cause).replies = s.replies ∧ (s.drain cause).hosts = s.hosts ∧ (s.drain cause).mem = s.mem := by
  have ht := tells_tellAll s 0 []
  obtain ⟨_, _, _, _, e⟩ := tellAll_frame s 0 []
  have hd : s.drain cause = { (s.tellAll 0 []).enter 4 cause with
    island := { ((s.tellAll 0 []).enter 4 cause).island with drainTick := ((s.tellAll 0 []).enter 4 cause).tick } } := rfl
  rw [hd]
  rw [e] at ht ⊢
  exact ⟨rfl, ht.congr ⟨rfl, rfl, rfl, rfl, rfl⟩ rfl rfl rfl, ⟨rfl, rfl⟩, rfl, rfl, rfl⟩

theorem Tells.of_onlyReply {s t u : State} {code : Nat} {data : List Byte} (h : Tells s code data t) (hu : OnlyReply t u) : Tells s code data u := by
  obtain ⟨_, _, _, _, _, _, e⟩ := hu.frame
  exact h.congr ⟨rfl, rfl, rfl, rfl, rfl⟩ rfl (by rw [e]) (by rw [e])

theorem Tells.withIsland {s t : State} {code : Nat} {data : List Byte} (h : Tells s code data t) (i : Island) : Tells s code data { t with island := i } :=
  h.congr ⟨rfl, rfl, rfl, rfl, rfl⟩ rfl rfl rfl

theorem computeReset_step (c : Cmd) : Commands (.computeReset c) c 0x20 argNone (fun s => (if s.island.st = 3 then 0 else 1, [])) fun s t =>
    (s.island.st ≠ 3 → NoEffect c s t) ∧
    (s.island.st = 3 → t.island.st = 4 ∧ t.island.drainTick = s.tick ∧ Tells s 0 [] t ∧
      Logs s [(0x0A, 0xFFFF, [4#8, 3#8, 0#8, s.island.inc])] t) := by
  intro s
  by_cases h : s.island.st = 3
  · obtain ⟨hi, ht, hl, hr, hh, hm⟩ := drain_step s 0
    refine commandAt_done rfl (if_neg (not_not.2 h)) (by rw [if_pos h]) hr hh hm fun _ u hu => ⟨fun h' => absurd h h', fun _ => ?_⟩
    rw [hu.island, hi]
    rw [h] at hl
    exact ⟨rfl, rfl, (ht.withIsland _).of_onlyReply hu, (hl.withIsland _).of_onlyReply hu⟩
  · exact commandAt_refused rfl (if_pos h) (by rw [if_neg h]) fun u hu => ⟨fun _ => hu, fun h' => absurd h' h⟩

theorem ideKey_step (c : Cmd) (stream : Nat) (key : BitVec 256) : Commands (.ideKey c stream key) c 0x23
    (fun s x => isArg 0 4 stream x && rdBytes s.mem (hostBase + argNat x 8 8) 32 == leBytes 32 key.toNat)
    (fun _ => (if 2 ≤ stream then 3 else 0, [])) fun s t =>
      (2 ≤ stream → NoEffect c s t) ∧
      (stream < 2 → OnlyReply { s with island := { s.island with lastAccepted := c.seq, ideKeys := t.island.ideKeys } } t ∧
        (∀ k, (stream, k) ∈ t.island.ideKeys ↔ k = key) ∧ ∀ n k, n ≠ stream → ((n, k) ∈ t.island.ideKeys ↔ (n, k) ∈ s.island.ideKeys)) := by
  intro s
  by_cases h : 2 ≤ stream
  · exact commandAt_refused rfl (if_pos h) (by rw [if_pos h]) fun u hu => ⟨fun _ => hu, fun h' => absurd h (Nat.not_le.2 h')⟩
  · refine commandAt_done rfl (if_neg h) (by rw [if_neg h]) rfl rfl rfl fun _ u hu => ⟨fun h' => absurd h' h, fun _ => ?_⟩
    have hk : u.island.ideKeys = (stream, key) :: s.island.ideKeys.filter fun k => k.1 != stream := by rw [hu.island]
    rw [hk]
    refine ⟨hu, fun k => ?_, fun n k hn => ?_⟩
    · simp
    · simp [hn]

/-! ## Firmware (R15, R381) -/

theorem logs_fwStatus (s : State) (bank : Bool) (event version : Nat) : Logs s [(0x0E, 0xFFFF,
    [if bank then 1#8 else 0#8, BitVec.ofNat 8 event, 0#8, 0#8] ++ leBytes 4 version)] (s.fwStatus bank event version) := logs_emit ..

theorem imageOk_iff (i : Island) (x : FwImage) : (!imageOk x || decide (x.version < i.rollback)) = true ↔
    ¬ (Config.verify (leBytes 4 x.version ++ x.body) x.sig = true ∧ i.rollback ≤ x.version) := by
  rw [Bool.or_eq_true, Bool.not_eq_true', decide_eq_true_eq, not_and_or, Nat.not_le, Bool.not_eq_true]
  rfl

theorem fwUpdate_step (c : Cmd) (x : FwImage) : Commands (.fwUpdate c x) c 0x30
    (fun s a => decide (x.sig.length = 96) && s.namesBytes 0 (imageBytes x) a)
    (fun s => (if Config.verify (leBytes 4 x.version ++ x.body) x.sig = true ∧ s.island.rollback ≤ x.version then 0 else 8, [])) fun s t =>
      let ok := Config.verify (leBytes 4 x.version ++ x.body) x.sig = true ∧ s.island.rollback ≤ x.version
      let b := !s.island.bank
      let fw := fun (e : Byte) => Logs s [(0x0E, 0xFFFF, [if b then 1#8 else 0#8, e, 0#8, 0#8] ++ leBytes 4 x.version)] t
      (¬ ok → fw 4#8 ∧ t.island = { s.island with lastAccepted := c.seq }) ∧
      (ok → fw 0#8 ∧ t.island = { s.island with
        lastAccepted := c.seq, bankA := if b then s.island.bankA else { version := some x.version, image := imageBytes x }
        bankB := if b then { version := some x.version, image := imageBytes x } else s.island.bankB }) := by
  intro s
  have hrun : exec (.fwUpdate c x) s = .next (s.command c 0x30 (fun a => decide (x.sig.length = 96) && s.namesBytes 0 (imageBytes x) a)
      fun s => status (s.fwUpdate x).1 (s.fwUpdate x).2) := rfl
  by_cases ok : Config.verify (leBytes 4 x.version ++ x.body) x.sig = true ∧ s.island.rollback ≤ x.version
  · have he : s.fwUpdate x = (0, ({ s with island := s.island.setBank (!s.island.bank) { version := some x.version, image := imageBytes x } } : State).fwStatus
        (!s.island.bank) 0 x.version) := if_neg (fun h => (imageOk_iff s.island x).1 h ok)
    refine commandAt_done hrun (congrArg (fun r : Nat × State => status r.1 r.2) he) (by rw [if_pos ok]) rfl rfl rfl
      fun _ u hu => ⟨fun h' => absurd ok h', fun _ => ⟨?_, ?_⟩⟩
    · exact ((logs_fwStatus _ (!s.island.bank) 0 x.version).congr rfl rfl rfl).withIsland _ |>.of_onlyReply hu
    · rw [hu.island]
      cases s.island.bank <;> rfl
  · have he : s.fwUpdate x = (8, s.fwStatus (!s.island.bank) 4 x.version) := if_pos ((imageOk_iff s.island x).2 ok)
    refine commandAt_done hrun (congrArg (fun r : Nat × State => status r.1 r.2) he) (by rw [if_neg ok]) rfl rfl rfl
      fun _ u hu => ⟨fun _ => ⟨?_, hu.island⟩, fun h' => absurd h' ok⟩
    exact ((logs_fwStatus s (!s.island.bank) 4 x.version).withIsland _).of_onlyReply hu

theorem fwActivate_step (c : Cmd) : Commands (.fwActivate c) c 0x31 argNone
    (fun s => (match (if s.island.bank then s.island.bankA else s.island.bankB).version with
      | none => 1
      | some n => if n < s.island.rollback then 8 else 0, [])) fun s t =>
      let v := (if s.island.bank then s.island.bankA else s.island.bankB).version
      let fw := fun (e : Byte) n => Logs s [(0x0E, 0xFFFF, [if !s.island.bank then 1#8 else 0#8, e, 0#8, 0#8] ++ leBytes 4 n)] t
      (v = none → NoEffect c s t) ∧
      ∀ n, v = some n →
        (n < s.island.rollback → t.island = { s.island with lastAccepted := c.seq } ∧ fw 4#8 n) ∧
        (s.island.rollback ≤ n → t.island = { s.island with lastAccepted := c.seq, nextBank := !s.island.bank } ∧ fw 1#8 n) := by
  intro s
  -- the bank that does not run
  have hb : s.island.bankOf (!s.island.bank) = if s.island.bank then s.island.bankA else s.island.bankB := by
    unfold Island.bankOf
    cases s.island.bank <;> rfl
  cases hv : (if s.island.bank then s.island.bankA else s.island.bankB).version with
  | none =>
    refine commandAt_refused (n := 1) rfl (if_pos (by rw [hb, hv]; rfl)) (by rw [hv]) fun u hu => ?_
    dsimp only
    rw [hv]
    exact ⟨fun _ => hu, fun n h => (by cases h)⟩
  | some n =>
    have hn : s.island.version (!s.island.bank) = n := (congrArg (fun b : Bank => b.version.getD 0) hb).trans (by rw [hv]; rfl)
    by_cases h : n < s.island.rollback
    · refine commandAt_done (n := 8) (t := s.fwStatus (!s.island.bank) 4 n) rfl ?_ (by simp only [hv, if_pos h]) rfl rfl rfl fun _ u hu => ?_
      · rw [if_neg (by rw [hb, hv]; simp), hn, if_pos h]
      · dsimp only
        rw [hv]
        refine ⟨fun h => (by cases h), fun m hm => ?_⟩
        cases hm
        exact ⟨fun _ => ⟨hu.island, ((logs_fwStatus s (!s.island.bank) 4 n).withIsland _).of_onlyReply hu⟩, fun h' => absurd h (Nat.not_lt.2 h')⟩
    · refine commandAt_done (n := 0) (t := ({ s with island := { s.island with nextBank := !s.island.bank } } : State).fwStatus (!s.island.bank) 1 n)
        rfl ?_ (by simp only [hv, if_neg h]) rfl rfl rfl fun _ u hu => ?_
      · rw [if_neg (by rw [hb, hv]; simp), hn, if_neg h]
      · dsimp only
        rw [hv]
        refine ⟨fun h => (by cases h), fun m hm => ?_⟩
        cases hm
        exact ⟨fun h' => absurd h' h, fun _ => ⟨hu.island,
          (((logs_fwStatus _ (!s.island.bank) 1 n).congr rfl rfl rfl).withIsland _).of_onlyReply hu⟩⟩

theorem fwCommit_step (c : Cmd) : Commands (.fwCommit c) c 0x32 argNone (fun _ => (0, [])) fun s t =>
    let v := ((if s.island.bank then s.island.bankB else s.island.bankA).version).getD 0
    t.island = { s.island with lastAccepted := c.seq, rollback := max s.island.rollback v } ∧
    Logs s [(0x0E, 0xFFFF, [if s.island.bank then 1#8 else 0#8, 3#8, 0#8, 0#8] ++ leBytes 4 v)] t :=
  fun s => commandAt_done rfl rfl rfl rfl rfl rfl fun _ _ hu => ⟨hu.island,
    (((logs_fwStatus _ s.island.bank 3 _).congr rfl rfl rfl).withIsland _).of_onlyReply hu⟩

/-- A quadrant that passed its retest before its event, and the event's payload (R416). -/
def State.retested (s : State) (q : Nat) : State :=
  { s.setQuad q { s.quad q with lastPass := s.tick } with island := s.island.remark q false }
def State.retestBytes (s : State) (q : Nat) : List Byte := leBytes 6 s.tick ++ leBytes 6 (s.quad q).failTick ++ [BitVec.ofNat 8 q, 1#8, 0#8, 0#8]

theorem retestQuad_eq (s : State) (q : Nat) (pass : Bool) : s.retestQuad q pass =
    if 16 ≤ q ∨ s.island.quarantine.getLsbD q = false then (3, s)
    else if !pass then (1, s) else (0, (s.retested q).emit 0x0D 0xFFFF (s.retestBytes q)) := rfl

theorem logs_retest (s : State) (q : Nat) : Logs s [(0x0D, 0xFFFF, s.retestBytes q)] ((s.retested q).emit 0x0D 0xFFFF (s.retestBytes q)) :=
  (logs_emit (s.retested q) 0x0D 0xFFFF (s.retestBytes q)).congr rfl rfl rfl

theorem retest_step (c : Cmd) (q : Nat) (pass : Bool) : Commands (.retest c q pass) c 0x24 (arg4 q)
    (fun s => (if q < 16 ∧ s.island.quarantine.getLsbD q = true then (if pass then 0 else 1) else 3, [])) fun s t =>
      let ok := q < 16 ∧ s.island.quarantine.getLsbD q = true ∧ pass = true
      (¬ ok → NoEffect c s t) ∧
      (ok → (∀ n, t.island.quarantine.getLsbD n = (s.island.quarantine.getLsbD n && decide (n ≠ q))) ∧
        t.island.partVer = s.island.partVer + 1 ∧
        Logs s [(0x0D, 0xFFFF, leBytes 6 s.tick ++ leBytes 6 (s.quad q).failTick ++ [BitVec.ofNat 8 q, 1#8, 0#8, 0#8])] t) := by
  intro s
  have hrun : exec (.retest c q pass) s = .next (s.command c 0x24 (arg4 q s) fun s => status (s.retestQuad q pass).1 (s.retestQuad q pass).2) := rfl
  by_cases hq : q < 16 ∧ s.island.quarantine.getLsbD q = true
  · have hneg : ¬ (16 ≤ q ∨ s.island.quarantine.getLsbD q = false) := by
      rintro (h | h)
      · omega
      · rw [h] at hq; exact absurd hq.2 (by decide)
    cases pass with
    | false =>
      have he : s.retestQuad q false = (1, s) := if_neg hneg
      exact commandAt_refused hrun (congrArg (fun r : Nat × State => status r.1 r.2) he) (by rw [if_pos hq]; rfl)
        fun u hu => ⟨fun _ => hu, fun h => absurd h.2.2 (by decide)⟩
    | true =>
      have he : s.retestQuad q true = (0, (s.retested q).emit 0x0D 0xFFFF (s.retestBytes q)) := by
        rw [retestQuad_eq, if_neg hneg]
        rfl
      refine commandAt_done hrun (congrArg (fun r : Nat × State => status r.1 r.2) he) (by rw [if_pos hq]; rfl) rfl rfl rfl
        fun _ u hu => ⟨fun h => absurd ⟨hq.1, hq.2, rfl⟩ h, fun _ => ?_⟩
      rw [hu.island]
      refine ⟨fun n => (remark_quarantine s.island hq.1 false n).trans ?_, rfl, ((logs_retest s q).withIsland _).of_onlyReply hu⟩
      by_cases e : n = q <;> simp [e]
  · have hpos : 16 ≤ q ∨ s.island.quarantine.getLsbD q = false := (not_and_or.1 hq).imp Nat.not_lt.1 Bool.eq_false_of_not_eq_true
    have he : s.retestQuad q pass = (3, s) := if_pos hpos
    exact commandAt_refused hrun (congrArg (fun r : Nat × State => status r.1 r.2) he) (by rw [if_neg hq])
      fun u hu => ⟨fun _ => hu, fun h => absurd ⟨h.1, h.2.1⟩ hq⟩

/-! ## Opcodes without a command -/

theorem knownOpcode_iff (n : Nat) : knownOpcode n = true ↔
    n ∈ [0x01, 0x02, 0x04, 0x05, 0x10, 0x11, 0x12, 0x13, 0x14, 0x15, 0x20, 0x21, 0x22, 0x23, 0x24, 0x30, 0x31, 0x32] := by
  simp only [knownOpcode, Bool.or_eq_true, beq_iff_eq, decide_eq_true_eq, List.mem_cons, List.not_mem_nil, or_false]
  omega

theorem unsupportedCommand_step (c : Cmd) (opcode : Nat) :
    (¬ (opcode ∈ [0x01, 0x02, 0x04, 0x05, 0x10, 0x11, 0x12, 0x13, 0x14, 0x15, 0x20, 0x21, 0x22, 0x23, 0x24, 0x30, 0x31, 0x32]) →
      Commands (.unsupportedCommand c opcode) c opcode argNone (fun _ => (9, [])) (NoEffect c)) ∧
    (opcode ∈ [0x01, 0x02, 0x04, 0x05, 0x10, 0x11, 0x12, 0x13, 0x14, 0x15, 0x20, 0x21, 0x22, 0x23, 0x24, 0x30, 0x31, 0x32] →
      ∀ s, exec (.unsupportedCommand c opcode) s = .next s) := by
  rw [← knownOpcode_iff]
  refine ⟨fun h s => ?_, fun h s => congrArg Host.Outcome.next (if_pos h)⟩
  exact commandAt_refused (congrArg Host.Outcome.next (if_neg h)) rfl rfl fun _ hu => hu

/-! ## Attestation (R382) -/

/-- A host gets a reply of the mailbox, and nothing else happens. -/
def GetsSpdm (host : Nat) (s : State) (i : Instr) (r : Spdm) : Prop := ∃ t, exec i s = .next t ∧ t = { s with replies := t.replies } ∧
  (s.island.st = 0 ∨ 8 ≤ host → t = s) ∧
  (s.island.st ≠ 0 → host < 8 → (mget {} t.replies host : HostReply) = { (mget {} s.replies host : HostReply) with spdm := r } ∧
    ∀ h, h ≠ host → (mget {} t.replies h : HostReply) = mget {} s.replies h)

theorem getsSpdm_of {host : Nat} {s : State} {i : Instr} {r : Spdm} (hi : exec i s = .next (s.spdm host r)) : GetsSpdm host s i r := by
  refine ⟨_, hi, ?_, fun h => if_pos h, fun hst hh => ?_⟩
  · unfold State.spdm
    split <;> rfl
  · rw [State.spdm, if_neg (by omega)]
    exact ⟨mget_mset_self .., fun h hne => mget_mset_ne _ _ _ hne⟩

theorem certChain_eq : certChain = Config.certHead ++ leBytes 96 Config.identityKey.toNat ++ Config.certTail := rfl

/-- The bytes of the measurement of a part record, and of the running image. -/
theorem measured_record (s : State) : s.measured 3 = s.island.partNo ++ s.island.serial ++ leBytes 8 s.island.partVer ++ s.island.exposure ++
    leBytes 2 s.island.quarantine.toNat ++ List.replicate 26 0#8 ++ s.island.signature := rfl
theorem measured_image (s : State) : s.measured 1 = leBytes 4 (((if s.island.bank then s.island.bankB else s.island.bankA).version).getD 0) ++
    (if s.island.bank then s.island.bankB else s.island.bankA).image := rfl

theorem measurement_step (host n : Nat) (s : State) (h : 1 ≤ n ∧ n ≤ 5) : GetsSpdm host s (.getMeasurements host n)
    (.measurements n (s.measured n) (Config.sign (0x60#8 :: BitVec.ofNat 8 n :: s.measured n))) := by
  refine getsSpdm_of (congrArg Host.Outcome.next ?_)
  rw [if_pos h]

theorem attestation_steps (host : Nat) (s : State) :
    let chain := Config.certHead ++ leBytes 96 Config.identityKey.toNat ++ Config.certTail
    let gets := fun (i : Instr) (r : Spdm) => ∃ t, exec i s = .next t ∧ t = { s with replies := t.replies } ∧
      (s.island.st = 0 ∨ 8 ≤ host → t = s) ∧
      (s.island.st ≠ 0 → host < 8 → (mget {} t.replies host : HostReply) = { (mget {} s.replies host : HostReply) with spdm := r } ∧
        ∀ h, h ≠ host → (mget {} t.replies h : HostReply) = mget {} s.replies h)
    gets (.getVersion host) (.version 0x13) ∧ gets (.getCapabilities host) .capabilities ∧ gets (.getDigests host) (.digests 1 (Config.sha384 chain)) ∧
    (∀ a b : Bool, gets (.negotiateAlgorithms host a b) (if a = true ∧ b = true then .algorithms else .error 1)) ∧
    (∀ slot off len, gets (.getCertificate host slot off len) (if slot = 0
      then .certificate ((chain.drop off).take len) (chain.length - off - len) else .error 1)) ∧
    (∀ slot nonce, gets (.challenge host slot nonce) (if slot = 0 then .challengeAuth nonce (Config.sign (0x03#8 :: leBytes 32 nonce.toNat)) else .error 1)) ∧
    (∀ code, gets (.unsupportedSpdmRequest host code) (.error 7)) ∧
    (∀ n, n = 0 ∨ 5 < n → gets (.getMeasurements host n) (.error 1)) ∧
    (let measures := fun n bytes => gets (.getMeasurements host n) (.measurements n bytes (Config.sign (0x60#8 :: BitVec.ofNat 8 n :: bytes)))
     measures 1 (leBytes 4 (((if s.island.bank then s.island.bankB else s.island.bankA).version).getD 0) ++
       (if s.island.bank then s.island.bankB else s.island.bankA).image) ∧
     measures 3 (s.island.partNo ++ s.island.serial ++ leBytes 8 s.island.partVer ++ s.island.exposure ++ leBytes 2 s.island.quarantine.toNat ++
       List.replicate 26 0#8 ++ s.island.signature) ∧
     measures 5 (leBytes 4 s.island.rollback)) := by
  intro chain gets
  have of {i : Instr} {r : Spdm} (hi : exec i s = .next (s.spdm host r)) : gets i r := getsSpdm_of hi
  refine ⟨of rfl, of rfl, of rfl, fun a b => of ?_, fun slot off len => of rfl, fun slot nonce => of rfl, fun code => of rfl,
    fun n hn => of (congrArg Host.Outcome.next ?_), ?_, ?_, ?_⟩
  · cases a <;> cases b <;> rfl
  · rw [if_neg (by omega)]
  · rw [← measured_image]
    exact measurement_step host 1 s (by decide)
  · rw [← measured_record]
    exact measurement_step host 3 s (by decide)
  · exact measurement_step host 5 s (by decide)

/-! ## CTX_STOP and CTX_RESUME (R96) -/

theorem residents_contains (s : State) (n : Nat) : s.residents.contains n = true ↔
    ∃ x ∈ s.blocks, x.2.live = true ∧ x.2.core.isSome = true ∧ x.2.ctx = n := by
  simp [State.residents, and_assoc]

/-- A context that becomes defined is resident where a block of it is. -/
theorem ctxResume_stopped {s : State} {n : Nat} (h : (s.ctx n).state = .stopped) :
    s.ctxResume n = (0, (s.setCtx n { s.ctx n with state := .defined }).reside n) := by
  rw [State.ctxResume, if_neg (by rw [h]; decide)]

theorem reside_defined (s : State) (n : Nat) (c : Ctx) (h : c.state = .defined) :
    ((s.setCtx n c).reside n) = if s.residents.contains n = true then (s.setCtx n c).setCtx n { c with state := .resident } else s.setCtx n c := by
  have hr : (s.setCtx n c).residents = s.residents := rfl
  simp only [State.reside, ctx_setCtx, hr, h]
  cases s.residents.contains n <;> rfl

theorem ctxResume_step (c : Cmd) (n : Nat) : Commands (.ctxResume c n) c 0x12 (arg4 n)
    (fun s => (if 4096 ≤ n then 3 else if (s.ctx n).state = .stopped then 0 else 1, [])) fun s t =>
      let ok := n < 4096 ∧ (s.ctx n).state = .stopped
      let here := ∃ x ∈ s.blocks, x.2.live = true ∧ x.2.core.isSome = true ∧ x.2.ctx = n
      (¬ ok → NoEffect c s t) ∧
      (ok → (here → (t.ctx n).state = .resident) ∧ (¬ here → (t.ctx n).state = .defined) ∧ t.blocks = s.blocks) := by
  intro s
  have hrun : exec (.ctxResume c n) s = .next (s.command c 0x12 (isArg 0 4 n) fun s =>
      if 4096 ≤ n then status 3 s else status (s.ctxResume n).1 (s.ctxResume n).2) := rfl
  by_cases hn : 4096 ≤ n
  · exact commandAt_refused hrun (if_pos hn) (by rw [if_pos hn]) fun u hu => ⟨fun _ => hu, fun h => absurd hn (Nat.not_le.2 h.1)⟩
  by_cases hs : (s.ctx n).state = .stopped
  · have hr : (if 4096 ≤ n then status 3 s else status (s.ctxResume n).1 (s.ctxResume n).2) =
        status 0 ((s.setCtx n { s.ctx n with state := .defined }).reside n) := by rw [if_neg hn, ctxResume_stopped hs]
    rw [reside_defined s n _ rfl] at hr
    refine commandAt_done hrun hr (by rw [if_neg hn, if_pos hs]) ?_ ?_ ?_ fun _ u hu => ⟨fun h => absurd ⟨Nat.not_le.1 hn, hs⟩ h, fun _ => ?_⟩
    any_goals split <;> rfl
    rw [← residents_contains, hu.ctx, hu.blocks]
    refine ⟨fun h => ?_, fun h => ?_, ?_⟩
    · rw [if_pos h, ctx_setCtx]
    · rw [if_neg h, ctx_setCtx]
    · split <;> rfl
  · have he : s.ctxResume n = (1, s) := if_pos (by simpa using hs)
    exact commandAt_refused hrun (by rw [if_neg hn, he]) (by rw [if_neg hn, if_neg hs]) fun u hu => ⟨fun _ => hu, fun h => absurd h.2 hs⟩

/-- A fold whose steps keep a property and each establish what they should, and keep what is established. -/
theorem foldl_marks {α ι : Type} (P : State → Prop) (Q : State → ι → Prop) (f : State → α → State) (need : α → ι → Prop)
    (h : ∀ t, P t → ∀ x, P (f t x) ∧ (∀ i, need x i → Q (f t x) i) ∧ ∀ i, Q t i → Q (f t x) i) (l : List α) :
    ∀ t, P t → P (l.foldl f t) ∧ (∀ x ∈ l, ∀ i, need x i → Q (l.foldl f t) i) ∧ ∀ i, Q t i → Q (l.foldl f t) i := by
  induction l with
  | nil => exact fun t ht => ⟨ht, fun x hx => (by cases hx), fun _ h => h⟩
  | cons x l ih =>
    intro t ht
    obtain ⟨hp, hq, hk⟩ := h t ht x
    obtain ⟨hp', hq', hk'⟩ := ih _ hp
    refine ⟨hp', fun y hy i hi => ?_, fun i hi => hk' i (hk i hi)⟩
    cases hy with
    | head => exact hk' i (hq i hi)
    | tail _ hy => exact hq' y hy i hi

/-- An entry of a map stays when another key is set. -/
theorem mem_mset_ne {α : Type} [DecidableEq α] (d : α) {m : SMap α} {j k : Nat} {v w : α} (hm : (j, w) ∈ m) (h : j ≠ k) :
    (j, w) ∈ mset d m k v := by
  have hdel : (j, w) ∈ mdel m k := by
    induction m with
    | nil => cases hm
    | cons x m ih =>
      obtain ⟨a, u⟩ := x
      unfold mdel
      cases hm with
      | head => rw [if_neg h]; exact List.mem_cons_self ..
      | tail _ hm =>
        split
        · exact ih hm
        · exact List.mem_cons_of_mem _ (ih hm)
  have hins : ∀ {m : SMap α}, (j, w) ∈ m → (j, w) ∈ mins m k v := by
    intro m hm
    induction m with
    | nil => cases hm
    | cons x m ih =>
      obtain ⟨a, u⟩ := x
      unfold mins
      split
      · exact List.mem_cons_of_mem _ hm
      · cases hm with
        | head => exact List.mem_cons_self ..
        | tail _ hm => exact List.mem_cons_of_mem _ (ih hm)
  unfold mset
  split
  · exact hdel
  · exact hins hdel

/-- A block marked for eviction, as the block stood; a block that is not yet marked. -/
def Marked (s t : State) (v : Nat) : Prop := t.blk v = { s.blk v with evicting := (s.blk v).core.isSome }
def Unmarked (s t : State) (v : Nat) : Prop := t.blk v = s.blk v ∧ ∀ b, (v, b) ∈ s.blocks → (v, b) ∈ t.blocks

/-- Blocks have been marked for eviction, and nothing else has happened. -/
structure Evicting (s t : State) : Prop where
  frame : t = { s with blocks := t.blocks }
  each  : ∀ v, Marked s t v ∨ Unmarked s t v

theorem Evicting.refl (s : State) : Evicting s s := ⟨rfl, fun _ => .inr ⟨rfl, fun _ h => h⟩⟩

/-- The mark of one block. -/
def State.mark (t : State) (v : Nat) : State := t.setBlk v { t.blk v with evicting := (t.blk v).core.isSome }

theorem evicting_mark {s t : State} (h : Evicting s t) (v : Nat) :
    Evicting s (t.mark v) ∧ (∀ w, v = w → Marked s (t.mark v) w) ∧ ∀ w, Marked s t w → Marked s (t.mark v) w := by
  obtain ⟨frame, each⟩ := h
  have here : Marked s (t.mark v) v := by
    rw [Marked, State.mark, blk_setBlk]
    obtain e | ⟨e, -⟩ := each v <;> rw [e]
  have there (w : Nat) (hw : w ≠ v) : (t.mark v).blk w = t.blk w := blk_setBlk_ne _ _ hw
  refine ⟨⟨?_, fun w => ?_⟩, fun w e => e ▸ here, fun w hw => ?_⟩
  · conv_lhs => rw [State.mark, frame]
    rw [State.mark, frame]
    rfl
  · by_cases e : w = v
    · exact .inl (e ▸ here)
    · obtain hm | ⟨hk, hb⟩ := each w
      · exact .inl ((there w e).trans hm)
      · exact .inr ⟨(there w e).trans hk, fun b hm => mem_mset_ne _ (hb b hm) e⟩
  · by_cases e : w = v
    · exact e ▸ here
    · exact (there w e).trans hw

theorem evicting_team {s t : State} (h : Evicting s t) (u : Nat) : (t.blk u).team = (s.blk u).team := by
  obtain e | ⟨e, -⟩ := h.each u <;> rw [e]

theorem evicting_markEvict {s t : State} (h : Evicting s t) (u : Nat) :
    Evicting s (t.markEvict u) ∧ (∀ v, v ∈ s.mates u → Marked s (t.markEvict u) v) ∧ ∀ w, Marked s t w → Marked s (t.markEvict u) w := by
  obtain ⟨hp, hq, hk⟩ := foldl_marks (Evicting s) (Marked s) State.mark (fun v w => v = w) (fun t ht v => evicting_mark ht v) (t.mates u) t h
  refine ⟨hp, fun v hv => ?_, hk⟩
  obtain hm | ⟨-, hb⟩ := h.each v
  · exact hk v hm
  · refine hq v ?_ v rfl
    obtain ⟨⟨w, b⟩, hmem, rfl⟩ := List.mem_map.1 hv
    obtain ⟨hin, hlive⟩ := List.mem_filter.1 hmem
    exact List.mem_map.2 ⟨(w, b), List.mem_filter.2 ⟨hb b hin, by rw [evicting_team h]; exact hlive⟩, rfl⟩

/-- The blocks of a context that are on cores. -/
def State.onCores (s : State) (n : Nat) : List Nat := (s.blocks.filter fun b => b.2.live && b.2.core.isSome && b.2.ctx == n).map (·.1)

theorem mem_onCores {s : State} {n : Nat} {x : Nat × Block} (hx : x ∈ s.blocks) (hl : x.2.live = true) (hc : x.2.core.isSome = true)
    (hn : x.2.ctx = n) : x.1 ∈ s.onCores n :=
  List.mem_map.2 ⟨x, List.mem_filter.2 ⟨hx, by simp [hl, hc, hn]⟩, rfl⟩

theorem ctxStop_step (c : Cmd) (n : Nat) : Commands (.ctxStop c n) c 0x11 (arg4 n)
    (fun s => (if 4096 ≤ n then 3 else if (s.ctx n).state = .defined ∨ (s.ctx n).state = .resident then 0 else 1, [])) fun s t =>
      let ok := n < 4096 ∧ ((s.ctx n).state = .defined ∨ (s.ctx n).state = .resident)
      (¬ ok → NoEffect c s t) ∧
      (ok → (t.ctx n).state = .stopped ∧ ∀ x ∈ s.blocks, x.2.live = true → x.2.core.isSome = true → x.2.ctx = n → ∀ v ∈ s.mates x.1,
        (t.blk v).evicting = (s.blk v).core.isSome) := by
  intro s
  have hrun : exec (.ctxStop c n) s = .next (s.command c 0x11 (isArg 0 4 n) fun s =>
      if 4096 ≤ n then status 3 s else status (s.ctxStop n).1 (s.ctxStop n).2) := rfl
  by_cases hn : 4096 ≤ n
  · exact commandAt_refused hrun (if_pos hn) (by rw [if_pos hn]) fun u hu => ⟨fun _ => hu, fun h => absurd hn (Nat.not_le.2 h.1)⟩
  have cond : ((s.ctx n).state != .defined && (s.ctx n).state != .resident) = true ↔
      ¬ ((s.ctx n).state = .defined ∨ (s.ctx n).state = .resident) := by simp
  by_cases hs : (s.ctx n).state = .defined ∨ (s.ctx n).state = .resident
  · have he : s.ctxStop n = (0, (s.onCores n).foldl State.markEvict (s.setCtx n { s.ctx n with state := .stopped })) :=
      if_neg fun h => cond.1 h hs
    have hst : (s.setCtx n { s.ctx n with state := .stopped }).ctx n = { s.ctx n with state := .stopped } := ctx_setCtx ..
    have hmates (u : Nat) : (s.setCtx n { s.ctx n with state := .stopped }).mates u = s.mates u := rfl
    have hblk (u : Nat) : (s.setCtx n { s.ctx n with state := .stopped }).blk u = s.blk u := rfl
    have keeps : (s.setCtx n { s.ctx n with state := .stopped }).replies = s.replies ∧ (s.setCtx n { s.ctx n with state := .stopped }).hosts = s.hosts ∧
        (s.setCtx n { s.ctx n with state := .stopped }).mem = s.mem := ⟨rfl, rfl, rfl⟩
    generalize s.setCtx n { s.ctx n with state := .stopped } = s' at he hst hmates hblk keeps
    obtain ⟨hr, hh, hm⟩ := keeps
    obtain ⟨⟨frame, -⟩, marked, -⟩ := foldl_marks (Evicting s') (Marked s') State.markEvict (fun u v => v ∈ s'.mates u)
      (fun t ht u => evicting_markEvict ht u) (s.onCores n) s' (.refl s')
    refine commandAt_done (n := 0) hrun (by rw [if_neg hn, he]) (by rw [if_neg hn, if_pos hs]) (by rw [frame, hr]) (by rw [frame, hh])
      (by rw [frame, hm]) fun _ u hu => ⟨fun h => absurd ⟨Nat.not_le.1 hn, hs⟩ h, fun _ => ⟨?_, fun x hx hl hc hxn v hv => ?_⟩⟩
    · rw [hu.ctx, frame]
      exact congrArg Ctx.state hst
    · rw [hu.blk, marked x.1 (mem_onCores hx hl hc hxn) v (by rw [hmates]; exact hv), hblk]
  · have he : s.ctxStop n = (1, s) := if_pos (cond.2 hs)
    exact commandAt_refused hrun (by rw [if_neg hn, he]) (by rw [if_neg hn, if_neg hs]) fun u hu => ⟨fun _ => hu, fun h => absurd h.2 hs⟩

/-! ## CTX_KILL (R96, R97) -/

/-- Replies, host memory and windows, held records, kernels, and each context's state and owed records stay. -/
structure Calm (s t : State) : Prop where
  replies : t.replies = s.replies
  hosts   : t.hosts = s.hosts
  mem     : t.mem = s.mem
  held    : t.held = s.held
  kernels : t.kernels = s.kernels
  ctx     : ∀ n, (t.ctx n).state = (s.ctx n).state ∧ (t.ctx n).owed = (s.ctx n).owed

theorem Calm.refl (s : State) : Calm s s := ⟨rfl, rfl, rfl, rfl, rfl, fun _ => ⟨rfl, rfl⟩⟩

theorem Calm.trans {s t u : State} (h : Calm s t) (h' : Calm t u) : Calm s u := by
  obtain ⟨hr, hh, hm, hd, hk, hc⟩ := h
  obtain ⟨hr', hh', hm', hd', hk', hc'⟩ := h'
  exact ⟨hr'.trans hr, hh'.trans hh, hm'.trans hm, hd'.trans hd, hk'.trans hk, fun n => ⟨(hc' n).1.trans (hc n).1, (hc' n).2.trans (hc n).2⟩⟩

theorem Calm.foldl {α : Type} {f : State → α → State} (h : ∀ s x, Calm s (f s x)) (l : List α) (s : State) : Calm s (l.foldl f s) := by
  induction l generalizing s with
  | nil => exact .refl s
  | cons x l ih => exact (h s x).trans (ih _)

theorem Calm.ite {s t u : State} {p : Prop} [Decidable p] (ht : Calm s t) (hu : Calm s u) : Calm s (if p then t else u) := by
  split
  · exact ht
  · exact hu

/-- Contexts stay where nothing else of these changes. -/
theorem Calm.of_ctxs {s t : State} (hr : t.replies = s.replies) (hh : t.hosts = s.hosts) (hm : t.mem = s.mem) (hd : t.held = s.held)
    (hk : t.kernels = s.kernels) (hc : t.ctxs = s.ctxs) : Calm s t :=
  ⟨hr, hh, hm, hd, hk, fun n => by simp only [State.ctx, hc, and_self]⟩

theorem calm_setBlk (s : State) (u : Nat) (b : Block) : Calm s (s.setBlk u b) := .of_ctxs rfl rfl rfl rfl rfl rfl

theorem calm_endGroup (s : State) (u g : Nat) : Calm s (s.endGroup u g false) := .of_ctxs rfl rfl rfl rfl rfl rfl

theorem calm_accNext (s : State) (core : Nat) : Calm s (s.accNext core) := by
  unfold State.accNext
  dsimp only
  split
  · exact .refl s
  · split
    · exact .refl s
    · exact Calm.ite (.refl s) (calm_setBlk ..)

theorem calm_freeBlock (s : State) (u : Nat) : Calm s (s.freeBlock u) := (calm_setBlk s u _).trans (calm_accNext ..)

theorem calm_stickHere (s : State) (e : Entry) (reason : Nat) : Calm s (s.stickHere e reason) := by
  unfold State.stickHere
  split
  · exact Calm.ite (.of_ctxs rfl rfl rfl rfl rfl rfl) (.refl s)
  · exact .refl s

theorem calm_emit (s : State) (kind ctx : Nat) (p : List Byte) : Calm s (s.emit kind ctx p) := .of_ctxs rfl rfl rfl rfl rfl rfl

theorem calm_routineGone (s : State) (u : Nat) : Calm s (s.routineGone u) := by
  unfold State.routineGone
  dsimp only
  split
  · exact .refl s
  · split
    · exact calm_setBlk ..
    · refine Calm.trans (Calm.trans ?_ (calm_stickHere ..)) (calm_emit ..)
      exact .of_ctxs rfl rfl rfl rfl rfl rfl

theorem calm_tellAll (s : State) (code : Nat) (data : List Byte) : Calm s (s.tellAll code data) := by
  obtain ⟨_, _, _, _, e⟩ := tellAll_frame s code data
  rw [e]
  exact .of_ctxs rfl rfl rfl rfl rfl rfl

theorem calm_pinGone (s : State) (stamp : Nat) : Calm s (s.pinGone stamp) :=
  Calm.trans (t := s.endStalls stamp) (.of_ctxs rfl rfl rfl rfl rfl rfl) (calm_tellAll ..)

/-- A context set with its state and owed records as they were. -/
theorem calm_setCtx (s : State) (n : Nat) (c : Ctx) (hs : c.state = (s.ctx n).state) (ho : c.owed = (s.ctx n).owed) : Calm s (s.setCtx n c) := by
  refine ⟨rfl, rfl, rfl, rfl, rfl, fun k => ?_⟩
  rw [ctx_setCtx_if]
  split
  · next e => exact e ▸ ⟨hs, ho⟩
  · exact ⟨rfl, rfl⟩

theorem calm_actUnpin (s : State) (a : Activity) : Calm s (s.actUnpin a) := by
  unfold State.actUnpin
  split
  · refine Calm.trans ?_ (calm_pinGone ..)
    exact calm_setCtx s a.ctx _ rfl rfl
  · exact .refl s

theorem calm_actTry (s : State) (n h : Nat) : Calm s (s.actTry n h) := by
  unfold State.actTry
  split
  · exact .refl s
  · next a _ =>
    refine Calm.ite ?_ (.refl s)
    have ended (t : State) : Calm t (t.actEnd a) := calm_emit ..
    have closed (t : State) (f : Nat) (v : List Entry) : Calm t { t with fresh := f, vesper := v } := .of_ctxs rfl rfl rfl rfl rfl rfl
    refine Calm.trans (Calm.trans (Calm.trans ?_ (calm_actUnpin ..)) (ended _)) (closed ..)
    exact .of_ctxs rfl rfl rfl rfl rfl rfl

theorem calm_abandon (s : State) (a : Activity) : Calm s (s.abandon a) := by
  unfold State.abandon
  refine Calm.ite (Calm.trans (t := s.setAct _) (.of_ctxs rfl rfl rfl rfl rfl rfl) (calm_actTry ..)) (.refl s)

/-- A kernel that a kill has reached. -/
def Killed (t : State) (k : Nat) : Prop := (t.kernel k).state = .killing ∧ (t.kernel k).status = 2

/-- The kill of a kernel that runs: it is killing, with status 2. -/
theorem killKernel_running (s : State) (k : Nat) (h : (s.kernel k).state = .running ∨ (s.kernel k).state = .ending) :
    Calm (s.setKernel k { s.kernel k with state := .killing, status := 2, teamsLeft := 0, killTick := s.tick }) (s.killKernel k 2) := by
  have hc : ((s.kernel k).state != .running && (s.kernel k).state != .ending) = false := by
    obtain h | h := h <;> rw [h] <;> rfl
  unfold State.killKernel
  simp only [hc, Bool.false_eq_true, if_false]
  refine (Calm.foldl (fun s u => ?_) _ _).trans ((Calm.foldl (fun s u => ?_) _ _).trans (.of_ctxs rfl rfl rfl rfl rfl rfl))
  · exact Calm.foldl (fun s g => Calm.ite (calm_endGroup ..) (.refl s)) _ s
  · exact (calm_routineGone ..).trans (calm_freeBlock ..)

/-- Of another, at most a status of the same tick changes. -/
theorem killKernel_idle (s : State) (k : Nat) (h : ¬ ((s.kernel k).state = .running ∨ (s.kernel k).state = .ending)) :
    s.killKernel k 2 = s ∨ (s.kernel k).state = .killing ∧ s.killKernel k 2 = s.setKernel k { s.kernel k with status := 2 } := by
  have hc : ((s.kernel k).state != .running && (s.kernel k).state != .ending) = true := by
    obtain ⟨h1, h2⟩ := not_or.1 h
    simp [h1, h2]
  unfold State.killKernel
  simp only [hc, if_true]
  split
  · next hk =>
    simp only [Bool.and_eq_true, beq_iff_eq] at hk
    exact .inr ⟨hk.1.1, rfl⟩
  · exact .inl rfl

/-- What a kill leaves, the kernels apart. -/
structure CalmButKernels (s t : State) : Prop where
  replies : t.replies = s.replies
  hosts   : t.hosts = s.hosts
  mem     : t.mem = s.mem
  held    : t.held = s.held
  ctx     : ∀ n, (t.ctx n).state = (s.ctx n).state ∧ (t.ctx n).owed = (s.ctx n).owed

theorem CalmButKernels.trans {s t u : State} (h : CalmButKernels s t) (h' : CalmButKernels t u) : CalmButKernels s u := by
  obtain ⟨hr, hh, hm, hd, hc⟩ := h
  obtain ⟨hr', hh', hm', hd', hc'⟩ := h'
  exact ⟨hr'.trans hr, hh'.trans hh, hm'.trans hm, hd'.trans hd, fun n => ⟨(hc' n).1.trans (hc n).1, (hc' n).2.trans (hc n).2⟩⟩

theorem Calm.butKernels {s t : State} (h : Calm s t) : CalmButKernels s t := ⟨h.replies, h.hosts, h.mem, h.held, h.ctx⟩

theorem calm_setKernel (s : State) (k : Nat) (K : Kernel) : CalmButKernels s (s.setKernel k K) := ⟨rfl, rfl, rfl, rfl, fun _ => ⟨rfl, rfl⟩⟩

theorem kernel_setKernel_ne (s : State) {k j : Nat} (K : Kernel) (h : j ≠ k) : (s.setKernel k K).kernel j = s.kernel j := mget_mset_ne _ _ _ h

theorem Calm.kernel {s t : State} (h : Calm s t) (k : Nat) : t.kernel k = s.kernel k := by rw [State.kernel, h.kernels]; rfl

/-- Kills of kernels so far: each is killed, or as it was. -/
structure Killing (s t : State) : Prop where
  calm : CalmButKernels s t
  each : ∀ k, Killed t k ∨ t.kernel k = s.kernel k

theorem killing_killKernel {s t : State} (h : Killing s t) (k : Nat) : Killing s (t.killKernel k 2) ∧
    (∀ j, k = j ∧ ((s.kernel j).state = .running ∨ (s.kernel j).state = .ending) → Killed (t.killKernel k 2) j) ∧
    ∀ j, Killed t j → Killed (t.killKernel k 2) j := by
  obtain ⟨calm, each⟩ := h
  by_cases hrun : (t.kernel k).state = .running ∨ (t.kernel k).state = .ending
  · have hc := killKernel_running t k hrun
    have here : Killed (t.killKernel k 2) k := by
      rw [Killed, hc.kernel, kernel_setKernel]
      exact ⟨rfl, rfl⟩
    have there (j : Nat) (hj : j ≠ k) : (t.killKernel k 2).kernel j = t.kernel j := (hc.kernel j).trans (kernel_setKernel_ne _ _ hj)
    refine ⟨⟨calm.trans ((calm_setKernel ..).trans hc.butKernels), fun j => ?_⟩, fun j hj => hj.1 ▸ here, fun j hj => ?_⟩
    · by_cases e : j = k
      · exact .inl (e ▸ here)
      · rw [Killed, there j e]
        exact each j
    · by_cases e : j = k
      · exact e ▸ here
      · rw [Killed, there j e]
        exact hj
  · -- a kernel that was to be killed has been
    have done : (s.kernel k).state = .running ∨ (s.kernel k).state = .ending → Killed t k := fun hk => by
      obtain h | h := each k
      · exact h
      · exact absurd (h ▸ hk) hrun
    obtain e | ⟨hk, e⟩ := killKernel_idle t k hrun <;> rw [e]
    · exact ⟨⟨calm, each⟩, fun j hj => hj.1 ▸ done (hj.1 ▸ hj.2), fun _ h => h⟩
    · have here : Killed (t.setKernel k { t.kernel k with status := 2 }) k := by
        rw [Killed, kernel_setKernel]
        exact ⟨hk, rfl⟩
      have there (j : Nat) (hj : j ≠ k) := kernel_setKernel_ne t { t.kernel k with status := 2 } hj
      refine ⟨⟨calm.trans (calm_setKernel ..), fun j => ?_⟩, fun j hj => hj.1 ▸ here, fun j hj => ?_⟩
      · by_cases e : j = k
        · exact .inl (e ▸ here)
        · rw [Killed, there j e]
          exact each j
      · by_cases e : j = k
        · exact e ▸ here
        · rw [Killed, there j e]
          exact hj

/-- A value of a map that is not its default stands in it. -/
theorem mem_of_mget_ne {α : Type} {d : α} {m : SMap α} {k : Nat} (h : mget d m k ≠ d) : (k, mget d m k) ∈ m := by
  induction m with
  | nil => exact absurd rfl h
  | cons x m ih =>
    obtain ⟨a, v⟩ := x
    simp only [mget] at h ⊢
    split
    · next e => rw [e]; exact List.mem_cons_self ..
    · next e =>
      rw [if_neg e] at h
      exact List.mem_cons_of_mem _ (ih h)

/-- A queue that holds no record. -/
def State.queueEmpty (s : State) (h : Nat) : Prop := (s.queue h).tail = (s.queue h).head ∧ (s.queue h).popped = 0

/-- The kill of a queue without records stops it. -/
theorem killQueue_empty {s : State} (n : Nat) {h : Nat} (he : s.queueEmpty h) :
    (∃ m, s.killQueue n h = { s with queues := m }) ∧ ∀ k, s.queueEmpty k → (s.killQueue n h).queueEmpty k := by
  obtain ⟨ht, hp⟩ := he
  have hk : s.killQueue n h = if (s.queue h).st == .idle then s else
      s.setQueue h { s.queue h with st := .stopped, head := (s.queue h).tail, resume := [], popped := 0, since := none, reserved := none } := by
    have h0 : ((s.queue h).tail - (s.queue h).head).toNat = 0 := by rw [ht, BitVec.sub_self]; rfl
    rw [State.killQueue, hp, if_neg (Nat.lt_irrefl 0)]
    simp only [h0]
    rfl
  rw [hk]
  split
  · exact ⟨⟨_, rfl⟩, fun k hk => hk⟩
  · refine ⟨⟨_, rfl⟩, fun k hk => ?_⟩
    by_cases e : k = h
    · subst e
      rw [State.queueEmpty, queue_setQueue]
      exact ⟨rfl, rfl⟩
    · rw [State.queueEmpty, queue_setQueue_ne _ _ e]
      exact hk

theorem killQueues_empty (n : Nat) (hs : List Nat) (s : State) (he : ∀ h ∈ hs, s.queueEmpty h) :
    ∃ m, hs.foldl (fun s h => s.killQueue n h) s = { s with queues := m } := by
  induction hs generalizing s with
  | nil => exact ⟨_, rfl⟩
  | cons h hs ih =>
    obtain ⟨⟨m, e⟩, hk⟩ := killQueue_empty n (he h (List.mem_cons_self ..))
    obtain ⟨m', e'⟩ := ih (s.killQueue n h) fun k hm => hk k (he k (List.mem_cons_of_mem _ hm))
    exact ⟨m', by rw [List.foldl_cons, e', e]⟩

/-- The kill of a context in its stages: its queues, its kernels, its held records and activities, and the records it owes. -/
def State.killMarked (s : State) (n : Nat) : State := s.setCtx n { s.ctx n with state := .killing, stopping := false }
def State.killQueues (s : State) (n : Nat) : State := ((List.range 16).filterMap fun i => s.queueOf n i).foldl (fun s h => s.killQueue n h) s
def State.killKernels (s : State) (ks : List Nat) : State := ks.foldl (fun s k => s.killKernel k 2) s
def State.killHeld (s : State) (n : Nat) : State := { s with held := s.held.filter fun h => h.ctx != n }
def State.killActs (s : State) (n : Nat) : State := s.acts.foldl (fun s a => if a.ctx == n && a.st == .opened then s.abandon a else s) s

/-- The kernels of a context. -/
def State.kernelsOf (s : State) (n : Nat) : List Nat := (s.kernels.filter fun k => k.2.ctx == n).map (·.1)

theorem kill_eq (s : State) (n : Nat) : s.kill n =
    let t := ((((s.killMarked n).killQueues n).killKernels (s.kernelsOf n)).killHeld n).killActs n
    t.writeOwed n (t.ctx n).owed := rfl

/-- A kernel of a context that runs is one of its kernels. -/
theorem mem_kernelsOf {s : State} {n k : Nat} (hn : (s.kernel k).ctx = n) (h : (s.kernel k).state = .running ∨ (s.kernel k).state = .ending) :
    k ∈ s.kernelsOf n := by
  have hne : s.kernel k ≠ {} := by
    intro e
    rw [e] at h
    obtain h | h := h <;> cases h
  exact List.mem_map.2 ⟨(k, s.kernel k), List.mem_filter.2 ⟨mem_of_mget_ne hne, by simpa using hn⟩, rfl⟩

/-- The kill of a context's kernels: each that runs is killed. -/
theorem killKernels_kills (s : State) (ks : List Nat) : CalmButKernels s (s.killKernels ks) ∧
    ∀ k ∈ ks, (s.kernel k).state = .running ∨ (s.kernel k).state = .ending → Killed (s.killKernels ks) k := by
  obtain ⟨⟨calm, -⟩, killed, -⟩ := foldl_marks (Killing s) Killed (fun s k => s.killKernel k 2)
    (fun k j => k = j ∧ ((s.kernel j).state = .running ∨ (s.kernel j).state = .ending)) (fun t ht k => killing_killKernel ht k) ks s
    ⟨⟨rfl, rfl, rfl, rfl, fun _ => ⟨rfl, rfl⟩⟩, fun _ => .inr rfl⟩
  exact ⟨calm, fun k hk hr => killed k hk k ⟨rfl, hr⟩⟩

theorem calm_killActs (s : State) (n : Nat) : Calm s (s.killActs n) := Calm.foldl (fun t _ => Calm.ite (calm_abandon ..) (.refl t)) s.acts s

/-- What is killed, but for its queues: kernels, held records, activities. -/
theorem killRest_kills (s : State) (n : Nat) (ks : List Nat) : let t := ((s.killKernels ks).killHeld n).killActs n
    t.replies = s.replies ∧ t.hosts = s.hosts ∧ t.mem = s.mem ∧ (t.ctx n).state = (s.ctx n).state ∧ (t.ctx n).owed = (s.ctx n).owed ∧
    (∀ h ∈ t.held, h.ctx ≠ n) ∧ ∀ k ∈ ks, (s.kernel k).state = .running ∨ (s.kernel k).state = .ending → Killed t k := by
  intro t
  obtain ⟨⟨hr, hh, hm, hd, hc⟩, killed⟩ := killKernels_kills s ks
  obtain ⟨hr', hh', hm', hd', hk', hc'⟩ := calm_killActs ((s.killKernels ks).killHeld n) n
  refine ⟨hr'.trans hr, hh'.trans hh, hm'.trans hm, (hc' n).1.trans (hc n).1, (hc' n).2.trans (hc n).2, fun h hm => ?_, fun k hk hrun => ?_⟩
  · rw [show t.held = _ from hd'] at hm
    have := (List.mem_filter.1 hm).2
    simpa using this
  · have := killed k hk hrun
    rw [Killed, State.kernel] at this ⊢
    rw [hk']
    exact this

/-- The kill of a context whose queues hold no record, and that owes none. -/
theorem kill_empty (s : State) (n : Nat) (hq : ∀ i h, i < 16 → s.queueOf n i = some h → s.queueEmpty h) (ho : (s.ctx n).owed = []) :
    (s.kill n).replies = s.replies ∧ (s.kill n).hosts = s.hosts ∧ (s.kill n).mem = s.mem ∧ ((s.kill n).ctx n).state = .killing ∧
    (∀ h ∈ (s.kill n).held, h.ctx ≠ n) ∧
    ∀ k, (s.kernel k).ctx = n → (s.kernel k).state = .running ∨ (s.kernel k).state = .ending → Killed (s.kill n) k := by
  have hmark : (s.killMarked n).ctx n = { s.ctx n with state := .killing, stopping := false } := ctx_setCtx ..
  obtain ⟨m, hm⟩ := killQueues_empty n ((List.range 16).filterMap fun i => (s.killMarked n).queueOf n i) (s.killMarked n) (by
    intro h hh
    obtain ⟨i, hi, e⟩ := List.mem_filterMap.1 hh
    refine hq i h (List.mem_range.1 hi) ?_
    rw [State.queueOf, hmark] at e
    exact e)
  have hqueues : (s.killMarked n).killQueues n = { s.killMarked n with queues := m } := hm
  obtain ⟨hr, hh, hmem, hst, howed, hheld, hkilled⟩ := killRest_kills ((s.killMarked n).killQueues n) n (s.kernelsOf n)
  have howes : ((((((s.killMarked n).killQueues n).killKernels (s.kernelsOf n)).killHeld n).killActs n).ctx n).owed = [] := by
    rw [howed, hqueues]
    exact (congrArg Ctx.owed hmark).trans ho
  have hkill : s.kill n = ((((s.killMarked n).killQueues n).killKernels (s.kernelsOf n)).killHeld n).killActs n := by
    rw [kill_eq]
    dsimp only
    rw [howes]
    rfl
  rw [hkill]
  rw [hqueues] at hr hh hmem hst hkilled ⊢
  exact ⟨hr, hh, hmem, hst.trans (congrArg Ctx.state hmark), hqueues ▸ hheld, fun k hn hk => hkilled k (mem_kernelsOf hn hk) hk⟩

theorem ctxKill_alive {s : State} {n : Nat} (h : ¬ ((s.ctx n).state = .free ∨ (s.ctx n).state = .killing)) : s.ctxKill n = (0, s.kill n) := by
  unfold State.ctxKill
  split
  · rfl
  · rfl
  · rfl
  · next h1 h2 h3 => cases e : (s.ctx n).state <;> simp_all

theorem ctxKill_dead {s : State} {n : Nat} (h : (s.ctx n).state = .free ∨ (s.ctx n).state = .killing) : s.ctxKill n = (1, s) := by
  unfold State.ctxKill
  obtain h | h := h <;> rw [h]

theorem ctxKill_step (c : Cmd) (n : Nat) (s : State)
    (hq : ∀ i h, i < 16 → s.queueOf n i = some h → (s.queue h).tail = (s.queue h).head ∧ (s.queue h).popped = 0)
    (ho : (s.ctx n).owed = []) : CommandAt s (.ctxKill c n) c 0x13 (arg4 n)
      (fun s => (if 4096 ≤ n then 3 else if (s.ctx n).state = .free ∨ (s.ctx n).state = .killing then 1 else 0, [])) fun s t =>
      let no := 4096 ≤ n ∨ (s.ctx n).state = .free ∨ (s.ctx n).state = .killing
      (no → NoEffect c s t) ∧
      (¬ no → (t.ctx n).state = .killing ∧ (∀ h ∈ t.held, h.ctx ≠ n) ∧
        ∀ k, Rising s.kernels → (s.kernel k).ctx = n → (s.kernel k).state = .running ∨ (s.kernel k).state = .ending →
          (t.kernel k).state = .killing ∧ (t.kernel k).status = 2) := by
  have hrun : exec (.ctxKill c n) s = .next (s.command c 0x13 (isArg 0 4 n) fun s =>
      if 4096 ≤ n then status 3 s else status (s.ctxKill n).1 (s.ctxKill n).2) := rfl
  by_cases hn : 4096 ≤ n
  · exact commandAt_refused hrun (if_pos hn) (by rw [if_pos hn]) fun u hu => ⟨fun _ => hu, fun h => absurd (.inl hn) h⟩
  by_cases hs : (s.ctx n).state = .free ∨ (s.ctx n).state = .killing
  · exact commandAt_refused hrun (by rw [if_neg hn, ctxKill_dead hs]) (by rw [if_neg hn, if_pos hs])
      fun u hu => ⟨fun _ => hu, fun h => absurd (.inr hs) h⟩
  · obtain ⟨hr, hh, hm, hst, hheld, hkilled⟩ := kill_empty s n hq ho
    refine commandAt_done hrun (by rw [if_neg hn, ctxKill_alive hs]) (by rw [if_neg hn, if_neg hs]) hr hh hm
      fun _ u hu => ⟨fun h => absurd h (not_or.2 ⟨hn, hs⟩), fun _ => ⟨?_, ?_, fun k _ hk hrun => ?_⟩⟩
    · rw [hu.ctx, hst]
    · obtain ⟨_, _, _, _, _, _, e⟩ := hu.frame
      rw [e]
      exact hheld
    · have := hkilled k hk hrun
      rw [Killed] at this
      rw [hu.kernel]
      exact this

/-! ## CTX_DESTROY (R96, R377) -/

/-- Pins that go: stalls end, and the other members hear of it. -/
theorem pinsGone_frame (l : List (Nat × Pin)) (s : State) : ∃ g f r o e, l.foldl (fun s p => s.pinGone p.2.stamp) s =
    { s with rings := g, fresh := f, retained := r, out := o, e2eOut := e } := by
  induction l generalizing s with
  | nil => exact ⟨_, _, _, _, _, rfl⟩
  | cons p l ih =>
    obtain ⟨f, r, o, e, h⟩ := tellAll_frame (s.endStalls p.2.stamp) 5 (leBytes 8 p.2.stamp)
    obtain ⟨g', f', r', o', e', h'⟩ := ih (s.pinGone p.2.stamp)
    exact ⟨g', f', r', o', e', by rw [List.foldl_cons, h', State.pinGone, h]; rfl⟩

/-- What a destroyed context leaves: nothing of its own, and the rest as it was. -/
theorem dropCtx_drops (s : State) (n : Nat) : let t := s.dropCtx n
    t.replies = s.replies ∧ t.hosts = s.hosts ∧ t.mem = s.mem ∧ t.lines = s.lines ∧ t.ctxs = mset {} s.ctxs n {} ∧
    t.blocks = s.blocks.filter (fun b => b.2.ctx != n) ∧ t.kernels = s.kernels.filter (fun k => k.2.ctx != n) ∧
    t.teams = s.teams.filter (fun x => x.2.ctx != n) ∧ t.queues = s.queues.filter (fun q => q.2.bound != some n) ∧
    t.acts = s.acts.filter (fun a => a.ctx != n) ∧ t.vesper = s.vesper.filter (fun e => e.ctx != n) ∧
    t.tlb = s.tlb.filter (fun x => x.ctx != n) ∧ t.pend = s.pend.filter (fun p => p.ctx != n) := by
  obtain ⟨_, _, _, _, _, e⟩ := pinsGone_frame ((s.ctx n).pins.filter fun p => p.2.used && !p.2.broken) s
  unfold State.dropCtx
  rw [e]
  exact ⟨rfl, rfl, rfl, rfl, rfl, rfl, rfl, rfl, rfl, rfl, rfl, rfl, rfl⟩

/-- What passes a filter has its property. -/
theorem forall_mem_filter_ne {α β : Type} [BEq β] [LawfulBEq β] (f : α → β) (b : β) (l : List α) : ∀ x ∈ l.filter (fun x => f x != b), f x ≠ b :=
  fun x hx => by simpa using (List.mem_filter.1 hx).2

theorem ctxDestroy_eq (s : State) (n : Nat) : s.ctxDestroy n =
    if n = 0 ∨ 4096 ≤ n then (3, s) else if (s.ctx n).state = .defined ∨ (s.ctx n).state = .stopped then (0, s.dropCtx n) else (1, s) := by
  unfold State.ctxDestroy
  cases (s.ctx n).state <;> rfl

theorem ctxDestroy_step (c : Cmd) (n : Nat) : Commands (.ctxDestroy c n) c 0x14 (arg4 n)
    (fun s => (if n = 0 ∨ 4096 ≤ n then 3 else if (s.ctx n).state = .defined ∨ (s.ctx n).state = .stopped then 0 else 1, [])) fun s t =>
      let ok := n ≠ 0 ∧ n < 4096 ∧ ((s.ctx n).state = .defined ∨ (s.ctx n).state = .stopped)
      (¬ ok → NoEffect c s t) ∧
      (ok → t.ctx n = {} ∧ (∀ k, k ≠ n → t.ctx k = s.ctx k) ∧ (∀ x ∈ t.blocks, x.2.ctx ≠ n) ∧ (∀ x ∈ t.kernels, x.2.ctx ≠ n) ∧
        (∀ x ∈ t.teams, x.2.ctx ≠ n) ∧ (∀ x ∈ t.queues, x.2.bound ≠ some n) ∧ (∀ x ∈ t.acts, x.ctx ≠ n) ∧ (∀ x ∈ t.vesper, x.ctx ≠ n) ∧
        (∀ x ∈ t.tlb, x.ctx ≠ n) ∧ (∀ x ∈ t.pend, x.ctx ≠ n) ∧ t.lines = s.lines) := by
  intro s
  have hrun : exec (.ctxDestroy c n) s = .next (s.command c 0x14 (isArg 0 4 n) fun s => status (s.ctxDestroy n).1 (s.ctxDestroy n).2) := rfl
  by_cases hn : n = 0 ∨ 4096 ≤ n
  · exact commandAt_refused (n := 3) hrun (by rw [ctxDestroy_eq, if_pos hn]) (by rw [if_pos hn])
      fun u hu => ⟨fun _ => hu, fun h => absurd hn (by omega)⟩
  by_cases hs : (s.ctx n).state = .defined ∨ (s.ctx n).state = .stopped
  · have hd : s.ctxDestroy n = (0, s.dropCtx n) := by rw [ctxDestroy_eq, if_neg hn, if_pos hs]
    obtain ⟨hr, hh, hm, hl, hc, hb, hk, ht, hq, ha, hv, htl, hp⟩ := dropCtx_drops s n
    refine commandAt_done (n := 0) hrun (by rw [hd]) (by rw [if_neg hn, if_pos hs]) hr hh hm
      fun _ u hu => ⟨fun h => absurd ⟨by omega, by omega, hs⟩ h, fun _ => ?_⟩
    obtain ⟨_, _, _, _, _, _, e⟩ := hu.frame
    have hctx (k : Nat) : u.ctx k = mget {} (mset {} s.ctxs n {}) k := by rw [hu.ctx, State.ctx, hc]
    rw [hctx, mget_mset_self]
    refine ⟨rfl, fun k hk => ?_, ?_⟩
    · rw [hctx, mget_mset_ne _ _ _ hk]
      rfl
    · rw [e]
      dsimp only
      rw [hb, hk, ht, hq, ha, hv, htl, hp, hl]
      exact ⟨forall_mem_filter_ne (fun x : Nat × Block => x.2.ctx) n _, forall_mem_filter_ne (fun x : Nat × Kernel => x.2.ctx) n _,
        forall_mem_filter_ne (fun x : Nat × Team => x.2.ctx) n _, forall_mem_filter_ne (fun x : Nat × HwQueue => x.2.bound) (some n) _,
        forall_mem_filter_ne Activity.ctx n _, forall_mem_filter_ne Entry.ctx n _, forall_mem_filter_ne Tlb.ctx n _,
        forall_mem_filter_ne Pend.ctx n _, rfl⟩
  · exact commandAt_refused (n := 1) hrun (by rw [ctxDestroy_eq, if_neg hn, if_neg hs]) (by rw [if_neg hn, if_neg hs])
      fun u hu => ⟨fun _ => hu, fun h => absurd h.2.2 hs⟩

/-! ## TLB_INVAL (R320) -/

theorem tlbOp_bad (va : DWord) (op zero : Word) : (tlbOp va.toNat op zero).bad = true ↔
    3 < op.toNat / 2 ^ 12 % 8 ∨ op.toNat / 2 ^ 15 ≠ 0 ∨ zero ≠ 0#32 ∨ (op.toNat / 2 ^ 12 % 8 ≠ 0 ∧ va ≠ 0#64) ∨
      (op.toNat / 2 ^ 12 % 8 = 3 ∧ op.toNat % 2 ^ 12 ≠ 0) := by
  have hk : field op.toNat 12 3 = op.toNat / 2 ^ 12 % 8 := rfl
  have hz : field op.toNat 15 17 = op.toNat / 2 ^ 15 := by
    have := op.isLt
    simp only [field]
    omega
  have hva : va.toNat ≠ 0 ↔ va ≠ 0#64 := not_congr (BitVec.toNat_inj (x := va) (y := 0#64))
  simp only [tlbOp, field_zero, hk, hz, Bool.or_eq_true, Bool.and_eq_true, decide_eq_true_eq, bne_iff_ne, beq_iff_eq, or_assoc, hva]

theorem tlbOp_ctx (va : DWord) (op zero : Word) : (tlbOp va.toNat op zero).ctx = op.toNat % 2 ^ 12 := field_zero ..
theorem tlbOp_kind (va : DWord) (op zero : Word) : (tlbOp va.toNat op zero).kind = op.toNat / 2 ^ 12 % 8 := rfl

theorem tlbNoCtx_iff (s : State) (o : TlbOp) : s.tlbNoCtx o = true ↔
    o.kind ≠ 3 ∧ ((s.ctx o.ctx).state = .free ∨ (s.ctx o.ctx).state = .killing) := by
  rw [State.tlbNoCtx, Bool.and_eq_true, bne_iff_ne]
  refine and_congr Iff.rfl ?_
  cases (s.ctx o.ctx).state <;> decide

/-- The translations that an operation of a kind up to 3 drops. -/
theorem tlbOp_drops (o : TlbOp) (hk : o.kind ≤ 3) (e : Tlb) : o.drops e = true ↔
    (o.kind = 0 ∧ e.ctx = o.ctx ∧ e.base ≤ o.va ∧ o.va < e.base + 2 ^ e.bits) ∨
      (o.kind = 1 ∧ e.ctx = o.ctx ∧ bitOf e.leaf 9 = false) ∨ (o.kind = 2 ∧ e.ctx = o.ctx) ∨ o.kind = 3 := by
  obtain ⟨va, ctx, kind, bad⟩ := o
  have h : kind = 0 ∨ kind = 1 ∨ kind = 2 ∨ kind = 3 := by
    dsimp only at hk
    omega
  obtain rfl | rfl | rfl | rfl := h <;> simp [TlbOp.drops]

/-- An operation spans an engine's translation where it drops all, or all of its context. -/
theorem tlbOp_spans (o : TlbOp) (n : Nat) (x : Xlat) (h : o.kind = 3 ∨ (o.kind = 2 ∧ n = o.ctx)) : o.spans n x = true := by
  obtain h | ⟨h, rfl⟩ := h
  · simp only [TlbOp.spans, h]
  · simp only [TlbOp.spans, h, beq_self_eq_true]

/-- A change of every memo by which entries only go keeps what all of them have. -/
theorem MemoAll.memoMap {P : Memo → Prop} {s : State} (h : MemoAll P s) {f : Nat → List Memo → List Memo} (hf : ∀ n ms, ∀ m ∈ f n ms, m ∈ ms) :
    MemoAll P (s.memoMap f) := by
  intro c hc q hq m hm
  obtain ⟨c', hc', rfl⟩ := List.mem_map.1 hc
  obtain ⟨q', hq', rfl⟩ := List.mem_map.1 hq
  exact h c' hc' q' hq' m (hf _ _ m hm)

theorem MemoAll.storeHost {P : Memo → Prop} {s : State} (h : MemoAll P s) (off : Nat) (bs : List Byte) : MemoAll P (s.storeHost off bs none 0) := by
  intro c hc q hq
  obtain ⟨c', hc', rfl⟩ := List.mem_map.1 hc
  exact MemoAll.memoMap (s := s) h (fun _ ms m hm => (List.mem_filter.1 hm).1) c' hc' q hq

theorem MemoAll.hostPut {P : Memo → Prop} {s : State} (h : MemoAll P s) (off : Nat) (bs : List Byte) : MemoAll P (s.hostPut off bs) := by
  unfold State.hostPut
  generalize splitLines off (bs.length + 1) bs = l
  induction l generalizing s with
  | nil => exact h
  | cons x l ih => exact ih (h.storeHost x.1 x.2)

theorem MemoAll.congr {P : Memo → Prop} {s t : State} (h : MemoAll P s) (e : t.cores = s.cores) : MemoAll P t := by
  rw [MemoAll, e]
  exact h

theorem MemoAll.accepted {P : Memo → Prop} {t : State} (h : MemoAll P t) (c : Cmd) (r : Nat × List Byte) : MemoAll P (t.accepted c r) := by
  have hr : MemoAll P (State.replying { t with island := { t.island with lastAccepted := c.seq } } c.host r.1 r.2) := h.congr rfl
  rw [State.accepted, State.reply_eq]
  exact hr.hostPut _ _

/-- After a drop no load's entry of what was dropped is left in a memo. -/
theorem tlbDrop_memo (s : State) (o : TlbOp) : MemoAll (fun m => m.load = true → o.kind ≠ 3 ∧ m.ctx ≠ o.ctx) (s.tlbDrop o) := by
  refine memoAll_memoMap (P := fun m => m.load = true → o.kind ≠ 3 ∧ m.ctx ≠ o.ctx) { s with tlb := s.tlb.filter fun t => !o.drops t }
    (f := fun _ ms => ms.filter fun m => !(m.load && (o.kind == 3 || m.ctx == o.ctx))) fun n ms m hm hl => ?_
  have := (List.mem_filter.1 hm).2
  rw [hl, Bool.true_and, Bool.not_eq_true', Bool.or_eq_false_iff, beq_eq_false_iff_ne, beq_eq_false_iff_ne] at this
  exact this

theorem mem_tlbDrop_tlb (s : State) (o : TlbOp) (e : Tlb) : e ∈ (s.tlbDrop o).tlb ↔ e ∈ s.tlb ∧ ¬ o.drops e = true := by
  change e ∈ s.tlb.filter (fun t => !o.drops t) ↔ _
  rw [List.mem_filter, Bool.not_eq_true', Bool.not_eq_true]

/-- No access of a dropped translation is outstanding. -/
theorem tlbWaits_nil (s : State) (o : TlbOp) (hp : ∀ p ∈ s.pend, p.access = true → p.bm = false → p.phys.isSome = true → p.done = true)
    (he : s.engOpen = []) : s.tlbWaits o = [] := by
  rw [State.tlbWaits, he, List.filter_nil, List.map_nil, List.append_nil, List.map_eq_nil_iff, List.filter_eq_nil_iff]
  intro p hm
  have := hp p hm
  simp only [TlbOp.covers, Bool.and_eq_true, Bool.not_eq_true', not_and, and_imp]
  intro ha hb hph hd
  rw [this ha hb hph] at hd
  cases hd

theorem tlbWaits_ne_nil (s : State) (o : TlbOp) (h : ∃ x ∈ s.engOpen, o.kind = 3 ∨ (o.kind = 2 ∧ x.2.2.1 = o.ctx)) : s.tlbWaits o ≠ [] := by
  obtain ⟨x, hx, hk⟩ := h
  refine List.ne_nil_of_mem (a := (x.1, x.2.1)) (List.mem_append_right _ (List.mem_map.2 ⟨x, List.mem_filter.2 ⟨hx, ?_⟩, rfl⟩))
  exact tlbOp_spans o x.2.2.1 x.2.2.2 hk

/-- What a TLB_INVAL makes of the machine: it is refused, it ends at once, or it waits. -/
theorem tlbInval_eq (s : State) (c : Cmd) (va : DWord) (op zero : Word) : s.tlbInval c va op zero =
    if s.island.st ≠ 3 then (some 1, s)
    else if (tlbOp va.toNat op zero).bad = true then (some 3, s)
    else if s.tlbNoCtx (tlbOp va.toNat op zero) = true then (some 1, s)
    else if s.tlbWaits (tlbOp va.toNat op zero) = [] then (some 0, (s.tlbDrop (tlbOp va.toNat op zero)).tlbFresh (tlbOp va.toNat op zero))
    else (none, { s.tlbDrop (tlbOp va.toNat op zero) with tlbCmd := some ⟨c, va, op, s.tlbWaits (tlbOp va.toNat op zero)⟩ }) := by
  simp only [State.tlbInval, List.isEmpty_iff]

/-- A drop leaves replies, hosts, memory, the island, and the command under way. -/
theorem tlbDrop_frame (s : State) (o : TlbOp) : ∃ l k b, s.tlbDrop o = { s with tlb := l, cores := k, blocks := b } := ⟨_, _, _, rfl⟩

/-- What an accepted command shows of the translations and the command under way. -/
theorem accepted_tlb (t : State) (c : Cmd) (r : Nat × List Byte) : (t.accepted c r).tlb = t.tlb ∧ (t.accepted c r).tlbCmd = t.tlbCmd ∧
    (t.accepted c r).island.lastAccepted = c.seq := by
  obtain ⟨_, _, _, _, _, _, e⟩ := accepted_frame t c r
  rw [e]
  exact ⟨rfl, rfl, rfl⟩

theorem tlbFresh_frame (s : State) (o : TlbOp) : ∃ p, s.tlbFresh o = { s with pend := p } := ⟨_, rfl⟩

/-- A TLB_INVAL that ends at once. -/
theorem tlbInval_ends (s : State) (c : Cmd) (o : TlbOp) (ht : s.tlbCmd = none) : let t := ((s.tlbDrop o).tlbFresh o).accepted c (0, [])
    (∀ e, e ∈ t.tlb ↔ e ∈ s.tlb ∧ ¬ o.drops e = true) ∧ MemoAll (fun m => m.load = true → o.kind ≠ 3 ∧ m.ctx ≠ o.ctx) t ∧
    Replied s c.host 0 [] t ∧ t.island.lastAccepted = c.seq ∧ t.tlbCmd = none := by
  intro t
  obtain ⟨tlb, cmd, acc⟩ := accepted_tlb ((s.tlbDrop o).tlbFresh o) c (0, [])
  refine ⟨fun e => ?_, MemoAll.accepted (t := (s.tlbDrop o).tlbFresh o) ((tlbDrop_memo s o).congr rfl) c (0, []),
    replied_accepted c (0, []) rfl rfl rfl, acc, cmd.trans ht⟩
  rw [show t.tlb = _ from tlb]
  exact mem_tlbDrop_tlb s o e

theorem tlbInval_step (c : Cmd) (va : DWord) (op zero : Word) (s : State)
    (hc : NextCommand s c 0x15 (fun x => isArg 0 8 va.toNat x && isArg 8 4 op.toNat x && isArg 12 4 zero.toNat x)) :
    let n := op.toNat % 2 ^ 12
    let kind := op.toNat / 2 ^ 12 % 8
    let bad := 3 < kind ∨ op.toNat / 2 ^ 15 ≠ 0 ∨ zero ≠ 0#32 ∨ (kind ≠ 0 ∧ va ≠ 0#64) ∨ (kind = 3 ∧ n ≠ 0)
    let noCtx := kind ≠ 3 ∧ ((s.ctx n).state = .free ∨ (s.ctx n).state = .killing)
    let drops := fun (e : Tlb) => (kind = 0 ∧ e.ctx = n ∧ e.base ≤ va.toNat ∧ va.toNat < e.base + 2 ^ e.bits) ∨
      (kind = 1 ∧ e.ctx = n ∧ bitOf e.leaf 9 = false) ∨ (kind = 2 ∧ e.ctx = n) ∨ kind = 3
    ∃ t, exec (.tlbInval c va op zero) s = .next t ∧
      (s.island.st ≠ 3 → Replied s c.host 1 [] t ∧ NoEffect c s t) ∧
      (s.island.st = 3 → bad → Replied s c.host 3 [] t ∧ NoEffect c s t) ∧
      (s.island.st = 3 → ¬ bad → noCtx → Replied s c.host 1 [] t ∧ NoEffect c s t) ∧
      (s.island.st = 3 → ¬ bad → ¬ noCtx → (∀ e, e ∈ t.tlb ↔ e ∈ s.tlb ∧ ¬ drops e) ∧
        (∀ k ∈ t.cores, ∀ q ∈ k.2.quarters, ∀ m ∈ q.2.memo, m.load = true → kind ≠ 3 ∧ m.ctx ≠ n) ∧
        ((∀ p ∈ s.pend, p.access = true → p.bm = false → p.phys.isSome = true → p.done = true) → s.engOpen = [] →
          Replied s c.host 0 [] t ∧ t.island.lastAccepted = c.seq ∧ t.tlbCmd = none) ∧
        ((∃ x ∈ s.engOpen, kind = 3 ∨ (kind = 2 ∧ x.2.2.1 = n)) → t.tlbCmd.isSome = true ∧ t.replies = s.replies ∧ t.island = s.island)) := by
  intro n kind bad noCtx drops
  have hnone : s.tlbCmd = none := hc.2.2.2.2.2.1
  have hrun : exec (.tlbInval c va op zero) s = .next (match (s.tlbInval c va op zero).1 with
      | none => (s.tlbInval c va op zero).2
      | some r => (s.tlbInval c va op zero).2.accepted c (r, [])) := by
    change Host.Outcome.next (match s.tlbCmd with | some x => _ | none => _) = _
    rw [hnone]
    dsimp only
    rw [command_next hc]
    cases (s.tlbInval c va op zero).1 <;> rfl
  have hbad : (tlbOp va.toNat op zero).bad = true ↔ bad := tlbOp_bad va op zero
  have hctx : s.tlbNoCtx (tlbOp va.toNat op zero) = true ↔ noCtx := by rw [tlbNoCtx_iff, tlbOp_ctx]; rfl
  refine ⟨_, hrun, fun h3 => ?_, fun h3 hb => ?_, fun h3 hb hx => ?_, fun h3 hb hx => ?_⟩
  all_goals rw [tlbInval_eq]
  · rw [if_pos h3]
    exact refused_accepted s c 1
  · rw [if_neg (not_not.2 h3), if_pos (hbad.2 hb)]
    exact refused_accepted s c 3
  · rw [if_neg (not_not.2 h3), if_neg (mt hbad.1 hb), if_pos (hctx.2 hx)]
    exact refused_accepted s c 1
  · rw [if_neg (not_not.2 h3), if_neg (mt hbad.1 hb), if_neg (mt hctx.1 hx)]
    have hle : (tlbOp va.toNat op zero).kind ≤ 3 := Nat.not_lt.1 fun h => hb (.inl h)
    have hdrops (e : Tlb) : (tlbOp va.toNat op zero).drops e = true ↔ drops e := by
      rw [tlbOp_drops _ hle, tlbOp_ctx, tlbOp_kind]
      rfl
    have hspan (x : Nat × Nat × Nat × Xlat) : kind = 3 ∨ (kind = 2 ∧ x.2.2.1 = n) ↔
        (tlbOp va.toNat op zero).kind = 3 ∨ ((tlbOp va.toNat op zero).kind = 2 ∧ x.2.2.1 = (tlbOp va.toNat op zero).ctx) := by
      rw [tlbOp_ctx]
      rfl
    simp only [← hdrops, hspan]
    rw [show n = (tlbOp va.toNat op zero).ctx from (tlbOp_ctx ..).symm]
    by_cases hw : s.tlbWaits (tlbOp va.toNat op zero) = []
    · rw [if_pos hw]
      obtain ⟨tlb, memo, replied, acc, cmd⟩ := tlbInval_ends s c (tlbOp va.toNat op zero) hnone
      exact ⟨tlb, memo, fun _ _ => ⟨replied, acc, cmd⟩, fun h => absurd hw (tlbWaits_ne_nil s _ h)⟩
    · rw [if_neg hw]
      exact ⟨mem_tlbDrop_tlb s _, (tlbDrop_memo s _).congr rfl, fun hp he => absurd (tlbWaits_nil s _ hp he) hw, fun _ => ⟨rfl, rfl, rfl⟩⟩

/-- A TLB_INVAL under way ends once no access it waits for is outstanding. -/
theorem tlbInval_underWay (c : Cmd) (va : DWord) (op zero : Word) (s : State) (x : TlbCmd) (hx : s.tlbCmd = some x) :
    ∃ t, exec (.tlbInval c va op zero) s = .next t ∧
    (x.cmd ≠ c ∨ s.tlbOpen x.waits = true → t = s) ∧
    (x.cmd = c → s.tlbOpen x.waits = false → t.tlbCmd = none ∧ Replied s c.host 0 [] t ∧ t.island.lastAccepted = c.seq) := by
  have hrun : exec (.tlbInval c va op zero) s = .next (if x.cmd = c then s.tlbFinish x else s) := by
    change Host.Outcome.next (match s.tlbCmd with | some x => _ | none => _) = _
    rw [hx]
  refine ⟨_, hrun, ?_, fun hc ho => ?_⟩
  · rintro (h | h)
    · exact if_neg h
    · rw [State.tlbFinish, if_pos h, ite_self]
  · have hf : s.tlbFinish x = (({ s with tlbCmd := none } : State).tlbFresh (tlbOp x.va.toNat x.op 0#32)).accepted x.cmd (0, []) := by
      rw [State.tlbFinish, if_neg (by rw [ho]; decide)]
      rfl
    rw [if_pos hc, hf, hc]
    obtain ⟨-, cmd, acc⟩ := accepted_tlb (({ s with tlbCmd := none } : State).tlbFresh (tlbOp x.va.toNat x.op 0#32)) c (0, [])
    exact ⟨cmd, replied_accepted c (0, []) rfl rfl rfl, acc⟩

/-! ## Boot (R371) -/

/-- The machine as a boot begins, before its events: registers of hosts and of the owner cleared, ports in training, the island in state 1. -/
def State.booted (s : State) (cause : Nat) : State :=
  { s with
    hosts := [], replies := [], maps := s.island.service.maps.map (fun x => (x.1, { active := some x.2 })), hres := s.island.service.hres
    logNext := 1, serSeq := 0, serLast := 0, serBase := 0#64, serSize := 0, hretain := BitVec.ofNat 32 (2 ^ 30), seriesk := 16#32
    retrain := 50000000#32, tlbCmd := none, retained := [], rx := []
    ports := (List.range 16).foldl (fun m n => mset {} m n ({ down := false, training := some s.tick, downAt := s.tick, losses := (s.port n).losses } : Port)) []
    island := { s.island with
      unverified := false, owner := none, heartbeat := 0, hbPeriod := 100, hmemctx := 0#32, lastAccepted := 0#32, claims := [], ideKeys := []
      bank := s.island.nextBank, bootTick := s.tick, boots := s.island.boots + 1, st := 1, cause := cause } }

/-- The event of the change of state, and of an owner that is lost. -/
theorem bootStart_eq (s : State) (cause : Nat) : s.bootStart cause =
    let t := (s.booted cause).emit 0x0A 0xFFFF [1#8, BitVec.ofNat 8 s.island.st, BitVec.ofNat 8 cause, s.island.inc]
    match s.island.owner with
    | some h => t.emit 0x0C 0xFFFF [0xFF#8, BitVec.ofNat 8 h, 3#8]
    | none => t := rfl

/-- Events change the log alone. -/
def OnlyLogged (s t : State) : Prop := ∃ l w n g c, t = { s with log := l, logNew := w, logNext := n, logged := g, logChain := c }

theorem OnlyLogged.refl (s : State) : OnlyLogged s s := ⟨_, _, _, _, _, rfl⟩

theorem OnlyLogged.trans {s t u : State} (h : OnlyLogged s t) (h' : OnlyLogged t u) : OnlyLogged s u := by
  obtain ⟨_, _, _, _, _, rfl⟩ := h
  obtain ⟨_, _, _, _, _, rfl⟩ := h'
  exact ⟨_, _, _, _, _, rfl⟩

theorem onlyLogged_emit (s : State) (kind ctx : Nat) (p : List Byte) : OnlyLogged s (s.emit kind ctx p) := ⟨_, _, _, _, _, rfl⟩

theorem onlyLogged_foldl_emit (kind : Nat) (p : List Byte) (cs : List Nat) (s : State) :
    OnlyLogged s (cs.foldl (fun s c => s.emit kind c p) s) := by
  induction cs generalizing s with
  | nil => exact .refl s
  | cons c cs ih => exact (onlyLogged_emit s kind c p).trans (ih _)

theorem onlyLogged_bootStart (s : State) (cause : Nat) : OnlyLogged (s.booted cause) (s.bootStart cause) := by
  rw [bootStart_eq]
  dsimp only
  cases s.island.owner with
  | none => exact onlyLogged_emit ..
  | some h => exact (onlyLogged_emit ..).trans (onlyLogged_emit ..)

/-- The events of a boot, the first under number 1. -/
theorem logs_bootStart (s : State) (cause : Nat) : Logs { s with logNext := 1 }
    ((0x0A, 0xFFFF, [1#8, BitVec.ofNat 8 s.island.st, BitVec.ofNat 8 cause, s.island.inc]) ::
      s.island.owner.toList.map fun h => (0x0C, 0xFFFF, [0xFF#8, BitVec.ofNat 8 h, 3#8])) (s.bootStart cause) := by
  have h1 : Logs { s with logNext := 1 } [(0x0A, 0xFFFF, [1#8, BitVec.ofNat 8 s.island.st, BitVec.ofNat 8 cause, s.island.inc])]
      ((s.booted cause).emit 0x0A 0xFFFF [1#8, BitVec.ofNat 8 s.island.st, BitVec.ofNat 8 cause, s.island.inc]) :=
    (logs_emit (s.booted cause) 0x0A 0xFFFF _).congr rfl rfl rfl
  rw [bootStart_eq]
  dsimp only
  cases s.island.owner with
  | none => exact h1
  | some h => exact h1.trans (logs_emit ..) rfl

/-! ## What a reset makes of the machine (R371) -/

/-- What the ports send at once changes ports, wires, counters and free values. -/
def OnlySent (s t : State) : Prop := ∃ p f w u, t = { s with ports := p, fresh := f, wire := w, units := u }

theorem OnlySent.refl (s : State) : OnlySent s s := ⟨_, _, _, _, rfl⟩

theorem OnlySent.trans {s t u : State} (h : OnlySent s t) (h' : OnlySent t u) : OnlySent s u := by
  obtain ⟨_, _, _, _, rfl⟩ := h
  obtain ⟨_, _, _, _, rfl⟩ := h'
  exact ⟨_, _, _, _, rfl⟩

theorem onlySent_enqueue (s : State) (p : Packet) : OnlySent s (s.enqueue p) := by
  unfold State.enqueue
  split
  · exact .refl s
  · exact ⟨_, _, _, _, rfl⟩

theorem onlySent_sendBlock (s : State) (n vc : Nat) : OnlySent s (s.sendBlock n vc) := ⟨_, _, _, _, rfl⟩

theorem onlySent_sendNow (s : State) : OnlySent s s.sendNow := by
  unfold State.sendNow
  generalize s.out = l
  induction l generalizing s with
  | nil => exact .refl s
  | cons x l ih =>
    rw [List.foldl_cons]
    refine OnlySent.trans ?_ (ih _)
    split
    · exact (onlySent_enqueue ..).trans (onlySent_sendBlock ..)
    · exact .refl s

/-- Free values written over units of memory change no byte of another unit. -/
theorem mget_foldl_units (f : Nat → Nat) (l : List Nat) (m : SMap Byte) {a : Nat} (h : ∀ u ∈ l, u ≠ a / 8) :
    mget 0#8 (l.foldl (fun m u => wrBytes m (8 * u) (leBytes 8 (f u))) m) a = mget 0#8 m a := by
  induction l generalizing m with
  | nil => rfl
  | cons u l ih =>
    have hu := h u (List.mem_cons_self ..)
    rw [List.foldl_cons, ih _ fun v hv => h v (List.mem_cons_of_mem _ hv), mget_wrBytes, if_neg]
    rw [leBytes_length]
    omega

/-- What was not written back is lost: bytes of local memory that have been written. -/
theorem loseDirty_mem (s : State) (a : Nat) (h : hostBase ≤ a ∨ ∀ x ∈ s.past, x.1 ≠ a / 8) : mget 0#8 s.loseDirty.mem a = mget 0#8 s.mem a := by
  refine mget_foldl_units _ _ s.mem fun u hu => ?_
  obtain ⟨x, hx, rfl⟩ := List.mem_map.1 (List.mem_filter.1 hu).1
  obtain ⟨hx, hlt⟩ := List.mem_filter.1 hx
  obtain h | h := h
  · have := of_decide_eq_true hlt
    simp only [hostBase] at this h
    omega
  · exact h x hx

theorem loseDirty_frame (s : State) : ∃ m p f, s.loseDirty = { s with mem := m, past := p, fresh := f } := ⟨_, _, _, rfl⟩

/-- A reset before its boot: the others have heard of it, and nothing of the dies is left. -/
def State.resetting (s : State) : State := ((((s.broadcast 0).sendNow).loseDirty).dropCompute)

theorem islandReset_eq (s : State) : s.islandReset =
    ((s.ctxs.filter fun c => c.2.state != .free).map (·.1)).foldl (fun s c => s.emit 0x0F c [2#8]) (s.resetting.bootStart 0) := rfl

/-- What a reset keeps, and what it takes. -/
structure Resetting (s t : State) : Prop where
  island : t.island = { s.island with duskDue := true }
  log    : t.logNew = s.logNew ∧ t.tick = s.tick ∧ t.lines = s.lines
  none   : t.ctxs = [] ∧ t.blocks = [] ∧ t.pend = [] ∧ t.rings = [] ∧ t.vesper = []
  mem    : ∀ a, (hostBase ≤ a ∨ ∀ x ∈ s.past, x.1 ≠ a / 8) → mget 0#8 t.mem a = mget 0#8 s.mem a

theorem resetting_resetting (s : State) : Resetting s s.resetting := by
  obtain ⟨_, _, _, _, e⟩ := tellAll_frame s 0 []
  obtain ⟨_, _, _, _, e'⟩ := onlySent_sendNow (s.broadcast 0)
  have hs : ∃ p f w u r o x, (s.broadcast 0).sendNow = { s with ports := p, fresh := f, wire := w, units := u, retained := r, out := o, e2eOut := x } := by
    rw [e', State.broadcast, e]
    exact ⟨_, _, _, _, _, _, _, rfl⟩
  obtain ⟨_, _, _, _, _, _, _, hs⟩ := hs
  rw [State.resetting, hs]
  exact ⟨rfl, ⟨rfl, rfl, rfl⟩, ⟨rfl, rfl, rfl, rfl, rfl⟩, fun a h => loseDirty_mem _ a h⟩

/-! ## ISLAND_RESET (R371) -/

/-- An entry of a map that was set is an old one, or of the key that was set. -/
theorem mem_of_mem_mset {α : Type} [DecidableEq α] {d : α} {m : SMap α} {k : Nat} {v : α} {x : Nat × α} (h : x ∈ mset d m k v) : x ∈ m ∨ x.1 = k := by
  have hdel : ∀ {m : SMap α}, x ∈ mdel m k → x ∈ m := by
    intro m hm
    induction m with
    | nil => cases hm
    | cons y m ih =>
      obtain ⟨a, w⟩ := y
      unfold mdel at hm
      split at hm
      · exact List.mem_cons_of_mem _ (ih hm)
      · cases hm with
        | head => exact List.mem_cons_self ..
        | tail _ hm => exact List.mem_cons_of_mem _ (ih hm)
  have hins : ∀ {m : SMap α}, x ∈ mins m k v → x ∈ m ∨ x.1 = k := by
    intro m hm
    induction m with
    | nil =>
      obtain rfl | hm := List.mem_cons.1 hm
      · exact .inr rfl
      · cases hm
    | cons y m ih =>
      obtain ⟨a, w⟩ := y
      unfold mins at hm
      split at hm
      · obtain rfl | hm := List.mem_cons.1 hm
        · exact .inr rfl
        · exact .inl hm
      · obtain rfl | hm := List.mem_cons.1 hm
        · exact .inl (List.mem_cons_self ..)
        · exact (ih hm).imp_left (List.mem_cons_of_mem _)
  unfold mset at h
  split at h
  · exact .inl (hdel h)
  · exact (hins h).imp_left hdel

/-- The units of memory that have been written, and of host memory some more. -/
def PastGrows (s t : State) : Prop := ∀ x ∈ t.past, x ∈ s.past ∨ hostBase / 8 ≤ x.1

theorem PastGrows.trans {s t u : State} (h : PastGrows s t) (h' : PastGrows t u) : PastGrows s u := fun x hx => (h' x hx).elim (h x) .inr

theorem mem_foldl_mupd {α : Type} [DecidableEq α] (d : α) (g : Nat → α → α) (b : Nat) (l : List Nat) (m : SMap α) :
    ∀ x ∈ l.foldl (fun m i => mupd d m (b + i) (g i)) m, x ∈ m ∨ b ≤ x.1 := by
  induction l generalizing m with
  | nil => exact fun x hx => .inl hx
  | cons i l ih =>
    intro x hx
    obtain hx | hx := ih _ x hx
    · exact (mem_of_mem_mset hx).imp_right fun e => by omega
    · exact .inr hx

theorem pastGrows_notePast (s : State) (off n : Nat) : PastGrows s (s.notePast (hostBase + off) n) := by
  intro x hx
  refine (mem_foldl_mupd [] _ ((hostBase + off) / 8) _ s.past x hx).imp_right fun h => le_trans ?_ h
  exact Nat.div_le_div_right (Nat.le_add_right ..)

theorem pastGrows_hostPut (s : State) (off : Nat) (bs : List Byte) : PastGrows s (s.hostPut off bs) := by
  unfold State.hostPut
  generalize splitLines off (bs.length + 1) bs = l
  induction l generalizing s with
  | nil => exact fun x hx => .inl hx
  | cons y l ih =>
    have hy : PastGrows s (s.storeHost y.1 y.2 none 0) := pastGrows_notePast s y.1 y.2.length
    exact hy.trans (ih _)

theorem pastGrows_accepted (s : State) (c : Cmd) (r : Nat × List Byte) : PastGrows s (s.accepted c r) :=
  pastGrows_hostPut (State.replying { s with island := { s.island with lastAccepted := c.seq } } c.host r.1 r.2) _ _

/-- A reply changes no byte of local memory. -/
theorem accepted_mem_local (s : State) (c : Cmd) (r : Nat × List Byte) {a : Nat} (ha : a < hostBase) :
    mget 0#8 (s.accepted c r).mem a = mget 0#8 s.mem a := by
  have hm : (s.accepted c r).mem = wrBytes s.mem (hostBase + ((s.host c.host).slot + 40)) (slotBytes r.1 r.2) := by
    rw [State.accepted, State.reply_eq, State.hostPut_mem]
    rfl
  rw [hm, mget_wrBytes, if_neg (by omega)]

theorem accepted_fields (s : State) (c : Cmd) (r : Nat × List Byte) : (s.accepted c r).island = { s.island with lastAccepted := c.seq } ∧
    (s.accepted c r).lines = s.lines ∧ (s.accepted c r).tick = s.tick := by
  obtain ⟨_, _, _, _, _, _, e⟩ := accepted_frame s c r
  rw [e]
  exact ⟨rfl, rfl, rfl⟩

/-- What a reset of the island leaves. -/
theorem islandReset_fields (u : State) : let t := u.islandReset
    t.island.st = 1 ∧ t.island.owner = none ∧ t.island.lastAccepted = 0#32 ∧ t.island.hmemctx = 0#32 ∧
    t.island.bank = u.island.nextBank ∧ t.island.boots = u.island.boots + 1 ∧ t.hosts = [] ∧ t.hres = u.island.service.hres ∧
    (∀ n, t.ctx n = {}) ∧ (∀ v, t.blk v = {}) ∧ t.pend = [] ∧ t.rings = [] ∧ t.vesper = [] ∧ t.lines = u.lines ∧
    t.maps = (u.island.service.maps.map fun x => (x.1, { active := some x.2 })) ∧
    (∀ a, (hostBase ≤ a ∨ ∀ x ∈ u.past, x.1 ≠ a / 8) → mget 0#8 t.mem a = mget 0#8 u.mem a) := by
  obtain ⟨island, ⟨-, -, lines⟩, ⟨ctxs, blocks, pend, rings, vesper⟩, mem⟩ := resetting_resetting u
  obtain ⟨_, _, _, _, _, e⟩ := (onlyLogged_bootStart u.resetting 0).trans
    (onlyLogged_foldl_emit 0x0F [2#8] ((u.ctxs.filter fun c => c.2.state != .free).map (·.1)) _)
  rw [← islandReset_eq] at e
  generalize u.resetting = v at *
  rw [e]
  simp only [State.booted, State.ctx, State.blk, island, ctxs, blocks, pend, rings, vesper, lines, mget, forall_const, true_and]
  exact mem

/-- The event of the reset stands in the log, under number 1. -/
theorem islandReset_event (u : State) :
    (⟨1, 0x0A, 0xFFFF, u.tick, [1#8, BitVec.ofNat 8 u.island.st, 0#8, u.island.inc]⟩ : EventRec) ∈ u.islandReset.logNew := by
  obtain ⟨island, ⟨-, tick, -⟩, -, -⟩ := resetting_resetting u
  have first := (logs_bootStart u.resetting 0).first
  rw [islandReset_eq]
  refine (logs_foldl_emit 0x0F [2#8] _ _).keeps ?_
  simp only [island, tick] at first
  exact first

theorem islandReset_step (c : Cmd) (s : State) (hc : NextCommand s c 0x21 noArgs) : ∃ t, exec (.islandReset c) s = .next t ∧
      (s.island.st = 1 → Replied s c.host 1 [] t ∧ NoEffect c s t) ∧
      (s.island.st ≠ 1 → s.island.st ≤ 4 → t.island.st = 1 ∧ t.island.owner = none ∧ t.island.lastAccepted = 0#32 ∧ t.island.hmemctx = 0#32 ∧
        t.island.bank = s.island.nextBank ∧ t.island.boots = s.island.boots + 1 ∧ t.hosts = [] ∧ t.hres = s.island.service.hres ∧
        (∀ n, t.ctx n = {}) ∧ (∀ u, t.blk u = {}) ∧ t.pend = [] ∧ t.rings = [] ∧ t.vesper = [] ∧ t.lines = s.lines ∧
        t.maps = (s.island.service.maps.map fun x => (x.1, { active := some x.2 })) ∧
        (∀ a, a < hostBase → (∀ x ∈ s.past, x.1 ≠ a / 8) → mget 0#8 t.mem a = mget 0#8 s.mem a) ∧
        (⟨1, 0x0A, 0xFFFF, s.tick, [1#8, BitVec.ofNat 8 s.island.st, 0#8, s.island.inc]⟩ : EventRec) ∈ t.logNew) := by
  obtain ⟨hst, hh, ho, hq, hz, ht, ha⟩ := hc
  have hcmd := (hasCmd_iff ..).2 ha
  have hok : (s.island.st == 2 || s.island.st == 3 || s.island.st == 4) = decide (s.island.st ≠ 1 ∧ s.island.st ≤ 4) := by
    rw [Bool.eq_iff_iff]
    simp only [Bool.or_eq_true, beq_iff_eq, decide_eq_true_eq]
    omega
  have hrun : exec (.islandReset c) s = .next (if s.island.st ≠ 1 ∧ s.island.st ≤ 4 then (s.accepted c (0, [])).islandReset else s.accepted c (1, [])) := by
    change Host.Outcome.next (s.islandResetCmd c) = _
    have cond : (decide (s.island.st ≠ 1 ∧ s.island.st ≤ 4) && s.hasCmd c.host (some c.seq) 0x21 c.zero noArgs && decide (c.host < 8) &&
        s.island.owner == some c.host && c.seq == s.island.lastAccepted + 1 && c.zero == 0#16 && s.tlbCmd.isNone) =
        decide (s.island.st ≠ 1 ∧ s.island.st ≤ 4) := by
      rw [hcmd, decide_eq_true hh, beq_iff_eq.2 ho, beq_iff_eq.2 hq, beq_iff_eq.2 hz, ht]
      simp only [Bool.and_true, Option.isNone_none]
    unfold State.islandResetCmd
    dsimp only
    rw [hok, cond, command_next ⟨hst, hh, ho, hq, hz, ht, ha⟩]
    by_cases h : s.island.st ≠ 1 ∧ s.island.st ≤ 4
    · rw [if_pos h, decide_eq_true h]
      rfl
    · rw [if_neg h, decide_eq_false h]
      rfl
  refine ⟨_, hrun, fun h1 => ?_, fun h1 h4 => ?_⟩
  · rw [if_neg fun h => h.1 h1]
    exact refused_accepted s c 1
  · rw [if_pos ⟨h1, h4⟩]
    obtain ⟨island, lines, tick⟩ := accepted_fields s c (0, [])
    obtain ⟨f1, f2, f3, f4, f5, f6, f7, f8, f9, f10, f11, f12, f13, f14, f15, fmem⟩ := islandReset_fields (s.accepted c (0, []))
    have fev := islandReset_event (s.accepted c (0, []))
    rw [island] at f5 f6 f8 f15 fev
    rw [tick] at fev
    refine ⟨f1, f2, f3, f4, f5, f6, f7, f8, f9, f10, f11, f12, f13, f14.trans lines, f15, fun a hl hp => ?_, fev⟩
    refine (fmem a (.inr fun x hx => ?_)).trans (accepted_mem_local s c (0, []) hl)
    obtain hx | hx := pastGrows_accepted s c (0, []) x hx
    · exact hp x hx
    · simp only [hostBase] at hl hx
      omega

/-! ## What the late faults of loads leave alone -/

/-- What no group changes by a fault: hosts and their replies, memory, the island, the members, the slices and their history. -/
def State.beyond (s : State) : SMap HostReply × SMap HostW × SMap Byte × Nat × Island × SMap Member × Nat × SMap Slice × SMap Ring :=
  (s.replies, s.hosts, s.mem, s.device, s.island, s.members, s.stampBase, s.slices, s.rings)

@[simp] theorem State.beyond_ite (c : Prop) [Decidable c] (a b : State) :
    (if c then a else b).beyond = if c then a.beyond else b.beyond := apply_ite State.beyond c a b
@[simp] theorem State.beyond_foldl {α : Type} (f : State → α → State) (h : ∀ s x, (f s x).beyond = s.beyond) (l : List α) (s : State) :
    (l.foldl f s).beyond = s.beyond := foldl_keeps State.beyond f h l s

@[simp] theorem State.setBlk_beyond (s : State) (u : Nat) (b : Block) : (s.setBlk u b).beyond = s.beyond := rfl
@[simp] theorem State.setGrp_beyond (s : State) (u g : Nat) (G : Group) : (s.setGrp u g G).beyond = s.beyond := rfl
@[simp] theorem State.setTeam_beyond (s : State) (n : Nat) (t : Team) : (s.setTeam n t).beyond = s.beyond := rfl
@[simp] theorem State.setCore_beyond (s : State) (n : Nat) (c : CoreSt) : (s.setCore n c).beyond = s.beyond := rfl
@[simp] theorem State.setKernel_beyond (s : State) (k : Nat) (K : Kernel) : (s.setKernel k K).beyond = s.beyond := rfl
@[simp] theorem State.setCtx_beyond (s : State) (n : Nat) (x : Ctx) : (s.setCtx n x).beyond = s.beyond := rfl
@[simp] theorem State.pend_beyond (s : State) (p : List Pend) : State.beyond { s with pend := p } = s.beyond := rfl
@[simp] theorem State.cirBlk_beyond (s : State) (u bit : Nat) : (s.cirBlk u bit).beyond = s.beyond := rfl
@[simp] theorem State.delOp_beyond (s : State) (uid : Nat) : (s.delOp uid).beyond = s.beyond := rfl
@[simp] theorem State.raiseFloor_beyond (s : State) (u g st : Nat) : (s.raiseFloor u g st).beyond = s.beyond := rfl
@[simp] theorem State.acquireFloor_beyond (s : State) (u g : Nat) (sc : Scope) : (s.acquireFloor u g sc).beyond = s.beyond := by
  unfold State.acquireFloor
  exact State.raiseFloor_beyond ..
@[simp] theorem State.rollLane_beyond (s : State) (p : Pend) (cause L : Nat) : (s.rollLane p cause L).beyond = s.beyond := by
  unfold State.rollLane State.count
  rw [State.setCtx_beyond, State.pend_beyond, State.setGrp_beyond, State.setBlk_beyond]

@[simp] theorem State.trace_beyond (s : State) (u g kind aux lo hi : Nat) : (s.trace u g kind aux lo hi).beyond = s.beyond := by
  unfold State.trace
  dsimp only
  split <;> rfl
@[simp] theorem State.traceResume_beyond (s : State) (u aux : Nat) (sel : LaneStatus → Bool) : (s.traceResume u aux sel).beyond = s.beyond := by
  simp [State.traceResume]
@[simp] theorem State.releaseFloor_beyond (s : State) (u g : Nat) (sc : Scope) : (s.releaseFloor u g sc).beyond = s.beyond := by
  unfold State.releaseFloor
  split <;> simp
@[simp] theorem State.barrierFloors_beyond (s : State) (u : Nat) (sc : Scope) : (s.barrierFloors u sc).beyond = s.beyond := by
  simp [State.barrierFloors]
@[simp] theorem State.meetTry_beyond (s : State) (u g : Nat) : (s.meetTry u g).beyond = s.beyond := by simp [State.meetTry]
@[simp] theorem State.blkTry_beyond (s : State) (u : Nat) : (s.blkTry u).beyond = s.beyond := by simp [State.blkTry]
@[simp] theorem State.teamTry_beyond (s : State) (t : Nat) : (s.teamTry t).beyond = s.beyond := by
  unfold State.teamTry
  dsimp only
  split
  · rw [State.beyond_foldl _ fun _ _ => State.setBlk_beyond ..]
    simp
  · rfl
@[simp] theorem State.barriers_beyond (s : State) (u g : Nat) : (s.barriers u g).beyond = s.beyond := by simp [State.barriers]
@[simp] theorem State.endGroup_beyond (s : State) (u g : Nat) (cut : Bool) : (s.endGroup u g cut).beyond = s.beyond := by
  unfold State.endGroup
  rw [State.beyond_ite, State.setKernel_beyond, State.pend_beyond, State.setBlk_beyond, ite_self]
@[simp] theorem State.dropSuspended_beyond (s : State) (u g : Nat) : (s.dropSuspended u g).beyond = s.beyond := by
  unfold State.dropSuspended
  dsimp only
  split <;> simp
@[simp] theorem State.cutGroup_beyond (s : State) (u g : Nat) : (s.cutGroup u g).beyond = s.beyond := by simp [State.cutGroup]
@[simp] theorem State.doubleTrap_beyond (s : State) (u g : Nat) : (s.doubleTrap u g).beyond = s.beyond := by simp [State.doubleTrap]
@[simp] theorem State.memoMake_beyond (s : State) (u g iid : Nat) (ops : List Pend) : (s.memoMake u g iid ops).beyond = s.beyond := by
  unfold State.memoMake
  dsimp only
  split <;> simp
@[simp] theorem State.retire_beyond (s : State) (u g iid : Nat) : (s.retire u g iid).beyond = s.beyond := by
  unfold State.retire
  rw [State.beyond_ite, State.pend_beyond, State.memoMake_beyond, State.setBlk_beyond, State.setGrp_beyond, ite_self]
@[simp] theorem State.retireAll_beyond (s : State) (u g : Nat) : (s.retireAll u g).beyond = s.beyond := by simp [State.retireAll]
@[simp] theorem State.lateFault_beyond (s : State) (p : Pend) : (s.lateFault p).beyond = s.beyond := by
  unfold State.lateFault
  split <;> simp

/-! ## Domain rebase (R400) -/

/-- What a broken pin leaves alone. -/
def State.apartFromPins (s : State) : SMap HostReply × SMap HostW × SMap Byte × Nat × Island × SMap Member × Nat :=
  (s.replies, s.hosts, s.mem, s.device, s.island, s.members, s.tick)

theorem pinGone_apartFromPins (s : State) (st : Nat) : (s.pinGone st).apartFromPins = s.apartFromPins := by
  obtain ⟨_, _, _, _, e⟩ := tellAll_frame (s.endStalls st) 5 (leBytes 8 st)
  rw [State.pinGone, e]
  rfl

theorem breakPin_apartFromPins (s : State) (n h : Nat) : (s.breakPin n h).apartFromPins = s.apartFromPins := by
  unfold State.breakPin
  dsimp only
  split
  · rfl
  split
  · exact pinGone_apartFromPins ..
  · exact pinGone_apartFromPins ..

/-- A rebase empties the history and the slices, and sets the base of stamps. -/
theorem rebase_beyond (s : State) :
    s.rebase.beyond = (s.replies, s.hosts, s.mem, s.device, s.island, s.members, s.tick, [], []) := by
  unfold State.rebase
  dsimp only
  rw [State.beyond_foldl _ State.lateFault_beyond]
  generalize (s.ctxs.flatMap fun c => (c.2.pins.filter fun p => p.2.used && !p.2.broken).map fun p => (c.1, p.1)) = pins
  have hp := foldl_keeps State.apartFromPins (fun (s : State) (x : Nat × Nat) => s.breakPin x.1 x.2) (fun s x => breakPin_apartFromPins s x.1 x.2) pins s
  generalize pins.foldl (fun (s : State) (x : Nat × Nat) => s.breakPin x.1 x.2) s = b at hp
  unfold State.apartFromPins at hp
  simp only [Prod.mk.injEq] at hp
  obtain ⟨hr, hh, hm, hd, hi, hms, ht⟩ := hp
  rw [← hr, ← hh, ← hm, ← hd, ← hi, ← hms, ← ht]
  rfl

/-! ## DOMAIN_CONFIG (R361, R400) -/

/-- The members that a domain table names. -/
def State.membersOf (s : State) (xs : List (Nat × Nat)) : SMap Member := xs.foldl (fun m x => mset {} m x.1 (s.memberOf x.1 x.2)) []

theorem mget_foldl_mset_other (s : State) (i : Nat) (xs : List (Nat × Nat)) (m : SMap Member) (h : ∀ x ∈ xs, x.1 ≠ i) :
    (mget {} (xs.foldl (fun m x => mset {} m x.1 (s.memberOf x.1 x.2)) m) i : Member) = mget {} m i := by
  induction xs generalizing m with
  | nil => rfl
  | cons x xs ih =>
    rw [List.foldl_cons, ih _ fun y hy => h y (List.mem_cons_of_mem _ hy), mget_mset_ne _ _ _ (h x List.mem_cons_self).symm]

/-- An index that the table does not name is no member. -/
theorem mget_membersOf_other (s : State) {i : Nat} {xs : List (Nat × Nat)} (h : ∀ x ∈ xs, x.1 ≠ i) : (mget {} (s.membersOf xs) i : Member) = {} :=
  mget_foldl_mset_other s i xs [] h

/-- An index that it names once is the member it names. -/
theorem mget_membersOf {s : State} {i x : Nat} {xs : List (Nat × Nat)} (hn : (xs.map (·.1)).Nodup) (h : (i, x) ∈ xs) :
    (mget {} (s.membersOf xs) i : Member) = s.memberOf i x := by
  unfold State.membersOf
  generalize ([] : SMap Member) = m
  induction xs generalizing m with
  | nil => cases h
  | cons y ys ih =>
    obtain ⟨hy, hn⟩ := List.nodup_cons.1 hn
    rw [List.foldl_cons]
    rcases List.mem_cons.1 h with rfl | h
    · rw [mget_foldl_mset_other s i ys _ fun z hz e => hy (List.mem_map.2 ⟨z, hz, e⟩), mget_mset_self]
    · exact ih hn h _

theorem memberOf_spec (s : State) (i x : Nat) : (s.memberOf i x).member = true ∧ (s.memberOf i x).serial = x := by
  unfold State.memberOf
  dsimp only
  split
  · next h => simpa using h
  · exact ⟨rfl, rfl⟩

theorem domainConfig_step (c : Cmd) (d : DomainTable) : Commands (.domainConfig c d) c 0x22 (fun s => s.namesBytes 0 (domainBytes d))
    (fun _ => (if 128 ≤ d.own ∨ ∃ m ∈ d.members, 128 ≤ m.1 then 3 else 0, [])) fun s t =>
      let bad := 128 ≤ d.own ∨ ∃ m ∈ d.members, 128 ≤ m.1
      (bad → NoEffect c s t) ∧
      (¬ bad → t.device = d.own ∧ t.island.domain = d.id ∧ t.stampBase = s.tick ∧ t.rings = [] ∧ t.slices = [] ∧
        ((d.members.map (·.1)).Nodup → ∀ i x, (i, x) ∈ d.members → (mget {} t.members i : Member).member = true ∧
          (mget {} t.members i : Member).serial = x) ∧
        ∀ i, (∀ m ∈ d.members, m.1 ≠ i) → (mget {} t.members i : Member).member = false) := by
  intro s
  have hrun : exec (.domainConfig c d) s = .next (s.command c 0x22 (s.namesBytes 0 (domainBytes d)) fun s =>
      status (s.domainConfig d).1 (s.domainConfig d).2) := rfl
  by_cases bad : 128 ≤ d.own ∨ ∃ m ∈ d.members, 128 ≤ m.1
  · have he : s.domainConfig d = (3, s) := if_pos (by simpa using bad)
    exact commandAt_refused hrun (congrArg (fun r : Nat × State => status r.1 r.2) he) (by rw [if_pos bad]) fun u hu =>
      ⟨fun _ => hu, fun h => absurd bad h⟩
  · have he : s.domainConfig d = (0, ({ s with
        device := d.own, members := s.membersOf d.members, island := { s.island with domain := d.id } } : State).rebase) := if_neg (by simpa using bad)
    have hb := rebase_beyond { s with device := d.own, members := s.membersOf d.members, island := { s.island with domain := d.id } }
    generalize ({ s with device := d.own, members := s.membersOf d.members, island := { s.island with domain := d.id } } : State).rebase = t at he hb
    unfold State.beyond at hb
    simp only [Prod.mk.injEq] at hb
    obtain ⟨hr, hh, hm, hd, hi, hms, hst, hsl, hri⟩ := hb
    refine commandAt_done hrun (congrArg (fun r : Nat × State => status r.1 r.2) he) (by rw [if_neg bad]) hr hh hm fun _ u hu =>
      ⟨fun h => absurd h bad, fun _ => ?_⟩
    obtain ⟨_, _, _, _, _, _, e⟩ := hu.frame
    have hmem : u.members = s.membersOf d.members := by rw [e]; exact hms
    refine ⟨by rw [e]; exact hd, by rw [hu.island]; exact congrArg Island.domain hi, by rw [e]; exact hst, by rw [e]; exact hri, by rw [e]; exact hsl, ?_, ?_⟩
    · intro hn i x hx
      rw [hmem, mget_membersOf hn hx]
      exact memberOf_spec s i x
    · intro i h
      rw [hmem, mget_membersOf_other s h]

/-- Settles O53, one lemma for each command. -/
theorem commandSteps : Obligations.CommandSteps := by
  unfold Obligations.CommandSteps
  exact ⟨status_step, readEvents_step, ctxCreate_step, ctxCreate_command, createOk_iff, ctxStop_step, ctxResume_step,
    fun c n s hq ho => ctxKill_step c n s hq ho, ctxDestroy_step, tlbInval_step, tlbInval_underWay, computeReset_step, islandReset_step,
    domainConfig_step, ideKey_step, retest_step, fwUpdate_step, fwActivate_step, fwCommit_step, unsupportedCommand_step, attestation_steps⟩

end Sys2Proof.Machine
end

section
/-! LEMMAS AND PROOFS. Which parked lanes a trap entry serves (O32). -/

namespace Sys2Proof.Machine

/-! ## Minima as folds -/

theorem le_foldl_min_iff {α : Type} (f : α → Nat) (n : Nat) (l : List α) (a : Nat) :
    n ≤ l.foldl (fun m x => min m (f x)) a ↔ n ≤ a ∧ ∀ x ∈ l, n ≤ f x := by
  induction l generalizing a with
  | nil => simp
  | cons x l ih => simp [ih, and_assoc]

theorem foldl_min_le {α : Type} (f : α → Nat) {l : List α} (a : Nat) {x : α} (h : x ∈ l) : l.foldl (fun m x => min m (f x)) a ≤ f x :=
  ((le_foldl_min_iff f _ l a).mp (Nat.le_refl _)).2 x h

theorem foldl_min_attained {α : Type} (f : α → Nat) (l : List α) (a : Nat) :
    l.foldl (fun m x => min m (f x)) a = a ∨ ∃ x ∈ l, f x = l.foldl (fun m x => min m (f x)) a := by
  induction l generalizing a with
  | nil => exact .inl rfl
  | cons x l ih =>
    rw [List.foldl_cons]
    rcases ih (min a (f x)) with h | ⟨y, hy, h⟩
    · rcases Nat.le_total a (f x) with hle | hle
      · exact .inl (h.trans (Nat.min_eq_left hle))
      · exact .inr ⟨x, List.mem_cons_self, (h.trans (Nat.min_eq_right hle)).symm⟩
    · exact .inr ⟨y, List.mem_cons_of_mem _ hy, h⟩

theorem minPc_le (G : Group) {l : List Nat} {L : Nat} (h : L ∈ l) : G.minPc l ≤ (G.lane L).pc :=
  foldl_min_le (fun L => (G.lane L).pc) _ h

theorem minPc_attained (G : Group) {l : List Nat} (h : l ≠ []) : ∃ L ∈ l, (G.lane L).pc = G.minPc l := by
  rcases foldl_min_attained (fun L => (G.lane L).pc) l ((G.lane (l.headD 0)).pc) with e | e
  · obtain ⟨x, r, rfl⟩ := List.exists_cons_of_ne_nil h
    exact ⟨x, List.mem_cons_self, e.symm⟩
  · exact e

/-! ## The lanes that lead (R173) -/

theorem mem_parked {G : Group} {L : Nat} : L ∈ G.parked ↔ L < 32 ∧ (G.lane L).status = .parked ∧ (G.lane L).helper = false := by
  simp only [Group.parked, Group.present, Group.full, List.mem_filter, List.mem_range, bne_iff_ne, ne_eq, Bool.not_eq_true', beq_iff_eq]
  constructor
  · rintro ⟨⟨⟨hL, -⟩, hh⟩, hp⟩
    exact ⟨hL, hp, hh⟩
  · rintro ⟨hL, hp, hh⟩
    exact ⟨⟨⟨hL, by simp [hp]⟩, hh⟩, hp⟩

/-- The rank of a lane's cause in R173's order. -/
def Group.rank (G : Group) (L : Nat) : Nat := causeRank (G.lane L).cause.code

theorem causeRank_le (n : Nat) : causeRank n ≤ 15 := by
  unfold causeRank
  split <;> omega

/-- The parked lanes whose cause ranks first. -/
def Group.firstRanked (G : Group) : List Nat :=
  G.parked.filter fun L => G.rank L == G.parked.foldl (fun m L => min m (G.rank L)) 99

theorem mem_firstRanked {G : Group} {L : Nat} : L ∈ G.firstRanked ↔ L ∈ G.parked ∧ ∀ M ∈ G.parked, G.rank L ≤ G.rank M := by
  have least := foldl_min_attained G.rank G.parked 99
  rw [Group.firstRanked, List.mem_filter, beq_iff_eq]
  refine and_congr_right fun hL => ⟨fun e M hM => e ▸ foldl_min_le G.rank 99 hM, fun h => Nat.le_antisymm ?_ (foldl_min_le G.rank 99 hL)⟩
  exact (le_foldl_min_iff ..).mpr ⟨(causeRank_le _).trans (by decide), h⟩

theorem firstRanked_ne_nil {G : Group} (h : G.parked ≠ []) : G.firstRanked ≠ [] := by
  rcases foldl_min_attained G.rank G.parked 99 with e | ⟨L, hL, e⟩
  · obtain ⟨L, r, hp⟩ := List.exists_cons_of_ne_nil h
    have hle : 99 ≤ G.rank L := e ▸ foldl_min_le G.rank 99 (hp ▸ List.mem_cons_self)
    exact absurd (hle.trans (causeRank_le _)) (by decide)
  · exact List.ne_nil_of_mem (List.mem_filter.mpr ⟨hL, beq_iff_eq.mpr e⟩)

/-- Of these, the ones of the least PC. -/
def Group.leading (G : Group) : List Nat := G.firstRanked.filter fun L => (G.lane L).pc == G.minPc G.firstRanked

theorem mem_leading {G : Group} {L : Nat} : L ∈ G.leading ↔ L ∈ G.firstRanked ∧ ∀ M ∈ G.firstRanked, (G.lane L).pc ≤ (G.lane M).pc := by
  rw [Group.leading, List.mem_filter, beq_iff_eq]
  refine and_congr_right fun hL => ⟨fun e M hM => e ▸ minPc_le G hM, fun h => Nat.le_antisymm ?_ (minPc_le G hL)⟩
  obtain ⟨M, hM, e⟩ := minPc_attained G (List.ne_nil_of_mem hL)
  exact e ▸ h M hM

theorem leading_eq_nil_iff {G : Group} : G.leading = [] ↔ G.parked = [] := by
  constructor
  · intro h
    by_contra hp
    obtain ⟨L, hL, e⟩ := minPc_attained G (firstRanked_ne_nil hp)
    have lead : L ∈ G.leading := List.mem_filter.mpr ⟨hL, beq_iff_eq.mpr e⟩
    simp [h] at lead
  · intro h
    simp [Group.leading, Group.firstRanked, h]

/-- A lane enters with another for a late cause: one faulting PC, one page, one region entry. -/
def Group.entersWith (G : Group) (L0 L : Nat) : Bool :=
  (G.lane L).cause.fpc == (G.lane L0).cause.fpc && (G.lane L).cause.va / 4096 == (G.lane L0).cause.va / 4096 &&
    (G.lane L).region.pc == (G.lane L0).region.pc

theorem serve_eq (G : Group) : G.serve = if isLate (G.lane (G.leading.headD 0)).cause then G.leading.filter (G.entersWith (G.leading.headD 0))
    else G.leading := by
  have e : G.serve = match G.leading with
    | [] => []
    | L0 :: _ => if isLate (G.lane L0).cause then G.leading.filter (G.entersWith L0) else G.leading := rfl
  rw [e]
  cases G.leading with
  | nil => simp
  | cons L0 r => rfl

theorem entersWith_self (G : Group) (L : Nat) : G.entersWith L L = true := by simp [Group.entersWith]

theorem serve_sub_leading {G : Group} {L : Nat} (h : L ∈ G.serve) : L ∈ G.leading := by
  rw [serve_eq] at h
  split at h
  · exact List.mem_of_mem_filter h
  · exact h

/-- The first of the lanes that lead is the first served. -/
theorem serve_head (G : Group) : G.serve.headD 0 = G.leading.headD 0 ∧ (G.serve = [] ↔ G.leading = []) := by
  rw [serve_eq]
  cases G.leading with
  | nil => simp
  | cons L0 r =>
    split
    · simp [entersWith_self]
    · simp

theorem serve_eq_nil_iff {G : Group} : G.serve = [] ↔ G.parked = [] := (serve_head G).2.trans leading_eq_nil_iff

theorem serve_of_not_late {G : Group} (h : isLate (G.lane (G.serve.headD 0)).cause = false) : G.serve = G.leading := by
  rw [(serve_head G).1] at h
  rw [serve_eq, if_neg (by simpa using h)]

/-- Settles O32: the lanes that lead are those of the first rank and the least PC, and an issue cause serves all of them. -/
theorem servedSet : Obligations.ServedSet := by
  unfold Obligations.ServedSet
  intro G
  simp only [← mem_parked]
  have ranked {L M : Nat} (hL : L ∈ G.firstRanked) (hM : M ∈ G.parked) (e : G.rank M = G.rank L) : M ∈ G.firstRanked :=
    mem_firstRanked.mpr ⟨hM, fun N hN => e ▸ (mem_firstRanked.mp hL).2 N hN⟩
  refine ⟨fun L hL => ?_, serve_eq_nil_iff.trans List.eq_nil_iff_forall_not_mem, fun L hL late M hM hr hpc => ?_⟩
  · obtain ⟨hf, hpc⟩ := mem_leading.mp (serve_sub_leading hL)
    obtain ⟨hp, hr⟩ := mem_firstRanked.mp hf
    exact ⟨hp, hr, fun M hM e => hpc M (ranked hf hM e)⟩
  · rw [serve_of_not_late late] at hL ⊢
    obtain ⟨hf, hmin⟩ := mem_leading.mp hL
    exact mem_leading.mpr ⟨ranked hf hM hr, fun N hN => hpc ▸ hmin N hN⟩

end Sys2Proof.Machine
end

section
/-! LEMMAS AND PROOFS. The registers that an access delivers, and what is left when it has returned (R64, R65, R225, R230). -/

namespace Sys2Proof.Machine

/-! ## Registers that an access delivers (R65) -/

theorem setBit_of_le {n i : Nat} (v : BitVec n) (b : Bool) (h : n ≤ i) : setBit v i b = v := by
  have zero : BitVec.ofNat n (2 ^ i) = 0#n :=
    BitVec.eq_of_toNat_eq ((BitVec.toNat_ofNat _ _).trans (Nat.mod_eq_zero_of_dvd (Nat.pow_dvd_pow 2 h)))
  unfold setBit
  rw [zero]
  cases b <;> simp

/-- A write leaves every other register, also a write to a predicate that does not exist. -/
theorem getKey_setKey_ne (G : Group) {key j : RegKey} (v : Word) (h : j ≠ key) : (G.setKey key v).getKey j = G.getKey j := by
  by_cases he : key.exists = true
  · rw [getKey_setKey _ _ _ _ he, if_neg h]
  · cases key with
    | v | k => exact absurd rfl he
    | p L n =>
      have hn : 12 ≤ n := by simpa [RegKey.exists] using he
      simp only [Group.setKey, setBit_of_le _ _ hn]
      cases j with
      | v M y | p M y =>
        simp only [Group.getKey, lane_setLane_if]
        split
        · next e => rw [e]
        · rfl
      | k | kp => rfl
    | kp n =>
      have hn : 4 ≤ n := by simpa [RegKey.exists] using he
      simp only [Group.setKey, setBit_of_le _ _ hn]

theorem getKey_writes_ne {key : RegKey} : ∀ {ws : List (RegKey × Word)} (G : Group), (∀ w ∈ ws, w.1 ≠ key) →
    (G.writes ws).getKey key = G.getKey key
  | [], _, _ => rfl
  | w :: ws, G, h => by
    obtain ⟨hw, hws⟩ := List.forall_mem_cons.mp h
    exact (getKey_writes_ne (ws := ws) (G.setKey w.1 w.2) hws).trans (getKey_setKey_ne G w.2 hw.symm)

theorem writes_append (G : Group) (ws vs : List (RegKey × Word)) : G.writes (ws ++ vs) = (G.writes ws).writes vs := List.foldl_append ..

/-- A result that reaches a region snapshot changes no register. -/
theorem getKey_snapDeliver (G : Group) (iid : Nat) (w : RegKey × Word) (key : RegKey) : (G.snapDeliver iid w).getKey key = G.getKey key := by
  have put : ∀ (L : Nat) (l : Lane), l.stack = (G.lane L).stack → l.preds = (G.lane L).preds → (G.setLane L l).getKey key = G.getKey key := by
    intro L l hs hp
    cases key with
    | v M x | p M x =>
      simp only [Group.getKey, lane_setLane_if]
      split
      · next e => simp only [e, hs, hp]
      · rfl
    | k | kp => rfl
  unfold Group.snapDeliver
  dsimp only
  split
  · split
    · exact put _ _ rfl rfl
    · rfl
  · split
    · exact put _ _ rfl rfl
    · rfl
  · rfl

theorem snapDeliver_group (G : Group) (iid : Nat) (w : RegKey × Word) :
    G.snapDeliver iid w = { G with lanes := (G.snapDeliver iid w).lanes } := by
  unfold Group.snapDeliver
  dsimp only
  (repeat' split) <;> rfl

/-- The writes of the results of an instruction whose destinations are still its own. -/
def Group.ownWrites (G : Group) (iid : Nat) (ws : List (RegKey × Word)) : List (RegKey × Word) :=
  ws.filter fun w => ((G.board.filter fun e => e.iid == iid).flatMap fun e => e.cells.map (·.key)).contains w.1

theorem mem_ownWrites {G : Group} {iid : Nat} {ws : List (RegKey × Word)} {w : RegKey × Word} :
    w ∈ G.ownWrites iid ws ↔ w ∈ ws ∧ ∃ e ∈ G.board, e.iid = iid ∧ ∃ x ∈ e.cells, x.key = w.1 := by
  simp only [Group.ownWrites, List.mem_filter, List.contains_iff_mem, List.mem_flatMap, List.mem_map, beq_iff_eq, and_assoc]

theorem getKey_deliver (G : Group) (iid : Nat) (ws : List (RegKey × Word)) (key : RegKey) :
    (G.deliver iid ws).getKey key = (G.writes (G.ownWrites iid ws)).getKey key :=
  foldl_keeps (·.getKey key) (fun g w => g.snapDeliver iid w) (fun g w => getKey_snapDeliver g iid w key) ws _

theorem deliver_floor (G : Group) (iid : Nat) (ws : List (RegKey × Word)) : (G.deliver iid ws).floor = G.floor := by
  have snaps : (G.deliver iid ws).floor = (G.writes (G.ownWrites iid ws)).floor :=
    foldl_keeps Group.floor (fun g w => g.snapDeliver iid w) (fun g w => by rw [snapDeliver_group]) ws _
  rw [snaps, writes_group]

@[simp] theorem getKey_complete (G : Group) (now iid : Nat) (key : RegKey) : (G.complete now iid).getKey key = G.getKey key := by cases key <;> rfl
@[simp] theorem getKey_arrived (G : Group) (due iid : Nat) (key : RegKey) : (G.arrived due iid).getKey key = G.getKey key := by cases key <;> rfl

/-! ## What leaves the registers of a group alone -/

/-- The registers of a group stand, what is still to be written there too, and every other group. -/
structure SameRegs (u g : Nat) (s t : State) : Prop where
  key    : ∀ k, (t.grp u g).getKey k = (s.grp u g).getKey k
  board  : (t.grp u g).board = (s.grp u g).board
  others : ∀ v h, (v, h) ≠ (u, g) → t.grp v h = s.grp v h

theorem SameRegs.refl (u g : Nat) (s : State) : SameRegs u g s s := ⟨fun _ => rfl, rfl, fun _ _ _ => rfl⟩

theorem SameRegs.trans {u g : Nat} {s t r : State} (a : SameRegs u g s t) (b : SameRegs u g t r) : SameRegs u g s r :=
  ⟨fun k => (b.key k).trans (a.key k), b.board.trans a.board, fun v h e => (b.others v h e).trans (a.others v h e)⟩

theorem sameRegs_of_blocks {u g : Nat} {s t : State} (h : t.blocks = s.blocks) : SameRegs u g s t := by
  have e : ∀ v h, t.grp v h = s.grp v h := fun v i => by simp only [State.grp, State.blk, h]
  exact ⟨fun k => by rw [e], by rw [e], fun v h _ => e v h⟩

theorem grp_setGrp_other (s : State) {u g v h : Nat} (G : Group) (e : (v, h) ≠ (u, g)) : (s.setGrp u g G).grp v h = s.grp v h := by
  by_cases hv : v = u
  · subst hv
    have hh : h ≠ g := fun x => e (by rw [x])
    simp only [State.setGrp, state_grp_setBlk, grp_setGrp_ne _ _ hh]
    rfl
  · simp only [State.setGrp, State.grp, blk_setBlk_ne _ _ hv]

theorem sameRegs_setGrp {u g : Nat} {s : State} {G : Group} (hk : ∀ k, G.getKey k = (s.grp u g).getKey k) (hb : G.board = (s.grp u g).board) :
    SameRegs u g s (s.setGrp u g G) :=
  ⟨fun k => by rw [state_grp_setGrp, hk], by rw [state_grp_setGrp, hb], fun _ _ e => grp_setGrp_other s G e⟩

/-- A block that keeps its groups. -/
theorem grp_setBlk_same {s : State} {w : Nat} {b : Block} (h : b.groups = (s.blk w).groups) (v i : Nat) : (s.setBlk w b).grp v i = s.grp v i := by
  by_cases hv : v = w
  · subst hv
    rw [state_grp_setBlk]
    simp only [State.grp, Block.grp, h]
  · simp only [State.grp, blk_setBlk_ne _ _ hv]

/-! ## Full bits, and lines in L1 -/

/-- The full bits of block memory and the lines of L1 stand. -/
structure SameHeld (s t : State) : Prop where
  full : ∀ u, (t.blk u).full = (s.blk u).full
  l1   : ∀ n, (t.core n).l1 = (s.core n).l1

theorem SameHeld.refl (s : State) : SameHeld s s := ⟨fun _ => rfl, fun _ => rfl⟩

theorem SameHeld.trans {s t r : State} (a : SameHeld s t) (b : SameHeld t r) : SameHeld s r :=
  ⟨fun u => (b.full u).trans (a.full u), fun n => (b.l1 n).trans (a.l1 n)⟩

theorem sameHeld_pend (s : State) (l : List Pend) : SameHeld s { s with pend := l } := ⟨fun _ => rfl, fun _ => rfl⟩

theorem sameHeld_setBlk {s : State} {u : Nat} {b : Block} (h : b.full = (s.blk u).full) : SameHeld s (s.setBlk u b) where
  full v := by
    by_cases e : v = u
    · rw [e, blk_setBlk, h]
    · rw [blk_setBlk_ne _ _ e]
  l1 _ := rfl

theorem sameHeld_setGrp (s : State) (u g : Nat) (G : Group) : SameHeld s (s.setGrp u g G) := sameHeld_setBlk rfl

theorem sameHeld_setCore {s : State} {n : Nat} {c : CoreSt} (h : c.l1 = (s.core n).l1) : SameHeld s (s.setCore n c) where
  full _ := rfl
  l1 m := by
    simp only [State.core, State.setCore, mget_mset]
    split
    · next e => rw [h, e]; rfl
    · rfl

theorem sameHeld_lift (s : State) (p : Pend) : SameHeld s (s.lift p) :=
  SameHeld.trans (t := { s with pend := (s.lift p).pend, cores := (s.lift p).cores })
    ⟨fun _ => rfl, fun n => (mget_map_rel (R := fun a b => b.l1 = a.l1) {} (fun c : Nat × CoreSt => (c.1, c.2.lift p.uid (s.grp p.blk p.grp).floor))
      s.cores n (fun _ => rfl) rfl fun _ _ => rfl)⟩
    (sameHeld_setGrp ..)

theorem sameHeld_memoMake (s : State) (u g iid : Nat) (ops : List Pend) : SameHeld s (s.memoMake u g iid ops) := by
  unfold State.memoMake
  dsimp only
  split
  · split
    · exact (sameHeld_setGrp ..).trans (sameHeld_setCore rfl)
    · exact sameHeld_setGrp ..
  · exact sameHeld_setGrp ..

/-! ## Late requests (R392, R407) -/

/-- Counters and free values alone differ. -/
structure Tallied (s t : State) : Prop where
  rest : t = { s with fresh := t.fresh, units := t.units, ctxs := t.ctxs }
  keys : ∀ n, (t.ctx n).priv = (s.ctx n).priv ∧ (t.ctx n).key = (s.ctx n).key

theorem Tallied.refl (s : State) : Tallied s s := ⟨rfl, fun _ => ⟨rfl, rfl⟩⟩

theorem Tallied.trans {s t r : State} (a : Tallied s t) (b : Tallied t r) : Tallied s r :=
  ⟨b.rest.trans (by rw [a.rest]), fun n => ⟨(b.keys n).1.trans (a.keys n).1, (b.keys n).2.trans (a.keys n).2⟩⟩

theorem tallied_count (s : State) (n ev k : Nat) : Tallied s (s.count n ev k) := by
  refine ⟨rfl, fun m => ?_⟩
  rw [State.count, ctx_setCtx_if]
  split
  · next e => rw [e]; exact ⟨rfl, rfl⟩
  · exact ⟨rfl, rfl⟩

theorem tallied_unitAdd (s : State) (unit idx n : Nat) : Tallied s (s.unitAdd unit idx n) := ⟨rfl, fun _ => ⟨rfl, rfl⟩⟩

theorem tallied_served (s : State) (slice cls n : Nat) : Tallied s (s.served slice cls n) := ⟨rfl, fun _ => ⟨rfl, rfl⟩⟩

theorem tallied_late (s : State) (n unit base cls since k : Nat) : Tallied s (s.late n unit base cls since k) := by
  unfold State.late
  dsimp only
  split
  · exact .refl s
  · exact Tallied.trans (t := { s with fresh := s.fresh + 1 }) ⟨rfl, fun _ => ⟨rfl, rfl⟩⟩
      ((tallied_count ..).trans ⟨rfl, fun _ => ⟨rfl, rfl⟩⟩)

theorem tallied_lateOp (s : State) (p : Pend) : Tallied s (s.lateOp p) := by
  unfold State.lateOp
  split
  · exact .refl s
  · dsimp only
    split
    · split
      · exact (tallied_served ..).trans (tallied_late ..)
      · exact tallied_late ..
    · exact tallied_late ..

theorem Tallied.pend {s t : State} (h : Tallied s t) : t.pend = s.pend := by rw [h.rest]
theorem Tallied.cores {s t : State} (h : Tallied s t) : t.cores = s.cores := by rw [h.rest]
theorem Tallied.blocks {s t : State} (h : Tallied s t) : t.blocks = s.blocks := by rw [h.rest]
theorem Tallied.grp {s t : State} (h : Tallied s t) (u g : Nat) : t.grp u g = s.grp u g := by simp only [State.grp, State.blk, h.blocks]

/-! ## The end of an instruction of memory (R27, R64) -/

/-- The parts of an instruction that are in flight. -/
def State.partsOf (s : State) (u g iid : Nat) : List Pend := s.pend.filter fun p => p.iid == iid && p.blk == u && p.grp == g

/-- What an operation that has its data writes: its destinations, and 1 to its status predicate. -/
def Pend.outcome (p : Pend) : List (RegKey × Word) := p.dest.zip p.result ++ (match p.status with
  | some k => [(k, 1#32)]
  | none => [])

theorem sameRegs_memoMake (s : State) (u g iid : Nat) (ops : List Pend) :
    SameRegs u g s (s.memoMake u g iid ops) ∧ ((s.memoMake u g iid ops).grp u g).floor = (s.grp u g).floor ∧
      (s.memoMake u g iid ops).pend = s.pend := by
  have kept : SameRegs u g s (s.setGrp u g { s.grp u g with memoWait := (s.grp u g).memoWait.filter fun m => m.1 != iid }) :=
    sameRegs_setGrp (fun k => by cases k <;> rfl) rfl
  have floor : ((s.setGrp u g { s.grp u g with memoWait := (s.grp u g).memoWait.filter fun m => m.1 != iid }).grp u g).floor = (s.grp u g).floor := by
    rw [state_grp_setGrp]
  unfold State.memoMake
  dsimp only
  split
  · split
    · exact ⟨kept.trans (sameRegs_of_blocks rfl), floor, rfl⟩
    · exact ⟨kept, floor, rfl⟩
  · exact ⟨kept, floor, rfl⟩

/-- A group is set; the snapshots of its block and its memo entries take what was written. -/
def State.ended (s : State) (u g iid : Nat) (G : Group) (ws : List (RegKey × Word)) (ops : List Pend) : State :=
  ((s.setGrp u g G).setBlk u (((s.setGrp u g G).blk u).snapDeliver g iid ws)).memoMake u g iid ops

/-- The group when an instruction has completed, or has arrived ahead of its cycle (R26, R64). -/
def Group.endedAt (G : Group) (now iid due : Nat) (ws : List (RegKey × Word)) : Group :=
  if now < due then (G.deliver iid ws).arrived due iid else (G.deliver iid ws).complete now iid

theorem retire_eq (s : State) (u g iid : Nat) : s.retire u g iid =
    let ops := s.partsOf u g iid
    if ops.all (·.done) then
      let due := if ops.all fun p => p.due.isSome then ops.foldl (fun d p => max d (p.due.getD 0)) 0 else 0
      let t := s.ended u g iid ((s.grp u g).endedAt (s.nowOf u) iid due (ops.flatMap Pend.outcome)) (ops.flatMap Pend.outcome) ops
      { t with pend := t.pend.filter fun p => !(p.iid == iid && p.blk == u && p.grp == g) }
    else s := rfl

theorem ended_grp (s : State) (u g iid : Nat) (G : Group) (ws : List (RegKey × Word)) (ops : List Pend) :
    (s.ended u g iid G ws ops).pend = s.pend ∧ (∀ key, ((s.ended u g iid G ws ops).grp u g).getKey key = G.getKey key) ∧
      ((s.ended u g iid G ws ops).grp u g).floor = G.floor ∧ ∀ v h, (v, h) ≠ (u, g) → (s.ended u g iid G ws ops).grp v h = s.grp v h := by
  have snaps : (((s.setGrp u g G).blk u).snapDeliver g iid ws).groups = ((s.setGrp u g G).blk u).groups := by
    unfold Block.snapDeliver
    split <;> rfl
  have same := grp_setBlk_same snaps
  obtain ⟨regs, floor, pend⟩ := sameRegs_memoMake ((s.setGrp u g G).setBlk u (((s.setGrp u g G).blk u).snapDeliver g iid ws)) u g iid ops
  exact ⟨pend, fun key => by rw [State.ended, regs.key, same, state_grp_setGrp], by rw [State.ended, floor, same, state_grp_setGrp],
    fun v h e => by rw [State.ended, regs.others v h e, same, grp_setGrp_other _ _ e]⟩

theorem endedAt_keys (G : Group) (now iid due : Nat) (ws : List (RegKey × Word)) :
    (∀ key, (G.endedAt now iid due ws).getKey key = (G.deliver iid ws).getKey key) ∧ (G.endedAt now iid due ws).floor = G.floor := by
  unfold Group.endedAt
  split
  · exact ⟨getKey_arrived _ _ _, deliver_floor ..⟩
  · exact ⟨getKey_complete _ _ _, deliver_floor ..⟩

theorem sameHeld_retire (s : State) (u g iid : Nat) : SameHeld s (s.retire u g iid) := by
  have snaps (b : Block) (ws : List (RegKey × Word)) : (b.snapDeliver g iid ws).full = b.full := by
    unfold Block.snapDeliver
    split <;> rfl
  have ended (G : Group) (ws : List (RegKey × Word)) (ops : List Pend) : SameHeld s (s.ended u g iid G ws ops) :=
    ((sameHeld_setGrp s u g G).trans (sameHeld_setBlk (snaps _ ws))).trans (sameHeld_memoMake ..)
  rw [retire_eq]
  dsimp only
  split
  · exact (ended _ _ _).trans (sameHeld_pend _ _)
  · exact .refl s

/-- The state after an instruction of one operation, which has its data. -/
theorem retire_lone {s : State} {u g iid : Nat} {q : Pend} (hp : s.partsOf u g iid = [q]) (hd : q.done = true) :
    (s.retire u g iid).pend = (s.pend.filter fun p => !(p.iid == iid && p.blk == u && p.grp == g)) ∧
    (∀ key, ((s.retire u g iid).grp u g).getKey key = ((s.grp u g).deliver iid q.outcome).getKey key) ∧
    ((s.retire u g iid).grp u g).floor = (s.grp u g).floor ∧ ∀ v h, (v, h) ≠ (u, g) → (s.retire u g iid).grp v h = s.grp v h := by
  have outcome : [q].flatMap Pend.outcome = q.outcome := by simp
  have all_done : [q].all (·.done) = true := by simp [hd]
  rw [retire_eq, hp]
  dsimp only
  rw [if_pos all_done, outcome]
  generalize (if [q].all (fun p => p.due.isSome) = true then [q].foldl (fun d p => max d (p.due.getD 0)) 0 else 0) = due
  obtain ⟨keys, floor⟩ := endedAt_keys (s.grp u g) (s.nowOf u) iid due q.outcome
  have ended := ended_grp s u g iid ((s.grp u g).endedAt (s.nowOf u) iid due q.outcome) q.outcome [q]
  generalize s.ended u g iid ((s.grp u g).endedAt (s.nowOf u) iid due q.outcome) q.outcome [q] = t at ended ⊢
  obtain ⟨pend, regs, floors, others⟩ := ended
  exact ⟨by rw [pend], fun key => (regs key).trans (keys key), floors.trans floor, others⟩

/-! ## An access that has its data (R227, R230) -/

/-- The operation with its data. -/
def Pend.answered (p : Pend) (ws : List Word) (bad : Bool) (st : Nat) : Pend :=
  { p with done := true, result := if bad then p.dest.map fun _ => poisonWord else ws, stamp := st }

/-- The state in which an access has its data and its instruction has not ended. -/
def State.returning (s : State) (p : Pend) (ws : List Word) (bad : Bool) (st : Nat) : State :=
  let s := s.setOp (p.answered ws bad st)
  let s := if bad && !p.helper then s.cirBlk p.blk 0 else s
  let s := (if p.kind == .asof then s else s.see p).raiseFloor p.blk p.grp st
  let s := match p.acq with
    | some sc => s.acquired p sc
    | none => s
  if p.kind == .load || p.kind == .asof then s.lateOp p else s

theorem returned_eq (s : State) (p : Pend) (ws : List Word) (bad : Bool) (st : Nat) :
    s.returned p ws bad st = (s.returning p ws bad st).retire p.blk p.grp p.iid := rfl

/-- Beside an operation: its group's registers stand, and what is in flight of its instruction, where that is one operation of its number;
the group's floor rises to f. -/
structure Leads (p : Pend) (f : Nat) (s t : State) : Prop where
  regs  : SameRegs p.blk p.grp s t
  parts : ∀ q, q.uid = p.uid → s.partsOf p.blk p.grp p.iid = [q] → t.partsOf p.blk p.grp p.iid = [q]
  floor : (t.grp p.blk p.grp).floor = max (s.grp p.blk p.grp).floor f
  held  : SameHeld s t

theorem Leads.trans {p : Pend} {f f' : Nat} {s t r : State} (a : Leads p f s t) (b : Leads p f' t r) : Leads p (max f f') s r :=
  ⟨a.regs.trans b.regs, fun q hq h => b.parts q hq (a.parts q hq h), by rw [b.floor, a.floor, Nat.max_assoc], a.held.trans b.held⟩

theorem leads_refl (p : Pend) (s : State) : Leads p 0 s s := ⟨.refl .., fun _ _ h => h, (Nat.max_zero _).symm, .refl s⟩

theorem leads_of_blocks {p : Pend} {s t : State} (hb : t.blocks = s.blocks) (hp : t.pend = s.pend) (hc : t.cores = s.cores) : Leads p 0 s t where
  regs := sameRegs_of_blocks hb
  parts q _ h := by rw [State.partsOf, hp]; exact h
  floor := by simp [State.grp, State.blk, hb]
  held := ⟨fun v => by simp only [State.blk, hb], fun n => by simp only [State.core, hc]⟩

theorem leads_setGrp {p : Pend} {s : State} {G : Group} {f : Nat} (hk : ∀ k, G.getKey k = (s.grp p.blk p.grp).getKey k)
    (hb : G.board = (s.grp p.blk p.grp).board) (hf : G.floor = max (s.grp p.blk p.grp).floor f) : Leads p f s (s.setGrp p.blk p.grp G) :=
  ⟨sameRegs_setGrp hk hb, fun _ _ h => h, by rw [state_grp_setGrp, hf], sameHeld_setGrp ..⟩

theorem leads_raiseFloor (p : Pend) (s : State) (f : Nat) : Leads p f s (s.raiseFloor p.blk p.grp f) :=
  leads_setGrp (fun k => by cases k <;> rfl) rfl rfl

theorem leads_see (p : Pend) (s : State) : Leads p 0 s (s.see p) := by
  unfold State.see
  split
  · exact leads_setGrp (fun k => by cases k <;> rfl) rfl (Nat.max_zero _).symm
  · exact leads_refl p s

theorem leads_tallied {p : Pend} {s t : State} (h : Tallied s t) : Leads p 0 s t := leads_of_blocks h.blocks h.pend h.cores

/-- What an operation that performs lifts is younger than it. -/
theorem partsOf_lift {s : State} {p q : Pend} {u g iid : Nat} (hq : q.uid = p.uid) (h : s.partsOf u g iid = [q]) : (s.lift p).partsOf u g iid = [q] := by
  have lifted : (s.lift p).pend = s.pend.map fun x => if decide (p.uid < x.uid) && orderBlocks { p with done := false } x then
      { x with floor := max x.floor (s.grp p.blk p.grp).floor } else x := rfl
  rw [State.partsOf, lifted, List.filter_map, List.filter_congr (q := fun x => x.iid == iid && x.blk == u && x.grp == g), ← State.partsOf, h]
  · simp [hq]
  · intro x _
    simp only [Function.comp]
    split <;> rfl

theorem leads_lift (p : Pend) (s : State) : Leads p 0 s (s.lift p) where
  regs := SameRegs.trans (t := { s with pend := (s.lift p).pend, cores := (s.lift p).cores }) (sameRegs_of_blocks rfl)
    (sameRegs_setGrp (fun k => by cases k <;> rfl) rfl)
  parts _ hq h := partsOf_lift hq h
  floor := by
    unfold State.lift
    rw [state_grp_setGrp]
    exact (Nat.max_zero _).symm
  held := sameHeld_lift s p

theorem leads_acquired (p : Pend) (s : State) (sc : Scope) : ∃ f, Leads p f s (s.acquired p sc) :=
  ⟨_, (leads_raiseFloor p s _).trans (leads_lift p _)⟩

theorem leads_returning (s : State) (p : Pend) (ws : List Word) (bad : Bool) (st : Nat) :
    ∃ f, (p.acq = none → f = 0) ∧ Leads p (max st f) (s.setOp (p.answered ws bad st)) (s.returning p ws bad st) := by
  have late (s : State) : Leads p 0 s (if p.kind == .load || p.kind == .asof then s.lateOp p else s) := by
    split
    · exact leads_tallied (tallied_lateOp s p)
    · exact leads_refl p s
  have marked (s : State) : Leads p 0 s (if bad && !p.helper then s.cirBlk p.blk 0 else s) := by
    split
    · exact leads_of_blocks rfl rfl rfl
    · exact leads_refl p s
  have seen (s : State) : Leads p 0 s (if p.kind == .asof then s else s.see p) := by
    split
    · exact leads_refl p s
    · exact leads_see p s
  have acquired (s : State) : ∃ f, (p.acq = none → f = 0) ∧ Leads p f s (match p.acq with
      | some sc => s.acquired p sc
      | none => s) := by
    cases p.acq with
    | none => exact ⟨0, fun _ => rfl, leads_refl p s⟩
    | some sc =>
      obtain ⟨f, h⟩ := leads_acquired p s sc
      exact ⟨f, fun e => by simp at e, h⟩
  have raised := ((marked (s.setOp (p.answered ws bad st))).trans (seen _)).trans (leads_raiseFloor p _ st)
  obtain ⟨f, hf, h⟩ := acquired _
  refine ⟨f, hf, ?_⟩
  have all := (raised.trans h).trans (late _)
  simp only [Nat.max_zero, Nat.zero_max] at all
  exact all

/-! ## An operation that returns -/

section
variable {s : State} {op : Nat} {p : Pend}

theorem LoneOp.uid (h : LoneOp s op p) : p.uid = op := by
  have mem : p ∈ s.pend.filter fun q => q.uid == op := h.once ▸ List.mem_singleton_self p
  exact beq_iff_eq.mp (List.mem_filter.mp mem).2

/-- What names an operation by its number or its instruction finds it alone. -/
theorem LoneOp.filter_eq (h : LoneOp s op p) {f : Pend → Bool} (hf : f p = true)
    (hs : ∀ q, f q = true → q.uid = op ∨ (q.iid = p.iid ∧ q.blk = p.blk ∧ q.grp = p.grp)) : s.pend.filter f = [p] := by
  refine Eq.trans (List.filter_congr fun q hq => ?_) h.once
  rw [Bool.eq_iff_iff, beq_iff_eq]
  exact ⟨fun e => (h.only q hq (hs q e)) ▸ h.uid, fun e => (h.only q hq (.inl e)) ▸ hf⟩

theorem LoneOp.parts (h : LoneOp s op p) : s.partsOf p.blk p.grp p.iid = [p] :=
  h.filter_eq (by simp) fun q hq => .inr (by simpa [and_assoc] using hq)

/-- An operation in the place of the one of its number. -/
theorem LoneOp.parts_setOp (h : LoneOp s op p) {q : Pend} (hu : q.uid = p.uid) (hi : q.iid = p.iid) (hb : q.blk = p.blk) (hg : q.grp = p.grp) :
    (s.setOp q).partsOf p.blk p.grp p.iid = [q] := by
  have set : (s.setOp q).pend = s.pend.map fun x => if x.uid == q.uid then q else x := rfl
  rw [State.partsOf, set, List.filter_map, List.filter_congr (q := fun x => x.iid == p.iid && x.blk == p.blk && x.grp == p.grp), ← State.partsOf,
    h.parts]
  · simp [hu]
  · intro x hx
    simp only [Function.comp]
    split
    · next e =>
      have same : x = p := h.only x hx (.inl (by rw [← h.uid, ← hu]; simpa using e))
      rw [same, hi, hb, hg]
    · rfl

theorem ownWrites_append (G : Group) (iid : Nat) (ws vs : List (RegKey × Word)) :
    G.ownWrites iid (ws ++ vs) = G.ownWrites iid ws ++ G.ownWrites iid vs := List.filter_append ..

/-- What an operation writes: each pair a destination with its word, or its status predicate with 1. -/
theorem mem_outcome {q : Pend} {w : RegKey × Word} (h : w ∈ q.outcome) : w ∈ q.dest.zip q.result ∨ (q.status = some w.1 ∧ w.2 = 1#32) := by
  rcases List.mem_append.mp h with h | h
  · exact .inl h
  · split at h
    · next k e =>
      obtain rfl := List.mem_singleton.mp h
      exact .inr ⟨e, rfl⟩
    · simp at h

/-- Keys that are neither a destination nor the status predicate stand. -/
theorem getKey_deliver_other (G : Group) (iid : Nat) {q : Pend} {key : RegKey} (hd : key ∉ q.dest) (hs : q.status ≠ some key) :
    (G.deliver iid q.outcome).getKey key = G.getKey key := by
  rw [getKey_deliver]
  refine getKey_writes_ne G fun w hw e => ?_
  rcases mem_outcome (mem_ownWrites.mp hw).1 with h | ⟨h, -⟩
  · exact hd (e ▸ (List.of_mem_zip h).1)
  · exact hs (e ▸ h)

/-- A destination that is still the instruction's own holds its word. -/
theorem getKey_deliver_dest {G : Group} {iid j : Nat} {q : Pend} {key : RegKey} (hn : q.dest.Nodup) (he : ∀ k ∈ q.dest, k.exists = true)
    (hj : q.dest[j]? = some key) (hl : j < q.result.length) (own : ∃ e ∈ G.board, e.iid = iid ∧ ∃ x ∈ e.cells, x.key = key)
    (hs : q.status ≠ some key) : (G.deliver iid q.outcome).getKey key = key.keep (q.result.getD j 0#32) := by
  have status (H : Group) : (H.writes (G.ownWrites iid (match q.status with
      | some k => [(k, 1#32)]
      | none => []))).getKey key = H.getKey key := by
    refine getKey_writes_ne H fun w hw e => ?_
    have hw := (mem_ownWrites.mp hw).1
    split at hw
    · next k ek =>
      obtain rfl := List.mem_singleton.mp hw
      exact hs (ek.trans (congrArg some e))
    · simp at hw
  obtain ⟨hjd, hkey⟩ := List.getElem?_eq_some_iff.mp hj
  rw [getKey_deliver, Pend.outcome, ownWrites_append, writes_append, status]
  refine getKey_writes key _ _ G (fun w hw => ?_) (fun w hw e => ?_) ⟨(key, q.result.getD j 0#32), mem_ownWrites.mpr ⟨?_, own⟩, rfl⟩
  · exact he _ (List.of_mem_zip (mem_ownWrites.mp hw).1).1
  · obtain ⟨i, hi, hw⟩ := List.mem_iff_getElem.mp (mem_ownWrites.mp hw).1
    have hi' : i < q.dest.length ∧ i < q.result.length := by simpa using hi
    rw [List.getElem_zip] at hw
    subst hw
    have place : i = j := (hn.getElem_inj_iff).mp (e.trans hkey.symm)
    simp [← place, hi'.2]
  · refine List.mem_iff_getElem.mpr ⟨j, by simp [hjd, hl], ?_⟩
    simp [hkey, hl]

/-- The status predicate that is still the instruction's own is 1. -/
theorem getKey_deliver_status {G : Group} {iid : Nat} {q : Pend} {key : RegKey} (hs : q.status = some key) (he : key.exists = true)
    (own : ∃ e ∈ G.board, e.iid = iid ∧ ∃ x ∈ e.cells, x.key = key) : (G.deliver iid q.outcome).getKey key = key.keep 1#32 := by
  have mine : G.ownWrites iid [(key, 1#32)] = [(key, 1#32)] := by
    refine List.filter_eq_self.mpr fun w hw => ?_
    have := (mem_ownWrites (G := G) (iid := iid) (ws := [w]) (w := w)).mpr ⟨List.mem_singleton_self w, by rw [List.mem_singleton.mp hw]; exact own⟩
    exact (List.mem_filter.mp this).2
  have outcome : q.outcome = q.dest.zip q.result ++ [(key, 1#32)] := by rw [Pend.outcome, hs]
  rw [getKey_deliver, outcome, ownWrites_append, writes_append, mine]
  exact (getKey_setKey _ _ _ _ he).trans (if_pos rfl)

/-! ## What has returned -/

/-- From here the same operation returns: registers, floor and flight stand, other things are counted. -/
structure CountsMore (p : Pend) (s t : State) : Prop where
  regs  : SameRegs p.blk p.grp s t
  floor : (t.grp p.blk p.grp).floor = (s.grp p.blk p.grp).floor
  pend  : t.pend = s.pend

theorem CountsMore.refl (p : Pend) (s : State) : CountsMore p s s := ⟨.refl .., rfl, rfl⟩

theorem CountsMore.trans {p : Pend} {s t r : State} (a : CountsMore p s t) (b : CountsMore p t r) : CountsMore p s r :=
  ⟨a.regs.trans b.regs, b.floor.trans a.floor, b.pend.trans a.pend⟩

theorem Tallied.countsMore {s t : State} (h : Tallied s t) (p : Pend) : CountsMore p s t :=
  ⟨sameRegs_of_blocks h.blocks, by rw [h.grp], h.pend⟩

theorem countsMore_noteSeen (s : State) (p : Pend) (what n : Nat) : CountsMore p s (s.noteSeen p what n) :=
  ⟨sameRegs_setGrp (fun k => by cases k <;> rfl) rfl, by unfold State.noteSeen; rw [state_grp_setGrp], rfl⟩

theorem countsMore_countLine (s : State) (p : Pend) (hit : Bool) : CountsMore p s (s.countLine p hit) :=
  ((tallied_count ..).countsMore p).trans (countsMore_noteSeen ..)

theorem countsMore_l1Fill (s : State) (p : Pend) (core line st : Nat) : CountsMore p s (s.l1Fill core line st) := ⟨sameRegs_of_blocks rfl, rfl, rfl⟩

/-- An operation as another way of serving it leaves it. -/
def Pend.servedAs (p : Pend) (fe : Bool) (due : Option Nat) (miss : Bool) : Pend := { p with fe := fe, due := due, miss := miss }

/-- An operation that has its data, from a state that counts more, leaves as `Returned` says. -/
theorem LoneOp.returned (h : LoneOp s op p) {s' : State} (more : CountsMore p s s')
    (fe : Bool) (due : Option Nat) (miss : Bool) (ws : List Word) (bad : Bool) (st : Nat) :
    Returned s p (orPoison bad p ws) st (s'.returned (p.servedAs fe due miss) ws bad st) ∧
    ∀ key, p.status = some key → key.exists = true → (∃ e ∈ (s.grp p.blk p.grp).board, e.iid = p.iid ∧ ∃ x ∈ e.cells, x.key = key) →
      ((s'.returned (p.servedAs fe due miss) ws bad st).grp p.blk p.grp).getKey key = key.keep 1#32 := by
  have lead := leads_returning s' (p.servedAs fe due miss) ws bad st
  have lone : (s'.setOp ((p.servedAs fe due miss).answered ws bad st)).partsOf p.blk p.grp p.iid =
      [(p.servedAs fe due miss).answered ws bad st] := by
    have alone := h.parts_setOp (q := (p.servedAs fe due miss).answered ws bad st) rfl rfl rfl rfl
    simp only [State.partsOf, State.setOp, more.pend] at alone ⊢
    exact alone
  obtain ⟨f, hacquire, lead⟩ := lead
  obtain ⟨pend, keys, floor, others⟩ := retire_lone (lead.parts ((p.servedAs fe due miss).answered ws bad st) rfl lone) rfl
  have total : SameRegs p.blk p.grp s (s'.returning (p.servedAs fe due miss) ws bad st) :=
    (more.regs.trans (sameRegs_of_blocks (t := s'.setOp ((p.servedAs fe due miss).answered ws bad st)) rfl)).trans lead.regs
  have raised : ((s'.returned (p.servedAs fe due miss) ws bad st).grp p.blk p.grp).floor =
      max (s.grp p.blk p.grp).floor (max st f) := (floor.trans lead.floor).trans (congrArg (max · _) more.floor)
  refine ⟨⟨fun q hq mine => ?_, fun j key hj hl own hs => ?_, fun key hd hs => ?_, ⟨?_, fun e => ?_⟩, fun v g e => ?_⟩, fun key hs he own => ?_⟩
  · rw [returned_eq, pend, List.mem_filter] at hq
    have other := hq.2
    simp [Pend.servedAs, mine] at other
  · refine (keys key).trans ((getKey_deliver_dest (q := (p.servedAs fe due miss).answered ws bad st) h.keys.1 (fun k hk => ?_) hj hl
      (total.board ▸ own) hs).trans ?_)
    · rcases h.keys.2 k hk with ⟨L, x, rfl⟩ | ⟨n, rfl⟩ <;> rfl
    · rcases h.keys.2 key (List.mem_of_getElem? hj) with ⟨L, x, rfl⟩ | ⟨n, rfl⟩ <;> rfl
  · exact ((keys key).trans (getKey_deliver_other (q := (p.servedAs fe due miss).answered ws bad st) _ _ hd hs)).trans (total.key key)
  · rw [raised]
    omega
  · rw [raised, hacquire e, Nat.max_zero]
  · exact (others v g e).trans (total.others v g e)
  · exact (keys key).trans (getKey_deliver_status (q := (p.servedAs fe due miss).answered ws bad st) hs he (total.board ▸ own))

end

theorem sameHeld_returned (s : State) (p : Pend) (ws : List Word) (bad : Bool) (st : Nat) : SameHeld s (s.returned p ws bad st) := by
  obtain ⟨f, -, lead⟩ := leads_returning s p ws bad st
  exact ((sameHeld_pend s _).trans lead.held).trans (sameHeld_retire (s.returning p ws bad st) p.blk p.grp p.iid)

end Sys2Proof.Machine
end

section
/-! LEMMAS AND PROOFS. Translation, load returns and as-of walks (O46). -/

namespace Sys2Proof.Machine

/-! ## Walks and permissions (R305, R310) -/

theorem walk_beyond (s : State) (ctx va : Nat) (h : 2 ^ 57 ≤ va) : s.walk ctx va = .fail 11 false := if_pos h

theorem permCause_eq (priv : Bool) (acc : Acc) (e : Nat) : permCause priv acc e =
    if (priv = true ∨ bitOf e 3 = true) ∧ (acc = .store → bitOf e 1 = true) ∧ (acc = .fetch → bitOf e 2 = true) ∧ (acc = .asof → bitOf e 4 = true)
    then none else some 12 := by
  unfold permCause
  cases acc <;> cases priv <;> cases bitOf e 3 <;> simp

theorem asofLocal_eq_none_iff (s : State) (key : BitVec 256) (off n S : Nat) :
    s.asofLocal key off n S = none ↔ S < (s.slice (s.home off)).dusk := by
  unfold State.asofLocal
  dsimp only
  split
  · next h => exact ⟨fun _ => h, fun _ => rfl⟩
  · next h =>
    refine ⟨fun e => ?_, fun e => absurd e h⟩
    split at e <;> cases e

/-! ## A step of one operation -/

theorem onOp_step {s : State} {op : Nat} {f : State → Pend → State} {N : Pend → Prop} {Q : State → Pend → Prop}
    (found : ∀ p, N p → s.op? op = some p) (mem : ∀ p, (f s p).mem = s.mem) (does : ∀ p, N p → Q (f s p) p) :
    ∃ t, onOp s op f = .next t ∧ t.mem = s.mem ∧ ∀ p, N p → Q t p := by
  cases e : s.op? op with
  | none => exact ⟨s, by rw [onOp, e], rfl, fun p hp => absurd ((found p hp).symm.trans e) (by simp)⟩
  | some q =>
    refine ⟨f s q, by rw [onOp, e], mem q, fun p hp => ?_⟩
    obtain rfl : p = q := Option.some.inj ((found p hp).symm.trans e)
    exact does p hp

/-! ## Loads (R225, R227, R230, R234, R239) -/

section
variable {s : State} {op : Nat} {p : Pend}

/-- Nothing older keeps the operation back, and no store forwards to it. -/
theorem LoneOp.forward (h : LoneOp s op p) : s.forward p = none := by
  have clear := h.clear
  simp only [State.clear, List.all_eq_true, Bool.and_eq_true, Bool.not_eq_true'] at clear
  have none_place : (older s.pend p.uid).filter (fun o => placeBlocks o p) = [] :=
    List.filter_eq_nil_iff.mpr fun o ho => by simp [(clear o ho).2]
  unfold State.forward
  dsimp only
  rw [none_place]
  split <;> rfl

theorem LoneOp.loads (h : LoneOp s op p) (hk : p.kind = .load) : (p.done || p.fault.isSome || p.sent || p.kind != .load) = false := by
  obtain ⟨hdone, hfault, hsent, -⟩ := h.open_
  simp [hdone, hfault, hsent, hk]

/-- A load of block memory. -/
theorem LoneOp.loadReturn_bm (h : LoneOp s op p) (hk : p.kind = .load) (hb : p.bm = true) (hf : p.fe = false) : s.loadReturn p =
    s.returned p (bytesWords (rdBytes (s.blk p.blk).bm p.addr p.size)) (mget false (s.blk p.blk).bmPoison (p.addr / 32)) 0 := by
  simp only [State.loadReturn, h.loads hk, hb, hf, h.clear, Bool.false_eq_true, if_false, if_true, Bool.not_true]
  rfl

/-- The parts of a load of a granule are it alone, and nothing older keeps it back. -/
theorem LoneOp.granule (h : LoneOp s op p) :
    (s.pend.filter fun q => q.iid == p.iid && q.blk == p.blk && q.grp == p.grp && !q.done && q.addr / 16 == p.addr / 16) = [p] ∧
      s.clearAll [p] = true := by
  obtain ⟨hdone, -⟩ := h.open_
  constructor
  · refine h.filter_eq (by simp [hdone]) fun q hq => .inr ?_
    simp only [Bool.and_eq_true, beq_iff_eq] at hq
    obtain ⟨⟨⟨⟨hi, hb⟩, hg⟩, -⟩, -⟩ := hq
    exact ⟨hi, hb, hg⟩
  · have clear := h.clear
    simp only [State.clear, List.all_eq_true] at clear
    simp only [State.clearAll, List.all_cons, List.all_nil, Bool.and_true, List.all_eq_true, Bool.or_eq_true]
    exact fun o ho => .inr (clear o ho)

/-- A load of a granule with a full bit: it waits for the bit, and clears it where it says so. -/
theorem LoneOp.loadReturn_fe (h : LoneOp s op p) (hk : p.kind = .load) (hb : p.bm = true) (hf : p.fe = true) : s.loadReturn p =
    if mget false (s.blk p.blk).full (p.addr / 16) = true then
      let t := s.returned (p.servedAs false p.due p.miss) (bytesWords (rdBytes (s.blk p.blk).bm p.addr p.size))
        (mget false (s.blk p.blk).bmPoison (p.addr / 32)) 0
      if p.clr then t.setFull p.blk (p.addr / 16) false else t
    else s := by
  obtain ⟨parts, free⟩ := h.granule
  simp only [State.loadReturn, h.loads hk, hb, hf, parts, free, Bool.false_eq_true, if_false, if_true, Bool.not_true, Bool.or_false]
  cases mget false (s.blk p.blk).full (p.addr / 16) <;> rfl

/-- A load of local or of host memory. -/
theorem LoneOp.loadReturn_phys (h : LoneOp s op p) (hk : p.kind = .load) (hb : p.bm = false) {ph : Phys} (hp : p.phys = some ph)
    (ht : ph.target ≠ 1) : ∃ due, s.loadReturn p = (s.loadPhys (s.coreOf p) p ph).2.2.2.returned (p.servedAs p.fe due p.miss)
      (bytesWords (s.loadPhys (s.coreOf p) p ph).1) (s.loadPhys (s.coreOf p) p ph).2.1 (s.loadPhys (s.coreOf p) p ph).2.2.1 := by
  refine ⟨if s.l1Held p then p.due else none, ?_⟩
  unfold State.loadReturn
  rw [if_neg (by simp [h.loads hk]), if_neg (by simp [hb])]
  split
  · next e => cases hp.symm.trans e
  · next ph' e =>
    obtain rfl : ph' = ph := Option.some.inj (e.symm.trans hp)
    simp only [h.forward, h.clear, ht, Bool.false_eq_true, if_false, Bool.not_true]
    cases s.l1Held p <;> rfl

theorem loadStamp_eq (s : State) (p : Pend) (off : Nat) : loadStamp s p off =
    (s.l1Stamp (s.coreOf p) (s.da off / 128) p).getD (s.loadLocal (s.keyOf p.ctx) off p.size p.hist).2.2 := by
  simp only [loadStamp, State.l1Stamp]
  cases mget 0 (s.core (s.coreOf p)).l1 (s.da off / 128) with
  | zero =>
    simp only [ne_eq, not_true_eq_false, and_false, if_false]
    rfl
  | succ n =>
    cases p.due with
    | none =>
      simp only [Option.isSome_none, Bool.false_eq_true, false_and, if_false]
      rfl
    | some d => simp

/-- L1 serves only a load that chose so where it translated (R26). -/
theorem l1Stamp_of_due_none {p : Pend} (h : p.due = none) (s : State) (core line : Nat) : s.l1Stamp core line p = none := by
  unfold State.l1Stamp
  split
  · rfl
  · simp [h]

/-- What a load of local memory reads, and its stamp (R230). -/
theorem loadPhys_local (s : State) (p : Pend) {ph : Phys} (ht : ph.target = 0) :
    (s.loadPhys (s.coreOf p) p ph).1 = s.readLocal (s.keyOf p.ctx) ph.off p.size ∧
    (s.loadPhys (s.coreOf p) p ph).2.1 = s.poisonedIn ph.off p.size ∧ (s.loadPhys (s.coreOf p) p ph).2.2.1 = loadStamp s p ph.off ∧
    CountsMore p s (s.loadPhys (s.coreOf p) p ph).2.2.2 := by
  rw [loadStamp_eq]
  unfold State.loadPhys
  rw [if_neg (by rw [ht]; decide)]
  dsimp only
  cases s.l1Stamp (s.coreOf p) (s.da ph.off / 128) p with
  | none => exact ⟨rfl, rfl, rfl, (countsMore_countLine ..).trans (countsMore_l1Fill ..)⟩
  | some st => exact ⟨rfl, rfl, rfl, countsMore_countLine ..⟩

/-- A line that L1 does not serve enters it with the stamp returned (R230). -/
theorem loadPhys_fills {s : State} {p : Pend} {ph : Phys} (ht : ph.target = 0) (hd : p.due = none) :
    mget 0 ((s.loadPhys (s.coreOf p) p ph).2.2.2.core (s.coreOf p)).l1 (s.da ph.off / 128) = loadStamp s p ph.off + 1 := by
  have miss := l1Stamp_of_due_none hd s (s.coreOf p) (s.da ph.off / 128)
  rw [loadStamp_eq, miss]
  unfold State.loadPhys
  rw [if_neg (by rw [ht]; decide)]
  dsimp only
  rw [miss]
  simp only [State.l1Fill, core_setCore, mget_mset_self, Option.getD_none]

theorem loadPhys_host (s : State) (core : Nat) (p : Pend) {ph : Phys} (ht : ph.target = 2) :
    s.loadPhys core p ph = (rdBytes s.mem (hostBase + ph.off) p.size, s.hostPoison ph.off p.size,
      (s.slice (sliceOfCore core)).last, s.countLine p false) :=
  if_pos ht

theorem shadow_groups (b : Block) (unit : Nat) : (b.shadow unit).1.groups = b.groups := by
  unfold Block.shadow
  dsimp only
  (repeat' split) <;> rfl

theorem loseInterval_grp (s : State) (u : Nat) : (∀ w g, (s.loseInterval u).grp w g = s.grp w g) ∧ (s.loseInterval u).pend = s.pend ∧
    ∀ w, ((s.loseInterval u).blk w).full = (s.blk w).full := by
  unfold State.loseInterval
  dsimp only
  split
  · exact ⟨fun w g => grp_setBlk_same (s := s) (b := { s.blk u with interval := { (s.blk u).interval with flag := false } }) rfl w g, rfl,
      (sameHeld_setBlk (s := s) (b := { s.blk u with interval := { (s.blk u).interval with flag := false } }) rfl).full⟩
  · exact ⟨fun _ _ => rfl, rfl, fun _ => rfl⟩

/-- A full bit is set or cleared; groups and operations stand. -/
theorem setFull_grp (s : State) (u granule : Nat) (v : Bool) : (∀ w g, (s.setFull u granule v).grp w g = s.grp w g) ∧
    (s.setFull u granule v).pend = s.pend ∧ mget false ((s.setFull u granule v).blk u).full granule = v := by
  have set (b : Block) (h : b.groups = (s.blk u).groups) (hf : mget false b.full granule = v) : (∀ w g, (s.setBlk u b).grp w g = s.grp w g) ∧
      (s.setBlk u b).pend = s.pend ∧ mget false ((s.setBlk u b).blk u).full granule = v :=
    ⟨grp_setBlk_same h, rfl, by rw [blk_setBlk, hf]⟩
  unfold State.setFull
  dsimp only
  obtain ⟨hg, hp, hf⟩ := set { ((s.blk u).shadow (granule / 8)).1 with full := mset false ((s.blk u).shadow (granule / 8)).1.full granule v }
    (shadow_groups ..) (mget_mset_self ..)
  generalize s.setBlk u _ = t at hg hp hf ⊢
  split
  · obtain ⟨lg, lp, lf⟩ := loseInterval_grp t u
    exact ⟨fun w g => (lg w g).trans (hg w g), lp.trans hp, by rw [lf, hf]⟩
  · exact ⟨hg, hp, hf⟩

theorem Returned.congr {t t' : State} {ws : List Word} {st : Nat} (h : Returned s p ws st t) (hg : ∀ u g, t'.grp u g = t.grp u g)
    (hp : t'.pend = t.pend) : Returned s p ws st t' := by
  obtain ⟨gone, vals, regs, floor, groups⟩ := h
  exact ⟨hp ▸ gone, by simpa only [hg] using vals, by simpa only [hg] using regs, by simpa only [hg] using floor, by simpa only [hg] using groups⟩

end

theorem loadReturn_step (op : Nat) (s : State) :
    ∃ t, exec (.loadReturn op) s = .next t ∧ t.mem = s.mem ∧ ∀ p, LoneOp s op p → p.kind = .load →
    (p.bm = true → p.fe = false →
      Returned s p (orPoison (mget false (s.blk p.blk).bmPoison (p.addr / 32)) p (bytesWords (rdBytes (s.blk p.blk).bm p.addr p.size))) 0 t) ∧
    (p.bm = true → p.fe = true → mget false (s.blk p.blk).full (p.addr / 16) = true →
      Returned s p (orPoison (mget false (s.blk p.blk).bmPoison (p.addr / 32)) p (bytesWords (rdBytes (s.blk p.blk).bm p.addr p.size))) 0 t ∧
      (mget false (t.blk p.blk).full (p.addr / 16) = !p.clr)) ∧
    (p.bm = true → p.fe = true → mget false (s.blk p.blk).full (p.addr / 16) = false → t = s) ∧
    ∀ ph, p.bm = false → p.phys = some ph →
      (ph.target = 0 → Returned s p
        (orPoison (s.poisonedIn ph.off p.size) p (bytesWords (s.readLocal (s.keyOf p.ctx) ph.off p.size))) (loadStamp s p ph.off) t ∧
        (p.due = none → mget 0 (t.core (s.coreOf p)).l1 (s.da ph.off / 128) = loadStamp s p ph.off + 1)) ∧
      (ph.target = 2 → Returned s p (orPoison (s.hostPoison ph.off p.size) p (bytesWords (rdBytes s.mem (hostBase + ph.off) p.size)))
        (s.slice (sliceOfCore (s.coreOf p))).last t) := by
  refine onOp_step (fun p (h : LoneOp s op p) => h.found) s.loadReturn_mem fun p h hk => ?_
  refine ⟨fun hb hf => ?_, fun hb hf full => ?_, fun hb hf empty => ?_, fun ph hb hp => ⟨fun ht => ?_, fun ht => ?_⟩⟩
  · rw [h.loadReturn_bm hk hb hf]
    exact (h.returned (.refl p s) p.fe p.due p.miss ..).1
  · obtain ⟨back, -⟩ := h.returned (.refl p s) false p.due p.miss (bytesWords (rdBytes (s.blk p.blk).bm p.addr p.size))
      (mget false (s.blk p.blk).bmPoison (p.addr / 32)) 0
    have held := (sameHeld_returned s (p.servedAs false p.due p.miss) (bytesWords (rdBytes (s.blk p.blk).bm p.addr p.size))
      (mget false (s.blk p.blk).bmPoison (p.addr / 32)) 0).full p.blk
    rw [h.loadReturn_fe hk hb hf, if_pos full]
    generalize s.returned _ _ _ 0 = t at back held ⊢
    dsimp only
    cases p.clr with
    | true =>
      obtain ⟨hg, hp, hfull⟩ := setFull_grp t p.blk (p.addr / 16) false
      exact ⟨back.congr hg hp, hfull⟩
    | false => exact ⟨back, (congrArg (mget false · (p.addr / 16)) held).trans full⟩
  · rw [h.loadReturn_fe hk hb hf, if_neg (by simp [empty])]
  · obtain ⟨due, e⟩ := h.loadReturn_phys hk hb hp (by rw [ht]; decide)
    obtain ⟨data, bad, stamp, more⟩ := loadPhys_local s p ht
    have fills := loadPhys_fills (s := s) (p := p) (ph := ph) ht
    rw [e, data, bad, stamp]
    exact ⟨(h.returned more ..).1, fun hd => by rw [(sameHeld_returned ..).l1, fills hd]⟩
  · obtain ⟨due, e⟩ := h.loadReturn_phys hk hb hp (by rw [ht]; decide)
    rw [e, loadPhys_host _ _ _ ht]
    exact (h.returned (countsMore_countLine ..) ..).1

/-! ## As-of loads (R249, R397) -/

theorem LoneOp.asofWalk {s : State} {op : Nat} {p : Pend} (h : LoneOp s op p) (hk : p.kind = .asof) {ph : Phys} (hp : p.phys = some ph)
    (ht : ph.target = 0) {bad : Bool} {k : Nat} (hw : p.walked = some (bad, k)) :
    ∃ s', Tallied s s' ∧ s.asofWalk p = s'.returned (p.servedAs p.fe p.due true) (bytesWords p.data) bad 0 := by
  obtain ⟨hdone, hfault, hsent, -⟩ := h.open_
  have starts : (p.done || p.fault.isSome || p.sent || p.kind != .asof) = false := by simp [hdone, hfault, hsent, hk]
  refine ⟨(((s.count p.ctx 0x10 k).unitAdd (512 + s.home ph.off) 7 k).served (s.home ph.off) 2 k).late p.ctx (640 + s.home ph.off / 8) 0 2 p.issued k,
    (((tallied_count ..).trans (tallied_unitAdd ..)).trans (tallied_served ..)).trans (tallied_late ..), ?_⟩
  unfold State.asofWalk
  rw [if_neg (by simp [starts])]
  split
  · next e => cases hp.symm.trans e
  · next ph' e =>
    obtain rfl : ph' = ph := Option.some.inj (e.symm.trans hp)
    rw [if_neg (by simp [h.clear]), if_neg (by rw [ht]; decide)]
    split
    · next e => cases hw.symm.trans e
    · next bad' k' e =>
      obtain ⟨rfl, rfl⟩ : bad' = bad ∧ k' = k := Prod.mk.inj (Option.some.inj (e.symm.trans hw))
      rfl

theorem asofWalk_step (op : Nat) (s : State) :
    ∃ t, exec (.asofWalk op) s = .next t ∧ t.mem = s.mem ∧ ∀ p, LoneOp s op p → ∀ ph, p.kind = .asof →
    p.phys = some ph → ph.target = 0 → ∀ bad k, p.walked = some (bad, k) →
      Returned s p (orPoison bad p (bytesWords p.data)) 0 t ∧
      ∀ key, p.status = some key → (∃ L n, key = .p L n ∧ n < 12) →
        (∃ e ∈ (s.grp p.blk p.grp).board, e.iid = p.iid ∧ ∃ x ∈ e.cells, x.key = key) → (t.grp p.blk p.grp).getKey key = 1#32 := by
  refine onOp_step (fun p (h : LoneOp s op p) => h.found) s.asofWalk_mem fun p h ph hk hp ht bad k hw => ?_
  obtain ⟨s', tallied, e⟩ := h.asofWalk hk hp ht hw
  rw [e]
  obtain ⟨back, status⟩ := h.returned (tallied.countsMore p) p.fe p.due true (bytesWords p.data) bad 0
  refine ⟨back, fun key hs ⟨L, n, hkey, hn⟩ own => ?_⟩
  subst hkey
  exact status _ hs (by simpa [RegKey.exists] using hn) own

/-! ## Translation (R180, R305-R311) -/

/-- What a translation and its counting change: TLBs, counters and free values, what is counted of pages, groups' notes, a kernel's CIR. -/
structure Walked (s t : State) : Prop where
  rest  : t = { s with
    fresh := t.fresh, units := t.units, ctxs := t.ctxs, tlb := t.tlb, counted := t.counted, blocks := t.blocks
    kernels := t.kernels }
  keys  : ∀ n, (t.ctx n).priv = (s.ctx n).priv ∧ (t.ctx n).key = (s.ctx n).key
  seats : ∀ u, (t.blk u).core = (s.blk u).core

theorem Walked.refl (s : State) : Walked s s := ⟨rfl, fun _ => ⟨rfl, rfl⟩, fun _ => rfl⟩

theorem Walked.trans {s t r : State} (a : Walked s t) (b : Walked t r) : Walked s r :=
  ⟨b.rest.trans (by rw [a.rest]), fun n => ⟨(b.keys n).1.trans (a.keys n).1, (b.keys n).2.trans (a.keys n).2⟩,
    fun u => (b.seats u).trans (a.seats u)⟩

theorem Tallied.walked {s t : State} (h : Tallied s t) : Walked s t where
  rest := h.rest.trans (by rw [h.rest])
  keys := h.keys
  seats u := by simp only [State.blk, h.blocks]

theorem walked_tlbFill (s : State) (core ctx va : Nat) (ent : Nat × Nat × Nat) (tables : List (Nat × Nat)) :
    Walked s (s.tlbFill core ctx va ent tables) := by
  have put (s : State) (x : Tlb) : Walked s (s.tlbPut x) := ⟨rfl, fun _ => ⟨rfl, rfl⟩, fun _ => rfl⟩
  have puts (x : Nat × Nat → Tlb) (l : List (Nat × Nat)) (s : State) : Walked s (l.foldl (fun s t => s.tlbPut (x t)) s) := by
    induction l generalizing s with
    | nil => exact .refl s
    | cons t l ih => exact (put s _).trans (ih _)
  exact ((put s _).trans (put _ _)).trans
    (puts (fun t => ⟨528 + dieOf core, ctx, va / 2 ^ (12 + 9 * t.1) * 2 ^ (12 + 9 * t.1), 12 + 9 * t.1, t.2⟩) tables _)

theorem walked_translate (s : State) (core ctx va : Nat) (acc : Acc) (cached : Bool) : Walked s (s.translate core ctx va acc cached).2 := by
  have filled := walked_tlbFill s
  unfold State.translate
  dsimp only
  split
  · split <;> exact .refl s
  · split
    · exact .refl s
    · split
      · exact .refl s
      · exact filled ..

theorem walked_countWalk (s : State) (core ctx since : Nat) (found : Option Tlb) (first : Bool) :
    Walked s (s.countWalk core ctx since found first) := by
  have counts (a b : Nat) : Tallied s (((s.count ctx 0x08 a).count ctx 0x09 b).unitAdd (656 + dieOf core) 0 b) :=
    ((tallied_count ..).trans (tallied_count ..)).trans (tallied_unitAdd ..)
  unfold State.countWalk
  dsimp only
  split
  · exact (counts _ _).walked
  · exact (((counts _ _).trans (tallied_served ..)).trans (tallied_late ..)).walked

theorem walked_setGrp (s : State) (u g : Nat) (G : Group) : Walked s (s.setGrp u g G) where
  rest := rfl
  keys _ := ⟨rfl, rfl⟩
  seats v := by
    by_cases e : v = u
    · rw [e, State.setGrp, blk_setBlk]
      rfl
    · rw [State.setGrp, blk_setBlk_ne _ _ e]

theorem walked_noteSeen (s : State) (p : Pend) (what n : Nat) : Walked s (s.noteSeen p what n) := walked_setGrp ..

theorem walked_countAccess (s : State) (p : Pend) (x : Xlat) : Walked s (s.countAccess p x) := by
  unfold State.countAccess
  split
  · exact (walked_setGrp s p.blk p.grp _).trans ⟨rfl, fun _ => ⟨rfl, rfl⟩, fun _ => rfl⟩
  · exact .refl s

theorem op?_setOp {s : State} {uid : Nat} {q r : Pend} (h : s.op? uid = some r) (hq : q.uid = uid) : (s.setOp q).op? uid = some q := by
  have same : ((fun p : Pend => p.uid == uid) ∘ fun p => if p.uid == q.uid then q else p) = fun p => p.uid == uid := by
    funext p
    simp only [Function.comp, hq]
    split
    · next e => rw [hq, e]; simp
    · rfl
  have hr : r.uid = uid := by simpa using List.find?_some h
  rw [State.op?, State.setOp, List.find?_map, same, ← State.op?, h, Option.map_some, hr, hq]
  simp

section
variable {s : State} {op : Nat} {p : Pend} {cached : Bool}

/-- An operation that translates: no cause to wait stands (R180). -/
structure MayWalk (s : State) (op : Nat) (p : Pend) : Prop where
  found  : s.op? op = some p
  global : p.bm = false
  access : p.access = true
  open_  : p.done = false
  phys   : p.phys = none
  fault  : p.fault = none
  order  : ∀ o ∈ older s.pend p.uid, shareLane o p = true → o.bm = false → o.done = false →
    o.kind ≠ .sys .tlbinv ∧ (o.access = true → o.phys.isSome = true)
  room   : p.kind = .store → s.records p.blk p.grp < 16

/-- The operation as it has translated. -/
def Pend.translated (p : Pend) (x : Xlat) : Pend :=
  { p with phys := some x.phys, hist := bitOf x.leaf 4, migr := bitOf x.leaf 5, page := x.page, psize := 2 ^ x.bits }

theorem MayWalk.uid (h : MayWalk s op p) : p.uid = op := by simpa using List.find?_some h.found

theorem MayWalk.pageWalk (h : MayWalk s op p) : s.pageWalk p cached =
    let core := s.coreOf p
    let found := (s.tlbFind core p.ctx p.addr).filter fun _ => cached
    let count := fun (t : State) => (t.countWalk core p.ctx p.issued found (s.firstOf p 2 (p.addr / 4096))).noteSeen p 2 (p.addr / 4096)
    match s.translate core p.ctx p.addr p.acc cached with
    | (.ok x, s) =>
      let s := ((count s).countAccess p x).setOp (p.translated x)
      if p.kind == .asof && x.phys.target == 0 then
        (match s.asofLocal (s.keyOf p.ctx) x.phys.off p.size p.asofS with
          | none => s.walkFault (p.translated x) 13
          | some (bs, bad, steps) => s.setOp { p.translated x with data := bs, walked := some (bad, steps) })
      else s.setOp (s.l1Choice (p.translated x))
    | (.error (c, poison), s) => (if poison then (count s).cirBlk p.blk 0 else count s).walkFault p c := by
  have starts : (p.bm || p.done || p.phys.isSome || p.fault.isSome || !p.access) = false := by
    simp [h.global, h.open_, h.phys, h.fault, h.access]
  have order : ¬ ((older s.pend p.uid).any fun o => shareLane o p && !o.bm && !o.done &&
      ((o.access && o.phys.isNone) || o.kind == .sys .tlbinv)) = true := by
    simp only [List.any_eq_true, Bool.and_eq_true, Bool.or_eq_true, Bool.not_eq_true', beq_iff_eq]
    rintro ⟨o, ho, ⟨⟨hshare, hbm⟩, hdone⟩, hwait⟩
    obtain ⟨hkind, hphys⟩ := h.order o ho hshare hbm hdone
    rcases hwait with ⟨ha, hn⟩ | hk
    · simp [Option.isNone_iff_eq_none.mp hn] at hphys
      simp [ha] at hphys
    · exact hkind hk
  have room : ¬ (p.kind == .store && decide (16 ≤ s.records p.blk p.grp) && (s.grp p.blk p.grp).live && !s.dying p.blk) = true := by
    simp only [Bool.and_eq_true, beq_iff_eq, decide_eq_true_eq]
    rintro ⟨⟨⟨hk, full⟩, -⟩, -⟩
    exact absurd (h.room hk) (Nat.not_lt.mpr full)
  unfold State.pageWalk
  rw [if_neg (by simp [starts]), if_neg order, if_neg room]
  rfl

theorem l1Choice_other {q : Pend} (h : q.kind ≠ .load) : s.l1Choice q = q := if_pos (by simpa using h)

theorem l1Choice_load {q : Pend} (h : q.kind = .load) : s.l1Choice q = { q with miss := true } ∨
    (s.l1Choice q = { q with due := some (q.cycle + 60) } ∧ s.l1Held q = true ∧ s.nowOf q.blk < q.cycle + 60) := by
  unfold State.l1Choice
  rw [if_neg (by simp [h])]
  split
  · next c =>
    simp only [Bool.and_eq_true, decide_eq_true_eq] at c
    obtain ⟨⟨⟨-, held⟩, now⟩, -⟩ := c
    exact .inr ⟨rfl, held, now⟩
  · exact .inl rfl

theorem asofLocal_congr {s t : State} (hm : SameMemory s t) (hs : t.slices = s.slices) (hr : t.rings = s.rings) (hh : t.heads = s.heads)
    (hp : t.poison = s.poison) (key : BitVec 256) (off n S : Nat) : t.asofLocal key off n S = s.asofLocal key off n S := by
  simp only [State.asofLocal, State.slice, State.ring, State.poisonedIn, State.poisonedAt, hm.da, hm.readLocal, hs, hr, hh, hp] <;> rfl

theorem Walked.keyOf {t : State} (h : Walked s t) (n : Nat) : t.keyOf n = s.keyOf n := by
  simp only [State.keyOf, (h.keys _).1, (h.keys _).2]

theorem Walked.op? {t : State} (h : Walked s t) : t.op? op = s.op? op := by rw [h.rest]; rfl

theorem Walked.asofLocal {t : State} (h : Walked s t) (q : Pend) (key : BitVec 256) (off n S : Nat) :
    (t.setOp q).asofLocal key off n S = s.asofLocal key off n S := by
  refine asofLocal_congr ⟨?_, ?_, ?_, ?_⟩ ?_ ?_ ?_ ?_ .. <;> (rw [h.rest]; rfl)

theorem Walked.coreOf {t : State} (h : Walked s t) (p : Pend) : t.coreOf p = s.coreOf p := by simp only [State.coreOf, h.seats]

theorem Walked.nowOf {t : State} (h : Walked s t) (u : Nat) : t.nowOf u = s.nowOf u := by
  have cycles : t.cycles = s.cycles := by rw [h.rest]
  simp only [State.nowOf, State.cycleOf, h.seats, cycles]

/-- A load's line stands in L1 after its translation as before. -/
theorem Walked.l1Held {t : State} (h : Walked s t) {q : Pend} {ph : Phys} (hq : q.phys = some ph) (held : t.l1Held q = true) :
    ph.target = 0 ∧ mget 0 (s.core (s.coreOf q)).l1 (s.da ph.off / 128) ≠ 0 := by
  have cores : t.cores = s.cores := by rw [h.rest]
  have maps : t.maps = s.maps := by rw [h.rest]
  unfold State.l1Held at held
  rw [hq] at held
  simp only [Bool.and_eq_true, beq_iff_eq, bne_iff_ne] at held
  obtain ⟨target, line⟩ := held
  refine ⟨target, ?_⟩
  rw [← h.coreOf]
  simpa only [State.core, State.coreOf, State.da, State.matrix, cores, maps] using line

theorem walkFault_op? {t : State} {q r : Pend} {cause : Nat} (h : t.op? op = some r) (hq : q.uid = op) (hh : q.helper = false) :
    (t.walkFault q cause).op? op = some { q with fault := some cause } := by
  rw [State.walkFault, if_neg (by simp [hh])]
  exact op?_setOp h hq

end

/-- A translation that finds the address: the operation has it, then an as-of load its version and a load its source. -/
theorem MayWalk.pageWalk_ok (h : MayWalk s op p) {x : Xlat} (found : (s.translate (s.coreOf p) p.ctx p.addr p.acc cached).1 = .ok x) :
    ∃ t : State, Walked s t ∧ s.pageWalk p cached =
      let r := t.setOp (p.translated x)
      if p.kind == .asof && x.phys.target == 0 then
        (match r.asofLocal (r.keyOf p.ctx) x.phys.off p.size p.asofS with
          | none => r.walkFault (p.translated x) 13
          | some (bs, bad, steps) => r.setOp { p.translated x with data := bs, walked := some (bad, steps) })
      else r.setOp (r.l1Choice (p.translated x)) := by
  have walked := walked_translate s (s.coreOf p) p.ctx p.addr p.acc cached
  rw [h.pageWalk]
  dsimp only
  generalize s.translate (s.coreOf p) p.ctx p.addr p.acc cached = r at found walked ⊢
  obtain ⟨_, t⟩ := r
  subst found
  exact ⟨_, (walked.trans ((walked_countWalk ..).trans (walked_noteSeen ..))).trans (walked_countAccess ..), rfl⟩

/-- A translation that finds a fault: the operation keeps it. -/
theorem MayWalk.pageWalk_error (h : MayWalk s op p) {x : Nat × Bool}
    (found : (s.translate (s.coreOf p) p.ctx p.addr p.acc cached).1 = .error x) :
    ∃ t : State, t.op? op = some p ∧ s.pageWalk p cached = t.walkFault p x.1 := by
  have walked := walked_translate s (s.coreOf p) p.ctx p.addr p.acc cached
  rw [h.pageWalk]
  dsimp only
  generalize s.translate (s.coreOf p) p.ctx p.addr p.acc cached = r at found walked ⊢
  obtain ⟨_, t⟩ := r
  subst found
  refine ⟨_, ?_, rfl⟩
  have counted := walked.trans ((walked_countWalk t (s.coreOf p) p.ctx p.issued ((s.tlbFind (s.coreOf p) p.ctx p.addr).filter fun _ => cached)
    (s.firstOf p 2 (p.addr / 4096))).trans (walked_noteSeen _ p 2 (p.addr / 4096)))
  split
  · exact counted.op?.trans h.found
  · exact counted.op?.trans h.found

/-- What a step of translation does to an operation that translates. -/
theorem pageWalk_step (op : Nat) (cached : Bool) (s : State) : ∃ t, exec (.pageWalk op cached) s = .next t ∧ t.mem = s.mem ∧
    ∀ p, MayWalk s op p →
      let found := (s.translate (s.coreOf p) p.ctx p.addr p.acc cached).1
      (∀ x, found = .ok x →
        let q := p.translated x
        (p.kind ≠ .load → p.kind ≠ .asof → t.op? op = some q) ∧
        (p.kind = .load → t.op? op = some { q with miss := true } ∨ (t.op? op = some { q with due := some (p.cycle + 60) } ∧
          x.phys.target = 0 ∧ mget 0 (s.core (s.coreOf p)).l1 (s.da x.phys.off / 128) ≠ 0 ∧ s.nowOf p.blk < p.cycle + 60)) ∧
        (p.kind = .asof → x.phys.target = 0 →
          (s.asofLocal (s.keyOf p.ctx) x.phys.off p.size p.asofS = none → p.helper = false → t.op? op = some { q with fault := some 13 }) ∧
          ∀ bs bad k, s.asofLocal (s.keyOf p.ctx) x.phys.off p.size p.asofS = some (bs, bad, k) →
            t.op? op = some { q with data := bs, walked := some (bad, k) })) ∧
      ∀ x, found = .error x → p.helper = false → t.op? op = some { p with fault := some x.1 } := by
  refine onOp_step (f := fun s p => s.pageWalk p cached) (fun p (h : MayWalk s op p) => h.found) (fun p => State.pageWalk_mem s p cached)
    fun p h => ⟨fun x found => ?_, fun x found hh => ?_⟩
  · obtain ⟨r, walked, e⟩ := h.pageWalk_ok found
    rw [e]
    have here : (r.setOp (p.translated x)).op? op = some (p.translated x) := op?_setOp (walked.op?.trans h.found) h.uid
    have version : (r.setOp (p.translated x)).asofLocal ((r.setOp (p.translated x)).keyOf p.ctx) x.phys.off p.size p.asofS =
        s.asofLocal (s.keyOf p.ctx) x.phys.off p.size p.asofS := by
      rw [walked.asofLocal, ← walked.keyOf]
      rfl
    dsimp only
    rw [version]
    refine ⟨fun hl ha => ?_, fun hl => ?_, fun ha ht => ⟨fun gone hh => ?_, fun bs bad k found => ?_⟩⟩
    · rw [if_neg (by simp [ha]), l1Choice_other (q := p.translated x) hl]
      exact op?_setOp here h.uid
    · rw [if_neg (by simp [hl])]
      rcases l1Choice_load (s := r.setOp (p.translated x)) (q := p.translated x) hl with e | ⟨e, held, now⟩
      · exact .inl (by rw [e]; exact op?_setOp here h.uid)
      · obtain ⟨target, line⟩ := walked.l1Held (q := p.translated x) (ph := x.phys) rfl held
        refine .inr ⟨by rw [e]; exact op?_setOp here h.uid, target, line, ?_⟩
        rw [← walked.nowOf]
        exact now
    · rw [if_pos (by simp [ha, ht]), gone]
      exact walkFault_op? here h.uid hh
    · rw [if_pos (by simp [ha, ht]), found]
      exact op?_setOp here h.uid
  · obtain ⟨r, here, e⟩ := h.pageWalk_error found
    rw [e]
    exact walkFault_op? here h.uid hh

/-- Settles O46: each step of the memory side touches the operation it is asked for, and an operation alone in its
instruction returns as it retires. -/
theorem loadSteps : Obligations.LoadSteps := by
  unfold Obligations.LoadSteps
  refine ⟨fun op cached s => ?_, asofLocal_eq_none_iff, walk_beyond, permCause_eq, fun op s => loadReturn_step op s, fun op s => ?_⟩
  · obtain ⟨t, he, hm, does⟩ := pageWalk_step op cached s
    exact ⟨t, he, hm, fun p found bm access done phys fault order room => does p ⟨found, bm, access, done, phys, fault, order, room⟩⟩
  · obtain ⟨t, he, hm, does⟩ := asofWalk_step op s
    exact ⟨t, he, hm, fun p ph lone => does p lone ph⟩

end Sys2Proof.Machine
end

section
/-! LEMMAS AND PROOFS. What decodes has a word (R54, R69). -/

namespace Sys2Proof

/-- What parsing finds, if it finds an instruction, has a word. -/
def Parsed.OfWord (p : Parsed) : Prop := ∀ i ∈ p.instr, i.isWord = true

@[simp] theorem ofWord_some (i : Instr) (z : Bool) : (Parsed.some i z).OfWord ↔ i.isWord = true := by simp [Parsed.OfWord, Parsed.some]

@[simp] theorem ofWord_opt_none (z : Bool) : (Parsed.opt none z).OfWord := by simp [Parsed.OfWord, Parsed.opt]

@[simp] theorem ofWord_opt_some (i : Instr) (z : Bool) : (Parsed.opt (some i) z).OfWord ↔ i.isWord = true := ofWord_some i z

@[simp] theorem ofWord_opt_map {α : Type} (f : α → Instr) (o : Option α) (z : Bool) :
    (Parsed.opt (o.map f) z).OfWord ↔ ∀ x ∈ o, (f x).isWord = true := by cases o <;> simp [Parsed.OfWord, Parsed.opt]

theorem parseCtl_ofWord (w : Word) : (parseCtl w).OfWord := by
  unfold parseCtl
  dsimp only
  split <;> simp [Instr.isWord]

theorem parseMov_ofWord (w : Word) : (parseMov w).OfWord := by
  unfold parseMov
  dsimp only
  split <;> simp [Instr.isWord]

theorem parse0_ofWord (w l1 : Word) : (parse0 w l1).OfWord := by
  unfold parse0
  dsimp only
  split <;> simp [Instr.isWord, parseCtl_ofWord, parseMov_ofWord]

theorem parseInt_ofWord (w : Word) : (parseInt w).OfWord := by
  unfold parseInt
  dsimp only
  split <;> simp [Instr.isWord]

theorem parseFp_ofWord (w : Word) : (parseFp w).OfWord := by
  unfold parseFp
  dsimp only
  split <;> simp [Instr.isWord]

theorem parseX_ofWord (w : Word) : (parseX w).OfWord := by
  unfold parseX
  dsimp only
  (repeat' split) <;> simp [Instr.isWord]

theorem parseK_ofWord (w : Word) : (parseK w).OfWord := by
  unfold parseK
  dsimp only
  (repeat' split) <;> simp [Instr.isWord]

theorem parseMem_ofWord (w l1 : Word) : (parseMem w l1).OfWord := by
  unfold parseMem
  dsimp only
  (repeat' split) <;> simp [Instr.isWord]

theorem parseCp_ofWord (w l1 l2 l3 : Word) : (parseCp w l1 l2 l3).OfWord := by
  unfold parseCp
  dsimp only
  (repeat' split) <;> simp [Instr.isWord]

theorem parseMat_ofWord (w l1 l2 l3 l4 : Word) : (parseMat w l1 l2 l3 l4).OfWord := by
  unfold parseMat
  dsimp only
  (repeat' split) <;> simp [Instr.isWord]

theorem parseSys_ofWord (w : Word) : (parseSys w).OfWord := by
  unfold parseSys
  dsimp only
  (repeat' split) <;> simp [Instr.isWord]

theorem parse_ofWord (w l1 l2 l3 l4 : Word) : (parse w l1 l2 l3 l4).OfWord := by
  unfold parse
  dsimp only
  (repeat' split) <;> simp only [parse0_ofWord, parseInt_ofWord, parseFp_ofWord, parseX_ofWord, parseK_ofWord, parseMem_ofWord, parseCp_ofWord,
    parseMat_ofWord, parseSys_ofWord]

/-- What words decode to is no step. -/
theorem isWord_of_decode {w : Word} {lits : List Word} {i : Instr} (h : decode w lits = .ok i) : i.isWord = true := by
  unfold decode at h
  split at h
  · cases h
  · dsimp only at h
    split at h
    · cases h
    · next j hj =>
      split at h
      · cases h
      · split at h
        · cases h
        · cases h
          exact parse_ofWord _ _ _ _ _ _ hj

end Sys2Proof
end

section
/-! LEMMAS AND PROOFS. No instruction word, and nothing about its issue, passes a cycle of a die (R29, R417). -/

namespace Sys2Proof.Machine

/-! ## What leaves the cycles as they are -/

/-- The cycles after a choice of two states. -/
@[simp] theorem State.cycles_ite (c : Prop) [Decidable c] (a b : State) :
    (if c then a else b).cycles = if c then a.cycles else b.cycles :=
  apply_ite State.cycles c a b

/-- A fold of steps that keep the cycles keeps them. -/
@[simp] theorem State.cycles_foldl {α : Type} (f : State → α → State) (h : ∀ s x, (f s x).cycles = s.cycles) (l : List α) (s : State) :
    (l.foldl f s).cycles = s.cycles := foldl_keeps State.cycles f h l s

/-! Messages, pins and events -/

@[simp] theorem State.sendPkt_cycles (s : State) (kind vc cls dst off tag ctx : Nat) (spec data : List Byte) :
    (s.sendPkt kind vc cls dst off tag ctx spec data).2.cycles = s.cycles := by
  rfl
@[simp] theorem State.tellAll_cycles (s : State) (code : Nat) (data : List Byte) : (s.tellAll code data).cycles = s.cycles := by simp [State.tellAll]
@[simp] theorem State.endStalls_cycles (s : State) (stamp : Nat) : (s.endStalls stamp).cycles = s.cycles := by rfl
@[simp] theorem State.pinGone_cycles (s : State) (stamp : Nat) : (s.pinGone stamp).cycles = s.cycles := by simp [State.pinGone]
@[simp] theorem State.emit_cycles (s : State) (kind ctx : Nat) (payload : List Byte) : (s.emit kind ctx payload).cycles = s.cycles := by rfl
@[simp] theorem State.breakPin_cycles (s : State) (ctx h : Nat) : (s.breakPin ctx h).cycles = s.cycles := by
  unfold State.breakPin
  dsimp only
  (repeat' split) <;> simp

/-! Translation, and what is counted late -/

@[simp] theorem State.translate_cycles (s : State) (core ctx va : Nat) (acc : Acc) (cached : Bool) :
    (s.translate core ctx va acc cached).2.cycles = s.cycles := by
  rw [(walked_translate ..).rest]
@[simp] theorem State.cirOf_cycles (s : State) (kern : Option Nat) (bit : Nat) : (s.cirOf kern bit).cycles = s.cycles := by
  unfold State.cirOf
  split <;> simp
@[simp] theorem State.late_cycles (s : State) (ctx unit base cls since n : Nat) : (s.late ctx unit base cls since n).cycles = s.cycles := by
  rw [(tallied_late ..).rest]
@[simp] theorem State.served_cycles (s : State) (slice cls n : Nat) : (s.served slice cls n).cycles = s.cycles := by rw [(tallied_served ..).rest]
@[simp] theorem State.countWalk_cycles (s : State) (core ctx since : Nat) (found : Option Tlb) (first : Bool) :
    (s.countWalk core ctx since found first).cycles = s.cycles := by
  rw [(walked_countWalk ..).rest]

/-! Groups, floors and barriers -/

@[simp] theorem State.cirBlk_cycles (s : State) (u bit : Nat) : (s.cirBlk u bit).cycles = s.cycles := by rfl
@[simp] theorem State.endGroup_cycles (s : State) (u g : Nat) (cut : Bool) : (s.endGroup u g cut).cycles = s.cycles := by simp [State.endGroup]
@[simp] theorem State.dropSuspended_cycles (s : State) (u g : Nat) : (s.dropSuspended u g).cycles = s.cycles := by
  unfold State.dropSuspended
  dsimp only
  split <;> simp
@[simp] theorem State.trace_cycles (s : State) (u g kind aux lo hi : Nat) : (s.trace u g kind aux lo hi).cycles = s.cycles := by simp [State.trace]
@[simp] theorem State.traceResume_cycles (s : State) (u aux : Nat) (sel : LaneStatus → Bool) : (s.traceResume u aux sel).cycles = s.cycles := by
  simp [State.traceResume]
@[simp] theorem State.releaseFloor_cycles (s : State) (u g : Nat) (sc : Scope) : (s.releaseFloor u g sc).cycles = s.cycles := by
  unfold State.releaseFloor
  split <;> simp
@[simp] theorem State.raiseFloor_cycles (s : State) (u g st : Nat) : (s.raiseFloor u g st).cycles = s.cycles := by rfl
@[simp] theorem State.acquireFloor_cycles (s : State) (u g : Nat) (sc : Scope) : (s.acquireFloor u g sc).cycles = s.cycles := by rfl
@[simp] theorem State.teamTry_cycles (s : State) (t : Nat) : (s.teamTry t).cycles = s.cycles := by
  unfold State.teamTry
  dsimp only
  split
  · refine Eq.trans (State.cycles_foldl _ ?_ _ _) ?_
    · exact fun _ _ => rfl
    · simp
  · rfl
@[simp] theorem State.barrierFloors_cycles (s : State) (u : Nat) (sc : Scope) : (s.barrierFloors u sc).cycles = s.cycles := by
  simp [State.barrierFloors]
@[simp] theorem State.blkTry_cycles (s : State) (u : Nat) : (s.blkTry u).cycles = s.cycles := by simp [State.blkTry]
@[simp] theorem State.cutGroup_cycles (s : State) (u g : Nat) : (s.cutGroup u g).cycles = s.cycles := by simp [State.cutGroup]
@[simp] theorem State.doubleTrap_cycles (s : State) (u g : Nat) : (s.doubleTrap u g).cycles = s.cycles := by simp [State.doubleTrap]
@[simp] theorem callResult_cycles (s : State) (i : Issue) (shift : Nat) (target : Nat → Nat) :
    (callResult s i shift target).s.cycles = s.cycles := by
  rfl
@[simp] theorem State.meetTry_cycles (s : State) (u g : Nat) : (s.meetTry u g).cycles = s.cycles := by simp [State.meetTry]
@[simp] theorem arrive_cycles (s : State) (i : Issue) (st : LaneStatus) (aux : Nat) : (arrive s i st aux).cycles = s.cycles := by simp [arrive]
@[simp] theorem State.barriers_cycles (s : State) (u g : Nat) : (s.barriers u g).cycles = s.cycles := by simp [State.barriers]
@[simp] theorem State.exitAfter_cycles (s : State) (u g : Nat) : (s.exitAfter u g).cycles = s.cycles := by simp [State.exitAfter]
@[simp] theorem State.loseInterval_cycles (s : State) (u : Nat) : (s.loseInterval u).cycles = s.cycles := by simp [State.loseInterval]
@[simp] theorem State.devNote_cycles (s : State) (kern : Option Nat) (ctx va n : Nat) : (s.devNote kern ctx va n).cycles = s.cycles := by
  unfold State.devNote
  split <;> simp
@[simp] theorem State.resumeEngines_cycles (s : State) (u g : Nat) : (s.resumeEngines u g).cycles = s.cycles := by
  unfold State.resumeEngines
  dsimp only
  split <;> simp
@[simp] theorem State.rettDo_cycles (s : State) (u g : Nat) (run : List Nat) : (s.rettDo u g run).cycles = s.cycles := by simp [State.rettDo]

/-! Issues of words -/

@[simp] theorem memoLookup_cycles (s : State) (c : Cur) (m : Memo) (make : Bool) : (memoLookup s c m make).2.cycles = s.cycles := by
  unfold memoLookup
  dsimp only
  split <;> simp
@[simp] theorem takeUnit_cycles (s : State) (c : Cur) (u : AluUnit) : (takeUnit s c u).cycles = s.cycles := by
  unfold takeUnit
  split <;> simp
@[simp] theorem State.csrPut_cycles (s : State) (u g n v : Nat) : (s.csrPut u g n v).cycles = s.cycles := by
  unfold State.csrPut
  split <;> simp
@[simp] theorem State.seeWords_cycles (s : State) (u g : Nat) (ws : List (Nat × Nat)) : (s.seeWords u g ws).cycles = s.cycles := by rfl
@[simp] theorem State.cover_cycles (s : State) (u g : Nat) (keys : List Nat) : (s.cover u g keys).cycles = s.cycles := by rfl
@[simp] theorem State.addPend_cycles (s : State) (p : Pend) : (s.addPend p).cycles = s.cycles := by rfl
@[simp] theorem State.addPends_cycles (s : State) (ps : List Pend) : (s.addPends ps).cycles = s.cycles := by simp [State.addPends]
@[simp] theorem issueLoads_cycles (s : State) (i : Issue) (ps : List Pend) : (issueLoads s i ps).s.cycles = s.cycles := by simp [issueLoads]
@[simp] theorem issueStores_cycles (s : State) (ps : List Pend) : (issueStores s ps).s.cycles = s.cycles := by simp [issueStores]
@[simp] theorem memoLoad_cycles (s : State) (i : Issue) (u : Uses) (elig : Bool) (key : Memo) (status : Option Nat) (ps : List Pend) :
    (memoLoad s i u elig key status ps).s.cycles = s.cycles := by
  have look : (if s.memoClear ps then memoLookup s i.c key false else (none, s)).2.cycles = s.cycles := by
    split
    · exact memoLookup_cycles ..
    · rfl
  unfold memoLoad
  dsimp only
  split
  · split <;> rename_i e <;> rw [e] at look <;> simpa using look
  · simp
@[simp] theorem issueAtomics_cycles (s : State) (i : Issue) (spec : AtomSpec) (d : VReg) (ps : List Pend) :
    (issueAtomics s i spec d ps).s.cycles = s.cycles := by
  unfold issueAtomics
  dsimp only
  split <;> simp

/-! Engines -/

@[simp] theorem State.endReuse_cycles (s : State) (core quarter : Nat) : (s.endReuse core quarter).cycles = s.cycles := by rfl
@[simp] theorem State.takeToken_cycles (s : State) (i : Issue) (tok : Nat) : (s.takeToken i tok).cycles = s.cycles := by rfl
@[simp] theorem State.useEntry_cycles (s : State) (core : Nat) (f : InUse → InUse) : (s.useEntry core f).cycles = s.cycles := by rfl
@[simp] theorem State.addCopy_cycles (s : State) (i : Issue) (load : Bool) (e : CopyEntry) : (s.addCopy i load e).cycles = s.cycles := by rfl
@[simp] theorem State.accGrant_cycles (s : State) (u : Nat) : (s.accGrant u).cycles = s.cycles := by simp [State.accGrant]
@[simp] theorem State.accNext_cycles (s : State) (core : Nat) : (s.accNext core).cycles = s.cycles := by
  unfold State.accNext
  dsimp only
  (repeat' split) <;> simp
@[simp] theorem State.addMat_cycles (s : State) (i : Issue) (e : MatEntry) : (s.addMat i e).cycles = s.cycles := by simp [State.addMat]
@[simp] theorem issueMma_cycles (kind : MatKind) (rows : Nat) (m : MmaSpec) (s : State) (i : Issue) :
    (issueMma kind rows m s i).s.cycles = s.cycles := by
  simp [issueMma]

/-! Barrier objects, kernels and queues -/

@[simp] theorem State.bmStore_cycles (s : State) (u addr : Nat) (bs : List Byte) : (s.bmStore u addr bs).cycles = s.cycles := by simp [State.bmStore]
@[simp] theorem State.mbarPut_cycles (s : State) (u a : Nat) (m : MBar) (isOver : Bool) : (s.mbarPut u a m isOver).cycles = s.cycles := by
  simp [State.mbarPut]
@[simp] theorem State.mbarExpect_cycles (s : State) (u a n : Nat) : (s.mbarExpect u a n).cycles = s.cycles := by simp [State.mbarExpect]
@[simp] theorem State.kernelTry_cycles (s : State) (k : Nat) : (s.kernelTry k).cycles = s.cycles := by simp [State.kernelTry]
@[simp] theorem State.discardRing_cycles (s : State) (h : Nat) : (s.discardRing h).cycles = s.cycles := by simp [State.discardRing]
@[simp] theorem State.qinit_cycles (s : State) (ctx va : Nat) (w2 w3 : Word) : (s.qinit ctx va w2 w3).2.cycles = s.cycles := by
  unfold State.qinit
  dsimp only
  (repeat' split) <;> simp

/-! Activities -/

@[simp] theorem State.actSlot_cycles (s : State) (ctx : Nat) : (s.actSlot ctx).cycles = s.cycles := by
  unfold State.actSlot
  dsimp only
  (repeat' split) <;> simp
@[simp] theorem State.actBegin_cycles (s : State) (u g core : Nat) (attr : Word) : (s.actBegin u g core attr).2.cycles = s.cycles := by
  unfold State.actBegin
  dsimp only
  (repeat' split) <;> simp
@[simp] theorem State.setAct_cycles (s : State) (a : Activity) : (s.setAct a).cycles = s.cycles := by rfl
@[simp] theorem State.resumeHere_cycles (s : State) (a : Activity) (skip : Bool) : (s.resumeHere a skip).cycles = s.cycles := by rfl
@[simp] theorem State.actEnd_cycles (s : State) (a : Activity) : (s.actEnd a).cycles = s.cycles := by rfl
@[simp] theorem State.actUnpin_cycles (s : State) (a : Activity) : (s.actUnpin a).cycles = s.cycles := by
  unfold State.actUnpin
  split <;> simp
@[simp] theorem State.actTry_cycles (s : State) (ctx handle : Nat) : (s.actTry ctx handle).cycles = s.cycles := by
  unfold State.actTry
  split <;> simp
@[simp] theorem State.actResume_cycles (s : State) (ctx : Nat) (h action : Word) : (s.actResume ctx h action).2.cycles = s.cycles := by
  unfold State.actResume
  dsimp only
  (repeat' split) <;> simp

/-! Fetch, and what follows an issue -/

theorem State.fetchAt_cycles (s : State) (u pc : Nat) : (s.fetchAt u pc).All (·.cycles = s.cycles) := by
  have look := ({ s with fresh := s.fresh + 1 } : State).translate_cycles ((s.blk u).core.getD 0) (s.blk u).ctx pc .fetch (s.mayCache 23)
  unfold State.fetchAt
  dsimp only
  split <;> rename_i h <;> rw [h] at look
  · trivial
  · simpa [FetchR.All] using look
theorem State.fetchLits_cycles (u : Nat) : ∀ (n : Nat) (s : State) (pc : Nat) (x : Phys), (s.fetchLits u n pc x).All (·.cycles = s.cycles)
  | 0, _, _, _ => rfl
  | n + 1, s, pc, x => by
    have hn : (if pcAfter pc 1 / 4096 = pc / 4096 then FetchR.ok { x with off := x.off + 4 } s else s.fetchAt u (pcAfter pc 1)).All
        (·.cycles = s.cycles) := by
      split
      · rfl
      · exact s.fetchAt_cycles ..
    unfold State.fetchLits
    dsimp only
    split <;> rename_i h <;> rw [h] at hn
    · trivial
    · next y t =>
      have ih := State.fetchLits_cycles u n t (pcAfter pc 1) y
      split <;> rename_i h <;> rw [h] at ih
      · trivial
      · exact Eq.trans ih hn
theorem State.fetch_cycles (s : State) (u pc : Nat) : (s.fetch u pc).All (·.cycles = s.cycles) := by
  have ha := s.fetchAt_cycles u pc
  unfold State.fetch
  split <;> rename_i h <;> rw [h] at ha
  · trivial
  · next x t =>
    have hl := State.fetchLits_cycles u ((litCount (t.codeWord (s.blk u).ctx x)).getD 0) t pc x
    dsimp only
    split <;> rename_i h <;> rw [h] at hl
    · trivial
    · exact Eq.trans hl ha
@[simp] theorem State.freeRegs_cycles (s : State) (core : Nat) : (s.freeRegs core).cycles = s.cycles := by
  unfold State.freeRegs
  dsimp only
  split <;> simp
@[simp] theorem State.traceIssue_cycles (s : State) (u g : Nat) (run : List Nat) : (s.traceIssue u g run).cycles = s.cycles := by
  unfold State.traceIssue
  dsimp only
  (repeat' split) <;> simp
@[simp] theorem State.afterIssue_cycles (s : State) (c : Cur) (trapped : Bool) : (s.afterIssue c trapped).cycles = s.cycles := by
  simp [State.afterIssue]
@[simp] theorem State.arbMove_cycles (s : State) (core quarter r : Nat) (served : Bool) : (s.arbMove core quarter r served).cycles = s.cycles := by
  rfl
@[simp] theorem State.setWhy_cycles (s : State) (now u g code : Nat) : (s.setWhy now u g code).cycles = s.cycles := by rfl

/-! ## Every word keeps the cycles -/

/-- What gives a next state gives one in the same cycle of every die. -/
def KeepsCycles (f : State → Res) : Prop := ∀ s t, f s = .next t → t.cycles = s.cycles

/-- An instruction whose body keeps the cycles: its issue does too, whatever becomes of it. -/
theorem keepsCycles_issueWith {u : Uses} {st : Stall} {extra : State → Issue → Nat → Option Cause} {ready : State → Issue → Option Reason}
    {body : State → Issue → Result} (h : ∀ s i, (body s i).s.cycles = s.cycles) : KeepsCycles fun s => issueWith u st extra ready body s := by
  intro s t e
  dsimp only at e
  unfold issueWith withCur at e
  split at e
  · cases e
  cases e
  dsimp only
  iterate 6
    split
    · rfl
  exact h ..

/-- A lookup of the reuse buffer that may be left out. -/
theorem lookup_cycles (s : State) (c : Cur) (m : Memo) (elig : Bool) :
    (if elig then memoLookup s c m true else (none, s)).2.cycles = s.cycles := by
  split
  · exact memoLookup_cycles ..
  · rfl

theorem keepsCycles_vecOp {sh : VShape} {st : Stall} {f : View → Nat → LaneOut} : KeepsCycles fun s => vecOp sh st f s := by
  refine keepsCycles_issueWith fun s i => ?_
  dsimp only
  rw [State.cycles_ite, takeUnit_cycles, ite_self]
  exact lookup_cycles ..

theorem keepsCycles_uniOp {u : Uses} {lat : Nat} {st : Stall} {f : (BitVec 7 → Nat → Word) → Group → List Nat → UniOut} :
    KeepsCycles fun s => uniOp u lat st f s := keepsCycles_issueWith fun _ _ => rfl

theorem keepsCycles_deliverWith {d : Delivery} {late : Bool} {u : Uses} {st : Stall} {extra : State → Issue → Nat → Option Cause}
    {ready : State → Issue → Option Reason} {body : State → Issue → Result} (h : ∀ s i, (body s i).s.cycles = s.cycles) :
    KeepsCycles fun s => deliverWith d late u st extra ready body s := by
  refine keepsCycles_issueWith fun s i => ?_
  exact iteInduction (motive := fun r : Result => r.s.cycles = s.cycles) (fun _ => rfl) (fun _ => h ..)

theorem keepsCycles_deliverEngine {late : Bool} {d : Delivery} {tok : Nat → Bool} {cp : Bool} {u : Uses} {st : Stall}
    {ready : State → Issue → Option Reason} {body : State → Issue → Result} (h : ∀ s i, (body s i).s.cycles = s.cycles) :
    KeepsCycles fun s => deliverEngine late d tok cp u st ready body s := by
  refine keepsCycles_deliverWith fun s i => ?_
  split
  · dsimp only
    split
    · exact h ..
    · rfl
  · exact h ..

theorem keepsCycles_orIllegal {bad : State → Cur → Bool} {st : Stall} {k : State → Res} (h : KeepsCycles fun s => k s) :
    KeepsCycles fun s => orIllegal bad st k s := by
  intro s t e
  dsimp only at e
  unfold orIllegal at e
  split at e
  · exact h s t e
  split at e
  · exact keepsCycles_issueWith (fun _ _ => rfl) s t e
  · exact h s t e

theorem keepsCycles_afterCur {f : State → State → Nat → Nat → State} {k : State → Res} (h : KeepsCycles fun s => k s)
    (hf : ∀ s t u g, (f s t u g).cycles = t.cycles) : KeepsCycles fun s => afterCur s (f s) (k s) := by
  intro s t e
  dsimp only at e
  unfold afterCur at e
  split at e
  · exact h s t e
  · cases hk : k s with
    | next v =>
      rw [hk] at e
      cases e
      dsimp only
      split
      · exact h s v hk
      · exact (hf ..).trans (h s v hk)
    | fault _ | refused _ =>
      rw [hk] at e
      cases e

/-- An instruction word passes no cycle of a die. -/
theorem exec_keepsCycles (i : Instr) (word : i.isWord = true) : KeepsCycles fun s => exec i s := by
  cases i with
  | mov | iaddi | shfi | andi | iun | iadd | isub | imul | imulhS | imulhZ | and | or | xor | andn | shl | shr | sra | iminS | iminZ | imaxS
  | imaxZ | bfe | imad | bfi | icmpS | icmpZ | faddF32 | fsubF32 | fmulF32 | fminF32 | fmaxF32 | ffmaF32 | fcmpF32 | faddF16x2 | fsubF16x2
  | fmulF16x2 | fminF16x2 | fmaxF16x2 | faddBf16x2 | fsubBf16x2 | fmulBf16x2 | fminBf16x2 | fmaxBf16x2 | ffmaF16x2 | ffmaBf16x2 | fcmpF16x2
  | fcmpBf16x2 | faddF64 | fsubF64 | fmulF64 | fminF64 | fmaxF64 | ffmaF64 | fcmpF64 | funF16x2 | funBf16x2 | pkM8Rn | pkM8Rz | shflIdx
  | shflUp | shflDn | shflXor | qx | lit | movVp | iadd64 | lea | funF32 | funF64 | cvt | upM8 | vdotM8 =>
    dsimp only [exec, execMov, execIaddi, execShfi, execAndi, execIun, execIadd, execIsub, execImul, execImulhS, execImulhZ, execAnd, execOr,
      execXor, execAndn, execShl, execShr, execSra, execIminS, execIminZ, execImaxS, execImaxZ, execBfe, execImad, execBfi, execIcmpS,
      execIcmpZ, execFaddF32, execFsubF32, execFmulF32, execFminF32, execFmaxF32, execFfmaF32, execFcmpF32, execFaddF16x2, execFsubF16x2,
      execFmulF16x2, execFminF16x2, execFmaxF16x2, execFaddBf16x2, execFsubBf16x2, execFmulBf16x2, execFminBf16x2, execFmaxBf16x2,
      execFfmaF16x2, execFfmaBf16x2, execFcmpF16x2, execFcmpBf16x2, execFaddF64, execFsubF64, execFmulF64, execFminF64, execFmaxF64,
      execFfmaF64, execFcmpF64, execFunF16x2, execFunBf16x2, execPkM8Rn, execPkM8Rz, execShflIdx, execShflUp, execShflDn, execShflXor,
      execQx, execLit, execMovVp, execIadd64, execLea, execFunF32, execFunF64, execCvt, execUpM8, execVdotM8, int1, int2, int3, intCmp, fp2,
      fp3, fpCmp, fpp2, fpp3, fppCmp, fpd2, fpd3, fpdCmp, funPacked, pkM8Op, exchange]
    exact keepsCycles_vecOp
  | kshfi | kaddi | kadd | ksub | kmul | kand | kor | kxor | kcmpS | kcmpZ | klit | movKp | kadd64 =>
    dsimp only [exec, execKshfi, execKaddi, execKadd, execKsub, execKmul, execKand, execKor, execKxor, execKcmpS, execKcmpZ, execKlit,
      execMovKp, execKadd64, uni1, uni2, uniCmp]
    exact keepsCycles_uniOp
  | nop | guard | bra | jmp | brk | trap | movBroadcast | movToUniform | movPv | ldL | cpStat | mbarTest | qstat | voteAny | voteAll
  | voteBallot | voteEq | stamp | settled | dusk | floor =>
    dsimp only [exec, execNop, execGuard, execBra, execJmp, execBrk, execTrap, execMovBroadcast, execMovToUniform, execMovPv, execLdL,
      execCpStat, execMbarTest, execQstat, execVoteAny, execVoteAll, execVoteBallot, execVoteEq, execStamp, execSettled, execDusk, execFloor,
      voteOp, stampPair]
    exact keepsCycles_issueWith fun s i => by simp
  | call | ret | callr | yield | chkerr | win | wink | stxG | ldS | stS | stL | hpin | hunpin | cpLd | cpSt | cpRed | cpChain | qfence | mma
  | accZero | accLd | accSt | ofence | mbarInit | mbarExpect | mbarWait | qinit | actBegin | actStat | actResume | mark =>
    dsimp only [exec, execCall, execRet, execCallr, execYield, execChkerr, execWin, execWink, execStxG, execLdS, execStS, execStL, execHpin,
      execHunpin, execCpLd, execCpSt, execCpRed, execCpChain, execQfence, execMma, execAccZero, execAccLd, execAccSt, execOfence,
      execMbarInit, execMbarExpect, execMbarWait, execQinit, execActBegin, execActStat, execActResume, execMark]
    exact keepsCycles_issueWith fun s i => by simp
  | redux =>
    dsimp only [exec, execRedux]
    exact keepsCycles_issueWith fun s i => lookup_cycles s i.c _ _
  | region | drainst | kld | kst | stG | atomG | atomS | fence | mbarArrive | spawn | jdec | launch | actComp | actCommit | actAbandon | ldG
  | ldxG | ldAsof =>
    dsimp only [exec, execRegion, execDrainst, execKld, execKst, execStG, execAtomG, execAtomS, execFence, execMbarArrive, execSpawn,
      execJdec, execLaunch, execActComp, execActCommit, execActAbandon, execLdG, execLdxG, execLdAsof]
    exact keepsCycles_deliverWith fun s i => by simp
  | waitt | mwait =>
    dsimp only [exec, execWaitt, execMwait]
    exact keepsCycles_deliverEngine fun s i => by simp
  | sread | csrr | csrw | cpTile | mmaPair | accCp =>
    dsimp only [exec, execSread, execCsrr, execCsrw, execCpTile, execMmaPair, execAccCp]
    exact keepsCycles_orIllegal (keepsCycles_issueWith fun s i => by simp)
  | tlbinv | actDone =>
    dsimp only [exec, execTlbinv, execActDone]
    exact keepsCycles_orIllegal (keepsCycles_deliverWith fun s i => by simp)
  | meet =>
    dsimp only [exec, execMeet]
    exact keepsCycles_afterCur (keepsCycles_deliverWith fun s i => by simp) fun _ _ _ _ => by simp
  | exit | barBlk | barBlkR | barTeam =>
    dsimp only [exec, execExit, execBarBlk, execBarBlkR, execBarTeam]
    exact keepsCycles_afterCur (keepsCycles_deliverEngine fun s i => by simp) fun _ _ _ _ => by simp
  | rett | exitGrp =>
    dsimp only [exec, execRett, execExitGrp]
    exact keepsCycles_afterCur (keepsCycles_issueWith fun s i => by simp) fun s _ _ _ => by split <;> simp
  | _ => cases word

end Sys2Proof.Machine
end

section
/-! LEMMAS AND PROOFS. A word that is no instruction, the slots of a quarter, and a step (O56). -/

namespace Sys2Proof.Machine

/-! ## Every acting lane parks (R73, R171) -/

/-- The state where every acting lane parks with a cause of the instruction's own. -/
def parkedAll (own : Own) (st : Stall) (s : State) (c : Cur) : State :=
  finish c s.fresh st none { s := { s with fresh := s.fresh + 1 } } (parksOf {} own s c)

theorem noUses_cause (A : Nat) (sbchk : Bool) (now : Nat) (G : Group) (run : List Nat) (L : Nat) :
    Uses.cause {} A sbchk now G run L = none := by
  have ports : Uses.ports {} = false := rfl
  simp [Uses.cause, Uses.rangeOk, ports, Uses.srcKeys]

theorem laneCause_noUses (own : Own) (s : State) (c : Cur) (L : Nat) : laneCause {} own s c L = own L := by
  rw [laneCause, noUses_cause]

theorem zerosOf_noUses (own : Own) (s : State) (c : Cur) : zerosOf {} own s c = [] := by
  simp [zerosOf, Uses.laneDests]

theorem mayRun_noUses {own : Own} (s : State) (c : Cur) (hc : ∀ L, (own L).all (·.code == 4) = false) : mayRun {} own s c = [] :=
  List.filter_eq_nil_iff.mpr fun L _ => by simp [hc L]

/-- An instruction whose own cause, no early read, takes every lane. -/
theorem issueWith_parksAll {own : Own} {s : State} {c : Cur} (h : s.cur = some c) (st : Stall)
    {extra : State → Issue → Nat → Option Cause} (ready : State → Issue → Option Reason) (body : State → Issue → Result)
    (hx : extra s ⟨c, acting s c, [], s.fresh, s.cycleOf c.core⟩ = own) (hc : ∀ L, (own L).all (·.code == 4) = false) :
    issueWith {} st extra ready body s = .next (parkedAll own st s c) := by
  subst hx
  rw [issueWith, withCur_some h]
  refine congrArg Host.Outcome.next ?_
  have none_may := mayRun_noUses s c hc
  refine Eq.trans (if_pos (List.isEmpty_iff.mpr none_may)) ?_
  exact congrArg (fun z => finish c s.fresh st none { s := { s with fresh := s.fresh + 1 }, writes := z } (parksOf {} _ s c))
    (zerosOf_noUses _ s c)

section
variable {own : Own} {st : Stall} {s : State} {c : Cur}

theorem parkedAll_lane (hn : c.run.Nodup) (L : Nat) : (parkedAll own st s c).lane c L =
    if L ∈ c.run then laneAfter c.words { s := { s with fresh := s.fresh + 1 } } (parksOf {} own s c) L (s.lane c L) else s.lane c L := by
  unfold parkedAll State.lane
  rw [finish_issuer, stall_lane, endGroup_lane _ _ _ _ _ _ hn, List.append_nil]
  rfl

/-- A lane of the run that does not park goes on at the next word. -/
theorem parkedAll_goes (hn : c.run.Nodup) {L : Nat} (hL : L ∈ c.run) (h : ¬ (L ∈ acting s c ∧ (s.lane c L).helper = false)) :
    (parkedAll own st s c).lane c L = { s.lane c L with pc := pcAfter (s.lane c L).pc c.words, gcount := (s.lane c L).gcount - 1 } := by
  rw [parkedAll_lane hn, if_pos hL, laneAfter_go _ _ _ _ _ (find_parks_none fun ⟨_, ha, _, hh⟩ => h ⟨ha, hh⟩)]
  rfl

/-- An issue that does nothing changes lanes only. -/
theorem endGroup_idle (c : Cur) (iid now : Nat) (t : State) (parks : List (Nat × Cause)) (G : Group) (hn : c.run.Nodup) :
    endGroupOf c iid now { s := t } parks G = { G with lanes := (endGroupOf c iid now { s := t } parks G).lanes } := by
  have flags : ({ G with fpsr := orFpsr G.fpsr 0#5 } : Group) = G := by
    rw [show orFpsr G.fpsr 0#5 = G.fpsr by simp [orFpsr]]
  have e : endGroupOf c iid now { s := t } parks G = advanceLanes G c c.words { s := t } (parks ++ []) :=
    congrArg (fun H => advanceLanes H c c.words { s := t } (parks ++ [])) flags
  rw [e]
  exact advanceLanes_group _ _ _ _ _ hn

theorem parkedAll_group (hn : c.run.Nodup) : (parkedAll own st s c).issuer c = { s.issuer c with
    lanes := ((parkedAll own st s c).issuer c).lanes, notBefore := ((parkedAll own st s c).issuer c).notBefore
    untilDone := ((parkedAll own st s c).issuer c).untilDone } := by
  unfold parkedAll
  rw [finish_issuer, stall_group, endGroup_idle _ _ _ _ _ _ hn]
  rfl

end

theorem parks_parkedAll {s : State} {c : Cur} (h : AtIssue s c) (st : Stall) (x : Cause) : Parks s c x (parkedAll (fun _ => some x) st s c) where
  parks L hL hh := by
    rw [parkedAll_lane h.nodup, if_pos (mem_acting.mp hL).1, laneAfter, find_parks_some hL (laneCause_noUses ..) hh]
    rfl
  helps L hL hh := parkedAll_goes h.nodup (mem_acting.mp hL).1 fun p => by simp [hh] at p
  passes L hL hi := parkedAll_goes h.nodup hL fun p => by simp [(mem_acting.mp p.1).2] at hi
  others L hL := by rw [parkedAll_lane h.nodup, if_neg hL]
  group := parkedAll_group h.nodup
  groups g hg := finish_grp_ne _ _ _ _ _ _ hg
  block := finish_blk c s.fresh st none { s := { s with fresh := s.fresh + 1 } } _
  blocks u hu := finish_blk_ne _ _ _ _ _ _ hu
  rest := finish_state ..

/-! ## A word that is no instruction (R73, R74) -/

theorem badCause_eq (s : State) (c : Cur) (b : Bad) : s.badCause c b = 1 ∨ s.badCause c b = 2 := by
  unfold State.badCause
  split
  · exact .inl rfl
  · split
    · split
      · exact .inl rfl
      · exact .inr rfl
    · exact .inr rfl

theorem runWord_error {s : State} {c : Cur} {b : Bad} (h : decode c.word c.lits = .error b) : s.runWord c = s.badWord c b := by
  rw [State.runWord, h]

theorem runWord_ok {s : State} {c : Cur} {i : Instr} (h : decode c.word c.lits = .ok i) : s.runWord c = exec i s := by
  rw [State.runWord, h]

theorem badWord_parks {s : State} {c : Cur} (h : AtIssue s c) (b : Bad) :
    ∃ t, s.badWord c b = .next t ∧ Parks s c (mkCause c (s.badCause c b)) t := by
  refine ⟨_, issueWith_parksAll h.cur (sOf c.word) _ _ rfl fun _ => ?_, parks_parkedAll h (sOf c.word) _⟩
  rcases badCause_eq s c b with e | e <;> simp [mkCause, e]

/-! ## The slot that issues (R29, R417) -/

section
variable {s : State} {core quarter : Nat}

theorem tryGroup_issues {u g : Nat} {w : Word} {lits : List Word} {t r : State} {i : Instr}
    (hw : s.waitsFor u g (s.cycleOf core) (s.grp u g).offer.1 = none) (hs : s.writeWait u g = none)
    (hf : s.fetch u ((s.grp u g).lane ((s.grp u g).offer.1.headD 0)).pc = .ok (w, lits) t) (hd : decode w lits = .ok i) {c : Cur}
    (hc : c = ⟨u, g, (s.grp u g).offer.1, w, lits, ((s.grp u g).lane ((s.grp u g).offer.1.headD 0)).pc, core, quarter, none⟩)
    (he : exec i { (t.setGrp u g (s.grp u g).offer.2) with cur := some c } = .next r) (hr : r.cur.bind (·.wait) = none) :
    s.tryGroup core quarter u g = (0, some (r.afterIssue c (s.grp u g).trapped)) := by
  subst hc
  unfold State.tryGroup
  simp only [hw, hf, runWord_ok (c := ⟨u, g, (s.grp u g).offer.1, w, lits, _, core, quarter, none⟩) hd, he, hr, hs]
  rfl

theorem tries_eq (hg : s.gatedAt (dieUnit core) = false) (hn : ((s.core core).quarter quarter).nextAt ≤ s.cycleOf core) :
    s.tries core quarter = (((List.range 8).map fun j => quarter * 8 + (((s.core core).quarter quarter).ptr + j) % 8).filterMap
      fun x => s.slotAt core x).map fun x => (x, s.tryGroup core quarter x.1 x.2) :=
  if_neg (by simp [hg, hn])

/-- Slots that are not ready are passed over. -/
theorem pick_skip {pre rest : List ((Nat × Nat) × Nat × Option State)} {lost : List ((Nat × Nat) × Nat)} (h : ∀ y ∈ pre, y.2.2 = none) :
    s.pick core quarter (pre ++ rest) lost = s.pick core quarter rest lost := by
  induction pre with
  | nil => rfl
  | cons y pre ih =>
    obtain ⟨hy, hpre⟩ := List.forall_mem_cons.mp h
    obtain ⟨x, n, o⟩ := y
    cases hy
    exact ih hpre

theorem pick_ready {x : Nat × Nat} {n : Nat} {t : State} {rest : List ((Nat × Nat) × Nat × Option State)} {lost : List ((Nat × Nat) × Nat)}
    (h : ∀ k, s.taken t core = some k → (s.admits core quarter k).1 = true) :
    s.pick core quarter ((x, n, some t) :: rest) lost = (some (x, t), lost) := by
  unfold State.pick
  split
  · rfl
  · next k e => exact if_pos (h k e)

/-- The state of an issue once the entry it shares has been given. -/
def State.given (s : State) (core quarter : Nat) (t : State) : State :=
  match s.taken t core with
  | some k => if (s.admits core quarter k).2 then t.arbMove core quarter k true else t
  | none => t

theorem given_cases (t : State) :
    s.given core quarter t = t ∨ ∃ k, s.taken t core = some k ∧ s.given core quarter t = t.arbMove core quarter k true := by
  unfold State.given
  split
  · next k e =>
    split
    · exact .inr ⟨k, e, rfl⟩
    · exact .inl rfl
  · exact .inl rfl

theorem given_cycles (t : State) : (s.given core quarter t).cycles = t.cycles := by
  rcases given_cases (s := s) (core := core) (quarter := quarter) t with e | ⟨k, -, e⟩ <;> rw [e]
  exact State.arbMove_cycles ..

/-- Notes of one cycle, the cycle read from the state that they are made in. -/
theorem foldl_setWhy_cycleOf : ∀ (l : List (Nat × Nat × Nat)) {t : State}, t.cycles = s.cycles →
    l.foldl (fun t y => t.setWhy (t.cycleOf core) y.1 y.2.1 y.2.2) t = l.foldl (fun t y => t.setWhy (s.cycleOf core) y.1 y.2.1 y.2.2) t
  | [], _, _ => rfl
  | y :: l, t, h => by
    have now : t.cycleOf core = s.cycleOf core := by rw [State.cycleOf, h, State.cycleOf]
    rw [List.foldl_cons, List.foldl_cons, now]
    exact foldl_setWhy_cycleOf l ((State.setWhy_cycles ..).trans h)

/-- Where the first ready slot issues, only why the others did not is noted beside it. -/
theorem issueQuarter_of_pick {x : Nat × Nat} {t : State} (h : s.pick core quarter (s.tries core quarter) [] = (some (x, t), []))
    (ht : t.cycles = s.cycles) : ∃ notes : List (Nat × Nat × Nat), (∀ y ∈ notes, (y.1, y.2.1) ≠ x) ∧
      s.issueQuarter core quarter = notes.foldl (fun t y => t.setWhy (s.cycleOf core) y.1 y.2.1 y.2.2) (s.given core quarter t) := by
  refine ⟨((s.tries core quarter).filter fun y => x != y.1).map fun y => (y.1.1, y.1.2, if y.2.2.isSome then 15 else y.2.1), ?_, ?_⟩
  · simp only [List.mem_map, List.mem_filter, bne_iff_ne]
    rintro _ ⟨y, ⟨-, hy⟩, rfl⟩
    exact hy.symm
  · rw [← foldl_setWhy_cycleOf _ ((given_cycles t).trans ht), State.issueQuarter, List.foldl_map, h]
    rfl

end

/-! ## A step (log entry 2) -/

theorem step_of_act {s t : State} {a : Action} {rest : List Action} (h : s.agenda = a :: rest)
    (ha : ({ s with out := [], wire := [], agenda := rest } : State).act a = .next t) : step s = .next t.flush := by
  have e : ({ s with out := [], wire := [] } : State).nextAction = (a, { s with out := [], wire := [], agenda := rest }) := by
    simp only [State.nextAction, h]
  rw [step, State.stepOnce]
  simp only [e, ha]

theorem isStep_eq (i : Instr) : isStep i = !i.isWord := by cases i <;> rfl

/-- A quarter that has its turn issues from the first slot that is ready (R29, R417). -/
theorem issueQuarter_issues {s a : State} {core quarter u g n : Nat} {pre post : List (Nat × Nat)} (hg : s.gatedAt (dieUnit core) = false)
    (hn : ((s.core core).quarter quarter).nextAt ≤ s.cycleOf core)
    (hslots : (((List.range 8).map fun j => quarter * 8 + (((s.core core).quarter quarter).ptr + j) % 8).filterMap
      fun x => s.slotAt core x) = pre ++ (u, g) :: post)
    (hpre : ∀ y ∈ pre, (s.tryGroup core quarter y.1 y.2).2 = none) (ht : s.tryGroup core quarter u g = (n, some a))
    (hk : ∀ k, s.taken a core = some k → (s.admits core quarter k).1 = true)
    (ha : a.cycles = s.cycles) : ∃ (b : State) (notes : List (Nat × Nat × Nat)),
      (b = a ∨ ∃ k, s.taken a core = some k ∧ b = a.arbMove core quarter k true) ∧ (∀ y ∈ notes, (y.1, y.2.1) ≠ (u, g)) ∧
      s.issueQuarter core quarter = notes.foldl (fun s' y => s'.setWhy (s.cycleOf core) y.1 y.2.1 y.2.2) b := by
  have picked : s.pick core quarter (s.tries core quarter) [] = (some ((u, g), a), []) := by
    have skipped : ∀ y ∈ pre.map fun x => (x, s.tryGroup core quarter x.1 x.2), y.2.2 = none := List.forall_mem_map.mpr hpre
    rw [tries_eq hg hn, hslots, List.map_append, List.map_cons, ht, pick_skip skipped, pick_ready hk]
  obtain ⟨notes, hnotes, e⟩ := issueQuarter_of_pick picked ha
  exact ⟨_, notes, given_cases a, hnotes, e⟩

/-- A stop holds the steps of the gated clock domains (R413, R414). -/
theorem act_event (s : State) {i : Instr} (hi : i.isWord = false) :
    s.act (.event i) = if gatedStep i && s.gatedAt (s.unitOf i) then .next s else exec i s := by
  simp [State.act, isStep_eq, hi]

/-- Settles O56: the first ready slot is picked, its word decoded and run; events run as they are asked for. -/
theorem stepRunsDecoded : Obligations.StepRunsDecoded := by
  unfold Obligations.StepRunsDecoded
  refine ⟨?_, fun s c b h hd => runWord_error hd ▸ badWord_parks h b, fun s i rest h hi => ⟨fun held => ?_, fun free t ht => ?_⟩⟩
  · intro s core quarter rest pre post u g hagenda hgate s0 q now run pc hturn hslots hpre hwait hwrite w lits t i r hfetch hdecode c hrun hgo
      a hadmit
    have ready : s0.tryGroup core quarter u g = (0, some a) := tryGroup_issues hwait hwrite hfetch hdecode rfl hrun hgo
    have fetched := s0.fetch_cycles u pc
    rw [hfetch] at fetched
    have ran : r.cycles = s0.cycles := (exec_keepsCycles i (isWord_of_decode hdecode) _ _ hrun).trans fetched
    obtain ⟨b, notes, hb, hnotes, e⟩ := issueQuarter_issues (s := s0) hgate hturn hslots hpre ready hadmit
      ((State.afterIssue_cycles ..).trans ran)
    exact ⟨b, notes, hb, hnotes, step_of_act hagenda (congrArg Host.Outcome.next e)⟩
  · exact step_of_act h (by rw [act_event _ hi, if_pos held])
  · exact step_of_act h (by rw [act_event _ hi, if_neg (Bool.eq_false_iff.mp free), ht])

end Sys2Proof.Machine
end

section
/-! LEMMAS AND PROOFS. The instructions on packed floating-point elements and the conversions (R32, R42, R203-R207). -/

namespace Sys2Proof.Machine

/-! ## Results of a lane -/

@[simp] theorem outF_words (r : Nat × FFlags) : (outF r).words.length = 1 := rfl
@[simp] theorem outI_words (r : Int × FFlags) : (outI r).words.length = 1 := rfl
@[simp] theorem outP_words (lo hi : Nat × FFlags) : (outP lo hi).words.length = 1 := rfl
@[simp] theorem outD_words (r : Nat × FFlags) : (outD r).words.length = 2 := rfl
@[simp] theorem outF_preds (r : Nat × FFlags) : (outF r).preds = [] := rfl
@[simp] theorem outI_preds (r : Int × FFlags) : (outI r).preds = [] := rfl
@[simp] theorem outP_preds (lo hi : Nat × FFlags) : (outP lo hi).preds = [] := rfl
@[simp] theorem outD_preds (r : Nat × FFlags) : (outD r).preds = [] := rfl

/-! ## Packed elements (R32) -/

/-- Two packed sources. -/
theorem packed2_does {i : Instr} {d a b : VReg} {st : Stall} (f : Env → Nat → Nat → Nat × FFlags)
    (he : ∀ s, exec i s = fpp2 d a b st f s) : VecDoes i (useR d a b) .main (fpPackedAB f) :=
  vecDoes_of { uses := useR d a b, lat := 4, fpcr := true } _ he rfl rfl
    (by intro v L fd n h _; simp only [useR, Option.some.injEq, Prod.mk.injEq] at h; simp [← h.2]) (by simp)

/-- Three packed sources. -/
theorem packed3_does {i : Instr} {d a b : VReg} {st : Stall} (f : Env → Nat → Nat → Nat → Nat × FFlags)
    (he : ∀ s, exec i s = fpp3 d a b st f s) : VecDoes i (useRD d a b) .main (fpPackedABD f) :=
  vecDoes_of { uses := useRD d a b, lat := 4, fpcr := true } _ he rfl rfl
    (by intro v L fd n h _; simp only [useRD, Option.some.injEq, Prod.mk.injEq] at h; simp [← h.2]) (by simp)

/-- A packed function (R207). -/
theorem packedFun_does {i : Instr} {fn : FunFn} {d a : VReg} {st : Stall} (f : Fmt) (he : ∀ s, exec i s = funPacked f fn d a st s) :
    VecDoes i (use1 d a) .fn (fun v L => outP (funElem f (fzOf v.fpcr) fn ((arg (v.args L) 0).toNat % 65536))
      (funElem f (fzOf v.fpcr) fn ((arg (v.args L) 0).toNat / 65536))) :=
  vecDoes_of { uses := use1 d a, lat := 16, unit := .fn, fpcr := true } _ he rfl rfl
    (by intro v L fd n h _; simp only [use1, Option.some.injEq, Prod.mk.injEq] at h; simp [← h.2]) (by simp)

/-- Settles O8: each packed instruction is one vector operation on the two elements of its words. -/
theorem floatPackedResults : Obligations.FloatPackedResults := by
  unfold Obligations.FloatPackedResults
  intro d a b st
  exact ⟨packed2_does _ fun _ => rfl, packed2_does _ fun _ => rfl, packed2_does _ fun _ => rfl, packed3_does _ fun _ => rfl,
    packed2_does _ fun _ => rfl, packed2_does _ fun _ => rfl, packed2_does _ fun _ => rfl, packed2_does _ fun _ => rfl,
    packed2_does _ fun _ => rfl, packed3_does _ fun _ => rfl, packed2_does _ fun _ => rfl, packed2_does _ fun _ => rfl,
    fun fn => packedFun_does .f16 fun _ => rfl, fun fn => packedFun_does .bf16 fun _ => rfl⟩

/-! ## Conversions (R42, R43) -/

/-- A conversion answers one word, or two where its kind's destination is a pair, and no predicate. -/
theorem cvtVal_words (k : CvtKind) (rm : Rm) (x y : Word) :
    (cvtVal k rm x y).words.length = (if k.dPair then 2 else 1) ∧ (cvtVal k rm x y).preds = [] := by
  cases k
  case s32f32 | z32f32 | s32f64 | z32f64 => exact ⟨outI_words _, outI_preds _⟩
  case f16x2f32 | bf16x2f32 => exact ⟨outP_words .., outP_preds ..⟩
  case f64f32 | f64s32 | f64z32 => exact ⟨outD_words _, outD_preds _⟩
  all_goals exact ⟨outF_words _, outF_preds _⟩

theorem cvtSrcPair_eq (k : CvtKind) : cvtSrcPair k = k.aPair := by cases k <;> rfl
theorem cvtDstPair_eq (k : CvtKind) : cvtDstPair k = k.dPair := by cases k <;> rfl

theorem cvt_does (k : CvtKind) (rm : Rm) (d a : VReg) (st : Stall) :
    VecDoes (.cvt k rm d a st) { vsrc := [(a, if k.aPair then 2 else 1)], vdst := some (d, if k.dPair then 2 else 1) } .main
      (fun v L => cvtVal k rm (arg (v.args L) 0) (arg (v.args L) 0 1)) := by
  rw [← cvtSrcPair_eq, ← cvtDstPair_eq]
  refine vecDoes_of { uses := { vsrc := [(a, if cvtSrcPair k then 2 else 1)], vdst := some (d, if cvtDstPair k then 2 else 1) }, lat := 4 }
    (fun v L => cvtVal k rm (arg (v.args L) 0) (arg (v.args L) 0 1)) (fun _ => rfl) rfl rfl (fun v L fd n h _ => ?_) (fun v L p hp => ?_)
  · simp only [Option.some.injEq, Prod.mk.injEq] at h
    rw [(cvtVal_words ..).1, ← cvtDstPair_eq, h.2]
  · rw [(cvtVal_words ..).2] at hp
    cases hp

/-- An integer result by what the number rounds to: saturated, or as it is. -/
theorem cvtToInt_fin {f : Fmt} {rm : Rm} {lo hi : Int} {x : Nat} {n : Bool} {m : Nat} {e : Int} (h : unpack f x = .fin n m e) :
    let r := roundAt rm n m e false 0
    let k : Int := if n then -(r.1 : Int) else r.1
    cvtToInt f rm lo hi x = if k < lo then (lo, fIo) else if hi < k then (hi, fIo) else (k, fIf r.2 fNx) := by
  rw [cvtToInt, h]

/-- Settles O16: a conversion is one vector operation; to an integer, by the kind of number. -/
theorem conversions : Obligations.Conversions := by
  unfold Obligations.Conversions
  refine ⟨cvt_does, fun f rm lo hi x => ⟨fun h => ?_, fun n h => by rw [cvtToInt, h], fun n m e h => ?_⟩⟩
  · cases hx : unpack f x <;> simp_all [cvtToInt, FVal.isNan]
  · refine ⟨fun low => ?_, fun above high => ?_, fun above below => ?_⟩
    · rw [cvtToInt_fin h, if_pos low]
    · rw [cvtToInt_fin h, if_neg (Int.not_lt.mpr above), if_pos high]
    · rw [cvtToInt_fin h, if_neg (Int.not_lt.mpr above), if_neg (Int.not_lt.mpr below)]

end Sys2Proof.Machine
end

section
/-! LEMMAS AND PROOFS. The numbers of a format in order, rounding to them, and what a result is delivered as (R31-R35). -/

namespace Sys2Proof.Machine

/-! ## The numbers of a format (R31) -/

/-- The magnitudes of a format in order, in units of its least subnormal, with no end to the exponents: the place of a finite magnitude
is its pattern (`units_eq_grid`). -/
def Fmt.grid (f : Fmt) (b : Nat) : Nat := if b < 2 ^ f.fw then b else (2 ^ f.fw + b % 2 ^ f.fw) * 2 ^ (b / 2 ^ f.fw - 1)

section
variable {f : Fmt}

/-- Place k of a binade's quantum: j doublings of the least one. -/
theorem grid_eq {j k : Nat} (hk : k ≤ 2 ^ f.fw * 2) (h : j = 0 ∨ 2 ^ f.fw ≤ k) : f.grid (j * 2 ^ f.fw + k) = k * 2 ^ j := by
  have pos : 0 < 2 ^ f.fw := Nat.two_pow_pos _
  rw [Fmt.grid]
  generalize 2 ^ f.fw = P at *
  by_cases low : j * P + k < P
  · have j0 : j = 0 := by
      by_contra hj
      have := Nat.le_mul_of_pos_left P (Nat.pos_of_ne_zero hj)
      omega
    subst j0
    simp [show k < P by omega]
  · have hP : P ≤ k := by
      rcases h with rfl | h
      · omega
      · exact h
    rw [if_neg low]
    rcases Nat.lt_or_ge k (P * 2) with hk' | hk'
    · obtain ⟨r, rfl⟩ := Nat.exists_eq_add_of_le hP
      have hr : r < P := by omega
      rw [show j * P + (P + r) = r + (j + 1) * P by rw [Nat.succ_mul]; omega, Nat.add_mul_mod_self_right, Nat.add_mul_div_right _ _ pos,
        Nat.mod_eq_of_lt hr, Nat.div_eq_of_lt hr, Nat.zero_add, Nat.add_sub_cancel]
    · obtain rfl : k = P * 2 := by omega
      rw [show j * P + P * 2 = (j + 2) * P by rw [Nat.add_mul]; omega, Nat.mul_mod_left, Nat.mul_div_cancel _ pos]
      simp only [Nat.add_zero, show j + 2 - 1 = j + 1 from rfl, Nat.pow_succ]
      rw [Nat.mul_comm (2 ^ j), Nat.mul_assoc]

/-- Every place is one of a binade. -/
theorem exists_binade (f : Fmt) (b : Nat) : ∃ j k, b = j * 2 ^ f.fw + k ∧ k < 2 ^ f.fw * 2 ∧ (j = 0 ∨ 2 ^ f.fw ≤ k) := by
  have pos : 0 < 2 ^ f.fw := Nat.two_pow_pos _
  generalize 2 ^ f.fw = P at *
  rcases Nat.lt_or_ge b P with h | h
  · exact ⟨0, b, by omega, by omega, .inl rfl⟩
  · have hq : 0 < b / P := Nat.div_pos h pos
    have hb := Nat.div_add_mod' b P
    have hm := Nat.mod_lt b pos
    obtain ⟨j, hj⟩ := Nat.exists_eq_add_of_lt hq
    refine ⟨b / P - 1, P + b % P, ?_, by omega, .inr (by omega)⟩
    rw [hj] at hb ⊢
    rw [Nat.zero_add, Nat.succ_mul] at hb
    simp only [Nat.zero_add, Nat.add_sub_cancel]
    omega

theorem grid_strictMono (f : Fmt) : StrictMono f.grid := by
  refine strictMono_nat_of_lt_succ fun b => ?_
  obtain ⟨j, k, rfl, hk, h⟩ := exists_binade f b
  rw [Nat.add_assoc, grid_eq hk.le h, grid_eq hk (h.imp_right Nat.le_succ_of_le)]
  exact Nat.mul_lt_mul_of_pos_right (Nat.lt_succ_self k) (Nat.two_pow_pos j)

/-- The place after the largest finite magnitude: the power of two that it falls short of. -/
theorem grid_inf (h : 0 < f.emaxField) : f.grid f.inf = 2 ^ (f.fw + f.emaxField - 1) := by
  obtain ⟨x, hx⟩ := Nat.exists_eq_add_of_lt h
  rw [Fmt.inf, hx, Nat.zero_add, Nat.succ_mul, grid_eq (by omega) (.inr le_rfl), ← Nat.pow_add]
  rfl

end

theorem emaxField_lt (f : Fmt) : f.emaxField < 2 ^ f.ew := Nat.sub_lt (Nat.two_pow_pos _) Nat.one_pos

theorem inf_lt (f : Fmt) : f.inf < 2 ^ (f.ew + f.fw) := by
  rw [Fmt.inf, Nat.pow_add]
  exact Nat.mul_lt_mul_of_pos_right (emaxField_lt f) (Nat.two_pow_pos _)

/-- The fields of a pattern are those of its magnitude. -/
theorem exponentField_eq (f : Fmt) (x : Nat) : x / 2 ^ f.fw % 2 ^ f.ew = x % 2 ^ (f.ew + f.fw) / 2 ^ f.fw := by
  rw [Nat.pow_add, Nat.mul_comm, Nat.mod_mul_right_div_self]
theorem fractionField_eq (f : Fmt) (x : Nat) : x % 2 ^ f.fw = x % 2 ^ (f.ew + f.fw) % 2 ^ f.fw := by
  rw [Nat.pow_add, Nat.mul_comm, Nat.mod_mul_right_mod]

/-- What a pattern of a number stands for: its sign, and its magnitude's place. -/
theorem unpack_fin {f : Fmt} {x : Nat} {n : Bool} {m : Nat} {e : Int} (h : unpack f x = .fin n m e) :
    n = (x / 2 ^ (f.ew + f.fw) % 2 == 1) ∧ f.qmin ≤ e ∧ x % 2 ^ (f.ew + f.fw) < f.inf ∧
      m * 2 ^ (e - f.qmin).toNat = f.grid (x % 2 ^ (f.ew + f.fw)) := by
  have pos : 0 < 2 ^ f.fw := Nat.two_pow_pos _
  have hlt : x / 2 ^ f.fw % 2 ^ f.ew < 2 ^ f.ew := Nat.mod_lt _ (Nat.two_pow_pos _)
  simp only [unpack] at h
  rw [exponentField_eq] at h hlt
  rw [fractionField_eq] at h
  generalize x % 2 ^ (f.ew + f.fw) = b at *
  split at h
  · split at h <;> cases h
  next hne =>
  have hinf : b < f.inf := by
    rw [Fmt.inf, ← Nat.div_lt_iff_lt_mul pos]
    exact Nat.lt_of_le_of_ne (Nat.le_sub_one_of_lt hlt) hne
  split at h
  · next h0 =>
    cases h
    have hb : b < 2 ^ f.fw := (Nat.div_eq_zero_iff_lt pos).mp h0
    refine ⟨rfl, le_rfl, hinf, ?_⟩
    rw [Fmt.grid, if_pos hb, Nat.mod_eq_of_lt hb]
    simp
  · next h0 =>
    cases h
    have hb : ¬ b < 2 ^ f.fw := fun hb => h0 (Nat.div_eq_of_lt hb)
    have hex : 0 < b / 2 ^ f.fw := Nat.pos_of_ne_zero h0
    have hq : f.qmin = 1 - (f.bias : Int) - f.fw := rfl
    refine ⟨rfl, by omega, hinf, ?_⟩
    rw [Fmt.grid, if_neg hb, hq]
    congr 2
    omega

theorem unpack_inf {f : Fmt} {x : Nat} {n : Bool} (h : unpack f x = .inf n) :
    n = (x / 2 ^ (f.ew + f.fw) % 2 == 1) ∧ x % 2 ^ (f.ew + f.fw) = f.inf := by
  simp only [unpack] at h
  split at h
  next he =>
    split at h
    next hf =>
      cases h
      rw [exponentField_eq] at he
      rw [fractionField_eq] at hf
      have := Nat.div_add_mod' (x % 2 ^ (f.ew + f.fw)) (2 ^ f.fw)
      rw [he, hf] at this
      exact ⟨rfl, this.symm⟩
    · cases h
  · split at h <;> cases h

/-- A finite pattern without its sign stands for a number. -/
theorem unpack_of_lt_inf {f : Fmt} {b : Nat} (h : b < f.inf) : ∃ m e, unpack f b = .fin false m e := by
  have pos : 0 < 2 ^ f.fw := Nat.two_pow_pos _
  have hb := h.trans (inf_lt f)
  have hne : b / 2 ^ f.fw % 2 ^ f.ew ≠ f.emaxField := by
    have : b / 2 ^ f.fw < f.emaxField := (Nat.div_lt_iff_lt_mul pos).mpr h
    rw [Nat.mod_eq_of_lt (this.trans (emaxField_lt f))]
    exact this.ne
  simp only [unpack, if_neg hne, Nat.div_eq_of_lt hb]
  split
  · exact ⟨_, _, rfl⟩
  · exact ⟨_, _, rfl⟩

theorem units_eq_grid {f : Fmt} {b : Nat} (h : b < f.inf) : f.units b = f.grid b := by
  obtain ⟨m, e, hu⟩ := unpack_of_lt_inf h
  obtain ⟨-, -, -, hg⟩ := unpack_fin hu
  rw [Fmt.units, hu]
  simp only
  rw [hg, Nat.mod_eq_of_lt (h.trans (inf_lt f))]

/-! ## Rounding to a multiple of a quantum (R33) -/

/-- Scaling all that a rounding compares changes nothing. -/
theorem roundUp_scale (rm : Rm) (neg odd : Bool) (rem pow : Nat) {c : Nat} (hc : 0 < c) :
    roundUp rm neg odd (rem * c) (pow * c) false = roundUp rm neg odd rem pow false := by
  have h1 : pow * c < 2 * (rem * c) ↔ pow < 2 * rem := by rw [← Nat.mul_assoc]; exact Nat.mul_lt_mul_right hc
  have h2 : 2 * (rem * c) = pow * c ↔ 2 * rem = pow := by rw [← Nat.mul_assoc]; exact Nat.mul_left_inj hc.ne'
  have h3 : (rem * c != 0) = (rem != 0) := by rw [Bool.eq_iff_iff, bne_iff_ne, bne_iff_ne, Nat.mul_ne_zero_iff]; simp [hc.ne']
  cases rm <;> simp only [roundUp, h1, h2, h3]

/-- Nothing is rounded up that loses nothing. -/
theorem roundUp_zero (rm : Rm) (neg odd : Bool) {pow : Nat} (h : 0 < pow) : roundUp rm neg odd 0 pow false = false := by
  cases rm <;> simp [roundUp, h.ne]

theorem two_pow_split {a b c : Int} (h1 : c ≤ b) (h2 : b ≤ a) : 2 ^ (a - c).toNat = 2 ^ (a - b).toNat * 2 ^ (b - c).toNat := by
  rw [← Nat.pow_add]
  congr 1
  omega

/-- Rounding in terms of a unit that is no coarser than the number's exponent and the quantum. -/
theorem roundAt_eq (rm : Rm) (neg : Bool) (m : Nat) {e q p : Int} (he : p ≤ e) (hq : p ≤ q) :
    let x := m * 2 ^ (e - p).toNat
    let w := 2 ^ (q - p).toNat
    roundAt rm neg m e false q = (if roundUp rm neg (x / w % 2 == 1) (x % w) w false then x / w + 1 else x / w, x % w != 0) := by
  intro x w
  rw [roundAt]
  split
  · next h =>
    have hw : 0 < w := Nat.two_pow_pos _
    have hx : x = m * 2 ^ (e - q).toNat * w := by simp only [x, w]; rw [two_pow_split hq h, Nat.mul_assoc]
    have hmod : x % w = 0 := by rw [hx, Nat.mul_mod_left]
    have hdiv : x / w = m * 2 ^ (e - q).toNat := by rw [hx, Nat.mul_div_cancel _ hw]
    simp only [hmod, hdiv, roundUp_zero rm neg _ hw, roundUp_zero rm neg _ Nat.one_pos]
    rfl
  · next h =>
    have hc : 0 < 2 ^ (e - p).toNat := Nat.two_pow_pos _
    have hw : w = 2 ^ (q - e).toNat * 2 ^ (e - p).toNat := two_pow_split he (by omega)
    have hmod : x % w = m % 2 ^ (q - e).toNat * 2 ^ (e - p).toNat := by simp only [x]; rw [hw, Nat.mul_mod_mul_right]
    have hdiv : x / w = m / 2 ^ (q - e).toNat := by simp only [x]; rw [hw, Nat.mul_div_mul_right _ _ hc]
    have hrem : (m % 2 ^ (q - e).toNat * 2 ^ (e - p).toNat != 0) = (m % 2 ^ (q - e).toNat != 0) := by
      rw [Bool.eq_iff_iff, bne_iff_ne, bne_iff_ne, Nat.mul_ne_zero_iff]; simp
    rw [hmod, hdiv, hrem, hw, roundUp_scale rm neg _ _ _ hc]
    simp

/-- A magnitude that is zero or the same number written with another exponent rounds alike. -/
theorem roundAt_scale (rm : Rm) (neg : Bool) (m j : Nat) (e q : Int) :
    roundAt rm neg (m * 2 ^ j) (e - j) false q = roundAt rm neg m e false q := by
  have h1 : min (e - j) q ≤ e - j := min_le_left ..
  have h2 : min (e - j) q ≤ q := min_le_right ..
  generalize min (e - j) q = p at *
  have hx : m * 2 ^ j * 2 ^ (e - j - p).toNat = m * 2 ^ (e - p).toNat := by
    rw [Nat.mul_assoc, ← Nat.pow_add]
    congr 2
    omega
  rw [roundAt_eq rm neg _ h1 h2, roundAt_eq rm neg m (e := e) (by omega) h2, hx]

theorem log2_mul_two_pow {m : Nat} (hm : 0 < m) (j : Nat) : (m * 2 ^ j).log2 = m.log2 + j := by
  induction j with
  | zero => simp
  | succ j ih =>
    rw [Nat.pow_succ, ← Nat.mul_assoc, Nat.mul_comm _ 2, Nat.log2_two_mul (Nat.mul_pos hm (Nat.two_pow_pos j)).ne', ih]
    rfl

theorem roundTo_scale (f : Fmt) (rm : Rm) (neg : Bool) {m : Nat} (hm : 0 < m) (j : Nat) (e : Int) :
    roundTo f rm neg (m * 2 ^ j) (e - j) false = roundTo f rm neg m e false := by
  have hlog : (e - j + ((m * 2 ^ j).log2 : Nat) : Int) = e + (m.log2 : Nat) := by
    rw [log2_mul_two_pow hm]
    omega
  simp only [roundTo, roundAt_scale, hlog]

/-- One number is delivered alike however it is written as a magnitude times a power of two. -/
theorem fromExact_congr (f : Fmt) (rm : Rm) (fz neg : Bool) {m m' : Nat} {e e' q : Int} (h : q ≤ e) (h' : q ≤ e')
    (hm : m * 2 ^ (e - q).toNat = m' * 2 ^ (e' - q).toNat) : fromExact f rm fz neg m e = fromExact f rm fz neg m' e' := by
  have scaled : ∀ (m : Nat) {e : Int}, q ≤ e → fromExact f rm fz neg m e = fromExact f rm fz neg (m * 2 ^ (e - q).toNat) q := by
    intro m e h
    rcases Nat.eq_zero_or_pos m with rfl | hm
    · simp [fromExact]
    · have hs := roundTo_scale f rm neg hm (e - q).toNat e
      rw [show e - ((e - q).toNat : Int) = q by omega] at hs
      simp only [fromExact, hs, (Nat.mul_pos hm (Nat.two_pow_pos _)).ne', hm.ne']
  rw [scaled m h, scaled m' h', hm]

/-! ## Rounding to a number of a format (R33, R34) -/

/-- The exponent of the last place of a magnitude m · 2^e in a format. -/
def lastPlace (f : Fmt) (m : Nat) (e : Int) : Int := max (e + Nat.log2 m - f.fw) f.qmin

/-- A magnitude in units of its last place: no more than the precision holds, and no less unless it is subnormal. -/
theorem lastPlace_bounds (f : Fmt) {m : Nat} (hm : 0 < m) {e p : Int} (he : p ≤ e) (hp : p ≤ f.qmin) :
    let k := m * 2 ^ (e - p).toNat / 2 ^ (lastPlace f m e - p).toNat
    k < 2 ^ f.fw * 2 ∧ ((lastPlace f m e - f.qmin).toNat = 0 ∨ 2 ^ f.fw ≤ k) := by
  intro k
  have hq : f.qmin ≤ lastPlace f m e := le_max_right ..
  have hq' : e + Nat.log2 m - f.fw ≤ lastPlace f m e := le_max_left ..
  refine ⟨?_, ?_⟩
  · rw [Nat.div_lt_iff_lt_mul (Nat.two_pow_pos _)]
    calc m * 2 ^ (e - p).toNat < 2 ^ (m.log2 + 1) * 2 ^ (e - p).toNat := Nat.mul_lt_mul_of_pos_right Nat.lt_log2_self (Nat.two_pow_pos _)
      _ = 2 ^ (m.log2 + 1 + (e - p).toNat) := (Nat.pow_add ..).symm
      _ ≤ 2 ^ (f.fw + 1 + (lastPlace f m e - p).toNat) := Nat.pow_le_pow_right Nat.two_pos (by omega)
      _ = 2 ^ f.fw * 2 * 2 ^ (lastPlace f m e - p).toNat := by rw [Nat.pow_add, Nat.pow_succ]
  · rcases max_choice (e + Nat.log2 m - f.fw) f.qmin with h | h
    · refine .inr ((Nat.le_div_iff_mul_le (Nat.two_pow_pos _)).mpr ?_)
      have h : lastPlace f m e = e + Nat.log2 m - f.fw := h
      calc 2 ^ f.fw * 2 ^ (lastPlace f m e - p).toNat = 2 ^ (f.fw + (lastPlace f m e - p).toNat) := (Nat.pow_add ..).symm
        _ ≤ 2 ^ (m.log2 + (e - p).toNat) := Nat.pow_le_pow_right Nat.two_pos (by omega)
        _ = 2 ^ m.log2 * 2 ^ (e - p).toNat := Nat.pow_add ..
        _ ≤ m * 2 ^ (e - p).toNat := Nat.mul_le_mul_right _ (Nat.log2_self_le hm.ne')
    · have h : lastPlace f m e = f.qmin := h
      exact .inl (by omega)

/-- What the unbounded exponent makes of a number: no less than the precision's least. -/
theorem roundAt_precision (f : Fmt) (rm : Rm) (neg : Bool) {m : Nat} (hm : 0 < m) (e : Int) :
    2 ^ f.fw ≤ (roundAt rm neg m e false (e + Nat.log2 m - f.fw)).1 := by
  have he : min e (e + Nat.log2 m - f.fw) ≤ e := min_le_left ..
  have hq : min e (e + Nat.log2 m - f.fw) ≤ e + Nat.log2 m - f.fw := min_le_right ..
  generalize min e (e + Nat.log2 m - f.fw) = p at *
  rw [roundAt_eq rm neg m he hq]
  have floor : 2 ^ f.fw ≤ m * 2 ^ (e - p).toNat / 2 ^ (e + Nat.log2 m - f.fw - p).toNat := by
    rw [Nat.le_div_iff_mul_le (Nat.two_pow_pos _)]
    calc 2 ^ f.fw * 2 ^ (e + Nat.log2 m - f.fw - p).toNat = 2 ^ (f.fw + (e + Nat.log2 m - f.fw - p).toNat) := (Nat.pow_add ..).symm
      _ = 2 ^ (m.log2 + (e - p).toNat) := by congr 1; omega
      _ = 2 ^ m.log2 * 2 ^ (e - p).toNat := Nat.pow_add ..
      _ ≤ m * 2 ^ (e - p).toNat := Nat.mul_le_mul_right _ (Nat.log2_self_le hm.ne')
  split
  · exact Nat.le_succ_of_le floor
  · exact floor

/-- The place that a magnitude x is rounded to, of the places lo and lo + 1 on a scale that it lies between. -/
def placeOf (rm : Rm) (neg : Bool) (scale : Nat → Nat) (lo x : Nat) : Nat :=
  if roundUp rm neg (lo % 2 == 1) (x - scale lo) (scale (lo + 1) - scale lo) false then lo + 1 else lo

/-- ROUNDING: a magnitude lies between two neighbours of the format and is delivered as one of them, or overflows. -/
theorem roundTo_eq (f : Fmt) (hfw : 0 < f.fw) (rm : Rm) (neg : Bool) {m : Nat} (hm : 0 < m) {e p : Int} (he : p ≤ e) (hp : p ≤ f.qmin) :
    let x := m * 2 ^ (e - p).toNat
    let scale := fun b => f.grid b * 2 ^ (f.qmin - p).toNat
    ∃ lo, scale lo ≤ x ∧ x < scale (lo + 1) ∧ roundTo f rm neg m e false =
      if f.inf ≤ placeOf rm neg scale lo x then ⟨overflowBits f rm neg, true, false, true⟩
      else ⟨f.sign neg + placeOf rm neg scale lo x, x != scale lo,
        decide (((roundAt rm neg m e false (e + Nat.log2 m - f.fw)).1.log2 : Int) + (e + Nat.log2 m - f.fw) < f.emin), false⟩ := by
  intro x scale
  obtain ⟨hk, hj⟩ := lastPlace_bounds f hm he hp
  have hq : f.qmin ≤ lastPlace f m e := le_max_right ..
  have hround := roundAt_eq rm neg m he (hp.trans hq)
  have hw := two_pow_split hp hq
  have hpos : 0 < 2 ^ (lastPlace f m e - p).toNat := Nat.two_pow_pos _
  have heven : 2 ^ f.fw % 2 = 0 := by rw [← Nat.sub_add_cancel hfw, Nat.pow_succ]; exact Nat.mul_mod_left ..
  simp only at hround
  change (x / _ < _) at hk
  set w := 2 ^ (lastPlace f m e - p).toNat
  set k := x / w
  set j := (lastPlace f m e - f.qmin).toNat
  have hlo : scale (j * 2 ^ f.fw + k) = k * w := by simp only [scale]; rw [grid_eq hk.le hj, hw, Nat.mul_assoc]
  have hhi : scale (j * 2 ^ f.fw + k + 1) = (k + 1) * w := by
    simp only [scale]
    rw [Nat.add_assoc, grid_eq hk (hj.imp_right Nat.le_succ_of_le), hw, Nat.mul_assoc]
  have hdiv : k * w + x % w = x := Nat.div_add_mod' x w
  have hmod : x % w < w := Nat.mod_lt _ hpos
  have hsucc : (k + 1) * w = k * w + w := Nat.succ_mul ..
  have hplace : j * 2 ^ f.fw + (roundAt rm neg m e false (lastPlace f m e)).1 = placeOf rm neg scale (j * 2 ^ f.fw + k) x := by
    have hodd : (j * 2 ^ f.fw + k) % 2 = k % 2 := by rw [Nat.add_mod, Nat.mul_mod, heven]; simp
    rw [hround, placeOf, hlo, hhi, hsucc, hodd, Nat.add_sub_cancel_left, show x - k * w = x % w by omega]
    split
    · rw [Nat.add_assoc]
    · rfl
  have hlost : (x % w != 0) = (x != scale (j * 2 ^ f.fw + k)) := by
    rw [Bool.eq_iff_iff, bne_iff_ne, bne_iff_ne, hlo]
    omega
  refine ⟨j * 2 ^ f.fw + k, by omega, by omega, ?_⟩
  rw [← hplace, ← hlost, ← show (roundAt rm neg m e false (lastPlace f m e)).2 = (x % w != 0) by rw [hround]]
  rfl

/-! ## Directions (R33) -/

/-- Whether a direction leads to the smaller magnitude, whatever is lost. -/
abbrev Inward (rm : Rm) (neg : Bool) : Prop := rm = .rz ∨ rm = .ru ∧ neg = true ∨ rm = .rd ∧ neg = false

/-- A rounding up of the magnitude x in a gap from lo to hi. -/
theorem roundUp_inward {rm : Rm} {neg : Bool} (h : Inward rm neg) (odd : Bool) (rem pow : Nat) : roundUp rm neg odd rem pow false = false := by
  rcases h with rfl | ⟨rfl, rfl⟩ | ⟨rfl, rfl⟩ <;> simp [roundUp]

theorem roundUp_outward {rm : Rm} {neg : Bool} (h : ¬ Inward rm neg) (hn : rm ≠ .rn) (odd : Bool) (rem pow : Nat) :
    roundUp rm neg odd rem pow false = (rem != 0) := by
  cases rm <;> cases neg <;> simp_all [Inward, roundUp]

section
variable {G : Nat → Nat} {lo x : Nat} (mono : StrictMono G) (hlo : G lo ≤ x) (hhi : x < G (lo + 1)) {rm : Rm} {neg : Bool}

theorem placeOf_inward (h : Inward rm neg) : placeOf rm neg G lo x = lo := by
  rw [placeOf, roundUp_inward h, if_neg Bool.false_ne_true]

include hlo in
theorem placeOf_outward (h : ¬ Inward rm neg) (hn : rm ≠ .rn) : placeOf rm neg G lo x = if x = G lo then lo else lo + 1 := by
  rw [placeOf, roundUp_outward h hn]
  by_cases hx : x = G lo
  · simp [hx]
  · have : x - G lo ≠ 0 := by omega
    simp [hx, this]

include hlo hhi in
theorem placeOf_nearest : placeOf .rn neg G lo x =
    if G lo + G (lo + 1) < 2 * x ∨ (G lo + G (lo + 1) = 2 * x ∧ lo % 2 = 1) then lo + 1 else lo := by
  have h1 : G (lo + 1) - G lo < 2 * (x - G lo) ↔ G lo + G (lo + 1) < 2 * x := by omega
  have h2 : 2 * (x - G lo) = G (lo + 1) - G lo ↔ G lo + G (lo + 1) = 2 * x := by omega
  simp only [placeOf, roundUp, Bool.false_or, Bool.or_eq_true, Bool.and_eq_true, decide_eq_true_eq, beq_iff_eq, h1, h2]

include mono hhi in
/-- Nothing on the scale lies between a magnitude and the place below it. -/
theorem le_of_scale_le {b : Nat} (h : G b ≤ x) : b ≤ lo := Nat.lt_succ_iff.mp (mono.lt_iff_lt.mp (h.trans_lt hhi))

include mono hlo hhi

/-- A place is exact where nothing was lost. -/
theorem placeOf_exact : G (placeOf rm neg G lo x) = x ↔ x = G lo := by
  constructor
  · rw [placeOf]
    split
    · exact fun h => absurd h hhi.ne'
    · exact Eq.symm
  · rintro rfl
    rw [placeOf, Nat.sub_self, roundUp_zero rm neg _ (Nat.sub_pos_of_lt (mono (Nat.lt_succ_self lo))), if_neg Bool.false_ne_true]

theorem le_place_inward (h : Inward rm neg) (inf : Nat) : inf ≤ placeOf rm neg G lo x ↔ G inf ≤ x := by
  rw [placeOf_inward h]
  exact ⟨fun hi => (mono.monotone hi).trans hlo, le_of_scale_le mono hhi⟩

theorem le_place_outward (h : ¬ Inward rm neg) (hn : rm ≠ .rn) {inf : Nat} (pos : 0 < inf) :
    inf ≤ placeOf rm neg G lo x ↔ G (inf - 1) < x := by
  rw [placeOf_outward hlo h hn]
  by_cases hx : x = G lo
  · rw [if_pos hx, hx, mono.lt_iff_lt]
    omega
  · rw [if_neg hx]
    constructor
    · intro hi
      have := mono.monotone (show inf - 1 ≤ lo by omega)
      omega
    · intro hi
      have := le_of_scale_le mono hhi hi.le
      omega

theorem le_place_nearest {inf : Nat} (pos : 0 < inf) (even : inf % 2 = 0) :
    inf ≤ placeOf .rn neg G lo x ↔ G (inf - 1) + G inf ≤ 2 * x := by
  have step : G (inf - 1) < G inf := mono (by omega)
  rw [placeOf_nearest hlo hhi]
  rcases Nat.lt_trichotomy (lo + 1) inf with h | h | h
  · -- below the last number but one
    have := mono.monotone (show lo + 1 ≤ inf - 1 by omega)
    split <;> omega
  · -- between the largest number and the one that would come next: the tie goes to the latter
    obtain rfl : inf = lo + 1 := h.symm
    rw [Nat.add_sub_cancel] at *
    split <;> omega
  · have := mono.monotone (show inf ≤ lo by omega)
    split <;> omega

/-- Of the places around a magnitude the nearest is taken, the even one of two equally near. -/
theorem placeOf_nearest_le {b : Nat} (hb : b = placeOf .rn neg G lo x) (b' : Nat) : ((x : Int) - G b).natAbs ≤ ((x : Int) - G b').natAbs ∧
    (((x : Int) - G b).natAbs = ((x : Int) - G b').natAbs → b' ≠ b → b % 2 = 0) := by
  rw [placeOf_nearest hlo hhi] at hb
  rcases Nat.lt_trichotomy b' lo with h | h | h
  · have := mono h
    split at hb <;> subst hb <;> omega
  · subst h
    split at hb <;> subst hb <;> omega
  · rcases Nat.eq_or_lt_of_le h with h | h
    · obtain rfl : b' = lo + 1 := h.symm
      split at hb <;> subst hb <;> omega
    · have : G (lo + 1) < G b' := mono h
      split at hb <;> subst hb <;> omega

end

/-- A number is tiny where what the precision alone makes of it lies below the least normal one (R34). -/
theorem log2_add_lt_iff {k : Nat} (hk : 0 < k) (q emin : Int) :
    (k.log2 : Int) + q < emin ↔ k * 2 ^ (q - min q emin).toNat < 2 ^ (emin - min q emin).toNat := by
  rcases le_total q emin with h | h
  · rw [min_eq_left h, Int.sub_self, Int.toNat_zero, Nat.pow_zero, Nat.mul_one, ← Nat.log2_lt hk.ne']
    omega
  · rw [min_eq_right h, Int.sub_self, Int.toNat_zero, Nat.pow_zero]
    have := Nat.mul_pos hk (Nat.two_pow_pos (q - emin).toNat)
    omega

/-! ## The directions and the formats (R33-R35) -/

theorem roundAt_coarser (rm : Rm) (neg : Bool) (m : Nat) {e q : Int} (h : e < q) :
    let pow := 2 ^ (q - e).toNat
    roundAt rm neg m e false q = (if roundUp rm neg (m / pow % 2 == 1) (m % pow) pow false then m / pow + 1 else m / pow, m % pow != 0) := by
  rw [roundAt, if_neg (Int.not_le.mpr h)]
  simp only [Bool.or_false]

/-- What each direction makes of a magnitude at a coarser quantum. -/
theorem roundAt_directions (neg : Bool) (m : Nat) (e q : Int) (h : e < q) :
    let pow := 2 ^ (q - e).toNat
    let k := fun rm => (roundAt rm neg m e false q).1
    (2 * (k .rn * pow) ≤ 2 * m + pow ∧ 2 * m ≤ 2 * (k .rn * pow) + pow) ∧
    (2 * (k .rn * pow) = 2 * m + pow ∨ 2 * m = 2 * (k .rn * pow) + pow → k .rn % 2 = 0) ∧
    (k .rz * pow ≤ m ∧ m < (k .rz + 1) * pow) ∧
    (k .ru = if neg || m % pow = 0 then m / pow else m / pow + 1) ∧
    (k .rd = if neg && m % pow ≠ 0 then m / pow + 1 else m / pow) ∧
    ∀ rm, (roundAt rm neg m e false q).2 = true ↔ m % pow ≠ 0 := by
  have pos : 0 < 2 ^ (q - e).toNat := Nat.two_pow_pos _
  simp only [roundAt_coarser _ neg m h]
  generalize 2 ^ (q - e).toNat = pow at *
  have hdiv := Nat.div_add_mod' m pow
  have hmod := Nat.mod_lt m pos
  have hsucc : (m / pow + 1) * pow = m / pow * pow + pow := Nat.succ_mul ..
  refine ⟨?_, ?_, ?_, ?_, ?_, fun rm => by simp⟩
  · split
    · next up => simp [roundUp] at up; omega
    · next down => simp [roundUp] at down; omega
  · split
    · next up => simp [roundUp] at up; omega
    · next down => simp [roundUp] at down; omega
  · simp [roundUp]
    omega
  · cases neg <;> by_cases hz : m % pow = 0 <;> simp [roundUp, hz]
  · cases neg <;> by_cases hz : m % pow = 0 <;> simp [roundUp, hz]

/-- A format with room for numbers: what FP32, FP16, BF16 and FP64 have in common. -/
structure Fmt.Sound (f : Fmt) : Prop where
  fraction : 0 < f.fw
  exponent : 0 < f.emaxField

theorem formats_sound : ∀ f ∈ [Fmt.f32, Fmt.f16, Fmt.bf16, Fmt.f64], f.Sound := by
  intro f hf
  have h : 0 < f.fw ∧ 0 < f.emaxField := by
    revert f
    decide
  exact ⟨h.1, h.2⟩

theorem Fmt.Sound.inf_pos {f : Fmt} (h : f.Sound) : 0 < f.inf := Nat.mul_pos h.exponent (Nat.two_pow_pos _)

theorem Fmt.Sound.inf_even {f : Fmt} (h : f.Sound) : f.inf % 2 = 0 := by
  rw [Fmt.inf, ← Nat.sub_add_cancel h.fraction, Nat.pow_succ, ← Nat.mul_assoc]
  exact Nat.mul_mod_left ..

theorem overflowBits_eq (f : Fmt) (rm : Rm) (neg : Bool) : overflowBits f rm neg = f.sign neg + if Inward rm neg then f.inf - 1 else f.inf := by
  cases rm <;> cases neg <;> rfl

section
variable {f : Fmt} (sound : f.Sound) (rm : Rm) (neg : Bool) {m : Nat} (hm : 0 < m) (e : Int)

/-- The numbers of a format in a unit that an exponent allows, and an exact magnitude in the same. -/
def numScale (f : Fmt) (e : Int) (b : Nat) : Nat := f.grid b * 2 ^ (f.qmin - min e f.qmin).toNat
def exactMag (f : Fmt) (m : Nat) (e : Int) : Nat := m * 2 ^ (e - min e f.qmin).toNat

theorem numScale_strictMono (f : Fmt) (e : Int) : StrictMono (numScale f e) :=
  fun _ _ h => Nat.mul_lt_mul_of_pos_right (grid_strictMono f h) (Nat.two_pow_pos _)

theorem units_eq_numScale {b : Nat} (h : b < f.inf) : f.units b * 2 ^ (f.qmin - min e f.qmin).toNat = numScale f e b := by
  rw [units_eq_grid h, numScale]

include sound in
theorem numScale_inf : 2 ^ (f.fw + f.emaxField - 1) * 2 ^ (f.qmin - min e f.qmin).toNat = numScale f e f.inf := by
  rw [numScale, grid_inf sound.exponent]

include sound hm

theorem exists_place : ∃ lo, numScale f e lo ≤ exactMag f m e ∧ exactMag f m e < numScale f e (lo + 1) ∧
    roundTo f rm neg m e false =
      if f.inf ≤ placeOf rm neg (numScale f e) lo (exactMag f m e) then ⟨overflowBits f rm neg, true, false, true⟩
      else ⟨f.sign neg + placeOf rm neg (numScale f e) lo (exactMag f m e), exactMag f m e != numScale f e lo,
        decide (((roundAt rm neg m e false (e + Nat.log2 m - f.fw)).1.log2 : Int) + (e + Nat.log2 m - f.fw) < f.emin), false⟩ :=
  roundTo_eq f sound.fraction rm neg hm (min_le_left e f.qmin) (min_le_right e f.qmin)

/-- Overflow, by direction: at the middle between the largest number and the next, at the next, above the largest. -/
theorem isOver_iff : (roundTo f rm neg m e false).isOver = true ↔ if rm = .rn then numScale f e (f.inf - 1) + numScale f e f.inf ≤ 2 * exactMag f m e
    else if Inward rm neg then numScale f e f.inf ≤ exactMag f m e else numScale f e (f.inf - 1) < exactMag f m e := by
  obtain ⟨lo, hlo, hhi, hr⟩ := exists_place sound rm neg hm e
  have mono := numScale_strictMono f e
  have hover : (roundTo f rm neg m e false).isOver = true ↔ f.inf ≤ placeOf rm neg (numScale f e) lo (exactMag f m e) := by
    rw [hr]
    split <;> simp_all
  rw [hover]
  by_cases hn : rm = .rn
  · subst hn
    rw [if_pos rfl]
    exact le_place_nearest mono hlo hhi sound.inf_pos sound.inf_even
  · rw [if_neg hn]
    by_cases hi : Inward rm neg
    · rw [if_pos hi]
      exact le_place_inward mono hlo hhi hi _
    · rw [if_neg hi]
      exact le_place_outward mono hlo hhi hi hn sound.inf_pos

theorem over_bits (h : (roundTo f rm neg m e false).isOver = true) :
    (roundTo f rm neg m e false).bits = f.sign neg + if Inward rm neg then f.inf - 1 else f.inf := by
  obtain ⟨lo, -, -, hr⟩ := exists_place sound rm neg hm e
  rw [hr] at h ⊢
  split at h
  · next hp => rw [if_pos hp, overflowBits_eq]
  · cases h

/-- Which number is delivered, where none overflows. -/
theorem delivered_place (h : (roundTo f rm neg m e false).isOver = false) : ∃ b, b < f.inf ∧
    (roundTo f rm neg m e false).bits = f.sign neg + b ∧
    ((roundTo f rm neg m e false).inexact = true ↔ numScale f e b ≠ exactMag f m e) ∧
    (Inward rm neg → numScale f e b ≤ exactMag f m e ∧ ∀ b', numScale f e b' ≤ exactMag f m e → numScale f e b' ≤ numScale f e b) ∧
    (¬ Inward rm neg → rm ≠ .rn →
      exactMag f m e ≤ numScale f e b ∧ ∀ b', exactMag f m e ≤ numScale f e b' → numScale f e b ≤ numScale f e b') ∧
    (rm = .rn → ∀ b', ((exactMag f m e : Int) - numScale f e b).natAbs ≤ ((exactMag f m e : Int) - numScale f e b').natAbs ∧
      (((exactMag f m e : Int) - numScale f e b).natAbs = ((exactMag f m e : Int) - numScale f e b').natAbs → b' ≠ b → b % 2 = 0)) := by
  obtain ⟨lo, hlo, hhi, hr⟩ := exists_place sound rm neg hm e
  have mono := numScale_strictMono f e
  by_cases hp : f.inf ≤ placeOf rm neg (numScale f e) lo (exactMag f m e)
  · rw [hr, if_pos hp] at h
    cases h
  · rw [if_neg hp] at hr
    refine ⟨_, Nat.lt_of_not_le hp, by rw [hr], ?_, fun hi => ?_, fun hi hn => ?_, fun hn => ?_⟩
    · rw [hr, bne_iff_ne, ne_eq, ne_eq, placeOf_exact mono hlo hhi]
    · rw [placeOf_inward hi]
      exact ⟨hlo, fun b' hb' => mono.monotone (le_of_scale_le mono hhi hb')⟩
    · rw [placeOf_outward hlo hi hn]
      split
      · next heq => exact ⟨heq.le, fun b' hb' => heq ▸ hb'⟩
      · next hne => exact ⟨hhi.le, fun b' hb' => mono.monotone (mono.lt_iff_lt.mp (lt_of_lt_of_le (lt_of_le_of_ne hlo (Ne.symm hne)) hb'))⟩
    · subst hn
      exact placeOf_nearest_le mono hlo hhi rfl

theorem tiny_iff : let q := e + Nat.log2 m - f.fw
    (roundTo f rm neg m e false).tiny = true ↔ (roundTo f rm neg m e false).isOver = false ∧
      (roundAt rm neg m e false q).1 * 2 ^ (q - min q f.emin).toNat < 2 ^ (f.emin - min q f.emin).toNat := by
  intro q
  obtain ⟨lo, -, -, hr⟩ := exists_place sound rm neg hm e
  have hk := (Nat.two_pow_pos f.fw).trans_le (roundAt_precision f rm neg hm e)
  rw [hr, ← log2_add_lt_iff hk]
  split
  · simp
  · simp [q]

end

/-- Settles O14: a rounding takes one of the two neighbours of a magnitude, by its direction; the format's end decides overflow. -/
theorem roundingDirections : Obligations.RoundingDirections := by
  unfold Obligations.RoundingDirections
  refine ⟨roundAt_directions, fun f hf rm neg m e hm => ?_⟩
  have sound := formats_sound f hf
  intro r inward exact mag top
  have hmag : ∀ b, b < f.inf → mag b = numScale f e b := fun b h => units_eq_numScale e h
  have htop : top = numScale f e f.inf := numScale_inf sound e
  refine ⟨?_, over_bits sound rm neg hm e, fun h => ?_, tiny_iff sound rm neg hm e, fun fz => ?_⟩
  · rw [htop, hmag _ (Nat.sub_lt sound.inf_pos Nat.one_pos)]
    exact isOver_iff sound rm neg hm e
  · obtain ⟨b, hb, bits, inexact, inw, outw, nearest⟩ := delivered_place sound rm neg hm e h
    refine ⟨b, hb, bits, by rw [hmag b hb]; exact inexact, fun hi => ?_, fun hi hn => ?_, fun hn b' hb' => ?_⟩
    · rw [hmag b hb]
      exact ⟨(inw hi).1, fun b' hb' => hmag b' hb' ▸ (inw hi).2 b'⟩
    · rw [hmag b hb]
      exact ⟨(outw hi hn).1, fun b' hb' => hmag b' hb' ▸ (outw hi hn).2 b'⟩
    · rw [hmag b hb, hmag b' hb']
      exact nearest hn b'
  · have : m ≠ 0 := hm.ne'
    simp [fromExact, deliver, this, r]

end Sys2Proof.Machine
end

section
/-! LEMMAS AND PROOFS. NaN results and invalid operations (R31, R204). -/

namespace Sys2Proof.Machine

section
variable {f : Fmt} {rm : Rm} {fz : Bool} {a b d : FVal}

/-! ## A NaN operand -/

theorem addV_nan (h : a.isNan = true ∨ b.isNan = true) : addV f rm fz a b = nanOf f (a.sig || b.sig) := by
  cases a with
  | nan s => rfl
  | inf na => cases b <;> simp_all [addV, FVal.isNan, FVal.sig]
  | fin na ma ea => cases b <;> simp_all [addV, FVal.isNan, FVal.sig]

theorem mulV_nan (h : a.isNan = true ∨ b.isNan = true) : mulV f rm fz a b = nanOf f (a.sig || b.sig) := by
  cases a with
  | nan s => rfl
  | inf na => cases b <;> simp_all [mulV, FVal.isNan, FVal.sig]
  | fin na ma ea => cases b <;> simp_all [mulV, FVal.isNan, FVal.sig]

theorem fmaV_nan (h : a.isNan = true ∨ b.isNan = true) : fmaV f rm fz a b d = nanOf f (a.sig || b.sig || d.sig) := by
  cases a with
  | nan s => rfl
  | inf na => cases b <;> simp_all [fmaV, FVal.isNan]
  | fin na ma ea => cases b <;> simp_all [fmaV, FVal.isNan]

@[simp] theorem neg_sig (a : FVal) : a.neg.sig = a.sig := by cases a <;> rfl
@[simp] theorem neg_isNan (a : FVal) : a.neg.isNan = a.isNan := by cases a <;> rfl

/-! ## An invalid product -/

/-- Zero times infinity, on either side. -/
def FVal.NoProduct (a b : FVal) : Prop := ∃ n m e, a = .inf n ∧ b = .fin m 0 e ∨ a = .fin m 0 e ∧ b = .inf n

theorem mulV_noProduct (h : a.NoProduct b) : mulV f rm fz a b = nanOf f true := by
  obtain ⟨n, m, e, ⟨rfl, rfl⟩ | ⟨rfl, rfl⟩⟩ := h <;> rfl

theorem fmaV_noProduct (h : a.NoProduct b) : fmaV f rm fz a b d = nanOf f true := by
  obtain ⟨n, m, e, ⟨rfl, rfl⟩ | ⟨rfl, rfl⟩⟩ := h <;> rfl

/-- A NaN addend beside a product. -/
theorem fmaV_nan_addend (hd : d.isNan = true) (h : ¬ a.NoProduct b) : fmaV f rm fz a b d = nanOf f (a.sig || b.sig || d.sig) := by
  obtain ⟨s, rfl⟩ : ∃ s, d = .nan s := by
    cases d with
    | nan s => exact ⟨s, rfl⟩
    | inf n => cases hd
    | fin n m e => cases hd
  cases a with
  | nan s => rfl
  | inf na =>
    cases b with
    | nan s => rfl
    | inf nb => rfl
    | fin nb mb eb =>
      have : mb ≠ 0 := fun e => h ⟨na, nb, eb, .inl ⟨rfl, e ▸ rfl⟩⟩
      simp [fmaV, fmaV.fmaInf, this]
  | fin na ma ea =>
    cases b with
    | nan s => rfl
    | inf nb =>
      have : ma ≠ 0 := fun e => h ⟨nb, na, ea, .inr ⟨e ▸ rfl, rfl⟩⟩
      simp [fmaV, fmaV.fmaInf, this]
    | fin nb mb eb => rfl

/-- An infinite product and the infinity of the other sign. -/
theorem fmaV_opposed {n k : Bool} {x : Nat} {e : Int} (pos : 0 < x) (hb : b = .inf k ∨ b = .fin k x e) :
    fmaV f rm fz (.inf n) b (.inf (n == k)) = nanOf f true := by
  have differ : ((n == k) == (n != k)) = false := by cases n <;> cases k <;> rfl
  rcases hb with rfl | rfl <;> simp [fmaV, fmaV.fmaInf, differ, pos.ne']

end

/-- Settles O11: a NaN operand, zero times infinity, and opposed infinities, each read off the operands' values. -/
theorem floatNaNs : Obligations.FloatNaNs := by
  unfold Obligations.FloatNaNs
  intro f c x y z
  refine ⟨fun h => ⟨addV_nan h, ?_, mulV_nan h, fmaV_nan h⟩, fun hz => ⟨?_, fun h => ?_, fun h => ?_⟩, fun n m e hx hy => ?_, fun n m e hx hy => ?_,
    fun n hx hy => ?_, fun n hx hy => ?_, fun n k m e pos hx hy hz => ?_⟩
  · exact (addV_nan (h.imp_right (neg_isNan _).trans)).trans (by rw [neg_sig]; rfl)
  · by_cases h : (operand f c x).NoProduct (operand f c y)
    · exact congrArg Prod.fst (fmaV_noProduct h)
    · exact congrArg Prod.fst (fmaV_nan_addend hz h)
  · exact congrArg Prod.snd (fmaV_noProduct h)
  · exact congrArg Prod.snd (fmaV_nan_addend hz fun ⟨n, m, e, hp⟩ => hp.elim (h n m e).1 (h n m e).2)
  · exact ⟨mulV_noProduct ⟨n, m, e, .inl ⟨hx, hy⟩⟩, fmaV_noProduct ⟨n, m, e, .inl ⟨hx, hy⟩⟩⟩
  · exact ⟨mulV_noProduct ⟨n, m, e, .inr ⟨hx, hy⟩⟩, fmaV_noProduct ⟨n, m, e, .inr ⟨hx, hy⟩⟩⟩
  · show addV f c.rm c.fz (operand f c x) (operand f c y).neg = _
    rw [hx, hy]
    cases n <;> rfl
  · show addV f c.rm c.fz (operand f c x) (operand f c y) = _
    rw [hx, hy]
    cases n <;> rfl
  · show fmaV f c.rm c.fz (operand f c x) (operand f c y) (operand f c z) = _
    rw [hx, hz]
    exact fmaV_opposed pos hy

end Sys2Proof.Machine
end

section
/-! LEMMAS AND PROOFS. The combinations of redux (R47, R205, R217). -/

namespace Sys2Proof.Machine

/-! ## The instruction -/

theorem redux_writes (op : ReduxOp) (d : KReg) (a : VReg) (st : Stall) :
    let u : Uses := { vsrc := [(a, 1)] }
    let xs := fun s c => (countedLanes u noOwn s c).map fun L => (L, arg (opnds u noOwn s c L) 0)
    Writes (.redux op d a st) u true (fun s c => [(kKey (s.issuer c) d, (reduxVal op (xs s c)).1)]) (fun s c => (reduxVal op (xs s c)).2) := by
  intro u xs s c h
  rw [show exec (.redux op d a st) s = execRedux op d a st s from rfl, execRedux]
  refine uniform_next h st true _ (fun r hr => ?_) ?_
  · subst hr
    have hg := start_grp u noOwn s c
    have hA := start_A u noOwn s c
    have hxs : ((((startState u s c).grp (issueOf u noOwn s c).c.blk (issueOf u noOwn s c).c.grp).counted (issueOf u noOwn s c).lanes).map fun L =>
        (L, arg (readArgs ((startState u s c).blk (issueOf u noOwn s c).c.blk).A (issueOf u noOwn s c).now
          ((startState u s c).grp (issueOf u noOwn s c).c.blk (issueOf u noOwn s c).c.grp) (issueOf u noOwn s c) u L) 0)) = xs s c := by
      rw [hg, hA]; rfl
    refine ⟨?_, Bool.noConfusion, ?_, congrArg (fun x => (reduxVal op x).2) hxs, rfl, rfl, rfl, rfl⟩
    · simp only []
      split
      · exact unitsOnly_memoLookup ..
      · exact UnitsOnly.refl _
    · exact congrArg₂ (fun x G => [(kKey G d, (reduxVal op x).1)]) hxs hg
  · intro w hw
    rw [List.mem_singleton] at hw
    subst hw
    exact ⟨.inl ⟨_, rfl⟩, fun x hx _ => by rw [List.mem_singleton.mp hx]⟩

/-! ## Integer combinations -/

theorem foldl_add (l : List Word) (a : Word) : l.foldl (· + ·) a = BitVec.ofNat 32 (a.toNat + (l.map BitVec.toNat).sum) := by
  induction l generalizing a with
  | nil => simp
  | cons x l ih =>
    rw [List.foldl_cons, ih, List.map_cons, List.sum_cons]
    refine BitVec.eq_of_toNat_eq ?_
    simp only [BitVec.toNat_add, BitVec.toNat_ofNat]
    omega

/-- A fold that keeps, of two, the one of the smaller key. -/
theorem foldl_choice {α : Type} {op : α → α → α} (key : α → Int)
    (h : ∀ a b, (op a b = a ∧ key a ≤ key b) ∨ (op a b = b ∧ key b ≤ key a)) (l : List α) (a : α) :
    (∀ x ∈ a :: l, key (l.foldl op a) ≤ key x) ∧ l.foldl op a ∈ a :: l := by
  induction l generalizing a with
  | nil => simp
  | cons y l ih =>
    obtain ⟨least, mem⟩ := ih (op a y)
    have hop := least (op a y) List.mem_cons_self
    rw [List.foldl_cons]
    rcases h a y with ⟨e, hle⟩ | ⟨e, hle⟩
    · rw [e] at least mem hop ⊢
      refine ⟨?_, List.mem_cons.mpr ((List.mem_cons.mp mem).imp_right (List.mem_cons_of_mem y))⟩
      simp only [List.mem_cons, forall_eq_or_imp]
      exact ⟨hop, hop.trans hle, fun x hx => least x (List.mem_cons_of_mem _ hx)⟩
    · rw [e] at least mem hop ⊢
      refine ⟨?_, List.mem_cons_of_mem a mem⟩
      simp only [List.mem_cons, forall_eq_or_imp]
      exact ⟨hop.trans hle, hop, fun x hx => least x (List.mem_cons_of_mem _ hx)⟩

theorem minS_choice (a b : Word) : (minS a b = a ∧ a.toInt ≤ b.toInt) ∨ (minS a b = b ∧ b.toInt ≤ a.toInt) := by
  rw [minS]
  split
  · next h => exact .inl ⟨rfl, BitVec.sle_iff_toInt_le.mp h⟩
  · next h => exact .inr ⟨rfl, (Int.not_le.mp fun hle => h (BitVec.sle_iff_toInt_le.mpr hle)).le⟩

theorem maxS_choice (a b : Word) : (maxS a b = a ∧ -a.toInt ≤ -b.toInt) ∨ (maxS a b = b ∧ -b.toInt ≤ -a.toInt) := by
  rw [maxS]
  split
  · next h => exact .inr ⟨rfl, Int.neg_le_neg (BitVec.sle_iff_toInt_le.mp h)⟩
  · next h => exact .inl ⟨rfl, Int.neg_le_neg (Int.not_le.mp fun hle => h (BitVec.sle_iff_toInt_le.mpr hle)).le⟩

theorem minZ_choice (a b : Word) : (minZ a b = a ∧ (a.toNat : Int) ≤ b.toNat) ∨ (minZ a b = b ∧ (b.toNat : Int) ≤ a.toNat) := by
  rw [minZ]
  split
  · next h => rw [BitVec.ule, decide_eq_true_eq] at h; exact .inl ⟨rfl, by omega⟩
  · next h => rw [BitVec.ule, decide_eq_true_eq] at h; exact .inr ⟨rfl, by omega⟩

theorem maxZ_choice (a b : Word) : (maxZ a b = a ∧ -(a.toNat : Int) ≤ -b.toNat) ∨ (maxZ a b = b ∧ -(b.toNat : Int) ≤ -a.toNat) := by
  rw [maxZ]
  split
  · next h => rw [BitVec.ule, decide_eq_true_eq] at h; exact .inr ⟨rfl, by omega⟩
  · next h => rw [BitVec.ule, decide_eq_true_eq] at h; exact .inl ⟨rfl, by omega⟩

theorem getLsbD_foldl_and (l : List Word) (a : Word) (i : Nat) :
    (l.foldl (· &&& ·) a).getLsbD i = true ↔ a.getLsbD i = true ∧ ∀ x ∈ l, x.getLsbD i = true := by
  induction l generalizing a with
  | nil => simp
  | cons y l ih => simp [ih, and_assoc]

theorem getLsbD_foldl_or (l : List Word) (a : Word) (i : Nat) :
    (l.foldl (· ||| ·) a).getLsbD i = true ↔ a.getLsbD i = true ∨ ∃ x ∈ l, x.getLsbD i = true := by
  induction l generalizing a with
  | nil => simp
  | cons y l ih => simp [ih, or_assoc]

theorem getLsbD_foldl_xor (l : List Word) (a : Word) (i : Nat) :
    (l.foldl (· ^^^ ·) a).getLsbD i = (a.getLsbD i ^^ decide ((l.countP fun x => x.getLsbD i) % 2 = 1)) := by
  induction l generalizing a with
  | nil => simp
  | cons y l ih =>
    rw [List.foldl_cons, ih, List.countP_cons, BitVec.getLsbD_xor, Bool.xor_assoc]
    congr 1
    by_cases hy : y.getLsbD i = true
    · rw [hy, if_pos rfl, Bool.true_xor, ← decide_not, decide_eq_decide]
      omega
    · simp [Bool.eq_false_iff.mpr hy]

/-! ## The tree of a sum (R47) -/

/-- The values below a node. -/
def leaves (v : Nat → Option Nat) : Nat → Nat → List (Option Nat)
  | 0, i => [v i]
  | n + 1, i => leaves v n (2 * i) ++ leaves v n (2 * i + 1)

/-- The values of the level above the lanes, and the flags of its additions below a node. -/
def pairSum (v : Nat → Option Nat) (i : Nat) : Option Nat := (treeNode v 1 i).1
def pairFlags (v : Nat → Option Nat) : Nat → Nat → FFlags
  | 0, i => (treeNode v 1 i).2
  | n + 1, i => pairFlags v n (2 * i) ||| pairFlags v n (2 * i + 1)

theorem leaves_length (v : Nat → Option Nat) (n i : Nat) : (leaves v n i).length = 2 ^ n := by
  induction n generalizing i with
  | zero => rfl
  | succ n ih => rw [leaves, List.length_append, ih, ih, Nat.pow_succ, Nat.mul_two]

theorem reduxLevel_append (l : List (Option Nat)) {n : Nat} (h : l.length = 2 * n) (r : List (Option Nat)) :
    reduxLevel (l ++ r) = ((reduxLevel l).1 ++ (reduxLevel r).1, (reduxLevel l).2 ||| (reduxLevel r).2) := by
  induction n generalizing l with
  | zero => rw [List.eq_nil_of_length_eq_zero h]; simp [reduxLevel, fNone]
  | succ n ih =>
    match l, h with
    | x :: y :: l, h =>
      have hl : l.length = 2 * n := by simp only [List.length_cons] at h; omega
      have := ih l hl
      cases x <;> cases y <;> simp [reduxLevel, this, BitVec.or_assoc]

/-- One level of the tree on the values below a node. -/
theorem reduxLevel_leaves (v : Nat → Option Nat) (n i : Nat) : reduxLevel (leaves v (n + 1) i) = (leaves (pairSum v) n i, pairFlags v n i) := by
  induction n generalizing i with
  | zero =>
    simp only [leaves, List.singleton_append, pairSum, pairFlags, treeNode]
    cases v (2 * i) <;> cases v (2 * i + 1) <;> simp [reduxLevel, fNone]
  | succ n ih =>
    have even : (leaves v (n + 1) (2 * i)).length = 2 * 2 ^ n := by rw [leaves_length, Nat.pow_succ, Nat.mul_comm]
    rw [leaves, reduxLevel_append _ even, ih, ih]
    rfl

/-- A node is that of the tree over the level above the lanes, with that level's flags. -/
theorem treeNode_succ (v : Nat → Option Nat) (n i : Nat) :
    treeNode v (n + 1) i = ((treeNode (pairSum v) n i).1, (treeNode (pairSum v) n i).2 ||| pairFlags v n i) := by
  induction n generalizing i with
  | zero => simp [treeNode, pairSum, pairFlags, fNone]
  | succ n ih =>
    rw [treeNode, ih, ih, treeNode, pairFlags]
    generalize treeNode (pairSum v) n (2 * i) = a
    generalize treeNode (pairSum v) n (2 * i + 1) = b
    obtain ⟨a, fa⟩ := a
    obtain ⟨b, fb⟩ := b
    cases a <;> cases b <;> simp only <;> rw [Prod.mk.injEq] <;> exact ⟨rfl, by ac_rfl⟩

theorem reduxTree_leaves (v : Nat → Option Nat) (n i : Nat) (fl : FFlags) :
    reduxTree n (leaves v n i) fl = ((treeNode v n i).1, fl ||| (treeNode v n i).2) := by
  induction n generalizing v fl with
  | zero => simp [reduxTree, leaves, treeNode, fNone]
  | succ n ih =>
    rw [reduxTree, reduxLevel_leaves, treeNode_succ]
    simp only [ih]
    rw [Prod.mk.injEq]
    exact ⟨rfl, by ac_rfl⟩

/-- The tree of R47 over the 32 lanes. -/
theorem reduxTree_lanes (v : Nat → Option Nat) : reduxTree 5 ((List.range 32).map v) fNone = treeNode v 5 0 := by
  rw [show (List.range 32).map v = leaves v 5 0 from rfl, reduxTree_leaves]
  simp [fNone]

/-! ## Numbers in their order (R205) -/

/-- A pattern's place in numeric order: sign and magnitude as an integer, −0 just below +0. -/
def patOrder (f : Fmt) (x : Nat) : Int :=
  if x / 2 ^ (f.ew + f.fw) % 2 = 1 then -1 - (x % 2 ^ (f.ew + f.fw) : Nat) else (x % 2 ^ (f.ew + f.fw) : Nat)

theorem toUnits_units (n : Bool) (m : Nat) {e p q : Int} (hq : q ≤ p) (hp : p ≤ e) :
    toUnits n m e p * 2 ^ (p - q).toNat = toUnits n m e q := by
  have h : ((m * 2 ^ (e - q).toNat : Nat) : Int) = (m * 2 ^ (e - p).toNat : Nat) * 2 ^ (p - q).toNat := by
    rw [two_pow_split hq hp, ← Nat.mul_assoc]; push_cast; rfl
  push_cast at h
  cases n <;> simp [toUnits, h]

/-- In units of the least subnormal a number is its place's magnitude, with its sign. -/
theorem toUnits_grid {f : Fmt} {x : Nat} {n : Bool} {m : Nat} {e : Int} (h : unpack f x = .fin n m e) :
    toUnits n m e f.qmin = if n then -(f.grid (x % 2 ^ (f.ew + f.fw)) : Int) else f.grid (x % 2 ^ (f.ew + f.fw)) := by
  obtain ⟨-, -, -, hg⟩ := unpack_fin h
  rw [← hg, toUnits]
  push_cast
  rfl

theorem toUnits_lt_iff {na nb : Bool} {ma mb : Nat} {ea eb p q : Int} (hq : q ≤ p) (ha : p ≤ ea) (hb : p ≤ eb) :
    (toUnits na ma ea p < toUnits nb mb eb p ↔ toUnits na ma ea q < toUnits nb mb eb q) ∧
    (toUnits na ma ea p = toUnits nb mb eb p ↔ toUnits na ma ea q = toUnits nb mb eb q) := by
  have pos : (0 : Int) < 2 ^ (p - q).toNat := by positivity
  rw [← toUnits_units na ma hq ha, ← toUnits_units nb mb hq hb]
  exact ⟨(Int.mul_lt_mul_right pos).symm, (Int.mul_eq_mul_right_iff pos.ne').symm⟩

theorem grid_eq_zero_iff {f : Fmt} {b : Nat} : f.grid b = 0 ↔ b = 0 := by
  have zero : f.grid 0 = 0 := by simp [Fmt.grid]
  exact (congrArg (f.grid b = ·) zero).symm.to_iff.trans (grid_strictMono f).injective.eq_iff

/-- The order of numbers is that of their patterns. -/
theorem ltV_eq {f : Fmt} {x y : Nat} (hx : (unpack f x).isNan = false) (hy : (unpack f y).isNan = false) :
    ltV true (unpack f x) (unpack f y) = decide (patOrder f x < patOrder f y) := by
  cases ux : unpack f x with
  | nan s => rw [ux] at hx; cases hx
  | inf na =>
    obtain ⟨rfl, hbx⟩ := unpack_inf ux
    cases uy : unpack f y with
    | nan s => rw [uy] at hy; cases hy
    | inf nb =>
      obtain ⟨rfl, hby⟩ := unpack_inf uy
      rw [Bool.eq_iff_iff, decide_eq_true_eq, patOrder, patOrder, hbx, hby]
      simp only [ltV, Bool.and_eq_true, beq_iff_eq, Bool.not_eq_true', beq_eq_false_iff_ne]
      split <;> split <;> omega
    | fin nb mb eb =>
      obtain ⟨rfl, -, hby, -⟩ := unpack_fin uy
      rw [Bool.eq_iff_iff, decide_eq_true_eq, patOrder, patOrder, hbx]
      simp only [ltV, beq_iff_eq]
      split <;> split <;> omega
  | fin na ma ea =>
    obtain ⟨hna, hea, hbx, hgx⟩ := unpack_fin ux
    cases uy : unpack f y with
    | nan s => rw [uy] at hy; cases hy
    | inf nb =>
      obtain ⟨rfl, hby⟩ := unpack_inf uy
      rw [Bool.eq_iff_iff, decide_eq_true_eq, patOrder, patOrder, hby]
      simp only [ltV, Bool.not_eq_true', beq_eq_false_iff_ne]
      split <;> split <;> omega
    | fin nb mb eb =>
      obtain ⟨hnb, heb, -, -⟩ := unpack_fin uy
      obtain ⟨hlt, heq⟩ := toUnits_lt_iff (na := na) (nb := nb) (ma := ma) (mb := mb) (le_min hea heb) (min_le_left ..) (min_le_right ..)
      have hm : ma = 0 ↔ x % 2 ^ (f.ew + f.fw) = 0 := by
        rw [← grid_eq_zero_iff (b := x % 2 ^ (f.ew + f.fw)), ← hgx, Nat.mul_eq_zero, or_iff_left (Nat.two_pow_pos _).ne']
      have less := (grid_strictMono f).lt_iff_lt (a := x % 2 ^ (f.ew + f.fw)) (b := y % 2 ^ (f.ew + f.fw))
      have more := (grid_strictMono f).lt_iff_lt (a := y % 2 ^ (f.ew + f.fw)) (b := x % 2 ^ (f.ew + f.fw))
      have zx := grid_eq_zero_iff (f := f) (b := x % 2 ^ (f.ew + f.fw))
      have zy := grid_eq_zero_iff (f := f) (b := y % 2 ^ (f.ew + f.fw))
      rw [toUnits_grid ux, toUnits_grid uy] at hlt heq
      rw [Bool.eq_iff_iff, decide_eq_true_eq, patOrder, patOrder]
      simp only [ltV, Bool.or_eq_true, Bool.and_eq_true, decide_eq_true_eq, Bool.not_eq_true', Bool.true_and, hlt, heq, hm]
      generalize f.grid (x % 2 ^ (f.ew + f.fw)) = gx at *
      generalize f.grid (y % 2 ^ (f.ew + f.fw)) = gy at *
      rw [hna, hnb]
      simp only [beq_iff_eq, beq_eq_false_iff_ne]
      split <;> split <;> omega

theorem patOrder_f32 (w : Word) : patOrder .f32 w.toNat = signOrder w := by
  have hw := w.isLt
  rw [patOrder, signOrder, show Fmt.f32.ew + Fmt.f32.fw = 31 from rfl]
  split <;> split <;> omega

/-! ## Least and greatest numbers (R205, R217) -/

theorem flushIn_keeps (f : Fmt) (x : Nat) : flushIn f false x = x := by simp [flushIn]

section
variable {f : Fmt} {wantMax : Bool} {a b : Nat}

theorem fminmax_flags : (fminmax f .rne wantMax a b).2 = fIf ((unpack f a).sig || (unpack f b).sig) fIo := by
  simp only [fminmax, Env.rne, flushIn_keeps]
  split <;> rfl

theorem fminmax_nan_nan (ha : (unpack f a).isNan = true) (hb : (unpack f b).isNan = true) : (fminmax f .rne wantMax a b).1 = f.nan := by
  simp [fminmax, Env.rne, flushIn_keeps, ha, hb]

theorem fminmax_nan_num (ha : (unpack f a).isNan = true) (hb : (unpack f b).isNan = false) : (fminmax f .rne wantMax a b).1 = b := by
  simp [fminmax, Env.rne, flushIn_keeps, ha, hb]

theorem fminmax_num_nan (ha : (unpack f a).isNan = false) (hb : (unpack f b).isNan = true) : (fminmax f .rne wantMax a b).1 = a := by
  simp [fminmax, Env.rne, flushIn_keeps, ha, hb]

/-- Of two numbers the outer one. -/
theorem fminmax_num_num (ha : (unpack f a).isNan = false) (hb : (unpack f b).isNan = false) : (fminmax f .rne wantMax a b).1 =
    if (if wantMax then patOrder f a < patOrder f b else patOrder f b < patOrder f a) then b else a := by
  simp only [fminmax, Env.rne, flushIn_keeps, ha, hb, ltV_eq, decide_eq_true_eq]
  cases wantMax <;> rfl

theorem fminmax_mem : (fminmax f .rne wantMax a b).1 = f.nan ∨ (fminmax f .rne wantMax a b).1 = a ∨ (fminmax f .rne wantMax a b).1 = b := by
  cases ha : (unpack f a).isNan
  · cases hb : (unpack f b).isNan
    · rw [fminmax_num_num ha hb]
      exact .inr (ite_eq_or_eq _ _ _).symm
    · exact .inr (.inl (fminmax_num_nan ha hb))
  · cases hb : (unpack f b).isNan
    · exact .inr (.inr (fminmax_nan_num ha hb))
    · exact .inl (fminmax_nan_nan ha hb)


end

/-- A word that is no NaN in FP32. -/
def isNum (w : Word) : Prop := (unpack .f32 w.toNat).isNan = false

/-- Whether one word lies at least as far out as another. -/
def outer (wantMax : Bool) (w y : Word) : Prop := if wantMax then signOrder y ≤ signOrder w else signOrder w ≤ signOrder y

theorem outer_refl (wantMax : Bool) (w : Word) : outer wantMax w w := by cases wantMax <;> exact Int.le_refl _
theorem outer_trans {wantMax : Bool} {w x y : Word} (h : outer wantMax w x) (h' : outer wantMax x y) : outer wantMax w y := by
  cases wantMax
  · exact Int.le_trans (b := signOrder x) h h'
  · exact Int.le_trans (b := signOrder x) h' h

/-- Of two numbers one is taken, and lies at least as far out as both. -/
theorem fminmax_outer {wantMax : Bool} {w y : Word} (hw : isNum w) (hy : isNum y) :
    ((fminmax .f32 .rne wantMax w.toNat y.toNat).1 = w.toNat ∧ outer wantMax w y) ∨
    ((fminmax .f32 .rne wantMax w.toNat y.toNat).1 = y.toNat ∧ outer wantMax y w) := by
  rw [fminmax_num_num hw hy, patOrder_f32, patOrder_f32]
  cases wantMax <;> simp only [outer, Bool.false_eq_true, if_true, if_false] <;> split <;> omega

/-- What a fold of fmin or fmax holds of the values it has seen: their flags, a NaN of no other, else the outermost number. -/
structure Outermost (wantMax : Bool) (seen : List Word) (acc : Nat × FFlags) : Prop where
  flags : acc.2 = fIf (seen.any fun w => (unpack .f32 w.toNat).sig) fIo
  sig   : (unpack .f32 acc.1).sig = true → (seen.any fun w => (unpack .f32 w.toNat).sig) = true
  nan   : (∀ w ∈ seen, ¬ isNum w) → (unpack .f32 acc.1).isNan = true
  num   : (∃ w ∈ seen, isNum w) → ∃ w ∈ seen, isNum w ∧ acc.1 = w.toNat ∧ ∀ y ∈ seen, isNum y → outer wantMax w y

theorem outermost_one (wantMax : Bool) (x : Word) : Outermost wantMax [x] (x.toNat, fIf (unpack .f32 x.toNat).sig fIo) where
  flags := by simp
  sig h := by simpa using h
  nan h := by simpa [isNum] using h
  num h := by
    obtain ⟨w, hw, hn⟩ := h
    obtain rfl := List.mem_singleton.mp hw
    exact ⟨w, hw, hn, rfl, fun y hy _ => List.mem_singleton.mp hy ▸ outer_refl wantMax w⟩

/-- One step of the fold. -/
theorem Outermost.step {wantMax : Bool} {seen : List Word} {acc : Nat × FFlags} (h : Outermost wantMax seen acc) (y : Word) :
    Outermost wantMax (seen ++ [y]) ((fminmax .f32 .rne wantMax acc.1 y.toNat).1, acc.2 ||| (fminmax .f32 .rne wantMax acc.1 y.toNat).2) where
  flags := by
    rw [h.flags, fminmax_flags, List.any_append, List.any_cons, List.any_nil, Bool.or_false]
    cases hs : (unpack .f32 acc.1).sig
    · cases seen.any fun w => (unpack .f32 w.toNat).sig <;> cases (unpack .f32 y.toNat).sig <;> rfl
    · rw [h.sig hs]
      cases (unpack .f32 y.toNat).sig <;> rfl
  sig hs := by
    rw [List.any_append, List.any_cons, List.any_nil, Bool.or_false, Bool.or_eq_true]
    rcases fminmax_mem (f := .f32) (wantMax := wantMax) (a := acc.1) (b := y.toNat) with e | e | e
    · rw [e] at hs
      cases hs
    · exact .inl (h.sig (e ▸ hs))
    · exact .inr (e ▸ hs)
  nan hn := by
    have hy : (unpack .f32 y.toNat).isNan = true := by simpa [isNum] using hn y (by simp)
    rw [fminmax_nan_nan (h.nan fun w hw => hn w (List.mem_append_left _ hw)) hy]
    rfl
  num hn := by
    by_cases hs : ∃ w ∈ seen, isNum w
    · obtain ⟨w, hw, hnum, he, hout⟩ := h.num hs
      simp only [he]
      by_cases hy : isNum y
      · rcases fminmax_outer (wantMax := wantMax) hnum hy with ⟨hr, ho⟩ | ⟨hr, ho⟩
        · refine ⟨w, List.mem_append_left _ hw, hnum, hr, fun z hz hzn => ?_⟩
          rcases List.mem_append.mp hz with hz | hz
          · exact hout z hz hzn
          · exact List.mem_singleton.mp hz ▸ ho
        · refine ⟨y, by simp, hy, hr, fun z hz hzn => ?_⟩
          rcases List.mem_append.mp hz with hz | hz
          · exact outer_trans ho (hout z hz hzn)
          · exact List.mem_singleton.mp hz ▸ outer_refl wantMax y
      · refine ⟨w, List.mem_append_left _ hw, hnum, fminmax_num_nan hnum (by simpa [isNum] using hy), fun z hz hzn => ?_⟩
        rcases List.mem_append.mp hz with hz | hz
        · exact hout z hz hzn
        · exact absurd (List.mem_singleton.mp hz ▸ hzn) hy
    · have none : ∀ w ∈ seen, ¬ isNum w := fun w hw hw' => hs ⟨w, hw, hw'⟩
      obtain ⟨w, hw, hnum⟩ := hn
      have hy : w = y := by
        rcases List.mem_append.mp hw with hw | hw
        · exact absurd hnum (none w hw)
        · exact List.mem_singleton.mp hw
      subst hy
      refine ⟨w, hw, hnum, fminmax_nan_num (h.nan none) hnum, fun z hz hzn => ?_⟩
      rcases List.mem_append.mp hz with hz | hz
      · exact absurd hzn (none z hz)
      · exact List.mem_singleton.mp hz ▸ outer_refl wantMax w

theorem outermost_foldl {wantMax : Bool} (r : List Word) {seen : List Word} {acc : Nat × FFlags} (h : Outermost wantMax seen acc) :
    Outermost wantMax (seen ++ r) (r.foldl (fun (acc : Nat × FFlags) y =>
      let q := fminmax .f32 .rne wantMax acc.1 y.toNat
      (q.1, acc.2 ||| q.2)) acc) := by
  induction r generalizing seen acc with
  | nil => rwa [List.append_nil]
  | cons y r ih => simpa using ih (h.step y)

/-- fmin and fmax over values: their flags; the canonical NaN of NaNs alone; else the outermost number. -/
theorem reduxMinMax_spec (wantMax : Bool) (vals : List Word) :
    (reduxVal.reduxMinMax wantMax vals).2 = fIf (vals.any fun w => (unpack .f32 w.toNat).sig) fIo ∧
    (vals ≠ [] → (∀ w ∈ vals, ¬ isNum w) → (reduxVal.reduxMinMax wantMax vals).1 = 0x7FC00000#32) ∧
    ((∃ w ∈ vals, isNum w) → ∃ w ∈ vals, isNum w ∧ (reduxVal.reduxMinMax wantMax vals).1 = w ∧ ∀ y ∈ vals, isNum y → outer wantMax w y) := by
  cases vals with
  | nil => exact ⟨rfl, fun h => absurd rfl h, fun ⟨w, hw, _⟩ => by cases hw⟩
  | cons x r =>
    have spec := outermost_foldl r (outermost_one wantMax x)
    rw [List.singleton_append] at spec
    rw [reduxVal.reduxMinMax]
    refine ⟨spec.flags, fun _ hn => ?_, fun hn => ?_⟩
    · simp only [spec.nan hn, if_true]
      rfl
    · obtain ⟨w, hw, hnum, he, hout⟩ := spec.num hn
      refine ⟨w, hw, hnum, ?_, hout⟩
      simp only [he, show (unpack .f32 w.toNat).isNan = false from hnum, Bool.false_eq_true, if_false, BitVec.ofNat_toNat, BitVec.setWidth_eq]

/-- Settles O20: integer combinations as folds, the tree of R47 level by level, fmin and fmax as a search for the outermost number. -/
theorem reductions : Obligations.Reductions := by
  unfold Obligations.Reductions
  refine ⟨redux_writes, fun xs => ⟨?_, ?_, ?_, ?_, ?_, fun i hi => ?_, fun i _ => ?_, fun i _ => ?_, ?_, ?_, ?_⟩⟩
  · simp [reduxVal, foldl_add, Function.comp_def]
  · obtain ⟨least, mem⟩ := foldl_choice BitVec.toInt minS_choice (xs.map (·.2)) 0x7FFFFFFF#32
    exact ⟨fun x hx => least _ (List.mem_cons_of_mem _ (List.mem_map_of_mem hx)), mem⟩
  · obtain ⟨most, mem⟩ := foldl_choice (fun w : Word => -w.toInt) maxS_choice (xs.map (·.2)) 0x80000000#32
    exact ⟨fun x hx => Int.neg_le_neg_iff.mp (most _ (List.mem_cons_of_mem _ (List.mem_map_of_mem hx))), mem⟩
  · obtain ⟨least, mem⟩ := foldl_choice (fun w : Word => (w.toNat : Int)) minZ_choice (xs.map (·.2)) 0xFFFFFFFF#32
    exact ⟨fun x hx => Int.ofNat_le.mp (least _ (List.mem_cons_of_mem _ (List.mem_map_of_mem hx))), mem⟩
  · obtain ⟨most, mem⟩ := foldl_choice (fun w : Word => -(w.toNat : Int)) maxZ_choice (xs.map (·.2)) 0#32
    exact ⟨fun x hx => Int.ofNat_le.mp (Int.neg_le_neg_iff.mp (most _ (List.mem_cons_of_mem _ (List.mem_map_of_mem hx)))), mem⟩
  · have ones : (0xFFFFFFFF#32).getLsbD i = true := by
      rw [show (0xFFFFFFFF#32) = BitVec.allOnes 32 from rfl, BitVec.getLsbD_allOnes, decide_eq_true hi]
    exact (getLsbD_foldl_and _ _ i).trans ((and_iff_right ones).trans List.forall_mem_map)
  · refine (getLsbD_foldl_or _ _ i).trans ((or_iff_right (by simp)).trans ⟨fun ⟨w, hw, h⟩ => ?_, fun ⟨x, hx, h⟩ => ⟨_, List.mem_map_of_mem hx, h⟩⟩)
    obtain ⟨x, hx, rfl⟩ := List.mem_map.mp hw
    exact ⟨x, hx, h⟩
  · simp [reduxVal, getLsbD_foldl_xor, List.countP_map, Function.comp_def]
  · rintro rfl
    exact ⟨rfl, rfl, rfl⟩
  · simp only [reduxVal, reduxTree_lanes]
  · intro wantMax r nan
    have hr : r = reduxVal.reduxMinMax wantMax (xs.map (·.2)) := by cases wantMax <;> rfl
    obtain ⟨flags, nans, num⟩ := reduxMinMax_spec wantMax (xs.map (·.2))
    refine ⟨?_, fun hne hn => ?_, fun ⟨x, hx, hn⟩ => ?_⟩
    · rw [hr, flags, List.any_map]
      rfl
    · rw [hr]
      exact nans (by simpa using hne) (List.forall_mem_map.mpr fun x hx => by simpa [isNum] using hn x hx)
    · obtain ⟨w, hw, hnum, he, hout⟩ := num ⟨x.2, List.mem_map_of_mem hx, hn⟩
      obtain ⟨y, hy, rfl⟩ := List.mem_map.mp hw
      exact ⟨y, hy, hnum, by rw [hr, he], fun z hz hzn => hout z.2 (List.mem_map_of_mem hz) hzn⟩

end Sys2Proof.Machine
end

section
/-! LEMMAS AND PROOFS. M8: its magnitudes, the conversions and the dot product (R37, R39, R40, R46, R210-R212). -/

namespace Sys2Proof.Machine

/-! ## The instructions -/

theorem pkM8_does (rn : Bool) {i : Instr} {d a b : VReg} {st : Stall} (he : ∀ s, exec i s = pkM8Op rn d a b st s) :
    VecDoes i { vsrc := [(a, 2), (b, 2)], vdst := some (d, 1) } .main (fun v L =>
      let q := fun (f j : Nat) => m8OfF32 rn (arg (v.args L) f j).toNat
      { words := [BitVec.ofNat 32 ((q 0 0).1 + (q 0 1).1 * 2 ^ 8 + (q 1 0).1 * 2 ^ 16 + (q 1 1).1 * 2 ^ 24)]
        flags := (q 0 0).2 ||| (q 0 1).2 ||| (q 1 0).2 ||| (q 1 1).2 }) :=
  vecDoes_of { uses := { vsrc := [(a, 2), (b, 2)], vdst := some (d, 1) }, lat := 4 } _ he rfl rfl
    (by intro v L fd n h _; simp only [Option.some.injEq, Prod.mk.injEq] at h; simp [← h.2]) (by simp)

theorem upM8_does (n : BitVec 2) (d a : VReg) (st : Stall) : VecDoes (.upM8 n d a st) (use1 d a) .main
    (fun v L => outF (m8ToF32 ((arg (v.args L) 0).toNat / 2 ^ (8 * n.toNat) % 256))) := by
  refine vecDoes_of { uses := use1 d a, lat := 4 } (fun v L => outF (m8ToF32 (byteAt (arg (v.args L) 0) n.toNat))) (fun _ => rfl) rfl ?_
    (by intro v L fd k h _; simp only [use1, Option.some.injEq, Prod.mk.injEq] at h; simp [← h.2]) (by simp)
  funext v L
  rw [byteAt, Nat.pow_mul]

theorem vdotM8_does (d a b : VReg) (st : Stall) : VecDoes (.vdotM8 d a b st) (useRD d a b) .main (fun v L =>
    { words := [(vdotM8 (arg (v.args L) 0) (arg (v.args L) 1) (arg (v.args L) 2)).1]
      flags := (vdotM8 (arg (v.args L) 0) (arg (v.args L) 1) (arg (v.args L) 2)).2 }) :=
  vecDoes_of { uses := useRD d a b, lat := 4 }
    (fun v L =>
      let r := vdotM8 (arg (v.args L) 0) (arg (v.args L) 1) (arg (v.args L) 2)
      { words := [r.1], flags := r.2 }) (fun _ => rfl) rfl rfl
    (by intro v L fd n h _; simp only [useRD, Option.some.injEq, Prod.mk.injEq] at h; simp [← h.2]) (by simp)

/-! ## Magnitudes (R37) -/

theorem m8Mag_table : ∀ c, c < 128 → m8Mag c = if c = 0 then 0
    else if 64 ≤ c then (64 + (c - 64)) * 2 ^ 15
    else if 32 ≤ c then (16 + (c - 32) % 16) * 2 ^ (16 - (c - 32) / 16)
    else if 16 ≤ c then (4 + (c - 16) % 4) * 2 ^ (16 - (c - 16) / 4)
    else if 8 ≤ c then 2 ^ (14 - (c - 8)) else if 4 ≤ c then 2 ^ (6 - (c - 4)) else if 2 ≤ c then 2 ^ (2 - (c - 2)) else 1 := by
  decide

theorem m8Mag_le_max : ∀ c, c < 128 → m8Mag c ≤ m8Mag 127 := by decide

/-- The code of a magnitude of the table, by its highest bit. -/
def m8CodeOf (g : Nat) : Nat :=
  let l := Nat.log2 g
  if g = 0 then 0 else if 21 ≤ l then g / 2 ^ 15 else if 19 ≤ l then 32 + 16 * (20 - l) + (g / 2 ^ (l - 4) - 16)
  else if 15 ≤ l then 16 + 4 * (18 - l) + (g / 2 ^ (l - 2) - 4) else if 7 ≤ l then 22 - l else if 3 ≤ l then 10 - l
  else if 1 ≤ l then 4 - l else 1

theorem m8CodeOf_m8Mag : ∀ c, c < 128 → m8CodeOf (m8Mag c) = c := by decide

/-- No two codes have one magnitude. -/
theorem m8Mag_injective {c c' : Nat} (h : c < 128) (h' : c' < 128) (e : m8Mag c = m8Mag c') : c = c' := by
  rw [← m8CodeOf_m8Mag c h, e, m8CodeOf_m8Mag c' h']

theorem m8Val_eq {b : Nat} (h : b < 256) : m8Val b = if b = 0x80 then none else some (decide (128 ≤ b), m8Mag (b % 128)) := by
  have hneg : (b / 128 % 2 == 1) = decide (128 ≤ b) := by rw [Bool.eq_iff_iff, beq_iff_eq, decide_eq_true_eq]; omega
  simp only [m8Val, hneg]
  by_cases hc : b % 128 = 0
  · rcases (show b = 0 ∨ b = 128 by omega) with rfl | rfl <;> rfl
  · rw [if_neg hc, if_neg (by omega)]

/-! ## The nearest codes (R39) -/

/-- A search of a list for the best of what satisfies a property. -/
theorem foldl_search {P : Nat → Bool} {better : Nat → Nat → Bool} (key : Nat → Int) (hb : ∀ x y, better x y = true ↔ key x < key y)
    (l : List Nat) {a : Nat} (ha : P a = true) :
    let r := l.foldl (fun best c => if P c && better best c then c else best) a
    P r = true ∧ r ∈ a :: l ∧ ∀ c ∈ a :: l, P c = true → key c ≤ key r := by
  induction l generalizing a with
  | nil => simp [ha]
  | cons c l ih =>
    rw [List.foldl_cons]
    by_cases hc : (P c && better a c) = true
    · obtain ⟨hP, hab⟩ := Bool.and_eq_true_iff.mp hc
      obtain ⟨hr, mem, best⟩ := ih hP
      rw [if_pos hc]
      refine ⟨hr, List.mem_cons_of_mem _ mem, fun x hx hPx => ?_⟩
      rcases List.mem_cons.mp hx with rfl | hx
      · exact ((hb _ _).mp hab).le.trans (best c List.mem_cons_self hP)
      · exact best x hx hPx
    · obtain ⟨hr, mem, best⟩ := ih ha
      rw [if_neg hc]
      refine ⟨hr, List.mem_cons.mpr ((List.mem_cons.mp mem).imp_right (List.mem_cons_of_mem c)), fun x hx hPx => ?_⟩
      rcases List.mem_cons.mp hx with rfl | hx
      · exact best _ List.mem_cons_self hPx
      · rcases List.mem_cons.mp hx with rfl | hx
        · have : ¬ key a < key x := fun hlt => hc (Bool.and_eq_true_iff.mpr ⟨hPx, (hb _ _).mpr hlt⟩)
          exact (Int.not_lt.mp this).trans (best a List.mem_cons_self ha)
        · exact best x (List.mem_cons_of_mem _ hx) hPx

theorem m8Floor_spec {le : Nat → Bool} (h0 : le 0 = true) : m8Floor le < 128 ∧ le (m8Mag (m8Floor le)) = true ∧
    ∀ c, c < 128 → le (m8Mag c) = true → m8Mag c ≤ m8Mag (m8Floor le) := by
  obtain ⟨hr, mem, best⟩ := foldl_search (P := fun c => le (m8Mag c)) (better := fun b c => decide (m8Mag b < m8Mag c)) (fun c => m8Mag c)
    (fun x y => by simp) (List.range 128) (a := 0) h0
  refine ⟨?_, hr, fun c hc hle => Int.ofNat_le.mp (best c (List.mem_cons_of_mem _ (List.mem_range.mpr hc)) hle)⟩
  rcases List.mem_cons.mp mem with e | e
  · exact lt_of_eq_of_lt e (by decide)
  · exact List.mem_range.mp e

theorem m8Next_spec {mag : Nat} (h : mag < m8Mag 127) : m8Next mag < 128 ∧ mag < m8Mag (m8Next mag) ∧
    ∀ c, c < 128 → mag < m8Mag c → m8Mag (m8Next mag) ≤ m8Mag c := by
  obtain ⟨hr, mem, best⟩ := foldl_search (P := fun c => decide (mag < m8Mag c)) (better := fun b c => decide (m8Mag c < m8Mag b))
    (fun c => -(m8Mag c : Int)) (fun x y => by simp) (List.range 128) (a := 127) (decide_eq_true h)
  refine ⟨?_, of_decide_eq_true hr, fun c hc hlt => ?_⟩
  · rcases List.mem_cons.mp mem with e | e
    · exact lt_of_eq_of_lt e (by decide)
    · exact List.mem_range.mp e
  · exact Int.ofNat_le.mp (Int.neg_le_neg_iff.mp (best c (List.mem_cons_of_mem _ (List.mem_range.mpr hc)) (decide_eq_true hlt)))

/-- What a code is chosen for a magnitude x, the magnitudes in a common unit: exact or not, the one below, or a nearest one, an even one of
two of different parity. -/
structure Coded (rn : Bool) (scale : Nat → Nat) (x : Nat) (r : Nat × Bool) : Prop where
  code  : r.1 < 128
  exact : r.2 = true ↔ scale r.1 ≠ x
  below : rn = false → scale r.1 ≤ x ∧ ∀ c, c < 128 → scale c ≤ x → scale c ≤ scale r.1
  near  : rn = true → ∀ c, c < 128 → ((x : Int) - scale r.1).natAbs ≤ ((x : Int) - scale c).natAbs ∧
    (((x : Int) - scale r.1).natAbs = ((x : Int) - scale c).natAbs → r.1 % 2 = 1 → c % 2 = 1)

/-- Magnitudes in a common unit. -/
def m8Scale (unit c : Nat) : Nat := m8Mag c * unit

theorem m8Scale_injective {unit : Nat} (pos : 0 < unit) {c c' : Nat} (h : c < 128) (h' : c' < 128) (e : m8Scale unit c = m8Scale unit c') : c = c' :=
  m8Mag_injective h h' (Nat.eq_of_mul_eq_mul_right pos e)

theorem m8Scale_le {unit : Nat} {c c' : Nat} (h : m8Mag c ≤ m8Mag c') : m8Scale unit c ≤ m8Scale unit c' := Nat.mul_le_mul_right _ h

/-- The choice between the codes on either side of a magnitude. -/
theorem coded_between {scale : Nat → Nat} {lo hi x : Nat} (inj : ∀ c c', c < 128 → c' < 128 → scale c = scale c' → c = c')
    (hlo : lo < 128) (hhi : hi < 128) (below : scale lo < x) (above : x < scale hi)
    (sides : ∀ c, c < 128 → scale c ≤ scale lo ∨ scale hi ≤ scale c) (up : Bool) {r : Nat × Bool}
    (hr : r = if x - scale lo < scale hi - x then (lo, true) else if scale hi - x < x - scale lo then (hi, true)
      else if lo % 2 == 0 && hi % 2 == 1 then (lo, true) else if lo % 2 == 1 && hi % 2 == 0 then (hi, true)
      else (if up then hi else lo, true)) : Coded true scale x r := by
  have far : ∀ c, c < 128 → (c = lo ∨ scale c < scale lo) ∨ c = hi ∨ scale hi < scale c := fun c hc => by
    rcases sides c hc with h | h
    · exact .inl ((Nat.eq_or_lt_of_le h).imp_left (inj c lo hc hlo))
    · exact .inr ((Nat.eq_or_lt_of_le h).imp_left fun e => (inj hi c hhi hc e).symm)
  have taken : r = (lo, true) ∧ x - scale lo ≤ scale hi - x ∧ (x - scale lo = scale hi - x → lo % 2 = 1 → hi % 2 = 1) ∨
      r = (hi, true) ∧ scale hi - x ≤ x - scale lo ∧ (x - scale lo = scale hi - x → hi % 2 = 1 → lo % 2 = 1) := by
    subst hr
    simp only [Bool.and_eq_true, beq_iff_eq]
    split
    · exact .inl ⟨rfl, by omega, by omega⟩
    · split
      · exact .inr ⟨rfl, by omega, by omega⟩
      · split
        · exact .inl ⟨rfl, by omega, by omega⟩
        · split
          · exact .inr ⟨rfl, by omega, by omega⟩
          · cases up
            · exact .inl ⟨rfl, by omega, by omega⟩
            · exact .inr ⟨rfl, by omega, by omega⟩
  rcases taken with ⟨rfl, near, parity⟩ | ⟨rfl, near, parity⟩
  · refine ⟨hlo, by simp [below.ne], fun h => (by cases h), fun _ c hc => ?_⟩
    dsimp only
    rcases far c hc with (rfl | h) | rfl | h <;> omega
  · refine ⟨hhi, by simp [above.ne'], fun h => (by cases h), fun _ c hc => ?_⟩
    dsimp only
    rcases far c hc with (rfl | h) | rfl | h <;> omega

theorem m8Code_coded (rn : Bool) (m : Nat) (e : Int) (hmax : m * 2 ^ (e - min e (-21)).toNat ≤ m8Scale (2 ^ (-21 - min e (-21)).toNat) 127) :
    Coded rn (m8Scale (2 ^ (-21 - min e (-21)).toNat)) (m * 2 ^ (e - min e (-21)).toNat) (m8Code rn m e) := by
  have pos : 0 < 2 ^ (-21 - min e (-21)).toNat := Nat.two_pow_pos _
  rw [m8Code]
  generalize m * 2 ^ (e - min e (-21)).toNat = x at *
  generalize 2 ^ (-21 - min e (-21)).toNat = unit at *
  have inj : ∀ c c', c < 128 → c' < 128 → m8Scale unit c = m8Scale unit c' → c = c' := fun c c' => m8Scale_injective pos
  obtain ⟨hlo, hle, floor⟩ := m8Floor_spec (le := fun g => decide (g * unit ≤ x)) (by simp)
  generalize m8Floor (fun g => decide (g * unit ≤ x)) = lo at *
  have hle : m8Scale unit lo ≤ x := of_decide_eq_true hle
  have floor : ∀ c, c < 128 → m8Scale unit c ≤ x → m8Mag c ≤ m8Mag lo := fun c hc h => floor c hc (decide_eq_true h)
  simp only [show m8Mag lo * unit = m8Scale unit lo from rfl]
  by_cases hx : m8Scale unit lo = x
  · rw [if_pos hx]
    subst hx
    refine ⟨hlo, by simp, fun _ => ⟨le_rfl, fun c _ h => h⟩, fun _ c hc => ⟨by simp, fun h odd => ?_⟩⟩
    have : m8Scale unit c = m8Scale unit lo := by simp only [Int.sub_self, Int.natAbs_zero] at h; omega
    rw [inj c lo hc hlo this]
    exact odd
  · rw [if_neg hx]
    have below : m8Scale unit lo < x := lt_of_le_of_ne hle hx
    cases rn with
    | false => exact ⟨hlo, by simp [hx], fun _ => ⟨hle, fun c hc h => m8Scale_le (floor c hc h)⟩, fun h => (by cases h)⟩
    | true =>
      obtain ⟨hhi, hnext, least⟩ := m8Next_spec (Nat.lt_of_mul_lt_mul_right (below.trans_le hmax))
      have above : x < m8Scale unit (m8Next (m8Mag lo)) := Nat.lt_of_not_le fun h => absurd (floor _ hhi h) (Nat.not_le.mpr hnext)
      refine coded_between inj hlo hhi below above (fun c hc => ?_) _ rfl
      rcases Nat.lt_or_ge (m8Mag lo) (m8Mag c) with h | h
      · exact .inr (m8Scale_le (least c hc h))
      · exact .inl (m8Scale_le h)

/-- FP32 to M8 (R39). -/
theorem m8OfF32_spec (rn : Bool) {x : Nat} {n : Bool} {m : Nat} {e : Int} (h : unpack .f32 x = .fin n m e) :
    let exact := m * 2 ^ (e - min e (-21)).toNat
    let mag := fun c => m8Mag c * 2 ^ (-21 - min e (-21)).toNat
    (m = 0 → m8OfF32 rn x = (0, fNone)) ∧
    (mag 127 < exact → m8OfF32 rn x = (if n then 0xFF else 0x7F, fOf ||| fNx)) ∧
    (0 < m → exact ≤ mag 127 → ∃ c, c < 128 ∧ (m8OfF32 rn x).1 = (if c = 0 then 0 else if n then 128 + c else c) ∧
      (m8OfF32 rn x).2 = (if exact < mag 1 then fUf ||| fNx else if mag c = exact then fNone else fNx) ∧
      (rn = false → mag c ≤ exact ∧ ∀ c', c' < 128 → mag c' ≤ exact → mag c' ≤ mag c) ∧
      (rn = true → ∀ c', c' < 128 → ((exact : Int) - mag c).natAbs ≤ ((exact : Int) - mag c').natAbs ∧
        (((exact : Int) - mag c).natAbs = ((exact : Int) - mag c').natAbs → c % 2 = 1 → c' % 2 = 1))) := by
  intro exact mag
  have hun : m8OfF32 rn x = if m = 0 then (0, fNone) else if mag 127 < exact then (if n then 0xFF else 0x7F, fOf ||| fNx)
      else (if (m8Code rn m e).1 = 0 then 0 else if n then 128 + (m8Code rn m e).1 else (m8Code rn m e).1,
        fIf ((m8Code rn m e).2 || decide (exact < 2 ^ (-21 - min e (-21)).toNat)) fNx |||
          fIf (decide (exact < 2 ^ (-21 - min e (-21)).toNat)) fUf) := by
    rw [m8OfF32, h]
  have one : mag 1 = 2 ^ (-21 - min e (-21)).toNat := Nat.one_mul _
  refine ⟨fun hm => by rw [hun, if_pos hm], fun hmax => ?_, fun hm hmax => ?_⟩
  · have : m ≠ 0 := fun hm => by simp [exact, hm] at hmax
    rw [hun, if_neg this, if_pos hmax]
  · obtain ⟨code, inexact, below, near⟩ := m8Code_coded rn m e hmax
    rw [if_neg hm.ne', if_neg (Nat.not_lt.mpr hmax), ← one] at hun
    refine ⟨(m8Code rn m e).1, code, by rw [hun], ?_, below, near⟩
    rw [hun]
    by_cases small : exact < mag 1
    · simp only [small, decide_true, Bool.or_true, if_true]
      rfl
    · by_cases hx : mag (m8Code rn m e).1 = exact
      · have : (m8Code rn m e).2 = false := Bool.eq_false_iff.mpr fun hi => inexact.mp hi hx
        simp only [small, hx, this, decide_false, Bool.or_false, if_true, if_false]
        rfl
      · simp only [small, hx, inexact.mpr hx, decide_false, Bool.or_false, if_false]
        rfl

theorem m8OfF32_nan (rn : Bool) {x : Nat} (h : (unpack .f32 x).isNan = true ∨ ∃ n, unpack .f32 x = .inf n) : m8OfF32 rn x = (0x80, fIo) := by
  rw [m8OfF32]
  cases hu : unpack .f32 x with
  | nan s => rfl
  | inf n => rfl
  | fin n m e => rw [hu] at h; rcases h with h | ⟨n, h⟩ <;> cases h

/-! ## M8 to FP32 (R40) -/

/-- To nearest, a sign changes nothing but the sign. -/
theorem fromExact_neg (f : Fmt) (neg : Bool) (m : Nat) (e : Int) : fromExact f .rn false neg m e =
    (f.sign neg + (fromExact f .rn false false m e).1, (fromExact f .rn false false m e).2) := by
  have hsign : f.sign false = 0 := rfl
  have hround : ∀ q, roundAt .rn neg m e false q = roundAt .rn false m e false q := fun q => rfl
  simp only [fromExact, deliver, roundTo, hround, overflowBits, hsign]
  split
  · rfl
  · split <;> simp

theorem m8ToF32_positive : ∀ c, c < 128 → (m8ToF32 c).2 = fNone ∧ (m8ToF32 c).1 < 2 ^ 31 ∧
    Fmt.f32.units (m8ToF32 c).1 = m8Mag c * 2 ^ 128 := by
  decide

theorem m8ToF32_of_ne {b : Nat} (h : b < 256) (hb : b ≠ 0x80) :
    m8ToF32 b = (Fmt.f32.sign (decide (128 ≤ b)) + (m8ToF32 (b % 128)).1, (m8ToF32 (b % 128)).2) := by
  have hmod : b % 128 < 128 := Nat.mod_lt _ (by decide)
  have small : m8ToF32 (b % 128) = fromExact .f32 .rn false false (m8Mag (b % 128)) (-21) := by
    rw [m8ToF32, m8Val_eq (by omega), if_neg (by omega), Nat.mod_mod, decide_eq_false (by omega)]
  rw [small, ← fromExact_neg, m8ToF32, m8Val_eq h, if_neg hb]

theorem m8ToF32_spec (b : Nat) (h : b < 256) : (b = 0x80 → m8ToF32 b = (0x7FC00000, fIo)) ∧
    (b ≠ 0x80 → (m8ToF32 b).2 = fNone ∧ (m8ToF32 b).1 / 2 ^ 31 = b / 128 ∧
      Fmt.f32.units ((m8ToF32 b).1 % 2 ^ 31) = m8Mag (b % 128) * 2 ^ 128) := by
  refine ⟨fun hb => by subst hb; rfl, fun hb => ?_⟩
  obtain ⟨flags, small, units⟩ := m8ToF32_positive (b % 128) (Nat.mod_lt _ (by decide))
  have hsign : Fmt.f32.sign (decide (128 ≤ b)) = b / 128 * 2 ^ 31 := by
    rcases Nat.lt_or_ge b 128 with hlt | hge
    · rw [decide_eq_false (Nat.not_le.mpr hlt), Nat.div_eq_of_lt hlt]; rfl
    · rw [decide_eq_true hge, show b / 128 = 1 by omega]; rfl
  rw [m8ToF32_of_ne h hb, hsign]
  refine ⟨flags, ?_, ?_⟩
  · simp only
    omega
  · rw [Nat.mul_add_mod_self_right, Nat.mod_eq_of_lt small, units]

/-! ## The dot product (R46) -/

theorem byteAt_lt (w : Word) (n : Nat) : byteAt w n < 256 := Nat.mod_lt _ (by decide)

/-- The signs of products of bytes, and their magnitudes. -/
def m8Neg (p : Nat × Nat) : Bool := decide (128 ≤ p.1) != decide (128 ≤ p.2)
def m8Prod (p : Nat × Nat) : Nat := m8Mag (p.1 % 128) * m8Mag (p.2 % 128)

theorem m8Products_none {l : List (Nat × Nat)} (hl : ∀ p ∈ l, p.1 < 256 ∧ p.2 < 256) (h : ∃ p ∈ l, p.1 = 0x80 ∨ p.2 = 0x80) :
    m8Products l = none := by
  induction l with
  | nil => obtain ⟨p, hp, _⟩ := h; cases hp
  | cons p l ih =>
    obtain ⟨a, b⟩ := p
    obtain ⟨⟨ha, hb⟩, hl⟩ := List.forall_mem_cons.mp hl
    rw [m8Products, m8Val_eq ha, m8Val_eq hb]
    by_cases h0 : a = 0x80 ∨ b = 0x80
    · rcases h0 with rfl | rfl
      · rfl
      · by_cases ha' : a = 0x80
        · rw [if_pos ha']
        · rw [if_neg ha']; rfl
    · have later : ∃ p ∈ l, p.1 = 0x80 ∨ p.2 = 0x80 := by
        obtain ⟨p, hp, hnar⟩ := h
        rcases List.mem_cons.mp hp with rfl | hm
        · exact absurd hnar h0
        · exact ⟨p, hm, hnar⟩
      rw [ih hl later, if_neg (not_or.mp h0).1, if_neg (not_or.mp h0).2]

theorem m8Products_some {l : List (Nat × Nat)} (hl : ∀ p ∈ l, p.1 < 256 ∧ p.2 < 256) (h : ∀ p ∈ l, p.1 ≠ 0x80 ∧ p.2 ≠ 0x80) :
    m8Products l = some (l.map fun p => (m8Neg p, m8Prod p)) := by
  induction l with
  | nil => rfl
  | cons p l ih =>
    obtain ⟨a, b⟩ := p
    obtain ⟨⟨ha, hb⟩, hl⟩ := List.forall_mem_cons.mp hl
    obtain ⟨⟨na, nb⟩, h⟩ := List.forall_mem_cons.mp h
    rw [m8Products, m8Val_eq ha, m8Val_eq hb, if_neg na, if_neg nb, ih hl h]
    rfl

theorem toUnits_sgn (n : Bool) (m : Nat) (e q : Int) : toUnits n m e q = sgnInt n m * 2 ^ (e - q).toNat := by
  cases n <;> simp [toUnits, sgnInt]

theorem sum_toUnits (l : List (Nat × Nat)) (e q : Int) : (l.map fun p => toUnits (m8Neg p) (m8Prod p) e q).sum =
    (l.map fun p => sgnInt (m8Neg p) (m8Prod p)).sum * 2 ^ (e - q).toNat := by
  simp only [toUnits_sgn, List.sum_map_mul_right]

theorem foldl_sgnInt (l : List (Bool × Nat)) (a : Int) : l.foldl (fun s t => s + sgnInt t.1 t.2) a = a + (l.map fun t => sgnInt t.1 t.2).sum := by
  induction l generalizing a with
  | nil => simp
  | cons t l ih => rw [List.foldl_cons, ih, List.map_cons, List.sum_cons, Int.add_assoc]

theorem toUnits_natAbs (k e q : Int) : toUnits (decide (k < 0)) k.natAbs e q = k * 2 ^ (e - q).toNat := by
  rw [toUnits_sgn, sgnInt]
  congr 1
  split
  · next h => rw [decide_eq_true_eq] at h; omega
  · next h => rw [decide_eq_true_eq] at h; omega

/-- A signed sum is delivered alike in any unit, a zero with the sign given. -/
theorem fromExact_signed (f : Fmt) (rm : Rm) (fz zero : Bool) {t p q : Int} (hq : q ≤ p) :
    fromExact f rm fz (if t = 0 then zero else decide (t < 0)) t.natAbs p =
      if t * 2 ^ (p - q).toNat = 0 then (f.sign zero, fNone)
      else fromExact f rm fz (decide (t * 2 ^ (p - q).toNat < 0)) (t * 2 ^ (p - q).toNat).natAbs q := by
  have pos : (0 : Int) < 2 ^ (p - q).toNat := by positivity
  have hneg : t * 2 ^ (p - q).toNat < 0 ↔ t < 0 := by simpa using Int.mul_lt_mul_right (b := t) (c := 0) pos
  have hzero : t * 2 ^ (p - q).toNat = 0 ↔ t = 0 := by rw [Int.mul_eq_zero, or_iff_left pos.ne']
  simp only [hzero, hneg]
  split
  · next h => rw [h]; rfl
  · refine fromExact_congr f rm fz _ hq le_rfl ?_
    rw [Int.natAbs_mul, Int.sub_self]
    simp [Int.natAbs_pow]

/-- What a sum of products is added to. -/
theorem accumulate_fin {zeroNeg : Bool} {k : Int} {a : Nat} {n : Bool} {m : Nat} {e p q : Int} (ha : unpack .f32 a = .fin n m e)
    (hq : q ≤ p) (hqe : q ≤ e) : accumulate zeroNeg k p (some a) =
      let sum := k * 2 ^ (p - q).toNat + toUnits n m e q
      if sum = 0 then (Fmt.f32.sign (zeroNeg && n && m == 0), fNone) else fromExact .f32 .rn false (decide (sum < 0)) sum.natAbs q := by
  have hmin : q ≤ min p e := le_min hq hqe
  rw [accumulate, ha]
  simp only
  rw [fromExact_signed _ _ _ _ hmin, toUnits_natAbs, Int.add_mul, toUnits_units n m hmin (min_le_right ..), Int.mul_assoc]
  have : (2 : Int) ^ (p - min p e).toNat * 2 ^ (min p e - q).toNat = 2 ^ (p - q).toNat := by
    rw [← Int.pow_add]
    congr 1
    omega
  rw [this]

theorem allNegZero_products (l : List (Nat × Nat)) :
    allNegZero (l.map fun p => (m8Neg p, m8Prod p)) = l.all fun p => m8Neg p && m8Prod p == 0 := by
  rw [allNegZero, List.all_map]
  rfl

/-- The pairs of bytes that vdot.m8 multiplies. -/
def bytePairs (a b : Word) : List (Nat × Nat) := (List.range 4).map fun i => (byteAt a i, byteAt b i)

theorem bytePairs_lt (a b : Word) : ∀ p ∈ bytePairs a b, p.1 < 256 ∧ p.2 < 256 :=
  List.forall_mem_map.mpr fun _ _ => ⟨byteAt_lt .., byteAt_lt ..⟩

theorem vdotM8_nar {a b : Word} (d : Word) (h : ∃ i, i < 4 ∧ (byteAt a i = 0x80 ∨ byteAt b i = 0x80)) : vdotM8 a b d = (0x7FC00000#32, fIo) := by
  obtain ⟨i, hi, h⟩ := h
  have := m8Products_none (bytePairs_lt a b) ⟨_, List.mem_map_of_mem (List.mem_range.mpr hi), h⟩
  rw [vdotM8, show (List.range 4).map (fun i => (byteAt a i, byteAt b i)) = bytePairs a b from rfl, this]
  rfl

section
variable {a b : Word} (h : ∀ i, i < 4 → byteAt a i ≠ 0x80 ∧ byteAt b i ≠ 0x80)
include h

theorem vdotM8_sum (d : Word) : vdotM8 a b d =
    let r := accumulate ((bytePairs a b).all fun p => m8Neg p && m8Prod p == 0) ((bytePairs a b).map fun p => sgnInt (m8Neg p) (m8Prod p)).sum (-42)
      (some d.toNat)
    (BitVec.ofNat 32 r.1, r.2 ||| fIf (unpack .f32 d.toNat).sig fIo) := by
  have := m8Products_some (bytePairs_lt a b) (List.forall_mem_map.mpr fun i hi => h i (List.mem_range.mp hi))
  rw [vdotM8, show (List.range 4).map (fun i => (byteAt a i, byteAt b i)) = bytePairs a b from rfl, this]
  simp only [allNegZero_products, foldl_sgnInt, List.map_map, Int.zero_add, Function.comp_def]

theorem vdotM8_nan {d : Word} (hd : (unpack .f32 d.toNat).isNan = true) : vdotM8 a b d = (0x7FC00000#32, fIf (unpack .f32 d.toNat).sig fIo) := by
  rw [vdotM8_sum h]
  cases hu : unpack .f32 d.toNat with
  | nan s => simp only [accumulate, hu]; cases s <;> rfl
  | inf n => rw [hu] at hd; cases hd
  | fin n m e => rw [hu] at hd; cases hd

theorem vdotM8_inf {d : Word} {n : Bool} (hd : unpack .f32 d.toNat = .inf n) : vdotM8 a b d = (d, fNone) := by
  rw [vdotM8_sum h]
  obtain ⟨hn, hb⟩ := unpack_inf hd
  have hlt := d.isLt
  have hd' : Fmt.f32.sign n + Fmt.f32.inf = d.toNat := by
    rw [hn, ← hb, Fmt.sign, show Fmt.f32.ew + Fmt.f32.fw = 31 from rfl]
    simp only [beq_iff_eq]
    split <;> omega
  simp only [accumulate, hd, hd', FVal.sig, BitVec.ofNat_toNat, BitVec.setWidth_eq]
  rfl

theorem vdotM8_fin {d : Word} {n : Bool} {m : Nat} {e q : Int} (hd : unpack .f32 d.toNat = .fin n m e) (hq : q ≤ -42) (hqe : q ≤ e) :
    let neg := fun i => decide (128 ≤ byteAt a i) != decide (128 ≤ byteAt b i)
    let mag := fun i => m8Mag (byteAt a i % 128) * m8Mag (byteAt b i % 128)
    let sum := ((List.range 4).map fun i => toUnits (neg i) (mag i) (-42) q).sum + toUnits n m e q
    let r := if sum = 0 then (Fmt.f32.sign (n && m == 0 && (List.range 4).all fun i => neg i && mag i == 0), fNone)
      else fromExact .f32 .rn false (decide (sum < 0)) sum.natAbs q
    vdotM8 a b d = (BitVec.ofNat 32 r.1, r.2) := by
  intro neg mag sum r
  have hsum : ((bytePairs a b).map fun p => sgnInt (m8Neg p) (m8Prod p)).sum * 2 ^ (-42 - q).toNat + toUnits n m e q = sum := by
    rw [← sum_toUnits]
    rfl
  have hzero : ((bytePairs a b).all fun p => m8Neg p && m8Prod p == 0) = (List.range 4).all fun i => neg i && mag i == 0 := rfl
  rw [vdotM8_sum h, accumulate_fin hd hq hqe, hd]
  simp only [hsum, hzero]
  rw [Bool.and_assoc, Bool.and_comm]
  simp [FVal.sig, fIf, fNone, r]

end

/-- Settles O17: the instructions, the table of R37, the nearest codes, and the sum of vdot.m8 in any unit. -/
theorem m8Results : Obligations.M8Results := by
  unfold Obligations.M8Results
  refine ⟨fun d a b st => ⟨fun rn => ?_, fun n => upM8_does n d a st, vdotM8_does d a b st⟩, m8Mag_table, fun b => m8Val_eq,
    fun rn x => ⟨m8OfF32_nan rn, fun n m e => m8OfF32_spec rn⟩, m8ToF32_spec,
    fun a b d => ⟨vdotM8_nar d, fun h => ⟨vdotM8_nan h, fun n => vdotM8_inf h, fun n m e hd q => vdotM8_fin h hd⟩⟩⟩
  cases rn
  · exact pkM8_does false fun _ => rfl
  · exact pkM8_does true fun _ => rfl

end Sys2Proof.Machine
end

section
/-! LEMMAS AND PROOFS. A transfer record that a channel reads while it keeps the poison of an earlier one (R302). -/

namespace Sys2Proof.Machine

/-- A record of the chain at 0x200000 that the channel owns: 64 bytes at 0x210000 to block memory 0, followed by the record at 0x200040. -/
def ownedRecord : List Byte :=
  leBytes 8 0x200040 ++ leBytes 8 0x210000 ++ leBytes 4 0 ++ leBytes 4 64 ++ leBytes 1 0 ++ leBytes 1 1 ++ leBytes 2 0xFFFF

/-- A channel that has read nothing of the record at 0x200000, but whose poison bit is set. -/
def staleChan : Chan := { busy := true, recVa := 0x200000, blk := 1, uid := 9, bad := true }

/-- The machine with that channel and that record in local memory. -/
def staleState : State :=
  let s := State.reset.probe (List.replicate 4 0#8)
  ({ s with agenda := [] }.writeLocal (s.keyOf 1) 0x200000 ownedRecord).setChan 0 0 staleChan

/-- Two sectors of a record come from memory whole, without poison, and ask for a transfer that passes its checks. -/
def goodRecord (s : State) (x : Chan) (a b : EngData) : Bool :=
  let bytes := a.bytes ++ b.bytes
  let x' := { x with
    maxStamp := max (max (max x.maxStamp a.stamp) b.stamp) (max (s.blk x.blk).floor (s.team (s.blk x.blk).team).floor)
    rcd := [], bad := false, bad0 := false }
  a.ask.isNone && b.ask.isNone && a.bytes.length == 32 && b.bytes.length == 32 && !a.poison && !b.poison
    && leNat ((bytes.drop 25).take 1) % 2 == 1 && (recEntry s x' bytes).isSome

/-- A channel's next record stands in memory and is good. -/
def readsGood (s : State) (x : Chan) : Bool :=
  match s.engXlat x.blk x.recVa [] with
  | .ok xl s0 => match s0.engRead (copyClass (s0.blk x.blk).ctx) x.blk x.recVa 0 32 [] xl with
    | .ok a s1 => match s1.engRead (copyClass (s1.blk x.blk).ctx) x.blk x.recVa 32 32 a.pages xl with
      | .ok b s' => goodRecord s' x a b
      | _ => false
    | _ => false
  | _ => false

theorem readsGood_iff {s : State} {x : Chan} : readsGood s x = true ↔ ∃ xl s0 a s1 b s', s.engXlat x.blk x.recVa [] = .ok xl s0 ∧
    s0.engRead (copyClass (s0.blk x.blk).ctx) x.blk x.recVa 0 32 [] xl = .ok a s1 ∧
    s1.engRead (copyClass (s1.blk x.blk).ctx) x.blk x.recVa 32 32 a.pages xl = .ok b s' ∧ goodRecord s' x a b = true := by
  constructor
  · intro h
    unfold readsGood at h
    split at h
    · next xl s0 hx =>
      split at h
      · next a s1 ha =>
        split at h
        · next b s' hb => exact ⟨xl, s0, a, s1, b, s', hx, ha, hb, h⟩
        · cases h
      · cases h
    · cases h
  · rintro ⟨xl, s0, a, s1, b, s', hx, ha, hb, h⟩
    simp only [readsGood, hx, ha, hb, h]

/-- The channel of a state. -/
def State.chan (s : State) (core ch : Nat) : Chan := mget {} (s.core core).chans ch

theorem staleState_chan : staleState.chan 0 0 = staleChan := by decide +kernel

theorem staleState_afterDone : staleState.afterDone (staleChan.after.filter (· != staleChan.uid)) = true := by decide +kernel

theorem staleState_readsGood : readsGood staleState staleChan = true := by decide +kernel

/-- The kept poison makes the record an error: the channel ends. -/
theorem staleState_ends : ((staleState.chainRecord 0 0).chan 0 0).busy = false := by decide +kernel

/-- Refutes O49: a channel whose poison bit is set though it has read no byte of its record (`bad` with `rcd = []`) ends with an error on a
good record, where the statement, which asks nothing of `bad`, has it start the record's transfer. -/
theorem not_engineSteps : ¬ Obligations.EngineSteps := by
  unfold Obligations.EngineSteps
  rintro ⟨-, -, -, -, -, chains, -⟩
  obtain ⟨t, ht, -, good, -⟩ := chains 0 0 staleState
  obtain rfl : staleState.chainRecord 0 0 = t := by injection ht
  have hx : mget {} (staleState.core 0).chans 0 = staleChan := staleState_chan
  rw [hx] at good
  obtain ⟨xl, s0, a, s1, b, s', hxl, ha, hb, h⟩ := readsGood_iff.1 staleState_readsGood
  simp only [goodRecord, Bool.and_eq_true, Option.isNone_iff_eq_none, beq_iff_eq, Bool.not_eq_true', Option.isSome_iff_exists] at h
  obtain ⟨⟨⟨⟨⟨⟨⟨hask, hask'⟩, hlen⟩, hlen'⟩, hp⟩, hp'⟩, howned⟩, ⟨e, next⟩, hentry⟩ := h
  obtain ⟨-, -, -, starts⟩ := good xl a b s0 s1 s' rfl rfl rfl staleState_afterDone rfl rfl hxl ha hask hlen hb hask' hlen'
  have hbusy := (starts e next hp hp' howned hentry).1
  rw [show (mget {} ((staleState.chainRecord 0 0).core 0).chans 0).busy = false from staleState_ends] at hbusy
  cases hbusy

end Sys2Proof.Machine
end

section
/-! LEMMAS AND PROOFS. The killing of a kernel one of whose blocks has a copy entry behind a suspended one (R140, R268, R291). -/

namespace Sys2Proof.Machine

/-- Two loads of block 1 in its core's queue: the first is suspended, so the second does not go on either. -/
def stuckLoads : List CopyEntry := [{ blk := 1, uid := 8, bytes := 64, susp := some { code := 14 } }, { blk := 1, uid := 9, bytes := 64 }]

/-- The machine with those loads; the kernel of block 1 is being killed. -/
def killingState : State :=
  let s := (State.reset.probe (List.replicate 4 0#8)).setKernel 1 { state := .killing, ctx := 1 }
  s.setCore 0 { s.core 0 with ldq := stuckLoads }

theorem killingState_still : ∀ x ∈ killingState.blocks, x.2.live = true → x.2.kernel = 1 → killingState.enginesStill x.1 = true := by decide +kernel

theorem killingState_kernel : killingState.kernel 1 = { state := .killing, ctx := 1 } := by decide +kernel

theorem killingState_pend : killingState.pend = [] := by decide +kernel

/-- What is suspended is discarded, and the load behind it goes on: the block stays, and the kernel is still being killed. -/
theorem killingState_stays : ((killingState.kernelKilled 1).kernel 1).state = .killing := by decide +kernel

/-- Refutes O50: the engines of every block of a killed kernel may be still only because a copy entry stands behind a suspended one; the kill
discards the suspended entry, the one behind it is not done, and the kernel has not ended after the step, as the statement says it has. -/
theorem not_blockAndKernelSteps : ¬ Obligations.BlockAndKernelSteps := by
  unfold Obligations.BlockAndKernelSteps
  rintro ⟨-, -, -, -, -, -, -, -, -, -, -, -, -, -, killed, -⟩
  obtain ⟨t, ht, -, ends⟩ := killed 1 killingState
  obtain rfl : killingState.kernelKilled 1 = t := by injection ht
  have hended := (ends (by rw [killingState_kernel]) killingState_still (by simp [killingState_pend]) (.inl (by rw [killingState_kernel]))).1
  rw [killingState_stays] at hended
  cases hended

end Sys2Proof.Machine
end

section
/-! LEMMAS AND PROOFS. Every instruction word is what its encoding decodes to, from words and from bytes (O58): the fields of a concatenation,
the codes of the enumerated fields, the literal words, and one case for each parser of an opcode range. -/

namespace Sys2Proof

/-! ## Fields of a concatenation -/

section
variable {v w start len i : Nat} {x : BitVec v} {y : BitVec w}

theorem extract_above {r : BitVec len} (h : w ≤ start) (hx : x.extractLsb' (start - w) len = r) : (x ++ y).extractLsb' start len = r :=
  (BitVec.extractLsb'_append_eq_of_le h).trans hx

theorem extract_below {r : BitVec len} (h : start + len ≤ w) (hy : y.extractLsb' start len = r) : (x ++ y).extractLsb' start len = r :=
  (BitVec.extractLsb'_append_eq_of_add_le h).trans hy

theorem extract_low : (x ++ y).extractLsb' 0 w = y := extract_below (by omega) BitVec.extractLsb'_eq_self

theorem extract_high : (x ++ y).extractLsb' w v = x := extract_above le_rfl (by rw [Nat.sub_self, BitVec.extractLsb'_eq_self])

theorem bit_above {r : Bool} (h : w ≤ i) (hx : x.getLsbD (i - w) = r) : (x ++ y).getLsbD i = r := by
  rw [BitVec.getLsbD_append, if_neg (by omega), hx]

theorem bit_below {r : Bool} (h : i < w) (hy : y.getLsbD i = r) : (x ++ y).getLsbD i = r := by
  rw [BitVec.getLsbD_append, if_pos h, hy]

theorem bit_low {b : Bool} : (x ++ BitVec.ofBool b).getLsbD 0 = b := bit_below (by decide) (by cases b <;> rfl)

end

section
variable (op d a b : BitVec 7) (imm : BitVec 14) (s : Stall)

@[simp] theorem opOf_mkWord : opOf (mkWord op d a b s) = op :=
  extract_above (by decide) (extract_above (by decide) (extract_above (by decide) extract_high))
@[simp] theorem dOf_mkWord : dOf (mkWord op d a b s) = d :=
  extract_above (by decide) (extract_above (by decide) (extract_above (by decide) extract_low))
@[simp] theorem aOf_mkWord : aOf (mkWord op d a b s) = a := extract_above (by decide) (extract_above (by decide) extract_low)
@[simp] theorem bOf_mkWord : bOf (mkWord op d a b s) = b := extract_above (by decide) extract_low
@[simp] theorem sOf_mkWord : sOf (mkWord op d a b s) = s := extract_low

@[simp] theorem opOf_mkWordW : opOf (mkWordW op d imm s) = op := extract_above (by decide) (extract_above (by decide) extract_high)
@[simp] theorem dOf_mkWordW : dOf (mkWordW op d imm s) = d := extract_above (by decide) (extract_above (by decide) extract_low)
@[simp] theorem immOf_mkWordW : immOf (mkWordW op d imm s) = imm := extract_above (by decide) extract_low
@[simp] theorem sOf_mkWordW : sOf (mkWordW op d imm s) = s := extract_low

end

/-! ## Enumerated fields -/

@[simp] theorem Width.ofCode_code (x : Width) : Width.ofCode x.code = some x := by cases x <;> rfl
@[simp] theorem Scope.ofCode_code (x : Scope) : Scope.ofCode x.code = some x := by cases x <;> rfl
@[simp] theorem ordOfCode_ordCode (x : Option Scope) : ordOfCode (ordCode x) = some x := by rcases x with - | (_ | _) <;> rfl
@[simp] theorem Cond.ofCode_code (x : Cond) : Cond.ofCode x.code = some x := by cases x <;> rfl
@[simp] theorem ShiftKind.ofCode_code (x : ShiftKind) : ShiftKind.ofCode x.code = x := by cases x <;> rfl
@[simp] theorem IunFn.ofCode_code (x : IunFn) : IunFn.ofCode x.code = some x := by cases x <;> rfl
@[simp] theorem FunFn.ofCode_code (x : FunFn) : FunFn.ofCode x.code = some x := by cases x <;> rfl
@[simp] theorem CvtKind.ofCode_code (x : CvtKind) : CvtKind.ofCode x.code = some x := by cases x <;> rfl
@[simp] theorem Rm.ofCode_code (x : Rm) : Rm.ofCode x.code = x := by cases x <;> rfl
@[simp] theorem ReduxOp.ofCode_code (x : ReduxOp) : ReduxOp.ofCode x.code = some x := by cases x <;> rfl
@[simp] theorem SreadFn.ofCode_code (x : SreadFn) : SreadFn.ofCode x.code = some x := by cases x <;> rfl
@[simp] theorem AtomOp.ofCode_code (x : AtomOp) : AtomOp.ofCode x.code = some x := by cases x <;> rfl
@[simp] theorem AtomTy.ofCode_code (x : AtomTy) : AtomTy.ofCode x.code = some x := by cases x <;> rfl
@[simp] theorem AtomUse.ofCode_code (x : AtomUse) : AtomUse.ofCode x.code = some x := by cases x <;> rfl
@[simp] theorem AtomOrd.ofCode_code (x : AtomOrd) : AtomOrd.ofCode x.code = x := by cases x <;> rfl
@[simp] theorem FenceKind.ofCode_code (x : FenceKind) : FenceKind.ofCode x.code = some x := by cases x <;> rfl
@[simp] theorem RedTy.ofCode_code (x : RedTy) : RedTy.ofCode x.code = some x := by cases x <;> rfl
@[simp] theorem MatFmt.ofCode_code (x : MatFmt) : MatFmt.ofCode x.code = some x := by cases x <;> rfl
@[simp] theorem AccFmt.ofCode_code (x : AccFmt) : AccFmt.ofCode x.code = some x := by cases x <;> rfl

@[simp] theorem QxFn.ofCode_code (x : QxFn) : QxFn.ofCode x.code = some x := by
  cases x
  case bc n => revert n; decide
  all_goals rfl

@[simp] theorem Sel.ofCode_code (x : Sel) : Sel.ofCode x.code = some x := by
  cases x
  case always => rfl
  case lane neg p => revert neg p; decide
  case uni neg p => revert neg p; decide

@[simp] theorem fenceOfFn_fenceFn (k : FenceKind) (sc : Scope) : fenceOfFn (fenceFn k sc) = some (k, sc) := by cases k <;> cases sc <;> rfl

/-! ## Assigned FN values (R70) -/

@[simp] theorem IunFn.code_le (x : IunFn) : x.code.toNat ≤ 10 := by cases x <;> decide
@[simp] theorem FunFn.code_le (x : FunFn) : x.code.toNat ≤ 12 := by cases x <;> decide
@[simp] theorem SreadFn.code_le (x : SreadFn) : x.code.toNat ≤ 15 := by cases x <;> decide
@[simp] theorem ReduxOp.code_le (x : ReduxOp) : x.code.toNat ≤ 10 := by cases x <;> decide
@[simp] theorem cvt_fn_lt (k : CvtKind) (rm : Rm) : (k.code ++ rm.code : BitVec 7).toNat < 64 := by cases k <;> cases rm <;> decide
@[simp] theorem up_fn_le (n : BitVec 2) : (0#5 ++ n : BitVec 7).toNat ≤ 3 := by revert n; decide
@[simp] theorem QxFn.code_le (x : QxFn) : x.code.toNat ≤ 7 := by
  cases x
  case bc n => revert n; decide
  all_goals decide
@[simp] theorem QxFn.code_ne (x : QxFn) : x.code.toNat ≠ 3 := by
  cases x
  case bc n => revert n; decide
  all_goals decide

/-! ## Fields within D, A, B and MOD -/

@[simp] theorem mkCp_cond (c : BitVec 3) (p : BitVec 4) : (mkCp c p).extractLsb' 4 3 = c := extract_high
@[simp] theorem mkCp_pred (c : BitVec 3) (p : BitVec 4) : (mkCp c p).extractLsb' 0 4 = p := extract_low
@[simp] theorem modShf_kind (k : ShiftKind) (n : BitVec 5) : (modShf k n).extractLsb' 5 2 = k.code := extract_high
@[simp] theorem modShf_amount (k : ShiftKind) (n : BitVec 5) : (modShf k n).extractLsb' 0 5 = n := extract_low

section
variable (w : Width) (m m' : Bool) (o : Option Scope)

@[simp] theorem modG_width : (modG w m o).extractLsb' 4 3 = w.code := extract_above (by decide) extract_high
@[simp] theorem modG_order : (modG w m o).extractLsb' 0 3 = ordCode o := extract_low
@[simp] theorem modG_bit : (modG w m o)[3] = m := bit_above (by decide) bit_low
@[simp] theorem modS_width : (modS w m m').extractLsb' 4 3 = w.code := extract_above (by decide) (extract_above (by decide) extract_high)
@[simp] theorem modS_fe : (modS w m m')[3] = m := bit_above (by decide) (bit_above (by decide) bit_low)
@[simp] theorem modS_clr : (modS w m m')[2] = m' := bit_above (by decide) bit_low
@[simp] theorem modS_zero : (modS w m m').extractLsb' 0 2 = 0#2 := extract_low
@[simp] theorem modL_width : (modL w).extractLsb' 4 3 = w.code := extract_high
@[simp] theorem modL_zero : (modL w).extractLsb' 0 4 = 0#4 := extract_low

end

@[simp] theorem cvt_fn_kind (k : CvtKind) (rm : Rm) : (k.code ++ rm.code : BitVec 7).extractLsb' 2 5 = k.code := extract_high
@[simp] theorem cvt_fn_rm (k : CvtKind) (rm : Rm) : (k.code ++ rm.code : BitVec 7).extractLsb' 0 2 = rm.code := extract_low
@[simp] theorem field3_low (p : BitVec 4) : (0#3 ++ p : BitVec 7).extractLsb' 0 4 = p := extract_low
@[simp] theorem field3_zero (p : BitVec 4) : (0#3 ++ p : BitVec 7).extractLsb' 4 3 = 0#3 := extract_high
@[simp] theorem field5_low (n : BitVec 2) : (0#5 ++ n : BitVec 7).extractLsb' 0 2 = n := extract_low
@[simp] theorem lane5_field (n : BitVec 5) : lane5 (0#2 ++ n) = some n := by revert n; decide

/-- The token mask of waitt lies across A and B. -/
@[simp] theorem waitt_mask (op : BitVec 7) (m : BitVec 8) (s : Stall) : (mkWordW op 0#7 (0#6 ++ m) s).extractLsb' 4 8 = m :=
  extract_above (by decide) (extract_below (by decide) extract_low)
@[simp] theorem waitt_zero (op : BitVec 7) (m : BitVec 8) (s : Stall) : (mkWordW op 0#7 (0#6 ++ m) s).extractLsb' 12 6 = 0#6 :=
  extract_above (by decide) (extract_below (by decide) extract_high)

/-! ## Literal words -/

@[simp] theorem csr_number (c : BitVec 16) : (0#16 ++ c : Word).extractLsb' 0 16 = c := extract_low
@[simp] theorem csr_zero (c : BitVec 16) : (0#16 ++ c : Word).extractLsb' 16 16 = 0#16 := extract_high

/-- The literal word of an atomic (R243). -/
@[simp] theorem AtomSpec.ofWord_word (sp : AtomSpec) : AtomSpec.ofWord sp.word = some sp := by
  have op : sp.word.extractLsb' 28 4 = sp.op.code := extract_above (by decide) (extract_above (by decide) (extract_above (by decide)
    (extract_above (by decide) (extract_above (by decide) extract_high))))
  have ty : sp.word.extractLsb' 25 3 = sp.ty.code := extract_above (by decide) (extract_above (by decide) (extract_above (by decide)
    (extract_above (by decide) (extract_above (by decide) extract_low))))
  have use : sp.word.extractLsb' 22 3 = sp.use.code :=
    extract_above (by decide) (extract_above (by decide) (extract_above (by decide) (extract_above (by decide) extract_low)))
  have ord : sp.word.extractLsb' 20 2 = sp.ord.code := extract_above (by decide) (extract_above (by decide) (extract_above (by decide) extract_low))
  have scope : sp.word.extractLsb' 17 3 = sp.scope.code := extract_above (by decide) (extract_above (by decide) extract_low)
  have noret : sp.word.getLsbD 16 = sp.noret := bit_above (by decide) bit_low
  rw [ofWord, op, ty, use, ord, scope, noret]
  simp

@[simp] theorem AtomSpec.word_zero (sp : AtomSpec) : sp.word.extractLsb' 0 16 = 0#16 := extract_low

section
variable (st : BitVec 7) (nb : Bool) (p : BitVec 4)

/-- The literal word of ld.asof (R248). -/
theorem asof_fields : let l : Word := st ++ BitVec.ofBool nb ++ p ++ 0#20
    l.extractLsb' 25 7 = st ∧ l.getLsbD 24 = nb ∧ l.extractLsb' 20 4 = p ∧ l.extractLsb' 0 20 = 0#20 :=
  ⟨extract_above (by decide) (extract_above (by decide) extract_high), bit_above (by decide) (bit_above (by decide) bit_low),
    extract_above (by decide) extract_low, extract_low⟩

end

/-- Literal 1 of a copy (R292). -/
theorem Count.word_fields (n : Count) (t : BitVec 3) :
    countOf (n.word t) = n ∧ (n.word t).extractLsb' 9 3 = t ∧ countZeros (n.word t) = true := by
  have tok : (n.word t).extractLsb' 9 3 = t := by
    cases n <;> exact extract_above (by decide) (extract_above (by decide) (extract_above (by decide) extract_low))
  have zero : (n.word t).getLsbD 0 = false := by cases n <;> exact bit_below (by decide) rfl
  cases n with
  | imm n =>
    have sel : (Count.word (.imm n) t).getLsbD 1 = false := bit_above (by decide) (bit_below (by decide) rfl)
    have count : (Count.word (.imm n) t).extractLsb' 12 20 = n :=
      extract_above (by decide) (extract_above (by decide) (extract_above (by decide) extract_high))
    have rest : (Count.word (.imm n) t).extractLsb' 2 7 = 0#7 := extract_above (by decide) (extract_above (by decide) extract_low)
    exact ⟨by rw [countOf, sel, count]; rfl, tok, by rw [countZeros, zero, sel, rest]; rfl⟩
  | reg k =>
    have sel : (Count.word (.reg k) t).getLsbD 1 = true := bit_above (by decide) (bit_below (by decide) rfl)
    have reg : (Count.word (.reg k) t).extractLsb' 2 7 = k := extract_above (by decide) (extract_above (by decide) extract_low)
    have rest : (Count.word (.reg k) t).extractLsb' 12 20 = 0#20 :=
      extract_above (by decide) (extract_above (by decide) (extract_above (by decide) extract_high))
    exact ⟨by rw [countOf, sel, reg]; rfl, tok, by rw [countZeros, zero, sel, rest]; rfl⟩

/-- Literal 2 of cp.ld (R292) and of acc.cp (R272). -/
theorem mbar_fields (m : BitVec 16) : (m ++ 0#16 : Word).extractLsb' 16 16 = m ∧ (m ++ 0#16 : Word).extractLsb' 0 16 = 0#16 :=
  ⟨extract_high, extract_low⟩

/-- Literal 2 of cp.st and of cp.red (R296): the element type, where there is one, and the release scope. -/
theorem cpSt_fields (r : Option Scope) : let l : Word := 0#12 ++ ordCode r ++ 0#17
    l.extractLsb' 17 3 = ordCode r ∧ l.extractLsb' 20 12 = 0#12 ∧ l.extractLsb' 0 17 = 0#17 :=
  ⟨extract_above (by decide) extract_low, extract_above (by decide) extract_high, extract_low⟩

theorem cpRed_fields (ty : RedTy) (r : Option Scope) : let l : Word := ty.code ++ 0#10 ++ ordCode r ++ 0#17
    l.extractLsb' 17 3 = ordCode r ∧ l.extractLsb' 30 2 = ty.code ∧ l.extractLsb' 20 10 = 0#10 ∧ l.extractLsb' 0 17 = 0#17 :=
  ⟨extract_above (by decide) extract_low, extract_above (by decide) (extract_above (by decide) extract_high),
    extract_above (by decide) (extract_above (by decide) extract_low), extract_low⟩

/-- Literals 1 and 3 of cp.tile: the row count (R297). -/
theorem RowCount.lit_fields (rows : RowCount) (rb m : BitVec 16) : let l1 : Word := rows.lit1 ++ rb
    rowsOf l1 (rows.lit3 m) = rows ∧ rowsZeros l1 (rows.lit3 m) = true ∧ l1.extractLsb' 0 16 = rb ∧
    (rows.lit3 m).extractLsb' 16 16 = m ∧ (rows.lit3 m).extractLsb' 12 3 = 0#3 ∧ (rows.lit3 m).extractLsb' 0 5 = 0#5 := by
  intro l1
  have high : l1.extractLsb' 16 16 = rows.lit1 := extract_high
  cases rows with
  | imm n =>
    have sel : (RowCount.lit3 m (.imm n)).getLsbD 15 = false :=
      bit_above (by decide) (bit_above (by decide) (bit_above (by decide) (bit_below (by decide) rfl)))
    have rest : (RowCount.lit3 m (.imm n)).extractLsb' 5 7 = 0#7 := extract_above (by decide) extract_low
    refine ⟨by rw [rowsOf, sel, high]; rfl, by rw [rowsZeros, sel, rest]; rfl, extract_low, ?_, ?_, extract_low⟩
    · exact extract_above (by decide) (extract_above (by decide) (extract_above (by decide) extract_high))
    · exact extract_above (by decide) (extract_above (by decide) extract_low)
  | reg k =>
    have sel : (RowCount.lit3 m (.reg k)).getLsbD 15 = true :=
      bit_above (by decide) (bit_above (by decide) (bit_above (by decide) (bit_below (by decide) rfl)))
    have reg : (RowCount.lit3 m (.reg k)).extractLsb' 5 7 = k := extract_above (by decide) extract_low
    refine ⟨by rw [rowsOf, sel, reg]; rfl, by rw [rowsZeros, sel, high]; rfl, extract_low, ?_, ?_, extract_low⟩
    · exact extract_above (by decide) (extract_above (by decide) (extract_above (by decide) extract_high))
    · exact extract_above (by decide) (extract_above (by decide) extract_low)

/-- Literal 2 of cp.tile (R297). -/
theorem cpTile_fields (roles : BitVec 16) (st : BitVec 7) (t : BitVec 3) : let l : Word := roles ++ st ++ t ++ 0#6
    l.extractLsb' 16 16 = roles ∧ l.extractLsb' 9 7 = st ∧ l.extractLsb' 6 3 = t ∧ l.extractLsb' 0 6 = 0#6 :=
  ⟨extract_above (by decide) (extract_above (by decide) extract_high), extract_above (by decide) (extract_above (by decide) extract_low),
    extract_above (by decide) extract_low, extract_low⟩

/-- The literal word of cp.chain (R300). -/
theorem cpChain_fields (t : BitVec 3) (ch : BitVec 2) : let l : Word := 0#27 ++ t ++ ch
    l.extractLsb' 0 2 = ch ∧ l.extractLsb' 2 3 = t ∧ l.extractLsb' 5 27 = 0#27 :=
  ⟨extract_low, extract_above (by decide) extract_low, extract_above (by decide) extract_high⟩

/-- Words 1 and 2 of a pass (R265). -/
@[simp] theorem matOperandOf_word (o : MatOperand) : matOperandOf o.word = some o := by
  have base : o.word.extractLsb' 25 7 = o.base := extract_above (by decide) (extract_above (by decide) (extract_above (by decide)
    (extract_above (by decide) extract_high)))
  have stride : o.word.extractLsb' 18 7 = o.stride := extract_above (by decide) (extract_above (by decide) (extract_above (by decide)
    (extract_above (by decide) extract_low)))
  have fmt : o.word.extractLsb' 15 3 = o.fmt.code := extract_above (by decide) (extract_above (by decide) (extract_above (by decide) extract_low))
  have zero : o.word.getLsbD 14 = false := bit_above (by decide) (bit_above (by decide) (bit_below (by decide) rfl))
  have blk : o.word.getLsbD 13 = o.blk := bit_above (by decide) bit_low
  rw [matOperandOf, base, stride, fmt, zero, blk]
  simp

theorem MatOperand.word_zero (o : MatOperand) : o.word.extractLsb' 0 13 = 0#13 := extract_low

/-- Words 3 and 4 of a pass, apart from the depth (R265). -/
theorem MmaSpec.word3_fields (m : MmaSpec) :
    m.word3.extractLsb' 12 7 = m.sa ∧ m.word3.extractLsb' 5 7 = m.sb ∧ m.word3.extractLsb' 3 2 = m.bsel ∧ m.word3.extractLsb' 0 2 = 0#2 := by
  unfold word3
  split <;> exact ⟨extract_above (by decide) (extract_above (by decide) (extract_above (by decide) (extract_above (by decide) extract_low))),
    extract_above (by decide) (extract_above (by decide) (extract_above (by decide) extract_low)),
    extract_above (by decide) (extract_above (by decide) extract_low), extract_low⟩

theorem MmaSpec.word4_fields (m : MmaSpec) : m.word4.extractLsb' 23 9 = m.row ∧ m.word4.getLsbD 22 = m.ow ∧ m.word4.extractLsb' 19 3 = m.tok ∧
    m.word4.extractLsb' 15 4 = 0#4 ∧ m.word4.extractLsb' 0 8 = 0#8 := by
  unfold word4
  split <;> exact ⟨extract_above (by decide) (extract_above (by decide) (extract_above (by decide) (extract_above (by decide) extract_high))),
    bit_above (by decide) (bit_above (by decide) (bit_above (by decide) (bit_above (by decide) bit_low))),
    extract_above (by decide) (extract_above (by decide) (extract_above (by decide) extract_low)),
    extract_above (by decide) (extract_above (by decide) extract_low), extract_low⟩

/-- The depth of a pass: in word 3, or its register in word 4, and zero where the other is (R265). -/
theorem MmaSpec.depth_fields (m : MmaSpec) :
    (if m.word3.getLsbD 2 then .reg (m.word4.extractLsb' 8 7) else .imm (m.word3.extractLsb' 19 13)) = m.depth ∧
    (if m.word3.getLsbD 2 then m.word3.extractLsb' 19 13 == 0#13 else m.word4.extractLsb' 8 7 == 0#7) = true := by
  unfold word3 word4
  cases m.depth with
  | imm k =>
    have sel : (k ++ m.sa ++ m.sb ++ m.bsel ++ 0#1 ++ 0#2 : Word).getLsbD 2 = false := bit_above (by decide) (bit_below (by decide) rfl)
    have depth : (k ++ m.sa ++ m.sb ++ m.bsel ++ 0#1 ++ 0#2 : Word).extractLsb' 19 13 = k :=
      extract_above (by decide) (extract_above (by decide) (extract_above (by decide) (extract_above (by decide) extract_high)))
    have rest : (m.row ++ BitVec.ofBool m.ow ++ m.tok ++ 0#4 ++ 0#7 ++ 0#8 : Word).extractLsb' 8 7 = 0#7 := extract_above (by decide) extract_low
    simp only [sel, depth, rest]
    exact ⟨rfl, rfl⟩
  | reg k =>
    have sel : (0#13 ++ m.sa ++ m.sb ++ m.bsel ++ 1#1 ++ 0#2 : Word).getLsbD 2 = true := bit_above (by decide) (bit_below (by decide) rfl)
    have reg : (m.row ++ BitVec.ofBool m.ow ++ m.tok ++ 0#4 ++ k ++ 0#8 : Word).extractLsb' 8 7 = k := extract_above (by decide) extract_low
    have rest : (0#13 ++ m.sa ++ m.sb ++ m.bsel ++ 1#1 ++ 0#2 : Word).extractLsb' 19 13 = 0#13 :=
      extract_above (by decide) (extract_above (by decide) (extract_above (by decide) (extract_above (by decide) extract_high)))
    simp only [sel, reg, rest]
    exact ⟨rfl, rfl⟩

@[simp] theorem mmaOf_words (m : MmaSpec) : mmaOf m.a.word m.b.word m.word3 m.word4 = some m := by
  obtain ⟨sa, sb, bsel, -⟩ := m.word3_fields
  obtain ⟨row, ow, tok, -⟩ := m.word4_fields
  simp only [mmaOf, matOperandOf_word, m.depth_fields.1, sa, sb, bsel, row, ow, tok]

@[simp] theorem mmaZeros_words (m : MmaSpec) : mmaZeros m.a.word m.b.word m.word3 m.word4 = true := by
  obtain ⟨-, -, -, low⟩ := m.word3_fields
  obtain ⟨-, -, -, mid, low'⟩ := m.word4_fields
  simp only [mmaZeros, MatOperand.word_zero, low, mid, low', m.depth_fields.2]
  rfl

/-- The literal word of accumulator transfers (R269). -/
theorem AccSpec.word_fields (c : AccSpec) (low : BitVec 10) : (c.word low).extractLsb' 23 9 = c.first ∧ (c.word low).extractLsb' 16 7 = c.rows ∧
    (c.word low).extractLsb' 13 3 = c.tok ∧ (c.word low).getLsbD 12 = c.blk ∧ (c.word low).extractLsb' 10 2 = c.fmt.code :=
  ⟨extract_above (by decide) (extract_above (by decide) (extract_above (by decide) (extract_above (by decide) extract_high))),
    extract_above (by decide) (extract_above (by decide) (extract_above (by decide) (extract_above (by decide) extract_low))),
    extract_above (by decide) (extract_above (by decide) (extract_above (by decide) extract_low)),
    bit_above (by decide) (bit_above (by decide) bit_low), extract_above (by decide) extract_low⟩

theorem AccSpec.word_low (c : AccSpec) (low : BitVec 10) : (c.word low).extractLsb' 0 10 = low := extract_low

theorem accOf_word (c : AccSpec) (low : BitVec 10) : accOf (c.word low) = some c := by
  obtain ⟨first, rows, tok, blk, fmt⟩ := c.word_fields low
  rw [accOf, first, rows, tok, blk, fmt, AccFmt.ofCode_code]

/-- The literal word of acc.zero (R269). -/
theorem accZero_fields (first : BitVec 9) (rows : BitVec 7) (tok : BitVec 3) : let l : Word := first ++ rows ++ tok ++ 0#13
    l.extractLsb' 23 9 = first ∧ l.extractLsb' 16 7 = rows ∧ l.extractLsb' 13 3 = tok ∧ l.extractLsb' 0 13 = 0#13 :=
  ⟨extract_above (by decide) (extract_above (by decide) extract_high), extract_above (by decide) (extract_above (by decide) extract_low),
    extract_above (by decide) extract_low, extract_low⟩

/-- Literal 1 of acc.cp: the role below the format (R272). -/
theorem accCp_fields (c : AccSpec) (role : BitVec 4) :
    (c.word (role ++ 0#6)).extractLsb' 6 4 = role ∧ (c.word (role ++ 0#6)).extractLsb' 0 6 = 0#6 :=
  ⟨extract_below (by decide) extract_high, extract_below (by decide) extract_low⟩

/-! ## Words and their parsers -/

/-- A word with its fields, in the R form (R54). -/
structure HasFields (w : Word) (op d a b : BitVec 7) (s : Stall) : Prop where
  op : opOf w = op
  d : dOf w = d
  a : aOf w = a
  b : bOf w = b
  s : sOf w = s

theorem hasFields_mkWord (op d a b : BitVec 7) (s : Stall) : HasFields (mkWord op d a b s) op d a b s :=
  ⟨opOf_mkWord .., dOf_mkWord .., aOf_mkWord .., bOf_mkWord .., sOf_mkWord ..⟩

section
variable {w l1 l2 l3 l4 : Word} {op d a b : BitVec 7} {s : Stall}

theorem parse_zero (h : opOf w = op) (hop : op.toNat < 0x10 := by decide) : parse w l1 l2 l3 l4 = parse0 w l1 := by
  subst h
  exact if_pos hop

theorem parse_int (h : opOf w = op) (lo : 0x10 ≤ op.toNat := by decide) (hi : op.toNat < 0x30 := by decide) :
    parse w l1 l2 l3 l4 = parseInt w := by
  subst h
  unfold parse
  rw [if_neg (by omega), if_pos hi]

theorem parse_fp (h : opOf w = op) (lo : 0x30 ≤ op.toNat := by decide) (hi : op.toNat < 0x50 := by decide) :
    parse w l1 l2 l3 l4 = parseFp w := by
  subst h
  unfold parse
  rw [if_neg (by omega), if_neg (by omega), if_pos hi]

theorem parse_x (h : opOf w = op) (lo : 0x50 ≤ op.toNat := by decide) (hi : op.toNat < 0x60 := by decide) :
    parse w l1 l2 l3 l4 = parseX w := by
  subst h
  unfold parse
  rw [if_neg (by omega), if_neg (by omega), if_neg (by omega), if_pos hi]

theorem parse_k (h : opOf w = op) (lo : 0x60 ≤ op.toNat := by decide) (hi : op.toNat < 0x70 := by decide) :
    parse w l1 l2 l3 l4 = parseK w := by
  subst h
  unfold parse
  rw [if_neg (by omega), if_neg (by omega), if_neg (by omega), if_neg (by omega), if_pos hi]

theorem parse_mem (h : opOf w = op) (lo : 0x70 ≤ op.toNat := by decide) (hi : op.toNat < 0x7D := by decide) :
    parse w l1 l2 l3 l4 = parseMem w l1 := by
  subst h
  unfold parse
  rw [if_neg (by omega), if_neg (by omega), if_neg (by omega), if_neg (by omega), if_neg (by omega), if_pos hi]

theorem parse_cp (h : opOf w = 0x7D#7) : parse w l1 l2 l3 l4 = parseCp w l1 l2 l3 := by
  rw [parse, h]
  rfl

theorem parse_mat (h : opOf w = 0x7E#7) : parse w l1 l2 l3 l4 = parseMat w l1 l2 l3 l4 := by
  rw [parse, h]
  rfl

theorem parse_sys (h : opOf w = 0x7F#7) : parse w l1 l2 l3 l4 = parseSys w := by
  rw [parse, h]
  rfl

end

/-! ## How many words follow (R55) -/

theorem litCount_of {i : Instr} {op d a b : BitVec 7} {s : Stall} {lits : List Word} (he : encode i = mkWord op d a b s :: lits)
    (h : ∀ w, HasFields w op d a b s → litCount w = some lits.length) : ∃ w lits, encode i = w :: lits ∧ litCount w = some lits.length :=
  ⟨_, lits, he, h _ (hasFields_mkWord ..)⟩

/-- The first word of an encoding fixes how many follow: by its opcode and, where that has one, its FN. -/
theorem litCount_encode {i : Instr} (hw : i.isWord = true) : ∃ w lits, encode i = w :: lits ∧ litCount w = some lits.length := by
  cases i <;> cases hw
  case bra | call | waitt => exact ⟨_, _, rfl, by rw [litCount, opOf_mkWordW]; rfl⟩
  case sread | iun | funF32 | funF16x2 | funBf16x2 | funF64 | cvt | upM8 | qx | redux =>
    exact litCount_of rfl fun w h => by
      rw [litCount, h.op, h.b]
      exact if_pos (by simp)
  case fence =>
    exact litCount_of rfl fun w h => by
      rw [litCount, h.op, h.b, fenceOfFn_fenceFn]
      rfl
  all_goals
    exact litCount_of rfl fun w h => by
      rw [litCount, h.op, h.b]
      rfl

/-! ## Every instruction parses back -/

/-- The words of an instruction parse to it, with every zero field zero. -/
def ParsesBack (i : Instr) : Prop :=
  ∃ w lits, encode i = w :: lits ∧ parse w (litAt lits 0) (litAt lits 1) (litAt lits 2) (litAt lits 3) = .some i

/-- An instruction whose first word has the R form. -/
theorem parsesBack_of {i : Instr} {op d a b : BitVec 7} {s : Stall} {lits : List Word} (he : encode i = mkWord op d a b s :: lits)
    (h : ∀ w, HasFields w op d a b s → parse w (litAt lits 0) (litAt lits 1) (litAt lits 2) (litAt lits 3) = .some i) : ParsesBack i :=
  ⟨_, lits, he, h _ (hasFields_mkWord ..)⟩

/-! What well-formedness says of the fields that an encoding leaves out. -/

theorem AtomSpec.dOk_noret {sp : AtomSpec} {d : VReg} (h : sp.dOk d = true) (hn : sp.noret = true) : d = 0#7 := by
  simpa [dOk, hn] using h

section
variable {sp : AtomSpec} {c : AccSpec} {role : BitVec 4} {m : BitVec 16} {d a b : BitVec 7} {s : Stall}

theorem Instr.atomG_dOk (h : (Instr.atomG sp d a b s).wf = true) : sp.dOk d = true := by
  change (sp.opTy && sp.useOk && sp.dOk d && vPair a && sp.bOk b) = true at h
  simp only [Bool.and_eq_true] at h
  exact h.1.1.2

theorem Instr.atomS_dOk (h : (Instr.atomS sp d a b s).wf = true) : sp.dOk d = true := by
  change (sp.opTy && sp.useOk && sp.scope.blockOk && sp.dOk d && noPort a && sp.bOk b) = true at h
  simp only [Bool.and_eq_true] at h
  exact h.1.1.2

theorem Instr.accZero_plain (h : (Instr.accZero c s).wf = true) : c.blk = false ∧ c.fmt = .f32 := by
  change (c.fits && !c.blk && c.fmt == .f32) = true at h
  simp only [Bool.and_eq_true, Bool.not_eq_true', beq_iff_eq] at h
  exact ⟨h.1.2, h.2⟩

theorem Instr.accCp_global (h : (Instr.accCp c role m d a s).wf = true) : c.blk = false := by
  change (c.fits && !c.blk) = true at h
  simp only [Bool.and_eq_true, Bool.not_eq_true'] at h
  exact h.2

end

/-! The instructions with literal words of their own. -/

section
variable {sp : AtomSpec} {c : AccSpec} {d a b : BitVec 7} {s : Stall}

theorem parsesBack_atom (hd : sp.noret = true → d = 0#7) : ParsesBack (.atomG sp d a b s) ∧ ParsesBack (.atomS sp d a b s) := by
  constructor
  all_goals
    refine parsesBack_of (lits := [sp.word]) rfl fun w h => ?_
    rw [parse_mem h.op, parseMem, h.op]
    conv_lhs => whnf
    cases hn : sp.noret <;> simp [h.d, h.a, h.b, h.s, Parsed.some, litAt, hn, hd]

theorem parsesBack_ldAsof (wd : Width) (st : KReg) (nb : Bool) (p : BitVec 4) : ParsesBack (.ldAsof wd st nb p d a s) := by
  obtain ⟨hst, hnb, hp, hz⟩ := asof_fields st nb p
  refine parsesBack_of rfl fun w h => ?_
  rw [parse_mem h.op, parseMem, h.op, h.b, litAt, List.getD_cons_zero, hst, hnb, hp, hz]
  conv_lhs => whnf
  simp [h.d, h.a, h.s, Parsed.some]

theorem parsesBack_cpLd (n : Count) (t : BitVec 3) (m : BitVec 16) : ParsesBack (.cpLd d a n t m s) := by
  obtain ⟨hn, ht, hz⟩ := n.word_fields t
  refine parsesBack_of rfl fun w h => ?_
  rw [parse_cp h.op, parseCp, h.b]
  conv_lhs => whnf
  simp [h.d, h.a, h.s, Parsed.some, litAt, hn, ht, hz, mbar_fields m]

theorem parsesBack_cpSt (n : Count) (t : BitVec 3) (r : Option Scope) : ParsesBack (.cpSt d a n t r s) := by
  obtain ⟨hn, ht, hz⟩ := n.word_fields t
  obtain ⟨hr, hz1, hz2⟩ := cpSt_fields r
  refine parsesBack_of rfl fun w h => ?_
  rw [parse_cp h.op, parseCp, h.b]
  simp only [litAt, List.getD_cons_succ, List.getD_cons_zero, hr, hn, ht, hz, hz1, hz2, ordOfCode_ordCode, h.d, h.a, h.s]
  rfl

theorem parsesBack_cpRed (ty : RedTy) (n : Count) (t : BitVec 3) (r : Option Scope) : ParsesBack (.cpRed ty d a n t r s) := by
  obtain ⟨hn, ht, hz⟩ := n.word_fields t
  obtain ⟨hr, hty, hz1, hz2⟩ := cpRed_fields ty r
  refine parsesBack_of rfl fun w h => ?_
  rw [parse_cp h.op, parseCp, h.b]
  simp only [litAt, List.getD_cons_succ, List.getD_cons_zero, hr, hty, hn, ht, hz, hz1, hz2, ordOfCode_ordCode, RedTy.ofCode_code, h.d, h.a, h.s]
  rfl

theorem parsesBack_cpTile (st : KReg) (rows : RowCount) (rb roles m : BitVec 16) (t : BitVec 3) :
    ParsesBack (.cpTile d a st rows rb roles t m s) := by
  obtain ⟨hrows, hz, hrb, hm, hz1, hz2⟩ := rows.lit_fields rb m
  obtain ⟨hroles, hst, ht, hz3⟩ := cpTile_fields roles st t
  refine parsesBack_of rfl fun w h => ?_
  rw [parse_cp h.op, parseCp, h.b]
  conv_lhs => whnf
  simp [h.d, h.a, h.s, Parsed.some, litAt, hrows, hz, hrb, hm, hz1, hz2, hroles, hst, ht, hz3]

theorem parsesBack_cpChain (ch : BitVec 2) (t : BitVec 3) : ParsesBack (.cpChain ch a t s) := by
  obtain ⟨hch, ht, hz⟩ := cpChain_fields t ch
  refine parsesBack_of rfl fun w h => ?_
  rw [parse_cp h.op, parseCp, h.b]
  conv_lhs => whnf
  simp [h.d, h.a, h.s, Parsed.some, litAt, hch, ht, hz]

theorem parsesBack_accZero (hblk : c.blk = false) (hfmt : c.fmt = .f32) : ParsesBack (.accZero c s) := by
  obtain ⟨first, rows, tok, blk, fmt⟩ := c
  obtain ⟨hfirst, hrows, htok, hz⟩ := accZero_fields first rows tok
  refine parsesBack_of rfl fun w h => ?_
  rw [parse_mat h.op, parseMat, h.b]
  conv_lhs => whnf
  simp_all [h.d, h.a, h.s, Parsed.some, litAt]

theorem parsesBack_accCp (role : BitVec 4) (m : BitVec 16) (hblk : c.blk = false) : ParsesBack (.accCp c role m d a s) := by
  obtain ⟨first, rows, tok, blk, fmt⟩ := c
  obtain rfl : blk = false := hblk
  obtain ⟨hfirst, hrows, htok, hblk, hfmt⟩ := AccSpec.word_fields ⟨first, rows, tok, false, fmt⟩ (role ++ 0#6)
  obtain ⟨hrole, hz⟩ := accCp_fields ⟨first, rows, tok, false, fmt⟩ role
  obtain ⟨hm, hm0⟩ := mbar_fields m
  refine parsesBack_of rfl fun w h => ?_
  rw [parse_mat h.op, parseMat, h.b]
  simp only [litAt, List.getD_cons_succ, List.getD_cons_zero, hfirst, hrows, htok, hblk, hfmt, hrole, hz, hm, hm0, AccFmt.ofCode_code, h.d, h.a,
    h.s]
  rfl

end

/-- A well-formed instruction word parses back: one case for each parser of an opcode range, and for the literal words of its own. -/
theorem parsesBack {i : Instr} (hw : i.isWord = true) (hf : i.wf = true) : ParsesBack i := by
  cases i <;> cases hw
  case bra | call | waitt =>
    refine ⟨_, [], rfl, ?_⟩
    rw [parse_zero (opOf_mkWordW ..), parse0, opOf_mkWordW]
    conv_lhs => whnf
    simp [Parsed.some]
  case nop | win | wink | lit | klit | guard | csrr | csrw | sread =>
    refine parsesBack_of rfl fun w h => ?_
    rw [parse_zero h.op, parse0, h.op]
    conv_lhs => whnf
    simp [h.d, h.a, h.b, h.s, Parsed.some, litAt]
  case jmp | ret | callr | meet | exit | yield | brk | trap | region | drainst | chkerr | rett | exitGrp =>
    refine parsesBack_of (lits := []) rfl fun w h => ?_
    rw [parse_zero h.op, parse0, h.op]
    change parseCtl w = _
    rw [parseCtl, h.b]
    conv_lhs => whnf
    simp [h.d, h.a, h.s, Parsed.some]
  case mov | movBroadcast | movToUniform | movPv | movVp | movKp =>
    refine parsesBack_of (lits := []) rfl fun w h => ?_
    rw [parse_zero h.op, parse0, h.op]
    change parseMov w = _
    rw [parseMov, h.b]
    conv_lhs => whnf
    simp [h.d, h.a, h.s, Parsed.some]
  case iadd | isub | imul | imulhS | imulhZ | imad | and | or | xor | andn | shl | shr | sra | iminS | iminZ | imaxS | imaxZ | iaddi | shfi
    | andi | iadd64 | lea | icmpS | icmpZ | iun | bfe | bfi =>
    refine parsesBack_of (lits := []) rfl fun w h => ?_
    rw [parse_int h.op, parseInt, h.op]
    conv_lhs => whnf
    simp [h.d, h.a, h.b, h.s, Parsed.some]
  case faddF32 | fsubF32 | fmulF32 | ffmaF32 | fminF32 | fmaxF32 | fcmpF32 | funF32 | faddF16x2 | fsubF16x2 | fmulF16x2 | ffmaF16x2
    | fminF16x2 | fmaxF16x2 | fcmpF16x2 | funF16x2 | faddBf16x2 | fsubBf16x2 | fmulBf16x2 | ffmaBf16x2 | fminBf16x2 | fmaxBf16x2
    | fcmpBf16x2 | funBf16x2 | faddF64 | fsubF64 | fmulF64 | ffmaF64 | fminF64 | fmaxF64 | fcmpF64 | funF64 =>
    refine parsesBack_of (lits := []) rfl fun w h => ?_
    rw [parse_fp h.op, parseFp, h.op]
    conv_lhs => whnf
    simp [h.d, h.a, h.b, h.s, Parsed.some]
  case cvt | pkM8Rn | pkM8Rz | upM8 | vdotM8 | shflIdx | shflUp | shflDn | shflXor | qx | redux =>
    refine parsesBack_of (lits := []) rfl fun w h => ?_
    rw [parse_x h.op, parseX, h.op]
    conv_lhs => whnf
    simp [h.d, h.a, h.b, h.s, Parsed.some]
  case voteAny | voteAll | voteBallot | voteEq =>
    refine parsesBack_of (lits := []) rfl fun w h => ?_
    rw [parse_x h.op, parseX, h.op, h.b]
    conv_lhs => whnf
    simp [h.d, h.a, h.s, Parsed.some]
  case kadd | ksub | kmul | kand | kor | kxor | kshfi | kaddi | kcmpS | kcmpZ | kadd64 =>
    refine parsesBack_of (lits := []) rfl fun w h => ?_
    rw [parse_k h.op, parseK, h.op]
    conv_lhs => whnf
    simp [h.d, h.a, h.b, h.s, Parsed.some]
  case kld | kst =>
    refine parsesBack_of (lits := []) rfl fun w h => ?_
    rw [parse_k h.op, parseK, h.op, h.b, modG_width, modG_order, Width.ofCode_code, ordOfCode_ordCode]
    conv_lhs => whnf
    simp [h.d, h.a, h.s, Parsed.some]
  case ldG | stG =>
    refine parsesBack_of (lits := []) rfl fun w h => ?_
    rw [parse_mem h.op, parseMem, h.op, h.b, modG_width, modG_order, Width.ofCode_code, ordOfCode_ordCode]
    conv_lhs => whnf
    simp [h.d, h.a, h.s, Parsed.some]
  case ldxG | stxG | ldS | stS | ldL | stL | fence | stamp | settled | dusk | hpin | hunpin | floor =>
    refine parsesBack_of (lits := []) rfl fun w h => ?_
    rw [parse_mem h.op, parseMem, h.op, h.b]
    conv_lhs => whnf
    simp [h.d, h.a, h.s, Parsed.some]
  case atomG => exact (parsesBack_atom (AtomSpec.dOk_noret (Instr.atomG_dOk hf))).1
  case atomS => exact (parsesBack_atom (AtomSpec.dOk_noret (Instr.atomS_dOk hf))).2
  case ldAsof => exact parsesBack_ldAsof ..
  case cpLd => exact parsesBack_cpLd ..
  case cpSt => exact parsesBack_cpSt ..
  case cpTile => exact parsesBack_cpTile ..
  case cpRed => exact parsesBack_cpRed ..
  case cpChain => exact parsesBack_cpChain ..
  case qfence | cpStat =>
    refine parsesBack_of (lits := []) rfl fun w h => ?_
    rw [parse_cp h.op, parseCp, h.b]
    conv_lhs => whnf
    simp [h.d, h.a, h.s, Parsed.some]
  case accZero =>
    obtain ⟨hblk, hfmt⟩ := Instr.accZero_plain hf
    exact parsesBack_accZero hblk hfmt
  case accCp => exact parsesBack_accCp _ _ (Instr.accCp_global hf)
  case mma | mmaPair | accLd | accSt | ofence | mwait =>
    refine parsesBack_of rfl fun w h => ?_
    rw [parse_mat h.op, parseMat, h.b]
    conv_lhs => whnf
    simp [h.d, h.a, h.s, Parsed.some, litAt, accOf_word, AccSpec.word_low]
  case barBlk | barBlkR | barTeam | mbarInit | mbarExpect | mbarArrive | mbarWait | mbarTest | spawn | jdec | launch | qstat | qinit | actBegin
    | actComp | actCommit | actAbandon | actStat | actDone | actResume | mark | tlbinv =>
    refine parsesBack_of (lits := []) rfl fun w h => ?_
    rw [parse_sys h.op, parseSys, h.b]
    conv_lhs => whnf
    simp [h.d, h.a, h.s, Parsed.some]

/-- What parses back and is well formed decodes to itself. -/
theorem decode_encode {i : Instr} (hw : i.isWord = true) (hf : i.wf = true) :
    ∃ w lits, encode i = w :: lits ∧ litCount w = some lits.length ∧ decode w lits = .ok i := by
  obtain ⟨w, lits, he, hl⟩ := litCount_encode hw
  obtain ⟨w', lits', he', hp⟩ := parsesBack hw hf
  obtain ⟨rfl, rfl⟩ := List.cons.inj (he.symm.trans he')
  exact ⟨w, lits, he, hl, by simp [decode, hl, hp, Parsed.some, hf]⟩

/-! ## Words as bytes (R7) -/

theorem wordOfBytes_bytesOfWord (w : Word) (rest : List Byte) : wordOfBytes (bytesOfWord w ++ rest) = some (w, rest) := by
  have hw : w.extractLsb' 24 8 ++ w.extractLsb' 16 8 ++ w.extractLsb' 8 8 ++ w.extractLsb' 0 8 = w := by grind
  exact congrArg (fun x => some (x, rest)) hw

theorem wordsOfBytes_flatMap (rest : List Byte) :
    ∀ ws : List Word, wordsOfBytes ws.length (ws.flatMap bytesOfWord ++ rest) = some (ws, rest)
  | [] => rfl
  | w :: ws => by
    rw [List.flatMap_cons, List.append_assoc, List.length_cons, wordsOfBytes, wordOfBytes_bytesOfWord]
    simp only [wordsOfBytes_flatMap rest ws]

/-- Bytes that hold a word and as many literal words as it asks for decode as those words do. -/
theorem decodeBytes_words {w : Word} {lits : List Word} (h : litCount w = some lits.length) (rest : List Byte) :
    decodeBytes ((w :: lits).flatMap bytesOfWord ++ rest) = some (decode w lits, rest) := by
  rw [decodeBytes, List.flatMap_cons, List.append_assoc, wordOfBytes_bytesOfWord]
  simp only [h, Option.getD_some, wordsOfBytes_flatMap]

/-- Settles O58: the words of an instruction parse to it, by the parser of its opcode; bytes hold the words that were put there. -/
theorem decodeEncode : Obligations.DecodeEncode := by
  unfold Obligations.DecodeEncode
  intro i hw hf
  obtain ⟨w, lits, he, hl, hd⟩ := decode_encode hw hf
  exact ⟨w, lits, he, hl, hd, fun rest => by rw [decodeBytes_words hl, hd]⟩

end Sys2Proof
end

section
/-! LEMMAS AND PROOFS. Moves and literals (O6, R218, R219). -/

namespace Sys2Proof.Machine

/-! ## Vector results of a body of its own -/

/-- Lanes without flags leave none. -/
theorem outFlags_one (G : Group) (lanes : List Nat) (g : Nat → Word) : outFlags G (lanes.map fun L => (L, one (g L))) = 0#5 := by
  unfold outFlags
  induction lanes with
  | nil => rfl
  | cons L r ih =>
    rw [List.map_cons, List.foldl_cons]
    simpa [one] using ih

/-- An instruction whose body delivers a word to each lane's register, as a vector operation of the main unit would. -/
theorem vec_issue {sh : VShape} {s : State} {c : Cur} {d : VReg} {st : Stall} {body : State → Issue → Result} (g : Nat → Word)
    (h : Issuing sh.uses noOwn s c) (hsrc : sh.src = none) (hunit : sh.unit = .main) (hd : sh.uses.vdst = some (d, 1))
    (hbody : body (startState sh.uses s c) (issueOf sh.uses noOwn s c) =
      vecResult sh (fun _ L => one (g L)) (startState sh.uses s c) (issueOf sh.uses noOwn s c)) :
    ∃ t, issueWith sh.uses st noCause isReady body s = .next t ∧ VecDone sh.uses noOwn s c (fun L => one (g L)) t := by
  have key : ∀ i L, exchangeKey sh s i L = none := fun i L => by unfold exchangeKey; rw [hsrc]
  have early : exchangeEarly sh s ⟨c, acting s c, [], s.fresh, s.cycleOf c.core⟩ = noOwn := by funext L; simp [exchangeEarly, key, noOwn]
  have free : unitFree s c sh.unit = true := by rw [hunit]; rfl
  have good : exchangeBad sh s (mayIssue sh.uses noOwn s c) = false := by simp [exchangeBad, key]
  obtain ⟨t, ht, done⟩ := vecOp_next (f := fun _ L => one (g L)) st h early free good
    (fun _ _ _ _ e _ => congrArg Prod.snd (Option.some.inj (hd.symm.trans e))) (fun _ _ _ hp => absurd hp List.not_mem_nil)
  refine ⟨t, ?_, done⟩
  rw [issueWith_eq h st noCause isReady body rfl rfl rfl, hbody, ← ht, vecOp_eq st h early free good]
  rfl

/-- The group and a uniform operand, as a body reads them. -/
theorem body_grp (u : Uses) (own : Own) (s : State) (c : Cur) :
    ((startState u s c).blk (issueOf u own s c).c.blk).grp (issueOf u own s c).c.grp = s.issuer c := startState_issuer u s c

theorem kval_body (u : Uses) (own : Own) (s : State) (c : Cur) (a : KReg) :
    kval (issueOf u own s c).now (s.issuer c) (issueOf u own s c).iid a = kOpnd s c a := rfl

/-- mov from a uniform register (R218). -/
theorem movBroadcast_does (d : VReg) (a : KReg) (st : Stall) (s : State) (c : Cur)
    (h : Issuing { vdst := some (d, 1), ksrc := [(a, 1)] } noOwn s c) : ∃ t, exec (.movBroadcast d a st) s = .next t ∧
      VecDone { vdst := some (d, 1), ksrc := [(a, 1)] } noOwn s c (fun _ => one (kOpnd s c a)) t := by
  change ∃ t, execMovBroadcast d a st s = .next t ∧ _
  unfold execMovBroadcast
  refine vec_issue (sh := { uses := { vdst := some (d, 1), ksrc := [(a, 1)] }, lat := 4, memo := false }) (fun _ => kOpnd s c a)
    h rfl rfl rfl ?_
  simp only [vecResult, outFlags_one, body_grp, kval_body]
  rfl

/-! ## Predicates as bits (R218) -/

/-- The word of a lane's predicates. -/
def predBits (p : Nat → Bool) : Word := (List.range 12).foldl (fun w n => if p n then w ||| BitVec.ofNat 32 (2 ^ n) else w) 0#32

theorem getLsbD_setBits (p : Nat → Bool) (i : Nat) : ∀ n, n ≤ 32 →
    ((List.range n).foldl (fun w k => if p k then w ||| BitVec.ofNat 32 (2 ^ k) else w) 0#32).getLsbD i = (decide (i < n) && p i)
  | 0, _ => by simp
  | n + 1, hn => by
    have bit : (BitVec.ofNat 32 (2 ^ n)).getLsbD i = decide (n = i) := by
      rw [BitVec.getLsbD_ofNat, Nat.testBit_two_pow, Bool.eq_iff_iff]
      simp
      omega
    have low := getLsbD_setBits p i n (by omega)
    rw [List.range_succ, List.foldl_append, List.foldl_cons, List.foldl_nil]
    by_cases hi : n = i
    · subst hi
      split <;> simp_all
    · have lt : decide (i < n + 1) = decide (i < n) := by simp; omega
      rw [lt, ← low]
      split
      · rw [BitVec.getLsbD_or, bit]
        simp [hi]
      · rfl

theorem getLsbD_predBits (p : Nat → Bool) (i : Nat) : (predBits p).getLsbD i = (decide (i < 12) && p i) := getLsbD_setBits p i 12 (by decide)

/-- The predicates of a lane, as an instruction reads them. -/
def predsRead (s : State) (c : Cur) (L n : Nat) : Bool := ((s.issuer c).read (s.cycleOf c.core) s.fresh (.p L n)).getLsbD 0

theorem movPv_does (d : VReg) (st : Stall) (s : State) (c : Cur) (h : Issuing { vdst := some (d, 1), psrc := List.range 12 } noOwn s c) :
    ∃ t, exec (.movPv d st) s = .next t ∧
      VecDone { vdst := some (d, 1), psrc := List.range 12 } noOwn s c (fun L => one (predBits (predsRead s c L))) t := by
  change ∃ t, execMovPv d st s = .next t ∧ _
  unfold execMovPv
  refine vec_issue (sh := { uses := { vdst := some (d, 1), psrc := List.range 12 }, lat := 4, memo := false })
    (fun L => predBits (predsRead s c L)) h rfl rfl rfl ?_
  simp only [vecResult, outFlags_one, body_grp]
  rfl

/-- mov.vp writes each of a lane's predicates, each once. -/
theorem movVp_does (a : VReg) (st : Stall) : VecDoes (.movVp a st) { vsrc := [(a, 1)], pdst := List.range 12 } .main
    (fun v L => { preds := (List.range 12).map fun n => (n, (arg (v.args L) 0).getLsbD n) }) := by
  refine vecDoes_of { uses := { vsrc := [(a, 1)], pdst := List.range 12 }, lat := 4, memo := false }
    (fun v L => { preds := (List.range 12).map fun n => (n, (arg (v.args L) 0).getLsbD n) }) (fun _ => rfl) rfl rfl
    (fun _ _ _ _ e => nomatch e) (fun v L p hp => ?_)
  obtain ⟨n, hn, rfl⟩ := List.mem_map.1 hp
  refine ⟨List.mem_range.1 hn, fun q hq e => ?_⟩
  obtain ⟨m, -, rfl⟩ := List.mem_map.1 hq
  obtain rfl : m = n := e
  rfl

/-! ## Literals and uniform destinations (R218, R219) -/

theorem lit_does (d : VReg) (x : Word) (st : Stall) : VecDoes (.lit d x st) { vdst := some (d, 1) } .main (fun _ _ => one x) :=
  vecDoes_of { uses := { vdst := some (d, 1) }, lat := 4, memo := false } (fun _ _ => one x) (fun _ => rfl) rfl rfl
    (fun _ _ _ _ e _ => congrArg Prod.snd (Option.some.inj e)) (fun _ _ _ hp => absurd hp List.not_mem_nil)

/-- One uniform register, or one uniform predicate that exists. -/
theorem uniformWrites_one {key : RegKey} {x : Word} (h : (∃ n, key = .k n) ∨ ∃ n, key = .kp n ∧ n < 4) : uniformWrites [(key, x)] := by
  intro w hw
  obtain rfl := List.mem_singleton.1 hw
  exact ⟨h, fun y hy _ => by rw [List.mem_singleton.1 hy]⟩

theorem klit_writes (d : KReg) (x : Word) (st : Stall) :
    Writes (.klit d x st) {} false (fun s c => [(kKey (s.issuer c) d, x)]) noFlags := fun _ _ h =>
  uniOp_next h 2 st (fun _ G _ => { writes := kWrite G d x }) _ rfl (uniformWrites_one (.inl ⟨_, rfl⟩))

theorem movKp_writes (d : BitVec 7) (a : KReg) (st : Stall) (hd : d.toNat < 4) : Writes (.movKp d a st) { ksrc := [(a, 1)] } false
    (fun s c => [(.kp d.toNat, Word.ofBool ((kOpnd s c a).getLsbD 0))]) noFlags := fun _ _ h =>
  uniOp_next h 4 st (fun k _ _ => { writes := [(.kp d.toNat, k a 0)] }) _ rfl (uniformWrites_one (.inr ⟨_, rfl, hd⟩))

/-- A body that only writes registers, of an instruction with causes and waits of its own. -/
theorem wrote_issue {u : Uses} {own : Own} {s : State} {c : Cur} {ws : List (RegKey × Word)} {st : Stall} {lat : Lat}
    {extra : State → Issue → Nat → Option Cause} {ready : State → Issue → Option Reason} {body : State → Issue → Result} (h : Issuing u own s c)
    (hx : extra s ⟨c, acting s c, [], s.fresh, s.cycleOf c.core⟩ = own)
    (hm : ready { s with fresh := s.fresh + 1 } (mayIssue u own s c) = none)
    (hr : ready { s with fresh := s.fresh + 1 } (issueOf u own s c) = none)
    (hb : body (startState u s c) (issueOf u own s c) = { s := startState u s c, writes := ws, lat := lat })
    (hk : ws.map (fun w => (w.1, w.1.keep w.2)) = ws) (hw : uniformWrites ws) :
    ∃ t, issueWith u st extra ready body s = .next t ∧ Wrote u own s c false ws 0#5 t := by
  refine ⟨_, issueWith_eq h st extra ready body hx hm hr, ?_⟩
  rw [hb]
  have only : WritesOnly u own s c ws 0#5 { s := startState u s c, writes := ws, lat := lat } :=
    ⟨UnitsOnly.refl _, hk, rfl, rfl, rfl, rfl, rfl, uniform_ok hw, uniform_lanes hw⟩
  exact wrote_endOf h only st false (fun _ => rfl) fun x hx => uniform_not_zeroed ((hw x hx).1.imp_right fun ⟨n, hn, _⟩ => ⟨n, hn⟩)

/-- mov from the lowest counted lane (R190, R218). -/
theorem movToUniform_writes (d : KReg) (a : VReg) (st : Stall) (s : State) (c : Cur) :
    let u : Uses := { vsrc := [(a, 1)], remote := true }
    Issuing u (lowestOwn a s c) s c → movBad a s (mayIssue u (lowestOwn a s c) s c) = none →
    movBad a s (issueOf u (lowestOwn a s c) s c) = none → ∃ t, exec (.movToUniform d a st) s = .next t ∧
      Wrote u (lowestOwn a s c) s c false [(kKey (s.issuer c) d, match countedLanes u (lowestOwn a s c) s c with
        | L :: _ => arg (opnds u (lowestOwn a s c) s c L) 0
        | [] => 0#32)] 0#5 t := by
  intro u h may good
  change ∃ t, execMovToUniform d a st s = .next t ∧ _
  unfold execMovToUniform
  refine wrote_issue (lat := .fixed 4) h rfl may good ?_ rfl (uniformWrites_one (.inl ⟨_, rfl⟩))
  simp only [body_grp, start_A]
  rfl

/-- Settles O6: the six functions of mov and the two literals, each one vector operation or one write of a uniform register. -/
theorem movesAndLiterals : Obligations.MovesAndLiterals := by
  unfold Obligations.MovesAndLiterals
  refine ⟨fun d a st => int1_does (fun x => x) (fun _ => rfl) fun _ => rfl, lit_does, klit_writes, movBroadcast_does, movToUniform_writes,
    fun d st s c h => ?_, movVp_does, movKp_writes⟩
  obtain ⟨t, ht, done⟩ := movPv_does d st s c h
  exact ⟨t, ht, fun L => predBits (predsRead s c L), done, fun L i => getLsbD_predBits (predsRead s c L) i⟩

end Sys2Proof.Machine
end

section
/-! LEMMAS AND PROOFS. What a floating-point compare finds (O13): a NaN, or the order of two numbers. -/

namespace Sys2Proof.Machine

section
variable {f : Fmt} {e : Env} {x y : Nat} {lt eq : Bool}

/-- What a compare of two numbers answers under each condition, by whether the first is less and whether they are equal (R63). -/
def Finds (f : Fmt) (e : Env) (x y : Nat) (lt eq : Bool) : Prop :=
  (fcmp f e .lt x y).1 = lt ∧ (fcmp f e .eq x y).1 = eq ∧ (fcmp f e .ne x y).1 = !eq ∧ (fcmp f e .le x y).1 = (lt || eq) ∧
    (fcmp f e .gt x y).1 = !(lt || eq) ∧ (fcmp f e .ge x y).1 = !lt ∧ (fcmp f e .un x y).1 = false

theorem fcmp_flags (c : Cond) : (fcmp f e c x y).2 = fIf ((operand f e x).sig || (operand f e y).sig) fIo := by
  unfold fcmp
  simp only []
  split <;> rfl

/-- Beside a NaN only ne and un hold. -/
theorem fcmp_nan (h : (operand f e x).isNan = true ∨ (operand f e y).isNan = true) (c : Cond) :
    (fcmp f e c x y).1 = (c == .ne || c == .un) :=
  congrArg Prod.fst (if_pos (Bool.or_eq_true_iff.2 h))

/-- Of two numbers the compare finds what the tests of their order say. -/
theorem finds_of (hx : (operand f e x).isNan = false) (hy : (operand f e y).isNan = false)
    (hlt : ltV false (operand f e x) (operand f e y) = lt) (hgt : ltV false (operand f e y) (operand f e x) = !(lt || eq))
    (one : (lt && eq) = false) : Finds f e x y lt eq := by
  have num : ¬ ((operand f e x).isNan || (operand f e y).isNan) = true := by simp [hx, hy]
  have out (c : Cond) : (fcmp f e c x y).1 = _ := congrArg Prod.fst (if_neg num)
  unfold operand at hlt hgt
  simp only [Finds, out, hlt, hgt]
  clear hlt hgt
  revert lt eq
  decide

/-- Two finite numbers are ordered as in any unit that divides both. -/
theorem ltV_fin {na nb : Bool} {ma mb : Nat} {ea eb q : Int} (ha : q ≤ ea) (hb : q ≤ eb) :
    ltV false (.fin na ma ea) (.fin nb mb eb) = decide (toUnits na ma ea q < toUnits nb mb eb q) := by
  have units := (toUnits_lt_iff (na := na) (nb := nb) (ma := ma) (mb := mb) (le_min ha hb) (min_le_left ..) (min_le_right ..)).1
  simp [ltV, units]

theorem finds_fin {na nb : Bool} {ma mb : Nat} {ea eb q : Int} (hx : operand f e x = .fin na ma ea) (hy : operand f e y = .fin nb mb eb)
    (ha : q ≤ ea) (hb : q ≤ eb) :
    Finds f e x y (decide (toUnits na ma ea q < toUnits nb mb eb q)) (decide (toUnits na ma ea q = toUnits nb mb eb q)) := by
  refine finds_of (by rw [hx]; rfl) (by rw [hy]; rfl) (by rw [hx, hy, ltV_fin ha hb]) ?_ ?_
  · rw [hx, hy, ltV_fin hb ha, Bool.eq_iff_iff]
    simp only [decide_eq_true_eq, Bool.not_eq_true', Bool.or_eq_false_iff, decide_eq_false_iff_not]
    omega
  · simp only [Bool.and_eq_false_iff, decide_eq_false_iff_not]
    omega

/-- Below every other number: −∞, and what stands beside +∞. -/
theorem ltV_inf {a b : FVal} (h : a = .inf true ∨ b = .inf false) (ha : a.isNan = false) (hb : b.isNan = false) (hne : a ≠ b) :
    ltV false a b = true ∧ ltV false b a = false := by
  rcases h with rfl | rfl
  · cases b with
    | nan => cases hb
    | inf n => cases n <;> simp_all [ltV]
    | fin => exact ⟨rfl, rfl⟩
  · cases a with
    | nan => cases ha
    | inf n => cases n <;> simp_all [ltV]
    | fin => exact ⟨rfl, rfl⟩

end

/-- Settles O13: a NaN decides alone; finite numbers are compared in any unit that divides both; infinities stand outside all numbers. -/
theorem floatCompareRules : Obligations.FloatCompareRules := by
  unfold Obligations.FloatCompareRules
  intro f e x y
  refine ⟨fun nan => ⟨fun c hc => ?_, fcmp_nan nan .ne, fcmp_nan nan .un⟩, fcmp_flags, ?_, ?_, ?_, ?_⟩
  · rcases hc with rfl | rfl | rfl | rfl | rfl <;> exact fcmp_nan nan _
  · exact fun na ma ea nb mb eb hx hy q ha hb => finds_fin hx hy ha hb
  · exact fun n hx hy => finds_of (by rw [hx]; rfl) (by rw [hy]; rfl) (by rw [hx, hy]; cases n <;> rfl) (by rw [hx, hy]; cases n <;> rfl) rfl
  · intro h hx hy hne
    obtain ⟨hlt, hgt⟩ := ltV_inf h hx hy hne
    exact finds_of hx hy hlt hgt rfl
  · intro h hx hy hne
    obtain ⟨hlt, hgt⟩ := ltV_inf h.symm hy hx hne.symm
    exact finds_of hx hy hgt hlt rfl

end Sys2Proof.Machine
end

section
/-! LEMMAS AND PROOFS. nop, guard, win, wink and yield (O27). -/

namespace Sys2Proof.Machine

/-- nop leaves everything as it is (R72). -/
theorem nop_leaves (st : Stall) : Leaves (.nop st) {} (fun _ _ => noOwn) fun _ _ => {} := by
  intro s c h
  change ∃ t, execNop st s = .next t ∧ _
  unfold execNop
  exact leaves_still h rfl rfl (keeps_still h rfl rfl rfl (by simp) (by simp) rfl (by simp) (by simp) (by simp) rfl)

/-- The selector's value, as the body of guard computes it. -/
theorem selVal_start (u : Uses) (own : Own) (s : State) (c : Cur) (sel : Sel) (L : Nat) :
    selVal (startState u s c) (issueOf u own s c) sel L = selOf s c sel L := by
  unfold selVal selOf predOf
  rw [start_grp]
  rfl

/-- guard opens a window in every executing lane (R154). -/
theorem guard_leaves (sel : Sel) (n : BitVec 4) (st : Stall) : Leaves (.guard sel n st) (Sel.uses sel) (fun _ _ => noOwn) fun s c =>
    { guard := fun L => some (selOf s c sel L, n.toNat) } := by
  intro s c h
  change ∃ t, execGuard sel n st s = .next t ∧ _
  unfold execGuard
  refine leaves_still h rfl rfl (keeps_still h rfl rfl rfl (by simp) (by simp) rfl (by simp) (fun L => ?_) (by simp) rfl)
  simp only [selVal_start]
  exact find_pairs ..

/-- A body whose group is the effect's, its lanes changed as the effect says, and which does nothing else. -/
theorem keeps_group {u : Uses} {own : Own} {s : State} {c : Cur} {e : Eff} {r : Result} (h : Issuing u own s c) (G : Group)
    (hr : r = { s := (startState u s c).setGrp c.blk c.grp G }) (he : e = { lane := e.lane, grp := e.grp })
    (hg : G = { e.grp (s.issuer c) with lanes := G.lanes })
    (hregs : (e.grp (s.issuer c)).k = (s.issuer c).k ∧ (e.grp (s.issuer c)).kp = (s.issuer c).kp ∧ (e.grp (s.issuer c)).fpsr = (s.issuer c).fpsr)
    (hl : ∀ L, G.lane L = if L ∈ runs u own s c then e.lane L (s.lane c L) else s.lane c L)
    (hbase : ∀ L, e.lane L (s.lane c L) = { s.lane c L with base := (e.lane L (s.lane c L)).base }) : Keeps u own s c e r := by
  subst hr
  obtain ⟨h1, h2, h3⟩ := hregs
  refine keeps_of_group h rfl hg h1 h2 h3 hl (fun L _ => ?_) (by simp) (by simp) (by rw [he]) (by rw [he]; simp) (by rw [he]; simp)
    (by rw [he]; simp) rfl
  rw [hbase L]
  exact ⟨rfl, rfl, rfl, rfl, rfl⟩

/-- win sets every executing lane's base (R158). -/
theorem win_leaves (b : BitVec 7) (st : Stall) :
    Leaves (.win b st) {} (fun s c _ => if (s.blk c.blk).A ≤ 8 * b.toNat then some (mkCause c 3) else none) fun _ _ =>
      { lane := fun _ l => { l with base := l.low + 8 * (b.toNat : Int) } } := by
  intro s c h
  change ∃ t, execWin b st s = .next t ∧ _
  unfold execWin
  rw [Nat.mul_comm]
  obtain ⟨hlane, hrest⟩ := fold_setLane (fun _ l => { l with base := l.low + (8 * b.toNat : Nat) }) (runs {} _ s c) (s.issuer c) (runs_nodup h)
  exact leaves_issue h rfl _ rfl (keeps_group h _ rfl rfl (by rw [start_grp]; exact hrest) ⟨rfl, rfl, rfl⟩
    (fun L => by rw [start_grp]; exact hlane L) fun _ => rfl)

/-- wink sets the group's uniform base (R162). -/
theorem wink_leaves (b : BitVec 7) (st : Stall) : Leaves (.wink b st) {} (fun _ _ => noOwn) fun _ _ =>
    { grp := fun G => { G with ubase := 32 * b.toNat } } := by
  intro s c h
  change ∃ t, execWink b st s = .next t ∧ _
  unfold execWink
  rw [Nat.mul_comm]
  exact leaves_issue h rfl _ rfl (keeps_group h _ rfl rfl (by rw [start_grp]) ⟨rfl, rfl, rfl⟩
    (fun L => by rw [start_grp]; exact (ite_self _).symm) fun _ => rfl)

/-- The PCs of a round after yield: of the other active lanes, each once, in rising order (R164). -/
def yieldRound (s : State) (c : Cur) : List Nat :=
  (((s.issuer c).full.filter fun L => ((s.issuer c).lane L).issuable && !c.run.contains L).map fun L => ((s.issuer c).lane L).pc).sortUp.eraseDups

theorem mem_yieldRound {s : State} {c : Cur} {pc : Nat} :
    pc ∈ yieldRound s c ↔ ∃ L, L < 32 ∧ L ∉ c.run ∧ (s.lane c L).status = .active ∧ (s.lane c L).pc = pc := by
  rw [yieldRound, mem_sortUp_eraseDups]
  simp only [List.mem_map, List.mem_filter, Group.full, List.mem_range, Lane.issuable, bne_iff_ne, Bool.and_eq_true, beq_iff_eq,
    Bool.not_eq_true', List.contains_eq_mem, decide_eq_false_iff_not]
  constructor
  · rintro ⟨L, ⟨⟨hL, -⟩, hact, hrun⟩, hpc⟩
    exact ⟨L, hL, hrun, hact, hpc⟩
  · rintro ⟨L, hL, hrun, hact, hpc⟩
    refine ⟨L, ⟨⟨hL, fun habs => ?_⟩, hact, hrun⟩, hpc⟩
    have : (s.lane c L).status = .absent := habs
    rw [hact] at this
    cases this

/-- yield ends the streak, and a round over the other lanes' PCs begins (R164). -/
theorem yield_leaves (st : Stall) : Leaves (.yield st) {} (fun _ _ => noOwn) fun s c =>
    { grp := fun G => { G with streak := 0, round := yieldRound s c } } := by
  intro s c h
  change ∃ t, execYield st s = .next t ∧ _
  unfold execYield
  exact leaves_issue h rfl _ rfl (keeps_group h _ rfl rfl (by rw [start_grp]; rfl) ⟨rfl, rfl, rfl⟩
    (fun L => by rw [start_grp]; exact (ite_self _).symm) fun _ => rfl)

/-- Settles O27: each of the five changes its own group alone; the round of yield is read off the group it leaves. -/
theorem windowsAndGuards : Obligations.WindowsAndGuards := by
  unfold Obligations.WindowsAndGuards
  refine ⟨nop_leaves, guard_leaves, fun b st => ⟨win_leaves b st, wink_leaves b st⟩, fun st s c h => ?_⟩
  obtain ⟨t, ht, issued, block, only⟩ := yield_leaves st s c h
  have round : (t.issuer c).round = yieldRound s c := by rw [issued.group]
  exact ⟨t, ht, by rw [round]; exact issued, round ▸ pairwise_lt_sortUp_eraseDups _, fun pc => round ▸ mem_yieldRound, block, only⟩

end Sys2Proof.Machine
end

section
/-! LEMMAS AND PROOFS. The worked encodings and the reset state (O57, O59). -/

namespace Sys2Proof.Machine

/-- Settles O57: each worked word is decoded by evaluation. -/
theorem decodedWords : Obligations.DecodedWords := by
  unfold Obligations.DecodedWords
  exact ⟨rfl, rfl, rfl, rfl, rfl, rfl, rfl, rfl, rfl, rfl, rfl, rfl, rfl⟩

/-- The elimination of R388 finds a pivot in every column of the default matrix, whose fixed rows are as R388 has them. -/
theorem defaultMap_permutes :
    gfInvertible ((List.range 40).map defaultRow) = true ∧ fixedRows ((List.range 40).map defaultRow) = true := by decide +kernel

/-- A context as CTX_CREATE leaves its registers (R100). -/
theorem ctx_created : ({} : Ctx).sbchk = 0#32 ∧ ({} : Ctx).trapvec = 0#64 ∧ ({} : Ctx).wdog = 0#32 ∧ ({} : Ctx).quantum = 1000#32 ∧
    ({} : Ctx).pintmo = 1000000#32 ∧ ({} : Ctx).accthr = 256#32 ∧ ({} : Ctx).acttmo = 10000000#32 := ⟨rfl, rfl, rfl, rfl, rfl, rfl, rfl⟩

/-- Settles O59: memory and every table stand empty, so a part that they do not list reads as its default; the rest are fields. -/
theorem resetValues : Obligations.ResetValues := by
  unfold Obligations.ResetValues
  exact ⟨reset_wf, reset_wf, rfl, rfl, rfl, rfl, rfl, fun _ => rfl, fun _ => rfl, fun _ => rfl, fun _ => rfl, rfl, rfl, rfl, fun _ => rfl,
    rfl, rfl, rfl, rfl, rfl, rfl, rfl, ctx_created, defaultMap_permutes⟩

end Sys2Proof.Machine
end

section
/-! LEMMAS AND PROOFS. Special registers and CSRs (O21-O24). -/

namespace Sys2Proof.Machine

/-! ## Uses that are ILLEGAL whatever the sources hold (R99, R106) -/

section
variable {bad : State → Cur → Bool} {k : State → Res} {s : State} {c : Cur}

theorem orIllegal_parks (hc : s.cur = some c) (hb : bad s c = true) (st : Stall) :
    orIllegal bad st k s = .next (parkedAll (fun _ => some (mkCause c 1)) st s c) := by
  simp only [orIllegal, hc, hb, if_true]
  exact issueWith_parksAll hc st _ _ rfl fun _ => rfl

theorem orIllegal_legal (hc : s.cur = some c) (hb : bad s c = false) (st : Stall) : orIllegal bad st k s = k s := by
  simp only [orIllegal, hc, hb, Bool.false_eq_true, if_false]

end

theorem parkedAll_parks {s : State} {c : Cur} (hn : c.run.Nodup) (st : Stall) (x : Cause) {L : Nat} (hL : L ∈ acting s c)
    (hh : (s.lane c L).helper = false) :
    (parkedAll (fun _ => some x) st s c).lane c L = { s.lane c L with status := .parked, cause := x } := by
  rw [parkedAll_lane hn, if_pos (mem_acting.mp hL).1, laneAfter, find_parks_some hL (laneCause_noUses ..) hh]
  rfl

theorem exec_csrr (d : KReg) (csr : BitVec 16) (st : Stall) (s : State) : exec (.csrr d csr st) s = execCsrr d csr st s := rfl
theorem exec_csrw (csr : BitVec 16) (a : KReg) (st : Stall) (s : State) : exec (.csrw csr a st) s = execCsrw csr a st s := rfl
theorem exec_sread (fn : SreadFn) (d : KReg) (st : Stall) (s : State) : exec (.sread fn d st) s = execSread fn d st s := rfl

/-- Settles O24: both instructions ask `orIllegal` first, and it parks every acting lane. -/
theorem csrIllegal : Obligations.CsrIllegal := by
  unfold Obligations.CsrIllegal
  intro csr k st s c hc hn illegal
  rw [exec_csrr, exec_csrw, execCsrr, execCsrw, orIllegal_parks hc illegal, orIllegal_parks hc illegal]
  exact ⟨⟨_, rfl, fun _ => parkedAll_parks hn st _⟩, _, rfl, fun _ => parkedAll_parks hn st _⟩

/-! ## Instructions that write uniform registers and change a field of their group -/

/-- A change of a group that leaves its lanes, registers and flags. -/
def KeepsRegs (f : Group → Group) : Prop := 
  ∀ G, (f G).lanes = G.lanes ∧ (f G).k = G.k ∧ (f G).kp = G.kp ∧ (f G).fpsr = G.fpsr

section
variable {u : Uses} {own : Own} {s : State} {c : Cur} {f : Group → Group} {ws : List (RegKey × Word)} {r : Result}

theorem keeps_grpWrites (h : Issuing u own s c) (hf : KeepsRegs f) (hw : uniformWrites ws)
    (hr : r = { s := (startState u s c).setGrp c.blk c.grp (f (s.issuer c)), lat := .var, writes := ws }) :
    Keeps u own s c { keys := ws.map (·.1), grp := f } r := by
  subst hr
  obtain ⟨lanes, k, kp, fpsr⟩ := hf (s.issuer c)
  have lane (L : Nat) : (f (s.issuer c)).lane L = s.lane c L := congrArg (fun m => mget ({} : Lane) m L) lanes
  exact keeps_of_group h rfl rfl k kp fpsr (fun L => by rw [ite_self]; exact lane L) (fun _ _ => ⟨rfl, rfl, rfl, rfl, rfl⟩)
    (fun w hm => ⟨List.mem_map_of_mem hm, (uniform_ok hw w hm).1⟩) (uniform_lanes hw) rfl (by simp) (by simp) (by simp) rfl

/-- Such an instruction, once it is ready. -/
theorem grpWrites_next (h : Issuing {} noOwn s c) (st : Stall) {ready : State → Issue → Option Reason} {body : State → Issue → Result}
    (hm : ready { s with fresh := s.fresh + 1 } (mayIssue {} noOwn s c) = none)
    (hi : ready { s with fresh := s.fresh + 1 } (issueOf {} noOwn s c) = none) (hf : KeepsRegs f) (hw : uniformWrites ws)
    (hb : body (startState {} s c) (issueOf {} noOwn s c) =
      { s := (startState {} s c).setGrp c.blk c.grp (f (s.issuer c)), lat := .var, writes := ws }) :
    ∃ t, issueWith {} st noCause ready body s = .next t ∧ Issued {} noOwn s c { keys := ws.map (·.1), grp := f } t ∧
      (∀ w ∈ ws, t.reg c w.1 = w.1.keep w.2) ∧ BlockKept s c t ∧ OnlyBlocks s t := by
  have keeps := keeps_grpWrites h hf hw hb
  refine ⟨_, issueWith_eq h st noCause ready body rfl hm hi, issued_of_keeps h keeps st, fun w hm => ?_,
    blockKept_group st (congrArg Result.s hb), onlyBlocks_group st (congrArg Result.s hb)⟩
  refine endOf_written h keeps st w.1 w.2 (uniform_not_zeroed ((hw w hm).1.imp_right fun ⟨n, hn, _⟩ => ⟨n, hn⟩)) ?_ ?_
  · rw [hb]
    exact fun x hx e => (hw w hm).2 x hx e
  · rw [hb]
    exact ⟨w, hm, rfl⟩

end

theorem uniformWrites_kWrite (G : Group) (d : KReg) (v : Word) : uniformWrites (kWrite G d v) := by
  intro w hw
  obtain rfl := List.mem_singleton.mp hw
  exact ⟨.inl ⟨_, rfl⟩, fun x hx _ => by rw [List.mem_singleton.mp hx]⟩

theorem kKey_pair_ne (G : Group) (d : KReg) : kKey G d 1 ≠ kKey G d := by
  simp only [kKey, kIdx, ne_eq, RegKey.k.injEq]
  omega

theorem uniformWrites_kWrite2 (G : Group) (d : KReg) (v : DWord) : uniformWrites (kWrite2 G d v) := by
  have ne := kKey_pair_ne G d
  intro w hw
  simp only [kWrite2, List.mem_cons, List.not_mem_nil, or_false] at hw ⊢
  rcases hw with rfl | rfl
  · exact ⟨.inl ⟨_, rfl⟩, by rintro x (rfl | rfl) e <;> [rfl; exact absurd e ne]⟩
  · exact ⟨.inl ⟨_, rfl⟩, by rintro x (rfl | rfl) e <;> [exact absurd e.symm ne; rfl]⟩

/-! ## csrr (R104, R105) -/

theorem csrValue_start (u : Uses) (s : State) (c : Cur) (n : Nat) :
    (startState u s c).csrValue c.blk c.grp n = s.csrValue c.blk c.grp n := by
  have hg : (startState u s c).grp c.blk c.grp = s.grp c.blk c.grp := startState_issuer u s c
  unfold State.csrValue
  rw [hg, startState_blk]
  rfl

theorem csrWait_none {s : State} {i : Issue} (h : s.allComplete i.c.blk i.c.grp i.now = true) : csrWait s i = none := by
  rw [csrWait, if_pos h]

/-- What csrr returns: the half that the group has latched, or the half that the number names (R105). -/
def csrrWord (s : State) (c : Cur) (n : Nat) : Word :=
  ((s.issuer c).latch.bind fun x => if x.1 = n then some x.2 else none).getD (csrPart n (s.csrValue c.blk c.grp n))

theorem csrrWord_latched {s : State} {c : Cur} {n : Nat} {w : Word} (h : (s.issuer c).latch = some (n, w)) : csrrWord s c n = w := by
  simp [csrrWord, h]

theorem csrrWord_fresh {s : State} {c : Cur} {n : Nat} (h : ∀ w, (s.issuer c).latch ≠ some (n, w)) :
    csrrWord s c n = csrPart n (s.csrValue c.blk c.grp n) := by
  unfold csrrWord
  cases hl : (s.issuer c).latch with
  | none => rfl
  | some x =>
    have other : x.1 ≠ n := fun hn => h x.2 (hl.trans (by rw [← hn]))
    simp [other]

/-- A group after csrr of a number whose CSR holds v: an even half leaves the odd half latched, nothing stays buffered (R105). -/
def latchHalf (n v : Nat) (G : Group) : Group :=
  { G with wbuf := none, latch := if csrWide n then some (n + 1, BitVec.ofNat 32 (v / 2 ^ 32)) else none }

theorem csrr_next {d : KReg} {csr : BitVec 16} (st : Stall) {s : State} {c : Cur} (h : Issuing {} noOwn s c)
    (legal : s.csrIllegal c.blk csr.toNat = false) (complete : s.allComplete c.blk c.grp (s.cycleOf c.core) = true) :
    ∃ t, exec (.csrr d csr st) s = .next t ∧
      Issued {} noOwn s c { keys := [kKey (s.issuer c) d], grp := latchHalf csr.toNat (s.csrValue c.blk c.grp csr.toNat) } t ∧
      t.reg c (kKey (s.issuer c) d) = csrrWord s c csr.toNat ∧ BlockKept s c t ∧ OnlyBlocks s t := by
  rw [exec_csrr, execCsrr, orIllegal_legal h.cur legal]
  refine Exists.imp (fun t p => ⟨p.1, p.2.1, p.2.2.1 _ (List.mem_singleton_self _), p.2.2.2⟩)
    (grpWrites_next h st (csrWait_none complete) (csrWait_none complete) (ws := kWrite (s.issuer c) d (csrrWord s c csr.toNat))
      (f := latchHalf csr.toNat (s.csrValue c.blk c.grp csr.toNat)) (fun _ => ⟨rfl, rfl, rfl, rfl⟩) (uniformWrites_kWrite _ _ _) ?_)
  have hg : (startState {} s c).grp c.blk c.grp = s.issuer c := startState_issuer {} s c
  dsimp only [issueOf]
  rw [hg, csrValue_start, csrrWord]
  cases (s.issuer c).latch <;> rfl

/-- Settles O22: what the access returns is the latched half where one is held for it, else the value's own, and the latch is read off beside it. -/
theorem csrReads : Obligations.CsrReads := by
  unfold Obligations.CsrReads
  intro d csr st s c h legal complete
  obtain ⟨t, ht, issued, val, block, only⟩ := csrr_next (d := d) st h legal complete
  refine ⟨t, ht, issued, fun w hw => val.trans (csrrWord_latched hw), fun hw => ?_, block, only⟩
  rw [val, csrrWord_fresh hw, csrPart, apply_ite (BitVec.ofNat 32)]

/-! ## sread (R112) -/

theorem sreadVal_start (u : Uses) (own : Own) (s : State) (c : Cur) (fn : SreadFn) :
    (startState u s c).sreadVal (issueOf u own s c) fn = s.sreadVal (issueOf u own s c) fn := by
  have hb : (startState u s c).blk (issueOf u own s c).c.blk = { s.blk c.blk with ports := (popPorts (s.blk c.blk).ports u.pops).2 } :=
    startState_blk u s c
  unfold State.sreadVal
  rw [hb]
  cases fn <;> rfl

/-- The registers that sread writes: a pair for the 64-bit values. -/
def sreadWrites (G : Group) (d : KReg) (fn : SreadFn) (v : Nat) : List (RegKey × Word) :=
  if fn.pair then kWrite2 G d (BitVec.ofNat 64 v) else kWrite G d (BitVec.ofNat 32 v)

theorem uniformWrites_sread (G : Group) (d : KReg) (fn : SreadFn) (v : Nat) : uniformWrites (sreadWrites G d fn v) := by
  unfold sreadWrites
  split
  · exact uniformWrites_kWrite2 _ _ _
  · exact uniformWrites_kWrite _ _ _

theorem sreadWrites_keep {G : Group} {d : KReg} {fn : SreadFn} {v : Nat} (w : RegKey × Word) (hw : w ∈ sreadWrites G d fn v) :
    w.1.keep w.2 = w.2 := by
  unfold sreadWrites kWrite2 kWrite at hw
  split at hw <;> simp only [List.mem_cons, List.not_mem_nil, or_false] at hw
  · rcases hw with rfl | rfl <;> rfl
  · rw [hw]
    rfl

theorem pair_iff (fn : SreadFn) : fn.pair = true ↔ fn = .tick ∨ fn = .frame ∨ fn = .join := by cases fn <;> simp [SreadFn.pair]

theorem lo_ofNat (v : Nat) : DWord.lo (BitVec.ofNat 64 v) = BitVec.ofNat 32 v := by
  apply BitVec.eq_of_toNat_eq
  simp only [DWord.lo, BitVec.toNat_setWidth, BitVec.toNat_ofNat]
  omega

theorem hi_ofNat (v : Nat) : DWord.hi (BitVec.ofNat 64 v) = BitVec.ofNat 32 (v / 2 ^ 32) := by
  apply BitVec.eq_of_toNat_eq
  simp only [DWord.hi, BitVec.toNat_setWidth, BitVec.toNat_ushiftRight, BitVec.toNat_ofNat, Nat.shiftRight_eq_div_pow]
  omega

theorem low_mem_sreadWrites (G : Group) (d : KReg) (fn : SreadFn) (v : Nat) : (kKey G d, BitVec.ofNat 32 v) ∈ sreadWrites G d fn v := by
  unfold sreadWrites
  split
  · rw [kWrite2, lo_ofNat]
    exact List.mem_cons_self
  · exact List.mem_singleton_self _

theorem high_mem_sreadWrites (G : Group) (d : KReg) {fn : SreadFn} (h : fn.pair = true) (v : Nat) :
    (kKey G d 1, BitVec.ofNat 32 (v / 2 ^ 32)) ∈ sreadWrites G d fn v := by
  rw [sreadWrites, if_pos h, kWrite2, hi_ofNat]
  exact List.mem_cons_of_mem _ (List.mem_singleton_self _)

/-- A group after sread of v: the tick is the last it has read. -/
def seenTick (fn : SreadFn) (v : Nat) (G : Group) : Group := { G with tickSeen := if fn = .tick then v else G.tickSeen }

theorem seenTick_other {fn : SreadFn} (h : fn ≠ .tick) (v : Nat) : seenTick fn v = fun G => G := by
  funext G
  simp only [seenTick, if_neg h]

theorem sread_next (fn : SreadFn) (d : KReg) (st : Stall) {s : State} {c : Cur} (h : Issuing {} noOwn s c)
    (priv : fn = .island → (s.ctxOf c.blk).priv = true) :
    let v := s.sreadVal (issueOf {} noOwn s c) fn
    let ws := sreadWrites (s.issuer c) d fn v
    ∃ t, exec (.sread fn d st) s = .next t ∧ Issued {} noOwn s c { keys := ws.map (·.1), grp := seenTick fn v } t ∧
      (∀ w ∈ ws, t.reg c w.1 = w.1.keep w.2) ∧ BlockKept s c t ∧ OnlyBlocks s t := by
  have allowed : (fn == .island && !(s.ctxOf c.blk).priv) = false := by
    by_cases e : fn = .island <;> simp [e, priv]
  have hg : (startState {} s c).grp c.blk c.grp = s.issuer c := startState_issuer {} s c
  rw [exec_sread, execSread, orIllegal_legal h.cur allowed]
  by_cases tick : fn = .tick
  · subst tick
    refine grpWrites_next h st rfl rfl (fun _ => ⟨rfl, rfl, rfl, rfl⟩) (uniformWrites_sread _ _ _ _) ?_
    dsimp only
    rw [sreadVal_start]
    dsimp only [issueOf]
    rw [hg]
    rfl
  · intro v ws
    rw [seenTick_other tick]
    refine Exists.imp (fun t p => ⟨p.1, p.2.issued, fun w hw => ?_, p.2.block, p.2.alone rfl⟩) (uniform_next h st false _ (fun r hr => ?_)
      (uniformWrites_sread (s.issuer c) d fn v))
    · rw [p.2.vals w hw, sreadWrites_keep w hw]
    · have still : r.s = startState {} s c := by
        rw [← hr]
        exact if_neg (by simpa using tick)
      refine ⟨still ▸ UnitsOnly.refl _, fun _ => still, ?_, ?_, ?_, ?_, ?_, ?_⟩
      · rw [← hr]
        dsimp only
        rw [sreadVal_start, start_grp]
        exact (List.map_congr_left fun w hw => by rw [sreadWrites_keep w hw]; rfl).trans (List.map_id _)
      all_goals rw [← hr]

/-- R112: a tick that a core reads lies within the skew of R4 of the tick. -/
theorem tickAt_bounds (s : State) (unit : Nat) : s.tickAt unit ≤ s.tick + 8 ∧ s.tick ≤ s.tickAt unit + 8 := by
  unfold State.tickAt Config.skew
  omega

theorem testBit_maskOf (lanes : List Nat) (L : Nat) : (maskOf lanes).testBit L = true ↔ L ∈ lanes := by
  have fold (m : Nat) : (lanes.foldl (fun m L => m ||| 2 ^ L) m).testBit L = true ↔ m.testBit L = true ∨ L ∈ lanes := by
    induction lanes generalizing m with
    | nil => simp
    | cons M r ih =>
      rw [List.foldl_cons, ih, Nat.testBit_or, Nat.testBit_two_pow, Bool.or_eq_true, decide_eq_true_eq, List.mem_cons, or_assoc, eq_comm (a := M)]
  simpa [maskOf] using fold 0

theorem mem_present {G : Group} {L : Nat} : L ∈ G.present ↔ L < 32 ∧ (G.lane L).status ≠ .absent ∧ (G.lane L).helper = false := by
  simp only [Group.present, Group.full, List.mem_filter, List.mem_range, bne_iff_ne, ne_eq, Bool.not_eq_true', and_assoc]

theorem sreadVal_wbase {s : State} {i : Issue} {L : Nat} (hL : i.c.run.head? = some L)
    (hw : 0 ≤ (((s.blk i.c.blk).grp i.c.grp).lane L).w) :
    (s.sreadVal i .wbase : Int) = (((s.blk i.c.blk).grp i.c.grp).lane L).w := by
  have lowest : i.c.run.headD 0 = L := by rw [List.headD_eq_head?_getD, hL]; rfl
  simp only [State.sreadVal, lowest, if_neg (Int.not_lt.mpr hw), Int.toNat_of_nonneg hw]

/-- Settles O21: `sread` writes its registers and, for `tick`, the last tick seen; each value is read off its own case. -/
theorem specialReads : Obligations.SpecialReads := by
  unfold Obligations.SpecialReads
  refine ⟨fun fn d st s c h priv => ?_, fun s i => ?_⟩
  · obtain ⟨t, ht, issued, vals, block, only⟩ := sread_next fn d st h priv
    refine ⟨t, ht, ?_, ?_, fun pair => ?_, block, only⟩
    · refine cast (congrArg (fun ks => Issued {} noOwn s c { keys := ks, grp := _ } t) ?_) issued
      simp only [sreadWrites, pair_iff, apply_ite (List.map fun w : RegKey × Word => w.1)]
      rfl
    · exact vals _ (low_mem_sreadWrites ..)
    · exact vals _ (high_mem_sreadWrites _ _ ((pair_iff fn).mpr pair) _)
  · obtain ⟨above, below⟩ := tickAt_bounds s (128 + i.c.core)
    refine ⟨rfl, rfl, rfl, rfl, rfl, rfl, rfl, rfl, rfl, rfl, rfl, rfl, ?_, ?_, ?_, fun L => sreadVal_wbase, fun L hL => ?_, fun L => ?_⟩
    · exact max_le_max_right _ above
    · exact below.trans (Nat.add_le_add_right (Nat.le_max_left ..) _)
    · exact Nat.le_max_right ..
    · exact (testBit_maskOf _ L).trans (mem_present.trans (and_iff_right hL))
    · exact (testBit_maskOf _ L).trans (by simp [Group.acting])

end Sys2Proof.Machine
end

section
/-! LEMMAS AND PROOFS. csrw: what it takes and what it refuses (O23). -/

namespace Sys2Proof.Machine

/-! ## What a write leaves of the CSRs -/

theorem zerosOf_noDest {u : Uses} (own : Own) (s : State) (c : Cur) (hv : u.vdst = none) (hp : u.pdst = []) : zerosOf u own s c = [] := by
  simp [zerosOf, Uses.laneDests, hv, hp]

/-- The group's CSR fields and registers, and the CSRs of its context and of the device, stand, but for a half latched or buffered. -/
structure CsrsStand (c : Cur) (s t : State) : Prop where
  cur     : t.cur = s.cur
  fpcr    : (t.issuer c).fpcr = (s.issuer c).fpcr
  fpsr    : (t.issuer c).fpsr = (s.issuer c).fpsr
  stksave : (t.issuer c).stksave = (s.issuer c).stksave
  regs    : ∀ key, t.reg c key = s.reg c key
  ctx     : t.ctxOf c.blk = s.ctxOf c.blk
  device  : t.hretain = s.hretain
  mem     : t.mem = s.mem

section
variable {c : Cur} {s t r : State}

theorem CsrsStand.trans (a : CsrsStand c s r) (b : CsrsStand c r t) : CsrsStand c s t :=
  ⟨b.cur.trans a.cur, b.fpcr.trans a.fpcr, b.fpsr.trans a.fpsr, b.stksave.trans a.stksave, fun key => (b.regs key).trans (a.regs key),
    b.ctx.trans a.ctx, b.device.trans a.device, b.mem.trans a.mem⟩

theorem csrsStand_start (u : Uses) (s : State) (c : Cur) : CsrsStand c s (startState u s c) := by
  have issuer := startState_issuer u s c
  refine ⟨rfl, by rw [issuer], by rw [issuer], by rw [issuer], fun key => by rw [State.reg, issuer, State.reg], ?_, rfl, rfl⟩
  rw [State.ctxOf, startState_blk]
  rfl

/-- The group's latch and buffer alone change. -/
theorem csrsStand_setGrp (s : State) (c : Cur) (latch wbuf : Option (Nat × Word)) :
    CsrsStand c s (s.setGrp c.blk c.grp { s.issuer c with latch := latch, wbuf := wbuf }) := by
  refine ⟨rfl, by rw [setGrp_issuer], by rw [setGrp_issuer], by rw [setGrp_issuer], fun key => ?_, ?_, rfl, rfl⟩
  · rw [State.reg, setGrp_issuer]
    cases key <;> rfl
  · simp [State.ctxOf, State.setGrp]

theorem loseInterval_issuer (s : State) (c : Cur) : (s.loseInterval c.blk).issuer c = s.issuer c := (loseInterval_grp s c.blk).1 c.blk c.grp

theorem csrsStand_loseInterval (s : State) (c : Cur) : CsrsStand c s (s.loseInterval c.blk) := by
  have issuer := loseInterval_issuer s c
  have rest : (s.loseInterval c.blk).cur = s.cur ∧ (s.loseInterval c.blk).ctxOf c.blk = s.ctxOf c.blk ∧ (s.loseInterval c.blk).hretain = s.hretain := by
    unfold State.loseInterval
    dsimp only
    split
    · exact ⟨rfl, by simp [State.ctxOf, State.cirBlk], rfl⟩
    · exact ⟨rfl, rfl, rfl⟩
  obtain ⟨cur, ctx, device⟩ := rest
  exact ⟨cur, by rw [issuer], by rw [issuer], by rw [issuer], fun key => by rw [State.reg, issuer, State.reg], ctx, device, State.loseInterval_mem ..⟩

/-- The end of an issue that writes no register and raises no flag. -/
theorem csrsStand_finish (hn : c.run.Nodup) (iid : Nat) (st : Stall) {r : Result} (hw : r.writes = []) (hf : r.flags = 0#5)
    (parks : List (Nat × Cause)) : CsrsStand c r.s (finish c iid st none r parks) ∧
      ((finish c iid st none r parks).issuer c).wbuf = (r.s.issuer c).wbuf := by
  have group := (finish_issuer c iid st none r parks).trans ((stall_group ..).trans (by rw [endGroup_group _ _ _ _ _ _ hn]))
  refine ⟨⟨rfl, by rw [group], ?_, by rw [group], fun key => ?_, ?_, rfl, rfl⟩, by rw [group]⟩
  · rw [group]
    simp [orFpsr, hf]
  · rw [State.reg, finish_issuer, stall_getKey, endGroup_getKey _ _ _ _ _ _ hn, hw]
    rfl
  · rw [State.ctxOf, finish_blk]
    rfl

/-- A CSR's write changes no register and no memory. -/
theorem csrPut_keeps (s : State) (c : Cur) (n v : Nat) : (s.csrPut c.blk c.grp n v).cur = s.cur ∧
    (∀ key, (s.csrPut c.blk c.grp n v).reg c key = s.reg c key) ∧ (s.csrPut c.blk c.grp n v).mem = s.mem := by
  have grp (G : Group) (hl : G.lanes = (s.issuer c).lanes) (hk : G.k = (s.issuer c).k) (hp : G.kp = (s.issuer c).kp) (key : RegKey) :
      (s.setGrp c.blk c.grp G).reg c key = s.reg c key := by
    rw [State.reg, setGrp_issuer]
    cases key <;> simp only [State.reg, Group.getKey, Group.lane, hl, hk, hp]
  refine ⟨?_, fun key => ?_, State.csrPut_mem ..⟩
  · unfold State.csrPut
    dsimp only
    (repeat' split) <;> rfl
  · unfold State.csrPut
    dsimp only
    split
    case h_1 | h_2 | h_3 | h_4 | h_5 | h_6 => refine grp _ ?_ ?_ ?_ key <;> rfl
    case h_20 => split <;> rfl
    all_goals rfl

end

/-! ## The three fates of a csrw -/

/-- What csrw makes of the group before its write: the latch goes, and an even half is buffered (R105). -/
def csrHold (n : Nat) (w : Word) (c : Cur) (s : State) : State :=
  let t := s.setGrp c.blk c.grp { s.issuer c with latch := none, wbuf := if csrWide n then some (n + 1, w) else none }
  if csrGroup n then t else t.loseInterval c.blk

theorem csrsStand_hold (n : Nat) (w : Word) (c : Cur) (s : State) : CsrsStand c s (csrHold n w c s) ∧
    ((csrHold n w c s).issuer c).wbuf = if csrWide n then some (n + 1, w) else none := by
  have grp := csrsStand_setGrp s c none (if csrWide n then some (n + 1, w) else none)
  unfold csrHold
  dsimp only
  split
  · exact ⟨grp, by rw [setGrp_issuer]⟩
  · exact ⟨grp.trans (csrsStand_loseInterval ..), by rw [loseInterval_issuer, setGrp_issuer]⟩

/-- The use of csrw. -/
abbrev csrwUses (a : KReg) : Uses := { ksrc := [(a, 1)] }

/-- The state that a csrw's body starts from, with its half buffered. -/
def csrwHeld (s : State) (c : Cur) (a : KReg) (n : Nat) : State := csrHold n (kOpnd s c a) c (startState (csrwUses a) s c)

section
variable {csr : BitVec 16} {a : KReg} {s : State} {c : Cur}

/-- What a csrw does: an even half is buffered; a value that the CSR allows is put; another parks the run, and what the group had
buffered goes (R105, R106). -/
def csrwResult (csr : BitVec 16) (a : KReg) (s : State) (c : Cur) : Result :=
  let v := (startState (csrwUses a) s c).csrNew c.blk c.grp csr.toNat (kOpnd s c a)
  if csrWide csr.toNat then { s := csrwHeld s c a csr.toNat }
  else if (startState (csrwUses a) s c).csrAllows c.blk c.grp csr.toNat v
    then { s := (csrwHeld s c a csr.toNat).csrPut c.blk c.grp csr.toNat v }
  else { s := (startState (csrwUses a) s c).setGrp c.blk c.grp { s.issuer c with latch := none, wbuf := none }
         parks := (countedLanes (csrwUses a) noOwn s c).map fun L => (L, mkCause c 2) }

/-- The state after a csrw. -/
def csrwEnd (csr : BitVec 16) (a : KReg) (st : Stall) (s : State) (c : Cur) : State :=
  finish c s.fresh st none (csrwResult csr a s c) (parksOf (csrwUses a) noOwn s c)

theorem csrw_next (st : Stall) (h : Issuing (csrwUses a) noOwn s c) (legal : s.csrIllegal c.blk csr.toNat = false)
    (complete : s.allComplete c.blk c.grp (s.cycleOf c.core) = true) : exec (.csrw csr a st) s = .next (csrwEnd csr a st s c) := by
  rw [exec_csrw, execCsrw, orIllegal_legal h.cur legal,
    issueWith_eq h st noCause csrWait _ rfl (csrWait_none complete) (csrWait_none complete), zerosOf_noDest _ _ _ rfl rfl]
  refine congrArg (fun r => Host.Outcome.next (finish c s.fresh st none r (parksOf (csrwUses a) noOwn s c))) ?_
  have hg : (startState (csrwUses a) s c).grp c.blk c.grp = s.issuer c := startState_issuer _ s c
  have hw : kval (s.cycleOf c.core) (s.issuer c) s.fresh a = kOpnd s c a := rfl
  dsimp only [issueOf, Issue.real]
  dsimp only [csrwResult]
  rw [hg, hw, csrwHeld, csrHold, startState_issuer]
  by_cases wide : csrWide csr.toNat = true
  · simp only [if_pos wide]
    rfl
  · simp only [if_neg wide]
    split <;> rfl

theorem csrsStand_held (s : State) (c : Cur) (a : KReg) (n : Nat) : CsrsStand c s (csrwHeld s c a n) :=
  (csrsStand_start ..).trans (csrsStand_hold ..).1

/-- The issue adds nothing of its own to what a csrw does. -/
theorem csrwEnd_stand (hn : c.run.Nodup) (st : Stall) : CsrsStand c (csrwResult csr a s c).s (csrwEnd csr a st s c) ∧
    ((csrwEnd csr a st s c).issuer c).wbuf = ((csrwResult csr a s c).s.issuer c).wbuf := by
  have quiet : (csrwResult csr a s c).writes = [] ∧ (csrwResult csr a s c).flags = 0#5 := by
    dsimp only [csrwResult]
    (repeat' split) <;> exact ⟨rfl, rfl⟩
  exact csrsStand_finish hn s.fresh st quiet.1 quiet.2 _

theorem csrwEnd_buffers (hn : c.run.Nodup) (st : Stall) (wide : csrWide csr.toNat = true) : CsrsStand c s (csrwEnd csr a st s c) ∧
    ((csrwEnd csr a st s c).issuer c).wbuf = some (csr.toNat + 1, kOpnd s c a) := by
  have result : csrwResult csr a s c = { s := csrwHeld s c a csr.toNat } := if_pos wide
  obtain ⟨stand, wbuf⟩ := csrwEnd_stand (csr := csr) (a := a) (s := s) hn st
  rw [result] at stand wbuf
  exact ⟨(csrsStand_held s c a _).trans stand, wbuf.trans ((csrsStand_hold ..).2.trans (if_pos wide))⟩

theorem csrwEnd_puts (hn : c.run.Nodup) (st : Stall) {v : Nat} (hv : (startState (csrwUses a) s c).csrNew c.blk c.grp csr.toNat (kOpnd s c a) = v)
    (narrow : ¬ csrWide csr.toNat = true) (allowed : (startState (csrwUses a) s c).csrAllows c.blk c.grp csr.toNat v = true) :
    CsrsStand c ((csrwHeld s c a csr.toNat).csrPut c.blk c.grp csr.toNat v) (csrwEnd csr a st s c) := by
  have result : csrwResult csr a s c = { s := (csrwHeld s c a csr.toNat).csrPut c.blk c.grp csr.toNat v } := by
    dsimp only [csrwResult]
    rw [hv, if_neg narrow, if_pos allowed]
  have stand := (csrwEnd_stand (csr := csr) (a := a) (s := s) hn st).1
  rwa [result] at stand

/-- A lane that executes and is no helper has the cause that the body gives it. -/
theorem find_counted {u : Uses} {own : Own} {L : Nat} (hL : L ∈ runs u own s c) (hh : (s.lane c L).helper = false) (x : Cause) :
    ((parksOf u own s c ++ (countedLanes u own s c).map fun L => (L, x)).find? fun p => p.1 == L) = some (L, x) := by
  rw [List.find?_append, notParked L hL, Option.none_or]
  have counted : L ∈ countedLanes u own s c := List.mem_filter.mpr ⟨hL, by simp [hh]⟩
  have found := find_pairs (countedLanes u own s c) (fun _ => x) L
  rw [if_pos counted] at found
  obtain ⟨⟨M, y⟩, hp, hy⟩ := Option.map_eq_some_iff.mp found
  obtain rfl : M = L := by simpa using List.find?_some hp
  obtain rfl : y = x := hy
  exact hp

theorem csrwEnd_refuses (hn : c.run.Nodup) (st : Stall) {v : Nat} (hv : (startState (csrwUses a) s c).csrNew c.blk c.grp csr.toNat (kOpnd s c a) = v)
    (narrow : ¬ csrWide csr.toNat = true) (refused : ¬ (startState (csrwUses a) s c).csrAllows c.blk c.grp csr.toNat v = true) :
    CsrsStand c s (csrwEnd csr a st s c) ∧ ∀ L ∈ runs (csrwUses a) noOwn s c, (s.lane c L).helper = false →
      ((csrwEnd csr a st s c).lane c L).status = .parked ∧ ((csrwEnd csr a st s c).lane c L).cause = mkCause c 2 := by
  have result : csrwResult csr a s c =
      { s := (startState (csrwUses a) s c).setGrp c.blk c.grp { s.issuer c with latch := none, wbuf := none }
        parks := (countedLanes (csrwUses a) noOwn s c).map fun L => (L, mkCause c 2) } := by
    dsimp only [csrwResult]
    rw [hv, if_neg narrow, if_neg refused]
  have stand := (csrwEnd_stand (csr := csr) (a := a) (s := s) hn st).1
  have grp := csrsStand_setGrp (startState (csrwUses a) s c) c none none
  rw [startState_issuer] at grp
  refine ⟨((csrsStand_start ..).trans grp).trans (by rwa [result] at stand), fun L hL hh => ?_⟩
  have hrun := (mem_acting.mp (mem_runs.mp hL).1).1
  rw [State.lane, csrwEnd, finish_issuer, stall_lane, endGroup_lane _ _ _ _ _ _ hn, if_pos hrun, laneAfter, result, find_counted hL hh]
  exact ⟨rfl, rfl⟩

/-- Whatever its fate, a csrw changes no register and no memory. -/
theorem csrwEnd_keeps (hn : c.run.Nodup) (st : Stall) : (csrwEnd csr a st s c).cur = s.cur ∧
    (∀ key, (csrwEnd csr a st s c).reg c key = s.reg c key) ∧ (csrwEnd csr a st s c).mem = s.mem := by
  have all {t : State} (h : CsrsStand c s t) : t.cur = s.cur ∧ (∀ key, t.reg c key = s.reg c key) ∧ t.mem = s.mem := ⟨h.cur, h.regs, h.mem⟩
  by_cases wide : csrWide csr.toNat = true
  · exact all (csrwEnd_buffers hn st wide).1
  · by_cases allowed : (startState (csrwUses a) s c).csrAllows c.blk c.grp csr.toNat
        ((startState (csrwUses a) s c).csrNew c.blk c.grp csr.toNat (kOpnd s c a)) = true
    · obtain ⟨cur, regs, mem⟩ := all (csrsStand_held s c a csr.toNat)
      obtain ⟨cur', regs', mem'⟩ := csrPut_keeps (csrwHeld s c a csr.toNat) c csr.toNat
        ((startState (csrwUses a) s c).csrNew c.blk c.grp csr.toNat (kOpnd s c a))
      have put := csrwEnd_puts hn st rfl wide allowed
      exact ⟨put.cur.trans (cur'.trans cur), fun key => (put.regs key).trans ((regs' key).trans (regs key)), put.mem.trans (mem'.trans mem)⟩
    · exact all (csrwEnd_refuses hn st rfl wide allowed).1

end

/-! ## Values -/

theorem csrNew_narrow (s : State) (u g : Nat) {n : Nat} (w : Word) (h : ¬ csrHalf n = true) : s.csrNew u g n w = w.toNat := if_neg h

/-- An odd half joins the even half that the group has buffered (R105). -/
theorem csrNew_buffered {s : State} {u g n : Nat} {lo w : Word} (half : csrHalf n = true) (h : (s.grp u g).wbuf = some (n, lo)) :
    s.csrNew u g n w = lo.toNat + 2 ^ 32 * w.toNat := by
  simp [State.csrNew, half, h]

theorem dwordOf_eq (lo w : Word) : BitVec.ofNat 64 (lo.toNat + 2 ^ 32 * w.toNat) = dwordOf lo w := by
  apply BitVec.eq_of_toNat_eq
  rw [dwordOf, BitVec.toNat_append, Nat.shiftLeft_eq, Nat.mul_comm w.toNat, ← Nat.two_pow_add_eq_or_of_lt lo.isLt, BitVec.toNat_ofNat]
  have := lo.isLt
  have := w.isLt
  omega

theorem ofNat_toNat_word (w : Word) : BitVec.ofNat 32 w.toNat = w := by simp

section
variable (s : State) (c : Cur) (v : Nat)

theorem csrPut_fpcr : ((s.csrPut c.blk c.grp 0 v).issuer c).fpcr = BitVec.ofNat 32 v := congrArg Group.fpcr (setGrp_issuer ..)
theorem csrPut_fpsr : ((s.csrPut c.blk c.grp 1 v).issuer c).fpsr = BitVec.ofNat 32 v := congrArg Group.fpsr (setGrp_issuer ..)
theorem csrPut_stksave : ((s.csrPut c.blk c.grp 3 v).issuer c).stksave = BitVec.ofNat 64 v := congrArg Group.stksave (setGrp_issuer ..)
theorem csrPut_sbchk : ((s.csrPut c.blk c.grp 0x12 v).ctxOf c.blk).sbchk = BitVec.ofNat 32 v := congrArg Ctx.sbchk (ctx_setCtx ..)
theorem csrPut_quantum : ((s.csrPut c.blk c.grp 0x14 v).ctxOf c.blk).quantum = BitVec.ofNat 32 v := congrArg Ctx.quantum (ctx_setCtx ..)

end

/-- A CSR that is no half of a pair. -/
def csrSingle (n : Nat) : Prop := ¬ csrWide n = true ∧ ¬ csrHalf n = true

section
variable {csr : BitVec 16} {a : KReg} {s : State} {c : Cur}

theorem csrwEnd_puts_single (hn : c.run.Nodup) (st : Stall) (single : csrSingle csr.toNat)
    (allowed : (startState (csrwUses a) s c).csrAllows c.blk c.grp csr.toNat (kOpnd s c a).toNat = true) :
    CsrsStand c ((csrwHeld s c a csr.toNat).csrPut c.blk c.grp csr.toNat (kOpnd s c a).toNat) (csrwEnd csr a st s c) :=
  csrwEnd_puts hn st (csrNew_narrow _ _ _ _ single.2) single.1 allowed

theorem csrwEnd_refuses_single (hn : c.run.Nodup) (st : Stall) (single : csrSingle csr.toNat)
    (refused : ¬ (startState (csrwUses a) s c).csrAllows c.blk c.grp csr.toNat (kOpnd s c a).toNat = true) :
    CsrsStand c s (csrwEnd csr a st s c) ∧ ∀ L ∈ runs (csrwUses a) noOwn s c, (s.lane c L).helper = false →
      ((csrwEnd csr a st s c).lane c L).status = .parked ∧ ((csrwEnd csr a st s c).lane c L).cause = mkCause c 2 :=
  csrwEnd_refuses hn st (csrNew_narrow _ _ _ _ single.2) single.1 refused

end

/-- Settles O23: each number has one of the three fates. -/
theorem csrWrites : Obligations.CsrWrites := by
  unfold Obligations.CsrWrites
  intro csr a st s c h legal complete w
  have hn := h.nodup
  obtain ⟨cur, regs, mem⟩ := csrwEnd_keeps (csr := csr) (a := a) (s := s) hn st
  have single : ∀ n ∈ [0, 1, 0x12, 0x14, 0x800], csrSingle n := by simp [csrSingle, csrWide, csrHalf]
  have word := ofNat_toNat_word w
  refine ⟨_, csrw_next st h legal complete, cur.trans h.cur, ?fpcr, ?fpsr, ?even, ?odd, ?sbchk, ?quantum, ?hretain, ?range, ?refused, regs, mem⟩
  case fpcr =>
    rintro rfl hw
    exact (csrwEnd_puts_single (csr := 0#16) (s := s) hn st (single 0 (by simp)) (decide_eq_true hw)).fpcr.trans ((csrPut_fpcr ..).trans word)
  case fpsr =>
    rintro rfl hw
    exact (csrwEnd_puts_single (csr := 1#16) (s := s) hn st (single 1 (by simp)) (decide_eq_true hw)).fpsr.trans ((csrPut_fpsr ..).trans word)
  case even =>
    rintro rfl
    obtain ⟨stand, wbuf⟩ := csrwEnd_buffers (csr := 2#16) (a := a) (s := s) hn st rfl
    exact ⟨wbuf, stand.stksave⟩
  case odd =>
    rintro rfl lo buffered aligned
    have value : (startState (csrwUses a) s c).csrNew c.blk c.grp 3 w = lo.toNat + 2 ^ 32 * w.toNat :=
      csrNew_buffered rfl ((congrArg Group.wbuf (startState_issuer ..)).trans buffered)
    have multiple : (lo.toNat + 2 ^ 32 * w.toNat) % 256 = 0 := by omega
    exact (csrwEnd_puts (csr := 3#16) hn st value (by decide) (beq_iff_eq.mpr multiple)).stksave.trans ((csrPut_stksave ..).trans (dwordOf_eq lo w))
  case sbchk =>
    rintro rfl hw
    have put := csrwEnd_puts_single (s := s) hn st (csr := 0x12#16) (single 0x12 (by simp)) (decide_eq_true hw)
    exact (congrArg Ctx.sbchk put.ctx).trans ((csrPut_sbchk ..).trans word)
  case quantum =>
    rintro rfl
    have put := csrwEnd_puts_single (a := a) (s := s) hn st (csr := 0x14#16) (single 0x14 (by simp)) rfl
    exact (congrArg Ctx.quantum put.ctx).trans ((csrPut_quantum ..).trans word)
  case hretain =>
    rintro rfl hw
    have put := csrwEnd_puts_single (s := s) hn st (csr := 0x800#16) (single 0x800 (by simp)) (decide_eq_true hw)
    exact put.device.trans word
  case range =>
    rintro rfl hw
    exact (csrwEnd_refuses_single (s := s) hn st (csr := 0x800#16) (single 0x800 (by simp)) (fun e => Nat.not_le.mpr hw (of_decide_eq_true e))).1.device
  case refused =>
    intro beyond
    have refused : csrSingle csr.toNat ∧ ¬ (startState (csrwUses a) s c).csrAllows c.blk c.grp csr.toNat w.toNat = true := by
      rcases beyond with ⟨rfl, hw⟩ | ⟨rfl, hw⟩ | ⟨rfl, hw⟩
      · exact ⟨single 0 (by simp), fun e => Nat.not_lt.mpr hw (of_decide_eq_true e)⟩
      · exact ⟨single 1 (by simp), fun e => Nat.not_lt.mpr hw (of_decide_eq_true e)⟩
      · exact ⟨single 0x12 (by simp), fun e => Nat.not_lt.mpr hw (of_decide_eq_true e)⟩
    obtain ⟨stand, parks⟩ := csrwEnd_refuses_single hn st refused.1 refused.2
    exact ⟨stand.fpcr, stand.fpsr, parks⟩

end Sys2Proof.Machine
end

section
/-! LEMMAS AND PROOFS. Taking a trap: the stores of an entry leave the groups alone, and a trap in trap mode kills (O33). -/

namespace Sys2Proof.Machine

/-! ## What leaves the blocks as they are -/

@[simp] theorem State.blocks_foldl {α : Type} (f : State → α → State) (h : ∀ s x, (f s x).blocks = s.blocks) (l : List α) (s : State) :
    (l.foldl f s).blocks = s.blocks := foldl_keeps State.blocks f h l s

theorem State.blocks_ite (c : Prop) [Decidable c] (a b : State) : (if c then a else b).blocks = if c then a.blocks else b.blocks :=
  apply_ite State.blocks c a b

@[simp] theorem State.tellAll_blocks (s : State) (code : Nat) (data : List Byte) : (s.tellAll code data).blocks = s.blocks := by
  refine State.blocks_foldl _ ?_ _ s
  exact fun _ _ => rfl

@[simp] theorem State.pinGone_blocks (s : State) (stamp : Nat) : (s.pinGone stamp).blocks = s.blocks := State.tellAll_blocks ..

@[simp] theorem State.breakPin_blocks (s : State) (ctx h : Nat) : (s.breakPin ctx h).blocks = s.blocks := by
  unfold State.breakPin
  dsimp only
  split
  · rfl
  · split
    · exact State.pinGone_blocks ..
    · exact State.pinGone_blocks ..

@[simp] theorem State.reclaim_blocks (s : State) (stack : Nat) : (s.reclaim stack).blocks = s.blocks := by
  unfold State.reclaim
  dsimp only
  split
  · exact State.blocks_foldl (fun (s : State) (p : Nat × Nat) => s.breakPin p.1 p.2) (fun s p => s.breakPin_blocks p.1 p.2) _ s
  · rfl

@[simp] theorem State.logAppend_blocks (s : State) (line stamp : Nat) : (s.logAppend line stamp).blocks = s.blocks := by
  simp [State.logAppend, State.blocks_ite]

@[simp] theorem State.clearPoison_blocks (s : State) (off n : Nat) : (s.clearPoison off n).blocks = s.blocks := by
  refine State.blocks_foldl _ ?_ _ s
  exact fun _ _ => rfl

@[simp] theorem State.invalidate_blocks (s : State) (line : Nat) (core : Option Nat) (stamp : Nat) :
    (s.invalidate line core stamp).blocks = s.blocks := rfl

@[simp] theorem State.writeLocal_blocks (s : State) (key : BitVec 256) (off : Nat) (bs : List Byte) :
    (s.writeLocal key off bs).blocks = s.blocks := rfl

@[simp] theorem State.notePast_blocks (s : State) (a n : Nat) : (s.notePast a n).blocks = s.blocks := rfl

@[simp] theorem State.storeLocal_blocks (s : State) (key : BitVec 256) (off : Nat) (bs : List Byte) (hist rel : Bool) (floor : Nat)
    (core : Option Nat) : (s.storeLocal key off bs hist rel floor core).2.blocks = s.blocks := by
  simp only [State.storeLocal, State.invalidate_blocks, State.blocks_ite, State.clearPoison_blocks, State.writeLocal_blocks,
    State.notePast_blocks, State.logAppend_blocks, ite_self]
  split <;> rfl

@[simp] theorem State.tlbFill_blocks (s : State) (core ctx va : Nat) (ent : Nat × Nat × Nat) (tables : List (Nat × Nat)) :
    (s.tlbFill core ctx va ent tables).blocks = s.blocks := by
  refine State.blocks_foldl _ ?_ _ _
  exact fun _ _ => rfl

@[simp] theorem State.translate_blocks (s : State) (core ctx va : Nat) (acc : Acc) (cached : Bool) :
    (s.translate core ctx va acc cached).2.blocks = s.blocks := by
  unfold State.translate
  dsimp only
  (repeat' split) <;> simp

@[simp] theorem State.cirOf_blocks (s : State) (kern : Option Nat) (bit : Nat) : (s.cirOf kern bit).blocks = s.blocks := by
  cases kern <;> rfl

/-! ## The stores of an entry (R182, R228) -/

section
variable {ctx core floor va : Nat} {kern : Option Nat} {s t : State} {bs : List Byte}

/-- A store of the device that goes through leaves the blocks alone. -/
theorem devStore_blocks (h : s.devStore ctx core kern va bs false floor = .ok t) : t.blocks = s.blocks := by
  have look := s.translate_blocks core ctx va .store (s.mayCache 11)
  unfold State.devStore at h
  split at h
  · cases h
  split at h <;> rename_i e <;> rw [e] at look
  · cases h
  · next x r =>
    split at h
    · cases h
    split at h <;> cases h
    · exact (State.storeLocal_blocks ..).trans look
    · split
      · exact look
      · exact (State.cirOf_blocks ..).trans look
    · exact look

theorem devRun_blocks : ∀ {l : List (Nat × List Byte)} {s : State}, s.devRun ctx core kern floor l = .ok t → t.blocks = s.blocks
  | [], _, h => by cases h; rfl
  | (va, bs) :: l, s, h => by
    unfold State.devRun at h
    split at h
    · next r e => exact (devRun_blocks h).trans (devStore_blocks e)
    · next stop => exact absurd h (stop t)

theorem devStores_blocks {l : List (Nat × List Byte)} (h : s.devStores ctx core kern floor l = .ok t) : t.blocks = s.blocks := by
  unfold State.devStores at h
  split at h
  · cases h
  · split at h
    · cases h
    · exact devRun_blocks h

/-- Stores that go through one after another, as the device makes them. -/
theorem devRun_of_storesGo : ∀ {l : List (Nat × List Byte)} {s : State}, StoresGo ctx core floor s l t → s.devRun ctx core kern floor l = .ok t
  | [], s, h => by rw [show t = s from h]; rfl
  | (va, bs) :: l, s, ⟨fits, x, r, look, target, ready, rest⟩ => by
    have store : s.devStore ctx core kern va bs false floor =
        .ok (r.storeLocal (r.keyOf ctx) x.phys.off bs (bitOf x.leaf 4) false floor (some core)).2 := by
      have inside : ¬ crossesLine va bs.length = true := by simpa [crossesLine] using fits
      simp only [State.devStore, if_neg inside, look, ready, Bool.not_true, Bool.false_eq_true, if_false, target]
    rw [State.devRun, store]
    exact devRun_of_storesGo rest

/-- A store that may be written where its translation leads does not wait. -/
theorem devStore_not_wait {w : State} (h : ∀ x r, s.translate core ctx va .store (s.mayCache 11) = (.ok x, r) →
    r.writeReady x.phys (bitOf x.leaf 4) (bitOf x.leaf 5) = true) : s.devStore ctx core kern va bs false floor ≠ .wait w := by
  intro e
  unfold State.devStore at e
  split at e
  · cases e
  split at e
  · cases e
  · next x r look =>
    rw [h x r look] at e
    simp only [Bool.not_true, Bool.false_eq_true, if_false] at e
    split at e <;> cases e

theorem devStores_of_storesGo {l : List (Nat × List Byte)} (waits : NoneWaits ctx core s l) (go : StoresGo ctx core floor s l t) :
    s.devStores ctx core kern floor l = .ok t := by
  unfold State.devStores
  split
  · next w e =>
    obtain ⟨y, hy, he⟩ := List.exists_of_findSome?_eq_some e
    split at he <;> cases he
    next e' => exact absurd e' (devStore_not_wait (waits y hy))
  · rw [devRun_of_storesGo go]

end

/-! ## A trap in trap mode (R192) -/

/-- The groups that live, those cut short, and the kernels are the same. -/
structure SameLives (s t : State) : Prop where
  groups  : ∀ u g, (t.grp u g).live = (s.grp u g).live ∧ (t.grp u g).cut = (s.grp u g).cut
  kernels : t.kernels = s.kernels

theorem SameLives.refl (s : State) : SameLives s s := ⟨fun _ _ => ⟨rfl, rfl⟩, rfl⟩

theorem SameLives.trans {s t r : State} (a : SameLives s t) (b : SameLives t r) : SameLives s r :=
  ⟨fun u g => ⟨(b.groups u g).1.trans (a.groups u g).1, (b.groups u g).2.trans (a.groups u g).2⟩, b.kernels.trans a.kernels⟩

theorem sameLives_foldl {α : Type} {f : State → α → State} (h : ∀ s x, SameLives s (f s x)) : ∀ (l : List α) (s : State), SameLives s (l.foldl f s)
  | [], s => .refl s
  | x :: l, s => (h s x).trans (sameLives_foldl h l _)

/-- A block whose groups live and are cut short as before. -/
theorem sameLives_setBlk {s : State} {u : Nat} {b : Block}
    (h : ∀ g, (b.grp g).live = (s.grp u g).live ∧ (b.grp g).cut = (s.grp u g).cut) : SameLives s (s.setBlk u b) where
  groups v g := by
    by_cases e : v = u
    · subst e
      rw [state_grp_setBlk]
      exact h g
    · rw [State.grp, blk_setBlk_ne _ _ e]
      exact ⟨rfl, rfl⟩
  kernels := rfl

theorem sameLives_setGrp {s : State} {u g : Nat} {G : Group} (hl : G.live = (s.grp u g).live) (hc : G.cut = (s.grp u g).cut) :
    SameLives s (s.setGrp u g G) where
  groups v i := by
    by_cases e : (v, i) = (u, g)
    · obtain ⟨rfl, rfl⟩ := Prod.mk.inj e
      rw [state_grp_setGrp]
      exact ⟨hl, hc⟩
    · rw [grp_setGrp_other _ _ e]
      exact ⟨rfl, rfl⟩
  kernels := rfl

theorem sameLives_of_blocks {s t : State} (hb : t.blocks = s.blocks) (hk : t.kernels = s.kernels) : SameLives s t :=
  ⟨fun u g => by simp only [State.grp, State.blk, hb, and_self], hk⟩

/-! The releases of barriers -/

theorem foldl_release_lives (l : List Nat) (now : Nat) (sel : LaneStatus → Bool) (G : Group) :
    let H := l.foldl (fun G L => if sel (G.lane L).status then G.release L (pcAfter (G.lane L).pc 1) now else G) G
    H.live = G.live ∧ H.cut = G.cut := by
  have kept (G : Group) (L : Nat) : (if sel (G.lane L).status then G.release L (pcAfter (G.lane L).pc 1) now else G).live = G.live ∧
      (if sel (G.lane L).status then G.release L (pcAfter (G.lane L).pc 1) now else G).cut = G.cut := by
    split <;> exact ⟨rfl, rfl⟩
  exact ⟨foldl_keeps Group.live _ (fun G L => (kept G L).1) l G, foldl_keeps Group.cut _ (fun G L => (kept G L).2) l G⟩

theorem resume_lives (b : Block) (now : Nat) (sel : LaneStatus → Bool) (g : Nat) :
    ((b.resume now sel).grp g).live = (b.grp g).live ∧ ((b.resume now sel).grp g).cut = (b.grp g).cut := by
  refine mget_map_rel (R := fun G H : Group => H.live = G.live ∧ H.cut = G.cut) {} _ b.groups g (fun _ => rfl) ⟨rfl, rfl⟩ fun x _ => ?_
  dsimp only
  split
  · exact foldl_release_lives _ now sel x.2
  · exact ⟨rfl, rfl⟩

theorem sameLives_trace (s : State) (u g kind aux lo hi : Nat) : SameLives s (s.trace u g kind aux lo hi) := by
  unfold State.trace
  dsimp only
  split
  · exact sameLives_of_blocks rfl rfl
  · exact .refl s

theorem sameLives_traceResume (s : State) (u aux : Nat) (sel : LaneStatus → Bool) : SameLives s (s.traceResume u aux sel) := by
  refine sameLives_foldl (fun s x => ?_) _ s
  dsimp only
  split
  · exact .refl s
  · exact sameLives_trace ..

theorem sameLives_releaseFloor (s : State) (u g : Nat) (sc : Scope) : SameLives s (s.releaseFloor u g sc) := by
  have floor : SameLives s (s.setBlk u { s.blk u with floor := max (s.blk u).floor (s.grp u g).floor }) := sameLives_setBlk fun _ => ⟨rfl, rfl⟩
  unfold State.releaseFloor
  dsimp only
  split
  · exact .refl s
  · exact floor
  · exact floor.trans (sameLives_of_blocks rfl rfl)

theorem sameLives_acquireFloor (s : State) (u g : Nat) (sc : Scope) : SameLives s (s.acquireFloor u g sc) := sameLives_setGrp rfl rfl

theorem sameLives_blkTry (s : State) (u : Nat) : SameLives s (s.blkTry u) := by
  unfold State.blkTry
  dsimp only
  split
  · refine ((sameLives_traceResume s u _ _).trans ((sameLives_foldl (fun s g => sameLives_releaseFloor s u g .blk) _ _).trans
      (sameLives_foldl (fun s g => sameLives_acquireFloor s u g .blk) _ _))).trans (sameLives_setBlk fun g => ?_)
    exact resume_lives ..
  · exact .refl s

theorem sameLives_teamTry (s : State) (t : Nat) : SameLives s (s.teamTry t) := by
  unfold State.teamTry
  dsimp only
  generalize ((s.team t).blocks.map fun x => x.2 - 1).filter (fun u => (s.blk u).live) = us
  have traced := sameLives_foldl (f := fun (s : State) (u : Nat) => s.traceResume u 3 (· == .barTeam)) (fun s u => sameLives_traceResume ..)
  have released := sameLives_foldl (f := fun (s : State) (u : Nat) => (s.blk u).groups.foldl (fun s g => s.releaseFloor u g.1 .team) s)
    fun s u => sameLives_foldl (fun s (g : Nat × Group) => sameLives_releaseFloor s u g.1 .team) _ s
  have acquired := sameLives_foldl (f := fun (s : State) (u : Nat) => (s.blk u).groups.foldl (fun s g => s.acquireFloor u g.1 .team) s)
    fun s u => sameLives_foldl (fun s (g : Nat × Group) => sameLives_acquireFloor s u g.1 .team) _ s
  have resumed := sameLives_foldl (f := fun (s : State) (u : Nat) => s.setBlk u ((s.blk u).resume s.fresh (· == .barTeam)))
    fun s u => sameLives_setBlk fun g => resume_lives ..
  split
  · exact (((traced us s).trans (released us _)).trans (acquired us _)).trans (resumed us _)
  · exact .refl s

theorem sameLives_dropSuspended (s : State) (u g : Nat) : SameLives s (s.dropSuspended u g) := by
  have engines := sameLives_setGrp (s := s) (u := u) (g := g)
    (G := { s.grp u g with matq := if (s.grp u g).matq.any fun e => e.susp.isSome then [] else (s.grp u g).matq, tokens := [] }) rfl rfl
  unfold State.dropSuspended
  dsimp only
  split
  · exact engines
  · exact engines.trans (sameLives_of_blocks rfl rfl)

theorem endGroup_kills (s : State) (u g : Nat) : ((s.endGroup u g true).grp u g).live = false ∧ ((s.endGroup u g true).grp u g).cut = true ∧
    ∀ k, ((s.endGroup u g true).kernel k).cir = (s.kernel k).cir := by
  have kernels : (s.endGroup u g true).kernels = mset {} s.kernels (s.blk u).kernel
      { s.kernel (s.blk u).kernel with cutGroups := min ((s.kernel (s.blk u).kernel).cutGroups + 1) 0xFFFF } := rfl
  refine ⟨?_, ?_, fun k => ?_⟩
  · simp only [State.endGroup, if_true, State.grp, State.blk, Block.grp, State.setKernel, State.setBlk, Block.setGrp, mget_mset_self]
  · simp only [State.endGroup, if_true, State.grp, State.blk, Block.grp, State.setKernel, State.setBlk, Block.setGrp, mget_mset_self,
      Bool.true_or]
  · rw [State.kernel, kernels, mget_mset]
    split
    · next e => rw [← e]
    · rfl

/-- A group that is cut short is dead; its kernel keeps its check-interval register. -/
theorem cutGroup_kills (s : State) (u g : Nat) : ((s.cutGroup u g).grp u g).live = false ∧ ((s.cutGroup u g).grp u g).cut = true ∧
    ∀ k, ((s.cutGroup u g).kernel k).cir = (s.kernel k).cir := by
  obtain ⟨dead, cut, cir⟩ := endGroup_kills (s.dropSuspended u g) u g
  obtain ⟨groups, kernels⟩ := (sameLives_blkTry ((s.dropSuspended u g).endGroup u g true) u).trans (sameLives_teamTry _
    (((s.dropSuspended u g).endGroup u g true).blk u).team)
  refine ⟨(groups u g).1.trans dead, (groups u g).2.trans cut, fun k => ?_⟩
  rw [State.cutGroup, State.kernel, kernels]
  exact (cir k).trans (by rw [State.kernel, (sameLives_dropSuspended s u g).kernels]; rfl)

/-- An event sets its bit (R109). -/
theorem cirEvent_bit {cir : Word} {bit : Nat} (h : bit < 16) : (cirEvent cir bit).getLsbD bit = true := by
  have low : cir.toNat % 65536 ||| 2 ^ bit < 2 ^ 16 := Nat.or_lt_two_pow (Nat.mod_lt _ (by decide)) (Nat.pow_lt_pow_right (by decide) h)
  have wide : bit < 32 := by omega
  rw [cirEvent, BitVec.getLsbD_ofNat, decide_eq_true wide, Bool.true_and, Nat.add_comm, Nat.testBit_two_pow_mul_add _ low, if_pos h,
    Nat.testBit_or, Nat.testBit_two_pow_self, Bool.or_true]

theorem doubleTrap_kills (s : State) (u g : Nat) : ((s.doubleTrap u g).grp u g).live = false ∧ ((s.doubleTrap u g).grp u g).cut = true ∧
    ((s.doubleTrap u g).kernel (s.blk u).kernel).cir.getLsbD 6 = true := by
  obtain ⟨dead, cut, cir⟩ := cutGroup_kills (s.cirBlk u 6) u g
  refine ⟨dead, cut, ?_⟩
  rw [State.doubleTrap, cir, State.cirBlk, State.setCir, kernel_setKernel]
  exact cirEvent_bit (by decide)

/-! ## The entry (R107, R108, R182) -/

theorem serve_nodup (G : Group) : G.serve.Nodup := by
  have leads : G.leading.Nodup := (((List.nodup_range.filter _).filter _).filter _).filter _ |>.filter _
  rw [serve_eq]
  split
  · exact leads.filter _
  · exact leads

/-- What the device stores is what the rules list. -/
theorem entryStores_eq (s : State) (u g : Nat) : s.entryStores u g = entryStores s u g := by
  unfold State.entryStores entryStores entryRecords
  dsimp only [State.grp]
  congr 1
  split <;> rfl

/-- The group of an entry that is made. -/
def enteredGroup (s s' : State) (u g vec : Nat) : Group :=
  let G := s.grp u g
  let l := G.lane (G.serve.headD 0)
  let H := G.serve.foldl (fun H L => H.setLane L ((H.lane L).enterHandler vec)) G
  { H with
    tcause := BitVec.ofNat 32 (l.cause.code + 256 * l.cause.number + if l.cause.late then 2 ^ 15 else 0)
    trec := BitVec.ofNat 32 (if l.cause.words = 0 then s'.wordsAt u l.pc else l.cause.words)
    tpc := BitVec.ofNat 64 l.pc, tva := BitVec.ofNat 64 (entryVa s u g), tlanes := BitVec.ofNat 32 (maskOf G.serve)
    trapped := true, served := G.serve, round := []
    sfq := H.sfq.filter fun r => !(entryRecords s u g).contains r }

/-- An entry whose stores went through changes its group to that, and counts itself. -/
theorem trapEntry_eq {s s' : State} {u g : Nat} (ready : s.entryReady u g = true) (vec : (s.ctx (s.blk u).ctx).trapvec ≠ 0#64)
    (stored : s.devStores (s.blk u).ctx ((s.blk u).core.getD 0) (some (s.blk u).kernel) (s.grp u g).floor (entryStores s u g) = .ok s') :
    s.trapEntry u g = (s'.setGrp u g (enteredGroup s s' u g (s.ctx (s.blk u).ctx).trapvec.toNat)).count (s.blk u).ctx 0x0C 1 := by
  have same : (s'.blk u).grp g = (s.blk u).grp g := congrArg (fun b => (mget {} b u : Block).grp g) (devStores_blocks stored)
  have late (c : Cause) : (if isLate c then c.va else 0) = if c.late = true ∨ (11 ≤ c.code ∧ c.code ≤ 14) then c.va else 0 := by
    simp [isLate]
  rw [← entryStores_eq] at stored
  unfold State.trapEntry
  simp only [ready, Bool.not_true, Bool.false_eq_true, if_false, if_neg vec]
  rw [show (s.blk u).grp g = s.grp u g from rfl, stored]
  dsimp only
  rw [same, late]
  rfl

theorem trapEntry_enters {s s' : State} {u g : Nat} (ready : s.entryReady u g = true) (vec : (s.ctx (s.blk u).ctx).trapvec ≠ 0#64)
    (stored : s.devStores (s.blk u).ctx ((s.blk u).core.getD 0) (some (s.blk u).kernel) (s.grp u g).floor (entryStores s u g) = .ok s') :
    Entered s u g s' (s.trapEntry u g) := by
  have group : (s.trapEntry u g).grp u g = enteredGroup s s' u g (s.ctx (s.blk u).ctx).trapvec.toNat := by
    rw [trapEntry_eq ready vec stored]
    exact state_grp_setGrp ..
  obtain ⟨lanes, rest⟩ := fold_setLane (fun _ l => l.enterHandler (s.ctx (s.blk u).ctx).trapvec.toNat) (s.grp u g).serve (s.grp u g)
    (serve_nodup _)
  constructor
  case mem => rw [trapEntry_eq ready vec stored]; rfl
  all_goals rw [group]
  case mode => exact ⟨rfl, rfl⟩
  case lanes => exact fun L hL => (lanes L).trans (if_pos hL)
  case others => exact fun L hL => (lanes L).trans (if_neg hL)
  case sfq => exact (congrArg (fun G : Group => G.sfq.filter fun r => !(entryRecords s u g).contains r) rest :)
  case regs => exact fun n => (congrArg (fun G : Group => mget 0#32 G.k n) rest :)
  all_goals rfl

/-- Settles O33: an entry whose stores go through is the device's list of stores, then the group's change; a vector of 0 cuts the group short. -/
theorem trapTaking : Obligations.TrapTaking := by
  constructor
  · intro u g s s' ready vec waits go
    exact ⟨_, rfl, trapEntry_enters ready vec (devStores_of_storesGo waits go)⟩
  · intro u g s
    refine ⟨s.trapEntry u g, rfl, fun idle => ?_, fun ready vec => ?_, fun s' ready vec => trapEntry_enters ready vec⟩
    · exact if_pos (by rw [idle]; rfl)
    · have double : s.trapEntry u g = s.doubleTrap u g := by
        unfold State.trapEntry
        simp only [ready, vec, Bool.not_true, Bool.false_eq_true, if_false, if_true]
      rw [double]
      exact doubleTrap_kills s u g

end Sys2Proof.Machine
end
